-- ==== Sys2Proof/Word.lean ====
section
/-! DEFINITION. The word and byte types of register space and memory. -/
namespace Sys2Proof

/-- A 32-bit word as a requester writes it to, or reads it from, register space (R20). -/
abbrev Word := BitVec 32

/-- One byte of memory. -/
abbrev Byte := BitVec 8

end Sys2Proof
end

