-- ==== Sys2Proof/Syntax.lean ====
section
/-! DEFINITION. The commands: who sends them, what they carry, one constructor for each row of spec/opcode_table.json. -/
namespace Sys2Proof

/-- A requester of register space (R9, R19): an application core, Chrysalis, a PCIe function (0 is PF0), a session host
acting for a function through the firmware (R339), or the debug probe's bus port (R270). -/
inductive Req where
  | core (h : Fin 4)
  | chrysalis
  | fn (f : Fin 512)
  | session (slot : Fin 4) (f : Fin 512)
  | probe
  deriving DecidableEq, Repr


/-- The commands of the block: one constructor for each row of the table of operations and events. -/
inductive Instr where
  /-- REGISTER_WRITE (R20). A write to a register that has no row of its own is checked against ownership and width and, if accepted, sets the field. -/
  | registerWrite (r : Req) (p : Fin 1024) (off : Fin 4096) (sz : Fin 4) (d : BitVec 64)
  /-- SNAPSHOT_READ (R9). A read of a _LO register or a lead register such as STP_LDG_SFC takes the requester's snapshot of its pair, triple or range. -/
  | snapshotRead (r : Req) (p : Fin 1024) (off : Fin 4096) (sz : Fin 4)
  /-- READ_CLEAR (R3). A read of an rsc field returns the field and then clears it. -/
  | readClear (r : Req) (p : Fin 1024) (off : Fin 4096)
  /-- STEP_WORD_WRITE (R17). A write to the step store window updates a step word when its high half is written and recomputes the check bits. -/
  | stepWordWrite (r : Req) (a : Fin 1572864) (sz : Fin 4) (d : BitVec 64)
  /-- STEP_WORD_READ (R16). A read of a step word through the window corrects any single-bit error and returns the slot as R10 forms it. -/
  | stepWordRead (r : Req) (a : Fin 1572864) (sz : Fin 4)
  /-- SOFT_RESET (R480). A write of xxx_CTRL.soft_reset sets reset_busy and starts returning the block's registers to reset values. -/
  | softReset (r : Req) (p : Fin 1024) (d : Word)
  /-- SOFT_RESET_DONE (R480). The soft reset completes, the registers hold their reset values and reset_busy clears. -/
  | softResetDone (p : Fin 1024)
  /-- CTRL_LOCK (R3). A write of 1 to xxx_CTRL.lock makes xxx_CTRL and the block's lockable registers read-only until a reset of the block. -/
  | ctrlLock (r : Req) (p : Fin 1024) (d : Word)
  /-- INT_FORCE (R22). A write to xxx_INT_FORCE sets the matching xxx_INT_STAT bits and raises the block interrupt where enabled. -/
  | intForce (r : Req) (p : Fin 1024) (d : Word)
  /-- HEARTBEAT_SEND (R13). Every 1 ms while FABRIC is on, the control die sends a heartbeat to the field die. -/
  | heartbeatSend (valid : Bool)
  /-- HEARTBEAT_SILENCE (R13). After 10 ms without a valid heartbeat, the field die declares the control die silent, switches off all load channels and acts on the field points. -/
  | heartbeatSilence
  /-- FIELD_ACCESS_TIMEOUT (R14). A FIO, LDC or IDM access that gets no answer within 20 µs ends with a decode error and IDM_STAT records the timeout. -/
  | fieldAccessTimeout (r : Req) (k : Fin 3) (off : Fin 4096) (write : Bool)
  /-- SUPERFRAME_BOUNDARY (R33). At boundary B(k+1) each bank engine starts its work for superframe k with phases A and B, and the superframe count advances. -/
  | superframeBoundary
  /-- VCORE_LOWER_COUNT (R488). When the VCORE loop count reaches 1,024 superframes, the loop tests for lowering VCORE and restarts the count. -/
  | vcoreLowerCount (hi : Bool)
  /-- SLACK_LOW_RUN (R488). A run of 64 superframes at 900 mV with low slack sets slack_low and writes a VCORE record. -/
  | slackLowRun (hi : Bool)
  /-- VCORE_FAULT (R36). An island regulator leaves its target by more than 30 mV and sets PWR_INT_STAT.vcore_fault. -/
  | vcoreFault (d : Fin 7)
  /-- SLACK_MIN_RESET (R34). A write of PWR_SLACKn.min_rst restarts slack_min at 0xFF. -/
  | slackMinReset (r : Req) (b : Fin 32)
  /-- PHASE_C_START (R159). Once every bank has ended phase C of the previous superframe and its tally is published, a bank runs phase C: Looper evaluation and step entries. -/
  | phaseCStart (b : Fin 32) (slack : Fin 256)
  /-- BANK_DEADLINE (R35). When D(k) passes before a bank has completed superframe k, the bank is LATE and repeats its previous words, or sends off and trips with cause LATE after a second LATE. -/
  | bankDeadline (b : Fin 32)
  /-- GATE_TALLY (R158). After every bank has ended phase C, each gate group is tallied and released by count or by a pending release command. -/
  | gateTally
  /-- LEDGER_WORK (R198). Once every powered bank has ended phase C, the bus ledger computes grants, delays and clips from the requests and writes its results. -/
  | ledgerWork
  /-- LEDGER_MISS (R194). When the ledger work for superframe k has not ended at B(k+2), every bank repeats its words and the miss counts as LATE. -/
  | ledgerMiss
  /-- DOM_REQ_ON (R44). A PWR_DOM_REQ write with on = 1 checks the request and starts switching the domain on, or refuses it with a status. -/
  | domReqOn (r : Req) (d : Word)
  /-- DOM_REQ_OFF (R45). A PWR_DOM_REQ write with on = 0 checks ownership and dependencies and starts draining and switching the domain off, or refuses it. -/
  | domReqOff (r : Req) (d : Word)
  /-- DOMAIN_ON_DONE (R47). A domain reaches on with its registers at reset values and PWR_REQ_STAT becomes DONE. -/
  | domainOnDone (d : Fin 8) (ticks : Nat)
  /-- DOMAIN_OFF_DONE (R47). A domain's accepted accesses have completed and it switches off. -/
  | domainOffDone (d : Fin 8)
  /-- CLK_GATE_WRITE (R52). A CLK_GATE write is checked bit by bit against ownership, and refused bits are recorded with clk_denied. -/
  | clkGateWrite (r : Req) (d : Word)
  /-- RST_CMD_WARM (R53). An RST_CMD write with key 0x7A51 and kind warm starts a warm reset. -/
  | rstCmdWarm (r : Req) (d : Word)
  /-- RST_CMD_COLD (R53). An RST_CMD write with key 0x7A51 and kind cold starts a cold reset. -/
  | rstCmdCold (r : Req) (d : Word)
  /-- RESET_PIN (R53). RESET_N held low for at least 1 µs starts a cold reset. -/
  | resetPin
  /-- POWER_ON_RESET (R53). VSUP below its threshold or an AON supply failure starts a power-on reset. -/
  | powerOnReset
  /-- BROWNOUT (R476). Island regulator undervoltage starts a cold reset with RST_CAUSE.brownout. -/
  | brownout
  /-- WATCHDOG_EXPIRY (R53). Watchdog expiry starts a warm reset, or a cold reset if it is the second within 1 s. -/
  | watchdogExpiry (second : Bool)
  /-- WATCHDOG_KICK (R53). A write of 0x0000_A5A5 to RST_WDT_KICK restarts the watchdog period; any other value counts as expiry. -/
  | watchdogKick (r : Req) (d : Word) (second : Bool)
  /-- DEBUG_COLD_REQUEST (R53). A debug cold request starts a cold reset. -/
  | debugColdRequest
  /-- START_UP (R57). After reset release, start-up runs through the AON, VBAT read, FABRIC and SEC on, boot ROM, tamper check, DRAM, bank choice, key unlock and core 0 start steps. -/
  | startUp (train : Bool)
  /-- AON_XTAL_SWITCH (R57). Once the crystal is stable, CK_AON switches from the RC oscillator to the crystal. -/
  | aonXtalSwitch
  /-- SLEEP_ENTER (R58). PWR_SLEEP_CTRL.enter with mode SLEEP stops the downlinks, saves open records and switches off all domains. -/
  | sleepEnter (r : Req) (d : Word)
  /-- AGEING_WATCH_ENTER (R58). PWR_SLEEP_CTRL.enter with mode AGEING_WATCH is refused unless every armed channel is in an open-circuit step, and otherwise enters ageing watch. -/
  | ageingWatchEnter (r : Req) (d : Word)
  /-- WAKE (R59). An enabled wake source ends SLEEP or AGEING_WATCH and runs start-up from step 2 with RST_CAUSE.wake. -/
  | wake (src : Fin 5)
  /-- SLEEP_TIMER_WAKE (R59). With timer wake enabled, SLEEP ends PWR_AW_PERIOD seconds after entry. -/
  | sleepTimerWake
  /-- AW_WAKE_CYCLE (R60). The ageing-watch wake timer starts a wake cycle: FABRIC and the banks come on, links retrain, voltages are averaged, OCV is stored and steps are evaluated. -/
  | awWakeCycle (a ticks dur : Nat) (ids : List (Fin 32 × List Word)) (avg : List (Fin 512 × Int × Int))
  /-- UPLINK_FRAME (R65). An uplink frame is received: its stream bits feed the decimators, its sync is checked and its side-channel bits are collected. -/
  | uplinkFrame (b : Fin 32) (sync side : Fin 4) (bits : BitVec 36)
  /-- DOWNLINK_FRAME (R69). At each frame slot, the device sends a downlink frame carrying the trip bit and the slot payload. -/
  | downlinkFrame (b : Fin 32)
  /-- LOST_LINK (R86). No uplink transition for 400 ns, or receiver unlock, trips the bank with cause LINK and starts retraining from SEEK. -/
  | lostLink (b : Fin 32)
  /-- LINK_TRAIN (R81). A BNK_LINK_CTRL.train write starts SEEK from OFF or FAILED. -/
  | linkTrain (r : Req) (b : Fin 32) (d : Word)
  /-- LINK_DROP (R90). A BNK_LINK_CTRL.drop write, when no channel is armed, makes a planned stop of the link. -/
  | linkDrop (r : Req) (b : Fin 32) (d : Word)
  /-- ID_ACCEPT (R89). A BNK_LINK_CTRL.id_accept write makes the new identity the one in use, reloads calibration and ends the gap. -/
  | idAccept (r : Req) (b : Fin 32) (d : Word)
  /-- ID_REJECT (R89). A BNK_LINK_CTRL.id_reject write aborts every armed channel of the bank to its fault step. -/
  | idReject (r : Req) (b : Fin 32) (d : Word)
  /-- LINK_SEEK_DETECT (R81). In SEEK, uplink transitions are detected and link-up starts. -/
  | linkSeekDetect (b : Fin 32)
  /-- LINK_LOCK (R81). The receiver locks to the uplink clock pattern and the link enters ALIGN and sends training frames. -/
  | linkLock (b : Fin 32)
  /-- LINK_ALIGN_DONE (R81). After 64 consecutive correct echoes, the round-trip time is measured and the link enters SFSYNC. -/
  | linkAlignDone (b : Fin 32) (rtt : Fin 65536)
  /-- LINK_SFSYNC_DONE (R81). After 16 consecutive good uplink superframes, the link enters IDREAD and reads the identity record. -/
  | linkSfsyncDone (b : Fin 32)
  /-- IDREAD_DONE (R79). The identity record is read and checked, calibration is loaded, and the link enters UP, ID_BAD or ID_CHANGED. -/
  | idreadDone (b : Fin 32) (w : List Word)
  /-- LINK_TRAIN_TIMEOUT (R82). A link-up step not completed in time ends link-up in FAILED with fail_phase and train_fail. -/
  | linkTrainTimeout (b : Fin 32) (n : Fin 9)
  /-- LINK_RETRY_TIMER (R82). 100 ms after FAILED with auto = 1, the link returns to SEEK. -/
  | linkRetryTimer (b : Fin 32)
  /-- CAL_SHADOW_WRITE (R103). A write to BNK_CAL_GAIN, BNK_CAL_OFFSET or BNK_CAL_TC changes the shadow entry of the selected stream and marks it dirty. -/
  | calShadowWrite (r : Req) (b : Fin 32) (sel : Fin 3) (d : Word)
  /-- CAL_COMMIT (R103). A BNK_CAL_CMD.commit write schedules the dirty shadow entries for the next superframe or the named one. -/
  | calCommit (r : Req) (b : Fin 32) (d : Word)
  /-- CAL_COMMIT_TAKES_EFFECT (R103). At its superframe, a pending commit copies every dirty shadow entry into the set in use. -/
  | calCommitTakesEffect (b : Fin 32)
  /-- CAL_DISCARD (R103). A BNK_CAL_CMD.discard write clears the dirty marks, reloads the shadows and cancels a pending commit. -/
  | calDiscard (r : Req) (b : Fin 32) (d : Word)
  /-- CAL_RELOAD (R104). A BNK_CAL_CMD.reload write starts a re-read of the identity record of the UP link. -/
  | calReload (r : Req) (b : Fin 32) (d : Word)
  /-- CAL_RELOAD_DONE (R104). A reload ends: the set loads at a boundary, or reload_result reports a failed or differing record. -/
  | calReloadDone (b : Fin 32) (w : List Word)
  /-- AUX_SEL_WRITE (R75). A BNK_AUX_SEL write that changes a select is sent in slot 16 and marks the settle samples invalid. -/
  | auxSelWrite (r : Req) (b : Fin 32) (d : Word)
  /-- LOG_WINDOW_END (R111). At a window boundary of a logging profile, channel and bank records are issued to the profile's queue. -/
  | logWindowEnd (n : Fin 8)
  /-- LOG_CONFIG_WRITE (R113). A write to LGR_PROFn, LGR_CHMAPn or LGR_BKMAPn takes effect at the next boundary and closes affected windows as partial. -/
  | logConfigWrite (r : Req) (w : Fin 132) (d : Word)
  /-- CHN_ARM (R121). A CHN_CMD.arm write is checked and is pending, or is refused with a result code. -/
  | chnArm (r : Req) (c : Fin 512) (d : Word)
  /-- CHN_DISARM (R122). A CHN_CMD.disarm write schedules the channel to enter DISARMED with off words and stopped integrators. -/
  | chnDisarm (r : Req) (c : Fin 512) (d : Word)
  /-- CHN_APPLY (R123). A CHN_CMD.apply write schedules the dirty shadows to go into force. -/
  | chnApply (r : Req) (c : Fin 512) (d : Word)
  /-- CHN_PRESET (R136). A CHN_CMD.preset write schedules the load of a counter, and is accepted only in DISARMED. -/
  | chnPreset (r : Req) (c : Fin 512) (d : Word)
  /-- CHN_DISCARD (R123). A CHN_CMD.discard write reloads the shadows from the values in force at once. -/
  | chnDiscard (r : Req) (c : Fin 512) (d : Word)
  /-- CHN_CMD_TAKES_EFFECT (R486). At its superframe, a pending channel command is checked again and then takes effect or ends with a result code. -/
  | chnCmdTakesEffect (c : Fin 512)
  /-- CHN_ENABLE_CLEAR (R122). Clearing CHN_CTRL.enable acts as a disarm with at = 0. -/
  | chnEnableClear (r : Req) (c : Fin 512) (d : Word)
  /-- BNK_CHN_ARM (R141). A BNK_CHN_CMD.arm write arms every selected channel that the requester owns, in one superframe. -/
  | bnkChnArm (r : Req) (b : Fin 32) (d : Word)
  /-- BNK_CHN_DISARM (R141). A BNK_CHN_CMD.disarm write disarms every selected channel that the requester owns. -/
  | bnkChnDisarm (r : Req) (b : Fin 32) (d : Word)
  /-- BNK_CHN_APPLY (R141). A BNK_CHN_CMD.apply write applies the dirty shadows of every selected channel. -/
  | bnkChnApply (r : Req) (b : Fin 32) (d : Word)
  /-- LP_SWAP (R166). A CHN_LP_CMD.swap write arms a redirect of the next step end to the CHN_LP_PEND target. -/
  | lpSwap (r : Req) (c : Fin 512) (d : Word)
  /-- LP_CANCEL (R166). A CHN_LP_CMD.cancel write disarms a pending redirect. -/
  | lpCancel (r : Req) (c : Fin 512) (d : Word)
  /-- LP_JUMP (R166). A CHN_LP_CMD.jump write ends the current step and enters the CHN_LP_PEND target. -/
  | lpJump (r : Req) (c : Fin 512) (d : Word)
  /-- LP_ABORT (R166). A CHN_LP_CMD.abort write ends the current step and enters the fault step with error SOFTWARE. -/
  | lpAbort (r : Req) (c : Fin 512) (d : Word)
  /-- LP_RELEASE (R161). A CHN_LP_CMD.release write releases a channel in WAIT_RELEASE with the chosen resume action. -/
  | lpRelease (r : Req) (c : Fin 512) (d : Word)
  /-- LP_CMD_TAKES_EFFECT (R167). At its superframe, a pending Looper command takes effect or ends with a result code. -/
  | lpCmdTakesEffect (c : Fin 512)
  /-- GATE_RELEASE_CMD (R158). An STP_GATE_CMD.release write schedules a forced release of a gate group at a tally. -/
  | gateReleaseCmd (r : Req) (d : Word)
  /-- BANK_TRIP_CLEAR (R186). A BNK_TRIP_CMD.clear write schedules a clear of the bank trip with a clear action. -/
  | bankTripClear (r : Req) (b : Fin 32) (d : Word)
  /-- TRIP_TEST_A (R176). A BNK_TRIP_CMD.test_a write makes comparator set A alone see an excess on its next trip sample. -/
  | tripTestA (r : Req) (b : Fin 32) (d : Word)
  /-- TRIP_TEST_B (R176). A BNK_TRIP_CMD.test_b write makes comparator set B alone see an excess on its next trip sample. -/
  | tripTestB (r : Req) (b : Fin 32) (d : Word)
  /-- CHN_TRIP_CLEAR (R186). A CHN_TRIP_CMD.clear write schedules a clear of the channel latch with a clear action. -/
  | chnTripClear (r : Req) (c : Fin 512) (d : Word)
  /-- TRIP_CLEAR_TAKES_EFFECT (R187). Before phase B of its superframe, a clear is judged and either releases channels with their clear_act or ends with PRESENT, NOT_TRIPPED or NO_LINK. -/
  | tripClearTakesEffect (b : Fin 32)
  /-- TRIP_FORCE (R179). A TRP_FORCE write trips each named bank with cause FORCE. -/
  | tripForce (r : Req) (d : Word)
  /-- TRIP_HOLD_EXPIRY (R181). When hold_sf superframes pass without a trip-bit cause, an ACTIVE bank becomes LATCHED and the trip bit clears. -/
  | tripHoldExpiry (b : Fin 32)
  /-- TRIP_DISAGREE_WINDOW (R176). A trip by one set that the other does not match within eight trip samples counts in TRP_DISAGREE. -/
  | tripDisagreeWindow (b : Fin 32)
  /-- LDG_APPLY (R202). An STP_LDG_CMD.apply write schedules the dirty ledger shadows for a superframe. -/
  | ldgApply (r : Req) (d : Word)
  /-- LDG_APPLY_TAKES_EFFECT (R202). At the start of the ledger work of its superframe, a pending apply copies the dirty STP shadows into force. -/
  | ldgApplyTakesEffect
  /-- LDG_DISCARD (R202). An STP_LDG_CMD.discard write reloads the ledger shadows from the values in force. -/
  | ldgDiscard (r : Req) (d : Word)
  /-- GRD_ENTRY_NOTICE (R206). The grading unit receives an entry notice, gives the step a role and may open or seal a record. -/
  | grdEntryNotice
  /-- GRD_STEP_END (R205). The grading unit takes a step-end event into the open record, or seals it on DISARM. -/
  | grdStepEnd
  /-- GRD_OPEN (R206). A GRD_CH_CMD.open write makes the next RUN entry notice open a record. -/
  | grdOpen (r : Req) (d : Word)
  /-- GRD_SEAL (R207). A GRD_CH_CMD.seal write schedules a seal of the open record at the next superframe. -/
  | grdSeal (r : Req) (d : Word)
  /-- GRD_SEAL_TAKES_EFFECT (R207). At the next superframe, the open record is sealed as aborted. -/
  | grdSealTakesEffect (c : Fin 512)
  /-- GRD_DISCARD (R207). A GRD_CH_CMD.discard write empties the open slot without sealing. -/
  | grdDiscard (r : Req) (d : Word)
  /-- GRD_SIGN_DONE (R217). The crypto engine finishes signing a sealed record, or the sign fails and the record stays unsigned. -/
  | grdSignDone
  /-- GRD_RECORD_EMIT (R219). The queue pool accepts a signed record, the output slot empties and a waiting record moves into it. -/
  | grdRecordEmit
  /-- GRD_OCV_POINT (R212). In a RUN step with role AGE, every PWR_AW_PERIOD the grading unit takes an OCV point from its own tap. -/
  | grdOcvPoint (c : Fin 512)
  /-- PLK_FRAME (R226). A pair-link frame is received; at the end of a PLK superframe its CRC is checked and its masks, digests and transfer words are taken. -/
  | plkFrame (sync : Fin 4) (w : BitVec 36) (off : BitVec 16)
  /-- PLK_UP (R225). PLK trains and reaches UP after 16 superframes that pass the CRC. -/
  | plkUp
  /-- PLK_LOST (R225). PLK is lost on silence, CRC failures, count mismatch or boundary drift, and retrains. -/
  | plkLost
  /-- PARTNER_FAIL (R233). PAIR_FAIL_N low for 200 ns sets partner_fail and makes every bank ACTIVE. -/
  | partnerFail
  /-- PAIR_ENABLE (R228). Setting PAIR_CTRL.enable makes every bank OUT and then ACTIVE or OUT as R228 decides. -/
  | pairEnable (r : Req) (d : Word)
  /-- PAIR_SYNC (R238). A PAIR_CMD.sync write starts bringing every bank from OUT to STANDBY through snapshot and replay. -/
  | pairSync (r : Req) (d : Word) (peer : List Word)
  /-- PAIR_ABORT_SYNC (R239). A PAIR_CMD.abort_sync write ends a sync with PLK_LOST. -/
  | pairAbortSync (r : Req) (d : Word)
  /-- PAIR_FAIL_CMD (R224). A PAIR_CMD.fail write drives PAIR_FAIL_N low until the next reset. -/
  | pairFailCmd (r : Req) (d : Word)
  /-- PAIR_YIELD (R235). A PAIR_CMD.yield write sends a yield request for the selected ACTIVE banks. -/
  | pairYield (r : Req) (d : Word)
  /-- SYNC_SNAPSHOT_LOADED (R238). Once the whole snapshot has arrived, the syncing device loads it and starts replay. -/
  | syncSnapshotLoaded (vals : List (Nat × Nat))
  /-- SYNC_REPLAY_LIVE (R238). When replay reaches live superframes, the banks run live and are compared. -/
  | syncReplayLive
  /-- SYNC_DONE (R239). After 64 matching superframes each bank becomes STANDBY; on any other outcome every bank returns to OUT. -/
  | syncDone
  /-- PAIR_REC_HOLD_EXPIRY (R240). A standby's sealed record is discarded when rec_hold_ms passes without a takeover. -/
  | pairRecHoldExpiry (c : Fin 512)
  /-- GWGATE (R247). The GWGATE instruction runs the gateway checks for a selector and writes the failing subcode or 0. -/
  | gwgate (h : Fin 4) (rd rs1 : Fin 32)
  /-- GWCALL (R249). The GWCALL instruction checks a gate, pushes the gateway stack and enters the target world at the gate entry. -/
  | gwcall (h : Fin 4) (rs1 : Fin 32)
  /-- GWRET (R250). The GWRET instruction pops the gateway stack and returns to the caller's pc, privilege and world. -/
  | gwret (h : Fin 4)
  /-- GWRESUME (R257). The GWRESUME instruction resumes a cocoon on the hart from its save area. -/
  | gwresume (h : Fin 4) (rs1 : Fin 32)
  /-- GWID (R247). The GWID instruction writes the world, cocoon and gateway stack depth to rd. -/
  | gwid (h : Fin 4) (rd : Fin 32)
  /-- TRAP (R243). An interrupt or exception traps the hart into M-mode in the secure world. -/
  | trap (h : Fin 4) (cause tval : BitVec 64)
  /-- MRET (R243). The mret instruction returns the hart to the world named by mworld.pw. -/
  | mret (h : Fin 4)
  /-- COC_CREATE (R253). A SEC_COC_CMD.create write checks the ranges and makes a FREE cocoon OPEN. -/
  | cocCreate (r : Req) (d : Word)
  /-- COC_SEAL (R254). A SEC_COC_CMD.seal write closes the ranges and starts zeroing, write-back and measurement. -/
  | cocSeal (r : Req) (d : Word)
  /-- COC_SEAL_DONE (R254). The measurement is written and the cocoon enters SEALED. -/
  | cocSealDone (n : Fin 16)
  /-- COC_DESTROY (R258). A SEC_COC_CMD.destroy write enters DESTROYING, forces harts out and starts zeroing the ranges. -/
  | cocDestroy (r : Req) (d : Word)
  /-- COC_DESTROY_DONE (R258). The ranges are zeroed, offers withdrawn, pages reclaimed, key slots invalidated, and the cocoon enters FREE. -/
  | cocDestroyDone (n : Fin 16)
  /-- WM_WRITE (R245). A write to a SEC watermark register takes effect, or is refused when it would expose a cocoon or the pool. -/
  | wmWrite (r : Req) (w : Fin 4) (d : Word)
  /-- L2_MASK_WRITE (R261). A write to SEC_L2_PART or SEC_L2_COC changes the allocation ways, or is refused. -/
  | l2MaskWrite (r : Req) (coc : Bool) (d : Word)
  /-- L2_CLEAN (R261). A SEC_L2_CMD.clean write writes back and invalidates the L2 ways in the mask. -/
  | l2Clean (r : Req) (d : Word)
  /-- CORE_RUN (R241). A write of 1 to a SEC_CORE_RUN bit starts core 1, 2 or 3 in M-mode at SEC_CORE_BOOT. -/
  | coreRun (r : Req) (d : Word)
  /-- HO_OFFER (R263). A SEC_HO_CMD.offer write moves a held page to offered toward the target in SEC_HO_TO. -/
  | hoOffer (r : Req) (d : Word)
  /-- HO_WITHDRAW (R263). A SEC_HO_CMD.withdraw write returns an offered page to held. -/
  | hoWithdraw (r : Req) (d : Word)
  /-- HO_COMMIT (R263). A SEC_HO_CMD.commit write starts draining an offered page toward its target. -/
  | hoCommit (r : Req) (d : Word)
  /-- HO_RECLAIM (R263). A SEC_HO_CMD.reclaim write starts draining a page back to the secure world. -/
  | hoReclaim (r : Req) (d : Word)
  /-- HO_DRAIN_DONE (R263). When the drain ends, the page's OWNER becomes the target in state held. -/
  | hoDrainDone
  /-- MBX_POST (R267). A write of MBX_POST moves a FREE slot of the poster to POSTED. -/
  | mbxPost (r : Req) (d : Word)
  /-- MBX_TAKE (R267). A write of MBX_TAKE moves a POSTED slot to TAKEN for the receiver. -/
  | mbxTake (r : Req) (d : Word)
  /-- MBX_DONE (R267). A write of MBX_DONE moves a TAKEN slot to DONE. -/
  | mbxDone (r : Req) (d : Word)
  /-- MBX_FREE (R267). A write of MBX_FREE returns a DONE slot to FREE. -/
  | mbxFree (r : Req) (d : Word)
  /-- MBX_CANCEL (R267). A write of MBX_CANCEL returns a POSTED slot to FREE. -/
  | mbxCancel (r : Req) (d : Word)
  /-- MBX_TIMEOUT (R269). A request slot TAKEN longer than tmo_ms moves to DONE with status TIMEOUT. -/
  | mbxTimeout (k : Fin 12)
  /-- MBX_PING (R268). Chrysalis answers a PING request by echoing its payload. -/
  | mbxPing (k : Fin 12)
  /-- MBX_VERSION (R268). Chrysalis answers a VERSION request with its firmware and boot ROM versions. -/
  | mbxVersion (k : Fin 12)
  /-- MBX_KEY_SIGN (R284). Chrysalis runs a mailbox SIGN request on the CRY register port. -/
  | mbxKeySign (k : Fin 12)
  /-- MBX_KEY_HMAC (R284). Chrysalis runs a mailbox HMAC request. -/
  | mbxKeyHmac (k : Fin 12)
  /-- MBX_KEY_DERIVE (R284). Chrysalis runs a mailbox DERIVE request. -/
  | mbxKeyDerive (k : Fin 12)
  /-- MBX_KEY_PUBKEY (R284). Chrysalis runs a mailbox PUBKEY request. -/
  | mbxKeyPubkey (k : Fin 12)
  /-- MBX_KEY_RANDOM (R284). Chrysalis runs a mailbox RANDOM request. -/
  | mbxKeyRandom (k : Fin 12)
  /-- MBX_KEY_INVALIDATE (R284). Chrysalis runs a mailbox INVALIDATE request. -/
  | mbxKeyInvalidate (k : Fin 12)
  /-- DBG_EN_WRITE (R270). A DBG_EN write changes the debug enables that the requester may set, and may resume a halted hart. -/
  | dbgEnWrite (r : Req) (d : Word)
  /-- HALT_REQUEST (R271). A debug halt request halts a hart in an enabled world, or waits with halt_blocked. -/
  | haltRequest (h : Fin 4)
  /-- KEY_DERIVE (R279). A KEY_CMD.derive write derives a child slot from a parent under the attribute rules. -/
  | keyDerive (r : Req) (d : Word)
  /-- KEY_INVALIDATE (R280). A KEY_CMD.inval write zeroes a slot and every descendant in one step. -/
  | keyInvalidate (r : Req) (d : Word)
  /-- KEY_ZERO (R281). A KEY_ZERO write with key 0x7A51 zeroes the root and puts the store in DEAD. -/
  | keyZero (r : Req) (d : Word)
  /-- CRY_SHA256 (R282). CRY_OP.go with op SHA256 starts a hash job. -/
  | crySha256 (r : Req) (d : Word)
  /-- CRY_HMAC (R282). CRY_OP.go with op HMAC starts an HMAC job with a secret slot. -/
  | cryHmac (r : Req) (d : Word)
  /-- CRY_DERIVE (R282). CRY_OP.go with op DERIVE starts a key derivation job. -/
  | cryDerive (r : Req) (d : Word)
  /-- CRY_SIGN (R282). CRY_OP.go with op SIGN starts an ECDSA signing job, or a cocoon job. -/
  | crySign (r : Req) (d : Word)
  /-- CRY_VERIFY (R282). CRY_OP.go with op VERIFY starts a signature verification job. -/
  | cryVerify (r : Req) (d : Word)
  /-- CRY_PUBKEY (R282). CRY_OP.go with op PUBKEY starts a public key computation. -/
  | cryPubkey (r : Req) (d : Word)
  /-- CRY_RANDOM (R282). CRY_OP.go with op RANDOM draws 32 bytes from the DRBG. -/
  | cryRandom (r : Req) (d : Word)
  /-- CRY_JOB_DONE (R282). A crypto job ends, writes its output and status, and the engine serves the next requester. -/
  | cryJobDone
  /-- TAMPER_DETECT (R286). A tamper cause is detected: the cause latches, BBRAM is zeroed, the store goes DEAD and the running job aborts. -/
  | tamperDetect (c : Fin 8)
  /-- SVC_STATUS (R303). The service-port STATUS command returns eight status bytes and releases SVC_ATTN_N. -/
  | svcStatus (n : Nat)
  /-- SVC_ID (R303). The service-port ID command returns the 44 identity bytes. -/
  | svcId (n : Nat)
  /-- SVC_HEADER (R301). The service-port HEADER command checks an image header and opens a session on the target bank. -/
  | svcHeader (h : List Byte)
  /-- SVC_BLOCK (R301). The service-port BLOCK command checks, writes and reads back one payload block. -/
  | svcBlock (d : List Byte) (fail : Bool)
  /-- SVC_VERIFY (R301). The service-port VERIFY command checks the payload digest and signature and makes the bank VERIFIED. -/
  | svcVerify (n : Nat)
  /-- SVC_ACTIVATE (R307). The service-port ACTIVATE command makes the target TRIAL and preferred and starts it deferred, by reset or live. -/
  | svcActivate (d : List Byte)
  /-- SVC_ABORT (R300). The service-port ABORT command ends the session and leaves the bank EMPTY. -/
  | svcAbort (n : Nat)
  /-- SVC_CMD_DONE (R302). A busy service-port command ends and SVC_ATTN_N goes low. -/
  | svcCmdDone
  /-- UPD_CONFIRM (R309). A UPD_CMD.confirm write makes the running TRIAL bank GOOD and raises the rollback counter. -/
  | updConfirm (r : Req) (d : Word)
  /-- UPD_REVERT (R309). A UPD_CMD.revert write makes the other bank preferred when it is acceptable. -/
  | updRevert (r : Req) (d : Word)
  /-- PCIE_RESET (R314). PCIE_PERST_N, a hot reset, link down or D3hot resets the endpoint and host-function state only. -/
  | pcieReset
  /-- FLR (R335). A function-level reset of a function starts its drain. -/
  | flr (f : Fin 512)
  /-- VF_ENABLE_CLEAR (R335). Clearing VF Enable starts the drain of every PCIe VF. -/
  | vfEnableClear
  /-- BUS_MASTER_CLEAR (R335). Clearing a function's Bus Master Enable starts its drain. -/
  | busMasterClear (f : Fin 512)
  /-- FN_DISABLE (R335). A write of 0 to FNC_FN_CTRL.enable starts the function's drain. -/
  | fnDisable (r : Req) (d : Word)
  /-- FN_DRAIN_DONE (R335). The drain ends: channels and queues have passed to PF0, quotas return to the pool and the function is DISABLED. -/
  | fnDrainDone (f : Fin 512) (cids : List Nat)
  /-- QUOTA_WRITE (R320). A write to FNC_FN_QUOTA of a DISABLED function sets its quotas, or is ignored with quota_ignored. -/
  | quotaWrite (r : Req) (d : Word)
  /-- STEP_RANGE_WRITE (R321). A write to the function's step range is taken, or ignored when it would go below the watermark or overlap. -/
  | stepRangeWrite (r : Req) (cnt : Bool) (d : Word)
  /-- BAR2_READ (R317). A BAR2 read returns the sample mirror without snapshot or side effect. -/
  | bar2Read (f e : Fin 512) (o n : Fin 129)
  /-- BAR2_WRITE (R317). A BAR2 write is dropped and sets FNC_F_EVT.bar2_write. -/
  | bar2Write (f : Fin 512)
  /-- POISONED_WRITE (R316). A poisoned PCIe write is dropped, sets FNC_F_EVT.poisoned and is reported under AER. -/
  | poisonedWrite (f : Fin 512)
  /-- Q_ENABLE (R323). A write of FNC_F_Q_CTRL.en = 1 enables a queue pair, or is refused with cfg_err. -/
  | qEnable (r : Req) (d : Word)
  /-- Q_DISABLE (R323). A write of FNC_F_Q_CTRL.en = 0 aborts the queue pair with status ABORTED and removes its binding. -/
  | qDisable (r : Req) (d : Word) (cids : List Nat)
  /-- DB_SQ_TAIL (R324). An SQ tail doorbell moves a pair's submission tail, or is ignored and counted. -/
  | dbSqTail (r : Req) (d : Word)
  /-- DB_CQ_HEAD (R324). A CQ head doorbell frees completion entries. -/
  | dbCqHead (r : Req) (d : Word)
  /-- DB_DELIVERY_HEAD (R324). A delivery head doorbell frees delivery-ring slots. -/
  | dbDeliveryHead (r : Req) (d : Word)
  /-- SQ_FETCH (R325). When a submission entry is available and the CQ has room, the pair fetches it and carries out its command. -/
  | sqFetch (f : Fin 512) (q : Fin 1024) (e data : List Byte)
  /-- CMD_NOP (R329). The NOP command completes with result 0. -/
  | cmdNop (f : Fin 512) (q : Fin 1024) (e : List Byte)
  /-- CMD_IDENTIFY (R329). The IDENTIFY command writes the function's identity to a 4 KiB buffer. -/
  | cmdIdentify (f : Fin 512) (q : Fin 1024) (e : List Byte)
  /-- CMD_MAP_READ (R329). The MAP_READ command writes the function's channel map. -/
  | cmdMapRead (f : Fin 512) (q : Fin 1024) (e : List Byte)
  /-- CMD_STEP_WRITE (R330). The STEP_WRITE command writes whole steps into the function's range. -/
  | cmdStepWrite (f : Fin 512) (q : Fin 1024) (e data : List Byte)
  /-- CMD_STEP_READ (R329). The STEP_READ command reads steps of the function's range into host memory. -/
  | cmdStepRead (f : Fin 512) (q : Fin 1024) (e : List Byte)
  /-- CMD_LOG_MAP (R330). The LOG_MAP command writes the logging map of a channel slot. -/
  | cmdLogMap (f : Fin 512) (q : Fin 1024) (e : List Byte)
  /-- CMD_GRD_STAGE (R330). The GRD_STAGE command stages cell_id, recipe and host_data for a slot. -/
  | cmdGrdStage (f : Fin 512) (q : Fin 1024) (e data : List Byte)
  /-- CMD_GRD_CTRL (R330). The GRD_CTRL command issues open, seal or discard to the grading unit for a slot. -/
  | cmdGrdCtrl (f : Fin 512) (q : Fin 1024) (e : List Byte)
  /-- CMD_CHN_BATCH (R330). The CHN_BATCH command applies a channel command to every held slot of a bitmap in one superframe. -/
  | cmdChnBatch (f : Fin 512) (q : Fin 1024) (e data : List Byte)
  /-- CMD_Q_BIND (R331). The Q_BIND command binds a held pool queue to a delivery ring. -/
  | cmdQBind (f : Fin 512) (q : Fin 1024) (e : List Byte)
  /-- CMD_Q_UNBIND (R331). The Q_UNBIND command removes a binding at an item boundary. -/
  | cmdQUnbind (f : Fin 512) (q : Fin 1024) (e : List Byte)
  /-- CMD_MOVE (R332). The MOVE command from the PF host moves a channel, queue or quota between functions. -/
  | cmdMove (f : Fin 512) (q : Fin 1024) (e : List Byte)
  /-- MOVE_TAKES_EFFECT (R333). At the chosen superframe, a channel move puts the CHN page in draining and clears the source slot. -/
  | moveTakesEffect
  /-- MOVE_COMPLETE (R333). When the drain ends, the channel's owner becomes the destination and the move completes with SUCCESS. -/
  | moveComplete
  /-- ITEM_DELIVER (R331). When the ring has room, the head item of a bound queue is written into slots and an ITEM completion follows. -/
  | itemDeliver (q : Fin 4096)
  /-- SES_CONNECT (R340). A TLS session connection is accepted into a host slot, or a fourth session is refused. -/
  | sesConnect
  /-- SES_REG_READ (R339). A REG_READ message reads a BAR0 offset for the session function and is answered with REG_DATA. -/
  | sesRegRead (n : Fin 4) (f : Fin 512) (o : Word)
  /-- SES_REG_WRITE (R339). A REG_WRITE message writes a BAR0 offset for the session function. -/
  | sesRegWrite (n : Fin 4) (f : Fin 512) (o d : Word)
  /-- SES_SUBMIT (R339). A SUBMIT message adds submission entries and acts as an SQ tail doorbell. -/
  | sesSubmit (n : Fin 4) (f : Fin 512) (q : Fin 1024) (es : List Byte)
  /-- SES_DATA_PUT (R339). A DATA_PUT message writes bytes into the session's transfer window. -/
  | sesDataPut (n : Fin 4) (f : Fin 512) (o : Word) (bs : List Byte)
  /-- SES_DATA_GET (R339). A DATA_GET request reads bytes of the transfer window back to the host. -/
  | sesDataGet (n : Fin 4) (f : Fin 512) (o len : Word)
  /-- SES_KEEPALIVE (R339). A KEEPALIVE message from the host keeps the session alive. -/
  | sesKeepalive (n : Fin 4)
  /-- SES_KEEPALIVE_SEND (R339). Every second the device sends KEEPALIVE on each session. -/
  | sesKeepaliveSend
  /-- SESSION_LOST (R339). A session with no message for 3 s is lost and its functions drain. -/
  | sessionLost (n : Fin 4)
  /-- QPM_ENABLE (R341). Enabling the QPM checks the pool region and enables it, or sets cfg_err. -/
  | qpmEnable (r : Req) (d : Word)
  /-- QPM_ITEM_FIRST_WORD (R345). A producer's first word of an item is admitted with its cells reserved, refused so the port waits, or discarded for a disabled queue. -/
  | qpmItemFirstWord (p : Fin 3)
  /-- QPM_ITEM_RETRY (R345). At a change of the queue or pool, a waiting port offers its refused item again. -/
  | qpmItemRetry (p : Fin 3)
  /-- QPM_ITEM_END (R348). An end-of-item mark makes the item visible to its binding, or ends a discard after a flush. -/
  | qpmItemEnd (p : Fin 3)
  /-- QPM_FLUSH (R352). A QPM_Q_CMD.flush write frees the queue's items and discards an item in progress. -/
  | qpmFlush (r : Req) (d : Word) (passed : Fin 2049)
  /-- QPM_QUEUE_DISABLE (R353). Clearing QPM_Q_CFG.en flushes the queue and disables it once discarding ends. -/
  | qpmQueueDisable (r : Req) (d : Word) (passed : Fin 2049)
  /-- BRG_READ (R354). A BRG_CMD write with op read is checked and allocates a tag for a remote register read. -/
  | brgRead (r : Req) (d : Word)
  /-- BRG_WRITE (R354). A BRG_CMD write with op write is checked and posts a remote register write. -/
  | brgWrite (r : Req) (d : Word)
  /-- BRG_RESPONSE (R366). A bridge response word pair is checked and ends its transaction, or is counted as stray. -/
  | brgResponse (b : Fin 32)
  /-- BRG_TIMEOUT (R366). With no response by the end of superframe m + resp_sf, the transaction ends with TIMEOUT and its tag enters QUARANTINE. -/
  | brgTimeout (t : Fin 64)
  /-- BRG_COLLECT (R364). A read of BRG_TAG_DATA by the issuing requester returns the data and frees the tag. -/
  | brgCollect (r : Req)
  /-- BRG_DISCARD_EXPIRY (R365). An uncollected read is freed after discard_ms and may log an ORPHANED entry. -/
  | brgDiscardExpiry (t : Fin 64)
  /-- BRG_QUARANTINE_END (R368). A quarantined tag becomes FREE after 256 superframes. -/
  | brgQuarantineEnd (t : Fin 64)
  /-- ESW_FRAME_LOOKUP (R373). When 64 bytes of a frame have arrived, lookup gives its VID, class and outputs, and each output queue admits it or drops it. -/
  | eswFrameLookup (p : Fin 3) (bytes : List Byte) (cap : Nat) (chg : Bool) (busy : Fin 16) (got : List Nat)
  /-- ESW_FRAME_END (R375). At a frame's end, its FCS and length are judged, addresses are learned and headroom is released. -/
  | eswFrameEnd (p : Fin 3) (bytes : List Byte) (pcs : Bool)
  /-- ESW_TX_START (R374). An output starts sending a queued frame by cut-through or store-and-forward when it can take it. -/
  | eswTxStart (o : Fin 4) (cap waited : Nat)
  /-- ESW_LINK_DOWN (R380). An output's link goes down and every frame queued for it is released. -/
  | eswLinkDown (p : Fin 3)
  /-- ATU_READ (R381). An ESW_ATU_CMD read looks up an address table entry by key. -/
  | atuRead (r : Req) (d : Word)
  /-- ATU_WRITE (R381). An ESW_ATU_CMD write writes an address table entry. -/
  | atuWrite (r : Req) (d : Word)
  /-- ATU_DELETE (R381). An ESW_ATU_CMD delete removes an address table entry. -/
  | atuDelete (r : Req) (d : Word)
  /-- ATU_FLUSH_DYN (R381). An ESW_ATU_CMD.flush_dyn write removes every dynamic entry. -/
  | atuFlushDyn (r : Req) (d : Word)
  /-- ATU_AGE_EXPIRY (R381). A dynamic entry not refreshed for age_s seconds is removed. -/
  | atuAgeExpiry (vid : Fin 4096) (mac : BitVec 48)
  /-- P3_TX_DOORBELL (R383). An ESW_P3_DB write makes the switch rescan the P3 transmit ring. -/
  | p3TxDoorbell (r : Req) (d : Word)
  /-- PTP_OFFSET_COMMIT (R394). A PTP_MEAS_W1 write commits an offset, which the servo steps on, refuses or takes through the PI. -/
  | ptpOffsetCommit (r : Req) (d : Word) (dt u : Nat)
  /-- PTP_SLEW (R397). A PTP_CMD.slew write puts the servo in SLEW. -/
  | ptpSlew (r : Req) (d : Word)
  /-- PTP_STEP (R397). A PTP_CMD.step write steps line time when no channel is armed and retrains the links, or is refused with ARMED. -/
  | ptpStep (r : Req) (d : Word) (u : Nat)
  /-- PTP_HOLDOVER (R397). A PTP_CMD.holdover write puts the servo in HOLDOVER. -/
  | ptpHoldover (r : Req) (d : Word)
  /-- PTP_CANCEL (R397). A PTP_CMD.cancel write in SLEW puts the servo in HOLDOVER. -/
  | ptpCancel (r : Req) (d : Word)
  /-- PTP_HOLDOVER_TIMEOUT (R396). No accepted offset for tmo_ms puts the servo in HOLDOVER. -/
  | ptpHoldoverTimeout
  /-- PTP_TX_TIMESTAMP (R391). A frame with ts_req leaving its pins adds a TX timestamp queue entry, or the timestamp is discarded on overflow. -/
  | ptpTxTimestamp (p : Fin 3) (cap : Nat)
  /-- PTP_TSQ_POP (R391). A read of PTP_Pp_TSQ_HDR removes the oldest entry and makes it the reader's snapshot. -/
  | ptpTsqPop (r : Req) (p : Fin 3)
  /-- PTP_TX_DOORBELL (R390). A PTP_TX_DB write makes the PTP unit rescan its transmit ring. -/
  | ptpTxDoorbell (r : Req) (d : Word)
  /-- CAN_START (R401). A CANn_CMD.start write checks the bit timing and moves the controller from CONFIG to RUN. -/
  | canStart (r : Req) (n : Fin 4) (d : Word)
  /-- CAN_STOP (R401). A CANn_CMD.stop write returns the controller to CONFIG after the frame in progress. -/
  | canStop (r : Req) (n : Fin 4) (d : Word) (busy : Bool)
  /-- CAN_RECOVER (R408). A CANn_CMD.recover write starts bus-off recovery. -/
  | canRecover (r : Req) (n : Fin 4) (d : Word)
  /-- CAN_TX_PEND (R405). A write to CANn_TX_PEND makes transmit buffers pending. -/
  | canTxPend (r : Req) (n : Fin 4) (d : Word)
  /-- CAN_TX_ABORT (R405). A write to CANn_TX_ABORT requests abort of pending buffers. -/
  | canTxAbort (r : Req) (n : Fin 4) (d : Word) (tx : Option (Fin 32))
  /-- CAN_RXQ_POP (R407). A CANn_RXQ_CMD pop removes the head frame of a receive queue. -/
  | canRxqPop (r : Req) (n : Fin 4) (q : Fin 2) (d : Word)
  /-- CAN_FRAME_RX (R407). A received frame becomes valid, is filtered into a queue and may restart the ready-sleep timer or latch a wake. -/
  | canFrameRx (n : Fin 4) (w0 w1 : Word) (data : List Byte)
  /-- CAN_FRAME_TX_END (R405). A transmission attempt ends: sent, lost arbitration, error, or aborted. -/
  | canFrameTxEnd (n : Fin 4) (res : Fin 3) (late : Word) (lec : Fin 8) (cnt : Bool)
  /-- CAN_BUS_ON (R408). After 128 occurrences of 11 recessive bits, the controller leaves bus-off. -/
  | canBusOn (n : Fin 4)
  /-- NWM_CH_ENABLE (R410). A write of NWM_CHn_CTRL.en moves the channel out of or back to OFF. -/
  | nwmChEnable (r : Req) (n : Fin 4) (d : Word)
  /-- NWM_AWAKE_REQ (R410). A write of awake_req moves the channel between AWAKE and READY, or is kept in sleep states. -/
  | nwmAwakeReq (r : Req) (n : Fin 4) (d : Word)
  /-- NWM_LOCAL_WAKE (R414). A write of NWM_CHn_CTRL.wake in COMMITTED or BUS_SLEEP latches a wake of kind LOCAL. -/
  | nwmLocalWake (r : Req) (n : Fin 4) (d : Word)
  /-- NWM_KEEPALIVE_TIMER (R411). Every ka_ms in AWAKE, the NWM sets the keep-alive buffer pending. -/
  | nwmKeepaliveTimer (n : Fin 4)
  /-- NWM_COMMIT_POINT (R412). The ready-sleep timer expires; the channel enters COMMITTED, aborts pending buffers and arms its wake detector. -/
  | nwmCommitPoint (n : Fin 4) (tx : Option (Fin 32))
  /-- NWM_CONTROLLER_SLEEP (R413). At bus idle, or at the latest 2 ms after the commit point, the controller enters SLEEPING. -/
  | nwmControllerSleep (n : Fin 4)
  /-- NWM_BUS_SLEEP (R413). 50 µs later the transceiver sleeps or STB goes high and the channel is in BUS_SLEEP. -/
  | nwmBusSleep (n : Fin 4)
  /-- NWM_WAKE_DETECT (R414). The wake detector reports a WUP, WUF, error-count or RXD wake and latches it. -/
  | nwmWakeDetect (n ev : Fin 4) (w0 w1 : Word) (data : List Byte)
  /-- NWM_DWELL_END (R416). A latched wake is taken at the end of the 2 ms dwell, and the channel enters WAKING. -/
  | nwmDwellEnd (n : Fin 4)
  /-- NWM_INTEGRATION_DONE (R410). Bus integration completes and the channel enters READY with woken or AWAKE. -/
  | nwmIntegrationDone (n : Fin 4)
  /-- NWM_STUCK (R419). A channel in READY longer than stuck_s raises stuck and writes an event record naming the keeper. -/
  | nwmStuck (n : Fin 4)
  /-- FIO_SAMPLE (R422). Every 100 µs the field die samples every point and updates the filtered readings and edges. -/
  | fioSample (mv cur : List Nat)
  /-- FIO_WIRE_BREAK (R423). Input current below 0.20 mA for 100 ms reports wire_break, and at or above 0.30 mA for 100 ms clears it. -/
  | fioWireBreak (n : Fin 32) (low : Bool)
  /-- FIO_OUT_WRITE (R424). A write to FIO_OUT sets the commanded output states. -/
  | fioOutWrite (r : Req) (d : Word)
  /-- FIO_OUT_SET (R424). A write to FIO_OUT_SET sets FIO_OUT bits. -/
  | fioOutSet (r : Req) (d : Word)
  /-- FIO_OUT_CLR (R424). A write to FIO_OUT_CLR clears FIO_OUT bits. -/
  | fioOutClr (r : Req) (d : Word)
  /-- FIO_PT_CFG_WRITE (R420). A write to FIO_PTn_CFG changes mode or group only when the affected outputs are off, or is refused with cfg_err. -/
  | fioPtCfgWrite (r : Req) (n : Fin 32) (d : Word)
  /-- FIO_POINT_FAULT (R425). An output protection timer or threshold detects overcurrent, thermal, stuck_low, back_fed or open_load. -/
  | fioPointFault (n : Fin 32) (cause : Fin 5) (on : Bool)
  /-- FIO_FAULT_CLEAR (R427). A write of 1 to a FIO_FAULT bit clears the point's latched causes that have ended. -/
  | fioFaultClear (r : Req) (d : Word)
  /-- VFIELD_LOW (R428). VFIELD below 16.0 V switches every output and load channel off and sets vfield_low. -/
  | vfieldLow
  /-- VFIELD_RESTORED (R428). VFIELD above 17.0 V for 10 ms lets outputs and load channels follow their commands again. -/
  | vfieldRestored
  /-- FIO_RESUME (R430). A FIO_CMD.resume write with a heartbeat present moves HOLD or SAFE to RUN. -/
  | fioResume (r : Req) (d : Word)
  /-- FIO_SAFE (R430). A FIO_CMD.safe write moves the points to SAFE. -/
  | fioSafe (r : Req) (d : Word)
  /-- FIO_ENABLE (R430). Setting FIO_CTRL.enable moves the points from INIT to RUN; clearing it returns them to INIT. -/
  | fioEnable (r : Req) (en : Bool)
  /-- FIO_HOLD_EXPIRY (R430). The hold timer expires in HOLD and the points enter SAFE. -/
  | fioHoldExpiry
  /-- LDC_ON_WRITE (R435). A write to LDC_ON commands load channels on or off. -/
  | ldcOnWrite (r : Req) (d : Word)
  /-- LDC_ON_SET (R435). A write to LDC_ON_SET sets LDC_ON bits. -/
  | ldcOnSet (r : Req) (d : Word)
  /-- LDC_ON_CLR (R435). A write to LDC_ON_CLR clears LDC_ON bits. -/
  | ldcOnClr (r : Req) (d : Word)
  /-- LDC_PWM_BOUNDARY (R436). At each PWM period boundary, new period, duty and phase values take effect and pulses start. -/
  | ldcPwmBoundary
  /-- LDC_CLAMP_EVENT (R440). A clamp event's energy is measured and added to acc, and an excess over budget locks the channel. -/
  | ldcClampEvent (n : Fin 12) (e : Nat)
  /-- LDC_CLAMP_DECAY (R439). Every 16 ms each clamp accumulator decays by floor(acc / 64). -/
  | ldcClampDecay
  /-- LDC_CLAMP_LOCK (R440). A write of LDC_CHn_CLAMP.lock freezes budget_mj until the next VFIELD power-on. -/
  | ldcClampLock (r : Req) (n : Fin 12) (d : Word)
  /-- LDC_OVERCURRENT (R441). The limit timer reaching oc_ms or a short switches the channel off into RETRY or LOCKED. -/
  | ldcOvercurrent (n : Fin 12) (short : Bool)
  /-- LDC_RETRY_EXPIRY (R442). The retry wait ends and the channel switches on again with its count advanced. -/
  | ldcRetryExpiry (n : Fin 12)
  /-- LDC_OK_TIMER (R442). After ok_ms in ON without overcurrent, the retry count returns to 0. -/
  | ldcOkTimer (n : Fin 12)
  /-- LDC_THERMAL (R443). A channel above 170 °C switches off and enters THERMAL. -/
  | ldcThermal (n : Fin 12) (temp : Fin 256)
  /-- LDC_FAULT_CLEAR (R444). A write of 1 to an LDC_FAULT bit clears ended latched causes and may restart, lock or turn off the channel. -/
  | ldcFaultClear (r : Req) (d : Word)
  /-- LDC_TOTAL_SHED (R445). When the total current exceeds limit_ma for 10 ms, the highest sheddable channel is switched off. -/
  | ldcTotalShed (ma : List Nat)
  /-- LDC_OPEN_LOAD (R444). Current below 20 mA for 100 ms while on reports open load, and at or above 40 mA for 100 ms clears it. -/
  | ldcOpenLoad (n : Fin 12) (low : Bool)
  /-- FIELD_POWER_ON (R432). VFIELD rising above its power-on threshold resets the field die with all points inputs and all load channels off. -/
  | fieldPowerOn
  /-- FIELD_DIE_RESET (R476). VFIELD below 9.0 V resets the field die and switches every output off. -/
  | fieldDieReset
  /-- SUPPLY_LOSS (R476). Loss of VPHY18, VPHY, the DRAM supplies, VIO_A or VIO_B stops the interfaces those supplies feed. -/
  | supplyLoss (k : Fin 5)
  /-- EVR_RECORD_WRITE (R452). A pending record is written to its ring slot in three ordered steps. -/
  | evrRecordWrite
  /-- EVR_SCAN_DONE (R453). The start-up scan of the commit words ends, the START_UP record takes the next seq and waiting records follow. -/
  | evrScanDone
  /-- EVR_TOKEN_REFILL (R454). Every period_ms each code's bucket gains a token up to its burst. -/
  | evrTokenRefill (c : Fin 256)
  /-- EVR_READ_WINDOW (R456). A write to EVR_RD_SEQ copies a record into the read window and reports OK, GONE or NOT_YET. -/
  | evrReadWindow (r : Req) (d : Word)
  /-- EVR_SW_RECORD (R457). A write to EVR_SW_CODE with a code from 0xF0 to 0xFF reports a software event; any other code is refused. -/
  | evrSwRecord (r : Req) (d : Word)
  /-- FTA_CHALLENGE (R458). The debug port requests a factory test access challenge from the unique ID and a nonce. -/
  | ftaChallenge
  /-- FTA_ANSWER (R459). A signed answer opens FTA by zeroing the root, the configuration area and DRAM, or counts a failure. -/
  | ftaAnswer (sig : List Byte)
  /-- SUPERFRAME_LENGTH_CHANGE (R84). A change of the superframe length L takes effect at one boundary, a multiple of 40 µs, on all 32 ports once both bank islands are at the new floor, with new l_code, BNK_TS_ADJ and superframe counting. -/
  | superframeLengthChange (l : Fin 3)
  /-- ESW_LINK_UP (R371). An Ethernet port's link comes up, its speed is set, ESW_INT_STAT.link is raised and the port becomes an output again. -/
  | eswLinkUp (p : Fin 3) (speed : Fin 3)
  /-- PAUSE_FRAME_RX (R371). A received PAUSE frame ends at the MAC and pauses transmission on that port for the requested time. -/
  | pauseFrameRx (p : Fin 3) (quanta : Fin 65536) (len : Nat)
  /-- CAN_BUS_ERROR (R408). An error detected on the bus while receiving raises REC and lec and may raise err_warn or err_passive. -/
  | canBusError (n : Fin 4) (lec : Fin 8) (eight : Bool)
  /-- SVC_BAD_OPCODE (R300). A service-port transaction with an opcode not in the command table is discarded with result BAD_OPCODE. -/
  | svcBadOpcode
  /-- VF_ENABLE_SET (R319). Setting VF Enable or a function's Bus Master Enable in PCIe configuration space makes qualifying functions ENABLED. -/
  | vfEnableSet (vf : Bool) (n : Fin 512)
  /-- PAIR_DISABLE (R224). Clearing PAIR_CTRL.enable makes every bank SOLO and drives PAIR_FAIL_N low. -/
  | pairDisable (r : Req) (d : Word)
  /-- PARTNER_FAIL_RELEASE (R224). PAIR_FAIL_N returns high, partner_fail becomes 0 and the ACTIVE banks' pair mark follows. -/
  | partnerFailRelease
  /-- TAMPERED_CLEAR (R292). Through factory test access in OPEN, Glallaim clears TMP_STAT.tampered and the device leaves the TAMPERED state. -/
  | tamperedClear
  /-- ROOT_PROVISION (R459). In FTA OPEN, Glallaim provisions a new BBRAM root and a new device certificate. -/
  | rootProvision (root : BitVec 256) (cert : List Byte)
  /-- FTA_SEAL (R459). Glallaim returns factory test access from OPEN to SEALED. -/
  | ftaSeal
  deriving DecidableEq, Repr

end Sys2Proof
end

