-- ==== Sys2Proof/Decode.lean ====
section
/-! DEFINITION. The command that a word of spec/opcode_table.json spells. The table gives no row any bits: its rows are the register
writes, events and commands of the block, which no word encodes. -/
namespace Sys2Proof

/-- No row of the table has an encoding, so no word spells a command. DESIGN CHOICE, log entry 5. -/
def decodeTableWord (_nbits _w : Nat) : Option Instr := none

end Sys2Proof
end

