-- ==== Sys2Proof/Config.lean ====
section
/-! DEFINITION. What an implementation fixes and what the spec leaves open: opaque constants, of which no proof can see a
value. -/
namespace Sys2Proof.Config

/-- A free value: the `n`-th value that the spec leaves open (the counter stands in the state). DESIGN CHOICE, log entry 6. -/
opaque freeValue : Nat → BitVec 256

/-- Operating time at the `n`-th time stamp taken from the AON counter, in 1/256 s (R450: the model has no clock).
DESIGN CHOICE, log entry 113. -/
opaque opTime : Nat → BitVec 40

/-- The 128-bit device unique ID of the part (R479). DESIGN CHOICE, log entry 115. -/
opaque deviceUid : BitVec 128

/-- The boot ROM version (R303, R268). DESIGN CHOICE, log entry 115. -/
opaque romVersion : BitVec 16

/-- The version of the Chrysalis firmware in the image of firmware version `fw_ver` (R268). DESIGN CHOICE, log entry 115. -/
opaque chrVersion : Nat → BitVec 32

/-- The bytes of the boot ROM (R15). DESIGN CHOICE, log entry 115. -/
opaque bootRom : Nat → BitVec 8

/-- The SHA-256 digest of the firmware public key of index 0 to 3 (R297). DESIGN CHOICE, log entry 115. -/
opaque keyDigest : Nat → BitVec 256

/-- Glallaim's PCI-SIG vendor ID (R313). DESIGN CHOICE, log entry 115. -/
opaque pciVendor : BitVec 16

/-- The root secret that Glallaim has provisioned in BBRAM (R273). DESIGN CHOICE, log entry 115. -/
opaque factoryRoot : BitVec 256

/-- Whether 212.8 ns, the receive latency of 2500BASE-X, is held as 3405 sixteenths of a nanosecond or as 3404 (R388).
DESIGN CHOICE, log entry 102. -/
opaque latUp : Bool

/-- Whether a signature answers the factory test access challenge with this nonce: ECDSA P-256 under a Glallaim factory key, whose
digest the boot ROM holds (R458). DESIGN CHOICE, log entry 116. -/
opaque ftaVerifies : Nat → List (BitVec 8) → Bool

/-- The length of the certificate chain of the factory (R221). DESIGN CHOICE, log entry 115. -/
opaque certLen : BitVec 16

/-- The bytes of the certificate chain of the factory (R221). DESIGN CHOICE, log entry 115. -/
opaque certByte : Nat → BitVec 8

end Sys2Proof.Config
end

