-- ==== Sys2Proof/Machine/Reg.lean ====
section
/-! DEFINITION. What a register field is: its place, width, reset value and access code (R3, R4), and a row of a page's
field list. -/
namespace Sys2Proof.Machine

/-- The access codes of R3. -/
inductive Acc where
  | rw | ro | wo | w1c | w1s | rsc
  deriving DecidableEq, Repr

/-- A register field: byte offset of its register in the page, lowest bit, width, reset value, access code. A `W36` value
is one field of width 36, a `W72` value one of width 72, at the offset of the `_LO` register. -/
structure Fld where
  off : Nat
  lo  : Nat
  w   : Nat
  rst : Nat
  acc : Acc
  deriving DecidableEq, Repr

/-- A row of a page's field list: the field of index 0, and up to two index ranges with their strides. -/
structure Row where
  f  : Fld
  n  : Nat
  st : Nat
  n2 : Nat
  st2 : Nat
  deriving DecidableEq, Repr

/-- The key of a field of the register instance `inst`: a page number, or one of the indexed register groups that a page
shows through a selector (`Machine/State.lean`). A page has 4,096 bytes of offsets, so the keys of an instance lie below those of the next. -/
def Fld.key (f : Fld) (inst : Nat) : Nat := inst * 131072 + (f.off * 32 + f.lo) % 131072

end Sys2Proof.Machine
end

