-- ==== Sys2Proof/Machine/RegsBank.lean ====
section
/-! DEFINITION. Register fields of the pages LGR, GRD, PAIR, TRP, STP, BNK, CHN: offset, lowest bit, width, reset value and access code of
every field, written from the register tables of the spec (offsets: 24_register_index.md, R478). A `W36` pair and a `W72` triple are
one field of width 36 or 72 at the offset of its `_LO`. The list of a page ends each block. -/
namespace Sys2Proof.Machine.R

/-! LGR_PROF (04_measurement_chain.md) -/
def LGR_PROF_en (n : Nat) : Fld := ⟨0x40 + 4 * n, 31, 1, 0, .rw⟩
def LGR_PROF_window_ms (n : Nat) : Fld := ⟨0x40 + 4 * n, 16, 14, 0x3e8, .rw⟩
def LGR_PROF_queue (n : Nat) : Fld := ⟨0x40 + 4 * n, 0, 12, 0, .rw⟩
/-! LGR_TRACE (04_measurement_chain.md) -/
def LGR_TRACE_en (n : Nat) : Fld := ⟨0x60 + 4 * n, 31, 1, 0, .rw⟩
def LGR_TRACE_bank (n : Nat) : Fld := ⟨0x60 + 4 * n, 24, 5, 0, .rw⟩
def LGR_TRACE_div (n : Nat) : Fld := ⟨0x60 + 4 * n, 16, 8, 0, .rw⟩
def LGR_TRACE_queue (n : Nat) : Fld := ⟨0x60 + 4 * n, 0, 12, 0, .rw⟩
/-! LGR_REC_COUNT (04_measurement_chain.md) -/
def LGR_REC_COUNT_count : Fld := ⟨0x80, 0, 32, 0, .ro⟩
/-! LGR_CHMAP (04_measurement_chain.md) -/
def LGR_CHMAP_en (n i : Nat) : Fld := ⟨0x100 + 4 * n, 4 * i + 3, 1, 0, .rw⟩
def LGR_CHMAP_profile (n i : Nat) : Fld := ⟨0x100 + 4 * n, 4 * i, 3, 0, .rw⟩
/-! LGR_BKMAP (04_measurement_chain.md) -/
def LGR_BKMAP_en (n i : Nat) : Fld := ⟨0x200 + 4 * n, 4 * i + 3, 1, 0, .rw⟩
def LGR_BKMAP_profile (n i : Nat) : Fld := ⟨0x200 + 4 * n, 4 * i, 3, 0, .rw⟩

def tableLGR0 : List Row := [
  ⟨LGR_PROF_en 0, 8, 4, 1, 0⟩,
  ⟨LGR_PROF_window_ms 0, 8, 4, 1, 0⟩,
  ⟨LGR_PROF_queue 0, 8, 4, 1, 0⟩,
  ⟨LGR_TRACE_en 0, 4, 4, 1, 0⟩,
  ⟨LGR_TRACE_bank 0, 4, 4, 1, 0⟩,
  ⟨LGR_TRACE_div 0, 4, 4, 1, 0⟩,
  ⟨LGR_TRACE_queue 0, 4, 4, 1, 0⟩,
  ⟨LGR_REC_COUNT_count, 1, 0, 1, 0⟩,
  ⟨LGR_CHMAP_en 0 0, 64, 4, 1, 0⟩,
  ⟨LGR_CHMAP_en 0 1, 64, 4, 1, 0⟩,
  ⟨LGR_CHMAP_en 0 2, 64, 4, 1, 0⟩,
  ⟨LGR_CHMAP_en 0 3, 64, 4, 1, 0⟩,
  ⟨LGR_CHMAP_en 0 4, 64, 4, 1, 0⟩,
  ⟨LGR_CHMAP_en 0 5, 64, 4, 1, 0⟩,
  ⟨LGR_CHMAP_en 0 6, 64, 4, 1, 0⟩,
  ⟨LGR_CHMAP_en 0 7, 64, 4, 1, 0⟩,
  ⟨LGR_CHMAP_profile 0 0, 64, 4, 1, 0⟩,
  ⟨LGR_CHMAP_profile 0 1, 64, 4, 1, 0⟩,
  ⟨LGR_CHMAP_profile 0 2, 64, 4, 1, 0⟩,
  ⟨LGR_CHMAP_profile 0 3, 64, 4, 1, 0⟩,
  ⟨LGR_CHMAP_profile 0 4, 64, 4, 1, 0⟩,
  ⟨LGR_CHMAP_profile 0 5, 64, 4, 1, 0⟩,
  ⟨LGR_CHMAP_profile 0 6, 64, 4, 1, 0⟩,
  ⟨LGR_CHMAP_profile 0 7, 64, 4, 1, 0⟩,
  ⟨LGR_BKMAP_en 0 0, 4, 4, 1, 0⟩,
  ⟨LGR_BKMAP_en 0 1, 4, 4, 1, 0⟩,
  ⟨LGR_BKMAP_en 0 2, 4, 4, 1, 0⟩,
  ⟨LGR_BKMAP_en 0 3, 4, 4, 1, 0⟩,
  ⟨LGR_BKMAP_en 0 4, 4, 4, 1, 0⟩,
  ⟨LGR_BKMAP_en 0 5, 4, 4, 1, 0⟩]
def tableLGR1 : List Row := [
  ⟨LGR_BKMAP_en 0 6, 4, 4, 1, 0⟩,
  ⟨LGR_BKMAP_en 0 7, 4, 4, 1, 0⟩,
  ⟨LGR_BKMAP_profile 0 0, 4, 4, 1, 0⟩,
  ⟨LGR_BKMAP_profile 0 1, 4, 4, 1, 0⟩,
  ⟨LGR_BKMAP_profile 0 2, 4, 4, 1, 0⟩,
  ⟨LGR_BKMAP_profile 0 3, 4, 4, 1, 0⟩,
  ⟨LGR_BKMAP_profile 0 4, 4, 4, 1, 0⟩,
  ⟨LGR_BKMAP_profile 0 5, 4, 4, 1, 0⟩,
  ⟨LGR_BKMAP_profile 0 6, 4, 4, 1, 0⟩,
  ⟨LGR_BKMAP_profile 0 7, 4, 4, 1, 0⟩]
/-- The fields of a LGR page. -/
def tableLGR : List Row := tableLGR0 ++ tableLGR1

/-! GRD_CFG (09_grading_records.md) -/
def GRD_CFG_auto_open : Fld := ⟨0x20, 31, 1, 1, .rw⟩
def GRD_CFG_emit_standby : Fld := ⟨0x20, 30, 1, 0, .rw⟩
def GRD_CFG_queue : Fld := ⟨0x20, 0, 12, 0, .rw⟩
/-! GRD_STAT (09_grading_records.md) -/
def GRD_STAT_sign_busy : Fld := ⟨0x24, 31, 1, 0, .ro⟩
def GRD_STAT_waiting : Fld := ⟨0x24, 0, 10, 0, .ro⟩
/-! GRD_ROLE (09_grading_records.md) -/
def GRD_ROLE_en (n : Nat) : Fld := ⟨0x40 + 4 * n, 31, 1, 0, .rw⟩
def GRD_ROLE_role (n : Nat) : Fld := ⟨0x40 + 4 * n, 12, 4, 0, .rw⟩
def GRD_ROLE_tag (n : Nat) : Fld := ⟨0x40 + 4 * n, 0, 12, 0, .rw⟩
/-! GRD_DCIR_CFG (09_grading_records.md) -/
def GRD_DCIR_CFG_n_post : Fld := ⟨0x80, 16, 12, 0x32, .rw⟩
def GRD_DCIR_CFG_n_pre : Fld := ⟨0x80, 0, 12, 0x32, .rw⟩
/-! GRD_DCIR_DLY (09_grading_records.md) -/
def GRD_DCIR_DLY_dly : Fld := ⟨0x84, 0, 24, 0, .rw⟩
/-! GRD_DCIR_MIN_DI (09_grading_records.md) -/
def GRD_DCIR_MIN_DI_min_di : Fld := ⟨0x88, 0, 32, 0x1000000, .rw⟩
/-! GRD_AGE_CFG (09_grading_records.md) -/
def GRD_AGE_CFG_skip_h : Fld := ⟨0x8c, 0, 16, 0x18, .rw⟩
/-! GRD_CH_SEL (09_grading_records.md) -/
def GRD_CH_SEL_channel : Fld := ⟨0xa0, 0, 9, 0, .rw⟩
/-! GRD_CH_CMD (09_grading_records.md) -/
def GRD_CH_CMD_open : Fld := ⟨0xa4, 31, 1, 0, .wo⟩
def GRD_CH_CMD_seal : Fld := ⟨0xa4, 30, 1, 0, .wo⟩
def GRD_CH_CMD_discard : Fld := ⟨0xa4, 29, 1, 0, .wo⟩
/-! GRD_CH_STAT (09_grading_records.md) -/
def GRD_CH_STAT_open : Fld := ⟨0xa8, 31, 1, 0, .ro⟩
def GRD_CH_STAT_out_full : Fld := ⟨0xa8, 30, 1, 0, .ro⟩
def GRD_CH_STAT_blocked : Fld := ⟨0xa8, 29, 1, 0, .ro⟩
def GRD_CH_STAT_open_pending : Fld := ⟨0xa8, 28, 1, 0, .ro⟩
/-! GRD_CELLID (09_grading_records.md) -/
def GRD_CELLID_cell_id (n : Nat) : Fld := ⟨0xb0 + 4 * n, 0, 32, 0, .rw⟩
/-! GRD_RECIPE (09_grading_records.md) -/
def GRD_RECIPE_recipe : Fld := ⟨0xc0, 0, 32, 0, .rw⟩
/-! GRD_HOSTDATA (09_grading_records.md) -/
def GRD_HOSTDATA_data (n : Nat) : Fld := ⟨0xd0 + 4 * n, 0, 32, 0, .rw⟩
/-! GRD_SEQ (09_grading_records.md) -/
def GRD_SEQ_seq : Fld := ⟨0x100, 0, 32, 0, .ro⟩
/-! GRD_SIGN_FAIL (09_grading_records.md) -/
def GRD_SIGN_FAIL_count : Fld := ⟨0x104, 0, 32, 0, .rsc⟩
/-! GRD_BLOCKED (09_grading_records.md) -/
def GRD_BLOCKED_count : Fld := ⟨0x108, 0, 32, 0, .rsc⟩
/-! GRD_LOST (09_grading_records.md) -/
def GRD_LOST_count : Fld := ⟨0x10c, 0, 32, 0, .rsc⟩
/-! GRD_CERT_LEN (09_grading_records.md) -/
def GRD_CERT_LEN_len : Fld := ⟨0x110, 0, 16, 0, .ro⟩
/-! GRD_CERT_OFF (09_grading_records.md) -/
def GRD_CERT_OFF_off : Fld := ⟨0x114, 0, 16, 0, .rw⟩
/-! GRD_CERT_DATA (09_grading_records.md) -/
def GRD_CERT_DATA_data : Fld := ⟨0x118, 0, 32, 0, .ro⟩

def tableGRD0 : List Row := [
  ⟨GRD_CFG_auto_open, 1, 0, 1, 0⟩,
  ⟨GRD_CFG_emit_standby, 1, 0, 1, 0⟩,
  ⟨GRD_CFG_queue, 1, 0, 1, 0⟩,
  ⟨GRD_STAT_sign_busy, 1, 0, 1, 0⟩,
  ⟨GRD_STAT_waiting, 1, 0, 1, 0⟩,
  ⟨GRD_ROLE_en 0, 16, 4, 1, 0⟩,
  ⟨GRD_ROLE_role 0, 16, 4, 1, 0⟩,
  ⟨GRD_ROLE_tag 0, 16, 4, 1, 0⟩,
  ⟨GRD_DCIR_CFG_n_post, 1, 0, 1, 0⟩,
  ⟨GRD_DCIR_CFG_n_pre, 1, 0, 1, 0⟩,
  ⟨GRD_DCIR_DLY_dly, 1, 0, 1, 0⟩,
  ⟨GRD_DCIR_MIN_DI_min_di, 1, 0, 1, 0⟩,
  ⟨GRD_AGE_CFG_skip_h, 1, 0, 1, 0⟩,
  ⟨GRD_CH_SEL_channel, 1, 0, 1, 0⟩,
  ⟨GRD_CH_CMD_open, 1, 0, 1, 0⟩,
  ⟨GRD_CH_CMD_seal, 1, 0, 1, 0⟩,
  ⟨GRD_CH_CMD_discard, 1, 0, 1, 0⟩,
  ⟨GRD_CH_STAT_open, 1, 0, 1, 0⟩,
  ⟨GRD_CH_STAT_out_full, 1, 0, 1, 0⟩,
  ⟨GRD_CH_STAT_blocked, 1, 0, 1, 0⟩,
  ⟨GRD_CH_STAT_open_pending, 1, 0, 1, 0⟩,
  ⟨GRD_CELLID_cell_id 0, 4, 4, 1, 0⟩,
  ⟨GRD_RECIPE_recipe, 1, 0, 1, 0⟩,
  ⟨GRD_HOSTDATA_data 0, 8, 4, 1, 0⟩,
  ⟨GRD_SEQ_seq, 1, 0, 1, 0⟩,
  ⟨GRD_SIGN_FAIL_count, 1, 0, 1, 0⟩,
  ⟨GRD_BLOCKED_count, 1, 0, 1, 0⟩,
  ⟨GRD_LOST_count, 1, 0, 1, 0⟩,
  ⟨GRD_CERT_LEN_len, 1, 0, 1, 0⟩,
  ⟨GRD_CERT_OFF_off, 1, 0, 1, 0⟩]
def tableGRD1 : List Row := [
  ⟨GRD_CERT_DATA_data, 1, 0, 1, 0⟩]
/-- The fields of a GRD page. -/
def tableGRD : List Row := tableGRD0 ++ tableGRD1

/-! PAIR_CFG (10_pair_operation.md) -/
def PAIR_CFG_rec_hold_ms : Fld := ⟨0x20, 16, 16, 0x3e8, .rw⟩
def PAIR_CFG_side : Fld := ⟨0x20, 8, 1, 0, .rw⟩
def PAIR_CFG_div_act : Fld := ⟨0x20, 0, 2, 0, .rw⟩
/-! PAIR_CMD (10_pair_operation.md) -/
def PAIR_CMD_sync : Fld := ⟨0x24, 31, 1, 0, .wo⟩
def PAIR_CMD_abort_sync : Fld := ⟨0x24, 30, 1, 0, .wo⟩
def PAIR_CMD_fail : Fld := ⟨0x24, 29, 1, 0, .wo⟩
def PAIR_CMD_yield : Fld := ⟨0x24, 28, 1, 0, .wo⟩
/-! PAIR_STAT (10_pair_operation.md) -/
def PAIR_STAT_sync_result : Fld := ⟨0x28, 28, 4, 0, .ro⟩
def PAIR_STAT_plk : Fld := ⟨0x28, 26, 2, 0, .ro⟩
def PAIR_STAT_partner_fail : Fld := ⟨0x28, 25, 1, 0, .ro⟩
def PAIR_STAT_self_fail : Fld := ⟨0x28, 24, 1, 0, .ro⟩
def PAIR_STAT_bnd_off : Fld := ⟨0x28, 0, 16, 0, .ro⟩
/-! PAIR_BANK_ACT (10_pair_operation.md) -/
def PAIR_BANK_ACT_mask : Fld := ⟨0x2c, 0, 32, 0, .ro⟩
/-! PAIR_BANK_SBY (10_pair_operation.md) -/
def PAIR_BANK_SBY_mask : Fld := ⟨0x30, 0, 32, 0, .ro⟩
/-! PAIR_BANK_OUT (10_pair_operation.md) -/
def PAIR_BANK_OUT_mask : Fld := ⟨0x34, 0, 32, 0, .ro⟩
/-! PAIR_BANK_SEL (10_pair_operation.md) -/
def PAIR_BANK_SEL_mask : Fld := ⟨0x38, 0, 32, 0, .rw⟩
/-! PAIR_DIV_COUNT (10_pair_operation.md) -/
def PAIR_DIV_COUNT_count : Fld := ⟨0x3c, 0, 32, 0, .rsc⟩
/-! PAIR_REPDIFF (10_pair_operation.md) -/
def PAIR_REPDIFF_count : Fld := ⟨0x40, 0, 32, 0, .rsc⟩
/-! PAIR_TAKEOVER (10_pair_operation.md) -/
def PAIR_TAKEOVER_count : Fld := ⟨0x44, 0, 32, 0, .rsc⟩
/-! PAIR_TK_T_W0 (10_pair_operation.md) -/
def PAIR_TK_T_W0_t : Fld := ⟨0x48, 0, 32, 0, .ro⟩
/-! PAIR_TK_T_W1 (10_pair_operation.md) -/
def PAIR_TK_T_W1_t : Fld := ⟨0x4c, 0, 32, 0, .ro⟩
/-! PAIR_REPLAY_BASE (10_pair_operation.md) -/
def PAIR_REPLAY_BASE_set : Fld := ⟨0x50, 7, 1, 0, .rw⟩
def PAIR_REPLAY_BASE_idx : Fld := ⟨0x50, 0, 7, 0, .rw⟩
/-! PAIR_SYNC_SF (10_pair_operation.md) -/
def PAIR_SYNC_SF_s : Fld := ⟨0x54, 0, 32, 0, .ro⟩
/-! PAIR_DIG_SEL (10_pair_operation.md) -/
def PAIR_DIG_SEL_bank : Fld := ⟨0x58, 0, 5, 0, .rw⟩
/-! PAIR_DIG_OWN_W0 (10_pair_operation.md) -/
def PAIR_DIG_OWN_W0_dig : Fld := ⟨0x60, 0, 32, 0, .ro⟩
/-! PAIR_DIG_OWN_W1 (10_pair_operation.md) -/
def PAIR_DIG_OWN_W1_dig : Fld := ⟨0x64, 0, 32, 0, .ro⟩
/-! PAIR_DIG_PEER_W0 (10_pair_operation.md) -/
def PAIR_DIG_PEER_W0_dig : Fld := ⟨0x68, 0, 32, 0, .ro⟩
/-! PAIR_DIG_PEER_W1 (10_pair_operation.md) -/
def PAIR_DIG_PEER_W1_dig : Fld := ⟨0x6c, 0, 32, 0, .ro⟩
/-! PAIR_DIV_SF (10_pair_operation.md) -/
def PAIR_DIV_SF_sfc : Fld := ⟨0x70, 0, 32, 0, .ro⟩

def tablePAIR0 : List Row := [
  ⟨PAIR_CFG_rec_hold_ms, 1, 0, 1, 0⟩,
  ⟨PAIR_CFG_side, 1, 0, 1, 0⟩,
  ⟨PAIR_CFG_div_act, 1, 0, 1, 0⟩,
  ⟨PAIR_CMD_sync, 1, 0, 1, 0⟩,
  ⟨PAIR_CMD_abort_sync, 1, 0, 1, 0⟩,
  ⟨PAIR_CMD_fail, 1, 0, 1, 0⟩,
  ⟨PAIR_CMD_yield, 1, 0, 1, 0⟩,
  ⟨PAIR_STAT_sync_result, 1, 0, 1, 0⟩,
  ⟨PAIR_STAT_plk, 1, 0, 1, 0⟩,
  ⟨PAIR_STAT_partner_fail, 1, 0, 1, 0⟩,
  ⟨PAIR_STAT_self_fail, 1, 0, 1, 0⟩,
  ⟨PAIR_STAT_bnd_off, 1, 0, 1, 0⟩,
  ⟨PAIR_BANK_ACT_mask, 1, 0, 1, 0⟩,
  ⟨PAIR_BANK_SBY_mask, 1, 0, 1, 0⟩,
  ⟨PAIR_BANK_OUT_mask, 1, 0, 1, 0⟩,
  ⟨PAIR_BANK_SEL_mask, 1, 0, 1, 0⟩,
  ⟨PAIR_DIV_COUNT_count, 1, 0, 1, 0⟩,
  ⟨PAIR_REPDIFF_count, 1, 0, 1, 0⟩,
  ⟨PAIR_TAKEOVER_count, 1, 0, 1, 0⟩,
  ⟨PAIR_TK_T_W0_t, 1, 0, 1, 0⟩,
  ⟨PAIR_TK_T_W1_t, 1, 0, 1, 0⟩,
  ⟨PAIR_REPLAY_BASE_set, 1, 0, 1, 0⟩,
  ⟨PAIR_REPLAY_BASE_idx, 1, 0, 1, 0⟩,
  ⟨PAIR_SYNC_SF_s, 1, 0, 1, 0⟩,
  ⟨PAIR_DIG_SEL_bank, 1, 0, 1, 0⟩,
  ⟨PAIR_DIG_OWN_W0_dig, 1, 0, 1, 0⟩,
  ⟨PAIR_DIG_OWN_W1_dig, 1, 0, 1, 0⟩,
  ⟨PAIR_DIG_PEER_W0_dig, 1, 0, 1, 0⟩,
  ⟨PAIR_DIG_PEER_W1_dig, 1, 0, 1, 0⟩,
  ⟨PAIR_DIV_SF_sfc, 1, 0, 1, 0⟩]
/-- The fields of a PAIR page. -/
def tablePAIR : List Row := tablePAIR0

/-! TRP_CFG (07_protection.md) -/
def TRP_CFG_hold_sf : Fld := ⟨0x20, 8, 8, 2, .rw⟩
def TRP_CFG_ack_chk : Fld := ⟨0x20, 1, 1, 1, .rw⟩
def TRP_CFG_mod_state_en : Fld := ⟨0x20, 0, 1, 1, .rw⟩
/-! TRP_VBUS_HI (07_protection.md) -/
def TRP_VBUS_HI_value : Fld := ⟨0x40, 0, 36, 0x219999999, .rw⟩
/-! TRP_VBUS_LO (07_protection.md) -/
def TRP_VBUS_LO_value : Fld := ⟨0x48, 0, 36, 0xde6666667, .rw⟩
/-! TRP_IBUS_HI (07_protection.md) -/
def TRP_IBUS_HI_value : Fld := ⟨0x50, 0, 36, 0x219999999, .rw⟩
/-! TRP_IBUS_LO (07_protection.md) -/
def TRP_IBUS_LO_value : Fld := ⟨0x58, 0, 36, 0xde6666667, .rw⟩
/-! TRP_TEMP (07_protection.md) -/
def TRP_TEMP_temp_rel : Fld := ⟨0x60, 8, 8, 0x8b, .rw⟩
def TRP_TEMP_temp_hi : Fld := ⟨0x60, 0, 8, 0x95, .rw⟩
/-! TRP_FORCE (07_protection.md) -/
def TRP_FORCE_bank : Fld := ⟨0x64, 0, 32, 0, .wo⟩
/-! TRP_ACTIVE (07_protection.md) -/
def TRP_ACTIVE_bank : Fld := ⟨0x68, 0, 32, 0, .ro⟩
/-! TRP_LATCHED (07_protection.md) -/
def TRP_LATCHED_bank : Fld := ⟨0x6c, 0, 32, 0, .ro⟩
/-! TRP_DISAGREE (07_protection.md) -/
def TRP_DISAGREE_count : Fld := ⟨0x70, 0, 32, 0, .rsc⟩
/-! TRP_SELF (07_protection.md) -/
def TRP_SELF_bank : Fld := ⟨0x74, 0, 32, 0, .w1c⟩

def tableTRP0 : List Row := [
  ⟨TRP_CFG_hold_sf, 1, 0, 1, 0⟩,
  ⟨TRP_CFG_ack_chk, 1, 0, 1, 0⟩,
  ⟨TRP_CFG_mod_state_en, 1, 0, 1, 0⟩,
  ⟨TRP_VBUS_HI_value, 1, 0, 1, 0⟩,
  ⟨TRP_VBUS_LO_value, 1, 0, 1, 0⟩,
  ⟨TRP_IBUS_HI_value, 1, 0, 1, 0⟩,
  ⟨TRP_IBUS_LO_value, 1, 0, 1, 0⟩,
  ⟨TRP_TEMP_temp_rel, 1, 0, 1, 0⟩,
  ⟨TRP_TEMP_temp_hi, 1, 0, 1, 0⟩,
  ⟨TRP_FORCE_bank, 1, 0, 1, 0⟩,
  ⟨TRP_ACTIVE_bank, 1, 0, 1, 0⟩,
  ⟨TRP_LATCHED_bank, 1, 0, 1, 0⟩,
  ⟨TRP_DISAGREE_count, 1, 0, 1, 0⟩,
  ⟨TRP_SELF_bank, 1, 0, 1, 0⟩]
/-- The fields of a TRP page. -/
def tableTRP : List Row := tableTRP0

/-! STP_WR_ERR (06_step_programs.md) -/
def STP_WR_ERR_function : Fld := ⟨0x20, 23, 9, 0, .ro⟩
def STP_WR_ERR_world : Fld := ⟨0x20, 21, 2, 0, .ro⟩
def STP_WR_ERR_word : Fld := ⟨0x20, 14, 4, 0, .ro⟩
def STP_WR_ERR_step : Fld := ⟨0x20, 0, 14, 0, .ro⟩
/-! STP_EV_CTRL (06_step_programs.md) -/
def STP_EV_CTRL_en : Fld := ⟨0x24, 31, 1, 0, .rw⟩
def STP_EV_CTRL_queue : Fld := ⟨0x24, 0, 12, 0, .rw⟩
/-! STP_EV_DROP (06_step_programs.md) -/
def STP_EV_DROP_drops : Fld := ⟨0x28, 0, 32, 0, .rsc⟩
/-! STP_GATE_CMD (06_step_programs.md) -/
def STP_GATE_CMD_release : Fld := ⟨0x2c, 31, 1, 0, .wo⟩
def STP_GATE_CMD_at : Fld := ⟨0x2c, 24, 1, 0, .wo⟩
def STP_GATE_CMD_group : Fld := ⟨0x2c, 16, 6, 0, .wo⟩
def STP_GATE_CMD_sfc : Fld := ⟨0x2c, 0, 14, 0, .wo⟩
/-! STP_GATE_CFG (06_step_programs.md) -/
def STP_GATE_CFG_en (n : Nat) : Fld := ⟨0x200 + 4 * n, 31, 1, 0, .rw⟩
def STP_GATE_CFG_manual (n : Nat) : Fld := ⟨0x200 + 4 * n, 30, 1, 0, .rw⟩
def STP_GATE_CFG_spacing (n : Nat) : Fld := ⟨0x200 + 4 * n, 22, 8, 0, .rw⟩
def STP_GATE_CFG_batch (n : Nat) : Fld := ⟨0x200 + 4 * n, 12, 10, 0, .rw⟩
def STP_GATE_CFG_expected (n : Nat) : Fld := ⟨0x200 + 4 * n, 0, 10, 0, .rw⟩
/-! STP_GATE_STAT (06_step_programs.md) -/
def STP_GATE_STAT_gen (n : Nat) : Fld := ⟨0x300 + 4 * n, 16, 16, 0, .ro⟩
def STP_GATE_STAT_count (n : Nat) : Fld := ⟨0x300 + 4 * n, 0, 10, 0, .ro⟩
/-! STP_LDG_CFG (08_bus_ledger.md) -/
def STP_LDG_CFG_en : Fld := ⟨0x40, 31, 1, 0, .rw⟩
def STP_LDG_CFG_start_en : Fld := ⟨0x40, 30, 1, 1, .rw⟩
def STP_LDG_CFG_max_delay : Fld := ⟨0x40, 0, 16, 0x32, .rw⟩
/-! STP_LDG_CMD (08_bus_ledger.md) -/
def STP_LDG_CMD_apply : Fld := ⟨0x44, 31, 1, 0, .wo⟩
def STP_LDG_CMD_discard : Fld := ⟨0x44, 30, 1, 0, .wo⟩
def STP_LDG_CMD_at : Fld := ⟨0x44, 24, 1, 0, .wo⟩
def STP_LDG_CMD_sfc : Fld := ⟨0x44, 0, 14, 0, .wo⟩
/-! STP_LDG_STAT (08_bus_ledger.md) -/
def STP_LDG_STAT_dirty : Fld := ⟨0x48, 7, 1, 0, .ro⟩
def STP_LDG_STAT_pending : Fld := ⟨0x48, 6, 1, 0, .ro⟩
def STP_LDG_STAT_residual : Fld := ⟨0x48, 5, 1, 0, .w1c⟩
def STP_LDG_STAT_clipping : Fld := ⟨0x48, 4, 1, 0, .ro⟩
def STP_LDG_STAT_cmd_result : Fld := ⟨0x48, 0, 4, 0, .ro⟩
/-! STP_LDG_IMP_MAX (08_bus_ledger.md) -/
def STP_LDG_IMP_MAX_value : Fld := ⟨0x50, 0, 36, 0x7ffffffff, .rw⟩
/-! STP_LDG_EXP_MAX (08_bus_ledger.md) -/
def STP_LDG_EXP_MAX_value : Fld := ⟨0x58, 0, 36, 0x7ffffffff, .rw⟩
/-! STP_LDG_BUD_IMP (08_bus_ledger.md) -/
def STP_LDG_BUD_IMP_value : Fld := ⟨0x60, 0, 36, 0x7ffffffff, .rw⟩
/-! STP_LDG_BUD_EXP (08_bus_ledger.md) -/
def STP_LDG_BUD_EXP_value : Fld := ⟨0x68, 0, 36, 0x7ffffffff, .rw⟩
/-! STP_LDG_PRED_REQ (08_bus_ledger.md) -/
def STP_LDG_PRED_REQ_value : Fld := ⟨0x70, 0, 36, 0, .ro⟩
/-! STP_LDG_PRED (08_bus_ledger.md) -/
def STP_LDG_PRED_value : Fld := ⟨0x78, 0, 36, 0, .ro⟩
/-! STP_LDG_MEAS (08_bus_ledger.md) -/
def STP_LDG_MEAS_value : Fld := ⟨0x80, 0, 36, 0, .ro⟩
/-! STP_LDG_CHG (08_bus_ledger.md) -/
def STP_LDG_CHG_value : Fld := ⟨0x88, 0, 36, 0, .ro⟩
/-! STP_LDG_DIS (08_bus_ledger.md) -/
def STP_LDG_DIS_value : Fld := ⟨0x90, 0, 36, 0, .ro⟩
/-! STP_LDG_SFC (08_bus_ledger.md) -/
def STP_LDG_SFC_sfc : Fld := ⟨0x98, 0, 32, 0, .ro⟩
/-! STP_LDG_NSHORT (08_bus_ledger.md) -/
def STP_LDG_NSHORT_delayed : Fld := ⟨0x9c, 16, 16, 0, .ro⟩
def STP_LDG_NSHORT_clipped : Fld := ⟨0x9c, 0, 16, 0, .ro⟩
/-! STP_LDG_N_CLIP (08_bus_ledger.md) -/
def STP_LDG_N_CLIP_count : Fld := ⟨0xa0, 0, 32, 0, .rsc⟩
/-! STP_LDG_N_DELAY (08_bus_ledger.md) -/
def STP_LDG_N_DELAY_count : Fld := ⟨0xa4, 0, 32, 0, .rsc⟩
/-! STP_LDG_N_FORCED (08_bus_ledger.md) -/
def STP_LDG_N_FORCED_count : Fld := ⟨0xa8, 0, 32, 0, .rsc⟩
/-! STP_LDG_MISS (08_bus_ledger.md) -/
def STP_LDG_MISS_count : Fld := ⟨0xac, 0, 32, 0, .rsc⟩
/-! STP_LDG_EFF (08_bus_ledger.md) -/
def STP_LDG_EFF_eff_chg (n : Nat) : Fld := ⟨0x400 + 8 * n, 16, 16, 0xf333, .rw⟩
def STP_LDG_EFF_eff_dis (n : Nat) : Fld := ⟨0x400 + 8 * n, 0, 16, 0xf333, .rw⟩
/-! STP_LDG_OVH (08_bus_ledger.md) -/
def STP_LDG_OVH_ovh_mw (n : Nat) : Fld := ⟨0x404 + 8 * n, 0, 16, 0, .rw⟩

def tableSTP0 : List Row := [
  ⟨STP_WR_ERR_function, 1, 0, 1, 0⟩,
  ⟨STP_WR_ERR_world, 1, 0, 1, 0⟩,
  ⟨STP_WR_ERR_word, 1, 0, 1, 0⟩,
  ⟨STP_WR_ERR_step, 1, 0, 1, 0⟩,
  ⟨STP_EV_CTRL_en, 1, 0, 1, 0⟩,
  ⟨STP_EV_CTRL_queue, 1, 0, 1, 0⟩,
  ⟨STP_EV_DROP_drops, 1, 0, 1, 0⟩,
  ⟨STP_GATE_CMD_release, 1, 0, 1, 0⟩,
  ⟨STP_GATE_CMD_at, 1, 0, 1, 0⟩,
  ⟨STP_GATE_CMD_group, 1, 0, 1, 0⟩,
  ⟨STP_GATE_CMD_sfc, 1, 0, 1, 0⟩,
  ⟨STP_GATE_CFG_en 0, 64, 4, 1, 0⟩,
  ⟨STP_GATE_CFG_manual 0, 64, 4, 1, 0⟩,
  ⟨STP_GATE_CFG_spacing 0, 64, 4, 1, 0⟩,
  ⟨STP_GATE_CFG_batch 0, 64, 4, 1, 0⟩,
  ⟨STP_GATE_CFG_expected 0, 64, 4, 1, 0⟩,
  ⟨STP_GATE_STAT_gen 0, 64, 4, 1, 0⟩,
  ⟨STP_GATE_STAT_count 0, 64, 4, 1, 0⟩,
  ⟨STP_LDG_CFG_en, 1, 0, 1, 0⟩,
  ⟨STP_LDG_CFG_start_en, 1, 0, 1, 0⟩,
  ⟨STP_LDG_CFG_max_delay, 1, 0, 1, 0⟩,
  ⟨STP_LDG_CMD_apply, 1, 0, 1, 0⟩,
  ⟨STP_LDG_CMD_discard, 1, 0, 1, 0⟩,
  ⟨STP_LDG_CMD_at, 1, 0, 1, 0⟩,
  ⟨STP_LDG_CMD_sfc, 1, 0, 1, 0⟩,
  ⟨STP_LDG_STAT_dirty, 1, 0, 1, 0⟩,
  ⟨STP_LDG_STAT_pending, 1, 0, 1, 0⟩,
  ⟨STP_LDG_STAT_residual, 1, 0, 1, 0⟩,
  ⟨STP_LDG_STAT_clipping, 1, 0, 1, 0⟩,
  ⟨STP_LDG_STAT_cmd_result, 1, 0, 1, 0⟩]
def tableSTP1 : List Row := [
  ⟨STP_LDG_IMP_MAX_value, 1, 0, 1, 0⟩,
  ⟨STP_LDG_EXP_MAX_value, 1, 0, 1, 0⟩,
  ⟨STP_LDG_BUD_IMP_value, 1, 0, 1, 0⟩,
  ⟨STP_LDG_BUD_EXP_value, 1, 0, 1, 0⟩,
  ⟨STP_LDG_PRED_REQ_value, 1, 0, 1, 0⟩,
  ⟨STP_LDG_PRED_value, 1, 0, 1, 0⟩,
  ⟨STP_LDG_MEAS_value, 1, 0, 1, 0⟩,
  ⟨STP_LDG_CHG_value, 1, 0, 1, 0⟩,
  ⟨STP_LDG_DIS_value, 1, 0, 1, 0⟩,
  ⟨STP_LDG_SFC_sfc, 1, 0, 1, 0⟩,
  ⟨STP_LDG_NSHORT_delayed, 1, 0, 1, 0⟩,
  ⟨STP_LDG_NSHORT_clipped, 1, 0, 1, 0⟩,
  ⟨STP_LDG_N_CLIP_count, 1, 0, 1, 0⟩,
  ⟨STP_LDG_N_DELAY_count, 1, 0, 1, 0⟩,
  ⟨STP_LDG_N_FORCED_count, 1, 0, 1, 0⟩,
  ⟨STP_LDG_MISS_count, 1, 0, 1, 0⟩,
  ⟨STP_LDG_EFF_eff_chg 0, 32, 8, 1, 0⟩,
  ⟨STP_LDG_EFF_eff_dis 0, 32, 8, 1, 0⟩,
  ⟨STP_LDG_OVH_ovh_mw 0, 32, 8, 1, 0⟩]
/-- The fields of a STP page. -/
def tableSTP : List Row := tableSTP0 ++ tableSTP1

/-! BNK_LINK_CTRL (03_silk_link.md) -/
def BNK_LINK_CTRL_id_reject : Fld := ⟨0x40, 7, 1, 0, .wo⟩
def BNK_LINK_CTRL_id_accept : Fld := ⟨0x40, 6, 1, 0, .wo⟩
def BNK_LINK_CTRL_hold_resume : Fld := ⟨0x40, 4, 1, 0, .rw⟩
def BNK_LINK_CTRL_drop : Fld := ⟨0x40, 3, 1, 0, .wo⟩
def BNK_LINK_CTRL_train : Fld := ⟨0x40, 2, 1, 0, .wo⟩
def BNK_LINK_CTRL_auto : Fld := ⟨0x40, 1, 1, 0, .rw⟩
def BNK_LINK_CTRL_port_en : Fld := ⟨0x40, 0, 1, 0, .rw⟩
/-! BNK_LINK_STAT (03_silk_link.md) -/
def BNK_LINK_STAT_rtt : Fld := ⟨0x44, 16, 16, 0, .ro⟩
def BNK_LINK_STAT_gap_open : Fld := ⟨0x44, 11, 1, 0, .ro⟩
def BNK_LINK_STAT_dual : Fld := ⟨0x44, 10, 1, 0, .ro⟩
def BNK_LINK_STAT_fail_phase : Fld := ⟨0x44, 4, 4, 0, .ro⟩
def BNK_LINK_STAT_state : Fld := ⟨0x44, 0, 4, 0, .ro⟩
/-! BNK_LINK_ERR (03_silk_link.md) -/
def BNK_LINK_ERR_sync_err : Fld := ⟨0x48, 24, 8, 0, .rsc⟩
def BNK_LINK_ERR_crc_err : Fld := ⟨0x48, 16, 8, 0, .rsc⟩
def BNK_LINK_ERR_lost_sync : Fld := ⟨0x48, 8, 8, 0, .rsc⟩
def BNK_LINK_ERR_lost_link : Fld := ⟨0x48, 0, 8, 0, .rsc⟩
/-! BNK_MOD_STAT (03_silk_link.md) -/
def BNK_MOD_STAT_status : Fld := ⟨0x4c, 0, 32, 0, .ro⟩
/-! BNK_ID_VENDOR (03_silk_link.md) -/
def BNK_ID_VENDOR_vendor_id : Fld := ⟨0x50, 16, 16, 0, .ro⟩
def BNK_ID_VENDOR_model : Fld := ⟨0x50, 0, 16, 0, .ro⟩
/-! BNK_ID_REV (03_silk_link.md) -/
def BNK_ID_REV_hw_rev : Fld := ⟨0x54, 16, 16, 0, .ro⟩
def BNK_ID_REV_fw_rev : Fld := ⟨0x54, 0, 16, 0, .ro⟩
/-! BNK_ID_SERIAL (03_silk_link.md) -/
def BNK_ID_SERIAL_serial (n : Nat) : Fld := ⟨0x58 + 4 * n, 0, 32, 0, .ro⟩
/-! BNK_ID_CRC (03_silk_link.md) -/
def BNK_ID_CRC_crc : Fld := ⟨0x68, 0, 32, 0, .ro⟩
/-! BNK_ID_NEW_CRC (03_silk_link.md) -/
def BNK_ID_NEW_CRC_crc : Fld := ⟨0x6c, 0, 32, 0, .ro⟩
/-! BNK_GAP_START_W0 (03_silk_link.md) -/
def BNK_GAP_START_W0_t : Fld := ⟨0x70, 0, 32, 0, .ro⟩
/-! BNK_GAP_START_W1 (03_silk_link.md) -/
def BNK_GAP_START_W1_t : Fld := ⟨0x74, 0, 32, 0, .ro⟩
/-! BNK_GAP_END_W0 (03_silk_link.md) -/
def BNK_GAP_END_W0_t : Fld := ⟨0x78, 0, 32, 0, .ro⟩
/-! BNK_GAP_END_W1 (03_silk_link.md) -/
def BNK_GAP_END_W1_t : Fld := ⟨0x7c, 0, 32, 0, .ro⟩
/-! BNK_MEAS_CTRL (04_measurement_chain.md) -/
def BNK_MEAS_CTRL_cal_keep : Fld := ⟨0x80, 1, 1, 0, .rw⟩
def BNK_MEAS_CTRL_tc_en : Fld := ⟨0x80, 0, 1, 1, .rw⟩
/-! BNK_MEAS_STAT (04_measurement_chain.md) -/
def BNK_MEAS_STAT_auxb_flags : Fld := ⟨0x84, 24, 8, 0, .ro⟩
def BNK_MEAS_STAT_auxa_flags : Fld := ⟨0x84, 16, 8, 0, .ro⟩
def BNK_MEAS_STAT_ibus_flags : Fld := ⟨0x84, 8, 8, 0, .ro⟩
def BNK_MEAS_STAT_vbus_flags : Fld := ⟨0x84, 0, 8, 0, .ro⟩
/-! BNK_CAL_SEL (04_measurement_chain.md) -/
def BNK_CAL_SEL_view : Fld := ⟨0x88, 8, 1, 0, .rw⟩
def BNK_CAL_SEL_stream : Fld := ⟨0x88, 0, 6, 0, .rw⟩
/-! BNK_CAL_CMD (04_measurement_chain.md) -/
def BNK_CAL_CMD_commit : Fld := ⟨0x8c, 31, 1, 0, .wo⟩
def BNK_CAL_CMD_reload : Fld := ⟨0x8c, 30, 1, 0, .wo⟩
def BNK_CAL_CMD_discard : Fld := ⟨0x8c, 29, 1, 0, .wo⟩
def BNK_CAL_CMD_at : Fld := ⟨0x8c, 28, 1, 0, .wo⟩
def BNK_CAL_CMD_sfc : Fld := ⟨0x8c, 0, 14, 0, .wo⟩
/-! BNK_CAL_GAIN (04_measurement_chain.md) -/
def BNK_CAL_GAIN_gain : Fld := ⟨0x90, 0, 32, 0x40000000, .rw⟩
/-! BNK_CAL_OFFSET (04_measurement_chain.md) -/
def BNK_CAL_OFFSET_offset : Fld := ⟨0x94, 0, 32, 0, .rw⟩
/-! BNK_CAL_TC (04_measurement_chain.md) -/
def BNK_CAL_TC_temp_coeff : Fld := ⟨0x98, 0, 32, 0, .rw⟩
/-! BNK_CAL_STAT (04_measurement_chain.md) -/
def BNK_CAL_STAT_pending : Fld := ⟨0x9c, 31, 1, 0, .ro⟩
def BNK_CAL_STAT_reload_busy : Fld := ⟨0x9c, 30, 1, 0, .ro⟩
def BNK_CAL_STAT_reload_result : Fld := ⟨0x9c, 28, 2, 0, .ro⟩
def BNK_CAL_STAT_cal_temp : Fld := ⟨0x9c, 0, 16, 0, .ro⟩
/-! BNK_CAL_SW0 (04_measurement_chain.md) -/
def BNK_CAL_SW0_sw : Fld := ⟨0xa0, 0, 32, 0, .ro⟩
/-! BNK_CAL_SW1 (04_measurement_chain.md) -/
def BNK_CAL_SW1_sw : Fld := ⟨0xa4, 0, 4, 0, .ro⟩
/-! BNK_CAL_UNC0 (04_measurement_chain.md) -/
def BNK_CAL_UNC0_unc : Fld := ⟨0xa8, 0, 32, 0xffffffff, .ro⟩
/-! BNK_CAL_UNC1 (04_measurement_chain.md) -/
def BNK_CAL_UNC1_unc : Fld := ⟨0xac, 0, 4, 0xf, .ro⟩
/-! BNK_VBUS (04_measurement_chain.md) -/
def BNK_VBUS_value : Fld := ⟨0xb0, 0, 36, 0, .ro⟩
/-! BNK_IBUS (04_measurement_chain.md) -/
def BNK_IBUS_value : Fld := ⟨0xb8, 0, 36, 0, .ro⟩
/-! BNK_AUXA (04_measurement_chain.md) -/
def BNK_AUXA_value : Fld := ⟨0xc0, 0, 36, 0, .ro⟩
/-! BNK_AUXB (04_measurement_chain.md) -/
def BNK_AUXB_value : Fld := ⟨0xc8, 0, 36, 0, .ro⟩
/-! BNK_AUX_SEL (04_measurement_chain.md) -/
def BNK_AUX_SEL_aux_b : Fld := ⟨0xd0, 8, 8, 0xff, .rw⟩
def BNK_AUX_SEL_aux_a : Fld := ⟨0xd0, 0, 8, 0xff, .rw⟩
/-! BNK_TS_ADJ (04_measurement_chain.md) -/
def BNK_TS_ADJ_adj : Fld := ⟨0xd4, 0, 32, 0, .ro⟩
/-! BNK_LOG_DROP (04_measurement_chain.md) -/
def BNK_LOG_DROP_drops : Fld := ⟨0xd8, 0, 32, 0, .rsc⟩
/-! BNK_OVR_COUNT (04_measurement_chain.md) -/
def BNK_OVR_COUNT_count : Fld := ⟨0xdc, 0, 32, 0, .rsc⟩
/-! BNK_CHN_MASK (05_channel_control.md) -/
def BNK_CHN_MASK_mask : Fld := ⟨0xe0, 0, 16, 0, .rw⟩
/-! BNK_CHN_CMD (05_channel_control.md) -/
def BNK_CHN_CMD_arm : Fld := ⟨0xe4, 31, 1, 0, .wo⟩
def BNK_CHN_CMD_disarm : Fld := ⟨0xe4, 30, 1, 0, .wo⟩
def BNK_CHN_CMD_apply : Fld := ⟨0xe4, 29, 1, 0, .wo⟩
def BNK_CHN_CMD_at : Fld := ⟨0xe4, 24, 1, 0, .wo⟩
def BNK_CHN_CMD_sfc : Fld := ⟨0xe4, 0, 14, 0, .wo⟩
/-! BNK_ARM_STAT (05_channel_control.md) -/
def BNK_ARM_STAT_pending : Fld := ⟨0xe8, 16, 16, 0, .ro⟩
def BNK_ARM_STAT_armed : Fld := ⟨0xe8, 0, 16, 0, .ro⟩
/-! BNK_TRIP_STAT (07_protection.md) -/
def BNK_TRIP_STAT_state : Fld := ⟨0xf0, 30, 2, 0, .ro⟩
def BNK_TRIP_STAT_trip_bit : Fld := ⟨0xf0, 29, 1, 0, .ro⟩
def BNK_TRIP_STAT_ack_missing : Fld := ⟨0xf0, 28, 1, 0, .w1c⟩
def BNK_TRIP_STAT_disagree : Fld := ⟨0xf0, 27, 1, 0, .w1c⟩
def BNK_TRIP_STAT_set_a : Fld := ⟨0xf0, 26, 1, 0, .ro⟩
def BNK_TRIP_STAT_set_b : Fld := ⟨0xf0, 25, 1, 0, .ro⟩
def BNK_TRIP_STAT_cause : Fld := ⟨0xf0, 20, 5, 0, .ro⟩
def BNK_TRIP_STAT_origin : Fld := ⟨0xf0, 16, 4, 0, .ro⟩
def BNK_TRIP_STAT_origin_valid : Fld := ⟨0xf0, 15, 1, 0, .ro⟩
def BNK_TRIP_STAT_clear_result : Fld := ⟨0xf0, 0, 4, 0, .ro⟩
/-! BNK_TRIP_CMD (07_protection.md) -/
def BNK_TRIP_CMD_clear : Fld := ⟨0xf4, 31, 1, 0, .wo⟩
def BNK_TRIP_CMD_clear_act : Fld := ⟨0xf4, 29, 2, 0, .wo⟩
def BNK_TRIP_CMD_test_a : Fld := ⟨0xf4, 28, 1, 0, .wo⟩
def BNK_TRIP_CMD_test_b : Fld := ⟨0xf4, 27, 1, 0, .wo⟩
def BNK_TRIP_CMD_at : Fld := ⟨0xf4, 24, 1, 0, .wo⟩
def BNK_TRIP_CMD_sfc : Fld := ⟨0xf4, 0, 14, 0, .wo⟩
/-! BNK_TRIP_COUNT (07_protection.md) -/
def BNK_TRIP_COUNT_count : Fld := ⟨0xf8, 0, 32, 0, .rsc⟩
/-! BNK_TRIP_T_W0 (07_protection.md) -/
def BNK_TRIP_T_W0_t : Fld := ⟨0x100, 0, 32, 0, .ro⟩
/-! BNK_TRIP_T_W1 (07_protection.md) -/
def BNK_TRIP_T_W1_t : Fld := ⟨0x104, 0, 32, 0, .ro⟩

def tableBNK0 : List Row := [
  ⟨BNK_LINK_CTRL_id_reject, 1, 0, 1, 0⟩,
  ⟨BNK_LINK_CTRL_id_accept, 1, 0, 1, 0⟩,
  ⟨BNK_LINK_CTRL_hold_resume, 1, 0, 1, 0⟩,
  ⟨BNK_LINK_CTRL_drop, 1, 0, 1, 0⟩,
  ⟨BNK_LINK_CTRL_train, 1, 0, 1, 0⟩,
  ⟨BNK_LINK_CTRL_auto, 1, 0, 1, 0⟩,
  ⟨BNK_LINK_CTRL_port_en, 1, 0, 1, 0⟩,
  ⟨BNK_LINK_STAT_rtt, 1, 0, 1, 0⟩,
  ⟨BNK_LINK_STAT_gap_open, 1, 0, 1, 0⟩,
  ⟨BNK_LINK_STAT_dual, 1, 0, 1, 0⟩,
  ⟨BNK_LINK_STAT_fail_phase, 1, 0, 1, 0⟩,
  ⟨BNK_LINK_STAT_state, 1, 0, 1, 0⟩,
  ⟨BNK_LINK_ERR_sync_err, 1, 0, 1, 0⟩,
  ⟨BNK_LINK_ERR_crc_err, 1, 0, 1, 0⟩,
  ⟨BNK_LINK_ERR_lost_sync, 1, 0, 1, 0⟩,
  ⟨BNK_LINK_ERR_lost_link, 1, 0, 1, 0⟩,
  ⟨BNK_MOD_STAT_status, 1, 0, 1, 0⟩,
  ⟨BNK_ID_VENDOR_vendor_id, 1, 0, 1, 0⟩,
  ⟨BNK_ID_VENDOR_model, 1, 0, 1, 0⟩,
  ⟨BNK_ID_REV_hw_rev, 1, 0, 1, 0⟩,
  ⟨BNK_ID_REV_fw_rev, 1, 0, 1, 0⟩,
  ⟨BNK_ID_SERIAL_serial 0, 4, 4, 1, 0⟩,
  ⟨BNK_ID_CRC_crc, 1, 0, 1, 0⟩,
  ⟨BNK_ID_NEW_CRC_crc, 1, 0, 1, 0⟩,
  ⟨BNK_GAP_START_W0_t, 1, 0, 1, 0⟩,
  ⟨BNK_GAP_START_W1_t, 1, 0, 1, 0⟩,
  ⟨BNK_GAP_END_W0_t, 1, 0, 1, 0⟩,
  ⟨BNK_GAP_END_W1_t, 1, 0, 1, 0⟩,
  ⟨BNK_MEAS_CTRL_cal_keep, 1, 0, 1, 0⟩,
  ⟨BNK_MEAS_CTRL_tc_en, 1, 0, 1, 0⟩]
def tableBNK1 : List Row := [
  ⟨BNK_MEAS_STAT_auxb_flags, 1, 0, 1, 0⟩,
  ⟨BNK_MEAS_STAT_auxa_flags, 1, 0, 1, 0⟩,
  ⟨BNK_MEAS_STAT_ibus_flags, 1, 0, 1, 0⟩,
  ⟨BNK_MEAS_STAT_vbus_flags, 1, 0, 1, 0⟩,
  ⟨BNK_CAL_SEL_view, 1, 0, 1, 0⟩,
  ⟨BNK_CAL_SEL_stream, 1, 0, 1, 0⟩,
  ⟨BNK_CAL_CMD_commit, 1, 0, 1, 0⟩,
  ⟨BNK_CAL_CMD_reload, 1, 0, 1, 0⟩,
  ⟨BNK_CAL_CMD_discard, 1, 0, 1, 0⟩,
  ⟨BNK_CAL_CMD_at, 1, 0, 1, 0⟩,
  ⟨BNK_CAL_CMD_sfc, 1, 0, 1, 0⟩,
  ⟨BNK_CAL_GAIN_gain, 1, 0, 1, 0⟩,
  ⟨BNK_CAL_OFFSET_offset, 1, 0, 1, 0⟩,
  ⟨BNK_CAL_TC_temp_coeff, 1, 0, 1, 0⟩,
  ⟨BNK_CAL_STAT_pending, 1, 0, 1, 0⟩,
  ⟨BNK_CAL_STAT_reload_busy, 1, 0, 1, 0⟩,
  ⟨BNK_CAL_STAT_reload_result, 1, 0, 1, 0⟩,
  ⟨BNK_CAL_STAT_cal_temp, 1, 0, 1, 0⟩,
  ⟨BNK_CAL_SW0_sw, 1, 0, 1, 0⟩,
  ⟨BNK_CAL_SW1_sw, 1, 0, 1, 0⟩,
  ⟨BNK_CAL_UNC0_unc, 1, 0, 1, 0⟩,
  ⟨BNK_CAL_UNC1_unc, 1, 0, 1, 0⟩,
  ⟨BNK_VBUS_value, 1, 0, 1, 0⟩,
  ⟨BNK_IBUS_value, 1, 0, 1, 0⟩,
  ⟨BNK_AUXA_value, 1, 0, 1, 0⟩,
  ⟨BNK_AUXB_value, 1, 0, 1, 0⟩,
  ⟨BNK_AUX_SEL_aux_b, 1, 0, 1, 0⟩,
  ⟨BNK_AUX_SEL_aux_a, 1, 0, 1, 0⟩,
  ⟨BNK_TS_ADJ_adj, 1, 0, 1, 0⟩,
  ⟨BNK_LOG_DROP_drops, 1, 0, 1, 0⟩]
def tableBNK2 : List Row := [
  ⟨BNK_OVR_COUNT_count, 1, 0, 1, 0⟩,
  ⟨BNK_CHN_MASK_mask, 1, 0, 1, 0⟩,
  ⟨BNK_CHN_CMD_arm, 1, 0, 1, 0⟩,
  ⟨BNK_CHN_CMD_disarm, 1, 0, 1, 0⟩,
  ⟨BNK_CHN_CMD_apply, 1, 0, 1, 0⟩,
  ⟨BNK_CHN_CMD_at, 1, 0, 1, 0⟩,
  ⟨BNK_CHN_CMD_sfc, 1, 0, 1, 0⟩,
  ⟨BNK_ARM_STAT_pending, 1, 0, 1, 0⟩,
  ⟨BNK_ARM_STAT_armed, 1, 0, 1, 0⟩,
  ⟨BNK_TRIP_STAT_state, 1, 0, 1, 0⟩,
  ⟨BNK_TRIP_STAT_trip_bit, 1, 0, 1, 0⟩,
  ⟨BNK_TRIP_STAT_ack_missing, 1, 0, 1, 0⟩,
  ⟨BNK_TRIP_STAT_disagree, 1, 0, 1, 0⟩,
  ⟨BNK_TRIP_STAT_set_a, 1, 0, 1, 0⟩,
  ⟨BNK_TRIP_STAT_set_b, 1, 0, 1, 0⟩,
  ⟨BNK_TRIP_STAT_cause, 1, 0, 1, 0⟩,
  ⟨BNK_TRIP_STAT_origin, 1, 0, 1, 0⟩,
  ⟨BNK_TRIP_STAT_origin_valid, 1, 0, 1, 0⟩,
  ⟨BNK_TRIP_STAT_clear_result, 1, 0, 1, 0⟩,
  ⟨BNK_TRIP_CMD_clear, 1, 0, 1, 0⟩,
  ⟨BNK_TRIP_CMD_clear_act, 1, 0, 1, 0⟩,
  ⟨BNK_TRIP_CMD_test_a, 1, 0, 1, 0⟩,
  ⟨BNK_TRIP_CMD_test_b, 1, 0, 1, 0⟩,
  ⟨BNK_TRIP_CMD_at, 1, 0, 1, 0⟩,
  ⟨BNK_TRIP_CMD_sfc, 1, 0, 1, 0⟩,
  ⟨BNK_TRIP_COUNT_count, 1, 0, 1, 0⟩,
  ⟨BNK_TRIP_T_W0_t, 1, 0, 1, 0⟩,
  ⟨BNK_TRIP_T_W1_t, 1, 0, 1, 0⟩]
/-- The fields of a BNK page. -/
def tableBNK : List Row := tableBNK0 ++ tableBNK1 ++ tableBNK2

/-! CHN_I (04_measurement_chain.md) -/
def CHN_I_value : Fld := ⟨0x40, 0, 36, 0, .ro⟩
/-! CHN_V (04_measurement_chain.md) -/
def CHN_V_value : Fld := ⟨0x48, 0, 36, 0, .ro⟩
/-! CHN_I_AVG (04_measurement_chain.md) -/
def CHN_I_AVG_value : Fld := ⟨0x50, 0, 36, 0, .ro⟩
/-! CHN_V_AVG (04_measurement_chain.md) -/
def CHN_V_AVG_value : Fld := ⟨0x58, 0, 36, 0, .ro⟩
/-! CHN_MEAS_FLAGS (04_measurement_chain.md) -/
def CHN_MEAS_FLAGS_v_ovr_seen : Fld := ⟨0x60, 17, 1, 0, .w1c⟩
def CHN_MEAS_FLAGS_i_ovr_seen : Fld := ⟨0x60, 16, 1, 0, .w1c⟩
def CHN_MEAS_FLAGS_v_flags : Fld := ⟨0x60, 8, 8, 0, .ro⟩
def CHN_MEAS_FLAGS_i_flags : Fld := ⟨0x60, 0, 8, 0, .ro⟩
/-! CHN_CFG (05_channel_control.md) -/
def CHN_CFG_settle : Fld := ⟨0x20, 12, 4, 3, .rw⟩
def CHN_CFG_dslew : Fld := ⟨0x20, 8, 2, 0, .rw⟩
def CHN_CFG_dmode : Fld := ⟨0x20, 4, 4, 0, .rw⟩
def CHN_CFG_src : Fld := ⟨0x20, 0, 1, 0, .rw⟩
/-! CHN_STAT (05_channel_control.md) -/
def CHN_STAT_dirty : Fld := ⟨0x24, 21, 1, 0, .ro⟩
def CHN_STAT_pending : Fld := ⟨0x24, 20, 1, 0, .ro⟩
def CHN_STAT_cmd_result : Fld := ⟨0x24, 16, 4, 0, .ro⟩
def CHN_STAT_repeated : Fld := ⟨0x24, 15, 1, 0, .ro⟩
def CHN_STAT_granted_less : Fld := ⟨0x24, 14, 1, 0, .ro⟩
def CHN_STAT_ramp : Fld := ⟨0x24, 13, 1, 0, .ro⟩
def CHN_STAT_lim_v : Fld := ⟨0x24, 12, 1, 0, .ro⟩
def CHN_STAT_lim_i : Fld := ⟨0x24, 11, 1, 0, .ro⟩
def CHN_STAT_trim_sat : Fld := ⟨0x24, 10, 1, 0, .ro⟩
def CHN_STAT_phase_b : Fld := ⟨0x24, 9, 1, 0, .ro⟩
def CHN_STAT_cv_active : Fld := ⟨0x24, 8, 1, 0, .ro⟩
def CHN_STAT_ctl_mode : Fld := ⟨0x24, 4, 4, 0, .ro⟩
def CHN_STAT_state : Fld := ⟨0x24, 0, 3, 0, .ro⟩
/-! CHN_CMD (05_channel_control.md) -/
def CHN_CMD_arm : Fld := ⟨0x28, 31, 1, 0, .wo⟩
def CHN_CMD_disarm : Fld := ⟨0x28, 30, 1, 0, .wo⟩
def CHN_CMD_apply : Fld := ⟨0x28, 29, 1, 0, .wo⟩
def CHN_CMD_preset : Fld := ⟨0x28, 28, 1, 0, .wo⟩
def CHN_CMD_discard : Fld := ⟨0x28, 27, 1, 0, .wo⟩
def CHN_CMD_at : Fld := ⟨0x28, 24, 1, 0, .wo⟩
def CHN_CMD_sfc : Fld := ⟨0x28, 0, 14, 0, .wo⟩
/-! CHN_INTG_STAT (05_channel_control.md) -/
def CHN_INTG_STAT_run : Fld := ⟨0x2c, 10, 1, 0, .ro⟩
def CHN_INTG_STAT_scale_chg : Fld := ⟨0x2c, 9, 1, 0, .w1c⟩
def CHN_INTG_STAT_gap : Fld := ⟨0x2c, 8, 1, 0, .w1c⟩
def CHN_INTG_STAT_sat : Fld := ⟨0x2c, 0, 8, 0, .w1c⟩
/-! CHN_PRE_SEL (05_channel_control.md) -/
def CHN_PRE_SEL_counter : Fld := ⟨0x30, 0, 3, 0, .rw⟩
/-! CHN_PRE_W0 (05_channel_control.md) -/
def CHN_PRE_W0_value : Fld := ⟨0x34, 0, 32, 0, .rw⟩
/-! CHN_PRE_W1 (05_channel_control.md) -/
def CHN_PRE_W1_value : Fld := ⟨0x38, 0, 32, 0, .rw⟩
/-! CHN_PRE_W2 (05_channel_control.md) -/
def CHN_PRE_W2_value : Fld := ⟨0x3c, 0, 8, 0, .rw⟩
/-! CHN_SET_I (05_channel_control.md) -/
def CHN_SET_I_value : Fld := ⟨0x80, 0, 36, 0, .rw⟩
/-! CHN_SET_V (05_channel_control.md) -/
def CHN_SET_V_value : Fld := ⟨0x88, 0, 36, 0, .rw⟩
/-! CHN_SET_P (05_channel_control.md) -/
def CHN_SET_P_value : Fld := ⟨0x90, 0, 36, 0, .rw⟩
/-! CHN_SET_RES (05_channel_control.md) -/
def CHN_SET_RES_value : Fld := ⟨0x98, 0, 36, 0, .rw⟩
/-! CHN_PULSE_B (05_channel_control.md) -/
def CHN_PULSE_B_value : Fld := ⟨0xa0, 0, 36, 0, .rw⟩
/-! CHN_I_LIM_CHG (05_channel_control.md) -/
def CHN_I_LIM_CHG_value : Fld := ⟨0xa8, 0, 36, 0x1ffffffff, .rw⟩
/-! CHN_I_LIM_DIS (05_channel_control.md) -/
def CHN_I_LIM_DIS_value : Fld := ⟨0xb0, 0, 36, 0x1ffffffff, .rw⟩
/-! CHN_V_LIM_HI (05_channel_control.md) -/
def CHN_V_LIM_HI_value : Fld := ⟨0xb8, 0, 36, 0x1ffffffff, .rw⟩
/-! CHN_V_LIM_LO (05_channel_control.md) -/
def CHN_V_LIM_LO_value : Fld := ⟨0xc0, 0, 36, 0, .rw⟩
/-! CHN_TRIM_LIM (05_channel_control.md) -/
def CHN_TRIM_LIM_value : Fld := ⟨0xc8, 0, 36, 0x10000000, .rw⟩
/-! CHN_RAMP (05_channel_control.md) -/
def CHN_RAMP_value : Fld := ⟨0xd0, 0, 36, 0, .rw⟩
/-! CHN_PULSE_TA (05_channel_control.md) -/
def CHN_PULSE_TA_ta : Fld := ⟨0xd8, 0, 32, 1, .rw⟩
/-! CHN_PULSE_TB (05_channel_control.md) -/
def CHN_PULSE_TB_tb : Fld := ⟨0xdc, 0, 32, 1, .rw⟩
/-! CHN_KP_I (05_channel_control.md) -/
def CHN_KP_I_kp_i : Fld := ⟨0xe0, 0, 32, 0x4000, .rw⟩
/-! CHN_KI_I (05_channel_control.md) -/
def CHN_KI_I_ki_i : Fld := ⟨0xe4, 0, 32, 0x10000, .rw⟩
/-! CHN_KP_V (05_channel_control.md) -/
def CHN_KP_V_kp_v : Fld := ⟨0xe8, 0, 32, 0x20000, .rw⟩
/-! CHN_KI_V (05_channel_control.md) -/
def CHN_KI_V_ki_v : Fld := ⟨0xec, 0, 32, 0x20000, .rw⟩
/-! CHN_U (05_channel_control.md) -/
def CHN_U_value : Fld := ⟨0xf0, 0, 36, 0, .ro⟩
/-! CHN_WORD (05_channel_control.md) -/
def CHN_WORD_value : Fld := ⟨0xf8, 0, 36, 0, .ro⟩
/-! CHN_XI (05_channel_control.md) -/
def CHN_XI_value : Fld := ⟨0x180, 0, 36, 0, .ro⟩
/-! CHN_XV (05_channel_control.md) -/
def CHN_XV_value : Fld := ⟨0x188, 0, 36, 0, .ro⟩
/-! CHN_Q_IN (05_channel_control.md) -/
def CHN_Q_IN_value : Fld := ⟨0x100, 0, 72, 0, .ro⟩
/-! CHN_Q_OUT (05_channel_control.md) -/
def CHN_Q_OUT_value : Fld := ⟨0x110, 0, 72, 0, .ro⟩
/-! CHN_E_IN (05_channel_control.md) -/
def CHN_E_IN_value : Fld := ⟨0x120, 0, 72, 0, .ro⟩
/-! CHN_E_OUT (05_channel_control.md) -/
def CHN_E_OUT_value : Fld := ⟨0x130, 0, 72, 0, .ro⟩
/-! CHN_SQ_IN (05_channel_control.md) -/
def CHN_SQ_IN_value : Fld := ⟨0x140, 0, 72, 0, .ro⟩
/-! CHN_SQ_OUT (05_channel_control.md) -/
def CHN_SQ_OUT_value : Fld := ⟨0x150, 0, 72, 0, .ro⟩
/-! CHN_SE_IN (05_channel_control.md) -/
def CHN_SE_IN_value : Fld := ⟨0x160, 0, 72, 0, .ro⟩
/-! CHN_SE_OUT (05_channel_control.md) -/
def CHN_SE_OUT_value : Fld := ⟨0x170, 0, 72, 0, .ro⟩
/-! CHN_LP_PTR (06_step_programs.md) -/
def CHN_LP_PTR_valid : Fld := ⟨0x1c0, 31, 1, 0, .rw⟩
def CHN_LP_PTR_step : Fld := ⟨0x1c0, 0, 14, 0, .rw⟩
/-! CHN_LP_FAULT (06_step_programs.md) -/
def CHN_LP_FAULT_valid : Fld := ⟨0x1c4, 31, 1, 0, .rw⟩
def CHN_LP_FAULT_step : Fld := ⟨0x1c4, 0, 14, 0, .rw⟩
/-! CHN_LP_PEND (06_step_programs.md) -/
def CHN_LP_PEND_valid : Fld := ⟨0x1c8, 31, 1, 0, .rw⟩
def CHN_LP_PEND_target : Fld := ⟨0x1c8, 0, 14, 0, .rw⟩
/-! CHN_LP_CMD (06_step_programs.md) -/
def CHN_LP_CMD_swap : Fld := ⟨0x1cc, 31, 1, 0, .wo⟩
def CHN_LP_CMD_cancel : Fld := ⟨0x1cc, 30, 1, 0, .wo⟩
def CHN_LP_CMD_jump : Fld := ⟨0x1cc, 29, 1, 0, .wo⟩
def CHN_LP_CMD_abort : Fld := ⟨0x1cc, 28, 1, 0, .wo⟩
def CHN_LP_CMD_release : Fld := ⟨0x1cc, 27, 1, 0, .wo⟩
def CHN_LP_CMD_release_act : Fld := ⟨0x1cc, 25, 2, 0, .wo⟩
def CHN_LP_CMD_at : Fld := ⟨0x1cc, 24, 1, 0, .wo⟩
def CHN_LP_CMD_sfc : Fld := ⟨0x1cc, 0, 14, 0, .wo⟩
/-! CHN_LP_STAT (06_step_programs.md) -/
def CHN_LP_STAT_lp_state : Fld := ⟨0x1d0, 29, 3, 0, .ro⟩
def CHN_LP_STAT_swap_pending : Fld := ⟨0x1d0, 28, 1, 0, .ro⟩
def CHN_LP_STAT_err : Fld := ⟨0x1d0, 24, 4, 0, .ro⟩
def CHN_LP_STAT_end_code : Fld := ⟨0x1d0, 20, 4, 0, .ro⟩
def CHN_LP_STAT_cmd_result : Fld := ⟨0x1d0, 16, 4, 0, .ro⟩
def CHN_LP_STAT_last_cause : Fld := ⟨0x1d0, 12, 4, 0, .ro⟩
/-! CHN_LP_TIME (06_step_programs.md) -/
def CHN_LP_TIME_value : Fld := ⟨0x1d8, 0, 36, 0, .ro⟩
/-! CHN_LP_CNT01 (06_step_programs.md) -/
def CHN_LP_CNT01_cnt1 : Fld := ⟨0x1e0, 16, 16, 0, .rw⟩
def CHN_LP_CNT01_cnt0 : Fld := ⟨0x1e0, 0, 16, 0, .rw⟩
/-! CHN_LP_CNT23 (06_step_programs.md) -/
def CHN_LP_CNT23_cnt3 : Fld := ⟨0x1e4, 16, 16, 0, .rw⟩
def CHN_LP_CNT23_cnt2 : Fld := ⟨0x1e4, 0, 16, 0, .rw⟩
/-! CHN_LP_GATE (06_step_programs.md) -/
def CHN_LP_GATE_arrived : Fld := ⟨0x1e8, 31, 1, 0, .ro⟩
def CHN_LP_GATE_open : Fld := ⟨0x1e8, 30, 1, 0, .ro⟩
def CHN_LP_GATE_group : Fld := ⟨0x1e8, 16, 6, 0, .ro⟩
def CHN_LP_GATE_gen : Fld := ⟨0x1e8, 0, 16, 0, .ro⟩
/-! CHN_LP_ERR (06_step_programs.md) -/
def CHN_LP_ERR_err : Fld := ⟨0x1ec, 24, 4, 0, .ro⟩
def CHN_LP_ERR_step : Fld := ⟨0x1ec, 0, 14, 0, .ro⟩
/-! CHN_LP_VENT (06_step_programs.md) -/
def CHN_LP_VENT_value : Fld := ⟨0x1f0, 0, 36, 0, .ro⟩
/-! CHN_LP_CVT (06_step_programs.md) -/
def CHN_LP_CVT_cv_time : Fld := ⟨0x1f8, 0, 32, 0, .ro⟩
/-! CHN_TRIP_CFG (07_protection.md) -/
def CHN_TRIP_CFG_qual : Fld := ⟨0x200, 8, 2, 0, .rw⟩
def CHN_TRIP_CFG_mfault_en : Fld := ⟨0x200, 5, 1, 1, .rw⟩
def CHN_TRIP_CFG_clip_en : Fld := ⟨0x200, 4, 1, 1, .rw⟩
def CHN_TRIP_CFG_uv_en : Fld := ⟨0x200, 3, 1, 0, .rw⟩
def CHN_TRIP_CFG_ov_en : Fld := ⟨0x200, 2, 1, 1, .rw⟩
def CHN_TRIP_CFG_v_en : Fld := ⟨0x200, 1, 1, 1, .rw⟩
def CHN_TRIP_CFG_i_en : Fld := ⟨0x200, 0, 1, 1, .rw⟩
/-! CHN_TRIP_STAT (07_protection.md) -/
def CHN_TRIP_STAT_tripped : Fld := ⟨0x204, 31, 1, 0, .ro⟩
def CHN_TRIP_STAT_chan_latch : Fld := ⟨0x204, 30, 1, 0, .ro⟩
def CHN_TRIP_STAT_bank_held : Fld := ⟨0x204, 29, 1, 0, .ro⟩
def CHN_TRIP_STAT_origin : Fld := ⟨0x204, 28, 1, 0, .ro⟩
def CHN_TRIP_STAT_cause : Fld := ⟨0x204, 20, 5, 0, .ro⟩
def CHN_TRIP_STAT_clear_result : Fld := ⟨0x204, 0, 4, 0, .ro⟩
/-! CHN_TRIP_CMD (07_protection.md) -/
def CHN_TRIP_CMD_clear : Fld := ⟨0x208, 31, 1, 0, .wo⟩
def CHN_TRIP_CMD_clear_act : Fld := ⟨0x208, 29, 2, 0, .wo⟩
def CHN_TRIP_CMD_at : Fld := ⟨0x208, 24, 1, 0, .wo⟩
def CHN_TRIP_CMD_sfc : Fld := ⟨0x208, 0, 14, 0, .wo⟩
/-! CHN_TRIP_I_HI (07_protection.md) -/
def CHN_TRIP_I_HI_value : Fld := ⟨0x210, 0, 36, 0x219999999, .rw⟩
/-! CHN_TRIP_I_LO (07_protection.md) -/
def CHN_TRIP_I_LO_value : Fld := ⟨0x218, 0, 36, 0xde6666667, .rw⟩
/-! CHN_TRIP_V_HI (07_protection.md) -/
def CHN_TRIP_V_HI_value : Fld := ⟨0x220, 0, 36, 0x219999999, .rw⟩
/-! CHN_TRIP_V_LO (07_protection.md) -/
def CHN_TRIP_V_LO_value : Fld := ⟨0x228, 0, 36, 0xde6666667, .rw⟩
/-! CHN_PROT_OV (07_protection.md) -/
def CHN_PROT_OV_value : Fld := ⟨0x230, 0, 36, 0x219999999, .rw⟩
/-! CHN_PROT_UV (07_protection.md) -/
def CHN_PROT_UV_value : Fld := ⟨0x238, 0, 36, 0x800000000, .rw⟩
/-! CHN_LDG_CFG (08_bus_ledger.md) -/
def CHN_LDG_CFG_class : Fld := ⟨0x240, 0, 2, 2, .rw⟩
/-! CHN_LDG_STAT (08_bus_ledger.md) -/
def CHN_LDG_STAT_delayed : Fld := ⟨0x244, 31, 1, 0, .ro⟩
def CHN_LDG_STAT_clipped : Fld := ⟨0x244, 30, 1, 0, .ro⟩
def CHN_LDG_STAT_start : Fld := ⟨0x244, 29, 1, 0, .ro⟩
def CHN_LDG_STAT_forced : Fld := ⟨0x244, 28, 1, 0, .ro⟩
def CHN_LDG_STAT_delay : Fld := ⟨0x244, 0, 16, 0, .ro⟩
/-! CHN_LDG_GRANT (08_bus_ledger.md) -/
def CHN_LDG_GRANT_value : Fld := ⟨0x248, 0, 36, 0, .ro⟩
/-! CHN_LDG_PWR (08_bus_ledger.md) -/
def CHN_LDG_PWR_value : Fld := ⟨0x250, 0, 36, 0, .ro⟩

def tableCHN0 : List Row := [
  ⟨CHN_I_value, 1, 0, 1, 0⟩,
  ⟨CHN_V_value, 1, 0, 1, 0⟩,
  ⟨CHN_I_AVG_value, 1, 0, 1, 0⟩,
  ⟨CHN_V_AVG_value, 1, 0, 1, 0⟩,
  ⟨CHN_MEAS_FLAGS_v_ovr_seen, 1, 0, 1, 0⟩,
  ⟨CHN_MEAS_FLAGS_i_ovr_seen, 1, 0, 1, 0⟩,
  ⟨CHN_MEAS_FLAGS_v_flags, 1, 0, 1, 0⟩,
  ⟨CHN_MEAS_FLAGS_i_flags, 1, 0, 1, 0⟩,
  ⟨CHN_CFG_settle, 1, 0, 1, 0⟩,
  ⟨CHN_CFG_dslew, 1, 0, 1, 0⟩,
  ⟨CHN_CFG_dmode, 1, 0, 1, 0⟩,
  ⟨CHN_CFG_src, 1, 0, 1, 0⟩,
  ⟨CHN_STAT_dirty, 1, 0, 1, 0⟩,
  ⟨CHN_STAT_pending, 1, 0, 1, 0⟩,
  ⟨CHN_STAT_cmd_result, 1, 0, 1, 0⟩,
  ⟨CHN_STAT_repeated, 1, 0, 1, 0⟩,
  ⟨CHN_STAT_granted_less, 1, 0, 1, 0⟩,
  ⟨CHN_STAT_ramp, 1, 0, 1, 0⟩,
  ⟨CHN_STAT_lim_v, 1, 0, 1, 0⟩,
  ⟨CHN_STAT_lim_i, 1, 0, 1, 0⟩,
  ⟨CHN_STAT_trim_sat, 1, 0, 1, 0⟩,
  ⟨CHN_STAT_phase_b, 1, 0, 1, 0⟩,
  ⟨CHN_STAT_cv_active, 1, 0, 1, 0⟩,
  ⟨CHN_STAT_ctl_mode, 1, 0, 1, 0⟩,
  ⟨CHN_STAT_state, 1, 0, 1, 0⟩,
  ⟨CHN_CMD_arm, 1, 0, 1, 0⟩,
  ⟨CHN_CMD_disarm, 1, 0, 1, 0⟩,
  ⟨CHN_CMD_apply, 1, 0, 1, 0⟩,
  ⟨CHN_CMD_preset, 1, 0, 1, 0⟩,
  ⟨CHN_CMD_discard, 1, 0, 1, 0⟩]
def tableCHN1 : List Row := [
  ⟨CHN_CMD_at, 1, 0, 1, 0⟩,
  ⟨CHN_CMD_sfc, 1, 0, 1, 0⟩,
  ⟨CHN_INTG_STAT_run, 1, 0, 1, 0⟩,
  ⟨CHN_INTG_STAT_scale_chg, 1, 0, 1, 0⟩,
  ⟨CHN_INTG_STAT_gap, 1, 0, 1, 0⟩,
  ⟨CHN_INTG_STAT_sat, 1, 0, 1, 0⟩,
  ⟨CHN_PRE_SEL_counter, 1, 0, 1, 0⟩,
  ⟨CHN_PRE_W0_value, 1, 0, 1, 0⟩,
  ⟨CHN_PRE_W1_value, 1, 0, 1, 0⟩,
  ⟨CHN_PRE_W2_value, 1, 0, 1, 0⟩,
  ⟨CHN_SET_I_value, 1, 0, 1, 0⟩,
  ⟨CHN_SET_V_value, 1, 0, 1, 0⟩,
  ⟨CHN_SET_P_value, 1, 0, 1, 0⟩,
  ⟨CHN_SET_RES_value, 1, 0, 1, 0⟩,
  ⟨CHN_PULSE_B_value, 1, 0, 1, 0⟩,
  ⟨CHN_I_LIM_CHG_value, 1, 0, 1, 0⟩,
  ⟨CHN_I_LIM_DIS_value, 1, 0, 1, 0⟩,
  ⟨CHN_V_LIM_HI_value, 1, 0, 1, 0⟩,
  ⟨CHN_V_LIM_LO_value, 1, 0, 1, 0⟩,
  ⟨CHN_TRIM_LIM_value, 1, 0, 1, 0⟩,
  ⟨CHN_RAMP_value, 1, 0, 1, 0⟩,
  ⟨CHN_PULSE_TA_ta, 1, 0, 1, 0⟩,
  ⟨CHN_PULSE_TB_tb, 1, 0, 1, 0⟩,
  ⟨CHN_KP_I_kp_i, 1, 0, 1, 0⟩,
  ⟨CHN_KI_I_ki_i, 1, 0, 1, 0⟩,
  ⟨CHN_KP_V_kp_v, 1, 0, 1, 0⟩,
  ⟨CHN_KI_V_ki_v, 1, 0, 1, 0⟩,
  ⟨CHN_U_value, 1, 0, 1, 0⟩,
  ⟨CHN_WORD_value, 1, 0, 1, 0⟩,
  ⟨CHN_XI_value, 1, 0, 1, 0⟩]
def tableCHN2 : List Row := [
  ⟨CHN_XV_value, 1, 0, 1, 0⟩,
  ⟨CHN_Q_IN_value, 1, 0, 1, 0⟩,
  ⟨CHN_Q_OUT_value, 1, 0, 1, 0⟩,
  ⟨CHN_E_IN_value, 1, 0, 1, 0⟩,
  ⟨CHN_E_OUT_value, 1, 0, 1, 0⟩,
  ⟨CHN_SQ_IN_value, 1, 0, 1, 0⟩,
  ⟨CHN_SQ_OUT_value, 1, 0, 1, 0⟩,
  ⟨CHN_SE_IN_value, 1, 0, 1, 0⟩,
  ⟨CHN_SE_OUT_value, 1, 0, 1, 0⟩,
  ⟨CHN_LP_PTR_valid, 1, 0, 1, 0⟩,
  ⟨CHN_LP_PTR_step, 1, 0, 1, 0⟩,
  ⟨CHN_LP_FAULT_valid, 1, 0, 1, 0⟩,
  ⟨CHN_LP_FAULT_step, 1, 0, 1, 0⟩,
  ⟨CHN_LP_PEND_valid, 1, 0, 1, 0⟩,
  ⟨CHN_LP_PEND_target, 1, 0, 1, 0⟩,
  ⟨CHN_LP_CMD_swap, 1, 0, 1, 0⟩,
  ⟨CHN_LP_CMD_cancel, 1, 0, 1, 0⟩,
  ⟨CHN_LP_CMD_jump, 1, 0, 1, 0⟩,
  ⟨CHN_LP_CMD_abort, 1, 0, 1, 0⟩,
  ⟨CHN_LP_CMD_release, 1, 0, 1, 0⟩,
  ⟨CHN_LP_CMD_release_act, 1, 0, 1, 0⟩,
  ⟨CHN_LP_CMD_at, 1, 0, 1, 0⟩,
  ⟨CHN_LP_CMD_sfc, 1, 0, 1, 0⟩,
  ⟨CHN_LP_STAT_lp_state, 1, 0, 1, 0⟩,
  ⟨CHN_LP_STAT_swap_pending, 1, 0, 1, 0⟩,
  ⟨CHN_LP_STAT_err, 1, 0, 1, 0⟩,
  ⟨CHN_LP_STAT_end_code, 1, 0, 1, 0⟩,
  ⟨CHN_LP_STAT_cmd_result, 1, 0, 1, 0⟩,
  ⟨CHN_LP_STAT_last_cause, 1, 0, 1, 0⟩,
  ⟨CHN_LP_TIME_value, 1, 0, 1, 0⟩]
def tableCHN3 : List Row := [
  ⟨CHN_LP_CNT01_cnt1, 1, 0, 1, 0⟩,
  ⟨CHN_LP_CNT01_cnt0, 1, 0, 1, 0⟩,
  ⟨CHN_LP_CNT23_cnt3, 1, 0, 1, 0⟩,
  ⟨CHN_LP_CNT23_cnt2, 1, 0, 1, 0⟩,
  ⟨CHN_LP_GATE_arrived, 1, 0, 1, 0⟩,
  ⟨CHN_LP_GATE_open, 1, 0, 1, 0⟩,
  ⟨CHN_LP_GATE_group, 1, 0, 1, 0⟩,
  ⟨CHN_LP_GATE_gen, 1, 0, 1, 0⟩,
  ⟨CHN_LP_ERR_err, 1, 0, 1, 0⟩,
  ⟨CHN_LP_ERR_step, 1, 0, 1, 0⟩,
  ⟨CHN_LP_VENT_value, 1, 0, 1, 0⟩,
  ⟨CHN_LP_CVT_cv_time, 1, 0, 1, 0⟩,
  ⟨CHN_TRIP_CFG_qual, 1, 0, 1, 0⟩,
  ⟨CHN_TRIP_CFG_mfault_en, 1, 0, 1, 0⟩,
  ⟨CHN_TRIP_CFG_clip_en, 1, 0, 1, 0⟩,
  ⟨CHN_TRIP_CFG_uv_en, 1, 0, 1, 0⟩,
  ⟨CHN_TRIP_CFG_ov_en, 1, 0, 1, 0⟩,
  ⟨CHN_TRIP_CFG_v_en, 1, 0, 1, 0⟩,
  ⟨CHN_TRIP_CFG_i_en, 1, 0, 1, 0⟩,
  ⟨CHN_TRIP_STAT_tripped, 1, 0, 1, 0⟩,
  ⟨CHN_TRIP_STAT_chan_latch, 1, 0, 1, 0⟩,
  ⟨CHN_TRIP_STAT_bank_held, 1, 0, 1, 0⟩,
  ⟨CHN_TRIP_STAT_origin, 1, 0, 1, 0⟩,
  ⟨CHN_TRIP_STAT_cause, 1, 0, 1, 0⟩,
  ⟨CHN_TRIP_STAT_clear_result, 1, 0, 1, 0⟩,
  ⟨CHN_TRIP_CMD_clear, 1, 0, 1, 0⟩,
  ⟨CHN_TRIP_CMD_clear_act, 1, 0, 1, 0⟩,
  ⟨CHN_TRIP_CMD_at, 1, 0, 1, 0⟩,
  ⟨CHN_TRIP_CMD_sfc, 1, 0, 1, 0⟩,
  ⟨CHN_TRIP_I_HI_value, 1, 0, 1, 0⟩]
def tableCHN4 : List Row := [
  ⟨CHN_TRIP_I_LO_value, 1, 0, 1, 0⟩,
  ⟨CHN_TRIP_V_HI_value, 1, 0, 1, 0⟩,
  ⟨CHN_TRIP_V_LO_value, 1, 0, 1, 0⟩,
  ⟨CHN_PROT_OV_value, 1, 0, 1, 0⟩,
  ⟨CHN_PROT_UV_value, 1, 0, 1, 0⟩,
  ⟨CHN_LDG_CFG_class, 1, 0, 1, 0⟩,
  ⟨CHN_LDG_STAT_delayed, 1, 0, 1, 0⟩,
  ⟨CHN_LDG_STAT_clipped, 1, 0, 1, 0⟩,
  ⟨CHN_LDG_STAT_start, 1, 0, 1, 0⟩,
  ⟨CHN_LDG_STAT_forced, 1, 0, 1, 0⟩,
  ⟨CHN_LDG_STAT_delay, 1, 0, 1, 0⟩,
  ⟨CHN_LDG_GRANT_value, 1, 0, 1, 0⟩,
  ⟨CHN_LDG_PWR_value, 1, 0, 1, 0⟩]
/-- The fields of a CHN page. -/
def tableCHN : List Row := tableCHN0 ++ tableCHN1 ++ tableCHN2 ++ tableCHN3 ++ tableCHN4

end Sys2Proof.Machine.R
end

