-- ==== Sys2Proof/Machine/RegsField.lean ====
section
/-! DEFINITION. Register fields of the pages FIO, LDC: offset, lowest bit, width, reset value and access code of
every field, written from the register tables of the spec (offsets: 24_register_index.md, R478). A `W36` pair and a `W72` triple are
one field of width 36 or 72 at the offset of its `_LO`. The list of a page ends each block. -/
namespace Sys2Proof.Machine.R

/-! FIO_IN (20_field_io.md) -/
def FIO_IN_in : Fld := ⟨0x20, 0, 32, 0, .ro⟩
/-! FIO_OUT (20_field_io.md) -/
def FIO_OUT_out : Fld := ⟨0x24, 0, 32, 0, .rw⟩
/-! FIO_OUT_SET (20_field_io.md) -/
def FIO_OUT_SET_set : Fld := ⟨0x28, 0, 32, 0, .wo⟩
/-! FIO_OUT_CLR (20_field_io.md) -/
def FIO_OUT_CLR_clr : Fld := ⟨0x2c, 0, 32, 0, .wo⟩
/-! FIO_FAULT (20_field_io.md) -/
def FIO_FAULT_fault : Fld := ⟨0x30, 0, 32, 0, .w1c⟩
/-! FIO_SAFE_CFG (20_field_io.md) -/
def FIO_SAFE_CFG_hold_ms : Fld := ⟨0x34, 0, 14, 0xc8, .rw⟩
/-! FIO_SAFE_VAL (20_field_io.md) -/
def FIO_SAFE_VAL_val : Fld := ⟨0x38, 0, 28, 0, .rw⟩
/-! FIO_STATE (20_field_io.md) -/
def FIO_STATE_state : Fld := ⟨0x3c, 30, 2, 0, .ro⟩
def FIO_STATE_hold_left : Fld := ⟨0x3c, 0, 14, 0, .ro⟩
/-! FIO_CMD (20_field_io.md) -/
def FIO_CMD_resume : Fld := ⟨0x40, 31, 1, 0, .wo⟩
def FIO_CMD_safe : Fld := ⟨0x40, 30, 1, 0, .wo⟩
/-! FIO_EDGE_RISE (20_field_io.md) -/
def FIO_EDGE_RISE_en : Fld := ⟨0x44, 0, 32, 0, .rw⟩
/-! FIO_EDGE_FALL (20_field_io.md) -/
def FIO_EDGE_FALL_en : Fld := ⟨0x48, 0, 32, 0, .rw⟩
/-! FIO_EDGE (20_field_io.md) -/
def FIO_EDGE_edge : Fld := ⟨0x4c, 0, 32, 0, .w1c⟩
/-! FIO_PT_CFG (20_field_io.md) -/
def FIO_PT_CFG_filter (n : Nat) : Fld := ⟨0x100 + 4 * n, 8, 8, 0xa, .rw⟩
def FIO_PT_CFG_ol_en (n : Nat) : Fld := ⟨0x100 + 4 * n, 5, 1, 0, .rw⟩
def FIO_PT_CFG_wb_en (n : Nat) : Fld := ⟨0x100 + 4 * n, 4, 1, 0, .rw⟩
def FIO_PT_CFG_group (n : Nat) : Fld := ⟨0x100 + 4 * n, 2, 2, 0, .rw⟩
def FIO_PT_CFG_mode (n : Nat) : Fld := ⟨0x100 + 4 * n, 0, 2, 0, .rw⟩
/-! FIO_PT_STAT (20_field_io.md) -/
def FIO_PT_STAT_current (n : Nat) : Fld := ⟨0x180 + 4 * n, 16, 12, 0, .ro⟩
def FIO_PT_STAT_thermal_l (n : Nat) : Fld := ⟨0x180 + 4 * n, 12, 1, 0, .ro⟩
def FIO_PT_STAT_stuck_low_l (n : Nat) : Fld := ⟨0x180 + 4 * n, 11, 1, 0, .ro⟩
def FIO_PT_STAT_overcurrent_l (n : Nat) : Fld := ⟨0x180 + 4 * n, 10, 1, 0, .ro⟩
def FIO_PT_STAT_open_load (n : Nat) : Fld := ⟨0x180 + 4 * n, 5, 1, 0, .ro⟩
def FIO_PT_STAT_back_fed (n : Nat) : Fld := ⟨0x180 + 4 * n, 4, 1, 0, .ro⟩
def FIO_PT_STAT_stuck_low (n : Nat) : Fld := ⟨0x180 + 4 * n, 3, 1, 0, .ro⟩
def FIO_PT_STAT_thermal (n : Nat) : Fld := ⟨0x180 + 4 * n, 2, 1, 0, .ro⟩
def FIO_PT_STAT_overcurrent (n : Nat) : Fld := ⟨0x180 + 4 * n, 1, 1, 0, .ro⟩
def FIO_PT_STAT_wire_break (n : Nat) : Fld := ⟨0x180 + 4 * n, 0, 1, 0, .ro⟩

def tableFIO0 : List Row := [
  ⟨FIO_IN_in, 1, 0, 1, 0⟩,
  ⟨FIO_OUT_out, 1, 0, 1, 0⟩,
  ⟨FIO_OUT_SET_set, 1, 0, 1, 0⟩,
  ⟨FIO_OUT_CLR_clr, 1, 0, 1, 0⟩,
  ⟨FIO_FAULT_fault, 1, 0, 1, 0⟩,
  ⟨FIO_SAFE_CFG_hold_ms, 1, 0, 1, 0⟩,
  ⟨FIO_SAFE_VAL_val, 1, 0, 1, 0⟩,
  ⟨FIO_STATE_state, 1, 0, 1, 0⟩,
  ⟨FIO_STATE_hold_left, 1, 0, 1, 0⟩,
  ⟨FIO_CMD_resume, 1, 0, 1, 0⟩,
  ⟨FIO_CMD_safe, 1, 0, 1, 0⟩,
  ⟨FIO_EDGE_RISE_en, 1, 0, 1, 0⟩,
  ⟨FIO_EDGE_FALL_en, 1, 0, 1, 0⟩,
  ⟨FIO_EDGE_edge, 1, 0, 1, 0⟩,
  ⟨FIO_PT_CFG_filter 0, 32, 4, 1, 0⟩,
  ⟨FIO_PT_CFG_ol_en 0, 32, 4, 1, 0⟩,
  ⟨FIO_PT_CFG_wb_en 0, 32, 4, 1, 0⟩,
  ⟨FIO_PT_CFG_group 0, 32, 4, 1, 0⟩,
  ⟨FIO_PT_CFG_mode 0, 32, 4, 1, 0⟩,
  ⟨FIO_PT_STAT_current 0, 32, 4, 1, 0⟩,
  ⟨FIO_PT_STAT_thermal_l 0, 32, 4, 1, 0⟩,
  ⟨FIO_PT_STAT_stuck_low_l 0, 32, 4, 1, 0⟩,
  ⟨FIO_PT_STAT_overcurrent_l 0, 32, 4, 1, 0⟩,
  ⟨FIO_PT_STAT_open_load 0, 32, 4, 1, 0⟩,
  ⟨FIO_PT_STAT_back_fed 0, 32, 4, 1, 0⟩,
  ⟨FIO_PT_STAT_stuck_low 0, 32, 4, 1, 0⟩,
  ⟨FIO_PT_STAT_thermal 0, 32, 4, 1, 0⟩,
  ⟨FIO_PT_STAT_overcurrent 0, 32, 4, 1, 0⟩,
  ⟨FIO_PT_STAT_wire_break 0, 32, 4, 1, 0⟩]
/-- The fields of a FIO page. -/
def tableFIO : List Row := tableFIO0

/-! LDC_ON (21_load_channels.md) -/
def LDC_ON_on : Fld := ⟨0x20, 0, 12, 0, .rw⟩
/-! LDC_ON_SET (21_load_channels.md) -/
def LDC_ON_SET_set : Fld := ⟨0x24, 0, 12, 0, .wo⟩
/-! LDC_ON_CLR (21_load_channels.md) -/
def LDC_ON_CLR_clr : Fld := ⟨0x28, 0, 12, 0, .wo⟩
/-! LDC_FAULT (21_load_channels.md) -/
def LDC_FAULT_fault : Fld := ⟨0x2c, 0, 12, 0, .w1c⟩
/-! LDC_PWM_PER (21_load_channels.md) -/
def LDC_PWM_PER_ticks : Fld := ⟨0x30, 0, 19, 0x7d0, .rw⟩
/-! LDC_TOTAL (21_load_channels.md) -/
def LDC_TOTAL_sum_ma : Fld := ⟨0x34, 16, 16, 0, .ro⟩
def LDC_TOTAL_limit_ma : Fld := ⟨0x34, 0, 16, 0x3e80, .rw⟩
/-! LDC_SNS_CFG (21_load_channels.md) -/
def LDC_SNS_CFG_any_k (i : Nat) : Fld := ⟨0x38, 4 * i + 3, 1, 0, .rw⟩
def LDC_SNS_CFG_sel_k (i : Nat) : Fld := ⟨0x38, 4 * i, 2, 0, .rw⟩
/-! LDC_CH_CFG (21_load_channels.md) -/
def LDC_CH_CFG_pwm_en (n : Nat) : Fld := ⟨0x100 + 32 * n, 31, 1, 0, .rw⟩
def LDC_CH_CFG_shed (n : Nat) : Fld := ⟨0x100 + 32 * n, 30, 1, 0, .rw⟩
def LDC_CH_CFG_ol_en (n : Nat) : Fld := ⟨0x100 + 32 * n, 29, 1, 0, .rw⟩
def LDC_CH_CFG_phase (n : Nat) : Fld := ⟨0x100 + 32 * n, 16, 8, 0, .rw⟩
def LDC_CH_CFG_retry_max (n : Nat) : Fld := ⟨0x100 + 32 * n, 12, 4, 3, .rw⟩
def LDC_CH_CFG_oc_ms (n : Nat) : Fld := ⟨0x100 + 32 * n, 4, 8, 0xa, .rw⟩
/-! LDC_CH_DUTY (21_load_channels.md) -/
def LDC_CH_DUTY_duty (n : Nat) : Fld := ⟨0x104 + 32 * n, 0, 16, 0x8000, .rw⟩
/-! LDC_CH_RETRY (21_load_channels.md) -/
def LDC_CH_RETRY_retry_ms (n : Nat) : Fld := ⟨0x108 + 32 * n, 16, 16, 0x3e8, .rw⟩
def LDC_CH_RETRY_ok_ms (n : Nat) : Fld := ⟨0x108 + 32 * n, 0, 16, 0x2710, .rw⟩
/-! LDC_CH_CLAMP (21_load_channels.md) -/
def LDC_CH_CLAMP_lock (n : Nat) : Fld := ⟨0x10c + 32 * n, 31, 1, 0, .w1s⟩
def LDC_CH_CLAMP_budget_mj (n : Nat) : Fld := ⟨0x10c + 32 * n, 0, 9, 0x64, .rw⟩
/-! LDC_CH_STAT (21_load_channels.md) -/
def LDC_CH_STAT_state (n : Nat) : Fld := ⟨0x110 + 32 * n, 29, 3, 0, .ro⟩
def LDC_CH_STAT_retries (n : Nat) : Fld := ⟨0x110 + 32 * n, 24, 4, 0, .ro⟩
def LDC_CH_STAT_temp (n : Nat) : Fld := ⟨0x110 + 32 * n, 16, 8, 0, .ro⟩
def LDC_CH_STAT_current_ma (n : Nat) : Fld := ⟨0x110 + 32 * n, 0, 16, 0, .ro⟩
/-! LDC_CH_CAUSE (21_load_channels.md) -/
def LDC_CH_CAUSE_clamp_l (n : Nat) : Fld := ⟨0x114 + 32 * n, 13, 1, 0, .ro⟩
def LDC_CH_CAUSE_thermal_l (n : Nat) : Fld := ⟨0x114 + 32 * n, 12, 1, 0, .ro⟩
def LDC_CH_CAUSE_overcurrent_l (n : Nat) : Fld := ⟨0x114 + 32 * n, 11, 1, 0, .ro⟩
def LDC_CH_CAUSE_shed (n : Nat) : Fld := ⟨0x114 + 32 * n, 4, 1, 0, .ro⟩
def LDC_CH_CAUSE_open_load (n : Nat) : Fld := ⟨0x114 + 32 * n, 3, 1, 0, .ro⟩
def LDC_CH_CAUSE_in_limit (n : Nat) : Fld := ⟨0x114 + 32 * n, 2, 1, 0, .ro⟩
def LDC_CH_CAUSE_thermal (n : Nat) : Fld := ⟨0x114 + 32 * n, 1, 1, 0, .ro⟩
def LDC_CH_CAUSE_short (n : Nat) : Fld := ⟨0x114 + 32 * n, 0, 1, 0, .ro⟩
/-! LDC_CH_EACC (21_load_channels.md) -/
def LDC_CH_EACC_last_mj (n : Nat) : Fld := ⟨0x118 + 32 * n, 20, 12, 0, .ro⟩
def LDC_CH_EACC_acc (n : Nat) : Fld := ⟨0x118 + 32 * n, 0, 20, 0, .ro⟩

def tableLDC0 : List Row := [
  ⟨LDC_ON_on, 1, 0, 1, 0⟩,
  ⟨LDC_ON_SET_set, 1, 0, 1, 0⟩,
  ⟨LDC_ON_CLR_clr, 1, 0, 1, 0⟩,
  ⟨LDC_FAULT_fault, 1, 0, 1, 0⟩,
  ⟨LDC_PWM_PER_ticks, 1, 0, 1, 0⟩,
  ⟨LDC_TOTAL_sum_ma, 1, 0, 1, 0⟩,
  ⟨LDC_TOTAL_limit_ma, 1, 0, 1, 0⟩,
  ⟨LDC_SNS_CFG_any_k 0, 1, 0, 1, 0⟩,
  ⟨LDC_SNS_CFG_any_k 1, 1, 0, 1, 0⟩,
  ⟨LDC_SNS_CFG_any_k 2, 1, 0, 1, 0⟩,
  ⟨LDC_SNS_CFG_sel_k 0, 1, 0, 1, 0⟩,
  ⟨LDC_SNS_CFG_sel_k 1, 1, 0, 1, 0⟩,
  ⟨LDC_SNS_CFG_sel_k 2, 1, 0, 1, 0⟩,
  ⟨LDC_CH_CFG_pwm_en 0, 12, 32, 1, 0⟩,
  ⟨LDC_CH_CFG_shed 0, 12, 32, 1, 0⟩,
  ⟨LDC_CH_CFG_ol_en 0, 12, 32, 1, 0⟩,
  ⟨LDC_CH_CFG_phase 0, 12, 32, 1, 0⟩,
  ⟨LDC_CH_CFG_retry_max 0, 12, 32, 1, 0⟩,
  ⟨LDC_CH_CFG_oc_ms 0, 12, 32, 1, 0⟩,
  ⟨LDC_CH_DUTY_duty 0, 12, 32, 1, 0⟩,
  ⟨LDC_CH_RETRY_retry_ms 0, 12, 32, 1, 0⟩,
  ⟨LDC_CH_RETRY_ok_ms 0, 12, 32, 1, 0⟩,
  ⟨LDC_CH_CLAMP_lock 0, 12, 32, 1, 0⟩,
  ⟨LDC_CH_CLAMP_budget_mj 0, 12, 32, 1, 0⟩,
  ⟨LDC_CH_STAT_state 0, 12, 32, 1, 0⟩,
  ⟨LDC_CH_STAT_retries 0, 12, 32, 1, 0⟩,
  ⟨LDC_CH_STAT_temp 0, 12, 32, 1, 0⟩,
  ⟨LDC_CH_STAT_current_ma 0, 12, 32, 1, 0⟩,
  ⟨LDC_CH_CAUSE_clamp_l 0, 12, 32, 1, 0⟩,
  ⟨LDC_CH_CAUSE_thermal_l 0, 12, 32, 1, 0⟩]
def tableLDC1 : List Row := [
  ⟨LDC_CH_CAUSE_overcurrent_l 0, 12, 32, 1, 0⟩,
  ⟨LDC_CH_CAUSE_shed 0, 12, 32, 1, 0⟩,
  ⟨LDC_CH_CAUSE_open_load 0, 12, 32, 1, 0⟩,
  ⟨LDC_CH_CAUSE_in_limit 0, 12, 32, 1, 0⟩,
  ⟨LDC_CH_CAUSE_thermal 0, 12, 32, 1, 0⟩,
  ⟨LDC_CH_CAUSE_short 0, 12, 32, 1, 0⟩,
  ⟨LDC_CH_EACC_last_mj 0, 12, 32, 1, 0⟩,
  ⟨LDC_CH_EACC_acc 0, 12, 32, 1, 0⟩]
/-- The fields of a LDC page. -/
def tableLDC : List Row := tableLDC0 ++ tableLDC1

end Sys2Proof.Machine.R
end

