-- ==== Sys2Proof/Machine/RegsHost.lean ====
section
/-! DEFINITION. Register fields of the pages FNC, QPM, BRG: offset, lowest bit, width, reset value and access code of
every field, written from the register tables of the spec (offsets: 24_register_index.md, R478). A `W36` pair and a `W72` triple are
one field of width 36 or 72 at the offset of its `_LO`. The list of a page ends each block. -/
namespace Sys2Proof.Machine.R

/-! FNC_CFG (14_host_functions.md) -/
def FNC_CFG_pf_host : Fld := ⟨0x20, 24, 2, 0, .rw⟩
/-! FNC_SEL (14_host_functions.md) -/
def FNC_SEL_function : Fld := ⟨0x24, 0, 9, 0, .rw⟩
/-! FNC_FN_CTRL (14_host_functions.md) -/
def FNC_FN_CTRL_host : Fld := ⟨0x28, 24, 2, 0, .rw⟩
def FNC_FN_CTRL_stop_on_detach : Fld := ⟨0x28, 1, 1, 0, .rw⟩
def FNC_FN_CTRL_enable : Fld := ⟨0x28, 0, 1, 0, .rw⟩
/-! FNC_FN_STAT (14_host_functions.md) -/
def FNC_FN_STAT_state : Fld := ⟨0x2c, 16, 2, 0, .ro⟩
def FNC_FN_STAT_qp_en : Fld := ⟨0x2c, 0, 11, 0, .ro⟩
/-! FNC_FN_QUOTA (14_host_functions.md) -/
def FNC_FN_QUOTA_qp_quota : Fld := ⟨0x30, 16, 11, 0, .rw⟩
def FNC_FN_QUOTA_vec_quota : Fld := ⟨0x30, 0, 7, 0, .rw⟩
/-! FNC_FN_STEP_BASE (14_host_functions.md) -/
def FNC_FN_STEP_BASE_base : Fld := ⟨0x34, 0, 14, 0, .rw⟩
/-! FNC_FN_STEP_CNT (14_host_functions.md) -/
def FNC_FN_STEP_CNT_count : Fld := ⟨0x38, 0, 15, 0, .rw⟩
/-! FNC_FN_DROP (14_host_functions.md) -/
def FNC_FN_DROP_count : Fld := ⟨0x3c, 0, 32, 0, .rsc⟩
/-! FNC_FN_RANGE_ERR (14_host_functions.md) -/
def FNC_FN_RANGE_ERR_count : Fld := ⟨0x40, 0, 32, 0, .rsc⟩
/-! FNC_MAP_SLOT (14_host_functions.md) -/
def FNC_MAP_SLOT_slot : Fld := ⟨0x44, 0, 9, 0, .rw⟩
/-! FNC_MAP (14_host_functions.md) -/
def FNC_MAP_valid : Fld := ⟨0x48, 31, 1, 0, .ro⟩
def FNC_MAP_channel : Fld := ⟨0x48, 0, 9, 0, .ro⟩
/-! FNC_POOL (14_host_functions.md) -/
def FNC_POOL_vec_free : Fld := ⟨0x4c, 16, 12, 0x7f8, .ro⟩
def FNC_POOL_qp_free : Fld := ⟨0x4c, 0, 11, 0x3f8, .ro⟩
/-! FNC_MOVE_STAT (14_host_functions.md) -/
def FNC_MOVE_STAT_busy : Fld := ⟨0x50, 31, 1, 0, .ro⟩
/-! FNC_F_ID (14_host_functions.md) -/
def FNC_F_ID_host : Fld := ⟨0x400, 24, 2, 0, .ro⟩
def FNC_F_ID_state : Fld := ⟨0x400, 16, 2, 0, .ro⟩
def FNC_F_ID_function : Fld := ⟨0x400, 0, 9, 0, .ro⟩
/-! FNC_F_QUOTA (14_host_functions.md) -/
def FNC_F_QUOTA_qp_quota : Fld := ⟨0x404, 16, 11, 0, .ro⟩
def FNC_F_QUOTA_vec_quota : Fld := ⟨0x404, 0, 7, 0, .ro⟩
/-! FNC_F_DB (14_host_functions.md) -/
def FNC_F_DB_kind : Fld := ⟨0x408, 30, 2, 0, .wo⟩
def FNC_F_DB_qp : Fld := ⟨0x408, 16, 10, 0, .wo⟩
def FNC_F_DB_value : Fld := ⟨0x408, 0, 16, 0, .wo⟩
/-! FNC_F_Q_SEL (14_host_functions.md) -/
def FNC_F_Q_SEL_qp : Fld := ⟨0x40c, 0, 10, 0, .rw⟩
/-! FNC_F_Q_CTRL (14_host_functions.md) -/
def FNC_F_Q_CTRL_en : Fld := ⟨0x410, 31, 1, 0, .rw⟩
def FNC_F_Q_CTRL_sq_log : Fld := ⟨0x410, 24, 4, 0, .rw⟩
def FNC_F_Q_CTRL_cq_log : Fld := ⟨0x410, 20, 4, 0, .rw⟩
def FNC_F_Q_CTRL_vector : Fld := ⟨0x410, 0, 6, 0, .rw⟩
/-! FNC_F_Q_STAT (14_host_functions.md) -/
def FNC_F_Q_STAT_cfg_err : Fld := ⟨0x414, 31, 1, 0, .w1c⟩
def FNC_F_Q_STAT_cq_full : Fld := ⟨0x414, 30, 1, 0, .ro⟩
def FNC_F_Q_STAT_bound : Fld := ⟨0x414, 29, 1, 0, .ro⟩
def FNC_F_Q_STAT_cq_tail : Fld := ⟨0x414, 16, 12, 0, .ro⟩
def FNC_F_Q_STAT_sq_head : Fld := ⟨0x414, 0, 12, 0, .ro⟩
/-! FNC_F_SQ_BASE_W0 (14_host_functions.md) -/
def FNC_F_SQ_BASE_W0_addr : Fld := ⟨0x418, 0, 32, 0, .rw⟩
/-! FNC_F_SQ_BASE_W1 (14_host_functions.md) -/
def FNC_F_SQ_BASE_W1_addr : Fld := ⟨0x41c, 0, 32, 0, .rw⟩
/-! FNC_F_CQ_BASE_W0 (14_host_functions.md) -/
def FNC_F_CQ_BASE_W0_addr : Fld := ⟨0x420, 0, 32, 0, .rw⟩
/-! FNC_F_CQ_BASE_W1 (14_host_functions.md) -/
def FNC_F_CQ_BASE_W1_addr : Fld := ⟨0x424, 0, 32, 0, .rw⟩
/-! FNC_F_EVT (14_host_functions.md) -/
def FNC_F_EVT_evt : Fld := ⟨0x428, 0, 8, 0, .w1c⟩
/-! FNC_F_EVT_VEC (14_host_functions.md) -/
def FNC_F_EVT_VEC_en : Fld := ⟨0x42c, 31, 1, 0, .rw⟩
def FNC_F_EVT_VEC_vector : Fld := ⟨0x42c, 0, 6, 0, .rw⟩
/-! FNC_F_CHN_VEC (14_host_functions.md) -/
def FNC_F_CHN_VEC_en : Fld := ⟨0x430, 31, 1, 0, .rw⟩
def FNC_F_CHN_VEC_vector : Fld := ⟨0x430, 0, 6, 0, .rw⟩
/-! FNC_F_DB_IGN (14_host_functions.md) -/
def FNC_F_DB_IGN_count : Fld := ⟨0x434, 0, 32, 0, .rsc⟩
/-! FNC_F_CHN_PEND (14_host_functions.md) -/
def FNC_F_CHN_PEND_pend (n : Nat) : Fld := ⟨0x440 + 4 * n, 0, 32, 0, .ro⟩

def tableFNC0 : List Row := [
  ⟨FNC_CFG_pf_host, 1, 0, 1, 0⟩,
  ⟨FNC_SEL_function, 1, 0, 1, 0⟩,
  ⟨FNC_FN_CTRL_host, 1, 0, 1, 0⟩,
  ⟨FNC_FN_CTRL_stop_on_detach, 1, 0, 1, 0⟩,
  ⟨FNC_FN_CTRL_enable, 1, 0, 1, 0⟩,
  ⟨FNC_FN_STAT_state, 1, 0, 1, 0⟩,
  ⟨FNC_FN_STAT_qp_en, 1, 0, 1, 0⟩,
  ⟨FNC_FN_QUOTA_qp_quota, 1, 0, 1, 0⟩,
  ⟨FNC_FN_QUOTA_vec_quota, 1, 0, 1, 0⟩,
  ⟨FNC_FN_STEP_BASE_base, 1, 0, 1, 0⟩,
  ⟨FNC_FN_STEP_CNT_count, 1, 0, 1, 0⟩,
  ⟨FNC_FN_DROP_count, 1, 0, 1, 0⟩,
  ⟨FNC_FN_RANGE_ERR_count, 1, 0, 1, 0⟩,
  ⟨FNC_MAP_SLOT_slot, 1, 0, 1, 0⟩,
  ⟨FNC_MAP_valid, 1, 0, 1, 0⟩,
  ⟨FNC_MAP_channel, 1, 0, 1, 0⟩,
  ⟨FNC_POOL_vec_free, 1, 0, 1, 0⟩,
  ⟨FNC_POOL_qp_free, 1, 0, 1, 0⟩,
  ⟨FNC_MOVE_STAT_busy, 1, 0, 1, 0⟩,
  ⟨FNC_F_ID_host, 1, 0, 1, 0⟩,
  ⟨FNC_F_ID_state, 1, 0, 1, 0⟩,
  ⟨FNC_F_ID_function, 1, 0, 1, 0⟩,
  ⟨FNC_F_QUOTA_qp_quota, 1, 0, 1, 0⟩,
  ⟨FNC_F_QUOTA_vec_quota, 1, 0, 1, 0⟩,
  ⟨FNC_F_DB_kind, 1, 0, 1, 0⟩,
  ⟨FNC_F_DB_qp, 1, 0, 1, 0⟩,
  ⟨FNC_F_DB_value, 1, 0, 1, 0⟩,
  ⟨FNC_F_Q_SEL_qp, 1, 0, 1, 0⟩,
  ⟨FNC_F_Q_CTRL_en, 1, 0, 1, 0⟩,
  ⟨FNC_F_Q_CTRL_sq_log, 1, 0, 1, 0⟩]
def tableFNC1 : List Row := [
  ⟨FNC_F_Q_CTRL_cq_log, 1, 0, 1, 0⟩,
  ⟨FNC_F_Q_CTRL_vector, 1, 0, 1, 0⟩,
  ⟨FNC_F_Q_STAT_cfg_err, 1, 0, 1, 0⟩,
  ⟨FNC_F_Q_STAT_cq_full, 1, 0, 1, 0⟩,
  ⟨FNC_F_Q_STAT_bound, 1, 0, 1, 0⟩,
  ⟨FNC_F_Q_STAT_cq_tail, 1, 0, 1, 0⟩,
  ⟨FNC_F_Q_STAT_sq_head, 1, 0, 1, 0⟩,
  ⟨FNC_F_SQ_BASE_W0_addr, 1, 0, 1, 0⟩,
  ⟨FNC_F_SQ_BASE_W1_addr, 1, 0, 1, 0⟩,
  ⟨FNC_F_CQ_BASE_W0_addr, 1, 0, 1, 0⟩,
  ⟨FNC_F_CQ_BASE_W1_addr, 1, 0, 1, 0⟩,
  ⟨FNC_F_EVT_evt, 1, 0, 1, 0⟩,
  ⟨FNC_F_EVT_VEC_en, 1, 0, 1, 0⟩,
  ⟨FNC_F_EVT_VEC_vector, 1, 0, 1, 0⟩,
  ⟨FNC_F_CHN_VEC_en, 1, 0, 1, 0⟩,
  ⟨FNC_F_CHN_VEC_vector, 1, 0, 1, 0⟩,
  ⟨FNC_F_DB_IGN_count, 1, 0, 1, 0⟩,
  ⟨FNC_F_CHN_PEND_pend 0, 16, 4, 1, 0⟩]
/-- The fields of a FNC page. -/
def tableFNC : List Row := tableFNC0 ++ tableFNC1

/-! QPM_POOL (15_queue_pool.md) -/
def QPM_POOL_size : Fld := ⟨0x20, 8, 5, 1, .rw⟩
def QPM_POOL_idx : Fld := ⟨0x20, 0, 5, 0, .rw⟩
/-! QPM_FREE (15_queue_pool.md) -/
def QPM_FREE_cells : Fld := ⟨0x24, 0, 25, 0, .ro⟩
/-! QPM_POOL_STAT (15_queue_pool.md) -/
def QPM_POOL_STAT_cfg_err : Fld := ⟨0x28, 2, 1, 0, .ro⟩
def QPM_POOL_STAT_mem_off : Fld := ⟨0x28, 1, 1, 0, .ro⟩
def QPM_POOL_STAT_pool_empty : Fld := ⟨0x28, 0, 1, 0, .w1c⟩
/-! QPM_Q_SEL (15_queue_pool.md) -/
def QPM_Q_SEL_queue : Fld := ⟨0x30, 0, 12, 0, .rw⟩
/-! QPM_Q_CFG (15_queue_pool.md) -/
def QPM_Q_CFG_en : Fld := ⟨0x34, 31, 1, 0, .rw⟩
/-! QPM_Q_MAX (15_queue_pool.md) -/
def QPM_Q_MAX_cells : Fld := ⟨0x38, 0, 25, 0x1000, .rw⟩
/-! QPM_Q_HI (15_queue_pool.md) -/
def QPM_Q_HI_cells : Fld := ⟨0x3c, 0, 25, 0, .rw⟩
/-! QPM_Q_LO (15_queue_pool.md) -/
def QPM_Q_LO_cells : Fld := ⟨0x40, 0, 25, 0, .rw⟩
/-! QPM_Q_CMD (15_queue_pool.md) -/
def QPM_Q_CMD_flush : Fld := ⟨0x44, 31, 1, 0, .wo⟩
/-! QPM_Q_STAT (15_queue_pool.md) -/
def QPM_Q_STAT_live_hi : Fld := ⟨0x48, 31, 1, 0, .ro⟩
def QPM_Q_STAT_hi_seen : Fld := ⟨0x48, 30, 1, 0, .w1c⟩
def QPM_Q_STAT_lo_seen : Fld := ⟨0x48, 29, 1, 0, .w1c⟩
def QPM_Q_STAT_discarding : Fld := ⟨0x48, 28, 1, 0, .ro⟩
def QPM_Q_STAT_partial : Fld := ⟨0x48, 27, 1, 0, .ro⟩
def QPM_Q_STAT_bound : Fld := ⟨0x48, 26, 1, 0, .ro⟩
def QPM_Q_STAT_cells : Fld := ⟨0x48, 0, 25, 0, .ro⟩
/-! QPM_Q_ITEMS (15_queue_pool.md) -/
def QPM_Q_ITEMS_items : Fld := ⟨0x4c, 0, 25, 0, .ro⟩
/-! QPM_Q_OWN (15_queue_pool.md) -/
def QPM_Q_OWN_function : Fld := ⟨0x50, 0, 9, 0, .ro⟩
/-! QPM_Q_XCNT (15_queue_pool.md) -/
def QPM_Q_XCNT_hi : Fld := ⟨0x54, 8, 8, 0, .rsc⟩
def QPM_Q_XCNT_lo : Fld := ⟨0x54, 0, 8, 0, .rsc⟩
/-! QPM_Q_REFUSE (15_queue_pool.md) -/
def QPM_Q_REFUSE_count : Fld := ⟨0x58, 0, 32, 0, .rsc⟩
/-! QPM_FLUSH_DISCARD (15_queue_pool.md) -/
def QPM_FLUSH_DISCARD_words : Fld := ⟨0x60, 0, 32, 0, .rsc⟩
/-! QPM_DISC_DISABLED (15_queue_pool.md) -/
def QPM_DISC_DISABLED_items : Fld := ⟨0x64, 0, 32, 0, .rsc⟩
/-! QPM_QFC (15_queue_pool.md) -/
def QPM_QFC_en (n : Nat) : Fld := ⟨0x70 + 4 * n, 31, 1, 0, .rw⟩
def QPM_QFC_inv (n : Nat) : Fld := ⟨0x70 + 4 * n, 30, 1, 0, .rw⟩
def QPM_QFC_queue (n : Nat) : Fld := ⟨0x70 + 4 * n, 0, 12, 0, .rw⟩
/-! QPM_PORT_STAT (15_queue_pool.md) -/
def QPM_PORT_STAT_waiting : Fld := ⟨0x80, 0, 3, 0, .ro⟩
/-! QPM_XPEND (15_queue_pool.md) -/
def QPM_XPEND_pend (n : Nat) : Fld := ⟨0x400 + 4 * n, 0, 32, 0, .ro⟩

def tableQPM0 : List Row := [
  ⟨QPM_POOL_size, 1, 0, 1, 0⟩,
  ⟨QPM_POOL_idx, 1, 0, 1, 0⟩,
  ⟨QPM_FREE_cells, 1, 0, 1, 0⟩,
  ⟨QPM_POOL_STAT_cfg_err, 1, 0, 1, 0⟩,
  ⟨QPM_POOL_STAT_mem_off, 1, 0, 1, 0⟩,
  ⟨QPM_POOL_STAT_pool_empty, 1, 0, 1, 0⟩,
  ⟨QPM_Q_SEL_queue, 1, 0, 1, 0⟩,
  ⟨QPM_Q_CFG_en, 1, 0, 1, 0⟩,
  ⟨QPM_Q_MAX_cells, 1, 0, 1, 0⟩,
  ⟨QPM_Q_HI_cells, 1, 0, 1, 0⟩,
  ⟨QPM_Q_LO_cells, 1, 0, 1, 0⟩,
  ⟨QPM_Q_CMD_flush, 1, 0, 1, 0⟩,
  ⟨QPM_Q_STAT_live_hi, 1, 0, 1, 0⟩,
  ⟨QPM_Q_STAT_hi_seen, 1, 0, 1, 0⟩,
  ⟨QPM_Q_STAT_lo_seen, 1, 0, 1, 0⟩,
  ⟨QPM_Q_STAT_discarding, 1, 0, 1, 0⟩,
  ⟨QPM_Q_STAT_partial, 1, 0, 1, 0⟩,
  ⟨QPM_Q_STAT_bound, 1, 0, 1, 0⟩,
  ⟨QPM_Q_STAT_cells, 1, 0, 1, 0⟩,
  ⟨QPM_Q_ITEMS_items, 1, 0, 1, 0⟩,
  ⟨QPM_Q_OWN_function, 1, 0, 1, 0⟩,
  ⟨QPM_Q_XCNT_hi, 1, 0, 1, 0⟩,
  ⟨QPM_Q_XCNT_lo, 1, 0, 1, 0⟩,
  ⟨QPM_Q_REFUSE_count, 1, 0, 1, 0⟩,
  ⟨QPM_FLUSH_DISCARD_words, 1, 0, 1, 0⟩,
  ⟨QPM_DISC_DISABLED_items, 1, 0, 1, 0⟩,
  ⟨QPM_QFC_en 0, 4, 4, 1, 0⟩,
  ⟨QPM_QFC_inv 0, 4, 4, 1, 0⟩,
  ⟨QPM_QFC_queue 0, 4, 4, 1, 0⟩,
  ⟨QPM_PORT_STAT_waiting, 1, 0, 1, 0⟩]
def tableQPM1 : List Row := [
  ⟨QPM_XPEND_pend 0, 128, 4, 1, 0⟩]
/-- The fields of a QPM page. -/
def tableQPM : List Row := tableQPM0 ++ tableQPM1

/-! BRG_CFG (16_bridge.md) -/
def BRG_CFG_discard_ms : Fld := ⟨0x20, 16, 16, 0x64, .rw⟩
def BRG_CFG_resp_sf : Fld := ⟨0x20, 8, 8, 8, .rw⟩
def BRG_CFG_dl_retries : Fld := ⟨0x20, 0, 2, 2, .rw⟩
/-! BRG_WDATA (16_bridge.md) -/
def BRG_WDATA_data : Fld := ⟨0x24, 0, 32, 0, .rw⟩
/-! BRG_CMD (16_bridge.md) -/
def BRG_CMD_op : Fld := ⟨0x28, 30, 2, 0, .wo⟩
def BRG_CMD_se_ok : Fld := ⟨0x28, 29, 1, 0, .wo⟩
def BRG_CMD_bank : Fld := ⟨0x28, 10, 5, 0, .wo⟩
def BRG_CMD_reg : Fld := ⟨0x28, 0, 10, 0, .wo⟩
/-! BRG_ISSUE (16_bridge.md) -/
def BRG_ISSUE_valid : Fld := ⟨0x2c, 31, 1, 0, .ro⟩
def BRG_ISSUE_result : Fld := ⟨0x2c, 24, 4, 0, .ro⟩
def BRG_ISSUE_tag : Fld := ⟨0x2c, 0, 6, 0, .ro⟩
/-! BRG_TAG_SEL (16_bridge.md) -/
def BRG_TAG_SEL_tag : Fld := ⟨0x30, 0, 6, 0, .rw⟩
/-! BRG_TAG_STAT (16_bridge.md) -/
def BRG_TAG_STAT_state : Fld := ⟨0x34, 30, 2, 0, .ro⟩
def BRG_TAG_STAT_mine : Fld := ⟨0x34, 29, 1, 0, .ro⟩
def BRG_TAG_STAT_write : Fld := ⟨0x34, 28, 1, 0, .ro⟩
def BRG_TAG_STAT_status : Fld := ⟨0x34, 24, 4, 0, .ro⟩
def BRG_TAG_STAT_se : Fld := ⟨0x34, 23, 1, 0, .ro⟩
def BRG_TAG_STAT_sent : Fld := ⟨0x34, 22, 1, 0, .ro⟩
def BRG_TAG_STAT_bank : Fld := ⟨0x34, 10, 5, 0, .ro⟩
def BRG_TAG_STAT_reg : Fld := ⟨0x34, 0, 10, 0, .ro⟩
/-! BRG_TAG_DATA (16_bridge.md) -/
def BRG_TAG_DATA_data : Fld := ⟨0x38, 0, 32, 0, .rsc⟩
/-! BRG_TAGS (16_bridge.md) -/
def BRG_TAGS_open : Fld := ⟨0x3c, 16, 7, 0, .ro⟩
def BRG_TAGS_free : Fld := ⟨0x3c, 0, 7, 0x40, .ro⟩
/-! BRG_DISCARD (16_bridge.md) -/
def BRG_DISCARD_count : Fld := ⟨0x40, 0, 32, 0, .rsc⟩
/-! BRG_STRAY (16_bridge.md) -/
def BRG_STRAY_count : Fld := ⟨0x44, 0, 32, 0, .rsc⟩
/-! BRG_LATE_OVF (16_bridge.md) -/
def BRG_LATE_OVF_count : Fld := ⟨0x48, 0, 32, 0, .rsc⟩
/-! BRG_RETRY (16_bridge.md) -/
def BRG_RETRY_count : Fld := ⟨0x4c, 0, 32, 0, .rsc⟩
/-! BRG_LATE_W0 (16_bridge.md) -/
def BRG_LATE_W0_valid (n : Nat) : Fld := ⟨0x80 + 8 * n, 31, 1, 0, .w1c⟩
def BRG_LATE_W0_status (n : Nat) : Fld := ⟨0x80 + 8 * n, 24, 4, 0, .ro⟩
def BRG_LATE_W0_tag (n : Nat) : Fld := ⟨0x80 + 8 * n, 16, 6, 0, .ro⟩
def BRG_LATE_W0_bank (n : Nat) : Fld := ⟨0x80 + 8 * n, 10, 5, 0, .ro⟩
def BRG_LATE_W0_reg (n : Nat) : Fld := ⟨0x80 + 8 * n, 0, 10, 0, .ro⟩
/-! BRG_LATE_W1 (16_bridge.md) -/
def BRG_LATE_W1_world (n : Nat) : Fld := ⟨0x84 + 8 * n, 30, 2, 0, .ro⟩
def BRG_LATE_W1_cocoon (n : Nat) : Fld := ⟨0x84 + 8 * n, 26, 4, 0, .ro⟩
def BRG_LATE_W1_function (n : Nat) : Fld := ⟨0x84 + 8 * n, 16, 9, 0, .ro⟩
def BRG_LATE_W1_sfc (n : Nat) : Fld := ⟨0x84 + 8 * n, 0, 16, 0, .ro⟩

def tableBRG0 : List Row := [
  ⟨BRG_CFG_discard_ms, 1, 0, 1, 0⟩,
  ⟨BRG_CFG_resp_sf, 1, 0, 1, 0⟩,
  ⟨BRG_CFG_dl_retries, 1, 0, 1, 0⟩,
  ⟨BRG_WDATA_data, 1, 0, 1, 0⟩,
  ⟨BRG_CMD_op, 1, 0, 1, 0⟩,
  ⟨BRG_CMD_se_ok, 1, 0, 1, 0⟩,
  ⟨BRG_CMD_bank, 1, 0, 1, 0⟩,
  ⟨BRG_CMD_reg, 1, 0, 1, 0⟩,
  ⟨BRG_ISSUE_valid, 1, 0, 1, 0⟩,
  ⟨BRG_ISSUE_result, 1, 0, 1, 0⟩,
  ⟨BRG_ISSUE_tag, 1, 0, 1, 0⟩,
  ⟨BRG_TAG_SEL_tag, 1, 0, 1, 0⟩,
  ⟨BRG_TAG_STAT_state, 1, 0, 1, 0⟩,
  ⟨BRG_TAG_STAT_mine, 1, 0, 1, 0⟩,
  ⟨BRG_TAG_STAT_write, 1, 0, 1, 0⟩,
  ⟨BRG_TAG_STAT_status, 1, 0, 1, 0⟩,
  ⟨BRG_TAG_STAT_se, 1, 0, 1, 0⟩,
  ⟨BRG_TAG_STAT_sent, 1, 0, 1, 0⟩,
  ⟨BRG_TAG_STAT_bank, 1, 0, 1, 0⟩,
  ⟨BRG_TAG_STAT_reg, 1, 0, 1, 0⟩,
  ⟨BRG_TAG_DATA_data, 1, 0, 1, 0⟩,
  ⟨BRG_TAGS_open, 1, 0, 1, 0⟩,
  ⟨BRG_TAGS_free, 1, 0, 1, 0⟩,
  ⟨BRG_DISCARD_count, 1, 0, 1, 0⟩,
  ⟨BRG_STRAY_count, 1, 0, 1, 0⟩,
  ⟨BRG_LATE_OVF_count, 1, 0, 1, 0⟩,
  ⟨BRG_RETRY_count, 1, 0, 1, 0⟩,
  ⟨BRG_LATE_W0_valid 0, 8, 8, 1, 0⟩,
  ⟨BRG_LATE_W0_status 0, 8, 8, 1, 0⟩,
  ⟨BRG_LATE_W0_tag 0, 8, 8, 1, 0⟩]
def tableBRG1 : List Row := [
  ⟨BRG_LATE_W0_bank 0, 8, 8, 1, 0⟩,
  ⟨BRG_LATE_W0_reg 0, 8, 8, 1, 0⟩,
  ⟨BRG_LATE_W1_world 0, 8, 8, 1, 0⟩,
  ⟨BRG_LATE_W1_cocoon 0, 8, 8, 1, 0⟩,
  ⟨BRG_LATE_W1_function 0, 8, 8, 1, 0⟩,
  ⟨BRG_LATE_W1_sfc 0, 8, 8, 1, 0⟩]
/-- The fields of a BRG page. -/
def tableBRG : List Row := tableBRG0 ++ tableBRG1

end Sys2Proof.Machine.R
end

