-- ==== Sys2Proof/Machine/RegsNetwork.lean ====
section
/-! DEFINITION. Register fields of the pages ESW, PTP, CAN, NWM: offset, lowest bit, width, reset value and access code of
every field, written from the register tables of the spec (offsets: 24_register_index.md, R478). A `W36` pair and a `W72` triple are
one field of width 36 or 72 at the offset of its `_LO`. The list of a page ends each block. -/
namespace Sys2Proof.Machine.R

/-! ESW_CFG (17_switch_core.md) -/
def ESW_CFG_max_len : Fld := ⟨0x20, 0, 14, 0x5f2, .rw⟩
/-! ESW_AGE (17_switch_core.md) -/
def ESW_AGE_age_s : Fld := ⟨0x24, 0, 16, 0x12c, .rw⟩
/-! ESW_BUF_CFG (17_switch_core.md) -/
def ESW_BUF_CFG_shr_max : Fld := ⟨0x28, 16, 13, 0x400, .rw⟩
def ESW_BUF_CFG_rsv : Fld := ⟨0x28, 0, 8, 4, .rw⟩
/-! ESW_BUF_STAT (17_switch_core.md) -/
def ESW_BUF_STAT_head : Fld := ⟨0x2c, 16, 13, 0, .ro⟩
def ESW_BUF_STAT_free : Fld := ⟨0x2c, 0, 13, 0x1000, .ro⟩
/-! ESW_PCP_MAP (17_switch_core.md) -/
def ESW_PCP_MAP_class (i : Nat) : Fld := ⟨0x30, 3 * i, 3, i, .rw⟩
/-! ESW_PTP_CLASS (17_switch_core.md) -/
def ESW_PTP_CLASS_class : Fld := ⟨0x34, 0, 3, 7, .rw⟩
/-! ESW_MOVES (17_switch_core.md) -/
def ESW_MOVES_count : Fld := ⟨0x38, 0, 32, 0, .rsc⟩
/-! ESW_LEARN_FULL (17_switch_core.md) -/
def ESW_LEARN_FULL_count : Fld := ⟨0x3c, 0, 32, 0, .rsc⟩
/-! ESW_ATU_KEY_W0 (17_switch_core.md) -/
def ESW_ATU_KEY_W0_mac : Fld := ⟨0x40, 0, 32, 0, .rw⟩
/-! ESW_ATU_KEY_W1 (17_switch_core.md) -/
def ESW_ATU_KEY_W1_vid : Fld := ⟨0x44, 16, 12, 0, .rw⟩
def ESW_ATU_KEY_W1_mac : Fld := ⟨0x44, 0, 16, 0, .rw⟩
/-! ESW_ATU_DATA (17_switch_core.md) -/
def ESW_ATU_DATA_valid : Fld := ⟨0x48, 31, 1, 0, .rw⟩
def ESW_ATU_DATA_static : Fld := ⟨0x48, 30, 1, 0, .rw⟩
def ESW_ATU_DATA_ports : Fld := ⟨0x48, 0, 4, 0, .rw⟩
/-! ESW_ATU_CMD (17_switch_core.md) -/
def ESW_ATU_CMD_op : Fld := ⟨0x4c, 30, 2, 0, .wo⟩
def ESW_ATU_CMD_flush_dyn : Fld := ⟨0x4c, 29, 1, 0, .wo⟩
def ESW_ATU_CMD_result : Fld := ⟨0x4c, 0, 4, 0, .ro⟩
/-! ESW_VLAN_VID (17_switch_core.md) -/
def ESW_VLAN_VID_vid : Fld := ⟨0x50, 0, 12, 1, .rw⟩
/-! ESW_VLAN_DATA (17_switch_core.md) -/
def ESW_VLAN_DATA_untag : Fld := ⟨0x54, 4, 4, 0xf, .rw⟩
def ESW_VLAN_DATA_member : Fld := ⟨0x54, 0, 4, 0xf, .rw⟩
/-! ESW_ATU_COUNT (17_switch_core.md) -/
def ESW_ATU_COUNT_entries : Fld := ⟨0x58, 0, 13, 0, .ro⟩
/-! ESW_P_CFG (17_switch_core.md) -/
def ESW_P_CFG_en (n : Nat) : Fld := ⟨0x100 + 64 * n, 31, 1, 0, .rw⟩
def ESW_P_CFG_mode (n : Nat) : Fld := ⟨0x100 + 64 * n, 28, 3, 0, .rw⟩
def ESW_P_CFG_ct_en (n : Nat) : Fld := ⟨0x100 + 64 * n, 27, 1, 1, .rw⟩
def ESW_P_CFG_learn (n : Nat) : Fld := ⟨0x100 + 64 * n, 26, 1, 1, .rw⟩
def ESW_P_CFG_pause (n : Nat) : Fld := ⟨0x100 + 64 * n, 25, 1, 0, .rw⟩
def ESW_P_CFG_accept (n : Nat) : Fld := ⟨0x100 + 64 * n, 23, 2, 0, .rw⟩
def ESW_P_CFG_def_pcp (n : Nat) : Fld := ⟨0x100 + 64 * n, 16, 3, 0, .rw⟩
def ESW_P_CFG_pvid (n : Nat) : Fld := ⟨0x100 + 64 * n, 0, 12, 1, .rw⟩
/-! ESW_P_STAT (17_switch_core.md) -/
def ESW_P_STAT_link (n : Nat) : Fld := ⟨0x104 + 64 * n, 31, 1, 0, .ro⟩
def ESW_P_STAT_speed (n : Nat) : Fld := ⟨0x104 + 64 * n, 0, 2, 0, .ro⟩
/-! ESW_P_RX_FRAMES (17_switch_core.md) -/
def ESW_P_RX_FRAMES_count (n : Nat) : Fld := ⟨0x110 + 64 * n, 0, 32, 0, .rsc⟩
/-! ESW_P_RX_BYTES (17_switch_core.md) -/
def ESW_P_RX_BYTES_count (n : Nat) : Fld := ⟨0x114 + 64 * n, 0, 32, 0, .rsc⟩
/-! ESW_P_RX_BAD (17_switch_core.md) -/
def ESW_P_RX_BAD_count (n : Nat) : Fld := ⟨0x118 + 64 * n, 0, 32, 0, .rsc⟩
/-! ESW_P_RX_DROP (17_switch_core.md) -/
def ESW_P_RX_DROP_count (n : Nat) : Fld := ⟨0x11c + 64 * n, 0, 32, 0, .rsc⟩
/-! ESW_P_TX_FRAMES (17_switch_core.md) -/
def ESW_P_TX_FRAMES_count (n : Nat) : Fld := ⟨0x120 + 64 * n, 0, 32, 0, .rsc⟩
/-! ESW_P_TX_BYTES (17_switch_core.md) -/
def ESW_P_TX_BYTES_count (n : Nat) : Fld := ⟨0x124 + 64 * n, 0, 32, 0, .rsc⟩
/-! ESW_P_TX_TAIL (17_switch_core.md) -/
def ESW_P_TX_TAIL_count (n : Nat) : Fld := ⟨0x128 + 64 * n, 0, 32, 0, .rsc⟩
/-! ESW_P_TX_DROP (17_switch_core.md) -/
def ESW_P_TX_DROP_count (n : Nat) : Fld := ⟨0x12c + 64 * n, 0, 32, 0, .rsc⟩
/-! ESW_P3_RX_BASE_W0 (17_switch_core.md) -/
def ESW_P3_RX_BASE_W0_addr : Fld := ⟨0x200, 0, 32, 0, .rw⟩
/-! ESW_P3_RX_BASE_W1 (17_switch_core.md) -/
def ESW_P3_RX_BASE_W1_addr : Fld := ⟨0x204, 0, 8, 0, .rw⟩
/-! ESW_P3_TX_BASE_W0 (17_switch_core.md) -/
def ESW_P3_TX_BASE_W0_addr : Fld := ⟨0x208, 0, 32, 0, .rw⟩
/-! ESW_P3_TX_BASE_W1 (17_switch_core.md) -/
def ESW_P3_TX_BASE_W1_addr : Fld := ⟨0x20c, 0, 8, 0, .rw⟩
/-! ESW_P3_RING (17_switch_core.md) -/
def ESW_P3_RING_tx_log : Fld := ⟨0x210, 4, 4, 0, .rw⟩
def ESW_P3_RING_rx_log : Fld := ⟨0x210, 0, 4, 0, .rw⟩
/-! ESW_P3_DB (17_switch_core.md) -/
def ESW_P3_DB_tx : Fld := ⟨0x214, 0, 1, 0, .wo⟩

def tableESW0 : List Row := [
  ⟨ESW_CFG_max_len, 1, 0, 1, 0⟩,
  ⟨ESW_AGE_age_s, 1, 0, 1, 0⟩,
  ⟨ESW_BUF_CFG_shr_max, 1, 0, 1, 0⟩,
  ⟨ESW_BUF_CFG_rsv, 1, 0, 1, 0⟩,
  ⟨ESW_BUF_STAT_head, 1, 0, 1, 0⟩,
  ⟨ESW_BUF_STAT_free, 1, 0, 1, 0⟩,
  ⟨ESW_PCP_MAP_class 0, 1, 0, 1, 0⟩,
  ⟨ESW_PCP_MAP_class 1, 1, 0, 1, 0⟩,
  ⟨ESW_PCP_MAP_class 2, 1, 0, 1, 0⟩,
  ⟨ESW_PCP_MAP_class 3, 1, 0, 1, 0⟩,
  ⟨ESW_PCP_MAP_class 4, 1, 0, 1, 0⟩,
  ⟨ESW_PCP_MAP_class 5, 1, 0, 1, 0⟩,
  ⟨ESW_PCP_MAP_class 6, 1, 0, 1, 0⟩,
  ⟨ESW_PCP_MAP_class 7, 1, 0, 1, 0⟩,
  ⟨ESW_PTP_CLASS_class, 1, 0, 1, 0⟩,
  ⟨ESW_MOVES_count, 1, 0, 1, 0⟩,
  ⟨ESW_LEARN_FULL_count, 1, 0, 1, 0⟩,
  ⟨ESW_ATU_KEY_W0_mac, 1, 0, 1, 0⟩,
  ⟨ESW_ATU_KEY_W1_vid, 1, 0, 1, 0⟩,
  ⟨ESW_ATU_KEY_W1_mac, 1, 0, 1, 0⟩,
  ⟨ESW_ATU_DATA_valid, 1, 0, 1, 0⟩,
  ⟨ESW_ATU_DATA_static, 1, 0, 1, 0⟩,
  ⟨ESW_ATU_DATA_ports, 1, 0, 1, 0⟩,
  ⟨ESW_ATU_CMD_op, 1, 0, 1, 0⟩,
  ⟨ESW_ATU_CMD_flush_dyn, 1, 0, 1, 0⟩,
  ⟨ESW_ATU_CMD_result, 1, 0, 1, 0⟩,
  ⟨ESW_VLAN_VID_vid, 1, 0, 1, 0⟩,
  ⟨ESW_VLAN_DATA_untag, 1, 0, 1, 0⟩,
  ⟨ESW_VLAN_DATA_member, 1, 0, 1, 0⟩,
  ⟨ESW_ATU_COUNT_entries, 1, 0, 1, 0⟩]
def tableESW1 : List Row := [
  ⟨ESW_P_CFG_en 0, 4, 64, 1, 0⟩,
  ⟨ESW_P_CFG_mode 0, 4, 64, 1, 0⟩,
  ⟨ESW_P_CFG_ct_en 0, 4, 64, 1, 0⟩,
  ⟨ESW_P_CFG_learn 0, 4, 64, 1, 0⟩,
  ⟨ESW_P_CFG_pause 0, 4, 64, 1, 0⟩,
  ⟨ESW_P_CFG_accept 0, 4, 64, 1, 0⟩,
  ⟨ESW_P_CFG_def_pcp 0, 4, 64, 1, 0⟩,
  ⟨ESW_P_CFG_pvid 0, 4, 64, 1, 0⟩,
  ⟨ESW_P_STAT_link 0, 4, 64, 1, 0⟩,
  ⟨ESW_P_STAT_speed 0, 4, 64, 1, 0⟩,
  ⟨ESW_P_RX_FRAMES_count 0, 4, 64, 1, 0⟩,
  ⟨ESW_P_RX_BYTES_count 0, 4, 64, 1, 0⟩,
  ⟨ESW_P_RX_BAD_count 0, 4, 64, 1, 0⟩,
  ⟨ESW_P_RX_DROP_count 0, 4, 64, 1, 0⟩,
  ⟨ESW_P_TX_FRAMES_count 0, 4, 64, 1, 0⟩,
  ⟨ESW_P_TX_BYTES_count 0, 4, 64, 1, 0⟩,
  ⟨ESW_P_TX_TAIL_count 0, 4, 64, 1, 0⟩,
  ⟨ESW_P_TX_DROP_count 0, 4, 64, 1, 0⟩,
  ⟨ESW_P3_RX_BASE_W0_addr, 1, 0, 1, 0⟩,
  ⟨ESW_P3_RX_BASE_W1_addr, 1, 0, 1, 0⟩,
  ⟨ESW_P3_TX_BASE_W0_addr, 1, 0, 1, 0⟩,
  ⟨ESW_P3_TX_BASE_W1_addr, 1, 0, 1, 0⟩,
  ⟨ESW_P3_RING_tx_log, 1, 0, 1, 0⟩,
  ⟨ESW_P3_RING_rx_log, 1, 0, 1, 0⟩,
  ⟨ESW_P3_DB_tx, 1, 0, 1, 0⟩]
/-- The fields of a ESW page. -/
def tableESW : List Row := tableESW0 ++ tableESW1

/-! PTP_CFG (18_network_time.md) -/
def PTP_CFG_e2e_rx : Fld := ⟨0x20, 17, 1, 0, .rw⟩
def PTP_CFG_domain : Fld := ⟨0x20, 8, 8, 0, .rw⟩
def PTP_CFG_tc : Fld := ⟨0x20, 0, 2, 0, .rw⟩
/-! PTP_STAT (18_network_time.md) -/
def PTP_STAT_cmd_result : Fld := ⟨0x24, 28, 4, 0, .ro⟩
def PTP_STAT_freq_limit : Fld := ⟨0x24, 9, 1, 0, .ro⟩
def PTP_STAT_jump_refused : Fld := ⟨0x24, 8, 1, 0, .w1c⟩
def PTP_STAT_lock_cnt : Fld := ⟨0x24, 4, 4, 0, .ro⟩
def PTP_STAT_holdover : Fld := ⟨0x24, 3, 1, 1, .ro⟩
def PTP_STAT_state : Fld := ⟨0x24, 0, 3, 0, .ro⟩
/-! PTP_CMD (18_network_time.md) -/
def PTP_CMD_slew : Fld := ⟨0x28, 31, 1, 0, .wo⟩
def PTP_CMD_step : Fld := ⟨0x28, 30, 1, 0, .wo⟩
def PTP_CMD_holdover : Fld := ⟨0x28, 29, 1, 0, .wo⟩
def PTP_CMD_cancel : Fld := ⟨0x28, 28, 1, 0, .wo⟩
/-! PTP_MEAS_W0 (18_network_time.md) -/
def PTP_MEAS_W0_off : Fld := ⟨0x30, 0, 32, 0, .rw⟩
/-! PTP_MEAS_W1 (18_network_time.md) -/
def PTP_MEAS_W1_off : Fld := ⟨0x34, 0, 32, 0, .rw⟩
/-! PTP_SERVO_CFG (18_network_time.md) -/
def PTP_SERVO_CFG_kp : Fld := ⟨0x38, 16, 16, 0x4000, .rw⟩
def PTP_SERVO_CFG_ki : Fld := ⟨0x38, 0, 16, 0x400, .rw⟩
/-! PTP_SERVO_LIM (18_network_time.md) -/
def PTP_SERVO_LIM_slew_ppm : Fld := ⟨0x3c, 24, 8, 0xa, .rw⟩
def PTP_SERVO_LIM_lock_ns : Fld := ⟨0x3c, 16, 8, 0x32, .rw⟩
def PTP_SERVO_LIM_tmo_ms : Fld := ⟨0x3c, 0, 16, 0xbb8, .rw⟩
/-! PTP_JUMP_TH (18_network_time.md) -/
def PTP_JUMP_TH_ns : Fld := ⟨0x40, 0, 32, 0x3e8, .rw⟩
/-! PTP_ADJ (18_network_time.md) -/
def PTP_ADJ_a : Fld := ⟨0x44, 0, 32, 0, .ro⟩
/-! PTP_FREQ (18_network_time.md) -/
def PTP_FREQ_f : Fld := ⟨0x48, 0, 32, 0, .ro⟩
/-! PTP_JUMP_COUNT (18_network_time.md) -/
def PTP_JUMP_COUNT_count : Fld := ⟨0x4c, 0, 32, 0, .rsc⟩
/-! PTP_LAST_REFUSED_W0 (18_network_time.md) -/
def PTP_LAST_REFUSED_W0_off : Fld := ⟨0x50, 0, 32, 0, .ro⟩
/-! PTP_LAST_REFUSED_W1 (18_network_time.md) -/
def PTP_LAST_REFUSED_W1_off : Fld := ⟨0x54, 0, 32, 0, .ro⟩
/-! PTP_RATE_RATIO (18_network_time.md) -/
def PTP_RATE_RATIO_rr : Fld := ⟨0x58, 0, 32, 0, .rw⟩
/-! PTP_AON_CAL (18_network_time.md) -/
def PTP_AON_CAL_period : Fld := ⟨0x5c, 0, 32, 0x77359400, .ro⟩
/-! PTP_LT_NS (18_network_time.md) -/
def PTP_LT_NS_ns : Fld := ⟨0x60, 0, 30, 0, .ro⟩
/-! PTP_LT_SEC_W0 (18_network_time.md) -/
def PTP_LT_SEC_W0_sec : Fld := ⟨0x64, 0, 32, 0, .ro⟩
/-! PTP_LT_SEC_W1 (18_network_time.md) -/
def PTP_LT_SEC_W1_frac : Fld := ⟨0x68, 16, 16, 0, .ro⟩
def PTP_LT_SEC_W1_sec : Fld := ⟨0x68, 0, 16, 0, .ro⟩
/-! PTP_SFC_W0 (18_network_time.md) -/
def PTP_SFC_W0_k : Fld := ⟨0x70, 0, 32, 0, .ro⟩
/-! PTP_SFC_W1 (18_network_time.md) -/
def PTP_SFC_W1_k : Fld := ⟨0x74, 0, 32, 0, .ro⟩
/-! PTP_RX_BASE_W0 (18_network_time.md) -/
def PTP_RX_BASE_W0_addr : Fld := ⟨0x80, 0, 32, 0, .rw⟩
/-! PTP_RX_BASE_W1 (18_network_time.md) -/
def PTP_RX_BASE_W1_addr : Fld := ⟨0x84, 0, 8, 0, .rw⟩
/-! PTP_TX_BASE_W0 (18_network_time.md) -/
def PTP_TX_BASE_W0_addr : Fld := ⟨0x88, 0, 32, 0, .rw⟩
/-! PTP_TX_BASE_W1 (18_network_time.md) -/
def PTP_TX_BASE_W1_addr : Fld := ⟨0x8c, 0, 8, 0, .rw⟩
/-! PTP_RING (18_network_time.md) -/
def PTP_RING_tx_log : Fld := ⟨0x90, 4, 4, 0, .rw⟩
def PTP_RING_rx_log : Fld := ⟨0x90, 0, 4, 0, .rw⟩
/-! PTP_TX_DB (18_network_time.md) -/
def PTP_TX_DB_tx : Fld := ⟨0x94, 0, 1, 0, .wo⟩
/-! PTP_TC_MISS (18_network_time.md) -/
def PTP_TC_MISS_count : Fld := ⟨0x98, 0, 32, 0, .rsc⟩
/-! PTP_RX_DROP (18_network_time.md) -/
def PTP_RX_DROP_count : Fld := ⟨0x9c, 0, 32, 0, .rsc⟩
/-! PTP_P_LAT_RX (18_network_time.md) -/
def PTP_P_LAT_RX_lat (n : Nat) : Fld := ⟨0x100 + 64 * n, 0, 32, 0, .ro⟩
/-! PTP_P_LAT_TX (18_network_time.md) -/
def PTP_P_LAT_TX_lat (n : Nat) : Fld := ⟨0x104 + 64 * n, 0, 32, 0, .ro⟩
/-! PTP_P_BOARD_RX (18_network_time.md) -/
def PTP_P_BOARD_RX_d (n : Nat) : Fld := ⟨0x108 + 64 * n, 0, 32, 0, .rw⟩
/-! PTP_P_BOARD_TX (18_network_time.md) -/
def PTP_P_BOARD_TX_d (n : Nat) : Fld := ⟨0x10c + 64 * n, 0, 32, 0, .rw⟩
/-! PTP_P_ASYM (18_network_time.md) -/
def PTP_P_ASYM_d (n : Nat) : Fld := ⟨0x110 + 64 * n, 0, 32, 0, .rw⟩
/-! PTP_P_LINK_DLY (18_network_time.md) -/
def PTP_P_LINK_DLY_d (n : Nat) : Fld := ⟨0x114 + 64 * n, 0, 32, 0, .rw⟩
/-! PTP_P_TSQ_HDR (18_network_time.md) -/
def PTP_P_TSQ_HDR_valid (n : Nat) : Fld := ⟨0x120 + 64 * n, 31, 1, 0, .rsc⟩
def PTP_P_TSQ_HDR_msg_type (n : Nat) : Fld := ⟨0x120 + 64 * n, 24, 4, 0, .rsc⟩
def PTP_P_TSQ_HDR_domain (n : Nat) : Fld := ⟨0x120 + 64 * n, 16, 8, 0, .rsc⟩
def PTP_P_TSQ_HDR_seq_id (n : Nat) : Fld := ⟨0x120 + 64 * n, 0, 16, 0, .rsc⟩
/-! PTP_P_TSQ_SEC_W0 (18_network_time.md) -/
def PTP_P_TSQ_SEC_W0_sec (n : Nat) : Fld := ⟨0x124 + 64 * n, 0, 32, 0, .ro⟩
/-! PTP_P_TSQ_SEC_W1 (18_network_time.md) -/
def PTP_P_TSQ_SEC_W1_frac (n : Nat) : Fld := ⟨0x128 + 64 * n, 16, 16, 0, .ro⟩
def PTP_P_TSQ_SEC_W1_sec (n : Nat) : Fld := ⟨0x128 + 64 * n, 0, 16, 0, .ro⟩
/-! PTP_P_TSQ_NS (18_network_time.md) -/
def PTP_P_TSQ_NS_ns (n : Nat) : Fld := ⟨0x12c + 64 * n, 0, 30, 0, .ro⟩
/-! PTP_P_TSQ_OVF (18_network_time.md) -/
def PTP_P_TSQ_OVF_count (n : Nat) : Fld := ⟨0x130 + 64 * n, 0, 32, 0, .rsc⟩
/-! PTP_P_TS_ERR (18_network_time.md) -/
def PTP_P_TS_ERR_count (n : Nat) : Fld := ⟨0x134 + 64 * n, 0, 32, 0, .rsc⟩

def tablePTP0 : List Row := [
  ⟨PTP_CFG_e2e_rx, 1, 0, 1, 0⟩,
  ⟨PTP_CFG_domain, 1, 0, 1, 0⟩,
  ⟨PTP_CFG_tc, 1, 0, 1, 0⟩,
  ⟨PTP_STAT_cmd_result, 1, 0, 1, 0⟩,
  ⟨PTP_STAT_freq_limit, 1, 0, 1, 0⟩,
  ⟨PTP_STAT_jump_refused, 1, 0, 1, 0⟩,
  ⟨PTP_STAT_lock_cnt, 1, 0, 1, 0⟩,
  ⟨PTP_STAT_holdover, 1, 0, 1, 0⟩,
  ⟨PTP_STAT_state, 1, 0, 1, 0⟩,
  ⟨PTP_CMD_slew, 1, 0, 1, 0⟩,
  ⟨PTP_CMD_step, 1, 0, 1, 0⟩,
  ⟨PTP_CMD_holdover, 1, 0, 1, 0⟩,
  ⟨PTP_CMD_cancel, 1, 0, 1, 0⟩,
  ⟨PTP_MEAS_W0_off, 1, 0, 1, 0⟩,
  ⟨PTP_MEAS_W1_off, 1, 0, 1, 0⟩,
  ⟨PTP_SERVO_CFG_kp, 1, 0, 1, 0⟩,
  ⟨PTP_SERVO_CFG_ki, 1, 0, 1, 0⟩,
  ⟨PTP_SERVO_LIM_slew_ppm, 1, 0, 1, 0⟩,
  ⟨PTP_SERVO_LIM_lock_ns, 1, 0, 1, 0⟩,
  ⟨PTP_SERVO_LIM_tmo_ms, 1, 0, 1, 0⟩,
  ⟨PTP_JUMP_TH_ns, 1, 0, 1, 0⟩,
  ⟨PTP_ADJ_a, 1, 0, 1, 0⟩,
  ⟨PTP_FREQ_f, 1, 0, 1, 0⟩,
  ⟨PTP_JUMP_COUNT_count, 1, 0, 1, 0⟩,
  ⟨PTP_LAST_REFUSED_W0_off, 1, 0, 1, 0⟩,
  ⟨PTP_LAST_REFUSED_W1_off, 1, 0, 1, 0⟩,
  ⟨PTP_RATE_RATIO_rr, 1, 0, 1, 0⟩,
  ⟨PTP_AON_CAL_period, 1, 0, 1, 0⟩,
  ⟨PTP_LT_NS_ns, 1, 0, 1, 0⟩,
  ⟨PTP_LT_SEC_W0_sec, 1, 0, 1, 0⟩]
def tablePTP1 : List Row := [
  ⟨PTP_LT_SEC_W1_frac, 1, 0, 1, 0⟩,
  ⟨PTP_LT_SEC_W1_sec, 1, 0, 1, 0⟩,
  ⟨PTP_SFC_W0_k, 1, 0, 1, 0⟩,
  ⟨PTP_SFC_W1_k, 1, 0, 1, 0⟩,
  ⟨PTP_RX_BASE_W0_addr, 1, 0, 1, 0⟩,
  ⟨PTP_RX_BASE_W1_addr, 1, 0, 1, 0⟩,
  ⟨PTP_TX_BASE_W0_addr, 1, 0, 1, 0⟩,
  ⟨PTP_TX_BASE_W1_addr, 1, 0, 1, 0⟩,
  ⟨PTP_RING_tx_log, 1, 0, 1, 0⟩,
  ⟨PTP_RING_rx_log, 1, 0, 1, 0⟩,
  ⟨PTP_TX_DB_tx, 1, 0, 1, 0⟩,
  ⟨PTP_TC_MISS_count, 1, 0, 1, 0⟩,
  ⟨PTP_RX_DROP_count, 1, 0, 1, 0⟩,
  ⟨PTP_P_LAT_RX_lat 0, 3, 64, 1, 0⟩,
  ⟨PTP_P_LAT_TX_lat 0, 3, 64, 1, 0⟩,
  ⟨PTP_P_BOARD_RX_d 0, 3, 64, 1, 0⟩,
  ⟨PTP_P_BOARD_TX_d 0, 3, 64, 1, 0⟩,
  ⟨PTP_P_ASYM_d 0, 3, 64, 1, 0⟩,
  ⟨PTP_P_LINK_DLY_d 0, 3, 64, 1, 0⟩,
  ⟨PTP_P_TSQ_HDR_valid 0, 3, 64, 1, 0⟩,
  ⟨PTP_P_TSQ_HDR_msg_type 0, 3, 64, 1, 0⟩,
  ⟨PTP_P_TSQ_HDR_domain 0, 3, 64, 1, 0⟩,
  ⟨PTP_P_TSQ_HDR_seq_id 0, 3, 64, 1, 0⟩,
  ⟨PTP_P_TSQ_SEC_W0_sec 0, 3, 64, 1, 0⟩,
  ⟨PTP_P_TSQ_SEC_W1_frac 0, 3, 64, 1, 0⟩,
  ⟨PTP_P_TSQ_SEC_W1_sec 0, 3, 64, 1, 0⟩,
  ⟨PTP_P_TSQ_NS_ns 0, 3, 64, 1, 0⟩,
  ⟨PTP_P_TSQ_OVF_count 0, 3, 64, 1, 0⟩,
  ⟨PTP_P_TS_ERR_count 0, 3, 64, 1, 0⟩]
/-- The fields of a PTP page. -/
def tablePTP : List Row := tablePTP0 ++ tablePTP1

/-! CAN_CFG (19_can_wake.md) -/
def CAN_CFG_nomatch : Fld := ⟨0x20, 10, 2, 2, .rw⟩
def CAN_CFG_mode : Fld := ⟨0x20, 7, 3, 0, .rw⟩
def CAN_CFG_pxe : Fld := ⟨0x20, 6, 1, 1, .rw⟩
def CAN_CFG_abo : Fld := ⟨0x20, 5, 1, 0, .rw⟩
def CAN_CFG_triple : Fld := ⟨0x20, 4, 1, 0, .rw⟩
def CAN_CFG_brs_en : Fld := ⟨0x20, 3, 1, 0, .rw⟩
def CAN_CFG_fd : Fld := ⟨0x20, 2, 1, 0, .rw⟩
/-! CAN_NBT (19_can_wake.md) -/
def CAN_NBT_sjw : Fld := ⟨0x24, 25, 7, 0, .rw⟩
def CAN_NBT_tseg1 : Fld := ⟨0x24, 17, 8, 0, .rw⟩
def CAN_NBT_tseg2 : Fld := ⟨0x24, 10, 7, 0, .rw⟩
def CAN_NBT_brp : Fld := ⟨0x24, 0, 10, 0, .rw⟩
/-! CAN_DBT (19_can_wake.md) -/
def CAN_DBT_sjw : Fld := ⟨0x28, 28, 4, 0, .rw⟩
def CAN_DBT_tseg1 : Fld := ⟨0x28, 23, 5, 0, .rw⟩
def CAN_DBT_tseg2 : Fld := ⟨0x28, 19, 4, 0, .rw⟩
def CAN_DBT_brp : Fld := ⟨0x28, 14, 5, 0, .rw⟩
def CAN_DBT_tdc_en : Fld := ⟨0x28, 13, 1, 0, .rw⟩
def CAN_DBT_tdco : Fld := ⟨0x28, 6, 7, 0, .rw⟩
/-! CAN_STAT (19_can_wake.md) -/
def CAN_STAT_err_state : Fld := ⟨0x2c, 2, 2, 0, .ro⟩
def CAN_STAT_state : Fld := ⟨0x2c, 0, 2, 0, .ro⟩
/-! CAN_CMD (19_can_wake.md) -/
def CAN_CMD_start : Fld := ⟨0x30, 31, 1, 0, .wo⟩
def CAN_CMD_stop : Fld := ⟨0x30, 30, 1, 0, .wo⟩
def CAN_CMD_recover : Fld := ⟨0x30, 29, 1, 0, .wo⟩
/-! CAN_ERR (19_can_wake.md) -/
def CAN_ERR_lec : Fld := ⟨0x34, 28, 3, 0, .rsc⟩
def CAN_ERR_rec : Fld := ⟨0x34, 16, 8, 0, .ro⟩
def CAN_ERR_tec : Fld := ⟨0x34, 0, 9, 0, .ro⟩
/-! CAN_TX_PEND (19_can_wake.md) -/
def CAN_TX_PEND_pend : Fld := ⟨0x38, 0, 32, 0, .w1s⟩
/-! CAN_TX_ABORT (19_can_wake.md) -/
def CAN_TX_ABORT_abort : Fld := ⟨0x3c, 0, 32, 0, .w1s⟩
/-! CAN_TX_DONE (19_can_wake.md) -/
def CAN_TX_DONE_done : Fld := ⟨0x40, 0, 32, 0, .w1c⟩
/-! CAN_TX_ABORTED (19_can_wake.md) -/
def CAN_TX_ABORTED_aborted : Fld := ⟨0x44, 0, 32, 0, .w1c⟩
/-! CAN_TX_ERR (19_can_wake.md) -/
def CAN_TX_ERR_refused : Fld := ⟨0x48, 0, 32, 0, .w1c⟩
/-! CAN_RXQ_STAT (19_can_wake.md) -/
def CAN_RXQ_STAT_cnt1 : Fld := ⟨0x4c, 16, 7, 0, .ro⟩
def CAN_RXQ_STAT_cnt0 : Fld := ⟨0x4c, 0, 7, 0, .ro⟩
/-! CAN_RXQ_CMD (19_can_wake.md) -/
def CAN_RXQ_CMD_pop0 : Fld := ⟨0x50, 31, 1, 0, .wo⟩
def CAN_RXQ_CMD_pop1 : Fld := ⟨0x50, 30, 1, 0, .wo⟩
/-! CAN_RXQ0_LOST (19_can_wake.md) -/
def CAN_RXQ0_LOST_count : Fld := ⟨0x54, 0, 32, 0, .rsc⟩
/-! CAN_RXQ1_LOST (19_can_wake.md) -/
def CAN_RXQ1_LOST_count : Fld := ⟨0x58, 0, 32, 0, .rsc⟩
/-! CAN_FLT_ID (19_can_wake.md) -/
def CAN_FLT_ID_en (n : Nat) : Fld := ⟨0x100 + 8 * n, 31, 1, 0, .rw⟩
def CAN_FLT_ID_ide (n : Nat) : Fld := ⟨0x100 + 8 * n, 30, 1, 0, .rw⟩
def CAN_FLT_ID_wk (n : Nat) : Fld := ⟨0x100 + 8 * n, 29, 1, 0, .rw⟩
def CAN_FLT_ID_id (n : Nat) : Fld := ⟨0x100 + 8 * n, 0, 29, 0, .rw⟩
/-! CAN_FLT_MASK (19_can_wake.md) -/
def CAN_FLT_MASK_dest (n : Nat) : Fld := ⟨0x104 + 8 * n, 30, 2, 0, .rw⟩
def CAN_FLT_MASK_ka (n : Nat) : Fld := ⟨0x104 + 8 * n, 29, 1, 0, .rw⟩
def CAN_FLT_MASK_mask (n : Nat) : Fld := ⟨0x104 + 8 * n, 0, 29, 0, .rw⟩
/-! CAN_TXBUF (19_can_wake.md) -/
def CAN_TXBUF_data (n m : Nat) : Fld := ⟨0x400 + 72 * n + 4 * m, 0, 32, 0, .rw⟩
/-! CAN_RXQ0_HEAD (19_can_wake.md) -/
def CAN_RXQ0_HEAD_data (n : Nat) : Fld := ⟨0xd00 + 4 * n, 0, 32, 0, .ro⟩
/-! CAN_RXQ1_HEAD (19_can_wake.md) -/
def CAN_RXQ1_HEAD_data (n : Nat) : Fld := ⟨0xd80 + 4 * n, 0, 32, 0, .ro⟩

def tableCAN0 : List Row := [
  ⟨CAN_CFG_nomatch, 1, 0, 1, 0⟩,
  ⟨CAN_CFG_mode, 1, 0, 1, 0⟩,
  ⟨CAN_CFG_pxe, 1, 0, 1, 0⟩,
  ⟨CAN_CFG_abo, 1, 0, 1, 0⟩,
  ⟨CAN_CFG_triple, 1, 0, 1, 0⟩,
  ⟨CAN_CFG_brs_en, 1, 0, 1, 0⟩,
  ⟨CAN_CFG_fd, 1, 0, 1, 0⟩,
  ⟨CAN_NBT_sjw, 1, 0, 1, 0⟩,
  ⟨CAN_NBT_tseg1, 1, 0, 1, 0⟩,
  ⟨CAN_NBT_tseg2, 1, 0, 1, 0⟩,
  ⟨CAN_NBT_brp, 1, 0, 1, 0⟩,
  ⟨CAN_DBT_sjw, 1, 0, 1, 0⟩,
  ⟨CAN_DBT_tseg1, 1, 0, 1, 0⟩,
  ⟨CAN_DBT_tseg2, 1, 0, 1, 0⟩,
  ⟨CAN_DBT_brp, 1, 0, 1, 0⟩,
  ⟨CAN_DBT_tdc_en, 1, 0, 1, 0⟩,
  ⟨CAN_DBT_tdco, 1, 0, 1, 0⟩,
  ⟨CAN_STAT_err_state, 1, 0, 1, 0⟩,
  ⟨CAN_STAT_state, 1, 0, 1, 0⟩,
  ⟨CAN_CMD_start, 1, 0, 1, 0⟩,
  ⟨CAN_CMD_stop, 1, 0, 1, 0⟩,
  ⟨CAN_CMD_recover, 1, 0, 1, 0⟩,
  ⟨CAN_ERR_lec, 1, 0, 1, 0⟩,
  ⟨CAN_ERR_rec, 1, 0, 1, 0⟩,
  ⟨CAN_ERR_tec, 1, 0, 1, 0⟩,
  ⟨CAN_TX_PEND_pend, 1, 0, 1, 0⟩,
  ⟨CAN_TX_ABORT_abort, 1, 0, 1, 0⟩,
  ⟨CAN_TX_DONE_done, 1, 0, 1, 0⟩,
  ⟨CAN_TX_ABORTED_aborted, 1, 0, 1, 0⟩,
  ⟨CAN_TX_ERR_refused, 1, 0, 1, 0⟩]
def tableCAN1 : List Row := [
  ⟨CAN_RXQ_STAT_cnt1, 1, 0, 1, 0⟩,
  ⟨CAN_RXQ_STAT_cnt0, 1, 0, 1, 0⟩,
  ⟨CAN_RXQ_CMD_pop0, 1, 0, 1, 0⟩,
  ⟨CAN_RXQ_CMD_pop1, 1, 0, 1, 0⟩,
  ⟨CAN_RXQ0_LOST_count, 1, 0, 1, 0⟩,
  ⟨CAN_RXQ1_LOST_count, 1, 0, 1, 0⟩,
  ⟨CAN_FLT_ID_en 0, 64, 8, 1, 0⟩,
  ⟨CAN_FLT_ID_ide 0, 64, 8, 1, 0⟩,
  ⟨CAN_FLT_ID_wk 0, 64, 8, 1, 0⟩,
  ⟨CAN_FLT_ID_id 0, 64, 8, 1, 0⟩,
  ⟨CAN_FLT_MASK_dest 0, 64, 8, 1, 0⟩,
  ⟨CAN_FLT_MASK_ka 0, 64, 8, 1, 0⟩,
  ⟨CAN_FLT_MASK_mask 0, 64, 8, 1, 0⟩,
  ⟨CAN_TXBUF_data 0 0, 32, 72, 18, 4⟩,
  ⟨CAN_RXQ0_HEAD_data 0, 18, 4, 1, 0⟩,
  ⟨CAN_RXQ1_HEAD_data 0, 18, 4, 1, 0⟩]
/-- The fields of a CAN page. -/
def tableCAN : List Row := tableCAN0 ++ tableCAN1

/-! NWM_WAKE_SRC (19_can_wake.md) -/
def NWM_WAKE_SRC_valid : Fld := ⟨0x20, 31, 1, 0, .w1c⟩
def NWM_WAKE_SRC_kind : Fld := ⟨0x20, 3, 3, 0, .ro⟩
def NWM_WAKE_SRC_channel : Fld := ⟨0x20, 0, 2, 0, .ro⟩
/-! NWM_FORCED (19_can_wake.md) -/
def NWM_FORCED_count : Fld := ⟨0x24, 0, 32, 0, .rsc⟩
/-! NWM_CH_CTRL (19_can_wake.md) -/
def NWM_CH_CTRL_en (n : Nat) : Fld := ⟨0x100 + 128 * n, 31, 1, 0, .rw⟩
def NWM_CH_CTRL_awake_req (n : Nat) : Fld := ⟨0x100 + 128 * n, 30, 1, 0, .rw⟩
def NWM_CH_CTRL_wake (n : Nat) : Fld := ⟨0x100 + 128 * n, 29, 1, 0, .wo⟩
/-! NWM_CH_STAT (19_can_wake.md) -/
def NWM_CH_STAT_woken (n : Nat) : Fld := ⟨0x104 + 128 * n, 31, 1, 0, .w1c⟩
def NWM_CH_STAT_latched (n : Nat) : Fld := ⟨0x104 + 128 * n, 30, 1, 0, .ro⟩
def NWM_CH_STAT_state (n : Nat) : Fld := ⟨0x104 + 128 * n, 0, 3, 0, .ro⟩
/-! NWM_CH_TIME (19_can_wake.md) -/
def NWM_CH_TIME_rs_ms (n : Nat) : Fld := ⟨0x108 + 128 * n, 16, 16, 0x3e8, .rw⟩
def NWM_CH_TIME_ka_ms (n : Nat) : Fld := ⟨0x108 + 128 * n, 0, 16, 0xc8, .rw⟩
/-! NWM_CH_KA (19_can_wake.md) -/
def NWM_CH_KA_src_byte (n : Nat) : Fld := ⟨0x10c + 128 * n, 8, 7, 0, .rw⟩
def NWM_CH_KA_tx_buf (n : Nat) : Fld := ⟨0x10c + 128 * n, 0, 5, 0x1f, .rw⟩
/-! NWM_CH_WCFG (19_can_wake.md) -/
def NWM_CH_WCFG_mode (n : Nat) : Fld := ⟨0x110 + 128 * n, 30, 2, 0, .rw⟩
def NWM_CH_WCFG_sw_rate (n : Nat) : Fld := ⟨0x110 + 128 * n, 28, 2, 2, .rw⟩
def NWM_CH_WCFG_twake_ms (n : Nat) : Fld := ⟨0x110 + 128 * n, 8, 4, 1, .rw⟩
def NWM_CH_WCFG_filt (n : Nat) : Fld := ⟨0x110 + 128 * n, 0, 4, 2, .rw⟩
/-! NWM_CH_KEEPER (19_can_wake.md) -/
def NWM_CH_KEEPER_node (n : Nat) : Fld := ⟨0x114 + 128 * n, 24, 8, 0, .ro⟩
def NWM_CH_KEEPER_restarts (n : Nat) : Fld := ⟨0x114 + 128 * n, 16, 8, 0, .ro⟩
/-! NWM_CH_KEEPER_ID (19_can_wake.md) -/
def NWM_CH_KEEPER_ID_ide (n : Nat) : Fld := ⟨0x118 + 128 * n, 31, 1, 0, .ro⟩
def NWM_CH_KEEPER_ID_id (n : Nat) : Fld := ⟨0x118 + 128 * n, 0, 29, 0, .ro⟩
/-! NWM_CH_STUCK (19_can_wake.md) -/
def NWM_CH_STUCK_stuck_s (n : Nat) : Fld := ⟨0x11c + 128 * n, 0, 16, 0x3c, .rw⟩
/-! NWM_CH_NODES (19_can_wake.md) -/
def NWM_CH_NODES_seen (n m : Nat) : Fld := ⟨0x120 + 128 * n + 4 * m, 0, 32, 0, .ro⟩
/-! NWM_SW_ID (19_can_wake.md) -/
def NWM_SW_ID_en (n m : Nat) : Fld := ⟨0x400 + 256 * n + 16 * m, 31, 1, 0, .rw⟩
def NWM_SW_ID_ide (n m : Nat) : Fld := ⟨0x400 + 256 * n + 16 * m, 30, 1, 0, .rw⟩
def NWM_SW_ID_data_en (n m : Nat) : Fld := ⟨0x400 + 256 * n + 16 * m, 29, 1, 0, .rw⟩
def NWM_SW_ID_id (n m : Nat) : Fld := ⟨0x400 + 256 * n + 16 * m, 0, 29, 0, .rw⟩
/-! NWM_SW_MASK (19_can_wake.md) -/
def NWM_SW_MASK_mask (n m : Nat) : Fld := ⟨0x404 + 256 * n + 16 * m, 0, 29, 0, .rw⟩
/-! NWM_SW_DATA_W0 (19_can_wake.md) -/
def NWM_SW_DATA_W0_dmask (n m : Nat) : Fld := ⟨0x408 + 256 * n + 16 * m, 0, 32, 0, .rw⟩
/-! NWM_SW_DATA_W1 (19_can_wake.md) -/
def NWM_SW_DATA_W1_dmask (n m : Nat) : Fld := ⟨0x40c + 256 * n + 16 * m, 0, 32, 0, .rw⟩
/-! NWM_SW_DLC (19_can_wake.md) -/
def NWM_SW_DLC_dlc (n i : Nat) : Fld := ⟨0x480 + 256 * n, 4 * i, 4, 0, .rw⟩
/-! NWM_SW_ERRCNT (19_can_wake.md) -/
def NWM_SW_ERRCNT_count (n : Nat) : Fld := ⟨0x484 + 256 * n, 0, 6, 0, .ro⟩

def tableNWM0 : List Row := [
  ⟨NWM_WAKE_SRC_valid, 1, 0, 1, 0⟩,
  ⟨NWM_WAKE_SRC_kind, 1, 0, 1, 0⟩,
  ⟨NWM_WAKE_SRC_channel, 1, 0, 1, 0⟩,
  ⟨NWM_FORCED_count, 1, 0, 1, 0⟩,
  ⟨NWM_CH_CTRL_en 0, 4, 128, 1, 0⟩,
  ⟨NWM_CH_CTRL_awake_req 0, 4, 128, 1, 0⟩,
  ⟨NWM_CH_CTRL_wake 0, 4, 128, 1, 0⟩,
  ⟨NWM_CH_STAT_woken 0, 4, 128, 1, 0⟩,
  ⟨NWM_CH_STAT_latched 0, 4, 128, 1, 0⟩,
  ⟨NWM_CH_STAT_state 0, 4, 128, 1, 0⟩,
  ⟨NWM_CH_TIME_rs_ms 0, 4, 128, 1, 0⟩,
  ⟨NWM_CH_TIME_ka_ms 0, 4, 128, 1, 0⟩,
  ⟨NWM_CH_KA_src_byte 0, 4, 128, 1, 0⟩,
  ⟨NWM_CH_KA_tx_buf 0, 4, 128, 1, 0⟩,
  ⟨NWM_CH_WCFG_mode 0, 4, 128, 1, 0⟩,
  ⟨NWM_CH_WCFG_sw_rate 0, 4, 128, 1, 0⟩,
  ⟨NWM_CH_WCFG_twake_ms 0, 4, 128, 1, 0⟩,
  ⟨NWM_CH_WCFG_filt 0, 4, 128, 1, 0⟩,
  ⟨NWM_CH_KEEPER_node 0, 4, 128, 1, 0⟩,
  ⟨NWM_CH_KEEPER_restarts 0, 4, 128, 1, 0⟩,
  ⟨NWM_CH_KEEPER_ID_ide 0, 4, 128, 1, 0⟩,
  ⟨NWM_CH_KEEPER_ID_id 0, 4, 128, 1, 0⟩,
  ⟨NWM_CH_STUCK_stuck_s 0, 4, 128, 1, 0⟩,
  ⟨NWM_CH_NODES_seen 0 0, 4, 128, 8, 4⟩,
  ⟨NWM_SW_ID_en 0 0, 2, 256, 4, 16⟩,
  ⟨NWM_SW_ID_ide 0 0, 2, 256, 4, 16⟩,
  ⟨NWM_SW_ID_data_en 0 0, 2, 256, 4, 16⟩,
  ⟨NWM_SW_ID_id 0 0, 2, 256, 4, 16⟩,
  ⟨NWM_SW_MASK_mask 0 0, 2, 256, 4, 16⟩,
  ⟨NWM_SW_DATA_W0_dmask 0 0, 2, 256, 4, 16⟩]
def tableNWM1 : List Row := [
  ⟨NWM_SW_DATA_W1_dmask 0 0, 2, 256, 4, 16⟩,
  ⟨NWM_SW_DLC_dlc 0 0, 2, 256, 1, 0⟩,
  ⟨NWM_SW_DLC_dlc 0 1, 2, 256, 1, 0⟩,
  ⟨NWM_SW_DLC_dlc 0 2, 2, 256, 1, 0⟩,
  ⟨NWM_SW_DLC_dlc 0 3, 2, 256, 1, 0⟩,
  ⟨NWM_SW_ERRCNT_count 0, 2, 256, 1, 0⟩]
/-- The fields of a NWM page. -/
def tableNWM : List Row := tableNWM0 ++ tableNWM1

end Sys2Proof.Machine.R
end

