-- ==== Sys2Proof/Machine/RegsSecurity.lean ====
section
/-! DEFINITION. Register fields of the pages KEY, CRY, TMP, SEC, MBX, DBG: offset, lowest bit, width, reset value and access code of
every field, written from the register tables of the spec (offsets: 24_register_index.md, R478). A `W36` pair and a `W72` triple are
one field of width 36 or 72 at the offset of its `_LO`. The list of a page ends each block. -/
namespace Sys2Proof.Machine.R

/-! KEY_STATE (12_keys_tamper.md) -/
def KEY_STATE_slot : Fld := ⟨0x20, 24, 6, 0, .ro⟩
def KEY_STATE_busy : Fld := ⟨0x20, 16, 1, 0, .ro⟩
def KEY_STATE_result : Fld := ⟨0x20, 8, 8, 0, .ro⟩
def KEY_STATE_state : Fld := ⟨0x20, 0, 2, 0, .ro⟩
/-! KEY_SEL (12_keys_tamper.md) -/
def KEY_SEL_slot : Fld := ⟨0x24, 0, 6, 0, .rw⟩
/-! KEY_ATTR (12_keys_tamper.md) -/
def KEY_ATTR_valid : Fld := ⟨0x28, 31, 1, 0, .ro⟩
def KEY_ATTR_lock : Fld := ⟨0x28, 30, 1, 0, .ro⟩
def KEY_ATTR_type : Fld := ⟨0x28, 28, 2, 0, .ro⟩
def KEY_ATTR_parent : Fld := ⟨0x28, 22, 6, 0, .ro⟩
def KEY_ATTR_bind_meas : Fld := ⟨0x28, 21, 1, 0, .ro⟩
def KEY_ATTR_cocoon : Fld := ⟨0x28, 17, 4, 0, .ro⟩
def KEY_ATTR_owner_coc : Fld := ⟨0x28, 16, 1, 0, .ro⟩
def KEY_ATTR_derive : Fld := ⟨0x28, 7, 1, 0, .ro⟩
def KEY_ATTR_hmac : Fld := ⟨0x28, 6, 1, 0, .ro⟩
def KEY_ATTR_sign : Fld := ⟨0x28, 5, 1, 0, .ro⟩
def KEY_ATTR_pub : Fld := ⟨0x28, 4, 1, 0, .ro⟩
def KEY_ATTR_grd : Fld := ⟨0x28, 3, 1, 0, .ro⟩
def KEY_ATTR_chr : Fld := ⟨0x28, 2, 1, 0, .ro⟩
def KEY_ATTR_cores : Fld := ⟨0x28, 1, 1, 0, .ro⟩
/-! KEY_NEW_ATTR (12_keys_tamper.md) -/
def KEY_NEW_ATTR_attr : Fld := ⟨0x2c, 0, 32, 0, .rw⟩
/-! KEY_CMD (12_keys_tamper.md) -/
def KEY_CMD_derive : Fld := ⟨0x30, 31, 1, 0, .wo⟩
def KEY_CMD_inval : Fld := ⟨0x30, 30, 1, 0, .wo⟩
def KEY_CMD_parent : Fld := ⟨0x30, 16, 6, 0, .wo⟩
def KEY_CMD_slot : Fld := ⟨0x30, 0, 6, 0, .wo⟩
/-! KEY_ZERO (12_keys_tamper.md) -/
def KEY_ZERO_key : Fld := ⟨0x34, 16, 16, 0, .wo⟩
def KEY_ZERO_go : Fld := ⟨0x34, 0, 1, 0, .wo⟩
/-! KEY_INFO_LEN (12_keys_tamper.md) -/
def KEY_INFO_LEN_len : Fld := ⟨0x38, 0, 7, 0, .rw⟩
/-! KEY_INFO (12_keys_tamper.md) -/
def KEY_INFO_info (n : Nat) : Fld := ⟨0x40 + 4 * n, 0, 32, 0, .rw⟩
/-! KEY_BB_OFF (12_keys_tamper.md) -/
def KEY_BB_OFF_off : Fld := ⟨0x80, 0, 8, 0x40, .rw⟩
/-! KEY_BB_DATA (12_keys_tamper.md) -/
def KEY_BB_DATA_data : Fld := ⟨0x84, 0, 32, 0, .rw⟩
/-! KEY_VALID_W0 (12_keys_tamper.md) -/
def KEY_VALID_W0_valid : Fld := ⟨0x88, 0, 32, 0, .ro⟩
/-! KEY_VALID_W1 (12_keys_tamper.md) -/
def KEY_VALID_W1_valid : Fld := ⟨0x8c, 0, 32, 0, .ro⟩

def tableKEY0 : List Row := [
  ⟨KEY_STATE_slot, 1, 0, 1, 0⟩,
  ⟨KEY_STATE_busy, 1, 0, 1, 0⟩,
  ⟨KEY_STATE_result, 1, 0, 1, 0⟩,
  ⟨KEY_STATE_state, 1, 0, 1, 0⟩,
  ⟨KEY_SEL_slot, 1, 0, 1, 0⟩,
  ⟨KEY_ATTR_valid, 1, 0, 1, 0⟩,
  ⟨KEY_ATTR_lock, 1, 0, 1, 0⟩,
  ⟨KEY_ATTR_type, 1, 0, 1, 0⟩,
  ⟨KEY_ATTR_parent, 1, 0, 1, 0⟩,
  ⟨KEY_ATTR_bind_meas, 1, 0, 1, 0⟩,
  ⟨KEY_ATTR_cocoon, 1, 0, 1, 0⟩,
  ⟨KEY_ATTR_owner_coc, 1, 0, 1, 0⟩,
  ⟨KEY_ATTR_derive, 1, 0, 1, 0⟩,
  ⟨KEY_ATTR_hmac, 1, 0, 1, 0⟩,
  ⟨KEY_ATTR_sign, 1, 0, 1, 0⟩,
  ⟨KEY_ATTR_pub, 1, 0, 1, 0⟩,
  ⟨KEY_ATTR_grd, 1, 0, 1, 0⟩,
  ⟨KEY_ATTR_chr, 1, 0, 1, 0⟩,
  ⟨KEY_ATTR_cores, 1, 0, 1, 0⟩,
  ⟨KEY_NEW_ATTR_attr, 1, 0, 1, 0⟩,
  ⟨KEY_CMD_derive, 1, 0, 1, 0⟩,
  ⟨KEY_CMD_inval, 1, 0, 1, 0⟩,
  ⟨KEY_CMD_parent, 1, 0, 1, 0⟩,
  ⟨KEY_CMD_slot, 1, 0, 1, 0⟩,
  ⟨KEY_ZERO_key, 1, 0, 1, 0⟩,
  ⟨KEY_ZERO_go, 1, 0, 1, 0⟩,
  ⟨KEY_INFO_LEN_len, 1, 0, 1, 0⟩,
  ⟨KEY_INFO_info 0, 16, 4, 1, 0⟩,
  ⟨KEY_BB_OFF_off, 1, 0, 1, 0⟩,
  ⟨KEY_BB_DATA_data, 1, 0, 1, 0⟩]
def tableKEY1 : List Row := [
  ⟨KEY_VALID_W0_valid, 1, 0, 1, 0⟩,
  ⟨KEY_VALID_W1_valid, 1, 0, 1, 0⟩]
/-- The fields of a KEY page. -/
def tableKEY : List Row := tableKEY0 ++ tableKEY1

/-! CRY_OP (12_keys_tamper.md) -/
def CRY_OP_go : Fld := ⟨0x20, 31, 1, 0, .wo⟩
def CRY_OP_cocoon : Fld := ⟨0x20, 24, 4, 0, .rw⟩
def CRY_OP_coc_job : Fld := ⟨0x20, 23, 1, 0, .rw⟩
def CRY_OP_slot : Fld := ⟨0x20, 16, 6, 0, .rw⟩
def CRY_OP_op : Fld := ⟨0x20, 0, 8, 0, .rw⟩
/-! CRY_SRC_W0 (12_keys_tamper.md) -/
def CRY_SRC_W0_addr : Fld := ⟨0x24, 0, 32, 0, .rw⟩
/-! CRY_SRC_W1 (12_keys_tamper.md) -/
def CRY_SRC_W1_addr : Fld := ⟨0x28, 0, 8, 0, .rw⟩
/-! CRY_LEN (12_keys_tamper.md) -/
def CRY_LEN_len : Fld := ⟨0x2c, 0, 32, 0, .rw⟩
/-! CRY_DST_W0 (12_keys_tamper.md) -/
def CRY_DST_W0_addr : Fld := ⟨0x30, 0, 32, 0, .rw⟩
/-! CRY_DST_W1 (12_keys_tamper.md) -/
def CRY_DST_W1_addr : Fld := ⟨0x34, 0, 8, 0, .rw⟩
/-! CRY_STAT (12_keys_tamper.md) -/
def CRY_STAT_busy : Fld := ⟨0x38, 31, 1, 0, .ro⟩
def CRY_STAT_status : Fld := ⟨0x38, 0, 8, 0, .ro⟩
/-! CRY_IN (12_keys_tamper.md) -/
def CRY_IN_data (n : Nat) : Fld := ⟨0x100 + 4 * n, 0, 32, 0, .rw⟩
/-! CRY_OUT (12_keys_tamper.md) -/
def CRY_OUT_data (n : Nat) : Fld := ⟨0x200 + 4 * n, 0, 32, 0, .ro⟩

def tableCRY0 : List Row := [
  ⟨CRY_OP_go, 1, 0, 1, 0⟩,
  ⟨CRY_OP_cocoon, 1, 0, 1, 0⟩,
  ⟨CRY_OP_coc_job, 1, 0, 1, 0⟩,
  ⟨CRY_OP_slot, 1, 0, 1, 0⟩,
  ⟨CRY_OP_op, 1, 0, 1, 0⟩,
  ⟨CRY_SRC_W0_addr, 1, 0, 1, 0⟩,
  ⟨CRY_SRC_W1_addr, 1, 0, 1, 0⟩,
  ⟨CRY_LEN_len, 1, 0, 1, 0⟩,
  ⟨CRY_DST_W0_addr, 1, 0, 1, 0⟩,
  ⟨CRY_DST_W1_addr, 1, 0, 1, 0⟩,
  ⟨CRY_STAT_busy, 1, 0, 1, 0⟩,
  ⟨CRY_STAT_status, 1, 0, 1, 0⟩,
  ⟨CRY_IN_data 0, 32, 4, 1, 0⟩,
  ⟨CRY_OUT_data 0, 16, 4, 1, 0⟩]
/-- The fields of a CRY page. -/
def tableCRY : List Row := tableCRY0

/-! TMP_CFG (12_keys_tamper.md) -/
def TMP_CFG_lock : Fld := ⟨0x20, 31, 1, 0, .w1s⟩
def TMP_CFG_reset_on_tamper : Fld := ⟨0x20, 8, 1, 0, .rw⟩
def TMP_CFG_clock_en : Fld := ⟨0x20, 1, 1, 0, .rw⟩
def TMP_CFG_glitch_en : Fld := ⟨0x20, 0, 1, 0, .rw⟩
/-! TMP_PIN (12_keys_tamper.md) -/
def TMP_PIN_filter (n : Nat) : Fld := ⟨0x24 + 4 * n, 4, 4, 2, .rw⟩
def TMP_PIN_mode (n : Nat) : Fld := ⟨0x24 + 4 * n, 0, 2, 0, .rw⟩
/-! TMP_STAT (12_keys_tamper.md) -/
def TMP_STAT_tampered : Fld := ⟨0x34, 31, 1, 0, .ro⟩
def TMP_STAT_cause : Fld := ⟨0x34, 0, 9, 0, .ro⟩
/-! TMP_LIVE (12_keys_tamper.md) -/
def TMP_LIVE_cause : Fld := ⟨0x38, 0, 9, 0, .ro⟩
/-! TMP_TIME_W0 (12_keys_tamper.md) -/
def TMP_TIME_W0_s : Fld := ⟨0x3c, 0, 32, 0, .ro⟩
/-! TMP_TIME_W1 (12_keys_tamper.md) -/
def TMP_TIME_W1_valid : Fld := ⟨0x40, 8, 1, 0, .ro⟩
def TMP_TIME_W1_frac : Fld := ⟨0x40, 0, 8, 0, .ro⟩

def tableTMP0 : List Row := [
  ⟨TMP_CFG_lock, 1, 0, 1, 0⟩,
  ⟨TMP_CFG_reset_on_tamper, 1, 0, 1, 0⟩,
  ⟨TMP_CFG_clock_en, 1, 0, 1, 0⟩,
  ⟨TMP_CFG_glitch_en, 1, 0, 1, 0⟩,
  ⟨TMP_PIN_filter 0, 4, 4, 1, 0⟩,
  ⟨TMP_PIN_mode 0, 4, 4, 1, 0⟩,
  ⟨TMP_STAT_tampered, 1, 0, 1, 0⟩,
  ⟨TMP_STAT_cause, 1, 0, 1, 0⟩,
  ⟨TMP_LIVE_cause, 1, 0, 1, 0⟩,
  ⟨TMP_TIME_W0_s, 1, 0, 1, 0⟩,
  ⟨TMP_TIME_W1_valid, 1, 0, 1, 0⟩,
  ⟨TMP_TIME_W1_frac, 1, 0, 1, 0⟩]
/-- The fields of a TMP page. -/
def tableTMP : List Row := tableTMP0

/-! SEC_WM_EMRAM (11_processors_worlds.md) -/
def SEC_WM_EMRAM_lock : Fld := ⟨0x20, 31, 1, 0, .w1s⟩
def SEC_WM_EMRAM_units : Fld := ⟨0x20, 0, 22, 0x800, .rw⟩
/-! SEC_WM_SRAM (11_processors_worlds.md) -/
def SEC_WM_SRAM_lock : Fld := ⟨0x24, 31, 1, 0, .w1s⟩
def SEC_WM_SRAM_units : Fld := ⟨0x24, 0, 22, 0x400, .rw⟩
/-! SEC_WM_STEP (11_processors_worlds.md) -/
def SEC_WM_STEP_lock : Fld := ⟨0x28, 31, 1, 0, .w1s⟩
def SEC_WM_STEP_units : Fld := ⟨0x28, 0, 22, 0x4000, .rw⟩
/-! SEC_WM_DRAM (11_processors_worlds.md) -/
def SEC_WM_DRAM_lock : Fld := ⟨0x2c, 31, 1, 0, .w1s⟩
def SEC_WM_DRAM_units : Fld := ⟨0x2c, 0, 22, 0x200000, .rw⟩
/-! SEC_L2_PART (11_processors_worlds.md) -/
def SEC_L2_PART_secure : Fld := ⟨0x30, 16, 16, 0xf000, .rw⟩
def SEC_L2_PART_normal : Fld := ⟨0x30, 0, 16, 0xfff, .rw⟩
/-! SEC_L2_COC (11_processors_worlds.md) -/
def SEC_L2_COC_cocoon : Fld := ⟨0x34, 0, 16, 0, .rw⟩
/-! SEC_L2_CMD (11_processors_worlds.md) -/
def SEC_L2_CMD_clean : Fld := ⟨0x38, 31, 1, 0, .wo⟩
def SEC_L2_CMD_mask : Fld := ⟨0x38, 0, 16, 0, .wo⟩
/-! SEC_CORE_CFG (11_processors_worlds.md) -/
def SEC_CORE_CFG_flush_in : Fld := ⟨0x3c, 0, 1, 0, .rw⟩
/-! SEC_CORE_RUN (11_processors_worlds.md) -/
def SEC_CORE_RUN_run : Fld := ⟨0x40, 1, 3, 0, .w1s⟩
def SEC_CORE_RUN_run0 : Fld := ⟨0x40, 0, 1, 1, .ro⟩
/-! SEC_CORE_BOOT_W0 (11_processors_worlds.md) -/
def SEC_CORE_BOOT_W0_addr : Fld := ⟨0x44, 0, 32, 0, .rw⟩
/-! SEC_CORE_BOOT_W1 (11_processors_worlds.md) -/
def SEC_CORE_BOOT_W1_addr : Fld := ⟨0x48, 0, 8, 0, .rw⟩
/-! SEC_HO_PAGE (11_processors_worlds.md) -/
def SEC_HO_PAGE_page : Fld := ⟨0x60, 0, 10, 0, .rw⟩
/-! SEC_HO_TO (11_processors_worlds.md) -/
def SEC_HO_TO_target : Fld := ⟨0x64, 0, 32, 1, .rw⟩
/-! SEC_HO_CMD (11_processors_worlds.md) -/
def SEC_HO_CMD_offer : Fld := ⟨0x68, 31, 1, 0, .wo⟩
def SEC_HO_CMD_withdraw : Fld := ⟨0x68, 30, 1, 0, .wo⟩
def SEC_HO_CMD_commit : Fld := ⟨0x68, 29, 1, 0, .wo⟩
def SEC_HO_CMD_reclaim : Fld := ⟨0x68, 28, 1, 0, .wo⟩
/-! SEC_HO_STAT (11_processors_worlds.md) -/
def SEC_HO_STAT_draining : Fld := ⟨0x6c, 31, 1, 0, .ro⟩
def SEC_HO_STAT_page : Fld := ⟨0x6c, 16, 10, 0, .ro⟩
def SEC_HO_STAT_result : Fld := ⟨0x6c, 0, 4, 0, .ro⟩
/-! SEC_COC_SEL (11_processors_worlds.md) -/
def SEC_COC_SEL_cocoon : Fld := ⟨0x80, 0, 4, 0, .rw⟩
/-! SEC_COC_CMD (11_processors_worlds.md) -/
def SEC_COC_CMD_create : Fld := ⟨0x84, 31, 1, 0, .wo⟩
def SEC_COC_CMD_seal : Fld := ⟨0x84, 30, 1, 0, .wo⟩
def SEC_COC_CMD_destroy : Fld := ⟨0x84, 29, 1, 0, .wo⟩
/-! SEC_COC_STAT (11_processors_worlds.md) -/
def SEC_COC_STAT_busy : Fld := ⟨0x88, 31, 1, 0, .ro⟩
def SEC_COC_STAT_inside : Fld := ⟨0x88, 16, 4, 0, .ro⟩
def SEC_COC_STAT_result : Fld := ⟨0x88, 4, 4, 0, .ro⟩
def SEC_COC_STAT_state : Fld := ⟨0x88, 0, 2, 0, .ro⟩
/-! SEC_COC_CFG (11_processors_worlds.md) -/
def SEC_COC_CFG_debug : Fld := ⟨0x8c, 0, 1, 0, .rw⟩
/-! SEC_COC_BASE (11_processors_worlds.md) -/
def SEC_COC_BASE_page (n : Nat) : Fld := ⟨0x90 + 8 * n, 0, 28, 0, .rw⟩
/-! SEC_COC_LIM (11_processors_worlds.md) -/
def SEC_COC_LIM_en (n : Nat) : Fld := ⟨0x94 + 8 * n, 31, 1, 0, .rw⟩
def SEC_COC_LIM_page (n : Nat) : Fld := ⟨0x94 + 8 * n, 0, 28, 0, .rw⟩
/-! SEC_COC_MEAS (11_processors_worlds.md) -/
def SEC_COC_MEAS_meas (n : Nat) : Fld := ⟨0xc0 + 4 * n, 0, 32, 0, .ro⟩
/-! SEC_IRQ_ROUTE (11_processors_worlds.md) -/
def SEC_IRQ_ROUTE_hart (n i : Nat) : Fld := ⟨0x100 + 4 * n, 2 * i, 2, 0, .rw⟩

def tableSEC0 : List Row := [
  ⟨SEC_WM_EMRAM_lock, 1, 0, 1, 0⟩,
  ⟨SEC_WM_EMRAM_units, 1, 0, 1, 0⟩,
  ⟨SEC_WM_SRAM_lock, 1, 0, 1, 0⟩,
  ⟨SEC_WM_SRAM_units, 1, 0, 1, 0⟩,
  ⟨SEC_WM_STEP_lock, 1, 0, 1, 0⟩,
  ⟨SEC_WM_STEP_units, 1, 0, 1, 0⟩,
  ⟨SEC_WM_DRAM_lock, 1, 0, 1, 0⟩,
  ⟨SEC_WM_DRAM_units, 1, 0, 1, 0⟩,
  ⟨SEC_L2_PART_secure, 1, 0, 1, 0⟩,
  ⟨SEC_L2_PART_normal, 1, 0, 1, 0⟩,
  ⟨SEC_L2_COC_cocoon, 1, 0, 1, 0⟩,
  ⟨SEC_L2_CMD_clean, 1, 0, 1, 0⟩,
  ⟨SEC_L2_CMD_mask, 1, 0, 1, 0⟩,
  ⟨SEC_CORE_CFG_flush_in, 1, 0, 1, 0⟩,
  ⟨SEC_CORE_RUN_run, 1, 0, 1, 0⟩,
  ⟨SEC_CORE_RUN_run0, 1, 0, 1, 0⟩,
  ⟨SEC_CORE_BOOT_W0_addr, 1, 0, 1, 0⟩,
  ⟨SEC_CORE_BOOT_W1_addr, 1, 0, 1, 0⟩,
  ⟨SEC_HO_PAGE_page, 1, 0, 1, 0⟩,
  ⟨SEC_HO_TO_target, 1, 0, 1, 0⟩,
  ⟨SEC_HO_CMD_offer, 1, 0, 1, 0⟩,
  ⟨SEC_HO_CMD_withdraw, 1, 0, 1, 0⟩,
  ⟨SEC_HO_CMD_commit, 1, 0, 1, 0⟩,
  ⟨SEC_HO_CMD_reclaim, 1, 0, 1, 0⟩,
  ⟨SEC_HO_STAT_draining, 1, 0, 1, 0⟩,
  ⟨SEC_HO_STAT_page, 1, 0, 1, 0⟩,
  ⟨SEC_HO_STAT_result, 1, 0, 1, 0⟩,
  ⟨SEC_COC_SEL_cocoon, 1, 0, 1, 0⟩,
  ⟨SEC_COC_CMD_create, 1, 0, 1, 0⟩,
  ⟨SEC_COC_CMD_seal, 1, 0, 1, 0⟩]
def tableSEC1 : List Row := [
  ⟨SEC_COC_CMD_destroy, 1, 0, 1, 0⟩,
  ⟨SEC_COC_STAT_busy, 1, 0, 1, 0⟩,
  ⟨SEC_COC_STAT_inside, 1, 0, 1, 0⟩,
  ⟨SEC_COC_STAT_result, 1, 0, 1, 0⟩,
  ⟨SEC_COC_STAT_state, 1, 0, 1, 0⟩,
  ⟨SEC_COC_CFG_debug, 1, 0, 1, 0⟩,
  ⟨SEC_COC_BASE_page 0, 4, 8, 1, 0⟩,
  ⟨SEC_COC_LIM_en 0, 4, 8, 1, 0⟩,
  ⟨SEC_COC_LIM_page 0, 4, 8, 1, 0⟩,
  ⟨SEC_COC_MEAS_meas 0, 8, 4, 1, 0⟩,
  ⟨SEC_IRQ_ROUTE_hart 0 0, 49, 4, 1, 0⟩,
  ⟨SEC_IRQ_ROUTE_hart 0 1, 49, 4, 1, 0⟩,
  ⟨SEC_IRQ_ROUTE_hart 0 2, 49, 4, 1, 0⟩,
  ⟨SEC_IRQ_ROUTE_hart 0 3, 49, 4, 1, 0⟩,
  ⟨SEC_IRQ_ROUTE_hart 0 4, 49, 4, 1, 0⟩,
  ⟨SEC_IRQ_ROUTE_hart 0 5, 49, 4, 1, 0⟩,
  ⟨SEC_IRQ_ROUTE_hart 0 6, 49, 4, 1, 0⟩,
  ⟨SEC_IRQ_ROUTE_hart 0 7, 49, 4, 1, 0⟩,
  ⟨SEC_IRQ_ROUTE_hart 0 8, 49, 4, 1, 0⟩,
  ⟨SEC_IRQ_ROUTE_hart 0 9, 49, 4, 1, 0⟩,
  ⟨SEC_IRQ_ROUTE_hart 0 10, 49, 4, 1, 0⟩,
  ⟨SEC_IRQ_ROUTE_hart 0 11, 49, 4, 1, 0⟩,
  ⟨SEC_IRQ_ROUTE_hart 0 12, 49, 4, 1, 0⟩,
  ⟨SEC_IRQ_ROUTE_hart 0 13, 49, 4, 1, 0⟩,
  ⟨SEC_IRQ_ROUTE_hart 0 14, 49, 4, 1, 0⟩,
  ⟨SEC_IRQ_ROUTE_hart 0 15, 49, 4, 1, 0⟩]
/-- The fields of a SEC page. -/
def tableSEC : List Row := tableSEC0 ++ tableSEC1

/-! MBX_POST (11_processors_worlds.md) -/
def MBX_POST_slot : Fld := ⟨0x20, 0, 16, 0, .w1s⟩
/-! MBX_TAKE (11_processors_worlds.md) -/
def MBX_TAKE_slot : Fld := ⟨0x24, 0, 16, 0, .w1s⟩
/-! MBX_DONE (11_processors_worlds.md) -/
def MBX_DONE_slot : Fld := ⟨0x28, 0, 16, 0, .w1s⟩
/-! MBX_FREE (11_processors_worlds.md) -/
def MBX_FREE_slot : Fld := ⟨0x2c, 0, 16, 0, .w1s⟩
/-! MBX_CANCEL (11_processors_worlds.md) -/
def MBX_CANCEL_slot : Fld := ⟨0x30, 0, 16, 0, .w1s⟩
/-! MBX_STATE (11_processors_worlds.md) -/
def MBX_STATE_state (i : Nat) : Fld := ⟨0x34, 2 * i, 2, 0, .ro⟩
/-! MBX_CFG (11_processors_worlds.md) -/
def MBX_CFG_tmo_ms : Fld := ⟨0x38, 0, 16, 0x3e8, .rw⟩
/-! MBX_ERR (11_processors_worlds.md) -/
def MBX_ERR_count : Fld := ⟨0x3c, 0, 32, 0, .rsc⟩
/-! MBX_CH_WIN (11_processors_worlds.md) -/
def MBX_CH_WIN_idx : Fld := ⟨0x40, 0, 3, 0, .rw⟩

def tableMBX0 : List Row := [
  ⟨MBX_POST_slot, 1, 0, 1, 0⟩,
  ⟨MBX_TAKE_slot, 1, 0, 1, 0⟩,
  ⟨MBX_DONE_slot, 1, 0, 1, 0⟩,
  ⟨MBX_FREE_slot, 1, 0, 1, 0⟩,
  ⟨MBX_CANCEL_slot, 1, 0, 1, 0⟩,
  ⟨MBX_STATE_state 0, 1, 0, 1, 0⟩,
  ⟨MBX_STATE_state 1, 1, 0, 1, 0⟩,
  ⟨MBX_STATE_state 2, 1, 0, 1, 0⟩,
  ⟨MBX_STATE_state 3, 1, 0, 1, 0⟩,
  ⟨MBX_STATE_state 4, 1, 0, 1, 0⟩,
  ⟨MBX_STATE_state 5, 1, 0, 1, 0⟩,
  ⟨MBX_STATE_state 6, 1, 0, 1, 0⟩,
  ⟨MBX_STATE_state 7, 1, 0, 1, 0⟩,
  ⟨MBX_STATE_state 8, 1, 0, 1, 0⟩,
  ⟨MBX_STATE_state 9, 1, 0, 1, 0⟩,
  ⟨MBX_STATE_state 10, 1, 0, 1, 0⟩,
  ⟨MBX_STATE_state 11, 1, 0, 1, 0⟩,
  ⟨MBX_STATE_state 12, 1, 0, 1, 0⟩,
  ⟨MBX_STATE_state 13, 1, 0, 1, 0⟩,
  ⟨MBX_STATE_state 14, 1, 0, 1, 0⟩,
  ⟨MBX_STATE_state 15, 1, 0, 1, 0⟩,
  ⟨MBX_CFG_tmo_ms, 1, 0, 1, 0⟩,
  ⟨MBX_ERR_count, 1, 0, 1, 0⟩,
  ⟨MBX_CH_WIN_idx, 1, 0, 1, 0⟩]
/-- The fields of a MBX page. -/
def tableMBX : List Row := tableMBX0

/-! DBG_EN (11_processors_worlds.md) -/
def DBG_EN_sba_sec : Fld := ⟨0x20, 8, 1, 0, .rw⟩
def DBG_EN_coc_ninv : Fld := ⟨0x20, 7, 1, 0, .rw⟩
def DBG_EN_coc_inv : Fld := ⟨0x20, 6, 1, 0, .rw⟩
def DBG_EN_ch_ninv : Fld := ⟨0x20, 5, 1, 0, .rw⟩
def DBG_EN_ch_inv : Fld := ⟨0x20, 4, 1, 0, .rw⟩
def DBG_EN_s_ninv : Fld := ⟨0x20, 3, 1, 0, .rw⟩
def DBG_EN_s_inv : Fld := ⟨0x20, 2, 1, 0, .rw⟩
def DBG_EN_n_ninv : Fld := ⟨0x20, 1, 1, 0, .rw⟩
def DBG_EN_n_inv : Fld := ⟨0x20, 0, 1, 0, .rw⟩
/-! DBG_STAT (11_processors_worlds.md) -/
def DBG_STAT_halted : Fld := ⟨0x24, 4, 4, 0, .ro⟩
def DBG_STAT_halt_blocked : Fld := ⟨0x24, 1, 1, 0, .ro⟩
def DBG_STAT_probe : Fld := ⟨0x24, 0, 1, 0, .ro⟩

def tableDBG0 : List Row := [
  ⟨DBG_EN_sba_sec, 1, 0, 1, 0⟩,
  ⟨DBG_EN_coc_ninv, 1, 0, 1, 0⟩,
  ⟨DBG_EN_coc_inv, 1, 0, 1, 0⟩,
  ⟨DBG_EN_ch_ninv, 1, 0, 1, 0⟩,
  ⟨DBG_EN_ch_inv, 1, 0, 1, 0⟩,
  ⟨DBG_EN_s_ninv, 1, 0, 1, 0⟩,
  ⟨DBG_EN_s_inv, 1, 0, 1, 0⟩,
  ⟨DBG_EN_n_ninv, 1, 0, 1, 0⟩,
  ⟨DBG_EN_n_inv, 1, 0, 1, 0⟩,
  ⟨DBG_STAT_halted, 1, 0, 1, 0⟩,
  ⟨DBG_STAT_halt_blocked, 1, 0, 1, 0⟩,
  ⟨DBG_STAT_probe, 1, 0, 1, 0⟩]
/-- The fields of a DBG page. -/
def tableDBG : List Row := tableDBG0

end Sys2Proof.Machine.R
end

