-- ==== Sys2Proof/Machine/RegsSystem.lean ====
section
/-! DEFINITION. Register fields of the pages SYS, PWR, CLK, RST, EVR, UPD, IDM: offset, lowest bit, width, reset value and access code of
every field, written from the register tables of the spec (offsets: 24_register_index.md, R478). A `W36` pair and a `W72` triple are
one field of width 36 or 72 at the offset of its `_LO`. The list of a page ends each block. -/
namespace Sys2Proof.Machine.R

/-! SYS_ACC_ERR_COUNT (24_register_index.md) -/
def SYS_ACC_ERR_COUNT_count : Fld := ⟨0x20, 0, 32, 0, .rsc⟩
/-! SYS_ACC_ERR_ADDR_W0 (24_register_index.md) -/
def SYS_ACC_ERR_ADDR_W0_addr : Fld := ⟨0x24, 0, 32, 0, .ro⟩
/-! SYS_ACC_ERR_ADDR_W1 (24_register_index.md) -/
def SYS_ACC_ERR_ADDR_W1_addr : Fld := ⟨0x28, 0, 8, 0, .ro⟩
/-! SYS_ACC_ERR_INFO (24_register_index.md) -/
def SYS_ACC_ERR_INFO_function : Fld := ⟨0x2c, 16, 9, 0, .ro⟩
def SYS_ACC_ERR_INFO_world : Fld := ⟨0x2c, 12, 2, 0, .ro⟩
def SYS_ACC_ERR_INFO_cocoon : Fld := ⟨0x2c, 8, 4, 0, .ro⟩
def SYS_ACC_ERR_INFO_write : Fld := ⟨0x2c, 4, 1, 0, .ro⟩
def SYS_ACC_ERR_INFO_cause : Fld := ⟨0x2c, 0, 4, 0, .ro⟩
/-! SYS_UID (24_register_index.md) -/
def SYS_UID_uid (n : Nat) : Fld := ⟨0x40 + 4 * n, 0, 32, 0, .ro⟩
/-! SYS_DRAM_STAT (24_register_index.md) -/
def SYS_DRAM_STAT_train_fail : Fld := ⟨0x50, 1, 1, 0, .ro⟩
def SYS_DRAM_STAT_ready : Fld := ⟨0x50, 0, 1, 0, .ro⟩

def tableSYS0 : List Row := [
  ⟨SYS_ACC_ERR_COUNT_count, 1, 0, 1, 0⟩,
  ⟨SYS_ACC_ERR_ADDR_W0_addr, 1, 0, 1, 0⟩,
  ⟨SYS_ACC_ERR_ADDR_W1_addr, 1, 0, 1, 0⟩,
  ⟨SYS_ACC_ERR_INFO_function, 1, 0, 1, 0⟩,
  ⟨SYS_ACC_ERR_INFO_world, 1, 0, 1, 0⟩,
  ⟨SYS_ACC_ERR_INFO_cocoon, 1, 0, 1, 0⟩,
  ⟨SYS_ACC_ERR_INFO_write, 1, 0, 1, 0⟩,
  ⟨SYS_ACC_ERR_INFO_cause, 1, 0, 1, 0⟩,
  ⟨SYS_UID_uid 0, 4, 4, 1, 0⟩,
  ⟨SYS_DRAM_STAT_train_fail, 1, 0, 1, 0⟩,
  ⟨SYS_DRAM_STAT_ready, 1, 0, 1, 0⟩]
/-- The fields of a SYS page. -/
def tableSYS : List Row := tableSYS0

/-! PWR_SLACK (02_timing_power_startup.md) -/
def PWR_SLACK_min_rst (n : Nat) : Fld := ⟨0x100 + 4 * n, 31, 1, 0, .wo⟩
def PWR_SLACK_late_prev (n : Nat) : Fld := ⟨0x100 + 4 * n, 24, 1, 0, .ro⟩
def PWR_SLACK_late_count (n : Nat) : Fld := ⟨0x100 + 4 * n, 16, 8, 0, .rsc⟩
def PWR_SLACK_slack_min (n : Nat) : Fld := ⟨0x100 + 4 * n, 8, 8, 0xff, .ro⟩
def PWR_SLACK_slack_last (n : Nat) : Fld := ⟨0x100 + 4 * n, 0, 8, 0xff, .ro⟩
/-! PWR_VCORE_CFG (02_timing_power_startup.md) -/
def PWR_VCORE_CFG_lower_th : Fld := ⟨0x30, 24, 8, 0x67, .rw⟩
def PWR_VCORE_CFG_raise_th : Fld := ⟨0x30, 16, 8, 0x33, .rw⟩
def PWR_VCORE_CFG_floor_mv : Fld := ⟨0x30, 0, 10, 0x294, .rw⟩
/-! PWR_VCORE (02_timing_power_startup.md) -/
def PWR_VCORE_set_mv (n : Nat) : Fld := ⟨0x40 + 4 * n, 16, 10, 0x320, .rw⟩
def PWR_VCORE_volt_mv (n : Nat) : Fld := ⟨0x40 + 4 * n, 0, 10, 0x320, .ro⟩
/-! PWR_DOM_REQ (02_timing_power_startup.md) -/
def PWR_DOM_REQ_on : Fld := ⟨0x20, 8, 1, 0, .wo⟩
def PWR_DOM_REQ_domain : Fld := ⟨0x20, 0, 3, 0, .wo⟩
/-! PWR_REQ_STAT (02_timing_power_startup.md) -/
def PWR_REQ_STAT_function : Fld := ⟨0x24, 16, 9, 0, .ro⟩
def PWR_REQ_STAT_world : Fld := ⟨0x24, 12, 2, 0, .ro⟩
def PWR_REQ_STAT_domain : Fld := ⟨0x24, 8, 3, 0, .ro⟩
def PWR_REQ_STAT_status : Fld := ⟨0x24, 0, 4, 0, .ro⟩
/-! PWR_DOM_STAT (02_timing_power_startup.md) -/
def PWR_DOM_STAT_denied_count : Fld := ⟨0x28, 16, 16, 0, .ro⟩
def PWR_DOM_STAT_busy : Fld := ⟨0x28, 8, 8, 0, .ro⟩
def PWR_DOM_STAT_on : Fld := ⟨0x28, 0, 8, 5, .ro⟩
/-! PWR_SEC_INT (02_timing_power_startup.md) -/
def PWR_SEC_INT_clk_denied : Fld := ⟨0x78, 1, 1, 0, .w1c⟩
def PWR_SEC_INT_denied : Fld := ⟨0x78, 0, 1, 0, .w1c⟩
/-! PWR_SLEEP_CTRL (02_timing_power_startup.md) -/
def PWR_SLEEP_CTRL_enter : Fld := ⟨0x60, 31, 1, 0, .wo⟩
def PWR_SLEEP_CTRL_mode : Fld := ⟨0x60, 0, 2, 0, .rw⟩
/-! PWR_AW_PERIOD (02_timing_power_startup.md) -/
def PWR_AW_PERIOD_period_s : Fld := ⟨0x64, 0, 17, 0xe10, .rw⟩
/-! PWR_AW_WINDOW (02_timing_power_startup.md) -/
def PWR_AW_WINDOW_window_ms : Fld := ⟨0x68, 0, 14, 0x3e8, .rw⟩
/-! PWR_WAKE_EN (02_timing_power_startup.md) -/
def PWR_WAKE_EN_en : Fld := ⟨0x6c, 0, 5, 0x1f, .rw⟩
/-! PWR_WAKE_CAUSE (02_timing_power_startup.md) -/
def PWR_WAKE_CAUSE_cause : Fld := ⟨0x70, 0, 6, 0, .w1c⟩

def tablePWR0 : List Row := [
  ⟨PWR_SLACK_min_rst 0, 32, 4, 1, 0⟩,
  ⟨PWR_SLACK_late_prev 0, 32, 4, 1, 0⟩,
  ⟨PWR_SLACK_late_count 0, 32, 4, 1, 0⟩,
  ⟨PWR_SLACK_slack_min 0, 32, 4, 1, 0⟩,
  ⟨PWR_SLACK_slack_last 0, 32, 4, 1, 0⟩,
  ⟨PWR_VCORE_CFG_lower_th, 1, 0, 1, 0⟩,
  ⟨PWR_VCORE_CFG_raise_th, 1, 0, 1, 0⟩,
  ⟨PWR_VCORE_CFG_floor_mv, 1, 0, 1, 0⟩,
  ⟨PWR_VCORE_set_mv 0, 7, 4, 1, 0⟩,
  ⟨PWR_VCORE_volt_mv 0, 7, 4, 1, 0⟩,
  ⟨PWR_DOM_REQ_on, 1, 0, 1, 0⟩,
  ⟨PWR_DOM_REQ_domain, 1, 0, 1, 0⟩,
  ⟨PWR_REQ_STAT_function, 1, 0, 1, 0⟩,
  ⟨PWR_REQ_STAT_world, 1, 0, 1, 0⟩,
  ⟨PWR_REQ_STAT_domain, 1, 0, 1, 0⟩,
  ⟨PWR_REQ_STAT_status, 1, 0, 1, 0⟩,
  ⟨PWR_DOM_STAT_denied_count, 1, 0, 1, 0⟩,
  ⟨PWR_DOM_STAT_busy, 1, 0, 1, 0⟩,
  ⟨PWR_DOM_STAT_on, 1, 0, 1, 0⟩,
  ⟨PWR_SEC_INT_clk_denied, 1, 0, 1, 0⟩,
  ⟨PWR_SEC_INT_denied, 1, 0, 1, 0⟩,
  ⟨PWR_SLEEP_CTRL_enter, 1, 0, 1, 0⟩,
  ⟨PWR_SLEEP_CTRL_mode, 1, 0, 1, 0⟩,
  ⟨PWR_AW_PERIOD_period_s, 1, 0, 1, 0⟩,
  ⟨PWR_AW_WINDOW_window_ms, 1, 0, 1, 0⟩,
  ⟨PWR_WAKE_EN_en, 1, 0, 1, 0⟩,
  ⟨PWR_WAKE_CAUSE_cause, 1, 0, 1, 0⟩]
/-- The fields of a PWR page. -/
def tablePWR : List Row := tablePWR0

/-! CLK_GATE (02_timing_power_startup.md) -/
def CLK_GATE_dbg : Fld := ⟨0x20, 7, 1, 1, .rw⟩
def CLK_GATE_svc : Fld := ⟨0x20, 6, 1, 1, .rw⟩
def CLK_GATE_can : Fld := ⟨0x20, 2, 4, 0xf, .rw⟩
def CLK_GATE_esw : Fld := ⟨0x20, 1, 1, 1, .rw⟩
def CLK_GATE_hif : Fld := ⟨0x20, 0, 1, 1, .rw⟩
/-! CLK_STAT (02_timing_power_startup.md) -/
def CLK_STAT_aon_xtal : Fld := ⟨0x24, 9, 1, 0, .ro⟩
def CLK_STAT_tick_ref_ok : Fld := ⟨0x24, 8, 1, 0, .ro⟩
def CLK_STAT_running : Fld := ⟨0x24, 0, 8, 0, .ro⟩
/-! CLK_REQ_STAT (02_timing_power_startup.md) -/
def CLK_REQ_STAT_function : Fld := ⟨0x28, 16, 9, 0, .ro⟩
def CLK_REQ_STAT_world : Fld := ⟨0x28, 12, 2, 0, .ro⟩
def CLK_REQ_STAT_denied : Fld := ⟨0x28, 0, 8, 0, .ro⟩

def tableCLK0 : List Row := [
  ⟨CLK_GATE_dbg, 1, 0, 1, 0⟩,
  ⟨CLK_GATE_svc, 1, 0, 1, 0⟩,
  ⟨CLK_GATE_can, 1, 0, 1, 0⟩,
  ⟨CLK_GATE_esw, 1, 0, 1, 0⟩,
  ⟨CLK_GATE_hif, 1, 0, 1, 0⟩,
  ⟨CLK_STAT_aon_xtal, 1, 0, 1, 0⟩,
  ⟨CLK_STAT_tick_ref_ok, 1, 0, 1, 0⟩,
  ⟨CLK_STAT_running, 1, 0, 1, 0⟩,
  ⟨CLK_REQ_STAT_function, 1, 0, 1, 0⟩,
  ⟨CLK_REQ_STAT_world, 1, 0, 1, 0⟩,
  ⟨CLK_REQ_STAT_denied, 1, 0, 1, 0⟩]
/-- The fields of a CLK page. -/
def tableCLK : List Row := tableCLK0

/-! RST_CMD (02_timing_power_startup.md) -/
def RST_CMD_key : Fld := ⟨0x20, 16, 16, 0, .wo⟩
def RST_CMD_kind : Fld := ⟨0x20, 0, 2, 0, .wo⟩
/-! RST_CAUSE (02_timing_power_startup.md) -/
def RST_CAUSE_debug : Fld := ⟨0x24, 9, 1, 0, .w1c⟩
def RST_CAUSE_update : Fld := ⟨0x24, 8, 1, 0, .w1c⟩
def RST_CAUSE_wake : Fld := ⟨0x24, 7, 1, 0, .w1c⟩
def RST_CAUSE_tamper : Fld := ⟨0x24, 6, 1, 0, .w1c⟩
def RST_CAUSE_brownout : Fld := ⟨0x24, 5, 1, 0, .w1c⟩
def RST_CAUSE_wdt : Fld := ⟨0x24, 4, 1, 0, .w1c⟩
def RST_CAUSE_warm_sw : Fld := ⟨0x24, 3, 1, 0, .w1c⟩
def RST_CAUSE_cold_sw : Fld := ⟨0x24, 2, 1, 0, .w1c⟩
def RST_CAUSE_pin : Fld := ⟨0x24, 1, 1, 0, .w1c⟩
def RST_CAUSE_por : Fld := ⟨0x24, 0, 1, 1, .w1c⟩
/-! RST_WDT (02_timing_power_startup.md) -/
def RST_WDT_timeout_ms : Fld := ⟨0x28, 0, 16, 0, .rw⟩
/-! RST_WDT_KICK (02_timing_power_startup.md) -/
def RST_WDT_KICK_kick : Fld := ⟨0x2c, 0, 32, 0, .wo⟩
/-! RST_PWRCYC (02_timing_power_startup.md) -/
def RST_PWRCYC_count : Fld := ⟨0x30, 0, 32, 0, .ro⟩

def tableRST0 : List Row := [
  ⟨RST_CMD_key, 1, 0, 1, 0⟩,
  ⟨RST_CMD_kind, 1, 0, 1, 0⟩,
  ⟨RST_CAUSE_debug, 1, 0, 1, 0⟩,
  ⟨RST_CAUSE_update, 1, 0, 1, 0⟩,
  ⟨RST_CAUSE_wake, 1, 0, 1, 0⟩,
  ⟨RST_CAUSE_tamper, 1, 0, 1, 0⟩,
  ⟨RST_CAUSE_brownout, 1, 0, 1, 0⟩,
  ⟨RST_CAUSE_wdt, 1, 0, 1, 0⟩,
  ⟨RST_CAUSE_warm_sw, 1, 0, 1, 0⟩,
  ⟨RST_CAUSE_cold_sw, 1, 0, 1, 0⟩,
  ⟨RST_CAUSE_pin, 1, 0, 1, 0⟩,
  ⟨RST_CAUSE_por, 1, 0, 1, 0⟩,
  ⟨RST_WDT_timeout_ms, 1, 0, 1, 0⟩,
  ⟨RST_WDT_KICK_kick, 1, 0, 1, 0⟩,
  ⟨RST_PWRCYC_count, 1, 0, 1, 0⟩]
/-- The fields of a RST page. -/
def tableRST : List Row := tableRST0

/-! EVR_HEAD (22_event_recorder_returns.md) -/
def EVR_HEAD_seq : Fld := ⟨0x20, 0, 32, 0, .ro⟩
/-! EVR_OLDEST (22_event_recorder_returns.md) -/
def EVR_OLDEST_seq : Fld := ⟨0x24, 0, 32, 0, .ro⟩
/-! EVR_LOST (22_event_recorder_returns.md) -/
def EVR_LOST_count : Fld := ⟨0x28, 0, 32, 0, .rsc⟩
/-! EVR_RD_SEQ (22_event_recorder_returns.md) -/
def EVR_RD_SEQ_seq : Fld := ⟨0x2c, 0, 32, 0, .rw⟩
/-! EVR_RD_STAT (22_event_recorder_returns.md) -/
def EVR_RD_STAT_result : Fld := ⟨0x30, 0, 4, 3, .ro⟩
/-! EVR_RD_DATA (22_event_recorder_returns.md) -/
def EVR_RD_DATA_data (n : Nat) : Fld := ⟨0x40 + 4 * n, 0, 32, 0, .ro⟩
/-! EVR_SW_CODE (22_event_recorder_returns.md) -/
def EVR_SW_CODE_code : Fld := ⟨0x80, 0, 8, 0, .wo⟩
/-! EVR_SW_INDEX (22_event_recorder_returns.md) -/
def EVR_SW_INDEX_index : Fld := ⟨0x84, 0, 16, 0xffff, .rw⟩
/-! EVR_SW_DATA (22_event_recorder_returns.md) -/
def EVR_SW_DATA_data (n : Nat) : Fld := ⟨0x88 + 4 * n, 0, 32, 0, .rw⟩
/-! EVR_RL_SEL (22_event_recorder_returns.md) -/
def EVR_RL_SEL_code : Fld := ⟨0xb0, 0, 8, 0, .rw⟩
/-! EVR_RL_CFG (22_event_recorder_returns.md) -/
def EVR_RL_CFG_burst : Fld := ⟨0xb4, 16, 8, 8, .rw⟩
def EVR_RL_CFG_period_ms : Fld := ⟨0xb4, 0, 16, 0x3e8, .rw⟩
/-! EVR_RL_STAT (22_event_recorder_returns.md) -/
def EVR_RL_STAT_tokens : Fld := ⟨0xb8, 24, 8, 8, .ro⟩
def EVR_RL_STAT_suppressed : Fld := ⟨0xb8, 0, 24, 0, .ro⟩
/-! EVR_FTA (22_event_recorder_returns.md) -/
def EVR_FTA_fails : Fld := ⟨0xc0, 1, 4, 0, .ro⟩
def EVR_FTA_state : Fld := ⟨0xc0, 0, 1, 0, .ro⟩

def tableEVR0 : List Row := [
  ⟨EVR_HEAD_seq, 1, 0, 1, 0⟩,
  ⟨EVR_OLDEST_seq, 1, 0, 1, 0⟩,
  ⟨EVR_LOST_count, 1, 0, 1, 0⟩,
  ⟨EVR_RD_SEQ_seq, 1, 0, 1, 0⟩,
  ⟨EVR_RD_STAT_result, 1, 0, 1, 0⟩,
  ⟨EVR_RD_DATA_data 0, 16, 4, 1, 0⟩,
  ⟨EVR_SW_CODE_code, 1, 0, 1, 0⟩,
  ⟨EVR_SW_INDEX_index, 1, 0, 1, 0⟩,
  ⟨EVR_SW_DATA_data 0, 7, 4, 1, 0⟩,
  ⟨EVR_RL_SEL_code, 1, 0, 1, 0⟩,
  ⟨EVR_RL_CFG_burst, 1, 0, 1, 0⟩,
  ⟨EVR_RL_CFG_period_ms, 1, 0, 1, 0⟩,
  ⟨EVR_RL_STAT_tokens, 1, 0, 1, 0⟩,
  ⟨EVR_RL_STAT_suppressed, 1, 0, 1, 0⟩,
  ⟨EVR_FTA_fails, 1, 0, 1, 0⟩,
  ⟨EVR_FTA_state, 1, 0, 1, 0⟩]
/-- The fields of a EVR page. -/
def tableEVR : List Row := tableEVR0

/-! UPD_CMD (13_firmware_update.md) -/
def UPD_CMD_confirm : Fld := ⟨0x20, 31, 1, 0, .wo⟩
def UPD_CMD_revert : Fld := ⟨0x20, 30, 1, 0, .wo⟩
/-! UPD_CFG (13_firmware_update.md) -/
def UPD_CFG_trial_max : Fld := ⟨0x24, 8, 4, 3, .rw⟩
def UPD_CFG_svc_lock : Fld := ⟨0x24, 0, 1, 0, .w1s⟩
/-! UPD_STAT (13_firmware_update.md) -/
def UPD_STAT_result : Fld := ⟨0x28, 24, 8, 0, .ro⟩
def UPD_STAT_cmd_result : Fld := ⟨0x28, 16, 4, 0, .ro⟩
def UPD_STAT_session : Fld := ⟨0x28, 8, 2, 0, .ro⟩
def UPD_STAT_busy : Fld := ⟨0x28, 0, 1, 0, .ro⟩
/-! UPD_BANK (13_firmware_update.md) -/
def UPD_BANK_state_b : Fld := ⟨0x2c, 28, 4, 0, .ro⟩
def UPD_BANK_state_a : Fld := ⟨0x2c, 24, 4, 0, .ro⟩
def UPD_BANK_trial_left : Fld := ⟨0x2c, 20, 4, 0, .ro⟩
def UPD_BANK_pref : Fld := ⟨0x2c, 16, 1, 0, .ro⟩
def UPD_BANK_running : Fld := ⟨0x2c, 8, 1, 0, .ro⟩
def UPD_BANK_revoked : Fld := ⟨0x2c, 0, 4, 0, .ro⟩
/-! UPD_SEC_CNT (13_firmware_update.md) -/
def UPD_SEC_CNT_count : Fld := ⟨0x30, 0, 32, 0, .ro⟩
/-! UPD_FW_VER_A (13_firmware_update.md) -/
def UPD_FW_VER_A_fw_ver : Fld := ⟨0x34, 0, 32, 0, .ro⟩
/-! UPD_FW_VER_B (13_firmware_update.md) -/
def UPD_FW_VER_B_fw_ver : Fld := ⟨0x38, 0, 32, 0, .ro⟩
/-! UPD_SEC_VER_A (13_firmware_update.md) -/
def UPD_SEC_VER_A_sec_ver : Fld := ⟨0x3c, 0, 32, 0, .ro⟩
/-! UPD_SEC_VER_B (13_firmware_update.md) -/
def UPD_SEC_VER_B_sec_ver : Fld := ⟨0x40, 0, 32, 0, .ro⟩
/-! UPD_BLOCKS (13_firmware_update.md) -/
def UPD_BLOCKS_received : Fld := ⟨0x44, 16, 16, 0, .ro⟩
def UPD_BLOCKS_n_blocks : Fld := ⟨0x44, 0, 16, 0, .ro⟩

def tableUPD0 : List Row := [
  ⟨UPD_CMD_confirm, 1, 0, 1, 0⟩,
  ⟨UPD_CMD_revert, 1, 0, 1, 0⟩,
  ⟨UPD_CFG_trial_max, 1, 0, 1, 0⟩,
  ⟨UPD_CFG_svc_lock, 1, 0, 1, 0⟩,
  ⟨UPD_STAT_result, 1, 0, 1, 0⟩,
  ⟨UPD_STAT_cmd_result, 1, 0, 1, 0⟩,
  ⟨UPD_STAT_session, 1, 0, 1, 0⟩,
  ⟨UPD_STAT_busy, 1, 0, 1, 0⟩,
  ⟨UPD_BANK_state_b, 1, 0, 1, 0⟩,
  ⟨UPD_BANK_state_a, 1, 0, 1, 0⟩,
  ⟨UPD_BANK_trial_left, 1, 0, 1, 0⟩,
  ⟨UPD_BANK_pref, 1, 0, 1, 0⟩,
  ⟨UPD_BANK_running, 1, 0, 1, 0⟩,
  ⟨UPD_BANK_revoked, 1, 0, 1, 0⟩,
  ⟨UPD_SEC_CNT_count, 1, 0, 1, 0⟩,
  ⟨UPD_FW_VER_A_fw_ver, 1, 0, 1, 0⟩,
  ⟨UPD_FW_VER_B_fw_ver, 1, 0, 1, 0⟩,
  ⟨UPD_SEC_VER_A_sec_ver, 1, 0, 1, 0⟩,
  ⟨UPD_SEC_VER_B_sec_ver, 1, 0, 1, 0⟩,
  ⟨UPD_BLOCKS_received, 1, 0, 1, 0⟩,
  ⟨UPD_BLOCKS_n_blocks, 1, 0, 1, 0⟩]
/-- The fields of a UPD page. -/
def tableUPD : List Row := tableUPD0

/-! IDM_LINK (24_register_index.md) -/
def IDM_LINK_hb_ok : Fld := ⟨0x20, 1, 1, 0, .ro⟩
def IDM_LINK_link_up : Fld := ⟨0x20, 0, 1, 0, .ro⟩
/-! IDM_HB_REJ (24_register_index.md) -/
def IDM_HB_REJ_count : Fld := ⟨0x24, 0, 32, 0, .rsc⟩
/-! IDM_VFIELD (24_register_index.md) -/
def IDM_VFIELD_mv : Fld := ⟨0x28, 0, 16, 0, .ro⟩
/-! IDM_TEMP (24_register_index.md) -/
def IDM_TEMP_temp : Fld := ⟨0x2c, 0, 8, 0, .ro⟩

def tableIDM0 : List Row := [
  ⟨IDM_LINK_hb_ok, 1, 0, 1, 0⟩,
  ⟨IDM_LINK_link_up, 1, 0, 1, 0⟩,
  ⟨IDM_HB_REJ_count, 1, 0, 1, 0⟩,
  ⟨IDM_VFIELD_mv, 1, 0, 1, 0⟩,
  ⟨IDM_TEMP_temp, 1, 0, 1, 0⟩]
/-- The fields of a IDM page. -/
def tableIDM : List Row := tableIDM0

end Sys2Proof.Machine.R
end

