-- ==== Sys2Proof/Machine/Sparse.lean ====
section
/-! DEFINITION. Sparse maps keyed by natural numbers. A key that is not listed holds a default that the reader supplies.
`SMap` is used for registers and indexed state; `Mem` is the canonical form of a byte memory. -/
namespace Sys2Proof.Machine

/-- A sparse map: pairs of a key and a value, in rising order of the keys. -/
abbrev SMap (α : Type) := List (Nat × α)

/-- The value at key `k`, or `d` where `k` is not listed. -/
def SMap.get {α : Type} (d : α) : SMap α → Nat → α
  | [], _ => d
  | (k', v) :: t, k => if k' = k then v else SMap.get d t k

/-- Set the value at key `k`. -/
def SMap.set {α : Type} : SMap α → Nat → α → SMap α
  | [], k, v => [(k, v)]
  | (k', v') :: t, k, v =>
    if k = k' then (k, v) :: t
    else if k < k' then (k, v) :: (k', v') :: t
    else (k', v') :: SMap.set t k v

/-- Remove every key that `p` holds of. -/
def SMap.drop {α : Type} (p : Nat → Bool) : SMap α → SMap α
  | [] => []
  | (k, v) :: t => if p k then SMap.drop p t else (k, v) :: SMap.drop p t

/-- Every listed key is above `lo` and the keys rise strictly. -/
def SMap.wfAbove {α : Type} : Nat → SMap α → Bool
  | _, [] => true
  | lo, (k, _) :: t => decide (lo ≤ k) && SMap.wfAbove (k + 1) t

/-- The canonical form of a map: its keys rise strictly. -/
def SMap.wf {α : Type} (m : SMap α) : Bool := SMap.wfAbove 0 m

/-- What an unlisted byte of memory reads as. DESIGN CHOICE, log entry 1. -/
def memDefault : Byte := 0

/-- A byte memory: the cells that differ from `memDefault`, in strictly rising order of their addresses. -/
abbrev Mem := List Host.Cell

/-- The byte at address `a`. DESIGN CHOICE, log entry 1. -/
def Mem.read : Mem → Nat → Byte
  | [], _ => memDefault
  | (a', v) :: t, a => if a' = a then v else Mem.read t a

/-- Store byte `v` at address `a`; storing `memDefault` removes the cell. DESIGN CHOICE, log entry 1. -/
def Mem.write : Mem → Nat → Byte → Mem
  | [], a, v => if v = memDefault then [] else [(a, v)]
  | (a', v') :: t, a, v =>
    if a = a' then (if v = memDefault then t else (a, v) :: t)
    else if a < a' then (if v = memDefault then (a', v') :: t else (a, v) :: (a', v') :: t)
    else (a', v') :: Mem.write t a v

/-- Every listed address is above `lo`, the addresses rise strictly and no cell holds `memDefault`. -/
def Mem.wfAbove : Nat → Mem → Bool
  | _, [] => true
  | lo, (a, v) :: t => decide (lo ≤ a) && decide (v ≠ memDefault) && Mem.wfAbove (a + 1) t

/-- The canonical form of a memory. -/
def Mem.wf (m : Mem) : Bool := Mem.wfAbove 0 m

/-- Remove the cells whose address `p` holds of. -/
def Mem.erase (p : Nat → Bool) : Mem → Mem
  | [] => []
  | (a, v) :: t => if p a then Mem.erase p t else (a, v) :: Mem.erase p t

/-- Store the bytes of a list from address `a` on. -/
def Mem.writeBytes (m : Mem) (a : Nat) : List Byte → Mem
  | [] => m
  | b :: bs => Mem.writeBytes (m.write a b) (a + 1) bs

/-- The `n` bytes from address `a` on. -/
def Mem.readBytes (m : Mem) (a : Nat) : Nat → List Byte
  | 0 => []
  | n + 1 => m.read a :: Mem.readBytes m (a + 1) n

end Sys2Proof.Machine
end

