-- ==== Sys2Proof/Machine/State.lean ====
section
/-! DEFINITION. The state of the device: plain data. Register fields of every page stand in `fields`; what the spec gives the
machine beside its registers stands in typed structures. -/
namespace Sys2Proof.Machine

/-- Why the machine stops. No command of this model raises a fault; the type is the interface's. -/
inductive Fault where
  /-- Raised by no meaning (safe). -/
  | none
  deriving DecidableEq, Repr

/-- Why a command has no meaning. -/
inductive Refusal where
  /-- Raised by the dispatcher alone: the command's meaning is not written yet (safe). -/
  | notModelled (mnemonic : String)
  deriving DecidableEq, Repr

/-- The answer to the access that the last command made (R26): the data read, and whether it ended with an error
response and with which cause of `SYS_ACC_ERR_INFO`. The model's own field. -/
structure Rsp where
  data  : Nat := 0
  err   : Bool := false
  cause : Nat := 0
  deriving DecidableEq, Repr

/-- What the last command sent out of the device (the model's own field, emptied at the start of each command). -/
inductive Out where
  /-- An MSI-X message of function `f` on vector `v` (R338). -/
  | msix (f v : Nat) (addr data : Nat)
  /-- A 40-bit frame on the downlink of Silk port `b` (R61, R69). -/
  | silk (b word : Nat)
  /-- The 36-bit payloads of the frames of one PLK superframe (R226). -/
  | plk (words : List Nat)
  /-- A write to host memory at address `addr` for function `f` of the PCIe root (R325, R331). -/
  | dma (f addr : Nat) (bytes : List Byte)
  /-- A session message of type `type` for function `f` (R339). -/
  | ses (f type : Nat) (body : List Byte)
  /-- Bytes that the service port sends (R300). -/
  | svc (bytes : List Byte)
  /-- A frame that Ethernet port `p` sends, with its FCS (R375). -/
  | eth (p : Nat) (bytes : List Byte)
  /-- A factory test access challenge that the debug port answers: the device unique ID and a nonce (R458). -/
  | fta (uid nonce : Nat)
  /-- A frame that CAN controller `n` has sent, as the 18 words of R404. -/
  | can (n : Nat) (words : List Nat)
  deriving DecidableEq, Repr

/-- A record in the pending buffer of the event recorder (R449, R451). -/
structure EvRec where
  seq    : Option Nat := none
  code   : Nat := 0
  flags  : Nat := 0
  source : Nat := 0
  opTime : BitVec 40 := 0
  index  : Nat := 0xFFFF
  pwrcyc : Nat := 0
  supp   : Nat := 0
  time   : BitVec 64 := 0
  data   : List Nat := []
  deriving DecidableEq, Repr

/-- The event recorder beside its registers (R450 to R453, R487). -/
structure Evr where
  next     : Nat := 0
  lowest   : Option Nat := none
  scanning : Bool := false
  pend     : List EvRec := []
  lostFlag : Bool := false
  aonDrop  : Nat := 0
  lostPrev : Nat := 0
  ltValid  : Bool := false
  deriving DecidableEq, Repr

/-- An entry of a gateway stack (R249). World codes as in xxx_OWNER: 0 normal, 1 secure, 2 cocoon. -/
structure GwEntry where
  pc        : BitVec 64 := 0
  priv      : Nat := 0
  world     : Nat := 0
  cocoon    : Nat := 0
  calleeW   : Nat := 0
  calleeC   : Nat := 0
  deriving DecidableEq, Repr

/-- The context that an asynchronous cocoon exit saves (R256). -/
structure Ctx where
  x    : SMap (BitVec 64) := []
  f    : SMap (BitVec 64) := []
  fcsr : Nat := 0
  pc   : BitVec 64 := 0
  top  : Option GwEntry := none
  deriving DecidableEq, Repr

/-- The supervisor CSRs, banked between the normal and the secure world (R243). -/
structure SBank where
  sstatus  : BitVec 64 := 0
  sie      : BitVec 64 := 0
  sip      : BitVec 64 := 0
  stvec    : BitVec 64 := 0
  sscratch : BitVec 64 := 0
  sepc     : BitVec 64 := 0
  scause   : BitVec 64 := 0
  stval    : BitVec 64 := 0
  satp     : BitVec 64 := 0
  stimecmp : BitVec 64 := 0
  deriving DecidableEq, Repr

/-- An application core (R241, R243, R244). DESIGN CHOICE, log entry 4; DEDUCED, log entries 72, 75. -/
structure Hart where
  running : Bool := false
  halted  : Bool := false
  haltReq : Bool := false
  world   : Nat := 1
  cocoon  : Nat := 0
  priv    : Nat := 3
  pc      : BitVec 64 := 0
  x       : SMap (BitVec 64) := []
  f       : SMap (BitVec 64) := []
  fcsr    : Nat := 0
  pw      : Nat := 0
  pcoc    : Nat := 0
  sbank   : Bool := false
  stack   : List GwEntry := []
  gwIdx   : Nat := 0
  coexValid     : Bool := false
  coexDestroyed : Bool := false
  coexCocoon    : Nat := 0
  mtimecmp : BitVec 64 := 0
  mgwtab   : BitVec 64 := 0
  mstatus  : BitVec 64 := 0
  mtvec    : BitVec 64 := 0
  mepc     : BitVec 64 := 0
  mcause   : BitVec 64 := 0
  mtval    : BitVec 64 := 0
  medeleg  : BitVec 64 := 0
  mideleg  : BitVec 64 := 0
  sNormal  : SBank := {}
  sSecure  : SBank := {}
  deriving DecidableEq, Repr

/-- The loop state of a bank island (R39, R488): superframes counted, lowest slack among them, length of the present run at
900 mV with low slack, and whether that run has set slack_low. -/
structure Vcore where
  count : Nat := 0
  low   : Nat := 255
  run   : Nat := 0
  done  : Bool := false
  deriving DecidableEq, Repr

/-- When a command takes effect: in the first superframe, not before `frm`, whose work starts, or (`at_`) in the first such
superframe whose count has the low 14 bits `sfc` (R120, R167). -/
structure Due where
  at_ : Bool := false
  sfc : Nat := 0
  frm : Nat := 0
  deriving DecidableEq, Repr

/-- A pending channel command (R120): kind 0 arm, 1 disarm, 2 apply, 3 preset. -/
structure ChnCmd where
  kind : Nat
  due  : Due
  deriving DecidableEq, Repr

/-- A pending Looper command (R166): kind 0 swap, 1 cancel, 2 jump, 3 abort, 4 release. -/
structure LpCmd where
  kind : Nat
  act  : Nat
  due  : Due
  deriving DecidableEq, Repr

/-- A pending trip clear (R186) with its clear_act. -/
structure Clear where
  act : Nat
  due : Due
  deriving DecidableEq, Repr

/-- The capture accumulators of the two DCIR windows (R210): count, voltage sum and current sum. -/
structure Cap where
  n1 : Nat := 0
  v1 : Int := 0
  i1 : Int := 0
  n2 : Nat := 0
  v2 : Int := 0
  i2 : Int := 0
  deriving DecidableEq, Repr

/-- A channel beside its registers. `img` is the step image in force, empty when no step is; `req` is the last request; `vGood`,
`iClip` and `vClip` are the latest valid voltage sample and the clip flags of the latest valid samples (R186).
DEDUCED, log entry 57. -/
structure Chan where
  cmd      : Option ChnCmd := none
  lpCmd    : Option LpCmd := none
  clr      : Option Clear := none
  rstDue   : Bool := false
  cnt      : Nat := 0
  hold     : Nat := 0
  img      : List Nat := []
  vEntry   : Bool := false
  pers     : List Nat := [0, 0, 0, 0]
  openAt   : Option Nat := none
  redirect : Option Nat := none
  gapSeen  : Bool := false
  ovrSeen  : Bool := false
  evSeq    : Nat := 0
  req      : Nat := 0
  prevD    : Int := 0
  lastV    : Option Int := none
  vGood    : Option Int := none
  iClip    : Bool := false
  vClip    : Bool := false
  role     : Nat := 0
  cap      : Cap := {}
  evalEnd  : Nat := 0
  detach   : Option Nat := none
  deriving DecidableEq, Repr

/-- The decimators of one stream (R94, R97): the control-path integrators and comb, modulo 2^32, the last 15 bits for the trip
filter, and the runs of trip samples beyond the high and the low threshold (R172). -/
structure Dec where
  a1   : Nat := 0
  a2   : Nat := 0
  a3   : Nat := 0
  sp   : Nat := 0
  c1p  : Nat := 0
  c2p  : Nat := 0
  hist : Nat := 0
  hi   : Nat := 0
  lo   : Nat := 0
  deriving DecidableEq, Repr

/-- What the work of superframe `sf` of a bank takes in (R138): the results of the control-path filters, the status word, the
flags that hold of every stream and the selects' flags, and whether the superframe lies in a gap. -/
structure Inp where
  sf     : Nat := 0
  y      : List Int := []
  status : Nat := 0
  flags  : Nat := 0
  auxA   : Nat := 0
  auxB   : Nat := 0
  valid  : Bool := false
  gap    : Bool := false
  deriving DecidableEq, Repr

/-- A calibration entry (R100). -/
structure Cal where
  gain : Nat := 0x40000000
  off  : Int := 0
  tc   : Int := 0
  deriving DecidableEq, Repr

/-- A Silk port with its bank engine, beside the registers. `status` is the last status word received, `wstat` the status word of
the superframe whose work runs or ran last; `lastBit` and `lastAny` are the last superframes with a trip-bit cause and with any bank-scope cause. -/
structure Bank where
  upj     : Nat := 0
  wrong   : Nat := 0
  crc     : Nat := 0xFFFF
  crcPrev : Option Nat := none
  side    : Nat := 0
  dec     : SMap Dec := []
  frames  : Nat := 0
  inv     : Nat := 0
  crcBad  : Nat := 0
  auxA    : Nat := 255
  auxB    : Nat := 255
  settleA : Option Nat := none
  settleB : Option Nat := none
  inp     : List Inp := []
  lastSf  : Option Nat := none
  lost    : Nat := 0
  status  : Nat := 0
  wstat   : Nat := 0
  idreq   : Option Nat := none
  idsent  : Option (Nat × Nat) := none
  reading : Bool := false
  dlj     : Nat := 0
  slots   : List Nat := []
  train   : Nat := 0
  sfsync  : Bool := false
  reads   : List Nat := []
  resp    : List Nat := []
  ident   : List Nat := []
  newId   : List Nat := []
  loaded  : Bool := false
  mChg    : Nat := 0
  mDis    : Nat := 0
  gb      : Nat := 0
  hb      : Nat := 0
  cal     : SMap Cal := []
  calSh   : SMap Cal := []
  calDirty : Nat := 0
  commit  : Option Due := none
  reload  : Bool := false
  reloadIn : List Nat := []
  gapEnd  : Bool := false
  gapAt   : Option Nat := none
  resumeAt : Option Nat := none
  lateAt  : Option Nat := none
  crcAt   : Option Nat := none
  offAt   : Option Nat := none
  lastBit : Nat := 0
  lastAny : Option Nat := none
  linkC   : Bool := false
  modF    : Bool := false
  temp    : Bool := false
  holdAt  : Option Nat := none
  bclr    : Option Clear := none
  test    : Nat := 0
  dis     : Bool := false
  ackAt   : Option Nat := none
  ackDue  : Bool := false
  cEnd    : Nat := 0
  good    : Nat := 0
  brgQ    : List Nat := []
  master  : Option Nat := none
  deriving DecidableEq, Repr

/-- A tag of the remote register bridge (R364): state 0 FREE, 1 OPEN, 2 DONE, 3 QUARANTINE; the superframe `m` whose downlink
carried its request, and `quar`, up to which it is quarantined (R368). -/
structure Tag where
  st     : Nat := 0
  write  : Bool := false
  status : Nat := 0
  se     : Bool := false
  sent   : Bool := false
  bank   : Nat := 0
  reg    : Nat := 0
  req    : Nat := 0
  isFn   : Bool := false
  world  : Nat := 0
  cocoon : Nat := 0
  fn     : Nat := 0
  data   : Nat := 0
  m      : Nat := 0
  tries  : Nat := 0
  quar   : Nat := 0
  deriving DecidableEq, Repr

/-- An item that a producer holds for the queue pool (R345): queue, bytes, the bank and superframe of a log record. -/
structure Item where
  queue : Nat := 0
  bytes : List Byte := []
  bank  : Nat := 0
  sf    : Nat := 0
  deriving DecidableEq, Repr

/-- A complete item in a pool queue: its length and its cells in order (R343, R348). -/
structure QItem where
  len   : Nat := 0
  cells : List Nat := []
  deriving DecidableEq, Repr

/-- A delivery binding (R331): the function and queue pair, the ring base and slots, the next slot, the slots in use and the
item count of the binding. -/
structure Bind where
  fn    : Nat := 0
  qp    : Nat := 0
  base  : Nat := 0
  slots : Nat := 0
  tail  : Nat := 0
  used  : Nat := 0
  count : Nat := 0
  deriving DecidableEq, Repr

/-- A pool queue beside its registers: complete items, oldest first; the item in progress with its port; the discarding of a
flush with its port and the words that are still to come; whether it is disabled when discarding ends; its binding. -/
structure Queue where
  items : List QItem := []
  prog  : Option (Nat × QItem) := none
  disc  : Option (Nat × Nat) := none
  off   : Bool := false
  bind  : Option Bind := none
  deriving DecidableEq, Repr

/-- The cells of the pool (R344): the next never-used cell and the freed ones, the most recently freed first. -/
structure Pool where
  fresh : Nat := 0
  freed : List Nat := []
  deriving DecidableEq, Repr

/-- A step-end event on its way to the grading unit (R169, R204). -/
structure StepEnd where
  chan  : Nat
  cause : Nat
  flags : Nat
  err   : Nat
  seq   : Nat
  sfc   : Nat
  tEnd  : Nat
  sqIn  : Nat
  sqOut : Nat
  seIn  : Nat
  seOut : Nat
  role  : Nat
  cap   : Cap
  time  : Nat
  ta    : Nat
  tb    : Nat
  mode  : Nat
  deriving DecidableEq, Repr

/-- An entry notice on its way to the grading unit (R204). -/
structure Entry where
  chan   : Nat
  opcode : Nat
  mode   : Nat
  tag    : Nat
  code   : Nat
  step   : Nat
  sfc    : Nat
  t      : Nat
  tPrev  : Nat
  role   : Nat
  deriving DecidableEq, Repr

/-- What the bank engines post for the grading unit, in order. -/
inductive GrdMsg where
  | entry (e : Entry)
  | stepEnd (e : StepEnd)
  deriving DecidableEq, Repr

/-- The open window of a logging profile for one channel or bank (R111 to R116). Streams 0 and 1 are current and voltage of a
channel, or the DC-bus voltage and current of a bank; 2 and 3 are aux A and aux B. -/
structure LogAcc where
  open_  : Bool := false
  partl  : Bool := false
  gap    : Bool := false
  first  : Nat := 0
  last   : Nat := 0
  n      : List Nat := [0, 0, 0, 0]
  sum    : List Int := [0, 0, 0, 0]
  mn     : List Int := [0, 0, 0, 0]
  mx     : List Int := [0, 0, 0, 0]
  fl     : List Nat := [0, 0, 0, 0]
  nCrc   : Nat := 0
  nInv   : Nat := 0
  tMin   : Nat := 0
  tMax   : Nat := 0
  deriving DecidableEq, Repr

/-- The pair unit beside its registers (R223 to R239). The partner's masks and marks; the PLK superframe being received with
its count `rxK`; runs of superframes that failed the CRC or whose boundary was off; own digests (keyed by superframe and bank)
and the flags of the words sent; digests as last compared, divergence marks and superframes; the yield words to send and the
role changes decided; the sync: its phase (0 none, 1 waiting for the snapshot, 2 replaying, 3 comparing), the partner's step
store CRC, the snapshot received, the replay buffer and the count of matching superframes; the snapshot to send. -/
structure Plk where
  fresh   : Bool := false
  failCmd : Bool := false
  peerAct : Nat := 0
  peerSby : Nat := 0
  peerSync : Bool := false
  rx      : List Nat := []
  rxK     : Nat := 0
  bad     : Nat := 0
  off     : Nat := 0
  own     : SMap Nat := []
  rep     : SMap Nat := []
  digOwn  : SMap Nat := []
  digPeer : SMap Nat := []
  div     : SMap Nat := []
  divSf   : SMap Nat := []
  yieldTx : List (Nat × Nat) := []
  change  : List (Nat × Nat × Nat) := []
  sync    : Nat := 0
  storeRx : Option Nat := none
  storeTx : Bool := false
  snapRx  : List Nat := []
  snapEnd : Option Nat := none
  replay  : List (Nat × Inp) := []
  same    : Nat := 0
  capture : Option Nat := none
  snapTx  : List (Nat × Nat) := []
  deriving DecidableEq, Repr

/-- The open record of a channel (R205 to R213): what was taken at opening, the sums, and what the events brought. -/
structure GrdRec where
  tStart  : Nat := 0
  cellId  : List Nat := []
  recipe  : Nat := 0
  host    : List Nat := []
  ident   : List Nat := []
  qChg    : Nat := 0
  eChg    : Nat := 0
  qDis    : Nat := 0
  eDis    : Nat := 0
  roles   : Nat := 0
  err     : Nat := 0
  status  : Nat := 0
  nSteps  : Nat := 0
  dcir    : Option (Cap × Bool) := none
  ocvFrom : Option (Int × Nat) := none
  ocvTo   : Option (Int × Nat) := none
  nOcv    : Nat := 0
  nQual   : Nat := 0
  deriving DecidableEq, Repr

/-- A sealed record with its sequence: `st` is 0 while it waits for its signature, 1 when it is ready and held back, 2 when the
queue pool has been offered it (R208, R217 to R220). -/
structure GrdOut where
  seq  : Nat := 0
  body : List Byte := []
  sig  : List Byte := []
  st   : Nat := 0
  deriving DecidableEq, Repr

/-- The grading state of a channel (R206, R208): the open slot, a sealed record that waits in it, the output slot, a pending
open command and a seal with the superframe from which it acts, the role and entry time of the step in force, the next event
sequence, and the OCV window of the tap. -/
structure GrdCh where
  opn    : Option GrdRec := none
  wait   : Option GrdOut := none
  out    : Option GrdOut := none
  opening : Bool := false
  sealAt : Option Nat := none
  role   : Nat := 0
  tRole  : Nat := 0
  sfRole : Nat := 0
  next   : Option Nat := none
  ocvN   : Nat := 0
  ocvSum : Int := 0
  deriving DecidableEq, Repr

/-- A key slot (R277, R279): attributes as KEY_ATTR shows them and the secret or private scalar. -/
structure Slot where
  attr   : Nat := 0
  secret : Nat := 0
  deriving DecidableEq, Repr

/-- A crypto job of the register port (R282): the operand registers at its start and who started it. -/
structure Job where
  op     : Nat := 0
  slot   : Nat := 0
  coc    : Option Nat := none
  src    : Nat := 0
  len    : Nat := 0
  dst    : Nat := 0
  input  : List Byte := []
  attr   : Nat := 0
  info   : List Byte := []
  chr    : Bool := false
  deriving DecidableEq, Repr

/-- A queue pair (R323 to R327): `phase` is the phase bit of the next completion; `busy` while a command runs. -/
structure QPair where
  en     : Bool := false
  sqLog  : Nat := 0
  cqLog  : Nat := 0
  vec    : Nat := 0
  sqBase : Nat := 0
  cqBase : Nat := 0
  sqHead : Nat := 0
  sqTail : Nat := 0
  cqHead : Nat := 0
  cqTail : Nat := 0
  phase  : Bool := true
  busy   : Bool := false
  cfgErr : Bool := false
  deriving DecidableEq, Repr

/-- The PCIe configuration space as far as it bears on functions (R319): VF Enable, NumVFs, and the functions whose Bus Master
Enable is set. -/
structure Pcie where
  vfEn   : Bool := false
  numVfs : Nat := 0
  master : List Nat := []
  deriving DecidableEq, Repr

/-- Function 0 at reset (R319, R320): enabled, in state ENABLED, with quotas of 8 and 8. DESIGN CHOICE, log entry 3. -/
def resetFields : SMap Nat :=
  [(R.FNC_FN_CTRL_enable.key 0x400, 1), (R.FNC_FN_STAT_state.key 0x400, 1),
   (R.FNC_FN_QUOTA_vec_quota.key 0x400, 8), (R.FNC_FN_QUOTA_qp_quota.key 0x400, 8)]

/-- A live move of a channel (R332, R333): between functions `src` and `dst` into slot `slot`, when step 2 acts, the superframe
of step 2 once it has acted, and the queue pair and command identifier of its completion. -/
structure Move where
  chan : Nat
  src  : Nat
  dst  : Nat
  slot : Nat
  due  : Due
  sf   : Option Nat := none
  qp   : Nat := 0
  cid  : Nat := 0
  deriving DecidableEq, Repr

/-- The boot record (R294): the states of banks A and B (R293), the preferred bank (1 is B), the trial start-ups left, the
rollback counter and the revoked-key mask. DESIGN CHOICE, log entry 4. -/
structure Boot where
  stA  : Nat := 0
  stB  : Nat := 0
  pref : Nat := 0
  left : Nat := 0
  cnt  : Nat := 0
  revoked : Nat := 0
  deriving DecidableEq, Repr

/-- The service port beside its registers (R295, R300 to R303): the result that the running command will end with, whether that
command is VERIFY, the payload blocks received and the last index, whether the boot ROM runs recovery and which banks failed
its checks (bit 0 A, bit 1 B), and whether SVC_ATTN_N is low. DESIGN CHOICE, log entry 4. -/
structure Svc where
  res      : Nat := 0
  verify   : Bool := false
  received : List Nat := []
  last     : Nat := 0
  recovery : Bool := false
  failed   : Nat := 0
  attn     : Bool := false
  deriving DecidableEq, Repr

/-- An entry of the address table (R381). -/
structure AtuEnt where
  vid   : Nat
  mac   : Nat
  stat  : Bool
  ports : Nat
  deriving DecidableEq, Repr

/-- A frame in the switch (R373 to R379): the input (4 is the PTP unit), VID (none where lookup gave none), class and PCP; how it
arrived (0 untagged, 1 priority-tagged, 2 tagged); worst-case and used cells; the bytes known; whether it has ended; its receive
timestamp in 2^-16 ns; whether the PTP unit takes a copy; the outputs that queue it, those among them that may cut through, and
those that send it while it arrives, each with the addition to its correctionField; whether its departure is timestamped. -/
structure EthFrame where
  id    : Nat := 0
  inp   : Nat := 0
  vid   : Option Nat := none
  cls   : Nat := 0
  pcp   : Nat := 0
  tag   : Nat := 0
  w     : Nat := 0
  cells : Nat := 0
  bytes : List Byte := []
  ended : Bool := false
  ts    : Option Int := none
  ptp   : Bool := false
  outs  : List Nat := []
  ct    : List Nat := []
  now   : List (Nat × Int) := []
  tsReq : Bool := false
  deriving DecidableEq, Repr

/-- A stored correction of a two-step Sync (R393). -/
structure TcEnt where
  inp    : Nat
  domain : Nat
  seq    : Nat
  add    : Int
  deriving DecidableEq, Repr

/-- A transmit timestamp (R391), `ts` in 2^-16 ns. -/
structure TsEnt where
  ts     : Int
  seq    : Nat
  type   : Nat
  domain : Nat
  deriving DecidableEq, Repr

/-- The switch core and the PTP unit beside their registers: frames in the order of their lookups, address table, pause quanta of
each port, the ring positions, the tables of R393 by output, frames whose transmit timestamp is to come (by port; sequence, type
and domain) and the timestamp queues; of the servo the last committed offset in 2^-16 ns, the consecutive offsets outside the
lock window. DESIGN CHOICE, log entry 4. -/
structure Esw where
  next   : Nat := 0
  frames : List EthFrame := []
  atu    : List AtuEnt := []
  pause  : SMap Nat := []
  p3Rx   : Nat := 0
  p3Tx   : Nat := 0
  ptpRx  : Nat := 0
  ptpTx  : Nat := 0
  tc     : SMap (List TcEnt) := []
  tsWait : SMap (List (Nat × Nat × Nat)) := []
  tsq    : SMap (List TsEnt) := []
  last   : Option Int := none
  bad    : Nat := 0
  deriving DecidableEq, Repr

/-- A CAN controller beside its registers: its receive queues (18 words a frame), whether the recovery from bus-off has been
asked for, a stop that waits for the frame in progress; of its NWM channel the wake that is latched (its kind), whether the
minimum dwell runs, and whether `stuck` was raised in this READY period. -/
structure Can where
  rx0     : List (List Nat) := []
  rx1     : List (List Nat) := []
  recover : Bool := false
  stopReq : Bool := false
  latch   : Option Nat := none
  dwell   : Bool := false
  stuck   : Bool := false
  deriving DecidableEq, Repr

/-- The field die beside its registers: whether VFIELD powers it, whether VFIELD is low (R428), whether heartbeats arrive (R13), the
mark of an access timeout (R14), the raw readings of the points with the run of samples that differ from FIO_IN, and the points
above the thermal release temperature. DESIGN CHOICE, log entry 4; DEDUCED, log entry 108. -/
structure Field where
  die     : Bool := true
  low     : Bool := false
  hb      : Bool := false
  timeout : Bool := false
  raw     : Nat := 0
  cnt     : SMap Nat := []
  hot     : Nat := 0
  deriving DecidableEq, Repr

/-- Line time while NET is off (R399): the last f (32-bit pattern) and AON period, whether NET was switched off with FABRIC on, and the
line time that AON has stored at a reset or a sleep entry, in 2^-16 ns. -/
structure Net where
  f      : Nat := 0
  cal    : Nat := 0x77359400
  held   : Bool := false
  stored : Option Nat := none
  deriving DecidableEq, Repr

/-- The whole state. Of the processors and the SEC page: `offers` holds the target of each offered or draining page, `drain` the
page that drains under a commit or a reclaim, `chr` what Chrysalis runs (0 nothing, 1 the boot ROM, 2 the firmware) from
`chrPc`, and `running` the firmware bank that runs (0 A, 1 B).
`portQ` tells for each port of the pool with an item in progress or being discarded its queue plus one; `pairs` is keyed
by function and pair, `noDma` lists the draining functions that can no longer write, `sesOpen` the open session slots, and
`windows` holds the transfer window of each session function (R339). `sleep` is the power state of R58: 0 RUN, 1 SLEEP,
2 AGEING_WATCH. `up` tells that start-up has run since the last reset or wake (R57), `warm` that the last reset was warm, and
`wdt` that it was a watchdog warm reset (R53); `fta` holds the nonce of an open challenge and `ftaFails` counts the failed answers
(R458), and `cert` is a certificate chain provisioned later, none for that of the factory (R221). `lenNew` is a superframe length that waits for its boundary, and `lenOld` keeps the boundary of the last change with the
length before (R84, R386). DESIGN CHOICE, log entry 4. -/
structure State where
  pending : List Instr := []
  fields  : SMap Nat := resetFields
  mem     : Mem := []
  words   : SMap Nat := []
  snap    : SMap Nat := []
  half    : SMap Nat := []
  rsp     : Rsp := {}
  out     : List Out := []
  free    : Nat := 0
  stamps  : Nat := 0
  evr     : Evr := {}
  k       : Nat := 0
  len     : Nat := 200
  vcore   : SMap Vcore := []
  harts   : SMap Hart := []
  saved   : SMap Ctx := []
  banks   : SMap Bank := []
  chans   : SMap Chan := []
  w       : Nat := 0
  tally   : Nat := 0
  led     : Nat := 0
  missAt  : Option Nat := none
  ldgCmd  : Option Due := none
  gateRel : SMap Due := []
  ports   : SMap (List Item) := []
  grdIn   : List GrdMsg := []
  logAcc  : SMap LogAcc := []
  logSeq  : SMap Nat := []
  logCfg  : Bool := false
  tags    : SMap Tag := []
  roles   : SMap Nat := []
  plk     : Plk := {}
  mirror  : SMap (List Byte) := []
  chMap   : SMap Nat := []
  grd     : SMap GrdCh := []
  keys    : SMap Slot := []
  job     : Option Job := none
  bbRoot  : Nat := Config.factoryRoot.toNat
  bbMark  : Nat := 0x5AA5C33C
  bbCheck : Bool := true
  bb      : Mem := []
  lenNew  : Option Nat := none
  lenOld  : Option (Nat × Nat) := none
  offers  : SMap Nat := []
  drain   : Option Nat := none
  moves   : List Move := []
  chr     : Nat := 0
  chrPc   : Nat := 0
  boot    : Boot := {}
  svc     : Svc := {}
  running : Option Nat := none
  queues  : SMap Queue := []
  pool    : Pool := {}
  portQ   : SMap Nat := []
  pairs   : SMap QPair := []
  pcie    : Pcie := {}
  noDma   : List Nat := []
  sesOpen : List Nat := []
  windows : SMap Mem := []
  esw     : Esw := {}
  cans    : SMap Can := []
  sleep   : Nat := 0
  up      : Bool := false
  warm    : Bool := false
  wdt     : Bool := false
  net     : Net := {}
  fta     : Option Nat := none
  ftaFails : Nat := 0
  cert    : Option (List Byte) := none
  fld     : Field := {}
  deriving DecidableEq, Repr

/-- The machine right after reset: every register at its reset value, memory with nothing listed.
DESIGN CHOICE, log entries 3, 4. -/
def State.reset : State := {}

end Sys2Proof.Machine
end

