-- ==== Sys2Proof/Machine/Ops.lean ====
section
/-! DEFINITION. Named operations over registers, memory, pages and numbers that every family of commands uses. -/
namespace Sys2Proof.Machine

/-! ### Numbers -/

/-- The two's-complement value of the low `w` bits of `n`. -/
def toS (w n : Nat) : Int :=
  let m := n % 2 ^ w
  if 2 * m < 2 ^ w then (m : Int) else (m : Int) - (2 ^ w : Nat)

/-- The `w`-bit two's-complement pattern of `i`. -/
def ofS (w : Nat) (i : Int) : Nat := (i % (2 ^ w : Nat)).toNat

/-- Rounding division of the spec: the nearest integer to `a / b` for `b > 0`, halves towards +∞ (R95). -/
def rnd (a b : Int) : Int := (2 * a + b) / (2 * b)

/-- `x` limited to the range from `lo` to `hi`. -/
def clampI (lo hi x : Int) : Int := if x < lo then lo else if hi < x then hi else x

/-- `x` limited to the range from `lo` to `hi`. -/
def clampN (lo hi x : Nat) : Nat := if x < lo then lo else if hi < x then hi else x

/-- Saturation to the signed 36-bit range. -/
def sat36 (x : Int) : Int := clampI (-(2 ^ 35)) (2 ^ 35 - 1) x

/-- Bit `i` of `n`. -/
def bitOf (n i : Nat) : Bool := n.testBit i

/-- Bits `lo` to `lo + w - 1` of `n`. -/
def bitsOf (n lo w : Nat) : Nat := (n >>> lo) % 2 ^ w

/-- 1 for true and 0 for false. -/
def b2n (b : Bool) : Nat := if b then 1 else 0

/-- The number with exactly the bits of the list set. -/
def maskOf (l : List Nat) : Nat := l.foldl (fun m i => m ||| 2 ^ i) 0

/-- The numbers below `n` whose bit is set in `m`. -/
def bitsIn (n m : Nat) : List Nat := (List.range n).filter (fun i => m.testBit i)

/-- The little-endian bytes of `n`. -/
def toBytes : Nat → Nat → List Byte
  | 0, _ => []
  | k + 1, n => BitVec.ofNat 8 n :: toBytes k (n / 256)

/-- The number whose little-endian bytes are the list. -/
def ofBytes : List Byte → Nat
  | [] => 0
  | b :: bs => b.toNat + 256 * ofBytes bs

/-! ### Pages (R6, R11) -/

def pgSys : Nat := 0x000
def pgPwr : Nat := 0x001
def pgClk : Nat := 0x002
def pgRst : Nat := 0x003
def pgEvr : Nat := 0x004
def pgUpd : Nat := 0x005
def pgKey : Nat := 0x008
def pgCry : Nat := 0x009
def pgTmp : Nat := 0x00A
def pgSec : Nat := 0x00C
def pgMbx : Nat := 0x00D
def pgDbg : Nat := 0x00E
def pgHif : Nat := 0x010
def pgFnc : Nat := 0x011
def pgQpm : Nat := 0x018
def pgBrg : Nat := 0x01C
def pgEsw : Nat := 0x020
def pgPtp : Nat := 0x024
def pgCan (n : Nat) : Nat := 0x028 + n
def pgNwm : Nat := 0x02C
def pgFio : Nat := 0x030
def pgLdc : Nat := 0x031
def pgIdm : Nat := 0x032
def pgLgr : Nat := 0x040
def pgGrd : Nat := 0x041
def pgPair : Nat := 0x042
def pgTrp : Nat := 0x043
def pgStp : Nat := 0x044
def pgBnk (b : Nat) : Nat := 0x080 + b
def pgChn (c : Nat) : Nat := 0x100 + c

/-! Register groups that a page shows through a selector are instances of their own, numbered above the pages. -/

/-- The registers of host function `f` (shown through FNC_SEL, and on the function's own page). -/
def iFn (f : Nat) : Nat := 0x400 + f
/-- The registers of cocoon `n` (shown through SEC_COC_SEL). -/
def iCoc (n : Nat) : Nat := 0x800 + n
/-- The rate-limit registers of event code `c` (shown through EVR_RL_SEL). -/
def iCode (c : Nat) : Nat := 0x900 + c
/-- The registers of pool queue `q` (shown through QPM_Q_SEL). -/
def iQue (q : Nat) : Nat := 0x1000 + q
/-- The table entry of VLAN `v` (shown through ESW_VLAN_VID). -/
def iVlan (v : Nat) : Nat := 0x2000 + v
/-- The grading staging registers of channel `c` (shown through GRD_CH_SEL). -/
def iGrd (c : Nat) : Nat := 0x3000 + c
/-- The registers kept per requester, for requester number `r`. -/
def iReq (r : Nat) : Nat := 0x4000 + r
/-- The shadow copies of the registers of instance `i` that are shadowed (R123, R202). -/
def iShadow (i : Nat) : Nat := 0x8000 + i

/-- The values in force of registers of instance `i` that a write changes at a boundary only (R113, R158, R173, R205). -/
def iForce (i : Nat) : Nat := 0x10000 + i

/-- The kinds of block, one for each row of R11. -/
inductive Blk where
  | sys | pwr | clk | rst | evr | upd | key | cry | tmp | sec | mbx | dbg | hif | fnc | qpm | brg | esw | ptp | can | nwm
  | fio | ldc | idm | lgr | grd | pair | trp | stp | bnk | chn
  deriving DecidableEq, Repr

/-- The single-page blocks with their pages. -/
def blkPages : List (Nat × Blk) :=
  [(0x000, .sys), (0x001, .pwr), (0x002, .clk), (0x003, .rst), (0x004, .evr), (0x005, .upd), (0x008, .key), (0x009, .cry),
   (0x00A, .tmp), (0x00C, .sec), (0x00D, .mbx), (0x00E, .dbg), (0x010, .hif), (0x011, .fnc), (0x018, .qpm), (0x01C, .brg),
   (0x020, .esw), (0x024, .ptp), (0x028, .can), (0x029, .can), (0x02A, .can), (0x02B, .can), (0x02C, .nwm), (0x030, .fio),
   (0x031, .ldc), (0x032, .idm), (0x040, .lgr), (0x041, .grd), (0x042, .pair), (0x043, .trp), (0x044, .stp)]

/-- The block of a page, or none where the page is unpopulated (R11). -/
def blkOf (p : Nat) : Option Blk :=
  if 0x080 ≤ p ∧ p < 0x0A0 then some .bnk
  else if 0x100 ≤ p ∧ p < 0x300 then some .chn
  else (blkPages.find? (fun x => x.1 = p)).map (·.2)

/-- The fields of a block's page beyond the common header. -/
def Blk.table : Blk → List Row
  | .sys => R.tableSYS | .pwr => R.tablePWR | .clk => R.tableCLK | .rst => R.tableRST | .evr => R.tableEVR
  | .upd => R.tableUPD | .key => R.tableKEY | .cry => R.tableCRY | .tmp => R.tableTMP | .sec => R.tableSEC
  | .mbx => R.tableMBX | .dbg => R.tableDBG | .hif => [] | .fnc => R.tableFNC | .qpm => R.tableQPM | .brg => R.tableBRG
  | .esw => R.tableESW | .ptp => R.tablePTP | .can => R.tableCAN | .nwm => R.tableNWM | .fio => R.tableFIO
  | .ldc => R.tableLDC | .idm => R.tableIDM | .lgr => R.tableLGR | .grd => R.tableGRD | .pair => R.tablePAIR
  | .trp => R.tableTRP | .stp => R.tableSTP | .bnk => R.tableBNK | .chn => R.tableCHN

/-- The page number of a block's instance 0, its type code. -/
def typeOf (p : Nat) : Nat :=
  if 0x080 ≤ p ∧ p < 0x0A0 then 0x080 else if 0x100 ≤ p ∧ p < 0x300 then 0x100
  else if 0x028 ≤ p ∧ p < 0x02C then 0x028 else p

/-- Every populated page. -/
def allPages : List Nat :=
  blkPages.map (·.1) ++ (List.range 32).map pgBnk ++ (List.range 512).map pgChn

/-- The switched domain of a page; none for the AON and VBAT islands (R11, R41). -/
def domOf (p : Nat) : Option Nat :=
  if p < 4 ∨ p = 0x00A ∨ p = 0x02C then none
  else if p = 0x008 ∨ p = 0x009 ∨ p = 0x00C ∨ p = 0x00D then some 2
  else if p = 0x020 ∨ p = 0x024 then some 5
  else if p = 0x030 ∨ p = 0x031 ∨ p = 0x032 then some 7
  else if (0x080 ≤ p ∧ p < 0x090) ∨ (0x100 ≤ p ∧ p < 0x200) then some 3
  else if (0x090 ≤ p ∧ p < 0x0A0) ∨ (0x200 ≤ p ∧ p < 0x300) then some 4
  else some 0

/-! ### Header fields (R11 to R26) -/
namespace R
def CTRL_lock : Fld := ⟨0x008, 2, 1, 0, .w1s⟩
/-- The enable bit of page `p`; 1 at reset for SYS, PWR, CLK, RST, EVR, TMP and IDM. -/
def CTRL_enable (p : Nat) : Fld :=
  ⟨0x008, 0, 1, if p < 5 ∨ p = 0x00A ∨ p = 0x032 then 1 else 0, .rw⟩
def STAT_reset_busy : Fld := ⟨0x00C, 1, 1, 0, .ro⟩
def INT_STAT : Fld := ⟨0x010, 0, 32, 0, .w1c⟩
def INT_EN : Fld := ⟨0x014, 0, 32, 0, .rw⟩
def OWNER_handover : Fld := ⟨0x01C, 24, 2, 0, .ro⟩
def OWNER_function : Fld := ⟨0x01C, 8, 9, 0, .ro⟩
def OWNER_cocoon : Fld := ⟨0x01C, 4, 4, 0, .ro⟩
def OWNER_world : Fld := ⟨0x01C, 0, 2, 1, .ro⟩
/-- The MSI-X table of a function page and its pending bits (R338, the layout of the PCIe specification). -/
def MSIX_addr_lo (v : Nat) : Fld := ⟨0x800 + 16 * v, 0, 32, 0, .rw⟩
def MSIX_addr_hi (v : Nat) : Fld := ⟨0x804 + 16 * v, 0, 32, 0, .rw⟩
def MSIX_data (v : Nat) : Fld := ⟨0x808 + 16 * v, 0, 32, 0, .rw⟩
def MSIX_mask (v : Nat) : Fld := ⟨0x80C + 16 * v, 0, 1, 1, .rw⟩
def PBA (v : Nat) : Fld := ⟨0xC00 + 4 * (v / 32), v % 32, 1, 0, .ro⟩
end R

/-! ### Registers -/

/-- The value of field `f` of instance `i`. -/
def State.rd (s : State) (i : Nat) (f : Fld) : Nat := s.fields.get f.rst (f.key i)

/-- Set field `f` of instance `i` to the low bits of `v`. -/
def State.wr (s : State) (i : Nat) (f : Fld) (v : Nat) : State :=
  { s with fields := s.fields.set (f.key i) (v % 2 ^ f.w) }

/-- Whether field `f` of instance `i` is not zero. -/
def State.rdB (s : State) (i : Nat) (f : Fld) : Bool := s.rd i f != 0

/-- Set a one-bit field. -/
def State.wrB (s : State) (i : Nat) (f : Fld) (b : Bool) : State := s.wr i f (b2n b)

/-- The signed value of a field. -/
def State.rdS (s : State) (i : Nat) (f : Fld) : Int := toS f.w (s.rd i f)

/-- Set a field to a signed value. -/
def State.wrS (s : State) (i : Nat) (f : Fld) (v : Int) : State := s.wr i f (ofS f.w v)

/-- Add `n` to a counting field, saturating at its largest value. -/
def State.bump (s : State) (i : Nat) (f : Fld) (n : Nat) : State := s.wr i f (min (s.rd i f + n) (2 ^ f.w - 1))

/-- Set the bits of `m` in a field. -/
def State.setBits (s : State) (i : Nat) (f : Fld) (m : Nat) : State := s.wr i f (s.rd i f ||| m)

/-- Clear the bits of `m` in a field. -/
def State.clrBits (s : State) (i : Nat) (f : Fld) (m : Nat) : State :=
  s.wr i f (s.rd i f - (s.rd i f &&& m))

/-- A 64-bit value kept in two word registers, low word first. -/
def State.rd2 (s : State) (i : Nat) (f0 f1 : Fld) : Nat := s.rd i f0 + 2 ^ 32 * s.rd i f1

/-- Set a 64-bit value kept in two word registers. -/
def State.wr2 (s : State) (i : Nat) (f0 f1 : Fld) (v : Nat) : State := (s.wr i f0 v).wr i f1 (v / 2 ^ 32)

/-- Return every register of instance `i` to its reset value, but for the fields whose place `keep` holds of. -/
def State.resetInst (s : State) (i : Nat) (keep : Nat → Nat → Bool) : State :=
  { s with fields := s.fields.drop (fun k => k / 131072 == i && !keep (k / 32 % 4096) (k % 32)) }

/-- Return every register of the instances that `p` holds of to its reset value. -/
def State.resetInsts (s : State) (p : Nat → Bool) : State :=
  { s with fields := s.fields.drop (fun k => p (k / 131072)) }

/-- Copy the listed fields of instance `i` whose offset lies from `lo` up to `hi` to instance `j`; the others of that range
return to their reset values there. -/
def State.copyInst (s : State) (i j lo hi : Nat) : State :=
  let within := fun k => decide (lo ≤ k / 32 % 4096 ∧ k / 32 % 4096 < hi)
  let src := s.fields.filter (fun e => e.1 / 131072 == i && within e.1)
  let base := s.fields.drop (fun k => k / 131072 == j && within k)
  { s with fields := src.foldl (fun m e => m.set (j * 131072 + e.1 % 131072) e.2) base }

/-! Shadow copies: a shadow that is not listed equals the value in force (R123, R202). -/

/-- The shadow of field `f` of instance `i`. -/
def State.shadow (s : State) (i : Nat) (f : Fld) : Nat := s.fields.get (s.rd i f) (f.key (iShadow i))

/-- Write the shadow of field `f` of instance `i`. -/
def State.wrShadow (s : State) (i : Nat) (f : Fld) (v : Nat) : State := s.wr (iShadow i) f v

/-- The listed shadows of instance `i` as keys of the page and values. -/
def State.shadows (s : State) (i : Nat) : List (Nat × Nat) :=
  (s.fields.filter (fun e => e.1 / 131072 == iShadow i)).map (fun e => (i * 131072 + e.1 % 131072, e.2))

/-- Forget the shadows of instance `i`: they equal the values in force again. -/
def State.dropShadows (s : State) (i : Nat) : State := s.resetInsts (· == iShadow i)

/-- Put the shadows of instance `i` into force. -/
def State.applyShadows (s : State) (i : Nat) : State :=
  let l := s.shadows i
  let t := s.dropShadows i
  { t with fields := l.foldl (fun m e => m.set e.1 e.2) t.fields }

/-- The value in force of field `f` of instance `i`, where writes take effect at a boundary. -/
def State.rdF (s : State) (i : Nat) (f : Fld) : Nat := s.rd (iForce i) f

/-- The field that a row of a field list has at register offset `off`, if any. -/
def Row.at (r : Row) (off : Nat) : Option Fld :=
  let d := off - r.f.off
  let a := if r.st = 0 then 0 else d / r.st
  let e := if r.st = 0 then d else d % r.st
  let b := if r.st2 = 0 then 0 else e / r.st2
  let e := if r.st2 = 0 then e else e % r.st2
  if r.f.off ≤ off ∧ e = 0 ∧ a < r.n ∧ b < r.n2 then some { r.f with off := off } else none

/-- The fields of width at most 32 of the register at offset `off`. -/
def fieldsAt (rows : List Row) (off : Nat) : List Fld := (rows.filterMap (fun r => r.at off)).filter (fun f => f.w ≤ 32)

/-- The 32-bit word of the register at offset `off` of instance `i`, put together from its fields. -/
def State.regWord (s : State) (i : Nat) (rows : List Row) (off : Nat) : Nat :=
  (fieldsAt rows off).foldl (fun a f => a ||| (s.rd i f <<< f.lo)) 0

/-! ### Free values -/

/-- The next free value: a value that the spec leaves open. DESIGN CHOICE, log entry 6. -/
def State.freeVal (s : State) : Nat := (Config.freeValue s.free).toNat

/-- The state after a free value was taken. DESIGN CHOICE, log entry 6. -/
def State.freeNext (s : State) : State := { s with free := s.free + 1 }

/-! ### Power domains (R41) -/

/-- Whether domain `d` is on. -/
def State.domOn (s : State) (d : Nat) : Bool := bitOf (s.rd pgPwr R.PWR_DOM_STAT_on) d

/-- Whether the domain of page `p` is on; the AON and VBAT islands always are. -/
def State.pageOn (s : State) (p : Nat) : Bool :=
  match domOf p with
  | none => true
  | some d => s.domOn d

/-- The domain of bank `b`: BANKLO or BANKHI. -/
def domOfBank (b : Nat) : Nat := if b < 16 then 3 else 4

/-! ### Line time (R106, R385, R386) -/

/-- The superframe length in nanoseconds. -/
def State.tNs (s : State) : Nat := s.len * 100

/-- The timestamp format of R106 for line time `ns` (in nanoseconds since the epoch) with the holdover mark `h`. -/
def stampOf (ns : Int) (h : Bool) : Nat :=
  let n := ns.toNat
  (n / 1000000000 % 2 ^ 32) * 2 ^ 32 + (n % 1000000000) * 4 + 2 * b2n h

/-- The start of a command: nothing sent yet, no access made yet. DESIGN CHOICE, log entries 7, 9. -/
def State.start (s : State) : State := { s with rsp := {}, out := [] }

/-- Send something out of the device. DESIGN CHOICE, log entry 7. -/
def State.emit (s : State) (o : Out) : State := { s with out := s.out ++ [o] }

/-- Store bytes in the address space. -/
def State.store (s : State) (a : Nat) (bs : List Byte) : State := { s with mem := s.mem.writeBytes a bs }

/-- Read bytes of the address space. -/
def State.load (s : State) (a n : Nat) : List Byte := s.mem.readBytes a n

end Sys2Proof.Machine
end

