-- ==== Sys2Proof/Machine/Flags.lean ====
section
/-! DEFINITION. Status and interrupt flags: raising a block's interrupt (R22), MSI-X messages (R338), and reporting an event to
the event recorder (R451, R454, R487). -/
namespace Sys2Proof.Machine

/-! ### MSI-X (R338) -/

/-- Signal vector `v` of function `f`: nothing at or above the vector quota or while the vector's pending bit is set; a
masked vector sets its pending bit; otherwise the message is sent, to a session host as a VECTOR message (R339).
PRESUMED, log entry 15. -/
def State.msix (s : State) (f v : Nat) : State :=
  if s.rd (iFn f) R.FNC_FN_QUOTA_vec_quota ≤ v ∨ s.rdB (iFn f) (R.PBA v) then s
  else if s.rdB (iFn f) (R.MSIX_mask v) then s.wrB (iFn f) (R.PBA v) true
  else if s.rdB (iFn f) R.FNC_FN_CTRL_host then s.emit (.ses f 0x09 (toBytes 2 v))
  else s.emit (.msix f v (s.rd2 (iFn f) (R.MSIX_addr_lo v) (R.MSIX_addr_hi v)) (s.rd (iFn f) (R.MSIX_data v)))

/-- Set bits of FNC_F_EVT of function `f`; the event vector is signalled when the source becomes pending. -/
def State.fnEvent (s : State) (f bits : Nat) : State :=
  let was := s.rd (iFn f) R.FNC_F_EVT_evt
  let t := s.setBits (iFn f) R.FNC_F_EVT_evt bits
  if was = 0 ∧ bits ≠ 0 ∧ s.rdB (iFn f) R.FNC_F_EVT_VEC_en then t.msix f (s.rd (iFn f) R.FNC_F_EVT_VEC_vector) else t

/-! ### Block interrupts (R22, R262) -/

/-- Whether page `p` raises its interrupt: a pending and enabled cause. DEDUCED, log entry 118. -/
def State.irqLevel (s : State) (p : Nat) : Bool := (s.rd p R.INT_STAT &&& s.rd p R.INT_EN) != 0

/-- Whether an interrupt of page `p` is signalled by MSI-X: a channel page in normal ownership that is not draining.
DEDUCED, log entries 86, 118. -/
def State.irqMsix (s : State) (p : Nat) : Bool :=
  decide (0x100 ≤ p ∧ p < 0x300) && s.rd p R.OWNER_world == 0 && s.rd p R.OWNER_handover != 2

/-- The message of a page interrupt that has become pending between `s` and `t` (R262, R338). -/
def State.irqEdge (s t : State) (p : Nat) : State :=
  let f := t.rd p R.OWNER_function
  if !s.irqLevel p && t.irqLevel p && t.irqMsix p && t.rdB (iFn f) R.FNC_F_CHN_VEC_en then
    t.msix f (t.rd (iFn f) R.FNC_F_CHN_VEC_vector)
  else t

/-- The block of page `p` sets the interrupt causes of `bits`. DEDUCED, log entry 118. -/
def State.raise (s : State) (p bits : Nat) : State := s.irqEdge (s.setBits p R.INT_STAT bits) p

/-! ### The event recorder -/

/-- Codes that the rate limit exempts (R454). -/
def exemptCode (c : Nat) : Bool := c == 1 || c == 2 || c == 3

/-- A time stamp within the present superframe: its position inside the superframe is a free value, its marks are not.
DESIGN CHOICE, log entries 113, 114. -/
def State.nowStamp (s : State) : BitVec 64 :=
  BitVec.ofNat 64 (s.freeVal / 4 % 2 ^ 62 * 4 + 2 * s.rd pgPtp R.PTP_STAT_holdover)

/-- The record of an event as it arrives (R449). DESIGN CHOICE, log entry 113. -/
def State.mkEvent (s : State) (code source index : Nat) (data : List Nat) (supp : Nat) : EvRec :=
  { code := code
    flags := b2n (supp != 0) + 2 * b2n s.evr.lostFlag + 4 * b2n s.evr.ltValid
      + 8 * (if s.evr.ltValid then s.rd pgPtp R.PTP_STAT_holdover else 0)
    source := source, index := index, opTime := Config.opTime s.stamps
    pwrcyc := s.rd pgRst R.RST_PWRCYC_count, supp := supp
    time := if s.evr.ltValid then s.nowStamp else 0
    data := data }

/-- An event is dropped and counted in EVR_LOST; the next accepted record carries lost_before (R451, R487). -/
def State.evLost (s : State) : State :=
  let t := (s.bump pgEvr R.EVR_LOST_count 1).raise pgEvr 2
  { t with evr := { t.evr with lostFlag := true } }

/-- Queue an event that the rate limit let through (R451). DEDUCED, log entry 112. -/
def State.evQueue (s : State) (code source index : Nat) (data : List Nat) : State :=
  if s.evr.pend.length ≥ 32 then s.evLost
  else
    let supp := s.rd (iCode code) R.EVR_RL_STAT_suppressed
    let r := s.mkEvent code source index data supp
    let r := if s.evr.scanning then r else { r with seq := some s.evr.next }
    let t := s.wr (iCode code) R.EVR_RL_STAT_suppressed 0
    let t := t.freeNext
    { t with
      stamps := t.stamps + 1
      evr := { t.evr with
        pend := t.evr.pend ++ [r], lostFlag := false
        next := if s.evr.scanning then t.evr.next else (t.evr.next + 1) % 2 ^ 32 } }

/-- A block reports an event to the event recorder: `source` is the page of the block (R451, R454, R487). -/
def State.report (s : State) (code source index : Nat) (data : List Nat) : State :=
  if !s.domOn 0 then { s with evr := { s.evr with aonDrop := min (s.evr.aonDrop + 1) (2 ^ 32 - 1) } }
  else if !s.rdB pgEvr (R.CTRL_enable pgEvr) || s.rdB pgEvr R.STAT_reset_busy then s.evLost
  else if exemptCode code then s.evQueue code source index data
  else
    let tok := min (s.rd (iCode code) R.EVR_RL_STAT_tokens) (s.rd (iCode code) R.EVR_RL_CFG_burst)
    if tok = 0 then (s.bump (iCode code) R.EVR_RL_STAT_suppressed 1).raise pgEvr 4
    else (s.wr (iCode code) R.EVR_RL_STAT_tokens (tok - 1)).evQueue code source index data

end Sys2Proof.Machine
end

