-- ==== Sys2Proof/Machine/Operands.lean ====
section
/-! DEFINITION. Who makes an access and with which attributes (R19), the checks every register access passes (R20 to R26), and
the parts of a command word. -/
namespace Sys2Proof.Machine

/-- The attributes an access carries (R19). World codes as in xxx_OWNER: 0 normal, 1 secure, 2 cocoon. -/
structure Attr where
  world    : Nat
  cocoon   : Nat
  function : Nat
  deriving DecidableEq, Repr

/-- Hart `h`. -/
def State.hart (s : State) (h : Nat) : Hart := s.harts.get {} h

/-- Replace hart `h`. -/
def State.setHart (s : State) (h : Nat) (x : Hart) : State := { s with harts := s.harts.set h x }

/-- The attributes of a requester's access. DESIGN CHOICE, log entry 10. -/
def State.attr (s : State) : Req → Attr
  | .core h => let x := s.hart h.val; ⟨x.world, if x.world = 2 then x.cocoon else 0, 0⟩
  | .chrysalis => ⟨1, 0, 0⟩
  | .fn f => ⟨0, 0, f.val⟩
  | .session _ f => ⟨0, 0, f.val⟩
  | .probe => if s.rdB pgDbg R.DBG_EN_s_inv && s.rdB pgDbg R.DBG_EN_sba_sec then ⟨1, 0, 0⟩ else ⟨0, 0, 0⟩

/-- The requester number under which snapshots, half-written pairs and per-requester registers are kept (R9, R17, R29). -/
def reqId : Req → Nat
  | .fn f => f.val
  | .session n _ => 512 + n.val
  | .core h => 516 + h.val
  | .chrysalis => 520
  | .probe => 521

/-- Whether the requester acts in the secure world: a core in that world, or Chrysalis. -/
def State.secureReq (s : State) (r : Req) : Bool := (s.attr r).world == 1

/-- Whether R24's table accepts requester `r` on page `p`. DEDUCED, log entry 77. -/
def State.ownerAccepts (s : State) (r : Req) (p : Nat) : Bool :=
  let a := s.attr r
  let w := s.rd p R.OWNER_world
  if w = 1 then a.world == 1
  else if w = 2 then
    match r with
    | .core _ => a.world == 2 && a.cocoon == s.rd p R.OWNER_cocoon
    | _ => false
  else
    match r with
    | .core _ => a.world != 2
    | .chrysalis => true
    | .probe => true
    | .fn f => f.val == 0 || f.val == s.rd p R.OWNER_function
    | .session _ f => f.val == 0 || f.val == s.rd p R.OWNER_function

/-- Whether the clock of page `p`'s block is gated by CLK_GATE (R51, R52). -/
def State.clockGated (s : State) (p : Nat) : Bool :=
  if p = pgHif then !s.rdB pgClk R.CLK_GATE_hif
  else if p = pgEsw then !s.rdB pgClk R.CLK_GATE_esw
  else if p = pgUpd then !s.rdB pgClk R.CLK_GATE_svc
  else if p = pgDbg then !s.rdB pgClk R.CLK_GATE_dbg
  else if 0x028 ≤ p ∧ p < 0x02C then !bitOf (s.rd pgClk R.CLK_GATE_can) (p - 0x028)
  else false

/-- Whether page `p` is the channel page of a map slot of function `f` (R316, R322). -/
def State.slotPage (s : State) (f p : Nat) : Bool :=
  decide (0x100 ≤ p ∧ p < 0x300) && s.chMap.any (fun e => e.1 / 512 == f && e.2 == p - 0x100 + 1)
    && s.rd p R.OWNER_world == 0 && s.rd p R.OWNER_function == f

/-- The cause with which a host's access through function `f` ends before the page is asked (R316, R319, R340): the function is
disabled or held by another host, or a VF page that is no channel of its map. `host` is the host that makes the access. -/
def State.hostGate (s : State) (host f p : Nat) : Option Nat :=
  let holder := if f = 0 then s.rd pgFnc R.FNC_CFG_pf_host else s.rd (iFn f) R.FNC_FN_CTRL_host
  if holder ≠ host ∨ s.rd (iFn f) R.FNC_FN_STAT_state = 0 then some 0
  else if f ≠ 0 ∧ !s.slotPage f p then some 1
  else none

/-- The same for any requester. -/
def State.reqGate (s : State) (r : Req) (p : Nat) : Option Nat :=
  match r with
  | .fn f => s.hostGate 0 f.val p
  | .session n f => s.hostGate n.val f.val p
  | _ => none

/-- Whether page `p` lies on a field die that has no supply and answers nothing (R14, R476). -/
def State.fieldDead (s : State) (p : Nat) : Bool := decide (0x030 ≤ p ∧ p ≤ 0x032) && !s.fld.die

/-- The cause with which an access to offset `off` of page `p` ends as R26 states, or none where it is accepted:
0 refused, 1 decode error, 2 domain off, 3 clock off. DESIGN CHOICE, log entry 10; DEDUCED, log entry 11. -/
def State.accCause (s : State) (r : Req) (p off : Nat) (write : Bool) : Option Nat :=
  let hdrRead := !write && decide (off < 0x20)
  let free := !write && (off == 0x000 || off == 0x004 || off == 0x01C)
  match s.reqGate r p, blkOf p with
  | some c, _ => some c
  | none, none => some 1
  | none, some _ =>
    if !s.domOn 0 || !s.pageOn p then some 2
    else if s.clockGated p then some 3
    else if s.fieldDead p then some 1
    else if s.rdB p R.STAT_reset_busy && !hdrRead then some 1
    else if free then none
    else if p = pgPwr ∧ off = 0x078 then (if s.secureReq r then none else some 0)
    else if s.rd p R.OWNER_handover = 2 && !hdrRead then some 0
    else if s.ownerAccepts r p then none
    else some 0

/-- The attributes word of SYS_ACC_ERR_INFO (R479). -/
def accInfo (a : Attr) (write : Bool) (cause : Nat) : Nat :=
  a.function * 2 ^ 16 + a.world * 2 ^ 12 + a.cocoon * 2 ^ 8 + b2n write * 16 + cause

/-- The first access error since the cause was last cleared is kept in the SYS page and raises the interrupt (R26, R479). -/
def State.accFirst (s : State) (a : Attr) (addr : Nat) (write : Bool) (cause : Nat) : State :=
  if bitOf (s.rd pgSys R.INT_STAT) 0 then s
  else
    let t := s.wr pgSys R.SYS_ACC_ERR_ADDR_W0_addr addr
    let t := t.wr pgSys R.SYS_ACC_ERR_ADDR_W1_addr (addr / 2 ^ 32)
    let t := t.wr pgSys R.SYS_ACC_ERR_INFO_function a.function
    let t := t.wr pgSys R.SYS_ACC_ERR_INFO_world a.world
    let t := t.wr pgSys R.SYS_ACC_ERR_INFO_cocoon a.cocoon
    let t := t.wrB pgSys R.SYS_ACC_ERR_INFO_write write
    let t := t.wr pgSys R.SYS_ACC_ERR_INFO_cause cause
    t.raise pgSys 1

/-- A page of the field die that answers nothing marks the timeout (R14). -/
def State.accSilent (s : State) (addr cause : Nat) : State :=
  if s.domOn 7 && s.fieldDead ((addr - 0x40000000) / 0x1000) && cause == 1 then
    { s with fld := { s.fld with timeout := true } }.raise 0x032 1
  else s

/-- A host whose access ends in an error gets its function's event (R26). -/
def State.reqEvent (s : State) (r : Req) : State :=
  match r with
  | .fn f => s.fnEvent f.val 1
  | .session _ f => s.fnEvent f.val 1
  | _ => s

/-- An access to physical address `addr` ends as R26 states. -/
def State.accErr (s : State) (r : Req) (addr : Nat) (write : Bool) (cause : Nat) : State :=
  let a := s.attr r
  let t : State := { s with rsp := { data := 0, err := true, cause := cause } }
  let t := ((t.accSilent addr cause).bump pgSys R.SYS_ACC_ERR_COUNT_count 1).accFirst a addr write cause
  (t.report 0x08 pgSys a.function [addr % 2 ^ 32, addr / 2 ^ 32 % 256, accInfo a write cause]).reqEvent r

/-- The physical address of offset `off` of page `p` (R6). -/
def pageAddr (p off : Nat) : Nat := 0x40000000 + p * 0x1000 + off

/-- A write access of requester `r` to offset `off` of page `p`: `k` is its effect where it is accepted (R24 to R26). -/
def State.access (s : State) (r : Req) (p off : Nat) (k : State → State) : State :=
  match s.accCause r p off true with
  | some c => s.accErr r (pageAddr p off) true c
  | none => k s

/-- A read access that has an effect of its own. -/
def State.accessRd (s : State) (r : Req) (p off : Nat) (k : State → State) : State :=
  match s.accCause r p off false with
  | some c => s.accErr r (pageAddr p off) false c
  | none => k s

/-- Whether page `p` is locked: its lockable registers are read-only (R11 header, xxx_CTRL.lock). -/
def State.locked (s : State) (p : Nat) : Bool := s.rdB p R.CTRL_lock

/-- The answer of an accepted read. DESIGN CHOICE, log entry 7. -/
def State.answer (s : State) (data : Nat) : State := { s with rsp := { data := data } }

/-! ### Command words -/

/-- The superframe a command word names: the `at` bit 24 and the low 14 bits of the target count. -/
structure When where
  at_ : Bool
  sfc : Nat
  deriving DecidableEq, Repr

/-- The `at` and `sfc` fields of a command word. -/
def whenOf (d : Word) : When := ⟨bitOf d.toNat 24, d.toNat % 16384⟩

/-- Field `f` of a written word. -/
def Fld.of (f : Fld) (d : Word) : Nat := bitsOf d.toNat f.lo f.w

/-- A one-bit field of a written word. -/
def Fld.ofB (f : Fld) (d : Word) : Bool := bitOf d.toNat f.lo

/-- Field `f` of instance `i` takes its part of a written word as its access code says (R3). -/
def State.fldWrite (s : State) (i : Nat) (d : Word) (f : Fld) : State :=
  match f.acc with
  | .rw => s.wr i f (f.of d)
  | .w1c => s.clrBits i f (f.of d)
  | .w1s => s.setBits i f (f.of d)
  | _ => s

/-- The register at offset `off` of instance `i` is written with word `d`: each field as its access code says.
DESIGN CHOICE, log entry 8. -/
def State.regWrite (s : State) (i : Nat) (rows : List Row) (off : Nat) (d : Word) : State :=
  (fieldsAt rows off).foldl (fun t f => t.fldWrite i d f) s

/-- A result of a meaning: the next state. -/
abbrev Res := Host.Outcome State Fault Refusal

end Sys2Proof.Machine
end

