-- ==== Sys2Proof/Machine/Can.lean ====
section
/-! DEFINITION. The CAN FD controllers and the network sleep and wake manager (19_can_wake.md, R400 to R419). -/
namespace Sys2Proof.Machine

/-! ### Controllers -/

/-- CAN controller `n` beside its registers. -/
def State.can (s : State) (n : Nat) : Can := s.cans.get {} n

/-- Change controller `n`. -/
def State.modCan (s : State) (n : Nat) (f : Can → Can) : State := { s with cans := s.cans.set n (f (s.can n)) }

/-- Whether controller `n` has power and its clock. -/
def State.canOn (s : State) (n : Nat) : Bool :=
  s.domOn 0 && !s.clockGated (pgCan n) && !s.rdB (pgCan n) R.STAT_reset_busy

/-- The state of controller `n`: 0 CONFIG, 1 RUN, 2 SLEEPING (R401). -/
def State.canSt (s : State) (n : Nat) : Nat := s.rd (pgCan n) R.CAN_STAT_state

/-- Whether controller `n` takes part in the bus. -/
def State.canRuns (s : State) (n : Nat) : Bool :=
  s.canOn n && s.canSt n == 1 && s.rd (pgCan n) R.CAN_STAT_err_state != 2

/-- The state of NWM channel `n` (R410). -/
def State.nwmSt (s : State) (n : Nat) : Nat := s.rd pgNwm (R.NWM_CH_STAT_state n)

/-! ### Error confinement (R408, ISO 11898-1) -/

/-- The error counters of controller `n` take new values; the error state and the interrupts follow. -/
def State.canErr (s : State) (n tec rec_ : Nat) : State :=
  let p := pgCan n
  let was := s.rd p R.CAN_STAT_err_state
  let warn := (decide (s.rd p R.CAN_ERR_tec < 96) && decide (96 ≤ tec))
    || (decide (s.rd p R.CAN_ERR_rec < 96) && decide (96 ≤ rec_))
  let st := if 255 < tec then 2 else if 128 ≤ tec ∨ 128 ≤ rec_ then 1 else 0
  let t := (s.wr p R.CAN_ERR_tec (min tec 511)).wr p R.CAN_ERR_rec (min rec_ 255)
  let t := t.wr p R.CAN_STAT_err_state st
  let t := if warn then t.raise p 0x20 else t
  let t := if st = 1 ∧ was = 0 then t.raise p 0x40 else t
  if st = 2 ∧ was ≠ 2 then (t.modCan n (fun x => { x with recover := false })).raise p 0x80 else t

/-- A stop that waited for the frame in progress acts at its end (R401). -/
def State.canIdle (s : State) (n : Nat) : State :=
  if (s.can n).stopReq then
    (s.modCan n (fun x => { x with stopReq := false })).wr (pgCan n) R.CAN_STAT_state 0
  else s

/-! ### The NWM channels (R410 to R419) -/

/-- The device leaves SLEEP or AGEING_WATCH on wake source `bit` (R59): start-up follows. -/
def State.leaveSleep (s : State) (bit : Nat) : State :=
  let t := s.setBits pgPwr R.PWR_WAKE_CAUSE_cause (2 ^ bit)
  { (t.wr pgRst R.RST_CAUSE_wake 1).raise pgPwr 8 with sleep := 0, up := false }

/-- The channel enters READY: keepers and restarts are forgotten (R419). -/
def State.nwmReady (s : State) (n : Nat) : State :=
  let t := (List.range 8).foldl (fun (t : State) k => t.wr pgNwm (R.NWM_CH_NODES_seen n k) 0) s
  let t := t.wr pgNwm (R.NWM_CH_KEEPER_restarts n) 0
  (t.wr pgNwm (R.NWM_CH_STAT_state n) 2).modCan n (fun x => { x with stuck := false })

/-- A latched wake is taken (R416, R418). DEDUCED, log entry 107. -/
def State.nwmTake (s : State) (n : Nat) : State :=
  match (s.can n).latch with
  | none => s
  | some kind =>
    let t := if s.rdB pgNwm R.NWM_WAKE_SRC_valid then s
      else ((s.wr pgNwm R.NWM_WAKE_SRC_valid 1).wr pgNwm R.NWM_WAKE_SRC_kind kind).wr pgNwm R.NWM_WAKE_SRC_channel n
    let t := (t.raise pgNwm (2 ^ (4 + n))).wr pgNwm (R.NWM_CH_STAT_state n) 5
    let t := (t.wr pgNwm (R.NWM_CH_STAT_latched n) 0).modCan n (fun x => { x with latch := none })
    let t := if t.canSt n = 2 then t.wr (pgCan n) R.CAN_STAT_state 1 else t
    if s.sleep ≠ 0 ∧ bitOf (s.rd pgPwr R.PWR_WAKE_EN_en) 1 then t.leaveSleep 1 else t

/-- A wake of a kind is latched once (R413), and taken when no dwell runs (R416). -/
def State.nwmLatch (s : State) (n kind : Nat) : State :=
  if (s.can n).latch.isSome ∨ !(s.nwmSt n == 3 || s.nwmSt n == 4) then s
  else
    let t := (s.wr pgNwm (R.NWM_CH_STAT_latched n) 1).modCan n (fun x => { x with latch := some kind })
    if (s.can n).dwell then t else t.nwmTake n

/-- A reset, FABRIC off, or FIELD off for CAN0 and CAN1: the channel is forced to BUS_SLEEP (R417). DEDUCED, log entry 107. -/
def State.nwmForce (s : State) (n : Nat) : State :=
  if !s.rdB pgNwm (R.NWM_CH_CTRL_en n) ∨ s.nwmSt n = 4 then s
  else
    let t := (s.wr pgNwm (R.NWM_CH_STAT_state n) 4).bump pgNwm R.NWM_FORCED_count 1
    let t := (t.raise pgNwm 0x1000).modCan n (fun x => { x with dwell := false })
    t.nwmTake n

/-- The keeper of a keep-alive frame: the byte of the frame that src_byte names, or the low ID byte (R419). -/
def State.keeper (s : State) (n id : Nat) (data : List Byte) : Nat :=
  let b := s.rd pgNwm (R.NWM_CH_KA_src_byte n)
  if b = 0x7F then id % 256 else (data.getD b 0xFF).toNat

/-- A frame that a filter marks reaches the channel (R411, R413, R419). -/
def State.nwmFrame (s : State) (n w0 : Nat) (data : List Byte) (ka : Bool) : State :=
  if s.nwmSt n = 2 then
    if !ka then s
    else
      let node := s.keeper n w0 data
      let t := s.setBits pgNwm (R.NWM_CH_NODES_seen n (node / 32)) (2 ^ (node % 32))
      let t := (t.wr pgNwm (R.NWM_CH_KEEPER_node n) node).bump pgNwm (R.NWM_CH_KEEPER_restarts n) 1
      (t.wr pgNwm (R.NWM_CH_KEEPER_ID_ide n) (w0 / 2 ^ 31)).wr pgNwm (R.NWM_CH_KEEPER_ID_id n) w0
  else if s.nwmSt n = 3 then s.nwmLatch n 0
  else s

/-! ### Frames -/

/-- The payload bytes of a DLC (R404). -/
def dlcLen (fdf : Bool) (dlc : Nat) : Nat :=
  if dlc ≤ 8 then dlc else if fdf then [12, 16, 20, 24, 32, 48, 64].getD (dlc - 9) 0 else 8

/-- The payload of a frame from its control word and data: a remote frame has none. -/
def canData (w1 : Nat) (data : List Byte) : List Byte :=
  let n := if bitOf w1 31 then 0 else dlcLen (bitOf w1 30) (bitsOf w1 16 4)
  (data ++ List.replicate 64 0).take n

/-- The 16 data words of a payload. -/
def canWords (data : List Byte) : List Nat :=
  (List.range 16).map (fun i => ofBytes (((data ++ List.replicate 64 0).drop (4 * i)).take 4))

/-- The filter that decides a frame with ID word `w0` (R406). -/
def State.canFilter (s : State) (n w0 : Nat) : Option Nat :=
  let p := pgCan n
  (List.range 64).find? (fun f =>
    s.rdB p (R.CAN_FLT_ID_en f) && s.rd p (R.CAN_FLT_ID_ide f) == w0 / 2 ^ 31 &&
    ((w0 % 2 ^ 29) ^^^ s.rd p (R.CAN_FLT_ID_id f)) &&& s.rd p (R.CAN_FLT_MASK_mask f) == 0)

/-- A frame enters receive queue `q` (R407). -/
def State.canEnqueue (s : State) (n q : Nat) (ws : List Nat) : State :=
  let x := s.can n
  let l := if q = 0 then x.rx0 else x.rx1
  if 64 ≤ l.length then
    (s.bump (pgCan n) (if q = 0 then R.CAN_RXQ0_LOST_count else R.CAN_RXQ1_LOST_count) 1).raise (pgCan n) 4
  else
    (s.modCan n (fun x => if q = 0 then { x with rx0 := x.rx0 ++ [ws] } else { x with rx1 := x.rx1 ++ [ws] })).raise
      (pgCan n) (if q = 0 then 1 else 2)

/-- A frame becomes valid at controller `n` (R406, R407, R411): `own` tells that the controller has sent it. -/
def State.canRx (s : State) (n w0 w1 : Nat) (data : List Byte) (own : Bool) : State :=
  let p := pgCan n
  let data := canData w1 data
  let w0 := if bitOf w0 31 then 2 ^ 31 + w0 % 2 ^ 29 else w0 % 2 ^ 11
  let ctl := bitsOf w1 28 4 * 2 ^ 28 + bitsOf w1 16 4 * 2 ^ 16
  let f := s.canFilter n w0
  let dest := match f with
    | some f => s.rd p (R.CAN_FLT_MASK_dest f)
    | none => s.rd p R.CAN_CFG_nomatch
  let mark := match f with
    | some f => 64 + f
    | none => 0
  let t := if dest < 2 then s.canEnqueue n dest (w0 :: (ctl + mark) :: canWords data) else s
  match f with
  | none => t
  | some f =>
    let ka := s.rdB p (R.CAN_FLT_MASK_ka f)
    if !own && (ka || s.rdB p (R.CAN_FLT_ID_wk f)) then t.nwmFrame n w0 data ka else t

/-! ### Transmission (R404, R405) -/

/-- Word `w` of transmit buffer `b`. -/
def State.txWord (s : State) (n b w : Nat) : Nat := s.rd (pgCan n) (R.CAN_TXBUF_data b w)

/-- The arbitration field of a buffer as a number: the lowest wins. -/
def State.txPrio (s : State) (n b : Nat) : Nat :=
  let w0 := s.txWord n b 0
  let rtr := bitsOf (s.txWord n b 1) 31 1
  if bitOf w0 31 then bitsOf w0 18 11 * 2 ^ 21 + 3 * 2 ^ 19 + bitsOf w0 0 18 * 2 + rtr
  else bitsOf w0 0 11 * 2 ^ 21 + rtr * 2 ^ 20

/-- The pending buffer of mask `m` with the highest arbitration priority, the lowest number breaking a tie. -/
def State.txBest (s : State) (n m : Nat) : Option Nat :=
  (bitsIn 32 m).foldl (fun o b => match o with
    | none => some b
    | some c => if s.txPrio n b < s.txPrio n c then some b else some c) none

/-- Whether a buffer is refused at its start of transmission (R404). DEDUCED, log entry 106. -/
def State.txBad (s : State) (n b : Nat) : Bool :=
  let w1 := s.txWord n b 1
  bitOf w1 30 && (!s.rdB (pgCan n) R.CAN_CFG_fd || bitOf w1 31)

/-- The buffers of mask `m` are aborted. -/
def State.txAbort (s : State) (n m : Nat) : State :=
  let p := pgCan n
  let m := s.rd p R.CAN_TX_PEND_pend &&& m
  if m = 0 then s
  else
    let t := (s.clrBits p R.CAN_TX_PEND_pend m).clrBits p R.CAN_TX_ABORT_abort m
    (t.setBits p R.CAN_TX_ABORTED_aborted m).raise p 0x10

/-- Before a start of frame: buffers that R404 refuses end, until the best one is good. DEDUCED, log entry 106. -/
def State.txRefuse (s : State) (n : Nat) : Nat → State
  | 0 => s
  | k + 1 =>
    match s.txBest n (s.rd (pgCan n) R.CAN_TX_PEND_pend) with
    | none => s
    | some b =>
      if s.txBad n b then ((s.txAbort n (2 ^ b)).setBits (pgCan n) R.CAN_TX_ERR_refused (2 ^ b)).txRefuse n k else s

/-- Whether controller `n` may transmit: it runs, in a mode that sends. DEDUCED, log entry 105. -/
def State.canSends (s : State) (n : Nat) : Bool :=
  let m := s.rd (pgCan n) R.CAN_CFG_mode
  s.canRuns n && m != 1 && m != 2

/-- Buffers become pending (R405). -/
def State.txPend (s : State) (n m : Nat) : State :=
  let t := s.setBits (pgCan n) R.CAN_TX_PEND_pend m
  if t.canSends n then t.txRefuse n 32 else t

/-! ### Commands of the controllers -/

/-- Whether the bit timing and the configuration allow a start (R402, R403). -/
def State.canTiming (s : State) (n : Nat) : Bool :=
  let p := pgCan n
  let f := fun (x : Fld) => s.rd p x + 1
  let fd := s.rdB p R.CAN_CFG_fd
  let ntq := 1 + f R.CAN_NBT_tseg1 + f R.CAN_NBT_tseg2
  let dtq := 1 + f R.CAN_DBT_tseg1 + f R.CAN_DBT_tseg2
  decide (f R.CAN_NBT_sjw ≤ f R.CAN_NBT_tseg2) && decide (f R.CAN_DBT_sjw ≤ f R.CAN_DBT_tseg2) &&
    decide (8 ≤ ntq) && decide (5 ≤ dtq) &&
    !(fd && decide (ntq * f R.CAN_NBT_brp < dtq * f R.CAN_DBT_brp)) &&
    !(s.rdB p R.CAN_CFG_triple && !fd && decide (f R.CAN_NBT_tseg1 < 3))

/-- A CANn_CMD write of an accepted requester; `busy` tells that a frame is in progress. -/
def State.canCmd (s : State) (n : Nat) (d : Word) (busy : Bool) : State :=
  let p := pgCan n
  let t := if R.CAN_CMD_start.ofB d && s.canSt n == 0 then
      if s.canTiming n then
        let t := s.wr p R.CAN_STAT_state 1
        if t.canSends n then t.txRefuse n 32 else t
      else s.raise p 0x400
    else s
  let t := if R.CAN_CMD_stop.ofB d && s.canSt n == 1 then
      if busy then t.modCan n (fun x => { x with stopReq := true }) else t.wr p R.CAN_STAT_state 0
    else t
  if R.CAN_CMD_recover.ofB d && t.rd p R.CAN_STAT_err_state == 2 then t.modCan n (fun x => { x with recover := true }) else t

/-- CAN_START (R401, R402). -/
def execCanStart (r : Req) (n : Fin 4) (d : Word) (s : State) : Res :=
  .next (s.start.access r (pgCan n.val) 0x030 (fun s => s.canCmd n.val (d ||| 0x80000000) false))

/-- CAN_STOP (R401); `busy` tells that a frame is in progress. -/
def execCanStop (r : Req) (n : Fin 4) (d : Word) (busy : Bool) (s : State) : Res :=
  .next (s.start.access r (pgCan n.val) 0x030 (fun s => s.canCmd n.val (d ||| 0x40000000) busy))

/-- CAN_RECOVER (R408). -/
def execCanRecover (r : Req) (n : Fin 4) (d : Word) (s : State) : Res :=
  .next (s.start.access r (pgCan n.val) 0x030 (fun s => s.canCmd n.val (d ||| 0x20000000) false))

/-- CAN_TX_PEND (R405). -/
def execCanTxPend (r : Req) (n : Fin 4) (d : Word) (s : State) : Res :=
  .next (s.start.access r (pgCan n.val) 0x038 (fun s => s.txPend n.val d.toNat))

/-- A CANn_TX_ABORT write; `tx` is the buffer in transmission, whose abort waits for the end of the attempt (R405). -/
def State.txAbortReq (s : State) (n : Nat) (m : Nat) (tx : Option Nat) : State :=
  let keep := match tx with
    | some b => 2 ^ b
    | none => 0
  let t := s.txAbort n (m - (m &&& keep))
  t.setBits (pgCan n) R.CAN_TX_ABORT_abort (m &&& keep &&& t.rd (pgCan n) R.CAN_TX_PEND_pend)

/-- CAN_TX_ABORT (R405). -/
def execCanTxAbort (r : Req) (n : Fin 4) (d : Word) (tx : Option (Fin 32)) (s : State) : Res :=
  .next (s.start.access r (pgCan n.val) 0x03C (fun s => s.txAbortReq n.val d.toNat (tx.map (·.val))))

/-- A CANn_RXQ_CMD write: the heads of the named queues are removed (R407). -/
def State.canPop (s : State) (n : Nat) (d : Word) : State :=
  s.modCan n (fun x => { x with
    rx0 := if R.CAN_RXQ_CMD_pop0.ofB d then x.rx0.drop 1 else x.rx0
    rx1 := if R.CAN_RXQ_CMD_pop1.ofB d then x.rx1.drop 1 else x.rx1 })

/-- CAN_RXQ_POP (R407): a pop of queue `q`. -/
def execCanRxqPop (r : Req) (n : Fin 4) (q : Fin 2) (d : Word) (s : State) : Res :=
  .next (s.start.access r (pgCan n.val) 0x050 (fun s =>
    s.canPop n.val (d ||| (if q.val = 0 then 0x80000000 else 0x40000000))))

/-- CAN_FRAME_RX (R407): a frame of another node becomes valid; `w0`, `w1` are its words 0 and 1 (R404).
DEDUCED, log entry 105. -/
def execCanFrameRx (n : Fin 4) (w0 w1 : Word) (data : List Byte) (s : State) : Res :=
  let s := s.start
  let n := n.val
  let p := pgCan n
  let m := s.rd p R.CAN_CFG_mode
  if !s.canRuns n ∨ m = 3 ∨ (bitOf w1.toNat 30 ∧ !s.rdB p R.CAN_CFG_fd) then .next s
  else
    let c := s.rd p R.CAN_ERR_rec
    let t := if 127 < c then (s.canErr n (s.rd p R.CAN_ERR_tec) (119 + s.freeVal % 9)).freeNext
      else s.canErr n (s.rd p R.CAN_ERR_tec) (c - 1)
    .next ((t.canRx n w0.toNat w1.toNat data false).canIdle n)

/-- CAN_FRAME_TX_END (R405): an attempt ends with result 0 sent, 1 arbitration lost, 2 error with code `lec` that counts in TEC
where `cnt` says so; the buffers of `late` became pending after its start of frame. -/
def execCanFrameTxEnd (n : Fin 4) (res : Fin 3) (late : Word) (lec : Fin 8) (cnt : Bool) (s : State) : Res :=
  let s := s.start
  let n := n.val
  let p := pgCan n
  let pend := s.rd p R.CAN_TX_PEND_pend
  match s.txBest n (pend - (pend &&& late.toNat)) with
  | none => .next s
  | some b =>
    if !s.canSends n then .next s
    else
      let tec := s.rd p R.CAN_ERR_tec
      let rc := s.rd p R.CAN_ERR_rec
      let t :=
        if res.val = 0 then
          let w1 := s.txWord n b 1
          let w1 := if s.rdB p R.CAN_CFG_brs_en then w1 else w1 - bitsOf w1 29 1 * 2 ^ 29
          let ws := (List.range 16).map (fun i => s.txWord n b (2 + i))
          let data := ws.flatMap (toBytes 4)
          let t := s.emit (.can n (s.txWord n b 0 :: w1 :: ws))
          let t := (t.clrBits p R.CAN_TX_PEND_pend (2 ^ b)).clrBits p R.CAN_TX_ABORT_abort (2 ^ b)
          let t := ((t.setBits p R.CAN_TX_DONE_done (2 ^ b)).raise p 8).canErr n (tec - 1) rc
          if 3 ≤ s.rd p R.CAN_CFG_mode ∧ s.rd p R.CAN_CFG_mode ≤ 4 then
            t.canRx n (s.txWord n b 0) (w1 - bitsOf w1 28 1 * 2 ^ 28) data true
          else t
        else
          let t := if res.val = 2 then (s.wr p R.CAN_ERR_lec lec.val).canErr n (if cnt then tec + 8 else tec) rc else s
          t.txAbort n (t.rd p R.CAN_TX_ABORT_abort)
      let t := if t.canSends n then t.txRefuse n 32 else t
      .next (t.canIdle n)

/-- CAN_BUS_ERROR (R408): the receiver detects an error of code `lec`; `eight` tells that ISO 11898-1 adds 8 to REC and not 1.
A protocol exception changes no counter. DEDUCED, log entry 105. -/
def execCanBusError (n : Fin 4) (lec : Fin 8) (eight : Bool) (s : State) : Res :=
  let s := s.start
  let n := n.val
  let p := pgCan n
  if !s.canRuns n then .next s
  else if lec.val = 7 ∧ s.rdB p R.CAN_CFG_pxe then .next (((s.wr p R.CAN_ERR_lec 7).raise p 0x200).canIdle n)
  else
    let lec := if lec.val = 7 then 2 else lec.val
    let t := (s.wr p R.CAN_ERR_lec lec).canErr n (s.rd p R.CAN_ERR_tec) (s.rd p R.CAN_ERR_rec + (if eight then 8 else 1))
    .next (t.canIdle n)

/-- CAN_BUS_ON (R408): 128 occurrences of 11 recessive bits have passed since bus-off, or since the recover command. -/
def execCanBusOn (n : Fin 4) (s : State) : Res :=
  let s := s.start
  let n := n.val
  let p := pgCan n
  if s.canOn n && s.rd p R.CAN_STAT_err_state == 2 && (s.rdB p R.CAN_CFG_abo || (s.can n).recover) then
    let t := ((s.wr p R.CAN_ERR_tec 0).wr p R.CAN_ERR_rec 0).wr p R.CAN_STAT_err_state 0
    let t := (t.modCan n (fun x => { x with recover := false })).raise p 0x100
    .next (if t.canSends n then t.txRefuse n 32 else t)
  else .next s

/-- A write of a CAN register of an accepted requester (R401, R405); whether a frame is in progress, and from which buffer, is a
free value. -/
def State.canWrite (s : State) (n off : Nat) (d : Word) : State :=
  let p := pgCan n
  if off = 0x020 ∨ off = 0x024 ∨ off = 0x028 ∨ (0x100 ≤ off ∧ off < 0x300) then
    if s.canSt n = 0 then s.regWrite p R.tableCAN off d else s.raise p 0x400
  else if off = 0x030 then s.freeNext.canCmd n d (bitOf s.freeVal 0)
  else if off = 0x038 then s.txPend n d.toNat
  else if off = 0x03C then
    s.freeNext.txAbortReq n d.toNat (if bitOf s.freeVal 0 then some (s.freeVal / 2 % 32) else none)
  else if off = 0x050 then s.canPop n d
  else if 0x400 ≤ off ∧ off < 0xD00 ∧ bitOf (s.rd p R.CAN_TX_PEND_pend) ((off - 0x400) / 72) then s
  else s.regWrite p R.tableCAN off d

/-- RXQ0 and RXQ1 not empty set their causes again after a clear (R407, CANn_INT_STAT). DEDUCED, log entry 106. -/
def State.canLevel (s : State) (n : Nat) : State :=
  let x := s.can n
  let m := b2n (!x.rx0.isEmpty) + 2 * b2n (!x.rx1.isEmpty)
  if m = 0 then s else s.raise (pgCan n) m

/-! ### Commands of the NWM channels -/

/-- Whether the NWM wants the transceiver of channel `n` in standby: CANn_STB is high (R409, R410). -/
def State.canStb (s : State) (n : Nat) : Bool := s.nwmSt n == 0 || s.nwmSt n == 4

/-- An NWM_CHn_CTRL write of an accepted requester (R410, R414). -/
def State.nwmCtrl (s : State) (n : Nat) (d : Word) : State :=
  let en := (R.NWM_CH_CTRL_en n).ofB d
  let req := (R.NWM_CH_CTRL_awake_req n).ofB d
  let st := s.nwmSt n
  let t := (s.wrB pgNwm (R.NWM_CH_CTRL_en n) en).wrB pgNwm (R.NWM_CH_CTRL_awake_req n) req
  if !en then
    let t := (t.wr pgNwm (R.NWM_CH_STAT_state n) 0).wr pgNwm (R.NWM_CH_STAT_latched n) 0
    t.modCan n (fun x => { x with latch := none, dwell := false })
  else
    let t := if (st = 0 ∨ st = 2) ∧ req then t.wr pgNwm (R.NWM_CH_STAT_state n) 1
      else if (st = 0 ∨ st = 1) ∧ !req then t.nwmReady n
      else t
    if (R.NWM_CH_CTRL_wake n).ofB d then t.nwmLatch n 5 else t

/-- NWM_CH_ENABLE (R410). -/
def execNwmChEnable (r : Req) (n : Fin 4) (d : Word) (s : State) : Res :=
  .next (s.start.access r pgNwm (0x100 + 128 * n.val) (fun s => s.nwmCtrl n.val d))

/-- NWM_AWAKE_REQ (R410). -/
def execNwmAwakeReq (r : Req) (n : Fin 4) (d : Word) (s : State) : Res :=
  .next (s.start.access r pgNwm (0x100 + 128 * n.val) (fun s => s.nwmCtrl n.val (d ||| 0x80000000)))

/-- NWM_LOCAL_WAKE (R414). -/
def execNwmLocalWake (r : Req) (n : Fin 4) (d : Word) (s : State) : Res :=
  .next (s.start.access r pgNwm (0x100 + 128 * n.val) (fun s => s.nwmCtrl n.val (d ||| 0xA0000000)))

/-- NWM_KEEPALIVE_TIMER (R411). -/
def execNwmKeepaliveTimer (n : Fin 4) (s : State) : Res :=
  let s := s.start
  let n := n.val
  if s.nwmSt n = 1 ∧ s.rdB pgNwm (R.NWM_CH_TIME_ka_ms n) ∧ s.canOn n then
    .next (s.txPend n (2 ^ s.rd pgNwm (R.NWM_CH_KA_tx_buf n)))
  else .next s

/-- NWM_COMMIT_POINT (R412, R413): the ready-sleep timer expires; `tx` is the buffer in transmission, if any. -/
def execNwmCommitPoint (n : Fin 4) (tx : Option (Fin 32)) (s : State) : Res :=
  let s := s.start
  let n := n.val
  if s.nwmSt n ≠ 2 then .next s
  else
    let t := s.txAbortReq n (2 ^ 32 - 1) (tx.map (·.val))
    let t := (t.wr pgNwm (R.NWM_CH_STAT_state n) 3).raise pgNwm (2 ^ n)
    .next (t.modCan n (fun x => { x with dwell := true, latch := none }))

/-- NWM_CONTROLLER_SLEEP (R413). -/
def execNwmControllerSleep (n : Fin 4) (s : State) : Res :=
  let s := s.start
  let n := n.val
  if s.nwmSt n = 3 ∧ s.canSt n = 1 then .next ((s.txAbort n (2 ^ 32 - 1)).wr (pgCan n) R.CAN_STAT_state 2) else .next s

/-- NWM_BUS_SLEEP (R413). -/
def execNwmBusSleep (n : Fin 4) (s : State) : Res :=
  let s := s.start
  let n := n.val
  if s.nwmSt n = 3 ∧ s.canSt n ≠ 1 then .next (s.wr pgNwm (R.NWM_CH_STAT_state n) 4) else .next s

/-- Whether a classical frame matches selective-wake entry `e` of channel `n` (R415). -/
def State.swMatch (s : State) (n e w0 w1 : Nat) (data : List Byte) : Bool :=
  let p := pgNwm
  let mask := toBytes 4 (s.rd p (R.NWM_SW_DATA_W0_dmask n e)) ++ toBytes 4 (s.rd p (R.NWM_SW_DATA_W1_dmask n e))
  s.rdB p (R.NWM_SW_ID_en n e) && !bitOf w1 31 && s.rd p (R.NWM_SW_ID_ide n e) == w0 / 2 ^ 31 &&
    ((w0 % 2 ^ 29) ^^^ s.rd p (R.NWM_SW_ID_id n e)) &&& s.rd p (R.NWM_SW_MASK_mask n e) == 0 &&
    (!s.rdB p (R.NWM_SW_ID_data_en n e) ||
      (bitsOf w1 16 4 == s.rd p (R.NWM_SW_DLC_dlc n e) &&
        (List.range 8).any (fun i => (canData w1 data).getD i 0 &&& mask.getD i 0 != 0)))

/-- NWM_WAKE_DETECT (R414, R415): the detector sees 0 a wake-up pattern, 1 a correct classical frame, 2 a frame with an error,
3 RXD low for the filter time. Frames are given as words 0 and 1 of R404 and data. -/
def execNwmWakeDetect (n : Fin 4) (ev : Fin 4) (w0 w1 : Word) (data : List Byte) (s : State) : Res :=
  let s := s.start
  let n := n.val
  let mode := s.rd pgNwm (R.NWM_CH_WCFG_mode n)
  if !(s.nwmSt n == 3 || s.nwmSt n == 4) then .next s
  else if 2 ≤ n then (if ev.val = 3 ∧ mode = 2 then .next (s.nwmLatch n 4) else .next s)
  else if mode = 0 then (if ev.val = 0 then .next (s.nwmLatch n 1) else .next s)
  else if mode ≠ 1 ∨ bitOf w1.toNat 30 then .next s
  else if ev.val = 1 then
    let t := s.wr pgNwm (R.NWM_SW_ERRCNT_count n) (s.rd pgNwm (R.NWM_SW_ERRCNT_count n) - 1)
    .next (if (List.range 4).any (fun e => s.swMatch n e w0.toNat w1.toNat data) then t.nwmLatch n 2 else t)
  else if ev.val = 2 then
    let t := s.bump pgNwm (R.NWM_SW_ERRCNT_count n) 1
    .next (if t.rd pgNwm (R.NWM_SW_ERRCNT_count n) = 32 then t.nwmLatch n 3 else t)
  else .next s

/-- NWM_DWELL_END (R416): 2 ms have passed since the commit point. -/
def execNwmDwellEnd (n : Fin 4) (s : State) : Res :=
  let s := s.start
  let n := n.val
  if (s.can n).dwell then .next ((s.modCan n (fun x => { x with dwell := false })).nwmTake n) else .next s

/-- NWM_INTEGRATION_DONE (R410). -/
def execNwmIntegrationDone (n : Fin 4) (s : State) : Res :=
  let s := s.start
  let n := n.val
  if s.nwmSt n = 5 ∧ s.canOn n ∧ s.canSt n = 1 then
    if s.rdB pgNwm (R.NWM_CH_CTRL_awake_req n) then .next (s.wr pgNwm (R.NWM_CH_STAT_state n) 1)
    else .next ((s.nwmReady n).wr pgNwm (R.NWM_CH_STAT_woken n) 1)
  else .next s

/-- NWM_STUCK (R419): the channel has been in READY longer than stuck_s. -/
def execNwmStuck (n : Fin 4) (s : State) : Res :=
  let s := s.start
  let n := n.val
  if s.nwmSt n = 2 ∧ s.rdB pgNwm (R.NWM_CH_STUCK_stuck_s n) ∧ !(s.can n).stuck then
    let t := (s.modCan n (fun x => { x with stuck := true })).raise pgNwm (2 ^ (8 + n))
    .next (t.report 0x38 pgNwm n [s.regWord pgNwm R.tableNWM (0x114 + 128 * n), s.regWord pgNwm R.tableNWM (0x118 + 128 * n)])
  else .next s

/-- A write of an NWM register of an accepted requester (R414). -/
def State.nwmWrite (s : State) (off : Nat) (d : Word) : State :=
  let n := (off - 0x100) / 128
  if 0x100 ≤ off ∧ off < 0x300 ∧ off % 128 = 0 then s.nwmCtrl n d
  else if 0x100 ≤ off ∧ off < 0x300 ∧ off % 128 = 0x10 then
    let m := (R.NWM_CH_WCFG_mode n).of d
    let fits := if n < 2 then decide (m < 2) else m == 2
    let t := s.regWrite pgNwm R.tableNWM off d
    let t := t.wr pgNwm (R.NWM_CH_WCFG_twake_ms n) (clampN 1 8 ((R.NWM_CH_WCFG_twake_ms n).of d))
    if fits then t
    else (t.wr pgNwm (R.NWM_CH_WCFG_mode n) (s.rd pgNwm (R.NWM_CH_WCFG_mode n))).raise pgNwm 0x2000
  else s.regWrite pgNwm R.tableNWM off d

end Sys2Proof.Machine
end

