-- ==== Sys2Proof/Machine/Evr.lean ====
section
/-! DEFINITION. The event recorder: writing records, the start-up scan, the rate limit, the read window and software
records (22_event_recorder_returns.md). -/
namespace Sys2Proof.Machine

/-- The first address of the event recorder area of the eMRAM (R15, R452). -/
def ringBase : Nat := 0x01680000

/-- The bytes 0x00 to 0x3B of an event record (R449). -/
def EvRec.bytes (r : EvRec) (seq : Nat) : List Byte :=
  toBytes 4 seq ++ toBytes 1 r.code ++ toBytes 1 r.flags ++ toBytes 2 r.source ++ toBytes 4 (r.opTime.toNat / 256)
    ++ toBytes 1 r.opTime.toNat ++ toBytes 1 0 ++ toBytes 2 r.index ++ toBytes 4 r.pwrcyc ++ toBytes 4 r.supp
    ++ toBytes 8 r.time.toNat ++ ((List.range 7).map (fun n => toBytes 4 (r.data.getD n 0))).flatten

/-- The address of the ring slot of `seq`. -/
def slotAddr (seq : Nat) : Nat := ringBase + 64 * (seq % 16384)

/-- Whether slot `n` holds a complete record of its own slot (R453). -/
def State.slotValid (s : State) (n : Nat) : Bool :=
  let q := ofBytes (s.load (ringBase + 64 * n) 4)
  let c := ofBytes (s.load (ringBase + 64 * n + 60) 4)
  c == 2 ^ 32 - 1 - q && q % 16384 == n

/-- The sequence numbers of the valid slots (R453). The lowest bytes of seq and of NOT seq are not both zero, so one of them
is a listed cell in every valid slot. -/
def State.validSeqs (s : State) : List Nat :=
  let slots := (s.mem.filter (fun c => ringBase ≤ c.1 ∧ c.1 < ringBase + 0x100000 ∧ (c.1 % 64 = 0 ∨ c.1 % 64 = 60))).map
    (fun c => (c.1 - ringBase) / 64)
  (slots.filter s.slotValid).map (fun n => ofBytes (s.load (ringBase + 64 * n) 4))

/-- EVR_OLDEST (R456). DEDUCED, log entry 112. -/
def State.evrOldest (s : State) : Nat :=
  max (s.evr.next - 16384) (s.evr.lowest.getD s.evr.next)

/-- The head of the pending buffer is written to its slot: commit 0, then bytes 0x00 to 0x3B, then commit (R452). -/
def State.evWrite (s : State) : State :=
  if s.evr.scanning || !s.domOn 0 then s
  else
    match s.evr.pend with
    | [] => s
    | r :: rest =>
      match r.seq with
      | none => s
      | some q =>
        let a := slotAddr q
        let t := s.store (a + 60) (toBytes 4 0)
        let t := t.store a (r.bytes q)
        let t := t.store (a + 60) (toBytes 4 (2 ^ 32 - 1 - q))
        let t := { t with evr := { t.evr with pend := rest, lowest := some (t.evr.lowest.getD q) } }
        t.raise pgEvr 1

/-- EVR_RECORD_WRITE (R452). -/
def execEvrRecordWrite (s : State) : Res := .next s.start.evWrite

/-- Give the waiting records their sequence numbers from `q` on. -/
def giveSeqs : Nat → List EvRec → List EvRec
  | _, [] => []
  | q, r :: rs => { r with seq := some q } :: giveSeqs ((q + 1) % 2 ^ 32) rs

/-- R453: the scan begins when FABRIC comes on. -/
def State.scanStart (s : State) : State := { s with evr := { s.evr with scanning := true } }

/-- R453: the scan ends; the START_UP record takes the next seq and the waiting records follow. -/
def State.scanEnd (s : State) : State :=
  let v := s.validSeqs
  let next := match v.max? with
    | none => 0
    | some m => (m + 1) % 2 ^ 32
  let d := [s.regWord pgRst R.tableRST 0x024, s.regWord pgPwr R.tablePWR 0x070, s.regWord pgUpd R.tableUPD 0x02C,
    s.evr.aonDrop, s.evr.lostPrev]
  let su := s.mkEvent 0x01 0x3FF 0xFFFF d 0
  let pend := giveSeqs next (su :: s.evr.pend)
  let t := s.freeNext
  { t with
    stamps := t.stamps + 1
    evr := { t.evr with
      scanning := false, pend := pend, next := (next + pend.length) % 2 ^ 32, lowest := v.min?
      aonDrop := 0, lostPrev := 0, lostFlag := false } }

/-- EVR_SCAN_DONE (R453). -/
def execEvrScanDone (s : State) : Res :=
  let s := s.start
  if s.evr.scanning && s.domOn 0 then .next s.scanEnd else .next s

/-- EVR_TOKEN_REFILL (R454): code `c` gains a token up to its burst. -/
def execEvrTokenRefill (c : Fin 256) (s : State) : Res :=
  let s := s.start
  let i := iCode c.val
  .next (s.wr i R.EVR_RL_STAT_tokens
    (min (s.rd i R.EVR_RL_STAT_tokens + 1) (s.rd i R.EVR_RL_CFG_burst)))

/-- The outcome of a read-window request (R456). -/
def State.readWindow (s : State) (q : Nat) : State :=
  let s := s.wr pgEvr R.EVR_RD_SEQ_seq q
  if q ≥ s.evr.next ∨ s.evr.pend.any (fun r => r.seq == some q) then s.wr pgEvr R.EVR_RD_STAT_result 3
  else if q < s.evrOldest then s.wr pgEvr R.EVR_RD_STAT_result 2
  else
    let t := (List.range 16).foldl
      (fun t n => t.wr pgEvr (R.EVR_RD_DATA_data n) (ofBytes (s.load (slotAddr q + 4 * n) 4))) s
    t.wr pgEvr R.EVR_RD_STAT_result 0

/-- EVR_READ_WINDOW (R456). -/
def execEvrReadWindow (r : Req) (d : Word) (s : State) : Res :=
  .next (s.start.access r pgEvr 0x02C (fun s => s.readWindow d.toNat))

/-- An EVR_SW_CODE write of an accepted requester. -/
def State.swCode (s : State) (r : Req) (d : Word) : State :=
  let c := d.toNat % 256
  if 0xF0 ≤ c then
    s.report c pgEvr (s.rd (iReq (reqId r)) R.EVR_SW_INDEX_index)
      ((List.range 7).map (fun n => s.rd (iReq (reqId r)) (R.EVR_SW_DATA_data n)))
  else s.raise pgEvr 8

/-- EVR_SW_RECORD (R457). -/
def execEvrSwRecord (r : Req) (d : Word) (s : State) : Res :=
  .next (s.start.access r pgEvr 0x080 (fun s => s.swCode r d))

end Sys2Proof.Machine
end

