-- ==== Sys2Proof/Machine/FieldIo.lean ====
section
/-! DEFINITION. The industrial field points (20_field_io.md, R420 to R432). -/
namespace Sys2Proof.Machine

/-! ### Points and groups (R420, R426) -/

/-- Change the field die's own state. -/
def State.modFld (s : State) (f : Field → Field) : State := { s with fld := f s.fld }

/-- Whether the field die's register core runs: it has its supply and domain FIELD is on. -/
def State.fieldOn (s : State) : Bool := s.fld.die && s.domOn 7

/-- Whether point `n` is an output. -/
def State.isOut (s : State) (n : Nat) : Bool := s.rd pgFio (R.FIO_PT_CFG_mode n) == 2

/-- The size of the group that the lowest point `n` of an aligned block sets, whether or not its members are outputs. -/
def State.groupSize (s : State) (n : Nat) : Nat :=
  let g := s.rd pgFio (R.FIO_PT_CFG_group n)
  if g = 2 ∧ n % 4 = 0 then 4 else if g = 1 ∧ n % 2 = 0 then 2 else 1

/-- Whether every point from `n` on of a block of `z` is an output. -/
def State.allOut (s : State) (n z : Nat) : Bool := (List.range z).all (fun i => s.isOut (n + i))

/-- The lowest point of the group of point `n`; the point itself where it is in none. -/
def State.leader (s : State) (n : Nat) : Nat :=
  let q := n / 4 * 4
  let p := n / 2 * 2
  if s.groupSize q = 4 ∧ s.allOut q 4 then q
  else if s.groupSize p = 2 ∧ s.allOut p 2 then p
  else n

/-- Whether point `n` has a latched cause: its output stays off until the fault is cleared and its bit is written again (R425).
DEDUCED, log entry 109. -/
def State.ptLatched (s : State) (n : Nat) : Bool :=
  s.rdB pgFio (R.FIO_PT_STAT_overcurrent_l n) || s.rdB pgFio (R.FIO_PT_STAT_stuck_low_l n) ||
    s.rdB pgFio (R.FIO_PT_STAT_thermal_l n)

/-- The points that act as outputs of their own: FIO_OUT has bits for them alone (R424); not while a point of theirs has a latched
cause (R425). DEDUCED, log entry 109. -/
def State.outMask (s : State) : Nat :=
  maskOf ((List.range 32).filter (fun n => s.isOut n && s.leader n == n
    && !(List.range 4).any (fun i => s.leader (n + i) == n && s.ptLatched (n + i))))

/-- The state of the field points: 0 INIT, 1 RUN, 2 HOLD, 3 SAFE (R429). -/
def State.fioSt (s : State) : Nat := s.rd pgFio R.FIO_STATE_state

/-- FIO_OUT. -/
def State.fioOut (s : State) : Nat := s.rd pgFio R.FIO_OUT_out

/-- The output pins that are driven on (R424, R428, R429). -/
def State.fioPins (s : State) : Nat :=
  if !s.fieldOn ∨ s.fld.low ∨ s.fioSt = 0 then 0
  else maskOf ((List.range 32).filter (fun n => s.isOut n && bitOf s.fioOut (s.leader n)))

/-! ### The states (R429 to R431) -/

/-- Points 28 to 31 switch off (R431). -/
def State.hardOff (s : State) : State := s.clrBits pgFio R.FIO_OUT_out 0xF0000000

/-- The field points enter state `n`. -/
def State.setFio (s : State) (n : Nat) : State :=
  let t := if s.fioSt = n then s else s.raise pgFio 4
  let t := t.wr pgFio R.FIO_STATE_state n
  let t := t.wr pgFio R.FIO_STATE_hold_left (if n = 2 then min 10000 (s.rd pgFio R.FIO_SAFE_CFG_hold_ms) else 0)
  if n = 3 then (t.wr pgFio R.FIO_OUT_out (s.rd pgFio R.FIO_SAFE_VAL_val &&& s.outMask)).hardOff
  else if n = 0 then t.hardOff
  else t

/-- A reset notice (R55, R430): `warm` tells its kind. -/
def State.fioNotice (s : State) (warm : Bool) : State :=
  if !s.fieldOn then s
  else
    let st := s.fioSt
    let t := if st = 1 then (if warm && s.rdB pgFio R.FIO_SAFE_CFG_hold_ms then s.setFio 2 else s.setFio 3)
      else if st = 2 then (if warm then s else s.setFio 3)
      else s
    t.hardOff

/-- Silence (R13, R430): RUN goes to SAFE, HOLD holds on, points 28 to 31 switch off. -/
def State.fioSilence (s : State) : State :=
  if !s.fieldOn then s
  else (if s.fioSt = 1 then s.setFio 3 else s).hardOff

/-- A resume, which needs the heartbeat (R430). -/
def State.fioResume (s : State) : State :=
  if s.fld.hb && (s.fioSt == 2 || s.fioSt == 3) then s.setFio 1 else s

/-- A FIO_CMD write of an accepted requester. DEDUCED, log entry 109. -/
def State.fioCmd (s : State) (d : Word) : State :=
  let t := if R.FIO_CMD_resume.ofB d then s.fioResume else s
  if R.FIO_CMD_safe.ofB d && (t.fioSt == 1 || t.fioSt == 2) then t.setFio 3 else t

/-- FIO_CTRL.enable takes a value (R430). -/
def State.fioEnable (s : State) (en : Bool) : State :=
  let t := s.wrB pgFio (R.CTRL_enable pgFio) en
  if !en then t.setFio 0
  else if t.fioSt = 0 then t.setFio 1
  else t

/-! ### Outputs (R424, R429) -/

/-- FIO_OUT becomes `v` by a write: bits of points that are no outputs of their own read 0. DEDUCED, log entry 109. -/
def State.fioPut (s : State) (v : Nat) : State := s.wr pgFio R.FIO_OUT_out (v &&& s.outMask)

/-- A write of FIO_OUT, FIO_OUT_SET or FIO_OUT_CLR: `f` gives the new value from the old (R429). -/
def State.fioWrite (s : State) (f : Nat → Nat) : State :=
  if s.fioSt = 3 then s.raise pgFio 0x10
  else if s.fioSt = 2 then
    let t := s.fioResume
    if t.fioSt = 1 then t.fioPut (f t.fioOut) else t
  else s.fioPut (f s.fioOut)

/-- FIO_OUT_WRITE (R424). -/
def execFioOutWrite (r : Req) (d : Word) (s : State) : Res :=
  .next (s.start.access r pgFio 0x024 (fun s => s.fioWrite (fun _ => d.toNat)))

/-- FIO_OUT_SET (R424). -/
def execFioOutSet (r : Req) (d : Word) (s : State) : Res :=
  .next (s.start.access r pgFio 0x028 (fun s => s.fioWrite (fun v => v ||| d.toNat)))

/-- FIO_OUT_CLR (R424). -/
def execFioOutClr (r : Req) (d : Word) (s : State) : Res :=
  .next (s.start.access r pgFio 0x02C (fun s => s.fioWrite (fun v => v - (v &&& d.toNat))))

/-! ### Point configuration (R420, R426) -/

/-- A write of FIO_PTn_CFG of an accepted requester. -/
def State.ptCfg (s : State) (n : Nat) (d : Word) : State :=
  let t := s.regWrite pgFio R.tableFIO (0x100 + 4 * n) d
  let same := t.rd pgFio (R.FIO_PT_CFG_mode n) == s.rd pgFio (R.FIO_PT_CFG_mode n) &&
    t.rd pgFio (R.FIO_PT_CFG_group n) == s.rd pgFio (R.FIO_PT_CFG_group n)
  let span := max (max (s.groupSize n) (t.groupSize n)) 1
  let pts := (List.range span).map (n + ·) ++ [s.leader n]
  let on := pts.any (fun i => bitOf s.fioOut (s.leader i))
  let q := n / 4 * 4
  let p := n / 2 * 2
  let formed := (t.groupSize q != 4 || t.allOut q 4) && (t.groupSize p != 2 || t.groupSize q == 4 || t.allOut p 2)
  if same || (!on && formed) then t else s.raise pgFio 0x10

/-- FIO_PT_CFG_WRITE (R420). -/
def execFioPtCfgWrite (r : Req) (n : Fin 32) (d : Word) (s : State) : Res :=
  .next (s.start.access r pgFio (0x100 + 4 * n.val) (fun s => s.ptCfg n.val d))

/-! ### Inputs (R421 to R423) -/

/-- The reading of an input stage at `mv` millivolts: between the thresholds the last one stays (R421). -/
def State.stage (s : State) (n mv : Nat) (last : Bool) : Bool :=
  let t3 := s.rd pgFio (R.FIO_PT_CFG_mode n) == 1
  if (if t3 then 9000 else 11000) < mv then true
  else if mv < (if t3 then 6000 else 8000) then false
  else last

/-- One sample of point `n` (R422). -/
def State.samplePoint (s : State) (n mv cur : Nat) : State :=
  let raw := s.stage n mv (bitOf s.fld.raw n)
  let t := s.wr pgFio (R.FIO_PT_STAT_current n) (min cur 4095)
  let old := bitOf (s.rd pgFio R.FIO_IN_in) n
  let run := if raw == old then 0 else s.fld.cnt.get 0 n + 1
  let turn := raw != old && decide (max 1 (s.rd pgFio (R.FIO_PT_CFG_filter n)) ≤ run)
  let t := t.modFld (fun x => { x with
    raw := x.raw - (x.raw &&& 2 ^ n) + b2n raw * 2 ^ n, cnt := x.cnt.set n (if turn then 0 else run) })
  if !turn then t
  else
    let t := if raw then t.setBits pgFio R.FIO_IN_in (2 ^ n) else t.clrBits pgFio R.FIO_IN_in (2 ^ n)
    let rec_ := bitOf (s.rd pgFio (if raw then R.FIO_EDGE_RISE_en else R.FIO_EDGE_FALL_en)) n
    if !s.isOut n && rec_ then (t.setBits pgFio R.FIO_EDGE_edge (2 ^ n)).raise pgFio 2 else t

/-- FIO_SAMPLE (R422): every point is sampled; `mv` are the pin voltages in mV and `cur` the currents in the units of
FIO_PTn_STAT. While VFIELD is low the readings are held (R428). -/
def execFioSample (mv cur : List Nat) (s : State) : Res :=
  let s := s.start
  if !s.fieldOn ∨ s.fld.low then .next s
  else .next ((List.range 32).foldl (fun (t : State) n => t.samplePoint n (mv.getD n 0) (cur.getD n 0)) s)

/-! ### Faults (R423, R425 to R427) -/

/-- A cause of point `n` appears: field `f` shows it (R427). -/
def State.ptFault (s : State) (n : Nat) (f : Fld) : State :=
  ((s.wr pgFio f 1).setBits pgFio R.FIO_FAULT_fault (2 ^ n)).raise pgFio 1

/-- FIO_WIRE_BREAK (R423): the input current has stayed below 0.20 mA (`low`) or at or above 0.30 mA for 100 ms. -/
def execFioWireBreak (n : Fin 32) (low : Bool) (s : State) : Res :=
  let s := s.start
  let n := n.val
  if !s.fieldOn then .next s
  else if low then
    if s.isOut n ∨ !s.rdB pgFio (R.FIO_PT_CFG_wb_en n) ∨ s.rdB pgFio (R.FIO_PT_STAT_wire_break n) then .next s
    else .next (s.ptFault n (R.FIO_PT_STAT_wire_break n))
  else .next (s.wr pgFio (R.FIO_PT_STAT_wire_break n) 0)

/-- A latched fault of point `n` switches the output or its whole group off (R425, R426). -/
def State.ptLatch (s : State) (n : Nat) (f l : Fld) : State :=
  ((s.ptFault n f).wr pgFio l 1).clrBits pgFio R.FIO_OUT_out (2 ^ s.leader n)

/-- FIO_POINT_FAULT (R425): cause 0 overcurrent, 1 thermal, 2 stuck_low, 3 back_fed, 4 open_load is detected (`on`), or ends: for
thermal the temperature has fallen below 135 °C. -/
def execFioPointFault (n : Fin 32) (cause : Fin 5) (on : Bool) (s : State) : Res :=
  let s := s.start
  let n := n.val
  let pin := bitOf s.fioPins n
  if !s.fieldOn ∨ !s.isOut n then .next s
  else if cause.val = 0 then
    if on && pin then .next (s.ptLatch n (R.FIO_PT_STAT_overcurrent n) (R.FIO_PT_STAT_overcurrent_l n)) else .next s
  else if cause.val = 1 then
    if on then
      .next ((s.modFld (fun x => { x with hot := x.hot ||| 2 ^ n })).ptLatch n
        (R.FIO_PT_STAT_thermal n) (R.FIO_PT_STAT_thermal_l n))
    else .next (s.modFld (fun x => { x with hot := x.hot - (x.hot &&& 2 ^ n) }))
  else if cause.val = 2 then
    if on && pin then .next (s.ptLatch n (R.FIO_PT_STAT_stuck_low n) (R.FIO_PT_STAT_stuck_low_l n)) else .next s
  else if cause.val = 3 then
    if on && !pin then .next (s.ptFault n (R.FIO_PT_STAT_back_fed n))
    else if on then .next s
    else .next (s.wr pgFio (R.FIO_PT_STAT_back_fed n) 0)
  else if on && pin && s.rdB pgFio (R.FIO_PT_CFG_ol_en (s.leader n)) then .next (s.ptFault n (R.FIO_PT_STAT_open_load n))
  else if on then .next s
  else .next (s.wr pgFio (R.FIO_PT_STAT_open_load n) 0)

/-- A write of 1 to the FIO_FAULT bit of point `n` (R427). -/
def State.ptClear (s : State) (n : Nat) : State :=
  let z := fun (t : State) (f : Fld) => t.wr pgFio f 0
  let t := z (z s (R.FIO_PT_STAT_overcurrent n)) (R.FIO_PT_STAT_overcurrent_l n)
  let t := z (z t (R.FIO_PT_STAT_stuck_low n)) (R.FIO_PT_STAT_stuck_low_l n)
  let t := if bitOf s.fld.hot n then t else z (z t (R.FIO_PT_STAT_thermal n)) (R.FIO_PT_STAT_thermal_l n)
  let left := t.rdB pgFio (R.FIO_PT_STAT_thermal n) || t.rdB pgFio (R.FIO_PT_STAT_back_fed n) ||
    t.rdB pgFio (R.FIO_PT_STAT_open_load n) || t.rdB pgFio (R.FIO_PT_STAT_wire_break n)
  if left then t else t.clrBits pgFio R.FIO_FAULT_fault (2 ^ n)

/-- A FIO_FAULT write of an accepted requester. -/
def State.fioClear (s : State) (d : Word) : State := (bitsIn 32 d.toNat).foldl (fun (t : State) n => t.ptClear n) s

/-- FIO_FAULT_CLEAR (R427). -/
def execFioFaultClear (r : Req) (d : Word) (s : State) : Res :=
  .next (s.start.access r pgFio 0x030 (fun s => s.fioClear d))

/-! ### Supply and commands (R428, R430) -/

/-- VFIELD_LOW (R428, R446). -/
def execVfieldLow (s : State) : Res :=
  let s := s.start
  if s.fieldOn && !s.fld.low then .next (((s.modFld (fun x => { x with low := true })).raise pgFio 8).raise pgLdc 8)
  else .next (s.modFld (fun x => { x with low := true }))

/-- VFIELD_RESTORED (R428, R446). -/
def execVfieldRestored (s : State) : Res := .next (s.start.modFld (fun x => { x with low := false }))

/-- FIO_RESUME (R430). -/
def execFioResume (r : Req) (d : Word) (s : State) : Res :=
  .next (s.start.access r pgFio 0x040 (fun s => s.fioCmd (d ||| 0x80000000)))

/-- FIO_SAFE (R430). -/
def execFioSafe (r : Req) (d : Word) (s : State) : Res :=
  .next (s.start.access r pgFio 0x040 (fun s => s.fioCmd (d ||| 0x40000000)))

/-- FIO_ENABLE (R430): a write of FIO_CTRL.enable, ignored while the page is locked. -/
def execFioEnable (r : Req) (en : Bool) (s : State) : Res :=
  .next (s.start.access r pgFio 0x008 (fun s => if s.locked pgFio then s else s.fioEnable en))

/-- FIO_HOLD_EXPIRY (R430). -/
def execFioHoldExpiry (s : State) : Res :=
  let s := s.start
  if s.fieldOn && s.fioSt == 2 then .next (s.setFio 3) else .next s

/-- A write of a FIO register of an accepted requester. -/
def State.fioRegWrite (s : State) (off : Nat) (d : Word) : State :=
  if off = 0x024 then s.fioWrite (fun _ => d.toNat)
  else if off = 0x028 then s.fioWrite (fun v => v ||| d.toNat)
  else if off = 0x02C then s.fioWrite (fun v => v - (v &&& d.toNat))
  else if off = 0x030 then s.fioClear d
  else if off = 0x034 ∨ off = 0x038 then if s.locked pgFio then s else s.regWrite pgFio R.tableFIO off d
  else if off = 0x040 then s.fioCmd d
  else if 0x100 ≤ off ∧ off < 0x180 then s.ptCfg ((off - 0x100) / 4) d
  else s.regWrite pgFio R.tableFIO off d

/-- The FIO registers return to their reset values, but for FIO_OWNER (R432): the state is INIT. -/
def State.fioReset (s : State) : State :=
  (s.resetInst pgFio (fun off _ => off == 0x01C)).modFld (fun x => { x with raw := 0, cnt := [] })

end Sys2Proof.Machine
end

