-- ==== Sys2Proof/Machine/Crc.lean ====
section
/-! DEFINITION. The check sums (R67, R73, R78, R229, R365 and others) and the floating-point arithmetic of the spec: IEEE 754
binary32 values as exact integers, and positive binary64 results rounded to nearest even (R128, R195, R209). -/
namespace Sys2Proof.Machine

/-! ### Cyclic redundancy checks -/

/-- One bit into a CRC of width `w` with polynomial `poly`, most significant bit first. -/
def crcStep (w poly r : Nat) (b : Bool) : Nat :=
  let r2 := r * 2 % 2 ^ w
  if r.testBit (w - 1) != b then r2 ^^^ poly else r2

/-- The low `n` bits of `x`, highest first, into a CRC. -/
def crcBits (w poly r x : Nat) : Nat → Nat
  | 0 => r
  | n + 1 => crcBits w poly (crcStep w poly r (x.testBit n)) x n

/-- The CRC-16 of R67: polynomial 0x1021, no reflection; `n` bits of `x`, highest first, from register `r`. -/
def crc16 (r x n : Nat) : Nat := crcBits 16 0x1021 r x n

/-- Bytes into a CRC, each most significant bit first. -/
def crcBytes (w poly r : Nat) (bs : List Byte) : Nat := bs.foldl (fun r b => crcBits w poly r b.toNat 8) r

/-- The CRC-64 of R229. -/
def crc64 (bs : List Byte) : Nat :=
  (2 ^ 64 - 1) ^^^ crcBytes 64 0x42F0E1EBA9EA3693 (2 ^ 64 - 1) bs

/-- The CRC-8 with polynomial 0x07. -/
def crc8 (bs : List Byte) : Nat := crcBytes 8 0x07 0 bs

/-- One bit of the reflected CRC-32C. -/
def crc32cShift : Nat → Nat → Nat
  | 0, r => r
  | n + 1, r => crc32cShift n (if r.testBit 0 then (r / 2) ^^^ 0x82F63B78 else r / 2)

/-- The CRC-32C (Castagnoli, reflected, preset and final XOR 0xFFFF_FFFF) of a byte list (R78). -/
def crc32c (bs : List Byte) : Nat :=
  0xFFFFFFFF ^^^ bs.foldl (fun r b => crc32cShift 8 (r ^^^ b.toNat)) 0xFFFFFFFF

/-- One bit of the reflected CRC-32 of IEEE 802.3. -/
def crc32Shift : Nat → Nat → Nat
  | 0, r => r
  | n + 1, r => crc32Shift n (if r.testBit 0 then (r / 2) ^^^ 0xEDB88320 else r / 2)

/-- The frame check sequence of IEEE 802.3 over a byte list (R375). PRESUMED, log entry 98. -/
def ethCrc (bs : List Byte) : Nat :=
  0xFFFFFFFF ^^^ bs.foldl (fun r b => crc32Shift 8 (r ^^^ b.toNat)) 0xFFFFFFFF

/-! ### Floating point -/

/-- Whether binary32 pattern `x` is a finite number. -/
def f32Finite (x : Nat) : Bool := bitsOf x 23 8 != 255

/-- The value of a finite binary32 pattern, times 2^149: an integer. -/
def f32Int (x : Nat) : Int :=
  let e := bitsOf x 23 8
  let m := bitsOf x 0 23
  let v : Nat := if e = 0 then m else (m + 2 ^ 23) * 2 ^ (e - 1)
  if bitOf x 31 then -(v : Int) else v

/-- A positive binary64 number `man * 2^exp`; zero has `man` zero. -/
structure Flt where
  man : Nat
  exp : Int
  deriving DecidableEq, Repr

/-- `num / den * 2^ex` rounded to 53 significant bits, ties to even. Ranges are those of binary64's normal numbers.
PRESUMED, log entry 63. -/
def Flt.round (num den : Nat) (ex : Int) : Flt :=
  if num = 0 ∨ den = 0 then ⟨0, 0⟩
  else
    -- scale so that the quotient has at least 54 bits
    let sh := den.log2 + 55 - min (num.log2) (den.log2 + 55)
    let n := num * 2 ^ sh
    let q := n / den
    let extra := q.log2 + 1 - 53
    let m := q / 2 ^ extra
    let rest := (q % 2 ^ extra) * den + n % den
    let half := 2 ^ extra * den
    let up := 2 * rest > half ∨ (2 * rest = half ∧ m % 2 = 1)
    ⟨if up then m + 1 else m, ex - (sh : Int) + (extra : Int)⟩

/-- The number `n`, rounded. -/
def Flt.ofNat (n : Nat) : Flt := Flt.round n 1 0

/-- The product, rounded. PRESUMED, log entry 63. -/
def Flt.mul (a b : Flt) : Flt := Flt.round (a.man * b.man) 1 (a.exp + b.exp)

/-- The quotient, rounded. PRESUMED, log entry 63. -/
def Flt.div (a b : Flt) : Flt := Flt.round a.man b.man (a.exp - b.exp)

/-- The largest integer not above. -/
def Flt.floor (a : Flt) : Nat :=
  if a.exp < 0 then a.man / 2 ^ a.exp.natAbs else a.man * 2 ^ a.exp.natAbs

/-- The nearest integer, ties away from zero. -/
def Flt.nearest (a : Flt) : Nat :=
  if a.exp < 0 then (2 * a.man + 2 ^ a.exp.natAbs) / (2 * 2 ^ a.exp.natAbs) else a.man * 2 ^ a.exp.natAbs

/-- A non-negative finite binary32 pattern as a binary64 number. -/
def Flt.ofF32 (x : Nat) : Flt := Flt.round (f32Int x).natAbs 1 (-149)

end Sys2Proof.Machine
end

