-- ==== Sys2Proof/Machine/Ident.lean ====
section
/-! DEFINITION. The identity record of a stage module (R78 to R80). -/
namespace Sys2Proof.Machine

/-- Word `a` of a record; words beyond the list are zero (R77). -/
def idWord (r : List Nat) (a : Nat) : Nat := r.getD a 0 % 2 ^ 32

/-- The byte at offset `o`. -/
def idU8 (r : List Nat) (o : Nat) : Nat := bitsOf (idWord r (o / 4)) (8 * (o % 4)) 8

/-- The 16-bit value at offset `o`. -/
def idU16 (r : List Nat) (o : Nat) : Nat := bitsOf (idWord r (o / 4)) (8 * (o % 4)) 16

/-- The 32-bit value at offset `o`. -/
def idU32 (r : List Nat) (o : Nat) : Nat := idWord r (o / 4)

/-- The bytes of words `a` to `a + n - 1`. -/
def idBytes (r : List Nat) (a n : Nat) : List Byte := ((List.range n).map (fun i => toBytes 4 (idWord r (a + i)))).flatten

/-- The CRC-32C stored in the record. -/
def idCrc (r : List Nat) : Nat := idWord r 1023

/-- The l_support bit of superframe length `l`. -/
def lBit (l : Nat) : Nat := if l = 100 then 0 else if l = 200 then 1 else 2

/-- The rules of the header table (R78). -/
def idHeaderOk (r : List Nat) : Bool :=
  let f := fun o => idU32 r o
  let v := fun o => f32Int (idU32 r o)
  let fs := [0x020, 0x024, 0x028, 0x02C, 0x030, 0x034, 0x038, 0x03C]
  fs.all (fun o => f32Finite (f o))
  && decide (0 < v 0x020 ∧ 0 < v 0x024 ∧ 0 < v 0x028 ∧ 0 < v 0x02C)
  && decide (0 < v 0x030 ∧ v 0x030 ≤ v 0x020 ∧ 0 < v 0x034 ∧ v 0x034 ≤ v 0x020)
  && decide (v 0x038 < v 0x03C ∧ v 0x03C ≤ v 0x024)
  && decide (idU8 r 0x01E ≤ 64 ∧ idU8 r 0x01F ≤ 1)
  && decide (idU16 r 0x042 ≤ idU16 r 0x040 ∧ idU16 r 0x040 ≤ idU16 r 0x044)
  && decide (100 ≤ idU16 r 0x04A ∧ idU16 r 0x04A ≤ 300)
  && decide (-50 ≤ toS 16 (idU16 r 0x04C) ∧ toS 16 (idU16 r 0x04C) ≤ 50)
  && bitOf (idU8 r 0x04E) 1 && decide (idU16 r 0x056 ≤ 1024)
  && decide (idU16 r 0x000 = 0x0001 ∧ idU16 r 0x002 = 0x0080 ∧ idU8 r 0x01C = 36 ∧ idU8 r 0x01D = 16)
  && (List.range 10).all (fun i => idWord r (0x058 / 4 + i) == 0)

/-- R79: whether a record read at superframe length `l` is accepted. -/
def idAccepted (r : List Nat) (l : Nat) : Bool :=
  crc32c (idBytes r 0 1023) == idCrc r && idHeaderOk r && bitOf (idU8 r 0x04E) (lBit l)

/-- R80: the identity of a module: vendor_id, model, serial, hw_rev, cal_date and the CRC-32C. -/
def idTuple (r : List Nat) : List Nat :=
  [idU16 r 0x004, idU16 r 0x006, idU32 r 0x008, idU32 r 0x00C, idU32 r 0x010, idU32 r 0x014, idU16 r 0x018, idU32 r 0x050, idCrc r]

/-- The calibration entry of stream `t`, and whether it loads as the default entry (R78, R102). -/
def idCal (r : List Nat) (t : Nat) : Cal × Bool :=
  let o := 0x080 + 16 * t
  let g := idU32 r o
  if !bitOf (idU8 r (o + 14)) 0 || g == 0 then ({}, true)
  else ({ gain := g, off := toS 32 (idU32 r (o + 4)), tc := toS 32 (idU32 r (o + 8)) }, false)

/-- The settle superframes of aux source `n`; 0 at or above aux_count (R75). -/
def idSettle (r : List Nat) (n : Nat) : Nat := if n < idU8 r 0x01E then idU8 r (0x2C0 + 8 * n + 5) else 0

/-- R128: floor(i / i_fs × 2^33) in binary64. -/
def idLimit (r : List Nat) (o : Nat) : Nat :=
  let q := Flt.div (Flt.ofF32 (idU32 r o)) (Flt.ofF32 (idU32 r 0x020))
  ({ q with exp := q.exp + 33 } : Flt).floor

/-- R195: floor(a × b × 4,096,000) in binary64, limited to 2^32 − 1. PRESUMED, log entry 63. -/
def idFactor (r : List Nat) (a b : Nat) : Nat :=
  min (Flt.mul (Flt.mul (Flt.ofF32 (idU32 r a)) (Flt.ofF32 (idU32 r b))) (Flt.ofNat 4096000)).floor (2 ^ 32 - 1)

end Sys2Proof.Machine
end

