-- ==== Sys2Proof/Machine/Power.lean ====
section
/-! DEFINITION. The VCORE loop, slack registers, the checks of domain and clock requests
(02_timing_power_startup.md, R33 to R52). -/
namespace Sys2Proof.Machine

/-- Channel `c` is armed: ARMED, TRIPPED or HELD (R118). -/
def State.armed (s : State) (c : Nat) : Bool :=
  let x := s.rd (pgChn c) R.CHN_STAT_state
  x == 2 || x == 3 || x == 4

/-- The channels of bank `b`. -/
def chansOf (b : Nat) : List Nat := (List.range 16).map (fun i => 16 * b + i)

/-- The banks of a bank island, domain 3 or 4. -/
def banksOf (d : Nat) : List Nat := (List.range 16).map (fun i => 16 * (d - 3) + i)

/-- Whether a channel of bank `b` is armed (R119). -/
def State.bankArmed (s : State) (b : Nat) : Bool := (chansOf b).any s.armed

/-- Whether a channel of the bank island `d` is armed. -/
def State.islandArmed (s : State) (d : Nat) : Bool := (banksOf d).any s.bankArmed

/-- Whether a channel of the device is armed. -/
def State.anyArmed (s : State) : Bool := s.islandArmed 3 || s.islandArmed 4

/-! ### The VCORE loop (R38, R39, R488) -/

/-- The minimum VCORE in mV for superframe length `L` (R38). -/
def minVcore (l : Nat) : Nat := if l = 100 then 740 else if l = 200 then 660 else 620

/-- The floor of the bank islands, for the length in force and for a change that waits (R39, R40). -/
def State.vfloor (s : State) : Nat :=
  max (s.rd pgPwr R.PWR_VCORE_CFG_floor_mv) (max (minVcore s.len) (minVcore (s.lenNew.getD 400)))

/-- The loop state of island `d`. -/
def State.vc (s : State) (d : Nat) : Vcore := s.vcore.get {} d

/-- Replace the loop state of island `d`. -/
def State.setVc (s : State) (d : Nat) (v : Vcore) : State := { s with vcore := s.vcore.set d v }

/-- The lowest slack_last of the banks of island `d`. -/
def State.lowSlack (s : State) (d : Nat) : Nat :=
  ((banksOf d).map (fun b => s.rd pgPwr (R.PWR_SLACK_slack_last b))).foldl min 255

/-- One run of the loop of island `d` in a superframe: raise or hold, and count (R39). DEDUCED, log entry 31. -/
def State.vcoreLoop (s : State) (d : Nat) : State :=
  if !s.domOn d then s
  else
    let v := s.rd pgPwr (R.PWR_VCORE_volt_mv d)
    let fl := s.vfloor
    let x := s.vc d
    let low := s.lowSlack d
    let th := s.rd pgPwr R.PWR_VCORE_CFG_raise_th
    let armed := s.islandArmed d
    let raised := armed && decide (low ≤ th)
    let v1 := if !armed then fl else if raised then min (v + 10) 900 else v
    let v2 := max v1 fl
    let restart := raised || v2 != (if armed then v1 else v)
    let run := if v2 = 900 ∧ low ≤ th then x.run + 1 else 0
    (s.wr pgPwr (R.PWR_VCORE_volt_mv d) v2).setVc d
      { count := if restart then 0 else x.count + 1
        low := if restart then 255 else min x.low low
        run := run
        done := run != 0 && x.done }

/-- The two bank islands as command operands: false is BANKLO, true is BANKHI. -/
def islandOf (hi : Bool) : Nat := if hi then 4 else 3

/-- VCORE_LOWER_COUNT (R39, R488): at a count of 1,024 the loop tests for lowering VCORE and restarts the count.
DEDUCED, log entry 31. -/
def execVcoreLowerCount (hi : Bool) (s : State) : Res :=
  let s := s.start
  let d := islandOf hi
  let x := s.vc d
  if x.count < 1024 then .next s
  else
    let v := s.rd pgPwr (R.PWR_VCORE_volt_mv d)
    let t := if s.rd pgPwr R.PWR_VCORE_CFG_lower_th ≤ x.low then
        s.wr pgPwr (R.PWR_VCORE_volt_mv d) (max (v - 10) s.vfloor) else s
    .next (t.setVc d { x with count := 0, low := 255 })

/-- PWR_VCOREn as it reads: a bank island's target is the loop's, any other island's is its setpoint (R37).
DEDUCED, log entry 31. -/
def State.vcoreWord (s : State) (n : Nat) : Nat :=
  let v := if n = 3 ∨ n = 4 then s.rd pgPwr (R.PWR_VCORE_volt_mv n) else s.rd pgPwr (R.PWR_VCORE_set_mv n)
  v * 2 ^ 16 + v

/-- The VCORE event record of island `d` (R455). -/
def State.vcoreRecord (s : State) (d : Nat) : State :=
  s.report 0x0B pgPwr d [s.rd pgPwr R.INT_STAT, s.vcoreWord d]

/-- SLACK_LOW_RUN (R39, R488): a run of 64 superframes at 900 mV with low slack sets slack_low, once in that run.
DEDUCED, log entry 31. -/
def execSlackLowRun (hi : Bool) (s : State) : Res :=
  let s := s.start
  let d := islandOf hi
  let x := s.vc d
  if x.run < 64 ∨ x.done then .next s
  else .next (((s.setVc d { x with done := true }).raise pgPwr 4).vcoreRecord d)

/-- VCORE_FAULT (R36): the regulator of island `d` left its target. -/
def execVcoreFault (d : Fin 7) (s : State) : Res :=
  .next ((s.start.raise pgPwr 16).vcoreRecord d.val)

/-- SLACK_MIN_RESET (R34): a write of PWR_SLACKn with min_rst restarts slack_min. -/
def execSlackMinReset (r : Req) (b : Fin 32) (s : State) : Res :=
  .next (s.start.access r pgPwr (0x100 + 4 * b.val) (fun s => s.wr pgPwr (R.PWR_SLACK_slack_min b.val) 0xFF))

/-! ### Domain requests (R44 to R46, R482) -/

/-- The populated pages of domain `d`. -/
def pagesOf (d : Nat) : List Nat := allPages.filter (fun p => domOf p == some d)

/-- The parent of domain `d`; none for FABRIC, whose parent AON is always on. -/
def parentOn (s : State) (d : Nat) : Bool := d == 0 || s.domOn 0

/-- The domains that must be off before `d` may go off: FIELD may stay on while FABRIC is off (R42). -/
def childrenOf (d : Nat) : List Nat := if d = 0 then [1, 2, 3, 4, 5, 6] else []

/-- R45: whether requester `r` may switch domain `d` off. -/
def State.offAllowed (s : State) (r : Req) (d : Nat) : Bool :=
  (pagesOf d).all (fun p => s.ownerAccepts r p && s.rd p R.OWNER_handover == 0)
  && ((d != 2 && d != 6) || s.secureReq r
      || (s.rd pgSec R.SEC_WM_DRAM_units == 0 && (pagesOf d).all (fun p => s.rd p R.OWNER_world != 1)))

/-- The status of a request to switch domain `d` (`on`: on), in the order of R482. 0 DONE, 1 PENDING, else a refusal.
DEDUCED, log entry 32. -/
def State.domStatus (s : State) (r : Req) (d : Nat) (on : Bool) : Nat :=
  if d = 1 ∧ !on then 5
  else if bitOf (s.rd pgPwr R.PWR_DOM_STAT_busy) d then 7
  else if s.domOn d = on then 0
  else if !on && !s.offAllowed r d then 2
  else if (on && !parentOn s d) || (!on && (childrenOf d).any s.domOn) then 3
  else if !on && (d == 3 || d == 4) && s.islandArmed d then 6
  else 1

/-- PWR_REQ_STAT records a request (R44). -/
def State.reqStat (s : State) (r : Req) (d status : Nat) : State :=
  let a := s.attr r
  let t := s.wr pgPwr R.PWR_REQ_STAT_function a.function
  let t := t.wr pgPwr R.PWR_REQ_STAT_world a.world
  let t := t.wr pgPwr R.PWR_REQ_STAT_domain d
  t.wr pgPwr R.PWR_REQ_STAT_status status

/-- R46: a refused request is recorded, and PWR_DENIED alerts the secure world. -/
def State.reqRefused (s : State) (r : Req) (d status : Nat) : State :=
  let t := s.reqStat r d status
  let t := if status = 2 then (t.bump pgPwr R.PWR_DOM_STAT_denied_count 1).wrB pgPwr R.PWR_SEC_INT_denied true else t
  t.report 0x09 pgPwr d [t.regWord pgPwr R.tablePWR 0x024]

/-- A domain begins to change state. -/
def State.domBusy (s : State) (d : Nat) : State := s.setBits pgPwr R.PWR_DOM_STAT_busy (2 ^ d)

/-! ### Clock requests (R52) -/

/-- The pages that the bits of CLK_GATE control. -/
def clkPages : List (Nat × Nat) :=
  [(0, 0x010), (1, 0x020), (2, 0x028), (3, 0x029), (4, 0x02A), (5, 0x02B), (6, 0x005), (7, 0x00E)]

/-- CLK_GATE as one value of eight bits. DEDUCED, log entry 32. -/
def State.clkGate (s : State) : Nat := s.regWord pgClk R.tableCLK 0x020

/-- Set CLK_GATE. -/
def State.setClkGate (s : State) (v : Nat) : State :=
  let s := s.wr pgClk R.CLK_GATE_dbg (bitsOf v 7 1)
  let s := s.wr pgClk R.CLK_GATE_svc (bitsOf v 6 1)
  let s := s.wr pgClk R.CLK_GATE_can (bitsOf v 2 4)
  let s := s.wr pgClk R.CLK_GATE_esw (bitsOf v 1 1)
  s.wr pgClk R.CLK_GATE_hif (bitsOf v 0 1)

/-- The bits of a CLK_GATE write that ownership refuses: a bit that would change, of a page whose owner check fails or
which is offered or draining (R45, R46, R52). -/
def State.clkDenied (s : State) (r : Req) (v : Nat) : Nat :=
  maskOf ((clkPages.filter (fun x =>
    bitOf v x.1 != bitOf s.clkGate x.1 && !(s.ownerAccepts r x.2 && s.rd x.2 R.OWNER_handover == 0))).map (·.1))

/-- A CLK_GATE write of an accepted requester: each bit is checked on its own. -/
def State.clkWrite (s : State) (r : Req) (d : Word) : State :=
  let v := d.toNat % 256
  let den := s.clkDenied r v
  let cur := s.clkGate
  let new := maskOf ((List.range 8).filter (fun i => if bitOf den i then bitOf cur i else bitOf v i))
  let a := s.attr r
  let t := s.setClkGate new
  let t := t.wr pgClk R.CLK_REQ_STAT_function a.function
  let t := t.wr pgClk R.CLK_REQ_STAT_world a.world
  let t := t.wr pgClk R.CLK_REQ_STAT_denied den
  if den = 0 then t
  else (t.wrB pgPwr R.PWR_SEC_INT_clk_denied true).report 0x0A pgClk 0xFFFF [t.regWord pgClk R.tableCLK 0x028]

/-- CLK_GATE_WRITE (R52). -/
def execClkGateWrite (r : Req) (d : Word) (s : State) : Res :=
  .next (s.start.access r pgClk 0x020 (fun s => s.clkWrite r d))

/-- AON_XTAL_SWITCH (R57, step 10): CK_AON runs from the crystal. -/
def execAonXtalSwitch (s : State) : Res := .next (s.start.wrB pgClk R.CLK_STAT_aon_xtal true)

end Sys2Proof.Machine
end

