-- ==== Sys2Proof/Machine/Chan.lean ====
section
/-! DEFINITION. Channels and banks: their records, time stamps, effect times, law state, step-end events and the disarm
(R106, R107, R118 to R124, R169). -/
namespace Sys2Proof.Machine

/-! ### Records -/

/-- Channel `c` beside its registers. -/
def State.ch (s : State) (c : Nat) : Chan := s.chans.get {} c

/-- Replace channel `c`. -/
def State.setCh (s : State) (c : Nat) (x : Chan) : State := { s with chans := s.chans.set c x }

/-- Change channel `c`. -/
def State.modCh (s : State) (c : Nat) (f : Chan → Chan) : State := s.setCh c (f (s.ch c))

/-- Bank `b` beside its registers. -/
def State.bk (s : State) (b : Nat) : Bank := s.banks.get {} b

/-- Replace bank `b`. -/
def State.setBk (s : State) (b : Nat) (x : Bank) : State := { s with banks := s.banks.set b x }

/-- Change bank `b`. -/
def State.modBk (s : State) (b : Nat) (f : Bank → Bank) : State := s.setBk b (f (s.bk b))

/-- The bank of channel `c`. -/
def bankOf (c : Nat) : Nat := c / 16

/-- The state of the channel (R118). -/
def State.cst (s : State) (c : Nat) : Nat := s.rd (pgChn c) R.CHN_STAT_state

/-- Set the state of the channel. -/
def State.setCst (s : State) (c v : Nat) : State := s.wr (pgChn c) R.CHN_STAT_state v

/-- The state of bank `b`'s link (BNK_LINK_STAT.state). -/
def State.lst (s : State) (b : Nat) : Nat := s.rd (pgBnk b) R.BNK_LINK_STAT_state

/-- Whether the link of bank `b` is UP. -/
def State.linkUp (s : State) (b : Nat) : Bool := s.lst b == 6

/-- The banks whose domain is on. -/
def State.liveBanks (s : State) : List Nat :=
  (if s.domOn 3 then banksOf 3 else []) ++ (if s.domOn 4 then banksOf 4 else [])

/-- The pair role of bank `b`: 0 SOLO, 1 ACTIVE, 2 STANDBY, 3 OUT, 4 SYNC. -/
def State.role (s : State) (b : Nat) : Nat := s.roles.get 0 b

/-- Set the role of bank `b`. -/
def State.setRole (s : State) (b v : Nat) : State := { s with roles := s.roles.set b v }

/-! ### Time -/

/-- The holdover mark of time stamps (R110). -/
def State.holdover (s : State) : Bool := s.rdB pgPtp R.PTP_STAT_holdover

/-- The length of superframe `k`: `lenOld` keeps the boundary of the last change of the length and the length before (R386). -/
def State.lenOf (s : State) (k : Nat) : Nat :=
  match s.lenOld with
  | none => s.len
  | some x => if k < x.1 then x.2 else s.len

/-- The line time of boundary B(k) in ns (R386). -/
def State.boundaryNs (s : State) (k : Nat) : Nat :=
  match s.lenOld with
  | none => k * s.tNs
  | some x => if k < x.1 then x.1 * s.tNs - (x.1 - k) * (x.2 * 100) else k * s.tNs

/-- The time stamp of boundary B(k), whose line time is k × T (R386). DESIGN CHOICE, log entry 114. -/
def State.stampB (s : State) (k : Nat) : Nat := stampOf (s.boundaryNs k : Nat) s.holdover

/-- The time stamp of the samples of superframe `k` of bank `b` (R107). -/
def State.stampSf (s : State) (b k : Nat) : Nat :=
  stampOf ((s.boundaryNs k : Nat) + s.rdS (pgBnk b) R.BNK_TS_ADJ_adj + ((s.len : Int) - s.lenOf k) * 50) s.holdover

/-- The effect time of a command word written now. DEDUCED, log entry 51. -/
def State.dueOf (s : State) (x : When) : Due := { at_ := x.at_, sfc := x.sfc, frm := s.w }

/-- Whether a command takes effect in the work of superframe `k` (R120). DEDUCED, log entry 51. -/
def Due.now (d : Due) (k : Nat) : Bool := decide (d.frm ≤ k) && (!d.at_ || k % 16384 == d.sfc)

/-! ### Demand words (R70) -/

/-- The stage mode of a demand word. -/
def wordMode (w : Nat) : Nat := bitsOf w 12 4

/-- The demand of a demand word. -/
def wordD (w : Nat) : Int := toS 20 (w / 65536)

/-- A demand word. -/
def mkWord (d : Int) (mode slew : Nat) : Nat := ofS 20 d * 65536 + mode % 16 * 4096 + slew % 4

/-! ### Memory slots (R10, R30) -/

/-- A W36 slot of a signed value. -/
def slotS (x : Int) : List Byte := toBytes 8 (ofS 64 x)

/-- A W72 slot of an unsigned value. -/
def slotW (x : Nat) : List Byte := toBytes 16 (x % 2 ^ 72)

/-! ### Step images (R144, R145) -/

/-- Word `n` of a step image. -/
def imgW (m : List Nat) (n : Nat) : Nat := m.getD n 0

/-- The opcode of a step image. -/
def imgOp (m : List Nat) : Nat := bitsOf (imgW m 0) 32 4

/-- The mode of a step image. -/
def imgMode (m : List Nat) : Nat := bitsOf (imgW m 0) 28 4

/-- The tag of a step image. -/
def imgTag (m : List Nat) : Nat := bitsOf (imgW m 4) 24 12

/-- ta of a step image, in superframes. -/
def imgTa (m : List Nat) : Nat := bitsOf (imgW m 4) 0 24 + 1

/-- tb of a step image, in superframes. -/
def imgTb (m : List Nat) : Nat := bitsOf (imgW m 5) 0 24 + 1

/-- Whether the channel has a RUN step in force. -/
def State.inRun (s : State) (c : Nat) : Bool := imgOp (s.ch c).img == 1

/-! ### Step-end events (R169) -/

/-- The 160 bytes of a step-end event. -/
def State.stepEndBytes (s : State) (c : Nat) (e : StepEnd) (next : Nat) : List Byte :=
  let p := pgChn c
  let m := (s.ch c).img
  toBytes 2 0x0201 ++ toBytes 2 160 ++ toBytes 2 c ++ toBytes 1 e.cause ++ toBytes 1 e.flags
    ++ toBytes 2 (s.rd p R.CHN_LP_PTR_step) ++ toBytes 2 next ++ toBytes 2 (imgTag m) ++ toBytes 1 e.err ++ toBytes 1 0
    ++ toBytes 4 e.seq ++ toBytes 4 e.sfc ++ toBytes 8 e.tEnd ++ toBytes 8 e.time
    ++ toBytes 4 (s.rd p R.CHN_LP_CVT_cv_time) ++ toBytes 4 0
    ++ slotS (if (s.ch c).vEntry then s.rdS p R.CHN_LP_VENT_value else 0)
    ++ slotS (s.rdS p R.CHN_I_value) ++ slotS (s.rdS p R.CHN_V_value)
    ++ toBytes 2 (s.rd p R.CHN_LP_CNT01_cnt0) ++ toBytes 2 (s.rd p R.CHN_LP_CNT01_cnt1)
    ++ toBytes 2 (s.rd p R.CHN_LP_CNT23_cnt2) ++ toBytes 2 (s.rd p R.CHN_LP_CNT23_cnt3)
    ++ slotW e.sqIn ++ slotW e.sqOut ++ slotW e.seIn ++ slotW e.seOut ++ toBytes 16 0

/-- The step-end event of the step in force, ended in superframe `k` with cause `cause`. -/
def State.mkStepEnd (s : State) (c k cause err : Nat) (redir : Bool) : StepEnd :=
  let p := pgChn c
  let x := s.ch c
  { chan := c, cause := cause, err := err, seq := x.evSeq, sfc := k % 2 ^ 32, tEnd := s.stampSf (bankOf c) k
    flags := s.rd p R.CHN_STAT_cv_active + 2 * b2n x.gapSeen + 4 * b2n x.ovrSeen + 8 * b2n redir
    sqIn := s.rd p R.CHN_SQ_IN_value, sqOut := s.rd p R.CHN_SQ_OUT_value
    seIn := s.rd p R.CHN_SE_IN_value, seOut := s.rd p R.CHN_SE_OUT_value
    role := x.role, cap := x.cap, time := s.rd p R.CHN_LP_TIME_value
    ta := imgTa x.img, tb := imgTb x.img, mode := imgMode x.img }

/-- The items of port `n` that wait for the queue pool. -/
def State.port (s : State) (n : Nat) : List Item := s.ports.get [] n

/-- A producer adds an item to port `n`. -/
def State.offer (s : State) (n : Nat) (it : Item) : State := { s with ports := s.ports.set n (s.port n ++ [it]) }

/-- A bank engine tells the grading unit, which takes messages while it is enabled (R204). DEDUCED, log entry 120. -/
def State.grdTell (s : State) (m : GrdMsg) : State :=
  if s.rdB pgGrd (R.CTRL_enable pgGrd) then { s with grdIn := s.grdIn ++ [m] } else s

/-- Post a step-end event: to the grading unit and, with STP_EV_CTRL.en, to its queue; a full bank buffer drops it. `src` is
the state at the end of the step, before the entry that follows. -/
def State.postStepEnd (s src : State) (c : Nat) (e : StepEnd) (next : Nat) : State :=
  let en := s.rdB pgStp R.STP_EV_CTRL_en
  let t := s.modCh c (fun x => { x with evSeq := (x.evSeq + 1) % 2 ^ 32 })
  let t := t.wr (pgChn c) R.CHN_LP_STAT_last_cause e.cause
  let t := t.raise (pgChn c) 0x40
  if en && decide (((s.port 1).filter (fun i => i.bank == bankOf c)).length ≥ 16) then
    (t.bump pgStp R.STP_EV_DROP_drops 1).raise pgStp 2
  else
    let t := t.grdTell (.stepEnd e)
    if en then
      t.offer 1 { queue := s.rd pgStp R.STP_EV_CTRL_queue, bytes := src.stepEndBytes c e next, bank := bankOf c, sf := e.sfc }
    else t

/-! ### Law state and disarm (R121, R122) -/

/-- The control-law state is cleared: u_prev, xi, xv, cv_active and the pulse state. -/
def State.clearLaw (s : State) (c : Nat) : State :=
  let p := pgChn c
  let s := s.wr p R.CHN_U_value 0
  let s := s.wr p R.CHN_XI_value 0
  let s := s.wr p R.CHN_XV_value 0
  let s := s.wr p R.CHN_STAT_cv_active 0
  let s := s.wr p R.CHN_STAT_phase_b 0
  s.modCh c (fun x => { x with cnt := 0 })

/-- The step-local copies are set to zero (R135). -/
def State.clearLocal (s : State) (c : Nat) : State :=
  let p := pgChn c
  let s := s.wr p R.CHN_SQ_IN_value 0
  let s := s.wr p R.CHN_SQ_OUT_value 0
  let s := s.wr p R.CHN_SE_IN_value 0
  s.wr p R.CHN_SE_OUT_value 0

/-- The channel withdraws from its gate group (R157). DEDUCED, log entry 52. -/
def State.withdraw (s : State) (c : Nat) : State :=
  (s.wr (pgChn c) R.CHN_LP_GATE_arrived 0).modCh c (fun x => { x with openAt := none })

/-- R122, R166, R184: the channel is disarmed in superframe `k`. DEDUCED, log entry 52. -/
def State.disarm (s : State) (c k : Nat) : State :=
  let p := pgChn c
  let was := s.cst c
  let t := if s.inRun c then s.postStepEnd s c (s.mkStepEnd c k 7 0 false) 0xFFFF else s
  let t := (t.clearLaw c).clearLocal c
  let t := t.withdraw c
  let t := match (s.ch c).lpCmd with
    | none => t
    | some x => t.wr p R.CHN_LP_STAT_cmd_result (if x.kind = 4 then 3 else 2)
  let t := t.modCh c (fun x => { x with img := [], redirect := none, lpCmd := none, req := 0, role := 0, cap := {} })
  let t := t.wr p R.CHN_LP_STAT_lp_state 0
  let t := t.wr p R.CHN_LP_STAT_swap_pending 0
  let t := t.wr p R.CHN_TRIP_STAT_chan_latch 0
  let t := t.wr p R.CHN_TRIP_STAT_bank_held 0
  let t := t.wr p R.CHN_TRIP_STAT_cause 0
  let t := t.setCst c 0
  let t := if was = 3 then t.raise p 0x1000 else t
  if was = 0 then t else t.raise p 2

/-! ### Shadows in force (R123) -/

/-- hold as loaded for an entry into mode `m`: settle, and the relay time after a relay-open stage mode (R127). -/
def State.holdFor (s : State) (c m : Nat) (relayOpen : Bool) : Nat :=
  let settle := s.rd (pgChn c) R.CHN_CFG_settle
  let run := decide (3 ≤ m ∧ m ≤ 8)
  if relayOpen && run then
    min (settle + (10 * idU16 (s.bk (bankOf c)).ident 0x046 + s.len - 1) / s.len) 255
  else settle

/-- Whether the last word built for the channel has a relay-open stage mode. -/
def State.relayOpen (s : State) (c : Nat) : Bool :=
  let m := wordMode (s.ch c).req
  m == 0 || m == 3

/-- The direct setpoints and dmode, whose change by an apply loads hold (R127). -/
def directFields : List Fld :=
  [R.CHN_SET_I_value, R.CHN_SET_V_value, R.CHN_SET_P_value, R.CHN_SET_RES_value, R.CHN_PULSE_B_value, R.CHN_PULSE_TA_ta,
   R.CHN_PULSE_TB_tb, R.CHN_CFG_dmode]

/-- Put the shadows of channel `c` into force (R123); a change of a direct setpoint or of dmode loads hold (R127). -/
def State.applyChan (s : State) (c : Nat) : State :=
  let p := pgChn c
  let ch := directFields.any (fun f => s.shadow p f != s.rd p f)
  let t := s.applyShadows p
  if ch then t.modCh c (fun x => { x with hold := t.holdFor c (t.rd p R.CHN_CFG_dmode) (s.relayOpen c) }) else t

end Sys2Proof.Machine
end

