-- ==== Sys2Proof/Machine/Law.lean ====
section
/-! DEFINITION. The control law and the charge and energy integrators (05_channel_control.md, R127 to R136). -/
namespace Sys2Proof.Machine

/-- The inputs of the law (R129). -/
structure LawIn where
  i : Int
  v : Int
  invalid : Bool
  mode : Nat
  iSet : Int
  vSet : Int
  pSet : Int
  rSet : Int
  iB : Int
  ta : Nat
  tb : Nat
  slew : Nat
  kpI : Nat
  kiI : Nat
  kpV : Nat
  kiV : Nat
  limChg : Int
  limDis : Int
  vHi : Int
  vLo : Int
  trim : Int
  ramp : Int
  settle : Nat
  short : Bool
  deriving DecidableEq, Repr

/-- The law state (R129) with the status bits that describe the superframe. -/
structure LawSt where
  u : Int := 0
  xi : Int := 0
  xv : Int := 0
  cv : Bool := false
  ph : Bool := false
  cnt : Nat := 0
  hold : Nat := 0
  ramp : Bool := false
  limV : Bool := false
  limI : Bool := false
  trim : Bool := false
  deriving DecidableEq, Repr

/-- The loop bounds of one superframe: the largest and smallest u and whether the ramp bound gave them. -/
structure Bounds where
  hi : Int
  lo : Int
  hiR : Bool
  loR : Bool
  deriving DecidableEq, Repr

/-- The bounds of u (R129). -/
def lawBounds (a : LawIn) (u : Int) : Bounds :=
  let hi := a.limChg
  let lo := -a.limDis
  let b : Bounds :=
    if a.ramp ≠ 0 then
      ⟨min hi (u + a.ramp), max lo (u - a.ramp), decide (u + a.ramp < hi), decide (lo < u - a.ramp)⟩
    else ⟨hi, lo, false, false⟩
  if b.hi < b.lo then { b with lo := b.hi } else b

/-- cur_loop(r): the target current with its correction, xi, and whether the correction reached the limit. -/
def curLoop (a : LawIn) (x : LawSt) (frz : Bool) (r : Int) : Int × LawSt :=
  let e := sat36 (r - a.i)
  let p := sat36 (rnd (a.kpI * e) (2 ^ 16))
  let xi := if frz then x.xi else sat36 (x.xi + rnd (a.kiI * e) (2 ^ 20))
  let corr := clampI (-a.trim) a.trim (sat36 (p + xi))
  (sat36 (r + corr), { x with xi := sat36 (corr - p), trim := corr == a.trim || corr == -a.trim })

/-- volt_loop(vs, lo, hi), with the marks of the bound that limited u. -/
def voltLoop (a : LawIn) (x : LawSt) (frz : Bool) (b : Bounds) (lo hi : Int) (vs : Int) : Int × LawSt :=
  let e := sat36 (vs - a.v)
  let p := sat36 (rnd (a.kpV * e) (2 ^ 16))
  let xv := if frz then x.xv else sat36 (x.xv + rnd (a.kiV * e) (2 ^ 20))
  let t := sat36 (p + xv)
  let u := min (max t lo) hi
  let overHi := decide (hi < t ∧ hi = b.hi)
  let underLo := decide (t < lo ∧ lo = b.lo)
  (u, { x with xv := sat36 (u - p)
               ramp := (overHi && b.hiR) || (underLo && b.loR)
               limI := (overHi && !b.hiR) || (underLo && !b.loR) })

/-- The voltage guard (R129). -/
def voltGuard (a : LawIn) (u : Int) (x : LawSt) : Int × LawSt :=
  let g := (decide (a.vHi ≤ a.v) && decide (0 < u)) || (decide (a.v ≤ a.vLo) && decide (u < 0))
  (if g then 0 else u, { x with limV := g })

/-- The bound and the voltage guard that follow cur_loop (R129). -/
def lawGuard (a : LawIn) (b : Bounds) (u : Int) (x : LawSt) : Int × LawSt :=
  let overHi := decide (b.hi < u)
  let underLo := decide (u < b.lo)
  voltGuard a (min (max u b.lo) b.hi)
    { x with ramp := (overHi && b.hiR) || (underLo && b.loR)
             limI := (overHi && !b.hiR) || (underLo && !b.loR) }

/-- The run modes of the law in one superframe, on valid samples: the new u and law state. DEDUCED, log entry 54. -/
def lawRun (a : LawIn) (x0 : LawSt) : Int × LawSt :=
  let frz := decide (0 < x0.hold) || a.short
  let x := { x0 with hold := x0.hold - 1 }
  let b := lawBounds a x0.u
  let cur := fun r => let y := curLoop a x frz r; lawGuard a b y.1 y.2
  match a.mode with
  | 3 => cur a.iSet
  | 8 =>
    let y := cur (if x.ph then a.iB else a.iSet)
    let cnt := (if x.cnt = 0 then a.ta else x.cnt) - 1
    if cnt = 0 then
      (y.1, { y.2 with ph := !x.ph, cnt := if x.ph then a.ta else a.tb, hold := a.settle })
    else (y.1, { y.2 with cnt := cnt })
  | 6 => cur (sat36 (rnd (a.pSet * 2 ^ 33) (max a.v (2 ^ 28))))
  | 7 => cur (-sat36 (rnd (max a.v 0 * 2 ^ 33) (max a.rSet (2 ^ 16))))
  | 4 =>
    let y := voltLoop a x frz b b.lo b.hi a.vSet
    if x.cv then y else voltGuard a y.1 y.2
  | _ =>
    let enter := !x.cv && (if 0 ≤ a.iSet then decide (a.vSet ≤ a.v) else decide (a.v ≤ a.vSet))
    let x := if enter then
        { x with cv := true, xv := sat36 (x0.u - sat36 (rnd (a.kpV * sat36 (a.vSet - a.v)) (2 ^ 16))) }
      else x
    if !x.cv then (let y := curLoop a x frz a.iSet; lawGuard a b y.1 y.2)
    else if 0 ≤ a.iSet then voltLoop a x frz b (max b.lo 0) (min b.hi a.iSet) a.vSet
    else voltLoop a x frz b (max b.lo a.iSet) (min b.hi 0) a.vSet

/-- Stage mode of a mode code (R127). -/
def stageOf (m : Nat) : Nat := if m = 1 then 2 else if m = 2 then 3 else if 3 ≤ m ∧ m ≤ 8 then 1 else 0

/-- R129: the law for a channel in state `st`: the new law state and the demand word. DEDUCED, log entry 54. -/
def law (st : Nat) (a : LawIn) (x : LawSt) : LawSt × Nat :=
  let x := { x with ramp := false, limV := false, limI := false, trim := false }
  let still := { x with u := 0, xi := 0, xv := 0, cv := false }
  if st ≠ 2 then (still, mkWord 0 (if st = 4 then 2 else 0) 0)
  else if stageOf a.mode ≠ 1 then (still, mkWord 0 (stageOf a.mode) 0)
  else
    let y := if a.invalid then (x.u, x) else lawRun a x
    ({ y.2 with u := y.1 }, mkWord (clampI (-(2 ^ 19)) (2 ^ 19 - 1) (rnd y.1 (2 ^ 14))) 1 a.slew)

/-- The mode in force: the step's, or dmode in direct control; OFF where no step is in force. DEDUCED, log entry 54. -/
def State.modeOf (s : State) (c : Nat) : Nat :=
  if s.rdB (pgChn c) R.CHN_CFG_src then s.rd (pgChn c) R.CHN_CFG_dmode
  else if (s.ch c).img = [] then 0 else imgMode (s.ch c).img

/-- A register value whose negative values act as 0. -/
def State.rdPos (s : State) (i : Nat) (f : Fld) : Int := max (s.rdS i f) 0

/-- The law inputs of channel `c` in force (R128, R129, R146). -/
def State.lawIn (s : State) (c : Nat) : LawIn :=
  let p := pgChn c
  let b := s.bk (bankOf c)
  let m := (s.ch c).img
  let dir := s.rdB p R.CHN_CFG_src
  let mode := s.modeOf c
  let wa := toS 36 (imgW m 2)
  let wb := toS 36 (imgW m 3)
  { i := s.rdS p R.CHN_I_value, v := s.rdS p R.CHN_V_value
    invalid := bitOf (s.rd p R.CHN_MEAS_FLAGS_i_flags) 3 || bitOf (s.rd p R.CHN_MEAS_FLAGS_v_flags) 3
    mode := mode
    iSet := if dir then s.rdS p R.CHN_SET_I_value else wa
    vSet := if dir then s.rdS p R.CHN_SET_V_value else if mode = 4 then wa else wb
    pSet := if dir then s.rdS p R.CHN_SET_P_value else wa
    rSet := if dir then s.rdS p R.CHN_SET_RES_value else wa
    iB := if dir then s.rdS p R.CHN_PULSE_B_value else wb
    ta := if dir then s.rd p R.CHN_PULSE_TA_ta else imgTa m
    tb := if dir then s.rd p R.CHN_PULSE_TB_tb else imgTb m
    slew := if dir then s.rd p R.CHN_CFG_dslew else bitsOf (imgW m 0) 26 2
    kpI := s.rd p R.CHN_KP_I_kp_i, kiI := s.rd p R.CHN_KI_I_ki_i
    kpV := s.rd p R.CHN_KP_V_kp_v, kiV := s.rd p R.CHN_KI_V_ki_v
    limChg := min (s.rdPos p R.CHN_I_LIM_CHG_value) b.mChg
    limDis := min (s.rdPos p R.CHN_I_LIM_DIS_value) b.mDis
    vHi := s.rdS p R.CHN_V_LIM_HI_value, vLo := s.rdS p R.CHN_V_LIM_LO_value
    trim := s.rdPos p R.CHN_TRIM_LIM_value, ramp := s.rdPos p R.CHN_RAMP_value
    settle := s.rd p R.CHN_CFG_settle, short := s.rdB p R.CHN_STAT_granted_less }

/-- The law state of channel `c`. DEDUCED, log entry 54. -/
def State.lawSt (s : State) (c : Nat) : LawSt :=
  let p := pgChn c
  { u := s.rdS p R.CHN_U_value, xi := s.rdS p R.CHN_XI_value, xv := s.rdS p R.CHN_XV_value
    cv := s.rdB p R.CHN_STAT_cv_active, ph := s.rdB p R.CHN_STAT_phase_b, cnt := (s.ch c).cnt, hold := (s.ch c).hold }

/-- Run the law for channel `c`: law state, status bits and request (R129, R192). -/
def State.runLaw (s : State) (c : Nat) : State :=
  let p := pgChn c
  let a := s.lawIn c
  let y := law (s.cst c) a (s.lawSt c)
  let x := y.1
  let wasCv := s.rdB p R.CHN_STAT_cv_active
  let wasLim := s.rdB p R.CHN_STAT_lim_i
  let wasLimV := s.rdB p R.CHN_STAT_lim_v
  let t := s.wrS p R.CHN_U_value x.u
  let t := t.wrS p R.CHN_XI_value x.xi
  let t := t.wrS p R.CHN_XV_value x.xv
  let t := t.wrB p R.CHN_STAT_cv_active x.cv
  let t := t.wrB p R.CHN_STAT_phase_b x.ph
  let t := t.wrB p R.CHN_STAT_ramp x.ramp
  let t := t.wrB p R.CHN_STAT_lim_v x.limV
  let t := t.wrB p R.CHN_STAT_lim_i x.limI
  let t := t.wrB p R.CHN_STAT_trim_sat x.trim
  let t := t.wr p R.CHN_STAT_ctl_mode a.mode
  let t := t.modCh c (fun z => { z with cnt := x.cnt, hold := x.hold, req := y.2 })
  let t := if !wasCv && x.cv then t.raise p 8 else t
  if (!wasLim && x.limI) || (!wasLimV && x.limV) then t.raise p 0x20 else t

/-! ### Integrators (R132, R134) -/

/-- The counter registers by the coding of CHN_PRE_SEL. -/
def counterFld (n : Nat) : Fld :=
  match n with
  | 0 => R.CHN_Q_IN_value | 1 => R.CHN_Q_OUT_value | 2 => R.CHN_E_IN_value | 3 => R.CHN_E_OUT_value
  | 4 => R.CHN_SQ_IN_value | 5 => R.CHN_SQ_OUT_value | 6 => R.CHN_SE_IN_value | _ => R.CHN_SE_OUT_value

/-- Add `d` to counter `n` of channel `c`; a counter that would pass 2^72 − 1 stays there and its sat bit is set. -/
def State.addCounter (s : State) (c n d : Nat) : State :=
  let p := pgChn c
  let v := s.rd p (counterFld n) + d
  if v < 2 ^ 72 then s.wr p (counterFld n) v
  else
    let t := s.wr p (counterFld n) (2 ^ 72 - 1)
    if bitOf (s.rd p R.CHN_INTG_STAT_sat) n then t
    else ((t.setBits p R.CHN_INTG_STAT_sat (2 ^ n)).raise p 0x10).raise (pgBnk (bankOf c)) 0x100000

/-- A counter and its step-local copy. -/
def State.addBoth (s : State) (c n d : Nat) : State :=
  if d = 0 then s else (s.addCounter c n d).addCounter c (n + 4) d

/-- R132: the integrators of channel `c` take the samples of the superframe. -/
def State.integrate (s : State) (c : Nat) : State :=
  let p := pgChn c
  let i := s.rdS p R.CHN_I_value
  let v := s.rdS p R.CHN_V_value
  let iInv := bitOf (s.rd p R.CHN_MEAS_FLAGS_i_flags) 3
  let vInv := bitOf (s.rd p R.CHN_MEAS_FLAGS_v_flags) 3
  let t := if iInv then s
    else if 0 < i then s.addBoth c 0 i.natAbs
    else if i < 0 then s.addBoth c 1 i.natAbs else s
  if iInv || vInv then t
  else
    let q := (i.natAbs * v.natAbs) / 2 ^ 34
    if q = 0 then t
    else if decide (0 < i) == decide (0 < v) then t.addBoth c 2 q else t.addBoth c 3 q

end Sys2Proof.Machine
end

