-- ==== Sys2Proof/Machine/Looper.lean ====
section
/-! DEFINITION. The Looper: step images and their checks, entering steps, evaluation, gates, resume actions and Looper commands
(06_step_programs.md, R142 to R170). -/
namespace Sys2Proof.Machine

/-! ### The step store -/

/-- Word `w` of step `n` in the step store, 36 bits. DEDUCED, log entry 26. -/
def State.stepWord (s : State) (n w : Nat) : Nat := s.words.get 0 (n * 12 + w)

/-- Set word `w` of step `n`. DEDUCED, log entry 26. -/
def State.setStepWord (s : State) (n w v : Nat) : State := { s with words := s.words.set (n * 12 + w) (v % 2 ^ 36) }

/-- The image of step `n` (R151). -/
def State.image (s : State) (n : Nat) : List Nat := (List.range 12).map (s.stepWord n)

/-- Whether word `w` of a step is signed (R144). -/
def wordSigned (w : Nat) : Bool := w == 2 || w == 3 || (decide (8 ≤ w) && decide (w < 12))

/-- The memory slot of word `w` of a step with value `v` (R10). -/
def stepSlot (w v : Nat) : List Byte := if wordSigned w then slotS (toS 36 v) else toBytes 8 v

/-- The 96 bytes of a step image. -/
def imageBytes (m : List Nat) : List Byte := ((List.range 12).map (fun w => stepSlot w (imgW m w))).flatten

/-! ### Conditions (R147 to R150) -/

/-- The 18-bit control field of condition `n` of an image. -/
def condCtl (m : List Nat) (n : Nat) : Nat := bitsOf (imgW m (6 + n / 2)) (18 * (n % 2)) 18

/-- Selector, comparison, action and qual of a control field. -/
def ctlSel (x : Nat) : Nat := bitsOf x 12 6
def ctlCmp (x : Nat) : Nat := bitsOf x 9 3
def ctlAct (x : Nat) : Nat := bitsOf x 6 3
def ctlQual (x : Nat) : Nat := bitsOf x 0 6

/-- Whether condition `n` of an image breaks R151's rules. -/
def condBad (m : List Nat) (n : Nat) : Bool :=
  let x := condCtl m n
  if ctlSel x = 0 then x != 0 || imgW m (8 + n) != 0
  else decide (0x13 < ctlSel x) || decide (5 < ctlCmp x) || decide (3 < ctlAct x)

/-- The entry check of R151: the error code of the first fault, 0 with none. -/
def State.checkStep (s : State) (m : List Nat) (needEnd : Bool) : Nat :=
  let op := imgOp m
  let mode := imgMode m
  let arrive := bitOf (imgW m 0) 25
  let group := bitsOf (imgW m 0) 19 6
  if op = 0 ∨ 5 < op then 1
  else if (op = 1 ∧ 8 < mode) ∨ (op = 5 ∧ 2 < mode) then 2
  else if bitsOf (imgW m 0) 14 5 ≠ 0 ∨ bitsOf (imgW m 0) 26 2 = 3 ∨ bitsOf (imgW m 5) 34 2 = 3
      ∨ (List.range 4).any (condBad m) then 3
  else if (arrive && op != 1) || (!arrive && (List.range 4).any (fun n => ctlSel (condCtl m n) == 0x0F)) then 3
  else if arrive && s.rdF pgStp (R.STP_GATE_CFG_en group) == 0 then 4
  else if needEnd && op != 5 then 3
  else 0

/-- Loop counter `n` of channel `c`. -/
def cntFld (n : Nat) : Fld :=
  match n with
  | 0 => R.CHN_LP_CNT01_cnt0 | 1 => R.CHN_LP_CNT01_cnt1 | 2 => R.CHN_LP_CNT23_cnt2 | _ => R.CHN_LP_CNT23_cnt3

/-- An instant step acts (R148): the state and the target. -/
def State.instant (s : State) (c : Nat) (m : List Nat) : State × Nat :=
  let next := bitsOf (imgW m 0) 0 14
  let alt := bitsOf (imgW m 1) 0 14
  let f := cntFld (bitsOf (imgW m 1) 14 2)
  let v := s.rd (pgChn c) f
  if imgOp m = 2 then (if 0 < v then (s.wr (pgChn c) f (v - 1), alt) else (s, next))
  else if imgOp m = 3 then (s.wr (pgChn c) f (bitsOf (imgW m 1) 16 16), next)
  else (s, next)

/-- Follow steps from `ix` through at most `n` more instant steps (R152): the state, the error code (0 with none), the step
reached and its image. -/
def State.chain : Nat → State → Nat → Nat → Bool → State × Nat × Nat × List Nat
  | 0, s, _, ix, needEnd =>
    let m := s.image ix
    let e := s.checkStep m needEnd
    if e ≠ 0 then (s, e, ix, []) else if imgOp m = 1 ∨ imgOp m = 5 then (s, 0, ix, m) else (s, 5, ix, [])
  | n + 1, s, c, ix, needEnd =>
    let m := s.image ix
    let e := s.checkStep m needEnd
    if e ≠ 0 then (s, e, ix, [])
    else if imgOp m = 1 ∨ imgOp m = 5 then (s, 0, ix, m)
    else
      let y := s.instant c m
      State.chain n y.1 c y.2 false

/-- The role that a tag gives a step (R205). -/
def State.roleOf (s : State) (tag : Nat) : Nat :=
  match (List.range 16).find? (fun n => s.rdF pgGrd (R.GRD_ROLE_en n) == 1 && s.rdF pgGrd (R.GRD_ROLE_tag n) == tag) with
  | none => 0
  | some n => let r := s.rdF pgGrd (R.GRD_ROLE_role n); if r ≤ 4 then r else 0

/-- Enter step `ix` with image `m`: its first samples are those of superframe `first` (R126, R152, R157, R204).
DEDUCED, log entry 57. -/
def State.enterStep (s : State) (c first ix : Nat) (m : List Nat) : State :=
  let p := pgChn c
  let b := bankOf c
  let op := imgOp m
  let hold := s.holdFor c (imgMode m) (s.relayOpen c)
  let role := s.roleOf (imgTag m)
  let t := (s.clearLaw c).clearLocal c
  let t := t.wr p R.CHN_LP_PTR_step ix
  let t := t.wr p R.CHN_LP_TIME_value 0
  let t := t.wr p R.CHN_LP_CVT_cv_time 0
  let t := t.wr p R.CHN_LP_VENT_value 0
  let t := t.wr p R.CHN_LP_STAT_lp_state (if op = 5 then 2 else 1)
  let t := if op = 5 then t.wr p R.CHN_LP_STAT_end_code (bitsOf (imgW m 1) 32 4) else t
  let t := t.modCh c (fun x =>
    { x with img := m, vEntry := false, pers := [0, 0, 0, 0], hold := hold, cnt := imgTa m, role := role, cap := {}
             gapSeen := false, ovrSeen := false })
  let g := bitsOf (imgW m 0) 19 6
  let t := if bitOf (imgW m 0) 25 then
      let t := t.wr p R.CHN_LP_GATE_arrived 1
      let t := t.wr p R.CHN_LP_GATE_group g
      let t := t.wr p R.CHN_LP_GATE_gen (t.rd pgStp (R.STP_GATE_STAT_gen g))
      let t := t.wr p R.CHN_LP_GATE_open 0
      t.modCh c (fun x => { x with openAt := none })
    else t
  let t := if op = 5 then t.raise p 0x100 else t
  t.grdTell (.entry
      { chan := c, opcode := op, mode := imgMode m, tag := imgTag m, code := bitsOf (imgW m 1) 32 4, step := ix
        sfc := first, t := s.stampSf b first, tPrev := s.stampSf b (first - 1), role := role })

/-- Record error `err` of a fault-step entry, caused by step `at_` (R164). DEDUCED, log entry 55. -/
def State.lpError (s : State) (c err at_ : Nat) : State :=
  let p := pgChn c
  let t := s.wr p R.CHN_LP_STAT_err err
  let t := t.wr p R.CHN_LP_ERR_err err
  t.wr p R.CHN_LP_ERR_step at_

/-- The way into the fault step with error `err` of step `at_`: as `chain`, with error DOUBLE where it fails (R164). -/
def State.faultChain (s : State) (c err at_ : Nat) : State × Nat × Nat × List Nat :=
  let p := pgChn c
  let t := ((s.lpError c err at_).raise p 0x80).raise (pgBnk (bankOf c)) 0x200000
  if s.rd p R.CHN_LP_FAULT_valid = 0 then (t.lpError c 10 at_, 10, at_, [])
  else
    let y := State.chain 8 t c (s.rd p R.CHN_LP_FAULT_step) false
    if y.2.1 = 0 then (y.1, err, y.2.2.1, y.2.2.2) else (y.1.lpError c 10 y.2.2.1, 10, y.2.2.1, [])

/-- How a step ends: its cause (none where no step ends), the target, whether the target must be an END step, the error that
leads to the fault step (0: none) and the step it names, whether an armed redirect applies. -/
structure Trans where
  cause   : Option Nat
  target  : Nat
  needEnd : Bool := false
  err     : Nat := 0
  errStep : Nat := 0
  redir   : Bool := true
  deriving DecidableEq, Repr

/-- End the step in force and enter the next in superframe `k`; the new step's first samples are those of `first`. In phase C
(`rerun`) the law runs once more (R126). DEDUCED, log entry 55. -/
def State.transition (s : State) (c k first : Nat) (rerun : Bool) (a : Trans) : State :=
  let p := pgChn c
  let x := s.ch c
  let ends := s.inRun c && a.cause.isSome
  let useRedir := ends && a.redir && a.err == 0 && x.redirect.isSome
  let target := if useRedir then x.redirect.getD 0 else a.target
  let t := if useRedir then
      ((s.modCh c (fun x => { x with redirect := none })).wr p R.CHN_LP_STAT_swap_pending 0).raise p 0x200
    else s
  let t := (t.withdraw c).modCh c (fun x => { x with img := [] })
  let y := if a.err ≠ 0 then (t, a.err, a.errStep, [])
    else State.chain 8 t c target (a.needEnd && !useRedir)
  let z := if y.2.1 = 0 then y else y.1.faultChain c y.2.1 y.2.2.1
  let entered := !z.2.2.2.isEmpty
  let u := if ends then
      z.1.postStepEnd s c (s.mkStepEnd c k (a.cause.getD 0) z.2.1 useRedir) (if entered then z.2.2.1 else 0xFFFF)
    else z.1
  if entered then
    let u := u.enterStep c first z.2.2.1 z.2.2.2
    if rerun then u.runLaw c else u
  else u.disarm c k

/-! ### Resume actions (R160) -/

/-- on_resume of the step in force. -/
def State.onResume (s : State) (c : Nat) : Nat := bitsOf (imgW (s.ch c).img 5) 34 2

/-- Resume channel `c` before phase B of superframe `k`: 0 RESUME, 1 RESTART, 2 ABORT with error `err`; in direct control RESUME
and RESTART clear the law state and ABORT disarms. -/
def State.resume (s : State) (c k act err : Nat) : State :=
  let p := pgChn c
  let t := (s.setCst c 2).raise p 1
  if s.rdB p R.CHN_CFG_src ∨ (s.ch c).img = [] then
    if act = 2 then s.disarm c k else (t.clearLaw c).wr p R.CHN_LP_STAT_lp_state 0
  else if act = 0 then
    let hold := s.holdFor c (imgMode (s.ch c).img) true
    (t.modCh c (fun x => { x with pers := [0, 0, 0, 0], hold := hold })).wr p R.CHN_LP_STAT_lp_state
      (if s.inRun c then 1 else 2)
  else
    let t := t.modCh c (fun x => { x with req := 0 })
    if act = 1 then
      t.transition c k k false { cause := some 6, target := s.rd p R.CHN_LP_PTR_step, redir := false }
    else
      t.transition c k k false { cause := some 5, target := 0, err := err, errStep := s.rd p R.CHN_LP_PTR_step }

/-! ### Evaluation (R149, R153) -/

/-- Whether a selector reads a sample of the superframe. -/
def selSample (n : Nat) : Bool := n == 2 || n == 3 || n == 4 || n == 5 || n == 0x0B

/-- A step-local counter as a selector value. -/
def local28 (v : Nat) : Int := (min (v / 2 ^ 28) (2 ^ 35 - 1) : Nat)

/-- The value of a selector in superframe `k`, with the samples `i` and `v`. DEDUCED, log entry 56. -/
def State.selVal (s : State) (c k sel : Nat) (i v : Int) (status : Nat) : Int :=
  let p := pgChn c
  match sel with
  | 0x01 => (s.rd p R.CHN_LP_TIME_value : Nat)
  | 0x02 => i
  | 0x03 => v
  | 0x04 => sat36 i.natAbs
  | 0x05 => sat36 (rnd (i * v) (2 ^ 33))
  | 0x06 => local28 (s.rd p R.CHN_SQ_IN_value)
  | 0x07 => local28 (s.rd p R.CHN_SQ_OUT_value)
  | 0x08 => local28 (s.rd p R.CHN_SE_IN_value)
  | 0x09 => local28 (s.rd p R.CHN_SE_OUT_value)
  | 0x0A => sat36 (((s.rd p R.CHN_SQ_IN_value : Nat) - (s.rd p R.CHN_SQ_OUT_value : Nat) : Int) / 2 ^ 28)
  | 0x0B => sat36 (v - s.rdS p R.CHN_LP_VENT_value)
  | 0x0C => sat36 (s.rd p R.CHN_LP_CVT_cv_time : Nat)
  | 0x0D => (bitsOf status 16 8 : Int) - 64
  | 0x0E => (b2n (bitOf status (c % 16)) : Nat)
  | 0x0F => (b2n (s.rd p R.CHN_LP_GATE_gen != s.rd pgStp (R.STP_GATE_STAT_gen (s.rd p R.CHN_LP_GATE_group))
      && (match (s.ch c).openAt with | none => false | some o => decide (o ≤ k))) : Nat)
  | 0x10 => (s.rd p R.CHN_LP_CNT01_cnt0 : Nat)
  | 0x11 => (s.rd p R.CHN_LP_CNT01_cnt1 : Nat)
  | 0x12 => (s.rd p R.CHN_LP_CNT23_cnt2 : Nat)
  | _ => (s.rd p R.CHN_LP_CNT23_cnt3 : Nat)

/-- A comparison (R150). -/
def compare36 (code : Nat) (x t : Int) : Bool :=
  match code with
  | 0 => decide (t ≤ x) | 1 => decide (x ≤ t) | 2 => decide (t < x) | 3 => decide (x < t) | 4 => x == t | _ => x != t

/-- One condition of R153: its new persistence count and whether it fires. `hold` says that its sample cannot be used. -/
def condStep (ctl : Nat) (blanked bad : Bool) (x t : Int) (pers : Nat) : Nat × Bool :=
  if ctlSel ctl = 0 then (pers, false)
  else if selSample (ctlSel ctl) && blanked then (0, false)
  else if selSample (ctlSel ctl) && bad then (pers, false)
  else if compare36 (ctlCmp ctl) x t then (min (pers + 1) 64, decide (ctlQual ctl < min (pers + 1) 64))
  else (0, false)

/-- Evaluate the four conditions: the persistence counts are updated and the lowest that fires is found. `time` is the
step_time for blank. -/
def State.conditions (s : State) (c k : Nat) (i v : Int) (invalid : Bool) (status : Nat) : State × Option Nat :=
  let p := pgChn c
  let m := (s.ch c).img
  let blanked := decide (s.rd p R.CHN_LP_TIME_value ≤ bitsOf (imgW m 5) 24 10)
  let r := (List.range 4).map (fun n =>
    let ctl := condCtl m n
    let bad := invalid || (ctlSel ctl == 0x0B && !(s.ch c).vEntry)
    condStep ctl blanked bad (s.selVal c k (ctlSel ctl) i v status) (toS 36 (imgW m (8 + n))) ((s.ch c).pers.getD n 0))
  (s.modCh c (fun x => { x with pers := r.map (·.1) }), (List.range 4).find? (fun n => (r.getD n (0, false)).2))

/-- The action of condition `n` ends the step in phase C of superframe `k` (R150, R164). -/
def State.takeAction (s : State) (c k first n : Nat) (rerun : Bool) : State :=
  let m := (s.ch c).img
  let next := bitsOf (imgW m 0) 0 14
  let alt := bitsOf (imgW m 1) 0 14
  match ctlAct (condCtl m n) with
  | 0 => s.transition c k first rerun { cause := some n, target := next }
  | 1 => s.transition c k first rerun { cause := some n, target := alt }
  | 2 => s.transition c k first rerun { cause := some n, target := next, needEnd := true }
  | _ => s.transition c k first rerun { cause := some n, target := 0, err := 6, errStep := s.rd (pgChn c) R.CHN_LP_PTR_step }

/-- The result of a Looper command. DEDUCED, log entry 52. -/
def State.lpResult (s : State) (c r : Nat) : State := s.wr (pgChn c) R.CHN_LP_STAT_cmd_result r

/-- The first cause against a Looper command in the order of R166: 0 with none. -/
def State.lpRefuse (s : State) (c kind : Nat) : Nat :=
  let p := pgChn c
  let moves := kind == 0 || kind == 2 || kind == 3
  if moves && s.cst c != 2 then 2
  else if kind == 4 && s.rd p R.CHN_LP_STAT_lp_state != 4 then 3
  else if moves && s.rdB p R.CHN_CFG_src then 6
  else if (kind == 0 || kind == 2) && !s.rdB p R.CHN_LP_PEND_valid then 4
  else 0

/-- A Looper command due in superframe `k` before phase B: release and cancel act, and a command that is refused ends
(R161, R167, R185). -/
def State.lpBeforeB (s : State) (c k : Nat) : State :=
  match (s.ch c).lpCmd with
  | none => s
  | some x =>
    if !x.due.now k then s
    else
      let r := if s.cst c = 3 ∧ x.kind = 1 then 2 else s.lpRefuse c x.kind
      let t := s.modCh c (fun z => { z with lpCmd := none })
      if r ≠ 0 then t.lpResult c r
      else if x.kind = 4 then
        (t.lpResult c 0).resume c k (if x.act = 0 then s.onResume c else x.act - 1) 7
      else if x.kind = 1 then
        ((t.modCh c (fun z => { z with redirect := none })).wr (pgChn c) R.CHN_LP_STAT_swap_pending 0).lpResult c 0
      else s

/-- The swap, jump or abort command that acts in phase C of superframe `k`: its kind. DEDUCED, log entry 55. -/
def State.lpPhaseC (s : State) (c k : Nat) : Option Nat :=
  match (s.ch c).lpCmd with
  | none => none
  | some x => if x.due.now k && (x.kind == 0 || x.kind == 2 || x.kind == 3) then some x.kind else none

/-- A swap due in phase C arms the redirect; a jump or abort due there is returned. DEDUCED, log entry 58. -/
def State.lpTake (s : State) (c k : Nat) : State × Nat :=
  match s.lpPhaseC c k with
  | none => (s, 0)
  | some kind =>
    let p := pgChn c
    let r := s.lpRefuse c kind
    let t := s.modCh c (fun z => { z with lpCmd := none })
    if r ≠ 0 then (t.lpResult c r, 0)
    else
      let t := t.lpResult c 0
      if kind = 0 then
        ((t.modCh c (fun z => { z with redirect := some (s.rd p R.CHN_LP_PEND_target) })).wr p R.CHN_LP_STAT_swap_pending 1, 0)
      else (t, kind)

/-- The capture accumulators of R210 take the samples of a superframe in which `time` is step_time. DEDUCED, log entry 58. -/
def State.capture (s : State) (c : Nat) (i v : Int) : State :=
  let x := s.ch c
  let time := s.rd (pgChn c) R.CHN_LP_TIME_value
  let ta := imgTa x.img
  let dly := s.rd pgGrd R.GRD_DCIR_DLY_dly
  let e2 := ta + (if dly = 0 then imgTb x.img else dly)
  let in1 := decide (ta < time + max 1 (s.rd pgGrd R.GRD_DCIR_CFG_n_pre) ∧ time ≤ ta)
  let in2 := decide (e2 < time + max 1 (s.rd pgGrd R.GRD_DCIR_CFG_n_post) ∧ time ≤ e2)
  let t := if in1 then
      s.modCh c (fun x => { x with cap := { x.cap with n1 := x.cap.n1 + 1, v1 := x.cap.v1 + v, i1 := x.cap.i1 + i } })
    else s
  if in2 then
    t.modCh c (fun x => { x with cap := { x.cap with n2 := x.cap.n2 + 1, v2 := x.cap.v2 + v, i2 := x.cap.i2 + i } })
  else t

/-- step_time, cv_time, v_entry and the captures advance in superframe `k` (R153, R210). -/
def State.stepTick (s : State) (c : Nat) (i v : Int) (invalid : Bool) : State :=
  let p := pgChn c
  let t := s.wr p R.CHN_LP_TIME_value (min (s.rd p R.CHN_LP_TIME_value + 1) (2 ^ 35 - 1))
  let t := if s.rdB p R.CHN_STAT_cv_active then
      t.wr p R.CHN_LP_CVT_cv_time (min (s.rd p R.CHN_LP_CVT_cv_time + 1) (2 ^ 32 - 1)) else t
  let t := if !(s.ch c).vEntry && !invalid then
      (t.wrS p R.CHN_LP_VENT_value v).modCh c (fun x => { x with vEntry := true }) else t
  if (s.ch c).role = 3 && imgMode (s.ch c).img == 8 && !invalid then t.capture c i v else t

/-- Phase C of superframe `k` for channel `c` (R125, R153). -/
def State.evaluate (s : State) (c k : Nat) : State :=
  let p := pgChn c
  let s := s.modCh c (fun x => { x with evalEnd := k + 1 })
  let i := s.rdS p R.CHN_I_value
  let v := s.rdS p R.CHN_V_value
  let fl := s.rd p R.CHN_MEAS_FLAGS_i_flags ||| s.rd p R.CHN_MEAS_FLAGS_v_flags
  let status := (s.bk (bankOf c)).wstat
  let y := s.lpTake c k
  let t := y.1
  let t := t.wrB p R.CHN_LP_GATE_open (t.selVal c k 0x0F i v status != 0)
  if t.cst c ≠ 2 ∨ t.rdB p R.CHN_CFG_src then t
  else
    let t := if t.inRun c && bitOf fl 0 then t.modCh c (fun x => { x with ovrSeen := true }) else t
    let z := if t.inRun c then (t.stepTick c i v (bitOf fl 3)).conditions c k i v (bitOf fl 3) status else (t, none)
    let ptr := t.rd p R.CHN_LP_PTR_step
    if y.2 = 3 then z.1.transition c k (k + 1) true { cause := some 5, target := 0, err := 9, errStep := ptr }
    else if y.2 = 2 then z.1.transition c k (k + 1) true { cause := some 4, target := t.rd p R.CHN_LP_PEND_target }
    else match z.2 with
      | none => z.1
      | some n => z.1.takeAction c k (k + 1) n true

/-! ### Looper commands (R166, R167) -/

/-- A CHN_LP_CMD write of an accepted requester. -/
def State.lpCmdWrite (s : State) (c : Nat) (d : Word) : State :=
  let acts := bitsOf d.toNat 27 5
  let kinds := (List.range 5).filter (fun n => bitOf acts (4 - n))
  match kinds with
  | [] => s
  | [kind] =>
    let r := s.lpRefuse c kind
    if r ≠ 0 then s.lpResult c r
    else (s.modCh c (fun x => { x with lpCmd := some ⟨kind, bitsOf d.toNat 25 2, s.dueOf (whenOf d)⟩ })).lpResult c 1
  | _ => s.lpResult c 5

/-- The CHN_LP_CMD register. -/
def offLpCmd : Nat := 0x1CC

/-- LP_SWAP (R166). -/
def execLpSwap (r : Req) (c : Fin 512) (d : Word) (s : State) : Res :=
  .next (s.start.access r (pgChn c.val) offLpCmd (fun s => s.lpCmdWrite c.val (d ||| 0x80000000)))

/-- LP_CANCEL (R166). -/
def execLpCancel (r : Req) (c : Fin 512) (d : Word) (s : State) : Res :=
  .next (s.start.access r (pgChn c.val) offLpCmd (fun s => s.lpCmdWrite c.val (d ||| 0x40000000)))

/-- LP_JUMP (R166). -/
def execLpJump (r : Req) (c : Fin 512) (d : Word) (s : State) : Res :=
  .next (s.start.access r (pgChn c.val) offLpCmd (fun s => s.lpCmdWrite c.val (d ||| 0x20000000)))

/-- LP_ABORT (R166). -/
def execLpAbort (r : Req) (c : Fin 512) (d : Word) (s : State) : Res :=
  .next (s.start.access r (pgChn c.val) offLpCmd (fun s => s.lpCmdWrite c.val (d ||| 0x10000000)))

/-- LP_RELEASE (R161). -/
def execLpRelease (r : Req) (c : Fin 512) (d : Word) (s : State) : Res :=
  .next (s.start.access r (pgChn c.val) offLpCmd (fun s => s.lpCmdWrite c.val (d ||| 0x08000000)))

/-- LP_CMD_TAKES_EFFECT (R167): release and cancel before phase B of the superframe whose work starts next; swap, jump and abort
in phase C of the superframe in work, where the channel's phase C has not run. -/
def execLpCmdTakesEffect (c : Fin 512) (s : State) : Res :=
  let s := s.start
  let k := s.w - 1
  if (s.lpPhaseC c.val k).isSome && s.w != 0 && decide ((s.ch c.val).evalEnd < s.w) then .next (s.evaluate c.val k)
  else .next (s.lpBeforeB c.val s.w)

/-! ### Gates (R157, R158) -/

/-- The channels that wait in group `g`, in ascending order. DEDUCED, log entry 56. -/
def State.waiting (s : State) (g : Nat) : List Nat :=
  ((s.liveBanks.map chansOf).flatten).filter (fun c =>
    s.rdB (pgChn c) R.CHN_LP_GATE_arrived && s.rd (pgChn c) R.CHN_LP_GATE_group == g
      && s.rd (pgChn c) R.CHN_LP_GATE_gen == s.rd pgStp (R.STP_GATE_STAT_gen g))

/-- The released channels of group `g` get their open superframes. -/
def State.openAll (s : State) (k spacing batch : Nat) : List Nat → Nat → State
  | [], _ => s
  | c :: cs, rank =>
    let d := if batch = 0 ∨ 512 ≤ batch then 0 else spacing * (rank / batch)
    State.openAll (s.modCh c (fun x => { x with openAt := some (k + 1 + d) })) k spacing batch cs (rank + 1)

/-- The tally of group `g` for superframe `k` (R158). DEDUCED, log entry 56. -/
def State.tallyGroup (s : State) (k g : Nat) : State :=
  let w := s.waiting g
  let n := w.length
  let en := s.rdF pgStp (R.STP_GATE_CFG_en g) == 1
  let auto_ := en && s.rdF pgStp (R.STP_GATE_CFG_manual g) == 0 && decide (0 < n)
    && decide (s.rdF pgStp (R.STP_GATE_CFG_expected g) ≤ n)
  let cmd := s.gateRel.any (fun e => e.1 == g && e.2.now k)
  let t := s.wr pgStp (R.STP_GATE_STAT_count g) n
  let t := if cmd then { t with gateRel := t.gateRel.drop (· == g) } else t
  let t := if cmd && en then t.raise pgStp 4 else t
  if auto_ || (cmd && en) then
    let t := t.wr pgStp (R.STP_GATE_STAT_gen g) (s.rd pgStp (R.STP_GATE_STAT_gen g) + 1)
    t.openAll k (s.rdF pgStp (R.STP_GATE_CFG_spacing g)) (s.rdF pgStp (R.STP_GATE_CFG_batch g)) w 0
  else t

/-- The number of superframes whose phase C every live bank has ended. -/
def State.cEnded (s : State) : Nat := (s.liveBanks.map (fun b => (s.bk b).cEnd)).foldl min s.w

/-- GATE_TALLY (R158): the tally of the superframe whose phase C every bank has ended last. -/
def execGateTally (s : State) : Res :=
  let s := s.start
  if s.cEnded ≤ s.tally then .next s
  else
    let k := s.cEnded - 1
    let t := s.copyInst pgStp (iForce pgStp) 0x200 0x300
    .next { (List.range 64).foldl (fun t g => t.tallyGroup k g) t with tally := k + 1 }

/-- An STP_GATE_CMD write of an accepted requester: with release set, the group's pending release. -/
def State.gateCmd (s : State) (d : Word) : State :=
  if bitOf d.toNat 31 then { s with gateRel := s.gateRel.set (bitsOf d.toNat 16 6) (s.dueOf (whenOf d)) } else s

/-- GATE_RELEASE_CMD (R158): an STP_GATE_CMD write with release set. -/
def execGateReleaseCmd (r : Req) (d : Word) (s : State) : Res :=
  .next (s.start.access r pgStp 0x02C (fun s => s.gateCmd (d ||| 0x80000000)))

end Sys2Proof.Machine
end

