-- ==== Sys2Proof/Machine/Grading.lean ====
section
/-! DEFINITION. The grading unit: records, results, sealing and output slots (09_grading_records.md, R204 to R220). -/
namespace Sys2Proof.Machine

/-- The grading state of channel `c`. DEDUCED, log entry 65. -/
def State.gr (s : State) (c : Nat) : GrdCh := s.grd.get {} c

/-- Replace the grading state of channel `c`. -/
def State.setGr (s : State) (c : Nat) (x : GrdCh) : State := { s with grd := s.grd.set c x }

/-- Change the grading state of channel `c`. -/
def State.modGr (s : State) (c : Nat) (f : GrdCh → GrdCh) : State := s.setGr c (f (s.gr c))

/-- The version of the running firmware bank. -/
def State.fwVer (s : State) : Nat :=
  if s.rdB pgUpd R.UPD_BANK_running then s.rd pgUpd R.UPD_FW_VER_B_fw_ver else s.rd pgUpd R.UPD_FW_VER_A_fw_ver

/-! ### Results (R209 to R213) -/

/-- The full scales of an identity record. -/
def fsI (id : List Nat) : Flt := Flt.ofF32 (idU32 id 0x020)
def fsV (id : List Nat) : Flt := Flt.ofF32 (idU32 id 0x024)

/-- `a / 2^n`, exact. -/
def Flt.shift (a : Flt) (n : Nat) : Flt := { a with exp := a.exp - (n : Int) }

/-- An unsigned result saturates below the not-measured code. -/
def resU (n : Nat) : Nat := min n 0xFFFFFFFE

/-- A signed result of sign `neg` and magnitude `n`, as 32 bits. -/
def resS (neg : Bool) (n : Nat) : Nat :=
  let m := min n (2 ^ 31 - 1)
  ofS 32 (if neg then -(m : Int) else (m : Int))

/-- cap_uah of R209. -/
def capUah (id : List Nat) (l q : Nat) : Nat :=
  resU (Flt.shift (Flt.div (Flt.mul (Flt.mul (Flt.ofNat q) (fsI id)) (Flt.ofNat l)) (Flt.ofNat 36000)) 33).nearest

/-- e_uwh of R209. -/
def eUwh (id : List Nat) (l e : Nat) : Nat :=
  resU (Flt.shift (Flt.div (Flt.mul (Flt.mul (Flt.mul (Flt.ofNat e) (fsI id)) (fsV id)) (Flt.ofNat l))
    (Flt.ofNat 36000)) 32).nearest

/-- uv(x) of R209, as a magnitude. -/
def uvMag (id : List Nat) (x : Int) : Nat :=
  (Flt.shift (Flt.mul (Flt.mul (Flt.ofNat x.natAbs) (fsV id)) (Flt.ofNat 1000000)) 33).nearest

/-- ua(x) of R209, as a magnitude. -/
def uaMag (id : List Nat) (x : Int) : Nat :=
  (Flt.shift (Flt.mul (Flt.mul (Flt.ofNat x.natAbs) (fsI id)) (Flt.ofNat 1000000)) 33).nearest

/-- uv(x) limited to its field, signed. -/
def uvInt (id : List Nat) (x : Int) : Int :=
  let m := min (uvMag id x) (2 ^ 31 - 1)
  if x < 0 then -(m : Int) else (m : Int)

/-- Nanoseconds of a timestamp. -/
def stampNs (t : Nat) : Nat := t / 2 ^ 32 * 1000000000 + t % 2 ^ 32 / 4

/-- The DCIR results: dcir_uohm, dcir_dv_uv, dcir_di_ua, and whether they are bad (R211). -/
def dcirRes (id : List Nat) (minDi : Nat) (c : Cap) (whole : Bool) : Nat × Nat × Nat × Bool :=
  let a := rnd c.v2 (c.n2 : Nat) - rnd c.v1 (c.n1 : Nat)
  let b := rnd c.i2 (c.n2 : Nat) - rnd c.i1 (c.n1 : Nat)
  if c.n1 = 0 ∨ c.n2 = 0 ∨ !whole ∨ b.natAbs < minDi ∨ b = 0 ∨ (a < 0 ∧ 0 < b) ∨ (0 < a ∧ b < 0) then
    (0xFFFFFFFF, 0x80000000, 0x80000000, true)
  else
    let q := Flt.div (Flt.mul (Flt.mul (Flt.ofNat a.natAbs) (fsV id)) (Flt.ofNat 1000000))
      (Flt.mul (Flt.ofNat b.natAbs) (fsI id))
    (resU q.nearest, resS (decide (a < 0)) (uvMag id a), resS (decide (b < 0)) (uaMag id b), false)

/-- The self-discharge results: k_nvh, age_s, and whether they are bad (R213). -/
def ageRes (r : GrdRec) : Nat × Nat × Bool :=
  match r.ocvFrom, r.ocvTo with
  | some a, some b =>
    if r.nQual < 2 ∨ stampNs b.2 ≤ stampNs a.2 then (0x80000000, 0xFFFFFFFF, true)
    else
      let dt := Flt.div (Flt.ofNat (stampNs b.2 - stampNs a.2)) (Flt.ofNat 1000000000)
      let dv := b.1 - a.1
      let k := Flt.div (Flt.mul (Flt.ofNat dv.natAbs) (Flt.ofNat 3600000)) dt
      (resS (decide (dv < 0)) k.nearest, resU dt.nearest, false)
  | _, _ => (0x80000000, 0xFFFFFFFF, true)

/-! ### Sealing (R207, R208, R215, R216) -/

/-- The bytes 0x00 to 0xBF of a cell record. -/
def State.cellRecord (s : State) (c : Nat) (r : GrdRec) (grade tEnd seq : Nat) : List Byte :=
  let id := (s.bk (bankOf c)).ident
  let l := s.len
  let occ := fun n => bitOf r.roles (n - 1)
  let d := match r.dcir with
    | some x => dcirRes id (s.rd pgGrd R.GRD_DCIR_MIN_DI_min_di) x.1 x.2
    | none => (0xFFFFFFFF, 0x80000000, 0x80000000, false)
  let d := if occ 3 then d else (0xFFFFFFFF, 0x80000000, 0x80000000, false)
  let g := ageRes r
  let hold := bitOf r.tStart 1 || bitOf tEnd 1
  let st := r.status ||| (16 * b2n hold) ||| (64 * b2n d.2.2.2) ||| (128 * b2n (occ 4 && g.2.2))
  let unm := fun (ok : Bool) (v : Nat) => if ok then v else 0xFFFFFFFF
  let ocv := fun (o : Option (Int × Nat)) => match o with | none => 0x80000000 | some x => ofS 32 x.1
  toBytes 2 0x0301 ++ toBytes 2 256 ++ toBytes 2 1 ++ toBytes 2 c ++ toBytes 16 Config.deviceUid.toNat
    ++ ((List.range 4).map (fun n => toBytes 4 (idU32 r.ident (0x008 + 4 * n)))).flatten
    ++ toBytes 2 (idU16 r.ident 0x004) ++ toBytes 2 (idU16 r.ident 0x006) ++ toBytes 4 (idCrc r.ident)
    ++ toBytes 4 seq ++ toBytes 1 grade ++ toBytes 1 st ++ toBytes 1 r.err ++ toBytes 1 r.roles
    ++ (r.cellId.map (toBytes 4)).flatten ++ toBytes 8 r.tStart ++ toBytes 8 tEnd
    ++ toBytes 4 (unm (occ 1) (capUah id l r.qChg)) ++ toBytes 4 (unm (occ 2) (capUah id l r.qDis))
    ++ toBytes 4 (unm (occ 1) (eUwh id l r.eChg)) ++ toBytes 4 (unm (occ 2) (eUwh id l r.eDis))
    ++ toBytes 4 d.1 ++ toBytes 4 d.2.1 ++ toBytes 4 d.2.2.1
    ++ toBytes 4 (if occ 4 then ocv r.ocvFrom else 0x80000000) ++ toBytes 4 (if occ 4 then ocv r.ocvTo else 0x80000000)
    ++ toBytes 4 (if occ 4 then g.1 else 0x80000000) ++ toBytes 4 (if occ 4 then g.2.1 else 0xFFFFFFFF)
    ++ toBytes 2 (min r.nOcv 0xFFFF) ++ toBytes 2 l
    ++ toBytes 4 (idU32 id 0x020) ++ toBytes 4 (idU32 id 0x024) ++ toBytes 4 r.recipe ++ toBytes 4 s.fwVer
    ++ toBytes 4 r.nSteps ++ toBytes 4 0 ++ (r.host.map (toBytes 4)).flatten

/-- GRD_RECORD_SEAL: the open record of channel `c` is sealed (R207, R208). DEDUCED, log entry 64. -/
def State.grdSeal (s : State) (c grade tEnd : Nat) (aborted : Bool) : State :=
  match (s.gr c).opn with
  | none => s
  | some r =>
    let sc := s.rdB (pgChn c) R.CHN_INTG_STAT_scale_chg
    let r := { r with status := r.status ||| b2n aborted ||| (32 * b2n sc) }
    let seq := s.rd pgGrd R.GRD_SEQ_seq
    let o : GrdOut := { seq := seq, body := s.cellRecord c r grade tEnd seq }
    let t := s.wr pgGrd R.GRD_SEQ_seq (seq + 1)
    let t := t.raise pgGrd 1
    if (s.gr c).out.isNone then t.modGr c (fun x => { x with opn := none, out := some o, sealAt := none })
    else (t.modGr c (fun x => { x with opn := none, wait := some o, sealAt := none })).raise pgGrd 8

/-- The output slot of channel `c` empties, and a waiting record moves into it (R208, R219). -/
def State.grdFree (s : State) (c : Nat) : State := s.modGr c (fun x => { x with out := x.wait, wait := none })

/-- Whether a channel's open slot holds a sealed record: messages that arrive belong to no record. -/
def State.grdBlocked (s : State) (c : Nat) : Bool := (s.gr c).wait.isSome

/-- Count a message that belongs to no record. -/
def State.grdCount (s : State) : State := s.bump pgGrd R.GRD_BLOCKED_count 1

/-- A record opens for channel `c` at time `t` (R206). -/
def State.grdOpen (s : State) (c t : Nat) : State :=
  let i := iGrd c
  s.modGr c (fun x => { x with
    opening := false
    opn := some
      { tStart := t, cellId := (List.range 4).map (fun n => s.rd i (R.GRD_CELLID_cell_id n))
        recipe := s.rd i R.GRD_RECIPE_recipe, host := (List.range 8).map (fun n => s.rd i (R.GRD_HOSTDATA_data n))
        ident := (s.bk (bankOf c)).ident } })

/-- GRD_ENTRY_NOTICE (R204 to R207): the entry notice at the head of what the bank engines have posted. -/
def execGrdEntryNotice (s : State) : Res :=
  let s := s.start
  match s.grdIn with
  | .entry e :: rest =>
    let s := { s with grdIn := rest }
    let t := s.modGr e.chan (fun x => { x with role := e.role, tRole := e.t, sfRole := e.sfc, ocvN := 0, ocvSum := 0 })
    if t.grdBlocked e.chan then .next t.grdCount
    else if e.opcode = 5 then .next (t.grdSeal e.chan e.code e.tPrev false)
    else if e.opcode = 1 ∧ (t.gr e.chan).opn.isNone
        ∧ (t.rdB pgGrd R.GRD_CFG_auto_open ∨ (t.gr e.chan).opening) then .next (t.grdOpen e.chan e.t)
    else .next t
  | _ => .next s

/-- A step-end event enters the open record (R205, R211, R215). -/
def GrdRec.take (r : GrdRec) (e : StepEnd) (lost : Bool) (whole : Bool) : GrdRec :=
  { r with
    qChg := if e.role = 1 then r.qChg + e.sqIn else r.qChg
    eChg := if e.role = 1 then r.eChg + e.seIn else r.eChg
    qDis := if e.role = 2 then r.qDis + e.sqOut else r.qDis
    eDis := if e.role = 2 then r.eDis + e.seOut else r.eDis
    dcir := if e.role = 3 then some (e.cap, whole) else r.dcir
    roles := if 1 ≤ e.role ∧ e.role ≤ 4 then r.roles ||| 2 ^ (e.role - 1) else r.roles
    err := if e.err ≠ 0 then e.err else r.err
    status := r.status ||| (2 * b2n (bitOf e.flags 1)) ||| (4 * b2n (bitOf e.flags 2)) ||| (8 * b2n lost)
    nSteps := r.nSteps + 1 }

/-- GRD_STEP_END (R205, R207): the step-end event at the head of what the bank engines have posted. -/
def execGrdStepEnd (s : State) : Res :=
  let s := s.start
  match s.grdIn with
  | .stepEnd e :: rest =>
    let s := { s with grdIn := rest }
    let c := e.chan
    let lost := match (s.gr c).next with | none => false | some n => n != e.seq
    let t := s.modGr c (fun x => { x with next := some ((e.seq + 1) % 2 ^ 32) })
    if t.grdBlocked c then .next t.grdCount
    else
      match (t.gr c).opn with
      | none => .next t
      | some r =>
        let dly := s.rd pgGrd R.GRD_DCIR_DLY_dly
        let whole := e.mode == 8 && decide (e.ta + (if dly = 0 then e.tb else dly) ≤ e.time)
        let t := t.modGr c (fun x => { x with opn := some (r.take e lost whole) })
        if e.cause = 7 then .next (t.grdSeal c 0 e.tEnd true) else .next t
  | _ => .next s

/-! ### OCV points (R212) -/

/-- The tap of the grading unit sees the voltage samples of superframe `k` of bank `b`: in a RUN step with role AGE those that
lie in the window before a point are summed. DEDUCED, log entry 64. -/
def State.ocvTap (s : State) (b k : Nat) : State :=
  let per := s.rd pgPwr R.PWR_AW_PERIOD_period_s * 1000000000
  let win := s.rd pgPwr R.PWR_AW_WINDOW_window_ms * 1000000
  (chansOf b).foldl (fun t c =>
    let x := t.gr c
    let e := (k + 1 - x.sfRole) * s.tNs
    if x.role = 4 ∧ x.sfRole ≤ k ∧ s.inRun c ∧ !bitOf (s.rd (pgChn c) R.CHN_MEAS_FLAGS_v_flags) 3
        ∧ (e % per = 0 ∨ per < e % per + win) then
      t.setGr c { x with ocvN := x.ocvN + 1, ocvSum := x.ocvSum + s.rdS (pgChn c) R.CHN_V_value }
    else t) s

/-- An OCV point of value `v` (W36) stamped `t` enters the open record of channel `c`. -/
def State.ocvPoint (s : State) (c : Nat) (v : Int) (t : Nat) : State :=
  let x := s.gr c
  match x.opn with
  | none => s
  | some r =>
    let uv := uvInt (s.bk (bankOf c)).ident v
    let skip := s.rd pgGrd R.GRD_AGE_CFG_skip_h * 3600000000000
    let q := decide (stampNs x.tRole + skip ≤ stampNs t)
    let r := { r with
      nOcv := r.nOcv + 1, nQual := if q then r.nQual + 1 else r.nQual
      ocvFrom := if q && r.ocvFrom.isNone then some (uv, t) else r.ocvFrom, ocvTo := some (uv, t)
      status := r.status ||| (16 * b2n (bitOf t 1)) }
    s.setGr c { x with opn := some r }

/-- GRD_OCV_POINT (R212): a point of channel `c` from the tap; one with no valid sample is not taken. -/
def execGrdOcvPoint (c : Fin 512) (s : State) : Res :=
  let s := s.start
  let c := c.val
  let x := s.gr c
  if x.role ≠ 4 ∨ !s.inRun c ∨ x.ocvN = 0 then .next s
  else
    let t := s.ocvPoint c (rnd x.ocvSum (x.ocvN : Nat)) (s.stampSf (bankOf c) (s.w - 1))
    .next (t.modGr c (fun x => { x with ocvN := 0, ocvSum := 0 }))

/-! ### Commands (R206, R207) -/

/-- GRD_CH_CMD for channel `c`. -/
def State.grdCmd (s : State) (c : Nat) (n : Nat) : State :=
  let t := if bitOf n 31 then s.modGr c (fun x => { x with opening := true }) else s
  let t := if bitOf n 29 then t.modGr c (fun x => { x with opn := none, sealAt := none }) else t
  if bitOf n 30 then t.modGr c (fun x => { x with sealAt := some (s.k + 1) }) else t

/-- A GRD_CH_CMD write of an accepted requester. -/
def State.grdCmdWrite (s : State) (d : Word) : State := s.grdCmd (s.rd pgGrd R.GRD_CH_SEL_channel) d.toNat

/-- GRD_OPEN (R206). -/
def execGrdOpen (r : Req) (d : Word) (s : State) : Res :=
  .next (s.start.access r pgGrd 0x0A4 (fun s => s.grdCmdWrite (d ||| 0x80000000)))

/-- GRD_SEAL (R207). -/
def execGrdSeal (r : Req) (d : Word) (s : State) : Res :=
  .next (s.start.access r pgGrd 0x0A4 (fun s => s.grdCmdWrite (d ||| 0x40000000)))

/-- GRD_DISCARD (R207). -/
def execGrdDiscard (r : Req) (d : Word) (s : State) : Res :=
  .next (s.start.access r pgGrd 0x0A4 (fun s => s.grdCmdWrite (d ||| 0x20000000)))

/-- GRD_SEAL_TAKES_EFFECT (R207). DEDUCED, log entry 64. -/
def execGrdSealTakesEffect (c : Fin 512) (s : State) : Res :=
  let s := s.start
  match (s.gr c.val).sealAt with
  | none => .next s
  | some n =>
    if s.k < n then .next s
    else .next ((s.grdSeal c.val 0 (s.stampSf (bankOf c.val) s.k) true).modGr c.val (fun x => { x with sealAt := none }))

/-! ### Output (R217 to R220, R240) -/

/-- Whether the device emits the records of channel `c`. DEDUCED, log entry 64. -/
def State.grdEmits (s : State) (c : Nat) : Bool :=
  s.role (bankOf c) == 0 || s.role (bankOf c) == 1 || s.rdB pgGrd R.GRD_CFG_emit_standby

/-- The queue pool is offered the signed record of channel `c`. -/
def State.grdOffer (s : State) (c : Nat) : State :=
  match (s.gr c).out with
  | none => s
  | some o =>
    let t := s.modGr c (fun x => { x with out := some { o with st := 2 } })
    t.offer 2 { queue := s.rd pgGrd R.GRD_CFG_queue, bytes := o.body ++ o.sig, bank := bankOf c, sf := c }

/-- The records waiting for a signature, as channel and sequence. -/
def State.grdUnsigned (s : State) : List (Nat × Nat) :=
  s.grd.filterMap (fun e => match e.2.out with
    | some o => if o.st = 0 then some (e.1, o.seq) else none
    | none => none)

/-- The channel whose record is signed next: the lowest sequence (R217). DEDUCED, log entry 66. -/
def State.grdNext (s : State) : Option Nat :=
  (s.grdUnsigned.foldl (fun (a : Option (Nat × Nat)) e => match a with
    | none => some e
    | some b => if e.2 < b.2 then some e else a) none).map (·.1)

/-- A record leaves the crypto engine with signature `sig`, or zeros where the sign failed (R218). DEDUCED, log entry 66. -/
def State.grdSigned (s : State) (c : Nat) (sig : Option (List Byte)) : State :=
  let t := s.modGr c (fun x => { x with
    out := x.out.map (fun o => { o with sig := sig.getD (List.replicate 64 0), st := 1 }) })
  let t := if sig.isNone then (t.bump pgGrd R.GRD_SIGN_FAIL_count 1).raise pgGrd 4 else t
  if t.grdEmits c then t.grdOffer c else t

/-- PAIR_REC_HOLD_EXPIRY (R240): a record that the standby has kept is discarded. -/
def execPairRecHoldExpiry (c : Fin 512) (s : State) : Res :=
  let s := s.start
  match (s.gr c.val).out with
  | none => .next s
  | some o => if o.st = 1 ∧ !s.grdEmits c.val then .next (s.grdFree c.val) else .next s

/-- At a takeover the kept records of the banks are emitted and the others discarded (R240). -/
def State.grdTakeover (s : State) (banks : List Nat) : State :=
  let kept := s.grd.filterMap (fun e => match e.2.out with
    | some o => if o.st = 1 then some e.1 else none
    | none => none)
  kept.foldl (fun t c => if banks.contains (bankOf c) then t.grdOffer c else t.grdFree c) s

end Sys2Proof.Machine
end

