-- ==== Sys2Proof/Machine/QueuePool.lean ====
section
/-! DEFINITION. The queue pool manager: cells, admission, watermarks, flush (15_queue_pool.md, R341 to R353). -/
namespace Sys2Proof.Machine

/-! ### The pool (R341 to R344) -/

/-- The pool's size in cells. -/
def State.poolCells (s : State) : Nat := max (s.rd pgQpm R.QPM_POOL_size) 1 * 2 ^ 20

/-- The pool's base address. -/
def State.poolBase (s : State) : Nat := 0x800000000 + 0x10000000 * s.rd pgQpm R.QPM_POOL_idx

/-- Whether the pool takes items: enabled, and MEM has not been off since. -/
def State.poolOn (s : State) : Bool := s.rdB pgQpm (R.CTRL_enable pgQpm) && !s.rdB pgQpm R.QPM_POOL_STAT_mem_off

/-- QPM_FREE. -/
def State.qpmFree (s : State) : Nat := if s.poolOn then s.poolCells - s.pool.fresh + s.pool.freed.length else 0

/-- Hand out one cell (R344). -/
def Pool.take (p : Pool) : Pool × Nat :=
  match p.freed with
  | c :: rest => ({ p with freed := rest }, c)
  | [] => ({ p with fresh := p.fresh + 1 }, p.fresh)

/-- Hand out `n` cells. -/
def Pool.takeN (p : Pool) : Nat → Pool × List Nat
  | 0 => (p, [])
  | n + 1 =>
    let a := p.take
    let b := a.1.takeN n
    (b.1, a.2 :: b.2)

/-- Free cells, in their order. DEDUCED, log entry 92. -/
def Pool.free (p : Pool) (l : List Nat) : Pool := { p with freed := l.reverse ++ p.freed }

/-! ### Queues -/

/-- Queue `q`. -/
def State.queue (s : State) (q : Nat) : Queue := s.queues.get {} q

/-- Replace queue `q`. -/
def State.setQueue (s : State) (q : Nat) (x : Queue) : State := { s with queues := s.queues.set q x }

/-- The cells a queue holds, reserved ones included (R349). -/
def Queue.count (x : Queue) : Nat :=
  (x.items.map (fun i => i.cells.length)).sum + (match x.prog with
    | some p => p.2.cells.length
    | none => 0)

/-- QPM_WATERMARK_CROSS (R349, R350): after each allocation and release the count of queue `q` is compared. -/
def State.qCross (s : State) (q : Nat) : State :=
  let i := iQue q
  let n := (s.queue q).count
  let hi := s.rd i R.QPM_Q_HI_cells
  let lo := s.rd i R.QPM_Q_LO_cells
  let lo := if hi ≠ 0 ∧ hi ≤ lo then hi - 1 else lo
  let live := s.rdB i R.QPM_Q_STAT_live_hi
  if !live && hi != 0 && decide (hi ≤ n) then
    ((((s.wr i R.QPM_Q_STAT_live_hi 1).wr i R.QPM_Q_STAT_hi_seen 1).bump i R.QPM_Q_XCNT_hi 1)).raise pgQpm 1
  else if live && decide (n ≤ lo) then
    ((((s.wr i R.QPM_Q_STAT_live_hi 0).wr i R.QPM_Q_STAT_lo_seen 1).bump i R.QPM_Q_XCNT_lo 1)).raise pgQpm 2
  else s

/-- The level of flow-control pin `n` (R351). -/
def State.qfcPin (s : State) (n : Nat) : Bool :=
  let v := s.rdB pgQpm (R.QPM_QFC_en n) && s.rdB (iQue (s.rd pgQpm (R.QPM_QFC_queue n))) R.QPM_Q_STAT_live_hi
  v != s.rdB pgQpm (R.QPM_QFC_inv n)

/-- The cells an item of `n` bytes needs (R345). -/
def cellsFor (n : Nat) : Nat := (n + 247) / 248

/-- The 64-bit words of an item of `n` bytes. -/
def wordsFor (n : Nat) : Nat := (n + 7) / 8

/-! ### Admission (R345, R346) -/

/-- Why a first word is not admitted: the queue has an item in progress, its limit, or the pool. -/
def State.qRefuses (s : State) (q c : Nat) : Bool :=
  (s.queue q).prog.isSome || (s.queue q).disc.isSome
    || decide (s.rd (iQue q) R.QPM_Q_MAX_cells < (s.queue q).count + c) || decide (s.qpmFree < c)

/-- Port `p` waits. DEDUCED, log entry 94. -/
def State.portWait (s : State) (p : Nat) : State := s.setBits pgQpm R.QPM_PORT_STAT_waiting (2 ^ p)

/-- Port `p` no longer waits. -/
def State.portGo (s : State) (p : Nat) : State := s.clrBits pgQpm R.QPM_PORT_STAT_waiting (2 ^ p)

/-- Whether port `p` waits on a refused item. -/
def State.portWaits (s : State) (p : Nat) : Bool := bitOf (s.rd pgQpm R.QPM_PORT_STAT_waiting) p

/-- The head item leaves port `p`; LGR_REC_COUNT counts those of the logging path, wrapping. -/
def State.portPop (s : State) (p : Nat) : State :=
  let t := { s with ports := s.ports.set p (s.port p).tail }
  if p = 0 then t.wr pgLgr R.LGR_REC_COUNT_count (s.rd pgLgr R.LGR_REC_COUNT_count + 1) else t

/-- The item at the head of port `p` is admitted: its cells are reserved; a cell record leaves its output slot (R219). -/
def State.admission (s : State) (p : Nat) (it : Item) : State :=
  let a := s.pool.takeN (cellsFor it.bytes.length)
  let x := s.queue it.queue
  let t := { s with pool := a.1, portQ := s.portQ.set p (it.queue + 1) }
  let t := t.setQueue it.queue { x with prog := some (p, { len := it.bytes.length, cells := a.2 }) }
  let t := (t.portGo p).qCross it.queue
  if p = 2 then (t.grdFree it.sf).raise pgGrd 2 else t

/-- Port `p` offers its head item; `fresh` tells that this is its first offer, whose refusal starts a wait.
DEDUCED, log entry 94. -/
def State.portOffer (s : State) (p : Nat) (fresh : Bool) : State :=
  match s.port p with
  | [] => s
  | it :: _ =>
    let q := it.queue
    let c := cellsFor it.bytes.length
    if !s.rdB (iQue q) R.QPM_Q_CFG_en then
      if p = 2 then s.portWait p
      else (((s.portPop p).portGo p).bump pgQpm R.QPM_DISC_DISABLED_items 1).raise pgQpm 16
    else if s.qRefuses q c then
      let t := if s.qpmFree < c then (s.wr pgQpm R.QPM_POOL_STAT_pool_empty 1).raise pgQpm 4 else s
      let t := if fresh then t.bump (iQue q) R.QPM_Q_REFUSE_count 1 else t
      t.portWait p
    else s.admission p it

/-- Whether port `p` has an item in progress or being discarded. -/
def State.portBusy (s : State) (p : Nat) : Bool := s.portQ.get 0 p != 0

/-- QPM_ITEM_FIRST_WORD (R345, R346). -/
def execQpmItemFirstWord (p : Fin 3) (s : State) : Res :=
  let s := s.start
  .next (if s.domOn 0 && !s.portBusy p.val && !s.portWaits p.val then s.portOffer p.val true else s)

/-- QPM_ITEM_RETRY (R345). -/
def execQpmItemRetry (p : Fin 3) (s : State) : Res :=
  let s := s.start
  .next (if s.domOn 0 && !s.portBusy p.val && s.portWaits p.val then s.portOffer p.val false else s)

/-- GRD_RECORD_EMIT (R219): the pool accepts the record at the head of port 2. -/
def execGrdRecordEmit (s : State) : Res :=
  let s := s.start
  match s.port 2 with
  | [] => .next s
  | it :: _ =>
    if s.domOn 0 && !s.portBusy 2 && s.rdB (iQue it.queue) R.QPM_Q_CFG_en && !s.qRefuses it.queue (cellsFor it.bytes.length)
    then .next (s.admission 2 it) else .next s

/-! ### The end of an item (R343, R348) -/

/-- The images of an item's cells, written to the pool. The index that follows the last cell is not given.
DEDUCED, log entry 92. -/
def State.writeCells (s : State) (first : Bool) (bs : List Byte) : List Nat → State
  | [] => s
  | c :: rest =>
    let d := bs.take 248
    let next := rest.headD (s.freeVal % 2 ^ 25)
    let hd := toBytes 4 (next + 2 ^ 25 * b2n first + 2 ^ 26 * b2n rest.isEmpty) ++ toBytes 2 d.length ++ toBytes 2 0
    let t := if rest.isEmpty then s.freeNext else s
    (t.store (s.poolBase + 256 * c) (hd ++ d)).writeCells false (bs.drop 248) rest

/-- The bytes of an item, read from its cells. -/
def State.itemBytes (s : State) (it : QItem) : List Byte :=
  ((it.cells.map (fun c =>
    let n := ofBytes (s.load (s.poolBase + 256 * c + 4) 2)
    s.load (s.poolBase + 256 * c + 8) (min n 248))).flatten).take it.len

/-- The registers that show queue `q`. -/
def State.qDisable (s : State) (q : Nat) : State :=
  let x := s.queue q
  if x.off && x.disc.isNone then (s.setQueue q { x with off := false }).wr (iQue q) R.QPM_Q_CFG_en 0 else s

/-- The end-of-item mark of port `p`. -/
def State.itemEnd (s : State) (p : Nat) : State :=
  let q := s.portQ.get 0 p - 1
  let x := s.queue q
  let t := { s with portQ := s.portQ.set p 0 }.portPop p
  match x.disc, x.prog with
  | some (p', n), _ =>
    if p' ≠ p then t
    else
      let t := t.setQueue q { x with disc := none }
      ((t.bump pgQpm R.QPM_FLUSH_DISCARD_words n).raise pgQpm 8).qDisable q
  | none, some (_, it) =>
    let bs := ((s.port p).headD {}).bytes
    (t.setQueue q { x with prog := none, items := x.items ++ [it] }).writeCells true bs it.cells
  | none, none => t

/-- QPM_ITEM_END (R348, R352). -/
def execQpmItemEnd (p : Fin 3) (s : State) : Res :=
  let s := s.start
  .next (if s.domOn 0 && s.portBusy p.val then s.itemEnd p.val else s)

/-! ### Flush (R352, R353) -/

/-- A flush of queue `q`; `passed` is how many words of an item in progress have passed. DEDUCED, log entry 92. -/
def State.flush (s : State) (q passed : Nat) : State :=
  let x := s.queue q
  if x.disc.isSome then s
  else
    let cells := (x.items.map (·.cells)).flatten ++ (match x.prog with
      | some p => p.2.cells
      | none => [])
    let t := { s with pool := s.pool.free cells }
    let disc := x.prog.map (fun p => (p.1, wordsFor p.2.len - passed))
    let t := t.setQueue q { x with items := [], prog := none, disc := disc }
    let t := t.qCross q
    if disc.isNone then t.raise pgQpm 8 else t

/-- The words of an item in progress that have passed where nothing tells: at least one, and not the last.
DEDUCED, log entry 93. -/
def State.passedFree (s : State) (q : Nat) : Nat :=
  match (s.queue q).prog with
  | some p => 1 + s.freeVal % max (wordsFor p.2.len - 1) 1
  | none => 0

/-- The queue that QPM_Q_SEL names. -/
def State.qSel (s : State) : Nat := s.rd pgQpm R.QPM_Q_SEL_queue

/-- A QPM_Q_CMD write. -/
def State.qCmd (s : State) (d : Word) (passed : Nat) : State := if bitOf d.toNat 31 then s.flush s.qSel passed else s

/-- A QPM_Q_CFG write (R353). -/
def State.qCfg (s : State) (d : Word) (passed : Nat) : State :=
  let q := s.qSel
  if bitOf d.toNat 31 then
    (s.wr (iQue q) R.QPM_Q_CFG_en 1).setQueue q { s.queue q with off := false }
  else if s.rdB (iQue q) R.QPM_Q_CFG_en then
    let t := s.flush q passed
    (t.setQueue q { t.queue q with off := true }).qDisable q
  else s

/-- QPM_FLUSH (R352). DEDUCED, log entry 93. -/
def execQpmFlush (r : Req) (d : Word) (passed : Fin 2049) (s : State) : Res :=
  .next (s.start.access r pgQpm 0x044 (fun s => s.qCmd (d ||| BitVec.ofNat 32 (2 ^ 31)) passed.val))

/-- QPM_QUEUE_DISABLE (R353). DEDUCED, log entry 93. -/
def execQpmQueueDisable (r : Req) (d : Word) (passed : Fin 2049) (s : State) : Res :=
  .next (s.start.access r pgQpm 0x034 (fun s => s.qCfg (d &&& 0x7FFFFFFF#32) passed.val))

/-- Every queue loses its items (R344, R353): as a flush of each. -/
def State.flushAll (s : State) : State :=
  s.queues.foldl (fun t e => (t.flush e.1 (t.passedFree e.1)).freeNext) s

/-! ### Enable (R341, R344) -/

/-- Whether the region of QPM_POOL may be enabled. -/
def State.poolOk (s : State) : Bool :=
  let size := max (s.rd pgQpm R.QPM_POOL_size) 1
  decide (size ≤ 16) && decide (s.rd pgQpm R.QPM_POOL_idx + size ≤ 32) && s.domOn 6
    && decide (s.poolBase + 256 * s.poolCells ≤ 0x800000000 + 4096 * min (s.rd pgSec R.SEC_WM_DRAM_units) 0x200000)

/-- QPM_CTRL.enable is written. DEDUCED, log entry 92. -/
def State.qpmEnable (s : State) (en : Bool) : State :=
  if en then
    if s.poolOn then s
    else if s.poolOk then
      let t := s.wr pgQpm (R.CTRL_enable pgQpm) 1
      let t := (t.wr pgQpm R.QPM_POOL_STAT_cfg_err 0).wr pgQpm R.QPM_POOL_STAT_mem_off 0
      { t with pool := {} }
    else (s.wr pgQpm (R.CTRL_enable pgQpm) 0).wr pgQpm R.QPM_POOL_STAT_cfg_err 1
  else if s.rdB pgQpm (R.CTRL_enable pgQpm) then s.flushAll.wr pgQpm (R.CTRL_enable pgQpm) 0
  else s

/-- MEM switches off (R344). DEDUCED, log entry 92. -/
def State.qpmMemOff (s : State) : State :=
  if s.rdB pgQpm (R.CTRL_enable pgQpm) then s.flushAll.wr pgQpm R.QPM_POOL_STAT_mem_off 1 else s

end Sys2Proof.Machine
end

