-- ==== Sys2Proof/Machine/Bridge.lean ====
section
/-! DEFINITION. The remote register bridge (16_bridge.md, R354 to R370). -/
namespace Sys2Proof.Machine

/-- Tag `t`. -/
def State.tag (s : State) (t : Nat) : Tag := s.tags.get {} t

/-- Replace tag `t`. -/
def State.setTag (s : State) (t : Nat) (x : Tag) : State := { s with tags := s.tags.set t x }

/-- Whether the remote register has a read side effect (side-effect map of R78). -/
def remoteSe (ident : List Nat) (reg : Nat) : Bool := bitOf (idU8 ident (0x4C0 + reg / 8)) (reg % 8)

/-- R369, R370: a late-error log entry for tag `t` with status `status`, and the signal to its source. -/
def State.lateEntry (s : State) (t status : Nat) : State :=
  let x := s.tag t
  let t1 := match (List.range 8).find? (fun n => !s.rdB pgBrg (R.BRG_LATE_W0_valid n)) with
    | none => (s.bump pgBrg R.BRG_LATE_OVF_count 1).raise pgBrg 2
    | some n =>
      let u := s.wr pgBrg (R.BRG_LATE_W0_valid n) 1
      let u := u.wr pgBrg (R.BRG_LATE_W0_status n) status
      let u := u.wr pgBrg (R.BRG_LATE_W0_tag n) t
      let u := u.wr pgBrg (R.BRG_LATE_W0_bank n) x.bank
      let u := u.wr pgBrg (R.BRG_LATE_W0_reg n) x.reg
      let u := u.wr pgBrg (R.BRG_LATE_W1_world n) x.world
      let u := u.wr pgBrg (R.BRG_LATE_W1_cocoon n) x.cocoon
      let u := u.wr pgBrg (R.BRG_LATE_W1_function n) x.fn
      let u := u.wr pgBrg (R.BRG_LATE_W1_sfc n) s.k
      let u := u.raise pgBrg 1
      if x.isFn then u.fnEvent (if u.rd (iFn x.fn) R.FNC_FN_STAT_state = 1 then x.fn else 0) 1 else u
  t1

/-- A tag becomes free, or stays in quarantine until its superframe (R368). -/
def State.freeTag (s : State) (t : Nat) : State :=
  s.setTag t (if s.k < (s.tag t).quar then { st := 3, quar := (s.tag t).quar, bank := (s.tag t).bank } else {})

/-- A read is discarded (R365): the tag is freed, and an executed side effect is logged as ORPHANED. DEDUCED, log entry 95. -/
def State.discardTag (s : State) (t : Nat) : State :=
  let x := s.tag t
  let u := (s.bump pgBrg R.BRG_DISCARD_count 1).raise pgBrg 4
  let u := if x.se && x.sent then u.lateEntry t 8 else u
  u.freeTag t

/-- A transaction ends with a status (R356, R366): a read becomes DONE, a write frees its tag and a failure is logged. -/
def State.endTag (s : State) (t status data : Nat) : State :=
  let x := s.tag t
  let quar := if status = 4 then s.k + 256 else 0
  let s := s.modBk x.bank (fun y => { y with brgQ := y.brgQ.filter (· != t) })
  if x.write then
    let u := s.setTag t { x with quar := quar }
    (if status = 0 then u else u.lateEntry t status).freeTag t
  else
    let u := s.setTag t { x with st := 2, status := status, data := if status = 0 then data else 0, quar := quar }
    if x.isFn && u.rd (iFn x.fn) R.FNC_FN_STAT_state == 2 then u.discardTag t else u

/-- R367: a lost link or lost sync ends every open and waiting transaction of the bank with LINK. -/
def State.brgLink (s : State) (b : Nat) : State :=
  (List.range 64).foldl (fun u t =>
    if (u.tag t).st = 1 ∧ (u.tag t).bank = b then u.endTag t 5 0 else u) s

/-- The open requests of a bank that have been sent. -/
def State.brgOpen (s : State) (b : Nat) : List Nat :=
  (List.range 64).filter (fun t => (s.tag t).st == 1 && (s.tag t).bank == b && (s.tag t).sent && !(s.bk b).brgQ.contains t)

/-- The request words of a tag (R358). -/
def reqWords (t : Nat) (x : Tag) : List Nat :=
  let h := t * 2 ^ 26 + x.reg
  if x.write then [3 * 2 ^ 32 + h, 4 * 2 ^ 32 + x.data] else [2 * 2 ^ 32 + h]

/-- Fill `n` slots from the waiting tags in order, at most `room` of them: the words and the tags sent (R360). -/
def fillSlots (tag : Nat → Tag) : Nat → Nat → List Nat → List Nat × List Nat
  | _, _, [] => ([], [])
  | n, room, t :: ts =>
    let w := reqWords t (tag t)
    if room = 0 ∨ n < w.length then ([], [])
    else
      let y := fillSlots tag (n - w.length) (room - 1) ts
      (w ++ y.1, t :: y.2)

/-- The bridge fills slots 17 to 24 of bank `b`, `free` of them, in downlink superframe `m`: the words (R360). -/
def State.brgFill (s : State) (b m free : Nat) : State × List Nat :=
  let y := fillSlots s.tag free (16 - (s.brgOpen b).length) (s.bk b).brgQ
  let u := y.2.foldl (fun u t => u.setTag t { u.tag t with sent := true, m := m, tries := (u.tag t).tries + 1 }) s
  (u.modBk b (fun x => { x with brgQ := x.brgQ.filter (fun t => !y.2.contains t) }), y.1)

/-- R367: dl_chk_err for downlink superframe `m`: its requests are sent again first, or end with DL_RETRY. -/
def State.brgResend (s : State) (b m : Nat) : State :=
  let l := (s.brgOpen b).filter (fun t => (s.tag t).m == m)
  let out := l.filter (fun t => s.rd pgBrg R.BRG_CFG_dl_retries < (s.tag t).tries)
  let again := l.filter (fun t => (s.tag t).tries ≤ s.rd pgBrg R.BRG_CFG_dl_retries)
  let u := out.foldl (fun u t => u.endTag t 7 0) s
  let u := u.bump pgBrg R.BRG_RETRY_count again.length
  u.modBk b (fun x => { x with brgQ := again ++ x.brgQ })

/-- Issue a transaction (R354): the result code and tag go to the requester's BRG_ISSUE. -/
def State.brgIssue (s : State) (r : Req) (d : Word) : State :=
  let n := d.toNat
  let op := bitsOf n 30 2
  let b := bitsOf n 10 5
  let reg := bitsOf n 0 10
  let id := (s.bk b).ident
  let se := remoteSe id reg
  let i := iReq (reqId r)
  let free := (List.range 64).find? (fun t => (s.tag t).st == 0)
  let res := if op = 0 ∨ op = 3 then 0xE
    else if !s.ownerAccepts r (pgBnk b) then 0x9
    else if !s.linkUp b then 0xA
    else if idU16 id 0x056 ≤ reg then 0xB
    else if op = 1 && se && !bitOf n 29 then 0xC
    else if free = none then 0xD else 0
  let u := s.wr i R.BRG_ISSUE_valid 1
  let u := u.wr i R.BRG_ISSUE_result res
  if res ≠ 0 then u
  else
    let t := free.getD 0
    let a := s.attr r
    let isFn := match r with | .fn _ => true | .session _ _ => true | _ => false
    let u := u.wr i R.BRG_ISSUE_tag t
    let u := u.setTag t { st := 1, write := op == 2, se := se, bank := b, reg := reg, req := reqId r, isFn := isFn
                          world := a.world, cocoon := a.cocoon, fn := a.function, data := s.rd i R.BRG_WDATA_data }
    u.modBk b (fun x => { x with brgQ := x.brgQ ++ [t] })

/-- BRG_READ (R354): a BRG_CMD write with op read. -/
def execBrgRead (r : Req) (d : Word) (s : State) : Res :=
  .next (s.start.access r pgBrg 0x028 (fun s => s.brgIssue r ((d &&& 0x3FFFFFFF) ||| 0x40000000)))

/-- BRG_WRITE (R354): a BRG_CMD write with op write. -/
def execBrgWrite (r : Req) (d : Word) (s : State) : Res :=
  .next (s.start.access r pgBrg 0x028 (fun s => s.brgIssue r ((d &&& 0x3FFFFFFF) ||| 0x80000000)))

/-- A response that matches no open transaction is counted and ignored (R368). -/
def State.stray (s : State) : State := (s.bump pgBrg R.BRG_STRAY_count 1).raise pgBrg 8

/-- A response of bank `b`: header word `w`, data word `dw` for a read (R359, R366, R368). -/
def State.brgResponse (s : State) (b w dw : Nat) : State :=
  let t := bitsOf w 26 6
  let x := s.tag t
  let read := bitsOf w 32 4 == 2
  let chk := crcBits 8 0x07 0 (w / 256) 28
  let chk := if read then crcBits 8 0x07 chk dw 36 else chk
  if x.st ≠ 1 ∨ !x.sent ∨ x.bank ≠ b ∨ x.write = read ∨ x.reg ≠ bitsOf w 8 10 then s.stray
  else if chk ≠ bitsOf w 0 8 ∨ (read ∧ bitsOf dw 32 4 ≠ 3) then s.endTag t 6 0
  else s.endTag t (bitsOf w 24 2) (dw % 2 ^ 32)

/-- BRG_RESPONSE (R366): the oldest response that the uplink of bank `b` has brought is taken. DESIGN CHOICE, log entry 119. -/
def execBrgResponse (b : Fin 32) (s : State) : Res :=
  let s := s.start
  match (s.bk b.val).resp with
  | [] => .next s
  | w :: rest =>
    if bitsOf w 32 4 = 4 then
      .next ((s.modBk b.val (fun x => { x with resp := rest })).brgResponse b.val w 0)
    else if bitsOf w 32 4 = 2 then
      match rest with
      | [] => .next s
      | dw :: rest' => .next ((s.modBk b.val (fun x => { x with resp := rest' })).brgResponse b.val w dw)
    else .next (s.modBk b.val (fun x => { x with resp := rest })).stray

/-- BRG_TIMEOUT (R366): no response by the end of uplink superframe m + resp_sf. DEDUCED, log entry 95. -/
def execBrgTimeout (t : Fin 64) (s : State) : Res :=
  let s := s.start
  let x := s.tag t.val
  if x.st = 1 ∧ x.sent ∧ x.m + max 5 (s.rd pgBrg R.BRG_CFG_resp_sf) < s.k then .next (s.endTag t.val 4 0) else .next s

/-- The read of BRG_TAG_DATA by requester `r` (R364). DEDUCED, log entry 95. -/
def State.brgCollect (s : State) (r : Req) : State :=
  let t := s.rd (iReq (reqId r)) R.BRG_TAG_SEL_tag
  let x := s.tag t
  if x.st = 2 ∧ x.req = reqId r then (s.freeTag t).answer x.data else s.answer 0

/-- BRG_COLLECT (R364). -/
def execBrgCollect (r : Req) (s : State) : Res := .next (s.start.accessRd r pgBrg 0x038 (fun s => s.brgCollect r))

/-- BRG_DISCARD_EXPIRY (R365). -/
def execBrgDiscardExpiry (t : Fin 64) (s : State) : Res :=
  let s := s.start
  if (s.tag t.val).st = 2 then .next (s.discardTag t.val) else .next s

/-- BRG_QUARANTINE_END (R368). -/
def execBrgQuarantineEnd (t : Fin 64) (s : State) : Res :=
  let s := s.start
  if (s.tag t.val).st = 3 ∧ (s.tag t.val).quar ≤ s.k then .next (s.freeTag t.val) else .next s

end Sys2Proof.Machine
end

