-- ==== Sys2Proof/Machine/Trip.lean ====
section
/-! DEFINITION. Trips: causes, states, slow checks, clears and the trip commands (07_protection.md, R171 to R191). -/
namespace Sys2Proof.Machine

/-- The trip state of bank `b` (R181): 0 CLEAR, 1 ACTIVE, 2 LATCHED. -/
def State.tripSt (s : State) (b : Nat) : Nat := s.rd (pgBnk b) R.BNK_TRIP_STAT_state

/-- Set the trip state; the trip bit is sent while ACTIVE. -/
def State.setTripSt (s : State) (b v : Nat) : State :=
  (s.wr (pgBnk b) R.BNK_TRIP_STAT_state v).wrB (pgBnk b) R.BNK_TRIP_STAT_trip_bit (v == 1)

/-- The word of register `off` of a page of block `bl`. -/
def State.word (s : State) (bl : Blk) (p off : Nat) : Nat := s.regWord p bl.table off

/-- Whether the state sends and receives normal frames: SFSYNC, IDREAD, UP, ID_BAD, ID_CHANGED. -/
def normalSt (n : Nat) : Bool := n == 4 || n == 5 || n == 6 || n == 8 || n == 9

/-- BNK_TRIP_STAT of bank `b` as it reads: trip_bit is 1 while the downlink carries the trip bit, which it does in normal frames.
DEDUCED, log entry 44. -/
def State.tripWord (s : State) (b : Nat) : Nat :=
  let w := s.word .bnk (pgBnk b) 0x0F0
  if normalSt (s.lst b) || !bitOf w 29 then w else w - 2 ^ 29

/-- CHN_TRIP_STAT of channel `c` as it reads. -/
def State.chnTripWord (s : State) (c : Nat) : Nat :=
  let pb := pgBnk (bankOf c)
  s.word .chn (pgChn c) 0x204 ||| b2n (s.cst c == 3) * 2 ^ 31
    ||| b2n (s.rdB pb R.BNK_TRIP_STAT_origin_valid && s.rd pb R.BNK_TRIP_STAT_origin == c % 16) * 2 ^ 28

/-- A channel enters TRIPPED (R182); TRIPPED takes precedence over HELD (R183). DEDUCED, log entry 59. -/
def State.enterTripped (s : State) (c : Nat) : State :=
  if s.cst c = 3 then s
  else
    let t := (s.setCst c 3).raise (pgChn c) 0x800
    t.wr (pgChn c) R.CHN_LP_STAT_lp_state (if (s.ch c).img = [] then 0 else 3)

/-- The armed channels of a bank that left CLEAR are held by it (R182). -/
def State.holdBank (s : State) (b : Nat) : State :=
  (chansOf b).foldl (fun t c =>
    if t.armed c && !t.rdB (pgChn c) R.CHN_TRIP_STAT_bank_held then
      (t.wr (pgChn c) R.CHN_TRIP_STAT_bank_held 1).enterTripped c
    else t) s

/-- Whether a cause sets the trip bit (R179). -/
def causeBit (code : Nat) : Bool := decide (code ≤ 5) || code == 0x0B || decide (0x0E ≤ code)

/-- A bank-scope cause arises in superframe `k` (R179, R181, R189): `sets` are the comparator sets that saw it, `stream` the
stream of a fast trip. `atOnce`: the channels are held in this phase (R178), else in the work of `k` (R180).
DEDUCED, log entry 59. -/
def State.tripBank (s : State) (b code k : Nat) (sets : Nat) (stream : Option Nat) (atOnce : Bool) : State :=
  let p := pgBnk b
  let first := s.tripSt b == 0
  let t := (s.bump p R.BNK_TRIP_COUNT_count 1).modBk b (fun x => { x with lastAny := some k })
  let t := if causeBit code then t.modBk b (fun x => { x with lastBit := max x.lastBit k }) else t
  let t := if first then
      let o := match stream with | some n => if n < 32 then some (n % 16) else none | none => none
      let t := t.wr p R.BNK_TRIP_STAT_cause code
      let t := t.wrB p R.BNK_TRIP_STAT_set_a (bitOf sets 0)
      let t := t.wrB p R.BNK_TRIP_STAT_set_b (bitOf sets 1)
      let t := t.wrB p R.BNK_TRIP_STAT_origin_valid o.isSome
      let t := t.wr p R.BNK_TRIP_STAT_origin (o.getD 0)
      let t := t.wr2 p R.BNK_TRIP_T_W0_t R.BNK_TRIP_T_W1_t (s.stampSf b k)
      let t := (t.raise pgTrp 1).raise p 0x400000
      if atOnce then t.holdBank b else t.modBk b (fun x => { x with holdAt := some k })
    else t
  let t := if causeBit code then
      (if s.tripSt b = 1 then t else (t.setTripSt b 1).modBk b (fun x => { x with ackAt := some s.k, ackDue := true }))
    else if first then t.setTripSt b 2 else t
  t.report 0x10 p b [t.tripWord b]

/-- R181, at boundary B(n): an ACTIVE bank becomes LATCHED after hold_sf superframes without a trip-bit cause. -/
def State.tripHold (s : State) (b n : Nat) : State :=
  let x := s.bk b
  let s := if x.linkC then
      (if s.linkUp b then s.modBk b (fun x => { x with linkC := false })
       else s.modBk b (fun x => { x with lastBit := max x.lastBit (n - 1) }))
    else s
  let h := max 1 (s.rd pgTrp R.TRP_CFG_hold_sf)
  if s.tripSt b = 1 ∧ (s.bk b).lastBit + 1 + h ≤ n then s.setTripSt b 2 else s

/-- TRIP_HOLD_EXPIRY (R181). -/
def execTripHoldExpiry (b : Fin 32) (s : State) : Res := .next (s.start.tripHold b.val s.k)

/-! ### Slow checks (R178) -/

/-- The first failing enabled channel-scope check on the latest samples: its cause, 0 with none. Invalid samples are skipped. -/
def State.slowFail (s : State) (c : Nat) : Nat :=
  let p := pgChn c
  let i := s.rd p R.CHN_MEAS_FLAGS_i_flags
  let vf := s.rd p R.CHN_MEAS_FLAGS_v_flags
  let v := s.rdS p R.CHN_V_value
  let status := (s.bk (bankOf c)).wstat
  if s.rdB p R.CHN_TRIP_CFG_ov_en && !bitOf vf 3 && decide (s.rdS p R.CHN_PROT_OV_value < v) then 6
  else if s.rdB p R.CHN_TRIP_CFG_uv_en && !bitOf vf 3 && decide (v < s.rdS p R.CHN_PROT_UV_value) then 7
  else if s.rdB p R.CHN_TRIP_CFG_clip_en && ((!bitOf i 3 && bitOf i 1) || (!bitOf vf 3 && bitOf vf 1)) then 8
  else if s.rdB p R.CHN_TRIP_CFG_mfault_en && bitOf status (c % 16) then 9
  else 0

/-- Whether an enabled channel-scope check fails on the latest valid sample (R186). -/
def State.slowPresent (s : State) (c : Nat) : Bool :=
  let p := pgChn c
  let x := s.ch c
  (s.rdB p R.CHN_TRIP_CFG_ov_en && (match x.vGood with | none => false | some v => decide (s.rdS p R.CHN_PROT_OV_value < v)))
    || (s.rdB p R.CHN_TRIP_CFG_uv_en && (match x.vGood with | none => false | some v => decide (v < s.rdS p R.CHN_PROT_UV_value)))
    || (s.rdB p R.CHN_TRIP_CFG_clip_en && (x.iClip || x.vClip))
    || (s.rdB p R.CHN_TRIP_CFG_mfault_en && bitOf (s.bk (bankOf c)).wstat (c % 16))

/-- A channel-scope cause sets the channel latch (R182, R189). DEDUCED, log entry 60. -/
def State.latchChan (s : State) (c code : Nat) : State :=
  let p := pgChn c
  if s.rdB p R.CHN_TRIP_STAT_chan_latch then s
  else
    let t := s.wr p R.CHN_TRIP_STAT_chan_latch 1
    let t := t.wr p R.CHN_TRIP_STAT_cause code
    let t := (t.enterTripped c).bump (pgBnk (bankOf c)) R.BNK_TRIP_COUNT_count 1
    let t := t.raise (pgBnk (bankOf c)) 0x400000
    t.report 0x11 p c [t.chnTripWord c]

/-- The slow checks of an armed channel. DEDUCED, log entry 29. -/
def State.slowCheck (s : State) (c : Nat) : State :=
  if !s.armed c then s
  else
    let f := s.slowFail c
    if f = 0 then s else s.latchChan c f

/-- Whether TEMP is present with status temperature `temp` (R186). -/
def State.tempNow (s : State) (b temp : Nat) : Bool :=
  if s.rd pgTrp R.TRP_TEMP_temp_hi ≤ temp then true
  else if temp < s.rd pgTrp R.TRP_TEMP_temp_rel then false
  else (s.bk b).temp

/-- The TEMP check of superframe `k` (R178). DEDUCED, log entry 59. -/
def State.tempCheck (s : State) (b k : Nat) : State :=
  let temp := bitsOf (s.bk b).wstat 16 8
  let t := s.modBk b (fun x => { x with temp := s.tempNow b temp })
  if s.rd pgTrp R.TRP_TEMP_temp_hi ≤ temp && !(s.bk b).temp then t.tripBank b 0x0A k 0 none true else t

/-! ### Clears (R184 to R187) -/

/-- A channel leaves TRIPPED with clear_act `act` in superframe `k`; a disarm due in the same superframe overrides it. -/
def State.leaveTripped (s : State) (c k act : Nat) : State :=
  let t := s.raise (pgChn c) 0x1000
  let ovr := match (s.ch c).cmd with
    | none => false
    | some x => x.kind == 1 && x.due.now k
  if ovr then t
  else if act = 0 then (t.setCst c 2).disarm c k
  else t.resume c k (act - 1) 9

/-- The result of a bank clear or test command, with its event record where a clear was judged. DEDUCED, log entry 60. -/
def State.bankClearResult (s : State) (b r act : Nat) : State :=
  let t := s.wr (pgBnk b) R.BNK_TRIP_STAT_clear_result r
  let t := if r = 0 then t.raise (pgBnk b) 0x800000 else t
  t.report 0x12 (pgBnk b) b [r, act, 0]

/-- The result of a channel clear. -/
def State.chanClearResult (s : State) (c r act : Nat) : State :=
  let t := s.wr (pgChn c) R.CHN_TRIP_STAT_clear_result r
  let t := if r = 0 then t.raise (pgBnk (bankOf c)) 0x800000 else t
  t.report 0x12 (pgChn c) c [r, act, 1]

/-- The bank's trip is cleared: its channels without a latch of their own leave TRIPPED (R187). -/
def State.bankCleared (s : State) (b k act : Nat) : State :=
  let p := pgBnk b
  let t := s.setTripSt b 0
  let t := t.wr p R.BNK_TRIP_STAT_cause 0
  let t := t.wr p R.BNK_TRIP_STAT_origin_valid 0
  let t := t.wr p R.BNK_TRIP_STAT_origin 0
  let t := t.wr p R.BNK_TRIP_STAT_set_a 0
  let t := t.wr p R.BNK_TRIP_STAT_set_b 0
  (chansOf b).foldl (fun t c =>
    if t.rdB (pgChn c) R.CHN_TRIP_STAT_bank_held then
      let t := t.wr (pgChn c) R.CHN_TRIP_STAT_bank_held 0
      if t.rdB (pgChn c) R.CHN_TRIP_STAT_chan_latch then t else t.leaveTripped c k act
    else t) t

/-- A bank clear is judged in the work of superframe `k` (R186). -/
def State.bankClear (s : State) (b k act : Nat) : State :=
  let hot := s.tempNow b (bitsOf (s.bk b).wstat 16 8)
  if !s.linkUp b then s.bankClearResult b 4 act
  else if s.tripSt b = 0 then s.bankClearResult b 3 act
  else if s.tripSt b = 1 || hot || (match (s.bk b).lastAny with | none => false | some j => decide (k ≤ j)) then s.bankClearResult b 2 act
  else ((s.modBk b (fun x => { x with temp := false })).bankCleared b k act).bankClearResult b 0 act

/-- A channel clear is judged in the work of superframe `k` (R186). -/
def State.chanClear (s : State) (c k act : Nat) : State :=
  let p := pgChn c
  if !s.linkUp (bankOf c) then s.chanClearResult c 4 act
  else if !s.rdB p R.CHN_TRIP_STAT_chan_latch then s.chanClearResult c 3 act
  else if s.slowPresent c then s.chanClearResult c 2 act
  else
    let t := s.wr p R.CHN_TRIP_STAT_chan_latch 0
    let t := t.wr p R.CHN_TRIP_STAT_cause 0
    (if t.rdB p R.CHN_TRIP_STAT_bank_held then t else t.leaveTripped c k act).chanClearResult c 0 act

/-- The bank clear due in the work of superframe `k`, then the channel clears. DEDUCED, log entry 51. -/
def State.clearsDue (s : State) (b k : Nat) : State :=
  let t := match (s.bk b).bclr with
    | none => s
    | some x => if x.due.now k then (s.modBk b (fun z => { z with bclr := none })).bankClear b k x.act else s
  (chansOf b).foldl (fun t c =>
    match (t.ch c).clr with
    | none => t
    | some x => if x.due.now k then (t.modCh c (fun z => { z with clr := none })).chanClear c k x.act else t) t

/-- The channels of a bank whose trip enters in the work of superframe `k` become TRIPPED (R180). DEDUCED, log entry 59. -/
def State.tripEnter (s : State) (b k : Nat) : State :=
  match (s.bk b).holdAt with
  | none => s
  | some h => if h ≤ k then (s.modBk b (fun x => { x with holdAt := none })).holdBank b else s

/-- TRIP_CLEAR_TAKES_EFFECT (R187): the clears of bank `b` due in the superframe whose work starts next. -/
def execTripClearTakesEffect (b : Fin 32) (s : State) : Res :=
  let s := s.start
  .next ((s.tripEnter b.val s.w).clearsDue b.val s.w)

/-! ### Trip commands -/

/-- A BNK_TRIP_CMD write of an accepted requester (R186). DEDUCED, log entry 60. -/
def State.bankTripCmd (s : State) (b : Nat) (d : Word) : State :=
  let n := d.toNat
  let p := pgBnk b
  let set := fun (t : State) r => t.wr p R.BNK_TRIP_STAT_clear_result r
  let acts := b2n (bitOf n 31) + b2n (bitOf n 28) + b2n (bitOf n 27)
  if acts = 0 then s
  else if 1 < acts then set s 5
  else if bitOf n 31 then
    set (s.modBk b (fun x => { x with bclr := some ⟨bitsOf n 29 2, s.dueOf (whenOf d)⟩ })) 1
  else if s.bankArmed b then set s 5
  else if !s.linkUp b then set s 4
  else set (s.modBk b (fun x => { x with test := if bitOf n 28 then 1 else 2 })) 1

/-- BANK_TRIP_CLEAR (R186). -/
def execBankTripClear (r : Req) (b : Fin 32) (d : Word) (s : State) : Res :=
  .next (s.start.access r (pgBnk b.val) 0x0F4 (fun s => s.bankTripCmd b.val (d ||| 0x80000000)))

/-- TRIP_TEST_A (R176). -/
def execTripTestA (r : Req) (b : Fin 32) (d : Word) (s : State) : Res :=
  .next (s.start.access r (pgBnk b.val) 0x0F4 (fun s => s.bankTripCmd b.val (d ||| 0x10000000)))

/-- TRIP_TEST_B (R176). -/
def execTripTestB (r : Req) (b : Fin 32) (d : Word) (s : State) : Res :=
  .next (s.start.access r (pgBnk b.val) 0x0F4 (fun s => s.bankTripCmd b.val (d ||| 0x08000000)))

/-- A CHN_TRIP_CMD write of an accepted requester (R186). -/
def State.chanTripCmd (s : State) (c : Nat) (d : Word) : State :=
  let p := pgChn c
  let set := fun (t : State) r => t.wr p R.CHN_TRIP_STAT_clear_result r
  if !bitOf d.toNat 31 then s
  else set (s.modCh c (fun x => { x with clr := some ⟨bitsOf d.toNat 29 2, s.dueOf (whenOf d)⟩ })) 1

/-- CHN_TRIP_CLEAR (R186). -/
def execChnTripClear (r : Req) (c : Fin 512) (d : Word) (s : State) : Res :=
  .next (s.start.access r (pgChn c.val) 0x208 (fun s => s.chanTripCmd c.val (d ||| 0x80000000)))

/-- A TRP_FORCE write of an accepted requester: each named bank trips with cause FORCE in the superframe in progress. -/
def State.trpForce (s : State) (d : Word) : State :=
  ((bitsIn 32 d.toNat).filter (fun b => s.domOn (domOfBank b))).foldl
    (fun t b => t.tripBank b 0x0F s.k 0 none false) s

/-- TRIP_FORCE (R179, R188). -/
def execTripForce (r : Req) (d : Word) (s : State) : Res :=
  .next (s.start.access r pgTrp 0x064 (fun s => s.trpForce d))

/-- TRIP_DISAGREE_WINDOW (R176): a trip by one comparator set was not matched within eight trip samples. DEDUCED, log entry 61. -/
def execTripDisagreeWindow (b : Fin 32) (s : State) : Res :=
  let s := s.start
  if !(s.bk b.val).dis then .next s
  else
    let p := pgBnk b.val
    let t := s.modBk b.val (fun x => { x with dis := false })
    let t := (t.bump pgTrp R.TRP_DISAGREE_count 1).raise pgTrp 4
    let t := (t.wr p R.BNK_TRIP_STAT_disagree 1).raise p 0x1000000
    .next (t.report 0x13 p b.val [t.tripWord b.val])

/-! ### Channel commands (R120 to R123, R136, R141, R486) -/

/-- Whether the channel counts as TRIPPED for a command (R184). -/
def State.tripped (s : State) (c : Nat) : Bool := s.cst c == 3 || s.tripSt (bankOf c) != 0

/-- The first cause against a command in the order of R486, 0 with none: kind 0 arm, 1 disarm, 2 apply, 3 preset. -/
def State.cmdRefuse (s : State) (c kind : Nat) : Nat :=
  let p := pgChn c
  let src := s.shadow p R.CHN_CFG_src
  if kind == 0 && !s.rdB p (R.CTRL_enable p) then 7
  else if kind == 0 && !s.linkUp (bankOf c) then 2
  else if kind == 0 && s.tripped c then 3
  else if kind == 0 && src == 0 && !s.rdB p R.CHN_LP_PTR_valid then 4
  else if kind == 3 && s.cst c != 0 then 5
  else if (kind == 0 || kind == 2) && src == 1 && decide (8 < s.shadow p R.CHN_CFG_dmode) then 6
  else 0

/-- The result of a channel command; a refusal raises the interrupts. -/
def State.cmdResult (s : State) (c r : Nat) : State :=
  let t := s.wr (pgChn c) R.CHN_STAT_cmd_result r
  let t := t.wrB (pgChn c) R.CHN_STAT_pending (r == 1)
  if r = 1 then t
  else if r = 0 then t.raise (pgBnk (bankOf c)) 0x40000
  else (t.raise (pgChn c) 4).raise (pgBnk (bankOf c)) 0x80000

/-- A command `kind` is written: it ends with a cause found now, or is pending (R486). DEDUCED, log entry 51. -/
def State.cmdWrite (s : State) (c kind : Nat) (due : Due) : State :=
  let p := pgChn c
  let r := s.cmdRefuse c kind
  if r ≠ 0 then
    -- a refused command changes nothing else: a pending command stays
    let t := (s.wr p R.CHN_STAT_cmd_result r).raise p 4
    t.raise (pgBnk (bankOf c)) 0x80000
  else
    let t := s.modCh c (fun x => { x with cmd := some ⟨kind, due⟩ })
    let t := if kind = 0 ∧ s.cst c = 0 then t.setCst c 1
      else if kind ≠ 0 ∧ s.cst c = 1 then t.setCst c 0 else t
    t.cmdResult c 1

/-- R121: an arm takes effect in superframe `k`. -/
def State.armChan (s : State) (c k : Nat) : State :=
  let p := pgChn c
  let t := s.applyShadows p
  let t := (t.setCst c 2).raise p 1
  let t := (t.clearLaw c).clearLocal c
  let t := t.modCh c (fun x => { x with req := 0 })
  if t.rdB p R.CHN_CFG_src then
    t.modCh c (fun x => { x with hold := t.holdFor c (t.rd p R.CHN_CFG_dmode) true })
  else t.transition c k k false { cause := none, target := t.rd p R.CHN_LP_PTR_step }

/-- R136: a preset takes effect. -/
def State.presetChan (s : State) (c : Nat) : State :=
  let p := pgChn c
  let t := s.applyShadows p
  let n := t.rd p R.CHN_PRE_SEL_counter
  let v := t.rd p R.CHN_PRE_W0_value + 2 ^ 32 * t.rd p R.CHN_PRE_W1_value + 2 ^ 64 * t.rd p R.CHN_PRE_W2_value
  (t.wr p (counterFld n) v).clrBits p R.CHN_INTG_STAT_sat (2 ^ n)

/-- The pending command of channel `c` reaches superframe `k` and takes effect or ends (R486). DEDUCED, log entry 51. -/
def State.cmdEffect (s : State) (c k : Nat) : State :=
  match (s.ch c).cmd with
  | none => s
  | some x =>
    if !x.due.now k then s
    else
      let t := s.modCh c (fun z => { z with cmd := none })
      let r := t.cmdRefuse c x.kind
      if r ≠ 0 then (if t.cst c = 1 then t.setCst c 0 else t).cmdResult c r
      else
        let armedNow := t.cst c == 2 || t.cst c == 4
        let u := match x.kind with
          | 0 => if armedNow then t.applyChan c else t.armChan c k
          | 1 => t.disarm c k
          | 2 => t.applyChan c
          | _ => t.presetChan c
        u.cmdResult c 0

/-- CHN_CMD_TAKES_EFFECT (R486): in the superframe whose work starts next. -/
def execChnCmdTakesEffect (c : Fin 512) (s : State) : Res := .next (s.start.cmdEffect c.val s.w)

/-- A CHN_CMD write of an accepted requester (R120, R123). -/
def State.chnCmdWrite (s : State) (c : Nat) (d : Word) : State :=
  let n := d.toNat
  let kinds := (List.range 5).filter (fun i => bitOf n (31 - i))
  if s.rdB (pgChn c) R.STAT_reset_busy then s
  else match kinds with
  | [] => s
  | [4] => s.dropShadows (pgChn c)
  | [kind] => s.cmdWrite c kind (s.dueOf (whenOf d))
  | _ =>
    let t := (s.wr (pgChn c) R.CHN_STAT_cmd_result 7).raise (pgChn c) 4
    t.raise (pgBnk (bankOf c)) 0x80000

/-- CHN_ARM (R121). -/
def execChnArm (r : Req) (c : Fin 512) (d : Word) (s : State) : Res :=
  .next (s.start.access r (pgChn c.val) 0x028 (fun s => s.chnCmdWrite c.val (d ||| 0x80000000)))

/-- CHN_DISARM (R122). -/
def execChnDisarm (r : Req) (c : Fin 512) (d : Word) (s : State) : Res :=
  .next (s.start.access r (pgChn c.val) 0x028 (fun s => s.chnCmdWrite c.val (d ||| 0x40000000)))

/-- CHN_APPLY (R123). -/
def execChnApply (r : Req) (c : Fin 512) (d : Word) (s : State) : Res :=
  .next (s.start.access r (pgChn c.val) 0x028 (fun s => s.chnCmdWrite c.val (d ||| 0x20000000)))

/-- CHN_PRESET (R136). -/
def execChnPreset (r : Req) (c : Fin 512) (d : Word) (s : State) : Res :=
  .next (s.start.access r (pgChn c.val) 0x028 (fun s => s.chnCmdWrite c.val (d ||| 0x10000000)))

/-- CHN_DISCARD (R123). -/
def execChnDiscard (r : Req) (c : Fin 512) (d : Word) (s : State) : Res :=
  .next (s.start.access r (pgChn c.val) 0x028 (fun s => s.chnCmdWrite c.val (d ||| 0x08000000)))

/-- A BNK_CHN_CMD write of an accepted requester (R141). -/
def State.bnkChnCmd (s : State) (r : Req) (b : Nat) (d : Word) : State :=
  let sel := (bitsIn 16 (s.rd (pgBnk b) R.BNK_CHN_MASK_mask)).map (fun i => 16 * b + i)
  let own := sel.filter (fun c => s.ownerAccepts r (pgChn c) && s.rd (pgChn c) R.OWNER_handover != 2)
  own.foldl (fun t c => t.chnCmdWrite c (d &&& 0xE1003FFF)) s

/-- BNK_CHN_ARM (R141). -/
def execBnkChnArm (r : Req) (b : Fin 32) (d : Word) (s : State) : Res :=
  .next (s.start.access r (pgBnk b.val) 0x0E4 (fun s => s.bnkChnCmd r b.val (d ||| 0x80000000)))

/-- BNK_CHN_DISARM (R141). -/
def execBnkChnDisarm (r : Req) (b : Fin 32) (d : Word) (s : State) : Res :=
  .next (s.start.access r (pgBnk b.val) 0x0E4 (fun s => s.bnkChnCmd r b.val (d ||| 0x40000000)))

/-- BNK_CHN_APPLY (R141). -/
def execBnkChnApply (r : Req) (b : Fin 32) (d : Word) (s : State) : Res :=
  .next (s.start.access r (pgBnk b.val) 0x0E4 (fun s => s.bnkChnCmd r b.val (d ||| 0x20000000)))

end Sys2Proof.Machine
end

