-- ==== Sys2Proof/Machine/Link.lean ====
section
/-! DEFINITION. The Silk links: uplink and downlink frames, the failure ladder, link-up, identity, gaps and pair roles on the
link (03_silk_link.md, R61 to R92; 10_pair_operation.md, R227, R233, R235). -/
namespace Sys2Proof.Machine

/-! ### Roles (R227) -/

/-- Whether PLK is UP. -/
def State.plkUp (s : State) : Bool := s.rd pgPair R.PAIR_STAT_plk == 2

/-- STANDBY banks take over (R233): cause 0 partner_fail, 1 the module's status. DEDUCED, log entry 69. -/
def State.takeover (s : State) (banks : List Nat) (cause : Nat) : State :=
  if banks = [] then s
  else
    let t := (banks.foldl (fun t b => t.setRole b 1) s).grdTakeover banks
    let t := t.bump pgPair R.PAIR_TAKEOVER_count 1
    let t := (t.wr2 pgPair R.PAIR_TK_T_W0_t R.PAIR_TK_T_W1_t t.nowStamp.toNat).freeNext
    (t.raise pgPair 1).report 0x29 pgPair 0xFFFF [maskOf banks, cause]

/-- What a module status word says of the roles (R233, R235). DEDUCED, log entry 69. -/
def State.roleStatus (s : State) (b w : Nat) : State :=
  let st := bitsOf w 30 2
  let m := bitsOf w 27 1
  let twice := (s.bk b).master == some m
  let t := s.modBk b (fun x => { x with master := some m })
  if s.role b = 2 ∧ ((bitsOf w 26 1 = 0 ∧ (st = 1 ∨ st = 2)) ∨ (twice ∧ m = 1)) then t.takeover [b] 1
  else if s.role b = 1 ∧ twice ∧ m = 0 ∧ s.plkUp ∧ bitOf s.plk.peerAct b then (t.setRole b 2).raise pgPair 0x40
  else t

/-! ### The link state -/

/-- A pending test command is dropped with NO_LINK and a running reload ends with 0b10 when the link leaves UP (R104).
DEDUCED, log entry 44. -/
def State.leaveUp (s : State) (b : Nat) : State :=
  let p := pgBnk b
  let t := if (s.bk b).test ≠ 0 then
      (s.modBk b (fun x => { x with test := 0 })).wr p R.BNK_TRIP_STAT_clear_result 4 else s
  if (t.bk b).reload then
    let t := t.modBk b (fun x => { x with reload := false, reloadIn := [], reading := false, idreq := none, reads := [] })
    ((t.wr p R.BNK_CAL_STAT_reload_busy 0).wr p R.BNK_CAL_STAT_reload_result 2).raise p 0x20000
  else t

/-- Enter link state `n`. -/
def State.setLst (s : State) (b n : Nat) : State :=
  let p := pgBnk b
  let t := if s.linkUp b && n != 6 then s.leaveUp b else s
  let t := t.wr p R.BNK_LINK_STAT_state n
  let t := if n = 3 then t.modBk b (fun x => { x with train := 0 }) else t
  let t := if n = 6 ∧ s.lst b ≠ 6 then t.raise p 0x100 else t
  if n = 8 ∨ n = 9 then t.raise p 0x800 else t

/-- The gap starts with superframe `k` (R86, R88, R137). -/
def State.gapStart (s : State) (b k : Nat) : State :=
  let p := pgBnk b
  let t := s.wr2 p R.BNK_GAP_START_W0_t R.BNK_GAP_START_W1_t (s.stampB k)
  let t := t.wr2 p R.BNK_GAP_END_W0_t R.BNK_GAP_END_W1_t 0
  let t := t.wr p R.BNK_LINK_STAT_gap_open 1
  t.modBk b (fun x => { x with gapAt := some k, gapEnd := false, resumeAt := none })

/-- The bank's channels at a gap start, in the work of its superframe (R86, R137, R183). -/
def State.gapHold (s : State) (b : Nat) : State :=
  (chansOf b).foldl (fun t c =>
    if t.armed c then
      let t := t.setBits (pgChn c) R.CHN_INTG_STAT_gap 1
      let t := t.modCh c (fun x => { x with gapSeen := true })
      if t.cst c = 2 then
        (t.setCst c 4).wr (pgChn c) R.CHN_LP_STAT_lp_state (if (t.ch c).img = [] then 0 else 3)
      else t
    else t) s

/-- The last sample of an open window gains the flags `fl` (R86, R112): `old` are the flags it entered with, an invalid sample did not
enter. -/
def LogAcc.mark (a : LogAcc) (old : List Nat) (fl : Nat) : LogAcc :=
  { a with
    fl := (List.range 4).map (fun n => if bitOf (old.getD n 8) 3 then a.fl.getD n 0 else a.fl.getD n 0 ||| fl)
    nCrc := a.nCrc + b2n (bitOf fl 2 && !bitOf (old.getD 0 0) 2) }

/-- The open windows of bank `b` and of its channels whose last sample is that of superframe `k` gain its flags.
DEDUCED, log entry 49. -/
def State.markLog (s : State) (b k fl : Nat) : State :=
  let p := pgBnk b
  let st := s.stampSf b k
  let put := fun (t : State) (key : Nat) (old : List Nat) =>
    let a := t.logAcc.get {} key
    if a.open_ && a.last == st then { t with logAcc := t.logAcc.set key (a.mark old fl) } else t
  let t := (chansOf b).foldl (fun t c =>
    put t c [s.rd (pgChn c) R.CHN_MEAS_FLAGS_i_flags, s.rd (pgChn c) R.CHN_MEAS_FLAGS_v_flags]) s
  put t (512 + b) [s.rd p R.BNK_MEAS_STAT_vbus_flags, s.rd p R.BNK_MEAS_STAT_ibus_flags, s.rd p R.BNK_MEAS_STAT_auxa_flags,
    s.rd p R.BNK_MEAS_STAT_auxb_flags]

/-- The flags of the samples of superframe `k` gain `fl`: in the inputs still waiting, or in the registers and open windows (R96, R99). -/
def State.markSf (s : State) (b k fl : Nat) : State :=
  let t := s.modBk b (fun x => { x with inp := x.inp.map (fun i => if i.sf = k then { i with flags := i.flags ||| fl } else i) })
  if (s.bk b).lastSf = some k then
    let p := pgBnk b
    let t := t.markLog b k fl
    let t := t.setBits p R.BNK_MEAS_STAT_vbus_flags fl
    let t := t.setBits p R.BNK_MEAS_STAT_ibus_flags fl
    let t := t.setBits p R.BNK_MEAS_STAT_auxa_flags fl
    let t := t.setBits p R.BNK_MEAS_STAT_auxb_flags fl
    (chansOf b).foldl (fun t c =>
      (t.setBits (pgChn c) R.CHN_MEAS_FLAGS_i_flags fl).setBits (pgChn c) R.CHN_MEAS_FLAGS_v_flags fl) t
  else t

/-- R86, lost sync (`link` false) or lost link in the superframe in progress. -/
def State.lostLink (s : State) (b : Nat) (link : Bool) : State :=
  let p := pgBnk b
  let k := s.k
  let x := s.bk b
  let mode := if link then 2 else 1
  if mode ≤ x.lost then s
  else
    let t := s.modBk b (fun x => { x with lost := mode, inv := 3 })
    let t := if link then
        t.bump p R.BNK_LINK_ERR_lost_link 1
      else t.bump p R.BNK_LINK_ERR_lost_sync 1
    let t := t.raise p 0x200
    let t := if link then (t.tripBank b 0x0E k 0 none false).modBk b (fun x => { x with linkC := true }) else t
    let t := if s.linkUp b && !s.rdB p R.BNK_LINK_STAT_gap_open then t.gapStart b k else t
    t.brgLink b

/-- Whether the words of superframe `m` were replaced by a repeat (R35, R87, R194). -/
def State.causeAt (s : State) (b m : Nat) : Bool :=
  (s.bk b).lateAt == some m || (s.bk b).crcAt == some m || s.missAt == some m

/-- R86, R87: the CRC of uplink superframe `m` failed, or is unknown. -/
def State.crcFail (s : State) (b m : Nat) : State :=
  let p := pgBnk b
  let again := decide (0 < m) && s.causeAt b (m - 1)
  let late := (s.bk b).lateAt == some m
  let t := s.markSf b m 4
  let t := (t.bump p R.BNK_LINK_ERR_crc_err 1).raise p 0x400
  let t := t.modBk b (fun x => { x with crcAt := some m, crcBad := 2 })
  if again then
    let t := t.tripBank b (if late then 0x0C else 0x0D) (m + 1) 0 none false
    (t.modBk b (fun x => { x with offAt := some (m + 2) })).lostLink b false
  else t

/-- The ladder's lost sync or lost link, with the CRC of the previous superframe then unknown (R86). -/
def State.fall (s : State) (b : Nat) (link : Bool) : State :=
  let t := if (s.bk b).crcPrev.isSome then (s.modBk b (fun x => { x with crcPrev := none })).crcFail b (s.k - 1) else s
  t.lostLink b link

/-! ### Uplink frames (R65 to R68, R94, R97, R172) -/

/-- A bit enters a control-path decimator and the trip history. -/
def Dec.push (d : Dec) (b : Bool) : Dec :=
  let a1 := (d.a1 + (if b then 1 else 2 ^ 32 - 1)) % 2 ^ 32
  let a2 := (d.a2 + a1) % 2 ^ 32
  { d with a1 := a1, a2 := a2, a3 := (d.a3 + a2) % 2 ^ 32, hist := (2 * d.hist + b2n b) % 2 ^ 15 }

/-- The trip filter's result y2 over the last 15 bits (R97). -/
def Dec.y2 (d : Dec) : Int :=
  2 * ((List.range 15).foldl (fun a i => a + (if d.hist.testBit i then (if i < 8 then i + 1 else 15 - i) else 0)) 0 : Nat) - 64

/-- The trip sample (R97). -/
def Dec.trip (d : Dec) : Int := rnd (d.y2 * 5 * 2 ^ 33) 192

/-- The comb of R94 at the end of a superframe: y and the new state. -/
def Dec.comb (d : Dec) : Int × Dec :=
  let c1 := (d.a3 + (2 ^ 32 - d.sp)) % 2 ^ 32
  let c2 := (c1 + (2 ^ 32 - d.c1p)) % 2 ^ 32
  let y := (c2 + (2 ^ 32 - d.c2p)) % 2 ^ 32
  (toS 32 y, { d with sp := d.a3, c1p := c1, c2p := c2 })

/-- The thresholds, enable and qual of a stream's fast comparators (R173): high, low, on, qual. -/
def State.fastTh (s : State) (b t : Nat) : Int × Int × Bool × Nat :=
  let p := pgChn (16 * b + t % 16)
  if t < 16 then
    (s.rdS p R.CHN_TRIP_I_HI_value, s.rdS p R.CHN_TRIP_I_LO_value, s.rdB p R.CHN_TRIP_CFG_i_en, s.rd p R.CHN_TRIP_CFG_qual)
  else if t < 32 then
    (s.rdS p R.CHN_TRIP_V_HI_value, s.rdS p R.CHN_TRIP_V_LO_value, s.rdB p R.CHN_TRIP_CFG_v_en, s.rd p R.CHN_TRIP_CFG_qual)
  else
    let f := iForce pgTrp
    if t = 32 then (s.rdS f R.TRP_VBUS_HI_value, s.rdS f R.TRP_VBUS_LO_value, true, 0)
    else (s.rdS f R.TRP_IBUS_HI_value, s.rdS f R.TRP_IBUS_LO_value, true, 0)

/-- The cause of a fast trip of stream `t` (R179). -/
def fastCause (t : Nat) (high : Bool) : Nat :=
  if t < 16 then 1 else if t < 32 then (if high then 2 else 3) else if t = 32 then 4 else 5

/-- The comparators of stream `t` see the trip sample of its decimator (R172, R181). -/
def State.fastStream (s : State) (b t : Nat) : State :=
  let d := (s.bk b).dec.get {} t
  let th := s.fastTh b t
  let x := d.trip
  let ovr := th.2.2.1 && decide (th.1 < x)
  let under := th.2.2.1 && decide (x < th.2.1)
  let hi := if ovr then d.hi + 1 else 0
  let lo := if under then d.lo + 1 else 0
  let need := th.2.2.2 * 8 + 1
  let u := s.modBk b (fun y => { y with dec := y.dec.set t { d with hi := hi, lo := lo } })
  let u := if ovr || under then u.modBk b (fun y => { y with lastBit := max y.lastBit s.k }) else u
  let u := if ovr && hi == need then u.tripBank b (fastCause t true) s.k 3 (some t) false else u
  if under && lo == need then u.tripBank b (fastCause t false) s.k 3 (some t) false else u

/-- FAST_TRIP: the comparators of a port at one frame; a pending test makes one set alone see an excess (R174, R176).
DEDUCED, log entry 61. -/
def State.fastTrip (s : State) (b : Nat) : State :=
  if !s.linkUp b ∨ (s.bk b).frames < 15 then s
  else
    let x := s.bk b
    let t := if x.test = 0 then s
      else
        let u := s.tripBank b 0x0F s.k x.test none false
        (u.modBk b (fun y => { y with test := 0, dis := true })).wr (pgBnk b) R.BNK_TRIP_STAT_clear_result 0
    (List.range 34).foldl (fun t n => t.fastStream b n) t

/-- MODULE_STATUS: the status word of superframe `k` is complete (R68, R77, R179, R191). DEDUCED, log entry 47. -/
def State.modStatus (s : State) (b w : Nat) : State :=
  let p := pgBnk b
  let k := s.k
  let old := s.rd p R.BNK_MOD_STAT_status
  let t := s.wr p R.BNK_MOD_STAT_status w
  let t := t.modBk b (fun x => { x with status := w })
  let t := if (old / 2 ^ 30, old % 2 ^ 16) ≠ (w / 2 ^ 30, w % 2 ^ 16) then t.raise p 0x1000 else t
  let fault := w / 2 ^ 30 % 4 == 3 && s.rdB pgTrp R.TRP_CFG_mod_state_en && s.linkUp b
  let t := if fault then
      let u := t.modBk b (fun x => { x with lastBit := max x.lastBit k, modF := true })
      if (s.bk b).modF then u else u.tripBank b 0x0B k 0 none false
    else t.modBk b (fun x => { x with modF := false })
  -- R191: the second superframe after the trip bit was first sent
  let t := match (t.bk b).ackAt with
    | none => t
    | some a =>
      if k < a + 2 then t
      else
        let u := t.modBk b (fun x => { x with ackAt := none })
        if k = a + 2 && s.rdB pgTrp R.TRP_CFG_ack_chk && !bitOf w 29 && decide (w / 2 ^ 30 % 4 < 2) then
          ((u.wr p R.BNK_TRIP_STAT_ack_missing 1).raise p 0x2000000).report 0x14 p b [w]
        else u
  -- R77, R367: requests of the previous downlink superframe were not carried out
  let t := if bitOf w 28 && decide (0 < k) then
      let u := match (t.bk b).idsent with
        | some (m, a) => if m + 1 = k then t.modBk b (fun x => { x with idreq := some a, idsent := none }) else t
        | none => t
      u.brgResend b (k - 1)
    else t
  t.roleStatus b w

/-- The CRC of uplink superframe `m` is complete: `got` was received (R67, R87). DEDUCED, log entry 47. -/
def State.crcCheck (s : State) (b got : Nat) : State :=
  match (s.bk b).crcPrev with
  | none => s
  | some c =>
    let t := s.modBk b (fun x => { x with crcPrev := none })
    if s.lst b = 4 then
      t.modBk b (fun x => { x with good := if got = c then x.good + 1 else 0 })
    else if got = c then t else t.crcFail b (s.k - 1)

/-- A response word has arrived (R76, R77): identity data or a bridge response. -/
def State.respWord (s : State) (b w : Nat) : State :=
  match bitsOf w 32 4 with
  | 0 => s
  | 1 => if (s.bk b).reading then
      let t := s.modBk b (fun x => { x with reads := x.reads ++ [w % 2 ^ 32] })
      let n := (t.bk b).reads.length
      if n % 256 = 0 ∧ n < 1024 then t.modBk b (fun x => { x with idreq := some n }) else t
    else s
  | n => if n = 2 ∨ n = 3 ∨ n = 4 then s.modBk b (fun x => { x with resp := x.resp ++ [w] }) else s

/-- The side channel after frame `j` (R66). DEDUCED, log entry 47. -/
def State.sideChannel (s : State) (b j : Nat) : State :=
  let side := (s.bk b).side
  if j = 7 then s.crcCheck b (side % 2 ^ 16)
  else if j = 23 then s.modStatus b (side % 2 ^ 32)
  else if 41 ≤ j ∧ (j - 41) % 18 = 0 ∧ (j - 41) / 18 < (2 * s.len - 48) / 36 then s.respWord b (side % 2 ^ 36)
  else s

/-- The decimators take the stream bits. -/
def pushDec (m : SMap Dec) (bits : BitVec 36) : Nat → SMap Dec
  | 0 => m
  | n + 1 => (pushDec m bits n).set n (((pushDec m bits n).get {} n).push (bits.getLsbD n))

/-- UPLINK_FRAME (R65): one uplink frame of port `b`: sync field, the two side-channel bits ([37:36], bit 37 first) and the
stream bits. The frame is the next of the superframe in progress. DESIGN CHOICE, log entries 9, 119. -/
def execUplinkFrame (b : Fin 32) (sync side : Fin 4) (bits : BitVec 36) (s : State) : Res :=
  let s := s.start
  let b := b.val
  let x := s.bk b
  let j := x.upj
  if !s.domOn (domOfBank b) ∨ !normalSt (s.lst b) ∨ s.len ≤ j then .next s
  else
    let bad := sync.val != (if j = 0 then 1 else 2)
    let t := s.modBk b (fun x => { x with
      upj := j + 1
      wrong := (if j = 0 then 0 else x.wrong) + b2n bad
      crc := crc16 (if j = 0 then 0xFFFF else x.crc) bits.toNat 36
      side := (if j = 0 then 0 else x.side) * 4 + side.val
      dec := pushDec x.dec bits 36
      frames := min (x.frames + 1) 15 })
    let t := if bad then t.bump (pgBnk b) R.BNK_LINK_ERR_sync_err 1 else t
    let t := t.fastTrip b
    let t := if 2 ≤ (t.bk b).wrong && s.lst b != 4 then t.fall b false else t
    .next (t.sideChannel b j)

/-- LOST_LINK (R86, R485): no uplink transition for 400 ns, or receiver unlock. -/
def execLostLink (b : Fin 32) (s : State) : Res :=
  let s := s.start
  let b := b.val
  if !s.domOn (domOfBank b) then .next s
  else if normalSt (s.lst b) && s.lst b != 4 then .next (s.fall b true)
  else .next s

/-! ### Downlink frames (R61 to R63, R69 to R73, R81) -/

/-- The marks of slot 25: master, pair, standby (R227). -/
def State.marks (s : State) (b : Nat) : Bool × Bool × Bool :=
  match s.role b with
  | 0 => (true, false, false)
  | 1 => (true, s.plkUp || !s.rdB pgPair R.PAIR_STAT_partner_fail, false)
  | 2 => (false, true, true)
  | _ => (false, true, false)

/-- The l_code of a superframe length. -/
def lCode (l : Nat) : Nat := lBit l + 1

/-- Bits [19:0] of slot 25. -/
def State.flags25 (s : State) (b : Nat) : Nat :=
  let m := s.marks b
  let run := s.linkUp b && s.bankArmed b && s.role b != 4
  b2n m.1 * 2 ^ 19 + b2n m.2.1 * 2 ^ 18 + b2n run * 2 ^ 17 + lCode s.len * 2 ^ 15 + b2n m.2.2 * 2 ^ 14 + s.k % 2 ^ 14

/-- dl_chk over slots 0 to 24, each as its bits [36:0], and bits [19:0] of slot 25 (R73). -/
def dlChk (slots : List Nat) (f : Nat) : Nat := crc16 (slots.foldl (fun r x => crc16 r x 37) 0xFFFF) f 20

/-- Bits [36:0] of slot `j`, slot valid and payload. -/
def State.slot (s : State) (b j : Nat) : Nat :=
  if j < 25 then (s.bk b).slots.getD j 0
  else if j = 25 then
    let f := s.flags25 b
    2 ^ 36 + dlChk ((List.range 25).map (fun i => (s.bk b).slots.getD i 0)) f * 2 ^ 20 + f
  else 0

/-- Slots 17 to 24 are filled with the identity read or the bridge's requests (R77, R360, R361). -/
def State.fillReq (s : State) (b : Nat) : State :=
  let x := s.bk b
  match x.idreq with
  | some a =>
    if s.brgOpen b = [] then
      s.modBk b (fun x => { x with idreq := none, idsent := some (s.k, a)
                                   slots := x.slots.take 17 ++ [2 ^ 36 + 2 ^ 32 + 255 * 2 ^ 24 + a] })
    else s
  | none =>
    if x.reading then s
    else
      let y := s.brgFill b s.k 8
      y.1.modBk b (fun x => { x with slots := x.slots.take 17 ++ y.2.map (· + 2 ^ 36) })

/-- DOWNLINK_FRAME (R69): the device sends the next downlink frame of port `b`. -/
def execDownlinkFrame (b : Fin 32) (s : State) : Res :=
  let s := s.start
  let b := b.val
  let l := s.lst b
  if !s.domOn (domOfBank b) ∨ l = 0 ∨ l = 10 then .next s
  else if l = 1 ∨ l = 2 then .next (s.emit (.silk b 0xAAAAAAAAAA))
  else if l = 3 then
    let n := (s.bk b).train
    .next ((s.modBk b (fun x => { x with train := (n + 1) % 2 ^ 24 })).emit
      (.silk b (3 * 2 ^ 38 + 0xA5 * 2 ^ 30 + n)))
  else
    let j := (s.bk b).dlj
    let t := if j = 17 then s.fillReq b else s
    let trip := s.rdB (pgBnk b) R.BNK_TRIP_STAT_trip_bit
    let t := if trip && (t.bk b).ackDue then t.modBk b (fun x => { x with ackAt := some s.k, ackDue := false }) else t
    let w := (if j = 0 then 1 else 2) * 2 ^ 38 + b2n trip * 2 ^ 37 + t.slot b j
    .next ((t.modBk b (fun x => { x with dlj := min (j + 1) (s.len - 1) })).emit (.silk b w))

/-! ### Identity (R79, R80, R101, R102, R107, R128, R195) -/

/-- The calibration entries of a record go into the set in use; shadow entries that are not dirty follow (R101, R102). -/
def State.calLoad (s : State) (b : Nat) (r : List Nat) : State :=
  let p := pgBnk b
  let es := (List.range 36).map (fun t => (t, idCal r t))
  let unc := maskOf ((es.filter (fun e => e.2.2)).map (·.1))
  let t := s.modBk b (fun x => { x with
    cal := es.map (fun e => (e.1, e.2.1))
    calSh := es.map (fun e => (e.1, if bitOf x.calDirty e.1 then x.calSh.get {} e.1 else e.2.1)) })
  let t := t.wr p R.BNK_CAL_UNC0_unc unc
  let t := t.wr p R.BNK_CAL_UNC1_unc (unc / 2 ^ 32)
  let t := t.wr p R.BNK_CAL_SW0_sw 0
  t.wr p R.BNK_CAL_SW1_sw 0

/-- BNK_TS_ADJ (R107). -/
def State.tsAdj (s : State) (b : Nat) : State :=
  let p := pgBnk b
  let id := (s.bk b).ident
  let d := rnd ((s.rd p R.BNK_LINK_STAT_rtt * 5 : Nat) - (2 * idU16 id 0x04A : Nat)) 4
  s.wrS p R.BNK_TS_ADJ_adj (d + toS 16 (idU16 id 0x04C) - ((s.len : Int) - 1) * 50)

/-- The open cell records of bank `b` see a change of the scale (R215). DEDUCED, log entry 46. -/
def State.scaleMark (s : State) (b : Nat) : State :=
  { s with grd := (chansOf b).foldl (fun m c =>
      let x := m.get {} c
      match x.opn with
      | none => m
      | some r => m.set c { x with opn := some { r with status := r.status ||| 32 } }) s.grd }

/-- A record becomes the identity in use; `always` loads the calibration set (R101). DEDUCED, log entry 46. -/
def State.accept (s : State) (b : Nat) (r : List Nat) (always : Bool) : State :=
  let p := pgBnk b
  let x := s.bk b
  let scale := x.ident ≠ [] ∧ (idU32 x.ident 0x020 ≠ idU32 r 0x020 ∨ idU32 x.ident 0x024 ≠ idU32 r 0x024)
  let keep := s.rdB p R.BNK_MEAS_CTRL_cal_keep && x.loaded && !always
  let t := s.modBk b (fun x => { x with
    ident := r, newId := [], loaded := true
    mChg := idLimit r 0x030, mDis := idLimit r 0x034, gb := idFactor r 0x020 0x024, hb := idFactor r 0x028 0x02C })
  let t := t.wr p R.BNK_ID_VENDOR_vendor_id (idU16 r 0x004)
  let t := t.wr p R.BNK_ID_VENDOR_model (idU16 r 0x006)
  let t := t.wr p R.BNK_ID_REV_hw_rev (idU16 r 0x018)
  let t := t.wr p R.BNK_ID_REV_fw_rev (idU16 r 0x01A)
  let t := (List.range 4).foldl (fun t n => t.wr p (R.BNK_ID_SERIAL_serial n) (idU32 r (0x008 + 4 * n))) t
  let t := t.wr p R.BNK_ID_CRC_crc (idCrc r)
  let t := t.wr p R.BNK_LINK_STAT_dual (idU8 r 0x01F)
  let t := t.wr p R.BNK_CAL_STAT_cal_temp (idU16 r 0x054)
  let t := if keep then t else t.calLoad b r
  let t := t.tsAdj b
  let t := if scale then
      (chansOf b).foldl (fun t c => t.wr (pgChn c) R.CHN_INTG_STAT_scale_chg 1) (t.scaleMark b) else t
  let t := (chansOf b).foldl (fun t c => t.modCh c (fun z => { z with lastV := none, vGood := none, iClip := false, vClip := false })) t
  let t := t.setLst b 6
  if s.rdB p R.BNK_LINK_STAT_gap_open then t.modBk b (fun x => { x with gapEnd := true }) else t

/-- Identity record `r` of bank `b` has been read (R79, R80): it is refused, differs from the identity in use, or is accepted.
DEDUCED, log entry 45. -/
def State.idRead (s : State) (b : Nat) (r : List Nat) : State :=
  let x := s.bk b
  let t := s.modBk b (fun x => { x with reads := [], reading := false, idreq := none, idsent := none })
  let t := t.wr (pgBnk b) R.BNK_ID_NEW_CRC_crc (idCrc r)
  if !idAccepted r s.len then t.setLst b 8
  else if x.ident ≠ [] ∧ idTuple x.ident ≠ idTuple r then (t.modBk b (fun x => { x with newId := r })).setLst b 9
  else t.accept b r false

/-- IDREAD_DONE (R79, R80): the identity record is read; `rec` is the record where the uplink frames did not bring all of it.
DEDUCED, log entry 45. -/
def execIdreadDone (b : Fin 32) (rec : List Word) (s : State) : Res :=
  let s := s.start
  let b := b.val
  let x := s.bk b
  if s.lst b ≠ 5 then .next s
  else .next (s.idRead b (if x.reads.length = 1024 then x.reads else rec.map (·.toNat)))

/-! ### Link control (R81, R82, R89, R90) -/

/-- id_reject: every armed channel aborts to its fault step with error ID_REJECT, or is disarmed in direct control.
DEDUCED, log entry 46. -/
def State.idReject (s : State) (b : Nat) : State :=
  (chansOf b).foldl (fun t c =>
    if !t.armed c then t
    else if t.rdB (pgChn c) R.CHN_CFG_src ∨ (t.ch c).img = [] then t.disarm c t.k
    else t.transition c t.k t.k false
      { cause := some 5, target := 0, err := 8, errStep := t.rd (pgChn c) R.CHN_LP_PTR_step }) s

/-- A BNK_LINK_CTRL write of an accepted requester. DEDUCED, log entry 44. -/
def State.linkCtrl (s : State) (b : Nat) (d : Word) : State :=
  let p := pgBnk b
  let n := d.toNat
  let t := s.wr p R.BNK_LINK_CTRL_hold_resume (bitsOf n 4 1)
  let t := t.wr p R.BNK_LINK_CTRL_auto (bitsOf n 1 1)
  let t := t.wr p R.BNK_LINK_CTRL_port_en (bitsOf n 0 1)
  if !bitOf n 0 then
    let t := if t.linkUp b && t.bankArmed b && !t.rdB p R.BNK_LINK_STAT_gap_open then (t.gapStart b t.k).brgLink b
      else if t.linkUp b then t.brgLink b else t
    (t.modBk b (fun x => { x with inv := 3, sfsync := false })).setLst b 0
  else
    let t := if bitOf n 3 && !t.bankArmed b && t.lst b != 0 then
        (if t.linkUp b then t.brgLink b else t).setLst b 0
      else t
    let start := (bitOf n 2 && (t.lst b == 0 || t.lst b == 10)) || (bitOf n 1 && t.lst b == 0 && !bitOf n 3)
    let t := if start then t.setLst b 1 else t
    let t := if bitOf n 6 && t.lst b == 9 then t.accept b (t.bk b).newId true else t
    if bitOf n 7 && t.lst b == 9 then t.idReject b else t

/-- LINK_TRAIN (R81). -/
def execLinkTrain (r : Req) (b : Fin 32) (d : Word) (s : State) : Res :=
  .next (s.start.access r (pgBnk b.val) 0x040 (fun s => s.linkCtrl b.val (d ||| 0x04)))

/-- LINK_DROP (R90). -/
def execLinkDrop (r : Req) (b : Fin 32) (d : Word) (s : State) : Res :=
  .next (s.start.access r (pgBnk b.val) 0x040 (fun s => s.linkCtrl b.val (d ||| 0x08)))

/-- ID_ACCEPT (R89). -/
def execIdAccept (r : Req) (b : Fin 32) (d : Word) (s : State) : Res :=
  .next (s.start.access r (pgBnk b.val) 0x040 (fun s => s.linkCtrl b.val (d ||| 0x40)))

/-- ID_REJECT (R89). DEDUCED, log entry 46. -/
def execIdReject (r : Req) (b : Fin 32) (d : Word) (s : State) : Res :=
  .next (s.start.access r (pgBnk b.val) 0x040 (fun s => s.linkCtrl b.val (d ||| 0x80)))

/-- LINK_SEEK_DETECT (R81): uplink transitions are detected in SEEK. -/
def execLinkSeekDetect (b : Fin 32) (s : State) : Res :=
  let s := s.start
  if s.lst b.val = 1 then .next (s.setLst b.val 2) else .next s

/-- LINK_LOCK (R81): the receiver locks; the device sends training frames. -/
def execLinkLock (b : Fin 32) (s : State) : Res :=
  let s := s.start
  if s.lst b.val = 2 then .next (s.setLst b.val 3) else .next s

/-- LINK_ALIGN_DONE (R64, R81): 64 consecutive correct echoes with round-trip time `rtt` in 2.5 ns units; SFSYNC starts at the
next boundary. -/
def execLinkAlignDone (b : Fin 32) (rtt : Fin 65536) (s : State) : Res :=
  let s := s.start
  if s.lst b.val = 3 ∧ 40 ≤ rtt.val ∧ rtt.val ≤ 320 then
    .next ((s.wr (pgBnk b.val) R.BNK_LINK_STAT_rtt rtt.val).modBk b.val (fun x => { x with sfsync := true }))
  else .next s

/-- Start an identity read: the first of four reads of 256 words (R77, R81). -/
def State.startRead (s : State) (b : Nat) : State :=
  s.modBk b (fun x => { x with reading := true, idreq := some 0, reads := [] })

/-- LINK_SFSYNC_DONE (R81): 16 consecutive good uplink superframes. -/
def execLinkSfsyncDone (b : Fin 32) (s : State) : Res :=
  let s := s.start
  if s.lst b.val = 4 then .next ((s.setLst b.val 5).startRead b.val) else .next s

/-- The link state in which step `n` of R81 runs. -/
def stepSt (n : Nat) : Nat := if n = 1 then 2 else if n ≤ 4 then 3 else if n ≤ 6 then 4 else 5

/-- LINK_TRAIN_TIMEOUT (R82): step `n` of R81 was not completed in its time. -/
def execLinkTrainTimeout (b : Fin 32) (n : Fin 9) (s : State) : Res :=
  let s := s.start
  if n.val ≠ 0 ∧ s.lst b.val = stepSt n.val then
    let t := (s.wr (pgBnk b.val) R.BNK_LINK_STAT_fail_phase n.val).setLst b.val 10
    .next ((t.modBk b.val (fun x => { x with sfsync := false, reading := false, idreq := none })).raise (pgBnk b.val) 0x2000)
  else .next s

/-- LINK_RETRY_TIMER (R82). -/
def execLinkRetryTimer (b : Fin 32) (s : State) : Res :=
  let s := s.start
  if s.lst b.val = 10 && s.rdB (pgBnk b.val) R.BNK_LINK_CTRL_auto then .next (s.setLst b.val 1) else .next s

end Sys2Proof.Machine
end

