-- ==== Sys2Proof/Machine/Measure.lean ====
section
/-! DEFINITION. Measurement: phase A, calibration sets, aux selects and the logging path (04_measurement_chain.md, R93 to
R117). -/
namespace Sys2Proof.Machine

/-! ### Calibration (R99 to R104) -/

/-- The calibrated value of `raw` (R100). -/
def calibrate (e : Cal) (raw dt : Int) : Int :=
  sat36 (rnd (raw * ((e.gain : Int) * 2 ^ 10 + e.tc * dt)) (2 ^ 40) + e.off)

/-- The uncalibrated value of y at superframe length `l` (R95). -/
def rawOf (y : Int) (l : Nat) : Int := rnd (y * 5 * 2 ^ 33) (3 * (l ^ 3 : Nat))

/-- The flag bits ovr and clip of a sample (R99). -/
def sampleFlags (y c : Int) (l : Nat) : Nat :=
  b2n (decide (9019431321 < c ∨ c < -9019431321)) + 2 * b2n (decide (y = (l ^ 3 : Nat) ∨ y = -(l ^ 3 : Nat)))

/-- The uncal bit of stream `t` of bank `b`. -/
def State.uncal (s : State) (b t : Nat) : Bool :=
  if t < 32 then bitOf (s.rd (pgBnk b) R.BNK_CAL_UNC0_unc) t else bitOf (s.rd (pgBnk b) R.BNK_CAL_UNC1_unc) (t - 32)

/-- The sample of stream `t` from the inputs of a superframe: its value, where the filter gave one, and flags.
DEDUCED, log entry 29. -/
def State.sample (s : State) (b : Nat) (x : Inp) (t : Nat) : Option Int × Nat :=
  let fl := x.flags ||| (b2n (s.uncal b t) * 16) ||| (if t = 34 then x.auxA else if t = 35 then x.auxB else 0)
  if !x.valid then (none, fl)
  else
    let y := x.y.getD t 0
    let dt := if s.rdB (pgBnk b) R.BNK_MEAS_CTRL_tc_en then
        ((bitsOf x.status 16 8 : Int) - 64) * 100 - toS 16 (idU16 (s.bk b).ident 0x054) else 0
    let c := calibrate ((s.bk b).cal.get {} t) (rawOf y (s.lenOf x.sf)) dt
    (some c, fl ||| sampleFlags y c (s.lenOf x.sf))

/-- Set a signed field where a value is given. -/
def State.wrOpt (s : State) (i : Nat) (f : Fld) (v : Option Int) : State :=
  match v with
  | none => s
  | some x => s.wrS i f x

/-- Phase A (R125): the samples of the inputs go to the registers. DEDUCED, log entry 29. -/
def State.phaseA (s : State) (b : Nat) (x : Inp) : State :=
  let p := pgBnk b
  let sm := (List.range 36).map (s.sample b x)
  let at_ := fun t => sm.getD t (none, 0)
  let t := s.wrOpt p R.BNK_VBUS_value (at_ 32).1
  let t := t.wrOpt p R.BNK_IBUS_value (at_ 33).1
  let t := t.wrOpt p R.BNK_AUXA_value (at_ 34).1
  let t := t.wrOpt p R.BNK_AUXB_value (at_ 35).1
  let t := t.wr p R.BNK_MEAS_STAT_vbus_flags (at_ 32).2
  let t := t.wr p R.BNK_MEAS_STAT_ibus_flags (at_ 33).2
  let t := t.wr p R.BNK_MEAS_STAT_auxa_flags (at_ 34).2
  let t := t.wr p R.BNK_MEAS_STAT_auxb_flags (at_ 35).2
  let n := (sm.filter (fun y => bitOf y.2 0)).length
  let t := if n = 0 then t else (t.bump p R.BNK_OVR_COUNT_count n).raise p 0x4000
  let t := t.modBk b (fun y => { y with lastSf := some x.sf, wstat := x.status })
  (chansOf b).foldl (fun t c =>
    let q := pgChn c
    let i := at_ (c % 16)
    let v := at_ (16 + c % 16)
    let t := (t.wrOpt q R.CHN_I_value i.1).wrOpt q R.CHN_V_value v.1
    let t := (t.wr q R.CHN_MEAS_FLAGS_i_flags i.2).wr q R.CHN_MEAS_FLAGS_v_flags v.2
    let t := t.modCh c (fun z => { z with
      iClip := if bitOf i.2 3 then z.iClip else bitOf i.2 1
      vClip := if bitOf v.2 3 then z.vClip else bitOf v.2 1, vGood := if bitOf v.2 3 then z.vGood else some (t.rdS q R.CHN_V_value) })
    let t := if bitOf i.2 0 then t.wr q R.CHN_MEAS_FLAGS_i_ovr_seen 1 else t
    if bitOf v.2 0 then t.wr q R.CHN_MEAS_FLAGS_v_ovr_seen 1 else t) t

/-- The dirty shadow entries go into the set in use (R103). DEDUCED, log entry 48. -/
def State.calCommit (s : State) (b : Nat) : State :=
  let p := pgBnk b
  let x := s.bk b
  let d := x.calDirty
  let t := s.modBk b (fun y => { y with
    cal := (bitsIn 36 d).foldl (fun m n => m.set n (y.calSh.get {} n)) y.cal, calDirty := 0, commit := none })
  let t := t.setBits p R.BNK_CAL_SW0_sw (d % 2 ^ 32)
  let t := t.setBits p R.BNK_CAL_SW1_sw (d / 2 ^ 32)
  let t := t.clrBits p R.BNK_CAL_UNC0_unc (d % 2 ^ 32)
  let t := t.clrBits p R.BNK_CAL_UNC1_unc (d / 2 ^ 32)
  (t.wr p R.BNK_CAL_STAT_pending 0).raise p 0x10000

/-- A commit due in the work of superframe `k` takes effect. DEDUCED, log entry 48. -/
def State.calDue (s : State) (b k : Nat) : State :=
  match (s.bk b).commit with
  | none => s
  | some d => if d.now k then s.calCommit b else s

/-- CAL_COMMIT_TAKES_EFFECT (R103): in the superframe whose work starts next. -/
def execCalCommitTakesEffect (b : Fin 32) (s : State) : Res := .next (s.start.calDue b.val s.w)

/-- A write to one of the calibration entry registers: the shadow entry of the selected stream changes and is dirty.
DEDUCED, log entry 48. -/
def State.calShadow (s : State) (b off : Nat) (d : Word) : State :=
  let n := s.rd (pgBnk b) R.BNK_CAL_SEL_stream
  if 36 ≤ n then s
  else s.modBk b (fun x =>
    let e := x.calSh.get {} n
    let e' : Cal := if off = 0x090 then { e with gain := d.toNat } else if off = 0x094 then { e with off := d.toInt }
      else { e with tc := d.toInt }
    { x with calSh := x.calSh.set n e', calDirty := x.calDirty ||| 2 ^ n })

/-- CAL_SHADOW_WRITE (R103): `sel` names the register: 0 BNK_CAL_GAIN, 1 BNK_CAL_OFFSET, 2 BNK_CAL_TC. -/
def execCalShadowWrite (r : Req) (b : Fin 32) (sel : Fin 3) (d : Word) (s : State) : Res :=
  .next (s.start.access r (pgBnk b.val) (0x090 + 4 * sel.val) (fun s => s.calShadow b.val (0x090 + 4 * sel.val) d))

/-- A BNK_CAL_CMD write of an accepted requester (R103, R104). -/
def State.calCmd (s : State) (b : Nat) (d : Word) : State :=
  let p := pgBnk b
  let n := d.toNat
  if b2n (bitOf n 31) + b2n (bitOf n 30) + b2n (bitOf n 29) ≠ 1 then s
  else if bitOf n 31 then
    (s.modBk b (fun x => { x with commit := some { at_ := bitOf n 28, sfc := n % 16384, frm := s.w } })).wr
      p R.BNK_CAL_STAT_pending 1
  else if bitOf n 29 then
    (s.modBk b (fun x => { x with calDirty := 0, calSh := x.cal, commit := none })).wr p R.BNK_CAL_STAT_pending 0
  else if (s.bk b).reload then s
  else if !s.linkUp b then (s.wr p R.BNK_CAL_STAT_reload_result 2).raise p 0x20000
  else ((s.modBk b (fun x => { x with reload := true })).startRead b).wr p R.BNK_CAL_STAT_reload_busy 1

/-- CAL_COMMIT (R103). -/
def execCalCommit (r : Req) (b : Fin 32) (d : Word) (s : State) : Res :=
  .next (s.start.access r (pgBnk b.val) 0x08C (fun s => s.calCmd b.val (d ||| 0x80000000)))

/-- CAL_DISCARD (R103). -/
def execCalDiscard (r : Req) (b : Fin 32) (d : Word) (s : State) : Res :=
  .next (s.start.access r (pgBnk b.val) 0x08C (fun s => s.calCmd b.val (d ||| 0x20000000)))

/-- CAL_RELOAD (R104). -/
def execCalReload (r : Req) (b : Fin 32) (d : Word) (s : State) : Res :=
  .next (s.start.access r (pgBnk b.val) 0x08C (fun s => s.calCmd b.val (d ||| 0x40000000)))

/-- CAL_RELOAD_DONE (R104): the record is read; a matching one loads at the next boundary. DEDUCED, log entry 45. -/
def execCalReloadDone (b : Fin 32) (rec : List Word) (s : State) : Res :=
  let s := s.start
  let b := b.val
  let p := pgBnk b
  let x := s.bk b
  if !x.reload ∨ x.reloadIn ≠ [] then .next s
  else
    let r := if x.reads.length = 1024 then x.reads else rec.map (·.toNat)
    let t := s.modBk b (fun x => { x with reads := [], reading := false, idreq := none, idsent := none })
    let t := t.wr p R.BNK_ID_NEW_CRC_crc (idCrc r)
    let fail := fun (v : Nat) =>
      (((t.modBk b (fun x => { x with reload := false })).wr p R.BNK_CAL_STAT_reload_busy 0).wr
        p R.BNK_CAL_STAT_reload_result v).raise p 0x20000
    if !idAccepted r s.len then .next (fail 2)
    else if idTuple x.ident ≠ idTuple r then .next (fail 3)
    else .next (t.modBk b (fun x => { x with reloadIn := r }))

/-- At a boundary a reload that has its record loads the set (R104). -/
def State.reloadLoad (s : State) (b : Nat) : State :=
  let p := pgBnk b
  let r := (s.bk b).reloadIn
  if r = [] then s
  else
    let t := s.calLoad b r
    let t := t.modBk b (fun x => { x with reload := false, reloadIn := [] })
    ((t.wr p R.BNK_CAL_STAT_reload_busy 0).wr p R.BNK_CAL_STAT_reload_result 1).raise p 0x10000

/-- AUX_SEL_WRITE (R75): the selects are sent from the next boundary on. -/
def execAuxSelWrite (r : Req) (b : Fin 32) (d : Word) (s : State) : Res :=
  .next (s.start.access r (pgBnk b.val) 0x0D0 (fun s => s.regWrite (pgBnk b.val) R.tableBNK 0x0D0 d))

/-- At boundary B(n) the selects written are taken into slot 16; a change marks the aux samples up to n + settle + 2 (R75,
R108). -/
def State.auxTake (s : State) (b n : Nat) : State :=
  let p := pgBnk b
  let x := s.bk b
  let a := s.rd p R.BNK_AUX_SEL_aux_a
  let c := s.rd p R.BNK_AUX_SEL_aux_b
  let t := if a = x.auxA then s
    else s.modBk b (fun x => { x with auxA := a, settleA := some (n + idSettle x.ident a + 2) })
  if c = x.auxB then t
  else t.modBk b (fun x => { x with auxB := c, settleB := some (n + idSettle x.ident c + 2) })

/-! ### Logging (R12, R111 to R117) -/

/-- The map entry in force of a channel (key below 512) or bank (512 + b): whether it logs and its profile. -/
def State.logMap (s : State) (key : Nat) : Bool × Nat :=
  if key < 512 then
    (s.rdF pgLgr (R.LGR_CHMAP_en (key / 8) (key % 8)) == 1, s.rdF pgLgr (R.LGR_CHMAP_profile (key / 8) (key % 8)))
  else
    (s.rdF pgLgr (R.LGR_BKMAP_en ((key - 512) / 8) (key % 8)) == 1,
      s.rdF pgLgr (R.LGR_BKMAP_profile ((key - 512) / 8) (key % 8)))

/-- Whether a channel or bank logs, and on which profile. DEDUCED, log entry 120. -/
def State.logProf (s : State) (key : Nat) : Option Nat :=
  let m := s.logMap key
  if m.1 && s.rdF pgLgr (R.LGR_PROF_en m.2) == 1 && s.rdB pgLgr (R.CTRL_enable pgLgr) then some m.2 else none

/-- A record of bank `b` goes to queue `q`, or is dropped where the buffer holds records of two other superframes (R12).
DEDUCED, log entry 49. -/
def State.logEmit (s : State) (b q k : Nat) (bytes : List Byte) : State :=
  let held := (((s.port 0).filter (fun i => i.bank == b && i.sf != k)).map (·.sf)).eraseDups
  if 2 ≤ held.length then
    let t := (s.bump (pgBnk b) R.BNK_LOG_DROP_drops 1).raise (pgBnk b) 0x8000
    { t with logSeq := t.logSeq.set (10000 + b) (t.logSeq.get 0 (10000 + b) + 1) }
  else s.offer 0 { queue := q, bytes := bytes, bank := b, sf := k }

/-- The next seq of a record type; the counter is kept per channel or bank and profile. -/
def State.logNext (s : State) (key : Nat) : State × Nat :=
  ({ s with logSeq := s.logSeq.set key ((s.logSeq.get 0 key + 1) % 2 ^ 32) }, s.logSeq.get 0 key)

/-- One stream's sample enters a window. -/
def LogAcc.add (a : LogAcc) (n : Nat) (x : Int) (fl : Nat) : LogAcc :=
  if bitOf fl 3 then a
  else
    let c := a.n.getD n 0
    { a with
      n := a.n.set n (c + 1), sum := a.sum.set n (a.sum.getD n 0 + x)
      mn := a.mn.set n (if c = 0 then x else min (a.mn.getD n 0) x)
      mx := a.mx.set n (if c = 0 then x else max (a.mx.getD n 0) x)
      fl := a.fl.set n (a.fl.getD n 0 ||| fl) }

/-- The average of a stream over the window (R112). -/
def LogAcc.avg (a : LogAcc) (n : Nat) : Int :=
  if a.n.getD n 0 = 0 then 0 else rnd (a.sum.getD n 0) (a.n.getD n 0 : Nat)

/-- The samples of superframe `k` enter the window of a channel or bank, where one is open. -/
def State.logAdd (s : State) (b key k : Nat) (gap : Bool) : State :=
  let a := s.logAcc.get {} key
  if !a.open_ then s
  else
    let p := if key < 512 then pgChn key else pgBnk b
    let fl := if key < 512 then [s.rd p R.CHN_MEAS_FLAGS_i_flags, s.rd p R.CHN_MEAS_FLAGS_v_flags, 8, 8]
      else [s.rd p R.BNK_MEAS_STAT_vbus_flags, s.rd p R.BNK_MEAS_STAT_ibus_flags, s.rd p R.BNK_MEAS_STAT_auxa_flags,
            s.rd p R.BNK_MEAS_STAT_auxb_flags]
    let v := if key < 512 then [s.rdS p R.CHN_I_value, s.rdS p R.CHN_V_value, 0, 0]
      else [s.rdS p R.BNK_VBUS_value, s.rdS p R.BNK_IBUS_value, s.rdS p R.BNK_AUXA_value, s.rdS p R.BNK_AUXB_value]
    let st := s.stampSf b k
    let a := (List.range 4).foldl (fun a n => a.add n (v.getD n 0) (fl.getD n 0)) a
    let temp := bitsOf (s.bk b).wstat 16 8
    let fresh := a.last == 0
    { s with logAcc := s.logAcc.set key { a with
        first := if fresh then st else a.first, last := st, gap := a.gap || gap
        nCrc := a.nCrc + b2n (bitOf (fl.getD 0 0) 2), nInv := a.nInv + b2n (bitOf (fl.getD 0 0) 3)
        tMin := if fresh then temp else min a.tMin temp, tMax := if fresh then temp else max a.tMax temp } }

/-- The channel record (R115). -/
def State.chanRecord (s : State) (c prof seq : Nat) (a : LogAcc) : List Byte :=
  let p := pgChn c
  toBytes 2 0x0101 ++ toBytes 2 160 ++ toBytes 2 c ++ toBytes 1 prof ++ toBytes 1 (s.rd p R.CHN_STAT_ctl_mode)
    ++ toBytes 4 seq ++ toBytes 4 (a.n.getD 0 0) ++ toBytes 8 a.first ++ toBytes 8 a.last
    ++ slotS (a.avg 0) ++ slotS (a.avg 1) ++ slotS (a.mn.getD 0 0) ++ slotS (a.mx.getD 0 0) ++ slotS (a.mn.getD 1 0)
    ++ slotS (a.mx.getD 1 0) ++ slotW (s.rd p R.CHN_Q_IN_value) ++ slotW (s.rd p R.CHN_Q_OUT_value)
    ++ slotW (s.rd p R.CHN_E_IN_value) ++ slotW (s.rd p R.CHN_E_OUT_value) ++ toBytes 2 (s.rd p R.CHN_LP_PTR_step) ++ toBytes 2 0
    ++ toBytes 4 (a.fl.getD 0 0 + 2 ^ 8 * a.fl.getD 1 0 + 2 ^ 16 * b2n a.partl + 2 ^ 17 * b2n (a.n.getD 0 0 == 0) + 2 ^ 18 * b2n a.gap)
    ++ toBytes 4 a.nCrc ++ toBytes 4 a.nInv

/-- The bank record (R116). -/
def State.bankRecord (s : State) (b prof seq : Nat) (a : LogAcc) : List Byte :=
  let x := s.bk b
  let fl := fun n => a.fl.getD n 0
  toBytes 2 0x0102 ++ toBytes 2 96 ++ toBytes 1 b ++ toBytes 1 prof ++ toBytes 1 x.auxA ++ toBytes 1 x.auxB
    ++ toBytes 4 seq ++ toBytes 4 (a.n.getD 0 0) ++ toBytes 8 a.first ++ toBytes 8 a.last
    ++ slotS (a.avg 0) ++ slotS (a.avg 1) ++ slotS (a.avg 2) ++ slotS (a.avg 3) ++ toBytes 4 (a.n.getD 2 0)
    ++ toBytes 4 (a.n.getD 3 0) ++ toBytes 4 x.wstat ++ toBytes 1 a.tMin ++ toBytes 1 a.tMax
    ++ toBytes 2 0 ++ toBytes 4 (fl 0 + 2 ^ 8 * fl 1 + 2 ^ 16 * fl 2 + 2 ^ 24 * fl 3)
    ++ toBytes 4 (s.logSeq.get 0 (10000 + b))
    ++ toBytes 4 (b2n a.partl + 2 * b2n (a.n.getD 0 0 == 0) + 4 * b2n a.gap) ++ toBytes 4 0

/-- Close the window of a channel or bank and issue its record to the profile's queue (R111, R114). DEDUCED, log entry 49. -/
def State.logClose (s : State) (b key prof k : Nat) (partl : Bool) : State :=
  let a := s.logAcc.get {} key
  if !a.open_ then s
  else
    let a := { a with partl := a.partl || partl }
    let y := s.logNext (key * 8 + prof)
    let q := s.rdF pgLgr (R.LGR_PROF_queue prof)
    let t := { y.1 with logAcc := y.1.logAcc.set key {} }
    if key < 512 then
      let t := (t.wrS (pgChn key) R.CHN_I_AVG_value (a.avg 0)).wrS (pgChn key) R.CHN_V_AVG_value (a.avg 1)
      t.logEmit b q k (s.chanRecord key prof y.2 a)
    else
      let t := { t with logSeq := t.logSeq.set (10000 + b) 0 }
      t.logEmit b q k (s.bankRecord b prof y.2 a)

/-- Open a window. DEDUCED, log entry 49. -/
def State.logOpen (s : State) (key : Nat) (partl : Bool) : State :=
  { s with logAcc := s.logAcc.set key { open_ := true, partl := partl } }

/-- The keys of a bank's channels and of the bank itself. -/
def logKeys (b : Nat) : List Nat := chansOf b ++ [512 + b]

/-- LOG_WINDOW_END (R111): a window boundary of profile `n`. -/
def execLogWindowEnd (n : Fin 8) (s : State) : Res :=
  let s := s.start
  .next (s.liveBanks.foldl (fun t b =>
    (logKeys b).foldl (fun t key =>
      if t.logProf key = some n.val then
        let u := t.logClose b key n.val (t.w - 1) false
        if (u.bk b).loaded then u.logOpen key false else u
      else t) t) s)

/-- The logging configuration written takes effect at a boundary: every open window that it affects closes there as partial
(R113). -/
def State.logTake (s : State) (k : Nat) : State :=
  if !s.logCfg then s
  else
    let old := s
    let t := s.copyInst pgLgr (iForce pgLgr) 0x040 0x210
    let new := t
    let t := old.liveBanks.foldl (fun t b =>
      (logKeys b).foldl (fun t key =>
        let a := (old.logMap key).2
        let same := old.logMap key == new.logMap key
          && old.rdF pgLgr (R.LGR_PROF_en a) == new.rdF pgLgr (R.LGR_PROF_en a)
          && old.rdF pgLgr (R.LGR_PROF_window_ms a) == new.rdF pgLgr (R.LGR_PROF_window_ms a)
          && old.rdF pgLgr (R.LGR_PROF_queue a) == new.rdF pgLgr (R.LGR_PROF_queue a)
        if same || !(t.logAcc.get {} key).open_ then t
        else
          let u := t.logClose b key a k true
          let u := if key < 512 ∧ new.logProf key = none then
              (u.wr (pgChn key) R.CHN_I_AVG_value 0).wr (pgChn key) R.CHN_V_AVG_value 0 else u
          if (new.logProf key).isSome then u.logOpen key true else u) t) s
    { t.copyInst pgLgr (iForce pgLgr) 0x040 0x210 with logCfg := false }

/-- A write to a logging register of an accepted requester. DEDUCED, log entry 49. -/
def State.logWrite (s : State) (off : Nat) (d : Word) : State :=
  let t := s.regWrite pgLgr R.tableLGR off d
  let t := if 0x040 ≤ off ∧ off < 0x060 then
      let f := R.LGR_PROF_window_ms ((off - 0x040) / 4)
      t.wr pgLgr f (clampN 1 10000 (f.of d))
    else t
  { t with logCfg := true }

/-- LOG_CONFIG_WRITE (R113): a write to LGR_PROFn, LGR_CHMAPn or LGR_BKMAPn, the register at word `w` of the page. -/
def execLogConfigWrite (r : Req) (w : Fin 132) (d : Word) (s : State) : Res :=
  .next (s.start.access r pgLgr (4 * w.val) (fun s =>
    let off := 4 * w.val
    if (0x040 ≤ off ∧ off < 0x060) ∨ (0x100 ≤ off ∧ off < 0x210) then s.logWrite off d else s))

/-- The trace record of bank `b` for superframe `k` (R117). DEDUCED, log entry 50. -/
def State.traceBytes (s : State) (b k seq : Nat) : List Byte :=
  let p := pgBnk b
  let x := s.bk b
  let cs := chansOf b
  let iF := cs.map (fun c => s.rd (pgChn c) R.CHN_MEAS_FLAGS_i_flags)
  let vF := cs.map (fun c => s.rd (pgChn c) R.CHN_MEAS_FLAGS_v_flags)
  let bF := [s.rd p R.BNK_MEAS_STAT_vbus_flags, s.rd p R.BNK_MEAS_STAT_ibus_flags, s.rd p R.BNK_MEAS_STAT_auxa_flags,
    s.rd p R.BNK_MEAS_STAT_auxb_flags]
  let all := iF ++ vF ++ bF
  let ovr := maskOf ((List.range 36).filter (fun n => bitOf (all.getD n 0) 0))
  let any := fun n => b2n (bitOf (bF.getD 0 0) n)
  toBytes 2 0x0103 ++ toBytes 2 320 ++ toBytes 1 b ++ toBytes 1 x.auxA ++ toBytes 1 x.auxB ++ toBytes 1 0 ++ toBytes 4 seq
    ++ toBytes 4 k ++ toBytes 8 (s.stampSf b k) ++ toBytes 4 ovr
    ++ toBytes 4 (ovr / 2 ^ 32 + 16 * any 2 + 32 * any 3 + 64 * any 6 + 128 * any 7 + 256 * b2n (bitOf (bF.getD 2 0) 5)
        + 512 * b2n (bitOf (bF.getD 3 0) 5) + 1024 * b2n (all.any (fun f => bitOf f 4)))
    ++ (cs.map (fun c => slotS (s.rdS (pgChn c) R.CHN_I_value))).flatten
    ++ (cs.map (fun c => slotS (s.rdS (pgChn c) R.CHN_V_value))).flatten
    ++ slotS (s.rdS p R.BNK_VBUS_value) ++ slotS (s.rdS p R.BNK_IBUS_value) ++ slotS (s.rdS p R.BNK_AUXA_value)
    ++ slotS (s.rdS p R.BNK_AUXB_value)

/-- TRACE_RECORD: the trace records of bank `b` in superframe `k` (R117). DEDUCED, log entry 50. -/
def State.traces (s : State) (b k : Nat) : State :=
  (List.range 4).foldl (fun t n =>
    if t.rdB pgLgr (R.CTRL_enable pgLgr) && t.rdB pgLgr (R.LGR_TRACE_en n) && t.rd pgLgr (R.LGR_TRACE_bank n) == b
        && k % (t.rd pgLgr (R.LGR_TRACE_div n) + 1) == 0 then
      let y := t.logNext (9000 + n)
      y.1.logEmit b (t.rd pgLgr (R.LGR_TRACE_queue n)) k (t.traceBytes b k y.2)
    else t) s

/-- The logging path takes the samples of superframe `k` of bank `b`. -/
def State.logBank (s : State) (b k : Nat) (gap : Bool) : State :=
  ((logKeys b).foldl (fun t key => t.logAdd b key k gap) s).traces b k

end Sys2Proof.Machine
end

