-- ==== Sys2Proof/Machine/Ledger.lean ====
section
/-! DEFINITION. The bus ledger: power model, starts, clipping, results and its commands (08_bus_ledger.md, R192 to R203). -/
namespace Sys2Proof.Machine

/-- The sign of a number. -/
def sgn (x : Int) : Int := if 0 < x then 1 else if x < 0 then -1 else 0

/-- The bus power in mW of demand `d` at voltage `v` with power factor `g` and the two efficiencies (R195). -/
def busPower (g ec ed : Nat) (v d : Int) : Int :=
  let p := sgn d * rnd (d.natAbs * max v 0 * g) (2 ^ 64)
  if 0 < p then rnd (p * 65536) (max ec 0x8000 : Nat) else -rnd (-p * (max ed 0x8000 : Nat)) 65536

/-- A channel in the ledger's work. -/
structure LdgCh where
  c       : Nat
  r       : Nat
  g       : Int
  v       : Int
  cls     : Nat
  pw      : Int
  pwReq   : Int
  start   : Bool
  forced  : Bool
  delay   : Nat
  short   : Bool := false
  delayed : Bool := false
  clipped : Bool := false
  deriving DecidableEq, Repr

/-- Whether the word's stage mode is run. -/
def LdgCh.run (x : LdgCh) : Bool := wordMode x.r == 1

/-- A negative limit acts as 0. -/
def State.ldgLim (s : State) (f : Fld) : Int := max (s.rdS pgStp f) 0

/-- The bus power of demand `d` on channel `c` at voltage `v`. -/
def State.chanPower (s : State) (c : Nat) (v d : Int) : Int :=
  let b := bankOf c
  busPower (s.bk b).gb (s.rd pgStp (R.STP_LDG_EFF_eff_chg b)) (s.rd pgStp (R.STP_LDG_EFF_eff_dis b)) v d

/-- The voltage sample as the ledger uses it: an invalid one is replaced by the last valid one since link-up (R195). -/
def State.ldgV (s : State) (c : Nat) : Int :=
  if bitOf (s.rd (pgChn c) R.CHN_MEAS_FLAGS_v_flags) 3 then (s.ch c).lastV.getD (2 ^ 33) else s.rdS (pgChn c) R.CHN_V_value

/-- The first loop of R198 for channel `c`. -/
def State.ldgIn (s : State) (c : Nat) : LdgCh :=
  let p := pgChn c
  let r := (s.ch c).req
  let run := wordMode r == 1
  let d := if run then wordD r else 0
  let v := s.ldgV c
  let prev := (s.ch c).prevD
  let st := run && d != 0 && (prev == 0 || sgn d != sgn prev)
  let cls := s.rd p R.CHN_LDG_CFG_class
  -- R200: 0 where the channel is not armed; R198: kept by an armed channel whose word is not run
  let dl := if !s.armed c || (run && !st) then 0 else s.rd p R.CHN_LDG_STAT_delay
  let pw := if run then s.chanPower c v d else 0
  { c := c, r := r, g := d, v := v, cls := cls, pw := pw, pwReq := pw, start := st
    forced := st && (cls == 0 || decide (s.rd pgStp R.STP_LDG_CFG_max_delay ≤ dl))
    delay := dl }

/-- The distance of a net power from the budget. -/
def ldgDist (imp exp x : Int) : Int := max (max (x - imp) (-exp - x)) 0

/-- The place of a start in the order of R198: pass, pairing, class, channel. -/
def ldgBefore (dir : Int) (a b : LdgCh) : Bool :=
  let key := fun (x : LdgCh) =>
    if x.forced then [0, x.c] else [1, if sgn x.pw == dir then 0 else 1, x.cls, x.c]
  decide (key a ≤ key b)

/-- Put a start into its place in the order of R198. -/
def ldgInsert (dir : Int) (x : LdgCh) : List LdgCh → List LdgCh
  | [] => [x]
  | y :: ys => if ldgBefore dir x y then x :: y :: ys else y :: ldgInsert dir x ys

/-- Admit or delay the starts in order: the net and the starts as granted. -/
def ldgStarts (startEn : Bool) (imp exp : Int) : Int → List LdgCh → Int × List LdgCh
  | net, [] => (net, [])
  | net, x :: xs =>
    if x.forced || !startEn || decide (ldgDist imp exp (net + x.pw) ≤ ldgDist imp exp net) then
      let y := ldgStarts startEn imp exp (net + x.pw) xs
      (y.1, { x with delay := 0 } :: y.2)
    else
      let y := ldgStarts startEn imp exp net xs
      (y.1, { x with g := 0, pw := 0, short := true, delayed := true, delay := min (x.delay + 1) 0xFFFF } :: y.2)

/-- clip(dir, e) of R198 from class `cl` - 1 down: the channels and the excess that remains. -/
def ldgClip (pwr : Nat → Int → Int → Int) (dir : Int) : Nat → Int → List LdgCh → List LdgCh × Int
  | 0, e, l => (l, e)
  | cl + 1, e, l =>
    let inSet := fun (x : LdgCh) => x.run && sgn x.pw == dir && x.cls == cl
    let sum := ((l.filter inSet).map (fun x => (x.pw.natAbs : Int))).foldl (· + ·) 0
    if sum = 0 then ldgClip pwr dir cl e l
    else if sum ≤ e then
      ldgClip pwr dir cl (e - sum)
        (l.map (fun x => if inSet x then { x with g := 0, pw := 0, short := true, clipped := true } else x))
    else
      let sc := 65536 * (sum - e) / sum
      (l.map (fun x =>
        if inSet x then
          let d2 := Int.tdiv (x.g * sc) 65536
          let less := decide (d2.natAbs < x.g.natAbs)
          { x with g := d2, pw := pwr x.c x.v d2, short := x.short || less, clipped := x.clipped || less }
        else x), 0)

/-- The sum of the power of a list of channels. -/
def ldgSum (l : List LdgCh) : Int := (l.map (·.pw)).foldl (· + ·) 0

/-- The overheads of the banks whose link is UP. -/
def State.ldgOvh (s : State) : Int :=
  ((s.liveBanks.filter s.linkUp).map (fun b => (s.rd pgStp (R.STP_LDG_OVH_ovh_mw b) : Int))).foldl (· + ·) 0

/-- R198: the channels as granted and the residual excess. -/
def State.ldgGrants (s : State) : List LdgCh × Int :=
  let l := ((s.liveBanks.map chansOf).flatten).map s.ldgIn
  if !s.rdB pgStp R.STP_LDG_CFG_en then (l.map (fun x => { x with delay := 0 }), 0)
  else
    let runs := l.filter (fun x => !x.start)
    let net := s.ldgOvh + ldgSum runs
    let dir : Int := if 0 ≤ net then -1 else 1
    let starts := (l.filter (·.start)).foldr (ldgInsert dir) []
    let y := ldgStarts (s.rdB pgStp R.STP_LDG_CFG_start_en) (s.ldgLim R.STP_LDG_BUD_IMP_value)
      (s.ldgLim R.STP_LDG_BUD_EXP_value) net starts
    let l := runs ++ y.2
    let imp := s.ldgLim R.STP_LDG_IMP_MAX_value
    let exp := s.ldgLim R.STP_LDG_EXP_MAX_value
    if imp < y.1 then ldgClip s.chanPower 1 4 (y.1 - imp) l
    else if y.1 < -exp then ldgClip s.chanPower (-1) 4 (-exp - y.1) l
    else (l, 0)

/-- The measured bus power of the superframe in work (R196). -/
def State.ldgMeas (s : State) : Int :=
  ((s.liveBanks.filter (fun b => s.linkUp b
      && !bitOf (s.rd (pgBnk b) R.BNK_MEAS_STAT_vbus_flags) 3 && !bitOf (s.rd (pgBnk b) R.BNK_MEAS_STAT_ibus_flags) 3)).map
    (fun b => rnd (s.rdS (pgBnk b) R.BNK_VBUS_value * s.rdS (pgBnk b) R.BNK_IBUS_value * (s.bk b).hb) (2 ^ 78))).foldl (· + ·) 0

/-- Write the grant of a channel and its ledger state (R126, R197, R200). DEDUCED, log entry 62. -/
def State.ldgOut (s : State) (x : LdgCh) : State :=
  let p := pgChn x.c
  let t := s.wrB p R.CHN_LDG_STAT_delayed x.delayed
  let t := t.wrB p R.CHN_LDG_STAT_clipped x.clipped
  let t := t.wrB p R.CHN_LDG_STAT_start x.start
  let t := if x.start then t.wrB p R.CHN_LDG_STAT_forced x.forced else t
  let t := t.wr p R.CHN_LDG_STAT_delay x.delay
  let t := t.wr p R.CHN_LDG_GRANT_value (if x.run then ofS 20 x.g * 65536 + x.r % 65536 else x.r)
  let t := t.wrS p R.CHN_LDG_PWR_value x.pw
  let t := t.wrB p R.CHN_STAT_granted_less x.short
  let valid := !bitOf (s.rd p R.CHN_MEAS_FLAGS_v_flags) 3
  t.modCh x.c (fun z => { z with
    prevD := if x.run then x.g else 0, lastV := if valid then some (s.rdS p R.CHN_V_value) else z.lastV })

/-- A ledger apply that is due in superframe `k` puts the STP shadows into force (R202). DEDUCED, log entry 62. -/
def State.ldgDue (s : State) (k : Nat) : State :=
  match s.ldgCmd with
  | none => s
  | some d =>
    if d.now k then
      let t := { s.applyShadows pgStp with ldgCmd := none }
      ((t.wr pgStp R.STP_LDG_STAT_pending 0).wr pgStp R.STP_LDG_STAT_cmd_result 0).raise pgStp 0x40
    else s

/-- The ledger work of superframe `k` (R193 to R201). DEDUCED, log entry 62. -/
def State.ledger (s : State) (k : Nat) : State :=
  let s := s.ldgDue k
  let y := s.ldgGrants
  let l := y.1
  let n := fun (f : LdgCh → Bool) => (l.filter f).length
  let ovh := s.ldgOvh
  let pos := ((l.map (·.pw)).filter (fun x => decide (0 < x))).foldl (· + ·) 0
  let neg := ((l.map (·.pw)).filter (fun x => decide (x < 0))).foldl (· + ·) 0
  let en := s.rdB pgStp R.STP_LDG_CFG_en
  let nClip := n (·.clipped)
  let t := s.wrS pgStp R.STP_LDG_PRED_REQ_value (ovh + (l.map (·.pwReq)).foldl (· + ·) 0)
  let t := t.wrS pgStp R.STP_LDG_PRED_value (ovh + ldgSum l)
  let t := t.wrS pgStp R.STP_LDG_MEAS_value s.ldgMeas
  let t := t.wrS pgStp R.STP_LDG_CHG_value pos
  let t := t.wrS pgStp R.STP_LDG_DIS_value neg
  let t := t.wr pgStp R.STP_LDG_SFC_sfc k
  let t := t.wr pgStp R.STP_LDG_NSHORT_delayed (n (·.delayed))
  let t := t.wr pgStp R.STP_LDG_NSHORT_clipped nClip
  let t := t.bump pgStp R.STP_LDG_N_CLIP_count nClip
  let t := t.bump pgStp R.STP_LDG_N_DELAY_count (n (·.delayed))
  let t := if en then t.bump pgStp R.STP_LDG_N_FORCED_count (n (fun x => x.forced && x.cls != 0)) else t
  let t := t.wrB pgStp R.STP_LDG_STAT_clipping (nClip != 0)
  let t := if nClip = 0 then t else t.raise pgStp 8
  let t := l.foldl (fun t x => t.ldgOut x) t
  if 0 < y.2 then
    ((t.wr pgStp R.STP_LDG_STAT_residual 1).raise pgStp 0x10).report 0x21 pgStp 0xFFFF [ofS 32 y.2]
  else t

/-- An STP_LDG_CMD write of an accepted requester (R202, R203). DEDUCED, log entry 62. -/
def State.ldgCmdWrite (s : State) (d : Word) : State :=
  let n := d.toNat
  let set := fun (t : State) r => t.wr pgStp R.STP_LDG_STAT_cmd_result r
  if bitOf n 31 && bitOf n 30 then set s 7
  else if bitOf n 31 then
    let t := { s with ldgCmd := some { at_ := bitOf n 24, sfc := n % 16384, frm := s.led } }
    set (t.wr pgStp R.STP_LDG_STAT_pending 1) 1
  else if bitOf n 30 then set (s.dropShadows pgStp) 0
  else s

/-- LDG_APPLY (R202). -/
def execLdgApply (r : Req) (d : Word) (s : State) : Res :=
  .next (s.start.access r pgStp 0x044 (fun s => s.ldgCmdWrite (d ||| 0x80000000)))

/-- LDG_DISCARD (R202). -/
def execLdgDiscard (r : Req) (d : Word) (s : State) : Res :=
  .next (s.start.access r pgStp 0x044 (fun s => s.ldgCmdWrite (d ||| 0x40000000)))

/-- LDG_APPLY_TAKES_EFFECT (R202): at the start of the ledger work that comes next. -/
def execLdgApplyTakesEffect (s : State) : Res := .next (s.start.ldgDue s.led)

end Sys2Proof.Machine
end

