-- ==== Sys2Proof/Machine/Pair.lean ====
section
/-! DEFINITION. The pair unit: digests, the pair link, roles, takeover, yield and sync (10_pair_operation.md, R223 to R240). -/
namespace Sys2Proof.Machine

/-! ### Digest (R229) -/

/-- The flag byte of a sample without late and holdover. -/
def digFlags (f : Nat) : Byte := BitVec.ofNat 8 (f % 64)

/-- Bits [31:25] of the CHN_LP_CMD word of a pending Looper command. -/
def lpCmdBits (x : LpCmd) : Nat := 2 ^ (31 - x.kind) + x.act % 4 * 2 ^ 25

/-- The 256-byte channel block. -/
def State.digChan (s : State) (c : Nat) : List Byte :=
  let p := pgChn c
  let x := s.ch c
  let g := fun f => s.rd p f
  toBytes 8 x.req ++ toBytes 8 (g R.CHN_LDG_GRANT_value)
    ++ slotS (s.rdS p R.CHN_U_value) ++ slotS (s.rdS p R.CHN_XI_value) ++ slotS (s.rdS p R.CHN_XV_value)
    ++ toBytes 1 (s.cst c) ++ toBytes 1 (s.modeOf c)
    ++ toBytes 1 (g R.CHN_STAT_cv_active + 2 * g R.CHN_STAT_phase_b + 4 * g R.CHN_STAT_granted_less
        + 8 * g R.CHN_TRIP_STAT_chan_latch)
    ++ toBytes 1 x.hold ++ toBytes 4 x.cnt
    ++ toBytes 2 (g R.CHN_LP_PTR_step) ++ toBytes 1 (g R.CHN_LP_STAT_lp_state)
    ++ toBytes 1 (g R.CHN_LP_STAT_err + 16 * g R.CHN_LP_STAT_end_code)
    ++ ((List.range 4).map (fun n => toBytes 1 (x.pers.getD n 0))).flatten
    ++ toBytes 8 (g R.CHN_LP_TIME_value) ++ toBytes 4 (g R.CHN_LP_CVT_cv_time)
    ++ toBytes 2 (g R.CHN_LDG_STAT_delay) ++ toBytes 2 0
    ++ toBytes 2 (g R.CHN_LP_CNT01_cnt0) ++ toBytes 2 (g R.CHN_LP_CNT01_cnt1)
    ++ toBytes 2 (g R.CHN_LP_CNT23_cnt2) ++ toBytes 2 (g R.CHN_LP_CNT23_cnt3)
    ++ slotS (if x.vEntry then s.rdS p R.CHN_LP_VENT_value else 0)
    ++ toBytes 1 (g R.CHN_LP_GATE_group + 128 * g R.CHN_LP_GATE_arrived) ++ toBytes 1 0
    ++ toBytes 2 (g R.CHN_LP_GATE_gen) ++ toBytes 4 (x.openAt.getD 0)
    ++ toBytes 4 (match x.redirect with | none => 0 | some t => 2 ^ 31 + t * 2 ^ 16)
    ++ toBytes 4 (match x.lpCmd with | none => 0 | some q => lpCmdBits q + 2 ^ 24 + q.due.sfc)
    ++ toBytes 4 (g R.CHN_INTG_STAT_sat + 256 * g R.CHN_INTG_STAT_gap + 512 * g R.CHN_INTG_STAT_scale_chg)
    ++ toBytes 4 (if x.img = [] then 0 else crc32c (imageBytes x.img))
    ++ ((List.range 8).map (fun n => slotW (g (counterFld n)))).flatten ++ toBytes 16 0

/-- The 4,464 bytes of the digest image of bank `b` for superframe `k`. -/
def State.digImage (s : State) (b k : Nat) : List Byte :=
  let p := pgBnk b
  let x := s.bk b
  let cs := chansOf b
  let cal := ((List.range 36).map (fun t =>
    let e := x.cal.get {} t
    toBytes 4 e.gain ++ toBytes 4 (ofS 32 e.off) ++ toBytes 4 (ofS 32 e.tc))).flatten
  let bankF := [R.BNK_MEAS_STAT_vbus_flags, R.BNK_MEAS_STAT_ibus_flags, R.BNK_MEAS_STAT_auxa_flags, R.BNK_MEAS_STAT_auxb_flags]
  toBytes 4 k ++ toBytes 1 (s.tripSt b) ++ toBytes 1 (b2n (s.bankArmed b)) ++ toBytes 2 0
    ++ toBytes 4 (crc32c cal) ++ toBytes 4 (s.rd p R.BNK_ID_CRC_crc) ++ toBytes 1 (s.lst b) ++ toBytes 15 0
    ++ (cs.map (fun c => slotS (s.rdS (pgChn c) R.CHN_I_value))).flatten
    ++ (cs.map (fun c => slotS (s.rdS (pgChn c) R.CHN_V_value))).flatten
    ++ slotS (s.rdS p R.BNK_VBUS_value) ++ slotS (s.rdS p R.BNK_IBUS_value) ++ slotS (s.rdS p R.BNK_AUXA_value)
    ++ slotS (s.rdS p R.BNK_AUXB_value)
    ++ cs.map (fun c => digFlags (s.rd (pgChn c) R.CHN_MEAS_FLAGS_i_flags))
    ++ cs.map (fun c => digFlags (s.rd (pgChn c) R.CHN_MEAS_FLAGS_v_flags))
    ++ bankF.map (fun f => digFlags (s.rd p f)) ++ toBytes 12 0
    ++ (cs.map s.digChan).flatten

/-- Whether the digest of bank `b` is valid: it takes part in comparison, or is compared at the end of a sync.
DEDUCED, log entry 68. -/
def State.digValid (s : State) (b : Nat) : Bool :=
  s.domOn (domOfBank b) && s.role b != 0 && (s.role b != 4 || s.plk.sync == 3)

/-- The digests of superframe `k`, after its ledger work; older ones that no PLK superframe can bring any more are dropped.
DEDUCED, log entry 68. -/
def State.digests (s : State) (k : Nat) : State :=
  let bs := s.liveBanks.filter s.digValid
  let own := bs.foldl (fun m b => m.set (32 * k + b) (crc64 (s.digImage b k))) (s.plk.own.drop (fun i => decide (i + 160 < 32 * k)))
  { s with plk := { s.plk with own := own } }

/-! ### Sync (R238, R239) -/

/-- A sync ends with a result: every bank OUT, or STANDBY where it is DONE. -/
def State.syncEnd (s : State) (r : Nat) : State :=
  let t := (List.range 32).foldl (fun t b => t.setRole b (if r = 2 then 2 else 3)) s
  let t := { t with plk := { t.plk with
    sync := 0, storeRx := none, snapRx := [], snapEnd := none, replay := [], same := 0, div := [] } }
  (t.wr pgPair R.PAIR_STAT_sync_result r).raise pgPair 0x20

/-- The CRC-32C of the step store's memory image. -/
def State.storeCrc (s : State) : Nat :=
  crc32c (((List.range (16384 * 12)).map (fun i => stepSlot (i % 12) (s.words.get 0 i))).flatten)

/-- SYNC_SNAPSHOT_CAPTURE: the snapshot image after superframe `k`; the spec gives the layout of the digest images alone, and
every other byte is a free value. DEDUCED, log entry 67. -/
def State.snapshot (s : State) (k : Nat) : List Byte :=
  let fill := fun (n base : Nat) => (List.range n).map (fun i => BitVec.ofNat 8 (Config.freeValue (s.free + base + i)).toNat)
  ((List.range 32).map (fun b => s.digImage b k ++ fill 4752 (4752 * b))).flatten ++ fill 4096 (4752 * 32)

/-- Bytes as 32-bit words. -/
def wordsOf : List Byte → List Nat
  | a :: b :: c :: d :: t => ofBytes [a, b, c, d] :: wordsOf t
  | _ => []

/-- The partner's side of a sync at the end of the ledger work of superframe `k`. DEDUCED, log entry 70. -/
def State.plkCapture (s : State) (k : Nat) : State :=
  if !(s.plk.capture.any (fun m => decide (m ≤ k))) then s
  else
    let img := s.snapshot k
    let tx := (2, k % 2 ^ 32) :: (wordsOf img).map (fun w => (1, w)) ++ [(3, crc32c img)]
    { s with free := s.free + 4752 * 32 + 4096, plk := { s.plk with capture := none, snapTx := tx } }.wr
      pgPair R.PAIR_SYNC_SF_s k

/-- A number of the snapshot: `n` bytes at offset `o`. DEDUCED, log entry 67. -/
def snapN (img : List Byte) (o n : Nat) : Nat := ofBytes ((img.drop o).take n)

/-- Load the channel block at `o` of the image as the state of channel `c` (R229, R238). DEDUCED, log entry 71. -/
def State.loadChan (s : State) (img : List Byte) (o c sf : Nat) : State :=
  let p := pgChn c
  let u := fun a n => snapN img (o + a) n
  let t := s.wr p R.CHN_LDG_GRANT_value (u 0x08 8)
  let t := t.wr p R.CHN_U_value (u 0x10 8)
  let t := t.wr p R.CHN_XI_value (u 0x18 8)
  let t := t.wr p R.CHN_XV_value (u 0x20 8)
  let t := t.setCst c (u 0x28 1)
  let fl := u 0x2A 1
  let t := t.wrB p R.CHN_STAT_cv_active (bitOf fl 0)
  let t := t.wrB p R.CHN_STAT_phase_b (bitOf fl 1)
  let t := t.wrB p R.CHN_STAT_granted_less (bitOf fl 2)
  let t := t.wrB p R.CHN_TRIP_STAT_chan_latch (bitOf fl 3)
  let t := t.wr p R.CHN_LP_PTR_step (u 0x30 2)
  let t := t.wr p R.CHN_LP_STAT_lp_state (u 0x32 1)
  let t := t.wr p R.CHN_LP_STAT_err (u 0x33 1)
  let t := t.wr p R.CHN_LP_STAT_end_code (u 0x33 1 / 16)
  let t := t.wr p R.CHN_LP_TIME_value (u 0x38 8)
  let t := t.wr p R.CHN_LP_CVT_cv_time (u 0x40 4)
  let t := t.wr p R.CHN_LDG_STAT_delay (u 0x44 2)
  let t := (List.range 4).foldl (fun t n => t.wr p (cntFld n) (u (0x48 + 2 * n) 2)) t
  let t := t.wr p R.CHN_LP_VENT_value (u 0x50 8)
  let t := t.wr p R.CHN_LP_GATE_group (u 0x58 1 % 64)
  let t := t.wr p R.CHN_LP_GATE_arrived (u 0x58 1 / 128)
  let t := t.wr p R.CHN_LP_GATE_gen (u 0x5A 2)
  let t := t.wr p R.CHN_INTG_STAT_sat (u 0x68 1)
  let t := t.wr p R.CHN_INTG_STAT_gap (u 0x69 1 % 2)
  let t := t.wr p R.CHN_INTG_STAT_scale_chg (u 0x69 1 / 2)
  let t := (List.range 8).foldl (fun t n => t.wr p (counterFld n) (u (0x70 + 16 * n) 9)) t
  let red := u 0x60 4
  let lc := u 0x64 4
  let t := t.wrB p R.CHN_LP_STAT_swap_pending (bitOf red 31)
  let g := u 0x08 8
  let old := fun (d : Due) => d.at_ && decide ((sf + 2 ^ 14 - d.sfc) % 2 ^ 14 < 2 ^ 13)
  let kind := (List.range 5).find? (fun n => bitOf lc (31 - n))
  t.modCh c (fun x => { x with
    req := u 0x00 8, hold := u 0x2B 1, cnt := u 0x2C 4
    pers := (List.range 4).map (fun n => u (0x34 + n) 1)
    vEntry := u 0x50 8 != 0
    openAt := if u 0x5C 4 = 0 then none else some (u 0x5C 4)
    redirect := if bitOf red 31 then some (bitsOf red 16 14) else none
    lpCmd := match x.lpCmd.filter (fun y => !old y.due) with
      | some y => some y
      | none => if bitOf lc 24 then kind.map (fun n => ⟨n, bitsOf lc 25 2, { at_ := true, sfc := lc % 16384 }⟩) else none
    cmd := match x.cmd with
      | none => none
      | some y => if old y.due then none else some y
    img := if u 0x6C 4 = 0 then [] else s.image (u 0x30 2)
    prevD := if wordMode g = 1 then wordD g else 0
    role := if u 0x6C 4 = 0 then 0 else s.roleOf (imgTag (s.image (u 0x30 2)))
    evalEnd := sf + 1 })

/-- Load the digest image at `o` of the snapshot as the state of bank `b` after superframe `sf`. -/
def State.loadBank (s : State) (img : List Byte) (o b sf : Nat) : State :=
  let p := pgBnk b
  let u := fun a n => snapN img (o + a) n
  let t := s.setTripSt b (u 0x004 1)
  let t := (chansOf b).foldl (fun t c =>
    let q := pgChn c
    let i := c % 16
    let t := (t.wr q R.CHN_I_value (u (0x20 + 8 * i) 8)).wr q R.CHN_V_value (u (0xA0 + 8 * i) 8)
    (t.wr q R.CHN_MEAS_FLAGS_i_flags (u (0x140 + i) 1)).wr q R.CHN_MEAS_FLAGS_v_flags (u (0x150 + i) 1)) t
  let t := t.wr p R.BNK_VBUS_value (u 0x120 8)
  let t := t.wr p R.BNK_IBUS_value (u 0x128 8)
  let t := t.wr p R.BNK_AUXA_value (u 0x130 8)
  let t := t.wr p R.BNK_AUXB_value (u 0x138 8)
  let t := (List.range 16).foldl (fun t c => t.loadChan img (o + 0x170 + 0x100 * c) (16 * b + c) sf) t
  t.modBk b (fun x => { x with
    cEnd := sf + 1, lastSf := some sf
    inp := ((s.plk.replay.filter (fun e => e.1 == b && decide (sf < e.2.sf))).map (·.2)) })

/-- The in-force values that the snapshot holds beside the digest images: fields of CHN, BNK, TRP and STP pages. -/
def snapKey (k : Nat) : Bool :=
  let i := k / 131072 % 0x10000
  i == pgTrp || i == pgStp || decide (0x080 ≤ i ∧ i < 0x0A0) || decide (0x100 ≤ i ∧ i < 0x300)

/-- SYNC_SNAPSHOT_LOADED (R238, step 4). `vals` are the values in force of the snapshot, whose layout the spec does not give, as
keys of register fields and values. DEDUCED, log entries 67, 71. -/
def execSyncSnapshotLoaded (vals : List (Nat × Nat)) (s : State) : Res :=
  let s := s.start
  let x := s.plk
  match x.snapEnd with
  | none => .next s
  | some crc =>
    if x.sync ≠ 1 then .next s
    else
      let img := (x.snapRx.map (toBytes 4)).flatten
      if img.length ≠ 299008 ∨ crc32c img ≠ crc then .next (s.syncEnd 7)
      else
        -- the low 32 bits of the snapshot superframe, which lies behind the count
        let low := s.rd pgPair R.PAIR_SYNC_SF_s
        let sf := s.k - (s.k + 2 ^ 32 - low) % 2 ^ 32
        let inForce := vals.filter (fun (e : Nat × Nat) => snapKey e.1)
        let t := { s with fields := inForce.foldl (fun (m : SMap Nat) (e : Nat × Nat) => m.set e.1 e.2) s.fields }
        let t := (List.range 32).foldl (fun t b => t.loadBank img (9216 * b) b sf) t
        let t := (t.wr pgPwr (R.PWR_VCORE_volt_mv 3) 900).wr pgPwr (R.PWR_VCORE_volt_mv 4) 900
        .next { t with
          w := sf + 1, tally := sf + 1, led := sf + 1
          plk := { t.plk with sync := 2, snapRx := [], snapEnd := none, replay := [] } }

/-- SYNC_REPLAY_LIVE (R238, step 6). -/
def execSyncReplayLive (s : State) : Res :=
  let s := s.start
  if s.plk.sync = 2 ∧ s.w = s.k then .next { s with plk := { s.plk with sync := 3, same := 0, own := [] } } else .next s

/-- SYNC_DONE (R238, R239): 64 consecutive superframes have matched. -/
def execSyncDone (s : State) : Res :=
  let s := s.start
  if s.plk.sync = 3 ∧ 64 ≤ s.plk.same then .next (s.syncEnd 2) else .next s

/-! ### The pair link -/

/-- The banks of a role, as a mask. -/
def State.roleMask (s : State) (r : Nat) : Nat := maskOf ((List.range 32).filter (fun b => s.role b == r))

/-- Whether the device drives PAIR_FAIL_N low (R224). -/
def State.selfFail (s : State) : Bool := !s.rdB pgPair (R.CTRL_enable pgPair) || s.plk.failCmd || !s.domOn 0

/-- Every bank takes a role at the first event of R228 that applies. DEDUCED, log entry 69. -/
def State.allActive (s : State) : State :=
  let t := (List.range 32).foldl (fun t b => t.setRole b 1) s
  { t with plk := { t.plk with fresh := false } }

/-- PLK is lost (R225): it retrains, and a running sync ends. -/
def State.plkLost (s : State) : State :=
  let t := { s with plk := { s.plk with rx := [], bad := 0, off := 0, yieldTx := [], snapTx := [], peerSync := false } }
  let t := (t.wr pgPair R.PAIR_STAT_plk 1).raise pgPair 8
  if t.plk.sync = 0 then t else t.syncEnd 8

/-- The digests of superframe `k` of bank `b` are compared: `peer` and its flags (R230, R231). DEDUCED, log entry 68. -/
def State.digCompare (s : State) (b k peer fl : Nat) : State :=
  let own := s.plk.own.get (2 ^ 64) (32 * k + b)
  if own = 2 ^ 64 ∨ !bitOf fl 0 ∨ s.role b = 0 ∨ (s.role b = 4 ∧ s.plk.sync ≠ 3) then s
  else
    let t := { s with plk := { s.plk with digOwn := s.plk.digOwn.set b own, digPeer := s.plk.digPeer.set b peer } }
    if own = peer then { t with plk := { t.plk with div := t.plk.div.set b 0 } }
    else if t.plk.div.get 0 b = 1 then t
    else
      let t := { t with plk := { t.plk with div := t.plk.div.set b 1, divSf := t.plk.divSf.set b (k % 2 ^ 32) } }
      let t := if t.role b = 4 then t.syncEnd 7 else if t.role b = 2 then t.setRole b 3 else t
      let t := (t.bump pgPair R.PAIR_DIV_COUNT_count 1).raise pgPair 2
      let t := t.report 0x28 pgPair b [k % 2 ^ 32, own % 2 ^ 32, own / 2 ^ 32, peer % 2 ^ 32, peer / 2 ^ 32]
      if t.rd pgPair R.PAIR_CFG_div_act = 1 then t.tripBank b 0x11 t.k 0 none false else t

/-- A transfer word of PLK superframe `k` (R226, R235, R238). -/
def State.plkWord (s : State) (k : Nat) (w : Nat) : State :=
  let d := w % 2 ^ 32
  let x := s.plk
  match bitsOf w 32 4 with
  | 1 => if x.sync = 1 then { s with plk := { x with snapRx := x.snapRx ++ [d] } } else s
  | 2 => if x.sync = 1 then { s with plk := { x with snapRx := [], snapEnd := none } }.wr pgPair R.PAIR_SYNC_SF_s d else s
  | 3 => if x.sync = 1 then { s with plk := { x with snapEnd := some d } } else s
  | 4 =>
    if x.sync = 0 then s
    else if d ≠ s.storeCrc then s.syncEnd 4 else { s with plk := { x with storeRx := some d } }
  | 5 =>
    let m := maskOf ((bitsIn 32 d).filter (fun b => s.role b == 2))
    { s with plk := { x with yieldTx := x.yieldTx ++ [(6, m)], change := x.change ++ [(k + 3, 1, m)] } }
  | 6 => { s with plk := { x with change := x.change ++ [(k + 2, 2, d)] } }
  | _ => s

/-- PLK superframe `k` has passed its CRC (R226 to R235). -/
def State.plkGood (s : State) (k : Nat) (f : List Nat) : State :=
  let at_ := fun n => f.getD n 0
  let x := s.plk
  let req := bitOf (at_ 1) 34
  let t := { s with plk := { x with
    peerAct := at_ 1 % 2 ^ 32, peerSby := at_ 2 % 2 ^ 32, peerSync := req
    capture := if req && !x.peerSync then some s.w else x.capture, storeTx := x.storeTx || (req && !x.peerSync), bad := 0 } }
  if !t.plkUp then t
  else
    let t := if t.plk.fresh && at_ 1 % 2 ^ 32 == 0 && t.rd pgPair R.PAIR_CFG_side == 0 then t.allActive else t
    let comparing := t.plk.sync == 3
    let all := (List.range 32).all (fun b => t.plk.own.get (2 ^ 64) (32 * (k - 2) + b) != 2 ^ 64 && bitOf (at_ (4 + 2 * b)) 0)
    let t := if k < 2 then t
      else (List.range 32).foldl (fun t b =>
        t.digCompare b (k - 2) (at_ (3 + 2 * b) * 2 ^ 28 + at_ (4 + 2 * b) / 2 ^ 8 % 2 ^ 28) (at_ (4 + 2 * b) % 8)) t
    let t := if comparing && t.plk.sync == 3 then { t with plk := { t.plk with same := if all && decide (2 ≤ k) then t.plk.same + 1 else 0 } } else t
    let t := (List.range 32).foldl (fun t b =>
      let own := t.plk.rep.get 9 (32 * k + b)
      if own = 9 ∨ t.role b = 0 ∨ own == b2n (bitOf (at_ (4 + 2 * b)) 1) then t
      else (t.bump pgPair R.PAIR_REPDIFF_count 1).raise pgPair 0x80) t
    ((f.drop 67).take (t.len - 68)).foldl (fun t w => t.plkWord k w) t

/-- PLK_FRAME (R226): one frame with its sync field and payload; `off` is the boundary offset that the arrival of a frame 0
gives, in ns. DESIGN CHOICE, log entries 9, 119. -/
def execPlkFrame (sync : Fin 4) (w : BitVec 36) (off : BitVec 16) (s : State) : Res :=
  let s := s.start
  if !s.rdB pgPair (R.CTRL_enable pgPair) ∨ s.rd pgPair R.PAIR_STAT_plk = 0 ∨ !s.domOn 0 then .next s
  else if sync.val = 1 then
    let o := off.toInt
    let far := decide (50 < o ∨ o < -50)
    let t := s.wr pgPair R.PAIR_STAT_bnd_off off.toNat
    let t := { t with plk := { t.plk with rx := [w.toNat], rxK := t.k, off := if far then t.plk.off + 1 else 0 } }
    if t.plkUp && (decide (w.toNat % 2 ^ 32 ≠ t.k % 2 ^ 32) || decide (16 ≤ t.plk.off)) then .next t.plkLost else .next t
  else if sync.val ≠ 2 ∨ s.plk.rx = [] then .next s
  else
    let f := s.plk.rx ++ [w.toNat]
    if f.length < s.len then .next { s with plk := { s.plk with rx := f } }
    else
      let t := { s with plk := { s.plk with rx := [] } }
      let crc := (f.take (s.len - 1)).foldl (fun r x => crc16 r x 36) 0xFFFF
      if crc = w.toNat % 2 ^ 16 then .next (t.plkGood s.plk.rxK f)
      else
        let t := { t with plk := { t.plk with bad := t.plk.bad + 1 } }
        if t.plkUp && decide (2 ≤ t.plk.bad) then .next t.plkLost else .next t

/-- PLK_UP (R225): 16 consecutive superframes have passed the CRC and the counts are equal. DEDUCED, log entry 70. -/
def execPlkUp (s : State) : Res :=
  let s := s.start
  if s.rd pgPair R.PAIR_STAT_plk = 1 then
    .next (({ s with plk := { s.plk with bad := 0, off := 0 } }.wr pgPair R.PAIR_STAT_plk 2).raise pgPair 0x10)
  else .next s

/-- PLK_LOST (R225). -/
def execPlkLost (s : State) : Res :=
  let s := s.start
  if s.plkUp then .next s.plkLost else .next s

/-- At B(n): the role changes decided for slot 25 of superframe `n` (R235). -/
def State.plkChange (s : State) (n : Nat) : State :=
  let l := s.plk.change
  let t := { s with plk := { s.plk with change := l.filter (fun e => decide (n < e.1)) } }
  (l.filter (fun e => decide (e.1 ≤ n))).foldl (fun t e =>
    let bs := bitsIn 32 e.2.2
    if e.2.1 = 1 then
      let bs := bs.filter (fun b => t.role b == 2)
      if bs = [] then t else (t.takeover bs t.freeVal)
    else
      (bs.filter (fun b => t.role b == 1)).foldl (fun t b => (t.setRole b 2).raise pgPair 0x40) t) t

/-- At B(n): the flags of the words sent, and the frames of PLK superframe `n` (R226). DEDUCED, log entry 70. -/
def State.plkSend (s : State) (n : Nat) : State :=
  let rep := fun b => (chansOf b).any (fun c => s.rdB (pgChn c) R.CHN_STAT_repeated)
  let reps := (List.range 32).foldl (fun m b => m.set (32 * n + b) (b2n (rep b))) (s.plk.rep.drop (fun i => decide (i + 128 < 32 * n)))
  let s := { s with plk := { s.plk with rep := reps } }
  if !s.plkUp then s
  else
    let dig := fun b =>
      let own := s.plk.own.get (2 ^ 64) (32 * (n - 2) + b)
      let ok := own != 2 ^ 64 && decide (2 ≤ n)
      let d := if ok then own else 0
      let late := decide (2 ≤ n) && (s.bk b).lateAt == some (n - 2)
      [d / 2 ^ 28, d % 2 ^ 28 * 256 + b2n ok + 2 * b2n (rep b) + 4 * b2n late]
    let x := s.plk
    let ready := x.yieldTx ++ (if x.storeTx then [(4, s.storeCrc)] else []) ++ x.snapTx
    let room := s.len - 68
    let words := (ready.take room).map (fun e => e.1 * 2 ^ 32 + e.2)
    let snapN := room - min room (x.yieldTx.length + b2n x.storeTx)
    let f := [n % 2 ^ 32,
        s.roleMask 1 + 2 ^ 34 * b2n (decide (x.sync ≠ 0)) + 2 ^ 35 * b2n s.selfFail, s.roleMask 2]
      ++ ((List.range 32).map dig).flatten ++ words ++ List.replicate (room - words.length) 0
    let crc := f.foldl (fun r v => crc16 r v 36) 0xFFFF
    { s with plk := { x with yieldTx := [], storeTx := false, snapTx := x.snapTx.drop snapN } }.emit (.plk (f ++ [crc]))

/-! ### Failure and commands -/

/-- PARTNER_FAIL (R224, R228, R233): PAIR_FAIL_N has read low for 200 ns while the device does not drive it. -/
def execPartnerFail (s : State) : Res :=
  let s := s.start
  if s.selfFail || s.rdB pgPair R.PAIR_STAT_partner_fail then .next s
  else
    let t := (s.wr pgPair R.PAIR_STAT_partner_fail 1).raise pgPair 4
    let t := if t.plk.sync = 0 then t else t.syncEnd 8
    let sby := (List.range 32).filter (fun b => s.role b == 2)
    let out := (List.range 32).filter (fun b => s.role b == 3 || s.role b == 4)
    let t := t.takeover sby 0
    let t := out.foldl (fun t b =>
      let t := t.setRole b 1
      (chansOf b).foldl (fun t c => if t.cst c = 0 then t else t.disarm c t.k) t) t
    let t := if out = [] then t else t.raise pgPair 1
    .next { t with plk := { t.plk with fresh := false } }

/-- PARTNER_FAIL_RELEASE (R224): the pin is high again. -/
def execPartnerFailRelease (s : State) : Res := .next (s.start.wr pgPair R.PAIR_STAT_partner_fail 0)

/-- PAIR_CTRL takes a written enable bit (R224, R228). -/
def State.pairCtrl (s : State) (en : Bool) : State :=
  let was := s.rdB pgPair (R.CTRL_enable pgPair)
  let t := s.wrB pgPair (R.CTRL_enable pgPair) en
  if en && !was then
    let t := (List.range 32).foldl (fun t b => t.setRole b 3) t
    { t with plk := { fresh := true, failCmd := s.plk.failCmd } }.wr pgPair R.PAIR_STAT_plk 1
  else if !en && was then
    let t := if t.plk.sync = 0 then t else t.syncEnd 8
    let t := { t with roles := [], plk := { failCmd := s.plk.failCmd } }
    (t.wr pgPair R.PAIR_STAT_plk 0).wr pgPair R.PAIR_STAT_partner_fail 0
  else t

/-- A sync command: `peer` are the identity CRCs that the partner holds for its banks (R238). DEDUCED, log entry 70. -/
def State.pairSync (s : State) (peer : List Word) : State :=
  let done := fun (t : State) r => (t.wr pgPair R.PAIR_STAT_sync_result r).raise pgPair 0x20
  if s.plk.sync ≠ 0 then s
  else if !s.plkUp then done s 3
  else if s.roleMask 1 ≠ 0 ∨ !(List.range 32).all s.linkUp ∨ !s.rdB pgPair R.PAIR_REPLAY_BASE_set
      ∨ (List.range 32).any (fun b => s.rd (pgBnk b) R.BNK_ID_CRC_crc != (peer.getD b 0).toNat) then done s 5
  else
    let t := (List.range 32).foldl (fun t b => t.setRole b 4) s
    let t := { t with plk := { t.plk with
      sync := 1, storeTx := true, storeRx := none, snapRx := [], snapEnd := none, replay := [], same := 0, fresh := false } }
    t.wr pgPair R.PAIR_STAT_sync_result 1

/-- A PAIR_CMD write of an accepted requester. -/
def State.pairCmd (s : State) (d : Word) (peer : List Word) : State :=
  let n := d.toNat
  let t := if bitOf n 29 then { s with plk := { s.plk with failCmd := true } }.wr pgPair R.PAIR_STAT_partner_fail 0 else s
  let t := if bitOf n 30 && t.plk.sync != 0 then t.syncEnd 8 else t
  let t := if bitOf n 31 then t.pairSync peer else t
  if bitOf n 28 && t.plkUp then
    let m := maskOf ((bitsIn 32 (t.rd pgPair R.PAIR_BANK_SEL_mask)).filter (fun b => t.role b == 1 && bitOf t.plk.peerSby b))
    if m = 0 then t else { t with plk := { t.plk with yieldTx := t.plk.yieldTx ++ [(5, m)] } }
  else t

/-- PAIR_SYNC (R238). -/
def execPairSync (r : Req) (d : Word) (peer : List Word) (s : State) : Res :=
  .next (s.start.access r pgPair 0x024 (fun s => s.pairCmd (d ||| 0x80000000) peer))

/-- PAIR_ABORT_SYNC (R239). -/
def execPairAbortSync (r : Req) (d : Word) (s : State) : Res :=
  .next (s.start.access r pgPair 0x024 (fun s => s.pairCmd (d ||| 0x40000000) []))

/-- PAIR_FAIL_CMD (R224). -/
def execPairFailCmd (r : Req) (d : Word) (s : State) : Res :=
  .next (s.start.access r pgPair 0x024 (fun s => s.pairCmd (d ||| 0x20000000) []))

/-- PAIR_YIELD (R235). -/
def execPairYield (r : Req) (d : Word) (s : State) : Res :=
  .next (s.start.access r pgPair 0x024 (fun s => s.pairCmd (d ||| 0x10000000) []))

end Sys2Proof.Machine
end

