-- ==== Sys2Proof/Machine/Shift.lean ====
section
/-! DEFINITION. The superframe count moved by a step of line time or a change of the superframe length
(18_network_time.md R386, R394, R397; 02_timing_power_startup.md R40; 03_silk_link.md R84). -/
namespace Sys2Proof.Machine

/-- A superframe number moved by `d`. -/
def shSf (d : Int) (n : Nat) : Nat := ((n : Int) + d).toNat

/-- A due time moved by `d`. -/
def Due.shift (x : Due) (d : Int) : Due := { x with frm := shSf d x.frm }

/-- A pending clear moved by `d`. -/
def Clear.shift (x : Clear) (d : Int) : Clear := { x with due := x.due.shift d }

/-- A channel's superframe numbers moved by `d`. -/
def Chan.shift (x : Chan) (d : Int) : Chan :=
  { x with
    cmd := x.cmd.map (fun c => { c with due := c.due.shift d })
    lpCmd := x.lpCmd.map (fun c => { c with due := c.due.shift d })
    clr := x.clr.map (·.shift d), openAt := x.openAt.map (shSf d), evalEnd := shSf d x.evalEnd
    detach := x.detach.map (shSf d) }

/-- A bank's superframe numbers moved by `d`. -/
def Bank.shift (x : Bank) (d : Int) : Bank :=
  let m := fun (o : Option Nat) => o.map (shSf d)
  { x with
    settleA := m x.settleA, settleB := m x.settleB, lastSf := m x.lastSf
    inp := x.inp.map (fun i => { i with sf := shSf d i.sf })
    commit := x.commit.map (·.shift d), gapAt := m x.gapAt, resumeAt := m x.resumeAt, lateAt := m x.lateAt
    crcAt := m x.crcAt, offAt := m x.offAt, holdAt := m x.holdAt, bclr := x.bclr.map (·.shift d), ackAt := m x.ackAt
    lastBit := shSf d x.lastBit, lastAny := m x.lastAny
    cEnd := shSf d x.cEnd }

/-- The values of a map changed. -/
def SMap.mapVals {α : Type} (f : α → α) (m : SMap α) : SMap α := m.map (fun e => (e.1, f e.2))

/-- The superframe count becomes `k`: everything that counts superframes moves with it, and nothing else changes.
DEDUCED, log entries 49, 104. -/
def State.renumber (s : State) (k : Nat) : State :=
  let d : Int := (k : Int) - (s.k : Int)
  { s with
    lenOld := s.lenOld.map (fun x => (shSf d x.1, x.2))
    k := k, w := shSf d s.w, tally := shSf d s.tally, led := shSf d s.led
    missAt := s.missAt.map (shSf d), ldgCmd := s.ldgCmd.map (·.shift d), gateRel := s.gateRel.mapVals (·.shift d)
    moves := s.moves.map (fun m => { m with due := m.due.shift d, sf := m.sf.map (shSf d) })
    chans := s.chans.mapVals (·.shift d), banks := s.banks.mapVals (·.shift d)
    tags := s.tags.mapVals (fun x => { x with m := shSf d x.m, quar := if x.quar = 0 then 0 else shSf d x.quar })
    grd := s.grd.mapVals (fun x => { x with sealAt := x.sealAt.map (shSf d), sfRole := shSf d x.sfRole })
    plk := { s.plk with
      own := [], rep := [], change := [], replay := [], capture := none, snapTx := [], yieldTx := [] } }


/-! ### Changes of the superframe length (R40, R84, R133, R386) -/

/-- The number of the three superframe lengths: 100, 200 and 400 frames. -/
def lenOfCode (n : Nat) : Nat := if n = 0 then 100 else if n = 1 then 200 else 400

/-- Whether the device does not refuse length `l`: no channel is armed, and no port is UP with a module whose l_support
lacks it. DEDUCED, log entry 30. -/
def State.lenAllowed (s : State) (l : Nat) : Bool :=
  !s.anyArmed && (List.range 32).all (fun b => !s.linkUp b || bitOf (idU8 (s.bk b).ident 0x04E) (lBit l))

/-- SUPERFRAME_LENGTH_CHANGE (R84, R133): the change to length code `l` is refused, or waits for its boundary.
DEDUCED, log entry 30. -/
def execSuperframeLengthChange (l : Fin 3) (s : State) : Res :=
  let s := s.start
  let n := lenOfCode l.val
  .next (if s.lenAllowed n then { s with lenNew := some n } else s)

/-- Whether the bank islands are at or above the floor of the change that waits (R40). -/
def State.floorsMet (s : State) : Bool :=
  [3, 4].all (fun d => !s.domOn d || decide (s.vfloor ≤ s.rd pgPwr (R.PWR_VCORE_volt_mv d)))

/-- A change of the superframe length that waits takes effect at the boundary in progress where its line time is a multiple of
40 µs (R386), both bank islands are at their floor (R40), and it is not refused. DEDUCED, log entry 30. -/
def State.lenTurn (s : State) : State :=
  match s.lenNew with
  | none => s
  | some l =>
    if s.k * s.tNs % 40000 = 0 ∧ s.floorsMet ∧ s.lenAllowed l then
      let n := s.k * s.len / l
      let t := { s.renumber n with len := l, lenNew := none, lenOld := some (n, s.len) }
      (List.range 32).foldl (fun (t : State) b => if (t.bk b).loaded then t.tsAdj b else t) t
    else s

end Sys2Proof.Machine
end

