-- ==== Sys2Proof/Machine/Work.lean ====
section
/-! DEFINITION. The work of a superframe: boundaries, phases A to C of the bank engines, deadlines and the ledger's turn
(02_timing_power_startup.md R33 to R39, 05_channel_control.md R125, 08_bus_ledger.md R193, R194). -/
namespace Sys2Proof.Machine

/-! ### The boundary -/

/-- The comb stages of the streams below `n` (R94). -/
def combAll (m : SMap Dec) : Nat → SMap Dec × List Int
  | 0 => (m, [])
  | n + 1 =>
    let y := combAll m n
    let z := (y.1.get {} n).comb
    (y.1.set n z.2, y.2 ++ [z.1])

/-- At B(k + 1) the inputs of superframe `k` of bank `b` are complete (R96, R99, R138, R485). -/
def State.latchInp (s : State) (b k : Nat) : State :=
  let l := s.lst b
  let norm := normalSt l
  let miss := s.len - (s.bk b).upj
  let s := if norm && l != 4 && miss != 0 then
      let t := s.bump (pgBnk b) R.BNK_LINK_ERR_sync_err miss
      if 2 ≤ (s.bk b).wrong + miss then t.fall b false else t
    else s
  let x := s.bk b
  let full := norm && miss == 0
  let gap := s.rdB (pgBnk b) R.BNK_LINK_STAT_gap_open
  let y := combAll x.dec 36
  let inv := !full || x.lost != 0 || x.inv != 0 || gap
  let aux := fun (o : Option Nat) => match o with | none => 0 | some n => if k ≤ n then 40 else 0
  let i : Inp :=
    { sf := k, y := y.2, status := x.status
      flags := 4 * b2n (x.crcBad != 0) + 8 * b2n inv + 128 * b2n s.holdover
      auxA := aux x.settleA, auxB := aux x.settleB, valid := full, gap := gap }
  let t := s.modBk b (fun x => { x with
    dec := if full then y.1 else x.dec, inp := x.inp ++ [i], inv := x.inv - 1, crcBad := x.crcBad - 1
    crcPrev := if full && x.lost == 0 then some x.crc else none, upj := 0, dlj := 0, wrong := 0 })
  if t.plk.sync = 1 then { t with plk := { t.plk with replay := t.plk.replay ++ [(b, i)] } } else t

/-- At B(n) the link follows what the superframe before brought: retraining, SFSYNC, the end of a gap (R81, R86, R88, R96).
DEDUCED, log entry 44. -/
def State.linkTurn (s : State) (b n : Nat) : State :=
  let x := s.bk b
  let quiet := fun (t : State) => t.modBk b (fun x => { x with
    lost := 0, sfsync := false, crcPrev := none, reading := false, idreq := none, idsent := none, reads := [] })
  let t := if x.lost = 0 then s
    else if normalSt (s.lst b) then quiet (s.setLst b (if x.lost = 2 then 1 else 3)) else quiet s
  let t := if (t.bk b).sfsync && t.lst b == 3 then
      (t.setLst b 4).modBk b (fun x => { x with
        sfsync := false, dec := [], frames := 0, inv := 2, good := 0, crcPrev := none, side := 0 })
    else t
  if (t.bk b).gapEnd && t.linkUp b then
    let p := pgBnk b
    let t := t.wr2 p R.BNK_GAP_END_W0_t R.BNK_GAP_END_W1_t (t.stampB n)
    let t := t.wr p R.BNK_LINK_STAT_gap_open 0
    if t.rdB p R.BNK_LINK_CTRL_hold_resume then
      (chansOf b).foldl (fun t c =>
        if t.cst c = 4 then (t.wr (pgChn c) R.CHN_LP_STAT_lp_state 4).raise (pgChn c) 0x400 else t)
        (t.modBk b (fun x => { x with gapEnd := false, gapAt := none }))
    else t.modBk b (fun x => { x with gapEnd := false, gapAt := none, resumeAt := some n })
  else t

/-- The words that bank `b` sends in downlink superframe `n` (R35, R72, R87, R130, R192, R194, R227). -/
def State.setWords (s : State) (b n : Nat) : State :=
  let off := !s.linkUp b || s.role b == 4
  let stop := (s.bk b).offAt == some n
  let rep := decide (2 ≤ n) && (s.causeAt b (n - 2) || decide (s.led ≤ n - 2))
  let t := (chansOf b).foldl (fun t c =>
    let p := pgChn c
    let w := if off || stop || decide (n < 2) then 0
      else if rep then t.rd p R.CHN_WORD_value else t.rd p R.CHN_LDG_GRANT_value
    (t.wr p R.CHN_WORD_value w).wrB p R.CHN_STAT_repeated (stop || (!off && rep))) s
  let ws := (chansOf b).map (fun c => 2 ^ 36 + t.rd (pgChn c) R.CHN_WORD_value)
  t.modBk b (fun x => { x with slots := ws ++ [2 ^ 36 + x.auxA + 256 * x.auxB] })

/-- Every register of a channel page returns to its reset value, but for OWNER and lock (R122, R124, R480).
DEDUCED, log entry 52. -/
def State.chanReset (s : State) (c : Nat) : State :=
  let p := pgChn c
  let t := (s.dropShadows p).resetInst p (fun off lo => off == 0x01C || (off == 0x008 && lo == 2))
  t.modCh c (fun x => { evalEnd := x.evalEnd, evSeq := x.evSeq, lastV := x.lastV, vGood := x.vGood, iClip := x.iClip, vClip := x.vClip })

/-- The soft reset of a channel page ends at the boundary that follows its disarm (R122). DEDUCED, log entry 52. -/
def State.chanTurn (s : State) (c : Nat) : State :=
  if (s.ch c).rstDue && (s.ch c).cmd.isNone then s.chanReset c else s

/-- What bank `b` does at B(n). -/
def State.bankTurn (s : State) (b n : Nat) : State :=
  let t := if n = 0 then s else s.latchInp b (n - 1)
  let t := t.linkTurn b n
  let t := t.tripHold b n
  let t := t.reloadLoad b
  let t := t.auxTake b n
  let t := t.setWords b n
  (chansOf b).foldl (fun t c => t.chanTurn c) t

/-! ### Phases A and B -/

/-- The entry of stop_on_detach (R336). -/
def State.detach (s : State) (c k : Nat) : State :=
  match (s.ch c).detach with
  | none => s
  | some f =>
    if f ≤ k then
      let t := s.modCh c (fun x => { x with detach := none })
      if t.cst c = 2 ∨ t.cst c = 4 then ((t.setCst c 4).wr (pgChn c) R.CHN_LP_STAT_lp_state 4).raise (pgChn c) 0x400 else t
    else s

/-- What happens to channel `c` before phase B of superframe `k`. -/
def State.chanBefore (s : State) (c k : Nat) (resume : Bool) : State :=
  let t := s.cmdEffect c k
  let t := if resume && t.cst c == 4 && t.rd (pgChn c) R.CHN_LP_STAT_lp_state != 4 then t.resume c k (t.onResume c) 7 else t
  (t.detach c k).lpBeforeB c k

/-- Phase B of channel `c` (R125, R129, R132, R178). -/
def State.phaseB (s : State) (c : Nat) : State :=
  let t := (s.slowCheck c).runLaw c
  if t.armed c then t.integrate c else t

/-- Phases A and B of superframe `k` of bank `b`. -/
def State.bankWork (s : State) (b k : Nat) : State :=
  let t := (s.tripEnter b k).calDue b k
  let i := ((t.bk b).inp.find? (fun i => i.sf == k)).getD { sf := k, flags := 8 }
  let t := t.modBk b (fun x => { x with inp := x.inp.filter (fun i => decide (k < i.sf)) })
  let t := ((t.phaseA b i).logBank b k i.gap).ocvTap b k
  let t := if (t.bk b).gapAt = some k then t.gapHold b else t
  let t := t.clearsDue b k
  let resume := match (t.bk b).resumeAt with | none => false | some n => decide (n ≤ k)
  let t := if resume then t.modBk b (fun x => { x with resumeAt := none }) else t
  let t := (chansOf b).foldl (fun t c => t.chanBefore c k resume) t
  let t := t.tempCheck b k
  (chansOf b).foldl (fun t c => t.phaseB c) t

/-- Start the work of the next superframe, where it is over and the ledger has ended the one before. -/
def State.tryStart (s : State) : State :=
  if s.w < s.k ∧ (s.w ≤ s.led ∨ s.liveBanks = []) then
    let t := s.liveBanks.foldl (fun t b => t.bankWork b s.w) s
    { t with w := s.w + 1 }
  else s

/-- SUPERFRAME_BOUNDARY (R33): B(n) with n one above the superframe in progress, while CK_TICK runs (R52).
DESIGN CHOICE, log entry 9; DEDUCED, log entry 28. -/
def execSuperframeBoundary (s : State) : Res :=
  let s := s.start
  if !s.domOn 0 then .next s
  else
  let n := s.k + 1
  let bs := s.liveBanks
  let t := s.plkChange n
  let t := bs.foldl (fun t b => t.bankTurn b n) t
  let t := t.copyInst pgTrp (iForce pgTrp) 0x040 0x064
  let t := t.copyInst pgGrd (iForce pgGrd) 0x040 0x080
  let t := t.logTake n
  let t := if t.plk.sync = 2 then t else (t.vcoreLoop 3).vcoreLoop 4
  let t : State := State.lenTurn { t with k := n }
  let t := t.plkSend t.k
  let t := if (t.plk.sync = 1 ∧ 5461 * 32 < t.plk.replay.length) ∨ (t.plk.sync = 2 ∧ t.w + 5461 < t.k) then t.syncEnd 6 else t
  .next t.tryStart

/-! ### Phase C -/

/-- Whether a channel stands in a function's map (R322). -/
def State.mapped (s : State) (c : Nat) : Bool :=
  s.rd (pgChn c) R.OWNER_world == 0 && s.rd (pgChn c) R.OWNER_function != 0

/-- MIRROR_UPDATE: the sample-mirror entry of channel `c` after phase C of superframe `k` (R318). -/
def State.mirrorEntry (s : State) (c k : Nat) : List Byte :=
  let p := pgChn c
  let tr := s.rdB p R.CHN_TRIP_STAT_chan_latch || s.rdB p R.CHN_TRIP_STAT_bank_held
  toBytes 4 k ++ toBytes 1 (s.rd p R.CHN_MEAS_FLAGS_i_flags) ++ toBytes 1 (s.rd p R.CHN_MEAS_FLAGS_v_flags)
    ++ toBytes 1 (s.cst c + 16 * s.rd p R.CHN_STAT_ctl_mode) ++ toBytes 1 (b2n tr)
    ++ slotS (s.rdS p R.CHN_I_value) ++ slotS (s.rdS p R.CHN_V_value) ++ toBytes 8 (s.stampSf (bankOf c) k)
    ++ ((List.range 4).map (fun n => slotW (s.rd p (counterFld n)))).flatten
    ++ toBytes 2 (s.rd p R.CHN_LP_PTR_step) ++ toBytes 1 (s.rd p R.CHN_LP_STAT_lp_state) ++ toBytes 25 0 ++ toBytes 4 k

/-- BANK_WORK_DONE: bank `b` has ended phase C of superframe `k` with slack `slack` (R34). -/
def State.workDone (s : State) (b k slack : Nat) : State :=
  let late := (s.bk b).lateAt == some k
  let sl := if late then 0 else slack
  let t := s.modBk b (fun x => { x with cEnd := k + 1 })
  let t := t.wr pgPwr (R.PWR_SLACK_slack_last b) sl
  let t := t.wr pgPwr (R.PWR_SLACK_slack_min b) (min (t.rd pgPwr (R.PWR_SLACK_slack_min b)) sl)
  let t := t.wrB pgPwr (R.PWR_SLACK_late_prev b) late
  if t.linkUp b then
    { t with mirror := (chansOf b).foldl (fun m c => if t.mapped c then m.set c (t.mirrorEntry c k) else m) t.mirror }
  else t

/-- PHASE_C_START (R159): bank `b` runs phase C of the superframe in work, once every bank has ended the one before and its
tally is published; `slack` is the slack with which it ends (R34). DEDUCED, log entry 28. -/
def execPhaseCStart (b : Fin 32) (slack : Fin 256) (s : State) : Res :=
  let s := s.start
  let b := b.val
  if !s.domOn (domOfBank b) ∨ s.w ≤ (s.bk b).cEnd ∨ s.tally + 1 < s.w then .next s
  else
    let k := s.w - 1
    let t := (chansOf b).foldl (fun t c => if (t.ch c).evalEnd ≤ k then t.evaluate c k else t) s
    .next (t.workDone b k slack.val)

/-- BANK_DEADLINE (R35): D(k) passes, k being the superframe before the one in progress. DEDUCED, log entries 28, 60. -/
def execBankDeadline (b : Fin 32) (s : State) : Res :=
  let s := s.start
  let b := b.val
  if s.k = 0 ∨ !s.domOn (domOfBank b) ∨ s.k ≤ (s.bk b).cEnd ∨ (s.bk b).lateAt = some (s.k - 1) then .next s
  else
    let m := s.k - 1
    let again := decide (0 < m) && s.causeAt b (m - 1)
    let t := (s.modBk b (fun x => { x with lateAt := some m })).markSf b m 64
    let t := (t.bump pgPwr (R.PWR_SLACK_late_count b) 1).raise pgPwr 1
    if again then
      let t := if (s.bk b).offAt = some (m + 2) then t else t.tripBank b 0x0C s.k 0 none false
      .next ((t.modBk b (fun x => { x with offAt := some (m + 2) })).raise pgPwr 2)
    else .next t

/-! ### The ledger's turn -/

/-- LEDGER_WORK (R193, R198): once every bank in a powered domain has ended phase C of the superframe, with the digests and a
waiting snapshot capture (R229, R238). A waiting next superframe then starts. -/
def execLedgerWork (s : State) : Res :=
  let s := s.start
  if s.cEnded ≤ s.led ∨ (s.liveBanks = [] ∧ !s.domOn 0) then .next s
  else
    let k := s.cEnded - 1
    let t := { s.ledger k with led := k + 1 }
    .next ((t.digests k).plkCapture k).tryStart

/-- LEDGER_MISS (R194): the ledger work for the superframe two before the one in progress has not ended at its boundary.
DEDUCED, log entries 28, 60. -/
def execLedgerMiss (s : State) : Res :=
  let s := s.start
  if s.k < 2 ∨ s.k - 2 < s.led ∨ s.missAt = some (s.k - 2) ∨ (s.liveBanks = [] ∧ !s.domOn 0) then .next s
  else
    let m := s.k - 2
    let again := s.liveBanks.filter (fun b => decide (0 < m) && s.causeAt b (m - 1) && (s.bk b).offAt != some s.k)
    let t := { s with missAt := some m }
    let t := (t.bump pgStp R.STP_LDG_MISS_count 1).raise pgStp 0x20
    let t := t.report 0x20 pgStp 0xFFFF [m % 2 ^ 32]
    .next (again.foldl (fun t b =>
      let t := (t.tripBank b 0x0C s.k 0 none false).modBk b (fun x => { x with offAt := some s.k })
      (t.setWords b s.k).raise pgPwr 2) t)

end Sys2Proof.Machine
end

