-- ==== Sys2Proof/Machine/Sha.lean ====
section
/-! DEFINITION. SHA-256, HMAC-SHA-256, HKDF-SHA-256 and ECDSA P-256 with the nonce of RFC 6979 (R217, R275, R282). -/
namespace Sys2Proof.Machine

/-! ### SHA-256 -/

/-- The round constants. -/
def shaK : List Nat :=
  [0x428a2f98, 0x71374491, 0xb5c0fbcf, 0xe9b5dba5, 0x3956c25b, 0x59f111f1, 0x923f82a4, 0xab1c5ed5,
   0xd807aa98, 0x12835b01, 0x243185be, 0x550c7dc3, 0x72be5d74, 0x80deb1fe, 0x9bdc06a7, 0xc19bf174,
   0xe49b69c1, 0xefbe4786, 0x0fc19dc6, 0x240ca1cc, 0x2de92c6f, 0x4a7484aa, 0x5cb0a9dc, 0x76f988da,
   0x983e5152, 0xa831c66d, 0xb00327c8, 0xbf597fc7, 0xc6e00bf3, 0xd5a79147, 0x06ca6351, 0x14292967]
  ++ [0x27b70a85, 0x2e1b2138, 0x4d2c6dfc, 0x53380d13, 0x650a7354, 0x766a0abb, 0x81c2c92e, 0x92722c85,
   0xa2bfe8a1, 0xa81a664b, 0xc24b8b70, 0xc76c51a3, 0xd192e819, 0xd6990624, 0xf40e3585, 0x106aa070,
   0x19a4c116, 0x1e376c08, 0x2748774c, 0x34b0bcb5, 0x391c0cb3, 0x4ed8aa4a, 0x5b9cca4f, 0x682e6ff3,
   0x748f82ee, 0x78a5636f, 0x84c87814, 0x8cc70208, 0x90befffa, 0xa4506ceb, 0xbef9a3f7, 0xc67178f2]

/-- The initial hash value. -/
def shaInit : List Nat :=
  [0x6a09e667, 0xbb67ae85, 0x3c6ef372, 0xa54ff53a, 0x510e527f, 0x9b05688c, 0x1f83d9ab, 0x5be0cd19]

/-- Rotate a 32-bit number right. -/
def rotr (n x : Nat) : Nat := (x >>> n) ||| (x * 2 ^ (32 - n) % 2 ^ 32)

/-- The number whose big-endian bytes are the list. -/
def beNat (bs : List Byte) : Nat := bs.foldl (fun a b => a * 256 + b.toNat) 0

/-- The big-endian bytes of `n`. -/
def beBytes (k n : Nat) : List Byte := (toBytes k n).reverse

/-- The 64 words of the message schedule from the last 16, newest first. -/
def shaSched : Nat → List Nat → List Nat
  | 0, w => w
  | n + 1, w =>
    let a := w.getD 14 0
    let b := w.getD 1 0
    let s0 := rotr 7 a ^^^ rotr 18 a ^^^ (a >>> 3)
    let s1 := rotr 17 b ^^^ rotr 19 b ^^^ (b >>> 10)
    shaSched n (((w.getD 15 0 + s0 + w.getD 6 0 + s1) % 2 ^ 32) :: w)

/-- One round. -/
def shaRound (h : List Nat) (kw : Nat × Nat) : List Nat :=
  let v := fun i => h.getD i 0
  let s1 := rotr 6 (v 4) ^^^ rotr 11 (v 4) ^^^ rotr 25 (v 4)
  let ch := (v 4 &&& v 5) ^^^ ((2 ^ 32 - 1 - v 4) &&& v 6)
  let t1 := v 7 + s1 + ch + kw.1 + kw.2
  let s0 := rotr 2 (v 0) ^^^ rotr 13 (v 0) ^^^ rotr 22 (v 0)
  let mj := (v 0 &&& v 1) ^^^ (v 0 &&& v 2) ^^^ (v 1 &&& v 2)
  [(t1 + s0 + mj) % 2 ^ 32, v 0, v 1, v 2, (v 3 + t1) % 2 ^ 32, v 4, v 5, v 6]

/-- The blocks of `k` bytes of a list. -/
def chunks (k : Nat) : Nat → List Byte → List (List Byte)
  | 0, _ => []
  | n + 1, l => if l = [] then [] else l.take k :: chunks k n (l.drop k)

/-- One block into the hash value. -/
def shaBlock (h : List Nat) (b : List Byte) : List Nat :=
  let w := (shaSched 48 ((chunks 4 16 b).map beNat).reverse).reverse
  let r := (shaK.zip w).foldl shaRound h
  (h.zip r).map (fun x => (x.1 + x.2) % 2 ^ 32)

/-- SHA-256. PRESUMED, log entry 82. -/
def sha256 (m : List Byte) : List Byte :=
  let pad := (119 - m.length % 64) % 64
  let p := m ++ [0x80#8] ++ List.replicate pad 0 ++ beBytes 8 (8 * m.length)
  (((chunks 64 (p.length / 64) p).foldl shaBlock shaInit).map (beBytes 4)).flatten

/-- HMAC-SHA-256. PRESUMED, log entry 82. -/
def hmac (key m : List Byte) : List Byte :=
  let k := if 64 < key.length then sha256 key else key
  let k := k ++ List.replicate (64 - k.length) 0
  sha256 (k.map (· ^^^ 0x5C) ++ sha256 (k.map (· ^^^ 0x36) ++ m))

/-- The expand step of HKDF: `n` blocks of output. -/
def hkdfExpand (prk info : List Byte) : Nat → List Byte × List Byte
  | 0 => ([], [])
  | n + 1 =>
    let y := hkdfExpand prk info n
    let t := hmac prk (y.1 ++ info ++ [BitVec.ofNat 8 (n + 1)])
    (t, y.2 ++ t)

/-- HKDF-SHA-256 with a salt of 32 zero bytes: `l` bytes, at most 8,160 (R275). PRESUMED, log entry 82. -/
def hkdf (ikm info : List Byte) (l : Nat) : List Byte :=
  (hkdfExpand (hmac (List.replicate 32 0) ikm) info ((l + 31) / 32)).2.take l

/-! ### P-256 -/

def ecP : Nat := 0xffffffff00000001000000000000000000000000ffffffffffffffffffffffff
def ecN : Nat := 0xffffffff00000000ffffffffffffffffbce6faada7179e84f3b9cac2fc632551
def ecB : Nat := 0x5ac635d8aa3a93e7b3ebbd55769886bc651d06b0cc53b0f63bce3c3e27d2604b
def ecG : Nat × Nat :=
  (0x6b17d1f2e12c4247f8bce6e563a440f277037d812deb33a0f4a13945d898c296,
   0x4fe342e2fe1a7f9b8ee7eb4a7c0f9e162bce33576b315ececbb6406837bf51f5)

/-- `a ^ e mod m`, the exponent given as its low `n` bits. -/
def powMod (m a e : Nat) : Nat → Nat
  | 0 => 1 % m
  | n + 1 =>
    let r := powMod m a (e / 2) n
    if e % 2 = 1 then r * r % m * a % m else r * r % m

/-- The inverse modulo a prime below 2^256. -/
def invMod (m a : Nat) : Nat := powMod m (a % m) (m - 2) 256

/-- The sum of two points of the curve; none is the point at infinity. -/
def ecAdd (p q : Option (Nat × Nat)) : Option (Nat × Nat) :=
  match p, q with
  | none, _ => q
  | _, none => p
  | some (x1, y1), some (x2, y2) =>
    if x1 = x2 ∧ (y1 + y2) % ecP = 0 then none
    else
      let l := if x1 = x2 then (3 * x1 * x1 + ecP - 3) * invMod ecP (2 * y1) % ecP
        else (y2 + ecP - y1) * invMod ecP (x2 + ecP - x1) % ecP
      let x := (l * l + 2 * ecP - x1 - x2) % ecP
      some (x, (l * (x1 + ecP - x) + ecP - y1) % ecP)

/-- `k · p` over the low `n` bits of `k`. -/
def ecMul (p : Option (Nat × Nat)) (k : Nat) : Nat → Option (Nat × Nat)
  | 0 => none
  | n + 1 =>
    let h := ecMul p (k / 2) n
    let d := ecAdd h h
    if k % 2 = 1 then ecAdd d p else d

/-- The public key X ‖ Y of private scalar `d`, 64 bytes big-endian. -/
def ecPub (d : Nat) : List Byte :=
  match ecMul (some ecG) d 256 with
  | none => List.replicate 64 0
  | some (x, y) => beBytes 32 x ++ beBytes 32 y

/-- The signature of digest `e` with nonce `k`, where it is one. -/
def ecSignK (d e k : Nat) : Option (List Byte) :=
  match ecMul (some ecG) k 256 with
  | none => none
  | some (x, _) =>
    let r := x % ecN
    let s := invMod ecN k * (e + r * d) % ecN
    if r = 0 ∨ s = 0 then none else some (beBytes 32 r ++ beBytes 32 s)

/-- The candidates of RFC 6979 in order, at most `n`. PRESUMED, log entry 82. -/
def rfc6979 (d e : Nat) : Nat → List Byte → List Byte → List Byte
  | 0, _, _ => List.replicate 64 0
  | n + 1, k, v =>
    let v := hmac k v
    let c := beNat v
    match (if 1 ≤ c ∧ c < ecN then ecSignK d e c else none) with
    | some s => s
    | none =>
      let k := hmac k (v ++ [0x00#8])
      rfc6979 d e n k (hmac k v)

/-- ECDSA P-256 over a 32-byte digest with the nonce of RFC 6979: r ‖ s, big-endian. PRESUMED, log entry 82. -/
def ecSign (d : Nat) (digest : List Byte) : List Byte :=
  let e := beNat digest
  let x := beBytes 32 d ++ beBytes 32 (e % ecN)
  let v0 := List.replicate 32 0x01#8
  let k1 := hmac (List.replicate 32 0) (v0 ++ [0x00#8] ++ x)
  let v1 := hmac k1 v0
  let k2 := hmac k1 (v1 ++ [0x01#8] ++ x)
  rfc6979 d e 64 k2 (hmac k2 v1)

/-- Whether a point lies on the curve. -/
def ecOn (x y : Nat) : Bool := decide (x < ecP ∧ y < ecP) && (y * y) % ecP == (x * x * x + 3 * ecP * x - 3 * x + ecB) % ecP

/-- ECDSA P-256 verification of r ‖ s over a digest with public key X ‖ Y. PRESUMED, log entry 82. -/
def ecVerify (pub digest sig : List Byte) : Bool :=
  let x := beNat (pub.take 32)
  let y := beNat ((pub.drop 32).take 32)
  let r := beNat (sig.take 32)
  let s := beNat ((sig.drop 32).take 32)
  if !ecOn x y || !(decide (1 ≤ r ∧ r < ecN ∧ 1 ≤ s ∧ s < ecN)) then false
  else
    let w := invMod ecN s
    let e := beNat digest
    match ecAdd (ecMul (some ecG) (e * w % ecN) 256) (ecMul (some (x, y)) (r * w % ecN) 256) with
    | none => false
    | some (x, _) => x % ecN == r

end Sys2Proof.Machine
end

