-- ==== Sys2Proof/Machine/Keys.lean ====
section
/-! DEFINITION. The key store: slots, derivation and invalidation, the abort of a job (12_keys_tamper.md, R272 to R281,
R290). -/
namespace Sys2Proof.Machine

/-! ### Cocoon state -/

/-- The state of cocoon `n`: 0 FREE, 1 OPEN, 2 SEALED, 3 DESTROYING (R252). -/
def State.cocState (s : State) (n : Nat) : Nat := s.rd (iCoc n) R.SEC_COC_STAT_state

/-- Whether cocoon `n` is SEALED. -/
def State.sealedCoc (s : State) (n : Nat) : Bool := s.cocState n == 2

/-- The measurement of cocoon `n`, 32 bytes. -/
def State.cocMeas (s : State) (n : Nat) : List Byte :=
  ((List.range 8).map (fun i => toBytes 4 (s.rd (iCoc n) (R.SEC_COC_MEAS_meas i)))).flatten

/-! ### Results (R286) -/

namespace Key
def done : Nat := 0x00
def busy : Nat := 0x01
def denied : Nat := 0x02
def badSlot : Nat := 0x03
def empty : Nat := 0x04
def type : Nat := 0x05
def inUse : Nat := 0x06
def closed : Nat := 0x08
def dead : Nat := 0x09
def destroyed : Nat := 0x0A
def tamper : Nat := 0x0B
def badCmd : Nat := 0x0C
def badAddr : Nat := 0x0D
def verifyFail : Nat := 0x0E
end Key

/-! ### Slots (R277, R278) -/

/-- Slot `n`. -/
def State.slotK (s : State) (n : Nat) : Slot := s.keys.get {} n

/-- Whether the slot holds a key. -/
def Slot.valid (k : Slot) : Bool := bitOf k.attr 31

/-- The type: 1 secret, 2 P-256 private. -/
def Slot.type (k : Slot) : Nat := bitsOf k.attr 28 2

/-- The parent slot. -/
def Slot.parent (k : Slot) : Nat := bitsOf k.attr 22 6

/-- Who asks for a job: 1 a core in the secure world, 2 Chrysalis, 3 the grading unit: the bit of the attributes that lets it
use a slot (R278). -/
def reqBit (chr : Bool) : Nat := if chr then 2 else 1

/-- The key store's state: 0 CLOSED, 1 OPEN, 2 DEAD (R272). -/
def State.keyStore (s : State) : Nat := s.rd pgKey R.KEY_STATE_state

/-- Whether the requester is allowed by the slot (R278). -/
def Slot.allows (k : Slot) (coc : Option Nat) (bit : Nat) : Bool :=
  match coc with
  | some n => bitOf k.attr 16 && bitsOf k.attr 17 4 == n
  | none => !bitOf k.attr 16 && bitOf k.attr bit

/-- The check of a slot for a job that needs type `ty` and usage bit `use` (R272, R278): a result code, or none. -/
def State.slotCheck (s : State) (n : Nat) (coc : Option Nat) (bit ty use : Nat) : Option Nat :=
  let k := s.slotK n
  if s.keyStore = 2 then some Key.dead
  else if s.keyStore ≠ 1 then some Key.closed
  else if !k.valid then some Key.denied
  else if k.type ≠ ty then some Key.type
  else if !bitOf k.attr use || !k.allows coc bit then some Key.denied
  else none

/-! ### Derivation (R275, R276, R279) -/

/-- The 9 bytes that mark an identity derivation. -/
def glallaim : List Byte := [0x47, 0x4C, 0x41, 0x4C, 0x4C, 0x41, 0x49, 0x4D, 0x2D]

/-- The secret of a child (R275): 32 bytes of output, or a private scalar. -/
def deriveSecret (parent : Nat) (info : List Byte) (ty : Nat) : Nat :=
  if ty = 2 then beNat (hkdf (beBytes 32 parent) info 48) % (ecN - 1) + 1
  else beNat (hkdf (beBytes 32 parent) info 32)

/-- The attributes of a child: `attr` as KEY_NEW_ATTR with valid set and its parent's number. -/
def childAttr (parent attr : Nat) : Nat :=
  2 ^ 31 + bitsOf attr 28 3 * 2 ^ 28 + parent % 64 * 2 ^ 22 + bitsOf attr 16 6 * 2 ^ 16 + bitsOf attr 1 7 * 2

/-- Bits of usage and requester that a child may not have beyond its parent (R279): all but sign and pub. -/
def attrKeep : Nat := 0xCE

/-- The checks of a derive (R272, R276 to R279): a result code, or none. DEDUCED, log entry 79. -/
def State.deriveCheck (s : State) (parent child attr : Nat) (info : List Byte) (coc : Option Nat) (bit : Nat) :
    Option Nat :=
  let k := s.slotK parent
  let ty := bitsOf attr 28 2
  if s.keyStore = 2 then some Key.dead
  else if s.keyStore ≠ 1 then some Key.closed
  else if child < 2 then some Key.badSlot
  else if (s.slotK child).valid then some Key.inUse
  else if !k.valid then some Key.empty
  else if k.type ≠ 1 ∨ ty = 0 ∨ ty = 3 then some Key.type
  else if !bitOf k.attr 7 || !k.allows coc bit then some Key.denied
  else if attr &&& attrKeep ≠ attr &&& attrKeep &&& k.attr then some Key.denied
  else if bitOf attr 16 && (!s.sealedCoc (bitsOf attr 17 4) || !bitOf attr 21) then some Key.denied
  else if parent = 0 ∧ info.take 9 = glallaim then some Key.denied
  else none

/-- The child that a derive makes (R275, R279). -/
def State.deriveChild (s : State) (parent child attr : Nat) (info : List Byte) : State :=
  let info := if bitOf attr 21 then info ++ s.cocMeas (bitsOf attr 17 4) else info
  let k : Slot := { attr := childAttr parent attr
                    secret := deriveSecret (s.slotK parent).secret info (bitsOf attr 28 2) }
  { s with keys := s.keys.set child k }

/-- A derive: its result code and the state after it. -/
def State.derive (s : State) (parent child attr : Nat) (info : List Byte) (coc : Option Nat) (bit : Nat) : State × Nat :=
  match s.deriveCheck parent child attr info coc bit with
  | some r => (s, r)
  | none => (s.deriveChild parent child attr info, Key.done)

/-- The KEY_INFO bytes in force: at most 64. -/
def State.keyInfo (s : State) : List Byte :=
  (((List.range 16).map (fun n => toBytes 4 (s.rd pgKey (R.KEY_INFO_info n)))).flatten).take
    (min (s.rd pgKey R.KEY_INFO_LEN_len) 64)

/-! ### Abort of the register-port job (R280, R290) -/

/-- The register-port job ends with `st` and leaves nothing: CRY_IN and CRY_OUT are zero. -/
def State.abortJob (s : State) (st : Nat) : State :=
  match s.job with
  | none => s
  | some _ =>
    let t := (List.range 32).foldl (fun t n => t.wr pgCry (R.CRY_IN_data n) 0) s
    let t := (List.range 16).foldl (fun t n => t.wr pgCry (R.CRY_OUT_data n) 0) t
    let t := t.wr pgCry R.CRY_STAT_busy 0
    let t := t.wr pgCry R.CRY_STAT_status st
    let t := { t with job := none }
    t.raise pgCry (if st = Key.tamper ∨ st = Key.destroyed then 3 else 1)

/-! ### Invalidation (R280) -/

/-- Whether the parent chain of slot `n`, followed for `fuel` slots, meets a slot that `p` holds of. -/
def State.leadsTo (s : State) (p : Nat → Bool) : Nat → Nat → Bool
  | 0, _ => false
  | fuel + 1, n => p n || (n != (s.slotK n).parent && s.leadsTo p fuel (s.slotK n).parent)

/-- The valid slots that are or descend from slots that `p` holds of. -/
def State.family (s : State) (p : Nat → Bool) : List Nat :=
  (List.range 64).filter (fun n => (s.slotK n).valid && s.leadsTo p 64 n)

/-- Whether a job uses a key slot: HMAC, DERIVE, SIGN, PUBKEY (R282). -/
def Job.keyed (j : Job) : Bool := j.op == 2 || j.op == 3 || j.op == 4 || j.op == 6

/-- The register-port job, where it uses a slot that `p` holds of, ends with `st`. DEDUCED, log entry 80. -/
def State.abortKeyed (s : State) (p : Nat → Bool) (st : Nat) : State :=
  match s.job with
  | some j => if j.keyed && p j.slot then s.abortJob st else s
  | none => s

/-- The slots that `p` holds of and their descendants are zeroed in one step; a job that uses one of them is aborted.
DEDUCED, log entry 79. -/
def State.invalidate (s : State) (p : Nat → Bool) : State :=
  let l := s.family p
  let t := { s with keys := s.keys.drop (fun n => l.contains n) }
  let t := if 1 < l.length then t.raise pgKey 2 else t
  t.abortKeyed (fun n => l.contains n) Key.destroyed

/-- Every slot is overwritten with zeros and the store is DEAD (R272, R281, R286). DEDUCED, log entry 80. -/
def State.keysDead (s : State) : State := { s with keys := [] }.wr pgKey R.KEY_STATE_state 2

/-- A KEY command ends: its slot, its result and its interrupt. -/
def State.keyEnd (s : State) (slot res : Nat) : State :=
  ((s.wr pgKey R.KEY_STATE_slot slot).wr pgKey R.KEY_STATE_result res).raise pgKey 1

/-- A KEY_CMD write (R279, R280). DEDUCED, log entry 79. -/
def State.keyCmd (s : State) (r : Req) (d : Word) : State :=
  let der := bitOf d.toNat 31
  let inv := bitOf d.toNat 30
  let slot := bitsOf d.toNat 0 6
  let par := bitsOf d.toNat 16 6
  if der && inv then s.keyEnd slot Key.badCmd
  else if der then
    let x := s.derive par slot (s.rd pgKey R.KEY_NEW_ATTR_attr) s.keyInfo none (reqBit (r == .chrysalis))
    x.1.keyEnd slot x.2
  else if inv then
    if s.keyStore = 2 then s.keyEnd slot Key.dead
    else if s.keyStore ≠ 1 then s.keyEnd slot Key.closed
    else if slot < 2 then s.keyEnd slot Key.badSlot
    else if !(s.slotK slot).valid then s.keyEnd slot Key.empty
    else (s.invalidate (· == slot)).keyEnd slot Key.done
  else s

/-- KEY_DERIVE (R279): a KEY_CMD write with derive. -/
def execKeyDerive (r : Req) (d : Word) (s : State) : Res :=
  .next (s.start.access r pgKey 0x030 (fun s => s.keyCmd r (d ||| BitVec.ofNat 32 (2 ^ 31))))

/-- KEY_INVALIDATE (R280): a KEY_CMD write with inval. -/
def execKeyInvalidate (r : Req) (d : Word) (s : State) : Res :=
  .next (s.start.access r pgKey 0x030 (fun s => s.keyCmd r (d ||| BitVec.ofNat 32 (2 ^ 30))))

/-- A KEY_ZERO write (R281). DEDUCED, log entry 80. -/
def State.keyZero (s : State) (d : Word) : State :=
  if R.KEY_ZERO_key.of d = 0x7A51 ∧ bitOf d.toNat 0 then
    let t := { s with bbRoot := 0, bbMark := 0, bbCheck := false }.keysDead
    (t.abortKeyed (fun _ => true) Key.dead).keyEnd 0 Key.done
  else s

/-- KEY_ZERO (R281). -/
def execKeyZero (r : Req) (d : Word) (s : State) : Res :=
  .next (s.start.access r pgKey 0x034 (fun s => s.keyZero d))

end Sys2Proof.Machine
end

