-- ==== Sys2Proof/Machine/Attribution.lean ====
section
/-! DEFINITION. Which addresses are secure and which belong to a cocoon (R18, R245, R246, R253, R255), and reading memory
as the secure world or a cocoon reaches it. -/
namespace Sys2Proof.Machine

/-- The start, the unit and the size in units of watermarked region `w`: 0 eMRAM, 1 system SRAM, 2 step store, 3 DRAM (R18). -/
def wmRegion (w : Nat) : Nat × Nat × Nat :=
  match w with
  | 0 => (0x01000000, 4096, 0x800)
  | 1 => (0x10000000, 4096, 0x400)
  | 2 => (0x20000000, 96, 0x4000)
  | _ => (0x800000000, 4096, 0x200000)

/-- The watermark field of region `w`. -/
def wmField (w : Nat) : Fld :=
  match w with
  | 0 => R.SEC_WM_EMRAM_units
  | 1 => R.SEC_WM_SRAM_units
  | 2 => R.SEC_WM_STEP_units
  | _ => R.SEC_WM_DRAM_units

/-- The first address of region `w` that is not secure under `units` (R245). -/
def wmTop (w units : Nat) : Nat :=
  let r := wmRegion w
  r.1 + r.2.1 * min units r.2.2

/-- Whether an address is secure (R18). -/
def State.secureAddr (s : State) (a : Nat) : Bool :=
  decide (a < 0x20000) ||
  [0, 1, 2, 3].any (fun w => decide ((wmRegion w).1 ≤ a) && decide (a < wmTop w (s.rd pgSec (wmField w))))

/-- Range `r` of cocoon `n` where it is enabled: its first address and the first address past it (R253). -/
def State.cocRange (s : State) (n r : Nat) : Option (Nat × Nat) :=
  if s.rdB (iCoc n) (R.SEC_COC_LIM_en r) then
    some (4096 * s.rd (iCoc n) (R.SEC_COC_BASE_page r), 4096 * (s.rd (iCoc n) (R.SEC_COC_LIM_page r) + 1))
  else none

/-- The enabled ranges of cocoon `n`, in range order. -/
def State.cocRanges (s : State) (n : Nat) : List (Nat × Nat) := (List.range 4).filterMap (s.cocRange n)

/-- Whether two ranges overlap. -/
def overlaps (x y : Nat × Nat) : Bool := decide (x.1 < y.2) && decide (y.1 < x.2)

/-- Whether an address lies in a range of cocoon `n`. -/
def State.inCoc (s : State) (n a : Nat) : Bool := (s.cocRanges n).any (fun x => decide (x.1 ≤ a) && decide (a < x.2))

/-- The cocoons that are not FREE. -/
def State.liveCocs (s : State) : List Nat := (List.range 16).filter (fun n => s.cocState n != 0)

/-- Whether cocoon `n` is closed to the secure world: sealed, being sealed, or being destroyed (R252, R254). -/
def State.closedCoc (s : State) (n : Nat) : Bool :=
  s.cocState n == 2 || s.cocState n == 3 || s.rdB (iCoc n) R.SEC_COC_STAT_busy

/-- Whether a range of memory lies wholly in one region that a job may read: boot ROM, eMRAM, system SRAM, or DRAM while
domain MEM is on. -/
def State.readable (s : State) (a n : Nat) : Bool :=
  let e := a + n
  decide (e ≤ 0x20000)
    || (decide (0x01000000 ≤ a) && decide (e ≤ 0x01800000))
    || (decide (0x10000000 ≤ a) && decide (e ≤ 0x10400000))
    || (decide (0x800000000 ≤ a) && decide (e ≤ 0xA00000000) && s.domOn 6)

/-- Whether a range of memory takes stores: the eMRAM configuration area, system SRAM, or DRAM while MEM is on (R242). -/
def State.writable (s : State) (a n : Nat) : Bool :=
  s.readable a n && !decide (a < 0x01600000) && !(decide (a + n > 0x01680000) && decide (a < 0x01800000))

/-- Whether the secure world reaches the range (R246, R255). -/
def State.secReach (s : State) (a n : Nat) : Bool :=
  s.readable a n &&
    s.liveCocs.all (fun c => !s.closedCoc c || (s.cocRanges c).all (fun x => !overlaps x (a, a + n)))

/-- Whether the range lies wholly in the ranges of cocoon `c` (R283): each 4 KiB page of it does. -/
def State.cocReach (s : State) (c a n : Nat) : Bool :=
  s.readable a n &&
    (n == 0 || (List.range ((a + n - 1) / 4096 + 1 - a / 4096)).all (fun i => s.inCoc c (4096 * (a / 4096 + i))))

/-- The byte at an address of the map: the boot ROM, the host image of a step in the step window, or memory. -/
def State.peek (s : State) (a : Nat) : Byte :=
  if a < 0x20000 then Config.bootRom a
  else if 0x20000000 ≤ a ∧ a < 0x20180000 then (imageBytes (s.image ((a - 0x20000000) / 96))).getD ((a - 0x20000000) % 96) 0
  else s.mem.read a

/-- The bytes from an address on. -/
def State.peekN (s : State) (a n : Nat) : List Byte := (List.range n).map (fun i => s.peek (a + i))

/-- Whether an enabled pool reaches to or past address `top` (R342). -/
def State.poolAbove (s : State) (top : Nat) : Bool :=
  s.rdB pgQpm (R.CTRL_enable pgQpm) &&
    decide (top < 0x800000000 + 0x10000000 * (s.rd pgQpm R.QPM_POOL_idx + s.rd pgQpm R.QPM_POOL_size))

end Sys2Proof.Machine
end

