-- ==== Sys2Proof/Machine/Harts.lean ====
section
/-! DEFINITION. The application cores: worlds, traps, gateways and debug halts (11_processors_worlds.md, R241 to R251, R256,
R257, R259, R260, R270, R271). -/
namespace Sys2Proof.Machine

/-! ### Registers of a hart -/

/-- Integer register `n` of a hart; x0 reads as zero. -/
def Hart.reg (x : Hart) (n : Nat) : BitVec 64 := if n = 0 then 0 else x.x.get 0 n

/-- Write integer register `n`; x0 discards the write. -/
def Hart.setReg (x : Hart) (n : Nat) (v : BitVec 64) : Hart := if n = 0 then x else { x with x := x.x.set n v }

/-- A hart executes an instruction: it runs, is not halted, and domain APP is on. -/
def State.executes (s : State) (h : Nat) : Bool := (s.hart h).running && !(s.hart h).halted && s.domOn 1

/-! ### Debug of a world (R270, R271) -/

/-- Whether invasive debug is enabled for a world, and for cocoon `n` in world 2. DEDUCED, log entry 76. -/
def State.invasive (s : State) (world n : Nat) : Bool :=
  if world = 0 then s.rdB pgDbg R.DBG_EN_n_inv
  else if world = 1 then s.rdB pgDbg R.DBG_EN_s_inv
  else s.rdB pgDbg R.DBG_EN_coc_inv && s.rdB (iCoc n) R.SEC_COC_CFG_debug

/-- A waiting halt request halts the hart once its world is enabled. DEDUCED, log entry 76. -/
def State.haltCheck (s : State) (h : Nat) : State :=
  let x := s.hart h
  if x.haltReq && s.invasive x.world x.cocoon then s.setHart h { x with haltReq := false, halted := true } else s

/-- HALT_REQUEST (R271). DEDUCED, log entry 76. -/
def execHaltRequest (h : Fin 4) (s : State) : Res :=
  let s := s.start
  if s.executes h.val && s.rdB pgClk R.CLK_GATE_dbg then
    .next ((s.setHart h.val { s.hart h.val with haltReq := true }).haltCheck h.val)
  else .next s

/-- Whether the device is TAMPERED (R292). -/
def State.tampered (s : State) : Bool := s.rdB pgTmp R.TMP_STAT_tampered

/-- The bits of DBG_EN that a requester may set (R270): the probe counts as any requester. -/
def State.dbgMask (s : State) (r : Req) : Nat :=
  let a := s.attr r
  let core := match r with
    | .core _ => true
    | _ => false
  0x003 + (if core && a.world == 1 && !s.tampered then 0x10C else 0)
    + (if a.world == 1 then 0x0C0 else 0) + (if r == .chrysalis && s.chr == 1 && !s.tampered then 0x030 else 0)

/-- The bits of DBG_EN. -/
def dbgFields : List Fld :=
  [R.DBG_EN_n_inv, R.DBG_EN_n_ninv, R.DBG_EN_s_inv, R.DBG_EN_s_ninv, R.DBG_EN_ch_inv, R.DBG_EN_ch_ninv,
   R.DBG_EN_coc_inv, R.DBG_EN_coc_ninv, R.DBG_EN_sba_sec]

/-- After a change of the enables: harts halted in a disabled world resume, waiting requests in an enabled one halt. -/
def State.dbgChanged (s : State) : State :=
  (List.range 4).foldl (fun t h =>
    let x := t.hart h
    let t := if x.halted && !t.invasive x.world x.cocoon then t.setHart h { x with halted := false } else t
    t.haltCheck h) s

/-- A write of DBG_EN (R270, R271). -/
def State.dbgWrite (s : State) (r : Req) (d : Word) : State :=
  if s.locked pgDbg then s
  else
    let m := s.dbgMask r
    (dbgFields.foldl (fun t f => if bitOf m f.lo then t.wr pgDbg f (f.of d) else t) s).dbgChanged

/-- DBG_EN_WRITE (R270). -/
def execDbgEnWrite (r : Req) (d : Word) (s : State) : Res :=
  .next (s.start.access r pgDbg 0x020 (fun s => s.dbgWrite r d))

/-! ### Traps (R243, R251, R256) -/

/-- The target of a trap: the base of a trap vector, or its vectored entry for an interrupt. -/
def trapPc (tvec cause : BitVec 64) : BitVec 64 :=
  let base := tvec &&& ~~~3#64
  if tvec.getLsbD 0 && cause.getLsbD 63 then base + 4#64 * (cause &&& 0x7FFFFFFFFFFFFFFF#64) else base

/-- mstatus and sstatus bits: the previous privilege and the interrupt enables. -/
def setBit (w : BitVec 64) (n : Nat) (b : Bool) : BitVec 64 :=
  if b then w ||| (1#64 <<< n) else w &&& ~~~(1#64 <<< n)

/-- mstatus at a trap into M-mode from privilege `p`: MPP, MPIE and MIE. -/
def mstatusTrap (w : BitVec 64) (p : Nat) : BitVec 64 :=
  setBit (setBit (setBit (setBit w 7 (w.getLsbD 3)) 3 false) 11 (p % 2 == 1)) 12 (p / 2 == 1)

/-- A trap into M-mode: the hart is in the secure world and mworld.pw records the world it came from. -/
def Hart.trapM (x : Hart) (cause epc tval : BitVec 64) : Hart :=
  { x with
    mcause := cause, mepc := epc, mtval := tval
    mstatus := mstatusTrap x.mstatus x.priv
    pw := x.world, world := 1, cocoon := 0, priv := 3, pc := trapPc x.mtvec cause }

/-- Whether the normal world delegates a cause to S-mode. -/
def Hart.delegates (x : Hart) (cause : BitVec 64) : Bool :=
  x.world == 0 && (if cause.getLsbD 63 then x.mideleg.getLsbD (cause.toNat % 64) else x.medeleg.getLsbD (cause.toNat % 64))

/-- A trap of the normal world that is delegated to its S-mode. -/
def Hart.trapS (x : Hart) (cause tval : BitVec 64) : Hart :=
  let b := x.sNormal
  let st := setBit (setBit (setBit b.sstatus 5 (b.sstatus.getLsbD 1)) 1 false) 8 (x.priv == 1)
  { x with
    sNormal := { b with scause := cause, sepc := x.pc, stval := tval, sstatus := st }
    priv := 1, pc := trapPc b.stvec cause }

/-- The hart's context, as an asynchronous exit saves it. -/
def Hart.context (x : Hart) : Ctx := { x := x.x, f := x.f, fcsr := x.fcsr, pc := x.pc, top := x.stack.head? }

/-- Steps 1 (the pop) to 3 of R256 on the hart: leave cocoon `n`, with everything zeroed. -/
def Hart.leave (x : Hart) (n : Nat) (destroyed : Bool) (cause : BitVec 64) : Hart :=
  { ({ x with x := [], f := [], fcsr := 0, stack := x.stack.tail }).trapM cause 0 0 with
    pcoc := n, coexValid := true, coexDestroyed := destroyed, coexCocoon := n }

/-- The 1 KiB of save area of hart `h` in cocoon `n` (R253). DEDUCED, log entry 74. -/
def State.saveArea (s : State) (n h : Nat) : Nat := 4096 * s.rd (iCoc n) (R.SEC_COC_BASE_page 0) + 0x400 * h

/-- `n` bytes whose content the spec leaves open. DEDUCED, log entry 74. -/
def State.freeBytes (s : State) (n : Nat) : List Byte :=
  (List.range n).map (fun i => ((Config.freeValue (s.free + i / 32)).extractLsb' (8 * (i % 32)) 8))

/-- The asynchronous exit of hart `h` from its cocoon (R256): the context goes to the save area, whose layout the spec does
not give. DEDUCED, log entry 74. -/
def State.asyncExit (s : State) (h : Nat) (cause : BitVec 64) : State :=
  let x := s.hart h
  let t := s.store (s.saveArea x.cocoon h) (s.freeBytes 1024)
  let t := { t with free := t.free + 32, saved := t.saved.set (4 * x.cocoon + h) x.context }
  (t.setHart h (x.leave x.cocoon false cause)).haltCheck h

/-- An interrupt or exception on hart `h` (R243, R256). -/
def State.trap (s : State) (h : Nat) (cause tval : BitVec 64) : State :=
  let x := s.hart h
  if x.world = 2 then s.asyncExit h cause
  else if x.delegates cause then s.setHart h (x.trapS cause tval)
  else (s.setHart h (x.trapM cause x.pc tval)).haltCheck h

/-- TRAP (R243, R256): `cause` as mcause shows it. DEDUCED, log entries 72, 118. -/
def execTrap (h : Fin 4) (cause tval : BitVec 64) (s : State) : Res :=
  let s := s.start
  .next (if s.executes h.val then s.trap h.val cause tval else s)

/-- An illegal-instruction exception; the value of mtval is left to the implementation by the privilege specification.
DEDUCED, log entry 73. -/
def State.illegal (s : State) (h : Nat) : State :=
  s.freeNext.trap h 2 (BitVec.ofNat 64 s.freeVal)

/-- mstatus.MPP. -/
def Hart.mpp (x : Hart) : Nat := bitsOf x.mstatus.toNat 11 2

/-- The hart after mret: MIE from MPIE, MPIE set, MPP user, MPRV cleared unless MPP was M, and the world of mworld.pw. -/
def Hart.mretTo (x : Hart) : Hart :=
  let w := x.mstatus
  let w := setBit (setBit (setBit (setBit w 3 (w.getLsbD 7)) 7 true) 11 false) 12 false
  let w := if x.mpp = 3 then w else setBit w 17 false
  { x with
    mstatus := w, pc := x.mepc, world := x.pw
    cocoon := if x.pw = 2 then x.pcoc else 0
    priv := if x.pw = 2 then 0 else x.mpp }

/-- MRET (R243). DEDUCED, log entries 72, 73. -/
def execMret (h : Fin 4) (s : State) : Res :=
  let s := s.start
  let x := s.hart h.val
  .next (
    if !s.executes h.val then s
    else if x.priv ≠ 3 ∨ (x.pw = 0 ∧ x.mpp = 3) then s.illegal h.val
    else (s.setHart h.val x.mretTo).haltCheck h.val)

/-! ### Gateway instructions (R247 to R251, R257) -/

/-- The instruction word of a gateway instruction (R247): funct3, rd and rs1 on the custom-0 opcode. -/
def gwWord (funct3 : Fin 8) (rd rs1 : Fin 32) : BitVec 32 :=
  BitVec.ofNat 32 (rs1.val * 2 ^ 15 + funct3.val * 2 ^ 12 + rd.val * 2 ^ 7 + 0x0B)

/-- The gateway instruction of a word: its funct3, rd and rs1, where the word is one (R247). -/
def gwDecode (w : BitVec 32) : Option (Nat × Nat × Nat) :=
  let n := w.toNat
  let f3 := bitsOf n 12 3
  let rd := bitsOf n 7 5
  let rs1 := bitsOf n 15 5
  if n % 128 ≠ 0x0B ∨ bitsOf n 20 12 ≠ 0 then none
  else if f3 = 0 then some (f3, rd, rs1)
  else if (f3 = 1 ∨ f3 = 3) ∧ rd = 0 then some (f3, rd, rs1)
  else if f3 = 2 ∧ rd = 0 ∧ rs1 = 0 then some (f3, rd, rs1)
  else if f3 = 4 ∧ rs1 = 0 then some (f3, rd, rs1)
  else none

/-- A gate that passed the checks: entry address, privilege, target world and cocoon. -/
structure Gate where
  entry : Nat
  priv  : Nat
  world : Nat
  coc   : Nat
  deriving DecidableEq, Repr

/-- The address of the descriptor that a selector names, where it lies within its table (R248, check 4 of R249). -/
def State.gateAddr (s : State) (x : Hart) (kind n g : Nat) : Option Nat :=
  if kind = 0 then
    let a := bitsOf x.mgwtab.toNat 12 28 * 4096 + 16 * g
    if g ≤ bitsOf x.mgwtab.toNat 0 10 ∧ s.secureAddr a ∧ s.secureAddr (a + 15) then some a else none
  else
    match s.cocRange n 0 with
    | none => none
    | some (lo, hi) =>
      let a := lo + 0x1010 + 16 * g
      if g < min (ofBytes (s.peekN (lo + 0x1000) 4)) 1024 ∧ a + 16 ≤ hi then some a else none

/-- Whether an entry lies in the target world (check 7 of R249). -/
def State.entryIn (s : State) (kind n entry : Nat) : Bool :=
  if kind = 0 then s.secureAddr entry && s.liveCocs.all (fun c => !s.inCoc c entry)
  else
    match s.cocRange n 0 with
    | none => false
    | some (lo, hi) => decide (lo + entry < hi)

/-- The checks on a descriptor at `a` (checks 4 to 7 of R249). DEDUCED, log entry 73. -/
def State.gateDesc (s : State) (world kind n a : Nat) : Except Nat Gate :=
  let entry := ofBytes (s.peekN a 8)
  let attr := ofBytes (s.peekN (a + 8) 2)
  let p := bitsOf attr 3 2
  let base := match s.cocRange n 0 with
    | some (lo, _) => lo
    | none => 0
  if !bitOf attr 15 then .error 1
  else if !bitOf attr world then .error 2
  else if p = 2 ∨ (kind = 1 ∧ p ≠ 0) then .error 6
  else if entry % 4 ≠ 0 ∨ !s.entryIn kind n entry then .error 3
  else .ok { entry := if kind = 1 then base + entry else entry, priv := p
             world := if kind = 1 then 2 else 1, coc := if kind = 1 then n else 0 }

/-- Checks 1 to 7 of R249 for selector `sel` on hart state `x`: the subcode of the first that fails, or the gate. -/
def State.gateCheck (s : State) (x : Hart) (sel : BitVec 64) : Except Nat Gate :=
  let v := sel.toNat
  let kind := bitsOf v 20 1
  let n := bitsOf v 16 4
  if v / 2 ^ 21 ≠ 0 ∨ (kind = 0 ∧ n ≠ 0) then .error 7
  else if (kind = 0 ∧ x.world = 1) ∨ (kind = 1 ∧ x.world = 2) then .error 4
  else if (kind = 0 ∧ !x.mgwtab.getLsbD 63) ∨ (kind = 1 ∧ !s.sealedCoc n) then .error 5
  else
    match s.gateAddr x kind n (v % 65536) with
    | none => .error 1
    | some a => s.gateDesc x.world kind n a

/-- GWGATE rd, rs1 (R247): the checks without the crossing. -/
def execGwgate (h : Fin 4) (rd rs1 : Fin 32) (s : State) : Res :=
  let s := s.start
  let x := s.hart h.val
  .next (
    if !s.executes h.val then s
    else
      let c := match s.gateCheck x (x.reg rs1.val) with
        | .ok _ => 0
        | .error n => n
      s.setHart h.val { x.setReg rd.val (BitVec.ofNat 64 c) with pc := x.pc + 4 })

/-- GWCALL rs1 (R249, R251). DEDUCED, log entry 72. -/
def execGwcall (h : Fin 4) (rs1 : Fin 32) (s : State) : Res :=
  let s := s.start
  let x := s.hart h.val
  .next (
    if !s.executes h.val then s
    else
      match s.gateCheck x (x.reg rs1.val) with
      | .error n => s.trap h.val 24 (BitVec.ofNat 64 n)
      | .ok g =>
        if 8 ≤ x.stack.length then s.trap h.val 25 1
        else
          let e : GwEntry :=
            { pc := x.pc + 4, priv := x.priv, world := x.world, cocoon := x.cocoon, calleeW := g.world, calleeC := g.coc }
          (s.setHart h.val { x with
            stack := e :: x.stack, world := g.world, cocoon := g.coc, priv := g.priv
            pc := BitVec.ofNat 64 g.entry }).haltCheck h.val)

/-- GWRET (R250, R251). -/
def execGwret (h : Fin 4) (s : State) : Res :=
  let s := s.start
  let x := s.hart h.val
  .next (
    if !s.executes h.val then s
    else
      match x.stack with
      | [] => s.trap h.val 25 2
      | e :: rest =>
        if x.world ≠ e.calleeW ∨ x.cocoon ≠ e.calleeC then s.trap h.val 25 3
        else (s.setHart h.val { x with
          stack := rest, world := e.world, cocoon := e.cocoon, priv := e.priv, pc := e.pc }).haltCheck h.val)

/-- GWRESUME rs1 (R257). DEDUCED, log entry 73. -/
def execGwresume (h : Fin 4) (rs1 : Fin 32) (s : State) : Res :=
  let s := s.start
  let x := s.hart h.val
  let n := (x.reg rs1.val).toNat % 16
  .next (
    if !s.executes h.val then s
    else if x.world ≠ 1 ∨ x.priv = 0 then s.illegal h.val
    else if !s.sealedCoc n then s.trap h.val 24 5
    else
      match s.saved.find? (fun e => e.1 == 4 * n + h.val) with
      | none => s.trap h.val 24 5
      | some (_, c) =>
        if 8 ≤ x.stack.length then s.trap h.val 25 1
        else
          let t := { s with saved := s.saved.drop (· == 4 * n + h.val) }
          (t.setHart h.val { x with
            x := c.x, f := c.f, fcsr := c.fcsr, pc := c.pc, world := 2, cocoon := n, priv := 0
            stack := c.top.toList ++ x.stack }).haltCheck h.val)

/-- GWID rd (R247). -/
def execGwid (h : Fin 4) (rd : Fin 32) (s : State) : Res :=
  let s := s.start
  let x := s.hart h.val
  .next (
    if !s.executes h.val then s
    else
      let v := x.world + 16 * x.cocoon + 256 * x.stack.length
      s.setHart h.val { x.setReg rd.val (BitVec.ofNat 64 v) with pc := x.pc + 4 })

/-! ### Starting cores (R241) -/

/-- Hart `h` starts in M-mode at `pc`. DEDUCED, log entry 75. -/
def State.startHart (s : State) (h pc : Nat) : State :=
  (s.setHart h { running := true, pc := BitVec.ofNat 64 pc }).haltCheck h

/-- A write of SEC_CORE_RUN (R241). -/
def State.coreRun (s : State) (d : Word) : State :=
  let a := s.rd2 pgSec R.SEC_CORE_BOOT_W0_addr R.SEC_CORE_BOOT_W1_addr
  let m := R.SEC_CORE_RUN_run.of d
  let old := s.rd pgSec R.SEC_CORE_RUN_run
  let t := s.setBits pgSec R.SEC_CORE_RUN_run m
  [1, 2, 3].foldl (fun t h =>
    if bitOf m (h - 1) && !bitOf old (h - 1) && t.domOn 1 then t.startHart h (a - a % 4) else t) t

/-- CORE_RUN (R241). -/
def execCoreRun (r : Req) (d : Word) (s : State) : Res := .next (s.start.access r pgSec 0x040 (fun s => s.coreRun d))

/-! ### Interrupts of the cores (R244, R262) -/

/-- The hart to which source `p` is routed. -/
def State.irqHart (s : State) (p : Nat) : Nat := s.rd pgSec (R.SEC_IRQ_ROUTE_hart (p / 16) (p % 16))

/-- Whether source `p` is pending and delivered: to the secure world (`sec`) or to the normal world's supervisor. -/
def State.irqSource (s : State) (sec : Bool) (p : Nat) : Bool :=
  if p = 0x300 then sec && (s.rdB pgPwr R.PWR_SEC_INT_denied || s.rdB pgPwr R.PWR_SEC_INT_clk_denied)
  else if s.rd p R.OWNER_handover = 2 ∨ !s.pageOn p then false
  else s.irqLevel p &&
    (if sec then s.rd p R.OWNER_world != 0 else s.rd p R.OWNER_world == 0 && s.rd p R.OWNER_function == 0)

/-- mclaim and sclaim of hart `h`: the lowest pending source routed to it, plus one; 0 when none. -/
def State.claim (s : State) (sec : Bool) (h : Nat) : Nat :=
  match (allPages ++ [0x300]).find? (fun p => s.irqSource sec p && s.irqHart p == h) with
  | some p => p + 1
  | none => 0

end Sys2Proof.Machine
end

