-- ==== Sys2Proof/Machine/Worlds.lean ====
section
/-! DEFINITION. Cocoons, watermarks, the L2 masks, the hand-over of pages and the mailbox (11_processors_worlds.md, R245,
R252 to R255, R258, R261, R263, R264, R267 to R269). -/
namespace Sys2Proof.Machine

/-! ### Cocoon commands (R252 to R254, R258) -/

/-- The result of a cocoon command. -/
def State.cocResult (s : State) (n r : Nat) : State := s.wr (iCoc n) R.SEC_COC_STAT_result r

/-- Whether a range lies wholly in system SRAM or DRAM and below the watermark there (R253). -/
def State.rangePlaced (s : State) (x : Nat × Nat) : Bool :=
  [1, 3].any (fun w => decide ((wmRegion w).1 ≤ x.1) && decide (x.2 ≤ wmTop w (s.rd pgSec (wmField w))))

/-- The range rules for a create of cocoon `n` (R253). -/
def State.rangesOk (s : State) (n : Nat) : Bool :=
  (match s.cocRange n 0 with
   | some (lo, hi) => decide (lo + 8192 ≤ hi)
   | none => false)
  && (s.cocRanges n).all (fun x =>
    decide (x.1 < x.2) && s.rangePlaced x
      && s.liveCocs.all (fun c => c == n || (s.cocRanges c).all (fun y => !overlaps x y)))

/-- The save area and the contexts of cocoon `n` are zeroed. -/
def State.zeroSave (s : State) (n : Nat) : State :=
  let a := s.saveArea n 0
  { s with mem := s.mem.erase (fun x => decide (a ≤ x) && decide (x < a + 4096)), saved := s.saved.drop (fun k => k / 4 == n) }

/-- Hart `h` is forced out of cocoon `n`, which is being destroyed: an asynchronous exit without saving (R258). The spec
gives no cause. DEDUCED, log entry 73. -/
def State.forceOut (s : State) (n h : Nat) : State :=
  let x := s.hart h
  if x.world = 2 ∧ x.cocoon = n then
    let t := s.freeNext
    (t.setHart h (x.leave n true (BitVec.ofNat 64 s.freeVal))).haltCheck h
  else s

/-- Steps 1 and 2 of a destroy of cocoon `n` (R258). DEDUCED, log entry 77. -/
def State.destroyStart (s : State) (n : Nat) : State :=
  let t := (s.wr (iCoc n) R.SEC_COC_STAT_state 3).wr (iCoc n) R.SEC_COC_STAT_busy 1
  ([0, 1, 2, 3].foldl (fun t h => t.forceOut n h) t).cocResult n 1

/-- A SEC_COC_CMD write for cocoon `n`: create is bit 31, seal 30, destroy 29 (R252). DEDUCED, log entry 77. -/
def State.cocCmd (s : State) (n : Nat) (d : Word) : State :=
  let m := bitsOf d.toNat 29 3
  let st := s.cocState n
  if m = 0 then s
  else if m = 4 then
    if st ≠ 0 then s.cocResult n 2
    else if !s.rangesOk n then s.cocResult n 3
    else (s.wr (iCoc n) R.SEC_COC_STAT_state 1).cocResult n 0
  else if m = 2 then
    if st ≠ 1 ∨ s.rdB (iCoc n) R.SEC_COC_STAT_busy then s.cocResult n 2
    else ((s.wr (iCoc n) R.SEC_COC_STAT_busy 1).zeroSave n).cocResult n 1
  else if m = 1 then
    if st = 0 ∨ st = 3 then s.cocResult n 2 else s.destroyStart n
  else s.cocResult n 7

/-- The cocoon that SEC_COC_SEL names. DEDUCED, log entry 21. -/
def State.cocSel (s : State) : Nat := s.rd pgSec R.SEC_COC_SEL_cocoon

/-- COC_CREATE (R252, R253). -/
def execCocCreate (r : Req) (d : Word) (s : State) : Res :=
  .next (s.start.access r pgSec 0x084 (fun s => s.cocCmd s.cocSel (d ||| BitVec.ofNat 32 (2 ^ 31))))

/-- COC_SEAL (R252, R254). -/
def execCocSeal (r : Req) (d : Word) (s : State) : Res :=
  .next (s.start.access r pgSec 0x084 (fun s => s.cocCmd s.cocSel (d ||| BitVec.ofNat 32 (2 ^ 30))))

/-- COC_DESTROY (R252, R258). -/
def execCocDestroy (r : Req) (d : Word) (s : State) : Res :=
  .next (s.start.access r pgSec 0x084 (fun s => s.cocCmd s.cocSel (d ||| BitVec.ofNat 32 (2 ^ 29))))

/-- The size of range `r` of cocoon `n` in pages; 0 for a disabled range. -/
def State.rangePages (s : State) (n r : Nat) : Nat :=
  match s.cocRange n r with
  | some (lo, hi) => (hi - lo) / 4096
  | none => 0

/-- The measurement header (R254). -/
def State.measHeader (s : State) (n : Nat) : List Byte :=
  toBytes 2 1 ++ toBytes 1 (s.rd (iCoc n) R.SEC_COC_CFG_debug) ++ toBytes 1 (s.cocRanges n).length ++ toBytes 4 0
    ++ ((List.range 4).map (fun r => toBytes 4 (s.rangePages n r))).flatten

/-- The measurement: SHA-256 over the header and the contents of the enabled ranges in range order (R254). -/
def State.measure (s : State) (n : Nat) : List Byte :=
  sha256 (s.measHeader n ++ ((s.cocRanges n).map (fun x => s.peekN x.1 (x.2 - x.1))).flatten)

/-- Write the measurement registers. -/
def State.setMeas (s : State) (n : Nat) (m : List Byte) : State :=
  (List.range 8).foldl (fun t i => t.wr (iCoc n) (R.SEC_COC_MEAS_meas i) (ofBytes ((m.drop (4 * i)).take 4))) s

/-- COC_SEAL_DONE (R254): the measurement is written and cocoon `n` is SEALED. -/
def execCocSealDone (n : Fin 16) (s : State) : Res :=
  let s := s.start
  let n := n.val
  if s.cocState n = 1 ∧ s.rdB (iCoc n) R.SEC_COC_STAT_busy then
    let t := s.setMeas n (s.measure n)
    let t := (t.wr (iCoc n) R.SEC_COC_STAT_state 2).wr (iCoc n) R.SEC_COC_STAT_busy 0
    .next ((t.cocResult n 0).raise pgSec 4)
  else .next s

/-! ### Ownership -/

/-- OWNER of page `p` becomes `target` (laid out as xxx_OWNER), held (R263). -/
def State.setOwner (s : State) (p target : Nat) : State :=
  let w := target % 4
  let t := s.wr p R.OWNER_world w
  let t := t.wr p R.OWNER_cocoon (if w = 2 then bitsOf target 4 4 else 0)
  let t := t.wr p R.OWNER_function (bitsOf target 8 9)
  t.wr p R.OWNER_handover 0

/-- A pending cause is delivered to the new owner of page `p` (R262, R263). -/
def State.redeliver (s : State) (p : Nat) : State :=
  let f := s.rd p R.OWNER_function
  if s.irqLevel p && s.irqMsix p && s.rdB (iFn f) R.FNC_F_CHN_VEC_en then
    s.msix f (s.rd (iFn f) R.FNC_F_CHN_VEC_vector)
  else s

/-- The target is the cocoon `n`. -/
def toCoc (n target : Nat) : Bool := target % 4 == 2 && bitsOf target 4 4 == n

/-- Step 4 of a destroy (R258): offers to the cocoon are withdrawn, a drain toward it will go to the secure world (its kept
target becomes a reserved one), and the pages that it owns are reclaimed. -/
def State.cocPages (s : State) (n : Nat) : State :=
  let toward := (s.offers.filter (fun e => toCoc n e.2)).map (·.1)
  let t := toward.foldl (fun t p =>
    if t.rd p R.OWNER_handover = 1 then { t.wr p R.OWNER_handover 0 with offers := t.offers.drop (· == p) }
    else { t with offers := t.offers.set p 3 }) s
  (allPages.filter (fun p => t.rd p R.OWNER_world == 2 && t.rd p R.OWNER_cocoon == n && t.rd p R.OWNER_handover != 2)).foldl
    (fun t p => ({ t with offers := t.offers.drop (· == p) }.setOwner p 1).redeliver p) t

/-- COC_DESTROY_DONE (R258, R280): the ranges are zeroed, the pages reclaimed, the key slots invalidated, the measurement
cleared, and cocoon `n` is FREE. -/
def State.destroyEnd (s : State) (n : Nat) : State :=
  let rs := s.cocRanges n
  let t := { s with
    mem := s.mem.erase (fun a => rs.any (fun x => decide (x.1 ≤ a) && decide (a < x.2)))
    saved := s.saved.drop (fun k => k / 4 == n) }
  let t := t.cocPages n
  let t := t.invalidate (fun k => bitOf (t.slotK k).attr 16 && bitsOf (t.slotK k).attr 17 4 == n)
  let t := t.setMeas n []
  let t := (t.wr (iCoc n) R.SEC_COC_STAT_state 0).wr (iCoc n) R.SEC_COC_STAT_busy 0
  (t.cocResult n 0).raise pgSec 4

/-- COC_DESTROY_DONE (R258). -/
def execCocDestroyDone (n : Fin 16) (s : State) : Res :=
  let s := s.start
  .next (if s.cocState n.val = 3 then s.destroyEnd n.val else s)

/-! ### Watermarks (R245, R342) -/

/-- The lock field of watermark `w`. -/
def wmLock (w : Nat) : Fld :=
  match w with
  | 0 => R.SEC_WM_EMRAM_lock
  | 1 => R.SEC_WM_SRAM_lock
  | 2 => R.SEC_WM_STEP_lock
  | _ => R.SEC_WM_DRAM_lock

/-- Whether a part of a range of a cocoon that is not FREE, or of an enabled pool, would lie at or above the watermark. -/
def State.wmRefused (s : State) (w units : Nat) : Bool :=
  let r := wmRegion w
  let top := wmTop w units
  s.liveCocs.any (fun n => (s.cocRanges n).any (fun x =>
    decide (r.1 ≤ x.1) && decide (x.1 < r.1 + r.2.1 * r.2.2) && decide (top < x.2)))
  || (w == 3 && s.poolAbove top)

/-- A write of watermark `w` (R245). -/
def State.wmWrite (s : State) (w : Nat) (d : Word) : State :=
  if s.rdB pgSec (wmLock w) then s
  else if s.wmRefused w ((wmField w).of d) then s.raise pgSec 8
  else (s.wr pgSec (wmField w) ((wmField w).of d)).setBits pgSec (wmLock w) ((wmLock w).of d)

/-- WM_WRITE (R245): SEC_WM_EMRAM, SEC_WM_SRAM, SEC_WM_STEP or SEC_WM_DRAM. -/
def execWmWrite (r : Req) (w : Fin 4) (d : Word) (s : State) : Res :=
  .next (s.start.access r pgSec (0x020 + 4 * w.val) (fun s => s.wmWrite w.val d))

/-! ### L2 (R261) -/

/-- A write of SEC_L2_PART, or of SEC_L2_COC. DEDUCED, log entry 27. -/
def State.l2Write (s : State) (coc : Bool) (d : Word) : State :=
  let n := if coc then s.rd pgSec R.SEC_L2_PART_normal else R.SEC_L2_PART_normal.of d
  let e := if coc then s.rd pgSec R.SEC_L2_PART_secure else R.SEC_L2_PART_secure.of d
  let c := if coc then R.SEC_L2_COC_cocoon.of d else s.rd pgSec R.SEC_L2_COC_cocoon
  if n = 0 ∨ e = 0 ∨ n &&& e ≠ 0 ∨ c &&& n ≠ 0 then s.raise pgSec 16
  else ((s.wr pgSec R.SEC_L2_PART_normal n).wr pgSec R.SEC_L2_PART_secure e).wr pgSec R.SEC_L2_COC_cocoon c

/-- L2_MASK_WRITE (R261). DEDUCED, log entry 27. -/
def execL2MaskWrite (r : Req) (coc : Bool) (d : Word) (s : State) : Res :=
  .next (s.start.access r pgSec (if coc then 0x034 else 0x030) (fun s => s.l2Write coc d))

/-- L2_CLEAN (R261): the lines of the ways in the mask are written back and invalidated. Memory is what the coherent
caches show, so nothing of the state changes. DEDUCED, log entry 27. -/
def execL2Clean (r : Req) (_d : Word) (s : State) : Res := .next (s.start.access r pgSec 0x038 (fun s => s))

/-! ### Hand-over (R263, R264) -/

/-- Whether a page drains, under the SEC page or in a live move. -/
def State.anyDrain (s : State) : Bool := s.drain.isSome || s.moves.any (fun m => m.sf.isSome)

/-- Whether a live move is in progress on page `p`. -/
def State.movingPage (s : State) (p : Nat) : Bool := s.moves.any (fun m => pgChn m.chan == p)

/-- Whether a target is reserved or a cocoon that is not SEALED. DEDUCED, log entry 78. -/
def State.badTarget (s : State) (target : Nat) : Bool :=
  target % 4 == 3 || (target % 4 == 2 && !s.sealedCoc (bitsOf target 4 4))

/-- The end of a hand-over command on page `p` with code `r`. DEDUCED, log entry 78. -/
def State.hoResult (s : State) (p r : Nat) : State :=
  let t := (s.wr pgSec R.SEC_HO_STAT_page p).wr pgSec R.SEC_HO_STAT_result r
  if r = 0 then t.raise pgSec 1 else if r = 1 then t else t.raise pgSec 2

/-- Page `p` starts to drain. -/
def State.startDrain (s : State) (p target : Nat) : State :=
  let t := (s.wr p R.OWNER_handover 2).wr pgSec R.SEC_HO_STAT_draining 1
  { t with drain := some p, offers := t.offers.set p target }.hoResult p 1

/-- The fixed pages that never leave the secure world. -/
def fixedPage (p : Nat) : Bool := p == pgSec || p == pgMbx || p == pgKey || p == pgCry || p == pgTmp

/-- A SEC_HO_CMD write: offer is bit 31, withdraw 30, commit 29, reclaim 28 (R263, R264). DEDUCED, log entry 78. -/
def State.hoCmd (s : State) (d : Word) : State :=
  let m := bitsOf d.toNat 28 4
  let p := s.rd pgSec R.SEC_HO_PAGE_page
  let ho := s.rd p R.OWNER_handover
  let dest := s.rd pgSec R.SEC_HO_TO_target
  let kept := s.offers.get 1 p
  if m = 0 then s
  else if m ≠ 8 ∧ m ≠ 4 ∧ m ≠ 2 ∧ m ≠ 1 then s.hoResult p 7
  else if (blkOf p).isNone then s.hoResult p 5
  else if m = 8 ∧ fixedPage p then s.hoResult p 3
  else if !s.pageOn p then s.hoResult p 6
  else if s.movingPage p then s.hoResult p 2
  else if m = 8 then
    if ho ≠ 0 then s.hoResult p 2
    else if s.badTarget dest then s.hoResult p 4
    else
      let t := s.wr p R.OWNER_handover 1
      { t with offers := t.offers.set p dest }.hoResult p 0
  else if m = 4 then
    if ho ≠ 1 then s.hoResult p 2
    else
      let t := s.wr p R.OWNER_handover 0
      { t with offers := t.offers.drop (· == p) }.hoResult p 0
  else if m = 2 then
    if ho ≠ 1 ∨ s.anyDrain then s.hoResult p 2
    else if s.badTarget kept then s.hoResult p 4
    else s.startDrain p kept
  else
    if ho ≠ 0 ∨ s.rd p R.OWNER_world = 1 ∨ s.anyDrain then s.hoResult p 2
    else s.startDrain p 1

/-- HO_OFFER (R263). -/
def execHoOffer (r : Req) (d : Word) (s : State) : Res :=
  .next (s.start.access r pgSec 0x068 (fun s => s.hoCmd (d ||| BitVec.ofNat 32 (2 ^ 31))))

/-- HO_WITHDRAW (R263). -/
def execHoWithdraw (r : Req) (d : Word) (s : State) : Res :=
  .next (s.start.access r pgSec 0x068 (fun s => s.hoCmd (d ||| BitVec.ofNat 32 (2 ^ 30))))

/-- HO_COMMIT (R263). -/
def execHoCommit (r : Req) (d : Word) (s : State) : Res :=
  .next (s.start.access r pgSec 0x068 (fun s => s.hoCmd (d ||| BitVec.ofNat 32 (2 ^ 29))))

/-- HO_RECLAIM (R263). -/
def execHoReclaim (r : Req) (d : Word) (s : State) : Res :=
  .next (s.start.access r pgSec 0x068 (fun s => s.hoCmd (d ||| BitVec.ofNat 32 (2 ^ 28))))

/-- The drain of page `p` ends: the target owns it, or the secure world where the target cocoon is no longer SEALED (R258,
R263). The result of the command is shown while no later command has replaced it. DEDUCED, log entry 78. -/
def State.drainEnd (s : State) (p : Nat) : State :=
  let target := s.offers.get 1 p
  let bad := s.badTarget target
  let t := (s.setOwner p (if bad then 1 else target)).wr pgSec R.SEC_HO_STAT_draining 0
  let t := { t with drain := none, offers := t.offers.drop (· == p) }
  let mine := s.rd pgSec R.SEC_HO_STAT_page = p ∧ s.rd pgSec R.SEC_HO_STAT_result = 1
  let t := if mine then t.wr pgSec R.SEC_HO_STAT_result (if bad then 4 else 0) else t
  (t.raise pgSec (if bad then 2 else 1)).redeliver p

/-- HO_DRAIN_DONE (R263). -/
def execHoDrainDone (s : State) : Res :=
  let s := s.start
  match s.drain with
  | some p => .next (s.drainEnd p)
  | none => .next s

/-! ### Mailbox (R267 to R269) -/

/-- Word `n` of the slot contents. -/
def mbxWord (n : Nat) : Fld := ⟨0x400 + 4 * n, 0, 32, 0, .rw⟩

/-- The state of slot `k`: 0 FREE, 1 POSTED, 2 TAKEN, 3 DONE. -/
def State.mbxState (s : State) (k : Nat) : Nat := s.rd pgMbx (R.MBX_STATE_state k)

/-- Slot `k` enters state `v`; entering DONE of a request or POSTED of a notice raises its bit toward the cores. -/
def State.setMbx (s : State) (k v : Nat) : State :=
  let t := s.wr pgMbx (R.MBX_STATE_state k) v
  if (k < 12 ∧ v = 3) ∨ (12 ≤ k ∧ v = 1) then t.raise pgMbx (2 ^ k) else t

/-- Whether Chrysalis, or the core side, is the poster of slot `k`. DEDUCED, log entry 76. -/
def posterIs (chr : Bool) (k : Nat) : Bool := if k < 12 then !chr else chr

/-- A slot action: the slots of `d` whose poster (or receiver) writes and whose state is `src` enter `dst`; a write that acts
on no slot is counted in MBX_ERR. DEDUCED, log entry 18. -/
def State.mbxAct (s : State) (r : Req) (poster : Bool) (src dst : Nat) (d : Word) : State :=
  let chr := r == .chrysalis
  let l := (bitsIn 16 d.toNat).filter (fun k => (posterIs chr k == poster) && s.mbxState k == src)
  if l = [] then s.bump pgMbx R.MBX_ERR_count 1 else l.foldl (fun t k => t.setMbx k dst) s

/-- MBX_POST (R267). -/
def execMbxPost (r : Req) (d : Word) (s : State) : Res :=
  .next (s.start.access r pgMbx 0x020 (fun s => s.mbxAct r true 0 1 d))

/-- MBX_TAKE (R267). -/
def execMbxTake (r : Req) (d : Word) (s : State) : Res :=
  .next (s.start.access r pgMbx 0x024 (fun s => s.mbxAct r false 1 2 d))

/-- MBX_DONE (R267). -/
def execMbxDone (r : Req) (d : Word) (s : State) : Res :=
  .next (s.start.access r pgMbx 0x028 (fun s => s.mbxAct r false 2 3 d))

/-- MBX_FREE (R267). -/
def execMbxFree (r : Req) (d : Word) (s : State) : Res :=
  .next (s.start.access r pgMbx 0x02C (fun s => s.mbxAct r true 3 0 d))

/-- MBX_CANCEL (R267). -/
def execMbxCancel (r : Req) (d : Word) (s : State) : Res :=
  .next (s.start.access r pgMbx 0x030 (fun s => s.mbxAct r true 1 0 d))

/-- The 64 bytes of slot `k`. -/
def State.mbxBytes (s : State) (k : Nat) : List Byte :=
  ((List.range 16).map (fun i => toBytes 4 (s.rd pgMbx (mbxWord (16 * k + i))))).flatten

/-- Put 64 bytes into slot `k`. -/
def State.setMbxBytes (s : State) (k : Nat) (bs : List Byte) : State :=
  (List.range 16).foldl (fun t i => t.wr pgMbx (mbxWord (16 * k + i)) (ofBytes ((bs.drop (4 * i)).take 4))) s

/-- A message of the mailbox (R268). -/
def mbxMsg (op status tag : Nat) (payload : List Byte) : List Byte :=
  toBytes 2 op ++ toBytes 2 payload.length ++ toBytes 2 status ++ toBytes 2 tag
    ++ (payload ++ List.replicate (56 - payload.length) 0)

/-- The op of slot `k`. -/
def State.mbxOp (s : State) (k : Nat) : Nat := s.rd pgMbx (mbxWord (16 * k)) % 65536

/-- The payload length that slot `k` states. -/
def State.mbxLen (s : State) (k : Nat) : Nat := s.rd pgMbx (mbxWord (16 * k)) / 65536

/-- The tag of slot `k`. -/
def State.mbxTag (s : State) (k : Nat) : Nat := s.rd pgMbx (mbxWord (16 * k + 1)) / 65536

/-- Chrysalis, running its firmware, takes the request in slot `k` and has the op `op`. -/
def State.mbxServed (s : State) (k op : Nat) : Bool :=
  s.domOn 2 && s.chr == 2 && s.mbxState k == 1 && s.mbxOp k == op

/-- Chrysalis answers the request in slot `k`: the slot is DONE with the status and the payload. -/
def State.mbxAnswer (s : State) (k status : Nat) (payload : List Byte) : State :=
  (s.setMbxBytes k (mbxMsg (s.mbxOp k) status (s.mbxTag k) payload)).setMbx k 3

/-- MBX_TIMEOUT (R269): request slot `k` has been TAKEN longer than tmo_ms. -/
def execMbxTimeout (k : Fin 12) (s : State) : Res :=
  let s := s.start
  let k := k.val
  if s.mbxState k = 2 ∧ s.rdB pgMbx R.MBX_CFG_tmo_ms ∧ s.domOn 2 then
    let t := s.wr pgMbx (mbxWord (16 * k + 1)) (65536 * s.mbxTag k + 6)
    .next ((t.setMbx k 3).raise pgMbx 65536)
  else .next s

/-- MBX_PING (R268): the payload is echoed; a length above 56 ends with BAD_LEN. -/
def execMbxPing (k : Fin 12) (s : State) : Res :=
  let s := s.start
  let k := k.val
  .next (
    if !s.mbxServed k 0x0001 then s
    else if 56 < s.mbxLen k then s.mbxAnswer k 2 []
    else s.mbxAnswer k 0 (((s.mbxBytes k).drop 8).take (s.mbxLen k)))

/-- MBX_VERSION (R268). DEDUCED, log entry 83. -/
def execMbxVersion (k : Fin 12) (s : State) : Res :=
  let s := s.start
  let k := k.val
  .next (
    if !s.mbxServed k 0x0002 then s
    else s.mbxAnswer k 0 (toBytes 4 (Config.chrVersion (s.fwVer)).toNat ++ toBytes 4 Config.romVersion.toNat))

end Sys2Proof.Machine
end

