-- ==== Sys2Proof/Machine/Functions.lean ====
section
/-! DEFINITION. Host functions: states, quotas, step ranges, the drain, queue pairs, doorbells, completions, live moves and
delivery (14_host_functions.md, R314 to R338). -/
namespace Sys2Proof.Machine

/-! ### States of a function (R319) -/

/-- The state of function `f`: 0 DISABLED, 1 ENABLED, 2 DRAINING. -/
def State.fnState (s : State) (f : Nat) : Nat := s.rd (iFn f) R.FNC_FN_STAT_state

/-- The host that holds function `f` (R340): 0 is the PCIe root. -/
def State.hostOf (s : State) (f : Nat) : Nat :=
  if f = 0 then s.rd pgFnc R.FNC_CFG_pf_host else s.rd (iFn f) R.FNC_FN_CTRL_host

/-- Whether function `f` meets the conditions of ENABLED (R319). -/
def State.fnQualifies (s : State) (f : Nat) : Bool :=
  s.rdB (iFn f) R.FNC_FN_CTRL_enable &&
    (if s.hostOf f = 0 then f == 0 || (s.pcie.vfEn && decide (f ≤ s.pcie.numVfs) && s.pcie.master.contains f)
     else s.sesOpen.contains (s.hostOf f))

/-- A DISABLED function that meets the conditions becomes ENABLED. DEDUCED, log entry 86. -/
def State.fnUpdate (s : State) (f : Nat) : State :=
  if s.fnState f = 0 ∧ s.fnQualifies f then
    { s.wr (iFn f) R.FNC_FN_STAT_state 1 with noDma := s.noDma.filter (· != f) }
  else s

/-- The same for every function of a list. -/
def State.fnUpdates (s : State) (l : List Nat) : State := l.foldl (fun t f => t.fnUpdate f) s

/-! ### Queue pairs -/

/-- Pair `q` of function `f`. -/
def State.qp (s : State) (f q : Nat) : QPair := s.pairs.get {} (f * 1024 + q)

/-- Replace pair `q` of function `f`. -/
def State.setQp (s : State) (f q : Nat) (x : QPair) : State := { s with pairs := s.pairs.set (f * 1024 + q) x }

/-- The pairs of function `f` that are enabled, in order. -/
def State.enPairs (s : State) (f : Nat) : List Nat :=
  (s.pairs.filter (fun e => e.1 / 1024 == f && e.2.en)).map (fun e => e.1 % 1024)

/-- Whether the completion ring has no room (R325). DEDUCED, log entry 87. -/
def QPair.full (x : QPair) : Bool := (x.cqTail + 1) % 2 ^ x.cqLog == x.cqHead

/-- The transfer window of session function `f` (R339). -/
def State.window (s : State) (f : Nat) : Mem := s.windows.get [] f

/-- A write to host memory of function `f`: by DMA, into the transfer window of a session, or dropped and counted (R337, R339). -/
def State.hostWrite (s : State) (f a : Nat) (bs : List Byte) : State :=
  if s.noDma.contains f then s.bump (iFn f) R.FNC_FN_DROP_count 1
  else if s.hostOf f = 0 then s.emit (.dma f a bs)
  else { s with windows := s.windows.set f ((s.window f).writeBytes a bs) }

/-- A completion entry (R327). -/
def cqEntry (result aux sqHead status : Nat) (phase : Bool) (cid qp : Nat) : List Byte :=
  toBytes 4 result ++ toBytes 4 aux ++ toBytes 2 sqHead ++ toBytes 1 status ++ toBytes 1 (b2n phase) ++ toBytes 2 cid
    ++ toBytes 2 qp

/-- Whether the completion ring has no room for an ITEM completion: that of a running command keeps its entry (R325).
DEDUCED, log entry 87. -/
def QPair.itemFull (x : QPair) : Bool := x.full || (x.busy && (x.cqTail + 2) % 2 ^ x.cqLog == x.cqHead)

/-- Pair `q` of function `f` writes a completion and signals its vector (R325, R327); a session host gets it as a COMPLETE
message. An ITEM completion (R328) leaves a running command running. DEDUCED, log entry 87. -/
def State.complete (s : State) (f q result aux status cid : Nat) : State :=
  let x := s.qp f q
  if s.noDma.contains f || x.full || !x.en then s.bump (iFn f) R.FNC_FN_DROP_count 1
  else
    let e := cqEntry result aux x.sqHead status x.phase cid q
    let tail := (x.cqTail + 1) % 2 ^ x.cqLog
    let t := s.hostWrite f (x.cqBase + 16 * x.cqTail) e
    let t := if s.hostOf f = 0 then t else t.emit (.ses f 0x05 e)
    let busy := x.busy && status == 0x0D
    (t.setQp f q { x with cqTail := tail, phase := if tail = 0 then !x.phase else x.phase, busy := busy }).msix f x.vec

/-! Completion status codes (R328). -/
namespace Cq
def success : Nat := 0x00
def badOpcode : Nat := 0x01
def badField : Nat := 0x02
def notOwner : Nat := 0x03
def notPf : Nat := 0x04
def dmaError : Nat := 0x05
def malformed : Nat := 0x06
def quota : Nat := 0x07
def busy : Nat := 0x08
def pageState : Nat := 0x09
def domainOff : Nat := 0x0A
def functionGone : Nat := 0x0B
def aborted : Nat := 0x0C
def item : Nat := 0x0D
end Cq

/-! ### The drain of a function (R334 to R337) -/

/-- The channels that function `f` holds: pages in normal ownership that name it. -/
def State.fnChans (s : State) (f : Nat) : List Nat :=
  (List.range 512).filter (fun c => s.rd (pgChn c) R.OWNER_world == 0 && s.rd (pgChn c) R.OWNER_function == f)

/-- Moves from or to function `f` that have not reached step 2 end with FUNCTION_GONE (R334). -/
def State.movesGone (s : State) (f : Nat) : State :=
  let gone := s.moves.filter (fun m => m.sf.isNone && (m.src == f || m.dst == f))
  let t := { s with moves := s.moves.filter (fun m => m.sf.isSome || (m.src != f && m.dst != f)) }
  gone.foldl (fun t m => t.complete (m.qp / 1024) (m.qp % 1024) 0 0 Cq.functionGone m.cid) t

/-- Function `f` enters DRAINING (R335 step 1, R336); `dead` tells that it can no longer write (R337). -/
def State.fnDrain (s : State) (f : Nat) (dead : Bool) : State :=
  let s := if dead && s.fnState f != 0 && !s.noDma.contains f then { s with noDma := f :: s.noDma } else s
  if s.fnState f ≠ 1 then s
  else
    let t := s.wr (iFn f) R.FNC_FN_STAT_state 2
    let t := if s.rdB (iFn f) R.FNC_FN_CTRL_stop_on_detach then
        ((s.fnChans f).filter (fun c => s.armed c)).foldl (fun t c => t.modCh c (fun x => { x with detach := some s.w })) t
      else t
    (t.fnEvent f 0x20).movesGone f

/-- The drain of every function of a list, none of which can write any more. -/
def State.fnDrains (s : State) (l : List Nat) : State := l.foldl (fun t f => t.fnDrain f true) s

/-- The functions that are not DISABLED and belong to host `n`. -/
def State.fnsOf (s : State) (n : Nat) : List Nat :=
  (List.range 512).filter (fun f => s.fnState f != 0 && s.hostOf f == n)

/-- Entries of pair `q` that were submitted and not started complete with `status`; `cids` are their identifiers in ring
order, pair after pair, free values where they end. What remains of `cids` is handed on. -/
def State.pairGone (s : State) (f q status : Nat) (cids : List Nat) : Nat → State × List Nat
  | 0 => (s, cids)
  | n + 1 =>
    let y := State.pairGone s f q status cids n
    let x := y.1.qp f q
    let t := y.1.setQp f q { x with sqHead := (x.sqHead + 1) % 2 ^ x.sqLog }
    (t.freeNext.complete f q 0 0 status (y.2.headD (t.freeVal % 2 ^ 16)), y.2.tail)

/-- How many entries of a pair wait. -/
def QPair.waiting (x : QPair) : Nat := (x.sqTail + 2 ^ x.sqLog - x.sqHead) % 2 ^ x.sqLog

/-- The bindings that `p` holds of are removed. -/
def State.unbind (s : State) (p : Bind → Bool) : State :=
  { s with queues := s.queues.map (fun e => (e.1, match e.2.bind with
      | some b => if p b then { e.2 with bind := none } else e.2
      | none => e.2)) }

/-- Step 4 of R335: the channels of function `f` pass to PF0 and its map is cleared. -/
def State.chansToPf (s : State) (f : Nat) : State :=
  let t := (s.fnChans f).foldl (fun t c => (t.wr (pgChn c) R.OWNER_function 0).redeliver (pgChn c)) s
  { t with chMap := t.chMap.drop (fun k => k / 512 == f) }

/-- Step 5 of R335: the pool queues of function `f` pass to PF0. -/
def State.queuesToPf (s : State) (f : Nat) : State :=
  (List.range 4096).foldl (fun t q =>
    if t.rd (iQue q) R.QPM_Q_OWN_function = f then t.wr (iQue q) R.QPM_Q_OWN_function 0 else t) s

/-- Step 6 of R335: quotas return to the pool and function `f` is DISABLED. -/
def State.quotasBack (s : State) (f : Nat) : State :=
  let qp := s.rd (iFn f) R.FNC_FN_QUOTA_qp_quota
  let v := s.rd (iFn f) R.FNC_FN_QUOTA_vec_quota
  let t := s.wr pgFnc R.FNC_POOL_qp_free (s.rd pgFnc R.FNC_POOL_qp_free + qp)
  let t := t.wr pgFnc R.FNC_POOL_vec_free (s.rd pgFnc R.FNC_POOL_vec_free + v)
  let t := (t.wr (iFn f) R.FNC_FN_QUOTA_qp_quota 0).wr (iFn f) R.FNC_FN_QUOTA_vec_quota 0
  ({ t with noDma := t.noDma.filter (· != f) }.wr (iFn f) R.FNC_FN_STAT_state 0).raise pgFnc 1

/-- FN_DRAIN_DONE (R335 steps 2 to 6): `cids` are the identifiers of the entries that never started. -/
def execFnDrainDone (f : Fin 512) (cids : List Nat) (s : State) : Res :=
  let s := s.start
  let f := f.val
  if s.fnState f ≠ 2 then .next s
  else
    let x := (s.enPairs f).foldl
      (fun (a : State × List Nat) q => State.pairGone a.1 f q Cq.functionGone a.2 (a.1.qp f q).waiting) (s, cids)
    let t := x.1.chansToPf f
    let t := (t.unbind (fun b => b.fn == f)).queuesToPf f
    let t := { t with pairs := t.pairs.drop (fun k => k / 1024 == f) }
    .next (t.quotasBack f)

/-- FLR (R335, R337): a function-level reset; one of PF0 clears VF Enable too (R314). -/
def execFlr (f : Fin 512) (s : State) : Res :=
  let s := s.start
  let f := f.val
  let t := s.raise pgFnc 4
  let t := { t with pcie := { t.pcie with master := t.pcie.master.filter (· != f) } }
  let t := if t.hostOf f = 0 then t.fnDrain f true else t
  .next (if f = 0 then { t with pcie := {} }.fnDrains ((t.fnsOf 0).filter (· != 0)) else t)

/-- VF_ENABLE_CLEAR (R335): every PCIe VF drains. -/
def execVfEnableClear (s : State) : Res :=
  let s := s.start
  .next ({ s with pcie := { s.pcie with vfEn := false } }.fnDrains ((s.fnsOf 0).filter (· != 0)))

/-- BUS_MASTER_CLEAR (R335). -/
def execBusMasterClear (f : Fin 512) (s : State) : Res :=
  let s := s.start
  let t := { s with pcie := { s.pcie with master := s.pcie.master.filter (· != f.val) } }
  .next (if t.hostOf f.val = 0 then t.fnDrain f.val true else t)

/-- VF_ENABLE_SET (R319): VF Enable with NumVFs `n`, or Bus Master Enable of function `n`. -/
def execVfEnableSet (vf : Bool) (n : Fin 512) (s : State) : Res :=
  let s := s.start
  let p := if vf then { s.pcie with vfEn := true, numVfs := n.val }
    else { s.pcie with master := if s.pcie.master.contains n.val then s.pcie.master else n.val :: s.pcie.master }
  .next ({ s with pcie := p }.fnUpdates (List.range 512))

/-- PCIE_RESET (R314): the endpoint's configuration space is reset, and with it every function of the PCIe root drains.
DEDUCED, log entry 86. -/
def execPcieReset (s : State) : Res :=
  let s := s.start
  .next ({ s with pcie := {} }.fnDrains (s.fnsOf 0))

/-- The function that FNC_SEL names. -/
def State.fnSel (s : State) : Nat := s.rd pgFnc R.FNC_SEL_function

/-- A write of FNC_FN_CTRL (R319, R335, R340). -/
def State.fnCtrl (s : State) (d : Word) : State :=
  let f := s.fnSel
  let i := iFn f
  let t := if s.fnState f = 0 then s.wr i R.FNC_FN_CTRL_host (R.FNC_FN_CTRL_host.of d) else s
  let t := t.wr i R.FNC_FN_CTRL_stop_on_detach (R.FNC_FN_CTRL_stop_on_detach.of d)
  let t := t.wr i R.FNC_FN_CTRL_enable (R.FNC_FN_CTRL_enable.of d)
  if bitOf d.toNat 0 then t.fnUpdate f else t.fnDrain f false

/-- FN_DISABLE (R335). -/
def execFnDisable (r : Req) (d : Word) (s : State) : Res :=
  .next (s.start.access r pgFnc 0x028 (fun s => s.fnCtrl (d &&& 0xFFFFFFFE#32)))

/-- A write of FNC_FN_QUOTA (R320). -/
def State.quotaWrite (s : State) (d : Word) : State :=
  let f := s.fnSel
  let i := iFn f
  let qp := R.FNC_FN_QUOTA_qp_quota.of d
  let v := R.FNC_FN_QUOTA_vec_quota.of d
  let qpT := s.rd pgFnc R.FNC_POOL_qp_free + s.rd i R.FNC_FN_QUOTA_qp_quota
  let vT := s.rd pgFnc R.FNC_POOL_vec_free + s.rd i R.FNC_FN_QUOTA_vec_quota
  if s.fnState f ≠ 0 ∨ qpT < qp ∨ vT < v ∨ 1024 < qp ∨ 64 < v then s.raise pgFnc 16
  else
    let t := (s.wr i R.FNC_FN_QUOTA_qp_quota qp).wr i R.FNC_FN_QUOTA_vec_quota v
    (t.wr pgFnc R.FNC_POOL_qp_free (qpT - qp)).wr pgFnc R.FNC_POOL_vec_free (vT - v)

/-- QUOTA_WRITE (R320). -/
def execQuotaWrite (r : Req) (d : Word) (s : State) : Res := .next (s.start.access r pgFnc 0x030 (fun s => s.quotaWrite d))

/-- Whether a step range of function `f` is refused: it reaches below the step watermark or overlaps the range of another
function that is not DISABLED (R321). DEDUCED, log entry 19. -/
def State.rangeBad (s : State) (f base cnt : Nat) : Bool :=
  cnt != 0 && (decide (base < s.rd pgSec R.SEC_WM_STEP_units)
    || (List.range 512).any (fun g => g != f && s.fnState g != 0
        && overlaps (base, base + cnt)
          (s.rd (iFn g) R.FNC_FN_STEP_BASE_base, s.rd (iFn g) R.FNC_FN_STEP_BASE_base + s.rd (iFn g) R.FNC_FN_STEP_CNT_count)))

/-- A write of FNC_FN_STEP_BASE or FNC_FN_STEP_CNT (R321). -/
def State.rangeWrite (s : State) (cnt : Bool) (d : Word) : State :=
  let f := s.fnSel
  let i := iFn f
  if cnt then
    let n := R.FNC_FN_STEP_CNT_count.of d
    if s.rangeBad f (s.rd i R.FNC_FN_STEP_BASE_base) n then s else s.wr i R.FNC_FN_STEP_CNT_count n
  else
    let n := R.FNC_FN_STEP_BASE_base.of d
    if s.rangeBad f n (s.rd i R.FNC_FN_STEP_CNT_count) then s else s.wr i R.FNC_FN_STEP_BASE_base n

/-- STEP_RANGE_WRITE (R321). -/
def execStepRangeWrite (r : Req) (cnt : Bool) (d : Word) (s : State) : Res :=
  .next (s.start.access r pgFnc (if cnt then 0x038 else 0x034) (fun s => s.rangeWrite cnt d))

/-- Whether step `n` lies in the range of function `f`. -/
def State.inRange (s : State) (f n : Nat) : Bool :=
  let b := s.rd (iFn f) R.FNC_FN_STEP_BASE_base
  decide (b ≤ n) && decide (n < b + s.rd (iFn f) R.FNC_FN_STEP_CNT_count)

/-! ### BARs (R316 to R318) -/

/-- The channel that slot `n` of function `f` names (R322). -/
def State.slotChan (s : State) (f n : Nat) : Option Nat :=
  let v := s.chMap.get 0 (f * 512 + n)
  if v ≠ 0 ∧ s.rd (pgChn (v - 1)) R.OWNER_world = 0 ∧ s.rd (pgChn (v - 1)) R.OWNER_function = f then some (v - 1) else none

/-- The 128 bytes of mirror entry `n` of function `f`: zero for an empty slot. -/
def State.mirrorBytes (s : State) (f n : Nat) : List Byte :=
  match s.slotChan f n with
  | none => List.replicate 128 0
  | some c =>
    let e := s.mirror.get [] c
    e ++ List.replicate (128 - e.length) 0

/-- BAR2_READ (R317): `n` bytes at offset `o` of entry `e`, aligned and within the entry. DEDUCED, log entry 90. -/
def execBar2Read (f : Fin 512) (e : Fin 512) (o n : Fin 129) (s : State) : Res :=
  let s := s.start
  let ok := s.domOn 0 && f.val != 0 && s.hostOf f.val == 0 && s.fnState f.val != 0
    && decide (1 ≤ n.val ∧ n.val ≤ 64 ∧ o.val % n.val = 0 ∧ o.val + n.val ≤ 128)
  if ok then .next (s.answer (ofBytes (((s.mirrorBytes f.val e.val).drop o.val).take n.val)))
  else .next { s with rsp := { data := 0, err := true, cause := 1 } }

/-- BAR2_WRITE (R317). -/
def execBar2Write (f : Fin 512) (s : State) : Res := .next (s.start.fnEvent f.val 0x40)

/-- POISONED_WRITE (R316). -/
def execPoisonedWrite (f : Fin 512) (s : State) : Res := .next (s.start.fnEvent f.val 0x80)

/-! ### Function registers -/

/-- A write of requester `r` to a function register at offset `off`: `k` gets the function whose registers are reached. A VF
and a session function reach their own; everyone else reaches those of PF0 through the FNC page. -/
def State.fnAccess (s : State) (r : Req) (off : Nat) (k : State → Nat → State) : State :=
  let own := fun (host f : Nat) =>
    if f = 0 then s.access r pgFnc off (fun t => k t 0)
    else if !s.domOn 0 then s.accErr r (pageAddr pgFnc off) true 2
    else if s.hostOf f ≠ host ∨ s.fnState f = 0 then s.accErr r (pageAddr pgFnc off) true 0
    else k s f
  match r with
  | .fn f => own 0 f.val
  | .session n f => own n.val f.val
  | _ => s.access r pgFnc off (fun t => k t 0)

/-- The pair that FNC_F_Q_SEL of function `f` names. -/
def State.qpSel (s : State) (f : Nat) : Nat := s.rd (iFn f) R.FNC_F_Q_SEL_qp

/-- Pair `q` of function `f` is aborted (R323): entries not started, and a running command, complete with ABORTED. -/
def State.qpAbort (s : State) (f q : Nat) (cids : List Nat) : State :=
  let run := s.moves.filter (fun m => m.sf.isNone && m.qp == f * 1024 + q)
  let t := { s with moves := s.moves.filter (fun m => !(m.sf.isNone && m.qp == f * 1024 + q)) }
  let t := run.foldl (fun t m => t.complete f q 0 0 Cq.aborted m.cid) t
  let t := (State.pairGone t f q Cq.aborted cids (t.qp f q).waiting).1
  let t := t.unbind (fun b => b.fn == f && b.qp == q)
  t.setQp f q { t.qp f q with en := false }

/-- A write of FNC_F_Q_CTRL of function `f` (R323). -/
def State.qpCtrl (s : State) (f : Nat) (d : Word) (cids : List Nat) : State :=
  let q := s.qpSel f
  let x := s.qp f q
  let sq := R.FNC_F_Q_CTRL_sq_log.of d
  let cq := R.FNC_F_Q_CTRL_cq_log.of d
  let v := R.FNC_F_Q_CTRL_vector.of d
  let en := bitOf d.toNat 31
  if x.en then (if en then s else s.qpAbort f q cids)
  else if !en then s.setQp f q { x with sqLog := sq, cqLog := cq, vec := v }
  else if s.rd (iFn f) R.FNC_FN_QUOTA_qp_quota ≤ q ∨ s.rd (iFn f) R.FNC_FN_QUOTA_vec_quota ≤ v
      ∨ sq < 4 ∨ 12 < sq ∨ cq < 4 ∨ 12 < cq then
    s.setQp f q { x with sqLog := sq, cqLog := cq, vec := v, cfgErr := true }
  else
    s.setQp f q { x with
      en := true, sqLog := sq, cqLog := cq, vec := v, sqHead := 0, sqTail := 0, cqHead := 0, cqTail := 0
      phase := true, busy := false }

/-- Q_ENABLE (R323). -/
def execQEnable (r : Req) (d : Word) (s : State) : Res :=
  .next (s.start.fnAccess r 0x410 (fun s f => s.qpCtrl f (d ||| BitVec.ofNat 32 (2 ^ 31)) []))

/-- Q_DISABLE (R323): `cids` are the identifiers of the entries that never started. -/
def execQDisable (r : Req) (d : Word) (cids : List Nat) (s : State) : Res :=
  .next (s.start.fnAccess r 0x410 (fun s f => s.qpCtrl f (d &&& 0x7FFFFFFF#32) cids))

/-! ### Doorbells (R324) -/

/-- A doorbell is ignored and counted. -/
def State.dbIgnore (s : State) (f : Nat) : State := (s.bump (iFn f) R.FNC_F_DB_IGN_count 1).fnEvent f 2

/-- The queue whose binding pair `q` of function `f` has. -/
def State.boundQueue (s : State) (f q : Nat) : Option (Nat × Bind) :=
  s.queues.findSome? (fun e => match e.2.bind with
    | some b => if b.fn = f ∧ b.qp = q then some (e.1, b) else none
    | none => none)

/-- A write of FNC_F_DB of function `f`. -/
def State.doorbell (s : State) (f : Nat) (d : Word) : State :=
  let kind := bitsOf d.toNat 30 2
  let q := bitsOf d.toNat 16 10
  let v := d.toNat % 65536
  let x := s.qp f q
  if s.fnState f ≠ 1 ∨ !x.en then s.dbIgnore f
  else if kind = 0 then
    if 2 ^ x.sqLog ≤ v then s.dbIgnore f else s.setQp f q { x with sqTail := v }
  else if kind = 1 then
    if 2 ^ x.cqLog ≤ v then s.dbIgnore f else s.setQp f q { x with cqHead := v }
  else if kind = 2 then
    match s.boundQueue f q with
    | none => s.dbIgnore f
    | some (n, b) =>
      if b.slots ≤ v then s.dbIgnore f
      else s.setQueue n { s.queue n with bind := some { b with used := (b.tail + b.slots - v) % b.slots } }
  else s.dbIgnore f

/-- FNC_F_DB with a kind. -/
def State.dbKind (s : State) (r : Req) (kind : Nat) (d : Word) : State :=
  s.fnAccess r 0x408 (fun s f => s.doorbell f ((d &&& 0x3FFFFFFF#32) ||| BitVec.ofNat 32 (kind * 2 ^ 30)))

/-- DB_SQ_TAIL (R324). -/
def execDbSqTail (r : Req) (d : Word) (s : State) : Res := .next (s.start.dbKind r 0 d)
/-- DB_CQ_HEAD (R324). -/
def execDbCqHead (r : Req) (d : Word) (s : State) : Res := .next (s.start.dbKind r 1 d)
/-- DB_DELIVERY_HEAD (R324). -/
def execDbDeliveryHead (r : Req) (d : Word) (s : State) : Res := .next (s.start.dbKind r 2 d)

/-! ### Submission entries (R326, R329) -/

/-- A submission entry. -/
structure Cmd where
  op   : Nat
  fl   : Nat
  cid  : Nat
  tgt  : Nat
  addr : Nat
  len  : Nat
  sfc  : Nat
  rsv  : Nat
  p    : List Nat
  deriving DecidableEq, Repr

/-- The entry of 64 bytes. -/
def cmdOf (e : List Byte) : Cmd :=
  let n := fun o k => ofBytes ((e.drop o).take k)
  { op := n 0 1, fl := n 1 1, cid := n 2 2, tgt := n 4 4, addr := n 8 8, len := n 0x10 4, sfc := n 0x14 2, rsv := n 0x16 2
    p := (List.range 10).map (fun i => n (0x18 + 4 * i) 4) }

/-- What a command answers: result, aux and status. -/
structure Ans where
  result : Nat := 0
  aux    : Nat := 0
  status : Nat := 0
  deriving DecidableEq, Repr

/-- The channel that a slot names for function `f`: a global number for PF0 (R322, R329). -/
def State.heldChan (s : State) (f n : Nat) : Option Nat :=
  if f = 0 then (if n < 512 ∧ s.rd (pgChn n) R.OWNER_world = 0 then some n else none)
  else if n < 512 then s.slotChan f n else none

/-- How many slots of function `f` are in use; for PF0, the channels that it owns. -/
def State.slotsUsed (s : State) (f : Nat) : Nat :=
  if f = 0 then (s.fnChans 0).length else ((List.range 512).filter (fun n => (s.slotChan f n).isSome)).length

/-- The bytes that a DMA read brings: what the host answered, or the session's window. A short list tells that the read failed
after those bytes. -/
def State.dmaRead (s : State) (f a n : Nat) (data : List Byte) : List Byte :=
  if s.hostOf f = 0 then data.take n
  else if a + n ≤ 0x1000000 then (s.window f).readBytes a n else []

/-- A DMA read that failed. -/
def State.dmaFail (s : State) (f n : Nat) : State × Ans := (s.fnEvent f 4, { aux := n, status := Cq.dmaError })

/-- IDENTIFY (R329). -/
def State.cmdIdentify (s : State) (f : Nat) (c : Cmd) : State × Ans :=
  if c.len ≠ 4096 then (s, { status := Cq.badField })
  else
    let i := iFn f
    let b := toBytes 2 f ++ toBytes 1 (s.hostOf f) ++ toBytes 1 (s.fnState f)
      ++ toBytes 2 (s.rd i R.FNC_FN_QUOTA_qp_quota) ++ toBytes 2 (s.rd i R.FNC_FN_QUOTA_vec_quota)
      ++ toBytes 2 (s.rd i R.FNC_FN_STEP_BASE_base) ++ toBytes 2 (s.rd i R.FNC_FN_STEP_CNT_count)
      ++ toBytes 2 (s.slotsUsed f) ++ toBytes 2 Config.pciVendor.toNat ++ toBytes 16 Config.deviceUid.toNat
      ++ toBytes 4 s.fwVer ++ toBytes 2 s.len
    (s.hostWrite f c.addr (b ++ List.replicate (4096 - b.length) 0), { aux := 4096 })

/-- MAP_READ (R329). -/
def State.cmdMapRead (s : State) (f : Nat) (c : Cmd) : State × Ans :=
  if c.len ≠ 1024 then (s, { status := Cq.badField })
  else
    let e := fun n =>
      if f = 0 then (if s.rd (pgChn n) R.OWNER_world = 0 ∧ s.rd (pgChn n) R.OWNER_function = 0 then n else 0xFFFF)
      else (s.slotChan f n).getD 0xFFFF
    (s.hostWrite f c.addr ((List.range 512).map (fun n => toBytes 2 (e n))).flatten,
      { result := s.slotsUsed f, aux := 1024 })

/-- Whether a 64-bit slot keeps R10 for word `w` of a step. -/
def slotOk (w v : Nat) : Bool :=
  if wordSigned w then v / 2 ^ 35 == 0 || v / 2 ^ 35 == 2 ^ 29 - 1 else v / 2 ^ 36 == 0

/-- STEP_WRITE_MALFORMED (R143): the refused write of word `w` of step `n` is recorded. -/
def State.stepMalformed (s : State) (n w world fn : Nat) : State :=
  let t := (s.wr pgStp R.STP_WR_ERR_step n).wr pgStp R.STP_WR_ERR_word w
  let t := (t.wr pgStp R.STP_WR_ERR_world world).wr pgStp R.STP_WR_ERR_function fn
  t.raise pgStp 1

/-- A step word is written, or refused where its slot breaks R10 (R143). -/
def State.stepWrite (s : State) (n w v world fn : Nat) : State :=
  if slotOk w v then s.setStepWord n w v else s.stepMalformed n w world fn

/-- The step fields of an image that its opcode and conditions use (R145, R148, R150). -/
def stepUses (m : List Nat) : List Nat :=
  let next := bitsOf (imgW m 0) 0 14
  let alt := bitsOf (imgW m 1) 0 14
  let act := fun a => (List.range 4).any (fun n => ctlSel (condCtl m n) != 0 && a (ctlAct (condCtl m n)))
  let op := imgOp m
  if op = 2 then [next, alt]
  else if op = 3 ∨ op = 4 then [next]
  else if op = 1 then (if act (fun a => a == 0 || a == 2) then [next] else []) ++ (if act (fun a => a == 1) then [alt] else [])
  else []

/-- The words of step image `i` of the data, as 64-bit slots. -/
def slotsOf (data : List Byte) (i : Nat) : List Nat :=
  (List.range 12).map (fun w => ofBytes ((data.drop (96 * i + 8 * w)).take 8))

/-- STEP_WRITE's steps from `i` on, `n` of them (R330). DEDUCED, log entry 88. -/
def State.stepWrites (s : State) (f first : Nat) (data : List Byte) (i : Nat) : Nat → State × Ans
  | 0 => (s, { result := i, aux := 96 * i })
  | n + 1 =>
    let m := slotsOf data i
    let step := first + i
    match (List.range 12).find? (fun w => !slotOk w (m.getD w 0)) with
    | some w =>
      let t := (List.range w).foldl (fun t w => t.setStepWord step w (m.getD w 0)) s
      (t.stepMalformed step w 0 f, { result := step, aux := 96 * i, status := Cq.malformed })
    | none =>
      if (stepUses (m.map (· % 2 ^ 36))).all (s.inRange f) then
        let t := (List.range 12).foldl (fun t w => t.setStepWord step w (m.getD w 0)) s
        t.stepWrites f first data (i + 1) n
      else (s, { result := step, aux := 96 * i, status := Cq.badField })

/-- STEP_WRITE (R330). DEDUCED, log entry 88. -/
def State.cmdStepWrite (s : State) (f : Nat) (c : Cmd) (data : List Byte) : State × Ans :=
  let n := c.len / 96
  if c.len % 96 ≠ 0 ∨ n = 0 then (s, { status := Cq.badField })
  else if !(s.inRange f c.tgt && s.inRange f (c.tgt + n - 1)) then (s, { status := Cq.notOwner })
  else
    let d := s.dmaRead f c.addr c.len data
    if d.length < c.len then
      let x := s.stepWrites f c.tgt d 0 (d.length / 96)
      if x.2.status ≠ 0 then x
      else (x.1.fnEvent f 4, { result := x.2.result, aux := d.length, status := Cq.dmaError })
    else s.stepWrites f c.tgt d 0 n

/-- STEP_READ (R329). -/
def State.cmdStepRead (s : State) (f : Nat) (c : Cmd) : State × Ans :=
  let n := c.len / 96
  if c.len % 96 ≠ 0 ∨ n = 0 then (s, { status := Cq.badField })
  else if !(s.inRange f c.tgt && s.inRange f (c.tgt + n - 1)) then (s, { status := Cq.notOwner })
  else (s.hostWrite f c.addr ((List.range n).map (fun i => imageBytes (s.image (c.tgt + i)))).flatten,
    { result := n, aux := c.len })

/-- A command on a channel slot. -/
def State.onSlot (s : State) (f : Nat) (c : Cmd) (k : Nat → State × Ans) : State × Ans :=
  match s.heldChan f c.tgt with
  | none => (s, { status := Cq.notOwner })
  | some ch => k ch

/-- LOG_MAP (R330): the channel's field of LGR_CHMAPn. -/
def State.cmdLogMap (s : State) (f : Nat) (c : Cmd) : State × Ans :=
  let p := c.p.headD 0
  if 16 ≤ p then (s, { status := Cq.badField })
  else s.onSlot f c (fun ch =>
    let t := (s.wr pgLgr (R.LGR_CHMAP_en (ch / 8) (ch % 8)) (p / 8)).wr pgLgr (R.LGR_CHMAP_profile (ch / 8) (ch % 8)) (p % 8)
    ({ t with logCfg := true }, {}))

/-- GRD_STAGE (R330): cell_id, recipe and host_data. -/
def State.cmdGrdStage (s : State) (f : Nat) (c : Cmd) (data : List Byte) : State × Ans :=
  if c.len ≠ 52 then (s, { status := Cq.badField })
  else s.onSlot f c (fun ch =>
    let d := s.dmaRead f c.addr 52 data
    if d.length < 52 then s.dmaFail f d.length
    else
      let w := fun n => ofBytes ((d.drop (4 * n)).take 4)
      let t := (List.range 4).foldl (fun t n => t.wr (iGrd ch) (R.GRD_CELLID_cell_id n) (w n)) s
      let t := t.wr (iGrd ch) R.GRD_RECIPE_recipe (w 4)
      ((List.range 8).foldl (fun t n => t.wr (iGrd ch) (R.GRD_HOSTDATA_data n) (w (5 + n))) t, { aux := 52 }))

/-- GRD_CTRL (R330). -/
def State.cmdGrdCtrl (s : State) (f : Nat) (c : Cmd) : State × Ans :=
  let p := c.p.headD 0
  if p ≠ 1 ∧ p ≠ 2 ∧ p ≠ 4 then (s, { status := Cq.badField })
  else s.onSlot f c (fun ch => (s.grdCmd ch (p * 2 ^ 29), {}))

/-- The superframe that `at` and `sfc` name, from the superframe whose work starts next. -/
def State.atSf (s : State) (c : Cmd) : Nat :=
  if bitOf c.fl 0 then s.w + (c.sfc % 16384 + 16384 - s.w % 16384) % 16384 else s.w

/-- CHN_BATCH (R330). DEDUCED, log entry 88. -/
def State.cmdBatch (s : State) (f : Nat) (c : Cmd) (data : List Byte) : State × Ans :=
  let p := c.p.headD 0
  let acts := (List.range 5).filter (fun i => bitOf p (27 + i))
  if c.len ≠ 64 ∨ acts.length ≠ 1 ∨ p % 2 ^ 27 ≠ 0 then (s, { status := Cq.badField })
  else
    let d := s.dmaRead f c.addr 64 data
    if d.length < 64 then s.dmaFail f d.length
    else
      let chans := ((bitsIn 512 (ofBytes d)).filterMap (s.heldChan f)).filter
        (fun ch => s.pageOn (pgChn ch) && s.rd (pgChn ch) R.OWNER_handover != 2)
      let w := BitVec.ofNat 32 (p + c.fl % 2 * 2 ^ 24 + c.sfc % 16384)
      (chans.foldl (fun t ch => t.chnCmdWrite ch w) s, { result := chans.length, aux := s.atSf c % 2 ^ 32 })

/-- Q_BIND (R331). DEDUCED, log entry 88. -/
def State.cmdQBind (s : State) (f q : Nat) (c : Cmd) : State × Ans :=
  if c.addr % 4096 ≠ 0 ∨ ((List.range 13).all (fun n => c.len != 2 ^ (n + 4))) then (s, { status := Cq.badField })
  else if 4096 ≤ c.tgt ∨ s.rd (iQue c.tgt) R.QPM_Q_OWN_function ≠ f then (s, { status := Cq.notOwner })
  else if (s.boundQueue f q).isSome || (s.queue c.tgt).bind.isSome then (s, { status := Cq.busy })
  else (s.setQueue c.tgt { s.queue c.tgt with bind := some { fn := f, qp := q, base := c.addr, slots := c.len } }, {})

/-- Q_UNBIND (R331). -/
def State.cmdQUnbind (s : State) (f : Nat) (c : Cmd) : State × Ans :=
  if 4096 ≤ c.tgt ∨ s.rd (iQue c.tgt) R.QPM_Q_OWN_function ≠ f then (s, { status := Cq.notOwner })
  else (s.setQueue c.tgt { s.queue c.tgt with bind := none }, {})

/-! ### Live moves (R332 to R334) -/

/-- The highest vector of function `f` in use, plus one. -/
def State.vecUsed (s : State) (f : Nat) : Nat :=
  let i := iFn f
  let l := (s.enPairs f).map (fun q => (s.qp f q).vec + 1)
    ++ (if s.rdB i R.FNC_F_EVT_VEC_en then [s.rd i R.FNC_F_EVT_VEC_vector + 1] else [])
    ++ (if s.rdB i R.FNC_F_CHN_VEC_en then [s.rd i R.FNC_F_CHN_VEC_vector + 1] else [])
  l.foldl max 0

/-- The answer to a MOVE that does not wait: its checks, and the kinds other than CHANNEL at once. None where a channel move
starts. DEDUCED, log entry 89. -/
def State.moveNow (s : State) (c : Cmd) : Option (State × Ans) :=
  let kind := c.p.getD 0 0
  let a := c.p.getD 1 0
  let b := c.p.getD 2 0
  let n := c.p.getD 3 0
  let bad := fun st => some (s, ({ status := st } : Ans))
  if 512 ≤ a ∨ 512 ≤ b ∨ kind = 0 ∨ 4 < kind then bad Cq.badField
  else if s.fnState a ≠ 1 ∨ s.fnState b ≠ 1 then bad Cq.notOwner
  else if kind = 1 then
    if 512 ≤ c.tgt ∨ 512 ≤ n then bad Cq.badField
    else if s.rd (pgChn c.tgt) R.OWNER_world ≠ 0 ∨ s.rd (pgChn c.tgt) R.OWNER_function ≠ a then bad Cq.notOwner
    else if !s.pageOn (pgChn c.tgt) then bad Cq.domainOff
    else if s.rd (pgChn c.tgt) R.OWNER_handover ≠ 0 then bad Cq.pageState
    else if (b ≠ 0 ∧ (s.slotChan b n).isSome) ∨ s.movingPage (pgChn c.tgt) then bad Cq.busy
    else none
  else if kind = 2 then
    if 4096 ≤ c.tgt ∨ s.rd (iQue c.tgt) R.QPM_Q_OWN_function ≠ a then bad Cq.notOwner
    else if (s.queue c.tgt).bind.isSome then bad Cq.busy
    else some ((s.wr (iQue c.tgt) R.QPM_Q_OWN_function b).raise pgFnc 2, {})
  else
    let fld := if kind = 3 then R.FNC_FN_QUOTA_qp_quota else R.FNC_FN_QUOTA_vec_quota
    let used := if kind = 3 then (s.enPairs a).foldl (fun m q => max m (q + 1)) 0 else s.vecUsed a
    let cap := if kind = 3 then 1024 else 64
    if s.rd (iFn a) fld < used + c.tgt ∨ cap < s.rd (iFn b) fld + c.tgt then bad Cq.quota
    else
      let t := s.wr (iFn a) fld (s.rd (iFn a) fld - c.tgt)
      some ((t.wr (iFn b) fld (t.rd (iFn b) fld + c.tgt)).raise pgFnc 2, {})

/-- MOVE from pair `q` of function `f`: an answer, or a channel move that goes on. DEDUCED, log entry 89. -/
def State.cmdMove (s : State) (f q : Nat) (c : Cmd) : State × Option Ans :=
  if s.hostOf f ≠ s.hostOf 0 then (s, some { status := Cq.notPf })
  else match s.moveNow c with
    | some (t, a) => (t, some a)
    | none =>
      let m : Move :=
        { chan := c.tgt, src := c.p.getD 1 0, dst := c.p.getD 2 0, slot := c.p.getD 3 0
          due := { at_ := bitOf c.fl 0, sfc := c.sfc % 16384, frm := s.k }, qp := f * 1024 + q, cid := c.cid }
      ({ s with moves := s.moves ++ [m] }.setQp f q { s.qp f q with busy := true }, none)

/-! ### Fetching and carrying out (R325) -/

/-- The effect of a command of pair `q` of function `f`; none where it goes on. DEDUCED, log entry 88. -/
def State.cmdRun (s : State) (f q : Nat) (c : Cmd) (data : List Byte) : State × Option Ans :=
  let fin := fun (x : State × Ans) => (x.1, some x.2)
  if c.fl / 2 ≠ 0 ∨ c.rsv ≠ 0 ∨ 16384 ≤ c.sfc then (s, some { status := Cq.badField })
  else if c.op = 0x00 then (s, some {})
  else if c.op = 0x01 then fin (s.cmdIdentify f c)
  else if c.op = 0x02 then fin (s.cmdMapRead f c)
  else if c.op = 0x10 then fin (s.cmdStepWrite f c data)
  else if c.op = 0x11 then fin (s.cmdStepRead f c)
  else if c.op = 0x20 then fin (s.cmdLogMap f c)
  else if c.op = 0x30 then fin (s.cmdGrdStage f c data)
  else if c.op = 0x31 then fin (s.cmdGrdCtrl f c)
  else if c.op = 0x38 then fin (s.cmdBatch f c data)
  else if c.op = 0x40 then fin (s.cmdQBind f q c)
  else if c.op = 0x41 then fin (s.cmdQUnbind f c)
  else if c.op = 0x50 then s.cmdMove f q c
  else (s, some { status := Cq.badOpcode })

/-- The entry at the head of the submission ring: what the host's memory holds, or the session's window. -/
def State.sqEntry (s : State) (f q : Nat) (e : List Byte) : List Byte :=
  let x := s.qp f q
  if s.hostOf f = 0 then e else (s.window f).readBytes (x.sqBase + 64 * x.sqHead) 64

/-- Whether pair `q` of function `f` can fetch: the function ENABLED, an entry, no command running, room for its completion;
a MOVE that does not wait comes after the moves before it (R325, R333). -/
def State.canFetch (s : State) (f q : Nat) (c : Cmd) : Bool :=
  let x := s.qp f q
  s.domOn 0 && s.fnState f == 1 && x.en && !x.busy && x.sqHead != x.sqTail && !x.full
    && !(c.op == 0x50 && c.p.headD 0 != 1 && !s.moves.isEmpty)

/-- Pair `q` of function `f` fetches the entry `e` and carries out its command. -/
def State.fetch (s : State) (f q : Nat) (e data : List Byte) : State :=
  let c := cmdOf (s.sqEntry f q e)
  if !s.canFetch f q c then s
  else
    let x := s.qp f q
    let t := s.setQp f q { x with sqHead := (x.sqHead + 1) % 2 ^ x.sqLog }
    match t.cmdRun f q c data with
    | (u, some a) => u.complete f q a.result a.aux a.status c.cid
    | (u, none) => u

/-- SQ_FETCH (R325): `e` is the entry and `data` what the command's DMA read brings, as the host's memory holds them. -/
def execSqFetch (f : Fin 512) (q : Fin 1024) (e data : List Byte) (s : State) : Res :=
  .next (s.start.fetch f.val q.val e data)

/-- The fetch of an entry whose command is `op`. -/
def State.fetchOp (s : State) (op : Nat) (f q : Nat) (e data : List Byte) : State :=
  if (cmdOf (s.sqEntry f q e)).op = op then s.fetch f q e data else s

/-- CMD_NOP (R329). -/
def execCmdNop (f : Fin 512) (q : Fin 1024) (e : List Byte) (s : State) : Res := .next (s.start.fetchOp 0x00 f.val q.val e [])
/-- CMD_IDENTIFY (R329). -/
def execCmdIdentify (f : Fin 512) (q : Fin 1024) (e : List Byte) (s : State) : Res :=
  .next (s.start.fetchOp 0x01 f.val q.val e [])
/-- CMD_MAP_READ (R329). -/
def execCmdMapRead (f : Fin 512) (q : Fin 1024) (e : List Byte) (s : State) : Res :=
  .next (s.start.fetchOp 0x02 f.val q.val e [])
/-- CMD_STEP_WRITE (R330). -/
def execCmdStepWrite (f : Fin 512) (q : Fin 1024) (e data : List Byte) (s : State) : Res :=
  .next (s.start.fetchOp 0x10 f.val q.val e data)
/-- CMD_STEP_READ (R329). -/
def execCmdStepRead (f : Fin 512) (q : Fin 1024) (e : List Byte) (s : State) : Res :=
  .next (s.start.fetchOp 0x11 f.val q.val e [])
/-- CMD_LOG_MAP (R330). -/
def execCmdLogMap (f : Fin 512) (q : Fin 1024) (e : List Byte) (s : State) : Res :=
  .next (s.start.fetchOp 0x20 f.val q.val e [])
/-- CMD_GRD_STAGE (R330). -/
def execCmdGrdStage (f : Fin 512) (q : Fin 1024) (e data : List Byte) (s : State) : Res :=
  .next (s.start.fetchOp 0x30 f.val q.val e data)
/-- CMD_GRD_CTRL (R330). -/
def execCmdGrdCtrl (f : Fin 512) (q : Fin 1024) (e : List Byte) (s : State) : Res :=
  .next (s.start.fetchOp 0x31 f.val q.val e [])
/-- CMD_CHN_BATCH (R330). -/
def execCmdChnBatch (f : Fin 512) (q : Fin 1024) (e data : List Byte) (s : State) : Res :=
  .next (s.start.fetchOp 0x38 f.val q.val e data)
/-- CMD_Q_BIND (R331). -/
def execCmdQBind (f : Fin 512) (q : Fin 1024) (e : List Byte) (s : State) : Res :=
  .next (s.start.fetchOp 0x40 f.val q.val e [])
/-- CMD_Q_UNBIND (R331). -/
def execCmdQUnbind (f : Fin 512) (q : Fin 1024) (e : List Byte) (s : State) : Res :=
  .next (s.start.fetchOp 0x41 f.val q.val e [])
/-- CMD_MOVE (R332). -/
def execCmdMove (f : Fin 512) (q : Fin 1024) (e : List Byte) (s : State) : Res :=
  .next (s.start.fetchOp 0x50 f.val q.val e [])

/-- Step 2 of a channel move (R333): the page drains and the source's slot is cleared. -/
def State.moveEffect (s : State) : State :=
  match s.moves with
  | [] => s
  | m :: rest =>
    if m.sf.isSome || s.drain.isSome || !m.due.now s.k then s
    else
      let t := s.wr (pgChn m.chan) R.OWNER_handover 2
      { t with
        moves := { m with sf := some s.k } :: rest
        chMap := t.chMap.filter (fun e => !(e.1 / 512 == m.src && e.2 == m.chan + 1)) }

/-- MOVE_TAKES_EFFECT (R333). DEDUCED, log entry 89. -/
def execMoveTakesEffect (s : State) : Res := .next s.start.moveEffect

/-- Steps 4 and 5 of a channel move (R333, R334). -/
def State.moveEnd (s : State) : State :=
  match s.moves with
  | [] => s
  | m :: rest =>
    match m.sf with
    | none => s
    | some k =>
      let gone := s.fnState m.dst = 0
      let t := (s.wr (pgChn m.chan) R.OWNER_function (if gone then 0 else m.dst)).wr (pgChn m.chan) R.OWNER_handover 0
      let t := { t with
        moves := rest
        chMap := if m.dst ≠ 0 ∧ !gone then t.chMap.set (m.dst * 512 + m.slot) (m.chan + 1) else t.chMap }
      let t := ((t.fnEvent m.src 0x10).fnEvent m.dst 0x08).raise pgFnc 2
      (t.redeliver (pgChn m.chan)).complete (m.qp / 1024) (m.qp % 1024) 0 (k % 2 ^ 32) Cq.success m.cid

/-- MOVE_COMPLETE (R333). -/
def execMoveComplete (s : State) : Res := .next s.start.moveEnd

/-! ### Delivery (R331, R348) -/

/-- The delivery slots of an item, from slot `i` on. -/
def itemSlots (q len count : Nat) (bs : List Byte) (i : Nat) : Nat → List (List Byte)
  | 0 => []
  | n + 1 =>
    let d := bs.take 496
    (toBytes 2 q ++ toBytes 2 len ++ toBytes 4 count ++ toBytes 2 (496 * i)
      ++ toBytes 1 (b2n (i == 0) + 2 * b2n (n == 0)) ++ toBytes 5 0 ++ d ++ List.replicate (496 - d.length) 0)
      :: itemSlots q len count (bs.drop 496) (i + 1) n

/-- ITEM_DELIVER (R331): the head item of queue `q` goes into free slots, its completion follows and its cells are freed. -/
def State.deliver (s : State) (q : Nat) : State :=
  let x := s.queue q
  match x.bind, x.items with
  | some b, it :: rest =>
    let need := (it.len + 495) / 496
    if s.fnState b.fn ≠ 1 ∨ (s.qp b.fn b.qp).itemFull ∨ b.slots < b.used + need ∨ !s.domOn 0 ∨ !s.domOn 6 then s
    else
      let sl := itemSlots q it.len b.count (s.itemBytes it) 0 need
      let t := (List.range need).foldl
        (fun t i => t.hostWrite b.fn (b.base + 512 * ((b.tail + i) % b.slots)) (sl.getD i [])) s
      let t := if s.hostOf b.fn = 0 then t else t.emit (.ses b.fn 0x08 sl.flatten)
      let t := t.complete b.fn b.qp b.tail it.len Cq.item 0xFFFF
      let b' := { b with tail := (b.tail + need) % b.slots, used := b.used + need, count := (b.count + 1) % 2 ^ 32 }
      let t := { t with pool := t.pool.free it.cells }
      (t.setQueue q { x with items := rest, bind := some b' }).qCross q
  | _, _ => s

/-- ITEM_DELIVER (R331). -/
def execItemDeliver (q : Fin 4096) (s : State) : Res := .next (s.start.deliver q.val)

end Sys2Proof.Machine
end

