-- ==== Sys2Proof/Machine/Switch.lean ====
section
/-! DEFINITION. The Ethernet switch core with the transparent clock (17_switch_core.md, R371 to R383; 18_network_time.md, R388 to
R393 as far as frames are concerned). -/
namespace Sys2Proof.Machine

/-! ### Blocks and ports -/

/-- Whether the switch core runs. -/
def State.eswOn (s : State) : Bool :=
  s.domOn 5 && !s.clockGated pgEsw && !s.rdB pgEsw R.STAT_reset_busy

/-- Whether the PTP unit runs. -/
def State.ptpOn (s : State) : Bool := s.domOn 5 && !s.rdB pgPtp R.STAT_reset_busy

/-- Whether port `p` is enabled with its link up. DEDUCED, log entry 96. -/
def State.portUp (s : State) (p : Nat) : Bool := s.rdB pgEsw (R.ESW_P_CFG_en p) && s.rdB pgEsw (R.ESW_P_STAT_link p)

/-- The largest frame (R371). -/
def State.maxLen (s : State) : Nat := s.rd pgEsw R.ESW_CFG_max_len

/-- Replace the switch's own state. -/
def State.setEsw (s : State) (x : Esw) : State := { s with esw := x }

/-! ### VLANs and the address table -/

/-- The entry of the VLAN table at reset: VID 1 has all four ports, all untagged (R382). -/
def vlanReset (v : Nat) : Nat := if v = 1 then 15 else 0

/-- The member mask of a VID: 0 and 4095 have no members (R382). -/
def State.vlanMember (s : State) (v : Nat) : Nat :=
  if v = 0 ∨ v = 4095 then 0 else s.fields.get (vlanReset v) (R.ESW_VLAN_DATA_member.key (iVlan v))

/-- The untag mask of a VID. -/
def State.vlanUntag (s : State) (v : Nat) : Nat :=
  if v = 0 ∨ v = 4095 then 0 else s.fields.get (vlanReset v) (R.ESW_VLAN_DATA_untag.key (iVlan v))

/-- An ESW_VLAN_DATA write: it applies at once to the addressed VID (R382). -/
def State.vlanWrite (s : State) (d : Word) : State :=
  let i := iVlan (s.rd pgEsw R.ESW_VLAN_VID_vid)
  (s.wr i R.ESW_VLAN_DATA_untag (R.ESW_VLAN_DATA_untag.of d)).wr i R.ESW_VLAN_DATA_member (R.ESW_VLAN_DATA_member.of d)

/-- The number whose big-endian bytes are the list. -/
def ofBe (bs : List Byte) : Nat := ofBytes bs.reverse

/-- The bucket of a key (R381). -/
def atuBucket (vid mac : Nat) : Nat := crcBytes 16 0x1021 0xFFFF (beBytes 2 vid ++ beBytes 6 mac) % 1024

/-- The entry of a key. -/
def State.atuFind (s : State) (vid mac : Nat) : Option AtuEnt := s.esw.atu.find? (fun e => e.vid == vid && e.mac == mac)

/-- Whether the bucket of a key holds four entries. -/
def State.atuFull (s : State) (vid mac : Nat) : Bool :=
  decide (4 ≤ (s.esw.atu.filter (fun e => atuBucket e.vid e.mac == atuBucket vid mac)).length)

/-- Remove the entry of a key. -/
def State.atuDrop (s : State) (vid mac : Nat) : State :=
  s.setEsw { s.esw with atu := s.esw.atu.filter (fun e => !(e.vid == vid && e.mac == mac)) }

/-- Write an entry in place of the one of its key. -/
def State.atuPut (s : State) (e : AtuEnt) : State :=
  let t := s.atuDrop e.vid e.mac
  t.setEsw { t.esw with atu := t.esw.atu ++ [e] }

/-- Learning from a good frame (R381). DEDUCED, log entry 96. -/
def State.atuLearn (s : State) (vid mac p : Nat) : State :=
  let move := fun (t : State) => t.bump pgEsw R.ESW_MOVES_count 1
  let e : AtuEnt := { vid := vid, mac := mac, stat := false, ports := 2 ^ p }
  match s.atuFind vid mac with
  | some o =>
    if o.stat then (if bitOf o.ports p then s else move s)
    else if bitOf o.ports p then s.atuPut e
    else move (s.atuPut e)
  | none =>
    if s.atuFull vid mac then (s.bump pgEsw R.ESW_LEARN_FULL_count 1).raise pgEsw 0x10
    else s.atuPut e

/-- ESW_ATU_KEY: VID and address. -/
def State.atuKey (s : State) : Nat × Nat :=
  (s.rd pgEsw R.ESW_ATU_KEY_W1_vid, s.rd pgEsw R.ESW_ATU_KEY_W1_mac * 2 ^ 32 + s.rd pgEsw R.ESW_ATU_KEY_W0_mac)

/-- An ESW_ATU_CMD write of an accepted requester. DEDUCED, log entry 100. -/
def State.atuCmd (s : State) (d : Word) : State :=
  let op := R.ESW_ATU_CMD_op.of d
  let fl := R.ESW_ATU_CMD_flush_dyn.ofB d
  let k := s.atuKey
  let res := fun (t : State) (v : Nat) => t.wr pgEsw R.ESW_ATU_CMD_result v
  if fl then
    if op = 0 then res (s.setEsw { s.esw with atu := s.esw.atu.filter (·.stat) }) 0 else res s 7
  else if op = 0 then res s 7
  else if op = 1 then
    match s.atuFind k.1 k.2 with
    | none => res s 1
    | some e =>
      let t := s.wr pgEsw R.ESW_ATU_DATA_valid 1
      let t := t.wrB pgEsw R.ESW_ATU_DATA_static e.stat
      res (t.wr pgEsw R.ESW_ATU_DATA_ports e.ports) 0
  else if op = 2 then
    if !s.rdB pgEsw R.ESW_ATU_DATA_valid then res (s.atuDrop k.1 k.2) 0
    else if (s.atuFind k.1 k.2).isNone && s.atuFull k.1 k.2 then res s 2
    else
      res (s.atuPut { vid := k.1, mac := k.2, stat := s.rdB pgEsw R.ESW_ATU_DATA_static
                      ports := s.rd pgEsw R.ESW_ATU_DATA_ports }) 0
  else if (s.atuFind k.1 k.2).isNone then res s 1
  else res (s.atuDrop k.1 k.2) 0

/-! ### The buffer (R378, R379) -/

/-- The cells that the queue of output `o` and class `c` holds. -/
def State.queueCells (s : State) (o c : Nat) : Nat :=
  (s.esw.frames.filter (fun f => f.cls == c && (f.outs.contains o || f.now.any (fun x => x.1 == o)))).foldl
    (fun a f => a + f.cells) 0

/-- The headroom held: worst-case cells not yet received. -/
def State.headroom (s : State) : Nat := s.esw.frames.foldl (fun a f => a + (f.w - f.cells)) 0

/-- The free cells of the buffer. -/
def State.freeCells (s : State) : Nat := 4096 - s.esw.frames.foldl (fun a f => a + f.cells) 0

/-- Whether the queue of output `o` and class `c` admits a frame of `w` worst-case cells (R379). -/
def State.admits (s : State) (o c w : Nat) : Bool :=
  let rsv := s.rd pgEsw R.ESW_BUF_CFG_rsv
  let cnt := s.queueCells o c
  let unused := (List.range 32).foldl (fun a q => a + (rsv - s.queueCells (q / 8) (q % 8))) 0
  decide (cnt + w ≤ rsv + s.rd pgEsw R.ESW_BUF_CFG_shr_max) &&
    (decide (cnt + w ≤ rsv) || decide (s.headroom + unused + w ≤ s.freeCells))

/-! ### Frames -/

/-- Bytes `lo` to `lo + n - 1` of a frame as a big-endian number. -/
def be (bs : List Byte) (lo n : Nat) : Nat := ofBe ((bs.drop lo).take n)

/-- The frame carries a VLAN tag (R382; EtherType 0x8100). PRESUMED, log entry 98. -/
def hasTag (bs : List Byte) : Bool := be bs 12 2 == 0x8100

/-- The offset of the frame's EtherType. PRESUMED, log entry 98. -/
def typeAt (bs : List Byte) : Nat := if hasTag bs then 16 else 12

/-- The frame's EtherType behind the outer tag. -/
def etherType (bs : List Byte) : Nat := be bs (typeAt bs) 2

/-- Destinations 01-80-C2-00-00-00 to -0F (R372). -/
def linkLocal (mac : Nat) : Bool := mac / 16 == 0x0180C200000

/-- Whether a MAC address is a group address. -/
def isMulti (mac : Nat) : Bool := bitOf mac 40

/-- The latency that R388 corrects with, in 1/16 ns: receive and transmit, by mode and speed of port `p`. -/
def State.latency (s : State) (p : Nat) : Int × Int :=
  let m := s.rd pgEsw (R.ESW_P_CFG_mode p)
  let v := s.rd pgEsw (R.ESW_P_STAT_speed p)
  if m = 0 then (if Config.latUp then 3405 else 3404, 96 * 16)
  else if m = 1 then (432 * 16, 216 * 16)
  else if v = 0 then (24800 * 16, 13600 * 16)
  else if v = 1 then (2480 * 16, 1360 * 16)
  else (448 * 16, 224 * 16)

/-- The receive timestamp in 2^-16 ns from a raw capture in 1/16 ns (R388). -/
def State.rxTs (s : State) (p cap : Nat) : Int :=
  4096 * ((cap : Int) - (s.latency p).1 - s.rdS pgPtp (R.PTP_P_BOARD_RX_d p))

/-- The transmit timestamp in 2^-16 ns from a raw capture in 1/16 ns (R388). -/
def State.txTs (s : State) (p cap : Nat) : Int :=
  4096 * ((cap : Int) + (s.latency p).2 + s.rdS pgPtp (R.PTP_P_BOARD_TX_d p))

/-- The rate of port `p` in steps of the speed code; P3 has 2.5 Gbit/s (R371). -/
def State.rate (s : State) (p : Nat) : Nat :=
  if p = 3 then 3 else if s.rd pgEsw (R.ESW_P_CFG_mode p) = 0 then 3 else if s.rd pgEsw (R.ESW_P_CFG_mode p) = 1 then 2
  else s.rd pgEsw (R.ESW_P_STAT_speed p)

/-- Whether output `o` has nothing queued and sends nothing. -/
def State.outIdle (s : State) (o : Nat) : Bool :=
  s.esw.frames.all (fun f => !f.outs.contains o && !f.now.any (fun x => x.1 == o))

/-- Whether output `o` may cut a frame of input `p` through (R374); `busy` are the outputs that still send. -/
def State.cutThrough (s : State) (p o busy : Nat) : Bool :=
  s.rdB pgEsw (R.ESW_P_CFG_ct_en o) && p != 3 && o != 3 && decide (s.rate o ≤ s.rate p) && s.outIdle o && !bitOf busy o

/-- Replace the frame with the number of `f`; a frame that is over and that no output holds leaves the buffer (R377). -/
def State.setFrame (s : State) (f : EthFrame) : State :=
  s.setEsw { s.esw with
    frames := s.esw.frames.filterMap (fun g =>
      if g.id == f.id then (if f.ended && f.outs.isEmpty && f.now.isEmpty then none else some f) else some g) }

/-- A frame that no queue has admitted, or that no output holds any more, holds no cells. -/
def EthFrame.release (f : EthFrame) : EthFrame := if f.outs.isEmpty && f.now.isEmpty then { f with w := 0, cells := 0 } else f

/-- Lookup (R372, R373) of the frame whose first bytes are `bs`: what the frame is with the outputs that it is for, and whether
it is dropped with a count. -/
def State.lookup (s : State) (p : Nat) (bs : List Byte) : EthFrame × Bool :=
  let dst := be bs 0 6
  let tagged := hasTag bs
  let tci := be bs 14 2
  let tv := tci % 4096
  let kind := if tagged then (if tv = 0 then 1 else 2) else 0
  let vid := if kind = 2 then tv else s.rd pgEsw (R.ESW_P_CFG_pvid p)
  let pcp := if tagged then tci / 8192 else s.rd pgEsw (R.ESW_P_CFG_def_pcp p)
  let acc := s.rd pgEsw (R.ESW_P_CFG_accept p)
  let f : EthFrame := { inp := p, tag := kind, pcp := pcp, bytes := bs }
  if (kind = 2 ∧ tv = 4095) ∨ (acc = 1 ∧ kind ≠ 2) ∨ (acc = 2 ∧ kind = 2) then (f, true)
  else
    let f := { f with vid := some vid }
    let mem := s.vlanMember vid
    if !bitOf mem p then (f, true)
    else
      let ptp := etherType bs == 0x88F7
      let cls := if ptp then s.rd pgEsw R.ESW_PTP_CLASS_class else s.rd pgEsw (R.ESW_PCP_MAP_class pcp)
      let copy := decide (p < 3) && ptp &&
        (linkLocal dst || (dst == 0x011B19000000 && s.rdB pgPtp R.PTP_CFG_e2e_rx))
      let ent := if dst = 2 ^ 48 - 1 then none else s.atuFind vid dst
      let mask := if linkLocal dst then (if ptp then 0 else 8)
        else match ent with
          | some e => e.ports
          | none => mem
      let outs := (List.range 4).filter (fun o => bitOf mask o && bitOf mem o && o != p && s.portUp o)
      ({ f with cls := cls, ptp := copy && s.ptpOn, outs := outs }, false)

/-- A frame enters the switch at its lookup: drops are counted, each queue of its set admits or refuses it (R373, R374, R379). -/
def State.ethAdmit (s : State) (p : Nat) (bs : List Byte) (ts : Option Int) (busy : Nat) : State :=
  let y := s.lookup p bs
  let f : EthFrame := { y.1 with id := s.esw.next, ts := ts }
  let w := (s.maxLen + 255) / 256
  let ok := f.outs.filter (fun o => s.admits o f.cls w)
  let g := { f with
    w := if ok = [] then 0 else w, outs := ok, ct := ok.filter (fun o => s.cutThrough p o busy) }
  let t := if y.2 then s.bump pgEsw (R.ESW_P_RX_DROP_count p) 1 else s
  let t := (f.outs.filter (fun o => !ok.contains o)).foldl (fun (t : State) o => t.bump pgEsw (R.ESW_P_TX_DROP_count o) 1) t
  let t := if f.outs ≠ [] ∧ ok = [] then (t.bump pgEsw (R.ESW_P_RX_DROP_count p) 1).raise pgEsw 0x20 else t
  t.setEsw { t.esw with next := t.esw.next + 1, frames := t.esw.frames ++ [g] }

/-! ### What an output sends -/

/-- The frame without FCS as output `o` sends it: its tag inserted, filled in or removed (R382), and its correctionField
with `add` added (R392). -/
def State.outBytes (s : State) (f : EthFrame) (o : Nat) (add : Int) : List Byte :=
  let n := f.bytes.length - 4
  let bs := f.bytes.take n
  let h := typeAt bs + 2
  let bs := if add = 0 then bs
    else bs.take (h + 8) ++ beBytes 8 (ofS 64 (toS 64 (be bs (h + 8) 8) + add)) ++ bs.drop (h + 16)
  match f.vid with
  | none => bs
  | some v =>
    if f.inp = 4 then bs
    else if bitOf (s.vlanUntag v) o then (if f.tag = 0 then bs else bs.take 12 ++ bs.drop 16)
    else if f.tag = 0 then bs.take 12 ++ beBytes 2 0x8100 ++ beBytes 2 (f.pcp * 8192 + v) ++ bs.drop 12
    else if f.tag = 1 then bs.take 14 ++ beBytes 2 (be bs 14 2 / 4096 * 4096 + v) ++ bs.drop 16
    else bs

/-- Output `o` has sent the frame: it is counted, with the inverted FCS where it is tail-marked (R375). -/
def State.sent (s : State) (f : EthFrame) (o : Nat) (add : Int) (bad : Bool) : State :=
  let bs := s.outBytes f o add
  let fcs := if bad then 0xFFFFFFFF ^^^ ethCrc bs else ethCrc bs
  let t := s.emit (.eth o (bs ++ toBytes 4 fcs))
  let t := t.bump pgEsw (R.ESW_P_TX_FRAMES_count o) 1
  let t := t.bump pgEsw (R.ESW_P_TX_BYTES_count o) (bs.length + 4)
  let t := if bad then (t.bump pgEsw (R.ESW_P_TX_TAIL_count o) 1).raise pgEsw 0x40 else t
  if f.tsReq then
    let h := typeAt bs + 2
    let e := (be bs (h + 30) 2, be bs h 1 % 16, be bs (h + 4) 1)
    t.setEsw { t.esw with tsWait := t.esw.tsWait.set o (t.esw.tsWait.get [] o ++ [e]) }
  else t

/-! ### The transparent clock (R392, R393) -/

/-- The exact `num / 2^k` as an integer: where it is none, one of its two neighbours, which the spec leaves open.
DESIGN CHOICE, log entry 101. -/
def State.roundFree (s : State) (num : Int) (den : Nat) : State × Int :=
  if num % (den : Int) = 0 then (s, num / (den : Int)) else (s.freeNext, num / (den : Int) + (s.freeVal % 2 : Nat))

/-- The addition to the correctionField of frame `f` at output `o`, whose transmit timestamp is `tx`. PRESUMED, log entry 98. -/
def State.tcAdd (s : State) (f : EthFrame) (o : Nat) (tx : Int) : State × Int :=
  let bs := f.bytes
  let h := typeAt bs + 2
  let ty := be bs h 1 % 16
  let tc := s.rd pgPtp R.PTP_CFG_tc
  if !s.ptpOn ∨ tc = 0 ∨ tc = 3 ∨ f.inp ≥ 3 ∨ o ≥ 3 ∨ etherType bs ≠ 0x88F7 ∨ be bs (h + 1) 1 % 16 ≠ 2 then (s, 0)
  else
    match f.ts with
    | none => (s.bump pgPtp R.PTP_TC_MISS_count 1, 0)
    | some rx =>
      let two := bitOf (be bs (h + 6) 1) 1
      let dom := be bs (h + 4) 1
      let seq := be bs (h + 30) 2
      let tab : List TcEnt := s.esw.tc.get [] o
      let p2p := decide (tc = 2) && decide (ty = 0)
      let link : Int := if p2p then 4096 * s.rdS pgPtp (R.PTP_P_LINK_DLY_d f.inp) else 0
      let asym : Int := if p2p then 4096 * s.rdS pgPtp (R.PTP_P_ASYM_d f.inp) else 0
      let y := s.roundFree ((2 ^ 41 + s.rdS pgPtp R.PTP_RATE_RATIO_rr) * (tx - rx + link)) (2 ^ 41)
      if ty = 0 ∧ two then
        let t := if tab.length ≥ 8 then y.1.bump pgPtp R.PTP_TC_MISS_count 1 else y.1
        let tab := if tab.length ≥ 8 then tab.drop 1 else tab
        (t.setEsw { t.esw with tc := t.esw.tc.set o (tab ++ [⟨f.inp, dom, seq, y.2 - asym⟩]) }, 0)
      else if ty = 0 ∨ ty = 1 ∨ (ty = 3 ∧ !two) then (y.1, y.2 - asym)
      else if ty = 8 then
        match tab.find? (fun e => e.inp == f.inp && e.domain == dom && e.seq == seq) with
        | none => (s.bump pgPtp R.PTP_TC_MISS_count 1, 0)
        | some e => (s.setEsw { s.esw with tc := s.esw.tc.set o (tab.erase e) }, e.add)
      else (s, 0)

/-! ### Rings in normal-world DRAM (R383, R390) -/

/-- Whether the range lies in normal-world DRAM that is powered. DEDUCED, log entry 99. -/
def State.normDram (s : State) (a n : Nat) : Bool :=
  s.domOn 6 && decide (0x800000000 ≤ a) && decide (a + n ≤ 0xA00000000) &&
    decide (wmTop 3 (s.rd pgSec R.SEC_WM_DRAM_units) ≤ a)

/-- Descriptor `i` of a ring of descriptors of `z` bytes at `base`: its address and buffer, where the device owns it.
DEDUCED, log entry 99. -/
def State.ringDesc (s : State) (base z i : Nat) : Option (Nat × Nat) :=
  let a := base / 4096 * 4096 + z * i
  if s.normDram a z && s.load (a + 11) 1 == [1] then some (a, ofBytes (s.load a 8)) else none

/-- A frame reaches the receive ring of P3 (R383). -/
def State.p3Deliver (s : State) (f : EthFrame) : State :=
  let n := s.rd pgEsw R.ESW_P3_RING_rx_log
  let base := s.rd2 pgEsw R.ESW_P3_RX_BASE_W0_addr R.ESW_P3_RX_BASE_W1_addr
  let bs := s.outBytes f 3 0
  let lost := s.bump pgEsw (R.ESW_P_TX_DROP_count 3) 1
  if n < 4 ∨ 12 < n then lost
  else
    match s.ringDesc base 16 s.esw.p3Rx with
    | none => lost
    | some d =>
      if !s.normDram d.2 bs.length then lost
      else
        let t := (s.store d.2 bs).store (d.1 + 8) (toBytes 2 bs.length)
        let t := t.store (d.1 + 10) [BitVec.ofNat 8 (f.cls + 8 * b2n (hasTag bs)), 0]
        let t := t.setEsw { t.esw with p3Rx := (t.esw.p3Rx + 1) % 2 ^ n }
        let t := t.bump pgEsw (R.ESW_P_TX_FRAMES_count 3) 1
        (t.bump pgEsw (R.ESW_P_TX_BYTES_count 3) bs.length).raise pgEsw 0x80

/-- The bytes of a line time in a PTP descriptor: nanoseconds, seconds and fraction. -/
def lineBytes (ts : Int) : List Byte :=
  let n := (ts / 65536).toNat
  toBytes 4 (n % 1000000000) ++ toBytes 6 (n / 1000000000) ++ toBytes 2 (ts % 65536).toNat

/-- A frame reaches the receive ring of the PTP unit with its receive timestamp (R390). DESIGN CHOICE, log entry 101. -/
def State.ptpDeliver (s : State) (f : EthFrame) : State :=
  let n := s.rd pgPtp R.PTP_RING_rx_log
  let base := s.rd2 pgPtp R.PTP_RX_BASE_W0_addr R.PTP_RX_BASE_W1_addr
  let bs := f.bytes.take (f.bytes.length - 4)
  let lost := s.bump pgPtp R.PTP_RX_DROP_count 1
  if n < 4 ∨ 10 < n then lost
  else
    match s.ringDesc base 32 s.esw.ptpRx with
    | none => lost
    | some d =>
      if !s.normDram d.2 bs.length then lost
      else
        let stamp := match f.ts with
          | some ts => lineBytes ts
          | none => toBytes 12 s.freeVal
        let t := if f.ts.isNone then s.freeNext else s
        let t := (t.store d.2 bs).store (d.1 + 8) (toBytes 2 bs.length ++ [BitVec.ofNat 8 f.inp, 0] ++ stamp)
        (t.setEsw { t.esw with ptpRx := (t.esw.ptpRx + 1) % 2 ^ n }).raise pgPtp 8

/-! ### The events of a frame -/

/-- The frame that is arriving on port `p`. -/
def State.arriving (s : State) (p : Nat) : Option EthFrame := s.esw.frames.find? (fun f => f.inp == p && !f.ended)

/-- Cells that have arrived move from headroom to use (R379). DEDUCED, log entry 96. -/
def State.cellsIn (s : State) (p n : Nat) : State :=
  match s.arriving p with
  | none => s
  | some f => s.setFrame { f with cells := max f.cells (min f.w (n / 256)) }

/-- The frame arriving on port `p` ends with the bytes `bs` (R371, R375, R379, R381). DEDUCED, log entry 96. -/
def State.frameEnd (s : State) (f : EthFrame) (bs : List Byte) (bad : Bool) : State :=
  let p := f.inp
  let n := bs.length
  let t := (s.bump pgEsw (R.ESW_P_RX_FRAMES_count p) 1).bump pgEsw (R.ESW_P_RX_BYTES_count p) n
  let cells := min f.w ((n + 255) / 256)
  let g : EthFrame := { f with bytes := bs, ended := true, cells := cells, w := cells, now := [] }
  let t := f.now.foldl (fun (t : State) x => t.sent g x.1 x.2 bad) t
  if bad then (t.bump pgEsw (R.ESW_P_RX_BAD_count p) 1).setFrame { g with outs := [] }
  else
    let t := t.setFrame g
    let src := be bs 6 6
    let t := match f.vid with
      | none => t
      | some v => if !isMulti src && t.rdB pgEsw (R.ESW_P_CFG_learn p) then t.atuLearn v src p else t
    if f.ptp then t.ptpDeliver g else t

/-- ESW_FRAME_LOOKUP (R373): 64 bytes, or all of a shorter frame, have arrived on port `p`. `cap` is the raw capture of its
timestamp point in 1/16 ns of line time and `chg` tells that the mode changed (R388); `busy` are the outputs that still send;
`got` gives for each port the bytes that have arrived of the frame there. DESIGN CHOICE, log entry 119. -/
def execEswFrameLookup (p : Fin 3) (bytes : List Byte) (cap : Nat) (chg : Bool) (busy : Fin 16) (got : List Nat)
    (s : State) : Res :=
  let s := s.start
  let p := p.val
  if !s.eswOn ∨ !s.portUp p ∨ (s.arriving p).isSome then .next s
  else
    let t := (List.range 3).foldl (fun (t : State) q => t.cellsIn q (got.getD q 0)) s
    let ptp := etherType bytes == 0x88F7 && t.ptpOn
    let ts := if ptp && !chg then some (t.rxTs p cap) else none
    let t := if ptp && chg then t.bump pgPtp (R.PTP_P_TS_ERR_count p) 1 else t
    .next (t.ethAdmit p bytes ts busy.val)

/-- ESW_FRAME_END (R375): the frame on port `p` ends; `bytes` run from the destination address to the FCS, and `pcs` tells that
the PCS reported an error symbol. -/
def execEswFrameEnd (p : Fin 3) (bytes : List Byte) (pcs : Bool) (s : State) : Res :=
  let s := s.start
  match s.arriving p.val with
  | none => .next s
  | some f =>
    let n := bytes.length
    let bad := pcs || decide (n < 64) || decide (s.maxLen < n) ||
      ofBytes (bytes.drop (n - 4)) != ethCrc (bytes.take (n - 4))
    .next (s.frameEnd f bytes bad)

/-- The frame that output `o` sends next: the highest class first, within it the order of lookups (R376). -/
def State.nextFrame (s : State) (o : Nat) : Option EthFrame :=
  (List.range 8).findSome? (fun i =>
    s.esw.frames.find? (fun f => f.cls == 7 - i && f.outs.contains o && (f.ended || f.ct.contains o)))

/-- ESW_TX_START (R374, R392): output `o` can take a frame; `cap` is the raw capture of the departing timestamp point and
`waited` the pause quanta that have passed since the port was paused. A frame that has arrived is sent whole, and one that cuts
through leaves to its end. DEDUCED, log entry 96. -/
def execEswTxStart (o : Fin 4) (cap waited : Nat) (s : State) : Res :=
  let s := s.start
  let o := o.val
  if !s.eswOn ∨ !s.portUp o ∨ waited < s.esw.pause.get 0 o ∨ s.esw.frames.any (fun f => f.now.any (fun x => x.1 == o)) then
    .next s
  else
    match s.nextFrame o with
    | none => .next s
    | some f =>
      let s := s.setEsw { s.esw with pause := s.esw.pause.drop (· == o) }
      let g := { f with outs := f.outs.erase o }
      if o = 3 then .next ((s.p3Deliver f).setFrame g.release)
      else
        let y := s.tcAdd f o (s.txTs o cap)
        if f.ended then .next ((y.1.sent f o y.2 false).setFrame g.release)
        else .next (y.1.setFrame { g with now := g.now ++ [(o, y.2)] })

/-- The link of port `p` goes down: what is queued for it is released (R377, R380). -/
def State.ethDown (s : State) (p : Nat) : State :=
  let n := (s.esw.frames.filter (fun f => f.outs.contains p)).length
  let t := (s.bump pgEsw (R.ESW_P_TX_DROP_count p) n).wr pgEsw (R.ESW_P_STAT_link p) 0
  let t := t.raise pgEsw (2 ^ p)
  t.setEsw { t.esw with
    pause := t.esw.pause.drop (· == p)
    frames := (t.esw.frames.map (fun f =>
      EthFrame.release { f with outs := f.outs.filter (· != p), now := f.now.filter (fun x => x.1 != p) })).filter
        (fun f => !(f.ended && f.outs.isEmpty && f.now.isEmpty)) }

/-- ESW_LINK_DOWN (R380). -/
def execEswLinkDown (p : Fin 3) (s : State) : Res :=
  let s := s.start
  if s.eswOn && s.rdB pgEsw (R.ESW_P_STAT_link p.val) then .next (s.ethDown p.val) else .next s

/-- ESW_LINK_UP (R371): the link of port `p` comes up; `speed` is what in-band status says (SGMII), the modes fix the others. -/
def execEswLinkUp (p : Fin 3) (speed : Fin 3) (s : State) : Res :=
  let s := s.start
  let p := p.val
  let m := s.rd pgEsw (R.ESW_P_CFG_mode p)
  if !s.eswOn ∨ !s.rdB pgEsw (R.ESW_P_CFG_en p) ∨ s.rdB pgEsw (R.ESW_P_STAT_link p) ∨ 2 < m ∨ (p = 2 ∧ m = 0) then .next s
  else
    let v := if m = 0 then 3 else if m = 1 then 2 else speed.val
    .next (((s.wr pgEsw (R.ESW_P_STAT_speed p) v).wr pgEsw (R.ESW_P_STAT_link p) 1).raise pgEsw (2 ^ p))

/-- PAUSE_FRAME_RX (R371): a PAUSE frame of `len` bytes ends at the MAC and pauses the port for `quanta`.
DEDUCED, log entry 97. -/
def execPauseFrameRx (p : Fin 3) (quanta : Fin 65536) (len : Nat) (s : State) : Res :=
  let s := s.start
  let p := p.val
  if s.eswOn && s.portUp p then
    let t := (s.bump pgEsw (R.ESW_P_RX_FRAMES_count p) 1).bump pgEsw (R.ESW_P_RX_BYTES_count p) len
    .next (t.setEsw { t.esw with pause := t.esw.pause.set p quanta.val })
  else .next s

/-! ### Register commands -/

/-- ATU_READ (R381). -/
def execAtuRead (r : Req) (d : Word) (s : State) : Res :=
  .next (s.start.access r pgEsw 0x04C (fun s => s.atuCmd (d &&& 0x3FFFFFFF ||| 0x40000000)))

/-- ATU_WRITE (R381). -/
def execAtuWrite (r : Req) (d : Word) (s : State) : Res :=
  .next (s.start.access r pgEsw 0x04C (fun s => s.atuCmd (d &&& 0x3FFFFFFF ||| 0x80000000)))

/-- ATU_DELETE (R381). -/
def execAtuDelete (r : Req) (d : Word) (s : State) : Res :=
  .next (s.start.access r pgEsw 0x04C (fun s => s.atuCmd (d ||| 0xC0000000)))

/-- ATU_FLUSH_DYN (R381). -/
def execAtuFlushDyn (r : Req) (d : Word) (s : State) : Res :=
  .next (s.start.access r pgEsw 0x04C (fun s => s.atuCmd (d ||| 0x20000000)))

/-- ATU_AGE_EXPIRY (R381): the entry of a key has not been refreshed for age_s whole seconds. -/
def execAtuAgeExpiry (vid : Fin 4096) (mac : BitVec 48) (s : State) : Res :=
  let s := s.start
  match s.atuFind vid.val mac.toNat with
  | some e => if s.eswOn && !e.stat && s.rdB pgEsw R.ESW_AGE_age_s then .next (s.atuDrop vid.val mac.toNat) else .next s
  | none => .next s

/-- One transmit descriptor of P3 (R383): its frame passes lookup and ends, and the descriptor goes back. -/
def State.p3Take (s : State) (d : Nat × Nat) (n : Nat) : State :=
  let len := ofBytes (s.load (d.1 + 8) 2)
  let bs := if s.normDram d.2 len then s.load d.2 len else []
  let bs := bs ++ toBytes 4 (ethCrc bs)
  let t := s.ethAdmit 3 (bs.take 64) none 0
  let bad := decide (bs.length < 64) || decide (t.maxLen < bs.length)
  let t := match t.arriving 3 with
    | none => t
    | some f => t.frameEnd f bs bad
  let t := t.store (d.1 + 11) [0]
  t.setEsw { t.esw with p3Tx := (t.esw.p3Tx + 1) % 2 ^ n }

/-- The transmit ring of P3 is scanned: the descriptors that the device owns, in ring order. DEDUCED, log entry 99. -/
def State.p3Scan (s : State) (n : Nat) : Nat → State
  | 0 => s
  | k + 1 =>
    match s.ringDesc (s.rd2 pgEsw R.ESW_P3_TX_BASE_W0_addr R.ESW_P3_TX_BASE_W1_addr) 16 s.esw.p3Tx with
    | none => s
    | some d => (s.p3Take d n).p3Scan n k

/-- An ESW_P3_DB write of an accepted requester. -/
def State.p3Doorbell (s : State) (d : Word) : State :=
  let n := s.rd pgEsw R.ESW_P3_RING_tx_log
  if R.ESW_P3_DB_tx.ofB d && s.eswOn && s.portUp 3 && decide (4 ≤ n) && decide (n ≤ 12) then s.p3Scan n (2 ^ n) else s

/-- P3_TX_DOORBELL (R383). -/
def execP3TxDoorbell (r : Req) (d : Word) (s : State) : Res :=
  .next (s.start.access r pgEsw 0x214 (fun s => s.p3Doorbell (d ||| 1)))

/-- An ESW_Pp_CFG write: a port that is disabled loses its link, and P3's link follows its enable. -/
def State.portCfg (s : State) (p : Nat) (d : Word) : State :=
  let was := s.rdB pgEsw (R.ESW_P_CFG_en p)
  let en := (R.ESW_P_CFG_en p).ofB d
  let t := s.regWrite pgEsw R.tableESW (0x100 + 64 * p) d
  let t := if p = 3 then t.wr pgEsw (R.ESW_P_CFG_mode 3) 0 else t
  if was && !en && t.rdB pgEsw (R.ESW_P_STAT_link p) then t.ethDown p
  else if p = 3 ∧ en ∧ !was then
    let t := t.setEsw { t.esw with p3Rx := 0, p3Tx := 0 }
    ((t.wr pgEsw (R.ESW_P_STAT_link 3) 1).wr pgEsw (R.ESW_P_STAT_speed 3) 3).raise pgEsw 8
  else t

/-- A write of the other ESW registers with a rule of their own. -/
def State.eswWrite (s : State) (off : Nat) (d : Word) : State :=
  if off = 0x020 then
    if s.locked pgEsw then s else s.wr pgEsw R.ESW_CFG_max_len (clampN 64 9216 (R.ESW_CFG_max_len.of d))
  else if off = 0x028 then
    let t := s.wr pgEsw R.ESW_BUF_CFG_shr_max (R.ESW_BUF_CFG_shr_max.of d)
    if 2048 < 32 * R.ESW_BUF_CFG_rsv.of d then t else t.wr pgEsw R.ESW_BUF_CFG_rsv (R.ESW_BUF_CFG_rsv.of d)
  else if off = 0x04C then s.atuCmd d
  else if off = 0x054 then s.vlanWrite d
  else if off = 0x210 then if s.rdB pgEsw (R.ESW_P_CFG_en 3) then s else s.regWrite pgEsw R.tableESW off d
  else if off = 0x214 then s.p3Doorbell d
  else if 0x100 ≤ off ∧ off < 0x200 ∧ off % 64 = 0 then s.portCfg ((off - 0x100) / 64) d
  else s.regWrite pgEsw R.tableESW off d

end Sys2Proof.Machine
end

