-- ==== Sys2Proof/Machine/Ptp.lean ====
section
/-! DEFINITION. Network time: the servo that disciplines line time, the rings and the timestamp queues of the PTP unit
(18_network_time.md, R384 to R399). -/
namespace Sys2Proof.Machine

/-! ### Steps of line time (R394, R397) -/

/-- A planned stop of the link of bank `b` that is UP, which then retrains (R90). DEDUCED, log entry 104. -/
def State.plannedStop (s : State) (b : Nat) : State :=
  if s.linkUp b then (s.brgLink b).setLst b 1 else s

/-- Line time steps by minus `o`; `u` is its position inside the superframe before, both in 2^-16 ns (R394, R397).
DEDUCED, log entry 104. -/
def State.lineStep (s : State) (o : Int) (u : Nat) : State :=
  let t := s.tNs * 65536
  let old : Nat := s.k * t + u % t
  let new := (((old : Int) - o) % ((2 ^ 48 * 1000000000 * 65536 : Nat) : Int)).toNat
  let s := (List.range 32).foldl (fun (s : State) b => s.plannedStop b) s
  let s := if s.rd pgPair R.PAIR_STAT_plk = 0 then s else s.plkLost
  s.renumber (new / t)

/-! ### The servo (R394 to R397) -/

/-- The servo enters state `n`: its holdover mark, and line time becomes valid when it leaves FREE (R396, R450). -/
def State.setServo (s : State) (n : Nat) : State :=
  let t := if s.rd pgPtp R.PTP_STAT_state = n then s else s.raise pgPtp 1
  let t := t.wr pgPtp R.PTP_STAT_state n
  let t := t.wrB pgPtp R.PTP_STAT_holdover (n == 0 || n == 3 || n == 4)
  if n = 0 then t else { t with evr := { t.evr with ltValid := true } }

/-- f takes a new value; freq_limit shows |f| above 50 ppm (R394). -/
def State.setFreq (s : State) (f : Int) : State :=
  let t := s.wrS pgPtp R.PTP_FREQ_f f
  let lim := decide (f.natAbs ≥ 54975582)
  let t := if lim && !s.rdB pgPtp R.PTP_STAT_freq_limit then t.raise pgPtp 0x40 else t
  t.wrB pgPtp R.PTP_STAT_freq_limit lim

/-- The bound of 100 ppm in units of 2^-40. -/
def ppm100 : Int := 109951162

/-- An offset is refused (R395). -/
def State.refuse (s : State) (o : Int) : State :=
  let n := ofS 64 o
  let t := s.bump pgPtp R.PTP_JUMP_COUNT_count 1
  let t := t.wr2 pgPtp R.PTP_LAST_REFUSED_W0_off R.PTP_LAST_REFUSED_W1_off n
  let t := ((t.wr pgPtp R.PTP_STAT_jump_refused 1).wr pgPtp R.PTP_STAT_lock_cnt 0).raise pgPtp 2
  t.report 0x30 pgPtp 0xFFFF [n % 2 ^ 32, n / 2 ^ 32]

/-- The lock count (R394): 8 consecutive offsets within the window lock, 4 consecutive ones outside unlock.
DEDUCED, log entry 103. -/
def State.lockCount (s : State) (o : Int) : State :=
  let within := decide (o.natAbs ≤ 65536 * s.rd pgPtp R.PTP_SERVO_LIM_lock_ns)
  if within then
    let n := min (s.rd pgPtp R.PTP_STAT_lock_cnt + 1) 15
    let t := (s.wr pgPtp R.PTP_STAT_lock_cnt n).setEsw { s.esw with bad := 0 }
    if 8 ≤ n then t.setServo 2 else t
  else
    let t := (s.wr pgPtp R.PTP_STAT_lock_cnt 0).setEsw { s.esw with bad := s.esw.bad + 1 }
    if 4 ≤ s.esw.bad + 1 ∧ s.rd pgPtp R.PTP_STAT_state = 2 then t.setServo 1 else t

/-- The proportional and integral terms take offset `o` after `dt` (both in 2^-16 ns; R394). DEDUCED, log entry 103. -/
def State.servoPi (s : State) (o : Int) (dt : Nat) : State :=
  let dt := clampN (65536 * 1000000) (65536 * 16000000000) dt
  let f := s.rdS pgPtp R.PTP_FREQ_f
  let y := s.roundFree (-(s.rd pgPtp R.PTP_SERVO_CFG_ki : Int) * 2 ^ 24 * o) dt
  let f := clampI (-ppm100) ppm100 (f + y.2)
  let z := y.1.roundFree (-(s.rd pgPtp R.PTP_SERVO_CFG_kp : Int) * 2 ^ 24 * o) dt
  let t := (z.1.setFreq f).wrS pgPtp R.PTP_ADJ_a (clampI (-ppm100) ppm100 (f + z.2))
  let t := if t.rd pgPtp R.PTP_STAT_state = 3 then
      (t.setServo 1).wr pgPtp R.PTP_STAT_lock_cnt 0 else t
  let t := t.lockCount o
  if t.rd pgPtp R.PTP_STAT_state = 2 then (t.wr pgPtp R.PTP_AON_CAL_period t.freeVal).freeNext else t

/-- A committed offset `o` (R394). -/
def State.servoOffset (s : State) (o : Int) (dt u : Nat) : State :=
  let st := s.rd pgPtp R.PTP_STAT_state
  let far := decide (65536 * s.rd pgPtp R.PTP_JUMP_TH_ns < o.natAbs)
  let s := s.setEsw { s.esw with last := some o }
  let acquire := fun (t : State) =>
    let t := t.setServo 1
    (t.wr pgPtp R.PTP_STAT_lock_cnt 0).setEsw { t.esw with bad := 0 }
  if st = 0 then
    if !s.anyArmed then acquire (s.lineStep o u)
    else if far then s.refuse o
    else (acquire s).servoPi o dt
  else if st = 4 then
    if far then
      let y := s.roundFree (-(o.sign) * (s.rd pgPtp R.PTP_SERVO_LIM_slew_ppm : Int) * 2 ^ 40) 1000000
      (y.1.wrS pgPtp R.PTP_ADJ_a (s.rdS pgPtp R.PTP_FREQ_f + y.2)).wr pgPtp R.PTP_STAT_lock_cnt 0
    else (acquire s).servoPi o dt
  else if far then s.refuse o
  else s.servoPi o dt

/-- PTP_OFFSET_COMMIT (R394): a PTP_MEAS_W1 write. `dt` is the line time since the last accepted measurement and `u` the position
inside the superframe, both in 2^-16 ns. -/
def execPtpOffsetCommit (r : Req) (d : Word) (dt u : Nat) (s : State) : Res :=
  .next (s.start.access r pgPtp 0x034 (fun s =>
    let t := s.wr pgPtp R.PTP_MEAS_W1_off d.toNat
    if s.ptpOn then t.servoOffset (toS 64 (t.rd2 pgPtp R.PTP_MEAS_W0_off R.PTP_MEAS_W1_off)) dt u else t))

/-- The servo goes to HOLDOVER: a is f (R396). -/
def State.holdServo (s : State) : State :=
  (s.setServo 3).wrS pgPtp R.PTP_ADJ_a (s.rdS pgPtp R.PTP_FREQ_f)

/-- A PTP_CMD ends with a result (R397). -/
def State.ptpResult (s : State) (v : Nat) : State := (s.wr pgPtp R.PTP_STAT_cmd_result v).raise pgPtp 0x20

/-- A PTP_CMD write of an accepted requester (R397). DEDUCED, log entry 103. -/
def State.ptpCmd (s : State) (d : Word) (u : Nat) : State :=
  let bits := bitsIn 4 (d.toNat / 2 ^ 28)
  if !s.ptpOn then s
  else match bits with
  | [] => s
  | [3] => (s.setServo 4).ptpResult 0
  | [2] =>
    if s.anyArmed then s.ptpResult 2
    else match s.esw.last with
      | none => s.ptpResult 1
      | some o => (((s.lineStep o u).setServo 1).wr pgPtp R.PTP_STAT_lock_cnt 0).ptpResult 0
  | [1] => s.holdServo.ptpResult 0
  | [0] =>
    if s.rd pgPtp R.PTP_STAT_state = 4 then s.holdServo.ptpResult 0
    else (s.ptpResult s.freeVal).freeNext
  | _ => s.ptpResult 7

/-- PTP_SLEW (R397). -/
def execPtpSlew (r : Req) (d : Word) (s : State) : Res :=
  .next (s.start.access r pgPtp 0x028 (fun s => s.ptpCmd (d ||| 0x80000000) 0))

/-- PTP_STEP (R397); `u` is the position inside the superframe in 2^-16 ns. -/
def execPtpStep (r : Req) (d : Word) (u : Nat) (s : State) : Res :=
  .next (s.start.access r pgPtp 0x028 (fun s => s.ptpCmd (d ||| 0x40000000) u))

/-- PTP_HOLDOVER (R397). -/
def execPtpHoldover (r : Req) (d : Word) (s : State) : Res :=
  .next (s.start.access r pgPtp 0x028 (fun s => s.ptpCmd (d ||| 0x20000000) 0))

/-- PTP_CANCEL (R397). -/
def execPtpCancel (r : Req) (d : Word) (s : State) : Res :=
  .next (s.start.access r pgPtp 0x028 (fun s => s.ptpCmd (d ||| 0x10000000) 0))

/-- PTP_HOLDOVER_TIMEOUT (R396): no offset has been accepted for tmo_ms. DEDUCED, log entry 103. -/
def execPtpHoldoverTimeout (s : State) : Res :=
  let s := s.start
  let st := s.rd pgPtp R.PTP_STAT_state
  if s.ptpOn && (st == 1 || st == 2 || st == 4) then .next s.holdServo else .next s

/-! ### Timestamps and the transmit ring (R390, R391) -/

/-- PTP_TX_TIMESTAMP (R391): the timestamp point of the oldest frame with ts_req leaves port `p`; `cap` is the raw capture in
1/16 ns. -/
def execPtpTxTimestamp (p : Fin 3) (cap : Nat) (s : State) : Res :=
  let s := s.start
  let p := p.val
  let q : List TsEnt := s.esw.tsq.get [] p
  match s.esw.tsWait.get [] p with
  | [] => .next s
  | e :: rest =>
    let t := s.setEsw { s.esw with tsWait := s.esw.tsWait.set p rest }
    if 16 ≤ q.length then .next ((t.bump pgPtp (R.PTP_P_TSQ_OVF_count p) 1).raise pgPtp 4)
    else
      let x : TsEnt := { ts := s.txTs p cap, seq := e.1, type := e.2.1, domain := e.2.2 }
      .next (t.setEsw { t.esw with tsq := t.esw.tsq.set p (q ++ [x]) })

/-- A read of PTP_Pp_TSQ_HDR by requester `r`: the oldest entry becomes the requester's snapshot (R391). -/
def State.tsqPop (s : State) (r : Req) (p : Nat) : State :=
  let i := iReq (reqId r)
  let q : List TsEnt := s.esw.tsq.get [] p
  match q with
  | [] => s.answer 0
  | x :: rest =>
    let n := (x.ts / 65536).toNat
    let t := s.setEsw { s.esw with tsq := s.esw.tsq.set p rest }
    let t := t.wr i (R.PTP_P_TSQ_SEC_W0_sec p) (n / 1000000000)
    let t := t.wr i (R.PTP_P_TSQ_SEC_W1_sec p) (n / 1000000000 / 2 ^ 32)
    let t := t.wr i (R.PTP_P_TSQ_SEC_W1_frac p) (x.ts % 65536).toNat
    let t := t.wr i (R.PTP_P_TSQ_NS_ns p) (n % 1000000000)
    t.answer (2 ^ 31 + x.type % 16 * 2 ^ 24 + x.domain % 256 * 2 ^ 16 + x.seq % 2 ^ 16)

/-- PTP_TSQ_POP (R391). -/
def execPtpTsqPop (r : Req) (p : Fin 3) (s : State) : Res :=
  .next (s.start.accessRd r pgPtp (0x120 + 64 * p.val) (fun s => s.tsqPop r p.val))

/-- One transmit descriptor of the PTP unit (R390): its frame is queued at the port it names, in the class of PTP frames. -/
def State.ptpTake (s : State) (d : Nat × Nat) (n : Nat) : State :=
  let len := ofBytes (s.load (d.1 + 8) 2)
  let ctl := ofBytes (s.load (d.1 + 10) 1)
  let p := ctl % 4
  let bs := if s.normDram d.2 len then s.load d.2 len else []
  let f : EthFrame :=
    { id := s.esw.next, inp := 4, cls := s.rd pgEsw R.ESW_PTP_CLASS_class, bytes := bs ++ toBytes 4 (ethCrc bs)
      ended := true, outs := [p], tsReq := bitOf ctl 7 }
  let t := s.setEsw { s.esw with
    next := s.esw.next + 1, ptpTx := (s.esw.ptpTx + 1) % 2 ^ n
    frames := if p < 3 && s.eswOn && s.portUp p then s.esw.frames ++ [f] else s.esw.frames }
  ((t.store (d.1 + 12) (List.replicate 12 0)).store (d.1 + 11) [0]).raise pgPtp 0x10

/-- The transmit ring of the PTP unit is scanned. -/
def State.ptpScan (s : State) (n : Nat) : Nat → State
  | 0 => s
  | k + 1 =>
    match s.ringDesc (s.rd2 pgPtp R.PTP_TX_BASE_W0_addr R.PTP_TX_BASE_W1_addr) 32 s.esw.ptpTx with
    | none => s
    | some d => (s.ptpTake d n).ptpScan n k

/-- A PTP_TX_DB write of an accepted requester. -/
def State.ptpDoorbell (s : State) (d : Word) : State :=
  let n := s.rd pgPtp R.PTP_RING_tx_log
  if R.PTP_TX_DB_tx.ofB d && s.ptpOn && decide (4 ≤ n) && decide (n ≤ 10) then s.ptpScan n (2 ^ n) else s

/-- PTP_TX_DOORBELL (R390). -/
def execPtpTxDoorbell (r : Req) (d : Word) (s : State) : Res :=
  .next (s.start.access r pgPtp 0x094 (fun s => s.ptpDoorbell (d ||| 1)))

/-- A write of a PTP register of an accepted requester. -/
def State.ptpWrite (s : State) (off : Nat) (d : Word) : State :=
  if off = 0x028 then s.freeNext.ptpCmd d s.freeVal
  else if off = 0x034 then
    let t := s.freeNext.wr pgPtp R.PTP_MEAS_W1_off d.toNat
    if s.ptpOn then t.freeNext.servoOffset (toS 64 (t.rd2 pgPtp R.PTP_MEAS_W0_off R.PTP_MEAS_W1_off)) s.freeVal t.freeVal
    else t
  else if off = 0x038 then if s.locked pgPtp then s else s.regWrite pgPtp R.tablePTP off d
  else if off = 0x03C then
    let t := s.regWrite pgPtp R.tablePTP off d
    t.wr pgPtp R.PTP_SERVO_LIM_slew_ppm (clampN 1 50 (R.PTP_SERVO_LIM_slew_ppm.of d))
  else if off = 0x040 then s.wr pgPtp R.PTP_JUMP_TH_ns (clampN 100 1000000000 d.toNat)
  else if off = 0x094 then s.ptpDoorbell d
  else s.regWrite pgPtp R.tablePTP off d

end Sys2Proof.Machine
end

