-- ==== Sys2Proof/Machine/Load.lean ====
section
/-! DEFINITION. The protected load channels, the heartbeat and the supplies of the field die (21_load_channels.md, R433 to R448;
R13, R14, R432, R476). -/
namespace Sys2Proof.Machine

/-! ### Channel states (R444) -/

/-- The state of load channel `n`: 0 OFF, 1 ON, 2 RETRY, 3 THERMAL, 4 LOCKED. -/
def State.ldSt (s : State) (n : Nat) : Nat := s.rd pgLdc (R.LDC_CH_STAT_state n)

/-- The retry count c of channel `n` (R442). -/
def State.ldC (s : State) (n : Nat) : Nat := s.rd pgLdc (R.LDC_CH_STAT_retries n)

/-- The LDC_ON bit of channel `n`. -/
def State.ldBit (s : State) (n : Nat) : Bool := bitOf (s.rd pgLdc R.LDC_ON_on) n

/-- Set or clear the LDC_ON bit of channel `n`. -/
def State.setLdBit (s : State) (n : Nat) (b : Bool) : State :=
  if b then s.setBits pgLdc R.LDC_ON_on (2 ^ n) else s.clrBits pgLdc R.LDC_ON_on (2 ^ n)

/-- Channel `n` enters OFF: c returns to 0 (R442). -/
def State.ldOff (s : State) (n : Nat) : State :=
  (s.wr pgLdc (R.LDC_CH_STAT_state n) 0).wr pgLdc (R.LDC_CH_STAT_retries n) 0

/-- Channel `n` enters LOCKED: the device clears its LDC_ON bit and c stays (R442). -/
def State.ldLock (s : State) (n : Nat) : State :=
  ((s.wr pgLdc (R.LDC_CH_STAT_state n) 4).setLdBit n false).raise pgLdc 0x20

/-- A cause of channel `n` appears: field `f` shows it (R444, R427). -/
def State.ldFault (s : State) (n : Nat) (f : Fld) : State :=
  ((s.wr pgLdc f 1).setBits pgLdc R.LDC_FAULT_fault (2 ^ n)).raise pgLdc 1

/-! ### Commands (R435, R444) -/

/-- The command of channel `n`: its LDC_ON bit becomes `b`. -/
def State.ldCommand (s : State) (n : Nat) (b : Bool) : State :=
  let s := s.wr pgLdc (R.LDC_CH_CAUSE_shed n) 0
  let st := s.ldSt n
  if b then
    if st = 4 then s.raise pgLdc 0x10
    else
      let t := s.setLdBit n true
      if st = 0 ∧ s.rdB pgLdc (R.CTRL_enable pgLdc) ∧ !s.rdB pgLdc (R.LDC_CH_CAUSE_thermal_l n) then
        t.wr pgLdc (R.LDC_CH_STAT_state n) 1
      else t
  else
    let t := s.setLdBit n false
    if st = 1 ∨ st = 2 then t.ldOff n else t

/-- Commands for the channels of a mask. DEDUCED, log entry 110. -/
def State.ldCommands (s : State) (m : Nat) (b : Bool) : State :=
  (bitsIn 12 m).foldl (fun (t : State) n => t.ldCommand n b) s

/-- An LDC_ON write: every channel is commanded. -/
def State.ldPut (s : State) (d : Word) : State := (s.ldCommands (4095 - d.toNat % 4096) false).ldCommands d.toNat true

/-- LDC_ON_WRITE (R435). -/
def execLdcOnWrite (r : Req) (d : Word) (s : State) : Res :=
  .next (s.start.access r pgLdc 0x020 (fun s => s.ldPut d))

/-- LDC_ON_SET (R435). -/
def execLdcOnSet (r : Req) (d : Word) (s : State) : Res :=
  .next (s.start.access r pgLdc 0x024 (fun s => s.ldCommands d.toNat true))

/-- LDC_ON_CLR (R435). -/
def execLdcOnClr (r : Req) (d : Word) (s : State) : Res :=
  .next (s.start.access r pgLdc 0x028 (fun s => s.ldCommands d.toNat false))

/-- LDC_CTRL.enable takes a value (R444): 0 takes every channel to OFF, 1 starts the commanded ones. -/
def State.ldcEnable (s : State) (en : Bool) : State :=
  let t := s.wrB pgLdc (R.CTRL_enable pgLdc) en
  if en then
    (List.range 12).foldl (fun (t : State) n =>
      if t.ldSt n = 0 ∧ t.ldBit n then t.ldCommand n true else t) t
  else (List.range 12).foldl (fun (t : State) n => t.ldOff n) (t.wr pgLdc R.LDC_ON_on 0)

/-! ### PWM (R436, R437) -/

/-- The PWM period in force, in ticks of 20 ns. -/
def State.ldPeriod (s : State) : Nat := clampN 2000 500000 (s.rdF pgLdc R.LDC_PWM_PER_ticks)

/-- The on-time of channel `n` in ticks, with the two adjustments of R436. -/
def State.ldOnTicks (s : State) (n : Nat) : Nat :=
  let p := s.ldPeriod
  let on := s.rdF pgLdc (R.LDC_CH_DUTY_duty n) * p / 65536
  if on < 50 then 0 else if p - on < 50 then p else on

/-- The offset of channel `n`'s pulse after the period boundary (R436). -/
def State.ldPulseAt (s : State) (n : Nat) : Nat := s.rdF pgLdc (R.LDC_CH_CFG_phase n) * s.ldPeriod / 256

/-- Whether the pin of channel `n` is on `t` ticks after a period boundary (R435, R436, R446). -/
def State.ldPin (s : State) (n t : Nat) : Bool :=
  s.fieldOn && !s.fld.low && s.ldSt n == 1 &&
    (!s.rdB pgLdc (R.LDC_CH_CFG_pwm_en n) ||
      decide ((t + s.ldPeriod - s.ldPulseAt n % s.ldPeriod) % s.ldPeriod < s.ldOnTicks n))

/-- LDC_PWM_BOUNDARY (R437): the new period, and with the pulses of the period the new duties and phases, take effect. -/
def execLdcPwmBoundary (s : State) : Res :=
  let s := s.start
  if !s.fieldOn then .next s
  else
    let i := iForce pgLdc
    let t := s.wr i R.LDC_PWM_PER_ticks (s.rd pgLdc R.LDC_PWM_PER_ticks)
    .next ((List.range 12).foldl (fun (t : State) n =>
      (t.wr i (R.LDC_CH_DUTY_duty n) (s.rd pgLdc (R.LDC_CH_DUTY_duty n))).wr i (R.LDC_CH_CFG_phase n)
        (s.rd pgLdc (R.LDC_CH_CFG_phase n))) t)

/-! ### Sense pins (R438) -/

/-- Whether pin LSNSk drives the fault level. -/
def State.lsnsFault (s : State) (k : Nat) : Bool :=
  let c := 4 * k + s.rd pgLdc (R.LDC_SNS_CFG_sel_k k)
  let m := s.rd pgLdc R.LDC_FAULT_fault
  s.fieldOn && (bitOf m c || (s.rdB pgLdc (R.LDC_SNS_CFG_any_k k) && bitsOf m (4 * k) 4 != 0))

/-- The nominal level of pin LSNSk in mV where it does not drive the fault level. -/
def State.lsnsMv (s : State) (k : Nat) : Nat :=
  let c := 4 * k + s.rd pgLdc (R.LDC_SNS_CFG_sel_k k)
  if s.fieldOn && s.ldSt c == 1 then min 2000 (s.rd pgLdc (R.LDC_CH_STAT_current_ma c) / 4) else 0

/-! ### Clamp energy (R439, R440) -/

/-- The clamp budget of channel `n` in mJ. -/
def State.ldBudget (s : State) (n : Nat) : Nat := clampN 1 500 (s.rd pgLdc (R.LDC_CH_CLAMP_budget_mj n))

/-- LDC_CLAMP_EVENT (R440): a clamp event of energy `e` in 1/1024 mJ. DEDUCED, log entry 110. -/
def execLdcClampEvent (n : Fin 12) (e : Nat) (s : State) : Res :=
  let s := s.start
  let n := n.val
  if !s.fld.die then .next s
  else
    let t := s.wr pgLdc (R.LDC_CH_EACC_last_mj n) (min 4095 (e / 1024))
    let t := t.bump pgLdc (R.LDC_CH_EACC_acc n) e
    if 1024 * s.ldBudget n < e ∨ 1024 * s.ldBudget n < s.rd pgLdc (R.LDC_CH_EACC_acc n) + e then
      let t := t.ldFault n (R.LDC_CH_CAUSE_clamp_l n)
      .next (if s.ldSt n = 3 ∨ s.ldSt n = 4 then t else t.ldLock n)
    else .next t

/-- LDC_CLAMP_DECAY (R439). -/
def execLdcClampDecay (s : State) : Res :=
  let s := s.start
  if !s.fld.die then .next s
  else .next ((List.range 12).foldl (fun (t : State) n =>
    let a := t.rd pgLdc (R.LDC_CH_EACC_acc n)
    t.wr pgLdc (R.LDC_CH_EACC_acc n) (a - a / 64)) s)

/-- A write of LDC_CHn_CLAMP: lock makes budget_mj read-only (R440). -/
def State.ldClamp (s : State) (n : Nat) (d : Word) : State :=
  let t := if s.rdB pgLdc (R.LDC_CH_CLAMP_lock n) then s
    else s.wr pgLdc (R.LDC_CH_CLAMP_budget_mj n) ((R.LDC_CH_CLAMP_budget_mj n).of d)
  t.setBits pgLdc (R.LDC_CH_CLAMP_lock n) ((R.LDC_CH_CLAMP_lock n).of d)

/-- LDC_CLAMP_LOCK (R440). -/
def execLdcClampLock (r : Req) (n : Fin 12) (d : Word) (s : State) : Res :=
  .next (s.start.access r pgLdc (0x10C + 32 * n.val) (fun s => s.ldClamp n.val (d ||| 0x80000000)))

/-! ### Overcurrent, thermal, clears (R441 to R444) -/

/-- LDC_OVERCURRENT (R441, R442): the limit timer reaches oc_ms, or (`short`) the short-circuit level is passed. -/
def execLdcOvercurrent (n : Fin 12) (short : Bool) (s : State) : Res :=
  let s := s.start
  let n := n.val
  if !s.fieldOn ∨ s.fld.low ∨ !(s.ldSt n == 1 || s.ldSt n == 3) then .next s
  else
    let t := (s.ldFault n (R.LDC_CH_CAUSE_overcurrent_l n)).wrB pgLdc (R.LDC_CH_CAUSE_short n) short
    if s.ldSt n = 3 then .next t
    else if s.ldC n < s.rd pgLdc (R.LDC_CH_CFG_retry_max n) then
      .next ((t.wr pgLdc (R.LDC_CH_STAT_state n) 2).raise pgLdc 2)
    else .next (t.ldLock n)

/-- LDC_RETRY_EXPIRY (R442). -/
def execLdcRetryExpiry (n : Fin 12) (s : State) : Res :=
  let s := s.start
  let n := n.val
  if s.fieldOn ∧ s.ldSt n = 2 then
    .next ((s.wr pgLdc (R.LDC_CH_STAT_state n) 1).wr pgLdc (R.LDC_CH_STAT_retries n) (s.ldC n + 1))
  else .next s

/-- LDC_OK_TIMER (R442). -/
def execLdcOkTimer (n : Fin 12) (s : State) : Res :=
  let s := s.start
  if s.fieldOn ∧ s.ldSt n.val = 1 then .next (s.wr pgLdc (R.LDC_CH_STAT_retries n.val) 0) else .next s

/-- LDC_THERMAL (R443): channel `n` is measured at `temp` (°C plus 64). Above 170 °C the latch is set; below 145 °C its cause is
no longer present. DEDUCED, log entry 110. -/
def execLdcThermal (n : Fin 12) (temp : Fin 256) (s : State) : Res :=
  let s := s.start
  let n := n.val
  if !s.fieldOn then .next s
  else
    let t := s.wr pgLdc (R.LDC_CH_STAT_temp n) temp.val
    if 170 + 64 < temp.val then
      let t := t.wr pgLdc (R.LDC_CH_CAUSE_thermal n) 1
      let t := if s.rd pgLdc (R.LDC_CH_CAUSE_thermal_l n) = 1 then t else t.ldFault n (R.LDC_CH_CAUSE_thermal_l n)
      .next (if s.ldSt n = 3 then t else (t.wr pgLdc (R.LDC_CH_STAT_state n) 3).raise pgLdc 0x20)
    else if temp.val < 145 + 64 then .next (t.wr pgLdc (R.LDC_CH_CAUSE_thermal n) 0)
    else .next t

/-- A write of 1 to the LDC_FAULT bit of channel `n` (R440, R443, R444). -/
def State.ldClear (s : State) (n : Nat) : State :=
  let z := fun (t : State) (f : Fld) => t.wr pgLdc f 0
  let hot := s.rdB pgLdc (R.LDC_CH_CAUSE_thermal n)
  let latched := s.rdB pgLdc (R.LDC_CH_CAUSE_thermal_l n)
  let clamp := s.rdB pgLdc (R.LDC_CH_CAUSE_clamp_l n)
  let st := s.ldSt n
  let t := z s (R.LDC_CH_CAUSE_overcurrent_l n)
  let t := if hot then t else z t (R.LDC_CH_CAUSE_thermal_l n)
  let cooled := decide (2 * s.rd pgLdc (R.LDC_CH_EACC_acc n) ≤ 1024 * s.ldBudget n)
  let t := if st ≠ 3 ∧ cooled then z t (R.LDC_CH_CAUSE_clamp_l n) else t
  let t :=
    if (st = 3 ∨ (st = 0 ∧ latched)) ∧ !hot then
      if clamp ∧ st = 3 then t.ldLock n
      else if s.ldBit n ∧ s.ldC n < s.rd pgLdc (R.LDC_CH_CFG_retry_max n) ∧ s.rdB pgLdc (R.CTRL_enable pgLdc) then
        (t.wr pgLdc (R.LDC_CH_STAT_state n) 1).wr pgLdc (R.LDC_CH_STAT_retries n) (s.ldC n + 1)
      else (t.setLdBit n false).ldOff n
    else if st = 4 ∧ !t.rdB pgLdc (R.LDC_CH_CAUSE_thermal_l n) ∧ !t.rdB pgLdc (R.LDC_CH_CAUSE_clamp_l n) then t.ldOff n
    else t
  let left := hot || t.rdB pgLdc (R.LDC_CH_CAUSE_thermal_l n) || t.rdB pgLdc (R.LDC_CH_CAUSE_clamp_l n) ||
    t.rdB pgLdc (R.LDC_CH_CAUSE_open_load n) || t.rdB pgLdc (R.LDC_CH_CAUSE_shed n)
  if left then t else t.clrBits pgLdc R.LDC_FAULT_fault (2 ^ n)

/-- An LDC_FAULT write of an accepted requester. -/
def State.ldClears (s : State) (d : Word) : State := (bitsIn 12 d.toNat).foldl (fun (t : State) n => t.ldClear n) s

/-- LDC_FAULT_CLEAR (R444). -/
def execLdcFaultClear (r : Req) (d : Word) (s : State) : Res :=
  .next (s.start.access r pgLdc 0x02C (fun s => s.ldClears d))

/-- LDC_TOTAL_SHED (R445): the channel currents `ma`, whose sum has exceeded limit_ma for 10 ms where it does so. -/
def execLdcTotalShed (ma : List Nat) (s : State) : Res :=
  let s := s.start
  if !s.fieldOn then .next s
  else
    let cur := (List.range 12).map (fun n => ma.getD n 0)
    let t := (List.range 12).foldl (fun (t : State) n =>
      t.wr pgLdc (R.LDC_CH_STAT_current_ma n) (min 65535 (cur.getD n 0))) s
    let sum := cur.foldl (· + ·) 0
    let t := t.wr pgLdc R.LDC_TOTAL_sum_ma (min 65535 sum)
    if sum ≤ min 16000 (s.rd pgLdc R.LDC_TOTAL_limit_ma) then .next t
    else
      match (List.range 12).reverse.find? (fun n => s.ldSt n == 1 && s.rdB pgLdc (R.LDC_CH_CFG_shed n)) with
      | none => .next (t.raise pgLdc 4)
      | some n => .next ((((t.setLdBit n false).ldOff n).ldFault n (R.LDC_CH_CAUSE_shed n)).raise pgLdc 4)

/-- LDC_OPEN_LOAD (R444): the current has stayed below 20 mA (`low`) or at or above 40 mA for 100 ms. -/
def execLdcOpenLoad (n : Fin 12) (low : Bool) (s : State) : Res :=
  let s := s.start
  let n := n.val
  if !s.fieldOn then .next s
  else if low then
    if s.ldSt n = 1 ∧ s.rdB pgLdc (R.LDC_CH_CFG_ol_en n) ∧ !s.rdB pgLdc (R.LDC_CH_CAUSE_open_load n) then
      .next (s.ldFault n (R.LDC_CH_CAUSE_open_load n))
    else .next s
  else .next (s.wr pgLdc (R.LDC_CH_CAUSE_open_load n) 0)

/-! ### Notices, silence, resets (R13, R447, R448) -/

/-- A reset notice or silence switches every load channel off (R447). -/
def State.ldcNotice (s : State) : State :=
  if !s.fieldOn then s
  else (List.range 12).foldl (fun (t : State) n => if t.ldSt n = 1 ∨ t.ldSt n = 2 then t.ldOff n else t)
    (s.wr pgLdc R.LDC_ON_on 0)

/-- The reset notice of R55 on the field die. -/
def State.resetNotice (s : State) (warm : Bool) : State := (s.fioNotice warm).ldcNotice

/-- What a soft reset or a FIELD switch leaves of the LDC page: the owner, the thermal latches with the measured temperatures,
acc, and the clamp lock with the budget that it freezes (R448). DEDUCED, log entry 110. -/
def State.ldcKeep (s : State) (off lo : Nat) : Bool :=
  let n := (off - 0x100) / 32
  let o := off % 32
  off == 0x01C || (decide (0x100 ≤ off) &&
    ((o == 0x0C && s.rdB pgLdc (R.LDC_CH_CLAMP_lock n)) || (o == 0x10 && lo == 16) ||
      (o == 0x14 && (lo == 12 || lo == 1)) || (o == 0x18 && lo == 0)))

/-- The LDC registers return to their reset values; every channel is OFF. A thermal latch that stays keeps its fault bit.
DEDUCED, log entry 110. -/
def State.ldcReset (s : State) : State :=
  let t := (s.resetInst pgLdc (fun off lo => s.ldcKeep off lo)).resetInsts (· == iForce pgLdc)
  t.wr pgLdc R.LDC_FAULT_fault (maskOf ((List.range 12).filter (fun n => t.rdB pgLdc (R.LDC_CH_CAUSE_thermal_l n))))

/-- The field die starts from its own power-on: nothing but the owners stays (R432, R448). -/
def State.fieldStart (s : State) : State :=
  let own := fun (off _ : Nat) => off == 0x01C
  let t := ((s.resetInst pgFio own).resetInst pgLdc own).resetInst 0x032 own
  let t := t.resetInsts (· == iForce pgLdc)
  { t with fld := {} }

/-- FIELD_POWER_ON (R432, R448, R466): VFIELD rises above 10.0 V; outputs wait for 17.0 V (R428). -/
def execFieldPowerOn (s : State) : Res :=
  let s := s.start
  if s.fld.die then .next s
  else .next (s.fieldStart.modFld (fun x => { x with low := true }))

/-- FIELD_DIE_RESET (R476): VFIELD falls below 9.0 V. -/
def execFieldDieReset (s : State) : Res :=
  let s := s.start
  .next (s.fieldStart.modFld (fun x => { x with die := false, low := true }))

/-! ### The heartbeat (R13) and accesses that time out (R14) -/

/-- HEARTBEAT_SEND (R13): the control die sends a heartbeat; the field die accepts it where it is `valid`.
DEDUCED, log entry 108. -/
def execHeartbeatSend (valid : Bool) (s : State) : Res :=
  let s := s.start
  if !s.domOn 0 ∨ !s.fld.die then .next s
  else if valid then
    .next (((s.modFld (fun x => { x with hb := true })).wr 0x032 R.IDM_LINK_hb_ok 1).wr 0x032 R.IDM_LINK_link_up 1)
  else .next (s.bump 0x032 R.IDM_HB_REJ_count 1)

/-- HEARTBEAT_SILENCE (R13): 10 ms without a valid heartbeat. -/
def execHeartbeatSilence (s : State) : Res :=
  let s := s.start
  if !s.fld.die then .next s
  else
    let t := (s.modFld (fun x => { x with hb := false })).wr 0x032 R.IDM_LINK_hb_ok 0
    .next (t.ldcNotice.fioSilence)

/-- FIELD_ACCESS_TIMEOUT (R14): an access to page 0x030 + `k` gets no answer within 20 µs. -/
def execFieldAccessTimeout (r : Req) (k : Fin 3) (off : Fin 4096) (write : Bool) (s : State) : Res :=
  let s := s.start
  let p := 0x030 + k.val
  match s.accCause r p off.val write with
  | some c => .next (s.accErr r (pageAddr p off.val) write c)
  | none =>
    let t := (s.modFld (fun x => { x with timeout := true })).raise 0x032 1
    .next (t.accErr r (pageAddr p off.val) write 1)

/-! ### Supply loss (R476) -/

/-- SUPPLY_LOSS (R476): 0 VPHY18, 1 VPHY, 2 a DRAM supply, 3 VIO_A, 4 VIO_B. DEDUCED, log entry 111. -/
def execSupplyLoss (k : Fin 5) (s : State) : Res :=
  let s := s.start
  if k.val = 0 then
    let t := (List.range 32).foldl (fun (t : State) b =>
      if t.domOn (domOfBank b) && normalSt (t.lst b) && t.lst b != 4 then t.fall b true else t) s
    .next (if t.rd pgPair R.PAIR_STAT_plk = 0 then t else t.plkLost)
  else if k.val = 1 then
    let t := { s with pcie := {} }.fnDrains (s.fnsOf 0)
    .next ((List.range 3).foldl (fun (t : State) p =>
      if t.rdB pgEsw (R.ESW_P_STAT_link p) then t.ethDown p else t) t)
  else if k.val = 2 then .next { s with mem := s.mem.erase (fun a => decide (0x800000000 ≤ a)) }
  else if k.val = 4 then .next ({ s with pcie := {} }.fnDrains (s.fnsOf 0))
  else .next s

/-- A write of an LDC register of an accepted requester. -/
def State.ldcWrite (s : State) (off : Nat) (d : Word) : State :=
  if off = 0x020 then s.ldPut d
  else if off = 0x024 then s.ldCommands d.toNat true
  else if off = 0x028 then s.ldCommands d.toNat false
  else if off = 0x02C then s.ldClears d
  else if 0x100 ≤ off ∧ off % 32 = 0x0C then s.ldClamp ((off - 0x100) / 32) d
  else s.regWrite pgLdc R.tableLDC off d

end Sys2Proof.Machine
end

