-- ==== Sys2Proof/Machine/Sessions.lean ====
section
/-! DEFINITION. Ethernet session hosts: connection, loss and messages (R339, R340). Register messages stand with register
access. -/
namespace Sys2Proof.Machine

/-- Whether the firmware that terminates the sessions runs. -/
def State.firmware (s : State) : Bool := s.running.isSome && s.domOn 1 && s.domOn 5

/-- Whether a message of session `n` for function `f` is taken: the session is open and holds the function. -/
def State.sesHolds (s : State) (n f : Nat) : Bool := s.sesOpen.contains n && s.hostOf f == n

/-- SES_CONNECT (R340): the lowest free slot; a fourth session is refused. -/
def execSesConnect (s : State) : Res :=
  let s := s.start
  match [1, 2, 3].find? (fun n => !s.sesOpen.contains n) with
  | none => .next s
  | some n =>
    if !s.firmware then .next s
    else
      let t := { s with sesOpen := n :: s.sesOpen }
      .next (t.fnUpdates ((List.range 512).filter (fun f => s.hostOf f == n)))

/-- A session ends: its functions drain without DMA (R335, R337). -/
def State.sesLose (s : State) (n : Nat) : State :=
  if !s.sesOpen.contains n then s
  else
    let t := { s with sesOpen := s.sesOpen.filter (· != n) }
    (t.raise pgFnc 8).fnDrains (s.fnsOf n)

/-- SESSION_LOST (R339). DEDUCED, log entry 91. -/
def execSessionLost (n : Fin 4) (s : State) : Res := .next (s.start.sesLose n.val)

/-- SES_SUBMIT (R339): entries for pair `q`, which go into its ring, and the SQ tail doorbell. -/
def State.sesSubmit (s : State) (f q : Nat) (es : List Byte) : State :=
  let x := s.qp f q
  let n := es.length / 64
  let w := (List.range n).foldl
    (fun w i => w.writeBytes (x.sqBase + 64 * ((x.sqTail + i) % 2 ^ x.sqLog)) ((es.drop (64 * i)).take 64)) (s.window f)
  let t := if s.fnState f = 1 ∧ x.en then { s with windows := s.windows.set f w } else s
  t.doorbell f (BitVec.ofNat 32 (q * 2 ^ 16 + (x.sqTail + n) % 2 ^ x.sqLog))

/-- SES_SUBMIT (R339). -/
def execSesSubmit (n : Fin 4) (f : Fin 512) (q : Fin 1024) (es : List Byte) (s : State) : Res :=
  let s := s.start
  .next (if s.sesHolds n.val f.val && s.firmware then s.sesSubmit f.val q.val es else s)

/-- The size of a transfer window. -/
def windowSize : Nat := 0x1000000

/-- SES_DATA_PUT (R339). -/
def execSesDataPut (n : Fin 4) (f : Fin 512) (o : Word) (bs : List Byte) (s : State) : Res :=
  let s := s.start
  .next (
    if s.sesHolds n.val f.val && s.firmware && decide (o.toNat + bs.length ≤ windowSize) then
      { s with windows := s.windows.set f.val ((s.window f.val).writeBytes o.toNat bs) }
    else s)

/-- SES_DATA_GET (R339). -/
def execSesDataGet (n : Fin 4) (f : Fin 512) (o len : Word) (s : State) : Res :=
  let s := s.start
  .next (
    if s.sesHolds n.val f.val && s.firmware && decide (o.toNat + len.toNat ≤ windowSize) then
      s.emit (.ses f.val 0x07 ((s.window f.val).readBytes o.toNat len.toNat))
    else s)

/-- SES_KEEPALIVE (R339): the session is heard; the 3 s are the sender's time. DEDUCED, log entry 91. -/
def execSesKeepalive (_n : Fin 4) (s : State) : Res := .next s.start

/-- SES_KEEPALIVE_SEND (R339). -/
def execSesKeepaliveSend (s : State) : Res :=
  let s := s.start
  .next (if s.firmware then s.sesOpen.reverse.foldl (fun t n => t.emit (.ses n 0x0A [])) s else s)

end Sys2Proof.Machine
end

