-- ==== Sys2Proof/Machine/Crypto.lean ====
section
/-! DEFINITION. The crypto engine: jobs of the register port and of cocoons, the mailbox key operations, the grading
signature, and the tamper response (12_keys_tamper.md, R217, R218, R282 to R290). -/
namespace Sys2Proof.Machine

/-! ### Jobs of the register port (R282, R283) -/

/-- The type and the usage bit that an operation needs of its key slot: HMAC, SIGN, PUBKEY. -/
def opKey (op : Nat) : Option (Nat × Nat) :=
  if op = 2 then some (1, 6) else if op = 4 then some (2, 5) else if op = 6 then some (2, 4) else none

/-- The bytes an operation reads at CRY_SRC. -/
def Job.srcLen (j : Job) : Nat :=
  if j.op = 1 ∨ j.op = 2 then j.len else if j.op = 5 then 64 else if j.op = 4 ∧ j.coc.isSome then 32 else 0

/-- The bytes an operation puts out. -/
def opOut (op : Nat) : Nat := if op = 1 ∨ op = 2 ∨ op = 7 then 32 else if op = 4 ∨ op = 6 then 64 else 0

/-- The job that the registers name; `chr` tells that Chrysalis starts it. -/
def State.cryJob (s : State) (chr : Bool) : Job :=
  { op := s.rd pgCry R.CRY_OP_op, slot := s.rd pgCry R.CRY_OP_slot
    coc := if s.rdB pgCry R.CRY_OP_coc_job then some (s.rd pgCry R.CRY_OP_cocoon) else none
    src := s.rd2 pgCry R.CRY_SRC_W0_addr R.CRY_SRC_W1_addr, len := s.rd pgCry R.CRY_LEN_len
    dst := s.rd2 pgCry R.CRY_DST_W0_addr R.CRY_DST_W1_addr
    input := ((List.range 32).map (fun n => toBytes 4 (s.rd pgCry (R.CRY_IN_data n)))).flatten
    attr := s.rd pgKey R.KEY_NEW_ATTR_attr, info := s.keyInfo, chr := chr }

/-- Whether the memory operands of a job are reached: with the secure world's attributes, or wholly in the ranges of the
cocoon of a cocoon job (R282, R283). DEDUCED, log entry 81. -/
def State.jobReach (s : State) (j : Job) : Bool :=
  match j.coc with
  | none => s.secReach j.src j.srcLen || j.srcLen == 0
  | some c =>
    (j.srcLen == 0 || s.cocReach c j.src j.srcLen)
      && (opOut j.op == 0 || (s.cocReach c j.dst (opOut j.op) && s.writable j.dst (opOut j.op)))

/-- The checks at the start of a job: a status, or none (R272, R278, R283). DEDUCED, log entry 77. -/
def State.jobCheck (s : State) (j : Job) : Option Nat :=
  let keyed := match opKey j.op with
    | some (ty, use) => s.slotCheck j.slot j.coc (reqBit j.chr) ty use
    | none =>
      if j.op = 3 then s.deriveCheck j.slot ((j.input.headD 0).toNat % 64) j.attr j.info j.coc (reqBit j.chr) else none
  if j.op = 0 ∨ 7 < j.op then some Key.badCmd
  else if j.coc.any (fun c => !s.sealedCoc c) then some Key.denied
  else match keyed with
    | some r => some r
    | none => if s.jobReach j then none else some Key.badAddr

/-- A register-port job ends with a status. -/
def State.jobStatus (s : State) (st : Nat) : State :=
  let t := (s.wr pgCry R.CRY_STAT_busy 0).wr pgCry R.CRY_STAT_status st
  let t := { t with job := none }
  t.raise pgCry (if st = Key.tamper ∨ st = Key.destroyed then 3 else 1)

/-- CRY_OP.go (R282): the job starts, ends at once where a check fails, or finds the port busy. DEDUCED, log entry 81. -/
def State.cryGo (s : State) (chr : Bool) : State :=
  if s.job.isSome then s.wr pgCry R.CRY_STAT_status Key.busy
  else
    let j := s.cryJob chr
    let t := (List.range 16).foldl (fun t n => t.wr pgCry (R.CRY_OUT_data n) 0) s
    match t.jobCheck j with
    | some st => t.jobStatus st
    | none => { t.wr pgCry R.CRY_STAT_busy 1 with job := some j }

/-- The CRY_OP fields of a written word, and go. -/
def State.cryOpWrite (s : State) (r : Req) (d : Word) : State :=
  let t := [R.CRY_OP_cocoon, R.CRY_OP_coc_job, R.CRY_OP_slot, R.CRY_OP_op].foldl (fun t f => t.wr pgCry f (f.of d)) s
  if bitOf d.toNat 31 then t.cryGo (r == .chrysalis) else t

/-- CRY_OP.go with operation `op`. -/
def State.cryStart (s : State) (r : Req) (op : Nat) (d : Word) : State :=
  s.access r pgCry 0x020 (fun s =>
    s.cryOpWrite r ((d &&& 0xFFFFFF00#32) ||| BitVec.ofNat 32 (2 ^ 31 + op)))

/-- CRY_SHA256 (R282). -/
def execCrySha256 (r : Req) (d : Word) (s : State) : Res := .next (s.start.cryStart r 1 d)
/-- CRY_HMAC (R282). -/
def execCryHmac (r : Req) (d : Word) (s : State) : Res := .next (s.start.cryStart r 2 d)
/-- CRY_DERIVE (R282). -/
def execCryDerive (r : Req) (d : Word) (s : State) : Res := .next (s.start.cryStart r 3 d)
/-- CRY_SIGN (R282, R283). -/
def execCrySign (r : Req) (d : Word) (s : State) : Res := .next (s.start.cryStart r 4 d)
/-- CRY_VERIFY (R282). -/
def execCryVerify (r : Req) (d : Word) (s : State) : Res := .next (s.start.cryStart r 5 d)
/-- CRY_PUBKEY (R282). -/
def execCryPubkey (r : Req) (d : Word) (s : State) : Res := .next (s.start.cryStart r 6 d)
/-- CRY_RANDOM (R282). -/
def execCryRandom (r : Req) (d : Word) (s : State) : Res := .next (s.start.cryStart r 7 d)

/-- The output of a job: to CRY_OUT, or to CRY_DST of a cocoon job. DEDUCED, log entry 81. -/
def State.jobOut (s : State) (j : Job) (bs : List Byte) : State :=
  match j.coc with
  | some _ => s.store j.dst bs
  | none =>
    (List.range (bs.length / 4)).foldl
      (fun t n => t.wr pgCry (R.CRY_OUT_data n) (ofBytes ((bs.drop (4 * n)).take 4))) s

/-- The digest of SIGN: CRY_IN, or CRY_SRC in a cocoon job (R282, R283). -/
def State.jobDigest (s : State) (j : Job) : List Byte :=
  if j.coc.isSome then s.peekN j.src 32 else j.input.take 32

/-- The secret of a slot as 32 bytes. -/
def State.secretOf (s : State) (n : Nat) : List Byte := beBytes 32 (s.slotK n).secret

/-- The job's work: the state with its output, and its status. -/
def State.jobWork (s : State) (j : Job) : State × Nat :=
  if !s.jobReach j then (s, Key.badAddr)
  else if j.op = 1 then (s.jobOut j (sha256 (s.peekN j.src j.len)), Key.done)
  else if j.op = 2 then (s.jobOut j (hmac (s.secretOf j.slot) (s.peekN j.src j.len)), Key.done)
  else if j.op = 3 then
    s.derive j.slot ((j.input.headD 0).toNat % 64) j.attr j.info j.coc (reqBit j.chr)
  else if j.op = 4 then (s.jobOut j (ecSign (s.slotK j.slot).secret (s.jobDigest j)), Key.done)
  else if j.op = 5 then
    (s, if ecVerify (s.peekN j.src 64) (j.input.take 32) ((j.input.drop 32).take 64) then Key.done else Key.verifyFail)
  else if j.op = 6 then (s.jobOut j (ecPub (s.slotK j.slot).secret), Key.done)
  else (s.freeNext.jobOut j (toBytes 32 s.freeVal), Key.done)

/-- The register-port job ends. -/
def State.jobEnd (s : State) : State :=
  match s.job with
  | none => s
  | some j =>
    let x := s.jobWork j
    x.1.jobStatus x.2

/-- CRY_JOB_DONE (R282). DEDUCED, log entry 81. -/
def execCryJobDone (s : State) : Res := .next s.start.jobEnd

/-! ### The grading signature (R217, R218) -/

/-- GRD_SIGN_DONE (R217, R218): the sealed record with the lowest seq leaves the engine, signed with slot 1 where the key
store allows the grading unit's use of it. DEDUCED, log entry 66. -/
def execGrdSignDone (s : State) : Res :=
  let s := s.start
  match s.grdNext with
  | none => .next s
  | some c =>
    match (s.gr c).out with
    | none => .next s
    | some o =>
      match s.slotCheck 1 none 3 2 5 with
      | none => .next (s.grdSigned c (some (ecSign (s.slotK 1).secret (sha256 o.body))))
      | some _ => .next (s.grdSigned c none)

/-! ### Mailbox key operations (R284) -/

/-- The slot status of a key-store result. -/
def mbxStatus (r : Nat) : Nat :=
  if r = Key.done then 0
  else if r = Key.denied ∨ r = Key.type ∨ r = Key.empty ∨ r = Key.badSlot ∨ r = Key.inUse then 3
  else if r = Key.tamper ∨ r = Key.dead ∨ r = Key.destroyed then 5
  else 1

/-- The payload of request slot `k`. -/
def State.mbxPayload (s : State) (k : Nat) : List Byte := (s.mbxBytes k).drop 8

/-- The `n` bytes at `o` of a payload as a number. -/
def payN (p : List Byte) (o n : Nat) : Nat := ofBytes ((p.drop o).take n)

/-- A request of op `op` in slot `k` whose payload has `len` bytes is served by `f`; it waits while the engine has a job of the
port, and another length ends with BAD_LEN. DEDUCED, log entry 83. -/
def State.mbxServe (s : State) (k op : Nat) (len : List Byte → Nat) (f : State → List Byte → State) : State :=
  if !s.mbxServed k op || s.job.isSome then s
  else if s.mbxLen k ≠ len (s.mbxPayload k) then s.mbxAnswer k 2 []
  else f s (s.mbxPayload k)

/-- Chrysalis sets CRY_OP. DEDUCED, log entry 83. -/
def State.cryRegs (s : State) (op slot : Nat) : State :=
  let t := (s.wr pgCry R.CRY_OP_op op).wr pgCry R.CRY_OP_slot slot
  (t.wr pgCry R.CRY_OP_coc_job 0).wr pgCry R.CRY_OP_cocoon 0

/-- Chrysalis runs the job that the registers name and answers the request in slot `k`; an output goes to `dst`.
DEDUCED, log entry 83. -/
def State.mbxJob (s : State) (k op dst : Nat) : State :=
  if opOut op ≠ 0 ∧ !(s.secReach dst (opOut op) && s.writable dst (opOut op)) then
    (s.jobStatus Key.badAddr).mbxAnswer k (mbxStatus Key.badAddr) []
  else
    let t := (s.cryGo true).jobEnd
    let st := t.rd pgCry R.CRY_STAT_status
    let bs := (((List.range 16).map (fun n => toBytes 4 (t.rd pgCry (R.CRY_OUT_data n)))).flatten).take (opOut op)
    let t := if st = Key.done then t.store dst bs else t
    t.mbxAnswer k (mbxStatus st) []

/-- MBX_KEY_SIGN (R284). -/
def execMbxKeySign (k : Fin 12) (s : State) : Res :=
  .next (s.start.mbxServe k.val 0x0101 (fun _ => 44) (fun s p =>
    let t := s.cryRegs 4 (payN p 0 1)
    let t := (List.range 8).foldl (fun t n => t.wr pgCry (R.CRY_IN_data n) (payN p (12 + 4 * n) 4)) t
    t.mbxJob k.val 4 (payN p 4 8)))

/-- MBX_KEY_HMAC (R284). -/
def execMbxKeyHmac (k : Fin 12) (s : State) : Res :=
  .next (s.start.mbxServe k.val 0x0102 (fun _ => 24) (fun s p =>
    let t := (s.cryRegs 2 (payN p 0 1)).wr2 pgCry R.CRY_SRC_W0_addr R.CRY_SRC_W1_addr (payN p 4 8)
    let t := t.wr pgCry R.CRY_LEN_len (payN p 12 4)
    if 2 ^ 40 ≤ payN p 4 8 then (t.jobStatus Key.badAddr).mbxAnswer k.val 1 []
    else t.mbxJob k.val 2 (payN p 16 8)))

/-- MBX_KEY_DERIVE (R284). -/
def execMbxKeyDerive (k : Fin 12) (s : State) : Res :=
  .next (s.start.mbxServe k.val 0x0103 (fun p => if payN p 8 1 ≤ 44 then 12 + payN p 8 1 else 2 ^ 16) (fun s p =>
    let t := (s.cryRegs 3 (payN p 0 1)).wr pgKey R.KEY_NEW_ATTR_attr (payN p 4 4)
    let t := (t.wr pgKey R.KEY_INFO_LEN_len (payN p 8 1)).wr pgCry (R.CRY_IN_data 0) (payN p 1 1)
    let t := (List.range 11).foldl (fun t n => t.wr pgKey (R.KEY_INFO_info n) (payN p (12 + 4 * n) 4)) t
    t.mbxJob k.val 3 0))

/-- MBX_KEY_PUBKEY (R284). -/
def execMbxKeyPubkey (k : Fin 12) (s : State) : Res :=
  .next (s.start.mbxServe k.val 0x0104 (fun _ => 12) (fun s p =>
    (s.cryRegs 6 (payN p 0 1)).mbxJob k.val 6 (payN p 4 8)))

/-- MBX_KEY_RANDOM (R284). -/
def execMbxKeyRandom (k : Fin 12) (s : State) : Res :=
  .next (s.start.mbxServe k.val 0x0105 (fun _ => 8) (fun s p => (s.cryRegs 7 0).mbxJob k.val 7 (payN p 0 8)))

/-- MBX_KEY_INVALIDATE (R280, R284). -/
def execMbxKeyInvalidate (k : Fin 12) (s : State) : Res :=
  .next (s.start.mbxServe k.val 0x0106 (fun _ => 1) (fun s p =>
    let t := s.keyCmd .chrysalis (BitVec.ofNat 32 (2 ^ 30 + payN p 0 1 % 64))
    t.mbxAnswer k.val (mbxStatus (t.rd pgKey R.KEY_STATE_result)) []))

/-! ### Tamper response (R286) -/

/-- What the VBAT island does at a cause: the latches, the time of the first cause, and the zeroized root. The VBAT time is a
free value: the model has no clock. DEDUCED, log entry 80. -/
def State.tamperVbat (s : State) (cause : Nat) : State :=
  let first := s.rd pgTmp R.TMP_STAT_cause = 0
  let t := s.setBits pgTmp R.TMP_STAT_cause cause
  let t := t.wr pgTmp R.TMP_STAT_tampered 1
  let t := if first then
      let v := (Config.opTime t.stamps).toNat
      let t := { t with stamps := t.stamps + 1 }
      ((t.wr pgTmp R.TMP_TIME_W0_s (v / 256)).wr pgTmp R.TMP_TIME_W1_frac v).wr pgTmp R.TMP_TIME_W1_valid 1
    else t
  { t with bbRoot := 0, bbMark := 0, bbCheck := false }

/-- What the device does while SEC is on: the store is DEAD, the running job aborts, the secure and Chrysalis debug enables
fall, and TMP_INT_STAT.tamper is raised. -/
def State.tamperSec (s : State) : State :=
  let t := s.keysDead.abortJob Key.tamper
  let t := [R.DBG_EN_s_inv, R.DBG_EN_s_ninv, R.DBG_EN_ch_inv, R.DBG_EN_ch_ninv].foldl (fun t f => t.wr pgDbg f 0) t
  t.dbgChanged

/-- The tamper response (R286). -/
def State.tamperResponse (s : State) (cause : Nat) : State :=
  let t := (s.tamperVbat cause).setBits pgTmp R.TMP_LIVE_cause cause
  let t := if t.domOn 2 then t.tamperSec else t
  t.raise pgTmp 3

/-- A cause that is enabled (R285): 0 to 3 the pins, 4 temperature, 5 vbat_low, 6 glitch, 7 clock. A pin whose partner is in
dynamic mode is watched through the partner. -/
def State.tamperEnabled (s : State) (c : Nat) : Bool :=
  if c < 4 then
    let m := s.rd pgTmp (R.TMP_PIN_mode c)
    if c % 2 = 1 then (m == 1 || m == 2) && s.rd pgTmp (R.TMP_PIN_mode (c - 1)) != 3 else m != 0
  else if c = 6 then s.rdB pgTmp R.TMP_CFG_glitch_en
  else if c = 7 then s.rdB pgTmp R.TMP_CFG_clock_en
  else true

end Sys2Proof.Machine
end

