-- ==== Sys2Proof/Machine/Update.lean ====
section
/-! DEFINITION. Firmware banks, the image format, the service port and the update commands (13_firmware_update.md, R293 to R311).
Activation by a reset or live stands with the resets. -/
namespace Sys2Proof.Machine

/-! ### Banks and the boot record (R293, R294) -/

namespace Img
def empty : Nat := 0
def loading : Nat := 1
def verified : Nat := 2
def trial : Nat := 3
def good : Nat := 4
def bad : Nat := 5
end Img

/-- The first address of bank `b` (0 A, 1 B). -/
def bankBase (b : Nat) : Nat := if b = 0 then 0x01000000 else 0x01300000

/-- The state of bank `b`. -/
def Boot.st (x : Boot) (b : Nat) : Nat := if b = 0 then x.stA else x.stB

/-- Set the state of bank `b`. -/
def Boot.setSt (x : Boot) (b v : Nat) : Boot := if b = 0 then { x with stA := v } else { x with stB := v }

/-- The `n` bytes at offset `o` of bank `b`'s header as a number. -/
def State.hdrN (s : State) (b o n : Nat) : Nat := ofBytes (s.load (bankBase b + o) n)

/-- UPD_BANK, the versions and the counter show the boot record and the images. -/
def State.updSync (s : State) : State :=
  let x := s.boot
  let ver := fun b o => if x.st b = 0 then 0 else s.hdrN b o 4
  let t := (s.wr pgUpd R.UPD_BANK_state_a x.stA).wr pgUpd R.UPD_BANK_state_b x.stB
  let t := (t.wr pgUpd R.UPD_BANK_trial_left x.left).wr pgUpd R.UPD_BANK_pref x.pref
  let t := (t.wr pgUpd R.UPD_BANK_revoked x.revoked).wr pgUpd R.UPD_SEC_CNT_count x.cnt
  let t := t.wr pgUpd R.UPD_BANK_running (s.running.getD x.pref)
  let t := (t.wr pgUpd R.UPD_FW_VER_A_fw_ver (ver 0 8)).wr pgUpd R.UPD_FW_VER_B_fw_ver (ver 1 8)
  (t.wr pgUpd R.UPD_SEC_VER_A_sec_ver (ver 0 12)).wr pgUpd R.UPD_SEC_VER_B_sec_ver (ver 1 12)

/-- The boot record is written. -/
def State.setBoot (s : State) (x : Boot) : State := { s with boot := x }.updSync

/-- The session: 0 IDLE, 1 LOADING, 2 VERIFIED. -/
def State.session (s : State) : Nat := s.rd pgUpd R.UPD_STAT_session

/-- The target bank (R295). -/
def State.target (s : State) : Nat :=
  match s.running with
  | some b => 1 - b
  | none =>
    let ga := s.boot.stA == Img.good
    let gb := s.boot.stB == Img.good
    if ga && gb then
      if s.svc.failed = 1 then 0 else if s.svc.failed = 2 then 1 else 1 - s.boot.pref
    else if ga then 1 else 0

/-! ### Images (R296 to R298) -/

/-- A little-endian field of a header. -/
def hN (h : List Byte) (o n : Nat) : Nat := ofBytes ((h.drop o).take n)

/-- Whether the bytes from `lo` up to `hi` of a header are zero. -/
def hZero (h : List Byte) (lo hi : Nat) : Bool := ((h.drop lo).take (hi - lo)).all (· == 0)

/-- Whether a section of `count` blocks from `first` lies within blocks 1 to `n`, with its 4-byte aligned entry inside. -/
def sectionOk (n first count entry : Nat) : Bool :=
  decide (1 ≤ first ∧ 1 ≤ count ∧ first + count ≤ n + 1 ∧ entry % 4 = 0 ∧ 4096 * first ≤ entry
    ∧ entry < 4096 * (first + count))

/-- The rules of the header table but those with a result of their own (R296). -/
def headerOk (h : List Byte) : Bool :=
  let n := hN h 0x010 2
  let cf := hN h 0x018 2
  let cc := hN h 0x01A 2
  let af := hN h 0x01C 2
  let ac := hN h 0x01E 2
  decide (hN h 0 4 = 0x57465A54 ∧ hN h 4 2 = 1 ∧ 1 ≤ n ∧ n ≤ 767 ∧ hN h 0x012 1 ≤ 3 ∧ hN h 0x013 1 ≤ 1)
    && decide (hN h 0x014 1 < 16) && !bitOf (hN h 0x014 1) (hN h 0x012 1)
    && hZero h 0x015 0x018 && hZero h 0x028 0x030 && hZero h 0x0C0 0x100 && hZero h (0x100 + 4 * n) 0xFC0
    && (hN h 0x013 1 == 1 || hZero h 0x030 0x040)
    && sectionOk n cf cc (hN h 0x020 4) && sectionOk n af ac (hN h 0x024 4)
    && decide (cf + cc ≤ af ∨ af + ac ≤ cf)

/-- The check of a header (R296, R297): a result code of R304, or none where the image is acceptable. DEDUCED, log entry 84. -/
def State.headerCheck (s : State) (h : List Byte) : Option Nat :=
  let ki := hN h 0x012 1
  if !headerOk h then some 0x05
  else if hN h 6 2 ≠ 0x7A51 then some 0x06
  else if hN h 0x013 1 = 1 ∧ hN h 0x030 16 ≠ Config.deviceUid.toNat then some 0x07
  else if bitOf s.boot.revoked ki ∨ beNat (sha256 ((h.drop 0x080).take 64)) ≠ (Config.keyDigest ki).toNat then some 0x08
  else if hN h 0x00C 4 < s.boot.cnt then some 0x09
  else none

/-- The header of bank `b`. -/
def State.header (s : State) (b : Nat) : List Byte := s.load (bankBase b) 4096

/-- The SHA-256 of `n` blocks of bank `b` from block `i`. -/
def State.blocksSha (s : State) (b i n : Nat) : List Byte := sha256 (s.load (bankBase b + 4096 * i) (4096 * n))

/-- Whether the payload digest holds (R298). -/
def State.digestOk (s : State) (b : Nat) : Bool :=
  let h := s.header b
  s.blocksSha b 1 (hN h 0x010 2) == (h.drop 0x040).take 32

/-- Whether the signature holds (R298). -/
def State.sigOk (s : State) (b : Nat) : Bool :=
  let h := s.header b
  ecVerify ((h.drop 0x080).take 64) (sha256 (h.take 0xFC0)) ((h.drop 0xFC0).take 64)

/-- Whether the image of bank `b` is acceptable and genuine (R297, R298), as the boot ROM checks it. DEDUCED, log entry 40. -/
def State.imageOk (s : State) (b : Nat) : Bool :=
  let h := s.header b
  (s.headerCheck h).isNone && (s.blocksSha b (hN h 0x018 2) (hN h 0x01A 2) == (h.drop 0x060).take 32)
    && s.digestOk b && s.sigOk b

/-! ### The service port (R299 to R305) -/

/-- Whether the port works: Chrysalis runs and CLK_GATE.svc is 1. -/
def State.svcOn (s : State) : Bool := s.domOn 0 && s.domOn 2 && s.chr != 0 && s.rdB pgClk R.CLK_GATE_svc

/-- A command ends with a result at once. -/
def State.svcResult (s : State) (r : Nat) : State :=
  let t := s.wr pgUpd R.UPD_STAT_result r
  if r = 0 then t else t.raise pgUpd 8

/-- What discards or refuses a command other than STATUS and ID: its length, a running command, a tamper or the lock. -/
def State.svcBlocked (s : State) (lenOk : Bool) : Option Nat :=
  if !lenOk then some 0x03
  else if s.rdB pgUpd R.UPD_STAT_busy then some 0x01
  else if s.tampered then some 0x12
  else if s.rdB pgUpd R.UPD_CFG_svc_lock && !s.svc.recovery then some 0x11
  else none

/-- A command that sets busy: it will end with `r`. -/
def State.svcBusy (s : State) (r : Nat) : State :=
  let t := s.wr pgUpd R.UPD_STAT_busy 1
  { t with svc := { t.svc with res := r } }

/-- A transaction of a command other than STATUS and ID. -/
def State.svcCmd (s : State) (lenOk : Bool) (k : State → State) : State :=
  if !s.svcOn then s
  else match s.svcBlocked lenOk with
    | some r => s.svcResult r
    | none => k s

/-- The status bytes (R303). -/
def State.statusBytes (s : State) : List Byte :=
  let b1 := s.rd pgUpd R.UPD_STAT_busy + 2 * b2n s.svc.recovery + 4 * b2n s.tampered
    + 8 * s.rd pgUpd R.UPD_CFG_svc_lock
  toBytes 1 s.session ++ toBytes 1 b1 ++ toBytes 1 (s.rd pgUpd R.UPD_STAT_result) ++ toBytes 1 s.target
    ++ toBytes 2 s.svc.received.length ++ toBytes 2 s.svc.last

/-- SVC_STATUS (R300, R302, R303): `n` bytes follow the opcode. -/
def execSvcStatus (n : Nat) (s : State) : Res :=
  let s := s.start
  if !s.svcOn || n != 9 then .next s
  else .next ({ s with svc := { s.svc with attn := false } }.emit (.svc s.statusBytes))

/-- The identity bytes (R303). -/
def State.idBytes44 (s : State) : List Byte :=
  let ver := fun b o => if s.boot.st b = 0 then 0 else s.hdrN b o 4
  toBytes 2 0x7A51 ++ toBytes 2 Config.romVersion.toNat ++ toBytes 16 Config.deviceUid.toNat
    ++ toBytes 4 (ver 0 8) ++ toBytes 4 (ver 1 8) ++ toBytes 1 s.boot.stA ++ toBytes 1 s.boot.stB
    ++ toBytes 1 (s.running.getD 0xFF) ++ toBytes 1 s.boot.pref ++ toBytes 4 s.boot.cnt
    ++ toBytes 4 (ver 0 12) ++ toBytes 4 (ver 1 12)

/-- SVC_ID (R300, R303). -/
def execSvcId (n : Nat) (s : State) : Res :=
  let s := s.start
  if !s.svcOn || n != 45 then .next s else .next (s.emit (.svc s.idBytes44))

/-- The session ends with the target bank EMPTY. -/
def State.svcEnd (s : State) : State :=
  let t := s.setBoot (s.boot.setSt s.target Img.empty)
  let t := (t.wr pgUpd R.UPD_STAT_session 0).wr pgUpd R.UPD_BLOCKS_received 0
  { t with svc := { t.svc with received := [] } }

/-- HEADER with 4,096 header bytes (R301, R306). -/
def State.svcHeader (s : State) (h : List Byte) : State :=
  let b := s.target
  let x := s.boot.setSt b Img.empty
  let x := match s.running with
    | some r => if s.boot.st b = Img.verified ∨ s.boot.st b = Img.trial then { x with pref := r } else x
    | none => x
  let t := s.svcEnd.setBoot x
  match s.headerCheck h with
  | some r => t.svcBusy r
  | none =>
    let t := t.store (bankBase b) h
    let t := t.setBoot (x.setSt b Img.loading)
    let t := (t.wr pgUpd R.UPD_STAT_session 1).wr pgUpd R.UPD_BLOCKS_n_blocks (hN h 0x010 2)
    (t.svcBusy 0).raise pgUpd 1

/-- SVC_HEADER (R300, R301). -/
def execSvcHeader (h : List Byte) (s : State) : Res :=
  .next (s.start.svcCmd (h.length == 4096) (fun s => s.svcHeader h))

/-- BLOCK with index `i` and 4,096 bytes; `fail` tells that the read-back differs (R301). DEDUCED, log entry 84. -/
def State.svcBlock (s : State) (i : Nat) (bs : List Byte) (fail : Bool) : State :=
  let b := s.target
  let t := { s with svc := { s.svc with last := i } }
  if s.session ≠ 1 then t.svcBusy 0x04
  else if i = 0 ∨ s.rd pgUpd R.UPD_BLOCKS_n_blocks < i then t.svcBusy 0x0A
  else if crc32c bs ≠ s.hdrN b (0x100 + 4 * (i - 1)) 4 then t.svcBusy 0x0B
  else
    let a := bankBase b + 4096 * i
    let t := if fail then { t.store a (t.freeBytes 4096) with free := t.free + 128 } else t.store a bs
    let l := if fail then t.svc.received.filter (· != i)
      else if t.svc.received.contains i then t.svc.received else i :: t.svc.received
    let t := { t with svc := { t.svc with received := l } }
    (t.wr pgUpd R.UPD_BLOCKS_received l.length).svcBusy (if fail then 0x13 else 0)

/-- SVC_BLOCK (R300, R301): the bytes after the opcode. -/
def execSvcBlock (d : List Byte) (fail : Bool) (s : State) : Res :=
  .next (s.start.svcCmd (d.length == 4098) (fun s => s.svcBlock (hN d 0 2) (d.drop 2) fail))

/-- SVC_VERIFY (R300, R301): `n` bytes follow the opcode. -/
def execSvcVerify (n : Nat) (s : State) : Res :=
  .next (s.start.svcCmd (n == 0) (fun s =>
    let t := s.svcBusy (if s.session = 0 then 0x04 else if s.svc.received.length < s.rd pgUpd R.UPD_BLOCKS_n_blocks then 0x0C else 0)
    { t with svc := { t.svc with verify := t.svc.res == 0 } }))

/-- SVC_ABORT (R300): `n` bytes follow the opcode. -/
def execSvcAbort (n : Nat) (s : State) : Res :=
  .next (s.start.svcCmd (n == 0) (fun s => if s.session = 0 then s.svcResult 0x04 else s.svcEnd.svcResult 0))

/-- SVC_BAD_OPCODE (R300). DEDUCED, log entry 84. -/
def execSvcBadOpcode (s : State) : Res :=
  let s := s.start
  .next (if s.svcOn then s.svcResult 0x02 else s)

/-- The work of VERIFY (R298, R301): the result, with the job of the register port. DEDUCED, log entry 84. -/
def State.svcVerify (s : State) : State :=
  let b := s.target
  let h := s.header b
  if !s.digestOk b then { s with svc := { s.svc with res := 0x0D } }
  else
    let ok := s.sigOk b
    let inp := sha256 (h.take 0xFC0) ++ (h.drop 0xFC0).take 64
    let t := s.cryRegs 5 0
    let t := (List.range 24).foldl (fun t n => t.wr pgCry (R.CRY_IN_data n) (hN inp (4 * n) 4)) t
    let t := t.jobStatus (if ok then Key.done else Key.verifyFail)
    if ok then
      let t := t.setBoot (t.boot.setSt b Img.verified)
      (t.wr pgUpd R.UPD_STAT_session 2).raise pgUpd 2
    else { t with svc := { t.svc with res := 0x0E } }

/-- SVC_CMD_DONE (R301, R302): the busy command ends; VERIFY waits for the register port. -/
def execSvcCmdDone (s : State) : Res :=
  let s := s.start
  if !s.rdB pgUpd R.UPD_STAT_busy || (s.svc.verify && s.job.isSome) then .next s
  else
    let t := if s.svc.verify then s.svcVerify else s
    let r := t.svc.res
    let t := { t with svc := { t.svc with verify := false, res := 0, attn := true } }
    .next ((t.wr pgUpd R.UPD_STAT_busy 0).svcResult r)

/-! ### UPD_CMD (R309) -/

/-- An UPDATE record (R455). -/
def State.updRecord (s : State) (bit : Nat) : State :=
  s.report 0x04 pgUpd 0xFFFF [bit, s.regWord pgUpd R.tableUPD 0x02C, s.fwVer]

/-- A UPD_CMD write: confirm is bit 31, revert bit 30. -/
def State.updCmd (s : State) (d : Word) : State :=
  let c := bitOf d.toNat 31
  let v := bitOf d.toNat 30
  let res := fun (t : State) r => t.wr pgUpd R.UPD_STAT_cmd_result r
  if c && v then res s 7
  else if c then
    match s.running with
    | none => res s 1
    | some b =>
      if s.boot.st b ≠ Img.trial then res s 1
      else
        let x := s.boot.setSt b Img.good
        let x := { x with cnt := max x.cnt (s.hdrN b 0x00C 4), revoked := x.revoked ||| (s.hdrN b 0x014 1 % 16) }
        (res (s.setBoot x) 0).updRecord 0
  else if v then
    match s.running with
    | none => res s 1
    | some b =>
      if (s.headerCheck (s.header (1 - b))).isSome then res s 2
      else (res (s.setBoot { s.boot with pref := 1 - b }) 0).updRecord 0
  else s

/-- UPD_CONFIRM (R309). -/
def execUpdConfirm (r : Req) (d : Word) (s : State) : Res :=
  .next (s.start.access r pgUpd 0x020 (fun s => s.updCmd (d ||| BitVec.ofNat 32 (2 ^ 31))))

/-- UPD_REVERT (R309). -/
def execUpdRevert (r : Req) (d : Word) (s : State) : Res :=
  .next (s.start.access r pgUpd 0x020 (fun s => s.updCmd (d ||| BitVec.ofNat 32 (2 ^ 30))))

end Sys2Proof.Machine
end

