-- ==== Sys2Proof/Machine/Domain.lean ====
section
/-! DEFINITION. Power domains: requests, and what a domain loses when it goes off and holds when it comes on
(02_timing_power_startup.md, R41 to R47; R399, R417, R432, R448, R481). -/
namespace Sys2Proof.Machine

/-- The switched domain whose loss resets register instance `i`; none for the AON and VBAT islands. DEDUCED, log entry 33. -/
def instDomain (i : Nat) : Option Nat :=
  let j := i % 0x8000
  if j < 0x400 then domOf j
  else if 0x800 ≤ j ∧ j < 0x900 then some 2
  else if 0x2000 ≤ j ∧ j < 0x3000 then some 5
  else some 0

/-- The registers of domain `d` return to their reset values. DEDUCED, log entry 33. -/
def State.dropRegs (s : State) (d : Nat) : State :=
  let t := s.resetInsts (fun i => instDomain i == some d)
  if d = 0 then { t with fields := resetFields.foldl (fun m e => m.set e.1 e.2) t.fields } else t

/-- The bytes of memory from `lo` up to `hi` are lost: they read as memory that nothing has written. -/
def State.loseMem (s : State) (lo hi : Nat) : State := { s with mem := s.mem.erase (fun a => decide (lo ≤ a ∧ a < hi)) }

/-- FABRIC goes off: its registers and what its blocks hold are lost; the step store, the eMRAM with the next cell record sequence, the
state of factory test access and the wake state of the CAN channels stay (R216, R458, R481). Pending event records are counted by AON (R453).
DEDUCED, log entry 34. -/
def State.loseFabric (s : State) : State :=
  let t := (s.dropRegs 0).loseMem 0x10000000 0x10400000
  let t := [R.EVR_FTA_state, R.EVR_FTA_fails].foldl (fun (t : State) f => t.wr pgEvr f (s.rd pgEvr f)) t
  let t := t.wr pgGrd R.GRD_SEQ_seq (s.rd pgGrd R.GRD_SEQ_seq)
  { t with
    snap := [], half := [], ports := [], grdIn := [], logAcc := [], logSeq := [], logCfg := false, tags := [], roles := []
    plk := {}, mirror := [], chMap := [], moves := [], queues := [], pool := {}, portQ := [], pairs := [], pcie := {}
    noDma := [], sesOpen := [], windows := [], ldgCmd := none, gateRel := [], missAt := none, lenNew := none, lenOld := none
    len := 200, k := 0, w := 0, tally := 0, led := 0, fta := none, svc := {}
    cans := s.cans.mapVals (fun x => { latch := x.latch, dwell := x.dwell })
    evr := { aonDrop := min (s.evr.aonDrop + s.evr.pend.length) (2 ^ 32 - 1), lostPrev := s.rd pgEvr R.EVR_LOST_count } }

/-- APP goes off: the harts stop, and mailbox slots 0 to 11 return to FREE (R269). -/
def State.loseApp (s : State) : State :=
  let t := { s with harts := [] }
  (List.range 12).foldl (fun (t : State) k => t.wr pgMbx (R.MBX_STATE_state k) 0) t

/-- SEC goes off: keys, the running job and Chrysalis stop; the key store is CLOSED, or DEAD while the device is TAMPERED
(R272). -/
def State.loseSec (s : State) : State :=
  let t := { s.dropRegs 2 with keys := [], job := none, chr := 0, chrPc := 0, offers := [], drain := none, saved := [] }
  t.wr pgKey R.KEY_STATE_state (if t.tampered then 2 else 0)

/-- A bank island goes off. -/
def State.loseBanks (s : State) (d : Nat) : State :=
  let gone := fun b => domOfBank b == d
  { s.dropRegs d with
    banks := s.banks.drop gone, chans := s.chans.drop (fun c => gone (bankOf c)), vcore := s.vcore.drop (· == d)
    grdIn := s.grdIn.filter (fun m => match m with
      | .entry e => !gone (bankOf e.chan)
      | .stepEnd e => !gone (bankOf e.chan)) }

/-- NET goes off: the last f and the AON period are kept; line time runs on while FABRIC stays on (R399). -/
def State.loseNet (s : State) : State :=
  let n := { s.net with f := s.rd pgPtp R.PTP_FREQ_f, cal := s.rd pgPtp R.PTP_AON_CAL_period, held := true }
  { s.dropRegs 5 with esw := {}, net := n }

/-- MEM goes off: the DRAM loses its content, and the queue pool sees it (R344). -/
def State.loseMem6 (s : State) : State :=
  (s.qpmMemOff.loseMem 0x800000000 0xA00000000).wr pgSys R.SYS_DRAM_STAT_ready 0

/-- What domain `d` loses when it goes off. DEDUCED, log entry 33. -/
def State.loseDomain (s : State) (d : Nat) : State :=
  if d = 0 then
    let t := (List.range 4).foldl (fun (t : State) n => t.nwmForce n) s
    { t.loseFabric with grd := [], net := { t.net with held := false } }
  else if d = 1 then s.loseApp
  else if d = 2 then s.loseSec
  else if d = 5 then s.loseNet
  else if d = 6 then s.loseMem6
  else if d = 7 then (s.nwmForce 0).nwmForce 1
  else s.loseBanks d

/-- PWR_REQ_STAT shows DONE where it shows PENDING for domain `d` (R482). -/
def State.reqDone (s : State) (d : Nat) : State :=
  if s.rd pgPwr R.PWR_REQ_STAT_status = 1 ∧ s.rd pgPwr R.PWR_REQ_STAT_domain = d then s.wr pgPwr R.PWR_REQ_STAT_status 0 else s

/-- NET starts (R399): with the line time that ran on, with the stored one, or in FREE with line time 0. `ticks` AON ticks have
passed since line time was stored. -/
def State.startNet (s : State) (ticks : Nat) : State :=
  let n := s.net
  let hold := fun (t : State) =>
    let t := ((t.wr pgPtp R.PTP_STAT_state 3).wr pgPtp R.PTP_STAT_holdover 1).wr pgPtp R.PTP_FREQ_f n.f
    (t.wr pgPtp R.PTP_ADJ_a n.f).wr pgPtp R.PTP_AON_CAL_period n.cal
  if n.held then { hold s with net := { n with held := false } }
  else match n.stored with
    | some x =>
      let t := (hold s).renumber ((x + ticks * n.cal) / (s.tNs * 65536))
      { t with net := { n with stored := none }, evr := { t.evr with ltValid := true } }
    | none => s.renumber 0

/-- A bank island comes on: its banks take part from the next superframe whose work is to start. -/
def State.startBanks (s : State) (d : Nat) : State :=
  let alone := s.liveBanks = []
  let t := (banksOf d).foldl (fun (t : State) b => t.modBk b (fun x => { x with cEnd := s.w })) s
  if alone then { t with tally := s.w, led := s.w } else t

/-- Domain `d` is on. -/
def State.onBit (s : State) (d : Nat) (on : Bool) : State :=
  let t := s.clrBits pgPwr R.PWR_DOM_STAT_busy (2 ^ d)
  if on then t.setBits pgPwr R.PWR_DOM_STAT_on (2 ^ d) else t.clrBits pgPwr R.PWR_DOM_STAT_on (2 ^ d)

/-- Domain `d` comes on with its registers at their reset values (R47, R432, R448, R453). DEDUCED, log entry 33. -/
def State.domainOn (s : State) (d ticks : Nat) : State :=
  let t := if d = 0 then s.updSync.scanStart
    else if d = 3 ∨ d = 4 then s.startBanks d
    else if d = 5 then s.startNet ticks
    else if d = 7 then (s.fioReset.ldcReset).resetInst 0x032 (fun off _ => off == 0x01C)
    else s
  t.onBit d true

/-- Domain `d` goes off. DEDUCED, log entries 33, 34. -/
def State.domainOff (s : State) (d : Nat) : State := (s.loseDomain d).onBit d false

/-- A PWR_DOM_REQ write of an accepted requester (R44 to R46, R482). DEDUCED, log entry 32. -/
def State.domReq (s : State) (r : Req) (d : Word) : State :=
  let n := R.PWR_DOM_REQ_domain.of d
  let st := s.domStatus r n (R.PWR_DOM_REQ_on.ofB d)
  if st = 1 then (s.reqStat r n 1).domBusy n
  else if st = 0 then s.reqStat r n 0
  else s.reqRefused r n st

/-- DOM_REQ_ON (R44). -/
def execDomReqOn (r : Req) (d : Word) (s : State) : Res :=
  .next (s.start.access r pgPwr 0x020 (fun s => s.domReq r (d ||| 0x100)))

/-- DOM_REQ_OFF (R45). -/
def execDomReqOff (r : Req) (d : Word) (s : State) : Res :=
  .next (s.start.access r pgPwr 0x020 (fun s => s.domReq r (d &&& 0xFFFFFEFF)))

/-- DOMAIN_ON_DONE (R47): a domain that was requested on reaches that state; `ticks` AON ticks have passed since line time was
stored. -/
def execDomainOnDone (d : Fin 8) (ticks : Nat) (s : State) : Res :=
  let s := s.start
  let d := d.val
  if bitOf (s.rd pgPwr R.PWR_DOM_STAT_busy) d && !s.domOn d then .next ((s.domainOn d ticks).reqDone d) else .next s

/-- DOMAIN_OFF_DONE (R47): a domain that was requested off has ended its accepted accesses and is off. -/
def execDomainOffDone (d : Fin 8) (s : State) : Res :=
  let s := s.start
  let d := d.val
  if bitOf (s.rd pgPwr R.PWR_DOM_STAT_busy) d && s.domOn d then .next ((s.domainOff d).reqDone d) else .next s

end Sys2Proof.Machine
end

