-- ==== Sys2Proof/Machine/Reset.lean ====
section
/-! DEFINITION. The three kinds of reset and their sources (02_timing_power_startup.md, R53 to R56; R23, R124, R189, R200, R214, R272,
R306, R399, R417, R430, R447, R453, R481). -/
namespace Sys2Proof.Machine

/-- The kinds of reset (R53). -/
inductive Rst where
  | powerOn | cold | warm
  deriving DecidableEq, Repr

/-- AON stores line time, where it is valid, at the start of a cold or warm reset and at entry to SLEEP and AGEING_WATCH (R399); it is
no longer valid from then on (R450). The position inside the superframe is a free value. DEDUCED, log entry 112. -/
def State.storeTime (s : State) : State :=
  let x := if s.evr.ltValid then some (s.boundaryNs s.k * 65536 + s.freeVal % (s.tNs * 65536)) else none
  let n := if s.domOn 5 then
      { s.net with f := s.rd pgPtp R.PTP_FREQ_f, cal := s.rd pgPtp R.PTP_AON_CAL_period } else s.net
  { s.freeNext with net := { n with stored := x, held := false }, evr := { s.evr with ltValid := false } }

/-- A reset, a power loss or a sleep entry ends a session of the service port: its target bank is EMPTY (R306). -/
def State.loseSession (s : State) : State := if s.session = 0 then s else s.svcEnd

/-- The open cell records. DEDUCED, log entry 38. -/
def State.openRecords (s : State) : Nat := (s.grd.filter (fun e => e.2.opn.isSome)).length

/-- Field `off`, `lo` of a page is xxx_OWNER. -/
def isOwner (off _ : Nat) : Bool := off == 0x01C

/-- xxx_OWNER of the listed pages returns to its reset value (R23). -/
def State.resetOwners (s : State) (l : List Nat) : State :=
  l.foldl (fun (t : State) p => t.resetInst p (fun off lo => !isOwner off lo)) s

/-- The pages of the AON island with those of the VBAT island. -/
def aonPages : List Nat := [pgSys, pgPwr, pgClk, pgRst, pgTmp, pgNwm]

/-- The pages of the field die. -/
def fieldPages : List Nat := [pgFio, pgLdc, pgIdm]

/-- Everything outside the AON and VBAT islands and the field die is reset: what SEC, APP, NET, both bank islands and FABRIC
hold (R54, R124, R189, R200). -/
def State.loseLogic (s : State) : State :=
  (((((s.loseApp.loseSec).loseNet).loseBanks 3).loseBanks 4).loseFabric)

/-- A power-on reset of the AON island (R54): the TMP registers live in the VBAT island and stay (R285), the power-cycle count advances, FIELD is off. -/
def State.aonReset (s : State) : State :=
  let cyc := s.rd pgRst R.RST_PWRCYC_count
  let t := (aonPages.filter (· != pgTmp)).foldl (fun (t : State) p => t.resetInst p (fun _ _ => false)) s
  let t := t.wr pgRst R.RST_PWRCYC_count (cyc + 1)
  let t := t.wr pgEvr R.EVR_FTA_fails 0
  { t with
    words := [], ftaFails := 0, net := {}, vcore := []
    cans := [], evr := {} }

/-- The state that a reset of a kind leaves, before its cause is shown (R54). DEDUCED, log entries 35, 65. -/
def State.resetState (s : State) (kind : Rst) : State :=
  let field := s.domOn 7 && decide (kind ≠ Rst.powerOn)
  let t := (s.resetNotice (decide (kind = Rst.warm))).loseSession
  let t := if kind = .powerOn then t
    else (List.range 4).foldl (fun (t : State) n => t.nwmForce n) t.storeTime
  let net := t.net
  let lost := t.openRecords
  let t := t.loseLogic
  let t := { t with net := net, grd := [], up := false, warm := decide (kind = Rst.warm), wdt := false, sleep := 0, running := none }
  let t := (t.resetOwners (aonPages ++ fieldPages)).wr pgGrd R.GRD_LOST_count lost
  let t := if lost = 0 then t else t.raise pgGrd 16
  let t := if kind = .warm then t else t.loseMem 0x800000000 0xA00000000
  let t := if kind = .powerOn then t.aonReset else t
  let t := (t.wr pgPwr R.PWR_DOM_STAT_on (5 + 128 * b2n field)).wr pgPwr R.PWR_DOM_STAT_busy 0
  (t.wr pgSys R.SYS_DRAM_STAT_ready 0).updSync

/-- A reset of a kind with its bit of RST_CAUSE. DEDUCED, log entries 36, 38. -/
def State.resetWith (s : State) (kind : Rst) (cause : Fld) : State := (s.resetState kind).wr pgRst cause 1

/-- An RST_CMD write of an accepted requester (R53). -/
def State.rstCmd (s : State) (d : Word) : State :=
  if R.RST_CMD_key.of d ≠ 0x7A51 then s
  else if R.RST_CMD_kind.of d = 1 then s.resetWith .warm R.RST_CAUSE_warm_sw
  else if R.RST_CMD_kind.of d = 2 then s.resetWith .cold R.RST_CAUSE_cold_sw
  else s

/-- RST_CMD_WARM (R53): the key is checked as the write has it. -/
def execRstCmdWarm (r : Req) (d : Word) (s : State) : Res :=
  .next (s.start.access r pgRst 0x020 (fun s => s.rstCmd ((d &&& 0xFFFFFFFC) ||| 1)))

/-- RST_CMD_COLD (R53). -/
def execRstCmdCold (r : Req) (d : Word) (s : State) : Res :=
  .next (s.start.access r pgRst 0x020 (fun s => s.rstCmd ((d &&& 0xFFFFFFFC) ||| 2)))

/-- RESET_PIN (R53, R59): RESET_N has been low for at least 1 µs. In SLEEP and AGEING_WATCH it is a wake source.
DEDUCED, log entry 37. -/
def execResetPin (s : State) : Res :=
  let s := s.start
  .next (if s.sleep = 0 then s.resetWith .cold R.RST_CAUSE_pin else s.leaveSleep 4)

/-- POWER_ON_RESET (R53): RST_CAUSE shows por alone, its reset value. -/
def execPowerOnReset (s : State) : Res := .next (s.start.resetWith .powerOn R.RST_CAUSE_por)

/-- BROWNOUT (R53, R476): the island regulators are off in SLEEP and AGEING_WATCH. DEDUCED, log entry 37. -/
def execBrownout (s : State) : Res :=
  let s := s.start
  .next (if s.sleep = 0 then s.resetWith .cold R.RST_CAUSE_brownout else s)

/-- The watchdog expires: a warm reset, or a cold one where `second` tells that it follows a watchdog warm reset within 1 s (R53).
DEDUCED, log entry 36. -/
def State.wdtExpiry (s : State) (second : Bool) : State :=
  if s.wdt && second then s.resetWith .cold R.RST_CAUSE_wdt
  else { s.resetWith .warm R.RST_CAUSE_wdt with wdt := true }

/-- WATCHDOG_EXPIRY (R53): a period of 0 stops the watchdog. DEDUCED, log entry 37. -/
def execWatchdogExpiry (second : Bool) (s : State) : Res :=
  let s := s.start
  .next (if s.rd pgRst R.RST_WDT_timeout_ms = 0 ∨ s.sleep ≠ 0 then s else s.wdtExpiry second)

/-- WATCHDOG_KICK (R53): 0x0000_A5A5 restarts the period, which the model has no clock for; other values count as expiry.
DEDUCED, log entry 36. -/
def execWatchdogKick (r : Req) (d : Word) (second : Bool) (s : State) : Res :=
  .next (s.start.access r pgRst 0x02C (fun s => if d = 0xA5A5#32 then s else s.wdtExpiry second))

/-- DEBUG_COLD_REQUEST (R53): through the debug port, which works while FABRIC is on and CK_DBG runs. -/
def execDebugColdRequest (s : State) : Res :=
  let s := s.start
  .next (if s.domOn 0 && s.rdB pgClk R.CLK_GATE_dbg then s.resetWith .cold R.RST_CAUSE_debug else s)

end Sys2Proof.Machine
end

