-- ==== Sys2Proof/Machine/Startup.lean ====
section
/-! DEFINITION. Start-up, SLEEP and AGEING_WATCH, the tamper event and the activation of a firmware bank
(02_timing_power_startup.md R57 to R60; R162, R212, R214, R274 to R276, R285 to R292, R306 to R311, R399). -/
namespace Sys2Proof.Machine

/-! ### The choice of a bank and the keys (R276, R277, R310) -/

/-- The attributes of slot 0 and slot 1 (R277). -/
def rootAttr : Nat := 2 ^ 31 + 2 ^ 28 + 0x86
def identAttr : Nat := 2 ^ 31 + 2 ^ 29 + 0x38

/-- The info of the identity key: "GLALLAIM-TZ512-IDENTITY-1" and the device unique ID (R276). -/
def identInfo : List Byte :=
  glallaim ++ [0x54, 0x5A, 0x35, 0x31, 0x32, 0x2D, 0x49, 0x44, 0x45, 0x4E, 0x54, 0x49, 0x54, 0x59, 0x2D, 0x31]
    ++ toBytes 16 Config.deviceUid.toNat

/-- Step 8 (R276): the root is loaded, the identity key derived, the store OPEN; Chrysalis debug falls (R270).
DEDUCED, log entry 40. -/
def State.openKeys (s : State) : State :=
  let t := { s with keys := [(0, { attr := rootAttr, secret := s.bbRoot }),
    (1, { attr := identAttr, secret := deriveSecret s.bbRoot identInfo 2 })] }
  let t := t.wr pgKey R.KEY_STATE_state 1
  (t.wr pgDbg R.DBG_EN_ch_inv 0).wr pgDbg R.DBG_EN_ch_ninv 0

/-- The firmware of bank `b` starts: Chrysalis at chr_entry, and after step 9 core 0 at app_entry. -/
def State.startBank (s : State) (b : Nat) : State :=
  let t := { s with running := some b, chr := 2, chrPc := bankBase b + s.hdrN b 0x020 4 }.openKeys
  let t := (t.onBit 1 true).updSync
  t.startHart 0 (bankBase b + s.hdrN b 0x024 4)

/-- The boot ROM runs recovery on Chrysalis (R311). DEDUCED, log entry 40. -/
def State.recovery (s : State) (failed : Nat) : State :=
  ({ s with running := none, chr := 1, svc := { s.svc with recovery := true, failed := failed } }).updSync

/-- Step 7 (R310): the banks in the order of the list are tried; `failed` collects those that fail the checks.
DEDUCED, log entry 40. -/
def State.chooseBank (s : State) (failed : Nat) : List Nat → State
  | [] => s.recovery failed
  | b :: bs =>
    let st := s.boot.st b
    if st ≠ Img.good ∧ st ≠ Img.trial then s.chooseBank failed bs
    else if !s.imageOk b then s.chooseBank (failed ||| 2 ^ b) bs
    else if st = Img.trial then
      if s.boot.left = 0 then
        (s.setBoot { (s.boot.setSt b Img.bad) with pref := 1 - b }).chooseBank failed bs
      else
        let t := (s.setBoot { s.boot with left := s.boot.left - 1 }).raise pgUpd 16
        (t.startBank b).updRecord 16
    else s.startBank b

/-! ### Start-up (R57) -/

/-- What FABRIC and the bank islands held in SLEEP or AGEING_WATCH is at its reset values when they come on; the open cell records
are restored (R214). -/
def State.wakeLogic (s : State) : State :=
  let t := ((s.loseBanks 3).loseBanks 4).loseFabric
  { t with evr := s.evr }

/-- START_UP (R57): steps 2 to 9. `train` tells that the DRAM training ends well. After a wake cycle that ended a step, FABRIC and the
bank islands are on already (R60). DEDUCED, log entry 39. -/
def State.startUp (s : State) (train : Bool) : State :=
  let t := if s.domOn 0 then s else s.wakeLogic
  let t := (t.onBit 0 true).onBit 2 true
  let t := (t.wr pgPwr (R.PWR_VCORE_set_mv 0) 800).wr pgPwr (R.PWR_VCORE_set_mv 2) 800
  let t := { t with chr := 1, chrPc := 0, up := true }
  let t := if s.domOn 3 then t else t.updSync.scanStart
  let t := t.wr pgClk R.CLK_GATE_svc 1
  let t := if t.bbMark = 0x5AA5C33C ∧ t.bbCheck then t else t.tamperResponse 0x100
  let t := if t.rd pgTmp R.TMP_STAT_cause = 0 then t
    else t.report 0x03 pgTmp 0xFFFF
      [t.regWord pgTmp R.tableTMP 0x034, t.regWord pgTmp R.tableTMP 0x03C, t.regWord pgTmp R.tableTMP 0x040]
  let t := t.onBit 6 true
  let ok := train || s.warm
  let t := (t.wrB pgSys R.SYS_DRAM_STAT_ready ok).wrB pgSys R.SYS_DRAM_STAT_train_fail !ok
  let t := if t.tampered then (t.wr pgKey R.KEY_STATE_state 2).recovery 0
    else t.chooseBank 0 [t.boot.pref, 1 - t.boot.pref]
  { t with svc := { t.svc with attn := true } }

/-- START_UP (R57): once after every reset and wake. DEDUCED, log entry 39. -/
def execStartUp (train : Bool) (s : State) : Res :=
  let s := s.start
  .next (if s.up || s.sleep != 0 then s else s.startUp train)

/-! ### SLEEP and AGEING_WATCH (R58 to R60) -/

/-- Channel `c` executes an open-circuit step: a RUN or END step, or direct control, in mode OCV (R58). -/
def State.openCircuit (s : State) (c : Nat) : Bool :=
  if s.rdB (pgChn c) R.CHN_CFG_src then s.rd (pgChn c) R.CHN_CFG_dmode == 2
  else (imgOp (s.ch c).img == 1 || imgOp (s.ch c).img == 5) && imgMode (s.ch c).img == 2

/-- The register instances of FABRIC that hold on through AGEING_WATCH: LGR, GRD, TRP and STP. DEDUCED, log entry 42. -/
def awKept (i : Nat) : Bool :=
  let j := i % 0x8000
  [pgLgr, pgGrd, pgTrp, pgStp].contains j || (decide (0x3000 ≤ j) && decide (j < 0x4000))

/-- FABRIC goes off in AGEING_WATCH: what the bank engines, the Loopers and the grading unit work with stays.
DEDUCED, log entry 42. -/
def State.awLose (s : State) : State :=
  let u := s.loseFabric
  let kept := s.fields.filter (fun e => awKept (e.1 / 131072))
  { u with
    fields := kept.foldl (fun m e => m.set e.1 e.2) u.fields
    ports := s.ports.filter (fun e => e.1 < 32), grdIn := s.grdIn, logAcc := s.logAcc, logSeq := s.logSeq, logCfg := s.logCfg
    ldgCmd := s.ldgCmd, gateRel := s.gateRel, missAt := s.missAt, lenNew := s.lenNew, lenOld := s.lenOld, len := s.len
    k := s.k, w := s.w, tally := s.tally, led := s.led }

/-- Entry to SLEEP (1) or AGEING_WATCH (2): the downlinks stop, line time is stored, the open cell records survive, every domain
goes off (R58, R90, R214, R399, R417). DEDUCED, log entry 43. -/
def State.enterSleep (s : State) (n : Nat) : State :=
  let t : State := { s.storeTime.loseSession with sleep := n, running := none, warm := false }
  let t := (List.range 32).foldl (fun (t : State) b => t.plannedStop b) t
  let net := t.net
  let t := (t.loseApp.loseMem6).loseSec.loseNet
  let t := (List.range 4).foldl (fun (t : State) n => t.nwmForce n) t
  let t := if n = 2 then t.awLose else ((t.loseBanks 3).loseBanks 4).loseFabric
  let t := { t with net := net, grd := t.grd.mapVals (fun x => { x with out := none, wait := none }) }
  (t.wr pgPwr R.PWR_DOM_STAT_on 0).wr pgPwr R.PWR_DOM_STAT_busy 0

/-- A PWR_SLEEP_CTRL write of an accepted requester (R58). DEDUCED, log entry 41. -/
def State.sleepCtrl (s : State) (r : Req) (d : Word) : State :=
  let n := R.PWR_SLEEP_CTRL_mode.of d
  let t := s.wr pgPwr R.PWR_SLEEP_CTRL_mode n
  if !R.PWR_SLEEP_CTRL_enter.ofB d || n == 0 || n == 3 then t
  else if !s.secureReq r then t.reqRefused r 0 2
  else if n = 2 ∧ (List.range 512).any (fun c => s.armed c && !s.openCircuit c) then t.reqRefused r 0 4
  else (t.reqStat r 0 0).enterSleep n

/-- SLEEP_ENTER (R58). -/
def execSleepEnter (r : Req) (d : Word) (s : State) : Res :=
  .next (s.start.access r pgPwr 0x060 (fun s => s.sleepCtrl r ((d &&& 0x7FFFFFFC) ||| 0x80000001)))

/-- AGEING_WATCH_ENTER (R58). -/
def execAgeingWatchEnter (r : Req) (d : Word) (s : State) : Res :=
  .next (s.start.access r pgPwr 0x060 (fun s => s.sleepCtrl r ((d &&& 0x7FFFFFFC) ||| 0x80000002)))

/-- WAKE (R59): an enabled wake source: 1 CAN, 2 SVC_CS_N, 3 tamper, 4 RESET_N. -/
def execWake (src : Fin 5) (s : State) : Res :=
  let s := s.start
  .next (if s.sleep ≠ 0 ∧ src.val ≠ 0 ∧ bitOf (s.rd pgPwr R.PWR_WAKE_EN_en) src.val then s.leaveSleep src.val else s)

/-- SLEEP_TIMER_WAKE (R59): PWR_AW_PERIOD seconds have passed in SLEEP. -/
def execSleepTimerWake (s : State) : Res :=
  let s := s.start
  .next (if s.sleep = 1 ∧ bitOf (s.rd pgPwr R.PWR_WAKE_EN_en) 0 then s.leaveSleep 0 else s)

/-- AW_STEP_EVALUATION (R162): channel `c` is evaluated once in a wake cycle on averages, `a` CK_AON ticks after the evaluation before;
without an average its sample conditions keep their counts. The state and whether the step ended. -/
def State.awEvaluate (s : State) (c a : Nat) (valid : Bool) : State × Bool :=
  let p := pgChn c
  if s.cst c ≠ 2 ∨ s.rdB p R.CHN_CFG_src ∨ !s.inRun c then (s, false)
  else
    let time := s.rd p R.CHN_LP_TIME_value + a * 10000000 / (32768 * s.len)
    let t := s.wr p R.CHN_LP_TIME_value (min time (2 ^ 35 - 1))
    let i := t.rdS p R.CHN_I_value
    let v := t.rdS p R.CHN_V_value
    let t := if !(t.ch c).vEntry && valid then
        (t.wrS p R.CHN_LP_VENT_value v).modCh c (fun x => { x with vEntry := true }) else t
    let z := t.conditions c t.k i v (!valid) (t.bk (bankOf c)).wstat
    match z.2 with
    | none => (z.1, false)
    | some n => (z.1.takeAction c t.k (t.k + 1) n true, true)

/-- The averages of a wake cycle go to the sample registers of the channels whose link is UP. -/
def State.awSamples (s : State) (avg : List (Fin 512 × Int × Int)) : State :=
  avg.foldl (fun (t : State) x =>
    let p := pgChn x.1.val
    if t.linkUp (bankOf x.1.val) then
      let t := (t.wrS p R.CHN_I_value x.2.1).wrS p R.CHN_V_value x.2.2
      ((t.wr p R.CHN_MEAS_FLAGS_i_flags 128).wr p R.CHN_MEAS_FLAGS_v_flags 128).modCh x.1.val (fun z =>
        { z with vGood := some (t.rdS p R.CHN_V_value), iClip := false, vClip := false })
    else t) s

/-- Steps 2 to 6 of a wake cycle (R60): the state, and whether a step ended. `ns` is the line time of the window's end. -/
def State.awWork (s : State) (a ns : Nat) (ids : List (Fin 32 × List Word)) (avg : List (Fin 512 × Int × Int)) : State × Bool :=
  let t := ids.foldl (fun (t : State) x =>
    if t.lst x.1.val = 0 then t else (t.setLst x.1.val 5).idRead x.1.val (x.2.map (·.toNat))) s
  let t := t.awSamples avg
  let has := fun c => avg.any (fun x => x.1.val == c) && t.linkUp (bankOf c)
  let t := avg.foldl (fun (t : State) x =>
    if (t.gr x.1.val).role = 4 ∧ t.inRun x.1.val ∧ t.linkUp (bankOf x.1.val) then t.ocvPoint x.1.val x.2.2 (stampOf (ns : Nat) true)
    else t) t
  let t := (List.range 512).foldl (fun (t : State) c => t.slowCheck c) t
  let t := (List.range 32).foldl (fun (t : State) b => if t.bankArmed b then t.tempCheck b t.k else t) t
  (List.range 512).foldl (fun (x : State × Bool) c =>
    let y := x.1.awEvaluate c a (has c)
    (y.1, x.2 || y.2)) (t, false)

/-- Power comes on for a wake cycle of AGEING_WATCH, with line time `lt` where one is stored (R60). -/
def State.awPower (s : State) (lt : Option Nat) : State :=
  let t := ((s.onBit 0 true).onBit 3 true).onBit 4 true
  match lt with
  | none => t
  | some y => { t.renumber (y / (t.tNs * 65536)) with evr := { t.evr with ltValid := true } }

/-- The end of a wake cycle that does not wake the device: planned stops, power off again, line time stored (R60).
DEDUCED, log entry 42. -/
def State.awEnd (s : State) (lt : Option Nat) : State :=
  let t := (List.range 32).foldl (fun (t : State) b => t.plannedStop b) s
  let t := { t.awLose with net := { t.net with stored := lt } }
  (t.wr pgPwr R.PWR_DOM_STAT_on 0).raise pgPwr 8

/-- A wake cycle (R60): `a` CK_AON ticks since the evaluation before, `ticks` since line time was stored, `dur` ns from the restored line
time to the end of the window. DEDUCED, log entry 42. -/
def State.awCycle (s : State) (a ticks dur : Nat) (ids : List (Fin 32 × List Word)) (avg : List (Fin 512 × Int × Int)) :
    State :=
  let lt := s.net.stored.map (fun x => x + ticks * s.net.cal)
  let y := (s.awPower lt).scanStart.awWork a ((lt.getD 0) / 65536 + dur) ids avg
  let t := y.1.scanEnd
  let t := (List.range t.evr.pend.length).foldl (fun (t : State) _ => t.evWrite) t
  if y.2 then t.leaveSleep 5 else t.awEnd (lt.map (· + dur * 65536))

/-- AW_WAKE_CYCLE (R60, R162, R212): `ids` are the identity records that the links read on coming up, `avg` the averages of I and V of
the channels with a valid sample in the window. DEDUCED, log entry 42. -/
def execAwWakeCycle (a ticks dur : Nat) (ids : List (Fin 32 × List Word)) (avg : List (Fin 512 × Int × Int)) (s : State) :
    Res :=
  let s := s.start
  .next (if s.sleep = 2 then s.awCycle a ticks dur ids avg else s)

/-! ### Tamper (R285 to R291) -/

/-- TAMPER_DETECT (R286): cause 0 to 7 of R285 is detected. In RUN the device may take a cold reset (R288); asleep it wakes (R291). -/
def execTamperDetect (c : Fin 8) (s : State) : Res :=
  let s := s.start
  if !s.tamperEnabled c.val then .next s
  else
    let t := s.tamperResponse (2 ^ c.val)
    if s.sleep ≠ 0 then .next (t.leaveSleep 3)
    else if s.up && s.rdB pgTmp R.TMP_CFG_reset_on_tamper then .next (t.resetWith .cold R.RST_CAUSE_tamper)
    else .next t

/-! ### Activation (R307, R308) -/

/-- Live activation of bank `b` (R308). DEDUCED, log entry 85. -/
def State.liveActivate (s : State) (b : Nat) : State :=
  let t := s.loseApp
  let t := [1, 2, 3].foldl (fun (t : State) n => t.sesLose n) t
  let t := (List.range 16).foldl (fun (t : State) n =>
    if t.cocState n = 0 then t else (t.destroyStart n).destroyEnd n) t
  let t := (t.wr pgSec R.SEC_CORE_RUN_run 0)
  let t := ({ t with running := some b, harts := [] }).updSync
  t.startHart 0 (bankBase b + s.hdrN b 0x024 4)

/-- ACTIVATE with mode 0, 1 or 2 (R307). DEDUCED, log entries 84, 85. -/
def State.svcActivate (s : State) (mode : Nat) : State :=
  let b := s.target
  let live := match s.running with
    | none => false
    | some a => s.boot.st a == Img.good && ((s.header a).drop 0x060).take 32 == ((s.header b).drop 0x060).take 32
  if s.session ≠ 2 then s.svcResult 0x0F
  else if (s.svc.recovery && mode != 1) || (mode == 2 && !live) then s.svcResult 0x10
  else
    let x := s.boot.setSt b Img.trial
    let t := s.setBoot { x with pref := b, left := max 1 (s.rd pgUpd R.UPD_CFG_trial_max) }
    let t := (t.wr pgUpd R.UPD_STAT_session 0).wr pgUpd R.UPD_BLOCKS_received 0
    let t := ({ t with svc := { t.svc with received := [] } }.svcResult 0).raise pgUpd 4
    let t := if mode = 2 then t.liveActivate b else t
    let t := t.updRecord 4
    if mode = 1 then t.resetWith .warm R.RST_CAUSE_update else t

/-- SVC_ACTIVATE (R307): the bytes after the opcode; a mode byte above 2 ends with BAD_LENGTH. DEDUCED, log entry 85. -/
def execSvcActivate (d : List Byte) (s : State) : Res :=
  let m := (d.headD 3).toNat
  .next (s.start.svcCmd (d.length == 1 && decide (m ≤ 2)) (fun s => s.svcActivate m))

end Sys2Proof.Machine
end

