-- ==== Sys2Proof/Machine/Factory.lean ====
section
/-! DEFINITION. Factory test access (22_event_recorder_returns.md, R458, R459; R292). -/
namespace Sys2Proof.Machine

/-- Whether the debug port works: FABRIC is on and CK_DBG runs. -/
def State.dbgPort (s : State) : Bool := s.domOn 0 && s.rdB pgClk R.CLK_GATE_dbg

/-- Whether factory test access is OPEN. DEDUCED, log entry 38. -/
def State.ftaOpen (s : State) : Bool := s.rdB pgEvr R.EVR_FTA_state

/-- FTA_CHALLENGE (R458): refused in OPEN and after 16 failed answers. The nonce of RANDOM is a free value. -/
def execFtaChallenge (s : State) : Res :=
  let s := s.start
  if !s.dbgPort || s.ftaOpen || decide (16 ≤ s.ftaFails) then .next s
  else
    let n := s.freeVal % 2 ^ 128
    .next ({ s.freeNext with fta := some n }.emit (.fta Config.deviceUid.toNat n))

/-- Factory test access opens (R459): the root is zeroed as KEY_ZERO does, then the eMRAM configuration area and all DRAM; the
FTA_OPEN record is written before the state changes. DEDUCED, log entry 112. -/
def State.openFta (s : State) : State :=
  let t := ({ s with bbRoot := 0, bbMark := 0, bbCheck := false }.keysDead).abortKeyed (fun _ => true) Key.dead
  let t := (t.loseMem 0x01600000 0x01680000).loseMem 0x800000000 0xA00000000
  let t := t.report 0x02 pgEvr 0xFFFF [t.rd pgEvr R.EVR_FTA_state]
  t.wr pgEvr R.EVR_FTA_state 1

/-- FTA_ANSWER (R458, R459): a signature over the open challenge opens factory test access, or counts as a failed answer.
DESIGN CHOICE, log entry 116. -/
def execFtaAnswer (sig : List Byte) (s : State) : Res :=
  let s := s.start
  match s.fta with
  | none => .next s
  | some n =>
    if !s.dbgPort then .next s
    else
      let t := { s with fta := none }
      if Config.ftaVerifies n sig then .next t.openFta
      else .next ({ t with ftaFails := s.ftaFails + 1 }.wr pgEvr R.EVR_FTA_fails (min (s.ftaFails + 1) 15))

/-- TAMPERED_CLEAR (R292, R459): in OPEN, TMP_STAT.tampered is cleared, and the causes with it. DESIGN CHOICE, log entry 117. -/
def execTamperedClear (s : State) : Res :=
  let s := s.start
  .next (if s.dbgPort && s.ftaOpen then (s.wr pgTmp R.TMP_STAT_tampered 0).wr pgTmp R.TMP_STAT_cause 0 else s)

/-- ROOT_PROVISION (R459): in OPEN, a new root with its check and state, and a new certificate chain.
DESIGN CHOICE, log entry 117. -/
def execRootProvision (root : BitVec 256) (cert : List Byte) (s : State) : Res :=
  let s := s.start
  .next (if s.dbgPort && s.ftaOpen then
    { s with bbRoot := root.toNat, bbMark := 0x5AA5C33C, bbCheck := true, cert := some cert } else s)

/-- FTA_SEAL (R459): factory test access returns to SEALED. DESIGN CHOICE, log entry 117. -/
def execFtaSeal (s : State) : Res :=
  let s := s.start
  .next (if s.dbgPort && s.ftaOpen then s.wr pgEvr R.EVR_FTA_state 0 else s)

end Sys2Proof.Machine
end

