-- ==== Sys2Proof/Machine/Header.lean ====
section
/-! DEFINITION. The common page header: xxx_CTRL with its lock and soft reset, and xxx_INT_FORCE (01_architecture.md, R22, R480;
R122, R341, R353, R432, R448). -/
namespace Sys2Proof.Machine

/-- xxx_CTRL.enable of page `p` takes a value: what the owning chapter gives it; disabling LGR drops the open
windows (R113). DEDUCED, log entry 120. -/
def State.ctrlEnable (s : State) (p : Nat) (en : Bool) : State :=
  if p = pgQpm then s.qpmEnable en
  else if p = pgPair then s.pairCtrl en
  else if p = pgFio then s.fioEnable en
  else if p = pgLdc then s.ldcEnable en
  else if p = pgLgr then { s.wrB p (R.CTRL_enable p) en with logAcc := if en then s.logAcc else [] }
  else
    let t := s.wrB p (R.CTRL_enable p) en
    if 0x100 ≤ p ∧ s.rdB p (R.CTRL_enable p) && !en then t.cmdWrite (p - 0x100) 1 { frm := s.w } else t

/-- A soft reset of page `p` begins (R480): a channel takes a disarm first (R122), the pool flushes every queue (R353). -/
def State.softStart (s : State) (p : Nat) : State :=
  let t :=
    if 0x100 ≤ p then (s.cmdWrite (p - 0x100) 1 { frm := s.w }).modCh (p - 0x100) (fun x => { x with rstDue := true })
    else if p = pgQpm then s.flushAll
    else s
  t.wr p R.STAT_reset_busy 1

/-- An xxx_CTRL write of an accepted requester. DEDUCED, log entry 53. -/
def State.ctrlWrite (s : State) (p : Nat) (d : Word) : State :=
  if s.locked p then s
  else
    let t := s.ctrlEnable p (bitOf d.toNat 0)
    let t := if bitOf d.toNat 2 then t.wr p R.CTRL_lock 1 else t
    if bitOf d.toNat 1 then t.softStart p else t

/-- What a soft reset leaves of page `p`: xxx_OWNER and lock, and the fields that show the device and not settings of the block
(switched domains, islands, clocks, DRAM, power cycles, reset causes, factory test access, the key store, the VBAT island, the next
record sequence). DEDUCED, log entry 35. -/
def softKeep (p off lo : Nat) : Bool :=
  off == 0x01C || (off == 0x008 && lo == 2)
    || (p == pgSys && off == R.SYS_DRAM_STAT_ready.off)
    || (p == pgPwr && (off == R.PWR_DOM_STAT_on.off && lo < 16 || (0x040 ≤ off && off < 0x060 && lo == 0)))
    || (p == pgClk && off == R.CLK_STAT_aon_xtal.off)
    || (p == pgRst && (off == R.RST_CAUSE_por.off || off == R.RST_PWRCYC_count.off))
    || (p == pgEvr && off == R.EVR_FTA_state.off)
    || (p == pgKey && off == R.KEY_STATE_state.off)
    || (p == pgTmp && 0x020 ≤ off)
    || (p == pgGrd && off == R.GRD_SEQ_seq.off)

/-- The registers that page `p` shows through a selector, which its soft reset takes with it: rate limits, functions, queues, VLANs,
staging registers. The registers of a cocoon are no settings of the SEC page and stay. DEDUCED, log entry 35. -/
def softInsts (p i : Nat) : Bool :=
  (p == pgEvr && decide (0x900 ≤ i ∧ i < 0x1000)) || (p == pgFnc && decide (0x400 ≤ i ∧ i < 0x800))
    || (p == pgQpm && decide (0x1000 ≤ i ∧ i < 0x2000)) || (p == pgEsw && decide (0x2000 ≤ i ∧ i < 0x3000))
    || (p == pgGrd && decide (0x3000 ≤ i ∧ i < 0x4000)) || i == iShadow p

/-- The registers of page `p` are at their reset values (R480). DEDUCED, log entry 35. -/
def State.softEnd (s : State) (p : Nat) : State :=
  if p = pgFio then s.fioReset
  else if p = pgLdc then s.ldcReset
  else
    let s := if 0x080 ≤ p ∧ p < 0x0A0 then s.linkCtrl (p - 0x080) 0#32 else if p = pgPair then s.pairCtrl false else s
    let t := (s.resetInst p (softKeep p)).resetInsts (softInsts p)
    if p = pgUpd then t.updSync
    else if p = pgDbg then t.dbgChanged
    else if p = pgLgr then { t with logCfg := true, logAcc := [] }
    else if p = pgIdm then { t with fld := { t.fld with timeout := false } }
    else if p = pgQpm then { t with queues := [], pool := {}, portQ := [] }
    else if p = pgFnc then { t with fields := resetFields.foldl (fun m e => m.set e.1 e.2) t.fields, pairs := [], moves := [] }
    else if 0x028 ≤ p ∧ p < 0x02C then
      t.modCan (p - 0x028) (fun x => { latch := x.latch, dwell := x.dwell })
    else t

/-- Whether the soft reset of page `p` can end: one of the queue pool waits for its discardings, one of a channel for its
boundary. DEDUCED, log entry 35. -/
def State.softReady (s : State) (p : Nat) : Bool :=
  s.rdB p R.STAT_reset_busy && decide (p < 0x100) && (p != pgQpm || s.queues.all (fun e => e.2.disc.isNone))

/-- CHN_ENABLE_CLEAR (R122): a CHN_CTRL write with enable 0. DEDUCED, log entry 53. -/
def execChnEnableClear (r : Req) (c : Fin 512) (d : Word) (s : State) : Res :=
  .next (s.start.access r (pgChn c.val) 0x008 (fun s => s.ctrlWrite (pgChn c.val) (d &&& 0xFFFFFFFE)))

/-- PAIR_ENABLE (R228): a PAIR_CTRL write with enable 1. DEDUCED, log entry 53. -/
def execPairEnable (r : Req) (d : Word) (s : State) : Res :=
  .next (s.start.access r pgPair 0x008 (fun s => s.ctrlWrite pgPair (d ||| 1)))

/-- PAIR_DISABLE (R224): a PAIR_CTRL write with enable 0. DEDUCED, log entry 53. -/
def execPairDisable (r : Req) (d : Word) (s : State) : Res :=
  .next (s.start.access r pgPair 0x008 (fun s => s.ctrlWrite pgPair (d &&& 0xFFFFFFFE)))

/-- SOFT_RESET (R480): an xxx_CTRL write with soft_reset. -/
def execSoftReset (r : Req) (p : Fin 1024) (d : Word) (s : State) : Res :=
  .next (s.start.access r p.val 0x008 (fun s => s.ctrlWrite p.val (d ||| 2)))

/-- SOFT_RESET_DONE (R480). -/
def execSoftResetDone (p : Fin 1024) (s : State) : Res :=
  let s := s.start
  .next (if s.softReady p.val then (s.softEnd p.val).wr p.val R.STAT_reset_busy 0 else s)

/-- CTRL_LOCK (R3): an xxx_CTRL write with lock. -/
def execCtrlLock (r : Req) (p : Fin 1024) (d : Word) (s : State) : Res :=
  .next (s.start.access r p.val 0x008 (fun s => s.ctrlWrite p.val (d ||| 4)))

/-- INT_FORCE (R22): an xxx_INT_FORCE write. -/
def execIntForce (r : Req) (p : Fin 1024) (d : Word) (s : State) : Res :=
  .next (s.start.access r p.val 0x018 (fun s => s.raise p.val d.toNat))

/-- QPM_ENABLE (R341): a QPM_CTRL write with enable. -/
def execQpmEnable (r : Req) (d : Word) (s : State) : Res :=
  .next (s.start.access r pgQpm 0x008 (fun s => s.ctrlWrite pgQpm (d ||| 1)))

end Sys2Proof.Machine
end

