-- ==== Sys2Proof/Machine/Access.lean ====
section
/-! DEFINITION. Register accesses as a whole: what every register of every page shows to a reader, what a write to it does, snapshots
and W36 pairs, the step store window, and the register messages of a session (R3, R5, R7 to R9, R16, R17, R20 to R29, R143, R321,
R338, R339, R478, R479). -/
namespace Sys2Proof.Machine

/-! ### Which registers an offset names -/

/-- The function whose function registers requester `r` reaches at 0x400 and above of the FNC page. -/
def fnOf (r : Req) : Nat :=
  match r with
  | .fn f => f.val
  | .session _ f => f.val
  | _ => 0

/-- The register instance that offset `off` of page `p` shows to requester `r`. -/
def State.instOf (s : State) (r : Req) (p off : Nat) : Nat :=
  if p = pgFnc then (if 0x400 ≤ off then iFn (fnOf r) else if 0x028 ≤ off ∧ off < 0x04C then iFn s.fnSel else p)
  else if p = pgQpm then (if 0x034 ≤ off ∧ off < 0x05C then iQue s.qSel else p)
  else if p = pgEvr then
    (if 0x084 ≤ off ∧ off < 0x0A4 then iReq (reqId r)
      else if 0x0B4 ≤ off ∧ off < 0x0BC then iCode (s.rd pgEvr R.EVR_RL_SEL_code) else p)
  else if p = pgSec then (if 0x084 ≤ off ∧ off < 0x0E0 then iCoc s.cocSel else p)
  else if p = pgBrg then (if off = 0x024 ∨ off = 0x02C ∨ off = 0x030 then iReq (reqId r) else p)
  else if p = pgGrd then (if 0x0A4 ≤ off ∧ off < 0x100 then iGrd (s.rd pgGrd R.GRD_CH_SEL_channel) else p)
  else if p = pgPtp then (if 0x100 ≤ off ∧ 0x024 ≤ off % 64 ∧ off % 64 < 0x030 then iReq (reqId r) else p)
  else p

/-- The field list of page `p`. -/
def rowsOf (p : Nat) : List Row := ((blkOf p).map Blk.table).getD []

/-- Every field at offset `off` of page `p`, wide ones included. -/
def allAt (p off : Nat) : List Fld := (rowsOf p).filterMap (fun r => r.at off)

/-- The W36 or W72 field whose _LO register stands at offset `off` of page `p`. -/
def wideAt (p off : Nat) : Option Fld := (allAt p off).find? (fun f => decide (32 < f.w))

/-- The wide field of which offset `off` of page `p` shows a word, and which word. -/
def widePart (p off : Nat) : Option (Fld × Nat) :=
  match wideAt p off with
  | some f => some (f, 0)
  | none =>
    match wideAt p (off - 4) with
    | some f => some (f, 1)
    | none =>
      match wideAt p (off - 8) with
      | some f => if f.w = 72 then some (f, 2) else none
      | none => none

/-- Word `n` of a wide field with value `v` (R7, R8): signed quantities repeat their top bit. CHN_LP_TIME, CHN_WORD, CHN_LDG_GRANT
and every W72 are unsigned. -/
def wideWord (f : Fld) (p v n : Nat) : Nat :=
  let signed := f.w = 36 ∧ !(decide (0x100 ≤ p)
    && [R.CHN_LP_TIME_value.off, R.CHN_WORD_value.off, R.CHN_LDG_GRANT_value.off].contains f.off)
  if signed then ofS 64 (toS 36 v) / 2 ^ (32 * n) % 2 ^ 32 else v / 2 ^ (32 * n) % 2 ^ 32

/-- The offsets whose values a read of offset `off` of page `p` takes as the requester's snapshot (R9): the other registers of a
pair or triple, or the range of a lead register. -/
def snapRange (p off : Nat) : List Nat :=
  if p = pgStp ∧ off = 0x098 then (List.range 10).map (fun i => 0x070 + 4 * i)
  else if p = pgStp ∧ 0x070 ≤ off ∧ off < 0x098 then []
  else if p = pgPtp ∧ off = 0x060 then [0x064, 0x068, 0x070, 0x074]
  else if p = pgPair ∧ off = 0x060 then [0x064, 0x068, 0x06C, 0x070]
  else if p = pgPair ∧ off = 0x048 then [0x04C]
  else if 0x080 ≤ p ∧ p < 0x0A0 ∧ (off = 0x070 ∨ off = 0x078 ∨ off = 0x100) then [off + 4]
  else
    match wideAt p off with
    | some f => if f.w = 72 then [off + 4, off + 8] else [off + 4]
    | none => []

/-- The offsets of a page that lead a range other than a wide field. -/
def snapLeads (p : Nat) : List Nat :=
  if p = pgStp then [0x098] else if p = pgPtp then [0x060] else if p = pgPair then [0x048, 0x060]
  else if 0x080 ≤ p ∧ p < 0x0A0 then [0x070, 0x078, 0x100] else []

/-- Whether a read of offset `off` of page `p` returns the requester's last snapshot. -/
def snapHeld (p off : Nat) : Bool :=
  (snapLeads p).any (fun l => (snapRange p l).contains off)
    || (match widePart p off with
        | some (_, n) => n != 0
        | none => false)

/-- The key of offset `off` of page `p` for requester `r` in the snapshots and half-written pairs. -/
def perReq (r : Req) (p off : Nat) : Nat := reqId r * 2 ^ 24 + p * 4096 + off

/-! ### Shadows and locks -/

/-- The registers of CHN and STP pages that are written into shadow copies (R123, R202). -/
def shadowOff (p off : Nat) : Bool :=
  if 0x100 ≤ p then
    off == 0x020 || decide (0x080 ≤ off ∧ off < 0x0F0) || off == 0x1C4 || off == 0x200 || decide (0x210 ≤ off ∧ off < 0x240)
      || off == 0x240
  else p == pgStp && (off == 0x040 || decide (0x050 ≤ off ∧ off < 0x070) || decide (0x400 ≤ off ∧ off < 0x500))

/-- Whether a shadow of page `p` differs from the value in force. -/
def State.dirty (s : State) (p : Nat) : Bool :=
  s.fields.any (fun e => e.1 / 131072 == iShadow p
    && (allAt p (e.1 / 32 % 4096)).any (fun f => f.lo == e.1 % 32 && s.rd p f != e.2))

/-- The fields of page `p` that its chapter marks lockable, those of pages whose own write checks the lock apart. -/
def lockable (p : Nat) : List Fld :=
  if p = pgPwr then [R.PWR_VCORE_CFG_floor_mv]
  else if p = pgRst then [R.RST_WDT_timeout_ms]
  else if p = pgEvr then [R.EVR_RL_CFG_burst, R.EVR_RL_CFG_period_ms]
  else if p = pgUpd then [R.UPD_CFG_trial_max]
  else if p = pgSec then [R.SEC_CORE_CFG_flush_in]
  else if p = pgFnc then [R.FNC_CFG_pf_host]
  else if p = pgQpm then [R.QPM_POOL_size, R.QPM_POOL_idx]
  else if p = pgBrg then [R.BRG_CFG_discard_ms, R.BRG_CFG_resp_sf]
  else if p = pgPair then [R.PAIR_CFG_rec_hold_ms, R.PAIR_CFG_side, R.PAIR_CFG_div_act, R.PAIR_REPLAY_BASE_set, R.PAIR_REPLAY_BASE_idx]
  else if p = pgTrp then
    [R.TRP_CFG_hold_sf, R.TRP_CFG_ack_chk, R.TRP_CFG_mod_state_en, R.TRP_VBUS_HI_value, R.TRP_VBUS_LO_value, R.TRP_IBUS_HI_value,
      R.TRP_IBUS_LO_value, R.TRP_TEMP_temp_rel, R.TRP_TEMP_temp_hi]
  else if 0x080 ≤ p ∧ p < 0x0A0 then [R.BNK_MEAS_CTRL_cal_keep, R.BNK_MEAS_CTRL_tc_en]
  else []

/-- Whether field `f` of page `p` is read-only because the page is locked. -/
def State.fldLocked (s : State) (p : Nat) (f : Fld) : Bool :=
  s.locked p && (lockable p).any (fun g => g.off == f.off && g.lo == f.lo)

/-- The register at offset `off` of page `p`, instance `i`, is written with word `d`: each field as its access code says, a lockable
one not while the page is locked. -/
def State.putReg (s : State) (i p off : Nat) (d : Word) : State :=
  ((fieldsAt (rowsOf p) off).filter (fun f => !s.fldLocked p f)).foldl (fun (t : State) f => t.fldWrite i d f) s

/-! ### What registers show that are no stored fields -/

/-- A word put together from parts and their places. -/
def wordOf (l : List (Nat × Nat)) : Nat := l.foldl (fun a x => a ||| x.2 <<< x.1) 0 % 2 ^ 32

/-- xxx_STAT of page `p`: enabled, reset_busy, locked, err, and the bits of its chapter. DEDUCED, log entry 12. -/
def State.statWord (s : State) (p : Nat) : Nat :=
  let err := if p = pgFio then s.rdB pgFio R.FIO_FAULT_fault else if p = pgLdc then s.rdB pgLdc R.LDC_FAULT_fault else false
  let own :=
    if p = pgEvr then b2n s.evr.scanning * 2 ^ 8 + b2n (!s.evr.pend.isEmpty) * 2 ^ 9
    else if p = pgFio then s.fioSt * 2 ^ 8 + b2n s.fld.low * 2 ^ 10
    else if p = pgLdc then b2n s.fld.low * 2 ^ 10
    else if p = pgIdm then b2n s.fld.timeout * 2 ^ 8
    else 0
  own + b2n err * 8 + b2n (s.locked p) * 4 + b2n (s.rdB p R.STAT_reset_busy) * 2 + b2n (s.rdB p (R.CTRL_enable p))

/-- A header register of page `p`. -/
def State.headerWord (s : State) (p off : Nat) : Nat :=
  if off = 0x000 then typeOf p * 2 ^ 16 + (p - typeOf p)
  else if off = 0x004 then 0x01000000
  else if off = 0x008 then b2n (s.rdB p (R.CTRL_enable p)) + 4 * b2n (s.locked p)
  else if off = 0x00C then s.statWord p
  else if off = 0x010 then s.rd p R.INT_STAT
  else if off = 0x014 then s.rd p R.INT_EN
  else if off = 0x01C then
    s.rd p R.OWNER_handover * 2 ^ 24 + s.rd p R.OWNER_function * 2 ^ 8 + s.rd p R.OWNER_cocoon * 2 ^ 4 + s.rd p R.OWNER_world
  else 0

/-- The device line time at a read, in 2^-16 ns: its position inside the superframe in progress is a free value.
DESIGN CHOICE, log entry 14. -/
def State.lineNow (s : State) : Nat := s.boundaryNs s.k * 65536 + s.freeVal % (s.tNs * 65536)

/-- A PTP register that shows line time or the superframe count, or the latency of a port (R384, R386, R388).
DESIGN CHOICE, log entry 102. -/
def State.ptpWord (s : State) (off : Nat) : Option Nat :=
  let n := s.lineNow
  if off = 0x060 then some (n / 65536 % 1000000000)
  else if off = 0x064 then some (n / 65536 / 1000000000 % 2 ^ 32)
  else if off = 0x068 then some (n % 65536 * 2 ^ 16 + n / 65536 / 1000000000 / 2 ^ 32 % 2 ^ 16)
  else if off = 0x070 then some (s.k % 2 ^ 32)
  else if off = 0x074 then some (s.k / 2 ^ 32 % 2 ^ 32)
  else if off = 0x100 ∨ off = 0x140 ∨ off = 0x180 then some (ofS 32 (s.latency ((off - 0x100) / 64)).1)
  else if off = 0x104 ∨ off = 0x144 ∨ off = 0x184 then some (ofS 32 (s.latency ((off - 0x100) / 64)).2)
  else none

/-- A register of the FNC page or of a function's registers. DEDUCED, log entry 16. -/
def State.fncWord (s : State) (r : Req) (off : Nat) : Option Nat :=
  let g := s.fnSel
  let f := fnOf r
  let x := s.qp f (s.qpSel f)
  if off = 0x02C then some (s.fnState g * 2 ^ 16 + (s.enPairs g).length)
  else if off = 0x048 then
    let v := s.chMap.get 0 (g * 512 + s.rd (iFn g) R.FNC_MAP_SLOT_slot)
    some (if v = 0 then 0 else 2 ^ 31 + (v - 1))
  else if off = 0x050 then some (b2n (!s.moves.isEmpty) * 2 ^ 31)
  else if off = 0x400 then some (wordOf [(24, s.hostOf f), (16, s.fnState f), (0, f)])
  else if off = 0x404 then
    some (wordOf [(16, s.rd (iFn f) R.FNC_FN_QUOTA_qp_quota), (0, s.rd (iFn f) R.FNC_FN_QUOTA_vec_quota)])
  else if off = 0x410 then some (wordOf [(31, b2n x.en), (24, x.sqLog), (20, x.cqLog), (0, x.vec)])
  else if off = 0x414 then
    some (wordOf [(31, b2n x.cfgErr), (30, b2n (x.en && x.full)), (29, b2n (s.boundQueue f (s.qpSel f)).isSome), (16, x.cqTail),
      (0, x.sqHead)])
  else if off = 0x418 then some (x.sqBase % 2 ^ 32)
  else if off = 0x41C then some (x.sqBase / 2 ^ 32 % 2 ^ 32)
  else if off = 0x420 then some (x.cqBase % 2 ^ 32)
  else if off = 0x424 then some (x.cqBase / 2 ^ 32 % 2 ^ 32)
  else if 0x440 ≤ off ∧ off < 0x480 then
    let n := 32 * ((off - 0x440) / 4)
    some (maskOf ((List.range 32).filter (fun i =>
      match s.slotChan f (n + i) with
      | some c => s.irqLevel (pgChn c)
      | none => false)))
  else if 0x800 ≤ off ∧ off < 0xC00 then
    let v := (off - 0x800) / 16
    if s.rd (iFn f) R.FNC_FN_QUOTA_vec_quota ≤ v then some 0
    else if off % 16 = 0 then some (s.rd (iFn f) (R.MSIX_addr_lo v))
    else if off % 16 = 4 then some (s.rd (iFn f) (R.MSIX_addr_hi v))
    else if off % 16 = 8 then some (s.rd (iFn f) (R.MSIX_data v))
    else some (s.rd (iFn f) (R.MSIX_mask v))
  else if off = 0xC00 ∨ off = 0xC04 then
    some (maskOf ((List.range 32).filter (fun i => s.rdB (iFn f) (R.PBA (8 * (off - 0xC00) + i)))))
  else none

/-- A register of the QPM page. -/
def State.qpmWord (s : State) (off : Nat) : Option Nat :=
  let q := s.qSel
  let x := s.queue q
  if off = 0x024 then some (s.qpmFree % 2 ^ 25)
  else if off = 0x048 then
    some (wordOf [(31, s.rd (iQue q) R.QPM_Q_STAT_live_hi), (30, s.rd (iQue q) R.QPM_Q_STAT_hi_seen),
      (29, s.rd (iQue q) R.QPM_Q_STAT_lo_seen), (28, b2n x.disc.isSome), (27, b2n x.prog.isSome), (26, b2n x.bind.isSome), (0, x.count)])
  else if off = 0x04C then some x.items.length
  else if 0x400 ≤ off ∧ off < 0x600 then
    let n := 32 * ((off - 0x400) / 4)
    some (maskOf ((List.range 32).filter (fun i =>
      s.rdB (iQue (n + i)) R.QPM_Q_STAT_hi_seen || s.rdB (iQue (n + i)) R.QPM_Q_STAT_lo_seen)))
  else none

/-- A register of the BRG page as requester `r` reads it (R364). -/
def State.brgWord (s : State) (r : Req) (off : Nat) : Option Nat :=
  let x := s.tag (s.rd (iReq (reqId r)) R.BRG_TAG_SEL_tag)
  let count := fun (p : Nat → Bool) => ((List.range 64).filter (fun t => p (s.tag t).st)).length
  if off = 0x034 then
    some (wordOf [(30, x.st), (29, b2n (x.st != 0 && x.req == reqId r)), (28, b2n x.write), (24, x.status), (23, b2n x.se),
      (22, b2n x.sent), (10, x.bank), (0, x.reg)])
  else if off = 0x03C then some (wordOf [(16, count (fun n => n == 1 || n == 2)), (0, count (· == 0))])
  else none

/-- Byte `n` of the certificate chain (R221). DEDUCED, log entry 66. -/
def State.certAt (s : State) (n : Nat) : Nat :=
  match s.cert with
  | some l => (l.getD n 0).toNat
  | none => if n < Config.certLen.toNat then (Config.certByte n).toNat else 0

/-- A register of the GRD page. DEDUCED, log entry 22. -/
def State.grdWord (s : State) (off : Nat) : Option Nat :=
  let x := s.gr (s.rd pgGrd R.GRD_CH_SEL_channel)
  if off = 0x024 then
    some (wordOf [(31, b2n (!s.grdUnsigned.isEmpty)), (0, (s.grd.filter (fun e => e.2.out.isSome)).length)])
  else if off = 0x0A8 then
    some (wordOf [(31, b2n x.opn.isSome), (30, b2n x.out.isSome), (29, b2n x.wait.isSome), (28, b2n x.opening)])
  else if off = 0x110 then some ((match s.cert with | some l => l.length | none => Config.certLen.toNat) % 2 ^ 16)
  else if off = 0x118 then
    let o := s.rd pgGrd R.GRD_CERT_OFF_off / 4 * 4
    some ((List.range 4).foldl (fun a i => a + s.certAt (o + i) * 2 ^ (8 * i)) 0)
  else none

/-- A register of the PAIR page. -/
def State.pairWord (s : State) (off : Nat) : Option Nat :=
  let b := s.rd pgPair R.PAIR_DIG_SEL_bank
  if off = 0x028 then some (s.regWord pgPair R.tablePAIR 0x028 ||| b2n s.selfFail * 2 ^ 24)
  else if off = 0x02C then some (s.roleMask 1)
  else if off = 0x030 then some (s.roleMask 2)
  else if off = 0x034 then some (s.roleMask 3)
  else if off = 0x060 then some (s.plk.digOwn.get 0 b % 2 ^ 32)
  else if off = 0x064 then some (s.plk.digOwn.get 0 b / 2 ^ 32 % 2 ^ 32)
  else if off = 0x068 then some (s.plk.digPeer.get 0 b % 2 ^ 32)
  else if off = 0x06C then some (s.plk.digPeer.get 0 b / 2 ^ 32 % 2 ^ 32)
  else if off = 0x070 then some (s.plk.div.get 0 b % 2 ^ 32)
  else none

/-- A register of the page of bank `b`. -/
def State.bnkWord (s : State) (b off : Nat) : Option Nat :=
  let x := s.bk b
  let n := s.rd (pgBnk b) R.BNK_CAL_SEL_stream
  let e := if s.rdB (pgBnk b) R.BNK_CAL_SEL_view then x.calSh.get {} n else x.cal.get {} n
  if off = 0x090 then some (if 36 ≤ n then 0 else e.gain)
  else if off = 0x094 then some (if 36 ≤ n then 0 else ofS 32 e.off)
  else if off = 0x098 then some (if 36 ≤ n then 0 else ofS 32 e.tc)
  else if off = 0x0E8 then
    some (maskOf ((List.range 16).filter (fun i => s.armed (16 * b + i)))
      + maskOf ((List.range 16).filter (fun i => (s.ch (16 * b + i)).cmd.isSome)) * 2 ^ 16)
  else if off = 0x0F0 then some (s.tripWord b)
  else none

/-- A register of the page of channel `c`. -/
def State.chnWord (s : State) (c off : Nat) : Option Nat :=
  let p := pgChn c
  if off = 0x024 then some (s.regWord p R.tableCHN off ||| b2n (s.dirty p) * 2 ^ 21)
  else if off = 0x02C then some (s.regWord p R.tableCHN off ||| b2n (s.armed c) * 2 ^ 10)
  else if off = 0x204 then some (s.chnTripWord c)
  else none

/-- A register of the security pages KEY, SEC and DBG. -/
def State.secWord (s : State) (p off : Nat) : Option Nat :=
  let valid := fun lo => maskOf ((List.range 32).filter (fun i => (s.slotK (lo + i)).valid))
  let harts := fun (q : Hart → Bool) => maskOf ((List.range 4).filter (fun h => q (s.hart h)))
  if p = pgKey then
    if off = 0x028 then some ((s.slotK (s.rd pgKey R.KEY_SEL_slot)).attr % 2 ^ 32)
    else if off = 0x084 then
      let o := s.rd pgKey R.KEY_BB_OFF_off / 4 * 4
      some (if o < 0x40 then 0 else ofBytes (s.bb.readBytes o 4))
    else if off = 0x088 then some (valid 0)
    else if off = 0x08C then some (valid 32)
    else none
  else if p = pgSec then
    if off = 0x040 then some (s.rd pgSec R.SEC_CORE_RUN_run * 2 + 1)
    else if off = 0x088 then
      some (s.regWord (iCoc s.cocSel) R.tableSEC off
        ||| harts (fun x => x.running && x.world == 2 && x.cocoon == s.cocSel) * 2 ^ 16)
    else none
  else if p = pgDbg ∧ off = 0x024 then
    some (harts (fun x => x.halted) * 16 + b2n (harts (fun x => x.haltReq && !x.halted) != 0) * 2 + s.freeVal % 2)
  else none

/-- A register that is no plain word of stored fields. Values that the spec leaves to the outside (clocks in lock, VFIELD and the
temperature of the field die, a probe connected, the hold time that is left) are free values. -/
def State.viewWord (s : State) (r : Req) (p off : Nat) : Option Nat :=
  if p = pgSys then
    if 0x040 ≤ off ∧ off < 0x050 then some (Config.deviceUid.toNat / 2 ^ (8 * (off - 0x040)) % 2 ^ 32) else none
  else if p = pgPwr then
    if 0x040 ≤ off ∧ off < 0x05C then some (s.vcoreWord ((off - 0x040) / 4)) else none
  else if p = pgClk then
    if off = 0x024 then some (s.rd pgClk R.CLK_STAT_aon_xtal * 2 ^ 9 + s.freeVal % 2 ^ 9) else none
  else if p = pgEvr then
    if off = 0x020 then some s.evr.next else if off = 0x024 then some (s.evrOldest % 2 ^ 32) else none
  else if p = pgKey ∨ p = pgSec ∨ p = pgDbg then s.secWord p off
  else if p = pgMbx then
    let k := (off - 0x400) / 64
    if 0x400 ≤ off ∧ off < 0x800 then
      some (if posterIs (r == .chrysalis) k && s.mbxState k == 2 then 0 else s.rd pgMbx (mbxWord ((off - 0x400) / 4)))
    else none
  else if p = pgFnc then s.fncWord r off
  else if p = pgQpm then s.qpmWord off
  else if p = pgBrg then s.brgWord r off
  else if p = pgEsw then
    if off = 0x02C then some (wordOf [(16, s.headroom), (0, s.freeCells)])
    else if off = 0x054 then
      let v := s.rd pgEsw R.ESW_VLAN_VID_vid
      some (s.vlanUntag v * 16 + s.vlanMember v)
    else if off = 0x058 then some (s.esw.atu.length % 2 ^ 13)
    else none
  else if p = pgPtp then s.ptpWord off
  else if 0x028 ≤ p ∧ p < 0x02C then
    let x := s.can (p - 0x028)
    if off = 0x04C then some (wordOf [(16, x.rx1.length), (0, x.rx0.length)])
    else if 0xD00 ≤ off ∧ off < 0xD48 then some ((x.rx0.headD []).getD ((off - 0xD00) / 4) 0)
    else if 0xD80 ≤ off ∧ off < 0xDC8 then some ((x.rx1.headD []).getD ((off - 0xD80) / 4) 0)
    else none
  else if p = pgFio then
    if off = 0x03C then
      some (s.fioSt * 2 ^ 30 + (if s.fioSt = 2 then s.freeVal % (min (s.rd pgFio R.FIO_SAFE_CFG_hold_ms) 10000 + 1) else 0))
    else none
  else if p = pgIdm then
    if off = 0x028 then some (s.freeVal % 2 ^ 16) else if off = 0x02C then some (s.freeVal % 2 ^ 8) else none
  else if p = pgGrd then s.grdWord off
  else if p = pgPair then s.pairWord off
  else if p = pgTrp then
    let m := fun n => maskOf ((List.range 32).filter (fun b => s.tripSt b == n))
    if off = 0x068 then some (m 1) else if off = 0x06C then some (m 2) else none
  else if p = pgStp then
    if off = 0x048 then some (s.regWord pgStp R.tableSTP off ||| b2n (s.dirty pgStp) * 2 ^ 7) else none
  else if 0x080 ≤ p ∧ p < 0x0A0 then s.bnkWord (p - 0x080) off
  else if 0x100 ≤ p then s.chnWord (p - 0x100) off
  else none

/-- The value of the register at offset `off` of page `p` as requester `r` reads it, snapshots apart.
DEDUCED, log entry 13; DESIGN CHOICE, log entry 14. -/
def State.liveWord (s : State) (r : Req) (p off : Nat) : Nat :=
  if off < 0x020 then s.headerWord p off
  else
    match s.viewWord r p off with
    | some v => v
    | none =>
      match widePart p off with
      | some (f, n) => wideWord f p (s.rd p f) n
      | none =>
        ((fieldsAt (rowsOf p) off).filter (fun f => f.acc != .wo)).foldl
          (fun a f => a ||| (s.rd (s.instOf r p off) f <<< f.lo)) 0

/-! ### Reads -/

/-- The fields of the register that a read clears (R3), TAG_DATA and TSQ_HDR apart. -/
def State.clearRead (s : State) (r : Req) (p off : Nat) : State :=
  ((fieldsAt (rowsOf p) off).filter (fun f => f.acc == .rsc)).foldl (fun (t : State) f => t.wr (s.instOf r p off) f 0) s

/-- A read of a lead or _LO register takes the snapshot of its range. -/
def State.takeSnap (s : State) (r : Req) (p off : Nat) : State :=
  (snapRange p off).foldl (fun (t : State) o => { t with snap := t.snap.set (perReq r p o) (s.liveWord r p o) }) s

/-- An accepted 32-bit read. DESIGN CHOICE, log entry 14. -/
def State.readReg (s : State) (r : Req) (p off : Nat) : State :=
  if p = pgBrg ∧ off = 0x038 then s.brgCollect r
  else if p = pgPtp ∧ (off = 0x120 ∨ off = 0x160 ∨ off = 0x1A0) then s.tsqPop r ((off - 0x100) / 64)
  else if 0x020 ≤ off ∧ snapHeld p off then s.answer (s.snap.get 0 (perReq r p off))
  else
    let t := if 0x020 ≤ off then s.takeSnap r p off else s
    let t := if 0x020 ≤ off then t.clearRead r p off else t
    t.freeNext.answer (s.liveWord r p off)

/-! ### Access checks of a whole access -/

/-- The cause with which an access ends before its width is looked at: a VF or a session function reaches its function registers
through page 0 of its BAR0, everything else is checked as a page. DEDUCED, log entry 11. -/
def State.busCause (s : State) (r : Req) (p off : Nat) (write : Bool) : Option Nat :=
  if p = pgFnc ∧ fnOf r ≠ 0 then
    let host := match r with
      | .session n _ => n.val
      | _ => 0
    if !s.domOn 0 then some 2
    else if s.hostOf (fnOf r) ≠ host ∨ s.fnState (fnOf r) = 0 then some 0
    else none
  else s.accCause r p off write

/-- Whether an access of `2 ^ sz` bytes at offset `off` of page `p` has a width and alignment that R20 accepts: an aligned 32-bit one,
or an aligned 64-bit one on a W36 pair. DEDUCED, log entry 11. -/
def widthOk (p off sz : Nat) : Bool :=
  (sz == 2 && off % 4 == 0)
    || (sz == 3 && off % 8 == 0 && (match wideAt p off with
        | some f => f.w == 36
        | none => false))

/-- A register access of requester `r`: `k` is its effect where it is accepted. -/
def State.regAccess (s : State) (r : Req) (p off sz : Nat) (write : Bool) (k : State → State) : State :=
  match s.busCause r p off write with
  | some c => s.accErr r (pageAddr p off) write c
  | none =>
    if widthOk p off sz then (if p = pgFnc ∧ fnOf r ≠ 0 ∧ off < 0x400 then (if write then s else s.answer 0) else k s)
    else s.accErr r (pageAddr p off) write 1

/-- A read access: one of 64 bits reads _LO and then _HI. -/
def State.readAcc (s : State) (r : Req) (p off sz : Nat) : State :=
  s.regAccess r p off sz false (fun t =>
    if sz = 3 then
      let a := t.readReg r p off
      let b := a.readReg r p (off + 4)
      b.answer (a.rsp.data + 2 ^ 32 * b.rsp.data)
    else t.readReg r p off)

/-- SNAPSHOT_READ (R9): a read access; on a _LO or lead register it takes the requester's snapshot. -/
def execSnapshotRead (r : Req) (p : Fin 1024) (off : Fin 4096) (sz : Fin 4) (s : State) : Res :=
  .next (s.start.readAcc r p.val off.val sz.val)

/-- READ_CLEAR (R3): a read access of 32 bits; a read-to-clear field is returned and then cleared. -/
def execReadClear (r : Req) (p : Fin 1024) (off : Fin 4096) (s : State) : Res :=
  .next (s.start.readAcc r p.val off.val 2)

/-! ### Writes -/

/-- An xxx_INT_STAT write: written ones clear; causes that follow a level come back while it lasts. -/
def State.intClear (s : State) (p : Nat) (d : Word) : State :=
  let t := s.clrBits p R.INT_STAT d.toNat
  if 0x028 ≤ p ∧ p < 0x02C then t.canLevel (p - 0x028)
  else if p = pgTmp then (if s.rd pgTmp R.TMP_LIVE_cause = 0 then t else t.raise pgTmp 2)
  else if p = pgIdm ∧ bitOf d.toNat 0 then { t with fld := { t.fld with timeout := false } }
  else t

/-- A write of a header register. -/
def State.putHeader (s : State) (p off : Nat) (d : Word) : State :=
  if off = 0x008 then s.ctrlWrite p d
  else if off = 0x010 then s.intClear p d
  else if off = 0x014 then s.irqEdge (s.wr p R.INT_EN d.toNat) p
  else if off = 0x018 then s.raise p d.toNat
  else s

/-- Whole tens of millivolts from `lo` to 900. -/
def mvClamp (lo v : Nat) : Nat := clampN lo 900 v / 10 * 10

/-- A write of a PWR register. DEDUCED, log entry 20. -/
def State.putPwr (s : State) (r : Req) (off : Nat) (d : Word) : State :=
  let n := (off - 0x040) / 4
  if off = 0x020 then s.domReq r d
  else if off = 0x030 then
    let t := s.putReg pgPwr pgPwr off d
    if s.locked pgPwr then t else t.wr pgPwr R.PWR_VCORE_CFG_floor_mv (mvClamp 600 (R.PWR_VCORE_CFG_floor_mv.of d))
  else if 0x040 ≤ off ∧ off < 0x05C then
    if n = 3 ∨ n = 4 then s
    else s.wr pgPwr (R.PWR_VCORE_set_mv n) (mvClamp (if n = 0 then 700 else 600) ((R.PWR_VCORE_set_mv n).of d))
  else if off = 0x060 then s.sleepCtrl r d
  else if off = 0x06C then s.wr pgPwr R.PWR_WAKE_EN_en (R.PWR_WAKE_EN_en.of d ||| 0x18)
  else if 0x100 ≤ off ∧ off < 0x180 then
    if bitOf d.toNat 31 then s.wr pgPwr (R.PWR_SLACK_slack_min ((off - 0x100) / 4)) 0xFF else s
  else s.putReg pgPwr pgPwr off d

/-- A write of a KEY, CRY or TMP register. -/
def State.putKeys (s : State) (r : Req) (p off : Nat) (d : Word) : State :=
  if p = pgKey then
    let o := s.rd pgKey R.KEY_BB_OFF_off / 4 * 4
    if off = 0x030 then s.keyCmd r d
    else if off = 0x034 then s.keyZero d
    else if off = 0x084 then (if o < 0x40 then s else { s with bb := s.bb.writeBytes o (toBytes 4 d.toNat) })
    else s.putReg p p off d
  else if p = pgCry then (if off = 0x020 then s.cryOpWrite r d else s.putReg p p off d)
  else if 0x020 ≤ off ∧ off < 0x034 ∧ s.rdB pgTmp R.TMP_CFG_lock then s
  else s.putReg p p off d

/-- A write of a SEC register. DEDUCED, log entry 21. -/
def State.putSec (s : State) (off : Nat) (d : Word) : State :=
  if 0x020 ≤ off ∧ off < 0x030 then s.wmWrite ((off - 0x020) / 4) d
  else if off = 0x030 then s.l2Write false d
  else if off = 0x034 then s.l2Write true d
  else if off = 0x038 then s
  else if off = 0x040 then s.coreRun d
  else if off = 0x068 then s.hoCmd d
  else if off = 0x084 then s.cocCmd s.cocSel d
  else if 0x088 ≤ off ∧ off < 0x0E0 then (if s.cocState s.cocSel = 0 then s.putReg (iCoc s.cocSel) pgSec off d else s)
  else s.putReg pgSec pgSec off d

/-- A write of an MBX register (R267): the contents of a slot are written by the poster in FREE and by the receiver in TAKEN; a write
without effect is counted. DEDUCED, log entry 18. -/
def State.putMbx (s : State) (r : Req) (off : Nat) (d : Word) : State :=
  let chr := r == .chrysalis
  let k := (off - 0x400) / 64
  if off = 0x020 then s.mbxAct r true 0 1 d
  else if off = 0x024 then s.mbxAct r false 1 2 d
  else if off = 0x028 then s.mbxAct r false 2 3 d
  else if off = 0x02C then s.mbxAct r true 3 0 d
  else if off = 0x030 then s.mbxAct r true 1 0 d
  else if off = 0x040 then
    if chr then s.putReg pgMbx pgMbx off d else s.bump pgMbx R.MBX_ERR_count 1
  else if 0x400 ≤ off ∧ off < 0x800 then
    if (s.mbxState k == 0 && posterIs chr k) || (s.mbxState k == 2 && !posterIs chr k) then
      s.wr pgMbx (mbxWord ((off - 0x400) / 4)) d.toNat
    else s.bump pgMbx R.MBX_ERR_count 1
  else s.putReg pgMbx pgMbx off d

/-- A write of an entry of the MSI-X table of function `f` (R338): clearing the mask of a pending vector sends its message.
PRESUMED, log entry 15. -/
def State.putMsix (s : State) (f off : Nat) (d : Word) : State :=
  let v := (off - 0x800) / 16
  let i := iFn f
  if s.rd i R.FNC_FN_QUOTA_vec_quota ≤ v then s
  else if off % 16 = 0 then s.wr i (R.MSIX_addr_lo v) d.toNat
  else if off % 16 = 4 then s.wr i (R.MSIX_addr_hi v) d.toNat
  else if off % 16 = 8 then s.wr i (R.MSIX_data v) d.toNat
  else
    let t := s.wr i (R.MSIX_mask v) (d.toNat % 2)
    if !bitOf d.toNat 0 && s.rdB i (R.PBA v) then (t.wr i (R.PBA v) 0).msix f v else t

/-- A write of a function register of function `f`. -/
def State.putFn (s : State) (f off : Nat) (d : Word) : State :=
  let q := s.qpSel f
  let x := s.qp f q
  let set := fun (v lo n : Nat) => v - v / 2 ^ lo % 2 ^ 32 * 2 ^ lo + n * 2 ^ lo
  let hi := fun (v : Nat) => set v 32 d.toNat
  let low := fun (v : Nat) => set v 0 (d.toNat / 4096 * 4096)
  if off = 0x408 then s.doorbell f d
  else if off = 0x410 then s.qpCtrl f d []
  else if off = 0x414 then if bitOf d.toNat 31 then s.setQp f q { x with cfgErr := false } else s
  else if off = 0x418 then s.setQp f q { x with sqBase := low x.sqBase }
  else if off = 0x41C then s.setQp f q { x with sqBase := hi x.sqBase }
  else if off = 0x420 then s.setQp f q { x with cqBase := low x.cqBase }
  else if off = 0x424 then s.setQp f q { x with cqBase := hi x.cqBase }
  else if 0x800 ≤ off ∧ off < 0xC00 then s.putMsix f off d
  else s.putReg (iFn f) pgFnc off d

/-- A write of a FNC register. DEDUCED, log entry 16. -/
def State.putFnc (s : State) (r : Req) (off : Nat) (d : Word) : State :=
  if 0x400 ≤ off then s.putFn (fnOf r) off d
  else if off = 0x028 then s.fnCtrl d
  else if off = 0x030 then s.quotaWrite d
  else if off = 0x034 then s.rangeWrite false d
  else if off = 0x038 then s.rangeWrite true d
  else s.putReg (s.instOf r pgFnc off) pgFnc off d

/-- A write of a QPM register. -/
def State.putQpm (s : State) (off : Nat) (d : Word) : State :=
  if off = 0x020 then (if s.rdB pgQpm (R.CTRL_enable pgQpm) then s else s.putReg pgQpm pgQpm off d)
  else if off = 0x034 then s.freeNext.qCfg d (s.passedFree s.qSel)
  else if off = 0x044 then s.freeNext.qCmd d (s.passedFree s.qSel)
  else if 0x034 ≤ off ∧ off < 0x05C then s.putReg (iQue s.qSel) pgQpm off d
  else s.putReg pgQpm pgQpm off d

/-- A write of a register that is written into a shadow copy. -/
def State.putShadow (s : State) (p off : Nat) (d : Word) : State :=
  (fieldsAt (rowsOf p) off).foldl (fun (t : State) f =>
    let v := f.of d
    t.wrShadow p f (if 0x100 ≤ p ∧ (off = 0x0D8 ∨ off = 0x0DC) then clampN 1 (2 ^ 24) v else v)) s

/-- A W36 value takes effect at the write of _HI (R29). DEDUCED, log entry 17. -/
def State.putWide (s : State) (p : Nat) (f : Fld) (v : Nat) : State :=
  if f.acc != .rw || s.fldLocked p f then s else if shadowOff p f.off then s.wrShadow p f v else s.wr p f v

/-- A write of a half of a W36 pair: _LO is kept for the requester until its write of _HI. DEDUCED, log entry 17. -/
def State.putHalf (s : State) (r : Req) (p : Nat) (f : Fld) (n : Nat) (d : Word) : State :=
  let k := perReq r p f.off
  if n = 0 then { s with half := s.half.set k d.toNat }
  else
    let t := { s with half := s.half.drop (· == k) }
    t.putWide p f (s.half.get 0 k + d.toNat % 16 * 2 ^ 32)

/-- A write of a register of channel `c`; a function's step number outside its range is ignored and counted (R321), and the start step
and the loop counters do not change while the channel is armed (R163). DEDUCED, log entry 19. -/
def State.putChn (s : State) (r : Req) (c off : Nat) (d : Word) : State :=
  let p := pgChn c
  let f := fnOf r
  if (off = 0x1C0 ∨ off = 0x1C4 ∨ off = 0x1C8) ∧ f ≠ 0 ∧ bitOf d.toNat 31 ∧ !s.inRange f (d.toNat % 2 ^ 14) then
    s.bump (iFn f) R.FNC_FN_RANGE_ERR_count 1
  else if off = 0x028 then s.chnCmdWrite c d
  else if off = offLpCmd then s.lpCmdWrite c d
  else if off = 0x208 then s.chanTripCmd c d
  else if (off = 0x1C0 ∨ off = 0x1E0 ∨ off = 0x1E4) ∧ s.armed c then s
  else if shadowOff p off then s.putShadow p off d
  else s.putReg p p off d

/-- A write of a register of bank `b`. -/
def State.putBnk (s : State) (r : Req) (b off : Nat) (d : Word) : State :=
  let p := pgBnk b
  if off = 0x040 then s.linkCtrl b d
  else if off = 0x08C then s.calCmd b d
  else if off = 0x090 ∨ off = 0x094 ∨ off = 0x098 then s.calShadow b off d
  else if off = 0x0E4 then s.bnkChnCmd r b d
  else if off = 0x0F4 then s.bankTripCmd b d
  else s.putReg p p off d

/-- The identity CRCs that the partner holds, where a write does not say them: free values. DEDUCED, log entry 67. -/
def State.peerFree (s : State) : List Word := (List.range 32).map (fun i => BitVec.ofNat 32 (Config.freeValue (s.free + i)).toNat)

/-- A write of a STP register. -/
def State.putStp (s : State) (off : Nat) (d : Word) : State :=
  if off = 0x02C then s.gateCmd d
  else if off = 0x044 then s.ldgCmdWrite d
  else if shadowOff pgStp off then s.putShadow pgStp off d
  else s.putReg pgStp pgStp off d

/-- An EVR_RL_CFG write (R454): an exempt code ignores it, and a bucket never holds more tokens than the burst. -/
def State.rlCfg (s : State) (r : Req) (d : Word) : State :=
  let c := s.rd pgEvr R.EVR_RL_SEL_code
  if exemptCode c then s
  else
    let t := s.putReg (s.instOf r pgEvr 0x0B4) pgEvr 0x0B4 d
    t.wr (iCode c) R.EVR_RL_STAT_tokens (min (t.rd (iCode c) R.EVR_RL_STAT_tokens) (t.rd (iCode c) R.EVR_RL_CFG_burst))

/-- A write of a register of one of the other pages. -/
def State.putRest (s : State) (r : Req) (p off : Nat) (d : Word) : State :=
  if p = pgClk then (if off = 0x020 then s.clkWrite r d else s)
  else if p = pgRst then
    if off = 0x020 then s.rstCmd d
    else if off = 0x02C then (if d = 0xA5A5#32 then s else s.freeNext.wdtExpiry (bitOf s.freeVal 0))
    else s.putReg p p off d
  else if p = pgEvr then
    if off = 0x02C then s.readWindow d.toNat
    else if off = 0x080 then s.swCode r d
    else if off = 0x0B4 then s.rlCfg r d
    else s.putReg (s.instOf r p off) p off d
  else if p = pgUpd then (if off = 0x020 then s.updCmd d else s.putReg p p off d)
  else if p = pgDbg then (if off = 0x020 then s.dbgWrite r d else s)
  else if p = pgBrg then (if off = 0x028 then s.brgIssue r d else s.putReg (s.instOf r p off) p off d)
  else if p = pgEsw then s.eswWrite off d
  else if p = pgPtp then s.ptpWrite off d
  else if 0x028 ≤ p ∧ p < 0x02C then s.canWrite (p - 0x028) off d
  else if p = pgNwm then s.nwmWrite off d
  else if p = pgFio then s.fioRegWrite off d
  else if p = pgLdc then s.ldcWrite off d
  else if p = pgLgr then
    if (0x040 ≤ off ∧ off < 0x060) ∨ (0x100 ≤ off ∧ off < 0x210) then s.logWrite off d else s.putReg p p off d
  else if p = pgGrd then (if off = 0x0A4 then s.grdCmdWrite d else s.putReg (s.instOf r p off) p off d)
  else if p = pgPair then
    (if off = 0x024 then { s with free := s.free + 32 }.pairCmd d s.peerFree else s.putReg p p off d)
  else if p = pgTrp then (if off = 0x064 then s.trpForce d else s.putReg p p off d)
  else s.putReg p p off d

/-- An accepted 32-bit write. DESIGN CHOICE, log entry 8. -/
def State.writeReg (s : State) (r : Req) (p off : Nat) (d : Word) : State :=
  if off < 0x020 then s.putHeader p off d
  else
    match widePart p off with
    | some (f, n) => if f.w = 36 then s.putHalf r p f n d else s
    | none =>
      if p = pgPwr then s.putPwr r off d
      else if p = pgKey ∨ p = pgCry ∨ p = pgTmp then s.putKeys r p off d
      else if p = pgSec then s.putSec off d
      else if p = pgMbx then s.putMbx r off d
      else if p = pgFnc then s.putFnc r off d
      else if p = pgQpm then s.putQpm off d
      else if p = pgStp then s.putStp off d
      else if 0x080 ≤ p ∧ p < 0x0A0 then s.putBnk r (p - 0x080) off d
      else if 0x100 ≤ p then s.putChn r (p - 0x100) off d
      else s.putRest r p off d

/-- A write access: one of 64 bits writes _LO and then _HI. -/
def State.writeAcc (s : State) (r : Req) (p off sz : Nat) (d : BitVec 64) : State :=
  s.regAccess r p off sz true (fun t =>
    if sz = 3 then (t.writeReg r p off (d.setWidth 32)).writeReg r p (off + 4) ((d >>> 32).setWidth 32)
    else t.writeReg r p off (d.setWidth 32))

/-- REGISTER_WRITE (R20, R3): a write access of `2 ^ sz` bytes; a register whose write has a row of its own does what that row says.
DESIGN CHOICE, log entry 8. -/
def execRegisterWrite (r : Req) (p : Fin 1024) (off : Fin 4096) (sz : Fin 4) (d : BitVec 64) (s : State) : Res :=
  .next (s.start.writeAcc r p.val off.val sz.val d)

/-! ### The step store window (R16, R17, R143) -/

/-- The cause with which an access at byte `a` of the step store window ends: 0 below the watermark from outside the secure world,
1 for a width or alignment that R17 does not name and for an initiator that R19 does not let reach the window, 2 with FABRIC off.
DEDUCED, log entry 23. -/
def State.stepCause (s : State) (r : Req) (a sz : Nat) : Option Nat :=
  let bus := match r with
    | .fn _ => false
    | .session _ _ => false
    | _ => true
  if !s.domOn 0 then some 2
  else if !bus then some 1
  else if a / 96 < s.rd pgSec R.SEC_WM_STEP_units ∧ (s.attr r).world ≠ 1 then some 0
  else if (sz = 2 ∧ a % 4 = 0) ∨ (sz = 3 ∧ a % 8 = 0) then none
  else some 1

/-- The key of a low half that waits for its high half, for the word at byte `a` of the window. -/
def stepHalf (r : Req) (a : Nat) : Nat := reqId r * 2 ^ 24 + 2 ^ 23 + a / 8

/-- A write at byte `a` of the window: the word changes when its high half is written. DEDUCED, log entry 26. -/
def State.stepPut (s : State) (r : Req) (a sz : Nat) (d : BitVec 64) : State :=
  let at_ := s.attr r
  let k := stepHalf r a
  let put := fun (t : State) (v : Nat) => t.stepWrite (a / 96) (a % 96 / 8) v at_.world at_.function
  if sz = 3 then put s d.toNat
  else if a % 8 = 0 then { s with half := s.half.set k (d.toNat % 2 ^ 32) }
  else put { s with half := s.half.drop (· == k) } (s.half.get 0 k + d.toNat % 2 ^ 32 * 2 ^ 32)

/-- STEP_WORD_WRITE (R17). DEDUCED, log entry 23. -/
def execStepWordWrite (r : Req) (a : Fin 1572864) (sz : Fin 4) (d : BitVec 64) (s : State) : Res :=
  let s := s.start
  .next (match s.stepCause r a.val sz.val with
    | some c => s.accErr r (0x20000000 + a.val) true c
    | none => s.stepPut r a.val sz.val d)

/-- STEP_WORD_READ (R16, R17): the slot as R10 forms it, or a half of it. DEDUCED, log entry 23. -/
def execStepWordRead (r : Req) (a : Fin 1572864) (sz : Fin 4) (s : State) : Res :=
  let s := s.start
  let n := a.val
  let v := ofBytes (stepSlot (n % 96 / 8) (s.stepWord (n / 96) (n % 96 / 8)))
  .next (match s.stepCause r n sz.val with
    | some c => s.accErr r (0x20000000 + n) false c
    | none => s.answer (if sz.val = 3 then v else v / 2 ^ (8 * (n % 8)) % 2 ^ 32))

/-! ### Register messages of a session (R316, R339) -/

/-- The page that page `n` of BAR0 of function `f` is: a physical page for PF0; for a VF its function registers, the channel page of
a map slot, or nothing. DEDUCED, log entry 25. -/
def State.barPage (s : State) (f n : Nat) : Option Nat :=
  if f = 0 then some n
  else if n = 0 then some pgFnc
  else if n ≤ 512 then (s.slotChan f (n - 1)).map pgChn
  else none

/-- An access through BAR0 of session function `f` at byte offset `o`: `k` is given the page and the offset in it.
DEDUCED, log entry 25. -/
def State.barAccess (s : State) (n : Fin 4) (f : Fin 512) (o : Nat) (write : Bool) (k : State → Nat → Nat → State) : State :=
  if 0x400000 ≤ o then s.accErr (.session n f) (0x40000000 + o) write 1
  else
    match s.barPage f.val (o / 4096) with
    | some p => k s p (o % 4096)
    | none => s.accErr (.session n f) (0x40000000 + o) write 1

/-- SES_REG_READ (R339): answered by REG_DATA; how an error is coded in its last byte is a free value, not zero.
DESIGN CHOICE, log entry 24. -/
def execSesRegRead (n : Fin 4) (f : Fin 512) (o : Word) (s : State) : Res :=
  let s := s.start
  .next (
    if s.sesHolds n.val f.val && s.firmware then
      let t := s.barAccess n f o.toNat false (fun t p off => t.readAcc (.session n f) p off 2)
      let e := if t.rsp.err then 1 + t.freeVal % 255 else 0
      t.freeNext.emit (.ses f.val 0x02 (toBytes 4 o.toNat ++ toBytes 4 t.rsp.data ++ toBytes 1 e))
    else s)

/-- SES_REG_WRITE (R339). -/
def execSesRegWrite (n : Fin 4) (f : Fin 512) (o d : Word) (s : State) : Res :=
  let s := s.start
  .next (
    if s.sesHolds n.val f.val && s.firmware then
      s.barAccess n f o.toNat true (fun t p off => t.writeAcc (.session n f) p off 2 (d.setWidth 64))
    else s)

end Sys2Proof.Machine
end

