-- ==== Sys2Proof/Machine/Dispatch.lean ====
section
/-! DEFINITION. The effect of each command: one arm for each constructor of `Instr`. -/
namespace Sys2Proof.Machine

def exec (i : Instr) (s : State) : Host.Outcome State Fault Refusal :=
  match i with
  | .registerWrite r p off sz d => Sys2Proof.Machine.execRegisterWrite r p off sz d s
  | .snapshotRead r p off sz => Sys2Proof.Machine.execSnapshotRead r p off sz s
  | .readClear r p off => Sys2Proof.Machine.execReadClear r p off s
  | .stepWordWrite r a sz d => Sys2Proof.Machine.execStepWordWrite r a sz d s
  | .stepWordRead r a sz => Sys2Proof.Machine.execStepWordRead r a sz s
  | .softReset r p d => Sys2Proof.Machine.execSoftReset r p d s
  | .softResetDone p => Sys2Proof.Machine.execSoftResetDone p s
  | .ctrlLock r p d => Sys2Proof.Machine.execCtrlLock r p d s
  | .intForce r p d => Sys2Proof.Machine.execIntForce r p d s
  | .heartbeatSend valid => Sys2Proof.Machine.execHeartbeatSend valid s
  | .heartbeatSilence => Sys2Proof.Machine.execHeartbeatSilence s
  | .fieldAccessTimeout r k off write => Sys2Proof.Machine.execFieldAccessTimeout r k off write s
  | .superframeBoundary => Sys2Proof.Machine.execSuperframeBoundary s
  | .vcoreLowerCount hi => Sys2Proof.Machine.execVcoreLowerCount hi s
  | .slackLowRun hi => Sys2Proof.Machine.execSlackLowRun hi s
  | .vcoreFault d => Sys2Proof.Machine.execVcoreFault d s
  | .slackMinReset r b => Sys2Proof.Machine.execSlackMinReset r b s
  | .phaseCStart b slack => Sys2Proof.Machine.execPhaseCStart b slack s
  | .bankDeadline b => Sys2Proof.Machine.execBankDeadline b s
  | .gateTally => Sys2Proof.Machine.execGateTally s
  | .ledgerWork => Sys2Proof.Machine.execLedgerWork s
  | .ledgerMiss => Sys2Proof.Machine.execLedgerMiss s
  | .domReqOn r d => Sys2Proof.Machine.execDomReqOn r d s
  | .domReqOff r d => Sys2Proof.Machine.execDomReqOff r d s
  | .domainOnDone d ticks => Sys2Proof.Machine.execDomainOnDone d ticks s
  | .domainOffDone d => Sys2Proof.Machine.execDomainOffDone d s
  | .clkGateWrite r d => Sys2Proof.Machine.execClkGateWrite r d s
  | .rstCmdWarm r d => Sys2Proof.Machine.execRstCmdWarm r d s
  | .rstCmdCold r d => Sys2Proof.Machine.execRstCmdCold r d s
  | .resetPin => Sys2Proof.Machine.execResetPin s
  | .powerOnReset => Sys2Proof.Machine.execPowerOnReset s
  | .brownout => Sys2Proof.Machine.execBrownout s
  | .watchdogExpiry second => Sys2Proof.Machine.execWatchdogExpiry second s
  | .watchdogKick r d second => Sys2Proof.Machine.execWatchdogKick r d second s
  | .debugColdRequest => Sys2Proof.Machine.execDebugColdRequest s
  | .startUp train => Sys2Proof.Machine.execStartUp train s
  | .aonXtalSwitch => Sys2Proof.Machine.execAonXtalSwitch s
  | .sleepEnter r d => Sys2Proof.Machine.execSleepEnter r d s
  | .ageingWatchEnter r d => Sys2Proof.Machine.execAgeingWatchEnter r d s
  | .wake src => Sys2Proof.Machine.execWake src s
  | .sleepTimerWake => Sys2Proof.Machine.execSleepTimerWake s
  | .awWakeCycle a ticks dur ids avg => Sys2Proof.Machine.execAwWakeCycle a ticks dur ids avg s
  | .uplinkFrame b sync side bits => Sys2Proof.Machine.execUplinkFrame b sync side bits s
  | .downlinkFrame b => Sys2Proof.Machine.execDownlinkFrame b s
  | .lostLink b => Sys2Proof.Machine.execLostLink b s
  | .linkTrain r b d => Sys2Proof.Machine.execLinkTrain r b d s
  | .linkDrop r b d => Sys2Proof.Machine.execLinkDrop r b d s
  | .idAccept r b d => Sys2Proof.Machine.execIdAccept r b d s
  | .idReject r b d => Sys2Proof.Machine.execIdReject r b d s
  | .linkSeekDetect b => Sys2Proof.Machine.execLinkSeekDetect b s
  | .linkLock b => Sys2Proof.Machine.execLinkLock b s
  | .linkAlignDone b rtt => Sys2Proof.Machine.execLinkAlignDone b rtt s
  | .linkSfsyncDone b => Sys2Proof.Machine.execLinkSfsyncDone b s
  | .idreadDone b w => Sys2Proof.Machine.execIdreadDone b w s
  | .linkTrainTimeout b n => Sys2Proof.Machine.execLinkTrainTimeout b n s
  | .linkRetryTimer b => Sys2Proof.Machine.execLinkRetryTimer b s
  | .calShadowWrite r b sel d => Sys2Proof.Machine.execCalShadowWrite r b sel d s
  | .calCommit r b d => Sys2Proof.Machine.execCalCommit r b d s
  | .calCommitTakesEffect b => Sys2Proof.Machine.execCalCommitTakesEffect b s
  | .calDiscard r b d => Sys2Proof.Machine.execCalDiscard r b d s
  | .calReload r b d => Sys2Proof.Machine.execCalReload r b d s
  | .calReloadDone b w => Sys2Proof.Machine.execCalReloadDone b w s
  | .auxSelWrite r b d => Sys2Proof.Machine.execAuxSelWrite r b d s
  | .logWindowEnd n => Sys2Proof.Machine.execLogWindowEnd n s
  | .logConfigWrite r w d => Sys2Proof.Machine.execLogConfigWrite r w d s
  | .chnArm r c d => Sys2Proof.Machine.execChnArm r c d s
  | .chnDisarm r c d => Sys2Proof.Machine.execChnDisarm r c d s
  | .chnApply r c d => Sys2Proof.Machine.execChnApply r c d s
  | .chnPreset r c d => Sys2Proof.Machine.execChnPreset r c d s
  | .chnDiscard r c d => Sys2Proof.Machine.execChnDiscard r c d s
  | .chnCmdTakesEffect c => Sys2Proof.Machine.execChnCmdTakesEffect c s
  | .chnEnableClear r c d => Sys2Proof.Machine.execChnEnableClear r c d s
  | .bnkChnArm r b d => Sys2Proof.Machine.execBnkChnArm r b d s
  | .bnkChnDisarm r b d => Sys2Proof.Machine.execBnkChnDisarm r b d s
  | .bnkChnApply r b d => Sys2Proof.Machine.execBnkChnApply r b d s
  | .lpSwap r c d => Sys2Proof.Machine.execLpSwap r c d s
  | .lpCancel r c d => Sys2Proof.Machine.execLpCancel r c d s
  | .lpJump r c d => Sys2Proof.Machine.execLpJump r c d s
  | .lpAbort r c d => Sys2Proof.Machine.execLpAbort r c d s
  | .lpRelease r c d => Sys2Proof.Machine.execLpRelease r c d s
  | .lpCmdTakesEffect c => Sys2Proof.Machine.execLpCmdTakesEffect c s
  | .gateReleaseCmd r d => Sys2Proof.Machine.execGateReleaseCmd r d s
  | .bankTripClear r b d => Sys2Proof.Machine.execBankTripClear r b d s
  | .tripTestA r b d => Sys2Proof.Machine.execTripTestA r b d s
  | .tripTestB r b d => Sys2Proof.Machine.execTripTestB r b d s
  | .chnTripClear r c d => Sys2Proof.Machine.execChnTripClear r c d s
  | .tripClearTakesEffect b => Sys2Proof.Machine.execTripClearTakesEffect b s
  | .tripForce r d => Sys2Proof.Machine.execTripForce r d s
  | .tripHoldExpiry b => Sys2Proof.Machine.execTripHoldExpiry b s
  | .tripDisagreeWindow b => Sys2Proof.Machine.execTripDisagreeWindow b s
  | .ldgApply r d => Sys2Proof.Machine.execLdgApply r d s
  | .ldgApplyTakesEffect => Sys2Proof.Machine.execLdgApplyTakesEffect s
  | .ldgDiscard r d => Sys2Proof.Machine.execLdgDiscard r d s
  | .grdEntryNotice => Sys2Proof.Machine.execGrdEntryNotice s
  | .grdStepEnd => Sys2Proof.Machine.execGrdStepEnd s
  | .grdOpen r d => Sys2Proof.Machine.execGrdOpen r d s
  | .grdSeal r d => Sys2Proof.Machine.execGrdSeal r d s
  | .grdSealTakesEffect c => Sys2Proof.Machine.execGrdSealTakesEffect c s
  | .grdDiscard r d => Sys2Proof.Machine.execGrdDiscard r d s
  | .grdSignDone => Sys2Proof.Machine.execGrdSignDone s
  | .grdRecordEmit => Sys2Proof.Machine.execGrdRecordEmit s
  | .grdOcvPoint c => Sys2Proof.Machine.execGrdOcvPoint c s
  | .plkFrame sync w off => Sys2Proof.Machine.execPlkFrame sync w off s
  | .plkUp => Sys2Proof.Machine.execPlkUp s
  | .plkLost => Sys2Proof.Machine.execPlkLost s
  | .partnerFail => Sys2Proof.Machine.execPartnerFail s
  | .pairEnable r d => Sys2Proof.Machine.execPairEnable r d s
  | .pairSync r d peer => Sys2Proof.Machine.execPairSync r d peer s
  | .pairAbortSync r d => Sys2Proof.Machine.execPairAbortSync r d s
  | .pairFailCmd r d => Sys2Proof.Machine.execPairFailCmd r d s
  | .pairYield r d => Sys2Proof.Machine.execPairYield r d s
  | .syncSnapshotLoaded vals => Sys2Proof.Machine.execSyncSnapshotLoaded vals s
  | .syncReplayLive => Sys2Proof.Machine.execSyncReplayLive s
  | .syncDone => Sys2Proof.Machine.execSyncDone s
  | .pairRecHoldExpiry c => Sys2Proof.Machine.execPairRecHoldExpiry c s
  | .gwgate h rd rs1 => Sys2Proof.Machine.execGwgate h rd rs1 s
  | .gwcall h rs1 => Sys2Proof.Machine.execGwcall h rs1 s
  | .gwret h => Sys2Proof.Machine.execGwret h s
  | .gwresume h rs1 => Sys2Proof.Machine.execGwresume h rs1 s
  | .gwid h rd => Sys2Proof.Machine.execGwid h rd s
  | .trap h cause tval => Sys2Proof.Machine.execTrap h cause tval s
  | .mret h => Sys2Proof.Machine.execMret h s
  | .cocCreate r d => Sys2Proof.Machine.execCocCreate r d s
  | .cocSeal r d => Sys2Proof.Machine.execCocSeal r d s
  | .cocSealDone n => Sys2Proof.Machine.execCocSealDone n s
  | .cocDestroy r d => Sys2Proof.Machine.execCocDestroy r d s
  | .cocDestroyDone n => Sys2Proof.Machine.execCocDestroyDone n s
  | .wmWrite r w d => Sys2Proof.Machine.execWmWrite r w d s
  | .l2MaskWrite r coc d => Sys2Proof.Machine.execL2MaskWrite r coc d s
  | .l2Clean r d => Sys2Proof.Machine.execL2Clean r d s
  | .coreRun r d => Sys2Proof.Machine.execCoreRun r d s
  | .hoOffer r d => Sys2Proof.Machine.execHoOffer r d s
  | .hoWithdraw r d => Sys2Proof.Machine.execHoWithdraw r d s
  | .hoCommit r d => Sys2Proof.Machine.execHoCommit r d s
  | .hoReclaim r d => Sys2Proof.Machine.execHoReclaim r d s
  | .hoDrainDone => Sys2Proof.Machine.execHoDrainDone s
  | .mbxPost r d => Sys2Proof.Machine.execMbxPost r d s
  | .mbxTake r d => Sys2Proof.Machine.execMbxTake r d s
  | .mbxDone r d => Sys2Proof.Machine.execMbxDone r d s
  | .mbxFree r d => Sys2Proof.Machine.execMbxFree r d s
  | .mbxCancel r d => Sys2Proof.Machine.execMbxCancel r d s
  | .mbxTimeout k => Sys2Proof.Machine.execMbxTimeout k s
  | .mbxPing k => Sys2Proof.Machine.execMbxPing k s
  | .mbxVersion k => Sys2Proof.Machine.execMbxVersion k s
  | .mbxKeySign k => Sys2Proof.Machine.execMbxKeySign k s
  | .mbxKeyHmac k => Sys2Proof.Machine.execMbxKeyHmac k s
  | .mbxKeyDerive k => Sys2Proof.Machine.execMbxKeyDerive k s
  | .mbxKeyPubkey k => Sys2Proof.Machine.execMbxKeyPubkey k s
  | .mbxKeyRandom k => Sys2Proof.Machine.execMbxKeyRandom k s
  | .mbxKeyInvalidate k => Sys2Proof.Machine.execMbxKeyInvalidate k s
  | .dbgEnWrite r d => Sys2Proof.Machine.execDbgEnWrite r d s
  | .haltRequest h => Sys2Proof.Machine.execHaltRequest h s
  | .keyDerive r d => Sys2Proof.Machine.execKeyDerive r d s
  | .keyInvalidate r d => Sys2Proof.Machine.execKeyInvalidate r d s
  | .keyZero r d => Sys2Proof.Machine.execKeyZero r d s
  | .crySha256 r d => Sys2Proof.Machine.execCrySha256 r d s
  | .cryHmac r d => Sys2Proof.Machine.execCryHmac r d s
  | .cryDerive r d => Sys2Proof.Machine.execCryDerive r d s
  | .crySign r d => Sys2Proof.Machine.execCrySign r d s
  | .cryVerify r d => Sys2Proof.Machine.execCryVerify r d s
  | .cryPubkey r d => Sys2Proof.Machine.execCryPubkey r d s
  | .cryRandom r d => Sys2Proof.Machine.execCryRandom r d s
  | .cryJobDone => Sys2Proof.Machine.execCryJobDone s
  | .tamperDetect c => Sys2Proof.Machine.execTamperDetect c s
  | .svcStatus n => Sys2Proof.Machine.execSvcStatus n s
  | .svcId n => Sys2Proof.Machine.execSvcId n s
  | .svcHeader h => Sys2Proof.Machine.execSvcHeader h s
  | .svcBlock d fail => Sys2Proof.Machine.execSvcBlock d fail s
  | .svcVerify n => Sys2Proof.Machine.execSvcVerify n s
  | .svcActivate d => Sys2Proof.Machine.execSvcActivate d s
  | .svcAbort n => Sys2Proof.Machine.execSvcAbort n s
  | .svcCmdDone => Sys2Proof.Machine.execSvcCmdDone s
  | .updConfirm r d => Sys2Proof.Machine.execUpdConfirm r d s
  | .updRevert r d => Sys2Proof.Machine.execUpdRevert r d s
  | .pcieReset => Sys2Proof.Machine.execPcieReset s
  | .flr f => Sys2Proof.Machine.execFlr f s
  | .vfEnableClear => Sys2Proof.Machine.execVfEnableClear s
  | .busMasterClear f => Sys2Proof.Machine.execBusMasterClear f s
  | .fnDisable r d => Sys2Proof.Machine.execFnDisable r d s
  | .fnDrainDone f cids => Sys2Proof.Machine.execFnDrainDone f cids s
  | .quotaWrite r d => Sys2Proof.Machine.execQuotaWrite r d s
  | .stepRangeWrite r cnt d => Sys2Proof.Machine.execStepRangeWrite r cnt d s
  | .bar2Read f e o n => Sys2Proof.Machine.execBar2Read f e o n s
  | .bar2Write f => Sys2Proof.Machine.execBar2Write f s
  | .poisonedWrite f => Sys2Proof.Machine.execPoisonedWrite f s
  | .qEnable r d => Sys2Proof.Machine.execQEnable r d s
  | .qDisable r d cids => Sys2Proof.Machine.execQDisable r d cids s
  | .dbSqTail r d => Sys2Proof.Machine.execDbSqTail r d s
  | .dbCqHead r d => Sys2Proof.Machine.execDbCqHead r d s
  | .dbDeliveryHead r d => Sys2Proof.Machine.execDbDeliveryHead r d s
  | .sqFetch f q e data => Sys2Proof.Machine.execSqFetch f q e data s
  | .cmdNop f q e => Sys2Proof.Machine.execCmdNop f q e s
  | .cmdIdentify f q e => Sys2Proof.Machine.execCmdIdentify f q e s
  | .cmdMapRead f q e => Sys2Proof.Machine.execCmdMapRead f q e s
  | .cmdStepWrite f q e data => Sys2Proof.Machine.execCmdStepWrite f q e data s
  | .cmdStepRead f q e => Sys2Proof.Machine.execCmdStepRead f q e s
  | .cmdLogMap f q e => Sys2Proof.Machine.execCmdLogMap f q e s
  | .cmdGrdStage f q e data => Sys2Proof.Machine.execCmdGrdStage f q e data s
  | .cmdGrdCtrl f q e => Sys2Proof.Machine.execCmdGrdCtrl f q e s
  | .cmdChnBatch f q e data => Sys2Proof.Machine.execCmdChnBatch f q e data s
  | .cmdQBind f q e => Sys2Proof.Machine.execCmdQBind f q e s
  | .cmdQUnbind f q e => Sys2Proof.Machine.execCmdQUnbind f q e s
  | .cmdMove f q e => Sys2Proof.Machine.execCmdMove f q e s
  | .moveTakesEffect => Sys2Proof.Machine.execMoveTakesEffect s
  | .moveComplete => Sys2Proof.Machine.execMoveComplete s
  | .itemDeliver q => Sys2Proof.Machine.execItemDeliver q s
  | .sesConnect => Sys2Proof.Machine.execSesConnect s
  | .sesRegRead n f o => Sys2Proof.Machine.execSesRegRead n f o s
  | .sesRegWrite n f o d => Sys2Proof.Machine.execSesRegWrite n f o d s
  | .sesSubmit n f q es => Sys2Proof.Machine.execSesSubmit n f q es s
  | .sesDataPut n f o bs => Sys2Proof.Machine.execSesDataPut n f o bs s
  | .sesDataGet n f o len => Sys2Proof.Machine.execSesDataGet n f o len s
  | .sesKeepalive n => Sys2Proof.Machine.execSesKeepalive n s
  | .sesKeepaliveSend => Sys2Proof.Machine.execSesKeepaliveSend s
  | .sessionLost n => Sys2Proof.Machine.execSessionLost n s
  | .qpmEnable r d => Sys2Proof.Machine.execQpmEnable r d s
  | .qpmItemFirstWord p => Sys2Proof.Machine.execQpmItemFirstWord p s
  | .qpmItemRetry p => Sys2Proof.Machine.execQpmItemRetry p s
  | .qpmItemEnd p => Sys2Proof.Machine.execQpmItemEnd p s
  | .qpmFlush r d passed => Sys2Proof.Machine.execQpmFlush r d passed s
  | .qpmQueueDisable r d passed => Sys2Proof.Machine.execQpmQueueDisable r d passed s
  | .brgRead r d => Sys2Proof.Machine.execBrgRead r d s
  | .brgWrite r d => Sys2Proof.Machine.execBrgWrite r d s
  | .brgResponse b => Sys2Proof.Machine.execBrgResponse b s
  | .brgTimeout t => Sys2Proof.Machine.execBrgTimeout t s
  | .brgCollect r => Sys2Proof.Machine.execBrgCollect r s
  | .brgDiscardExpiry t => Sys2Proof.Machine.execBrgDiscardExpiry t s
  | .brgQuarantineEnd t => Sys2Proof.Machine.execBrgQuarantineEnd t s
  | .eswFrameLookup p bytes cap chg busy got => Sys2Proof.Machine.execEswFrameLookup p bytes cap chg busy got s
  | .eswFrameEnd p bytes pcs => Sys2Proof.Machine.execEswFrameEnd p bytes pcs s
  | .eswTxStart o cap waited => Sys2Proof.Machine.execEswTxStart o cap waited s
  | .eswLinkDown p => Sys2Proof.Machine.execEswLinkDown p s
  | .atuRead r d => Sys2Proof.Machine.execAtuRead r d s
  | .atuWrite r d => Sys2Proof.Machine.execAtuWrite r d s
  | .atuDelete r d => Sys2Proof.Machine.execAtuDelete r d s
  | .atuFlushDyn r d => Sys2Proof.Machine.execAtuFlushDyn r d s
  | .atuAgeExpiry vid mac => Sys2Proof.Machine.execAtuAgeExpiry vid mac s
  | .p3TxDoorbell r d => Sys2Proof.Machine.execP3TxDoorbell r d s
  | .ptpOffsetCommit r d dt u => Sys2Proof.Machine.execPtpOffsetCommit r d dt u s
  | .ptpSlew r d => Sys2Proof.Machine.execPtpSlew r d s
  | .ptpStep r d u => Sys2Proof.Machine.execPtpStep r d u s
  | .ptpHoldover r d => Sys2Proof.Machine.execPtpHoldover r d s
  | .ptpCancel r d => Sys2Proof.Machine.execPtpCancel r d s
  | .ptpHoldoverTimeout => Sys2Proof.Machine.execPtpHoldoverTimeout s
  | .ptpTxTimestamp p cap => Sys2Proof.Machine.execPtpTxTimestamp p cap s
  | .ptpTsqPop r p => Sys2Proof.Machine.execPtpTsqPop r p s
  | .ptpTxDoorbell r d => Sys2Proof.Machine.execPtpTxDoorbell r d s
  | .canStart r n d => Sys2Proof.Machine.execCanStart r n d s
  | .canStop r n d busy => Sys2Proof.Machine.execCanStop r n d busy s
  | .canRecover r n d => Sys2Proof.Machine.execCanRecover r n d s
  | .canTxPend r n d => Sys2Proof.Machine.execCanTxPend r n d s
  | .canTxAbort r n d tx => Sys2Proof.Machine.execCanTxAbort r n d tx s
  | .canRxqPop r n q d => Sys2Proof.Machine.execCanRxqPop r n q d s
  | .canFrameRx n w0 w1 data => Sys2Proof.Machine.execCanFrameRx n w0 w1 data s
  | .canFrameTxEnd n res late lec cnt => Sys2Proof.Machine.execCanFrameTxEnd n res late lec cnt s
  | .canBusOn n => Sys2Proof.Machine.execCanBusOn n s
  | .nwmChEnable r n d => Sys2Proof.Machine.execNwmChEnable r n d s
  | .nwmAwakeReq r n d => Sys2Proof.Machine.execNwmAwakeReq r n d s
  | .nwmLocalWake r n d => Sys2Proof.Machine.execNwmLocalWake r n d s
  | .nwmKeepaliveTimer n => Sys2Proof.Machine.execNwmKeepaliveTimer n s
  | .nwmCommitPoint n tx => Sys2Proof.Machine.execNwmCommitPoint n tx s
  | .nwmControllerSleep n => Sys2Proof.Machine.execNwmControllerSleep n s
  | .nwmBusSleep n => Sys2Proof.Machine.execNwmBusSleep n s
  | .nwmWakeDetect n ev w0 w1 data => Sys2Proof.Machine.execNwmWakeDetect n ev w0 w1 data s
  | .nwmDwellEnd n => Sys2Proof.Machine.execNwmDwellEnd n s
  | .nwmIntegrationDone n => Sys2Proof.Machine.execNwmIntegrationDone n s
  | .nwmStuck n => Sys2Proof.Machine.execNwmStuck n s
  | .fioSample mv cur => Sys2Proof.Machine.execFioSample mv cur s
  | .fioWireBreak n low => Sys2Proof.Machine.execFioWireBreak n low s
  | .fioOutWrite r d => Sys2Proof.Machine.execFioOutWrite r d s
  | .fioOutSet r d => Sys2Proof.Machine.execFioOutSet r d s
  | .fioOutClr r d => Sys2Proof.Machine.execFioOutClr r d s
  | .fioPtCfgWrite r n d => Sys2Proof.Machine.execFioPtCfgWrite r n d s
  | .fioPointFault n cause on => Sys2Proof.Machine.execFioPointFault n cause on s
  | .fioFaultClear r d => Sys2Proof.Machine.execFioFaultClear r d s
  | .vfieldLow => Sys2Proof.Machine.execVfieldLow s
  | .vfieldRestored => Sys2Proof.Machine.execVfieldRestored s
  | .fioResume r d => Sys2Proof.Machine.execFioResume r d s
  | .fioSafe r d => Sys2Proof.Machine.execFioSafe r d s
  | .fioEnable r en => Sys2Proof.Machine.execFioEnable r en s
  | .fioHoldExpiry => Sys2Proof.Machine.execFioHoldExpiry s
  | .ldcOnWrite r d => Sys2Proof.Machine.execLdcOnWrite r d s
  | .ldcOnSet r d => Sys2Proof.Machine.execLdcOnSet r d s
  | .ldcOnClr r d => Sys2Proof.Machine.execLdcOnClr r d s
  | .ldcPwmBoundary => Sys2Proof.Machine.execLdcPwmBoundary s
  | .ldcClampEvent n e => Sys2Proof.Machine.execLdcClampEvent n e s
  | .ldcClampDecay => Sys2Proof.Machine.execLdcClampDecay s
  | .ldcClampLock r n d => Sys2Proof.Machine.execLdcClampLock r n d s
  | .ldcOvercurrent n short => Sys2Proof.Machine.execLdcOvercurrent n short s
  | .ldcRetryExpiry n => Sys2Proof.Machine.execLdcRetryExpiry n s
  | .ldcOkTimer n => Sys2Proof.Machine.execLdcOkTimer n s
  | .ldcThermal n temp => Sys2Proof.Machine.execLdcThermal n temp s
  | .ldcFaultClear r d => Sys2Proof.Machine.execLdcFaultClear r d s
  | .ldcTotalShed ma => Sys2Proof.Machine.execLdcTotalShed ma s
  | .ldcOpenLoad n low => Sys2Proof.Machine.execLdcOpenLoad n low s
  | .fieldPowerOn => Sys2Proof.Machine.execFieldPowerOn s
  | .fieldDieReset => Sys2Proof.Machine.execFieldDieReset s
  | .supplyLoss k => Sys2Proof.Machine.execSupplyLoss k s
  | .evrRecordWrite => Sys2Proof.Machine.execEvrRecordWrite s
  | .evrScanDone => Sys2Proof.Machine.execEvrScanDone s
  | .evrTokenRefill c => Sys2Proof.Machine.execEvrTokenRefill c s
  | .evrReadWindow r d => Sys2Proof.Machine.execEvrReadWindow r d s
  | .evrSwRecord r d => Sys2Proof.Machine.execEvrSwRecord r d s
  | .ftaChallenge => Sys2Proof.Machine.execFtaChallenge s
  | .ftaAnswer sig => Sys2Proof.Machine.execFtaAnswer sig s
  | .superframeLengthChange l => Sys2Proof.Machine.execSuperframeLengthChange l s
  | .eswLinkUp p speed => Sys2Proof.Machine.execEswLinkUp p speed s
  | .pauseFrameRx p quanta len => Sys2Proof.Machine.execPauseFrameRx p quanta len s
  | .canBusError n lec eight => Sys2Proof.Machine.execCanBusError n lec eight s
  | .svcBadOpcode => Sys2Proof.Machine.execSvcBadOpcode s
  | .vfEnableSet vf n => Sys2Proof.Machine.execVfEnableSet vf n s
  | .pairDisable r d => Sys2Proof.Machine.execPairDisable r d s
  | .partnerFailRelease => Sys2Proof.Machine.execPartnerFailRelease s
  | .tamperedClear => Sys2Proof.Machine.execTamperedClear s
  | .rootProvision root cert => Sys2Proof.Machine.execRootProvision root cert s
  | .ftaSeal => Sys2Proof.Machine.execFtaSeal s

end Sys2Proof.Machine
end

