-- ==== Sys2Proof/Safety.lean ====
section
/-! DEFINITION. What claims about runs are stated in: the canonical form of the byte memories, the parts of the state, what a
command leaves unchanged, and the runs that complete. -/
namespace Sys2Proof.Machine

/-- The register map and every byte memory of the state are in their canonical form: the address space, the battery RAM and the
transfer windows. -/
structure State.Canonical (s : State) : Prop where
  fields  : s.fields.wf = true
  mem     : s.mem.wf = true
  bb      : s.bb.wf = true
  windows : ∀ e ∈ s.windows, e.2.wf = true

/-- The parts of the state beside the queue, the registers, the access answer, what the command sent and the free-value counter. -/
inductive Part where
  | mem | store | snaps | recorder | time | vcore | harts | banks | chans | bus | ports | grading | logs | bridge | pair
  | host | keys | root | battery | pages | boot | queues | switch | can | power | fta | field
  deriving DecidableEq, Repr

/-- Whether a part of the state is the same in two states. -/
def Part.same : Part → State → State → Prop
  | .mem, s, t => t.mem = s.mem
  | .store, s, t => (t.words, t.half) = (s.words, s.half)
  | .snaps, s, t => t.snap = s.snap
  | .recorder, s, t => (t.evr, t.stamps) = (s.evr, s.stamps)
  | .time, s, t => (t.k, t.len, t.lenNew, t.lenOld) = (s.k, s.len, s.lenNew, s.lenOld)
  | .vcore, s, t => t.vcore = s.vcore
  | .harts, s, t => (t.harts, t.saved) = (s.harts, s.saved)
  | .banks, s, t => t.banks = s.banks
  | .chans, s, t => t.chans = s.chans
  | .bus, s, t => (t.w, t.tally, t.led, t.missAt, t.ldgCmd, t.gateRel) = (s.w, s.tally, s.led, s.missAt, s.ldgCmd, s.gateRel)
  | .ports, s, t => t.ports = s.ports
  | .grading, s, t => (t.grd, t.grdIn) = (s.grd, s.grdIn)
  | .logs, s, t => (t.logAcc, t.logSeq, t.logCfg) = (s.logAcc, s.logSeq, s.logCfg)
  | .bridge, s, t => t.tags = s.tags
  | .pair, s, t => (t.roles, t.plk, t.mirror) = (s.roles, s.plk, s.mirror)
  | .host, s, t => (t.chMap, t.moves, t.pairs, t.pcie, t.noDma, t.sesOpen, t.windows) =
      (s.chMap, s.moves, s.pairs, s.pcie, s.noDma, s.sesOpen, s.windows)
  | .keys, s, t => (t.keys, t.job) = (s.keys, s.job)
  | .root, s, t => (t.bbRoot, t.bbMark, t.bbCheck, t.cert) = (s.bbRoot, s.bbMark, s.bbCheck, s.cert)
  | .battery, s, t => t.bb = s.bb
  | .pages, s, t => (t.offers, t.drain) = (s.offers, s.drain)
  | .boot, s, t => (t.chr, t.chrPc, t.boot, t.svc, t.running) = (s.chr, s.chrPc, s.boot, s.svc, s.running)
  | .queues, s, t => (t.queues, t.pool, t.portQ) = (s.queues, s.pool, s.portQ)
  | .switch, s, t => t.esw = s.esw
  | .can, s, t => t.cans = s.cans
  | .power, s, t => (t.sleep, t.up, t.warm, t.wdt, t.net) = (s.sleep, s.up, s.warm, s.wdt, s.net)
  | .fta, s, t => (t.fta, t.ftaFails) = (s.fta, s.ftaFails)
  | .field, s, t => t.fld = s.fld

/-- What a change of the state keeps: the queue, the canonical form of the memories, every register of an instance that `R` does not
hold of (a page, or a group of registers that a page shows through a selector), and every part that `W` does not list. -/
structure Keeps (W : List Part) (R : Nat → Bool) (s t : State) : Prop where
  pending : t.pending = s.pending
  canon   : s.Canonical → t.Canonical
  regs    : ∀ k, R (k / 131072) = false → ∀ d, t.fields.get d k = s.fields.get d k
  same    : ∀ p, p ∉ W → p.same s t

/-- An outcome that is a next state which keeps all this. -/
def Res.Keeps (W : List Part) (R : Nat → Bool) (s : State) : Res → Prop
  | .next t => Machine.Keeps W R s t
  | .fault _ => False
  | .refused _ => False

/-- A safe run: `n` steps answer a next state each. -/
def SafeRun (n : Nat) (s : State) : Prop := ∃ t, Sys2Proof.core.run n s = .next t

/-- A write access of requester `r` to offset `off` of page `p` is accepted (R24 to R26). -/
abbrev Accepts (s : State) (r : Req) (p off : Nat) : Prop := s.accCause r p off true = none

/-- An access of requester `r` to offset `off` of function registers reaches those of function `f` (R316, R319, R340). -/
def State.reachesFn (s : State) (r : Req) (off f : Nat) : Bool :=
  let own := fun (host g : Nat) =>
    if g = 0 then f == 0 && (s.accCause r pgFnc off true).isNone
    else f == g && s.domOn 0 && s.hostOf g == host && s.fnState g != 0
  match r with
  | .fn g => own 0 g.val
  | .session n g => own n.val g.val
  | _ => f == 0 && (s.accCause r pgFnc off true).isNone

/-- Pair `q` of PCIe function `f` fetches entry `e`, whose command is `op` and whose reserved fields are zero (R325, R326). -/
def State.fetches (s : State) (f q : Nat) (e : List Byte) (op : Nat) : Bool :=
  let c := cmdOf e
  s.canFetch f q c && s.hostOf f == 0 && !s.noDma.contains f && c.op == op && c.fl / 2 == 0 && c.rsv == 0
    && decide (c.sfc < 16384)

/-- Between `s` and `t`, pair `q` of function `f` has taken its next entry and written its completion to host memory (R325, R327). -/
abbrev State.completes (s t : State) (f q result aux status cid : Nat) : Prop :=
  let x := s.qp f q
  (t.qp f q).sqHead = (x.sqHead + 1) % 2 ^ x.sqLog ∧ (t.qp f q).cqTail = (x.cqTail + 1) % 2 ^ x.cqLog ∧ (t.qp f q).busy = false ∧
    Out.dma f (x.cqBase + 16 * x.cqTail) (cqEntry result aux ((x.sqHead + 1) % 2 ^ x.sqLog) status x.phase cid q) ∈ t.out

end Sys2Proof.Machine

namespace Sys2Proof.Instr
open Sys2Proof.Machine

/-! ### What a command may change -/

/-- The parts of the state that a command may change. -/
def writes : Instr → List Part
  | .aonXtalSwitch | .cocSealDone _ | .mbxTimeout _ | .mbxPing _ | .mbxVersion _ | .svcId _ | .bar2Read _ _ _ _ | .bar2Write _
  | .poisonedWrite _ | .sesDataGet _ _ _ _ | .sesKeepalive _ | .sesKeepaliveSend | .nwmKeepaliveTimer _ | .nwmControllerSleep _
  | .nwmBusSleep _ | .fioWireBreak _ _ | .fioHoldExpiry | .ldcPwmBoundary | .ldcClampEvent _ _ | .ldcClampDecay | .ldcOvercurrent _ _
  | .ldcRetryExpiry _ | .ldcOkTimer _ | .ldcThermal _ _ | .ldcTotalShed _ | .ldcOpenLoad _ _ | .evrTokenRefill _ | .eswLinkUp _ _
  | .svcBadOpcode | .partnerFailRelease | .tamperedClear | .ftaSeal => []
  | .linkSeekDetect _ | .linkLock _ | .linkAlignDone _ _ | .linkSfsyncDone _ | .linkTrainTimeout _ _ | .linkRetryTimer _
  | .calCommitTakesEffect _ | .calReloadDone _ _ | .tripHoldExpiry _ => [.banks]
  | .svcStatus _ | .svcVerify _ | .svcAbort _ => [.boot]
  | .brgDiscardExpiry _ | .brgQuarantineEnd _ => [.bridge]
  | .ldgApplyTakesEffect => [.bus]
  | .canBusOn _ | .nwmCommitPoint _ _ | .nwmIntegrationDone _ | .canBusError _ _ _ => [.can]
  | .heartbeatSend _ | .heartbeatSilence | .fioSample _ _ | .fioPointFault _ _ _ | .vfieldLow | .vfieldRestored | .fieldPowerOn
  | .fieldDieReset => [.field]
  | .ftaChallenge => [.fta]
  | .grdEntryNotice | .grdStepEnd | .grdSealTakesEffect _ | .grdOcvPoint _ | .pairRecHoldExpiry _ => [.grading]
  | .gwgate _ _ _ | .gwid _ _ | .haltRequest _ => [.harts]
  | .moveTakesEffect | .moveComplete | .sesConnect | .sesDataPut _ _ _ _ | .vfEnableSet _ _ => [.host]
  | .mbxKeyInvalidate _ => [.keys]
  | .hoDrainDone => [.pages]
  | .plkUp | .plkLost | .syncReplayLive | .syncDone => [.pair]
  | .wake _ | .sleepTimerWake => [.power]
  | .vcoreFault _ | .ptpHoldoverTimeout | .evrScanDone => [.recorder]
  | .rootProvision _ _ => [.root]
  | .eswFrameLookup _ _ _ _ _ _ | .eswLinkDown _ | .atuAgeExpiry _ _ | .ptpTxTimestamp _ _ | .pauseFrameRx _ _ _ => [.switch]
  | .superframeLengthChange _ => [.time]
  | .vcoreLowerCount _ => [.vcore]
  | .downlinkFrame _ | .brgResponse _ | .brgTimeout _ => [.banks, .bridge]
  | .canFrameRx _ _ _ _ | .canFrameTxEnd _ _ _ _ _ | .nwmWakeDetect _ _ _ _ _ | .nwmDwellEnd _ => [.can, .power]
  | .gateTally => [.chans, .bus]
  | .pcieReset | .flr _ | .vfEnableClear | .busMasterClear _ | .sessionLost _ => [.chans, .host]
  | .grdRecordEmit => [.grading, .queues]
  | .fnDrainDone _ _ | .itemDeliver _ | .sesSubmit _ _ _ _ => [.host, .queues]
  | .svcCmdDone => [.keys, .boot]
  | .svcHeader _ | .svcBlock _ _ => [.mem, .boot]
  | .gwcall _ _ | .gwret _ | .gwresume _ _ | .trap _ _ _ | .mret _ => [.mem, .harts]
  | .mbxKeySign _ | .mbxKeyHmac _ | .mbxKeyDerive _ | .mbxKeyPubkey _ | .mbxKeyRandom _ | .cryJobDone => [.mem, .keys]
  | .evrRecordWrite => [.mem, .recorder]
  | .eswFrameEnd _ _ _ | .eswTxStart _ _ _ => [.mem, .switch]
  | .grdSignDone => [.ports, .grading]
  | .logWindowEnd _ => [.ports, .logs]
  | .tripDisagreeWindow _ => [.recorder, .banks]
  | .nwmStuck _ => [.recorder, .can]
  | .stepWordRead _ _ _ | .intForce _ _ _ | .fieldAccessTimeout _ _ _ _ | .slackMinReset _ _ | .domReqOn _ _ | .domReqOff _ _
  | .clkGateWrite _ _ | .auxSelWrite _ _ _ | .wmWrite _ _ _ | .l2MaskWrite _ _ _ | .l2Clean _ _ | .mbxPost _ _ | .mbxTake _ _
  | .mbxDone _ _ | .mbxFree _ _ | .mbxCancel _ _ | .quotaWrite _ _ | .stepRangeWrite _ _ _ | .canTxPend _ _ _ | .canTxAbort _ _ _ _
  | .fioOutWrite _ _ | .fioOutSet _ _ | .fioOutClr _ _ | .fioPtCfgWrite _ _ _ | .fioFaultClear _ _ | .fioResume _ _ | .fioSafe _ _
  | .fioEnable _ _ | .ldcOnWrite _ _ | .ldcOnSet _ _ | .ldcOnClr _ _ | .ldcClampLock _ _ _ | .ldcFaultClear _ _ | .evrReadWindow _ _
  | .evrSwRecord _ _ => [.recorder, .field]
  | .slackLowRun _ => [.recorder, .vcore]
  | .idreadDone _ _ => [.banks, .chans, .grading]
  | .chnCmdTakesEffect _ | .lpCmdTakesEffect _ => [.chans, .ports, .grading]
  | .qpmItemEnd _ => [.mem, .ports, .queues]
  | .qpmItemFirstWord _ | .qpmItemRetry _ => [.ports, .grading, .queues]
  | .ledgerMiss => [.recorder, .banks, .bus]
  | .calShadowWrite _ _ _ _ | .calCommit _ _ _ | .calDiscard _ _ _ | .calReload _ _ _ | .bankTripClear _ _ _ | .tripTestA _ _ _
  | .tripTestB _ _ _ | .tripForce _ _ => [.recorder, .banks, .field]
  | .bankDeadline _ => [.recorder, .banks, .logs]
  | .plkFrame _ _ _ => [.recorder, .banks, .pair]
  | .updConfirm _ _ | .updRevert _ _ => [.recorder, .boot, .field]
  | .brgCollect _ => [.recorder, .bridge, .field]
  | .gateReleaseCmd _ _ | .ldgApply _ _ | .ldgDiscard _ _ => [.recorder, .bus, .field]
  | .canStart _ _ _ | .canStop _ _ _ _ | .canRecover _ _ _ | .canRxqPop _ _ _ _ => [.recorder, .can, .field]
  | .chnArm _ _ _ | .chnDisarm _ _ _ | .chnApply _ _ _ | .chnPreset _ _ _ | .chnDiscard _ _ _ | .bnkChnArm _ _ _ | .bnkChnDisarm _ _ _
  | .bnkChnApply _ _ _ | .lpSwap _ _ _ | .lpCancel _ _ _ | .lpJump _ _ _ | .lpAbort _ _ _ | .lpRelease _ _ _ | .chnTripClear _ _ _ =>
      [.recorder, .chans, .field]
  | .grdOpen _ _ | .grdSeal _ _ | .grdDiscard _ _ => [.recorder, .grading, .field]
  | .coreRun _ _ | .dbgEnWrite _ _ => [.recorder, .harts, .field]
  | .keyDerive _ _ | .keyInvalidate _ _ | .crySha256 _ _ | .cryHmac _ _ | .cryDerive _ _ | .crySign _ _ | .cryVerify _ _
  | .cryPubkey _ _ | .cryRandom _ _ => [.recorder, .keys, .field]
  | .logConfigWrite _ _ _ => [.recorder, .logs, .field]
  | .hoOffer _ _ | .hoWithdraw _ _ | .hoCommit _ _ | .hoReclaim _ _ => [.recorder, .pages, .field]
  | .pairSync _ _ _ | .pairAbortSync _ _ | .pairFailCmd _ _ | .pairYield _ _ => [.recorder, .pair, .field]
  | .qpmFlush _ _ _ | .qpmQueueDisable _ _ _ => [.recorder, .queues, .field]
  | .atuRead _ _ | .atuWrite _ _ | .atuDelete _ _ | .atuFlushDyn _ _ | .ptpTsqPop _ _ => [.recorder, .switch, .field]
  | .stepWordWrite _ _ _ _ => [.store, .recorder, .field]
  | .syncSnapshotLoaded _ => [.banks, .chans, .bus, .pair]
  | .cocDestroyDone _ => [.mem, .harts, .keys, .pages]
  | .cocCreate _ _ | .cocSeal _ _ | .cocDestroy _ _ => [.mem, .recorder, .harts, .field]
  | .p3TxDoorbell _ _ | .ptpTxDoorbell _ _ => [.mem, .recorder, .switch, .field]
  | .brgRead _ _ | .brgWrite _ _ => [.recorder, .banks, .bridge, .field]
  | .lostLink _ => [.recorder, .banks, .logs, .bridge]
  | .nwmChEnable _ _ _ | .nwmAwakeReq _ _ _ | .nwmLocalWake _ _ _ => [.recorder, .can, .power, .field]
  | .fnDisable _ _ => [.recorder, .chans, .host, .field]
  | .qEnable _ _ | .qDisable _ _ _ | .dbSqTail _ _ | .dbCqHead _ _ | .dbDeliveryHead _ _ => [.recorder, .host, .queues, .field]
  | .keyZero _ _ => [.recorder, .keys, .root, .field]
  | .phaseCStart _ _ => [.banks, .chans, .ports, .grading, .pair]
  | .ftaAnswer _ => [.mem, .recorder, .keys, .root, .fta]
  | .tripClearTakesEffect _ => [.recorder, .banks, .chans, .ports, .grading]
  | .partnerFail => [.recorder, .chans, .ports, .grading, .pair]
  | .snapshotRead _ _ _ _ | .readClear _ _ _ | .sesRegRead _ _ _ => [.snaps, .recorder, .bridge, .switch, .field]
  | .softReset _ _ _ | .ctrlLock _ _ _ | .chnEnableClear _ _ _ | .pairEnable _ _ | .qpmEnable _ _ | .pairDisable _ _ =>
      [.recorder, .chans, .logs, .pair, .queues, .field]
  | .sqFetch _ _ _ _ | .cmdNop _ _ _ | .cmdIdentify _ _ _ | .cmdMapRead _ _ _ | .cmdStepWrite _ _ _ _ | .cmdStepRead _ _ _
  | .cmdLogMap _ _ _ | .cmdGrdStage _ _ _ _ | .cmdGrdCtrl _ _ _ | .cmdChnBatch _ _ _ _ | .cmdQBind _ _ _ | .cmdQUnbind _ _ _
  | .cmdMove _ _ _ => [.store, .chans, .grading, .logs, .host, .queues]
  | .linkTrain _ _ _ | .linkDrop _ _ _ | .idAccept _ _ _ | .idReject _ _ _ => [.recorder, .banks, .chans, .ports, .grading, .bridge, .field]
  | .uplinkFrame _ _ _ _ => [.recorder, .banks, .ports, .grading, .logs, .bridge, .pair]
  | .ledgerWork => [.recorder, .banks, .chans, .bus, .ports, .grading, .logs, .pair]
  | .supplyLoss _ => [.mem, .recorder, .banks, .chans, .logs, .bridge, .pair, .host, .switch]
  | .ptpSlew _ _ | .ptpStep _ _ _ | .ptpHoldover _ _ | .ptpCancel _ _ =>
      [.recorder, .time, .banks, .chans, .bus, .grading, .bridge, .pair, .host, .field]
  | .domainOnDone _ _ => [.recorder, .time, .banks, .chans, .bus, .grading, .bridge, .pair, .host, .power, .field]
  | .ptpOffsetCommit _ _ _ _ => [.recorder, .time, .banks, .chans, .bus, .grading, .bridge, .pair, .host, .switch, .field]
  | .softResetDone _ => [.harts, .banks, .chans, .ports, .grading, .logs, .bridge, .pair, .host, .queues, .can, .field]
  | .superframeBoundary => [.recorder, .time, .vcore, .banks, .chans, .bus, .ports, .grading, .logs, .bridge, .pair, .host]
  | .awWakeCycle _ _ _ _ _ =>
      [.mem, .store, .snaps, .recorder, .time, .banks, .chans, .bus, .ports, .grading, .logs, .bridge, .pair, .host, .boot, .queues, .can, .power, .fta]
  | .startUp _ =>
      [.mem, .store, .snaps, .recorder, .time, .vcore, .harts, .banks, .chans, .bus, .ports, .grading, .logs, .bridge, .pair, .host, .keys, .root, .boot, .queues, .can, .power, .fta]
  | .domainOffDone _ | .resetPin | .powerOnReset | .brownout | .watchdogExpiry _ | .debugColdRequest | .svcActivate _ =>
      [.mem, .store, .snaps, .recorder, .time, .vcore, .harts, .banks, .chans, .bus, .ports, .grading, .logs, .bridge, .pair, .host, .keys, .pages, .boot, .queues, .switch, .can, .power, .fta]
  | .rstCmdWarm _ _ | .rstCmdCold _ _ | .watchdogKick _ _ _ | .sleepEnter _ _ | .ageingWatchEnter _ _ =>
      [.mem, .store, .snaps, .recorder, .time, .vcore, .harts, .banks, .chans, .bus, .ports, .grading, .logs, .bridge, .pair, .host, .keys, .pages, .boot, .queues, .switch, .can, .power, .fta, .field]
  | .tamperDetect _ =>
      [.mem, .store, .snaps, .recorder, .time, .vcore, .harts, .banks, .chans, .bus, .ports, .grading, .logs, .bridge, .pair, .host, .keys, .root, .pages, .boot, .queues, .switch, .can, .power, .fta]
  | .registerWrite _ _ _ _ _ | .sesRegWrite _ _ _ _ =>
      [.mem, .store, .snaps, .recorder, .time, .vcore, .harts, .banks, .chans, .bus, .ports, .grading, .logs, .bridge, .pair, .host, .keys, .root, .battery, .pages, .boot, .queues, .switch, .can, .power, .fta, .field]

/-- Whether a command may change registers of instance `i`: a page, or (from 0x400 on) the registers that a page shows through a selector,
its shadows and its values in force. An accepted access answers on the pages of its registers, a refused one is noted on the SYS page. -/
def regs : Instr → Nat → Bool
  | .downlinkFrame _, _ | .grdOcvPoint _, _ | .syncReplayLive, _ | .pairRecHoldExpiry _, _ | .gwgate _ _ _, _ | .gwcall _ _, _
  | .gwret _, _ | .gwresume _ _, _ | .gwid _ _, _ | .trap _ _ _, _ | .mret _, _ | .haltRequest _, _ | .svcStatus _, _ | .svcId _, _
  | .bar2Read _ _ _ _, _ | .sesDataPut _ _ _ _, _ | .sesDataGet _ _ _ _, _ | .sesKeepalive _, _ | .sesKeepaliveSend, _
  | .brgQuarantineEnd _, _ | .atuAgeExpiry _ _, _ | .vfieldRestored, _ | .evrScanDone, _ | .ftaChallenge, _
  | .superframeLengthChange _, _ | .rootProvision _ _, _ => false
  | .logWindowEnd _, i => decide (0x080 ≤ i)
  | .moveTakesEffect, i => decide (0x100 ≤ i)
  | .pcieReset, i | .vfEnableClear, i | .busMasterClear _, i | .bar2Write _, i | .poisonedWrite _, i | .sesConnect, i
  | .sesSubmit _ _ _ _, i | .ldcPwmBoundary, i | .evrTokenRefill _, i | .vfEnableSet _ _, i => decide (0x400 ≤ i)
  | .linkAlignDone b _, i | .tripHoldExpiry b, i => i == pgBnk b.val
  | .aonXtalSwitch, i => i == pgClk
  | .pauseFrameRx _ _ _, i => i == pgEsw
  | .ftaSeal, i => i == pgEvr
  | .heartbeatSend _, i => i == pgIdm
  | .ldcClampDecay, i | .ldcRetryExpiry _, i | .ldcOkTimer _, i => i == pgLdc
  | .nwmBusSleep _, i | .nwmIntegrationDone _, i => i == pgNwm
  | .partnerFailRelease, i => i == pgPair
  | .vcoreLowerCount _, i => i == pgPwr
  | .tamperedClear, i => i == pgTmp
  | .registerWrite _ _ _ _ _, _ | .snapshotRead _ _ _ _, _ | .readClear _ _ _, _ | .softResetDone _, _ | .domainOffDone _, _
  | .rstCmdWarm _ _, _ | .rstCmdCold _ _, _ | .resetPin, _ | .powerOnReset, _ | .brownout, _ | .watchdogExpiry _, _
  | .watchdogKick _ _ _, _ | .debugColdRequest, _ | .startUp _, _ | .sleepEnter _ _, _ | .ageingWatchEnter _ _, _
  | .awWakeCycle _ _ _ _ _, _ | .syncSnapshotLoaded _, _ | .cocDestroyDone _, _ | .hoOffer _ _, _ | .hoWithdraw _ _, _
  | .hoCommit _ _, _ | .hoReclaim _ _, _ | .hoDrainDone, _ | .tamperDetect _, _ | .svcActivate _, _ | .sesRegRead _ _ _, _
  | .sesRegWrite _ _ _ _, _ => true
  | .idreadDone b _, i => i == pgBnk b.val || decide (0x100 ≤ i)
  | .linkSeekDetect b, i | .linkLock b, i | .linkSfsyncDone b, i | .linkTrainTimeout b _, i | .linkRetryTimer b, i
  | .calCommitTakesEffect b, i | .calReloadDone b _, i => i == pgBnk b.val || decide (0x400 ≤ i)
  | .brgResponse _, i | .brgTimeout _, i | .brgDiscardExpiry _, i => i == pgBrg || decide (0x400 ≤ i)
  | .canBusOn n, i | .nwmKeepaliveTimer n, i | .nwmControllerSleep n, i | .canBusError n _ _, i => i == pgCan n.val || decide (0x400 ≤ i)
  | .cryJobDone, i => i == pgCry || decide (0x400 ≤ i)
  | .eswLinkDown _, i | .eswLinkUp _ _, i => i == pgEsw || decide (0x400 ≤ i)
  | .evrRecordWrite, i => i == pgEvr || decide (0x400 ≤ i)
  | .fioSample _ _, i | .fioWireBreak _ _, i | .fioPointFault _ _ _, i | .fioHoldExpiry, i => i == pgFio || decide (0x400 ≤ i)
  | .fnDrainDone _ _, i | .moveComplete, i => i == pgFnc || decide (0x100 ≤ i)
  | .flr _, i | .sessionLost _, i => i == pgFnc || decide (0x400 ≤ i)
  | .grdEntryNotice, i | .grdStepEnd, i | .grdSealTakesEffect _, i | .grdSignDone, i => i == pgGrd || decide (0x400 ≤ i)
  | .ldcClampEvent _ _, i | .ldcOvercurrent _ _, i | .ldcThermal _ _, i | .ldcTotalShed _, i | .ldcOpenLoad _ _, i =>
      i == pgLdc || decide (0x400 ≤ i)
  | .mbxTimeout _, i | .mbxPing _, i | .mbxVersion _, i => i == pgMbx || decide (0x400 ≤ i)
  | .plkUp, i | .plkLost, i | .syncDone, i => i == pgPair || decide (0x400 ≤ i)
  | .ptpHoldoverTimeout, i | .ptpTxTimestamp _ _, i => i == pgPtp || decide (0x400 ≤ i)
  | .itemDeliver _, i => i == pgQpm || decide (0x400 ≤ i)
  | .cocSealDone _, i => i == pgSec || decide (0x400 ≤ i)
  | .gateTally, i | .ldgApplyTakesEffect, i => i == pgStp || decide (0x400 ≤ i)
  | .svcHeader _, i | .svcBlock _ _, i | .svcVerify _, i | .svcAbort _, i | .svcBadOpcode, i => i == pgUpd || decide (0x400 ≤ i)
  | .nwmCommitPoint n _, i => i == pgCan n.val || i == pgNwm || decide (0x400 ≤ i)
  | .mbxKeySign _, i | .mbxKeyHmac _, i | .mbxKeyPubkey _, i | .mbxKeyRandom _, i => i == pgCry || i == pgMbx || decide (0x400 ≤ i)
  | .svcCmdDone, i => i == pgCry || i == pgUpd || decide (0x400 ≤ i)
  | .eswFrameLookup _ _ _ _ _ _, i | .eswFrameEnd _ _ _, i | .eswTxStart _ _ _, i => i == pgEsw || i == pgPtp || decide (0x400 ≤ i)
  | .nwmStuck _, i => i == pgEvr || i == pgNwm || decide (0x400 ≤ i)
  | .slackLowRun _, i | .vcoreFault _, i => i == pgEvr || i == pgPwr || decide (0x400 ≤ i)
  | .vfieldLow, i => i == pgFio || i == pgLdc || decide (0x400 ≤ i)
  | .grdRecordEmit, i => i == pgGrd || i == pgQpm || decide (0x400 ≤ i)
  | .qpmItemEnd _, i => i == pgLgr || i == pgQpm || decide (0x400 ≤ i)
  | .wake _, i | .sleepTimerWake, i => i == pgPwr || i == pgRst || decide (0x400 ≤ i)
  | .phaseCStart _ _, i => i == pgPwr || i == pgStp || decide (0x080 ≤ i)
  | .chnCmdTakesEffect c, i | .lpCmdTakesEffect c, i => i == pgStp || i == pgBnk (bankOf c.val) || decide (0x100 ≤ i)
  | .ftaAnswer _, i => i == pgCry || i == pgEvr || i == pgKey || decide (0x400 ≤ i)
  | .mbxKeyDerive _, i | .mbxKeyInvalidate _, i => i == pgCry || i == pgKey || i == pgMbx || decide (0x400 ≤ i)
  | .bnkChnArm _ _ _, i | .bnkChnDisarm _ _ _, i | .bnkChnApply _ _ _, i => i == pgEvr || i == pgIdm || i == pgSys || decide (0x080 ≤ i)
  | .stepWordRead _ _ _, i | .fieldAccessTimeout _ _ _ _, i | .calShadowWrite _ _ _ _, i | .gateReleaseCmd _ _, i | .grdOpen _ _, i
  | .grdSeal _ _, i | .grdDiscard _ _, i | .cocCreate _ _, i | .cocSeal _ _, i | .cocDestroy _ _, i | .l2Clean _ _, i
  | .fnDisable _ _, i | .stepRangeWrite _ _ _, i | .qEnable _ _, i | .qDisable _ _ _, i | .dbSqTail _ _, i | .dbCqHead _ _, i
  | .dbDeliveryHead _ _, i | .brgRead _ _, i | .brgWrite _ _, i | .brgCollect _, i | .ptpTsqPop _ _, i | .canRxqPop _ _ _ _, i
  | .evrReadWindow _ _, i | .evrSwRecord _ _, i => i == pgEvr || i == pgIdm || i == pgSys || decide (0x400 ≤ i)
  | .partnerFail, i => i == pgEvr || i == pgPair || i == pgStp || decide (0x100 ≤ i)
  | .plkFrame _ _ _, i => i == pgEvr || i == pgPair || i == pgTrp || decide (0x080 ≤ i)
  | .tripClearTakesEffect b, i => i == pgEvr || i == pgStp || i == pgBnk b.val || decide (0x080 ≤ i)
  | .tripDisagreeWindow b, i => i == pgEvr || i == pgTrp || i == pgBnk b.val || decide (0x400 ≤ i)
  | .heartbeatSilence, i | .fieldPowerOn, i | .fieldDieReset, i => i == pgFio || i == pgIdm || i == pgLdc || decide (0x400 ≤ i)
  | .sqFetch _ _ _ _, i | .cmdNop _ _ _, i | .cmdIdentify _ _ _, i | .cmdMapRead _ _ _, i | .cmdStepWrite _ _ _ _, i
  | .cmdStepRead _ _ _, i | .cmdLogMap _ _ _, i | .cmdGrdStage _ _ _ _, i | .cmdGrdCtrl _ _ _, i | .cmdChnBatch _ _ _ _, i
  | .cmdQBind _ _ _, i | .cmdQUnbind _ _ _, i | .cmdMove _ _ _, i => i == pgFnc || i == pgLgr || i == pgStp || decide (0x080 ≤ i)
  | .qpmItemFirstWord _, i | .qpmItemRetry _, i => i == pgGrd || i == pgLgr || i == pgQpm || decide (0x400 ≤ i)
  | .lostLink b, i => i == pgBrg || i == pgEvr || i == pgTrp || i == pgBnk b.val || decide (0x100 ≤ i)
  | .canStart _ n _, i | .canStop _ n _ _, i | .canRecover _ n _, i | .canTxPend _ n _, i | .canTxAbort _ n _ _, i =>
      i == pgCan n.val || i == pgEvr || i == pgIdm || i == pgSys || decide (0x400 ≤ i)
  | .canFrameRx n _ _ _, i | .canFrameTxEnd n _ _ _ _, i | .nwmWakeDetect n _ _ _ _, i | .nwmDwellEnd n, i =>
      i == pgCan n.val || i == pgNwm || i == pgPwr || i == pgRst || decide (0x400 ≤ i)
  | .crySha256 _ _, i | .cryHmac _ _, i | .cryDerive _ _, i | .crySign _ _, i | .cryVerify _ _, i | .cryPubkey _ _, i
  | .cryRandom _ _, i => i == pgCry || i == pgEvr || i == pgIdm || i == pgSys || decide (0x400 ≤ i)
  | .dbgEnWrite _ _, i => i == pgDbg || i == pgEvr || i == pgIdm || i == pgSys || decide (0x400 ≤ i)
  | .atuRead _ _, i | .atuWrite _ _, i | .atuDelete _ _, i | .atuFlushDyn _ _, i =>
      i == pgEsw || i == pgEvr || i == pgIdm || i == pgSys || decide (0x400 ≤ i)
  | .fioOutWrite _ _, i | .fioOutSet _ _, i | .fioOutClr _ _, i | .fioPtCfgWrite _ _ _, i | .fioFaultClear _ _, i | .fioResume _ _, i
  | .fioSafe _ _, i | .fioEnable _ _, i => i == pgEvr || i == pgFio || i == pgIdm || i == pgSys || decide (0x400 ≤ i)
  | .quotaWrite _ _, i => i == pgEvr || i == pgFnc || i == pgIdm || i == pgSys || decide (0x400 ≤ i)
  | .ldcOnWrite _ _, i | .ldcOnSet _ _, i | .ldcOnClr _ _, i | .ldcClampLock _ _ _, i | .ldcFaultClear _ _, i =>
      i == pgEvr || i == pgIdm || i == pgLdc || i == pgSys || decide (0x400 ≤ i)
  | .logConfigWrite _ _ _, i => i == pgEvr || i == pgIdm || i == pgLgr || i == pgSys || decide (0x400 ≤ i)
  | .mbxPost _ _, i | .mbxTake _ _, i | .mbxDone _ _, i | .mbxFree _ _, i | .mbxCancel _ _, i =>
      i == pgEvr || i == pgIdm || i == pgMbx || i == pgSys || decide (0x400 ≤ i)
  | .pairSync _ _ _, i | .pairAbortSync _ _, i | .pairFailCmd _ _, i | .pairYield _ _, i =>
      i == pgEvr || i == pgIdm || i == pgPair || i == pgSys || decide (0x400 ≤ i)
  | .ptpTxDoorbell _ _, i => i == pgEvr || i == pgIdm || i == pgPtp || i == pgSys || decide (0x400 ≤ i)
  | .slackMinReset _ _, i | .domReqOn _ _, i | .domReqOff _ _, i =>
      i == pgEvr || i == pgIdm || i == pgPwr || i == pgSys || decide (0x400 ≤ i)
  | .qpmFlush _ _ _, i | .qpmQueueDisable _ _ _, i => i == pgEvr || i == pgIdm || i == pgQpm || i == pgSys || decide (0x400 ≤ i)
  | .wmWrite _ _ _, i | .l2MaskWrite _ _ _, i | .coreRun _ _, i =>
      i == pgEvr || i == pgIdm || i == pgSec || i == pgSys || decide (0x400 ≤ i)
  | .stepWordWrite _ _ _ _, i | .ldgApply _ _, i | .ldgDiscard _ _, i =>
      i == pgEvr || i == pgIdm || i == pgStp || i == pgSys || decide (0x400 ≤ i)
  | .intForce _ p _, i => i == pgEvr || i == pgIdm || i == pgSys || i == p.val || decide (0x400 ≤ i)
  | .calCommit _ b _, i | .calDiscard _ b _, i | .calReload _ b _, i | .auxSelWrite _ b _, i | .bankTripClear _ b _, i
  | .tripTestA _ b _, i | .tripTestB _ b _, i => i == pgEvr || i == pgIdm || i == pgSys || i == pgBnk b.val || decide (0x400 ≤ i)
  | .lpSwap _ c _, i | .lpCancel _ c _, i | .lpJump _ c _, i | .lpAbort _ c _, i | .lpRelease _ c _, i | .chnTripClear _ c _, i =>
      i == pgEvr || i == pgIdm || i == pgSys || i == pgChn c.val || decide (0x400 ≤ i)
  | .tripForce _ _, i => i == pgEvr || i == pgIdm || i == pgSys || i == pgTrp || decide (0x080 ≤ i)
  | .updConfirm _ _, i | .updRevert _ _, i => i == pgEvr || i == pgIdm || i == pgSys || i == pgUpd || decide (0x400 ≤ i)
  | .ledgerWork, i => i == pgEvr || i == pgPair || i == pgStp || i == pgTrp || decide (0x080 ≤ i)
  | .ledgerMiss, i => i == pgEvr || i == pgPwr || i == pgStp || i == pgTrp || decide (0x080 ≤ i)
  | .bankDeadline b, i => i == pgEvr || i == pgPwr || i == pgTrp || i == pgBnk b.val || decide (0x100 ≤ i)
  | .supplyLoss _, i => i == pgBrg || i == pgEsw || i == pgEvr || i == pgPair || i == pgTrp || decide (0x080 ≤ i)
  | .uplinkFrame b _ _ _, i => i == pgBrg || i == pgEvr || i == pgPair || i == pgTrp || i == pgBnk b.val || decide (0x100 ≤ i)
  | .clkGateWrite _ _, i => i == pgClk || i == pgEvr || i == pgIdm || i == pgPwr || i == pgSys || decide (0x400 ≤ i)
  | .keyDerive _ _, i | .keyInvalidate _ _, i | .keyZero _ _, i =>
      i == pgCry || i == pgEvr || i == pgIdm || i == pgKey || i == pgSys || decide (0x400 ≤ i)
  | .p3TxDoorbell _ _, i => i == pgEsw || i == pgEvr || i == pgIdm || i == pgPtp || i == pgSys || decide (0x400 ≤ i)
  | .chnArm _ c _, i | .chnDisarm _ c _, i | .chnApply _ c _, i | .chnPreset _ c _, i | .chnDiscard _ c _, i =>
      i == pgEvr || i == pgIdm || i == pgSys || i == pgBnk (bankOf c.val) || i == pgChn c.val || decide (0x400 ≤ i)
  | .ptpOffsetCommit _ _ _ _, i | .ptpSlew _ _, i | .ptpStep _ _ _, i | .ptpHoldover _ _, i | .ptpCancel _ _, i =>
      i == pgBrg || i == pgEvr || i == pgIdm || i == pgPair || i == pgPtp || i == pgSys || decide (0x080 ≤ i)
  | .linkTrain _ b _, i | .linkDrop _ b _, i | .idAccept _ b _, i | .idReject _ b _, i =>
      i == pgBrg || i == pgEvr || i == pgIdm || i == pgStp || i == pgSys || i == pgBnk b.val || decide (0x080 ≤ i)
  | .superframeBoundary, i => i == pgBrg || i == pgEvr || i == pgPair || i == pgPwr || i == pgStp || i == pgTrp || decide (0x080 ≤ i)
  | .domainOnDone _ _, i => i == pgFio || i == pgIdm || i == pgLdc || i == pgPtp || i == pgPwr || i == pgUpd || decide (0x400 ≤ i)
  | .nwmChEnable _ n _, i | .nwmAwakeReq _ n _, i | .nwmLocalWake _ n _, i =>
      i == pgCan n.val || i == pgEvr || i == pgIdm || i == pgNwm || i == pgPwr || i == pgRst || i == pgSys || decide (0x400 ≤ i)
  | .chnEnableClear _ _ _, i | .pairEnable _ _, i | .qpmEnable _ _, i | .pairDisable _ _, i =>
      i == pgEvr || i == pgFio || i == pgIdm || i == pgLdc || i == pgPair || i == pgQpm || i == pgSys || decide (0x080 ≤ i)
  | .softReset _ p _, i | .ctrlLock _ p _, i =>
      i == pgEvr || i == pgFio || i == pgIdm || i == pgLdc || i == pgPair || i == pgQpm || i == pgSys || i == p.val || decide (0x080 ≤ i)

end Sys2Proof.Instr
end

