-- ==== Sys2Proof/Certificates/Slice0/Obligations.lean ====
section
/-! DEFINITION. The statements for the provers. -/
open Sys2Proof Sys2Proof.Machine

/-- The block takes its commands in order: a step runs the command at the front of the queue on the state with the queue's rest, and an
empty queue leaves the state as it is (the model's choice, log entry 2). -/
def Obligations.StepRunsFront : Prop :=
  (∀ (c : Instr) (rest : List Instr) (s : State), s.pending = c :: rest → step s = exec c { s with pending := rest }) ∧
  (∀ (s : State), s.pending = [] → step s = .next s)

/-- What State.reset leaves: the values that the register tables give, an empty queue, memories with nothing listed and the canonical form. -/
def Obligations.ResetState : Prop :=
  (State.reset.pending = [] ∧ State.reset.mem = [] ∧ State.reset.bb = [] ∧ State.reset.Canonical ∧
    (∀ p < 1024, ∀ f ∈ [R.OWNER_handover, R.INT_STAT, R.STAT_reset_busy], State.reset.rd p f = f.rst) ∧
    State.reset.rd pgPwr R.PWR_DOM_STAT_on = 5 ∧ State.reset.domOn 0 = true ∧ State.reset.domOn 3 = false ∧
    (∀ c < 512, State.reset.cst c = 0 ∧ State.reset.tripSt (bankOf c) = 0 ∧ State.reset.rd (pgChn c) R.CHN_LDG_CFG_class = 2 ∧
      State.reset.rd (pgChn c) R.CHN_LDG_GRANT_value = 0) ∧
    (∀ b < 32, State.reset.lst b = 0 ∧ State.reset.role b = 0) ∧ State.reset.len = 200 ∧
    State.reset.rd pgStp R.STP_LDG_EXP_MAX_value = 0x7FFFFFFFF ∧ State.reset.rd pgGrd R.GRD_CFG_auto_open = 1 ∧
    State.reset.fnState 0 = 1 ∧ (∀ f < 64, f ≠ 0 → State.reset.fnState f = 0))

/-- An invariant that every step keeps: the register map, the address space, the battery RAM and the transfer windows stay in their
canonical form, from every state that has it. -/
def Obligations.StepKeepsCanonical : Prop :=
  ∀ (s t : State), s.Canonical → step s = .next t → t.Canonical

/-- The frame of every command: it leaves the queue, every part of the state outside `Instr.writes` and every register of an instance
outside `Instr.regs` as they were. -/
def Obligations.ExecFrame : Prop :=
  ∀ (c : Instr) (s t : State), exec c s = .next t →
    t.pending = s.pending ∧ (∀ p, p ∉ c.writes → p.same s t) ∧ (∀ i f, c.regs i = false → t.rd i f = s.rd i f)

/-- Every command of every operand completes in every state, and a queue of commands is worked off in as many steps. -/
def Obligations.QueueCompletes : Prop :=
  (∀ (c : Instr) (s : State), ∃ t, exec c s = .next t ∧ t.pending = s.pending) ∧
  (∀ (s : State), ∃ t, Sys2Proof.core.run s.pending.length s = .next t ∧ t.pending = [])
/-- R3, R7 to R9, R16, R17, R20, R22, R26, R28, R29, R143: accesses. An accepted write has the effect of its register; a refused one answers with its
cause and changes no block; a W36 pair changes at its _HI, a snapshot is the requester's own; a step word changes with its high half. -/
def Obligations.RegisterAccess : Prop :=
  (∀ (s : State) (r : Req) (p : Fin 1024) (d : BitVec 64), s.busCause r p.val 0x014 true = none → p.val ≠ pgFnc →
    ∃ t, exec (.registerWrite r p 0x014 2 d) s = .next t ∧ t.rd p.val R.INT_EN = d.toNat % 2 ^ 32 ∧
      t.rd p.val R.INT_STAT = s.rd p.val R.INT_STAT ∧ t.rsp = {} ∧ t.chans = s.chans ∧ t.banks = s.banks ∧ t.mem = s.mem ∧
      t.words = s.words) ∧
  (∀ (s : State) (r : Req) (p : Fin 1024) (off : Fin 4096) (sz : Fin 4) (d : BitVec 64) (c : Nat),
      s.busCause r p.val off.val true = some c → (s.rd pgSys R.INT_STAT).testBit 0 = false →
    ∃ t, exec (.registerWrite r p off sz d) s = .next t ∧ t.rsp = { data := 0, err := true, cause := c } ∧
      t.rd pgSys R.SYS_ACC_ERR_COUNT_count = min (s.rd pgSys R.SYS_ACC_ERR_COUNT_count + 1) (2 ^ 32 - 1) ∧
      t.rd pgSys R.SYS_ACC_ERR_ADDR_W0_addr = 0x40000000 + 4096 * p.val + off.val ∧ t.rd pgSys R.SYS_ACC_ERR_INFO_cause = c ∧
      t.rd pgSys R.SYS_ACC_ERR_INFO_write = 1 ∧ (t.rd pgSys R.INT_STAT).testBit 0 = true ∧ t.chans = s.chans ∧ t.banks = s.banks ∧
      t.mem = s.mem ∧ t.words = s.words ∧ t.keys = s.keys ∧ t.harts = s.harts) ∧
  (∀ (s : State) (r : Req) (p : Fin 1024) (off : Fin 4096) (sz : Fin 4) (d : BitVec 64),
      s.busCause r p.val off.val true = none → widthOk p.val off.val sz.val = false →
    ∃ t, exec (.registerWrite r p off sz d) s = .next t ∧ t.rsp = { data := 0, err := true, cause := 1 } ∧ t.chans = s.chans ∧
      t.banks = s.banks ∧ t.mem = s.mem ∧ t.words = s.words) ∧
  (∀ (s : State) (r : Req) (p : Fin 1024) (off : Fin 4096) (d : BitVec 64) (f : Fld), s.busCause r p.val off.val true = none →
      p.val ≠ pgFnc → 0x020 ≤ off.val → widthOk p.val off.val 2 = true → widePart p.val off.val = some (f, 0) → f.w = 36 →
    ∃ t, exec (.registerWrite r p off 2 d) s = .next t ∧ t.fields = s.fields ∧ t.half.get 0 (perReq r p.val f.off) = d.toNat % 2 ^ 32) ∧
  (∀ (s : State) (r : Req) (p : Fin 1024) (off : Fin 4096) (d : BitVec 64) (f : Fld) (v : Nat),
      s.busCause r p.val off.val true = none → p.val ≠ pgFnc → 0x020 ≤ off.val → widthOk p.val off.val 2 = true →
      widePart p.val off.val = some (f, 1) → f.w = 36 → f.acc = .rw → s.fldLocked p.val f = false → shadowOff p.val f.off = false →
      s.half.get 0 (perReq r p.val f.off) = v → v < 2 ^ 32 →
    ∃ t, exec (.registerWrite r p off 2 d) s = .next t ∧ t.rd p.val f = v + 2 ^ 32 * (d.toNat % 16) ∧
      t.half.get 0 (perReq r p.val f.off) = 0) ∧
  (∀ (s : State) (r : Req) (p : Fin 1024) (off : Fin 4096) (f : Fld), s.busCause r p.val off.val false = none → p.val ≠ pgFnc →
      p.val ≠ pgBrg → p.val ≠ pgPtp → 0x020 ≤ off.val → widthOk p.val off.val 2 = true → widePart p.val off.val = some (f, 0) →
      widePart p.val (off.val + 4) = some (f, 1) → snapHeld p.val off.val = false → snapRange p.val off.val = [off.val + 4] →
      s.viewWord r p.val off.val = none → s.viewWord r p.val (off.val + 4) = none →
    ∃ t, exec (.snapshotRead r p off 2) s = .next t ∧ t.rsp = { data := wideWord f p.val (s.rd p.val f) 0 } ∧
      t.snap.get 0 (perReq r p.val (off.val + 4)) = wideWord f p.val (s.rd p.val f) 1 ∧
      (∀ (q : Req) (g : Fin 1024) (o : Fin 4096), reqId q ≠ reqId r → t.snap.get 0 (perReq q g.val o.val) = s.snap.get 0 (perReq q g.val o.val))) ∧
  (∀ (s : State) (r : Req) (p : Fin 1024) (off : Fin 4096) (f : Fld) (n : Nat), s.busCause r p.val off.val false = none →
      p.val ≠ pgFnc → p.val ≠ pgBrg → p.val ≠ pgPtp → 0x020 ≤ off.val → widthOk p.val off.val 2 = true →
      widePart p.val off.val = some (f, n) → n ≠ 0 →
    ∃ t, exec (.snapshotRead r p off 2) s = .next t ∧ t.rsp = { data := s.snap.get 0 (perReq r p.val off.val) } ∧
      t.fields = s.fields ∧ t.snap = s.snap) ∧
  (∀ (s : State) (r : Req) (p : Fin 1024) (off : Fin 4096) (f : Fld), s.busCause r p.val off.val false = none → p.val ≠ pgFnc →
      p.val ≠ pgBrg → p.val ≠ pgPtp → 0x020 ≤ off.val → widthOk p.val off.val 2 = true → widePart p.val off.val = none →
      snapHeld p.val off.val = false → s.viewWord r p.val off.val = none → fieldsAt (rowsOf p.val) off.val = [f] → f.acc = .rsc →
      f.lo = 0 →
    ∃ t, exec (.readClear r p off) s = .next t ∧ t.rsp = { data := s.rd (s.instOf r p.val off.val) f } ∧
      t.rd (s.instOf r p.val off.val) f = 0) ∧
  (∀ (s : State) (r : Req) (a : Fin 1572864) (d : BitVec 64), s.stepCause r a.val 3 = none →
      slotOk (a.val % 96 / 8) d.toNat = true →
    ∃ t, exec (.stepWordWrite r a 3 d) s = .next t ∧ t.stepWord (a.val / 96) (a.val % 96 / 8) = d.toNat % 2 ^ 36 ∧
      (∀ n w, w < 12 → n ≠ a.val / 96 ∨ w ≠ a.val % 96 / 8 → t.stepWord n w = s.stepWord n w) ∧ t.fields = s.fields) ∧
  (∀ (s : State) (r : Req) (a : Fin 1572864) (d : BitVec 64), s.stepCause r a.val 3 = none →
      slotOk (a.val % 96 / 8) d.toNat = false →
    ∃ t, exec (.stepWordWrite r a 3 d) s = .next t ∧ t.words = s.words ∧ t.rd pgStp R.STP_WR_ERR_step = a.val / 96 ∧
      t.rd pgStp R.STP_WR_ERR_word = a.val % 96 / 8 ∧ (t.rd pgStp R.INT_STAT).testBit 0 = true) ∧
  (∀ (s : State) (r : Req) (a : Fin 1572864) (d : BitVec 64), s.stepCause r a.val 2 = none → a.val % 8 = 0 →
    ∃ t, exec (.stepWordWrite r a 2 d) s = .next t ∧ t.words = s.words ∧ t.half.get 0 (stepHalf r a.val) = d.toNat % 2 ^ 32) ∧
  (∀ (s : State) (r : Req) (a : Fin 1572864) (d : BitVec 64) (v : Nat), s.stepCause r a.val 2 = none → a.val % 8 = 4 →
      s.half.get 0 (stepHalf r a.val) + d.toNat % 2 ^ 32 * 2 ^ 32 = v → slotOk (a.val % 96 / 8) v = true →
    ∃ t, exec (.stepWordWrite r a 2 d) s = .next t ∧ t.stepWord (a.val / 96) (a.val % 96 / 8) = v % 2 ^ 36) ∧
  (∀ (s : State) (r : Req) (a : Fin 1572864) (sz : Fin 4), s.stepCause r a.val sz.val = none →
    ∃ t, exec (.stepWordRead r a sz) s = .next t ∧ t.words = s.words ∧ t.fields = s.fields ∧ t.rsp.err = false ∧
      t.rsp.data = (if sz.val = 3 then ofBytes (stepSlot (a.val % 96 / 8) (s.stepWord (a.val / 96) (a.val % 96 / 8)))
        else ofBytes ((stepSlot (a.val % 96 / 8) (s.stepWord (a.val / 96) (a.val % 96 / 8))).drop (a.val % 8)) % 2 ^ 32)) ∧
  (∀ (s : State) (r : Req) (a : Fin 1572864) (sz : Fin 4) (c : Nat), s.stepCause r a.val sz.val = some c →
    ∃ t, exec (.stepWordRead r a sz) s = .next t ∧ t.rsp = { data := 0, err := true, cause := c } ∧ t.words = s.words)

/-- R14, R22, R386, R476, R480: the header registers of a page, an access that the field die does not answer, a change of the superframe
length and a supply loss. -/
def Obligations.HeaderAndSupply : Prop :=
  (∀ (s : State) (r : Req) (p : Fin 1024) (d : Word), Accepts s r p.val 0x008 → s.locked p.val = false →
    ∃ t, exec (.softReset r p d) s = .next t ∧ t.rd p.val R.STAT_reset_busy = 1) ∧
  (∀ (s : State) (r : Req) (p : Fin 1024) (d : Word), Accepts s r p.val 0x008 → s.locked p.val = true →
    ∃ t, exec (.softReset r p d) s = .next t ∧ t.fields = s.fields) ∧
  (∀ (s : State), s.rd pgTrp R.STAT_reset_busy = 1 →
    ∃ t, exec (.softResetDone 0x043) s = .next t ∧ t.rd pgTrp R.STAT_reset_busy = 0 ∧ t.rd pgTrp R.TRP_VBUS_HI_value = 0x219999999 ∧
      t.rd pgTrp R.TRP_CFG_hold_sf = 2 ∧ t.rd pgTrp R.INT_EN = 0 ∧ t.rd pgTrp R.CTRL_lock = s.rd pgTrp R.CTRL_lock ∧
      t.rd pgTrp R.OWNER_world = s.rd pgTrp R.OWNER_world ∧ t.rd pgStp R.INT_EN = s.rd pgStp R.INT_EN ∧ t.banks = s.banks) ∧
  (∀ (s : State) (r : Req) (p : Fin 1024) (d : Word), Accepts s r p.val 0x008 → s.locked p.val = false → d.toNat.testBit 1 = false →
    ∃ t, exec (.ctrlLock r p d) s = .next t ∧ t.locked p.val = true) ∧
  (∀ (s : State) (r : Req) (p : Fin 1024) (d : Word), Accepts s r p.val 0x018 →
    ∃ t, exec (.intForce r p d) s = .next t ∧ t.rd p.val R.INT_STAT = (s.rd p.val R.INT_STAT ||| d.toNat) % 2 ^ 32 ∧
      t.rd p.val R.INT_EN = s.rd p.val R.INT_EN) ∧
  (∀ (s : State) (r : Req) (k : Fin 3) (off : Fin 4096) (w : Bool), s.accCause r (0x030 + k.val) off.val w = none →
    ∃ t, exec (.fieldAccessTimeout r k off w) s = .next t ∧ t.rsp = { data := 0, err := true, cause := 1 } ∧ t.fld.timeout = true ∧
      (t.rd 0x032 R.INT_STAT).testBit 0 = true ∧ t.rd pgFio R.FIO_OUT_out = s.rd pgFio R.FIO_OUT_out) ∧
  (∀ (s : State) (l : Fin 3), s.lenAllowed (lenOfCode l.val) = true →
    ∃ t, exec (.superframeLengthChange l) s = .next t ∧ t.lenNew = some (lenOfCode l.val) ∧ t.len = s.len ∧ t.k = s.k) ∧
  (∀ (s : State) (l : Fin 3), s.anyArmed = true →
    ∃ t, exec (.superframeLengthChange l) s = .next t ∧ t.lenNew = s.lenNew ∧ t.len = s.len) ∧
  (∀ (s : State),
    ∃ t, exec (.supplyLoss 2) s = .next t ∧ (∀ a, 0x800000000 ≤ a → t.mem.read a = 0) ∧ (∀ a, a < 0x800000000 → t.mem.read a = s.mem.read a) ∧
      t.fields = s.fields) ∧
  (∀ (s : State) (b : Fin 32), s.domOn (domOfBank b.val) = true → s.linkUp b.val = true →
      (s.bk b.val).lost = 0 →
    ∃ t, exec (.supplyLoss 0) s = .next t ∧ (t.bk b.val).lost = 2) ∧
  (∀ (s : State) (k : Fin 5), k = 1 ∨ k = 4 →
    ∃ t, exec (.supplyLoss k) s = .next t ∧ t.pcie = {} ∧ ∀ f < 512, s.fnState f = 1 → s.hostOf f = 0 → t.fnState f = 2)
/-- R65 to R69, R73, R81, R86, R87: frames. Every uplink frame takes its place in the superframe and counts a wrong sync; the second wrong one
is a lost sync and starts a gap; frame 7 completes the CRC of the superframe before, frame 23 the status word. The downlink carries
the slots with sync and trip bit, the clock pattern or training frames. -/
def Obligations.LinkFrames : Prop :=
  (∀ (s : State) (b : Fin 32) (sync side : Fin 4) (bits : BitVec 36), s.domOn (domOfBank b.val) = true → normalSt (s.lst b.val) = true →
      (s.bk b.val).upj < s.len →
    ∃ t, exec (.uplinkFrame b sync side bits) s = .next t ∧ (t.bk b.val).upj = (s.bk b.val).upj + 1 ∧
      (t.bk b.val).crc = crc16 (if (s.bk b.val).upj = 0 then 0xFFFF else (s.bk b.val).crc) bits.toNat 36 ∧
      t.rd (pgBnk b.val) R.BNK_LINK_ERR_sync_err =
        (if sync.val = (if (s.bk b.val).upj = 0 then 1 else 2) then s.rd (pgBnk b.val) R.BNK_LINK_ERR_sync_err
         else min (s.rd (pgBnk b.val) R.BNK_LINK_ERR_sync_err + 1) 255)) ∧
  (∀ (s : State) (b : Fin 32) (sync side : Fin 4) (bits : BitVec 36), normalSt (s.lst b.val) = false →
    ∃ t, exec (.uplinkFrame b sync side bits) s = .next t ∧ t = s.start) ∧
  (∀ (s : State) (b : Fin 32) (sync side : Fin 4) (bits : BitVec 36), s.domOn (domOfBank b.val) = true → s.linkUp b.val = true →
      (s.bk b.val).upj < s.len → 1 ≤ (s.bk b.val).upj → sync.val ≠ 2 → (s.bk b.val).wrong = 1 → (s.bk b.val).lost = 0 →
      s.rd (pgBnk b.val) R.BNK_LINK_STAT_gap_open = 0 →
    ∃ t, exec (.uplinkFrame b sync side bits) s = .next t ∧
      t.rd (pgBnk b.val) R.BNK_LINK_ERR_lost_sync = min (s.rd (pgBnk b.val) R.BNK_LINK_ERR_lost_sync + 1) 255 ∧
      (t.rd (pgBnk b.val) R.INT_STAT).testBit 9 = true ∧ t.rd (pgBnk b.val) R.BNK_LINK_STAT_gap_open = 1 ∧
      (t.bk b.val).gapAt = some s.k ∧ (t.bk b.val).lost = 1) ∧
  (∀ (s : State) (b : Fin 32) (sync side : Fin 4) (bits : BitVec 36) (c : Nat), s.domOn (domOfBank b.val) = true →
      s.linkUp b.val = true → 7 < s.len → (s.bk b.val).upj = 7 → sync.val = 2 → (s.bk b.val).wrong = 0 →
      (s.bk b.val).crcPrev = some c → ((s.bk b.val).side * 4 + side.val) % 2 ^ 16 ≠ c →
    ∃ t, exec (.uplinkFrame b sync side bits) s = .next t ∧ (t.bk b.val).crcPrev = none ∧ (t.bk b.val).crcAt = some (s.k - 1) ∧
      t.rd (pgBnk b.val) R.BNK_LINK_ERR_crc_err = min (s.rd (pgBnk b.val) R.BNK_LINK_ERR_crc_err + 1) 255 ∧
      (t.rd (pgBnk b.val) R.INT_STAT).testBit 10 = true) ∧
  (∀ (s : State) (b : Fin 32) (sync side : Fin 4) (bits : BitVec 36) (c : Nat), s.domOn (domOfBank b.val) = true →
      s.linkUp b.val = true → 7 < s.len → (s.bk b.val).upj = 7 → sync.val = 2 → (s.bk b.val).wrong = 0 →
      (s.bk b.val).crcPrev = some c → ((s.bk b.val).side * 4 + side.val) % 2 ^ 16 = c →
    ∃ t, exec (.uplinkFrame b sync side bits) s = .next t ∧ (t.bk b.val).crcPrev = none ∧ (t.bk b.val).crcAt = (s.bk b.val).crcAt ∧
      t.rd (pgBnk b.val) R.BNK_LINK_ERR_crc_err = s.rd (pgBnk b.val) R.BNK_LINK_ERR_crc_err) ∧
  (∀ (s : State) (b : Fin 32) (sync side : Fin 4) (bits : BitVec 36), s.domOn (domOfBank b.val) = true → s.linkUp b.val = true →
      23 < s.len → (s.bk b.val).upj = 23 → sync.val = 2 → (s.bk b.val).wrong = 0 →
    ∃ t, exec (.uplinkFrame b sync side bits) s = .next t ∧
      t.rd (pgBnk b.val) R.BNK_MOD_STAT_status = ((s.bk b.val).side * 4 + side.val) % 2 ^ 32) ∧
  (∀ (s : State) (b : Fin 32), s.domOn (domOfBank b.val) = true → s.linkUp b.val = true → (s.bk b.val).dlj < 17 →
    ∃ t, exec (.downlinkFrame b) s = .next t ∧ (t.bk b.val).dlj = min ((s.bk b.val).dlj + 1) (s.len - 1) ∧
      t.out = [Out.silk b.val ((if (s.bk b.val).dlj = 0 then 1 else 2) * 2 ^ 38 + b2n (s.rdB (pgBnk b.val) R.BNK_TRIP_STAT_trip_bit) * 2 ^ 37 + (s.bk b.val).slots.getD (s.bk b.val).dlj 0)]) ∧
  (∀ (s : State) (b : Fin 32), s.domOn (domOfBank b.val) = true → s.linkUp b.val = true → (s.bk b.val).dlj = 25 → s.role b.val = 0 →
    ∃ t, exec (.downlinkFrame b) s = .next t ∧ ∃ w, t.out = [Out.silk b.val w] ∧ w / 2 ^ 38 = 2 ∧ w / 2 ^ 36 % 2 = 1 ∧
      w / 2 ^ 19 % 2 = 1 ∧ w / 2 ^ 18 % 2 = 0 ∧ w / 2 ^ 17 % 2 = b2n (s.bankArmed b.val) ∧ w / 2 ^ 14 % 2 = 0 ∧ w % 2 ^ 14 = s.k % 2 ^ 14) ∧
  (∀ (s : State) (b : Fin 32), s.domOn (domOfBank b.val) = true → s.lst b.val = 1 ∨ s.lst b.val = 2 →
    ∃ t, exec (.downlinkFrame b) s = .next t ∧ t.out = [Out.silk b.val 0xAAAAAAAAAA]) ∧
  (∀ (s : State) (b : Fin 32), s.domOn (domOfBank b.val) = true → s.lst b.val = 3 → (s.bk b.val).train < 2 ^ 24 →
    ∃ t, exec (.downlinkFrame b) s = .next t ∧ t.out = [Out.silk b.val (3 * 2 ^ 38 + 0xA5 * 2 ^ 30 + (s.bk b.val).train)] ∧
      (t.bk b.val).train = ((s.bk b.val).train + 1) % 2 ^ 24) ∧
  (∀ (s : State) (b : Fin 32), s.lst b.val = 0 ∨ s.lst b.val = 10 →
    ∃ t, exec (.downlinkFrame b) s = .next t ∧ t.out = [] ∧ t.banks = s.banks) ∧
  (∀ (s : State) (b : Fin 32), s.domOn (domOfBank b.val) = true → s.linkUp b.val = true → (s.bk b.val).lost < 2 →
      s.rd (pgBnk b.val) R.BNK_LINK_STAT_gap_open = 0 →
    ∃ t, exec (.lostLink b) s = .next t ∧ (t.bk b.val).lost = 2 ∧ (t.bk b.val).gapAt = some s.k ∧ (t.bk b.val).linkC = true ∧
      t.rd (pgBnk b.val) R.BNK_LINK_ERR_lost_link = min (s.rd (pgBnk b.val) R.BNK_LINK_ERR_lost_link + 1) 255 ∧
      (t.rd (pgBnk b.val) R.INT_STAT).testBit 9 = true ∧ t.rd (pgBnk b.val) R.BNK_LINK_STAT_gap_open = 1)

/-- R79 to R82, R89, R90: link-up. Training leads from SEEK over LOCK, ALIGN, SFSYNC and IDREAD to UP; a record that is refused leaves ID_BAD, a
changed identity ID_CHANGED until it is accepted; a step that is late leaves FAILED; a drop is taken only while no channel is armed. -/
def Obligations.LinkUp : Prop :=
  (∀ (s : State) (r : Req) (b : Fin 32) (d : Word), Accepts s r (pgBnk b.val) 0x040 → s.lst b.val = 0 ∨ s.lst b.val = 10 →
      d.toNat.testBit 0 = true → d.toNat.testBit 3 = false →
    ∃ t, exec (.linkTrain r b d) s = .next t ∧ t.lst b.val = 1 ∧ t.rd (pgBnk b.val) R.BNK_LINK_CTRL_port_en = 1 ∧
      t.rd (pgBnk b.val) R.BNK_LINK_CTRL_auto = d.toNat / 2 % 2) ∧
  (∀ (s : State) (r : Req) (b : Fin 32) (d : Word), Accepts s r (pgBnk b.val) 0x040 → d.toNat.testBit 0 = false →
    ∃ t, exec (.linkTrain r b d) s = .next t ∧ t.lst b.val = 0) ∧
  (∀ (s : State) (r : Req) (b : Fin 32) (d : Word), Accepts s r (pgBnk b.val) 0x040 → s.linkUp b.val = true →
      s.bankArmed b.val = false → d.toNat % 8 = 1 →
    ∃ t, exec (.linkDrop r b d) s = .next t ∧ t.lst b.val = 0 ∧
      t.rd (pgBnk b.val) R.BNK_LINK_STAT_gap_open = s.rd (pgBnk b.val) R.BNK_LINK_STAT_gap_open ∧ t.chans = s.chans) ∧
  (∀ (s : State) (r : Req) (b : Fin 32) (d : Word), Accepts s r (pgBnk b.val) 0x040 → s.linkUp b.val = true →
      s.bankArmed b.val = true → d.toNat % 8 = 1 →
    ∃ t, exec (.linkDrop r b d) s = .next t ∧ t.lst b.val = 6 ∧ t.banks = s.banks ∧ t.chans = s.chans) ∧
  (∀ (s : State) (r : Req) (b : Fin 32) (d : Word), Accepts s r (pgBnk b.val) 0x040 → s.lst b.val = 9 → d.toNat % 16 = 1 →
    ∃ t, exec (.idAccept r b d) s = .next t ∧ t.lst b.val = 6 ∧ (t.bk b.val).ident = (s.bk b.val).newId ∧
      t.rd (pgBnk b.val) R.BNK_ID_CRC_crc = idCrc (s.bk b.val).newId ∧ (t.rd (pgBnk b.val) R.INT_STAT).testBit 8 = true ∧
      (s.rd (pgBnk b.val) R.BNK_LINK_STAT_gap_open = 1 → (t.bk b.val).gapEnd = true)) ∧
  (∀ (s : State) (r : Req) (b : Fin 32) (d : Word), Accepts s r (pgBnk b.val) 0x040 → s.lst b.val = 9 → d.toNat % 16 = 1 →
      d.toNat.testBit 6 = false → (∀ c ∈ chansOf b.val, s.rd (pgChn c) R.CHN_CFG_src = 1) →
    ∃ t, exec (.idReject r b d) s = .next t ∧ t.lst b.val = 9 ∧ (∀ c ∈ chansOf b.val, t.armed c = false) ∧
      (t.bk b.val).ident = (s.bk b.val).ident) ∧
  (∀ (s : State) (b : Fin 32), s.lst b.val = 1 → ∃ t, exec (.linkSeekDetect b) s = .next t ∧ t.lst b.val = 2) ∧
  (∀ (s : State) (b : Fin 32), s.lst b.val = 2 → ∃ t, exec (.linkLock b) s = .next t ∧ t.lst b.val = 3 ∧ (t.bk b.val).train = 0) ∧
  (∀ (s : State) (b : Fin 32) (x : Fin 65536), s.lst b.val = 3 → 40 ≤ x.val → x.val ≤ 320 →
    ∃ t, exec (.linkAlignDone b x) s = .next t ∧ t.rd (pgBnk b.val) R.BNK_LINK_STAT_rtt = x.val ∧ (t.bk b.val).sfsync = true) ∧
  (∀ (s : State) (b : Fin 32) (x : Fin 65536), x.val < 40 ∨ 320 < x.val →
    ∃ t, exec (.linkAlignDone b x) s = .next t ∧ t = s.start) ∧
  (∀ (s : State) (b : Fin 32), s.lst b.val = 4 →
    ∃ t, exec (.linkSfsyncDone b) s = .next t ∧ t.lst b.val = 5 ∧ (t.bk b.val).idreq = some 0 ∧ (t.bk b.val).reads = []) ∧
  (∀ (s : State) (b : Fin 32) (rec : List Word) (r : List Nat), s.lst b.val = 5 → (s.bk b.val).reads.length ≠ 1024 →
      rec.map (·.toNat) = r → idAccepted r s.len = true → (s.bk b.val).ident = [] ∨ idTuple (s.bk b.val).ident = idTuple r →
    ∃ t, exec (.idreadDone b rec) s = .next t ∧ t.lst b.val = 6 ∧ (t.bk b.val).ident = r ∧ t.rd (pgBnk b.val) R.BNK_ID_CRC_crc = idCrc r ∧
      t.rd (pgBnk b.val) R.BNK_ID_NEW_CRC_crc = idCrc r ∧ (t.rd (pgBnk b.val) R.INT_STAT).testBit 8 = true) ∧
  (∀ (s : State) (b : Fin 32) (rec : List Word) (r : List Nat), s.lst b.val = 5 → (s.bk b.val).reads.length ≠ 1024 →
      rec.map (·.toNat) = r → idAccepted r s.len = false →
    ∃ t, exec (.idreadDone b rec) s = .next t ∧ t.lst b.val = 8 ∧ (t.bk b.val).ident = (s.bk b.val).ident ∧
      (t.rd (pgBnk b.val) R.INT_STAT).testBit 11 = true) ∧
  (∀ (s : State) (b : Fin 32) (rec : List Word) (r : List Nat), s.lst b.val = 5 → (s.bk b.val).reads.length ≠ 1024 →
      rec.map (·.toNat) = r → idAccepted r s.len = true → (s.bk b.val).ident ≠ [] → idTuple (s.bk b.val).ident ≠ idTuple r →
    ∃ t, exec (.idreadDone b rec) s = .next t ∧ t.lst b.val = 9 ∧ (t.bk b.val).ident = (s.bk b.val).ident ∧ (t.bk b.val).newId = r ∧
      (t.rd (pgBnk b.val) R.INT_STAT).testBit 11 = true) ∧
  (∀ (s : State) (b : Fin 32) (n : Fin 9), n.val ≠ 0 → s.lst b.val = stepSt n.val →
    ∃ t, exec (.linkTrainTimeout b n) s = .next t ∧ t.lst b.val = 10 ∧ t.rd (pgBnk b.val) R.BNK_LINK_STAT_fail_phase = n.val ∧
      (t.rd (pgBnk b.val) R.INT_STAT).testBit 13 = true) ∧
  (∀ (s : State) (b : Fin 32), s.lst b.val = 10 → s.rd (pgBnk b.val) R.BNK_LINK_CTRL_auto = 1 →
    ∃ t, exec (.linkRetryTimer b) s = .next t ∧ t.lst b.val = 1) ∧
  (∀ (s : State) (b : Fin 32), s.lst b.val = 10 → s.rd (pgBnk b.val) R.BNK_LINK_CTRL_auto = 0 →
    ∃ t, exec (.linkRetryTimer b) s = .next t ∧ t.lst b.val = 10)
/-- R100, R101, R103, R104: calibration. A shadow write dirties the selected entry, a commit copies the dirty entries together at its superframe, a
discard drops them, and a reload ends with one of its three results. -/
def Obligations.CalibrationSets : Prop :=
  (∀ (s : State) (r : Req) (b : Fin 32) (n : Fin 3) (d : Word) (k : Nat), Accepts s r (pgBnk b.val) (0x090 + 4 * n.val) →
      s.rd (pgBnk b.val) R.BNK_CAL_SEL_stream = k → k < 36 →
    ∃ t, exec (.calShadowWrite r b n d) s = .next t ∧ (t.bk b.val).calDirty = (s.bk b.val).calDirty ||| 2 ^ k ∧
      (t.bk b.val).cal = (s.bk b.val).cal ∧
      (t.bk b.val).calSh.get {} k = (if n.val = 0 then { (s.bk b.val).calSh.get {} k with gain := d.toNat } else if n.val = 1 then { (s.bk b.val).calSh.get {} k with off := d.toInt } else { (s.bk b.val).calSh.get {} k with tc := d.toInt }) ∧
      (∀ m, m ≠ k → (t.bk b.val).calSh.get {} m = (s.bk b.val).calSh.get {} m)) ∧
  (∀ (s : State) (r : Req) (b : Fin 32) (n : Fin 3) (d : Word), Accepts s r (pgBnk b.val) (0x090 + 4 * n.val) →
      36 ≤ s.rd (pgBnk b.val) R.BNK_CAL_SEL_stream →
    ∃ t, exec (.calShadowWrite r b n d) s = .next t ∧ t.banks = s.banks) ∧
  (∀ (s : State) (r : Req) (b : Fin 32) (d : Word), Accepts s r (pgBnk b.val) 0x08C → d.toNat / 2 ^ 29 % 4 = 0 →
    ∃ t, exec (.calCommit r b d) s = .next t ∧ t.rd (pgBnk b.val) R.BNK_CAL_STAT_pending = 1 ∧
      (t.bk b.val).commit = some { at_ := d.toNat.testBit 28, sfc := d.toNat % 16384, frm := s.w } ∧
      (t.bk b.val).cal = (s.bk b.val).cal ∧ (t.bk b.val).calDirty = (s.bk b.val).calDirty) ∧
  (∀ (s : State) (r : Req) (b : Fin 32) (d : Word), Accepts s r (pgBnk b.val) 0x08C → d.toNat / 2 ^ 29 % 4 ≠ 0 →
    ∃ t, exec (.calCommit r b d) s = .next t ∧ t.banks = s.banks ∧ t.fields = s.fields) ∧
  (∀ (s : State) (b : Fin 32) (x : Due), (s.bk b.val).commit = some x → x.now s.w = true →
    ∃ t, exec (.calCommitTakesEffect b) s = .next t ∧ (t.bk b.val).commit = none ∧ (t.bk b.val).calDirty = 0 ∧
      t.rd (pgBnk b.val) R.BNK_CAL_STAT_pending = 0 ∧ (t.rd (pgBnk b.val) R.INT_STAT).testBit 16 = true ∧
      (∀ n < 36, (t.bk b.val).cal.get {} n = if (s.bk b.val).calDirty.testBit n then (s.bk b.val).calSh.get {} n else (s.bk b.val).cal.get {} n) ∧
      (∀ n < 32, (s.bk b.val).calDirty.testBit n = true → (t.rd (pgBnk b.val) R.BNK_CAL_SW0_sw).testBit n = true ∧ (t.rd (pgBnk b.val) R.BNK_CAL_UNC0_unc).testBit n = false)) ∧
  (∀ (s : State) (b : Fin 32) (x : Due), (s.bk b.val).commit = some x → x.now s.w = false →
    ∃ t, exec (.calCommitTakesEffect b) s = .next t ∧ t.banks = s.banks ∧ t.fields = s.fields) ∧
  (∀ (s : State) (r : Req) (b : Fin 32) (d : Word), Accepts s r (pgBnk b.val) 0x08C → d.toNat / 2 ^ 30 = 0 →
    ∃ t, exec (.calDiscard r b d) s = .next t ∧ (t.bk b.val).calDirty = 0 ∧ (t.bk b.val).calSh = (s.bk b.val).cal ∧
      (t.bk b.val).commit = none ∧ (t.bk b.val).cal = (s.bk b.val).cal ∧ t.rd (pgBnk b.val) R.BNK_CAL_STAT_pending = 0) ∧
  (∀ (s : State) (r : Req) (b : Fin 32) (d : Word), Accepts s r (pgBnk b.val) 0x08C → d.toNat / 2 ^ 31 = 0 → d.toNat / 2 ^ 29 % 2 = 0 →
      s.linkUp b.val = true → (s.bk b.val).reload = false →
    ∃ t, exec (.calReload r b d) s = .next t ∧ (t.bk b.val).reload = true ∧ (t.bk b.val).idreq = some 0 ∧
      t.rd (pgBnk b.val) R.BNK_CAL_STAT_reload_busy = 1 ∧ (t.bk b.val).cal = (s.bk b.val).cal) ∧
  (∀ (s : State) (r : Req) (b : Fin 32) (d : Word), Accepts s r (pgBnk b.val) 0x08C → d.toNat / 2 ^ 31 = 0 → d.toNat / 2 ^ 29 % 2 = 0 →
      s.linkUp b.val = false → (s.bk b.val).reload = false →
    ∃ t, exec (.calReload r b d) s = .next t ∧ t.rd (pgBnk b.val) R.BNK_CAL_STAT_reload_result = 2 ∧
      (t.rd (pgBnk b.val) R.INT_STAT).testBit 17 = true ∧ t.banks = s.banks) ∧
  (∀ (s : State) (b : Fin 32) (rec : List Word) (r : List Nat), (s.bk b.val).reload = true → (s.bk b.val).reloadIn = [] →
      (s.bk b.val).reads.length ≠ 1024 → rec.map (·.toNat) = r → idAccepted r s.len = true → idTuple (s.bk b.val).ident = idTuple r →
    ∃ t, exec (.calReloadDone b rec) s = .next t ∧ (t.bk b.val).reloadIn = r ∧ (t.bk b.val).reload = true ∧
      (t.bk b.val).cal = (s.bk b.val).cal ∧ t.rd (pgBnk b.val) R.BNK_ID_NEW_CRC_crc = idCrc r) ∧
  (∀ (s : State) (b : Fin 32) (rec : List Word) (r : List Nat), (s.bk b.val).reload = true → (s.bk b.val).reloadIn = [] →
      (s.bk b.val).reads.length ≠ 1024 → rec.map (·.toNat) = r → idAccepted r s.len = false →
    ∃ t, exec (.calReloadDone b rec) s = .next t ∧ t.rd (pgBnk b.val) R.BNK_CAL_STAT_reload_result = 2 ∧ (t.bk b.val).reload = false ∧
      t.rd (pgBnk b.val) R.BNK_CAL_STAT_reload_busy = 0 ∧ (t.bk b.val).cal = (s.bk b.val).cal ∧ (t.rd (pgBnk b.val) R.INT_STAT).testBit 17 = true) ∧
  (∀ (s : State) (b : Fin 32) (rec : List Word) (r : List Nat), (s.bk b.val).reload = true → (s.bk b.val).reloadIn = [] →
      (s.bk b.val).reads.length ≠ 1024 → rec.map (·.toNat) = r → idAccepted r s.len = true → idTuple (s.bk b.val).ident ≠ idTuple r →
    ∃ t, exec (.calReloadDone b rec) s = .next t ∧ t.rd (pgBnk b.val) R.BNK_CAL_STAT_reload_result = 3 ∧ (t.bk b.val).reload = false ∧
      (t.bk b.val).cal = (s.bk b.val).cal ∧ t.lst b.val = s.lst b.val)

/-- R72, R94, R95, R97, R100, R111 to R115: aux selects, the filters' arithmetic and the logging path. A window boundary issues one record for
each channel and bank of the profile and opens the next window; a change of the configuration waits for the next boundary. -/
def Obligations.SamplesAndLogging : Prop :=
  (∀ (s : State) (r : Req) (b : Fin 32) (d : Word), Accepts s r (pgBnk b.val) 0x0D0 →
    ∃ t, exec (.auxSelWrite r b d) s = .next t ∧ t.rd (pgBnk b.val) R.BNK_AUX_SEL_aux_a = d.toNat % 256 ∧
      t.rd (pgBnk b.val) R.BNK_AUX_SEL_aux_b = d.toNat / 256 % 256 ∧ t.banks = s.banks) ∧
  (∀ (e : Cal) (raw dt : Int), -(2 ^ 35) ≤ calibrate e raw dt ∧ calibrate e raw dt ≤ 2 ^ 35 - 1) ∧
  (∀ (l : Nat) (y z : Int), 0 < l → y ≤ z → rawOf y l ≤ rawOf z l) ∧
  (∀ (d : Dec) (m : List Bool), m.length = 15 →
    (m.foldl Dec.push d).y2 = (m.zipIdx.map (fun x => (if x.1 then 1 else -1) * ((if x.2 < 8 then x.2 + 1 else 15 - x.2 : Nat) : Int))).sum) ∧
  (∀ (s : State) (n : Fin 8) (b : Fin 32) (c : Nat), b.val ∈ s.liveBanks → c ∈ chansOf b.val → s.logProf c = some n.val →
      (s.logAcc.get {} c).open_ = true → (s.bk b.val).loaded = true →
    ∃ t, exec (.logWindowEnd n) s = .next t ∧ t.rdS (pgChn c) R.CHN_I_AVG_value = toS 36 (ofS 36 ((s.logAcc.get {} c).avg 0)) ∧
      t.rdS (pgChn c) R.CHN_V_AVG_value = toS 36 (ofS 36 ((s.logAcc.get {} c).avg 1)) ∧ t.logAcc.get {} c = { open_ := true } ∧
      t.logSeq.get 0 (c * 8 + n.val) = (s.logSeq.get 0 (c * 8 + n.val) + 1) % 2 ^ 32) ∧
  (∀ (s : State) (n : Fin 8) (c : Nat), c < 512 → s.logProf c ≠ some n.val →
    ∃ t, exec (.logWindowEnd n) s = .next t ∧ t.logAcc.get {} c = s.logAcc.get {} c ∧ t.rd (pgChn c) R.CHN_I_AVG_value = s.rd (pgChn c) R.CHN_I_AVG_value) ∧
  (∀ (s : State) (r : Req) (w : Fin 8) (d : Word), Accepts s r pgLgr (0x040 + 4 * w.val) →
    ∃ t, exec (.logConfigWrite r ⟨16 + w.val, by omega⟩ d) s = .next t ∧ t.logCfg = true ∧ t.logAcc = s.logAcc ∧
      t.rd pgLgr (R.LGR_PROF_queue w.val) = d.toNat % 2 ^ 12 ∧ t.rd pgLgr (R.LGR_PROF_en w.val) = d.toNat / 2 ^ 31 ∧
      t.rd pgLgr (R.LGR_PROF_window_ms w.val) = clampN 1 10000 (d.toNat / 2 ^ 16 % 2 ^ 14) ∧
      (∀ c < 544, t.logMap c = s.logMap c))
/-- R33 to R37, R87, R125, R130, R159, R192 to R194: the time base. A boundary starts the next superframe and places the words of the
channels, the grants of two superframes before or, after a late bank, a failed CRC or a ledger that has not ended, the words sent before; the
phases, the tally and the ledger end one superframe after the other, and a deadline or a ledger that is missed is counted once. -/
def Obligations.TimeBase : Prop :=
  (∀ (s : State), s.domOn 0 = true → s.lenNew = none →
    ∃ t, exec .superframeBoundary s = .next t ∧ t.k = s.k + 1 ∧ t.len = s.len ∧ t.led = s.led ∧ t.tally = s.tally ∧
      t.w = (if s.w < s.k + 1 ∧ (s.w ≤ s.led ∨ s.liveBanks = []) then s.w + 1 else s.w)) ∧
  (∀ (s : State), s.domOn 0 = false → ∃ t, exec .superframeBoundary s = .next t ∧ t = s.start) ∧
  (∀ (s : State) (b i : Nat), s.domOn 0 = true → b ∈ s.liveBanks → i < 16 → s.linkUp b = true → s.role b ≠ 4 → s.plk.change = [] →
      (s.bk b).lost = 0 → (s.bk b).upj = s.len → (s.bk b).gapEnd = false → (s.bk b).offAt ≠ some (s.k + 1) → 1 ≤ s.k →
      s.causeAt b (s.k - 1) = false → s.k - 1 < s.led →
    ∃ t, exec .superframeBoundary s = .next t ∧
      (t.bk b).slots.getD i 0 = 2 ^ 36 + s.rd (pgChn (16 * b + i)) R.CHN_LDG_GRANT_value % 2 ^ 36) ∧
  (∀ (s : State) (b i : Nat), s.domOn 0 = true → b ∈ s.liveBanks → i < 16 → s.linkUp b = true → s.role b ≠ 4 → s.plk.change = [] →
      (s.bk b).lost = 0 → (s.bk b).upj = s.len → (s.bk b).gapEnd = false → (s.bk b).offAt ≠ some (s.k + 1) → 1 ≤ s.k →
      s.causeAt b (s.k - 1) = true ∨ s.led ≤ s.k - 1 →
    ∃ t, exec .superframeBoundary s = .next t ∧
      (t.bk b).slots.getD i 0 = 2 ^ 36 + s.rd (pgChn (16 * b + i)) R.CHN_WORD_value % 2 ^ 36) ∧
  (∀ (s : State) (b i : Nat), s.domOn 0 = true → b ∈ s.liveBanks → i < 16 → s.linkUp b = false ∨ (s.bk b).offAt = some (s.k + 1) →
    ∃ t, exec .superframeBoundary s = .next t ∧ (t.bk b).slots.getD i 0 = 2 ^ 36) ∧
  (∀ (s : State) (b : Fin 32) (slack : Fin 256), s.domOn (domOfBank b.val) = true → (s.bk b.val).cEnd < s.w → s.w ≤ s.tally + 1 →
      (s.bk b.val).lateAt ≠ some (s.w - 1) →
    ∃ t, exec (.phaseCStart b slack) s = .next t ∧ (t.bk b.val).cEnd = s.w ∧
      t.rd pgPwr (R.PWR_SLACK_slack_last b.val) = slack.val ∧ t.rd pgPwr (R.PWR_SLACK_late_prev b.val) = 0 ∧
      t.rd pgPwr (R.PWR_SLACK_slack_min b.val) = min (s.rd pgPwr (R.PWR_SLACK_slack_min b.val)) slack.val) ∧
  (∀ (s : State) (b : Fin 32) (slack : Fin 256), s.domOn (domOfBank b.val) = true → (s.bk b.val).cEnd < s.w → s.w ≤ s.tally + 1 →
      (s.bk b.val).lateAt = some (s.w - 1) →
    ∃ t, exec (.phaseCStart b slack) s = .next t ∧ (t.bk b.val).cEnd = s.w ∧
      t.rd pgPwr (R.PWR_SLACK_slack_last b.val) = 0 ∧ t.rd pgPwr (R.PWR_SLACK_late_prev b.val) = 1 ∧
      t.rd pgPwr (R.PWR_SLACK_slack_min b.val) = 0) ∧
  (∀ (s : State) (b : Fin 32) (slack : Fin 256), s.w ≤ (s.bk b.val).cEnd ∨ s.tally + 1 < s.w →
    ∃ t, exec (.phaseCStart b slack) s = .next t ∧ t = s.start) ∧
  (∀ (s : State) (b : Fin 32), s.domOn (domOfBank b.val) = true → (s.bk b.val).cEnd < s.k → (s.bk b.val).lateAt ≠ some (s.k - 1) →
    ∃ t, exec (.bankDeadline b) s = .next t ∧ (t.bk b.val).lateAt = some (s.k - 1) ∧
      t.rd pgPwr (R.PWR_SLACK_late_count b.val) = min (s.rd pgPwr (R.PWR_SLACK_late_count b.val) + 1) 255 ∧
      (t.rd pgPwr R.INT_STAT).testBit 0 = true) ∧
  (∀ (s : State) (b : Fin 32), s.domOn (domOfBank b.val) = true → (s.bk b.val).cEnd < s.k → 2 ≤ s.k →
      (s.bk b.val).lateAt = some (s.k - 2) → (s.bk b.val).offAt ≠ some (s.k + 1) → s.tripSt b.val = 0 →
    ∃ t, exec (.bankDeadline b) s = .next t ∧ (t.bk b.val).offAt = some (s.k + 1) ∧ t.tripSt b.val = 2 ∧
      t.rd (pgBnk b.val) R.BNK_TRIP_STAT_cause = 0x0C ∧ (t.bk b.val).holdAt = some s.k ∧ (t.rd pgPwr R.INT_STAT).testBit 1 = true) ∧
  (∀ (s : State) (b : Fin 32), s.k ≤ (s.bk b.val).cEnd → ∃ t, exec (.bankDeadline b) s = .next t ∧ t = s.start) ∧
  (∀ (s : State), s.led < s.cEnded → s.liveBanks ≠ [] →
    ∃ t, exec .ledgerWork s = .next t ∧ t.led = s.cEnded ∧ t.k = s.k ∧
      t.w = (if s.w < s.k ∧ s.w ≤ s.cEnded then s.w + 1 else s.w)) ∧
  (∀ (s : State), s.cEnded ≤ s.led → ∃ t, exec .ledgerWork s = .next t ∧ t = s.start) ∧
  (∀ (s : State), 2 ≤ s.k → s.led ≤ s.k - 2 → s.missAt ≠ some (s.k - 2) → s.liveBanks ≠ [] →
    ∃ t, exec .ledgerMiss s = .next t ∧ t.missAt = some (s.k - 2) ∧ t.led = s.led ∧ (t.rd pgStp R.INT_STAT).testBit 5 = true ∧
      t.rd pgStp R.STP_LDG_MISS_count = min (s.rd pgStp R.STP_LDG_MISS_count + 1) (2 ^ 32 - 1) ∧
      (∀ b ∈ s.liveBanks, 3 ≤ s.k → s.causeAt b (s.k - 3) = true → (s.bk b).offAt ≠ some s.k → s.tripSt b = 0 →
        (t.bk b).offAt = some s.k ∧ t.tripSt b = 2 ∧ t.rd (pgBnk b) R.BNK_TRIP_STAT_cause = 0x0C)) ∧
  (∀ (s : State), s.k < 2 ∨ s.k - 2 < s.led → ∃ t, exec .ledgerMiss s = .next t ∧ t = s.start)

/-- R118, R120 to R124, R136, R486: commands of a channel. A command that no cause refuses waits for its superframe and is judged there again; an
arm clears the law state, a disarm keeps the counters, an apply puts every shadow into force, a preset loads one counter, and a discard acts at once. -/
def Obligations.ChannelCommands : Prop :=
  (∀ (s : State) (r : Req) (c : Fin 512) (d : Word), Accepts s r (pgChn c.val) 0x028 → d.toNat / 2 ^ 27 % 16 = 0 →
      s.rd (pgChn c.val) (R.CTRL_enable (pgChn c.val)) = 1 → s.linkUp (bankOf c.val) = true → s.cst c.val ≠ 3 → s.tripSt (bankOf c.val) = 0 →
      (s.shadow (pgChn c.val) R.CHN_CFG_src = 0 ∧ s.rd (pgChn c.val) R.CHN_LP_PTR_valid = 1) ∨
        (s.shadow (pgChn c.val) R.CHN_CFG_src = 1 ∧ s.shadow (pgChn c.val) R.CHN_CFG_dmode ≤ 8) →
    ∃ t, exec (.chnArm r c d) s = .next t ∧ t.rd (pgChn c.val) R.CHN_STAT_cmd_result = 1 ∧ t.rd (pgChn c.val) R.CHN_STAT_pending = 1 ∧
      (t.ch c.val).cmd = some ⟨0, { at_ := d.toNat.testBit 24, sfc := d.toNat % 16384, frm := s.w }⟩ ∧
      t.cst c.val = (if s.cst c.val = 0 then 1 else s.cst c.val)) ∧
  (∀ (s : State) (r : Req) (c : Fin 512) (d : Word), Accepts s r (pgChn c.val) 0x028 → d.toNat / 2 ^ 27 % 16 = 0 →
    ∃ t, exec (.chnArm r c d) s = .next t ∧
      (let bad := t.chans = s.chans ∧ t.cst c.val = s.cst c.val ∧ (t.rd (pgChn c.val) R.INT_STAT).testBit 2 = true ∧
          (t.rd (pgBnk (bankOf c.val)) R.INT_STAT).testBit 19 = true;
       let en := s.rd (pgChn c.val) (R.CTRL_enable (pgChn c.val));
       let src := s.shadow (pgChn c.val) R.CHN_CFG_src;
       (en = 0 → t.rd (pgChn c.val) R.CHN_STAT_cmd_result = 7 ∧ bad) ∧
       (en = 1 → s.linkUp (bankOf c.val) = false → t.rd (pgChn c.val) R.CHN_STAT_cmd_result = 2 ∧ bad) ∧
       (en = 1 → s.linkUp (bankOf c.val) = true → s.cst c.val = 3 ∨ s.tripSt (bankOf c.val) ≠ 0 →
         t.rd (pgChn c.val) R.CHN_STAT_cmd_result = 3 ∧ bad) ∧
       (en = 1 → s.linkUp (bankOf c.val) = true → s.cst c.val ≠ 3 → s.tripSt (bankOf c.val) = 0 → src = 0 →
         s.rd (pgChn c.val) R.CHN_LP_PTR_valid = 0 → t.rd (pgChn c.val) R.CHN_STAT_cmd_result = 4 ∧ bad) ∧
       (en = 1 → s.linkUp (bankOf c.val) = true → s.cst c.val ≠ 3 → s.tripSt (bankOf c.val) = 0 → src = 1 →
         8 < s.shadow (pgChn c.val) R.CHN_CFG_dmode → t.rd (pgChn c.val) R.CHN_STAT_cmd_result = 6 ∧ bad))) ∧
  (∀ (s : State) (r : Req) (c : Fin 512) (d : Word), Accepts s r (pgChn c.val) 0x028 → d.toNat / 2 ^ 27 % 16 ≠ 0 →
    ∃ t, exec (.chnArm r c d) s = .next t ∧ t.rd (pgChn c.val) R.CHN_STAT_cmd_result = 7 ∧ t.chans = s.chans ∧ t.cst c.val = s.cst c.val) ∧
  (∀ (s : State) (r : Req) (c : Fin 512) (d : Word), Accepts s r (pgChn c.val) 0x028 → d.toNat / 2 ^ 27 % 8 = 0 →
      d.toNat / 2 ^ 31 = 0 →
    ∃ t, exec (.chnDisarm r c d) s = .next t ∧ t.rd (pgChn c.val) R.CHN_STAT_cmd_result = 1 ∧
      (t.ch c.val).cmd = some ⟨1, { at_ := d.toNat.testBit 24, sfc := d.toNat % 16384, frm := s.w }⟩ ∧
      t.cst c.val = (if s.cst c.val = 1 then 0 else s.cst c.val)) ∧
  (∀ (s : State) (r : Req) (c : Fin 512) (d : Word), Accepts s r (pgChn c.val) 0x028 → d.toNat / 2 ^ 30 = 0 → d.toNat / 2 ^ 27 % 4 = 0 →
      s.shadow (pgChn c.val) R.CHN_CFG_src = 0 ∨ s.shadow (pgChn c.val) R.CHN_CFG_dmode ≤ 8 →
    ∃ t, exec (.chnApply r c d) s = .next t ∧ t.rd (pgChn c.val) R.CHN_STAT_cmd_result = 1 ∧
      (t.ch c.val).cmd = some ⟨2, { at_ := d.toNat.testBit 24, sfc := d.toNat % 16384, frm := s.w }⟩ ∧
      t.rd (pgChn c.val) R.CHN_CFG_src = s.rd (pgChn c.val) R.CHN_CFG_src) ∧
  (∀ (s : State) (r : Req) (c : Fin 512) (d : Word), Accepts s r (pgChn c.val) 0x028 → d.toNat / 2 ^ 29 = 0 → d.toNat / 2 ^ 27 % 2 = 0 →
    ∃ t, exec (.chnPreset r c d) s = .next t ∧
      (s.cst c.val = 0 → t.rd (pgChn c.val) R.CHN_STAT_cmd_result = 1 ∧
        (t.ch c.val).cmd = some ⟨3, { at_ := d.toNat.testBit 24, sfc := d.toNat % 16384, frm := s.w }⟩) ∧
      (s.cst c.val ≠ 0 → t.rd (pgChn c.val) R.CHN_STAT_cmd_result = 5 ∧ t.chans = s.chans)) ∧
  (∀ (s : State) (r : Req) (c : Fin 512) (d : Word), Accepts s r (pgChn c.val) 0x028 → d.toNat / 2 ^ 28 = 0 →
    ∃ t, exec (.chnDiscard r c d) s = .next t ∧ t.chans = s.chans ∧
      (∀ f ∈ [R.CHN_CFG_src, R.CHN_CFG_dmode, R.CHN_SET_I_value, R.CHN_KP_I_kp_i, R.CHN_LP_FAULT_step, R.CHN_LDG_CFG_class],
        t.rd (pgChn c.val) f = s.rd (pgChn c.val) f ∧ t.shadow (pgChn c.val) f = s.rd (pgChn c.val) f) ∧
      t.rd (pgChn c.val) R.CHN_STAT_cmd_result = s.rd (pgChn c.val) R.CHN_STAT_cmd_result ∧
      t.rd (pgChn c.val) R.CHN_STAT_pending = s.rd (pgChn c.val) R.CHN_STAT_pending) ∧
  (∀ (s : State) (c : Fin 512) (x : Due), (s.ch c.val).cmd = some ⟨0, x⟩ → x.now s.w = true → s.cst c.val = 1 → s.tripSt (bankOf c.val) = 0 →
      s.rd (pgChn c.val) (R.CTRL_enable (pgChn c.val)) = 1 → s.linkUp (bankOf c.val) = true →
      s.shadow (pgChn c.val) R.CHN_CFG_src = 1 → s.shadow (pgChn c.val) R.CHN_CFG_dmode ≤ 8 → s.fields.wf = true →
    ∃ t, exec (.chnCmdTakesEffect c) s = .next t ∧ t.cst c.val = 2 ∧ (t.ch c.val).cmd = none ∧ (t.ch c.val).cnt = 0 ∧
      t.rd (pgChn c.val) R.CHN_STAT_cmd_result = 0 ∧ t.rd (pgChn c.val) R.CHN_STAT_pending = 0 ∧
      t.rd (pgChn c.val) R.CHN_U_value = 0 ∧ t.rd (pgChn c.val) R.CHN_XI_value = 0 ∧ t.rd (pgChn c.val) R.CHN_XV_value = 0 ∧
      t.rd (pgChn c.val) R.CHN_STAT_cv_active = 0 ∧ t.rd (pgChn c.val) R.CHN_STAT_phase_b = 0 ∧
      t.rd (pgChn c.val) R.CHN_SQ_IN_value = 0 ∧ (t.rd (pgChn c.val) R.INT_STAT).testBit 0 = true ∧
      (t.rd (pgBnk (bankOf c.val)) R.INT_STAT).testBit 18 = true ∧ t.rd (pgChn c.val) R.CHN_SET_I_value = s.shadow (pgChn c.val) R.CHN_SET_I_value ∧
      (∀ f ∈ [R.CHN_Q_IN_value, R.CHN_Q_OUT_value, R.CHN_E_IN_value, R.CHN_E_OUT_value],
        (∀ e ∈ s.shadows (pgChn c.val), e.1 ≠ f.key (pgChn c.val)) → t.rd (pgChn c.val) f = s.rd (pgChn c.val) f)) ∧
  (∀ (s : State) (c : Fin 512) (x : Due), (s.ch c.val).cmd = some ⟨0, x⟩ → x.now s.w = true → s.cst c.val = 1 →
      s.rd (pgChn c.val) (R.CTRL_enable (pgChn c.val)) = 1 → s.linkUp (bankOf c.val) = false →
    ∃ t, exec (.chnCmdTakesEffect c) s = .next t ∧ t.cst c.val = 0 ∧ (t.ch c.val).cmd = none ∧
      t.rd (pgChn c.val) R.CHN_STAT_cmd_result = 2 ∧ (t.rd (pgChn c.val) R.INT_STAT).testBit 2 = true) ∧
  (∀ (s : State) (c : Fin 512) (x : Due), (s.ch c.val).cmd = some ⟨1, x⟩ → x.now s.w = true → s.cst c.val ≠ 0 →
    ∃ t, exec (.chnCmdTakesEffect c) s = .next t ∧ t.cst c.val = 0 ∧ (t.ch c.val).cmd = none ∧ (t.ch c.val).req = 0 ∧
      (t.ch c.val).img = [] ∧ t.rd (pgChn c.val) R.CHN_STAT_cmd_result = 0 ∧ t.rd (pgChn c.val) R.CHN_U_value = 0 ∧
      t.rd (pgChn c.val) R.CHN_TRIP_STAT_chan_latch = 0 ∧ t.rd (pgChn c.val) R.CHN_TRIP_STAT_bank_held = 0 ∧
      t.rd (pgChn c.val) R.CHN_Q_IN_value = s.rd (pgChn c.val) R.CHN_Q_IN_value ∧
      t.rd (pgChn c.val) R.CHN_E_OUT_value = s.rd (pgChn c.val) R.CHN_E_OUT_value ∧ (t.rd (pgChn c.val) R.INT_STAT).testBit 1 = true) ∧
  (∀ (s : State) (c : Fin 512) (x : Due), (s.ch c.val).cmd = some ⟨3, x⟩ → x.now s.w = true → s.cst c.val = 0 →
      (∀ e ∈ s.shadows (pgChn c.val), ∀ f ∈ [R.CHN_PRE_SEL_counter, R.CHN_PRE_W0_value, R.CHN_PRE_W1_value, R.CHN_PRE_W2_value], e.1 ≠ f.key (pgChn c.val)) →
      s.rd (pgChn c.val) R.CHN_PRE_SEL_counter < 8 → s.rd (pgChn c.val) R.CHN_PRE_W0_value < 2 ^ 32 →
      s.rd (pgChn c.val) R.CHN_PRE_W1_value < 2 ^ 32 → s.rd (pgChn c.val) R.CHN_PRE_W2_value < 2 ^ 8 →
    ∃ t, exec (.chnCmdTakesEffect c) s = .next t ∧ t.rd (pgChn c.val) R.CHN_STAT_cmd_result = 0 ∧
      t.rd (pgChn c.val) (counterFld (s.rd (pgChn c.val) R.CHN_PRE_SEL_counter)) = s.rd (pgChn c.val) R.CHN_PRE_W0_value + 2 ^ 32 * s.rd (pgChn c.val) R.CHN_PRE_W1_value + 2 ^ 64 * s.rd (pgChn c.val) R.CHN_PRE_W2_value ∧
      (t.rd (pgChn c.val) R.CHN_INTG_STAT_sat).testBit (s.rd (pgChn c.val) R.CHN_PRE_SEL_counter) = false) ∧
  (∀ (s : State) (c : Fin 512) (x : Due), (s.ch c.val).cmd = some ⟨2, x⟩ → x.now s.w = true →
      s.shadow (pgChn c.val) R.CHN_CFG_src = 0 ∨ s.shadow (pgChn c.val) R.CHN_CFG_dmode ≤ 8 → s.fields.wf = true →
      (∀ e ∈ s.shadows (pgChn c.val), e.1 ≠ R.CHN_STAT_state.key (pgChn c.val)) →
    ∃ t, exec (.chnCmdTakesEffect c) s = .next t ∧ t.rd (pgChn c.val) R.CHN_STAT_cmd_result = 0 ∧ t.cst c.val = s.cst c.val ∧
      (t.ch c.val).img = (s.ch c.val).img ∧ t.shadows (pgChn c.val) = [] ∧
      (∀ f ∈ [R.CHN_CFG_src, R.CHN_CFG_dmode, R.CHN_CFG_settle, R.CHN_SET_I_value, R.CHN_SET_V_value, R.CHN_I_LIM_CHG_value, R.CHN_KP_I_kp_i, R.CHN_TRIP_CFG_qual, R.CHN_PROT_OV_value, R.CHN_LP_FAULT_step, R.CHN_LDG_CFG_class],
        t.rd (pgChn c.val) f = s.shadow (pgChn c.val) f)) ∧
  (∀ (s : State) (c : Fin 512) (x : Nat) (u : Due), (s.ch c.val).cmd = some ⟨x, u⟩ → u.now s.w = false →
    ∃ t, exec (.chnCmdTakesEffect c) s = .next t ∧ t = s.start) ∧
  (∀ (s : State) (r : Req) (c : Fin 512) (d : Word), Accepts s r (pgChn c.val) 0x008 → s.rd (pgChn c.val) R.CTRL_lock = 0 →
      s.rd (pgChn c.val) (R.CTRL_enable (pgChn c.val)) = 1 → d.toNat / 2 % 2 = 0 →
    ∃ t, exec (.chnEnableClear r c d) s = .next t ∧ t.rd (pgChn c.val) (R.CTRL_enable (pgChn c.val)) = 0 ∧
      (t.ch c.val).cmd = some ⟨1, { frm := s.w }⟩ ∧ t.rd (pgChn c.val) R.CHN_STAT_cmd_result = 1) ∧
  (∀ (s : State) (r : Req) (b : Fin 32) (d : Word) (i : Nat), Accepts s r (pgBnk b.val) 0x0E4 → d.toNat / 2 ^ 29 % 4 = 0 → i < 16 →
    ∃ t, exec (.bnkChnArm r b d) s = .next t ∧
      (let c := 16 * b.val + i;
       ((s.rd (pgBnk b.val) R.BNK_CHN_MASK_mask).testBit i = false → t.ch c = s.ch c) ∧
       ((s.rd (pgBnk b.val) R.BNK_CHN_MASK_mask).testBit i = true → s.ownerAccepts r (pgChn c) = true → s.rd (pgChn c) R.OWNER_handover ≠ 2 →
         s.rd (pgChn c) R.STAT_reset_busy = 0 → s.cmdRefuse c 0 = 0 → s.cst c = 0 → t.cst c = 1 ∧
         (t.ch c).cmd = some ⟨0, { at_ := d.toNat.testBit 24, sfc := d.toNat % 16384, frm := s.w }⟩))) ∧
  (∀ (s : State) (r : Req) (b : Fin 32) (d : Word) (i : Nat), Accepts s r (pgBnk b.val) 0x0E4 → d.toNat / 2 ^ 29 % 2 = 0 → d.toNat / 2 ^ 31 = 0 →
      i < 16 →
    ∃ t, exec (.bnkChnDisarm r b d) s = .next t ∧
      (let c := 16 * b.val + i;
       ((s.rd (pgBnk b.val) R.BNK_CHN_MASK_mask).testBit i = false ∨ s.ownerAccepts r (pgChn c) = false → t.ch c = s.ch c) ∧
       ((s.rd (pgBnk b.val) R.BNK_CHN_MASK_mask).testBit i = true → s.ownerAccepts r (pgChn c) = true → s.rd (pgChn c) R.OWNER_handover ≠ 2 →
         s.rd (pgChn c) R.STAT_reset_busy = 0 →
         (t.ch c).cmd = some ⟨1, { at_ := d.toNat.testBit 24, sfc := d.toNat % 16384, frm := s.w }⟩))) ∧
  (∀ (s : State) (r : Req) (b : Fin 32) (d : Word) (i : Nat), Accepts s r (pgBnk b.val) 0x0E4 → d.toNat / 2 ^ 30 = 0 → i < 16 →
    ∃ t, exec (.bnkChnApply r b d) s = .next t ∧
      (let c := 16 * b.val + i;
       ((s.rd (pgBnk b.val) R.BNK_CHN_MASK_mask).testBit i = false → t.ch c = s.ch c) ∧
       ((s.rd (pgBnk b.val) R.BNK_CHN_MASK_mask).testBit i = true → s.ownerAccepts r (pgChn c) = true → s.rd (pgChn c) R.OWNER_handover ≠ 2 →
         s.rd (pgChn c) R.STAT_reset_busy = 0 → s.shadow (pgChn c) R.CHN_CFG_src = 0 →
         (t.ch c).cmd = some ⟨2, { at_ := d.toNat.testBit 24, sfc := d.toNat % 16384, frm := s.w }⟩)))

/-- R127 to R129, R132, R134, R140: the law and the integrators as functions of their inputs. A channel that is not armed, or whose mode regulates
nothing, asks for no current; on an invalid sample u stays; u lies between the limits; the word carries the clamped demand; the counters of
one sign grow and saturate. -/
def Obligations.ControlLaw : Prop :=
  (∀ (st : Nat) (a : LawIn) (x : LawSt), st ≠ 2 →
    law st a x = ({ x with u := 0, xi := 0, xv := 0, cv := false, ramp := false, limV := false, limI := false, trim := false }, if st = 4 then 0x2000 else 0)) ∧
  (∀ (a : LawIn) (x : LawSt), a.mode < 3 ∨ 8 < a.mode →
    (law 2 a x).1.u = 0 ∧ (law 2 a x).1.xi = 0 ∧ (law 2 a x).1.xv = 0 ∧
      (law 2 a x).2 = (if a.mode = 1 then 0x2000 else if a.mode = 2 then 0x3000 else 0)) ∧
  (∀ (a : LawIn) (x : LawSt), 3 ≤ a.mode → a.mode ≤ 8 → a.invalid = true →
    (law 2 a x).1.u = x.u ∧ (law 2 a x).1.xi = x.xi ∧ (law 2 a x).1.xv = x.xv ∧ (law 2 a x).1.hold = x.hold ∧ (law 2 a x).1.cnt = x.cnt) ∧
  (∀ (a : LawIn) (x : LawSt), 3 ≤ a.mode → a.mode ≤ 8 → a.slew < 4 →
    wordMode (law 2 a x).2 = 1 ∧ (law 2 a x).2 % 4 = a.slew ∧
      wordD (law 2 a x).2 = max (-(2 ^ 19)) (min (2 ^ 19 - 1) (rnd (law 2 a x).1.u (2 ^ 14)))) ∧
  (∀ (a : LawIn) (x : LawSt), 3 ≤ a.mode → a.mode ≤ 8 → a.invalid = false → a.ramp = 0 → 0 ≤ a.limChg → 0 ≤ a.limDis →
    -a.limDis ≤ (law 2 a x).1.u ∧ (law 2 a x).1.u ≤ a.limChg) ∧
  (∀ (a : LawIn) (x : LawSt), a.mode = 3 ∨ a.mode = 6 ∨ a.mode = 7 ∨ a.mode = 8 → a.invalid = false → 0 ≤ a.limChg → 0 ≤ a.limDis → a.ramp = 0 →
    (a.vHi ≤ a.v → (law 2 a x).1.u ≤ 0) ∧ (a.v ≤ a.vLo → 0 ≤ (law 2 a x).1.u)) ∧
  (∀ (a : LawIn) (x : LawSt), a.mode = 7 → a.invalid = false → 0 ≤ a.limChg → 0 ≤ a.limDis → a.trim = 0 → a.ramp = 0 →
    (law 2 a x).1.u ≤ 0) ∧
  (∀ (a : LawIn) (x : LawSt), a.mode = 3 → a.invalid = false → a.ramp = 0 → 0 ≤ a.trim → a.trim ≤ 2 ^ 35 - 1 → a.limDis = 2 ^ 35 → a.limChg = 2 ^ 35 →
      -(2 ^ 35) ≤ a.iSet - a.trim → a.iSet + a.trim < 2 ^ 35 → a.v < a.vHi → a.vLo < a.v →
    a.iSet - a.trim ≤ (law 2 a x).1.u ∧ (law 2 a x).1.u ≤ a.iSet + a.trim) ∧
  (∀ (a : LawIn) (x : LawSt), a.mode = 5 → a.invalid = false → x.cv = true → (law 2 a x).1.cv = true) ∧
  (∀ (s : State) (c n d : Nat), c < 512 → n < 8 → s.rd (pgChn c) (counterFld n) + d < 2 ^ 72 →
    (s.addCounter c n d).rd (pgChn c) (counterFld n) = s.rd (pgChn c) (counterFld n) + d ∧
      (∀ m < 8, m ≠ n → (s.addCounter c n d).rd (pgChn c) (counterFld m) = s.rd (pgChn c) (counterFld m))) ∧
  (∀ (s : State) (c n d : Nat), c < 512 → n < 8 → 2 ^ 72 ≤ s.rd (pgChn c) (counterFld n) + d →
    (s.addCounter c n d).rd (pgChn c) (counterFld n) = 2 ^ 72 - 1 ∧
      (((s.addCounter c n d).rd (pgChn c) R.CHN_INTG_STAT_sat).testBit n = true)) ∧
  (∀ (s : State) (c : Nat), c < 512 → s.rd (pgChn c) R.CHN_MEAS_FLAGS_i_flags = 0 → s.rd (pgChn c) R.CHN_MEAS_FLAGS_v_flags = 0 →
      0 < s.rdS (pgChn c) R.CHN_I_value → 0 < s.rdS (pgChn c) R.CHN_V_value →
      s.rd (pgChn c) R.CHN_Q_IN_value + 2 ^ 36 < 2 ^ 72 → s.rd (pgChn c) R.CHN_E_IN_value + 2 ^ 40 < 2 ^ 72 →
    (s.integrate c).rd (pgChn c) R.CHN_Q_IN_value = s.rd (pgChn c) R.CHN_Q_IN_value + (s.rdS (pgChn c) R.CHN_I_value).natAbs ∧
      (s.integrate c).rd (pgChn c) R.CHN_E_IN_value = s.rd (pgChn c) R.CHN_E_IN_value + (s.rdS (pgChn c) R.CHN_I_value).natAbs * (s.rdS (pgChn c) R.CHN_V_value).natAbs / 2 ^ 34 ∧
      (s.integrate c).rd (pgChn c) R.CHN_Q_OUT_value = s.rd (pgChn c) R.CHN_Q_OUT_value ∧
      (s.integrate c).rd (pgChn c) R.CHN_E_OUT_value = s.rd (pgChn c) R.CHN_E_OUT_value)
/-- R160, R161, R163 to R168, R185: Looper commands. A command that no cause refuses waits; a swap arms the redirect, a cancel disarms it, a jump
enters its target and an abort the fault step in phase C, and a release lets a waiting channel go on, all with result DONE. -/
def Obligations.LooperCommands : Prop :=
  (∀ (s : State) (r : Req) (c : Fin 512) (d : Word), Accepts s r (pgChn c.val) 0x1CC → d.toNat / 2 ^ 27 % 16 = 0 → s.cst c.val = 2 →
      s.rd (pgChn c.val) R.CHN_CFG_src = 0 → s.rd (pgChn c.val) R.CHN_LP_PEND_valid = 1 →
    ∃ t, exec (.lpSwap r c d) s = .next t ∧ t.rd (pgChn c.val) R.CHN_LP_STAT_cmd_result = 1 ∧ (t.ch c.val).redirect = (s.ch c.val).redirect ∧
      (t.ch c.val).lpCmd = some ⟨0, d.toNat / 2 ^ 25 % 4, { at_ := d.toNat.testBit 24, sfc := d.toNat % 16384, frm := s.w }⟩) ∧
  (∀ (s : State) (r : Req) (c : Fin 512) (d : Word), Accepts s r (pgChn c.val) 0x1CC → d.toNat / 2 ^ 27 % 16 = 0 →
      s.cst c.val ≠ 2 ∨ s.rd (pgChn c.val) R.CHN_CFG_src = 1 ∨ s.rd (pgChn c.val) R.CHN_LP_PEND_valid = 0 →
    ∃ t, exec (.lpSwap r c d) s = .next t ∧ t.chans = s.chans ∧ t.rd (pgChn c.val) R.CHN_LP_STAT_cmd_result =
      (if s.cst c.val ≠ 2 then 2 else if s.rd (pgChn c.val) R.CHN_CFG_src = 1 then 6 else 4)) ∧
  (∀ (s : State) (r : Req) (c : Fin 512) (d : Word), Accepts s r (pgChn c.val) 0x1CC → d.toNat / 2 ^ 27 % 16 ≠ 0 →
    ∃ t, exec (.lpSwap r c d) s = .next t ∧ t.chans = s.chans ∧ t.rd (pgChn c.val) R.CHN_LP_STAT_cmd_result = 5) ∧
  (∀ (s : State) (r : Req) (c : Fin 512) (d : Word), Accepts s r (pgChn c.val) 0x1CC → d.toNat / 2 ^ 27 % 4 = 0 → d.toNat / 2 ^ 28 % 2 = 0 →
      d.toNat / 2 ^ 30 = 0 → s.cst c.val = 2 → s.rd (pgChn c.val) R.CHN_CFG_src = 0 → s.rd (pgChn c.val) R.CHN_LP_PEND_valid = 1 →
    ∃ t, exec (.lpJump r c d) s = .next t ∧ t.rd (pgChn c.val) R.CHN_LP_STAT_cmd_result = 1 ∧
      (t.ch c.val).lpCmd = some ⟨2, d.toNat / 2 ^ 25 % 4, { at_ := d.toNat.testBit 24, sfc := d.toNat % 16384, frm := s.w }⟩) ∧
  (∀ (s : State) (r : Req) (c : Fin 512) (d : Word), Accepts s r (pgChn c.val) 0x1CC → d.toNat / 2 ^ 27 % 2 = 0 → d.toNat / 2 ^ 29 = 0 →
      s.cst c.val = 2 → s.rd (pgChn c.val) R.CHN_CFG_src = 0 →
    ∃ t, exec (.lpAbort r c d) s = .next t ∧ t.rd (pgChn c.val) R.CHN_LP_STAT_cmd_result = 1 ∧
      (t.ch c.val).lpCmd = some ⟨3, d.toNat / 2 ^ 25 % 4, { at_ := d.toNat.testBit 24, sfc := d.toNat % 16384, frm := s.w }⟩) ∧
  (∀ (s : State) (r : Req) (c : Fin 512) (d : Word), Accepts s r (pgChn c.val) 0x1CC → d.toNat / 2 ^ 27 % 8 = 0 → d.toNat / 2 ^ 31 = 0 →
    ∃ t, exec (.lpCancel r c d) s = .next t ∧ t.rd (pgChn c.val) R.CHN_LP_STAT_cmd_result = 1 ∧
      (t.ch c.val).lpCmd = some ⟨1, d.toNat / 2 ^ 25 % 4, { at_ := d.toNat.testBit 24, sfc := d.toNat % 16384, frm := s.w }⟩) ∧
  (∀ (s : State) (r : Req) (c : Fin 512) (d : Word), Accepts s r (pgChn c.val) 0x1CC → d.toNat / 2 ^ 28 = 0 →
    ∃ t, exec (.lpRelease r c d) s = .next t ∧
      (s.rd (pgChn c.val) R.CHN_LP_STAT_lp_state = 4 → t.rd (pgChn c.val) R.CHN_LP_STAT_cmd_result = 1 ∧
        (t.ch c.val).lpCmd = some ⟨4, d.toNat / 2 ^ 25 % 4, { at_ := d.toNat.testBit 24, sfc := d.toNat % 16384, frm := s.w }⟩) ∧
      (s.rd (pgChn c.val) R.CHN_LP_STAT_lp_state ≠ 4 → t.rd (pgChn c.val) R.CHN_LP_STAT_cmd_result = 3 ∧ t.chans = s.chans)) ∧
  (∀ (s : State) (c : Fin 512) (a : Nat) (u : Due), (s.ch c.val).lpCmd = some ⟨0, a, u⟩ → u.now (s.w - 1) = true → (s.ch c.val).evalEnd < s.w →
      s.cst c.val = 2 → s.rd (pgChn c.val) R.CHN_CFG_src = 0 → s.rd (pgChn c.val) R.CHN_LP_PEND_valid = 1 →
    ∃ t, exec (.lpCmdTakesEffect c) s = .next t ∧ t.rd (pgChn c.val) R.CHN_LP_STAT_cmd_result = 0 ∧ (t.ch c.val).lpCmd = none ∧
      (s.inRun c.val = false → (t.ch c.val).redirect = some (s.rd (pgChn c.val) R.CHN_LP_PEND_target) ∧
        t.rd (pgChn c.val) R.CHN_LP_STAT_swap_pending = 1)) ∧
  (∀ (s : State) (c : Fin 512) (a : Nat) (u : Due), (s.ch c.val).lpCmd = some ⟨1, a, u⟩ → u.now s.w = true → s.cst c.val ≠ 3 →
    ∃ t, exec (.lpCmdTakesEffect c) s = .next t ∧ t.rd (pgChn c.val) R.CHN_LP_STAT_cmd_result = 0 ∧ (t.ch c.val).lpCmd = none ∧
      (t.ch c.val).redirect = none ∧ t.rd (pgChn c.val) R.CHN_LP_STAT_swap_pending = 0) ∧
  (∀ (s : State) (c : Fin 512) (a : Nat) (u : Due) (n : Fin 16384), (s.ch c.val).lpCmd = some ⟨2, a, u⟩ → u.now (s.w - 1) = true →
      (s.ch c.val).evalEnd < s.w → s.cst c.val = 2 → s.rd (pgChn c.val) R.CHN_CFG_src = 0 → s.rd (pgChn c.val) R.CHN_LP_PEND_valid = 1 →
      s.rd (pgChn c.val) R.CHN_LP_PEND_target = n.val → (s.ch c.val).redirect = none → s.checkStep (s.image n.val) false = 0 →
      imgOp (s.image n.val) = 1 ∨ imgOp (s.image n.val) = 5 →
    ∃ t, exec (.lpCmdTakesEffect c) s = .next t ∧ t.rd (pgChn c.val) R.CHN_LP_STAT_cmd_result = 0 ∧ (t.ch c.val).lpCmd = none ∧
      t.rd (pgChn c.val) R.CHN_LP_PTR_step = n.val ∧ (t.ch c.val).img = s.image n.val ∧ t.rd (pgChn c.val) R.CHN_LP_TIME_value = 0 ∧
      t.rd (pgChn c.val) R.CHN_LP_STAT_lp_state = (if imgOp (s.image n.val) = 5 then 2 else 1) ∧ t.cst c.val = 2 ∧
      (s.inRun c.val = true → t.rd (pgChn c.val) R.CHN_LP_STAT_last_cause = 4)) ∧
  (∀ (s : State) (c : Fin 512) (a : Nat) (u : Due) (n : Fin 16384), (s.ch c.val).lpCmd = some ⟨3, a, u⟩ → u.now (s.w - 1) = true →
      (s.ch c.val).evalEnd < s.w → s.cst c.val = 2 → s.rd (pgChn c.val) R.CHN_CFG_src = 0 → s.rd (pgChn c.val) R.CHN_LP_FAULT_valid = 1 →
      s.rd (pgChn c.val) R.CHN_LP_FAULT_step = n.val → s.checkStep (s.image n.val) false = 0 →
      imgOp (s.image n.val) = 1 ∨ imgOp (s.image n.val) = 5 → s.rd (pgChn c.val) R.CHN_LP_PTR_step < 16384 →
    ∃ t, exec (.lpCmdTakesEffect c) s = .next t ∧ t.rd (pgChn c.val) R.CHN_LP_STAT_cmd_result = 0 ∧ t.cst c.val = 2 ∧
      t.rd (pgChn c.val) R.CHN_LP_PTR_step = n.val ∧ (t.ch c.val).img = s.image n.val ∧ t.rd (pgChn c.val) R.CHN_LP_STAT_err = 9 ∧
      t.rd (pgChn c.val) R.CHN_LP_ERR_err = 9 ∧ t.rd (pgChn c.val) R.CHN_LP_ERR_step = s.rd (pgChn c.val) R.CHN_LP_PTR_step ∧
      (t.rd (pgChn c.val) R.INT_STAT).testBit 7 = true ∧ (t.rd (pgBnk (bankOf c.val)) R.INT_STAT).testBit 21 = true) ∧
  (∀ (s : State) (c : Fin 512) (a : Nat) (u : Due), (s.ch c.val).lpCmd = some ⟨3, a, u⟩ → u.now (s.w - 1) = true →
      (s.ch c.val).evalEnd < s.w → s.cst c.val = 2 → s.rd (pgChn c.val) R.CHN_CFG_src = 0 → s.rd (pgChn c.val) R.CHN_LP_FAULT_valid = 0 →
    ∃ t, exec (.lpCmdTakesEffect c) s = .next t ∧ t.cst c.val = 0 ∧ t.rd (pgChn c.val) R.CHN_LP_STAT_err = 10 ∧
      (t.ch c.val).img = [] ∧ (t.ch c.val).req = 0) ∧
  (∀ (s : State) (c : Fin 512) (a : Nat) (u : Due), (s.ch c.val).lpCmd = some ⟨4, a, u⟩ → u.now s.w = true →
      s.rd (pgChn c.val) R.CHN_LP_STAT_lp_state = 4 → s.rd (pgChn c.val) R.CHN_CFG_src = 0 → (s.ch c.val).img ≠ [] →
      a = 1 ∨ (a = 0 ∧ s.onResume c.val = 0) →
    ∃ t, exec (.lpCmdTakesEffect c) s = .next t ∧ t.rd (pgChn c.val) R.CHN_LP_STAT_cmd_result = 0 ∧ (t.ch c.val).lpCmd = none ∧
      t.cst c.val = 2 ∧ (t.ch c.val).pers = [0, 0, 0, 0] ∧ t.rd (pgChn c.val) R.CHN_LP_STAT_lp_state = (if s.inRun c.val then 1 else 2) ∧
      t.rd (pgChn c.val) R.CHN_LP_TIME_value = s.rd (pgChn c.val) R.CHN_LP_TIME_value ∧ (t.ch c.val).img = (s.ch c.val).img) ∧
  (∀ (s : State) (c : Fin 512) (u : Due) (n : Fin 16384), (s.ch c.val).lpCmd = some ⟨4, 2, u⟩ → u.now s.w = true →
      s.rd (pgChn c.val) R.CHN_LP_STAT_lp_state = 4 → s.rd (pgChn c.val) R.CHN_CFG_src = 0 → s.inRun c.val = true →
      s.rd (pgChn c.val) R.CHN_LP_PTR_step = n.val → s.checkStep (s.image n.val) false = 0 → imgOp (s.image n.val) = 1 →
    ∃ t, exec (.lpCmdTakesEffect c) s = .next t ∧ t.rd (pgChn c.val) R.CHN_LP_STAT_cmd_result = 0 ∧ t.cst c.val = 2 ∧
      t.rd (pgChn c.val) R.CHN_LP_PTR_step = n.val ∧ (t.ch c.val).img = s.image n.val ∧ t.rd (pgChn c.val) R.CHN_LP_TIME_value = 0 ∧
      t.rd (pgChn c.val) R.CHN_LP_STAT_last_cause = 6) ∧
  (∀ (s : State) (c : Fin 512) (n a : Nat) (u : Due), (s.ch c.val).lpCmd = some ⟨n, a, u⟩ → n = 0 ∨ n = 2 ∨ n = 3 → u.now (s.w - 1) = true →
      (s.ch c.val).evalEnd < s.w → s.cst c.val = 3 →
    ∃ t, exec (.lpCmdTakesEffect c) s = .next t ∧ t.rd (pgChn c.val) R.CHN_LP_STAT_cmd_result = 2 ∧ (t.ch c.val).lpCmd = none ∧ t.cst c.val = 3) ∧
  (∀ (s : State) (c : Fin 512) (n a : Nat) (u : Due), (s.ch c.val).lpCmd = some ⟨n, a, u⟩ → u.now (s.w - 1) = false → u.now s.w = false →
    ∃ t, exec (.lpCmdTakesEffect c) s = .next t ∧ t = s.start)

/-- R148 to R153, R157, R158, R163: steps and gates. The entry checks, the instant steps, the conditions with their persistence, the entry of a
program at arm, and the tally that releases a group in the order of its channels. -/
def Obligations.StepsAndGates : Prop :=
  (∀ (s : State) (m : List Nat) (e : Bool), imgOp m = 0 ∨ 5 < imgOp m → s.checkStep m e = 1) ∧
  (∀ (s : State) (m : List Nat) (e : Bool), (imgOp m = 1 ∧ 8 < imgMode m) ∨ (imgOp m = 5 ∧ 2 < imgMode m) → s.checkStep m e = 2) ∧
  (∀ (s : State) (m : List Nat) (e : Bool), s.checkStep m e = 0 → imgW m 0 < 2 ^ 36 →
    bitsOf (imgW m 0) 26 2 ≠ 3 ∧ bitsOf (imgW m 5) 34 2 ≠ 3 ∧ bitsOf (imgW m 0) 14 5 = 0 ∧
      (∀ n < 4, condBad m n = false) ∧ (e = true → imgOp m = 5) ∧ (bitOf (imgW m 0) 25 = true → imgOp m = 1)) ∧
  (∀ (s : State) (c : Nat) (m : List Nat) (v : Nat), imgOp m = 2 → s.rd (pgChn c) (cntFld (bitsOf (imgW m 1) 14 2)) = v → v < 65536 →
    (s.instant c m).2 = (if 0 < v then bitsOf (imgW m 1) 0 14 else bitsOf (imgW m 0) 0 14) ∧
      (s.instant c m).1.rd (pgChn c) (cntFld (bitsOf (imgW m 1) 14 2)) = v - 1) ∧
  (∀ (s : State) (c : Nat) (m : List Nat), imgOp m = 3 →
    (s.instant c m).2 = bitsOf (imgW m 0) 0 14 ∧
      (s.instant c m).1.rd (pgChn c) (cntFld (bitsOf (imgW m 1) 14 2)) = bitsOf (imgW m 1) 16 16) ∧
  (∀ (s : State) (c ix : Nat), s.checkStep (s.image ix) false = 0 → imgOp (s.image ix) = 4 → bitsOf (imgW (s.image ix) 0) 0 14 = ix →
    (State.chain 8 s c ix false).2.1 = 5) ∧
  (∀ (ctl : Nat) (blanked bad : Bool) (x t : Int) (pers : Nat), ctlSel ctl ≠ 0 → selSample (ctlSel ctl) = false →
    condStep ctl blanked bad x t pers =
      (if compare36 (ctlCmp ctl) x t = true then (min (pers + 1) 64, decide (ctlQual ctl < min (pers + 1) 64)) else (0, false))) ∧
  (∀ (ctl : Nat) (blanked bad : Bool) (x t : Int) (pers : Nat), ctlSel ctl ≠ 0 → selSample (ctlSel ctl) = true →
    condStep ctl blanked bad x t pers =
      (if blanked = true then (0, false) else if bad = true then (pers, false)
       else if compare36 (ctlCmp ctl) x t = true then (min (pers + 1) 64, decide (ctlQual ctl < min (pers + 1) 64)) else (0, false))) ∧
  (∀ (s : State) (c : Fin 512) (x : Due) (n : Fin 16384), (s.ch c.val).cmd = some ⟨0, x⟩ → x.now s.w = true → s.cst c.val = 1 →
      s.tripSt (bankOf c.val) = 0 → s.rd (pgChn c.val) (R.CTRL_enable (pgChn c.val)) = 1 → s.linkUp (bankOf c.val) = true →
      s.shadow (pgChn c.val) R.CHN_CFG_src = 0 → s.rd (pgChn c.val) R.CHN_LP_PTR_valid = 1 → s.rd (pgChn c.val) R.CHN_LP_PTR_step = n.val →
      s.checkStep (s.image n.val) false = 0 → imgOp (s.image n.val) = 1 → s.fields.wf = true →
      (∀ e ∈ s.shadows (pgChn c.val), e.1 ≠ R.CHN_LP_PTR_step.key (pgChn c.val)) →
    ∃ t, exec (.chnCmdTakesEffect c) s = .next t ∧ t.cst c.val = 2 ∧ t.rd (pgChn c.val) R.CHN_STAT_cmd_result = 0 ∧
      (t.ch c.val).img = s.image n.val ∧ t.rd (pgChn c.val) R.CHN_LP_PTR_step = n.val ∧ t.rd (pgChn c.val) R.CHN_LP_TIME_value = 0 ∧
      t.rd (pgChn c.val) R.CHN_LP_STAT_lp_state = 1 ∧ t.rd (pgChn c.val) R.CHN_SQ_IN_value = 0 ∧ (t.ch c.val).cnt = imgTa (s.image n.val)) ∧
  (∀ (s : State) (g : Nat), g < 64 → s.tally < s.cEnded → s.fields.wf = true → s.rd pgStp (R.STP_GATE_CFG_en g) = 1 →
      s.rd pgStp (R.STP_GATE_CFG_manual g) = 0 → s.waiting g ≠ [] → s.rd pgStp (R.STP_GATE_CFG_expected g) ≤ (s.waiting g).length →
    ∃ t, exec .gateTally s = .next t ∧ t.tally = s.cEnded ∧
      t.rd pgStp (R.STP_GATE_STAT_gen g) = (s.rd pgStp (R.STP_GATE_STAT_gen g) + 1) % 2 ^ 16 ∧
      t.rd pgStp (R.STP_GATE_STAT_count g) = (s.waiting g).length ∧
      (∀ i < 512, ∀ c, (s.waiting g)[i]? = some c → (t.ch c).openAt = some (s.cEnded +
        (if s.rd pgStp (R.STP_GATE_CFG_batch g) = 0 ∨ 512 ≤ s.rd pgStp (R.STP_GATE_CFG_batch g) then 0
         else s.rd pgStp (R.STP_GATE_CFG_spacing g) * (i / s.rd pgStp (R.STP_GATE_CFG_batch g)))))) ∧
  (∀ (s : State) (g : Nat), g < 64 → s.tally < s.cEnded → s.fields.wf = true →
      (∀ e ∈ s.gateRel, e.1 = g → e.2.now (s.cEnded - 1) = false) →
      s.rd pgStp (R.STP_GATE_CFG_en g) = 0 ∨ s.rd pgStp (R.STP_GATE_CFG_manual g) = 1 ∨ s.waiting g = [] ∨
        (s.waiting g).length < s.rd pgStp (R.STP_GATE_CFG_expected g) →
    ∃ t, exec .gateTally s = .next t ∧ t.tally = s.cEnded ∧
      t.rd pgStp (R.STP_GATE_STAT_gen g) = s.rd pgStp (R.STP_GATE_STAT_gen g) ∧
      t.rd pgStp (R.STP_GATE_STAT_count g) = (s.waiting g).length ∧ (∀ c ∈ s.waiting g, (t.ch c).openAt = (s.ch c).openAt)) ∧
  (∀ (s : State) (g : Nat) (u : Due), g < 64 → s.tally < s.cEnded → s.fields.wf = true → (g, u) ∈ s.gateRel → u.now (s.cEnded - 1) = true →
      s.rd pgStp (R.STP_GATE_CFG_en g) = 1 →
    ∃ t, exec .gateTally s = .next t ∧ t.rd pgStp (R.STP_GATE_STAT_gen g) = (s.rd pgStp (R.STP_GATE_STAT_gen g) + 1) % 2 ^ 16 ∧
      (t.rd pgStp R.INT_STAT).testBit 2 = true ∧ (∀ e ∈ t.gateRel, e.1 ≠ g)) ∧
  (∀ (s : State), s.cEnded ≤ s.tally → ∃ t, exec .gateTally s = .next t ∧ t = s.start) ∧
  (∀ (s : State) (r : Req) (d : Word), Accepts s r pgStp 0x02C →
    ∃ t, exec (.gateReleaseCmd r d) s = .next t ∧ t.gateRel.get {} (d.toNat / 2 ^ 16 % 64) = { at_ := d.toNat.testBit 24, sfc := d.toNat % 16384, frm := s.w } ∧
      (∀ g, g ≠ d.toNat / 2 ^ 16 % 64 → t.gateRel.get {} g = s.gateRel.get {} g) ∧ t.chans = s.chans)
/-- R176, R179, R181 to R191: trips. A bank or channel clear waits for its superframe and is judged there: link, state and presence in this
order; a success leaves the trip and takes the channels without a latch of their own out of TRIPPED with clear_act. TRP_FORCE trips with cause
FORCE, an ACTIVE bank latches after hold_sf superframes without a trip-bit cause, and an unmatched comparator set is counted. -/
def Obligations.Trips : Prop :=
  (∀ (s : State) (r : Req) (b : Fin 32) (d : Word), Accepts s r (pgBnk b.val) 0x0F4 → d.toNat / 2 ^ 27 % 4 = 0 →
    ∃ t, exec (.bankTripClear r b d) s = .next t ∧ t.rd (pgBnk b.val) R.BNK_TRIP_STAT_clear_result = 1 ∧
      (t.bk b.val).bclr = some ⟨d.toNat / 2 ^ 29 % 4, { at_ := d.toNat.testBit 24, sfc := d.toNat % 16384, frm := s.w }⟩ ∧
      t.tripSt b.val = s.tripSt b.val ∧ t.rd (pgBnk b.val) R.BNK_TRIP_STAT_cause = s.rd (pgBnk b.val) R.BNK_TRIP_STAT_cause) ∧
  (∀ (s : State) (r : Req) (b : Fin 32) (d : Word), Accepts s r (pgBnk b.val) 0x0F4 → d.toNat / 2 ^ 27 % 4 ≠ 0 →
    ∃ t, exec (.bankTripClear r b d) s = .next t ∧ t.rd (pgBnk b.val) R.BNK_TRIP_STAT_clear_result = 5 ∧ t.banks = s.banks) ∧
  (∀ (s : State) (r : Req) (b : Fin 32) (d : Word), Accepts s r (pgBnk b.val) 0x0F4 → d.toNat / 2 ^ 31 = 0 → d.toNat / 2 ^ 27 % 2 = 0 →
    ∃ t, exec (.tripTestA r b d) s = .next t ∧
      (s.bankArmed b.val = false → s.linkUp b.val = true →
        t.rd (pgBnk b.val) R.BNK_TRIP_STAT_clear_result = 1 ∧ (t.bk b.val).test = 1 ∧ t.tripSt b.val = s.tripSt b.val) ∧
      (s.bankArmed b.val = true → t.rd (pgBnk b.val) R.BNK_TRIP_STAT_clear_result = 5 ∧ t.banks = s.banks) ∧
      (s.bankArmed b.val = false → s.linkUp b.val = false →
        t.rd (pgBnk b.val) R.BNK_TRIP_STAT_clear_result = 4 ∧ t.banks = s.banks)) ∧
  (∀ (s : State) (r : Req) (b : Fin 32) (d : Word), Accepts s r (pgBnk b.val) 0x0F4 → d.toNat / 2 ^ 31 = 0 → d.toNat / 2 ^ 28 % 2 = 0 →
    ∃ t, exec (.tripTestB r b d) s = .next t ∧
      (s.bankArmed b.val = false → s.linkUp b.val = true →
        t.rd (pgBnk b.val) R.BNK_TRIP_STAT_clear_result = 1 ∧ (t.bk b.val).test = 2 ∧ t.tripSt b.val = s.tripSt b.val) ∧
      (s.bankArmed b.val = true → t.rd (pgBnk b.val) R.BNK_TRIP_STAT_clear_result = 5 ∧ t.banks = s.banks) ∧
      (s.bankArmed b.val = false → s.linkUp b.val = false →
        t.rd (pgBnk b.val) R.BNK_TRIP_STAT_clear_result = 4 ∧ t.banks = s.banks)) ∧
  (∀ (s : State) (r : Req) (c : Fin 512) (d : Word), Accepts s r (pgChn c.val) 0x208 →
    ∃ t, exec (.chnTripClear r c d) s = .next t ∧ t.rd (pgChn c.val) R.CHN_TRIP_STAT_clear_result = 1 ∧
      (t.ch c.val).clr = some ⟨d.toNat / 2 ^ 29 % 4, { at_ := d.toNat.testBit 24, sfc := d.toNat % 16384, frm := s.w }⟩ ∧
      t.cst c.val = s.cst c.val ∧ t.rd (pgChn c.val) R.CHN_TRIP_STAT_chan_latch = s.rd (pgChn c.val) R.CHN_TRIP_STAT_chan_latch) ∧
  (∀ (s : State) (b : Fin 32) (x : Clear), (s.bk b.val).bclr = some x → x.due.now s.w = true → (s.bk b.val).holdAt = none →
      (∀ c ∈ chansOf b.val, (s.ch c).clr = none) → s.linkUp b.val = false ∨ s.tripSt b.val = 0 ∨ s.tripSt b.val = 1 →
    ∃ t, exec (.tripClearTakesEffect b) s = .next t ∧ (t.bk b.val).bclr = none ∧ t.tripSt b.val = s.tripSt b.val ∧
      t.rd (pgBnk b.val) R.BNK_TRIP_STAT_cause = s.rd (pgBnk b.val) R.BNK_TRIP_STAT_cause ∧ (∀ c ∈ chansOf b.val, t.cst c = s.cst c) ∧
      t.rd (pgBnk b.val) R.BNK_TRIP_STAT_clear_result = (if s.linkUp b.val = false then 4 else if s.tripSt b.val = 0 then 3 else 2)) ∧
  (∀ (s : State) (b : Fin 32) (x : Clear), (s.bk b.val).bclr = some x → x.due.now s.w = true → (s.bk b.val).holdAt = none →
      (∀ c ∈ chansOf b.val, (s.ch c).clr = none) → s.linkUp b.val = true → s.tripSt b.val = 2 →
      s.rd pgTrp R.TRP_TEMP_temp_hi ≤ (s.bk b.val).wstat / 2 ^ 16 % 2 ^ 8 ∨ (s.bk b.val).lastAny = some s.w →
    ∃ t, exec (.tripClearTakesEffect b) s = .next t ∧ t.rd (pgBnk b.val) R.BNK_TRIP_STAT_clear_result = 2 ∧ t.tripSt b.val = 2 ∧
      (t.bk b.val).bclr = none ∧ (∀ c ∈ chansOf b.val, t.cst c = s.cst c)) ∧
  (∀ (s : State) (b : Fin 32) (x : Clear), (s.bk b.val).bclr = some x → x.due.now s.w = true → (s.bk b.val).holdAt = none →
      (∀ c ∈ chansOf b.val, (s.ch c).clr = none) → s.linkUp b.val = true → s.tripSt b.val = 2 →
      (s.bk b.val).wstat / 2 ^ 16 % 2 ^ 8 < s.rd pgTrp R.TRP_TEMP_temp_hi → (s.bk b.val).wstat / 2 ^ 16 % 2 ^ 8 < s.rd pgTrp R.TRP_TEMP_temp_rel →
      (s.bk b.val).lastAny = none →
    ∃ t, exec (.tripClearTakesEffect b) s = .next t ∧ t.rd (pgBnk b.val) R.BNK_TRIP_STAT_clear_result = 0 ∧ t.tripSt b.val = 0 ∧
      (t.bk b.val).bclr = none ∧ (t.rd (pgBnk b.val) R.INT_STAT).testBit 23 = true ∧
      (∀ f ∈ [R.BNK_TRIP_STAT_cause, R.BNK_TRIP_STAT_origin_valid, R.BNK_TRIP_STAT_origin, R.BNK_TRIP_STAT_set_a, R.BNK_TRIP_STAT_set_b],
        t.rd (pgBnk b.val) f = 0) ∧
      (∀ c ∈ chansOf b.val, t.rd (pgChn c) R.CHN_TRIP_STAT_bank_held = 0 ∧
        (s.rd (pgChn c) R.CHN_TRIP_STAT_bank_held = 0 → t.cst c = s.cst c) ∧
        (s.rd (pgChn c) R.CHN_TRIP_STAT_bank_held = 1 → s.rd (pgChn c) R.CHN_TRIP_STAT_chan_latch = 1 → t.cst c = s.cst c) ∧
        (s.rd (pgChn c) R.CHN_TRIP_STAT_bank_held = 1 → s.rd (pgChn c) R.CHN_TRIP_STAT_chan_latch = 0 → (s.ch c).cmd = none →
          (x.act = 1 → t.cst c = 2) ∧ (x.act = 0 → t.cst c = 0) ∧ (t.rd (pgChn c) R.INT_STAT).testBit 12 = true))) ∧
  (∀ (s : State) (c : Fin 512) (x : Clear), (s.ch c.val).clr = some x → x.due.now s.w = true → (s.bk (bankOf c.val)).holdAt = none →
      (s.bk (bankOf c.val)).bclr = none → (∀ e ∈ chansOf (bankOf c.val), e ≠ c.val → (s.ch e).clr = none) →
      s.linkUp (bankOf c.val) = false ∨ s.rd (pgChn c.val) R.CHN_TRIP_STAT_chan_latch = 0 ∨ s.slowPresent c.val = true →
    ∃ t, exec (.tripClearTakesEffect ⟨bankOf c.val, by have := c.isLt; simp only [bankOf]; omega⟩) s = .next t ∧ (t.ch c.val).clr = none ∧
      t.rd (pgChn c.val) R.CHN_TRIP_STAT_chan_latch = s.rd (pgChn c.val) R.CHN_TRIP_STAT_chan_latch ∧ t.cst c.val = s.cst c.val ∧
      t.rd (pgChn c.val) R.CHN_TRIP_STAT_clear_result =
        (if s.linkUp (bankOf c.val) = false then 4 else if s.rd (pgChn c.val) R.CHN_TRIP_STAT_chan_latch = 0 then 3 else 2)) ∧
  (∀ (s : State) (c : Fin 512) (x : Clear), (s.ch c.val).clr = some x → x.due.now s.w = true → (s.bk (bankOf c.val)).holdAt = none →
      (s.bk (bankOf c.val)).bclr = none → (∀ e ∈ chansOf (bankOf c.val), e ≠ c.val → (s.ch e).clr = none) →
      s.linkUp (bankOf c.val) = true → s.rd (pgChn c.val) R.CHN_TRIP_STAT_chan_latch = 1 → s.slowPresent c.val = false →
    ∃ t, exec (.tripClearTakesEffect ⟨bankOf c.val, by have := c.isLt; simp only [bankOf]; omega⟩) s = .next t ∧ (t.ch c.val).clr = none ∧
      t.rd (pgChn c.val) R.CHN_TRIP_STAT_clear_result = 0 ∧ t.rd (pgChn c.val) R.CHN_TRIP_STAT_chan_latch = 0 ∧
      t.rd (pgChn c.val) R.CHN_TRIP_STAT_cause = 0 ∧ (t.rd (pgBnk (bankOf c.val)) R.INT_STAT).testBit 23 = true ∧
      (s.rd (pgChn c.val) R.CHN_TRIP_STAT_bank_held = 1 → t.cst c.val = s.cst c.val) ∧
      (s.rd (pgChn c.val) R.CHN_TRIP_STAT_bank_held = 0 → (s.ch c.val).cmd = none →
        (x.act = 1 → t.cst c.val = 2) ∧ (x.act = 0 → t.cst c.val = 0) ∧ (t.rd (pgChn c.val) R.INT_STAT).testBit 12 = true)) ∧
  (∀ (s : State) (r : Req) (d : Word) (b : Fin 32), Accepts s r pgTrp 0x064 → d.toNat.testBit b.val = true → s.domOn (domOfBank b.val) = true →
    ∃ t, exec (.tripForce r d) s = .next t ∧ t.tripSt b.val = 1 ∧ t.rd (pgBnk b.val) R.BNK_TRIP_STAT_trip_bit =
        (if s.tripSt b.val = 1 then s.rd (pgBnk b.val) R.BNK_TRIP_STAT_trip_bit else 1) ∧
      t.rd (pgBnk b.val) R.BNK_TRIP_COUNT_count = min (s.rd (pgBnk b.val) R.BNK_TRIP_COUNT_count + 1) (2 ^ 32 - 1) ∧
      (t.bk b.val).lastBit = max (s.bk b.val).lastBit s.k ∧
      (s.tripSt b.val = 0 → t.rd (pgBnk b.val) R.BNK_TRIP_STAT_cause = 0x0F ∧ t.rd (pgBnk b.val) R.BNK_TRIP_STAT_set_a = 0 ∧
        t.rd (pgBnk b.val) R.BNK_TRIP_STAT_set_b = 0 ∧ t.rd (pgBnk b.val) R.BNK_TRIP_STAT_origin_valid = 0 ∧ (t.bk b.val).holdAt = some s.k ∧
        (t.rd pgTrp R.INT_STAT).testBit 0 = true ∧ (t.rd (pgBnk b.val) R.INT_STAT).testBit 22 = true) ∧
      (s.tripSt b.val ≠ 0 → t.rd (pgBnk b.val) R.BNK_TRIP_STAT_cause = s.rd (pgBnk b.val) R.BNK_TRIP_STAT_cause)) ∧
  (∀ (s : State) (r : Req) (d : Word) (b : Fin 32), Accepts s r pgTrp 0x064 → d.toNat.testBit b.val = false →
    ∃ t, exec (.tripForce r d) s = .next t ∧ t.tripSt b.val = s.tripSt b.val ∧ t.bk b.val = s.bk b.val) ∧
  (∀ (s : State) (b : Fin 32), (s.bk b.val).linkC = false → s.tripSt b.val = 1 →
      (s.bk b.val).lastBit + 1 + max 1 (s.rd pgTrp R.TRP_CFG_hold_sf) ≤ s.k →
    ∃ t, exec (.tripHoldExpiry b) s = .next t ∧ t.tripSt b.val = 2 ∧ t.rd (pgBnk b.val) R.BNK_TRIP_STAT_trip_bit = 0 ∧
      t.rd (pgBnk b.val) R.BNK_TRIP_STAT_cause = s.rd (pgBnk b.val) R.BNK_TRIP_STAT_cause) ∧
  (∀ (s : State) (b : Fin 32), (s.bk b.val).linkC = false → s.k < (s.bk b.val).lastBit + 1 + max 1 (s.rd pgTrp R.TRP_CFG_hold_sf) →
    ∃ t, exec (.tripHoldExpiry b) s = .next t ∧ t = s.start) ∧
  (∀ (s : State) (b : Fin 32), (s.bk b.val).linkC = true → s.linkUp b.val = false →
    ∃ t, exec (.tripHoldExpiry b) s = .next t ∧ t.tripSt b.val = s.tripSt b.val ∧ (t.bk b.val).lastBit = max (s.bk b.val).lastBit (s.k - 1)) ∧
  (∀ (s : State) (b : Fin 32), (s.bk b.val).dis = true →
    ∃ t, exec (.tripDisagreeWindow b) s = .next t ∧ (t.bk b.val).dis = false ∧ t.tripSt b.val = s.tripSt b.val ∧
      t.rd pgTrp R.TRP_DISAGREE_count = min (s.rd pgTrp R.TRP_DISAGREE_count + 1) (2 ^ 32 - 1) ∧ (t.rd pgTrp R.INT_STAT).testBit 2 = true ∧
      t.rd (pgBnk b.val) R.BNK_TRIP_STAT_disagree = 1 ∧ (t.rd (pgBnk b.val) R.INT_STAT).testBit 24 = true) ∧
  (∀ (s : State) (b : Fin 32), (s.bk b.val).dis = false → ∃ t, exec (.tripDisagreeWindow b) s = .next t ∧ t = s.start)
/-- R192, R193, R197 to R199, R202, R203: the bus ledger. Its settings are written into shadows: an apply waits for its superframe and puts all
of them into force, a discard drops them. The ledger work of a superframe grants every channel of a powered bank a word that differs from the
request in a smaller demand of the same sign at most; without STP_LDG_CFG.en every grant is its request, and no forced start is delayed. -/
def Obligations.Ledger : Prop :=
  (∀ (s : State) (r : Req) (d : Word), Accepts s r pgStp 0x044 → d.toNat / 2 ^ 30 % 2 = 0 →
    ∃ t, exec (.ldgApply r d) s = .next t ∧ t.rd pgStp R.STP_LDG_STAT_cmd_result = 1 ∧ t.rd pgStp R.STP_LDG_STAT_pending = 1 ∧
      t.ldgCmd = some { at_ := d.toNat.testBit 24, sfc := d.toNat % 16384, frm := s.led } ∧
      (∀ f ∈ [R.STP_LDG_CFG_en, R.STP_LDG_IMP_MAX_value, R.STP_LDG_EFF_eff_chg 3, R.STP_LDG_OVH_ovh_mw 31], t.rd pgStp f = s.rd pgStp f)) ∧
  (∀ (s : State) (r : Req) (d : Word), Accepts s r pgStp 0x044 → d.toNat / 2 ^ 30 % 2 = 1 →
    ∃ t, exec (.ldgApply r d) s = .next t ∧ t.rd pgStp R.STP_LDG_STAT_cmd_result = 7 ∧ t.ldgCmd = s.ldgCmd) ∧
  (∀ (s : State) (r : Req) (d : Word), Accepts s r pgStp 0x044 → d.toNat / 2 ^ 31 = 0 →
    ∃ t, exec (.ldgDiscard r d) s = .next t ∧ t.rd pgStp R.STP_LDG_STAT_cmd_result = 0 ∧ t.ldgCmd = s.ldgCmd ∧
      (∀ f ∈ [R.STP_LDG_CFG_en, R.STP_LDG_CFG_start_en, R.STP_LDG_CFG_max_delay, R.STP_LDG_IMP_MAX_value, R.STP_LDG_EXP_MAX_value,
          R.STP_LDG_BUD_IMP_value, R.STP_LDG_BUD_EXP_value, R.STP_LDG_EFF_eff_dis 7, R.STP_LDG_OVH_ovh_mw 31],
        t.rd pgStp f = s.rd pgStp f ∧ t.shadow pgStp f = s.rd pgStp f)) ∧
  (∀ (s : State) (x : Due), s.ldgCmd = some x → x.now s.led = true → s.fields.wf = true →
    ∃ t, exec .ldgApplyTakesEffect s = .next t ∧ t.ldgCmd = none ∧ t.rd pgStp R.STP_LDG_STAT_cmd_result = 0 ∧
      t.rd pgStp R.STP_LDG_STAT_pending = 0 ∧ (t.rd pgStp R.INT_STAT).testBit 6 = true ∧
      (∀ f ∈ [R.STP_LDG_CFG_en, R.STP_LDG_CFG_start_en, R.STP_LDG_CFG_max_delay, R.STP_LDG_IMP_MAX_value, R.STP_LDG_EXP_MAX_value,
          R.STP_LDG_BUD_IMP_value, R.STP_LDG_BUD_EXP_value, R.STP_LDG_EFF_eff_dis 7, R.STP_LDG_OVH_ovh_mw 31],
        t.rd pgStp f = s.shadow pgStp f ∧ t.shadow pgStp f = s.shadow pgStp f)) ∧
  (∀ (s : State), s.ldgCmd = none ∨ (∃ x, s.ldgCmd = some x ∧ x.now s.led = false) →
    ∃ t, exec .ldgApplyTakesEffect s = .next t ∧ t = s.start) ∧
  (∀ (s : State) (b i : Nat), s.led < s.cEnded → b ∈ s.liveBanks → i < 16 → s.k ≤ s.w →
    ∃ t, exec .ledgerWork s = .next t ∧
      (let c := 16 * b + i;
       let q := (s.ch c).req;
       let g := t.rd (pgChn c) R.CHN_LDG_GRANT_value;
       g % 2 ^ 16 = q % 2 ^ 16 ∧ (wordMode q ≠ 1 → g = q % 2 ^ 36) ∧
       (wordMode q = 1 → (wordD g).natAbs ≤ (wordD q).natAbs ∧ (wordD g = 0 ∨ sgn (wordD g) = sgn (wordD q)) ∧
         (t.ch c).prevD = wordD g) ∧
       (wordMode q ≠ 1 → (t.ch c).prevD = 0) ∧ (t.ch c).req = q ∧
       (t.rd (pgChn c) R.CHN_STAT_granted_less = 0 → g = q % 2 ^ 36) ∧
       (s.rd (pgChn c) R.CHN_LDG_CFG_class = 0 → t.rd (pgChn c) R.CHN_LDG_STAT_delayed = 0))) ∧
  (∀ (s : State) (b i : Nat), s.led < s.cEnded → b ∈ s.liveBanks → i < 16 → s.k ≤ s.w → s.ldgCmd = none → s.rd pgStp R.STP_LDG_CFG_en = 0 →
    ∃ t, exec .ledgerWork s = .next t ∧
      (let c := 16 * b + i;
       t.rd (pgChn c) R.CHN_LDG_GRANT_value = (s.ch c).req % 2 ^ 36 ∧ t.rd (pgChn c) R.CHN_STAT_granted_less = 0 ∧
       t.rd (pgChn c) R.CHN_LDG_STAT_delay = 0 ∧ t.rd (pgChn c) R.CHN_LDG_STAT_delayed = 0 ∧ t.rd (pgChn c) R.CHN_LDG_STAT_clipped = 0 ∧
       t.rd pgStp R.STP_LDG_PRED_value = t.rd pgStp R.STP_LDG_PRED_REQ_value ∧ t.rd pgStp R.STP_LDG_STAT_clipping = 0 ∧
       t.rd pgStp R.STP_LDG_SFC_sfc = (s.cEnded - 1) % 2 ^ 32)) ∧
  (∀ (s : State) (b i : Nat), s.led < s.cEnded → b ∈ s.liveBanks → i < 16 → s.k ≤ s.w → s.ldgCmd = none →
      s.rd pgStp R.STP_LDG_CFG_start_en = 0 ∨ s.rd pgStp R.STP_LDG_CFG_max_delay = 0 →
    ∃ t, exec .ledgerWork s = .next t ∧ t.rd (pgChn (16 * b + i)) R.CHN_LDG_STAT_delayed = 0)
/-- R204 to R208, R212, R215 to R219: grading records. A record opens at a RUN entry with what the staging registers hold, takes the step-end
events of its channel, is sealed by a SEAL entry, a command or a disarm with the next sequence, waits for the output slot, and is signed with
slot 1 in the order of the sequence, or leaves with zeros where the sign fails. -/
def Obligations.Grading : Prop :=
  (∀ (s : State) (r : Req) (d : Word), Accepts s r pgGrd 0x0A4 → d.toNat / 2 ^ 29 % 4 = 0 →
    ∃ t, exec (.grdOpen r d) s = .next t ∧
      (t.gr (s.rd pgGrd R.GRD_CH_SEL_channel)) = { s.gr (s.rd pgGrd R.GRD_CH_SEL_channel) with opening := true }) ∧
  (∀ (s : State) (r : Req) (d : Word), Accepts s r pgGrd 0x0A4 → d.toNat / 2 ^ 31 = 0 → d.toNat / 2 ^ 29 % 2 = 0 →
    ∃ t, exec (.grdSeal r d) s = .next t ∧
      (t.gr (s.rd pgGrd R.GRD_CH_SEL_channel)) = { s.gr (s.rd pgGrd R.GRD_CH_SEL_channel) with sealAt := some (s.k + 1) }) ∧
  (∀ (s : State) (r : Req) (d : Word), Accepts s r pgGrd 0x0A4 → d.toNat / 2 ^ 30 = 0 →
    ∃ t, exec (.grdDiscard r d) s = .next t ∧ t.rd pgGrd R.GRD_SEQ_seq = s.rd pgGrd R.GRD_SEQ_seq ∧
      (t.gr (s.rd pgGrd R.GRD_CH_SEL_channel)) = { s.gr (s.rd pgGrd R.GRD_CH_SEL_channel) with opn := none, sealAt := none }) ∧
  (∀ (s : State) (e : Entry) (rest : List GrdMsg), s.grdIn = .entry e :: rest → (s.gr e.chan).wait = none → (s.gr e.chan).opn = none →
      e.opcode = 1 → s.rd pgGrd R.GRD_CFG_auto_open = 1 ∨ (s.gr e.chan).opening = true →
    ∃ t, exec .grdEntryNotice s = .next t ∧ t.grdIn = rest ∧ (t.gr e.chan).opening = false ∧ (t.gr e.chan).role = e.role ∧
      (t.gr e.chan).tRole = e.t ∧ (t.gr e.chan).out = (s.gr e.chan).out ∧
      (t.gr e.chan).opn = some { tStart := e.t, cellId := (List.range 4).map (fun n => s.rd (iGrd e.chan) (R.GRD_CELLID_cell_id n)), recipe := s.rd (iGrd e.chan) R.GRD_RECIPE_recipe, host := (List.range 8).map (fun n => s.rd (iGrd e.chan) (R.GRD_HOSTDATA_data n)), ident := (s.bk (bankOf e.chan)).ident }) ∧
  (∀ (s : State) (e : Entry) (rest : List GrdMsg), s.grdIn = .entry e :: rest → (s.gr e.chan).wait = none → e.opcode ≠ 5 →
      e.opcode ≠ 1 ∨ (s.gr e.chan).opn ≠ none ∨ (s.rd pgGrd R.GRD_CFG_auto_open = 0 ∧ (s.gr e.chan).opening = false) →
    ∃ t, exec .grdEntryNotice s = .next t ∧ t.grdIn = rest ∧ (t.gr e.chan).opn = (s.gr e.chan).opn ∧ (t.gr e.chan).role = e.role ∧
      t.fields = s.fields) ∧
  (∀ (s : State) (e : Entry) (rest : List GrdMsg) (x : GrdRec), s.grdIn = .entry e :: rest → (s.gr e.chan).wait = none → e.opcode = 5 →
      (s.gr e.chan).opn = some x →
    ∃ t, exec .grdEntryNotice s = .next t ∧ t.grdIn = rest ∧ (t.gr e.chan).opn = none ∧
      t.rd pgGrd R.GRD_SEQ_seq = (s.rd pgGrd R.GRD_SEQ_seq + 1) % 2 ^ 32 ∧ (t.rd pgGrd R.INT_STAT).testBit 0 = true ∧
      (let o : GrdOut := { seq := s.rd pgGrd R.GRD_SEQ_seq, body := s.cellRecord e.chan { x with status := x.status ||| 32 * b2n (s.rdB (pgChn e.chan) R.CHN_INTG_STAT_scale_chg) } e.code e.tPrev (s.rd pgGrd R.GRD_SEQ_seq) };
       ((s.gr e.chan).out = none → (t.gr e.chan).out = some o ∧ (t.gr e.chan).wait = none) ∧
       (∀ o', (s.gr e.chan).out = some o' →
         (t.gr e.chan).out = some o' ∧ (t.gr e.chan).wait = some o ∧ (t.rd pgGrd R.INT_STAT).testBit 3 = true))) ∧
  (∀ (s : State) (e : Entry) (rest : List GrdMsg), s.grdIn = .entry e :: rest → (s.gr e.chan).wait ≠ none →
    ∃ t, exec .grdEntryNotice s = .next t ∧ t.grdIn = rest ∧ (t.gr e.chan).opn = (s.gr e.chan).opn ∧
      (t.gr e.chan).wait = (s.gr e.chan).wait ∧ t.rd pgGrd R.GRD_BLOCKED_count = min (s.rd pgGrd R.GRD_BLOCKED_count + 1) (2 ^ 32 - 1)) ∧
  (∀ (s : State) (e : StepEnd) (rest : List GrdMsg) (x : GrdRec), s.grdIn = .stepEnd e :: rest → (s.gr e.chan).wait = none →
      (s.gr e.chan).opn = some x → e.cause ≠ 7 →
    ∃ t, exec .grdStepEnd s = .next t ∧ t.grdIn = rest ∧ (t.gr e.chan).next = some ((e.seq + 1) % 2 ^ 32) ∧
      ∃ y, (t.gr e.chan).opn = some y ∧ y.nSteps = x.nSteps + 1 ∧ y.tStart = x.tStart ∧ y.cellId = x.cellId ∧
        (e.role = 1 → y.qChg = x.qChg + e.sqIn ∧ y.eChg = x.eChg + e.seIn ∧ y.qDis = x.qDis) ∧
        (e.role = 2 → y.qDis = x.qDis + e.sqOut ∧ y.eDis = x.eDis + e.seOut ∧ y.qChg = x.qChg) ∧
        (e.role = 0 → y.qChg = x.qChg ∧ y.qDis = x.qDis ∧ y.roles = x.roles) ∧
        (e.err ≠ 0 → y.err = e.err) ∧ (e.err = 0 → y.err = x.err) ∧
        (∀ n, (s.gr e.chan).next = some n → n ≠ e.seq → y.status.testBit 3 = true)) ∧
  (∀ (s : State) (e : StepEnd) (rest : List GrdMsg) (x : GrdRec), s.grdIn = .stepEnd e :: rest → (s.gr e.chan).wait = none →
      (s.gr e.chan).out = none → (s.gr e.chan).opn = some x → e.cause = 7 →
    ∃ t, exec .grdStepEnd s = .next t ∧ t.grdIn = rest ∧ (t.gr e.chan).opn = none ∧
      ((t.gr e.chan).out.map GrdOut.seq) = some (s.rd pgGrd R.GRD_SEQ_seq) ∧ t.rd pgGrd R.GRD_SEQ_seq = (s.rd pgGrd R.GRD_SEQ_seq + 1) % 2 ^ 32) ∧
  (∀ (s : State) (e : StepEnd) (rest : List GrdMsg), s.grdIn = .stepEnd e :: rest → (s.gr e.chan).wait = none → (s.gr e.chan).opn = none →
    ∃ t, exec .grdStepEnd s = .next t ∧ t.grdIn = rest ∧ (t.gr e.chan).opn = none ∧ t.fields = s.fields) ∧
  (∀ (s : State) (c : Fin 512) (n : Nat) (x : GrdRec), (s.gr c.val).sealAt = some n → n ≤ s.k → (s.gr c.val).opn = some x →
      (s.gr c.val).out = none →
    ∃ t, exec (.grdSealTakesEffect c) s = .next t ∧ (t.gr c.val).opn = none ∧ (t.gr c.val).sealAt = none ∧
      t.rd pgGrd R.GRD_SEQ_seq = (s.rd pgGrd R.GRD_SEQ_seq + 1) % 2 ^ 32 ∧ (t.rd pgGrd R.INT_STAT).testBit 0 = true ∧
      (t.gr c.val).out = some { seq := s.rd pgGrd R.GRD_SEQ_seq, body := s.cellRecord c.val { x with status := x.status ||| 1 ||| 32 * b2n (s.rdB (pgChn c.val) R.CHN_INTG_STAT_scale_chg) } 0 (s.stampSf (bankOf c.val) s.k) (s.rd pgGrd R.GRD_SEQ_seq) }) ∧
  (∀ (s : State) (c : Fin 512), (s.gr c.val).sealAt = none ∨ (∃ n, (s.gr c.val).sealAt = some n ∧ s.k < n) →
    ∃ t, exec (.grdSealTakesEffect c) s = .next t ∧ t = s.start) ∧
  (∀ (s : State) (c : Fin 512) (x : GrdRec), (s.gr c.val).role = 4 → s.inRun c.val = true → (s.gr c.val).ocvN ≠ 0 → (s.gr c.val).opn = some x →
    ∃ t, exec (.grdOcvPoint c) s = .next t ∧ (t.gr c.val).ocvN = 0 ∧ (t.gr c.val).ocvSum = 0 ∧
      ∃ y, (t.gr c.val).opn = some y ∧ y.nOcv = x.nOcv + 1 ∧ y.qChg = x.qChg ∧ (∀ p, x.ocvFrom = some p → y.ocvFrom = some p) ∧
        y.ocvTo = some (uvInt (s.bk (bankOf c.val)).ident (rnd (s.gr c.val).ocvSum ((s.gr c.val).ocvN : Nat)), s.stampSf (bankOf c.val) (s.w - 1))) ∧
  (∀ (s : State) (c : Fin 512), (s.gr c.val).role ≠ 4 ∨ s.inRun c.val = false ∨ (s.gr c.val).ocvN = 0 →
    ∃ t, exec (.grdOcvPoint c) s = .next t ∧ t = s.start) ∧
  (∀ (s : State) (c : Nat) (o : GrdOut), s.grdNext = some c → (s.gr c).out = some o → s.slotCheck 1 none 3 2 5 = none → s.grdEmits c = true →
    ∃ t, exec .grdSignDone s = .next t ∧
      (t.gr c).out = some { o with sig := ecSign (s.slotK 1).secret (sha256 o.body), st := 2 } ∧
      t.port 2 = s.port 2 ++ [{ queue := s.rd pgGrd R.GRD_CFG_queue, bytes := o.body ++ ecSign (s.slotK 1).secret (sha256 o.body), bank := bankOf c, sf := c }] ∧
      t.rd pgGrd R.GRD_SIGN_FAIL_count = s.rd pgGrd R.GRD_SIGN_FAIL_count) ∧
  (∀ (s : State) (c : Nat) (o : GrdOut), s.grdNext = some c → (s.gr c).out = some o → s.slotCheck 1 none 3 2 5 ≠ none →
    ∃ t, exec .grdSignDone s = .next t ∧ ((t.gr c).out.map GrdOut.sig) = some (List.replicate 64 0) ∧
      ((t.gr c).out.map GrdOut.st) = some (if s.grdEmits c = true then 2 else 1) ∧
      t.rd pgGrd R.GRD_SIGN_FAIL_count = min (s.rd pgGrd R.GRD_SIGN_FAIL_count + 1) (2 ^ 32 - 1) ∧
      (t.rd pgGrd R.INT_STAT).testBit 2 = true) ∧
  (∀ (s : State) (c : Nat) (x : GrdRec) (grade tEnd seq : Nat), x.cellId.length = 4 → x.host.length = 8 →
    (s.cellRecord c x grade tEnd seq).length = 0xC0 ∧ (s.cellRecord c x grade tEnd seq).take 2 = [1, 3] ∧
      ((s.cellRecord c x grade tEnd seq).drop 6).take 2 = toBytes 2 c ∧ ((s.cellRecord c x grade tEnd seq).drop 0x34).take 1 = toBytes 1 grade)
/-- R424, R429: FIO_OUT, FIO_OUT_SET and FIO_OUT_CLR in INIT and RUN. Bits of points that are no outputs of their own stay 0, no other
register changes, and the pins follow. In SAFE a write is ignored and sets FIO_INT_STAT.cfg_err.
R430, R431: the states of the field points. Enabling takes INIT to RUN and disabling every state to INIT; FIO_CMD.safe, the end of
the hold time and silence lead to SAFE, where FIO_OUT takes the safe values and points 28 to 31 are off; a resume needs the
heartbeat. -/
def Obligations.FieldOutputs : Prop :=
  (∀ (s : State) (r : Req) (d : Word), Accepts s r pgFio 0x024 → s.fioSt < 2 →
    ∃ t, exec (.fioOutWrite r d) s = .next t ∧ t.fioOut = d.toNat &&& s.outMask ∧
      (∀ j g, g.key j ≠ R.FIO_OUT_out.key pgFio → t.rd j g = s.rd j g) ∧ t.mem = s.mem ∧ t.fld = s.fld) ∧
  (∀ (s : State) (r : Req) (d : Word), Accepts s r pgFio 0x028 → s.fioSt < 2 →
    ∃ t, exec (.fioOutSet r d) s = .next t ∧ t.fioOut = (s.fioOut ||| d.toNat) &&& s.outMask ∧
      (∀ j g, g.key j ≠ R.FIO_OUT_out.key pgFio → t.rd j g = s.rd j g) ∧ t.mem = s.mem ∧ t.fld = s.fld) ∧
  (∀ (s : State) (r : Req) (d : Word), Accepts s r pgFio 0x02C → s.fioSt < 2 →
    ∃ t, exec (.fioOutClr r d) s = .next t ∧ t.fioOut = (s.fioOut - (s.fioOut &&& d.toNat)) &&& s.outMask ∧
      (∀ j g, g.key j ≠ R.FIO_OUT_out.key pgFio → t.rd j g = s.rd j g) ∧ t.mem = s.mem ∧ t.fld = s.fld) ∧
  (∀ (s : State) (r : Req) (d : Word), Accepts s r pgFio 0x024 → s.fioSt = 3 →
    ∃ t, exec (.fioOutWrite r d) s = .next t ∧ t.fioOut = s.fioOut ∧ (t.rd pgFio R.INT_STAT).testBit 4 = true) ∧
  (∀ (s : State) (r : Req), Accepts s r pgFio 0x008 → s.locked pgFio = false → s.fioSt = 0 →
    ∃ t, exec (.fioEnable r true) s = .next t ∧ t.fioSt = 1 ∧ t.rd pgFio (R.CTRL_enable pgFio) = 1 ∧ t.fioOut = s.fioOut) ∧
  (∀ (s : State) (r : Req), Accepts s r pgFio 0x008 → s.locked pgFio = false →
    ∃ t, exec (.fioEnable r false) s = .next t ∧ t.fioSt = 0 ∧ t.rd pgFio (R.CTRL_enable pgFio) = 0) ∧
  (∀ (s : State) (r : Req) (d : Word), Accepts s r pgFio 0x040 → s.fioSt = 1 ∨ s.fioSt = 2 → d.toNat.testBit 31 = false →
    ∃ t, exec (.fioSafe r d) s = .next t ∧ t.fioSt = 3 ∧
      (∀ n < 28, t.fioOut.testBit n = (s.rd pgFio R.FIO_SAFE_VAL_val &&& s.outMask).testBit n) ∧
      (∀ n, 28 ≤ n → n < 32 → t.fioOut.testBit n = false)) ∧
  (∀ (s : State) (r : Req) (d : Word), Accepts s r pgFio 0x040 → s.fioSt = 2 ∨ s.fioSt = 3 → d.toNat.testBit 30 = false →
    ∃ t, exec (.fioResume r d) s = .next t ∧ t.fioSt = (if s.fld.hb then 1 else s.fioSt) ∧ t.fioOut = s.fioOut) ∧
  (∀ s : State, s.fieldOn = true → s.fioSt = 2 →
    ∃ t, exec .fioHoldExpiry s = .next t ∧ t.fioSt = 3 ∧ ∀ n, 28 ≤ n → n < 32 → t.fioOut.testBit n = false)

/-- R13, R430, R447: on a valid heartbeat the control die counts as present; on silence every load channel switches off, the field
points leave RUN for SAFE and points 28 to 31 switch off. A heartbeat that is not valid is counted (IDM_HB_REJ).
R428, R432, R446, R448, R476: the supply of the field die. VFIELD low is shown and raised on both pages and changes no command;
at the die's own power-on and at its reset every point is an input in INIT and no load channel is commanded. -/
def Obligations.HeartbeatAndSupply : Prop :=
  (∀ s : State, s.domOn 0 = true → s.fld.die = true →
    ∃ t, exec (.heartbeatSend true) s = .next t ∧ t.fld.hb = true ∧ t.rd 0x032 R.IDM_LINK_hb_ok = 1 ∧
      t.rd 0x032 R.IDM_LINK_link_up = 1) ∧
  (∀ s : State, s.domOn 0 = true → s.fld.die = true →
    ∃ t, exec (.heartbeatSend false) s = .next t ∧ t.fld = s.fld ∧
      t.rd 0x032 R.IDM_HB_REJ_count = min (s.rd 0x032 R.IDM_HB_REJ_count + 1) (2 ^ 32 - 1)) ∧
  (∀ s : State, s.fieldOn = true →
    ∃ t, exec .heartbeatSilence s = .next t ∧ t.fld.hb = false ∧ t.rd pgLdc R.LDC_ON_on = 0 ∧
      (∀ n < 12, t.ldSt n ≠ 1 ∧ t.ldSt n ≠ 2 ∧ (s.ldSt n = 3 ∨ s.ldSt n = 4 → t.ldSt n = s.ldSt n)) ∧
      t.fioSt = (if s.fioSt = 1 then 3 else s.fioSt) ∧ ∀ n, 28 ≤ n → n < 32 → t.fioOut.testBit n = false) ∧
  (∀ s : State, s.fieldOn = true → s.fld.low = false →
    ∃ t, exec .vfieldLow s = .next t ∧ t.fld.low = true ∧ t.fioOut = s.fioOut ∧ t.fioPins = 0 ∧
      (∀ n k, t.ldPin n k = false) ∧ t.rd pgLdc R.LDC_ON_on = s.rd pgLdc R.LDC_ON_on ∧
      (t.rd pgFio R.INT_STAT).testBit 3 = true ∧ (t.rd pgLdc R.INT_STAT).testBit 3 = true) ∧
  (∀ s : State,
    ∃ t, exec .vfieldRestored s = .next t ∧ t.fld.low = false ∧ t.fields = s.fields) ∧
  (∀ s : State, s.fld.die = false →
    ∃ t, exec .fieldPowerOn s = .next t ∧ t.fld.die = true ∧ t.fioSt = 0 ∧ t.fioOut = 0 ∧ t.rd pgLdc R.LDC_ON_on = 0 ∧
      (∀ n < 32, t.isOut n = false) ∧ ∀ n < 12, t.ldSt n = 0) ∧
  (∀ s : State,
    ∃ t, exec .fieldDieReset s = .next t ∧ t.fld.die = false ∧ t.fioPins = 0 ∧ ∀ n k, t.ldPin n k = false)

/-- R420 to R423, R425, R427: the samples of the inputs, wire breaks, point faults and the configuration of a point. -/
def Obligations.FieldPoints : Prop :=
  (∀ (s : State) (mv cur : List Nat), s.fieldOn = true → s.fld.low = false →
    ∃ t, exec (.fioSample mv cur) s = .next t ∧ ∀ n < 32,
      (t.rd pgFio R.FIO_IN_in).testBit n =
        (let raw := s.stage n (mv.getD n 0) (s.fld.raw.testBit n);
         let old := (s.rd pgFio R.FIO_IN_in).testBit n;
         if raw ≠ old ∧ max 1 (s.rd pgFio (R.FIO_PT_CFG_filter n)) ≤ s.fld.cnt.get 0 n + 1 then raw else old)) ∧
  (∀ (s : State) (n : Fin 32), s.fieldOn = true → s.isOut n = false → s.rd pgFio (R.FIO_PT_CFG_wb_en n) = 1 →
      s.rd pgFio (R.FIO_PT_STAT_wire_break n) = 0 →
    ∃ t, exec (.fioWireBreak n true) s = .next t ∧ t.rd pgFio (R.FIO_PT_STAT_wire_break n) = 1 ∧
      (t.rd pgFio R.FIO_FAULT_fault).testBit n = true ∧ t.rd pgFio R.FIO_IN_in = s.rd pgFio R.FIO_IN_in) ∧
  (∀ (s : State) (n : Fin 32) (cause : Fin 5), s.fieldOn = true → s.isOut n = true → s.fioPins.testBit n = true → cause.val < 3 →
    ∃ t, exec (.fioPointFault n cause true) s = .next t ∧ t.fioOut.testBit (s.leader n) = false ∧ t.ptLatched n = true ∧
      (t.rd pgFio R.FIO_FAULT_fault).testBit n = true) ∧
  (∀ (s : State) (r : Req) (n : Fin 32) (d : Word), Accepts s r pgFio (0x100 + 4 * n.val) → s.fioOut = 0 →
      (∀ i < 32, s.rd pgFio (R.FIO_PT_CFG_group i) = 0) → bitsOf d.toNat 2 2 = 0 →
    ∃ t, exec (.fioPtCfgWrite r n d) s = .next t ∧ t.rd pgFio (R.FIO_PT_CFG_mode n) = d.toNat % 4 ∧
      t.rd pgFio (R.FIO_PT_CFG_filter n) = bitsOf d.toNat 8 8) ∧
  (∀ (s : State) (r : Req) (n : Fin 32) (d : Word), Accepts s r pgFio 0x030 → d.toNat = 2 ^ n.val →
      bitOf s.fld.hot n = false → s.rd pgFio (R.FIO_PT_STAT_back_fed n) = 0 → s.rd pgFio (R.FIO_PT_STAT_open_load n) = 0 →
      s.rd pgFio (R.FIO_PT_STAT_wire_break n) = 0 →
    ∃ t, exec (.fioFaultClear r d) s = .next t ∧ t.ptLatched n = false ∧ (t.rd pgFio R.FIO_FAULT_fault).testBit n = false)

/-- R435, R442, R444: commands of the load channels. A set bit takes a channel from OFF to ON, a cleared one takes ON and RETRY to OFF
with c = 0; an LDC_ON write does both.
R441 to R443: overcurrent, retry and the thermal latch of a load channel. -/
def Obligations.LoadChannels : Prop :=
  (∀ (s : State) (r : Req) (d : Word), Accepts s r pgLdc 0x024 → s.rd pgLdc (R.CTRL_enable pgLdc) = 1 →
    ∃ t, exec (.ldcOnSet r d) s = .next t ∧ ∀ n < 12, d.toNat.testBit n = true → s.ldSt n = 0 →
      s.rd pgLdc (R.LDC_CH_CAUSE_thermal_l n) = 0 → t.ldSt n = 1 ∧ t.ldBit n = true) ∧
  (∀ (s : State) (r : Req) (d : Word), Accepts s r pgLdc 0x028 →
    ∃ t, exec (.ldcOnClr r d) s = .next t ∧ ∀ n < 12, d.toNat.testBit n = true → t.ldBit n = false ∧
      (s.ldSt n = 1 ∨ s.ldSt n = 2 → t.ldSt n = 0 ∧ t.ldC n = 0)) ∧
  (∀ (s : State) (r : Req) (d : Word), Accepts s r pgLdc 0x020 → s.rd pgLdc (R.CTRL_enable pgLdc) = 1 →
    ∃ t, exec (.ldcOnWrite r d) s = .next t ∧ ∀ n < 12,
      (d.toNat.testBit n = true → s.ldSt n = 0 → s.rd pgLdc (R.LDC_CH_CAUSE_thermal_l n) = 0 →
        t.ldSt n = 1 ∧ t.ldBit n = true) ∧
      (d.toNat.testBit n = false → t.ldBit n = false ∧ (s.ldSt n = 1 ∨ s.ldSt n = 2 → t.ldSt n = 0 ∧ t.ldC n = 0))) ∧
  (∀ (s : State) (n : Fin 12) (short : Bool), s.fieldOn = true → s.fld.low = false → s.ldSt n = 1 →
      s.ldC n < s.rd pgLdc (R.LDC_CH_CFG_retry_max n) →
    ∃ t, exec (.ldcOvercurrent n short) s = .next t ∧ t.ldSt n = 2 ∧ t.ldC n = s.ldC n ∧
      t.rd pgLdc (R.LDC_CH_CAUSE_overcurrent_l n) = 1 ∧ t.rd pgLdc R.LDC_ON_on = s.rd pgLdc R.LDC_ON_on) ∧
  (∀ (s : State) (n : Fin 12) (short : Bool), s.fieldOn = true → s.fld.low = false → s.ldSt n = 1 →
      s.rd pgLdc (R.LDC_CH_CFG_retry_max n) ≤ s.ldC n →
    ∃ t, exec (.ldcOvercurrent n short) s = .next t ∧ t.ldSt n = 4 ∧ t.ldC n = s.ldC n ∧ t.ldBit n = false) ∧
  (∀ (s : State) (n : Fin 12), s.fieldOn = true → s.ldSt n = 2 → s.ldC n < 15 →
    ∃ t, exec (.ldcRetryExpiry n) s = .next t ∧ t.ldSt n = 1 ∧ t.ldC n = s.ldC n + 1) ∧
  (∀ (s : State) (n : Fin 12), s.fieldOn = true → s.ldSt n = 1 →
    ∃ t, exec (.ldcOkTimer n) s = .next t ∧ t.ldSt n = 1 ∧ t.ldC n = 0) ∧
  (∀ (s : State) (n : Fin 12) (temp : Fin 256), s.fieldOn = true → 234 < temp.val →
    ∃ t, exec (.ldcThermal n temp) s = .next t ∧ t.ldSt n = 3 ∧ t.ldC n = s.ldC n ∧
      t.rd pgLdc (R.LDC_CH_CAUSE_thermal_l n) = 1 ∧ t.rd pgLdc R.LDC_ON_on = s.rd pgLdc R.LDC_ON_on ∧ ∀ k, t.ldPin n k = false) ∧
  (∀ (s : State) (r : Req) (n : Fin 12) (d : Word), Accepts s r pgLdc 0x02C → d.toNat = 2 ^ n.val → s.ldSt n = 3 →
      s.rd pgLdc (R.LDC_CH_CAUSE_thermal n) = 1 →
    ∃ t, exec (.ldcFaultClear r d) s = .next t ∧ t.ldSt n = 3 ∧ (t.rd pgLdc R.LDC_FAULT_fault) = s.rd pgLdc R.LDC_FAULT_fault) ∧
  (∀ (s : State) (r : Req) (n : Fin 12) (d : Word), Accepts s r pgLdc 0x02C → d.toNat = 2 ^ n.val → s.ldSt n = 3 →
      s.rd pgLdc (R.LDC_CH_CAUSE_thermal n) = 0 → s.rd pgLdc (R.LDC_CH_CAUSE_clamp_l n) = 0 → s.ldBit n = true →
      s.ldC n < s.rd pgLdc (R.LDC_CH_CFG_retry_max n) → s.ldC n < 15 → s.rd pgLdc (R.CTRL_enable pgLdc) = 1 →
    ∃ t, exec (.ldcFaultClear r d) s = .next t ∧ t.ldSt n = 1 ∧ t.ldC n = s.ldC n + 1)

/-- R436, R437, R439, R440, R444, R445: PWM period, clamp energy, the total limit and open loads of the load channels. -/
def Obligations.LoadPwmClampAndTotal : Prop :=
  (∀ s : State, s.fieldOn = true →
    ∃ t, exec .ldcPwmBoundary s = .next t ∧ t.ldPeriod = clampN 2000 500000 (s.rd pgLdc R.LDC_PWM_PER_ticks % 2 ^ 19) ∧
      ∀ n < 12, t.rdF pgLdc (R.LDC_CH_DUTY_duty n) = s.rd pgLdc (R.LDC_CH_DUTY_duty n) % 2 ^ 16) ∧
  (∀ (s : State) (n : Fin 12) (e : Nat), s.fld.die = true → s.rd pgLdc (R.LDC_CH_EACC_acc n) + e ≤ 1024 * s.ldBudget n →
    ∃ t, exec (.ldcClampEvent n e) s = .next t ∧ t.rd pgLdc (R.LDC_CH_EACC_last_mj n) = e / 1024 ∧
      t.rd pgLdc (R.LDC_CH_EACC_acc n) = s.rd pgLdc (R.LDC_CH_EACC_acc n) + e ∧
      t.ldSt n = s.ldSt n) ∧
  (∀ (s : State) (n : Fin 12) (e : Nat), s.fld.die = true → 1024 * s.ldBudget n < s.rd pgLdc (R.LDC_CH_EACC_acc n) + e →
      s.ldSt n ≠ 3 →
    ∃ t, exec (.ldcClampEvent n e) s = .next t ∧ t.ldSt n = 4 ∧ t.rd pgLdc (R.LDC_CH_CAUSE_clamp_l n) = 1 ∧
      (s.ldSt n = 4 ∨ t.ldBit n = false)) ∧
  (∀ s : State, s.fld.die = true →
    ∃ t, exec .ldcClampDecay s = .next t ∧ ∀ n < 12, t.rd pgLdc (R.LDC_CH_EACC_acc n) =
      (s.rd pgLdc (R.LDC_CH_EACC_acc n) - s.rd pgLdc (R.LDC_CH_EACC_acc n) / 64) % 2 ^ (R.LDC_CH_EACC_acc n).w) ∧
  (∀ (s : State) (r : Req) (n : Fin 12) (d : Word), Accepts s r pgLdc (0x10C + 32 * n.val) →
      s.rd pgLdc (R.LDC_CH_CLAMP_lock n) = 0 →
    ∃ t, exec (.ldcClampLock r n d) s = .next t ∧ t.rd pgLdc (R.LDC_CH_CLAMP_lock n) = 1 ∧
      t.rd pgLdc (R.LDC_CH_CLAMP_budget_mj n) = (R.LDC_CH_CLAMP_budget_mj n).of d) ∧
  (∀ (s : State) (ma : List Nat) (n : Fin 12), s.fieldOn = true →
      min 16000 (s.rd pgLdc R.LDC_TOTAL_limit_ma) < ((List.range 12).map (fun i => ma.getD i 0)).sum → s.ldSt n = 1 →
      s.rd pgLdc (R.LDC_CH_CFG_shed n) = 1 → (∀ m < 12, n.val < m → s.ldSt m ≠ 1) →
    ∃ t, exec (.ldcTotalShed ma) s = .next t ∧ t.ldSt n = 0 ∧ t.ldBit n = false ∧ t.rd pgLdc (R.LDC_CH_CAUSE_shed n) = 1 ∧
      (t.rd pgLdc R.INT_STAT).testBit 2 = true) ∧
  (∀ (s : State) (n : Fin 12), s.fieldOn = true → s.ldSt n = 1 → s.rd pgLdc (R.LDC_CH_CFG_ol_en n) = 1 →
      s.rd pgLdc (R.LDC_CH_CAUSE_open_load n) = 0 →
    ∃ t, exec (.ldcOpenLoad n true) s = .next t ∧ t.rd pgLdc (R.LDC_CH_CAUSE_open_load n) = 1 ∧ t.ldSt n = 1 ∧
      (t.rd pgLdc R.LDC_FAULT_fault).testBit n = true)

/-- R401, R402, R403, R408: the states of a CAN controller. A start is refused on a bit timing that R402 or R403 rules out, a stop waits
for the frame in progress, and a controller leaves bus-off error active with both counters at 0. -/
def Obligations.CanControllerStates : Prop :=
  (∀ (s : State) (n : Nat), s.canTiming n = false ↔
    (let f := fun (x : Fld) => s.rd (pgCan n) x + 1;
     let nominal := 1 + f R.CAN_NBT_tseg1 + f R.CAN_NBT_tseg2;
     let data := 1 + f R.CAN_DBT_tseg1 + f R.CAN_DBT_tseg2;
     let fd := s.rd (pgCan n) R.CAN_CFG_fd ≠ 0;
     f R.CAN_NBT_tseg2 < f R.CAN_NBT_sjw ∨ f R.CAN_DBT_tseg2 < f R.CAN_DBT_sjw ∨ nominal < 8 ∨ data < 5 ∨
       (fd ∧ nominal * f R.CAN_NBT_brp < data * f R.CAN_DBT_brp) ∨
       (s.rd (pgCan n) R.CAN_CFG_triple ≠ 0 ∧ ¬fd ∧ f R.CAN_NBT_tseg1 < 3))) ∧
  (∀ (s : State) (r : Req) (n : Fin 4) (d : Word), Accepts s r (pgCan n) 0x030 → s.canSt n = 0 → s.canTiming n = true →
      R.CAN_CMD_stop.ofB d = false →
    ∃ t, exec (.canStart r n d) s = .next t ∧ t.canSt n = 1) ∧
  (∀ (s : State) (r : Req) (n : Fin 4) (d : Word), Accepts s r (pgCan n) 0x030 → s.canSt n = 0 → s.canTiming n = false →
    ∃ t, exec (.canStart r n d) s = .next t ∧ t.canSt n = 0 ∧ (t.rd (pgCan n) R.INT_STAT).testBit 10 = true) ∧
  (∀ (s : State) (r : Req) (n : Fin 4) (d : Word), Accepts s r (pgCan n) 0x030 → s.canSt n = 1 →
    ∃ t, exec (.canStop r n d false) s = .next t ∧ t.canSt n = 0) ∧
  (∀ (s : State) (r : Req) (n : Fin 4) (d : Word), Accepts s r (pgCan n) 0x030 → s.canSt n = 1 →
    ∃ t, exec (.canStop r n d true) s = .next t ∧ t.canSt n = 1 ∧ (t.can n).stopReq = true) ∧
  (∀ (s : State) (r : Req) (n : Fin 4) (d : Word), Accepts s r (pgCan n) 0x030 → s.rd (pgCan n) R.CAN_STAT_err_state = 2 →
      R.CAN_CMD_start.ofB d = false → R.CAN_CMD_stop.ofB d = false →
    ∃ t, exec (.canRecover r n d) s = .next t ∧ (t.can n).recover = true ∧ t.fields = s.fields) ∧
  (∀ (s : State) (n : Fin 4), s.canOn n = true → s.rd (pgCan n) R.CAN_STAT_err_state = 2 →
      s.rd (pgCan n) R.CAN_CFG_abo = 1 ∨ (s.can n).recover = true →
    ∃ t, exec (.canBusOn n) s = .next t ∧ t.rd (pgCan n) R.CAN_STAT_err_state = 0 ∧ t.rd (pgCan n) R.CAN_ERR_tec = 0 ∧
      t.rd (pgCan n) R.CAN_ERR_rec = 0 ∧ (t.rd (pgCan n) R.INT_STAT).testBit 8 = true) ∧
  (∀ (s : State) (n : Fin 4), s.canOn n = true → s.rd (pgCan n) R.CAN_STAT_err_state = 2 →
      s.rd (pgCan n) R.CAN_CFG_abo = 0 → (s.can n).recover = false →
    ∃ t, exec (.canBusOn n) s = .next t ∧ t.fields = s.fields) ∧
  (∀ (s : State) (n : Fin 4) (lec : Fin 8) (eight : Bool), s.canRuns n = true → lec.val ≠ 7 →
      s.rd (pgCan n) R.CAN_ERR_tec < 2 ^ 9 →
    ∃ t, exec (.canBusError n lec eight) s = .next t ∧ t.rd (pgCan n) R.CAN_ERR_lec = lec ∧
      t.rd (pgCan n) R.CAN_ERR_tec = s.rd (pgCan n) R.CAN_ERR_tec ∧
      t.rd (pgCan n) R.CAN_ERR_rec = min 255 (s.rd (pgCan n) R.CAN_ERR_rec + (if eight then 8 else 1)) ∧
      t.rd (pgCan n) R.CAN_STAT_err_state = (if 255 < t.rd (pgCan n) R.CAN_ERR_tec then 2
        else if 128 ≤ t.rd (pgCan n) R.CAN_ERR_tec ∨ 128 ≤ t.rd (pgCan n) R.CAN_ERR_rec then 1 else 0)) ∧
  (∀ (s : State) (n : Fin 4) (eight : Bool), s.canRuns n = true → s.rd (pgCan n) R.CAN_CFG_pxe = 1 →
    ∃ t, exec (.canBusError n 7 eight) s = .next t ∧ t.rd (pgCan n) R.CAN_ERR_lec = 7 ∧
      t.rd (pgCan n) R.CAN_ERR_tec = s.rd (pgCan n) R.CAN_ERR_tec ∧ t.rd (pgCan n) R.CAN_ERR_rec = s.rd (pgCan n) R.CAN_ERR_rec ∧
      (t.rd (pgCan n) R.INT_STAT).testBit 9 = true)

/-- R404, R405: the transmit buffers of a CAN controller. A buffer that is made pending stays pending until it is sent, aborted or
refused; an abort of the buffer in transmission waits for the end of the attempt, and counts only if the attempt fails. -/
def Obligations.CanTransmission : Prop :=
  (∀ (s : State) (r : Req) (n : Fin 4) (d : Word), Accepts s r (pgCan n) 0x038 → (∀ b < 32, s.txBad n b = false) →
    ∃ t, exec (.canTxPend r n d) s = .next t ∧
      (∀ b < 32, (t.rd (pgCan n) R.CAN_TX_PEND_pend).testBit b =
        ((s.rd (pgCan n) R.CAN_TX_PEND_pend).testBit b || d.toNat.testBit b)) ∧
      ∀ j g, g.key j ≠ R.CAN_TX_PEND_pend.key (pgCan n) → t.rd j g = s.rd j g) ∧
  (∀ (s : State) (r : Req) (n : Fin 4) (b : Fin 32), Accepts s r (pgCan n) 0x038 → s.canSends n = true → s.txBad n b = true →
      s.rd (pgCan n) R.CAN_TX_PEND_pend = 0 →
    ∃ t, exec (.canTxPend r n (BitVec.ofNat 32 (2 ^ b.val))) s = .next t ∧
      (t.rd (pgCan n) R.CAN_TX_PEND_pend).testBit b = false ∧ (t.rd (pgCan n) R.CAN_TX_ABORTED_aborted).testBit b = true ∧
      (t.rd (pgCan n) R.CAN_TX_ERR_refused).testBit b = true) ∧
  (∀ (s : State) (r : Req) (n : Fin 4) (d : Word), Accepts s r (pgCan n) 0x03C →
    ∃ t, exec (.canTxAbort r n d none) s = .next t ∧ ∀ b < 32,
      (t.rd (pgCan n) R.CAN_TX_PEND_pend).testBit b =
        ((s.rd (pgCan n) R.CAN_TX_PEND_pend).testBit b && !d.toNat.testBit b) ∧
      (t.rd (pgCan n) R.CAN_TX_ABORTED_aborted).testBit b =
        ((s.rd (pgCan n) R.CAN_TX_ABORTED_aborted).testBit b ||
          ((s.rd (pgCan n) R.CAN_TX_PEND_pend).testBit b && d.toNat.testBit b))) ∧
  (∀ (s : State) (r : Req) (n : Fin 4) (d : Word) (b : Fin 32), Accepts s r (pgCan n) 0x03C → d.toNat.testBit b = true →
      (s.rd (pgCan n) R.CAN_TX_PEND_pend).testBit b = true →
    ∃ t, exec (.canTxAbort r n d (some b)) s = .next t ∧ (t.rd (pgCan n) R.CAN_TX_PEND_pend).testBit b = true ∧
      (t.rd (pgCan n) R.CAN_TX_ABORT_abort).testBit b = true) ∧
  (∀ (s : State) (n : Fin 4) (b : Fin 32) (lec : Fin 8) (cnt : Bool), s.canSends n = true →
      s.txBest n (s.rd (pgCan n) R.CAN_TX_PEND_pend) = some b.val →
    ∃ t, exec (.canFrameTxEnd n 0 0 lec cnt) s = .next t ∧ (t.rd (pgCan n) R.CAN_TX_PEND_pend).testBit b = false ∧
      (t.rd (pgCan n) R.CAN_TX_DONE_done).testBit b = true ∧ (t.rd (pgCan n) R.INT_STAT).testBit 3 = true ∧
      ∃ ws, Out.can n ws ∈ t.out ∧ ws.length = 18 ∧ ws.head? = some (s.txWord n b 0) ∧
        ws.drop 2 = (List.range 16).map (fun i => s.txWord n b (2 + i))) ∧
  (∀ (s : State) (n : Fin 4) (b : Fin 32) (lec : Fin 8) (cnt : Bool), s.canSends n = true →
      s.txBest n (s.rd (pgCan n) R.CAN_TX_PEND_pend) = some b.val →
      (s.rd (pgCan n) R.CAN_TX_PEND_pend).testBit b = true →
      (s.rd (pgCan n) R.CAN_TX_ABORT_abort).testBit b = true →
    ∃ t, exec (.canFrameTxEnd n 1 0 lec cnt) s = .next t ∧ (t.rd (pgCan n) R.CAN_TX_PEND_pend).testBit b = false ∧
      (t.rd (pgCan n) R.CAN_TX_ABORTED_aborted).testBit b = true ∧
      t.rd (pgCan n) R.CAN_TX_DONE_done = s.rd (pgCan n) R.CAN_TX_DONE_done)

/-- R406, R407: filters and receive queues of a CAN controller. The lowest enabled filter that matches decides; its queue takes the
frame behind those it holds, and a full queue counts it as lost. -/
def Obligations.CanReception : Prop :=
  (∀ (s : State) (n w0 f : Nat), s.canFilter n w0 = some f ↔
    (let hit := fun (i : Nat) => s.rd (pgCan n) (R.CAN_FLT_ID_en i) ≠ 0 ∧ s.rd (pgCan n) (R.CAN_FLT_ID_ide i) = w0 / 2 ^ 31 ∧
       ((w0 % 2 ^ 29) ^^^ s.rd (pgCan n) (R.CAN_FLT_ID_id i)) &&& s.rd (pgCan n) (R.CAN_FLT_MASK_mask i) = 0;
     f < 64 ∧ hit f ∧ ∀ i < f, ¬hit i)) ∧
  (∀ (s : State) (n : Fin 4) (w1 : Word) (id : Fin 2048) (data : List Byte) (f : Nat), s.canRuns n = true →
      s.rd (pgCan n) R.CAN_CFG_mode ≠ 3 → w1.toNat.testBit 30 = false ∨ s.rd (pgCan n) R.CAN_CFG_fd = 1 →
      s.canFilter n id = some f → s.rd (pgCan n) (R.CAN_FLT_MASK_dest f) = 0 → (s.can n).rx0.length < 64 →
    ∃ t, exec (.canFrameRx n (BitVec.ofNat 32 id) w1 data) s = .next t ∧
      (t.can n).rx0 = (s.can n).rx0 ++
        [id.val :: (bitsOf w1.toNat 28 4 * 2 ^ 28 + bitsOf w1.toNat 16 4 * 2 ^ 16 + 64 + f) :: canWords (canData w1.toNat data)] ∧
      (t.can n).rx1 = (s.can n).rx1 ∧ (t.rd (pgCan n) R.INT_STAT).testBit 0 = true) ∧
  (∀ (s : State) (n : Fin 4) (w1 : Word) (id : Fin 2048) (data : List Byte), s.canRuns n = true →
      s.rd (pgCan n) R.CAN_CFG_mode ≠ 3 → w1.toNat.testBit 30 = false ∨ s.rd (pgCan n) R.CAN_CFG_fd = 1 →
      s.canFilter n id = none → s.rd (pgCan n) R.CAN_CFG_nomatch = 1 → 64 ≤ (s.can n).rx1.length →
    ∃ t, exec (.canFrameRx n (BitVec.ofNat 32 id) w1 data) s = .next t ∧ (t.can n).rx0 = (s.can n).rx0 ∧
      (t.can n).rx1 = (s.can n).rx1 ∧
      t.rd (pgCan n) R.CAN_RXQ1_LOST_count = min (s.rd (pgCan n) R.CAN_RXQ1_LOST_count + 1) (2 ^ 32 - 1) ∧
      (t.rd (pgCan n) R.INT_STAT).testBit 2 = true) ∧
  (∀ (s : State) (r : Req) (n : Fin 4) (d : Word), Accepts s r (pgCan n) 0x050 → R.CAN_RXQ_CMD_pop1.ofB d = false →
    ∃ t, exec (.canRxqPop r n 0 d) s = .next t ∧ (t.can n).rx0 = (s.can n).rx0.tail ∧ (t.can n).rx1 = (s.can n).rx1 ∧
      t.fields = s.fields ∧ t.mem = s.mem)

/-- R410, R412, R413, R419: how a network channel agrees to sleep. The channel follows en and awake_req, the commit point aborts every
pending transmission, and the controller and the channel then go to sleep.
R414 to R416: a wake of a sleeping channel is latched once. It is taken at once when no dwell runs and else at the end of the dwell;
the channel then wakes, and becomes READY or AWAKE once its controller has integrated. -/
def Obligations.NetworkSleepAndWake : Prop :=
  (∀ (s : State) (r : Req) (n : Fin 4) (d : Word), Accepts s r pgNwm (0x100 + 128 * n.val) → s.nwmSt n = 0 →
      (R.NWM_CH_CTRL_en n).ofB d = true → (R.NWM_CH_CTRL_wake n).ofB d = false →
    ∃ t, exec (.nwmChEnable r n d) s = .next t ∧ t.nwmSt n = (if (R.NWM_CH_CTRL_awake_req n).ofB d then 1 else 2) ∧
      t.rd pgNwm (R.NWM_CH_CTRL_en n) = 1) ∧
  (∀ (s : State) (r : Req) (n : Fin 4) (d : Word), Accepts s r pgNwm (0x100 + 128 * n.val) →
      (R.NWM_CH_CTRL_en n).ofB d = false →
    ∃ t, exec (.nwmChEnable r n d) s = .next t ∧ t.nwmSt n = 0 ∧ (t.can n).latch = none) ∧
  (∀ (s : State) (r : Req) (n : Fin 4) (d : Word), Accepts s r pgNwm (0x100 + 128 * n.val) → (R.NWM_CH_CTRL_wake n).ofB d = false →
    ∃ t, exec (.nwmAwakeReq r n d) s = .next t ∧
      t.rd pgNwm (R.NWM_CH_CTRL_awake_req n) = b2n ((R.NWM_CH_CTRL_awake_req n).ofB d) ∧
      t.nwmSt n = (if (R.NWM_CH_CTRL_awake_req n).ofB d then (if s.nwmSt n = 0 ∨ s.nwmSt n = 2 then 1 else s.nwmSt n)
        else if s.nwmSt n = 0 ∨ s.nwmSt n = 1 then 2 else s.nwmSt n)) ∧
  (∀ (s : State) (n : Fin 4), s.nwmSt n = 1 → s.rd pgNwm (R.NWM_CH_TIME_ka_ms n) ≠ 0 → s.canOn n = true →
      s.rd pgNwm (R.NWM_CH_KA_tx_buf n) < 32 → (∀ b < 32, s.txBad n b = false) →
    ∃ t, exec (.nwmKeepaliveTimer n) s = .next t ∧ t.nwmSt n = 1 ∧
      (t.rd (pgCan n) R.CAN_TX_PEND_pend).testBit (s.rd pgNwm (R.NWM_CH_KA_tx_buf n)) = true) ∧
  (∀ (s : State) (n : Fin 4), s.nwmSt n = 2 →
    ∃ t, exec (.nwmCommitPoint n none) s = .next t ∧ t.nwmSt n = 3 ∧ (t.can n).dwell = true ∧
      (t.rd pgNwm R.INT_STAT).testBit n = true ∧
      (∀ b < 32, (t.rd (pgCan n) R.CAN_TX_PEND_pend).testBit b = false ∧
        ((s.rd (pgCan n) R.CAN_TX_PEND_pend).testBit b = true → (t.rd (pgCan n) R.CAN_TX_ABORTED_aborted).testBit b = true))) ∧
  (∀ (s : State) (n : Fin 4), s.nwmSt n = 3 → s.canSt n = 1 →
    ∃ t, exec (.nwmControllerSleep n) s = .next t ∧ t.canSt n = 2 ∧ t.nwmSt n = 3) ∧
  (∀ (s : State) (n : Fin 4), s.nwmSt n = 3 → s.canSt n ≠ 1 →
    ∃ t, exec (.nwmBusSleep n) s = .next t ∧ t.nwmSt n = 4 ∧ t.canSt n = s.canSt n ∧ t.cans = s.cans) ∧
  (∀ (s : State) (n : Fin 4), s.nwmSt n = 2 → s.rd pgNwm (R.NWM_CH_STUCK_stuck_s n) ≠ 0 → (s.can n).stuck = false →
    ∃ t, exec (.nwmStuck n) s = .next t ∧ t.nwmSt n = 2 ∧ (t.can n).stuck = true ∧
      (t.rd pgNwm R.INT_STAT).testBit (8 + n.val) = true) ∧
  (∀ (s : State) (n : Fin 4), (s.can n).stuck = true →
    ∃ t, exec (.nwmStuck n) s = .next t ∧ t.fields = s.fields ∧ t.evr = s.evr) ∧
  (∀ (s : State) (r : Req) (n : Fin 4) (d : Word), Accepts s r pgNwm (0x100 + 128 * n.val) → s.nwmSt n = 4 →
      (s.can n).latch = none → (s.can n).dwell = false → s.rd pgNwm R.NWM_WAKE_SRC_valid = 0 →
    ∃ t, exec (.nwmLocalWake r n d) s = .next t ∧ t.nwmSt n = 5 ∧ t.rd pgNwm R.NWM_WAKE_SRC_valid = 1 ∧
      t.rd pgNwm R.NWM_WAKE_SRC_kind = 5 ∧ t.rd pgNwm R.NWM_WAKE_SRC_channel = n ∧
      (t.rd pgNwm R.INT_STAT).testBit (4 + n.val) = true) ∧
  (∀ (s : State) (r : Req) (n : Fin 4) (d : Word), Accepts s r pgNwm (0x100 + 128 * n.val) → s.nwmSt n = 3 →
      (s.can n).latch = none → (s.can n).dwell = true →
    ∃ t, exec (.nwmLocalWake r n d) s = .next t ∧ t.nwmSt n = 3 ∧ (t.can n).latch = some 5 ∧
      t.rd pgNwm (R.NWM_CH_STAT_latched n) = 1) ∧
  (∀ (s : State) (n : Fin 2) (w0 w1 : Word) (data : List Byte), s.nwmSt n = 4 → s.rd pgNwm (R.NWM_CH_WCFG_mode n) = 0 →
      (s.can n).latch = none → (s.can n).dwell = false →
    ∃ t, exec (.nwmWakeDetect ⟨n.val, by omega⟩ 0 w0 w1 data) s = .next t ∧ t.nwmSt n = 5) ∧
  (∀ (s : State) (n : Fin 2) (w0 w1 : Word) (data : List Byte), s.nwmSt n = 4 → s.rd pgNwm (R.NWM_CH_WCFG_mode n) = 1 →
      (s.can n).latch = none → (s.can n).dwell = false → w1.toNat.testBit 30 = false →
      s.rd pgNwm (R.NWM_SW_ERRCNT_count n) = 31 →
    ∃ t, exec (.nwmWakeDetect ⟨n.val, by omega⟩ 2 w0 w1 data) s = .next t ∧ t.nwmSt n = 5 ∧
      t.rd pgNwm (R.NWM_SW_ERRCNT_count n) = 32) ∧
  (∀ (s : State) (n : Fin 2) (w0 w1 : Word) (data : List Byte) (e : Fin 4), s.nwmSt n = 4 →
      s.rd pgNwm (R.NWM_CH_WCFG_mode n) = 1 → (s.can n).latch = none → (s.can n).dwell = false → w1.toNat.testBit 30 = false →
      s.rd pgNwm (R.NWM_SW_ERRCNT_count n) < 64 → s.swMatch n e w0.toNat w1.toNat data = true →
    ∃ t, exec (.nwmWakeDetect ⟨n.val, by omega⟩ 1 w0 w1 data) s = .next t ∧ t.nwmSt n = 5 ∧
      t.rd pgNwm (R.NWM_SW_ERRCNT_count n) = s.rd pgNwm (R.NWM_SW_ERRCNT_count n) - 1) ∧
  (∀ (s : State) (n : Fin 4) (kind : Fin 6), (s.can n).dwell = true → (s.can n).latch = some kind.val →
      s.rd pgNwm R.NWM_WAKE_SRC_valid = 0 →
    ∃ t, exec (.nwmDwellEnd n) s = .next t ∧ t.nwmSt n = 5 ∧ (t.can n).dwell = false ∧ (t.can n).latch = none ∧
      t.rd pgNwm R.NWM_WAKE_SRC_kind = kind ∧ t.rd pgNwm R.NWM_WAKE_SRC_channel = n ∧
      t.canSt n = (if s.canSt n = 2 then 1 else s.canSt n)) ∧
  (∀ (s : State) (n : Fin 4), s.nwmSt n = 5 → s.canOn n = true → s.canSt n = 1 → s.rd pgNwm (R.NWM_CH_CTRL_awake_req n) = 1 →
    ∃ t, exec (.nwmIntegrationDone n) s = .next t ∧ t.nwmSt n = 1) ∧
  (∀ (s : State) (n : Fin 4), s.nwmSt n = 5 → s.canOn n = true → s.canSt n = 1 → s.rd pgNwm (R.NWM_CH_CTRL_awake_req n) = 0 →
    ∃ t, exec (.nwmIntegrationDone n) s = .next t ∧ t.nwmSt n = 2 ∧ t.rd pgNwm (R.NWM_CH_STAT_woken n) = 1 ∧
      t.rd pgNwm (R.NWM_CH_KEEPER_restarts n) = 0 ∧ ∀ k < 8, t.rd pgNwm (R.NWM_CH_NODES_seen n k) = 0)

/-- R394 to R396: the servo takes one offset. A far offset is refused and changes neither a nor f, in SLEW it slews; the first offset
steps line time when no channel is armed; every other one goes to the PI terms, each limited to 100 ppm, and counts for the lock.
R396, R397: the commands of the servo. A slew is always taken, a step only while no channel is armed, HOLDOVER keeps f with the
phase term dropped, and two action bits together are refused. -/
def Obligations.ClockServo : Prop :=
  (∀ (s : State) (r : Req) (d : Word) (dt u : Nat) (o : Int), Accepts s r pgPtp 0x034 → s.ptpOn = true →
      o = toS 64 (s.rd pgPtp R.PTP_MEAS_W0_off + 2 ^ 32 * d.toNat) → 65536 * s.rd pgPtp R.PTP_JUMP_TH_ns < o.natAbs →
      s.rd pgPtp R.PTP_STAT_state = 0 → s.anyArmed = true →
    ∃ t, exec (.ptpOffsetCommit r d dt u) s = .next t ∧ t.rd pgPtp R.PTP_STAT_state = 0 ∧ t.k = s.k ∧
      t.rd pgPtp R.PTP_JUMP_COUNT_count = min (s.rd pgPtp R.PTP_JUMP_COUNT_count + 1) (2 ^ 32 - 1)) ∧
  (∀ (s : State) (r : Req) (d : Word) (dt u : Nat) (o : Int), Accepts s r pgPtp 0x034 → s.ptpOn = true →
      o = toS 64 (s.rd pgPtp R.PTP_MEAS_W0_off + 2 ^ 32 * d.toNat) → 65536 * s.rd pgPtp R.PTP_JUMP_TH_ns < o.natAbs →
      s.rd pgPtp R.PTP_STAT_state ≠ 0 → s.rd pgPtp R.PTP_STAT_state ≠ 4 →
    ∃ t, exec (.ptpOffsetCommit r d dt u) s = .next t ∧ t.rd pgPtp R.PTP_STAT_state = s.rd pgPtp R.PTP_STAT_state ∧
      t.rd pgPtp R.PTP_ADJ_a = s.rd pgPtp R.PTP_ADJ_a ∧ t.rd pgPtp R.PTP_FREQ_f = s.rd pgPtp R.PTP_FREQ_f ∧ t.k = s.k ∧
      t.rd pgPtp R.PTP_JUMP_COUNT_count = min (s.rd pgPtp R.PTP_JUMP_COUNT_count + 1) (2 ^ 32 - 1) ∧
      t.rd2 pgPtp R.PTP_LAST_REFUSED_W0_off R.PTP_LAST_REFUSED_W1_off = ofS 64 o ∧
      t.rd pgPtp R.PTP_STAT_jump_refused = 1 ∧ (t.rd pgPtp R.INT_STAT).testBit 1 = true) ∧
  (∀ (s : State) (r : Req) (d : Word) (dt u : Nat) (o : Int), Accepts s r pgPtp 0x034 → s.ptpOn = true →
      o = toS 64 (s.rd pgPtp R.PTP_MEAS_W0_off + 2 ^ 32 * d.toNat) → s.rd pgPtp R.PTP_STAT_state = 0 → s.anyArmed = false →
    ∃ t, exec (.ptpOffsetCommit r d dt u) s = .next t ∧ t.rd pgPtp R.PTP_STAT_state = 1 ∧ t.rd pgPtp R.PTP_STAT_holdover = 0 ∧
      t.rd pgPtp R.PTP_ADJ_a = s.rd pgPtp R.PTP_ADJ_a ∧ t.rd pgPtp R.PTP_FREQ_f = s.rd pgPtp R.PTP_FREQ_f ∧
      t.k = ((((s.k * (s.len * 6553600) + u % (s.len * 6553600) : Nat) : Int) - o)
        % ((2 ^ 48 * 1000000000 * 65536 : Nat) : Int)).toNat / (s.len * 6553600)) ∧
  (∀ (s : State) (r : Req) (d : Word) (dt u : Nat) (o : Int), Accepts s r pgPtp 0x034 → s.ptpOn = true →
      o = toS 64 (s.rd pgPtp R.PTP_MEAS_W0_off + 2 ^ 32 * d.toNat) → o.natAbs ≤ 65536 * s.rd pgPtp R.PTP_JUMP_TH_ns →
      s.rd pgPtp R.PTP_STAT_state ≠ 0 →
    ∃ t, exec (.ptpOffsetCommit r d dt u) s = .next t ∧
      (∃ y z : Int, (y * clampN (65536 * 1000000) (65536 * 16000000000) dt + s.rd pgPtp R.PTP_SERVO_CFG_ki * 2 ^ 24 * o).natAbs < clampN (65536 * 1000000) (65536 * 16000000000) dt ∧
         (z * clampN (65536 * 1000000) (65536 * 16000000000) dt + s.rd pgPtp R.PTP_SERVO_CFG_kp * 2 ^ 24 * o).natAbs < clampN (65536 * 1000000) (65536 * 16000000000) dt ∧
         t.rdS pgPtp R.PTP_FREQ_f = clampI (-ppm100) ppm100 (s.rdS pgPtp R.PTP_FREQ_f + y) ∧
         t.rdS pgPtp R.PTP_ADJ_a = clampI (-ppm100) ppm100 (clampI (-ppm100) ppm100 (s.rdS pgPtp R.PTP_FREQ_f + y) + z))) ∧
  (∀ (s : State) (r : Req) (d : Word) (dt u : Nat) (o : Int), Accepts s r pgPtp 0x034 → s.ptpOn = true →
      o = toS 64 (s.rd pgPtp R.PTP_MEAS_W0_off + 2 ^ 32 * d.toNat) → o.natAbs ≤ 65536 * s.rd pgPtp R.PTP_JUMP_TH_ns →
      (s.rd pgPtp R.PTP_STAT_state = 0 ∧ s.anyArmed = true) ∨ s.rd pgPtp R.PTP_STAT_state = 3 ∨ s.rd pgPtp R.PTP_STAT_state = 4 →
    ∃ t, exec (.ptpOffsetCommit r d dt u) s = .next t ∧ t.rd pgPtp R.PTP_STAT_state = 1 ∧ t.rd pgPtp R.PTP_STAT_holdover = 0 ∧
      t.k = s.k ∧ t.rd pgPtp R.PTP_JUMP_COUNT_count = s.rd pgPtp R.PTP_JUMP_COUNT_count) ∧
  (∀ (s : State) (r : Req) (d : Word) (dt u : Nat) (o : Int), Accepts s r pgPtp 0x034 → s.ptpOn = true →
      o = toS 64 (s.rd pgPtp R.PTP_MEAS_W0_off + 2 ^ 32 * d.toNat) → 65536 * s.rd pgPtp R.PTP_JUMP_TH_ns < o.natAbs →
      s.rd pgPtp R.PTP_STAT_state = 4 → (s.rdS pgPtp R.PTP_FREQ_f).natAbs ≤ 109951162 →
      s.rd pgPtp R.PTP_SERVO_LIM_slew_ppm ≤ 50 →
    ∃ t, exec (.ptpOffsetCommit r d dt u) s = .next t ∧ t.rd pgPtp R.PTP_STAT_state = 4 ∧
      t.rd pgPtp R.PTP_FREQ_f = s.rd pgPtp R.PTP_FREQ_f ∧
      ((t.rdS pgPtp R.PTP_ADJ_a - s.rdS pgPtp R.PTP_FREQ_f) * 1000000
        + o.sign * s.rd pgPtp R.PTP_SERVO_LIM_slew_ppm * 2 ^ 40).natAbs < 1000000) ∧
  (∀ (s : State) (r : Req) (d : Word) (dt u : Nat) (o : Int), Accepts s r pgPtp 0x034 → s.ptpOn = true →
      o = toS 64 (s.rd pgPtp R.PTP_MEAS_W0_off + 2 ^ 32 * d.toNat) → o.natAbs ≤ 65536 * s.rd pgPtp R.PTP_JUMP_TH_ns →
      o.natAbs ≤ 65536 * s.rd pgPtp R.PTP_SERVO_LIM_lock_ns → s.rd pgPtp R.PTP_STAT_state = 1 →
      s.rd pgPtp R.PTP_STAT_lock_cnt = 7 →
    ∃ t, exec (.ptpOffsetCommit r d dt u) s = .next t ∧ t.rd pgPtp R.PTP_STAT_state = 2 ∧
      (t.rd pgPtp R.INT_STAT).testBit 0 = true) ∧
  (∀ (s : State) (r : Req) (d : Word) (dt u : Nat) (o : Int), Accepts s r pgPtp 0x034 → s.ptpOn = true →
      o = toS 64 (s.rd pgPtp R.PTP_MEAS_W0_off + 2 ^ 32 * d.toNat) → o.natAbs ≤ 65536 * s.rd pgPtp R.PTP_JUMP_TH_ns →
      65536 * s.rd pgPtp R.PTP_SERVO_LIM_lock_ns < o.natAbs → s.rd pgPtp R.PTP_STAT_state = 2 → s.esw.bad = 3 →
    ∃ t, exec (.ptpOffsetCommit r d dt u) s = .next t ∧ t.rd pgPtp R.PTP_STAT_state = 1) ∧
  (∀ (s : State) (r : Req) (d : Word), Accepts s r pgPtp 0x028 → s.ptpOn = true → R.PTP_CMD_step.ofB d = false →
      R.PTP_CMD_holdover.ofB d = false → R.PTP_CMD_cancel.ofB d = false →
    ∃ t, exec (.ptpSlew r d) s = .next t ∧ t.rd pgPtp R.PTP_STAT_state = 4 ∧ t.rd pgPtp R.PTP_STAT_holdover = 1 ∧
      t.rd pgPtp R.PTP_STAT_cmd_result = 0 ∧ (t.rd pgPtp R.INT_STAT).testBit 5 = true ∧ t.k = s.k) ∧
  (∀ (s : State) (r : Req) (d : Word) (u : Nat) (o : Int), Accepts s r pgPtp 0x028 → s.ptpOn = true →
      R.PTP_CMD_slew.ofB d = false → R.PTP_CMD_holdover.ofB d = false → R.PTP_CMD_cancel.ofB d = false →
      s.anyArmed = false → s.esw.last = some o →
    ∃ t, exec (.ptpStep r d u) s = .next t ∧ t.rd pgPtp R.PTP_STAT_state = 1 ∧ t.rd pgPtp R.PTP_STAT_cmd_result = 0 ∧
      t.k = ((((s.k * (s.len * 6553600) + u % (s.len * 6553600) : Nat) : Int) - o)
        % ((2 ^ 48 * 1000000000 * 65536 : Nat) : Int)).toNat / (s.len * 6553600)) ∧
  (∀ (s : State) (r : Req) (d : Word) (u : Nat), Accepts s r pgPtp 0x028 → s.ptpOn = true →
      R.PTP_CMD_slew.ofB d = false → R.PTP_CMD_holdover.ofB d = false → R.PTP_CMD_cancel.ofB d = false →
    ∃ t, exec (.ptpStep r d u) s = .next t ∧
      (s.anyArmed = true → t.rd pgPtp R.PTP_STAT_cmd_result = 2 ∧ t.k = s.k ∧
        t.rd pgPtp R.PTP_STAT_state = s.rd pgPtp R.PTP_STAT_state) ∧
      (s.anyArmed = false → s.esw.last = none → t.rd pgPtp R.PTP_STAT_cmd_result = 1 ∧ t.k = s.k)) ∧
  (∀ (s : State) (r : Req) (d : Word), Accepts s r pgPtp 0x028 → s.ptpOn = true → R.PTP_CMD_slew.ofB d = false →
      R.PTP_CMD_step.ofB d = false → R.PTP_CMD_cancel.ofB d = false →
    ∃ t, exec (.ptpHoldover r d) s = .next t ∧ t.rd pgPtp R.PTP_STAT_state = 3 ∧ t.rd pgPtp R.PTP_STAT_holdover = 1 ∧
      t.rdS pgPtp R.PTP_ADJ_a = s.rdS pgPtp R.PTP_FREQ_f ∧ t.rd pgPtp R.PTP_STAT_cmd_result = 0) ∧
  (∀ (s : State) (r : Req) (d : Word), Accepts s r pgPtp 0x028 → s.ptpOn = true → R.PTP_CMD_slew.ofB d = false →
      R.PTP_CMD_step.ofB d = false → R.PTP_CMD_holdover.ofB d = false → s.rd pgPtp R.PTP_STAT_state = 4 →
    ∃ t, exec (.ptpCancel r d) s = .next t ∧ t.rd pgPtp R.PTP_STAT_state = 3 ∧ t.rd pgPtp R.PTP_STAT_cmd_result = 0 ∧
      t.rdS pgPtp R.PTP_ADJ_a = s.rdS pgPtp R.PTP_FREQ_f) ∧
  (∀ (s : State) (r : Req) (d : Word), Accepts s r pgPtp 0x028 → s.ptpOn = true →
      R.PTP_CMD_step.ofB d = true ∨ R.PTP_CMD_holdover.ofB d = true ∨ R.PTP_CMD_cancel.ofB d = true →
    ∃ t, exec (.ptpSlew r d) s = .next t ∧ t.rd pgPtp R.PTP_STAT_cmd_result = 7 ∧ t.k = s.k ∧
      t.rd pgPtp R.PTP_STAT_state = s.rd pgPtp R.PTP_STAT_state ∧ t.rd pgPtp R.PTP_ADJ_a = s.rd pgPtp R.PTP_ADJ_a) ∧
  (∀ s : State, s.ptpOn = true → s.rd pgPtp R.PTP_STAT_state = 1 ∨ s.rd pgPtp R.PTP_STAT_state = 2 →
    ∃ t, exec .ptpHoldoverTimeout s = .next t ∧ t.rd pgPtp R.PTP_STAT_state = 3 ∧ t.rd pgPtp R.PTP_STAT_holdover = 1 ∧
      t.rdS pgPtp R.PTP_ADJ_a = s.rdS pgPtp R.PTP_FREQ_f ∧ t.rd pgPtp R.PTP_FREQ_f = s.rd pgPtp R.PTP_FREQ_f)

/-- R388, R390, R391: transmit timestamps and the transmit ring of the PTP unit. A queue holds 16 entries and a full one counts the
loss; reading PTP_Pp_TSQ_HDR removes the oldest entry; a descriptor's frame is queued at the port it names. -/
def Obligations.PtpTimestamps : Prop :=
  (∀ (s : State) (p : Fin 3) (cap : Nat) (seq type dom : Nat) (rest : List (Nat × Nat × Nat)),
      s.esw.tsWait.get [] p.val = (seq, type, dom) :: rest → (s.esw.tsq.get [] p.val).length < 16 →
    ∃ t, exec (.ptpTxTimestamp p cap) s = .next t ∧ t.esw.tsWait.get [] p.val = rest ∧
      t.esw.tsq.get [] p.val = s.esw.tsq.get [] p.val ++
        [⟨4096 * ((cap : Int) + (s.latency p).2 + s.rdS pgPtp (R.PTP_P_BOARD_TX_d p)), seq, type, dom⟩] ∧
      t.fields = s.fields) ∧
  (∀ (s : State) (p : Fin 3) (cap : Nat), s.esw.tsWait.get [] p.val ≠ [] → 16 ≤ (s.esw.tsq.get [] p.val).length →
    ∃ t, exec (.ptpTxTimestamp p cap) s = .next t ∧ t.esw.tsq = s.esw.tsq ∧
      t.rd pgPtp (R.PTP_P_TSQ_OVF_count p) = min (s.rd pgPtp (R.PTP_P_TSQ_OVF_count p) + 1) (2 ^ 32 - 1) ∧
      (t.rd pgPtp R.INT_STAT).testBit 2 = true) ∧
  (∀ (s : State) (r : Req) (p : Fin 3) (x : TsEnt) (rest : List TsEnt),
      s.accCause r pgPtp (0x120 + 64 * p.val) false = none → s.esw.tsq.get [] p.val = x :: rest →
    ∃ t, exec (.ptpTsqPop r p) s = .next t ∧ t.esw.tsq.get [] p.val = rest ∧ t.rsp.err = false ∧
      t.rsp.data = 2 ^ 31 + x.type % 16 * 2 ^ 24 + x.domain % 256 * 2 ^ 16 + x.seq % 2 ^ 16 ∧
      t.rd (iReq (reqId r)) (R.PTP_P_TSQ_NS_ns p) = (x.ts / 65536).toNat % 1000000000) ∧
  (∀ (s : State) (r : Req) (p : Fin 3), s.accCause r pgPtp (0x120 + 64 * p.val) false = none → s.esw.tsq.get [] p.val = [] →
    ∃ t, exec (.ptpTsqPop r p) s = .next t ∧ t.rsp.data = 0 ∧ t.rsp.err = false ∧ t.fields = s.fields) ∧
  (∀ (s : State) (r : Req) (d : Word) (n a buf len : Nat) (p : Fin 3), Accepts s r pgPtp 0x094 → s.ptpOn = true →
      s.mem.wf = true → s.eswOn = true → s.portUp p = true → n = s.rd pgPtp R.PTP_RING_tx_log → 4 ≤ n → n ≤ 10 →
      s.ringDesc (s.rd2 pgPtp R.PTP_TX_BASE_W0_addr R.PTP_TX_BASE_W1_addr) 32 s.esw.ptpTx = some (a, buf) →
      s.ringDesc (s.rd2 pgPtp R.PTP_TX_BASE_W0_addr R.PTP_TX_BASE_W1_addr) 32 ((s.esw.ptpTx + 1) % 2 ^ n) = none →
      len = ofBytes (s.load (a + 8) 2) → s.normDram buf len = true → (ofBytes (s.load (a + 10) 1)) % 4 = p.val →
    ∃ t, exec (.ptpTxDoorbell r d) s = .next t ∧ t.mem.read (a + 11) = 0 ∧ t.esw.ptpTx = (s.esw.ptpTx + 1) % 2 ^ n ∧
      (t.rd pgPtp R.INT_STAT).testBit 4 = true ∧
      ∃ f, t.esw.frames = s.esw.frames ++ [f] ∧ f.outs = [p.val] ∧ f.cls = s.rd pgEsw R.ESW_PTP_CLASS_class ∧
        f.ended = true ∧ f.bytes = s.load buf len ++ toBytes 4 (ethCrc (s.load buf len)))

/-- R372, R373, R379: lookup and admission of a frame. An untagged frame takes the port's VID; the set of outputs is the entry's ports or
every member, without the input, non-members and ports whose link is down; a frame that breaks a rule or finds no queue is counted. -/
def Obligations.SwitchLookup : Prop :=
  (∀ (s : State) (p : Nat) (bs : List Byte), hasTag bs = false → s.rd pgEsw (R.ESW_P_CFG_accept p) ≠ 1 →
      bitOf (s.vlanMember (s.rd pgEsw (R.ESW_P_CFG_pvid p))) p = true →
    (s.lookup p bs).2 = false ∧ (s.lookup p bs).1.vid = some (s.rd pgEsw (R.ESW_P_CFG_pvid p)) ∧
      (s.lookup p bs).1.cls = (if etherType bs = 0x88F7 then s.rd pgEsw R.ESW_PTP_CLASS_class
        else s.rd pgEsw (R.ESW_PCP_MAP_class (s.rd pgEsw (R.ESW_P_CFG_def_pcp p)))) ∧
      ∀ o, o ∈ (s.lookup p bs).1.outs ↔ o < 4 ∧ o ≠ p ∧ s.portUp o = true ∧
        bitOf (s.vlanMember (s.rd pgEsw (R.ESW_P_CFG_pvid p))) o = true ∧
        (if linkLocal (be bs 0 6) = true then o = 3 ∧ etherType bs ≠ 0x88F7
         else be bs 0 6 = 2 ^ 48 - 1 ∨
           (∀ e, s.atuFind (s.rd pgEsw (R.ESW_P_CFG_pvid p)) (be bs 0 6) = some e → bitOf e.ports o = true))) ∧
  (∀ (s : State) (p : Fin 3) (bs : List Byte) (cap : Nat) (busy : Fin 16), s.eswOn = true → s.portUp p = true →
      (∀ q < 3, s.arriving q = none) → etherType bs ≠ 0x88F7 → (s.lookup p bs).2 = false →
    ∃ t, exec (.eswFrameLookup p bs cap false busy []) s = .next t ∧ ∃ f, t.esw.frames = s.esw.frames ++ [f] ∧ f.inp = p.val ∧
      f.ended = false ∧ f.bytes = bs ∧ f.cls = (s.lookup p bs).1.cls ∧
      f.outs = (s.lookup p bs).1.outs.filter (fun o => s.admits o f.cls ((s.maxLen + 255) / 256))) ∧
  (∀ (s : State) (p : Fin 3) (bs : List Byte) (cap : Nat) (busy : Fin 16), s.eswOn = true → s.portUp p = true →
      (∀ q < 3, s.arriving q = none) → (s.lookup p bs).2 = true →
    ∃ t, exec (.eswFrameLookup p bs cap false busy []) s = .next t ∧
      t.rd pgEsw (R.ESW_P_RX_DROP_count p) = min (s.rd pgEsw (R.ESW_P_RX_DROP_count p) + 1) (2 ^ 32 - 1)) ∧
  (∀ (s : State) (p : Fin 3) (bs : List Byte) (cap : Nat) (busy : Fin 16), s.eswOn = true → s.portUp p = true →
      (∀ q < 3, s.arriving q = none) → (s.lookup p bs).2 = false → (s.lookup p bs).1.outs ≠ [] →
      (∀ o < 4, s.admits o (s.lookup p bs).1.cls ((s.maxLen + 255) / 256) = false) →
    ∃ t, exec (.eswFrameLookup p bs cap false busy []) s = .next t ∧
      t.rd pgEsw (R.ESW_P_RX_DROP_count p) = min (s.rd pgEsw (R.ESW_P_RX_DROP_count p) + 1) (2 ^ 32 - 1) ∧
      (t.rd pgEsw R.INT_STAT).testBit 5 = true)

/-- R375, R376, R380, R381: frames end, leave and are dropped. A good frame is counted and its source learned, a bad one is counted once
at its input and tail-marked where it already leaves; an output takes the highest class first. -/
def Obligations.SwitchFrames : Prop :=
  (∀ (s : State) (p : Fin 3) (bs : List Byte) (f : EthFrame) (v : Nat), s.arriving p = some f → f.vid = some v → f.ptp = false →
      f.now = [] → 64 ≤ bs.length → bs.length ≤ s.maxLen →
      ofBytes (bs.drop (bs.length - 4)) = ethCrc (bs.take (bs.length - 4)) → isMulti (be bs 6 6) = false →
      s.rd pgEsw (R.ESW_P_CFG_learn p) = 1 → s.atuFind v (be bs 6 6) = none → s.atuFull v (be bs 6 6) = false →
    ∃ t, exec (.eswFrameEnd p bs false) s = .next t ∧
      t.atuFind v (be bs 6 6) = some { vid := v, mac := be bs 6 6, stat := false, ports := 2 ^ p.val } ∧
      t.rd pgEsw (R.ESW_P_RX_FRAMES_count p) = min (s.rd pgEsw (R.ESW_P_RX_FRAMES_count p) + 1) (2 ^ 32 - 1) ∧
      t.rd pgEsw (R.ESW_P_RX_BYTES_count p) = min (s.rd pgEsw (R.ESW_P_RX_BYTES_count p) + bs.length) (2 ^ 32 - 1) ∧
      t.rd pgEsw (R.ESW_P_RX_BAD_count p) = s.rd pgEsw (R.ESW_P_RX_BAD_count p)) ∧
  (∀ (s : State) (p : Fin 3) (bs : List Byte) (f : EthFrame) (o : Fin 3) (add : Int), s.arriving p = some f →
      f.now = [(o.val, add)] → f.tsReq = false →
    ∃ t, exec (.eswFrameEnd p bs true) s = .next t ∧
      t.rd pgEsw (R.ESW_P_RX_BAD_count p) = min (s.rd pgEsw (R.ESW_P_RX_BAD_count p) + 1) (2 ^ 32 - 1) ∧
      t.rd pgEsw (R.ESW_P_TX_TAIL_count o) = min (s.rd pgEsw (R.ESW_P_TX_TAIL_count o) + 1) (2 ^ 32 - 1) ∧
      (t.rd pgEsw R.INT_STAT).testBit 6 = true ∧ t.esw.atu = s.esw.atu ∧
      ∃ g, Out.eth o.val (g ++ toBytes 4 (0xFFFFFFFF ^^^ ethCrc g)) ∈ t.out) ∧
  (∀ (s : State) (o : Nat) (f g : EthFrame), s.nextFrame o = some f → g ∈ s.esw.frames → o ∈ g.outs → g.ended = true → g.cls < 8 →
    f ∈ s.esw.frames ∧ o ∈ f.outs ∧ g.cls ≤ f.cls) ∧
  (∀ (s : State) (o : Fin 3) (cap waited : Nat) (f : EthFrame), s.eswOn = true → s.portUp o = true → s.esw.pause.get 0 o.val ≤ waited →
      (∀ g ∈ s.esw.frames, ∀ x ∈ g.now, x.1 ≠ o.val) → s.nextFrame o = some f → f.ended = true → f.tsReq = false →
      s.rd pgPtp R.PTP_CFG_tc = 0 →
    ∃ t, exec (.eswTxStart ⟨o.val, by omega⟩ cap waited) s = .next t ∧
      Out.eth o.val (s.outBytes f o 0 ++ toBytes 4 (ethCrc (s.outBytes f o 0))) ∈ t.out ∧
      t.rd pgEsw (R.ESW_P_TX_FRAMES_count o) = min (s.rd pgEsw (R.ESW_P_TX_FRAMES_count o) + 1) (2 ^ 32 - 1) ∧
      t.rd pgEsw (R.ESW_P_TX_TAIL_count o) = s.rd pgEsw (R.ESW_P_TX_TAIL_count o)) ∧
  (∀ (s : State) (p : Fin 3) (quanta : Fin 65536) (len : Nat), s.eswOn = true → s.portUp p = true →
    ∃ t, exec (.pauseFrameRx p quanta len) s = .next t ∧ t.esw.pause.get 0 p.val = quanta ∧ t.esw.frames = s.esw.frames ∧
      t.rd pgEsw (R.ESW_P_RX_FRAMES_count p) = min (s.rd pgEsw (R.ESW_P_RX_FRAMES_count p) + 1) (2 ^ 32 - 1)) ∧
  (∀ (s : State) (p : Fin 3) (cap waited : Nat), waited < s.esw.pause.get 0 p.val →
    ∃ t, exec (.eswTxStart ⟨p.val, by omega⟩ cap waited) s = .next t ∧ t.esw = s.esw ∧ t.fields = s.fields ∧ t.out = []) ∧
  (∀ (s : State) (p : Fin 3), s.eswOn = true → s.rd pgEsw (R.ESW_P_STAT_link p) = 1 →
    ∃ t, exec (.eswLinkDown p) s = .next t ∧ t.rd pgEsw (R.ESW_P_STAT_link p) = 0 ∧ (t.rd pgEsw R.INT_STAT).testBit p = true ∧
      t.rd pgEsw (R.ESW_P_TX_DROP_count p) = min (s.rd pgEsw (R.ESW_P_TX_DROP_count p)
        + (s.esw.frames.filter (fun f => f.outs.contains p.val)).length) (2 ^ 32 - 1) ∧
      ∀ f ∈ t.esw.frames, p.val ∉ f.outs) ∧
  (∀ (s : State) (p : Fin 2) (speed : Fin 3), s.eswOn = true → s.rd pgEsw (R.ESW_P_CFG_en p) = 1 →
      s.rd pgEsw (R.ESW_P_STAT_link p) = 0 → s.rd pgEsw (R.ESW_P_CFG_mode p) < 3 →
    ∃ t, exec (.eswLinkUp ⟨p.val, by omega⟩ speed) s = .next t ∧ t.rd pgEsw (R.ESW_P_STAT_link p) = 1 ∧ t.portUp p = true ∧
      (t.rd pgEsw R.INT_STAT).testBit p = true ∧
      t.rd pgEsw (R.ESW_P_STAT_speed p) = (if s.rd pgEsw (R.ESW_P_CFG_mode p) = 0 then 3
        else if s.rd pgEsw (R.ESW_P_CFG_mode p) = 1 then 2 else speed.val)) ∧
  (∀ (s : State) (r : Req) (d : Word) (n a buf : Nat), Accepts s r pgEsw 0x214 → s.eswOn = true → s.portUp 3 = true →
      s.mem.wf = true → s.arriving 3 = none →
      n = s.rd pgEsw R.ESW_P3_RING_tx_log → 4 ≤ n → n ≤ 12 →
      s.ringDesc (s.rd2 pgEsw R.ESW_P3_TX_BASE_W0_addr R.ESW_P3_TX_BASE_W1_addr) 16 s.esw.p3Tx = some (a, buf) →
      s.ringDesc (s.rd2 pgEsw R.ESW_P3_TX_BASE_W0_addr R.ESW_P3_TX_BASE_W1_addr) 16 ((s.esw.p3Tx + 1) % 2 ^ n) = none →
    ∃ t, exec (.p3TxDoorbell r d) s = .next t ∧ t.mem.read (a + 11) = 0 ∧ t.esw.p3Tx = (s.esw.p3Tx + 1) % 2 ^ n ∧
      t.rd pgEsw (R.ESW_P_RX_FRAMES_count 3) = min (s.rd pgEsw (R.ESW_P_RX_FRAMES_count 3) + 1) (2 ^ 32 - 1))

/-- R381: the address table. Commands act on the entry of the key: a read shows it, a write puts it unless its bucket is full, a delete
removes it, a flush removes every dynamic entry; only dynamic entries age. -/
def Obligations.AddressTable : Prop :=
  (∀ (s : State) (r : Req) (d : Word), Accepts s r pgEsw 0x04C → R.ESW_ATU_CMD_flush_dyn.ofB d = false →
    ∃ t, exec (.atuRead r d) s = .next t ∧ t.esw = s.esw ∧
      (∀ e, s.atuFind s.atuKey.1 s.atuKey.2 = some e → e.ports < 16 → t.rd pgEsw R.ESW_ATU_CMD_result = 0 ∧
        t.rd pgEsw R.ESW_ATU_DATA_valid = 1 ∧ t.rd pgEsw R.ESW_ATU_DATA_static = b2n e.stat ∧
        t.rd pgEsw R.ESW_ATU_DATA_ports = e.ports) ∧
      (s.atuFind s.atuKey.1 s.atuKey.2 = none → t.rd pgEsw R.ESW_ATU_CMD_result = 1)) ∧
  (∀ (s : State) (r : Req) (d : Word), Accepts s r pgEsw 0x04C → R.ESW_ATU_CMD_flush_dyn.ofB d = false →
      s.rd pgEsw R.ESW_ATU_DATA_valid = 1 →
    ∃ t, exec (.atuWrite r d) s = .next t ∧
      (s.atuFind s.atuKey.1 s.atuKey.2 = none → s.atuFull s.atuKey.1 s.atuKey.2 = true →
        t.rd pgEsw R.ESW_ATU_CMD_result = 2 ∧ t.esw = s.esw) ∧
      (s.atuFull s.atuKey.1 s.atuKey.2 = false → t.rd pgEsw R.ESW_ATU_CMD_result = 0 ∧
        t.atuFind s.atuKey.1 s.atuKey.2 = some
          { vid := s.atuKey.1, mac := s.atuKey.2, stat := s.rdB pgEsw R.ESW_ATU_DATA_static, ports := s.rd pgEsw R.ESW_ATU_DATA_ports })) ∧
  (∀ (s : State) (r : Req) (d : Word), Accepts s r pgEsw 0x04C → R.ESW_ATU_CMD_flush_dyn.ofB d = false →
    ∃ t, exec (.atuDelete r d) s = .next t ∧ t.atuFind s.atuKey.1 s.atuKey.2 = none ∧
      t.rd pgEsw R.ESW_ATU_CMD_result = (if (s.atuFind s.atuKey.1 s.atuKey.2).isNone then 1 else 0) ∧
      ∀ e, (e.vid, e.mac) ≠ s.atuKey → (e ∈ t.esw.atu ↔ e ∈ s.esw.atu)) ∧
  (∀ (s : State) (r : Req) (d : Word), Accepts s r pgEsw 0x04C → R.ESW_ATU_CMD_op.of d = 0 →
    ∃ t, exec (.atuFlushDyn r d) s = .next t ∧ t.rd pgEsw R.ESW_ATU_CMD_result = 0 ∧
      ∀ e, e ∈ t.esw.atu ↔ e ∈ s.esw.atu ∧ e.stat = true) ∧
  (∀ (s : State) (vid : Fin 4096) (mac : BitVec 48) (e : AtuEnt), s.atuFind vid mac.toNat = some e → s.eswOn = true → e.stat = false →
      s.rd pgEsw R.ESW_AGE_age_s ≠ 0 →
    ∃ t, exec (.atuAgeExpiry vid mac) s = .next t ∧ t.atuFind vid mac.toNat = none ∧ t.fields = s.fields) ∧
  (∀ (s : State) (vid : Fin 4096) (mac : BitVec 48) (e : AtuEnt), s.atuFind vid mac.toNat = some e →
      e.stat = true ∨ s.rd pgEsw R.ESW_AGE_age_s = 0 →
    ∃ t, exec (.atuAgeExpiry vid mac) s = .next t ∧ t.esw = s.esw ∧ t.fields = s.fields)

/-- R354, R355: a write of BRG_CMD issues a transaction. The first failing check gives BRG_ISSUE.result and nothing is sent; otherwise the
lowest free tag is allocated and the request waits for its bank's slots.
R356, R364 to R366, R368, R369: how transactions end. A response that fits completes a read or frees the tag of a write, a failed write
is logged, a response that fits no tag only counts; a read is collected once, by its requester; a tag that timed out is quarantined. -/
def Obligations.BridgeAccesses : Prop :=
  (∀ (s : State) (r : Req) (d : Word), Accepts s r pgBrg 0x028 →
    ∃ t, exec (.brgRead r d) s = .next t ∧ t.rd (iReq (reqId r)) R.BRG_ISSUE_valid = 1 ∧
      t.rd (iReq (reqId r)) R.BRG_ISSUE_result =
        (let b := bitsOf d.toNat 10 5;
         let reg := bitsOf d.toNat 0 10;
         if s.ownerAccepts r (pgBnk b) = false then 0x9
         else if s.linkUp b = false then 0xA
         else if idU16 (s.bk b).ident 0x056 ≤ reg then 0xB
         else if remoteSe (s.bk b).ident reg = true ∧ R.BRG_CMD_se_ok.ofB d = false then 0xC
         else if (List.range 64).all (fun n => (s.tag n).st != 0) = true then 0xD else 0)) ∧
  (∀ (s : State) (r : Req) (d : Word), Accepts s r pgBrg 0x028 →
    ∃ t, exec (.brgWrite r d) s = .next t ∧ t.rd (iReq (reqId r)) R.BRG_ISSUE_valid = 1 ∧
      t.rd (iReq (reqId r)) R.BRG_ISSUE_result =
        (let b := bitsOf d.toNat 10 5;
         let reg := bitsOf d.toNat 0 10;
         if s.ownerAccepts r (pgBnk b) = false then 0x9
         else if s.linkUp b = false then 0xA
         else if idU16 (s.bk b).ident 0x056 ≤ reg then 0xB
         else if (List.range 64).all (fun n => (s.tag n).st != 0) = true then 0xD else 0)) ∧
  (∀ (s : State) (r : Req) (d : Word) (n : Fin 64), Accepts s r pgBrg 0x028 → s.ownerAccepts r (pgBnk (bitsOf d.toNat 10 5)) = true →
      s.linkUp (bitsOf d.toNat 10 5) = true → bitsOf d.toNat 0 10 < idU16 (s.bk (bitsOf d.toNat 10 5)).ident 0x056 →
      R.BRG_CMD_se_ok.ofB d = true → (s.tag n).st = 0 → (∀ m < n.val, (s.tag m).st ≠ 0) →
    ∃ t, exec (.brgRead r d) s = .next t ∧ t.rd (iReq (reqId r)) R.BRG_ISSUE_tag = n ∧ (t.tag n).st = 1 ∧
      (t.tag n).write = false ∧ (t.tag n).sent = false ∧ (t.tag n).bank = bitsOf d.toNat 10 5 ∧
      (t.tag n).reg = bitsOf d.toNat 0 10 ∧ (t.tag n).req = reqId r ∧
      (t.bk (bitsOf d.toNat 10 5)).brgQ = (s.bk (bitsOf d.toNat 10 5)).brgQ ++ [n.val] ∧
      ∀ m, m ≠ n.val → t.tag m = s.tag m) ∧
  (∀ (s : State) (r : Req) (d : Word) (n : Fin 64), Accepts s r pgBrg 0x028 → s.ownerAccepts r (pgBnk (bitsOf d.toNat 10 5)) = true →
      s.linkUp (bitsOf d.toNat 10 5) = true → bitsOf d.toNat 0 10 < idU16 (s.bk (bitsOf d.toNat 10 5)).ident 0x056 →
      (s.tag n).st = 0 → (∀ m < n.val, (s.tag m).st ≠ 0) →
    ∃ t, exec (.brgWrite r d) s = .next t ∧ t.rd (iReq (reqId r)) R.BRG_ISSUE_tag = n ∧ (t.tag n).st = 1 ∧
      (t.tag n).write = true ∧ (t.tag n).data = s.rd (iReq (reqId r)) R.BRG_WDATA_data ∧
      (t.bk (bitsOf d.toNat 10 5)).brgQ = (s.bk (bitsOf d.toNat 10 5)).brgQ ++ [n.val] ∧
      ∀ m, m ≠ n.val → t.tag m = s.tag m) ∧
  (∀ (s : State) (b : Fin 32) (w dw : Nat) (rest : List Nat) (n : Fin 64), (s.bk b).resp = w :: dw :: rest → bitsOf w 32 4 = 2 →
      bitsOf w 26 6 = n → (s.tag n).st = 1 → (s.tag n).sent = true → (s.tag n).bank = b → (s.tag n).write = false →
      (s.tag n).reg = bitsOf w 8 10 → crcBits 8 0x07 (crcBits 8 0x07 0 (w / 256) 28) dw 36 = bitsOf w 0 8 → bitsOf dw 32 4 = 3 →
      (s.tag n).isFn = false →
    ∃ t, exec (.brgResponse b) s = .next t ∧ (t.tag n).st = 2 ∧ (t.tag n).status = bitsOf w 24 2 ∧ (t.bk b).resp = rest ∧
      (t.tag n).data = (if bitsOf w 24 2 = 0 then dw % 2 ^ 32 else 0)) ∧
  (∀ (s : State) (b : Fin 32) (w : Nat) (rest : List Nat) (n : Fin 64), (s.bk b).resp = w :: rest → bitsOf w 32 4 = 4 →
      bitsOf w 26 6 = n → (s.tag n).st = 1 → (s.tag n).sent = true → (s.tag n).bank = b → (s.tag n).write = true →
      (s.tag n).reg = bitsOf w 8 10 → crcBits 8 0x07 0 (w / 256) 28 = bitsOf w 0 8 → bitsOf w 24 2 = 0 →
    ∃ t, exec (.brgResponse b) s = .next t ∧ (t.tag n).st = 0 ∧ (t.bk b).resp = rest ∧ t.fields = s.fields) ∧
  (∀ (s : State) (b : Fin 32) (w : Nat) (rest : List Nat) (n : Fin 64), (s.bk b).resp = w :: rest → bitsOf w 32 4 = 4 →
      bitsOf w 26 6 = n → (s.tag n).st = 1 → (s.tag n).sent = true → (s.tag n).bank = b → (s.tag n).write = true →
      (s.tag n).reg = bitsOf w 8 10 → crcBits 8 0x07 0 (w / 256) 28 = bitsOf w 0 8 → bitsOf w 24 2 ≠ 0 →
      s.rd pgBrg (R.BRG_LATE_W0_valid 0) = 0 →
    ∃ t, exec (.brgResponse b) s = .next t ∧ (t.tag n).st = 0 ∧ t.rd pgBrg (R.BRG_LATE_W0_valid 0) = 1 ∧
      t.rd pgBrg (R.BRG_LATE_W0_status 0) = bitsOf w 24 2 ∧ t.rd pgBrg (R.BRG_LATE_W0_tag 0) = n ∧
      t.rd pgBrg (R.BRG_LATE_W0_bank 0) = b ∧ t.rd pgBrg (R.BRG_LATE_W0_reg 0) = bitsOf w 8 10 ∧
      (t.rd pgBrg R.INT_STAT).testBit 0 = true) ∧
  (∀ (s : State) (b : Fin 32) (w : Nat) (rest : List Nat), (s.bk b).resp = w :: rest → bitsOf w 32 4 = 4 →
      (s.tag (bitsOf w 26 6)).st ≠ 1 ∨ (s.tag (bitsOf w 26 6)).bank ≠ b →
    ∃ t, exec (.brgResponse b) s = .next t ∧ t.tags = s.tags ∧ (t.bk b).resp = rest ∧
      t.rd pgBrg R.BRG_STRAY_count = min (s.rd pgBrg R.BRG_STRAY_count + 1) (2 ^ 32 - 1)) ∧
  (∀ (s : State) (n : Fin 64), (s.tag n).st = 1 → (s.tag n).sent = true → (s.tag n).write = false → (s.tag n).isFn = false →
      (s.tag n).m + max 5 (s.rd pgBrg R.BRG_CFG_resp_sf) < s.k →
    ∃ t, exec (.brgTimeout n) s = .next t ∧ (t.tag n).st = 2 ∧ (t.tag n).status = 4 ∧ (t.tag n).data = 0 ∧
      (t.tag n).quar = s.k + 256) ∧
  (∀ (s : State) (r : Req) (n : Fin 64), s.accCause r pgBrg 0x038 false = none → s.rd (iReq (reqId r)) R.BRG_TAG_SEL_tag = n →
      (s.tag n).st = 2 →
    ∃ t, exec (.brgCollect r) s = .next t ∧ t.rsp.err = false ∧
      ((s.tag n).req = reqId r → t.rsp.data = (s.tag n).data ∧ (t.tag n).st = (if s.k < (s.tag n).quar then 3 else 0)) ∧
      ((s.tag n).req ≠ reqId r → t.rsp.data = 0 ∧ t.tags = s.tags)) ∧
  (∀ (s : State) (n : Fin 64), (s.tag n).st = 2 →
    ∃ t, exec (.brgDiscardExpiry n) s = .next t ∧ (t.tag n).st = (if s.k < (s.tag n).quar then 3 else 0) ∧
      t.rd pgBrg R.BRG_DISCARD_count = min (s.rd pgBrg R.BRG_DISCARD_count + 1) (2 ^ 32 - 1) ∧
      (t.rd pgBrg R.INT_STAT).testBit 2 = true ∧
      ((s.tag n).se = true → (s.tag n).sent = true → s.rd pgBrg (R.BRG_LATE_W0_valid 0) = 0 →
        t.rd pgBrg (R.BRG_LATE_W0_valid 0) = 1 ∧ t.rd pgBrg (R.BRG_LATE_W0_status 0) = 8)) ∧
  (∀ (s : State) (n : Fin 64), (s.tag n).st = 3 → (s.tag n).quar ≤ s.k →
    ∃ t, exec (.brgQuarantineEnd n) s = .next t ∧ t.tag n = {} ∧ t.fields = s.fields)

/-- R341, R344, R349, R350: the pool and the watermarks. An enable takes a region within DRAM below its watermark while MEM is on, with
every cell free; a queue's live state changes when its count reaches the high or falls to the low watermark, and every change is kept. -/
def Obligations.PoolAndWatermarks : Prop :=
  (∀ (s : State) (r : Req) (d : Word), Accepts s r pgQpm 0x008 → s.locked pgQpm = false → s.poolOn = false → d.toNat.testBit 1 = false →
      s.rd pgQpm R.QPM_POOL_size ≤ 16 → s.rd pgQpm R.QPM_POOL_idx + max (s.rd pgQpm R.QPM_POOL_size) 1 ≤ 32 → s.domOn 6 = true →
      65536 * (s.rd pgQpm R.QPM_POOL_idx + max (s.rd pgQpm R.QPM_POOL_size) 1) ≤ s.rd pgSec R.SEC_WM_DRAM_units →
    ∃ t, exec (.qpmEnable r d) s = .next t ∧ t.rd pgQpm (R.CTRL_enable pgQpm) = 1 ∧ t.rd pgQpm R.QPM_POOL_STAT_cfg_err = 0 ∧
      t.rd pgQpm R.QPM_POOL_STAT_mem_off = 0 ∧
      t.qpmFree = max (s.rd pgQpm R.QPM_POOL_size) 1 * 1048576) ∧
  (∀ (s : State) (r : Req) (d : Word), Accepts s r pgQpm 0x008 → s.locked pgQpm = false → s.poolOn = false → d.toNat.testBit 1 = false →
      16 < s.rd pgQpm R.QPM_POOL_size ∨ 32 < s.rd pgQpm R.QPM_POOL_idx + max (s.rd pgQpm R.QPM_POOL_size) 1 ∨ s.domOn 6 = false ∨
        s.rd pgSec R.SEC_WM_DRAM_units < 65536 * (s.rd pgQpm R.QPM_POOL_idx + max (s.rd pgQpm R.QPM_POOL_size) 1) →
    ∃ t, exec (.qpmEnable r d) s = .next t ∧ t.rd pgQpm (R.CTRL_enable pgQpm) = 0 ∧ t.rd pgQpm R.QPM_POOL_STAT_cfg_err = 1) ∧
  (∀ (s : State) (q : Nat), s.rd (iQue q) R.QPM_Q_STAT_live_hi = 0 → s.rd (iQue q) R.QPM_Q_HI_cells ≠ 0 →
      s.rd (iQue q) R.QPM_Q_HI_cells ≤ (s.queue q).count →
    (s.qCross q).rd (iQue q) R.QPM_Q_STAT_live_hi = 1 ∧ (s.qCross q).rd (iQue q) R.QPM_Q_STAT_hi_seen = 1 ∧
      (s.qCross q).rd (iQue q) R.QPM_Q_XCNT_hi = min (s.rd (iQue q) R.QPM_Q_XCNT_hi + 1) 255 ∧
      ((s.qCross q).rd pgQpm R.INT_STAT).testBit 0 = true) ∧
  (∀ (s : State) (q : Nat), s.rd (iQue q) R.QPM_Q_STAT_live_hi = 1 →
      (s.queue q).count ≤ min (s.rd (iQue q) R.QPM_Q_LO_cells) (s.rd (iQue q) R.QPM_Q_HI_cells - 1) →
    (s.qCross q).rd (iQue q) R.QPM_Q_STAT_live_hi = 0 ∧ (s.qCross q).rd (iQue q) R.QPM_Q_STAT_lo_seen = 1 ∧
      (s.qCross q).rd (iQue q) R.QPM_Q_XCNT_lo = min (s.rd (iQue q) R.QPM_Q_XCNT_lo + 1) 255 ∧
      ((s.qCross q).rd pgQpm R.INT_STAT).testBit 1 = true) ∧
  (∀ (s : State) (q : Nat), (s.rd (iQue q) R.QPM_Q_STAT_live_hi = 0 ∧ (s.queue q).count < s.rd (iQue q) R.QPM_Q_HI_cells) ∨
      (s.rd (iQue q) R.QPM_Q_STAT_live_hi = 1 ∧ s.rd (iQue q) R.QPM_Q_LO_cells < (s.queue q).count ∧
        s.rd (iQue q) R.QPM_Q_LO_cells < s.rd (iQue q) R.QPM_Q_HI_cells) →
    s.qCross q = s)

/-- R219, R343, R345, R346, R348: items. A first word is admitted with its cells reserved, refused with a wait that counts once, or
discarded where the queue is disabled (a cell record waits); the end of an item makes it visible at the queue's end.
R352, R353: a flush frees every item of the queue and the cells of an item in progress, whose remaining words are discarded up to its
end; clearing QPM_Q_CFG.en flushes the queue and disables it. -/
def Obligations.PoolItemsAndFlush : Prop :=
  (∀ (s : State) (p : Fin 3) (it : Item) (rest : List Item), s.domOn 0 = true → s.portBusy p = false → s.portWaits p = false →
      s.port p = it :: rest → s.rd (iQue it.queue) R.QPM_Q_CFG_en = 1 → (s.queue it.queue).prog = none →
      (s.queue it.queue).disc = none →
      (s.queue it.queue).count + (it.bytes.length + 247) / 248 ≤ s.rd (iQue it.queue) R.QPM_Q_MAX_cells →
      (it.bytes.length + 247) / 248 ≤ s.qpmFree →
    ∃ t, exec (.qpmItemFirstWord p) s = .next t ∧ t.portBusy p = true ∧ t.portWaits p = false ∧
      t.qpmFree = s.qpmFree - (it.bytes.length + 247) / 248 ∧ (t.queue it.queue).items = (s.queue it.queue).items ∧
      ∃ cs, (t.queue it.queue).prog = some (p.val, { len := it.bytes.length, cells := cs }) ∧
        cs.length = (it.bytes.length + 247) / 248) ∧
  (∀ (s : State) (p : Fin 3) (it : Item) (rest : List Item), s.domOn 0 = true → s.portBusy p = false → s.portWaits p = false →
      s.port p = it :: rest → s.rd (iQue it.queue) R.QPM_Q_CFG_en = 1 →
      s.rd (iQue it.queue) R.QPM_Q_MAX_cells < (s.queue it.queue).count + (it.bytes.length + 247) / 248 →
    ∃ t, exec (.qpmItemFirstWord p) s = .next t ∧ t.portBusy p = false ∧ t.portWaits p = true ∧ t.port p = s.port p ∧
      t.queues = s.queues ∧
      t.rd (iQue it.queue) R.QPM_Q_REFUSE_count = min (s.rd (iQue it.queue) R.QPM_Q_REFUSE_count + 1) (2 ^ 32 - 1)) ∧
  (∀ (s : State) (p : Fin 3) (it : Item) (rest : List Item), s.domOn 0 = true → s.portBusy p = false → s.portWaits p = false →
      s.port p = it :: rest → s.rd (iQue it.queue) R.QPM_Q_CFG_en = 0 →
    ∃ t, exec (.qpmItemFirstWord p) s = .next t ∧
      t.rd (iQue it.queue) R.QPM_Q_REFUSE_count = s.rd (iQue it.queue) R.QPM_Q_REFUSE_count ∧
      (p.val < 2 → t.port p = rest ∧ (t.rd pgQpm R.INT_STAT).testBit 4 = true ∧
        t.rd pgQpm R.QPM_DISC_DISABLED_items = min (s.rd pgQpm R.QPM_DISC_DISABLED_items + 1) (2 ^ 32 - 1)) ∧
      (p = 2 → t.port p = s.port p ∧ t.portWaits p = true)) ∧
  (∀ (s : State) (p : Fin 3) (it : Item) (rest : List Item), s.domOn 0 = true → s.portBusy p = false → s.portWaits p = true →
      s.port p = it :: rest → s.rd (iQue it.queue) R.QPM_Q_CFG_en = 1 → (s.queue it.queue).prog = none →
      (s.queue it.queue).disc = none →
      (s.queue it.queue).count + (it.bytes.length + 247) / 248 ≤ s.rd (iQue it.queue) R.QPM_Q_MAX_cells →
      (it.bytes.length + 247) / 248 ≤ s.qpmFree →
    ∃ t, exec (.qpmItemRetry p) s = .next t ∧ t.portBusy p = true ∧ t.portWaits p = false ∧
      t.qpmFree = s.qpmFree - (it.bytes.length + 247) / 248 ∧
      t.rd (iQue it.queue) R.QPM_Q_REFUSE_count = s.rd (iQue it.queue) R.QPM_Q_REFUSE_count) ∧
  (∀ (s : State) (it : Item) (rest : List Item), s.domOn 0 = true → s.portBusy 2 = false →
      s.port 2 = it :: rest → s.rd (iQue it.queue) R.QPM_Q_CFG_en = 1 → (s.queue it.queue).prog = none →
      (s.queue it.queue).disc = none →
      (s.queue it.queue).count + (it.bytes.length + 247) / 248 ≤ s.rd (iQue it.queue) R.QPM_Q_MAX_cells →
      (it.bytes.length + 247) / 248 ≤ s.qpmFree →
    ∃ t, exec .grdRecordEmit s = .next t ∧ t.portBusy 2 = true ∧ (t.gr it.sf).out = (s.gr it.sf).wait ∧
      (t.gr it.sf).wait = none ∧ (t.rd pgGrd R.INT_STAT).testBit 1 = true) ∧
  (∀ (s : State) (p : Fin 3) (q c p' : Nat) (it : Item) (rest : List Item), s.domOn 0 = true → s.portQ.get 0 p.val = q + 1 →
      s.mem.wf = true → s.port p = it :: rest → (s.queue q).disc = none →
      (s.queue q).prog = some (p', { len := it.bytes.length, cells := [c] }) → it.bytes.length ≤ 248 →
    ∃ t, exec (.qpmItemEnd p) s = .next t ∧ t.portBusy p = false ∧ t.port p = rest ∧ (t.queue q).prog = none ∧
      (t.queue q).items = (s.queue q).items ++ [{ len := it.bytes.length, cells := [c] }] ∧
      t.load (s.poolBase + 256 * c + 8) it.bytes.length = it.bytes ∧
      ofBytes (t.load (s.poolBase + 256 * c + 4) 2) = it.bytes.length) ∧
  (∀ (s : State) (r : Req) (d : Word) (passed : Fin 2049) (q : Nat), Accepts s r pgQpm 0x044 → s.rd pgQpm R.QPM_Q_SEL_queue = q →
      (s.queue q).disc = none →
    ∃ t, exec (.qpmFlush r d passed) s = .next t ∧ (t.queue q).items = [] ∧ (t.queue q).prog = none ∧ (t.queue q).count = 0 ∧
      (s.poolOn = true → t.qpmFree = s.qpmFree + (s.queue q).count) ∧
      ((s.queue q).prog = none → (t.queue q).disc = none ∧ (t.rd pgQpm R.INT_STAT).testBit 3 = true) ∧
      (∀ p it, (s.queue q).prog = some (p, it) → (t.queue q).disc = some (p, (it.len + 7) / 8 - passed.val)) ∧
      t.rd (iQue q) R.QPM_Q_CFG_en = s.rd (iQue q) R.QPM_Q_CFG_en) ∧
  (∀ (s : State) (p : Fin 3) (q n : Nat), s.domOn 0 = true → s.portQ.get 0 p.val = q + 1 →
      (s.queue q).disc = some (p.val, n) → (s.queue q).off = false →
    ∃ t, exec (.qpmItemEnd p) s = .next t ∧ t.portBusy p = false ∧ (t.queue q).disc = none ∧
      (t.queue q).items = (s.queue q).items ∧ t.pool = s.pool ∧
      t.rd pgQpm R.QPM_FLUSH_DISCARD_words = min (s.rd pgQpm R.QPM_FLUSH_DISCARD_words + n) (2 ^ 32 - 1) ∧
      (t.rd pgQpm R.INT_STAT).testBit 3 = true) ∧
  (∀ (s : State) (r : Req) (d : Word) (passed : Fin 2049) (q : Nat), Accepts s r pgQpm 0x034 → s.rd pgQpm R.QPM_Q_SEL_queue = q →
      s.rd (iQue q) R.QPM_Q_CFG_en = 1 → (s.queue q).disc = none →
    ∃ t, exec (.qpmQueueDisable r d passed) s = .next t ∧ (t.queue q).items = [] ∧ (t.queue q).prog = none ∧
      ((s.queue q).prog = none → t.rd (iQue q) R.QPM_Q_CFG_en = 0) ∧
      ((s.queue q).prog ≠ none → t.rd (iQue q) R.QPM_Q_CFG_en = 1 ∧ (t.queue q).off = true))

/-- R314, R319, R320, R321, R335, R337: functions. A VF is ENABLED when its enable, its host, VF Enable and Bus Master Enable say so; each
event of R335 makes an ENABLED function DRAINING and the end of the drain makes it DISABLED with nothing left; quotas and step ranges. -/
def Obligations.HostFunctionStates : Prop :=
  (∀ (s : State) (n f : Fin 512), f.val ≠ 0 → f.val ≤ n.val → s.fnState f.val = 0 → s.hostOf f.val = 0 →
      s.rdB (iFn f.val) R.FNC_FN_CTRL_enable = true → s.pcie.master.contains f.val = true →
    ∃ t, exec (.vfEnableSet true n) s = .next t ∧ t.fnState f.val = 1 ∧ t.pcie.vfEn = true ∧ t.pcie.numVfs = n.val ∧
      (∀ g < 512, s.fnState g ≠ 0 → t.fnState g = s.fnState g)) ∧
  (∀ (s : State) (f : Fin 512), s.fnState f.val = 0 → s.hostOf f.val = 0 → s.rdB (iFn f.val) R.FNC_FN_CTRL_enable = true →
      f.val ≤ s.pcie.numVfs → s.pcie.vfEn = true →
    ∃ t, exec (.vfEnableSet false f) s = .next t ∧ t.fnState f.val = 1 ∧ t.pcie.master.contains f.val = true) ∧
  (∀ (s : State) (f : Fin 512), f.val ≠ 0 → s.fnState f.val = 1 → s.hostOf f.val = 0 →
    ∃ t, exec .vfEnableClear s = .next t ∧ t.fnState f.val = 2 ∧ t.noDma.contains f.val = true ∧ t.pcie.vfEn = false ∧
      t.fnState 0 = s.fnState 0 ∧ (∀ g < 512, s.hostOf g ≠ 0 → t.fnState g = s.fnState g)) ∧
  (∀ (s : State) (f : Fin 512), s.fnState f.val = 1 → s.hostOf f.val = 0 →
    ∃ t, exec (.busMasterClear f) s = .next t ∧ t.fnState f.val = 2 ∧ t.noDma.contains f.val = true ∧
      t.pcie.master.contains f.val = false ∧ (∀ g < 512, g ≠ f.val → t.fnState g = s.fnState g)) ∧
  (∀ (s : State) (f : Fin 512), f.val ≠ 0 → s.fnState f.val = 1 → s.hostOf f.val = 0 →
    ∃ t, exec (.flr f) s = .next t ∧ t.fnState f.val = 2 ∧ t.noDma.contains f.val = true ∧
      (t.rd pgFnc R.INT_STAT).testBit 2 = true ∧ (∀ g < 512, g ≠ f.val → t.fnState g = s.fnState g)) ∧
  (∀ (s : State) (f : Fin 512), f.val ≠ 0 → s.fnState f.val = 1 → s.hostOf f.val = 0 →
    ∃ t, exec (.flr 0) s = .next t ∧ t.fnState f.val = 2 ∧ t.pcie.vfEn = false) ∧
  (∀ (s : State) (f : Fin 512), s.fnState f.val = 1 → s.hostOf f.val = 0 →
    ∃ t, exec .pcieReset s = .next t ∧ t.fnState f.val = 2 ∧ t.pcie = {} ∧ t.banks = s.banks ∧ t.words = s.words ∧
      t.grd = s.grd ∧ t.roles = s.roles ∧ t.k = s.k) ∧
  (∀ (s : State) (r : Req) (d : Word) (f : Fin 512), Accepts s r pgFnc 0x028 → s.fnSel = f.val → s.fnState f.val = 1 →
    ∃ t, exec (.fnDisable r d) s = .next t ∧ t.fnState f.val = 2 ∧ t.rd (iFn f.val) R.FNC_FN_CTRL_enable = 0 ∧
      t.noDma = s.noDma ∧ (t.rd (iFn f.val) R.FNC_F_EVT_evt).testBit 5 = true ∧
      (∀ m ∈ t.moves, m.sf = none → m.src ≠ f.val ∧ m.dst ≠ f.val) ∧
      (d.toNat.testBit 1 = true → ∀ c < 512, s.rd (pgChn c) R.OWNER_world = 0 → s.rd (pgChn c) R.OWNER_function = f.val →
        s.armed c = true → (t.ch c).detach = some s.w)) ∧
  (∀ (s : State) (f : Fin 512) (cids : List Nat), s.fnState f.val = 2 →
      s.rd pgFnc R.FNC_POOL_qp_free + s.rd (iFn f.val) R.FNC_FN_QUOTA_qp_quota ≤ 1024 →
      s.rd pgFnc R.FNC_POOL_vec_free + s.rd (iFn f.val) R.FNC_FN_QUOTA_vec_quota ≤ 2048 →
    ∃ t, exec (.fnDrainDone f cids) s = .next t ∧ t.fnState f.val = 0 ∧ t.rd (iFn f.val) R.FNC_FN_QUOTA_qp_quota = 0 ∧
      t.rd (iFn f.val) R.FNC_FN_QUOTA_vec_quota = 0 ∧
      t.rd pgFnc R.FNC_POOL_qp_free = s.rd pgFnc R.FNC_POOL_qp_free + s.rd (iFn f.val) R.FNC_FN_QUOTA_qp_quota ∧
      t.rd pgFnc R.FNC_POOL_vec_free = s.rd pgFnc R.FNC_POOL_vec_free + s.rd (iFn f.val) R.FNC_FN_QUOTA_vec_quota ∧
      (t.rd pgFnc R.INT_STAT).testBit 0 = true ∧
      (∀ c < 512, s.rd (pgChn c) R.OWNER_world = 0 → s.rd (pgChn c) R.OWNER_function = f.val → t.rd (pgChn c) R.OWNER_function = 0) ∧
      (∀ n < 512, t.slotChan f.val n = none) ∧ (∀ q < 1024, (t.qp f.val q).en = false) ∧
      (∀ q < 4096, s.rd (iQue q) R.QPM_Q_OWN_function = f.val → t.rd (iQue q) R.QPM_Q_OWN_function = 0) ∧
      (∀ q b, (t.queue q).bind = some b → b.fn ≠ f.val)) ∧
  (∀ (s : State) (r : Req) (d : Word), Accepts s r pgFnc 0x030 → s.fnState s.fnSel = 0 → R.FNC_FN_QUOTA_qp_quota.of d ≤ 1024 →
      R.FNC_FN_QUOTA_vec_quota.of d ≤ 64 →
      R.FNC_FN_QUOTA_qp_quota.of d ≤ s.rd pgFnc R.FNC_POOL_qp_free + s.rd (iFn s.fnSel) R.FNC_FN_QUOTA_qp_quota →
      R.FNC_FN_QUOTA_vec_quota.of d ≤ s.rd pgFnc R.FNC_POOL_vec_free + s.rd (iFn s.fnSel) R.FNC_FN_QUOTA_vec_quota →
      s.rd pgFnc R.FNC_POOL_qp_free + s.rd (iFn s.fnSel) R.FNC_FN_QUOTA_qp_quota ≤ 1024 →
      s.rd pgFnc R.FNC_POOL_vec_free + s.rd (iFn s.fnSel) R.FNC_FN_QUOTA_vec_quota ≤ 2048 →
    ∃ t, exec (.quotaWrite r d) s = .next t ∧ t.rd (iFn s.fnSel) R.FNC_FN_QUOTA_qp_quota = R.FNC_FN_QUOTA_qp_quota.of d ∧
      t.rd (iFn s.fnSel) R.FNC_FN_QUOTA_vec_quota = R.FNC_FN_QUOTA_vec_quota.of d ∧
      t.rd pgFnc R.FNC_POOL_qp_free + R.FNC_FN_QUOTA_qp_quota.of d =
        s.rd pgFnc R.FNC_POOL_qp_free + s.rd (iFn s.fnSel) R.FNC_FN_QUOTA_qp_quota ∧
      t.rd pgFnc R.FNC_POOL_vec_free + R.FNC_FN_QUOTA_vec_quota.of d =
        s.rd pgFnc R.FNC_POOL_vec_free + s.rd (iFn s.fnSel) R.FNC_FN_QUOTA_vec_quota) ∧
  (∀ (s : State) (r : Req) (d : Word), Accepts s r pgFnc 0x030 → s.fnState s.fnSel = 1 ∨
      s.rd pgFnc R.FNC_POOL_qp_free + s.rd (iFn s.fnSel) R.FNC_FN_QUOTA_qp_quota < R.FNC_FN_QUOTA_qp_quota.of d ∨
      s.rd pgFnc R.FNC_POOL_vec_free + s.rd (iFn s.fnSel) R.FNC_FN_QUOTA_vec_quota < R.FNC_FN_QUOTA_vec_quota.of d →
    ∃ t, exec (.quotaWrite r d) s = .next t ∧ (t.rd pgFnc R.INT_STAT).testBit 4 = true ∧
      (∀ g, t.rd (iFn g) R.FNC_FN_QUOTA_qp_quota = s.rd (iFn g) R.FNC_FN_QUOTA_qp_quota) ∧
      (∀ g, t.rd (iFn g) R.FNC_FN_QUOTA_vec_quota = s.rd (iFn g) R.FNC_FN_QUOTA_vec_quota)) ∧
  (∀ (s : State) (r : Req) (d : Word), Accepts s r pgFnc 0x038 →
      s.rangeBad s.fnSel (s.rd (iFn s.fnSel) R.FNC_FN_STEP_BASE_base) (R.FNC_FN_STEP_CNT_count.of d) = false →
    ∃ t, exec (.stepRangeWrite r true d) s = .next t ∧ t.rd (iFn s.fnSel) R.FNC_FN_STEP_CNT_count = d.toNat % 2 ^ 15 ∧
      t.rd (iFn s.fnSel) R.FNC_FN_STEP_BASE_base = s.rd (iFn s.fnSel) R.FNC_FN_STEP_BASE_base) ∧
  (∀ (s : State) (r : Req) (d : Word), Accepts s r pgFnc 0x034 →
      s.rangeBad s.fnSel (R.FNC_FN_STEP_BASE_base.of d) (s.rd (iFn s.fnSel) R.FNC_FN_STEP_CNT_count) = false →
    ∃ t, exec (.stepRangeWrite r false d) s = .next t ∧ t.rd (iFn s.fnSel) R.FNC_FN_STEP_BASE_base = d.toNat % 2 ^ 14 ∧
      t.rd (iFn s.fnSel) R.FNC_FN_STEP_CNT_count = s.rd (iFn s.fnSel) R.FNC_FN_STEP_CNT_count) ∧
  (∀ (s : State) (r : Req) (d : Word), Accepts s r pgFnc 0x034 → s.rd (iFn s.fnSel) R.FNC_FN_STEP_CNT_count ≠ 0 →
      d.toNat % 2 ^ 14 < s.rd pgSec R.SEC_WM_STEP_units →
    ∃ t, exec (.stepRangeWrite r false d) s = .next t ∧ t.fields = s.fields) ∧
  (∀ (s : State) (f : Fin 512), ∃ t, exec (.poisonedWrite f) s = .next t ∧
      (t.rd (iFn f.val) R.FNC_F_EVT_evt).testBit 7 = true ∧ t.mem = s.mem ∧ t.banks = s.banks ∧ t.chans = s.chans)

/-- R323, R324: queue pairs. A pair below its quota with sizes from 4 to 12 is enabled, empty, at its first pass, and otherwise refused with
cfg_err; a doorbell moves its index, or is ignored and counted. -/
def Obligations.QueuePairs : Prop :=
  (∀ (s : State) (r : Req) (d : Word) (f : Fin 512), s.reachesFn r 0x410 f.val = true → (s.qp f.val (s.qpSel f.val)).en = false →
      s.qpSel f.val < s.rd (iFn f.val) R.FNC_FN_QUOTA_qp_quota →
      R.FNC_F_Q_CTRL_vector.of d < s.rd (iFn f.val) R.FNC_FN_QUOTA_vec_quota →
      4 ≤ R.FNC_F_Q_CTRL_sq_log.of d → R.FNC_F_Q_CTRL_sq_log.of d ≤ 12 → 4 ≤ R.FNC_F_Q_CTRL_cq_log.of d →
      R.FNC_F_Q_CTRL_cq_log.of d ≤ 12 →
    ∃ t, exec (.qEnable r d) s = .next t ∧ let x := t.qp f.val (s.qpSel f.val); let y := s.qp f.val (s.qpSel f.val);
      x = { y with en := true, sqLog := R.FNC_F_Q_CTRL_sq_log.of d, cqLog := R.FNC_F_Q_CTRL_cq_log.of d, vec := R.FNC_F_Q_CTRL_vector.of d, sqHead := 0, sqTail := 0, cqHead := 0, cqTail := 0, phase := true, busy := false }) ∧
  (∀ (s : State) (r : Req) (d : Word) (f : Fin 512), s.reachesFn r 0x410 f.val = true → (s.qp f.val (s.qpSel f.val)).en = false →
      s.rd (iFn f.val) R.FNC_FN_QUOTA_qp_quota ≤ s.qpSel f.val ∨
        s.rd (iFn f.val) R.FNC_FN_QUOTA_vec_quota ≤ R.FNC_F_Q_CTRL_vector.of d ∨ R.FNC_F_Q_CTRL_sq_log.of d < 4 ∨
        12 < R.FNC_F_Q_CTRL_sq_log.of d ∨ R.FNC_F_Q_CTRL_cq_log.of d < 4 ∨ 12 < R.FNC_F_Q_CTRL_cq_log.of d →
    ∃ t, exec (.qEnable r d) s = .next t ∧ (t.qp f.val (s.qpSel f.val)).en = false ∧
      (t.qp f.val (s.qpSel f.val)).cfgErr = true) ∧
  (∀ (s : State) (r : Req) (d : Word) (cids : List Nat) (f : Fin 512), s.reachesFn r 0x410 f.val = true → s.qpSel f.val < 1024 →
      (s.qp f.val (s.qpSel f.val)).en = true →
    ∃ t, exec (.qDisable r d cids) s = .next t ∧ (t.qp f.val (s.qpSel f.val)).en = false ∧
      (t.qp f.val (s.qpSel f.val)).sqBase = (s.qp f.val (s.qpSel f.val)).sqBase ∧
      (∀ q b, (t.queue q).bind = some b → b.fn ≠ f.val ∨ b.qp ≠ s.qpSel f.val) ∧
      (∀ q, t.rd (iQue q) R.QPM_Q_OWN_function = s.rd (iQue q) R.QPM_Q_OWN_function)) ∧
  (∀ (s : State) (r : Req) (d : Word) (f : Fin 512) (q v : Nat), s.reachesFn r 0x408 f.val = true → s.fnState f.val = 1 →
      d.toNat / 2 ^ 16 % 2 ^ 10 = q → d.toNat % 2 ^ 16 = v → (s.qp f.val q).en = true → v < 2 ^ (s.qp f.val q).sqLog →
    ∃ t, exec (.dbSqTail r d) s = .next t ∧ t.qp f.val q = { s.qp f.val q with sqTail := v } ∧ t.fields = s.fields) ∧
  (∀ (s : State) (r : Req) (d : Word) (f : Fin 512) (q v : Nat), s.reachesFn r 0x408 f.val = true → s.fnState f.val = 1 →
      d.toNat / 2 ^ 16 % 2 ^ 10 = q → d.toNat % 2 ^ 16 = v → (s.qp f.val q).en = true → v < 2 ^ (s.qp f.val q).cqLog →
    ∃ t, exec (.dbCqHead r d) s = .next t ∧ t.qp f.val q = { s.qp f.val q with cqHead := v } ∧ t.fields = s.fields) ∧
  (∀ (s : State) (r : Req) (d : Word) (f : Fin 512) (q v n : Nat) (b : Bind), s.reachesFn r 0x408 f.val = true →
      s.fnState f.val = 1 → d.toNat / 2 ^ 16 % 2 ^ 10 = q → d.toNat % 2 ^ 16 = v → (s.qp f.val q).en = true →
      s.boundQueue f.val q = some (n, b) → v < b.slots →
    ∃ t, exec (.dbDeliveryHead r d) s = .next t ∧
      (t.queue n).bind = some { b with used := (b.tail + b.slots - v) % b.slots } ∧ (t.queue n).items = (s.queue n).items) ∧
  (∀ (s : State) (r : Req) (d : Word) (f : Fin 512) (q v : Nat), s.reachesFn r 0x408 f.val = true →
      d.toNat / 2 ^ 16 % 2 ^ 10 = q → d.toNat % 2 ^ 16 = v →
      s.fnState f.val ≠ 1 ∨ (s.qp f.val q).en = false ∨ 2 ^ (s.qp f.val q).sqLog ≤ v →
    ∃ t, exec (.dbSqTail r d) s = .next t ∧ t.pairs = s.pairs ∧ (t.rd (iFn f.val) R.FNC_F_EVT_evt).testBit 1 = true ∧
      t.rd (iFn f.val) R.FNC_F_DB_IGN_count = min (s.rd (iFn f.val) R.FNC_F_DB_IGN_count + 1) (2 ^ 32 - 1)) ∧
  (∀ (s : State) (r : Req) (d : Word) (f : Fin 512) (q v : Nat), s.reachesFn r 0x408 f.val = true →
      d.toNat / 2 ^ 16 % 2 ^ 10 = q → d.toNat % 2 ^ 16 = v →
      s.fnState f.val ≠ 1 ∨ (s.qp f.val q).en = false ∨ 2 ^ (s.qp f.val q).cqLog ≤ v →
    ∃ t, exec (.dbCqHead r d) s = .next t ∧ t.pairs = s.pairs ∧ (t.rd (iFn f.val) R.FNC_F_EVT_evt).testBit 1 = true ∧
      t.rd (iFn f.val) R.FNC_F_DB_IGN_count = min (s.rd (iFn f.val) R.FNC_F_DB_IGN_count + 1) (2 ^ 32 - 1)) ∧
  (∀ (s : State) (r : Req) (d : Word) (f : Fin 512) (q v : Nat), s.reachesFn r 0x408 f.val = true →
      d.toNat / 2 ^ 16 % 2 ^ 10 = q → d.toNat % 2 ^ 16 = v →
      s.fnState f.val ≠ 1 ∨ (s.qp f.val q).en = false ∨
        (s.boundQueue f.val q).all (fun x => decide (x.2.slots ≤ v)) = true →
    ∃ t, exec (.dbDeliveryHead r d) s = .next t ∧ t.queues = s.queues ∧ (t.rd (iFn f.val) R.FNC_F_EVT_evt).testBit 1 = true ∧
      t.rd (iFn f.val) R.FNC_F_DB_IGN_count = min (s.rd (iFn f.val) R.FNC_F_DB_IGN_count + 1) (2 ^ 32 - 1))

/-- R325, R327, R328, R329: queries and the step store. A pair takes its entry at the head, answers its completion with the
command's result, and each reading command writes its data at addr; STEP_WRITE ends at a malformed word or a step of another. -/
def Obligations.HostQueries : Prop :=
  (∀ (s : State) (f : Fin 512) (q : Fin 1024) (e data : List Byte), s.fetches f.val q.val e 0x00 = true →
    ∃ t, exec (.sqFetch f q e data) s = .next t ∧ s.completes t f.val q.val 0 0 0 (cmdOf e).cid) ∧
  (∀ (s : State) (f : Fin 512) (q : Fin 1024) (e data : List Byte) (op : Nat), s.fetches f.val q.val e op = true →
      [0x00, 0x01, 0x02, 0x10, 0x11, 0x20, 0x30, 0x31, 0x38, 0x40, 0x41, 0x50].contains op = false →
    ∃ t, exec (.sqFetch f q e data) s = .next t ∧ s.completes t f.val q.val 0 0 1 (cmdOf e).cid) ∧
  (∀ (s : State) (f : Fin 512) (q : Fin 1024) (e data : List Byte), s.canFetch f.val q.val (cmdOf e) = true → s.hostOf f.val = 0 →
      s.noDma.contains f.val = false → (cmdOf e).fl / 2 ≠ 0 ∨ (cmdOf e).rsv ≠ 0 →
    ∃ t, exec (.sqFetch f q e data) s = .next t ∧ s.completes t f.val q.val 0 0 2 (cmdOf e).cid) ∧
  (∀ (s : State) (f : Fin 512) (q : Fin 1024) (e : List Byte), s.fetches f.val q.val e 0x00 = true →
    ∃ t, exec (.cmdNop f q e) s = .next t ∧ s.completes t f.val q.val 0 0 0 (cmdOf e).cid) ∧
  (∀ (s : State) (f : Fin 512) (q : Fin 1024) (e : List Byte), s.fetches f.val q.val e 0x01 = true → (cmdOf e).len = 4096 →
    ∃ t, exec (.cmdIdentify f q e) s = .next t ∧ s.completes t f.val q.val 0 4096 0 (cmdOf e).cid ∧
      Out.dma f.val (cmdOf e).addr (toBytes 2 f.val ++ toBytes 1 0 ++ toBytes 1 (s.fnState f.val) ++
        toBytes 2 (s.rd (iFn f.val) R.FNC_FN_QUOTA_qp_quota) ++ toBytes 2 (s.rd (iFn f.val) R.FNC_FN_QUOTA_vec_quota) ++
        toBytes 2 (s.rd (iFn f.val) R.FNC_FN_STEP_BASE_base) ++ toBytes 2 (s.rd (iFn f.val) R.FNC_FN_STEP_CNT_count) ++
        toBytes 2 (s.slotsUsed f.val) ++ toBytes 2 Config.pciVendor.toNat ++ toBytes 16 Config.deviceUid.toNat ++
        toBytes 4 s.fwVer ++ toBytes 2 s.len ++ List.replicate 4058 0) ∈ t.out) ∧
  (∀ (s : State) (f : Fin 512) (q : Fin 1024) (e : List Byte), s.fetches f.val q.val e 0x02 = true → (cmdOf e).len = 1024 →
      f.val ≠ 0 →
    ∃ t, exec (.cmdMapRead f q e) s = .next t ∧ s.completes t f.val q.val (s.slotsUsed f.val) 1024 0 (cmdOf e).cid ∧
      Out.dma f.val (cmdOf e).addr ((List.range 512).map (fun n => toBytes 2 ((s.slotChan f.val n).getD 0xFFFF))).flatten ∈ t.out) ∧
  (∀ (s : State) (f : Fin 512) (q : Fin 1024) (e data : List Byte) (n : Nat), s.fetches f.val q.val e 0x10 = true → 1 ≤ n →
      (cmdOf e).len = 96 * n → data.length = 96 * n → s.inRange f.val (cmdOf e).tgt = true →
      s.inRange f.val ((cmdOf e).tgt + n - 1) = true →
      (∀ i < n, ∀ w < 12, slotOk w ((slotsOf data i).getD w 0) = true) →
      (∀ i < n, (stepUses ((slotsOf data i).map (· % 2 ^ 36))).all (s.inRange f.val) = true) →
    ∃ t, exec (.cmdStepWrite f q e data) s = .next t ∧ s.completes t f.val q.val n (96 * n) 0 (cmdOf e).cid ∧
      (∀ i < n, ∀ w < 12, t.stepWord ((cmdOf e).tgt + i) w = (slotsOf data i).getD w 0 % 2 ^ 36) ∧
      (∀ m, m < (cmdOf e).tgt ∨ (cmdOf e).tgt + n ≤ m → ∀ w < 12, t.stepWord m w = s.stepWord m w)) ∧
  (∀ (s : State) (f : Fin 512) (q : Fin 1024) (e data : List Byte) (w : Nat), s.fetches f.val q.val e 0x10 = true →
      (cmdOf e).len = 96 → data.length = 96 → s.inRange f.val (cmdOf e).tgt = true → w < 12 →
      (∀ v < w, slotOk v ((slotsOf data 0).getD v 0) = true) → slotOk w ((slotsOf data 0).getD w 0) = false →
    ∃ t, exec (.cmdStepWrite f q e data) s = .next t ∧ s.completes t f.val q.val (cmdOf e).tgt 0 6 (cmdOf e).cid ∧
      t.rd pgStp R.STP_WR_ERR_word = w ∧ t.rd pgStp R.STP_WR_ERR_function = f.val ∧ t.rd pgStp R.STP_WR_ERR_world = 0 ∧
      (t.rd pgStp R.INT_STAT).testBit 0 = true ∧
      (∀ v, w ≤ v → v < 12 → t.stepWord (cmdOf e).tgt v = s.stepWord (cmdOf e).tgt v)) ∧
  (∀ (s : State) (f : Fin 512) (q : Fin 1024) (e data : List Byte) (n : Nat), s.fetches f.val q.val e 0x10 = true → 1 ≤ n →
      (cmdOf e).len = 96 * n → s.inRange f.val (cmdOf e).tgt = false ∨ s.inRange f.val ((cmdOf e).tgt + n - 1) = false →
    ∃ t, exec (.cmdStepWrite f q e data) s = .next t ∧ s.completes t f.val q.val 0 0 3 (cmdOf e).cid ∧ t.words = s.words) ∧
  (∀ (s : State) (f : Fin 512) (q : Fin 1024) (e : List Byte) (n : Nat), s.fetches f.val q.val e 0x11 = true → 1 ≤ n →
      (cmdOf e).len = 96 * n → s.inRange f.val (cmdOf e).tgt = true → s.inRange f.val ((cmdOf e).tgt + n - 1) = true →
    ∃ t, exec (.cmdStepRead f q e) s = .next t ∧ s.completes t f.val q.val n (96 * n) 0 (cmdOf e).cid ∧ t.words = s.words ∧
      Out.dma f.val (cmdOf e).addr ((List.range n).map (fun i => imageBytes (s.image ((cmdOf e).tgt + i)))).flatten ∈ t.out)

/-- R328, R330, R331: commands that change something on a function's behalf, on a channel that the slot names (else NOT_OWNER). -/
def Obligations.HostCommands : Prop :=
  (∀ (s : State) (f : Fin 512) (q : Fin 1024) (e : List Byte) (ch : Nat), s.fetches f.val q.val e 0x20 = true →
      (cmdOf e).p.headD 0 < 16 → s.heldChan f.val (cmdOf e).tgt = some ch →
    ∃ t, exec (.cmdLogMap f q e) s = .next t ∧ s.completes t f.val q.val 0 0 0 (cmdOf e).cid ∧
      t.rd pgLgr (R.LGR_CHMAP_en (ch / 8) (ch % 8)) = (cmdOf e).p.headD 0 / 8 ∧
      t.rd pgLgr (R.LGR_CHMAP_profile (ch / 8) (ch % 8)) = (cmdOf e).p.headD 0 % 8) ∧
  (∀ (s : State) (f : Fin 512) (q : Fin 1024) (e : List Byte), s.fetches f.val q.val e 0x20 = true →
      (cmdOf e).p.headD 0 < 16 → s.heldChan f.val (cmdOf e).tgt = none →
    ∃ t, exec (.cmdLogMap f q e) s = .next t ∧ s.completes t f.val q.val 0 0 3 (cmdOf e).cid ∧ t.logCfg = s.logCfg) ∧
  (∀ (s : State) (f : Fin 512) (q : Fin 1024) (e data : List Byte) (ch : Nat), s.fetches f.val q.val e 0x30 = true →
      (cmdOf e).len = 52 → data.length = 52 → s.heldChan f.val (cmdOf e).tgt = some ch →
    ∃ t, exec (.cmdGrdStage f q e data) s = .next t ∧ s.completes t f.val q.val 0 52 0 (cmdOf e).cid ∧
      (∀ n < 4, t.rd (iGrd ch) (R.GRD_CELLID_cell_id n) = ofBytes ((data.drop (4 * n)).take 4)) ∧
      t.rd (iGrd ch) R.GRD_RECIPE_recipe = ofBytes ((data.drop 16).take 4) ∧
      (∀ n < 8, t.rd (iGrd ch) (R.GRD_HOSTDATA_data n) = ofBytes ((data.drop (20 + 4 * n)).take 4))) ∧
  (∀ (s : State) (f : Fin 512) (q : Fin 1024) (e : List Byte) (ch : Nat), s.fetches f.val q.val e 0x31 = true →
      s.heldChan f.val (cmdOf e).tgt = some ch → (cmdOf e).p.headD 0 = 1 ∨ (cmdOf e).p.headD 0 = 2 ∨ (cmdOf e).p.headD 0 = 4 →
    ∃ t, exec (.cmdGrdCtrl f q e) s = .next t ∧ s.completes t f.val q.val 0 0 0 (cmdOf e).cid ∧
      ((cmdOf e).p.headD 0 = 4 → (t.gr ch).opening = true) ∧ ((cmdOf e).p.headD 0 = 1 → (t.gr ch).opn = none) ∧
      ((cmdOf e).p.headD 0 = 2 → (t.gr ch).sealAt = some (s.k + 1))) ∧
  (∀ (s : State) (f : Fin 512) (q : Fin 1024) (e : List Byte), s.fetches f.val q.val e 0x31 = true →
      s.heldChan f.val (cmdOf e).tgt = none → (cmdOf e).p.headD 0 = 4 →
    ∃ t, exec (.cmdGrdCtrl f q e) s = .next t ∧ s.completes t f.val q.val 0 0 3 (cmdOf e).cid ∧ t.grd = s.grd) ∧
  (∀ (s : State) (f : Fin 512) (q : Fin 1024) (e data : List Byte) (ch kind : Nat), s.fetches f.val q.val e 0x38 = true →
      (cmdOf e).len = 64 → data.length = 64 → kind < 4 → (cmdOf e).p.headD 0 = 2 ^ (31 - kind) →
      (bitsIn 512 (ofBytes data)).filterMap (s.heldChan f.val) = [ch] →
      s.pageOn (pgChn ch) = true → s.rd (pgChn ch) R.OWNER_handover = 0 → s.rd (pgChn ch) R.STAT_reset_busy = 0 →
      s.cmdRefuse ch kind = 0 →
    ∃ t, exec (.cmdChnBatch f q e data) s = .next t ∧
      s.completes t f.val q.val 1 (s.atSf (cmdOf e) % 2 ^ 32) 0 (cmdOf e).cid ∧
      (t.ch ch).cmd = some ⟨kind, ⟨(cmdOf e).fl.testBit 0, (cmdOf e).sfc, s.w⟩⟩) ∧
  (∀ (s : State) (f : Fin 512) (q : Fin 1024) (e : List Byte) (m : Nat), s.fetches f.val q.val e 0x40 = true →
      (cmdOf e).tgt < 4096 → s.rd (iQue (cmdOf e).tgt) R.QPM_Q_OWN_function = f.val → (cmdOf e).addr % 4096 = 0 → 4 ≤ m → m ≤ 16 →
      (cmdOf e).len = 2 ^ m → s.boundQueue f.val q.val = none → (s.queue (cmdOf e).tgt).bind = none →
    ∃ t, exec (.cmdQBind f q e) s = .next t ∧ s.completes t f.val q.val 0 0 0 (cmdOf e).cid ∧
      (t.queue (cmdOf e).tgt).bind =
        some { fn := f.val, qp := q.val, base := (cmdOf e).addr, slots := 2 ^ m, tail := 0, used := 0, count := 0 } ∧
      (t.queue (cmdOf e).tgt).items = (s.queue (cmdOf e).tgt).items) ∧
  (∀ (s : State) (f : Fin 512) (q : Fin 1024) (e : List Byte) (m : Nat), s.fetches f.val q.val e 0x40 = true →
      (cmdOf e).tgt < 4096 → s.rd (iQue (cmdOf e).tgt) R.QPM_Q_OWN_function = f.val → (cmdOf e).addr % 4096 = 0 → 4 ≤ m → m ≤ 16 →
      (cmdOf e).len = 2 ^ m → s.boundQueue f.val q.val ≠ none ∨ (s.queue (cmdOf e).tgt).bind ≠ none →
    ∃ t, exec (.cmdQBind f q e) s = .next t ∧ s.completes t f.val q.val 0 0 8 (cmdOf e).cid ∧ t.queues = s.queues) ∧
  (∀ (s : State) (f : Fin 512) (q : Fin 1024) (e : List Byte), s.fetches f.val q.val e 0x41 = true → (cmdOf e).tgt < 4096 →
      s.rd (iQue (cmdOf e).tgt) R.QPM_Q_OWN_function = f.val →
    ∃ t, exec (.cmdQUnbind f q e) s = .next t ∧ s.completes t f.val q.val 0 0 0 (cmdOf e).cid ∧
      (t.queue (cmdOf e).tgt).bind = none ∧ (t.queue (cmdOf e).tgt).items = (s.queue (cmdOf e).tgt).items)

/-- R332, R333, R334: live moves, from step to step, and the moves of queues and quotas. -/
def Obligations.LiveMoves : Prop :=
  (∀ (s : State) (f : Fin 512) (q : Fin 1024) (e : List Byte) (a b n : Nat), s.fetches f.val q.val e 0x50 = true →
      s.hostOf 0 = 0 → (cmdOf e).p.take 4 = [1, a, b, n] → a < 512 → b < 512 → n < 512 → s.fnState a = 1 → s.fnState b = 1 →
      (cmdOf e).tgt < 512 → s.rd (pgChn (cmdOf e).tgt) R.OWNER_world = 0 → s.rd (pgChn (cmdOf e).tgt) R.OWNER_function = a →
      s.pageOn (pgChn (cmdOf e).tgt) = true → s.rd (pgChn (cmdOf e).tgt) R.OWNER_handover = 0 → s.slotChan b n = none →
      s.movingPage (pgChn (cmdOf e).tgt) = false →
    ∃ t, exec (.cmdMove f q e) s = .next t ∧ (t.qp f.val q.val).busy = true ∧ t.out = [] ∧
      t.moves = s.moves ++ [{ chan := (cmdOf e).tgt, src := a, dst := b, slot := n, due := ⟨(cmdOf e).fl.testBit 0, (cmdOf e).sfc, s.k⟩, sf := none, qp := f.val * 1024 + q.val, cid := (cmdOf e).cid }]) ∧
  (∀ (s : State) (f : Fin 512) (q : Fin 1024) (e : List Byte) (a b n : Nat), s.fetches f.val q.val e 0x50 = true →
      s.hostOf 0 = 0 → (cmdOf e).p.take 4 = [2, a, b, n] → a < 512 → b < 512 → s.fnState a = 1 → s.fnState b = 1 →
      (cmdOf e).tgt < 4096 → s.rd (iQue (cmdOf e).tgt) R.QPM_Q_OWN_function = a → (s.queue (cmdOf e).tgt).bind = none →
    ∃ t, exec (.cmdMove f q e) s = .next t ∧ s.completes t f.val q.val 0 0 0 (cmdOf e).cid ∧
      t.rd (iQue (cmdOf e).tgt) R.QPM_Q_OWN_function = b ∧ t.queue (cmdOf e).tgt = s.queue (cmdOf e).tgt ∧
      (t.rd pgFnc R.INT_STAT).testBit 1 = true) ∧
  (∀ (s : State) (f : Fin 512) (q : Fin 1024) (e : List Byte) (a b n : Nat), s.fetches f.val q.val e 0x50 = true →
      s.hostOf 0 = 0 → (cmdOf e).p.take 4 = [3, a, b, n] → a < 512 → b < 512 → a ≠ b → s.fnState a = 1 → s.fnState b = 1 →
      (∀ i < 1024, (s.qp a i).en = true → i + 1 + (cmdOf e).tgt ≤ s.rd (iFn a) R.FNC_FN_QUOTA_qp_quota) →
      (cmdOf e).tgt ≤ s.rd (iFn a) R.FNC_FN_QUOTA_qp_quota → s.rd (iFn a) R.FNC_FN_QUOTA_qp_quota ≤ 1024 →
      s.pairs.all (fun x => decide (s.pairs.get {} x.1 = x.2)) = true →
      s.rd (iFn b) R.FNC_FN_QUOTA_qp_quota + (cmdOf e).tgt ≤ 1024 →
    ∃ t, exec (.cmdMove f q e) s = .next t ∧ s.completes t f.val q.val 0 0 0 (cmdOf e).cid ∧
      t.rd (iFn a) R.FNC_FN_QUOTA_qp_quota + (cmdOf e).tgt = s.rd (iFn a) R.FNC_FN_QUOTA_qp_quota ∧
      t.rd (iFn b) R.FNC_FN_QUOTA_qp_quota = s.rd (iFn b) R.FNC_FN_QUOTA_qp_quota + (cmdOf e).tgt) ∧
  (∀ (s : State) (f : Fin 512) (q : Fin 1024) (e : List Byte) (a b : Nat), s.fetches f.val q.val e 0x50 = true →
      s.hostOf 0 = 0 → (cmdOf e).p.take 3 = [1, a, b] → a < 512 → b < 512 → s.fnState a ≠ 1 ∨ s.fnState b ≠ 1 →
    ∃ t, exec (.cmdMove f q e) s = .next t ∧ s.completes t f.val q.val 0 0 3 (cmdOf e).cid ∧ t.moves = s.moves) ∧
  (∀ (s : State) (f : Fin 512) (q : Fin 1024) (e : List Byte), s.fetches f.val q.val e 0x50 = true → s.hostOf 0 ≠ 0 →
    ∃ t, exec (.cmdMove f q e) s = .next t ∧ s.completes t f.val q.val 0 0 4 (cmdOf e).cid ∧ t.moves = s.moves) ∧
  (∀ (s : State) (m : Move) (rest : List Move), s.moves = m :: rest → m.sf = none → s.drain = none → m.due.now s.k = true →
    ∃ t, exec .moveTakesEffect s = .next t ∧ t.rd (pgChn m.chan) R.OWNER_handover = 2 ∧
      t.moves = { m with sf := some s.k } :: rest ∧ (∀ n < 512, t.slotChan m.src n ≠ some m.chan) ∧ t.chans = s.chans ∧
      t.banks = s.banks) ∧
  (∀ (s : State) (m : Move) (rest : List Move) (k : Nat), s.moves = m :: rest → m.sf = some k → s.fnState m.dst ≠ 0 → m.dst ≠ 0 →
      m.dst < 512 → m.src < 512 → m.slot < 512 → s.rd (pgChn m.chan) R.OWNER_world = 0 →
    ∃ t, exec .moveComplete s = .next t ∧ t.rd (pgChn m.chan) R.OWNER_function = m.dst ∧
      t.rd (pgChn m.chan) R.OWNER_handover = 0 ∧ t.moves = rest ∧ t.slotChan m.dst m.slot = some m.chan ∧
      (t.rd (iFn m.src) R.FNC_F_EVT_evt).testBit 4 = true ∧ (t.rd (iFn m.dst) R.FNC_F_EVT_evt).testBit 3 = true ∧
      (t.rd pgFnc R.INT_STAT).testBit 1 = true ∧ t.chans = s.chans ∧ t.banks = s.banks ∧ t.grd = s.grd)

/-- R316, R317, R331, R339, R340: delivery of items, the sample mirror and session hosts. -/
def Obligations.DeliveryAndSessions : Prop :=
  (∀ (s : State) (q : Fin 4096) (b : Bind) (it : QItem) (rest : List QItem), (s.queue q.val).bind = some b →
      (s.queue q.val).items = it :: rest → 1 ≤ it.len → it.len ≤ 496 → s.fnState b.fn = 1 → s.hostOf b.fn = 0 →
      s.noDma.contains b.fn = false → (s.qp b.fn b.qp).en = true → (s.qp b.fn b.qp).itemFull = false → b.used + 1 ≤ b.slots →
      b.tail < b.slots → s.domOn 0 = true → s.domOn 6 = true → (s.itemBytes it).length = it.len →
    ∃ t, exec (.itemDeliver q) s = .next t ∧ (t.queue q.val).items = rest ∧
      (t.queue q.val).bind = some { b with tail := (b.tail + 1) % b.slots, used := b.used + 1, count := (b.count + 1) % 2 ^ 32 } ∧
      t.pool = s.pool.free it.cells ∧ let x := s.qp b.fn b.qp;
      t.out.take 2 = [Out.dma b.fn (b.base + 512 * b.tail) (toBytes 2 q.val ++ toBytes 2 it.len ++ toBytes 4 b.count ++ toBytes 2 0 ++ toBytes 1 3 ++ toBytes 5 0 ++ s.itemBytes it ++ List.replicate (496 - it.len) 0), Out.dma b.fn (x.cqBase + 16 * x.cqTail) (cqEntry b.tail it.len x.sqHead 0x0D x.phase 0xFFFF b.qp)]) ∧
  (∀ (s : State) (q : Fin 4096) (b : Bind) (it : QItem) (rest : List QItem), (s.queue q.val).bind = some b →
      (s.queue q.val).items = it :: rest → b.slots < b.used + (it.len + 495) / 496 ∨ (s.qp b.fn b.qp).itemFull = true →
    ∃ t, exec (.itemDeliver q) s = .next t ∧ t = s.start) ∧
  (∀ (s : State) (f e : Fin 512) (o n : Fin 129) (c : Nat), s.domOn 0 = true → f.val ≠ 0 → s.hostOf f.val = 0 →
      s.fnState f.val ≠ 0 → 1 ≤ n.val → n.val ≤ 64 → o.val % n.val = 0 → o.val + n.val ≤ 128 → s.slotChan f.val e.val = some c →
      (s.mirror.get [] c).length = 128 →
    ∃ t, exec (.bar2Read f e o n) s = .next t ∧
      t.rsp = { data := ofBytes (((s.mirror.get [] c).drop o.val).take n.val), err := false, cause := 0 } ∧ t.fields = s.fields ∧
      t.snap = s.snap) ∧
  (∀ (s : State) (f e : Fin 512) (o n : Fin 129), s.domOn 0 = true → f.val ≠ 0 → s.hostOf f.val = 0 → s.fnState f.val ≠ 0 →
      1 ≤ n.val → n.val ≤ 64 → o.val % n.val = 0 → o.val + n.val ≤ 128 → s.slotChan f.val e.val = none →
    ∃ t, exec (.bar2Read f e o n) s = .next t ∧ t.rsp = { data := 0, err := false, cause := 0 }) ∧
  (∀ (s : State) (f : Fin 512), ∃ t, exec (.bar2Write f) s = .next t ∧
      (t.rd (iFn f.val) R.FNC_F_EVT_evt).testBit 6 = true ∧ t.mirror = s.mirror ∧ t.mem = s.mem) ∧
  (∀ (s : State) (n : Nat), 1 ≤ n → n ≤ 3 → s.sesOpen.contains n = false → (∀ m < n, 1 ≤ m → s.sesOpen.contains m = true) →
      s.firmware = true →
    ∃ t, exec .sesConnect s = .next t ∧ t.sesOpen = n :: s.sesOpen ∧
      (∀ f < 512, s.hostOf f = n → s.fnState f = 0 → s.rdB (iFn f) R.FNC_FN_CTRL_enable = true → t.fnState f = 1)) ∧
  (∀ (s : State), s.sesOpen.contains 1 = true → s.sesOpen.contains 2 = true → s.sesOpen.contains 3 = true →
    ∃ t, exec .sesConnect s = .next t ∧ t = s.start) ∧
  (∀ (s : State) (n : Fin 4) (f : Fin 512), s.sesOpen.contains n.val = true → s.hostOf f.val = n.val → s.fnState f.val = 1 →
    ∃ t, exec (.sessionLost n) s = .next t ∧ t.sesOpen.contains n.val = false ∧ (t.rd pgFnc R.INT_STAT).testBit 3 = true ∧
      t.fnState f.val = 2 ∧ t.noDma.contains f.val = true ∧ (∀ g < 512, s.hostOf g ≠ n.val → t.fnState g = s.fnState g)) ∧
  (∀ (s : State) (n : Fin 4) (f : Fin 512) (q : Fin 1024) (es : List Byte), s.sesHolds n.val f.val = true → s.firmware = true →
      s.fnState f.val = 1 → (s.qp f.val q.val).en = true → (s.qp f.val q.val).sqLog ≤ 12 → es.length = 64 →
      (s.window f.val).wf = true →
    ∃ t, exec (.sesSubmit n f q es) s = .next t ∧ let x := s.qp f.val q.val;
      t.qp f.val q.val = { x with sqTail := (x.sqTail + 1) % 2 ^ x.sqLog } ∧
      (t.window f.val).readBytes (x.sqBase + 64 * (x.sqTail % 2 ^ x.sqLog)) 64 = es) ∧
  (∀ (s : State) (n : Fin 4) (f : Fin 512) (o : Word) (bs : List Byte), s.sesHolds n.val f.val = true → s.firmware = true →
      o.toNat + bs.length ≤ 0x1000000 → (s.window f.val).wf = true →
    ∃ t, exec (.sesDataPut n f o bs) s = .next t ∧ (t.window f.val).readBytes o.toNat bs.length = bs ∧
      (∀ a, a < o.toNat ∨ o.toNat + bs.length ≤ a → (t.window f.val).read a = (s.window f.val).read a) ∧
      (∀ g, g ≠ f.val → t.window g = s.window g)) ∧
  (∀ (s : State) (n : Fin 4) (f : Fin 512) (o len : Word), s.sesHolds n.val f.val = true → s.firmware = true →
      o.toNat + len.toNat ≤ 0x1000000 →
    ∃ t, exec (.sesDataGet n f o len) s = .next t ∧
      t.out = [Out.ses f.val 0x07 ((s.window f.val).readBytes o.toNat len.toNat)] ∧ t.windows = s.windows) ∧
  (∀ (s : State) (n : Fin 4), ∃ t, exec (.sesKeepalive n) s = .next t ∧ t = s.start) ∧
  (∀ (s : State) (a b : Nat), s.firmware = true → s.sesOpen = [a, b] →
    ∃ t, exec .sesKeepaliveSend s = .next t ∧ t.out = [Out.ses b 0x0A [], Out.ses a 0x0A []] ∧ t.sesOpen = s.sesOpen) ∧
  (∀ (s : State) (n : Fin 4) (f : Fin 512) (o : Word), s.sesHolds n.val f.val = true → s.firmware = true → 0x400000 ≤ o.toNat →
      n.val ≠ 0 →
    ∃ t, exec (.sesRegRead n f o) s = .next t ∧
      (t.rd (iFn f.val) R.FNC_F_EVT_evt).testBit 0 = true ∧
      (∃ e, e ≠ 0 ∧ Out.ses f.val 0x02 (toBytes 4 o.toNat ++ toBytes 4 0 ++ [e]) ∈ t.out)) ∧
  (∀ (s : State) (n : Fin 4) (f : Fin 512) (o : Word), s.sesHolds n.val f.val = true → s.firmware = true → s.domOn 0 = true →
      f.val ≠ 0 → s.fnState f.val ≠ 0 → s.fnState f.val < 4 → o.toNat = 0x400 →
    ∃ t, exec (.sesRegRead n f o) s = .next t ∧
      Out.ses f.val 0x02 (toBytes 4 0x400 ++ toBytes 4 (n.val * 2 ^ 24 + s.fnState f.val * 2 ^ 16 + f.val) ++ [0]) ∈ t.out) ∧
  (∀ (s : State) (n : Fin 4) (f : Fin 512) (o d : Word), s.sesHolds n.val f.val = true → s.firmware = true → s.domOn 0 = true →
      f.val ≠ 0 → s.fnState f.val ≠ 0 → o.toNat = 0x40C →
    ∃ t, exec (.sesRegWrite n f o d) s = .next t ∧ t.qpSel f.val = d.toNat % 1024 ∧ t.out = [] ∧
      (∀ g, g ≠ f.val → t.qpSel g = s.qpSel g))
/-- R295, R300 to R306: the service port. STATUS and ID are answered; HEADER opens a session on the bank that does not run where the header
is acceptable, BLOCK writes a block whose CRC matches, VERIFY and ABORT end it, and what is busy, locked or unknown ends with its code. -/
def Obligations.ServicePortSession : Prop :=
  (∀ (s : State), s.svcOn = true →
    ∃ t, exec (.svcStatus 9) s = .next t ∧ t.svc.attn = false ∧
      t.out = [Out.svc (toBytes 1 s.session ++ toBytes 1 (s.rd pgUpd R.UPD_STAT_busy + 2 * b2n s.svc.recovery + 4 * b2n s.tampered + 8 * s.rd pgUpd R.UPD_CFG_svc_lock) ++ toBytes 1 (s.rd pgUpd R.UPD_STAT_result) ++ toBytes 1 s.target ++ toBytes 2 s.svc.received.length ++ toBytes 2 s.svc.last)] ∧
      t.boot = s.boot ∧ t.fields = s.fields) ∧
  (∀ (s : State), s.svcOn = true →
    ∃ t, exec (.svcId 45) s = .next t ∧ t.out = [Out.svc s.idBytes44] ∧ t.svc = s.svc ∧ t.fields = s.fields) ∧
  (∀ (s : State) (h : List Byte), s.svcOn = true → s.svcBlocked true = none → h.length = 4096 → s.mem.wf = true →
    ∃ t, exec (.svcHeader h) s = .next t ∧ t.rd pgUpd R.UPD_STAT_busy = 1 ∧ t.running = s.running ∧
      (∀ r, s.headerCheck h = some r → t.boot.st s.target = Img.empty ∧ t.svc.res = r ∧ t.session = 0) ∧
      (s.headerCheck h = none → t.boot.st s.target = Img.loading ∧ t.svc.res = 0 ∧ t.session = 1 ∧ t.svc.received = [] ∧
        t.rd pgUpd R.UPD_BLOCKS_n_blocks = hN h 0x010 2 ∧ t.load (bankBase s.target) 4096 = h ∧
        (t.rd pgUpd R.INT_STAT).testBit 0 = true) ∧
      (∀ b, s.running = some b → b < 2 → t.boot.st b = s.boot.st b)) ∧
  (∀ (s : State) (i : Nat) (bs : List Byte), s.svcOn = true → s.svcBlocked true = none → s.session = 1 → i < 65536 → 1 ≤ i →
      i ≤ s.rd pgUpd R.UPD_BLOCKS_n_blocks → bs.length = 4096 → s.mem.wf = true →
    ∃ t, exec (.svcBlock (toBytes 2 i ++ bs) false) s = .next t ∧ t.rd pgUpd R.UPD_STAT_busy = 1 ∧ t.svc.last = i ∧
      (crc32c bs = s.hdrN s.target (0x100 + 4 * (i - 1)) 4 → t.svc.res = 0 ∧ t.svc.received.contains i = true ∧
        t.load (bankBase s.target + 4096 * i) 4096 = bs) ∧
      (crc32c bs ≠ s.hdrN s.target (0x100 + 4 * (i - 1)) 4 → t.svc.res = 0x0B ∧ t.svc.received = s.svc.received ∧ t.mem = s.mem)) ∧
  (∀ (s : State) (bs : List Byte), s.svcOn = true → s.svcBlocked true = none → s.session = 1 → bs.length = 4096 →
    ∃ t, exec (.svcBlock (toBytes 2 0 ++ bs) false) s = .next t ∧ t.svc.res = 0x0A ∧ t.mem = s.mem) ∧
  (∀ (s : State), s.svcOn = true → s.svcBlocked true = none →
    ∃ t, exec (.svcVerify 0) s = .next t ∧ t.rd pgUpd R.UPD_STAT_busy = 1 ∧
      (s.session = 0 → t.svc.res = 0x04 ∧ t.svc.verify = false) ∧
      (s.session ≠ 0 → s.svc.received.length < s.rd pgUpd R.UPD_BLOCKS_n_blocks → t.svc.res = 0x0C ∧ t.svc.verify = false) ∧
      (s.session ≠ 0 → s.rd pgUpd R.UPD_BLOCKS_n_blocks ≤ s.svc.received.length → t.svc.verify = true)) ∧
  (∀ (s : State), s.svcOn = true → s.svcBlocked true = none → s.session ≠ 0 →
    ∃ t, exec (.svcAbort 0) s = .next t ∧ t.session = 0 ∧ t.boot.st s.target = Img.empty ∧ t.svc.received = [] ∧
      t.rd pgUpd R.UPD_STAT_result = 0) ∧
  (∀ (s : State), s.svcOn = true →
    ∃ t, exec .svcBadOpcode s = .next t ∧ t.rd pgUpd R.UPD_STAT_result = 0x02 ∧ (t.rd pgUpd R.INT_STAT).testBit 3 = true ∧
      t.boot = s.boot ∧ t.mem = s.mem) ∧
  (∀ (s : State), s.svcOn = true → s.rd pgUpd R.UPD_STAT_busy = 1 →
    ∃ t, exec (.svcVerify 0) s = .next t ∧ t.rd pgUpd R.UPD_STAT_result = 0x01 ∧ t.svc = s.svc) ∧
  (∀ (s : State), s.svcOn = true → s.rd pgUpd R.UPD_STAT_busy = 0 → s.tampered = false → s.svc.recovery = false →
      s.rd pgUpd R.UPD_CFG_svc_lock = 1 →
    ∃ t, exec (.svcAbort 0) s = .next t ∧ t.rd pgUpd R.UPD_STAT_result = 0x11 ∧ t.boot = s.boot ∧ t.session = s.session) ∧
  (∀ (s : State) (n : Nat), s.svcOn = true → n ≠ 0 →
    ∃ t, exec (.svcVerify n) s = .next t ∧ t.rd pgUpd R.UPD_STAT_result = 0x03 ∧ t.svc = s.svc)

/-- R298, R301, R302, R307, R308, R309: the end of a busy command, activation in its three modes, confirm and revert. -/
def Obligations.FirmwareActivation : Prop :=
  (∀ (s : State), s.rd pgUpd R.UPD_STAT_busy = 1 → s.svc.verify = false → s.svc.res < 256 →
    ∃ t, exec .svcCmdDone s = .next t ∧ t.rd pgUpd R.UPD_STAT_busy = 0 ∧ t.rd pgUpd R.UPD_STAT_result = s.svc.res ∧
      t.svc.attn = true ∧ t.boot = s.boot ∧ (s.svc.res ≠ 0 → (t.rd pgUpd R.INT_STAT).testBit 3 = true)) ∧
  (∀ (s : State), s.rd pgUpd R.UPD_STAT_busy = 1 → s.svc.verify = true → s.job = none → s.svc.res = 0 → s.target < 2 →
    ∃ t, exec .svcCmdDone s = .next t ∧ t.rd pgUpd R.UPD_STAT_busy = 0 ∧ t.svc.attn = true ∧
      (s.digestOk s.target = false → t.rd pgUpd R.UPD_STAT_result = 0x0D ∧ t.boot = s.boot) ∧
      (s.digestOk s.target = true → s.sigOk s.target = false → t.rd pgUpd R.UPD_STAT_result = 0x0E ∧ t.boot = s.boot) ∧
      (s.digestOk s.target = true → s.sigOk s.target = true → t.rd pgUpd R.UPD_STAT_result = 0 ∧ t.session = 2 ∧
        t.boot.st s.target = Img.verified ∧ (t.rd pgUpd R.INT_STAT).testBit 1 = true)) ∧
  (∀ (s : State), s.svcOn = true → s.svcBlocked true = none → s.session = 2 → s.svc.recovery = false →
    ∃ t, exec (.svcActivate [0]) s = .next t ∧ t.boot.st s.target = Img.trial ∧ t.boot.pref = s.target ∧
      t.boot.left = max 1 (s.rd pgUpd R.UPD_CFG_trial_max) ∧ t.running = s.running ∧ t.session = 0 ∧
      t.rd pgUpd R.UPD_STAT_result = 0 ∧ (t.rd pgUpd R.INT_STAT).testBit 2 = true ∧ t.harts = s.harts ∧ t.banks = s.banks) ∧
  (∀ (s : State), s.svcOn = true → s.svcBlocked true = none → s.session = 2 →
    ∃ t, exec (.svcActivate [1]) s = .next t ∧ t.boot.st s.target = Img.trial ∧ t.boot.pref = s.target ∧ t.running = none ∧
      t.rd pgRst R.RST_CAUSE_update = 1 ∧ t.up = false ∧ t.warm = true ∧ t.words = s.words ∧
      (∀ c < 512, t.rd (pgChn c) R.CHN_STAT_state = 0)) ∧
  (∀ (s : State) (a b : Nat), s.svcOn = true → s.svcBlocked true = none → s.session = 2 → s.svc.recovery = false →
      s.running = some a → a < 2 → b = 1 - a → s.boot.st a = Img.good →
      s.load (bankBase a + 0x060) 32 = s.load (bankBase b + 0x060) 32 →
    ∃ t, exec (.svcActivate [2]) s = .next t ∧ t.running = some b ∧ t.boot.st b = Img.trial ∧
      (t.hart 0).running = true ∧ (t.hart 0).priv = 3 ∧ (t.hart 0).pc = BitVec.ofNat 64 (bankBase b + s.hdrN b 0x024 4) ∧
      (∀ h, 1 ≤ h → h < 4 → (t.hart h).running = false) ∧ (∀ n < 16, t.cocState n = 0) ∧
      (∀ p < 0x300, s.rd p R.OWNER_world ≠ 2 → t.rd p R.OWNER_world = s.rd p R.OWNER_world) ∧
      (∀ k < 12, t.rd pgMbx (R.MBX_STATE_state k) = 0) ∧ (t.rd pgUpd R.INT_STAT).testBit 2 = true ∧ t.words = s.words ∧ t.chr = s.chr) ∧
  (∀ (s : State) (d : Byte), s.svcOn = true → s.svcBlocked true = none → d.toNat ≤ 2 → s.session ≠ 2 →
    ∃ t, exec (.svcActivate [d]) s = .next t ∧ t.rd pgUpd R.UPD_STAT_result = 0x0F ∧ t.boot = s.boot) ∧
  (∀ (s : State) (r : Req) (d : Word) (b : Nat), Accepts s r pgUpd 0x020 → d.toNat.testBit 30 = false → s.running = some b → b < 2 →
      s.boot.st b = Img.trial →
    ∃ t, exec (.updConfirm r d) s = .next t ∧ t.boot.st b = Img.good ∧ t.boot.st (1 - b) = s.boot.st (1 - b) ∧
      t.boot.cnt = max s.boot.cnt (s.hdrN b 0x00C 4) ∧ t.boot.revoked = (s.boot.revoked ||| s.hdrN b 0x014 1 % 16) ∧
      t.rd pgUpd R.UPD_STAT_cmd_result = 0) ∧
  (∀ (s : State) (r : Req) (d : Word), Accepts s r pgUpd 0x020 → d.toNat.testBit 30 = false →
      (∀ b < 2, s.running = some b → s.boot.st b ≠ Img.trial) → s.running.all (fun b => decide (b < 2)) = true →
    ∃ t, exec (.updConfirm r d) s = .next t ∧ t.boot = s.boot ∧ t.rd pgUpd R.UPD_STAT_cmd_result = 1) ∧
  (∀ (s : State) (r : Req) (d : Word) (b : Nat), Accepts s r pgUpd 0x020 → d.toNat.testBit 31 = false → s.running = some b → b < 2 →
    ∃ t, exec (.updRevert r d) s = .next t ∧
      (s.headerCheck (s.header (1 - b)) = none → t.boot = { s.boot with pref := 1 - b } ∧ t.rd pgUpd R.UPD_STAT_cmd_result = 0) ∧
      (s.headerCheck (s.header (1 - b)) ≠ none → t.boot = s.boot ∧ t.rd pgUpd R.UPD_STAT_cmd_result = 2)) ∧
  (∀ (s : State) (r : Req) (d : Word), Accepts s r pgUpd 0x020 → d.toNat.testBit 31 = true →
    ∃ t, exec (.updRevert r d) s = .next t ∧ t.boot = s.boot ∧ t.rd pgUpd R.UPD_STAT_cmd_result = 7)
/-- R224 to R226, R228 to R231, R233, R235, R238 to R240: the pair unit. The pair link takes frames superframe by superframe, comes up and is
lost; enabling makes every bank OUT; a differing digest makes a STANDBY bank OUT; a failing partner makes STANDBY banks ACTIVE and disarms OUT
banks; a sync takes the banks over SYNC to STANDBY or ends with its cause; and a kept record is discarded when its time is over. -/
def Obligations.Pair : Prop :=
  (∀ (s : State) (w : BitVec 36) (off : BitVec 16), s.rd pgPair (R.CTRL_enable pgPair) = 1 → s.rd pgPair R.PAIR_STAT_plk ≠ 0 → s.domOn 0 = true →
    ∃ t, exec (.plkFrame 1 w off) s = .next t ∧ t.rd pgPair R.PAIR_STAT_bnd_off = off.toNat ∧
      (s.plkUp = true → w.toNat % 2 ^ 32 ≠ s.k % 2 ^ 32 → t.rd pgPair R.PAIR_STAT_plk = 1 ∧ (t.rd pgPair R.INT_STAT).testBit 3 = true ∧ t.plk.rx = []) ∧
      (s.plkUp = false → t.plk.rx = [w.toNat] ∧ t.plk.rxK = s.k ∧ t.rd pgPair R.PAIR_STAT_plk = s.rd pgPair R.PAIR_STAT_plk) ∧
      (s.plkUp = true → w.toNat % 2 ^ 32 = s.k % 2 ^ 32 → off.toInt ≤ 50 → -50 ≤ off.toInt →
        t.plk.rx = [w.toNat] ∧ t.plk.rxK = s.k ∧ t.rd pgPair R.PAIR_STAT_plk = s.rd pgPair R.PAIR_STAT_plk)) ∧
  (∀ (s : State) (w : BitVec 36) (off : BitVec 16), s.rd pgPair (R.CTRL_enable pgPair) = 1 → s.rd pgPair R.PAIR_STAT_plk ≠ 0 → s.domOn 0 = true →
      s.plk.rx ≠ [] → s.plk.rx.length + 1 < s.len →
    ∃ t, exec (.plkFrame 2 w off) s = .next t ∧ t.plk.rx = s.plk.rx ++ [w.toNat] ∧ t.fields = s.fields) ∧
  (∀ (s : State) (w : BitVec 36) (off : BitVec 16), s.rd pgPair (R.CTRL_enable pgPair) = 1 → s.rd pgPair R.PAIR_STAT_plk ≠ 0 → s.domOn 0 = true →
      s.plk.rx ≠ [] → s.plk.rx.length + 1 = s.len → s.plk.rx.foldl (fun a x => crc16 a x 36) 0xFFFF ≠ w.toNat % 2 ^ 16 →
    ∃ t, exec (.plkFrame 2 w off) s = .next t ∧ t.plk.rx = [] ∧
      (s.plkUp = true → 1 ≤ s.plk.bad → t.rd pgPair R.PAIR_STAT_plk = 1 ∧ (t.rd pgPair R.INT_STAT).testBit 3 = true) ∧
      (s.plkUp = false ∨ s.plk.bad = 0 → t.plk.bad = s.plk.bad + 1 ∧ t.rd pgPair R.PAIR_STAT_plk = s.rd pgPair R.PAIR_STAT_plk)) ∧
  (∀ (s : State) (w : BitVec 36) (off : BitVec 16), s.rd pgPair (R.CTRL_enable pgPair) = 1 → s.rd pgPair R.PAIR_STAT_plk = 1 → s.domOn 0 = true →
      3 ≤ s.plk.rx.length → s.plk.rx.length + 1 = s.len → s.plk.rx.foldl (fun a x => crc16 a x 36) 0xFFFF = w.toNat % 2 ^ 16 →
    ∃ t, exec (.plkFrame 2 w off) s = .next t ∧ t.plk.rx = [] ∧ t.plk.bad = 0 ∧ t.plk.peerAct = s.plk.rx.getD 1 0 % 2 ^ 32 ∧
      t.plk.peerSby = s.plk.rx.getD 2 0 % 2 ^ 32 ∧ t.plk.peerSync = (s.plk.rx.getD 1 0).testBit 34) ∧
  (∀ (s : State), s.rd pgPair R.PAIR_STAT_plk = 1 →
    ∃ t, exec .plkUp s = .next t ∧ t.rd pgPair R.PAIR_STAT_plk = 2 ∧ (t.rd pgPair R.INT_STAT).testBit 4 = true ∧ t.roles = s.roles) ∧
  (∀ (s : State), s.rd pgPair R.PAIR_STAT_plk ≠ 1 → ∃ t, exec .plkUp s = .next t ∧ t = s.start) ∧
  (∀ (s : State), s.rd pgPair R.PAIR_STAT_plk = 2 →
    ∃ t, exec .plkLost s = .next t ∧ t.rd pgPair R.PAIR_STAT_plk = 1 ∧ (t.rd pgPair R.INT_STAT).testBit 3 = true ∧ t.plk.sync = 0 ∧
      (s.plk.sync = 0 → t.roles = s.roles ∧ t.rd pgPair R.PAIR_STAT_sync_result = s.rd pgPair R.PAIR_STAT_sync_result) ∧
      (s.plk.sync ≠ 0 → t.rd pgPair R.PAIR_STAT_sync_result = 8 ∧ ∀ b < 32, t.role b = 3)) ∧
  (∀ (s : State), s.rd pgPair R.PAIR_STAT_plk ≠ 2 → ∃ t, exec .plkLost s = .next t ∧ t = s.start) ∧
  (∀ (s : State), s.selfFail = false → s.rd pgPair R.PAIR_STAT_partner_fail = 0 → s.plk.sync = 0 →
    ∃ t, exec .partnerFail s = .next t ∧ t.rd pgPair R.PAIR_STAT_partner_fail = 1 ∧ (t.rd pgPair R.INT_STAT).testBit 2 = true ∧
      (∀ b < 32, t.role b = (if s.role b = 2 ∨ s.role b = 3 ∨ s.role b = 4 then 1 else s.role b)) ∧
      (∀ c < 512, s.role (bankOf c) = 3 → t.cst c = 0) ∧ (∀ c < 512, s.role (bankOf c) = 2 → t.cst c = s.cst c) ∧
      t.rd pgPair R.PAIR_TAKEOVER_count =
        (if ∃ b < 32, s.role b = 2 then min (s.rd pgPair R.PAIR_TAKEOVER_count + 1) (2 ^ 32 - 1) else s.rd pgPair R.PAIR_TAKEOVER_count)) ∧
  (∀ (s : State), s.selfFail = true ∨ s.rd pgPair R.PAIR_STAT_partner_fail = 1 → ∃ t, exec .partnerFail s = .next t ∧ t = s.start) ∧
  (∀ (s : State), ∃ t, exec .partnerFailRelease s = .next t ∧ t.rd pgPair R.PAIR_STAT_partner_fail = 0 ∧ t.roles = s.roles ∧ t.plk = s.plk) ∧
  (∀ (s : State) (r : Req) (d : Word), Accepts s r pgPair 0x008 → s.locked pgPair = false → d.toNat / 2 % 2 = 0 →
      s.rd pgPair (R.CTRL_enable pgPair) = 0 →
    ∃ t, exec (.pairEnable r d) s = .next t ∧ t.rd pgPair (R.CTRL_enable pgPair) = 1 ∧ (∀ b < 32, t.role b = 3) ∧
      t.rd pgPair R.PAIR_STAT_plk = 1 ∧ t.plk.sync = 0) ∧
  (∀ (s : State) (r : Req) (d : Word), Accepts s r pgPair 0x008 → s.locked pgPair = false → d.toNat / 2 % 2 = 0 →
      s.rd pgPair (R.CTRL_enable pgPair) = 1 →
    ∃ t, exec (.pairDisable r d) s = .next t ∧ t.rd pgPair (R.CTRL_enable pgPair) = 0 ∧ (∀ b < 32, t.role b = 0) ∧
      t.rd pgPair R.PAIR_STAT_plk = 0 ∧ t.plk.sync = 0 ∧ t.selfFail = true) ∧
  (∀ (s : State) (r : Req) (d : Word) (peer : List Word), Accepts s r pgPair 0x024 → d.toNat / 2 ^ 28 % 8 = 0 → s.plk.sync = 0 →
    ∃ t, exec (.pairSync r d peer) s = .next t ∧
      (s.plkUp = false → t.rd pgPair R.PAIR_STAT_sync_result = 3 ∧ (t.rd pgPair R.INT_STAT).testBit 5 = true ∧ t.roles = s.roles) ∧
      (s.plkUp = true → (∃ b < 32, s.role b = 1 ∨ s.linkUp b = false ∨ s.rd (pgBnk b) R.BNK_ID_CRC_crc ≠ (peer.getD b 0).toNat) →
        t.rd pgPair R.PAIR_STAT_sync_result = 5 ∧ (t.rd pgPair R.INT_STAT).testBit 5 = true ∧ t.roles = s.roles) ∧
      (s.plkUp = true → s.rd pgPair R.PAIR_REPLAY_BASE_set = 1 →
        (∀ b < 32, s.role b ≠ 1 ∧ s.linkUp b = true ∧ s.rd (pgBnk b) R.BNK_ID_CRC_crc = (peer.getD b 0).toNat) →
        t.rd pgPair R.PAIR_STAT_sync_result = 1 ∧ t.plk.sync = 1 ∧ ∀ b < 32, t.role b = 4)) ∧
  (∀ (s : State) (r : Req) (d : Word), Accepts s r pgPair 0x024 → d.toNat / 2 ^ 31 = 0 → d.toNat / 2 ^ 28 % 4 = 0 →
    ∃ t, exec (.pairAbortSync r d) s = .next t ∧ t.plk.sync = 0 ∧
      (s.plk.sync = 0 → t.roles = s.roles ∧ t.plk = s.plk) ∧
      (s.plk.sync ≠ 0 → t.rd pgPair R.PAIR_STAT_sync_result = 8 ∧ (t.rd pgPair R.INT_STAT).testBit 5 = true ∧ ∀ b < 32, t.role b = 3)) ∧
  (∀ (s : State) (r : Req) (d : Word), Accepts s r pgPair 0x024 → d.toNat / 2 ^ 30 = 0 → d.toNat / 2 ^ 28 % 2 = 0 →
    ∃ t, exec (.pairFailCmd r d) s = .next t ∧ t.plk.failCmd = true ∧ t.selfFail = true ∧ t.roles = s.roles) ∧
  (∀ (s : State) (r : Req) (d : Word), Accepts s r pgPair 0x024 → d.toNat / 2 ^ 29 = 0 →
    ∃ t, exec (.pairYield r d) s = .next t ∧ t.roles = s.roles ∧
      (let m := maskOf ((bitsIn 32 (s.rd pgPair R.PAIR_BANK_SEL_mask)).filter (fun b => s.role b == 1 && bitOf s.plk.peerSby b));
       t.plk.yieldTx = s.plk.yieldTx ++ (if s.plkUp = true ∧ m ≠ 0 then [(5, m)] else []))) ∧
  (∀ (s : State) (n b : Nat), b < 32 → s.plk.change = [(n, 2, 2 ^ b)] → s.role b = 1 →
    ((s.plkChange n).role b = 2 ∧ ((s.plkChange n).rd pgPair R.INT_STAT).testBit 6 = true ∧ (s.plkChange n).plk.change = [])) ∧
  (∀ (s : State) (n b : Nat), b < 32 → s.plk.change = [(n, 1, 2 ^ b)] → s.role b = 2 →
    ((s.plkChange n).role b = 1 ∧ ((s.plkChange n).rd pgPair R.INT_STAT).testBit 0 = true)) ∧
  (∀ (s : State) (b k peer own : Nat), b < 32 → s.plk.own.get (2 ^ 64) (32 * k + b) = own → own < 2 ^ 64 → own ≠ peer → s.plk.div.get 0 b = 0 →
      s.role b = 1 ∨ s.role b = 2 ∨ s.role b = 3 →
    (((s.digCompare b k peer 1).role b = (if s.role b = 2 then 3 else s.role b)) ∧
      (s.digCompare b k peer 1).plk.divSf.get 0 b = k % 2 ^ 32 ∧ ((s.digCompare b k peer 1).rd pgPair R.INT_STAT).testBit 1 = true ∧
      (s.digCompare b k peer 1).rd pgPair R.PAIR_DIV_COUNT_count = min (s.rd pgPair R.PAIR_DIV_COUNT_count + 1) (2 ^ 32 - 1) ∧
      (s.rd pgPair R.PAIR_CFG_div_act = 1 → s.tripSt b = 0 →
        (s.digCompare b k peer 1).tripSt b = 1 ∧ (s.digCompare b k peer 1).rd (pgBnk b) R.BNK_TRIP_STAT_cause = 0x11))) ∧
  (∀ (s : State) (b k : Nat), (s.digImage b k).length = 4464) ∧
  (∀ (s : State) (vals : List (Nat × Nat)) (crc : Nat), s.plk.snapEnd = some crc → s.plk.sync = 1 → s.plk.snapRx.length ≠ 74752 →
    ∃ t, exec (.syncSnapshotLoaded vals) s = .next t ∧ t.rd pgPair R.PAIR_STAT_sync_result = 7 ∧ t.plk.sync = 0 ∧ ∀ b < 32, t.role b = 3) ∧
  (∀ (s : State) (vals : List (Nat × Nat)), s.plk.snapEnd = some (crc32c (s.plk.snapRx.map (toBytes 4)).flatten) → s.plk.sync = 1 →
      s.plk.snapRx.length = 74752 →
    ∃ t, exec (.syncSnapshotLoaded vals) s = .next t ∧ t.plk.sync = 2 ∧ t.plk.snapEnd = none ∧ t.w = t.led ∧ t.tally = t.w ∧
      t.w = s.k - (s.k + 2 ^ 32 - s.rd pgPair R.PAIR_SYNC_SF_s) % 2 ^ 32 + 1) ∧
  (∀ (s : State) (vals : List (Nat × Nat)), s.plk.snapEnd = none ∨ s.plk.sync ≠ 1 →
    ∃ t, exec (.syncSnapshotLoaded vals) s = .next t ∧ t = s.start) ∧
  (∀ (s : State), s.plk.sync = 2 → s.w = s.k →
    ∃ t, exec .syncReplayLive s = .next t ∧ t.plk.sync = 3 ∧ t.plk.same = 0 ∧ t.roles = s.roles ∧ t.fields = s.fields) ∧
  (∀ (s : State), s.plk.sync ≠ 2 ∨ s.w ≠ s.k → ∃ t, exec .syncReplayLive s = .next t ∧ t = s.start) ∧
  (∀ (s : State), s.plk.sync = 3 → 64 ≤ s.plk.same →
    ∃ t, exec .syncDone s = .next t ∧ t.plk.sync = 0 ∧ t.rd pgPair R.PAIR_STAT_sync_result = 2 ∧ (t.rd pgPair R.INT_STAT).testBit 5 = true ∧
      ∀ b < 32, t.role b = 2) ∧
  (∀ (s : State), s.plk.sync ≠ 3 ∨ s.plk.same < 64 → ∃ t, exec .syncDone s = .next t ∧ t = s.start) ∧
  (∀ (s : State) (c : Fin 512) (o : GrdOut), (s.gr c.val).out = some o → o.st = 1 → s.grdEmits c.val = false →
    ∃ t, exec (.pairRecHoldExpiry c) s = .next t ∧ (t.gr c.val).out = (s.gr c.val).wait ∧ (t.gr c.val).wait = none ∧ t.fields = s.fields) ∧
  (∀ (s : State) (c : Fin 512), (s.gr c.val).out = none ∨ s.grdEmits c.val = true →
    ∃ t, exec (.pairRecHoldExpiry c) s = .next t ∧ t = s.start)
/-- R34, R36, R37, R39, R488: the VCORE loop at a count of 1,024 lowers VCORE by 10 mV, not below the floor, where the lowest slack allows it,
and restarts its count; slack_low is set once in a run of 64; a regulator fault and a restart of slack_min. -/
def Obligations.VcoreLoop : Prop :=
  (∀ (s : State) (hi : Bool), 1024 ≤ (s.vc (islandOf hi)).count → s.vfloor ≤ 900 → s.rd pgPwr (R.PWR_VCORE_volt_mv (islandOf hi)) ≤ 900 →
      s.rd pgPwr R.PWR_VCORE_CFG_lower_th ≤ (s.vc (islandOf hi)).low →
    ∃ t, exec (.vcoreLowerCount hi) s = .next t ∧ t.rd pgPwr (R.PWR_VCORE_volt_mv (islandOf hi)) =
        max (s.rd pgPwr (R.PWR_VCORE_volt_mv (islandOf hi)) - 10) s.vfloor ∧ (t.vc (islandOf hi)).count = 0 ∧
      (t.vc (islandOf hi)).low = 255 ∧
      t.rd pgPwr (R.PWR_VCORE_volt_mv (islandOf (!hi))) = s.rd pgPwr (R.PWR_VCORE_volt_mv (islandOf (!hi)))) ∧
  (∀ (s : State) (hi : Bool), 1024 ≤ (s.vc (islandOf hi)).count →
      (s.vc (islandOf hi)).low < s.rd pgPwr R.PWR_VCORE_CFG_lower_th →
    ∃ t, exec (.vcoreLowerCount hi) s = .next t ∧ (t.vc (islandOf hi)).count = 0 ∧ t.fields = s.fields) ∧
  (∀ (s : State) (hi : Bool), 64 ≤ (s.vc (islandOf hi)).run → (s.vc (islandOf hi)).done = false →
    ∃ t, exec (.slackLowRun hi) s = .next t ∧ (t.rd pgPwr R.INT_STAT).testBit 2 = true ∧ (t.vc (islandOf hi)).done = true ∧
      t.vc (islandOf (!hi)) = s.vc (islandOf (!hi))) ∧
  (∀ (s : State) (d : Fin 7), ∃ t, exec (.vcoreFault d) s = .next t ∧ (t.rd pgPwr R.INT_STAT).testBit 4 = true ∧
      t.vcore = s.vcore ∧ ∀ n, t.rd pgPwr (R.PWR_VCORE_volt_mv n) = s.rd pgPwr (R.PWR_VCORE_volt_mv n)) ∧
  (∀ (s : State) (r : Req) (b : Fin 32), Accepts s r pgPwr (0x100 + 4 * b.val) →
    ∃ t, exec (.slackMinReset r b) s = .next t ∧ t.rd pgPwr (R.PWR_SLACK_slack_min b.val) = 255 ∧
      (∀ f, f.key pgPwr ≠ (R.PWR_SLACK_slack_min b.val).key pgPwr → t.rd pgPwr f = s.rd pgPwr f))

/-- R44 to R47, R52, R482: requests to switch domains and clocks. A request that passes its checks is PENDING until its domain has
changed, one for the present state is DONE, and a refused one changes nothing but its record, PWR_DENIED alerting the secure world. -/
def Obligations.DomainRequests : Prop :=
  (∀ (s : State) (r : Req) (d : Word) (n : Nat), Accepts s r pgPwr 0x020 → d.toNat % 8 = n →
      bitOf (s.rd pgPwr R.PWR_DOM_STAT_busy) n = false → s.domOn n = false → n = 0 ∨ s.domOn 0 = true →
    ∃ t, exec (.domReqOn r d) s = .next t ∧ t.rd pgPwr R.PWR_REQ_STAT_status = 1 ∧ t.rd pgPwr R.PWR_REQ_STAT_domain = n ∧
      bitOf (t.rd pgPwr R.PWR_DOM_STAT_busy) n = true ∧ t.rd pgPwr R.PWR_DOM_STAT_on = s.rd pgPwr R.PWR_DOM_STAT_on ∧
      t.rd pgPwr R.PWR_REQ_STAT_function = (s.attr r).function % 2 ^ 9 ∧ t.rd pgPwr R.PWR_REQ_STAT_world = (s.attr r).world % 4) ∧
  (∀ (s : State) (r : Req) (d : Word) (n : Nat), Accepts s r pgPwr 0x020 → d.toNat % 8 = n →
      bitOf (s.rd pgPwr R.PWR_DOM_STAT_busy) n = false → s.domOn n = true →
    ∃ t, exec (.domReqOn r d) s = .next t ∧ t.rd pgPwr R.PWR_REQ_STAT_status = 0 ∧
      t.rd pgPwr R.PWR_DOM_STAT_busy = s.rd pgPwr R.PWR_DOM_STAT_busy) ∧
  (∀ (s : State) (r : Req) (d : Word) (n : Nat), Accepts s r pgPwr 0x020 → d.toNat % 8 = n → n ≠ 1 →
      bitOf (s.rd pgPwr R.PWR_DOM_STAT_busy) n = false → s.domOn n = true →
      (∀ p < 0x300, domOf p = some n → (blkOf p).isSome = true → s.ownerAccepts r p = true ∧ s.rd p R.OWNER_handover = 0) →
      n ≠ 0 → (n = 2 ∨ n = 6 → s.secureReq r = true) → (n = 3 ∨ n = 4 → s.islandArmed n = false) →
    ∃ t, exec (.domReqOff r d) s = .next t ∧ t.rd pgPwr R.PWR_REQ_STAT_status = 1 ∧ t.rd pgPwr R.PWR_REQ_STAT_domain = n ∧
      bitOf (t.rd pgPwr R.PWR_DOM_STAT_busy) n = true ∧ t.rd pgPwr R.PWR_DOM_STAT_on = s.rd pgPwr R.PWR_DOM_STAT_on) ∧
  (∀ (s : State) (r : Req) (d : Word), Accepts s r pgPwr 0x020 → d.toNat % 8 = 1 →
    ∃ t, exec (.domReqOff r d) s = .next t ∧ t.rd pgPwr R.PWR_REQ_STAT_status = 5 ∧
      t.rd pgPwr R.PWR_DOM_STAT_busy = s.rd pgPwr R.PWR_DOM_STAT_busy) ∧
  (∀ (s : State) (r : Req) (d : Word) (n p : Nat), Accepts s r pgPwr 0x020 → d.toNat % 8 = n → n ≠ 1 →
      bitOf (s.rd pgPwr R.PWR_DOM_STAT_busy) n = false → s.domOn n = true → p < 0x300 → domOf p = some n → (blkOf p).isSome = true →
      s.ownerAccepts r p = false ∨ s.rd p R.OWNER_handover ≠ 0 →
    ∃ t, exec (.domReqOff r d) s = .next t ∧ t.rd pgPwr R.PWR_REQ_STAT_status = 2 ∧ t.rd pgPwr R.PWR_SEC_INT_denied = 1 ∧
      t.rd pgPwr R.PWR_DOM_STAT_denied_count = min (s.rd pgPwr R.PWR_DOM_STAT_denied_count + 1) (2 ^ 16 - 1) ∧
      t.rd pgPwr R.PWR_DOM_STAT_busy = s.rd pgPwr R.PWR_DOM_STAT_busy ∧
      t.rd pgPwr R.PWR_DOM_STAT_on = s.rd pgPwr R.PWR_DOM_STAT_on) ∧
  (∀ (s : State) (r : Req) (d : Word) (n : Nat), Accepts s r pgPwr 0x020 → d.toNat % 8 = n → n = 3 ∨ n = 4 →
      bitOf (s.rd pgPwr R.PWR_DOM_STAT_busy) n = false → s.domOn n = true → s.offAllowed r n = true → s.islandArmed n = true →
    ∃ t, exec (.domReqOff r d) s = .next t ∧ t.rd pgPwr R.PWR_REQ_STAT_status = 6 ∧
      t.rd pgPwr R.PWR_DOM_STAT_busy = s.rd pgPwr R.PWR_DOM_STAT_busy) ∧
  (∀ (s : State) (d : Fin 8) (n : Nat), bitOf (s.rd pgPwr R.PWR_DOM_STAT_busy) d.val = true → s.domOn d.val = false →
      s.rd pgPwr R.PWR_REQ_STAT_status = 1 → s.rd pgPwr R.PWR_REQ_STAT_domain = d.val →
    ∃ t, exec (.domainOnDone d n) s = .next t ∧ t.domOn d.val = true ∧ bitOf (t.rd pgPwr R.PWR_DOM_STAT_busy) d.val = false ∧
      t.rd pgPwr R.PWR_REQ_STAT_status = 0 ∧ ∀ e < 8, e ≠ d.val → t.domOn e = s.domOn e) ∧
  (∀ (s : State) (d : Fin 8), bitOf (s.rd pgPwr R.PWR_DOM_STAT_busy) d.val = true → s.domOn d.val = true →
    ∃ t, exec (.domainOffDone d) s = .next t ∧ t.domOn d.val = false ∧ bitOf (t.rd pgPwr R.PWR_DOM_STAT_busy) d.val = false ∧
      (∀ e < 8, e ≠ d.val → t.domOn e = s.domOn e) ∧ t.words = s.words ∧
      (d.val = 3 ∨ d.val = 4 → ∀ b < 32, domOfBank b = d.val → t.bk b = {} ∧ ∀ f, f.off < 4096 → f.lo < 32 → t.rd (pgBnk b) f = f.rst)) ∧
  (∀ (s : State) (r : Req) (d : Word), Accepts s r pgClk 0x020 → s.clkDenied r (d.toNat % 256) = 0 →
    ∃ t, exec (.clkGateWrite r d) s = .next t ∧ t.clkGate = d.toNat % 256 ∧ t.rd pgClk R.CLK_REQ_STAT_denied = 0) ∧
  (∀ (s : State) (r : Req) (d : Word), Accepts s r pgClk 0x020 → s.clkDenied r (d.toNat % 256) ≠ 0 →
    ∃ t, exec (.clkGateWrite r d) s = .next t ∧ t.rd pgPwr R.PWR_SEC_INT_clk_denied = 1 ∧
      (∀ i < 8, bitOf t.clkGate i = if bitOf (s.clkDenied r (d.toNat % 256)) i then bitOf s.clkGate i else bitOf d.toNat i)) ∧
  (∀ (s : State), ∃ t, exec .aonXtalSwitch s = .next t ∧ t.rd pgClk R.CLK_STAT_aon_xtal = 1 ∧
      ∀ p f, f.key p ≠ R.CLK_STAT_aon_xtal.key pgClk → t.rd p f = s.rd p f)

/-- R42, R53, R54, R124, R481: resets. Each source starts its kind of reset and shows its cause; every reset stops the firmware and
disarms every channel; eMRAM, the battery RAM and, but for a power-on reset, the step store stay. -/
def Obligations.Resets : Prop :=
  (∀ (s : State) (r : Req) (d : Word), Accepts s r pgRst 0x020 → d.toNat / 2 ^ 16 = 0x7A51 →
    ∃ t, exec (.rstCmdWarm r d) s = .next t ∧ t.rd pgRst R.RST_CAUSE_warm_sw = 1 ∧ t.warm = true ∧ t.up = false ∧ t.running = none ∧
      t.words = s.words ∧ t.bb = s.bb ∧ t.boot.pref = s.boot.pref ∧
      (∀ c < 512, t.rd (pgChn c) R.CHN_STAT_state = 0) ∧ (∀ p < 0x300, t.rd p R.OWNER_world = 1) ∧
      t.rd pgPwr R.PWR_DOM_STAT_on = 5 + 128 * b2n (s.domOn 7) ∧
      (∀ a, a < 0x10000000 ∨ 0x10400000 ≤ a → t.mem.read a = s.mem.read a)) ∧
  (∀ (s : State) (r : Req) (d : Word), Accepts s r pgRst 0x020 → d.toNat / 2 ^ 16 ≠ 0x7A51 →
    ∃ t, exec (.rstCmdWarm r d) s = .next t ∧ t = s.start) ∧
  (∀ (s : State) (r : Req) (d : Word), Accepts s r pgRst 0x020 → d.toNat / 2 ^ 16 = 0x7A51 →
    ∃ t, exec (.rstCmdCold r d) s = .next t ∧ t.rd pgRst R.RST_CAUSE_cold_sw = 1 ∧ t.warm = false ∧ t.up = false ∧ t.running = none ∧
      t.words = s.words ∧ t.bb = s.bb ∧ t.boot.pref = s.boot.pref ∧
      (∀ c < 512, t.rd (pgChn c) R.CHN_STAT_state = 0) ∧ (∀ p < 0x300, t.rd p R.OWNER_world = 1) ∧
      t.rd pgPwr R.PWR_DOM_STAT_on = 5 + 128 * b2n (s.domOn 7) ∧
      (∀ a, a < 0x10000000 → t.mem.read a = s.mem.read a)) ∧
  (∀ (s : State), s.sleep = 0 →
    ∃ t, exec .resetPin s = .next t ∧ t.rd pgRst R.RST_CAUSE_pin = 1 ∧ t.warm = false ∧ t.up = false ∧ t.words = s.words ∧
      (∀ c < 512, t.rd (pgChn c) R.CHN_STAT_state = 0)) ∧
  (∀ (s : State), s.sleep ≠ 0 →
    ∃ t, exec .resetPin s = .next t ∧ t.rd pgRst R.RST_CAUSE_wake = 1 ∧ t.sleep = 0 ∧ t.up = false ∧
      bitOf (t.rd pgPwr R.PWR_WAKE_CAUSE_cause) 4 = true) ∧
  (∀ (s : State), s.rd pgRst R.RST_PWRCYC_count + 1 < 2 ^ 32 →
    ∃ t, exec .powerOnReset s = .next t ∧ t.rd pgRst R.RST_CAUSE_por = 1 ∧ t.rd pgRst R.RST_CAUSE_wdt = 0 ∧
      t.rd pgRst R.RST_PWRCYC_count = s.rd pgRst R.RST_PWRCYC_count + 1 ∧ t.rd pgPwr R.PWR_DOM_STAT_on = 5 ∧ t.up = false ∧
      (∀ n w, t.stepWord n w = 0) ∧ t.bb = s.bb ∧ t.bbRoot = s.bbRoot ∧
      (∀ c < 512, t.rd (pgChn c) R.CHN_STAT_state = 0) ∧ (∀ a, a < 0x10000000 → t.mem.read a = s.mem.read a)) ∧
  (∀ (s : State), s.sleep = 0 →
    ∃ t, exec .brownout s = .next t ∧ t.rd pgRst R.RST_CAUSE_brownout = 1 ∧ t.warm = false ∧ t.up = false) ∧
  (∀ (s : State) (second : Bool), s.sleep = 0 → s.rd pgRst R.RST_WDT_timeout_ms ≠ 0 → s.wdt = false ∨ second = false →
    ∃ t, exec (.watchdogExpiry second) s = .next t ∧ t.rd pgRst R.RST_CAUSE_wdt = 1 ∧ t.warm = true ∧ t.up = false ∧ t.wdt = true) ∧
  (∀ (s : State), s.sleep = 0 → s.rd pgRst R.RST_WDT_timeout_ms ≠ 0 → s.wdt = true →
    ∃ t, exec (.watchdogExpiry true) s = .next t ∧ t.rd pgRst R.RST_CAUSE_wdt = 1 ∧ t.warm = false ∧ t.up = false ∧ t.wdt = false) ∧
  (∀ (s : State) (r : Req) (second : Bool), Accepts s r pgRst 0x02C →
    ∃ t, exec (.watchdogKick r 0x0000A5A5#32 second) s = .next t ∧ t = s.start) ∧
  (∀ (s : State) (r : Req) (d : Word), Accepts s r pgRst 0x02C → d ≠ 0x0000A5A5#32 →
    ∃ t, exec (.watchdogKick r d false) s = .next t ∧ t.rd pgRst R.RST_CAUSE_wdt = 1 ∧ t.warm = true ∧ t.up = false) ∧
  (∀ (s : State), s.domOn 0 = true → s.rd pgClk R.CLK_GATE_dbg = 1 →
    ∃ t, exec .debugColdRequest s = .next t ∧ t.rd pgRst R.RST_CAUSE_debug = 1 ∧ t.warm = false ∧ t.up = false)

/-- R57, R276, R310, R311: start-up. FABRIC, SEC and MEM are on and the service port works; the preferred bank starts where it is GOOD and
genuine, opening the key store; a TAMPERED device, or one with no bank to start, runs recovery with the store closed. -/
def Obligations.StartUp : Prop :=
  (∀ (s : State) (train : Bool), s.up = false → s.sleep = 0 →
    ∃ t, exec (.startUp train) s = .next t ∧ t.up = true ∧ t.domOn 0 = true ∧ t.domOn 2 = true ∧ t.domOn 6 = true ∧
      t.rd pgClk R.CLK_GATE_svc = 1 ∧ t.svc.attn = true ∧ t.rd pgSys R.SYS_DRAM_STAT_ready = b2n (train || s.warm) ∧
      t.rd pgPwr (R.PWR_VCORE_set_mv 0) = 800 ∧ t.rd pgPwr (R.PWR_VCORE_set_mv 2) = 800 ∧ t.words = s.words ∧
      (t.running = none → t.svc.recovery = true ∧ t.chr = 1) ∧ (t.running ≠ none → t.chr = 2 ∧ t.rd pgKey R.KEY_STATE_state = 1)) ∧
  (∀ (s : State) (train : Bool), s.up = false → s.sleep = 0 → s.rd pgTmp R.TMP_STAT_tampered = 1 →
    ∃ t, exec (.startUp train) s = .next t ∧ t.running = none ∧ t.rd pgKey R.KEY_STATE_state = 2 ∧ t.svc.recovery = true) ∧
  (∀ (s : State) (train : Bool), s.up = false → s.sleep = 0 → s.domOn 0 = true → s.rd pgTmp R.TMP_STAT_tampered = 0 →
      s.bbMark = 0x5AA5C33C → s.bbCheck = true → s.boot.stA ≠ Img.good → s.boot.stA ≠ Img.trial → s.boot.stB ≠ Img.good →
      s.boot.stB ≠ Img.trial → s.boot.pref < 2 →
    ∃ t, exec (.startUp train) s = .next t ∧ t.running = none ∧ t.svc.recovery = true ∧ t.boot = s.boot ∧ t.keys = s.keys) ∧
  (∀ (s : State) (train : Bool), s.up = false → s.sleep = 0 → s.domOn 0 = true → s.rd pgTmp R.TMP_STAT_tampered = 0 →
      s.bbMark = 0x5AA5C33C → s.bbCheck = true → s.boot.pref < 2 → s.boot.st s.boot.pref = Img.good →
    ∃ t, exec (.startUp train) s = .next t ∧ (s.imageOk s.boot.pref = true → t.running = some s.boot.pref ∧ t.boot = s.boot ∧
      t.domOn 1 = true ∧ t.chrPc = bankBase s.boot.pref + s.hdrN s.boot.pref 0x020 4 ∧ (t.hart 0).running = true ∧
      (t.hart 0).pc = BitVec.ofNat 64 (bankBase s.boot.pref + s.hdrN s.boot.pref 0x024 4) ∧
      (t.keys.get {} 0).secret = s.bbRoot ∧ t.rd pgDbg R.DBG_EN_ch_inv = 0)) ∧
  (∀ (s : State) (train : Bool), s.up = true →
    ∃ t, exec (.startUp train) s = .next t ∧ t = s.start)

/-- R58 to R60: SLEEP and AGEING_WATCH. Entry is the secure world's; every domain goes off, DRAM is not kept and open cell records are; an
enabled source wakes the device; a wake cycle in which no step ends returns to sleep. -/
def Obligations.SleepAndWake : Prop :=
  (∀ (s : State) (r : Req) (d : Word), Accepts s r pgPwr 0x060 → s.secureReq r = true →
    ∃ t, exec (.sleepEnter r d) s = .next t ∧ t.sleep = 1 ∧ t.rd pgPwr R.PWR_DOM_STAT_on = 0 ∧ t.running = none ∧
      (∀ c, (t.gr c).opn = (s.gr c).opn) ∧ t.words = s.words ∧ (∀ b < 32, t.linkUp b = false) ∧ t.harts = [] ∧
      (∀ a, a < 0x10000000 → t.mem.read a = s.mem.read a)) ∧
  (∀ (s : State) (r : Req) (d : Word), Accepts s r pgPwr 0x060 → s.secureReq r = false →
    ∃ t, exec (.sleepEnter r d) s = .next t ∧ t.sleep = s.sleep ∧ t.rd pgPwr R.PWR_REQ_STAT_status = 2 ∧
      t.rd pgPwr R.PWR_DOM_STAT_on = s.rd pgPwr R.PWR_DOM_STAT_on) ∧
  (∀ (s : State) (r : Req) (d : Word), Accepts s r pgPwr 0x060 → s.secureReq r = true →
      (∀ c < 512, s.armed c = true → s.openCircuit c = true) →
    ∃ t, exec (.ageingWatchEnter r d) s = .next t ∧ t.sleep = 2 ∧ t.rd pgPwr R.PWR_DOM_STAT_on = 0 ∧
      (∀ c, (t.gr c).opn = (s.gr c).opn) ∧ (∀ c < 512, t.rd (pgChn c) R.CHN_STAT_state = s.rd (pgChn c) R.CHN_STAT_state)) ∧
  (∀ (s : State) (r : Req) (d : Word) (c : Fin 512), Accepts s r pgPwr 0x060 → s.secureReq r = true → s.armed c.val = true →
      s.openCircuit c.val = false →
    ∃ t, exec (.ageingWatchEnter r d) s = .next t ∧ t.sleep = s.sleep ∧ t.rd pgPwr R.PWR_REQ_STAT_status = 4 ∧
      t.rd pgPwr R.PWR_DOM_STAT_on = s.rd pgPwr R.PWR_DOM_STAT_on) ∧
  (∀ (s : State) (src : Fin 5), s.sleep ≠ 0 → src.val ≠ 0 → bitOf (s.rd pgPwr R.PWR_WAKE_EN_en) src.val = true →
    ∃ t, exec (.wake src) s = .next t ∧ t.sleep = 0 ∧ t.up = false ∧ t.rd pgRst R.RST_CAUSE_wake = 1 ∧
      bitOf (t.rd pgPwr R.PWR_WAKE_CAUSE_cause) src.val = true ∧ (t.rd pgPwr R.INT_STAT).testBit 3 = true) ∧
  (∀ (s : State) (src : Fin 5), bitOf (s.rd pgPwr R.PWR_WAKE_EN_en) src.val = false →
    ∃ t, exec (.wake src) s = .next t ∧ t = s.start) ∧
  (∀ (s : State), s.sleep = 1 → bitOf (s.rd pgPwr R.PWR_WAKE_EN_en) 0 = true →
    ∃ t, exec .sleepTimerWake s = .next t ∧ t.sleep = 0 ∧ t.up = false ∧ t.rd pgRst R.RST_CAUSE_wake = 1 ∧
      bitOf (t.rd pgPwr R.PWR_WAKE_CAUSE_cause) 0 = true) ∧
  (∀ (s : State), s.sleep = 2 →
    ∃ t, exec .sleepTimerWake s = .next t ∧ t = s.start) ∧
  (∀ (s : State) (a ticks dur : Nat), s.sleep = 2 → (∀ c < 512, s.cst c ≠ 2) →
    ∃ t, exec (.awWakeCycle a ticks dur [] []) s = .next t ∧ t.sleep = 2 ∧ t.rd pgPwr R.PWR_DOM_STAT_on = 0 ∧
      (t.rd pgPwr R.INT_STAT).testBit 3 = true) ∧
  (∀ (s : State) (a ticks dur : Nat) (ids : List (Fin 32 × List Word)) (avg : List (Fin 512 × Int × Int)), s.sleep = 2 →
    ∃ t, exec (.awWakeCycle a ticks dur ids avg) s = .next t ∧ (t.sleep = 0 → bitOf (t.rd pgPwr R.PWR_WAKE_CAUSE_cause) 5 = true ∧
      t.domOn 0 = true ∧ t.domOn 3 = true ∧ t.domOn 4 = true) ∧ (t.sleep ≠ 0 → t.sleep = 2 ∧ t.rd pgPwr R.PWR_DOM_STAT_on = 0))
/-- R272, R275 to R281: the key store. A derive whose checks pass makes its child from the parent's secret; each check ends the command with
its code and changes no slot; an invalidation takes the slot and what descends from it; KEY_ZERO destroys the root. -/
def Obligations.KeyCommands : Prop :=
  (∀ (s : State) (r : Req) (d : Word) (p c a : Nat), Accepts s r pgKey 0x030 → d.toNat.testBit 30 = false → d.toNat % 64 = c →
      d.toNat / 2 ^ 16 % 64 = p → s.rd pgKey R.KEY_NEW_ATTR_attr = a → a.testBit 16 = false → a.testBit 21 = false →
      s.deriveCheck p c a s.keyInfo none (reqBit (r == .chrysalis)) = none →
    ∃ t, exec (.keyDerive r d) s = .next t ∧ t.rd pgKey R.KEY_STATE_result = 0 ∧ t.rd pgKey R.KEY_STATE_slot = c ∧
      (t.slotK c).valid = true ∧ (t.slotK c).type = a / 2 ^ 28 % 4 ∧ (t.slotK c).parent = p ∧
      (t.slotK c).attr % 256 = a % 256 - a % 2 ∧ (t.rd pgKey R.INT_STAT).testBit 0 = true ∧ (∀ n, n ≠ c → t.slotK n = s.slotK n) ∧
      (t.slotK c).secret = deriveSecret (s.slotK p).secret s.keyInfo (a / 2 ^ 28 % 4)) ∧
  (∀ (s : State) (r : Req) (d : Word) (p c x : Nat), Accepts s r pgKey 0x030 → d.toNat.testBit 30 = false → d.toNat % 64 = c →
      d.toNat / 2 ^ 16 % 64 = p → x < 256 →
      s.deriveCheck p c (s.rd pgKey R.KEY_NEW_ATTR_attr) s.keyInfo none (reqBit (r == .chrysalis)) = some x →
    ∃ t, exec (.keyDerive r d) s = .next t ∧ t.rd pgKey R.KEY_STATE_result = x ∧ t.keys = s.keys) ∧
  (∀ (s : State) (p c a b : Nat) (i : List Byte), s.keyStore = 1 → 2 ≤ c → (s.slotK c).valid = true →
    s.deriveCheck p c a i none b = some Key.inUse) ∧
  (∀ (s : State) (p c a b : Nat) (i : List Byte), s.keyStore = 1 → c < 2 → s.deriveCheck p c a i none b = some Key.badSlot) ∧
  (∀ (s : State) (c a b : Nat) (i : List Byte), s.keyStore = 1 → 2 ≤ c → (s.slotK c).valid = false → (s.slotK 0).valid = true →
      (s.slotK 0).type = 1 → a / 2 ^ 28 % 4 = 1 ∨ a / 2 ^ 28 % 4 = 2 → i.take 9 = glallaim →
    s.deriveCheck 0 c a i none b = some Key.denied) ∧
  (∀ (s : State) (p c a b : Nat) (i : List Byte), s.keyStore = 0 → s.deriveCheck p c a i none b = some Key.closed) ∧
  (∀ (s : State) (r : Req) (d : Word) (n : Nat), Accepts s r pgKey 0x030 → d.toNat.testBit 31 = false → d.toNat % 64 = n → 2 ≤ n →
      s.keyStore = 1 → (s.slotK n).valid = true →
    ∃ t, exec (.keyInvalidate r d) s = .next t ∧ t.slotK n = {} ∧ t.rd pgKey R.KEY_STATE_result = 0 ∧
      (∀ m < 64, (s.slotK m).valid = true → (s.slotK m).parent = n → t.slotK m = {}) ∧
      (∀ m < 64, (s.slotK m).valid = true → (s.slotK m).parent ≠ n → m ≠ n → (s.slotK m).parent = 0 → (s.slotK 0).parent = 0 → t.slotK m = s.slotK m)) ∧
  (∀ (s : State) (r : Req) (d : Word), Accepts s r pgKey 0x030 → d.toNat.testBit 31 = false → d.toNat % 64 < 2 → s.keyStore = 1 →
    ∃ t, exec (.keyInvalidate r d) s = .next t ∧ t.rd pgKey R.KEY_STATE_result = 3 ∧ t.keys = s.keys) ∧
  (∀ (s : State) (r : Req) (d : Word), Accepts s r pgKey 0x034 → d.toNat / 2 ^ 16 = 0x7A51 → d.toNat % 2 = 1 →
    ∃ t, exec (.keyZero r d) s = .next t ∧ t.bbRoot = 0 ∧ t.bbMark = 0 ∧ t.bbCheck = false ∧ t.keys = [] ∧ t.keyStore = 2 ∧
      t.tampered = s.tampered ∧ t.rd pgTmp R.TMP_STAT_cause = s.rd pgTmp R.TMP_STAT_cause) ∧
  (∀ (s : State) (r : Req) (d : Word), Accepts s r pgKey 0x034 → d.toNat / 2 ^ 16 ≠ 0x7A51 →
    ∃ t, exec (.keyZero r d) s = .next t ∧ t.keys = s.keys ∧ t.bbRoot = s.bbRoot ∧ t.fields = s.fields)

/-- R272, R278, R282, R283: crypto jobs of the register port. A job starts where no job runs and its key slot and operands pass, and ends
at once with the code of the check that fails; its end brings the output and the status. -/
def Obligations.CryptoJobs : Prop :=
  (∀ (s : State) (r : Req) (d : Word), Accepts s r pgCry 0x020 → s.job = none → d.toNat.testBit 23 = false →
      s.secReach (s.rd2 pgCry R.CRY_SRC_W0_addr R.CRY_SRC_W1_addr) (s.rd pgCry R.CRY_LEN_len) = true →
    ∃ t, exec (.crySha256 r d) s = .next t ∧ t.rd pgCry R.CRY_STAT_busy = 1 ∧ ∃ j, t.job = some j ∧ j.op = 1 ∧ j.coc = none) ∧
  (∀ (s : State) (r : Req) (d : Word), Accepts s r pgCry 0x020 → s.job = none → d.toNat.testBit 23 = false →
      s.secReach (s.rd2 pgCry R.CRY_SRC_W0_addr R.CRY_SRC_W1_addr) (s.rd pgCry R.CRY_LEN_len) = true →
      s.slotCheck (d.toNat / 2 ^ 16 % 64) none (reqBit (r == .chrysalis)) 1 6 = none →
    ∃ t, exec (.cryHmac r d) s = .next t ∧ t.rd pgCry R.CRY_STAT_busy = 1 ∧
      ∃ j, t.job = some j ∧ j.op = 2 ∧ j.coc = none ∧ j.slot = d.toNat / 2 ^ 16 % 64) ∧
  (∀ (s : State) (r : Req) (d : Word), Accepts s r pgCry 0x020 → s.job = none → d.toNat.testBit 23 = false →
      s.deriveCheck (d.toNat / 2 ^ 16 % 64) (s.rd pgCry (R.CRY_IN_data 0) % 64) (s.rd pgKey R.KEY_NEW_ATTR_attr) s.keyInfo none (reqBit (r == .chrysalis)) = none →
    ∃ t, exec (.cryDerive r d) s = .next t ∧ t.rd pgCry R.CRY_STAT_busy = 1 ∧
      ∃ j, t.job = some j ∧ j.op = 3 ∧ j.coc = none ∧ j.slot = d.toNat / 2 ^ 16 % 64) ∧
  (∀ (s : State) (r : Req) (d : Word), Accepts s r pgCry 0x020 → s.job = none → d.toNat.testBit 23 = false →
      s.slotCheck (d.toNat / 2 ^ 16 % 64) none (reqBit (r == .chrysalis)) 2 5 = none →
    ∃ t, exec (.crySign r d) s = .next t ∧ t.rd pgCry R.CRY_STAT_busy = 1 ∧
      ∃ j, t.job = some j ∧ j.op = 4 ∧ j.coc = none ∧ j.slot = d.toNat / 2 ^ 16 % 64) ∧
  (∀ (s : State) (r : Req) (d : Word), Accepts s r pgCry 0x020 → s.job = none → d.toNat.testBit 23 = false →
      s.secReach (s.rd2 pgCry R.CRY_SRC_W0_addr R.CRY_SRC_W1_addr) 64 = true →
    ∃ t, exec (.cryVerify r d) s = .next t ∧ t.rd pgCry R.CRY_STAT_busy = 1 ∧ ∃ j, t.job = some j ∧ j.op = 5 ∧ j.coc = none) ∧
  (∀ (s : State) (r : Req) (d : Word), Accepts s r pgCry 0x020 → s.job = none → d.toNat.testBit 23 = false →
      s.slotCheck (d.toNat / 2 ^ 16 % 64) none (reqBit (r == .chrysalis)) 2 4 = none →
    ∃ t, exec (.cryPubkey r d) s = .next t ∧ t.rd pgCry R.CRY_STAT_busy = 1 ∧
      ∃ j, t.job = some j ∧ j.op = 6 ∧ j.coc = none ∧ j.slot = d.toNat / 2 ^ 16 % 64) ∧
  (∀ (s : State) (r : Req) (d : Word), Accepts s r pgCry 0x020 → s.job = none → d.toNat.testBit 23 = false →
    ∃ t, exec (.cryRandom r d) s = .next t ∧ t.rd pgCry R.CRY_STAT_busy = 1 ∧ ∃ j, t.job = some j ∧ j.op = 7 ∧ j.coc = none) ∧
  (∀ (s : State) (r : Req) (d : Word) (x : Nat), Accepts s r pgCry 0x020 → s.job = none → d.toNat.testBit 23 = false → x < 256 →
      s.slotCheck (d.toNat / 2 ^ 16 % 64) none (reqBit (r == .chrysalis)) 2 5 = some x →
    ∃ t, exec (.crySign r d) s = .next t ∧ t.job = none ∧ t.rd pgCry R.CRY_STAT_busy = 0 ∧ t.rd pgCry R.CRY_STAT_status = x ∧
      (∀ n < 16, t.rd pgCry (R.CRY_OUT_data n) = 0) ∧ (t.rd pgCry R.INT_STAT).testBit 0 = true) ∧
  (∀ (s : State) (r : Req) (d : Word), Accepts s r pgCry 0x020 → s.job ≠ none →
    ∃ t, exec (.cryRandom r d) s = .next t ∧ t.job = s.job ∧ t.rd pgCry R.CRY_STAT_status = 1) ∧
  (∀ (s : State) (n b y u : Nat), s.keyStore = 0 → s.slotCheck n none b y u = some Key.closed) ∧
  (∀ (s : State) (j : Job), s.job = some j → s.jobReach j = true → j.op = 1 → j.coc = none →
    ∃ t, exec .cryJobDone s = .next t ∧ t.job = none ∧ t.rd pgCry R.CRY_STAT_busy = 0 ∧ t.rd pgCry R.CRY_STAT_status = 0 ∧
      (t.rd pgCry R.INT_STAT).testBit 0 = true ∧
      (∀ n < 8, t.rd pgCry (R.CRY_OUT_data n) = ofBytes (((sha256 (s.peekN j.src j.len)).drop (4 * n)).take 4))) ∧
  (∀ (s : State) (j : Job), s.job = some j → s.jobReach j = true → j.op = 2 → j.coc = none →
    ∃ t, exec .cryJobDone s = .next t ∧ t.job = none ∧ t.rd pgCry R.CRY_STAT_status = 0 ∧
      (∀ n < 8, t.rd pgCry (R.CRY_OUT_data n) = ofBytes (((hmac (beBytes 32 (s.slotK j.slot).secret) (s.peekN j.src j.len)).drop (4 * n)).take 4))) ∧
  (∀ (s : State) (j : Job) (c : Nat), s.job = some j → s.jobReach j = true → j.op = 6 → j.coc = some c → s.mem.wf = true →
    ∃ t, exec .cryJobDone s = .next t ∧ t.job = none ∧ t.rd pgCry R.CRY_STAT_status = 0 ∧
      (∀ n < 16, t.rd pgCry (R.CRY_OUT_data n) = s.rd pgCry (R.CRY_OUT_data n)) ∧
      t.load j.dst (ecPub (s.slotK j.slot).secret).length = ecPub (s.slotK j.slot).secret) ∧
  (∀ (s : State) (j : Job), s.job = some j → s.jobReach j = true → j.op = 5 →
    ∃ t, exec .cryJobDone s = .next t ∧ t.job = none ∧ t.mem = s.mem ∧ t.keys = s.keys ∧
      t.rd pgCry R.CRY_STAT_status = if ecVerify (s.peekN j.src 64) (j.input.take 32) ((j.input.drop 32).take 64) then 0 else 0x0E) ∧
  (∀ (s : State) (j : Job), s.job = some j → s.jobReach j = false →
    ∃ t, exec .cryJobDone s = .next t ∧ t.job = none ∧ t.rd pgCry R.CRY_STAT_status = 0x0D ∧ t.mem = s.mem)

/-- R284: key operations through the mailbox. A request that waits for its op is answered in its slot: with BAD_LEN for another length,
with DENIED, TAMPER or BAD_OP as the key store's result maps, and with OK and its output at dst. -/
def Obligations.MailboxKeyOperations : Prop :=
  (∀ (s : State) (k : Fin 12), s.mbxServed k.val 0x0101 = true → s.job = none → s.mbxLen k.val ≠ 44 →
    ∃ t, exec (.mbxKeySign k) s = .next t ∧ t.mbxState k.val = 3 ∧ t.rd pgMbx (mbxWord (16 * k.val + 1)) % 65536 = 2 ∧ t.mem = s.mem) ∧
  (∀ (s : State) (k : Fin 12) (p : List Byte), s.mbxServed k.val 0x0101 = true → s.job = none → s.mbxLen k.val = 44 →
      s.mbxPayload k.val = p → s.secReach (payN p 4 8) 64 = true → s.writable (payN p 4 8) 64 = true → s.mem.wf = true →
      s.slotCheck (payN p 0 1 % 64) none 2 2 5 = none →
    ∃ t, exec (.mbxKeySign k) s = .next t ∧ t.mbxState k.val = 3 ∧ t.rd pgMbx (mbxWord (16 * k.val + 1)) % 65536 = 0 ∧
      ofBytes (t.load (payN p 4 8) 64) = ofBytes ((ecSign (s.slotK (payN p 0 1 % 64)).secret (((p.drop 12).take 32))).take 64)) ∧
  (∀ (s : State) (k : Fin 12) (p : List Byte) (x : Nat), s.mbxServed k.val 0x0101 = true → s.job = none → s.mbxLen k.val = 44 →
      s.mbxPayload k.val = p → s.secReach (payN p 4 8) 64 = true → s.writable (payN p 4 8) 64 = true →
      s.slotCheck (payN p 0 1 % 64) none 2 2 5 = some x →
    ∃ t, exec (.mbxKeySign k) s = .next t ∧ t.mbxState k.val = 3 ∧
      t.rd pgMbx (mbxWord (16 * k.val + 1)) % 65536 = (if x = Key.denied ∨ x = Key.type then 3 else if x = Key.dead then 5 else 1) ∧
      t.mem = s.mem) ∧
  (∀ (s : State) (k : Fin 12) (p : List Byte), s.mbxServed k.val 0x0102 = true → s.job = none → s.mbxLen k.val = 24 →
      s.mbxPayload k.val = p → payN p 4 8 < 2 ^ 40 → s.secReach (payN p 4 8) (payN p 12 4) = true →
      s.secReach (payN p 16 8) 32 = true → s.writable (payN p 16 8) 32 = true → s.slotCheck (payN p 0 1 % 64) none 2 1 6 = none →
    ∃ t, exec (.mbxKeyHmac k) s = .next t ∧ t.mbxState k.val = 3 ∧ t.rd pgMbx (mbxWord (16 * k.val + 1)) % 65536 = 0 ∧ t.job = none) ∧
  (∀ (s : State) (k : Fin 12) (p : List Byte), s.mbxServed k.val 0x0103 = true → s.job = none → s.mbxPayload k.val = p →
      payN p 8 1 ≤ 44 → s.mbxLen k.val = 12 + payN p 8 1 → payN p 4 4 / 2 ^ 16 % 2 = 0 → payN p 4 4 / 2 ^ 21 % 2 = 0 →
      s.deriveCheck (payN p 0 1 % 64) (payN p 1 1 % 64) (payN p 4 4) ((p.drop 12).take (payN p 8 1)) none 2 = none →
    ∃ t, exec (.mbxKeyDerive k) s = .next t ∧ t.mbxState k.val = 3 ∧ t.rd pgMbx (mbxWord (16 * k.val + 1)) % 65536 = 0 ∧
      (t.slotK (payN p 1 1 % 64)).valid = true ∧ (t.slotK (payN p 1 1 % 64)).parent = payN p 0 1 % 64) ∧
  (∀ (s : State) (k : Fin 12) (p : List Byte), s.mbxServed k.val 0x0104 = true → s.job = none → s.mbxLen k.val = 12 →
      s.mbxPayload k.val = p → s.secReach (payN p 4 8) 64 = true → s.writable (payN p 4 8) 64 = true →
      s.slotCheck (payN p 0 1 % 64) none 2 2 4 = none →
    ∃ t, exec (.mbxKeyPubkey k) s = .next t ∧ t.mbxState k.val = 3 ∧ t.rd pgMbx (mbxWord (16 * k.val + 1)) % 65536 = 0 ∧ t.job = none) ∧
  (∀ (s : State) (k : Fin 12) (p : List Byte), s.mbxServed k.val 0x0105 = true → s.job = none → s.mbxLen k.val = 8 →
      s.mbxPayload k.val = p → s.secReach (payN p 0 8) 32 = true → s.writable (payN p 0 8) 32 = true →
    ∃ t, exec (.mbxKeyRandom k) s = .next t ∧ t.mbxState k.val = 3 ∧ t.rd pgMbx (mbxWord (16 * k.val + 1)) % 65536 = 0 ∧
      (∀ a, a < payN p 0 8 ∨ payN p 0 8 + 32 ≤ a → t.mem.read a = s.mem.read a)) ∧
  (∀ (s : State) (k : Fin 12) (n : Nat), s.mbxServed k.val 0x0106 = true → s.job = none → s.mbxLen k.val = 1 →
      payN (s.mbxPayload k.val) 0 1 % 64 = n → 2 ≤ n → s.keyStore = 1 → (s.slotK n).valid = true →
    ∃ t, exec (.mbxKeyInvalidate k) s = .next t ∧ t.mbxState k.val = 3 ∧ t.rd pgMbx (mbxWord (16 * k.val + 1)) % 65536 = 0 ∧
      t.slotK n = {})

/-- R285, R286, R288, R290, R291, R292, R458, R459: tamper and factory test access. An enabled cause destroys the root and the keys, aborts the
running job, and leaves control untouched unless a reset is configured; asleep it wakes the device. Only factory test access clears it. -/
def Obligations.TamperAndFactoryAccess : Prop :=
  (∀ (s : State) (c : Fin 8), s.tamperEnabled c.val = true → s.sleep = 0 → s.rd pgTmp R.TMP_CFG_reset_on_tamper = 0 →
      s.domOn 2 = true →
    ∃ t, exec (.tamperDetect c) s = .next t ∧ t.tampered = true ∧ (t.rd pgTmp R.TMP_STAT_cause).testBit c.val = true ∧ t.bbRoot = 0 ∧
      t.bbMark = 0 ∧ t.keys = [] ∧ t.keyStore = 2 ∧ t.job = none ∧ (s.job ≠ none → t.rd pgCry R.CRY_STAT_status = 0x0B ∧ ∀ n < 16, t.rd pgCry (R.CRY_OUT_data n) = 0) ∧
      t.rd pgDbg R.DBG_EN_s_inv = 0 ∧ t.rd pgDbg R.DBG_EN_ch_inv = 0 ∧ (t.rd pgTmp R.INT_STAT).testBit 0 = true ∧ t.banks = s.banks ∧
      t.chans = s.chans ∧ t.grd = s.grd ∧ t.bb = s.bb) ∧
  (∀ (s : State) (c : Fin 8), s.tamperEnabled c.val = true → s.sleep = 0 → s.up = true → s.rd pgTmp R.TMP_CFG_reset_on_tamper = 1 →
    ∃ t, exec (.tamperDetect c) s = .next t ∧ t.tampered = true ∧ t.rd pgRst R.RST_CAUSE_tamper = 1 ∧ t.up = false ∧ t.bbRoot = 0 ∧
      t.keyStore = 2) ∧
  (∀ (s : State) (c : Fin 8), s.tamperEnabled c.val = true → s.sleep ≠ 0 →
    ∃ t, exec (.tamperDetect c) s = .next t ∧ t.tampered = true ∧ t.bbRoot = 0 ∧ t.sleep = 0 ∧ t.up = false ∧
      bitOf (t.rd pgPwr R.PWR_WAKE_CAUSE_cause) 3 = true) ∧
  (∀ (s : State) (c : Fin 8), s.tamperEnabled c.val = false →
    ∃ t, exec (.tamperDetect c) s = .next t ∧ t = s.start) ∧
  (∀ (s : State), s.domOn 0 = true → s.rd pgClk R.CLK_GATE_dbg = 1 → s.rd pgEvr R.EVR_FTA_state = 0 → s.ftaFails < 16 →
    ∃ t, exec .ftaChallenge s = .next t ∧ ∃ n, t.fta = some n ∧ n < 2 ^ 128 ∧ t.out = [Out.fta Config.deviceUid.toNat n]) ∧
  (∀ (s : State), s.rd pgEvr R.EVR_FTA_state = 1 ∨ 16 ≤ s.ftaFails →
    ∃ t, exec .ftaChallenge s = .next t ∧ t = s.start) ∧
  (∀ (s : State) (sig : List Byte) (n : Nat), s.domOn 0 = true → s.rd pgClk R.CLK_GATE_dbg = 1 → s.fta = some n →
    ∃ t, exec (.ftaAnswer sig) s = .next t ∧ t.fta = none ∧
      (Config.ftaVerifies n sig = true → t.rd pgEvr R.EVR_FTA_state = 1 ∧ t.bbRoot = 0 ∧ t.keys = [] ∧ t.keyStore = 2 ∧
        (∀ a, (0x01600000 ≤ a ∧ a < 0x01680000) ∨ (0x800000000 ≤ a ∧ a < 0xA00000000) → t.mem.read a = 0)) ∧
      (Config.ftaVerifies n sig = false → t.ftaFails = s.ftaFails + 1 ∧ t.rd pgEvr R.EVR_FTA_state = s.rd pgEvr R.EVR_FTA_state ∧
        t.rd pgEvr R.EVR_FTA_fails = min (s.ftaFails + 1) 15 ∧ t.keys = s.keys)) ∧
  (∀ (s : State), s.domOn 0 = true → s.rd pgClk R.CLK_GATE_dbg = 1 → s.rd pgEvr R.EVR_FTA_state = 1 →
    ∃ t, exec .tamperedClear s = .next t ∧ t.tampered = false ∧ t.keys = s.keys) ∧
  (∀ (s : State), s.rd pgEvr R.EVR_FTA_state = 0 →
    ∃ t, exec .tamperedClear s = .next t ∧ t = s.start) ∧
  (∀ (s : State) (root : BitVec 256) (cert : List Byte), s.domOn 0 = true → s.rd pgClk R.CLK_GATE_dbg = 1 →
      s.rd pgEvr R.EVR_FTA_state = 1 →
    ∃ t, exec (.rootProvision root cert) s = .next t ∧ t.bbRoot = root.toNat ∧ t.bbMark = 0x5AA5C33C ∧ t.bbCheck = true ∧
      t.cert = some cert ∧ t.keys = s.keys) ∧
  (∀ (s : State), s.domOn 0 = true → s.rd pgClk R.CLK_GATE_dbg = 1 → s.rd pgEvr R.EVR_FTA_state = 1 →
    ∃ t, exec .ftaSeal s = .next t ∧ t.rd pgEvr R.EVR_FTA_state = 0 ∧ t.bbRoot = s.bbRoot)
/-- R243, R256: traps and returns. A trap outside a cocoon goes to M-mode in the secure world, or to the S-mode that the normal world
delegates it to; in a cocoon it is an asynchronous exit that leaves no register; mret enters the world of mworld.pw. -/
def Obligations.TrapsAndReturns : Prop :=
  (∀ (s : State) (h : Fin 4) (cause tval : BitVec 64), s.executes h.val = true → (s.hart h.val).world ≠ 2 →
      (s.hart h.val).delegates cause = false →
    ∃ t, exec (.trap h cause tval) s = .next t ∧ (t.hart h.val).world = 1 ∧ (t.hart h.val).priv = 3 ∧
      (t.hart h.val).mcause = cause ∧ (t.hart h.val).mepc = (s.hart h.val).pc ∧ (t.hart h.val).mtval = tval ∧
      (t.hart h.val).pw = (s.hart h.val).world ∧ (t.hart h.val).pc = trapPc (s.hart h.val).mtvec cause ∧
      (t.hart h.val).mstatus.getLsbD 3 = false ∧ (t.hart h.val).mstatus.getLsbD 7 = (s.hart h.val).mstatus.getLsbD 3 ∧
      ((s.hart h.val).priv < 4 → (t.hart h.val).mpp = (s.hart h.val).priv) ∧ (t.hart h.val).x = (s.hart h.val).x ∧
      (t.hart h.val).stack = (s.hart h.val).stack ∧ (∀ g, g ≠ h.val → t.hart g = s.hart g) ∧ t.fields = s.fields ∧ t.mem = s.mem) ∧
  (∀ (s : State) (h : Fin 4) (cause tval : BitVec 64), s.executes h.val = true → (s.hart h.val).world = 0 →
      (s.hart h.val).delegates cause = true →
    ∃ t, exec (.trap h cause tval) s = .next t ∧ (t.hart h.val).world = 0 ∧ (t.hart h.val).priv = 1 ∧
      (t.hart h.val).sNormal.scause = cause ∧ (t.hart h.val).sNormal.sepc = (s.hart h.val).pc ∧
      (t.hart h.val).sNormal.stval = tval ∧ (t.hart h.val).pc = trapPc (s.hart h.val).sNormal.stvec cause ∧
      (t.hart h.val).sSecure = (s.hart h.val).sSecure ∧ (t.hart h.val).mcause = (s.hart h.val).mcause) ∧
  (∀ (s : State) (h : Fin 4) (cause tval : BitVec 64) (n : Nat), s.executes h.val = true → (s.hart h.val).world = 2 →
      (s.hart h.val).cocoon = n →
    ∃ t, exec (.trap h cause tval) s = .next t ∧ (t.hart h.val).world = 1 ∧ (t.hart h.val).priv = 3 ∧
      (t.hart h.val).mcause = cause ∧ (t.hart h.val).mepc = 0 ∧ (t.hart h.val).mtval = 0 ∧ (t.hart h.val).pw = 2 ∧
      (t.hart h.val).pcoc = n ∧ (t.hart h.val).coexValid = true ∧ (t.hart h.val).coexDestroyed = false ∧
      (t.hart h.val).coexCocoon = n ∧ (∀ k, (t.hart h.val).reg k = 0) ∧ (t.hart h.val).f = [] ∧ (t.hart h.val).fcsr = 0 ∧
      (t.hart h.val).stack = (s.hart h.val).stack.tail ∧ t.saved.get {} (4 * n + h.val) = (s.hart h.val).context ∧
      (∀ a, a < s.saveArea n h.val ∨ s.saveArea n h.val + 1024 ≤ a → t.mem.read a = s.mem.read a)) ∧
  (∀ (s : State) (h : Fin 4), s.executes h.val = true → (s.hart h.val).priv = 3 →
      (s.hart h.val).pw ≠ 0 ∨ (s.hart h.val).mpp ≠ 3 →
    ∃ t, exec (.mret h) s = .next t ∧ (t.hart h.val).world = (s.hart h.val).pw ∧ (t.hart h.val).pc = (s.hart h.val).mepc ∧
      (t.hart h.val).priv = (if (s.hart h.val).pw = 2 then 0 else (s.hart h.val).mpp) ∧
      (t.hart h.val).mstatus.getLsbD 3 = (s.hart h.val).mstatus.getLsbD 7 ∧ (t.hart h.val).mstatus.getLsbD 7 = true ∧
      (t.hart h.val).mpp = 0 ∧ (t.hart h.val).x = (s.hart h.val).x ∧ (t.hart h.val).stack = (s.hart h.val).stack) ∧
  (∀ (s : State) (h : Fin 4), s.executes h.val = true → (s.hart h.val).priv = 3 → (s.hart h.val).world = 1 →
      (s.hart h.val).pw = 0 → (s.hart h.val).mpp = 3 →
    ∃ t, exec (.mret h) s = .next t ∧ (t.hart h.val).mcause = 2 ∧ (t.hart h.val).world = 1 ∧ (t.hart h.val).mepc = (s.hart h.val).pc) ∧
  (∀ (s : State) (h : Fin 4), s.executes h.val = false →
    ∃ t, exec (.mret h) s = .next t ∧ t = s.start)

/-- R247 to R251, R257: gateway instructions. A crossing whose checks pass pushes its caller and enters the gate; the first check that fails
traps with its subcode and changes no world; GWRET returns to the entry; GWRESUME takes a saved context once. -/
def Obligations.GatewayInstructions : Prop :=
  (∀ (s : State) (h : Fin 4) (rd rs1 : Fin 32), s.executes h.val = true → rd.val ≠ 0 →
    ∃ t, exec (.gwgate h rd rs1) s = .next t ∧ (t.hart h.val).pc = (s.hart h.val).pc + 4 ∧
      (t.hart h.val).world = (s.hart h.val).world ∧ (t.hart h.val).stack = (s.hart h.val).stack ∧
      (∀ g, s.gateCheck (s.hart h.val) ((s.hart h.val).reg rs1.val) = .ok g → (t.hart h.val).reg rd.val = 0) ∧
      (∀ n, s.gateCheck (s.hart h.val) ((s.hart h.val).reg rs1.val) = .error n → (t.hart h.val).reg rd.val = BitVec.ofNat 64 n) ∧
      (∀ r, r ≠ rd.val → (t.hart h.val).reg r = (s.hart h.val).reg r)) ∧
  (∀ (s : State) (h : Fin 4) (rs1 : Fin 32), s.executes h.val = true → (s.hart h.val).stack.length < 8 →
    ∃ t, exec (.gwcall h rs1) s = .next t ∧
      (∀ g, s.gateCheck (s.hart h.val) ((s.hart h.val).reg rs1.val) = .ok g → (t.hart h.val).world = g.world ∧ (t.hart h.val).cocoon = g.coc ∧ (t.hart h.val).priv = g.priv ∧ (t.hart h.val).pc = BitVec.ofNat 64 g.entry ∧ (t.hart h.val).x = (s.hart h.val).x ∧
          (t.hart h.val).stack = { pc := (s.hart h.val).pc + 4, priv := (s.hart h.val).priv, world := (s.hart h.val).world, cocoon := (s.hart h.val).cocoon, calleeW := g.world, calleeC := g.coc } :: (s.hart h.val).stack) ∧
      (∀ n, s.gateCheck (s.hart h.val) ((s.hart h.val).reg rs1.val) = .error n → (s.hart h.val).world = 1 → (t.hart h.val).mcause = 24 ∧ (t.hart h.val).mtval = BitVec.ofNat 64 n ∧ (t.hart h.val).mepc = (s.hart h.val).pc ∧ (t.hart h.val).stack = (s.hart h.val).stack)) ∧
  (∀ (s : State) (h : Fin 4) (rs1 : Fin 32) (n : Nat), s.executes h.val = true → (s.hart h.val).world = 1 → n < 16 →
      ((s.hart h.val).reg rs1.val).toNat / 2 ^ 16 = 16 + n → s.sealedCoc n = false → (s.hart h.val).stack.length < 8 →
    ∃ t, exec (.gwcall h rs1) s = .next t ∧ (t.hart h.val).mcause = 24 ∧ (t.hart h.val).mtval = 5) ∧
  (∀ (s : State) (h : Fin 4) (rs1 : Fin 32), s.executes h.val = true → (s.hart h.val).world = 1 →
      ((s.hart h.val).reg rs1.val).toNat < 2 ^ 16 →
    ∃ t, exec (.gwcall h rs1) s = .next t ∧ (t.hart h.val).mcause = 24 ∧ (t.hart h.val).mtval = 4) ∧
  (∀ (s : State) (h : Fin 4) (e : GwEntry) (rest : List GwEntry), s.executes h.val = true → (s.hart h.val).stack = e :: rest →
      (s.hart h.val).world = e.calleeW → (s.hart h.val).cocoon = e.calleeC →
    ∃ t, exec (.gwret h) s = .next t ∧ (t.hart h.val).stack = rest ∧ (t.hart h.val).world = e.world ∧ (t.hart h.val).priv = e.priv ∧
      (t.hart h.val).cocoon = e.cocoon ∧ (t.hart h.val).pc = e.pc ∧ (t.hart h.val).x = (s.hart h.val).x) ∧
  (∀ (s : State) (h : Fin 4), s.executes h.val = true → (s.hart h.val).world ≠ 2 → (s.hart h.val).stack = [] →
      (s.hart h.val).delegates 25 = false →
    ∃ t, exec (.gwret h) s = .next t ∧ (t.hart h.val).mcause = 25 ∧ (t.hart h.val).mtval = 2 ∧ (t.hart h.val).world = 1) ∧
  (∀ (s : State) (h : Fin 4) (rs1 : Fin 32) (n : Nat) (c : Ctx), s.executes h.val = true → (s.hart h.val).world = 1 →
      (s.hart h.val).priv ≠ 0 → ((s.hart h.val).reg rs1.val).toNat % 16 = n → s.sealedCoc n = true →
      s.saved.find? (fun e => e.1 == 4 * n + h.val) = some (4 * n + h.val, c) → (s.hart h.val).stack.length < 8 →
    ∃ t, exec (.gwresume h rs1) s = .next t ∧ (t.hart h.val).world = 2 ∧ (t.hart h.val).cocoon = n ∧ (t.hart h.val).priv = 0 ∧
      (t.hart h.val).x = c.x ∧ (t.hart h.val).f = c.f ∧ (t.hart h.val).fcsr = c.fcsr ∧ (t.hart h.val).pc = c.pc ∧
      (t.hart h.val).stack = c.top.toList ++ (s.hart h.val).stack ∧
      t.saved.find? (fun e => e.1 == 4 * n + h.val) = none) ∧
  (∀ (s : State) (h : Fin 4) (rs1 : Fin 32) (n : Nat), s.executes h.val = true → (s.hart h.val).world = 1 →
      (s.hart h.val).priv ≠ 0 → ((s.hart h.val).reg rs1.val).toNat % 16 = n →
      s.sealedCoc n = false ∨ s.saved.find? (fun e => e.1 == 4 * n + h.val) = none →
    ∃ t, exec (.gwresume h rs1) s = .next t ∧ (t.hart h.val).mcause = 24 ∧ (t.hart h.val).mtval = 5 ∧ (t.hart h.val).world = 1) ∧
  (∀ (s : State) (h : Fin 4) (rd : Fin 32), s.executes h.val = true → rd.val ≠ 0 → (s.hart h.val).world < 4 →
      (s.hart h.val).cocoon < 16 → (s.hart h.val).stack.length < 16 →
    ∃ t, exec (.gwid h rd) s = .next t ∧ (t.hart h.val).pc = (s.hart h.val).pc + 4 ∧
      ((t.hart h.val).reg rd.val).toNat = (s.hart h.val).world + 16 * (s.hart h.val).cocoon + 256 * (s.hart h.val).stack.length ∧
      (∀ r, r ≠ rd.val → (t.hart h.val).reg r = (s.hart h.val).reg r))

/-- R252 to R254, R258: cocoons, from create to destroy. -/
def Obligations.Cocoons : Prop :=
  (∀ (s : State) (r : Req) (d : Word), Accepts s r pgSec 0x084 → d.toNat / 2 ^ 29 % 4 = 0 → s.cocState s.cocSel = 0 →
      s.rangesOk s.cocSel = true →
    ∃ t, exec (.cocCreate r d) s = .next t ∧ t.cocState s.cocSel = 1 ∧ t.rd (iCoc s.cocSel) R.SEC_COC_STAT_result = 0 ∧ t.mem = s.mem) ∧
  (∀ (s : State) (r : Req) (d : Word), Accepts s r pgSec 0x084 → d.toNat / 2 ^ 29 % 4 = 0 → s.cocState s.cocSel = 0 →
      s.rangesOk s.cocSel = false →
    ∃ t, exec (.cocCreate r d) s = .next t ∧ t.cocState s.cocSel = 0 ∧ t.rd (iCoc s.cocSel) R.SEC_COC_STAT_result = 3) ∧
  (∀ (s : State) (r : Req) (d : Word), Accepts s r pgSec 0x084 → d.toNat / 2 ^ 29 % 4 = 0 → s.cocState s.cocSel ≠ 0 →
    ∃ t, exec (.cocCreate r d) s = .next t ∧ t.cocState s.cocSel = s.cocState s.cocSel ∧
      t.rd (iCoc s.cocSel) R.SEC_COC_STAT_result = 2) ∧
  (∀ (s : State) (r : Req) (d : Word) (n : Nat), Accepts s r pgSec 0x084 → d.toNat / 2 ^ 29 % 2 = 0 → d.toNat / 2 ^ 31 = 0 →
      s.cocSel = n → s.cocState n = 1 → s.rd (iCoc n) R.SEC_COC_STAT_busy = 0 →
    ∃ t, exec (.cocSeal r d) s = .next t ∧ t.rd (iCoc n) R.SEC_COC_STAT_busy = 1 ∧ t.rd (iCoc n) R.SEC_COC_STAT_result = 1 ∧
      t.cocState n = 1 ∧ (∀ a, s.saveArea n 0 ≤ a → a < s.saveArea n 0 + 4096 → t.mem.read a = 0) ∧
      (∀ a, a < s.saveArea n 0 ∨ s.saveArea n 0 + 4096 ≤ a → t.mem.read a = s.mem.read a) ∧
      (∀ h < 4, t.saved.find? (fun e => e.1 == 4 * n + h) = none)) ∧
  (∀ (s : State) (n : Fin 16), s.cocState n.val = 1 → s.rd (iCoc n.val) R.SEC_COC_STAT_busy = 1 →
    ∃ t, exec (.cocSealDone n) s = .next t ∧ t.cocState n.val = 2 ∧ t.rd (iCoc n.val) R.SEC_COC_STAT_busy = 0 ∧
      t.rd (iCoc n.val) R.SEC_COC_STAT_result = 0 ∧ (t.rd pgSec R.INT_STAT).testBit 2 = true ∧ t.mem = s.mem ∧
      (∀ i < 8, t.rd (iCoc n.val) (R.SEC_COC_MEAS_meas i) = ofBytes (((s.measure n.val).drop (4 * i)).take 4))) ∧
  (∀ (s : State) (r : Req) (d : Word) (n : Nat), Accepts s r pgSec 0x084 → d.toNat / 2 ^ 30 = 0 → s.cocSel = n →
      s.cocState n = 1 ∨ s.cocState n = 2 →
    ∃ t, exec (.cocDestroy r d) s = .next t ∧ t.cocState n = 3 ∧ t.rd (iCoc n) R.SEC_COC_STAT_result = 1 ∧
      (∀ h < 4, (t.hart h).world ≠ 2 ∨ (t.hart h).cocoon ≠ n) ∧
      (∀ h < 4, (s.hart h).world = 2 → (s.hart h).cocoon = n → (t.hart h).coexDestroyed = true ∧ (t.hart h).coexCocoon = n ∧ (t.hart h).world = 1 ∧ (t.hart h).x = [])) ∧
  (∀ (s : State) (n : Fin 16), s.cocState n.val = 3 →
    ∃ t, exec (.cocDestroyDone n) s = .next t ∧ t.cocState n.val = 0 ∧ t.rd (iCoc n.val) R.SEC_COC_STAT_result = 0 ∧
      (t.rd pgSec R.INT_STAT).testBit 2 = true ∧ (∀ a, s.inCoc n.val a = true → t.mem.read a = 0) ∧
      (∀ a, s.inCoc n.val a = false → t.mem.read a = s.mem.read a) ∧
      (∀ p < 0x300, (blkOf p).isSome = true → s.rd p R.OWNER_world = 2 → s.rd p R.OWNER_cocoon = n.val → s.rd p R.OWNER_handover ≠ 2 → t.rd p R.OWNER_world = 1) ∧
      (∀ i < 8, t.rd (iCoc n.val) (R.SEC_COC_MEAS_meas i) = 0) ∧
      (∀ k < 64, (s.slotK k).valid = true → (s.slotK k).attr.testBit 16 = true → (s.slotK k).attr / 2 ^ 17 % 16 = n.val → t.slotK k = {}))

/-- R241, R245, R261, R263, R264, R270, R271: watermarks, L2 masks, the start of cores, the hand-over of pages and debug enables. -/
def Obligations.SecureControl : Prop :=
  (∀ (s : State) (r : Req) (w : Fin 4) (d : Word), Accepts s r pgSec (0x020 + 4 * w.val) → s.rd pgSec (wmLock w.val) = 0 →
      s.wmRefused w.val (d.toNat % 2 ^ 22) = false →
    ∃ t, exec (.wmWrite r w d) s = .next t ∧ t.rd pgSec (wmField w.val) = d.toNat % 2 ^ 22 ∧
      t.rd pgSec (wmLock w.val) = d.toNat / 2 ^ 31 ∧ (∀ v < 4, v ≠ w.val → t.rd pgSec (wmField v) = s.rd pgSec (wmField v))) ∧
  (∀ (s : State) (r : Req) (w : Fin 4) (d : Word), Accepts s r pgSec (0x020 + 4 * w.val) → s.rd pgSec (wmLock w.val) = 0 →
      s.wmRefused w.val (d.toNat % 2 ^ 22) = true →
    ∃ t, exec (.wmWrite r w d) s = .next t ∧ t.rd pgSec (wmField w.val) = s.rd pgSec (wmField w.val) ∧ t.rd pgSec (wmLock w.val) = 0 ∧
      (t.rd pgSec R.INT_STAT).testBit 3 = true) ∧
  (∀ (s : State) (r : Req) (w : Fin 4) (d : Word), Accepts s r pgSec (0x020 + 4 * w.val) → s.rd pgSec (wmLock w.val) = 1 →
    ∃ t, exec (.wmWrite r w d) s = .next t ∧ t.rd pgSec (wmField w.val) = s.rd pgSec (wmField w.val)) ∧
  (∀ (s : State) (r : Req) (d : Word) (a b : Nat), Accepts s r pgSec 0x030 → d.toNat % 2 ^ 16 = a → d.toNat / 2 ^ 16 = b → a ≠ 0 →
      b ≠ 0 → a &&& b = 0 → s.rd pgSec R.SEC_L2_COC_cocoon &&& a = 0 → s.rd pgSec R.SEC_L2_COC_cocoon < 2 ^ 16 →
    ∃ t, exec (.l2MaskWrite r false d) s = .next t ∧ t.rd pgSec R.SEC_L2_PART_normal = a ∧ t.rd pgSec R.SEC_L2_PART_secure = b ∧
      t.rd pgSec R.SEC_L2_COC_cocoon = s.rd pgSec R.SEC_L2_COC_cocoon) ∧
  (∀ (s : State) (r : Req) (d : Word), Accepts s r pgSec 0x034 → (d.toNat % 2 ^ 16) &&& s.rd pgSec R.SEC_L2_PART_normal ≠ 0 →
    ∃ t, exec (.l2MaskWrite r true d) s = .next t ∧ t.rd pgSec R.SEC_L2_COC_cocoon = s.rd pgSec R.SEC_L2_COC_cocoon ∧
      (t.rd pgSec R.INT_STAT).testBit 4 = true) ∧
  (∀ (s : State) (r : Req) (d : Word), Accepts s r pgSec 0x038 →
    ∃ t, exec (.l2Clean r d) s = .next t ∧ t.mem = s.mem ∧ t.fields = s.fields) ∧
  (∀ (s : State) (r : Req) (d : Word) (h : Nat), Accepts s r pgSec 0x040 → 1 ≤ h → h ≤ 3 → d.toNat.testBit h = true →
      (s.rd pgSec R.SEC_CORE_RUN_run).testBit (h - 1) = false → s.domOn 1 = true →
    ∃ t, exec (.coreRun r d) s = .next t ∧ (t.hart h).running = true ∧ (t.hart h).priv = 3 ∧ (t.hart h).world = 1 ∧
      (t.hart h).pc = BitVec.ofNat 64 (s.rd2 pgSec R.SEC_CORE_BOOT_W0_addr R.SEC_CORE_BOOT_W1_addr / 4 * 4) ∧
      (t.rd pgSec R.SEC_CORE_RUN_run).testBit (h - 1) = true ∧ t.hart 0 = s.hart 0) ∧
  (∀ (s : State) (r : Req) (d : Word) (p : Nat), Accepts s r pgSec 0x068 → d.toNat / 2 ^ 28 % 8 = 0 → s.rd pgSec R.SEC_HO_PAGE_page = p →
      (blkOf p).isSome = true → fixedPage p = false → s.pageOn p = true → s.movingPage p = false → s.rd p R.OWNER_handover = 0 →
      s.badTarget (s.rd pgSec R.SEC_HO_TO_target) = false →
    ∃ t, exec (.hoOffer r d) s = .next t ∧ t.rd p R.OWNER_handover = 1 ∧ t.offers.get 1 p = s.rd pgSec R.SEC_HO_TO_target ∧
      t.rd p R.OWNER_world = s.rd p R.OWNER_world ∧ t.rd pgSec R.SEC_HO_STAT_result = 0 ∧ t.rd pgSec R.SEC_HO_STAT_page = p) ∧
  (∀ (s : State) (r : Req) (d : Word) (p : Nat), Accepts s r pgSec 0x068 → d.toNat / 2 ^ 28 % 8 = 0 → s.rd pgSec R.SEC_HO_PAGE_page = p →
      fixedPage p = true →
    ∃ t, exec (.hoOffer r d) s = .next t ∧ t.rd pgSec R.SEC_HO_STAT_result = 3 ∧ t.offers = s.offers) ∧
  (∀ (s : State) (r : Req) (d : Word) (p : Nat), Accepts s r pgSec 0x068 → d.toNat / 2 ^ 28 % 4 = 0 → d.toNat / 2 ^ 31 = 0 →
      s.rd pgSec R.SEC_HO_PAGE_page = p → (blkOf p).isSome = true → s.pageOn p = true → s.movingPage p = false →
      s.rd p R.OWNER_handover = 1 →
    ∃ t, exec (.hoWithdraw r d) s = .next t ∧ t.rd p R.OWNER_handover = 0 ∧ t.rd p R.OWNER_world = s.rd p R.OWNER_world ∧
      t.rd pgSec R.SEC_HO_STAT_result = 0) ∧
  (∀ (s : State) (r : Req) (d : Word) (p : Nat), Accepts s r pgSec 0x068 → d.toNat / 2 ^ 28 % 2 = 0 → d.toNat / 2 ^ 30 = 0 →
      s.rd pgSec R.SEC_HO_PAGE_page = p → (blkOf p).isSome = true → s.pageOn p = true → s.movingPage p = false →
      s.rd p R.OWNER_handover = 1 → s.anyDrain = false → s.badTarget (s.offers.get 1 p) = false →
    ∃ t, exec (.hoCommit r d) s = .next t ∧ t.rd p R.OWNER_handover = 2 ∧ t.drain = some p ∧
      t.rd pgSec R.SEC_HO_STAT_draining = 1 ∧ t.rd pgSec R.SEC_HO_STAT_result = 1 ∧ t.offers.get 1 p = s.offers.get 1 p) ∧
  (∀ (s : State) (r : Req) (d : Word) (p : Nat), Accepts s r pgSec 0x068 → d.toNat / 2 ^ 29 = 0 →
      s.rd pgSec R.SEC_HO_PAGE_page = p → (blkOf p).isSome = true → s.pageOn p = true → s.movingPage p = false →
      s.rd p R.OWNER_handover = 0 → s.rd p R.OWNER_world ≠ 1 → s.anyDrain = false →
    ∃ t, exec (.hoReclaim r d) s = .next t ∧ t.rd p R.OWNER_handover = 2 ∧ t.drain = some p ∧ t.offers.get 1 p = 1 ∧
      t.rd pgSec R.SEC_HO_STAT_result = 1) ∧
  (∀ (s : State) (p x : Nat), s.drain = some p → s.offers.get 1 p = x → s.badTarget x = false → s.rd pgSec R.SEC_HO_STAT_page = p →
      s.rd pgSec R.SEC_HO_STAT_result = 1 →
    ∃ t, exec .hoDrainDone s = .next t ∧ t.rd p R.OWNER_world = x % 4 ∧ t.rd p R.OWNER_function = x / 2 ^ 8 % 2 ^ 9 ∧
      t.rd p R.OWNER_handover = 0 ∧ t.drain = none ∧ t.rd pgSec R.SEC_HO_STAT_draining = 0 ∧
      t.rd pgSec R.SEC_HO_STAT_result = 0 ∧ (t.rd pgSec R.INT_STAT).testBit 0 = true) ∧
  (∀ (s : State) (r : Req) (d : Word), Accepts s r pgDbg 0x020 → s.locked pgDbg = false →
    ∃ t, exec (.dbgEnWrite r d) s = .next t ∧ (∀ f ∈ dbgFields, t.rd pgDbg f = if bitOf (s.dbgMask r) f.lo then f.of d else s.rd pgDbg f) ∧
      (∀ h < 4, (t.hart h).halted = true → t.invasive (t.hart h).world (t.hart h).cocoon = true)) ∧
  (∀ (s : State) (h : Fin 4), s.executes h.val = true → s.rd pgClk R.CLK_GATE_dbg = 1 →
      s.invasive (s.hart h.val).world (s.hart h.val).cocoon = true →
    ∃ t, exec (.haltRequest h) s = .next t ∧ (t.hart h.val).halted = true ∧ (t.hart h.val).pc = (s.hart h.val).pc) ∧
  (∀ (s : State) (h : Fin 4), s.executes h.val = true → s.rd pgClk R.CLK_GATE_dbg = 1 →
      s.invasive (s.hart h.val).world (s.hart h.val).cocoon = false →
    ∃ t, exec (.haltRequest h) s = .next t ∧ (t.hart h.val).halted = false ∧ (t.hart h.val).haltReq = true)

/-- R267 to R269: the mailbox. A slot moves from FREE to POSTED, TAKEN, DONE and back by the side that owns each action; a write that acts
on no slot is counted; TIMEOUT, PING and VERSION. -/
def Obligations.Mailbox : Prop :=
  (∀ (s : State) (r : Req) (d : Word) (k : Nat), Accepts s r pgMbx 0x020 → k < 16 → d.toNat.testBit k = true → s.mbxState k = 0 →
      posterIs (r == .chrysalis) k = true →
    ∃ t, exec (.mbxPost r d) s = .next t ∧ t.mbxState k = 1 ∧ (∀ j < 16, d.toNat.testBit j = false → t.mbxState j = s.mbxState j) ∧
      (12 ≤ k → (t.rd pgMbx R.INT_STAT).testBit k = true)) ∧
  (∀ (s : State) (r : Req) (d : Word) (k : Nat), Accepts s r pgMbx 0x024 → k < 16 → d.toNat.testBit k = true → s.mbxState k = 1 →
      posterIs (r == .chrysalis) k = false →
    ∃ t, exec (.mbxTake r d) s = .next t ∧ t.mbxState k = 2 ∧ (∀ j < 16, d.toNat.testBit j = false → t.mbxState j = s.mbxState j)) ∧
  (∀ (s : State) (r : Req) (d : Word) (k : Nat), Accepts s r pgMbx 0x028 → k < 16 → d.toNat.testBit k = true → s.mbxState k = 2 →
      posterIs (r == .chrysalis) k = false →
    ∃ t, exec (.mbxDone r d) s = .next t ∧ t.mbxState k = 3 ∧ (∀ j < 16, d.toNat.testBit j = false → t.mbxState j = s.mbxState j) ∧
      (k < 12 → (t.rd pgMbx R.INT_STAT).testBit k = true)) ∧
  (∀ (s : State) (r : Req) (d : Word) (k : Nat), Accepts s r pgMbx 0x02C → k < 16 → d.toNat.testBit k = true → s.mbxState k = 3 →
      posterIs (r == .chrysalis) k = true →
    ∃ t, exec (.mbxFree r d) s = .next t ∧ t.mbxState k = 0 ∧ (∀ j < 16, d.toNat.testBit j = false → t.mbxState j = s.mbxState j)) ∧
  (∀ (s : State) (r : Req) (d : Word) (k : Nat), Accepts s r pgMbx 0x030 → k < 16 → d.toNat.testBit k = true → s.mbxState k = 1 →
      posterIs (r == .chrysalis) k = true →
    ∃ t, exec (.mbxCancel r d) s = .next t ∧ t.mbxState k = 0 ∧ (∀ j < 16, d.toNat.testBit j = false → t.mbxState j = s.mbxState j)) ∧
  (∀ (s : State) (r : Req) (d : Word), Accepts s r pgMbx 0x030 → (∀ k < 16, d.toNat.testBit k = true → s.mbxState k = 2) →
    ∃ t, exec (.mbxCancel r d) s = .next t ∧ (∀ k < 16, t.mbxState k = s.mbxState k) ∧
      t.rd pgMbx R.MBX_ERR_count = min (s.rd pgMbx R.MBX_ERR_count + 1) (2 ^ 32 - 1)) ∧
  (∀ (s : State) (k : Fin 12), s.mbxState k.val = 2 → s.rd pgMbx R.MBX_CFG_tmo_ms ≠ 0 → s.domOn 2 = true →
    ∃ t, exec (.mbxTimeout k) s = .next t ∧ t.mbxState k.val = 3 ∧ t.rd pgMbx (mbxWord (16 * k.val + 1)) % 65536 = 6 ∧
      (t.rd pgMbx R.INT_STAT).testBit 16 = true ∧ (t.rd pgMbx R.INT_STAT).testBit k.val = true) ∧
  (∀ (s : State) (k : Fin 12), s.mbxServed k.val 1 = true → s.mbxLen k.val ≤ 56 →
    ∃ t, exec (.mbxPing k) s = .next t ∧ t.mbxState k.val = 3 ∧
      t.mbxBytes k.val = toBytes 2 1 ++ toBytes 2 (s.mbxLen k.val) ++ toBytes 2 0 ++ toBytes 2 (s.mbxTag k.val) ++ ((s.mbxBytes k.val).drop 8).take (s.mbxLen k.val) ++ List.replicate (56 - s.mbxLen k.val) 0) ∧
  (∀ (s : State) (k : Fin 12), s.mbxServed k.val 1 = true → 56 < s.mbxLen k.val →
    ∃ t, exec (.mbxPing k) s = .next t ∧ t.mbxState k.val = 3 ∧ t.rd pgMbx (mbxWord (16 * k.val + 1)) % 65536 = 2) ∧
  (∀ (s : State) (k : Fin 12), s.mbxServed k.val 2 = true →
    ∃ t, exec (.mbxVersion k) s = .next t ∧ t.mbxState k.val = 3 ∧ t.rd pgMbx (mbxWord (16 * k.val + 1)) % 65536 = 0 ∧
      t.rd pgMbx (mbxWord (16 * k.val + 2)) = (Config.chrVersion s.fwVer).toNat ∧
      t.rd pgMbx (mbxWord (16 * k.val + 3)) = Config.romVersion.toNat)
/-- R449, R451 to R454, R456, R457, R487: the event recorder. The oldest waiting record goes to the ring slot of its sequence, commit last; the
start-up scan continues the sequence of the ring with a START_UP record first; a code gains a token up to its burst; the read window shows
what a slot holds; and a software record of code 0xF0 to 0xFF is queued, suppressed or lost. -/
def Obligations.EventRecorder : Prop :=
  (∀ (s : State) (x : EvRec) (rest : List EvRec) (q : Nat), s.mem.wf = true → s.evr.scanning = false → s.domOn 0 = true →
      s.evr.pend = x :: rest → x.seq = some q →
    ∃ t, exec .evrRecordWrite s = .next t ∧ t.load (slotAddr q) 60 = x.bytes q ∧ ofBytes (t.load (slotAddr q + 60) 4) = 2 ^ 32 - 1 - q ∧
      (∀ a, a < slotAddr q ∨ slotAddr q + 64 ≤ a → t.mem.read a = s.mem.read a) ∧ t.evr.pend = rest ∧
      t.evr.lowest = some (s.evr.lowest.getD q) ∧ t.evr.next = s.evr.next ∧ (t.rd pgEvr R.INT_STAT).testBit 0 = true) ∧
  (∀ (s : State), s.evr.scanning = true ∨ s.domOn 0 = false ∨ s.evr.pend = [] → ∃ t, exec .evrRecordWrite s = .next t ∧ t = s.start) ∧
  (∀ (s : State), s.evr.scanning = true → s.domOn 0 = true →
    ∃ t, exec .evrScanDone s = .next t ∧ t.evr.scanning = false ∧ t.evr.aonDrop = 0 ∧ t.evr.lostPrev = 0 ∧
      t.evr.lowest = s.validSeqs.min? ∧ (t.evr.pend.head?.map EvRec.code) = some 1 ∧ t.evr.pend.length = s.evr.pend.length + 1 ∧
      (let n := (s.validSeqs.max?.map (fun m => (m + 1) % 2 ^ 32)).getD 0;
       t.evr.next = (n + s.evr.pend.length + 1) % 2 ^ 32 ∧
       ∀ i, i < t.evr.pend.length → (t.evr.pend.map EvRec.seq).getD i none = some ((n + i) % 2 ^ 32)) ∧ t.mem = s.mem) ∧
  (∀ (s : State), s.evr.scanning = false → ∃ t, exec .evrScanDone s = .next t ∧ t = s.start) ∧
  (∀ (s : State) (c : Fin 256), ∃ t, exec (.evrTokenRefill c) s = .next t ∧
      t.rd (iCode c.val) R.EVR_RL_STAT_tokens =
        min (s.rd (iCode c.val) R.EVR_RL_STAT_tokens + 1) (s.rd (iCode c.val) R.EVR_RL_CFG_burst) % 2 ^ R.EVR_RL_STAT_tokens.w ∧
      t.rd (iCode c.val) R.EVR_RL_STAT_suppressed = s.rd (iCode c.val) R.EVR_RL_STAT_suppressed) ∧
  (∀ (s : State) (r : Req) (d : Word), Accepts s r pgEvr 0x02C →
    ∃ t, exec (.evrReadWindow r d) s = .next t ∧ t.rd pgEvr R.EVR_RD_SEQ_seq = d.toNat ∧ t.evr = s.evr ∧ t.mem = s.mem ∧
      (s.evr.next ≤ d.toNat → t.rd pgEvr R.EVR_RD_STAT_result = 3) ∧
      (s.evr.pend.any (fun x => x.seq == some d.toNat) = true → t.rd pgEvr R.EVR_RD_STAT_result = 3) ∧
      (d.toNat < s.evr.next → s.evr.pend.any (fun x => x.seq == some d.toNat) = false → d.toNat < s.evrOldest →
        t.rd pgEvr R.EVR_RD_STAT_result = 2) ∧
      (d.toNat < s.evr.next → s.evr.pend.any (fun x => x.seq == some d.toNat) = false → s.evrOldest ≤ d.toNat →
        t.rd pgEvr R.EVR_RD_STAT_result = 0 ∧
        ∀ n, n < 16 → t.rd pgEvr (R.EVR_RD_DATA_data n) = ofBytes (s.load (slotAddr d.toNat + 4 * n) 4))) ∧
  (∀ (s : State) (r : Req) (d : Word), Accepts s r pgEvr 0x080 → 0xF0 ≤ d.toNat % 256 → s.domOn 0 = true →
      s.rd pgEvr (R.CTRL_enable pgEvr) = 1 → s.rd pgEvr R.STAT_reset_busy = 0 →
      s.rd (iCode (d.toNat % 256)) R.EVR_RL_STAT_tokens = 0 ∨ s.rd (iCode (d.toNat % 256)) R.EVR_RL_CFG_burst = 0 →
    ∃ t, exec (.evrSwRecord r d) s = .next t ∧ t.evr = s.evr ∧
      t.rd (iCode (d.toNat % 256)) R.EVR_RL_STAT_suppressed = min (s.rd (iCode (d.toNat % 256)) R.EVR_RL_STAT_suppressed + 1) (2 ^ R.EVR_RL_STAT_suppressed.w - 1) ∧
      (t.rd pgEvr R.INT_STAT).testBit 2 = true) ∧
  (∀ (s : State) (r : Req) (d : Word), Accepts s r pgEvr 0x080 → 0xF0 ≤ d.toNat % 256 → s.domOn 0 = true →
      s.rd pgEvr (R.CTRL_enable pgEvr) = 1 → s.rd pgEvr R.STAT_reset_busy = 0 →
      s.rd (iCode (d.toNat % 256)) R.EVR_RL_STAT_tokens ≠ 0 → s.rd (iCode (d.toNat % 256)) R.EVR_RL_CFG_burst ≠ 0 → 32 ≤ s.evr.pend.length →
    ∃ t, exec (.evrSwRecord r d) s = .next t ∧ t.evr.pend = s.evr.pend ∧ t.evr.lostFlag = true ∧
      t.rd pgEvr R.EVR_LOST_count = min (s.rd pgEvr R.EVR_LOST_count + 1) (2 ^ 32 - 1) ∧ (t.rd pgEvr R.INT_STAT).testBit 1 = true) ∧
  (∀ (s : State) (r : Req) (d : Word), Accepts s r pgEvr 0x080 → 0xF0 ≤ d.toNat % 256 → s.domOn 0 = true →
      s.rd pgEvr (R.CTRL_enable pgEvr) = 1 → s.rd pgEvr R.STAT_reset_busy = 0 →
      s.rd (iCode (d.toNat % 256)) R.EVR_RL_STAT_tokens ≠ 0 → s.rd (iCode (d.toNat % 256)) R.EVR_RL_CFG_burst ≠ 0 → s.evr.pend.length < 32 → s.evr.scanning = false →
    ∃ t, exec (.evrSwRecord r d) s = .next t ∧ t.evr.next = (s.evr.next + 1) % 2 ^ 32 ∧ t.rd (iCode (d.toNat % 256)) R.EVR_RL_STAT_suppressed = 0 ∧
      ∃ x, t.evr.pend = s.evr.pend ++ [x] ∧ x.seq = some s.evr.next ∧ x.code = d.toNat % 256 ∧ x.source = pgEvr ∧
        x.index = s.rd (iReq (reqId r)) R.EVR_SW_INDEX_index ∧ x.supp = s.rd (iCode (d.toNat % 256)) R.EVR_RL_STAT_suppressed ∧
        x.data = (List.range 7).map (fun n => s.rd (iReq (reqId r)) (R.EVR_SW_DATA_data n)) ∧
        x.pwrcyc = s.rd pgRst R.RST_PWRCYC_count) ∧
  (∀ (s : State) (r : Req) (d : Word), Accepts s r pgEvr 0x080 → d.toNat % 256 < 0xF0 →
    ∃ t, exec (.evrSwRecord r d) s = .next t ∧ t.evr = s.evr ∧ (t.rd pgEvr R.INT_STAT).testBit 3 = true)
end

