-- ==== Sys2Proof/Laws/Keeps.lean ====
section
/-! SUPPORT. The relation `Keeps`: reflexive, closed under updates of listed parts and under folds; and the canonical form of a
byte memory under writes and erasures. -/
set_option linter.all false
set_option Elab.async false
namespace Sys2Proof.Machine

theorem Keeps.refl (W : List Part) (R : Nat → Bool) (s : State) : Keeps W R s s :=
  ⟨rfl, id, fun _ _ _ => rfl, fun p _ => by cases p <;> rfl⟩

theorem Part.same_trans {p : Part} {r s t : State} (h : p.same r s) (k : p.same s t) : p.same r t := by
  cases p <;> exact k.trans h

theorem Keeps.trans {W : List Part} {R : Nat → Bool} {r s t : State} (h : Keeps W R r s) (k : Keeps W R s t) : Keeps W R r t :=
  ⟨k.pending.trans h.pending, k.canon ∘ h.canon, fun a ha d => (k.regs a ha d).trans (h.regs a ha d), fun p hp => Part.same_trans (h.same p hp) (k.same p hp)⟩

theorem Keeps.mono {W V : List Part} {R : Nat → Bool} {s t : State} (h : Keeps W R s t) (k : ∀ p ∈ W, p ∈ V) : Keeps V R s t :=
  ⟨h.pending, h.canon, h.regs, fun p hp => h.same p (fun q => hp (k p q))⟩

theorem Keeps.upd {W : List Part} {R : Nat → Bool} {r s t : State} (h : Keeps W R r s) (hp : t.pending = s.pending)
    (hc : s.Canonical → t.Canonical) (hr : ∀ k, R (k / 131072) = false → ∀ d, t.fields.get d k = s.fields.get d k)
    (hs : ∀ p, p ∉ W → p.same s t) : Keeps W R r t :=
  h.trans ⟨hp, hc, hr, hs⟩

theorem keeps_next {W : List Part} {R : Nat → Bool} {s t : State} (h : Keeps W R s t) : Res.Keeps W R s (.next t) := h

theorem keeps_ite {W : List Part} {R : Nat → Bool} {r s t : State} {c : Prop} [Decidable c] (h : Keeps W R r s) (k : Keeps W R r t) :
    Keeps W R r (if c then s else t) := by split <;> assumption

theorem keeps_ite1 {α : Type} {W : List Part} {R : Nat → Bool} {r : State} {p q : State × α} {c : Prop} [Decidable c] (h : Keeps W R r p.1)
    (k : Keeps W R r q.1) : Keeps W R r (if c then p else q).1 := by split <;> assumption

theorem keeps_foldl {α : Type} {W : List Part} {R : Nat → Bool} {r s : State} {f : State → α → State} {l : List α} (h : Keeps W R r s)
    (hf : ∀ t x, Keeps W R r t → Keeps W R r (f t x)) : Keeps W R r (l.foldl f s) := by
  induction l generalizing s with
  | nil => exact h
  | cons a l ih => exact ih (hf s a h)

theorem keeps_foldl1 {α β : Type} {W : List Part} {R : Nat → Bool} {r : State} {p : State × β} {f : State × β → α → State × β} {l : List α}
    (h : Keeps W R r p.1) (hf : ∀ q x, Keeps W R r q.1 → Keeps W R r (f q x).1) : Keeps W R r (l.foldl f p).1 := by
  induction l generalizing p with
  | nil => exact h
  | cons a l ih => exact ih (hf p a h)

/-- `Keeps` of a state that is written out field by field (it keeps `apply` from reading any state as such). -/
def KeepsMk (W : List Part) (R : Nat → Bool) (r : State)
    (pending : List Instr) (fields : SMap Nat) (mem : Mem) (words : SMap Nat) (snap : SMap Nat) (half : SMap Nat) (rsp
    : Rsp) (out : List Out) (free : Nat) (stamps : Nat) (evr : Evr) (k : Nat) (len : Nat) (vcore : SMap Vcore) (harts
    : SMap Hart) (saved : SMap Ctx) (banks : SMap Bank) (chans : SMap Chan) (w : Nat) (tally : Nat) (led : Nat)
    (missAt : Option Nat) (ldgCmd : Option Due) (gateRel : SMap Due) (ports : SMap (List Item)) (grdIn : List GrdMsg)
    (logAcc : SMap LogAcc) (logSeq : SMap Nat) (logCfg : Bool) (tags : SMap Tag) (roles : SMap Nat) (plk : Plk)
    (mirror : SMap (List Byte)) (chMap : SMap Nat) (grd : SMap GrdCh) (keys : SMap Slot) (job : Option Job) (bbRoot :
    Nat) (bbMark : Nat) (bbCheck : Bool) (bb : Mem) (lenNew : Option Nat) (lenOld : Option (Nat × Nat)) (offers : SMap
    Nat) (drain : Option Nat) (moves : List Move) (chr : Nat) (chrPc : Nat) (boot : Boot) (svc : Svc) (running :
    Option Nat) (queues : SMap Queue) (pool : Pool) (portQ : SMap Nat) (pairs : SMap QPair) (pcie : Pcie) (noDma :
    List Nat) (sesOpen : List Nat) (windows : SMap Mem) (esw : Esw) (cans : SMap Can) (sleep : Nat) (up : Bool) (warm
    : Bool) (wdt : Bool) (net : Net) (fta : Option Nat) (ftaFails : Nat) (cert : Option (List Byte)) (fld : Field) : Prop :=
  Keeps W R r (State.mk
    pending fields mem words snap half rsp out free stamps evr k len vcore harts saved banks chans w tally led missAt
    ldgCmd gateRel ports grdIn logAcc logSeq logCfg tags roles plk mirror chMap grd keys job bbRoot bbMark bbCheck bb
    lenNew lenOld offers drain moves chr chrPc boot svc running queues pool portQ pairs pcie noDma sesOpen windows esw
    cans sleep up warm wdt net fta ftaFails cert fld)

theorem keeps_mk_eq {W : List Part} {R : Nat → Bool} {r : State}
    {pending : List Instr} {fields : SMap Nat} {mem : Mem} {words : SMap Nat} {snap : SMap Nat} {half : SMap Nat} {rsp
    : Rsp} {out : List Out} {free : Nat} {stamps : Nat} {evr : Evr} {k : Nat} {len : Nat} {vcore : SMap Vcore} {harts
    : SMap Hart} {saved : SMap Ctx} {banks : SMap Bank} {chans : SMap Chan} {w : Nat} {tally : Nat} {led : Nat}
    {missAt : Option Nat} {ldgCmd : Option Due} {gateRel : SMap Due} {ports : SMap (List Item)} {grdIn : List GrdMsg}
    {logAcc : SMap LogAcc} {logSeq : SMap Nat} {logCfg : Bool} {tags : SMap Tag} {roles : SMap Nat} {plk : Plk}
    {mirror : SMap (List Byte)} {chMap : SMap Nat} {grd : SMap GrdCh} {keys : SMap Slot} {job : Option Job} {bbRoot :
    Nat} {bbMark : Nat} {bbCheck : Bool} {bb : Mem} {lenNew : Option Nat} {lenOld : Option (Nat × Nat)} {offers : SMap
    Nat} {drain : Option Nat} {moves : List Move} {chr : Nat} {chrPc : Nat} {boot : Boot} {svc : Svc} {running :
    Option Nat} {queues : SMap Queue} {pool : Pool} {portQ : SMap Nat} {pairs : SMap QPair} {pcie : Pcie} {noDma :
    List Nat} {sesOpen : List Nat} {windows : SMap Mem} {esw : Esw} {cans : SMap Can} {sleep : Nat} {up : Bool} {warm
    : Bool} {wdt : Bool} {net : Net} {fta : Option Nat} {ftaFails : Nat} {cert : Option (List Byte)} {fld : Field} :
    Keeps W R r (State.mk
      pending fields mem words snap half rsp out free stamps evr k len vcore harts saved banks chans w tally led
      missAt ldgCmd gateRel ports grdIn logAcc logSeq logCfg tags roles plk mirror chMap grd keys job bbRoot bbMark
      bbCheck bb lenNew lenOld offers drain moves chr chrPc boot svc running queues pool portQ pairs pcie noDma
      sesOpen windows esw cans sleep up warm wdt net fta ftaFails cert fld) =
    KeepsMk W R r
      pending fields mem words snap half rsp out free stamps evr k len vcore harts saved banks chans w tally led
      missAt ldgCmd gateRel ports grdIn logAcc logSeq logCfg tags roles plk mirror chMap grd keys job bbRoot bbMark
      bbCheck bb lenNew lenOld offers drain moves chr chrPc boot svc running queues pool portQ pairs pcie noDma
      sesOpen windows esw cans sleep up warm wdt net fta ftaFails cert fld := rfl

/-- An update of a state keeps what its parts keep. -/
theorem keeps_mk {W : List Part} {R : Nat → Bool} {r s : State}
     {fields : SMap Nat} {mem : Mem} {words : SMap Nat} {snap : SMap Nat} {half : SMap Nat} {rsp : Rsp} {out : List Out}
    {free : Nat} {stamps : Nat} {evr : Evr} {k : Nat} {len : Nat} {vcore : SMap Vcore} {harts : SMap Hart} {saved : SMap
    Ctx} {banks : SMap Bank} {chans : SMap Chan} {w : Nat} {tally : Nat} {led : Nat} {missAt : Option Nat} {ldgCmd :
    Option Due} {gateRel : SMap Due} {ports : SMap (List Item)} {grdIn : List GrdMsg} {logAcc : SMap LogAcc} {logSeq :
    SMap Nat} {logCfg : Bool} {tags : SMap Tag} {roles : SMap Nat} {plk : Plk} {mirror : SMap (List Byte)} {chMap : SMap
    Nat} {grd : SMap GrdCh} {keys : SMap Slot} {job : Option Job} {bbRoot : Nat} {bbMark : Nat} {bbCheck : Bool} {bb :
    Mem} {lenNew : Option Nat} {lenOld : Option (Nat × Nat)} {offers : SMap Nat} {drain : Option Nat} {moves : List Move}
    {chr : Nat} {chrPc : Nat} {boot : Boot} {svc : Svc} {running : Option Nat} {queues : SMap Queue} {pool : Pool} {portQ
    : SMap Nat} {pairs : SMap QPair} {pcie : Pcie} {noDma : List Nat} {sesOpen : List Nat} {windows : SMap Mem} {esw :
    Esw} {cans : SMap Can} {sleep : Nat} {up : Bool} {warm : Bool} {wdt : Bool} {net : Net} {fta : Option Nat} {ftaFails :
    Nat} {cert : Option (List Byte)} {fld : Field}
    (h : Keeps W R r s) (cf : s.fields.wf = true → SMap.wf fields = true) (cm : s.mem.wf = true → Mem.wf mem = true) (cb : s.bb.wf = true → Mem.wf bb = true)
    (cw : (∀ e ∈ s.windows, e.2.wf = true) → ∀ e ∈ windows, Mem.wf e.2 = true)
    (h_regs : fields = s.fields ∨ ∀ n, R n = true)
    (h_mem : mem = s.mem ∨ Part.mem ∈ W)
    (h_store : (words, half) = (s.words, s.half) ∨ Part.store ∈ W)
    (h_snaps : snap = s.snap ∨ Part.snaps ∈ W)
    (h_recorder : (evr, stamps) = (s.evr, s.stamps) ∨ Part.recorder ∈ W)
    (h_time : (k, len, lenNew, lenOld) = (s.k, s.len, s.lenNew, s.lenOld) ∨ Part.time ∈ W)
    (h_vcore : vcore = s.vcore ∨ Part.vcore ∈ W)
    (h_harts : (harts, saved) = (s.harts, s.saved) ∨ Part.harts ∈ W)
    (h_banks : banks = s.banks ∨ Part.banks ∈ W)
    (h_chans : chans = s.chans ∨ Part.chans ∈ W)
    (h_bus : (w, tally, led, missAt, ldgCmd, gateRel) = (s.w, s.tally, s.led, s.missAt, s.ldgCmd, s.gateRel) ∨ Part.bus ∈ W)
    (h_ports : ports = s.ports ∨ Part.ports ∈ W)
    (h_grading : (grd, grdIn) = (s.grd, s.grdIn) ∨ Part.grading ∈ W)
    (h_logs : (logAcc, logSeq, logCfg) = (s.logAcc, s.logSeq, s.logCfg) ∨ Part.logs ∈ W)
    (h_bridge : tags = s.tags ∨ Part.bridge ∈ W)
    (h_pair : (roles, plk, mirror) = (s.roles, s.plk, s.mirror) ∨ Part.pair ∈ W)
        (h_host : (chMap, moves, pairs, pcie, noDma, sesOpen, windows) = (s.chMap, s.moves, s.pairs, s.pcie, s.noDma,
      s.sesOpen, s.windows) ∨ Part.host ∈ W)
    (h_keys : (keys, job) = (s.keys, s.job) ∨ Part.keys ∈ W)
    (h_root : (bbRoot, bbMark, bbCheck, cert) = (s.bbRoot, s.bbMark, s.bbCheck, s.cert) ∨ Part.root ∈ W)
    (h_battery : bb = s.bb ∨ Part.battery ∈ W)
    (h_pages : (offers, drain) = (s.offers, s.drain) ∨ Part.pages ∈ W)
    (h_boot : (chr, chrPc, boot, svc, running) = (s.chr, s.chrPc, s.boot, s.svc, s.running) ∨ Part.boot ∈ W)
    (h_queues : (queues, pool, portQ) = (s.queues, s.pool, s.portQ) ∨ Part.queues ∈ W)
    (h_switch : esw = s.esw ∨ Part.switch ∈ W)
    (h_can : cans = s.cans ∨ Part.can ∈ W)
    (h_power : (sleep, up, warm, wdt, net) = (s.sleep, s.up, s.warm, s.wdt, s.net) ∨ Part.power ∈ W)
    (h_fta : (fta, ftaFails) = (s.fta, s.ftaFails) ∨ Part.fta ∈ W)
    (h_field : fld = s.fld ∨ Part.field ∈ W) :
        KeepsMk W R r s.pending fields mem words snap half rsp out free stamps evr k len vcore harts saved banks
      chans w tally led missAt ldgCmd gateRel ports grdIn logAcc logSeq logCfg tags roles plk mirror chMap grd keys
      job bbRoot bbMark bbCheck bb lenNew lenOld offers drain moves chr chrPc boot svc running queues pool portQ pairs
      pcie noDma sesOpen windows esw cans sleep up warm wdt net fta ftaFails cert fld :=
  h.upd rfl (fun k => ⟨cf k.fields, cm k.mem, cb k.bb, cw k.windows⟩)
    (fun k hk d => by
      rcases h_regs with e | e
      · exact congrArg (fun m => SMap.get d m k) e
      · simp [e] at hk)
    (fun p hp => by
    cases p
    · exact h_mem.resolve_right hp
    · exact h_store.resolve_right hp
    · exact h_snaps.resolve_right hp
    · exact h_recorder.resolve_right hp
    · exact h_time.resolve_right hp
    · exact h_vcore.resolve_right hp
    · exact h_harts.resolve_right hp
    · exact h_banks.resolve_right hp
    · exact h_chans.resolve_right hp
    · exact h_bus.resolve_right hp
    · exact h_ports.resolve_right hp
    · exact h_grading.resolve_right hp
    · exact h_logs.resolve_right hp
    · exact h_bridge.resolve_right hp
    · exact h_pair.resolve_right hp
    · exact h_host.resolve_right hp
    · exact h_keys.resolve_right hp
    · exact h_root.resolve_right hp
    · exact h_battery.resolve_right hp
    · exact h_pages.resolve_right hp
    · exact h_boot.resolve_right hp
    · exact h_queues.resolve_right hp
    · exact h_switch.resolve_right hp
    · exact h_can.resolve_right hp
    · exact h_power.resolve_right hp
    · exact h_fta.resolve_right hp
    · exact h_field.resolve_right hp)

/-! ### The canonical form of a map -/

theorem SMap.wfAbove_mono {α : Type} {lo hi : Nat} {m : SMap α} (h : m.wfAbove hi = true) (k : lo ≤ hi) : m.wfAbove lo = true := by
  cases m with
  | nil => rfl
  | cons c m =>
    simp only [SMap.wfAbove, Bool.and_eq_true, decide_eq_true_eq] at h ⊢
    exact ⟨by omega, h.2⟩

theorem SMap.wfAbove_set {α : Type} {lo : Nat} {m : SMap α} {a : Nat} {v : α} (h : m.wfAbove lo = true) (k : lo ≤ a) :
    (m.set a v).wfAbove lo = true := by
  induction m generalizing lo with
  | nil => simp [SMap.set, SMap.wfAbove, k]
  | cons c m ih =>
    obtain ⟨b, w⟩ := c
    simp only [SMap.wfAbove, Bool.and_eq_true, decide_eq_true_eq] at h
    simp only [SMap.set]
    split
    · subst_vars
      simp only [SMap.wfAbove, Bool.and_eq_true, decide_eq_true_eq]
      exact h
    · split
      · simp only [SMap.wfAbove, Bool.and_eq_true, decide_eq_true_eq]
        exact ⟨k, by omega, h.2⟩
      · simp only [SMap.wfAbove, Bool.and_eq_true, decide_eq_true_eq]
        exact ⟨h.1, ih h.2 (by omega)⟩

/-- Setting a key keeps the canonical form. -/
theorem SMap.wf_set {α : Type} {m : SMap α} {a : Nat} {v : α} (h : m.wf = true) : SMap.wf (m.set a v) = true :=
  SMap.wfAbove_set h (Nat.zero_le a)

/-- Setting computed keys keeps the canonical form. -/
theorem SMap.wf_foldl {α β : Type} {l : List β} {g : β → Nat} {b : β → α} {m : SMap α} (h : m.wf = true) :
    SMap.wf (l.foldl (fun m e => m.set (g e) (b e)) m) = true := by
  induction l generalizing m with
  | nil => exact h
  | cons a l ih => exact ih (SMap.wf_set h)

theorem SMap.wfAbove_drop {α : Type} {lo : Nat} {m : SMap α} {p : Nat → Bool} (h : m.wfAbove lo = true) :
    (m.drop p).wfAbove lo = true := by
  induction m generalizing lo with
  | nil => rfl
  | cons c m ih =>
    obtain ⟨a, v⟩ := c
    simp only [SMap.wfAbove, Bool.and_eq_true, decide_eq_true_eq] at h
    simp only [SMap.drop]
    split
    · exact SMap.wfAbove_mono (ih h.2) (by omega)
    · simp only [SMap.wfAbove, Bool.and_eq_true, decide_eq_true_eq]
      exact ⟨h.1, ih h.2⟩

/-- Removing keys keeps the canonical form. -/
theorem SMap.wf_drop {α : Type} {m : SMap α} {p : Nat → Bool} (h : m.wf = true) : SMap.wf (m.drop p) = true := SMap.wfAbove_drop h

/-! ### The canonical form of a byte memory -/

theorem Mem.wfAbove_mono {lo hi : Nat} {m : Mem} (h : m.wfAbove hi = true) (k : lo ≤ hi) : m.wfAbove lo = true := by
  cases m with
  | nil => rfl
  | cons c m =>
    simp only [Mem.wfAbove, Bool.and_eq_true, decide_eq_true_eq] at h ⊢
    exact ⟨⟨by omega, h.1.2⟩, h.2⟩

theorem Mem.wfAbove_write {lo : Nat} {m : Mem} {a : Nat} {v : Byte} (h : m.wfAbove lo = true) (k : lo ≤ a) :
    (m.write a v).wfAbove lo = true := by
  induction m generalizing lo with
  | nil =>
    simp only [Mem.write]
    split
    · rfl
    · simp_all [Mem.wfAbove]
  | cons c m ih =>
    obtain ⟨b, w⟩ := c
    simp only [Mem.wfAbove, Bool.and_eq_true, decide_eq_true_eq] at h
    simp only [Mem.write]
    split
    · subst_vars
      split
      · exact Mem.wfAbove_mono h.2 (by omega)
      · simp_all [Mem.wfAbove]
    · split
      · split
        · simp_all [Mem.wfAbove]
        · simp only [Mem.wfAbove, Bool.and_eq_true, decide_eq_true_eq]
          exact ⟨⟨k, by assumption⟩, ⟨by omega, h.1.2⟩, h.2⟩
      · simp only [Mem.wfAbove, Bool.and_eq_true, decide_eq_true_eq]
        exact ⟨h.1, ih h.2 (by omega)⟩

/-- A write keeps the canonical form. -/
theorem Mem.wf_write {m : Mem} {a : Nat} {v : Byte} (h : m.wf = true) : (m.write a v).wf = true :=
  Mem.wfAbove_write h (Nat.zero_le a)

/-- A write of several bytes keeps the canonical form. -/
theorem Mem.wf_writeBytes {m : Mem} {a : Nat} {bs : List Byte} (h : m.wf = true) : (m.writeBytes a bs).wf = true := by
  induction bs generalizing m a with
  | nil => exact h
  | cons b bs ih => exact ih (Mem.wf_write h)

theorem Mem.wfAbove_erase {lo : Nat} {m : Mem} {p : Nat → Bool} (h : m.wfAbove lo = true) :
    (m.erase p).wfAbove lo = true := by
  induction m generalizing lo with
  | nil => rfl
  | cons c m ih =>
    obtain ⟨a, v⟩ := c
    simp only [Mem.wfAbove, Bool.and_eq_true, decide_eq_true_eq] at h
    simp only [Mem.erase]
    split
    · exact Mem.wfAbove_mono (ih h.2) (by omega)
    · simp only [Mem.wfAbove, Bool.and_eq_true, decide_eq_true_eq]
      exact ⟨h.1, ih h.2⟩

/-- An erasure keeps the canonical form. -/
theorem Mem.wf_erase {m : Mem} {p : Nat → Bool} (h : m.wf = true) : (m.erase p).wf = true := Mem.wfAbove_erase h

/-- A byte reads back as it was written. -/
theorem Mem.read_write_same {m : Mem} {a : Nat} {v : Byte} (h : m.wf = true) : (m.write a v).read a = v := by
  suffices ∀ lo, m.wfAbove lo = true → (m.write a v).read a = v from this 0 h
  clear h
  intro lo hl
  induction m generalizing lo with
  | nil =>
    simp only [Mem.write]
    split <;> simp_all [Mem.read]
  | cons c m ih =>
    obtain ⟨b, w⟩ := c
    simp only [Mem.wfAbove, Bool.and_eq_true, decide_eq_true_eq] at hl
    have key : ∀ n : Mem, ∀ k, a < k → n.wfAbove k = true → n.read a = memDefault := by
      intro n
      induction n with
      | nil => intros; rfl
      | cons d n ihn =>
        obtain ⟨e, x⟩ := d
        intro k hk hn
        simp only [Mem.wfAbove, Bool.and_eq_true, decide_eq_true_eq] at hn
        rw [Mem.read, if_neg (by omega)]
        exact ihn (e + 1) (by omega) hn.2
    simp only [Mem.write]
    split
    · subst_vars
      split
      · rw [key m (b + 1) (by omega) hl.2]; simp_all
      · simp [Mem.read]
    · split
      · split
        · rw [Mem.read, if_neg (by omega), key m (b + 1) (by omega) hl.2]; simp_all
        · simp [Mem.read]
      · rw [Mem.read, if_neg (by omega)]
        exact ih (b + 1) hl.2

/-- A write leaves every other byte as it was. -/
theorem Mem.read_write_other {m : Mem} {a b : Nat} {v : Byte} (h : a ≠ b) : (m.write a v).read b = m.read b := by
  induction m with
  | nil =>
    simp only [Mem.write]
    split <;> simp [Mem.read, h]
  | cons c m ih =>
    obtain ⟨d, w⟩ := c
    simp only [Mem.write]
    split
    · subst_vars
      split <;> simp [Mem.read, h]
    · split
      · split <;> simp [Mem.read, h]
      · simp [Mem.read, ih]

/-- Writes at computed places keep the canonical form. -/
theorem Mem.wf_foldl {α : Type} {l : List α} {g : α → Nat} {b : α → List Byte} {m : Mem} (h : m.wf = true) :
    Mem.wf (l.foldl (fun w i => w.writeBytes (g i) (b i)) m) = true := by
  induction l generalizing m with
  | nil => exact h
  | cons a l ih => exact ih (Mem.wf_writeBytes h)

/-! ### The transfer windows -/

theorem windows_set {m : SMap Mem} {f : Nat} {n : Mem} (h : ∀ e ∈ m, e.2.wf = true) (k : n.wf = true) :
    ∀ e ∈ m.set f n, e.2.wf = true := by
  induction m with
  | nil => simp [SMap.set, k]
  | cons c m ih =>
    simp only [SMap.set]
    simp only [List.mem_cons, forall_eq_or_imp] at h
    split
    · simp only [List.mem_cons, forall_eq_or_imp]
      exact ⟨k, h.2⟩
    · split
      · simp only [List.mem_cons, forall_eq_or_imp]
        exact ⟨k, h⟩
      · simp only [List.mem_cons, forall_eq_or_imp]
        exact ⟨h.1, ih h.2⟩

theorem windows_get {m : SMap Mem} {f : Nat} (h : ∀ e ∈ m, e.2.wf = true) : Mem.wf (m.get [] f) = true := by
  induction m with
  | nil => rfl
  | cons c m ih =>
    simp only [SMap.get]
    simp only [List.mem_cons, forall_eq_or_imp] at h
    split
    · exact h.1
    · exact ih h.2

/-! ### Registers of other instances -/

theorem SMap.get_set_other {α : Type} {m : SMap α} {a k : Nat} {v d : α} (h : a ≠ k) : (m.set a v).get d k = m.get d k := by
  induction m with
  | nil => simp [SMap.set, SMap.get, h]
  | cons c m ih =>
    obtain ⟨b, w⟩ := c
    simp only [SMap.set]
    split
    · subst_vars; simp [SMap.get, h]
    · split
      · simp [SMap.get, h]
      · simp [SMap.get, ih]

theorem SMap.get_drop_other {α : Type} {m : SMap α} {p : Nat → Bool} {k : Nat} {d : α} (h : p k = false) : (m.drop p).get d k = m.get d k := by
  induction m with
  | nil => rfl
  | cons c m ih =>
    obtain ⟨b, w⟩ := c
    simp only [SMap.drop]
    split
    · rw [ih, SMap.get, if_neg (by rintro rfl; simp_all)]
    · simp [SMap.get, ih]

theorem SMap.get_foldl_other {α β : Type} {l : List β} {g : β → Nat} {b : β → α} {m : SMap α} {k : Nat} {d : α} (h : ∀ e ∈ l, g e ≠ k) :
    (l.foldl (fun m e => m.set (g e) (b e)) m).get d k = m.get d k := by
  induction l generalizing m with
  | nil => rfl
  | cons a l ih => rw [List.foldl_cons, ih (fun e he => h e (by simp [he])), SMap.get_set_other (h a (by simp))]

/-- A field lies among the keys of its instance. -/
theorem Fld.key_div (f : Fld) (i : Nat) : f.key i / 131072 = i := by
  unfold Fld.key; omega

theorem keeps_fields {W : List Part} {R : Nat → Bool} {r s : State} {m : SMap Nat} (h : Keeps W R r s)
    (c : s.fields.wf = true → m.wf = true) (k : ∀ k, R (k / 131072) = false → ∀ d, m.get d k = s.fields.get d k) :
    Keeps W R r { s with fields := m } :=
  h.upd rfl (fun q => ⟨c q.fields, q.mem, q.bb, q.windows⟩) k (fun p _ => by cases p <;> rfl)

theorem State.wr_keeps {W : List Part} {R : Nat → Bool} {s0 s : State} {i : Nat} {f : Fld} {v : Nat} (wi : R i = true)
    (hK : Keeps W R s0 s) : Keeps W R s0 (State.wr s i f v) :=
  keeps_fields hK SMap.wf_set (fun k hk d => SMap.get_set_other (by rintro rfl; rw [Fld.key_div] at hk; simp_all))

theorem State.resetInst_keeps {W : List Part} {R : Nat → Bool} {s0 s : State} {i : Nat} {keep : Nat → Nat → Bool} (wi : R i = true)
    (hK : Keeps W R s0 s) : Keeps W R s0 (State.resetInst s i keep) :=
  keeps_fields hK SMap.wf_drop (fun k hk d => SMap.get_drop_other (by
    simp only [Bool.and_eq_false_imp, beq_iff_eq]
    rintro rfl
    simp_all))

theorem State.resetInsts_keeps {W : List Part} {R : Nat → Bool} {s0 s : State} {p : Nat → Bool} (wp : ∀ n, p n = true → R n = true)
    (hK : Keeps W R s0 s) : Keeps W R s0 (State.resetInsts s p) :=
  keeps_fields hK SMap.wf_drop (fun k hk d => SMap.get_drop_other (by
    cases e : p (k / 131072)
    · rfl
    · rw [wp _ e] at hk; cases hk))

theorem State.resetInsts_one {W : List Part} {R : Nat → Bool} {s0 s : State} {i : Nat} (wi : R i = true)
    (hK : Keeps W R s0 s) : Keeps W R s0 (State.resetInsts s (· == i)) :=
  State.resetInsts_keeps (fun n h => by rw [beq_iff_eq.mp h]; exact wi) hK

theorem State.dropShadows_keeps {W : List Part} {R : Nat → Bool} {s0 s : State} {i : Nat} (wi : R (iShadow i) = true)
    (hK : Keeps W R s0 s) : Keeps W R s0 (State.dropShadows s i) := State.resetInsts_one wi hK

theorem State.copyInst_keeps {W : List Part} {R : Nat → Bool} {s0 s : State} {i j lo hi : Nat} (wj : R j = true)
    (hK : Keeps W R s0 s) : Keeps W R s0 (State.copyInst s i j lo hi) :=
  keeps_fields hK (fun c => SMap.wf_foldl (SMap.wf_drop c)) (fun k hk d => by
    rw [SMap.get_foldl_other, SMap.get_drop_other]
    · simp only [Bool.and_eq_false_imp, beq_iff_eq]
      rintro rfl
      simp_all
    · intro e _ q
      have : k / 131072 = j := by omega
      rw [this, wj] at hk
      cases hk)

theorem State.applyShadows_keeps {W : List Part} {R : Nat → Bool} {s0 s : State} {i : Nat} (wi : R i = true) (ws : R (iShadow i) = true)
    (hK : Keeps W R s0 s) : Keeps W R s0 (State.applyShadows s i) :=
  keeps_fields (State.dropShadows_keeps ws hK) SMap.wf_foldl (fun k hk d => SMap.get_foldl_other (by
    intro e he q
    simp only [State.shadows, List.mem_map] at he
    obtain ⟨a, _, rfl⟩ := he
    have : k / 131072 = i := by omega
    rw [this, wi] at hk
    cases hk))

end Sys2Proof.Machine
end

