-- ==== Sys2Proof/Laws/KeepsOps.lean ====
section
/-! SUPPORT. What each function and command of Machine/Ops.lean keeps. -/
set_option linter.all false
set_option Elab.async false
namespace Sys2Proof.Machine

theorem State.wrB_keeps {W : List Part} {Q : Nat → Bool} {s0 : State} {s : State} {i : Nat} {f : Fld} {b : Bool}
    (wi : Q i = true)
    (hK : Keeps W Q s0 s) : Keeps W Q s0 (State.wrB s i f b) := by
  unfold State.wrB
  repeat' (first
    | with_reducible assumption
    | with_reducible exact id
    | with_reducible exact fun k => Mem.wf_writeBytes k
    | with_reducible exact fun k => Mem.wf_erase k
    | with_reducible exact fun k => SMap.wf_set k
    | with_reducible exact fun k => SMap.wf_drop k
    | with_reducible exact fun k => SMap.wf_foldl k
    | with_reducible exact fun k => SMap.wf_foldl (SMap.wf_drop k)
    | with_reducible exact fun _ _ k => absurd k List.not_mem_nil
    | intro _
    | with_reducible apply State.wr_keeps
    | with_reducible apply keeps_next
    | with_reducible apply keeps_foldl
    | with_reducible apply keeps_foldl1
    | with_reducible exact Or.inr (by assumption)
    | with_reducible exact Or.inl rfl
    | dsimp only
    | (simp only [keeps_mk_eq]; with_reducible apply keeps_mk)
    | with_reducible apply keeps_ite
    | with_reducible apply keeps_ite1
    | split)

theorem State.wrS_keeps {W : List Part} {Q : Nat → Bool} {s0 : State} {s : State} {i : Nat} {f : Fld} {v : Int}
    (wi : Q i = true)
    (hK : Keeps W Q s0 s) : Keeps W Q s0 (State.wrS s i f v) := by
  unfold State.wrS
  repeat' (first
    | with_reducible assumption
    | with_reducible exact id
    | with_reducible exact fun k => Mem.wf_writeBytes k
    | with_reducible exact fun k => Mem.wf_erase k
    | with_reducible exact fun k => SMap.wf_set k
    | with_reducible exact fun k => SMap.wf_drop k
    | with_reducible exact fun k => SMap.wf_foldl k
    | with_reducible exact fun k => SMap.wf_foldl (SMap.wf_drop k)
    | with_reducible exact fun _ _ k => absurd k List.not_mem_nil
    | intro _
    | with_reducible apply State.wr_keeps
    | with_reducible apply keeps_next
    | with_reducible apply keeps_foldl
    | with_reducible apply keeps_foldl1
    | with_reducible exact Or.inr (by assumption)
    | with_reducible exact Or.inl rfl
    | dsimp only
    | (simp only [keeps_mk_eq]; with_reducible apply keeps_mk)
    | with_reducible apply keeps_ite
    | with_reducible apply keeps_ite1
    | split)

theorem State.bump_keeps {W : List Part} {Q : Nat → Bool} {s0 : State} {s : State} {i : Nat} {f : Fld} {n : Nat}
    (wi : Q i = true)
    (hK : Keeps W Q s0 s) : Keeps W Q s0 (State.bump s i f n) := by
  unfold State.bump
  repeat' (first
    | with_reducible assumption
    | with_reducible exact id
    | with_reducible exact fun k => Mem.wf_writeBytes k
    | with_reducible exact fun k => Mem.wf_erase k
    | with_reducible exact fun k => SMap.wf_set k
    | with_reducible exact fun k => SMap.wf_drop k
    | with_reducible exact fun k => SMap.wf_foldl k
    | with_reducible exact fun k => SMap.wf_foldl (SMap.wf_drop k)
    | with_reducible exact fun _ _ k => absurd k List.not_mem_nil
    | intro _
    | with_reducible apply State.wr_keeps
    | with_reducible apply keeps_next
    | with_reducible apply keeps_foldl
    | with_reducible apply keeps_foldl1
    | with_reducible exact Or.inr (by assumption)
    | with_reducible exact Or.inl rfl
    | dsimp only
    | (simp only [keeps_mk_eq]; with_reducible apply keeps_mk)
    | with_reducible apply keeps_ite
    | with_reducible apply keeps_ite1
    | split)

theorem State.setBits_keeps {W : List Part} {Q : Nat → Bool} {s0 : State} {s : State} {i : Nat} {f : Fld} {m : Nat}
    (wi : Q i = true)
    (hK : Keeps W Q s0 s) : Keeps W Q s0 (State.setBits s i f m) := by
  unfold State.setBits
  repeat' (first
    | with_reducible assumption
    | with_reducible exact id
    | with_reducible exact fun k => Mem.wf_writeBytes k
    | with_reducible exact fun k => Mem.wf_erase k
    | with_reducible exact fun k => SMap.wf_set k
    | with_reducible exact fun k => SMap.wf_drop k
    | with_reducible exact fun k => SMap.wf_foldl k
    | with_reducible exact fun k => SMap.wf_foldl (SMap.wf_drop k)
    | with_reducible exact fun _ _ k => absurd k List.not_mem_nil
    | intro _
    | with_reducible apply State.wr_keeps
    | with_reducible apply keeps_next
    | with_reducible apply keeps_foldl
    | with_reducible apply keeps_foldl1
    | with_reducible exact Or.inr (by assumption)
    | with_reducible exact Or.inl rfl
    | dsimp only
    | (simp only [keeps_mk_eq]; with_reducible apply keeps_mk)
    | with_reducible apply keeps_ite
    | with_reducible apply keeps_ite1
    | split)

theorem State.clrBits_keeps {W : List Part} {Q : Nat → Bool} {s0 : State} {s : State} {i : Nat} {f : Fld} {m : Nat}
    (wi : Q i = true)
    (hK : Keeps W Q s0 s) : Keeps W Q s0 (State.clrBits s i f m) := by
  unfold State.clrBits
  repeat' (first
    | with_reducible assumption
    | with_reducible exact id
    | with_reducible exact fun k => Mem.wf_writeBytes k
    | with_reducible exact fun k => Mem.wf_erase k
    | with_reducible exact fun k => SMap.wf_set k
    | with_reducible exact fun k => SMap.wf_drop k
    | with_reducible exact fun k => SMap.wf_foldl k
    | with_reducible exact fun k => SMap.wf_foldl (SMap.wf_drop k)
    | with_reducible exact fun _ _ k => absurd k List.not_mem_nil
    | intro _
    | with_reducible apply State.wr_keeps
    | with_reducible apply keeps_next
    | with_reducible apply keeps_foldl
    | with_reducible apply keeps_foldl1
    | with_reducible exact Or.inr (by assumption)
    | with_reducible exact Or.inl rfl
    | dsimp only
    | (simp only [keeps_mk_eq]; with_reducible apply keeps_mk)
    | with_reducible apply keeps_ite
    | with_reducible apply keeps_ite1
    | split)

theorem State.wr2_keeps {W : List Part} {Q : Nat → Bool} {s0 : State} {s : State} {i : Nat} {f0 : Fld} {f1 : Fld} {v : Nat}
    (wi : Q i = true)
    (hK : Keeps W Q s0 s) : Keeps W Q s0 (State.wr2 s i f0 f1 v) := by
  unfold State.wr2
  repeat' (first
    | with_reducible assumption
    | with_reducible exact id
    | with_reducible exact fun k => Mem.wf_writeBytes k
    | with_reducible exact fun k => Mem.wf_erase k
    | with_reducible exact fun k => SMap.wf_set k
    | with_reducible exact fun k => SMap.wf_drop k
    | with_reducible exact fun k => SMap.wf_foldl k
    | with_reducible exact fun k => SMap.wf_foldl (SMap.wf_drop k)
    | with_reducible exact fun _ _ k => absurd k List.not_mem_nil
    | intro _
    | with_reducible apply State.wr_keeps
    | with_reducible apply keeps_next
    | with_reducible apply keeps_foldl
    | with_reducible apply keeps_foldl1
    | with_reducible exact Or.inr (by assumption)
    | with_reducible exact Or.inl rfl
    | dsimp only
    | (simp only [keeps_mk_eq]; with_reducible apply keeps_mk)
    | with_reducible apply keeps_ite
    | with_reducible apply keeps_ite1
    | split)

theorem State.wrShadow_keeps {W : List Part} {Q : Nat → Bool} {s0 : State} {s : State} {i : Nat} {f : Fld} {v : Nat}
    (wiShadow_i : Q (iShadow i) = true)
    (hK : Keeps W Q s0 s) : Keeps W Q s0 (State.wrShadow s i f v) := by
  unfold State.wrShadow
  repeat' (first
    | with_reducible assumption
    | with_reducible exact id
    | with_reducible exact fun k => Mem.wf_writeBytes k
    | with_reducible exact fun k => Mem.wf_erase k
    | with_reducible exact fun k => SMap.wf_set k
    | with_reducible exact fun k => SMap.wf_drop k
    | with_reducible exact fun k => SMap.wf_foldl k
    | with_reducible exact fun k => SMap.wf_foldl (SMap.wf_drop k)
    | with_reducible exact fun _ _ k => absurd k List.not_mem_nil
    | intro _
    | with_reducible apply State.wr_keeps
    | with_reducible apply keeps_next
    | with_reducible apply keeps_foldl
    | with_reducible apply keeps_foldl1
    | with_reducible exact Or.inr (by assumption)
    | with_reducible exact Or.inl rfl
    | dsimp only
    | (simp only [keeps_mk_eq]; with_reducible apply keeps_mk)
    | with_reducible apply keeps_ite
    | with_reducible apply keeps_ite1
    | split)

theorem State.freeNext_keeps {W : List Part} {Q : Nat → Bool} {s0 : State} {s : State}
    
    (hK : Keeps W Q s0 s) : Keeps W Q s0 (State.freeNext s) := by
  unfold State.freeNext
  repeat' (first
    | with_reducible assumption
    | with_reducible exact id
    | with_reducible exact fun k => Mem.wf_writeBytes k
    | with_reducible exact fun k => Mem.wf_erase k
    | with_reducible exact fun k => SMap.wf_set k
    | with_reducible exact fun k => SMap.wf_drop k
    | with_reducible exact fun k => SMap.wf_foldl k
    | with_reducible exact fun k => SMap.wf_foldl (SMap.wf_drop k)
    | with_reducible exact fun _ _ k => absurd k List.not_mem_nil
    | intro _
    | with_reducible apply keeps_next
    | with_reducible apply keeps_foldl
    | with_reducible apply keeps_foldl1
    | with_reducible exact Or.inr (by assumption)
    | with_reducible exact Or.inl rfl
    | dsimp only
    | (simp only [keeps_mk_eq]; with_reducible apply keeps_mk)
    | with_reducible apply keeps_ite
    | with_reducible apply keeps_ite1
    | split)

theorem State.start_keeps {W : List Part} {Q : Nat → Bool} {s0 : State} {s : State}
    
    (hK : Keeps W Q s0 s) : Keeps W Q s0 (State.start s) := by
  unfold State.start
  repeat' (first
    | with_reducible assumption
    | with_reducible exact id
    | with_reducible exact fun k => Mem.wf_writeBytes k
    | with_reducible exact fun k => Mem.wf_erase k
    | with_reducible exact fun k => SMap.wf_set k
    | with_reducible exact fun k => SMap.wf_drop k
    | with_reducible exact fun k => SMap.wf_foldl k
    | with_reducible exact fun k => SMap.wf_foldl (SMap.wf_drop k)
    | with_reducible exact fun _ _ k => absurd k List.not_mem_nil
    | intro _
    | with_reducible apply keeps_next
    | with_reducible apply keeps_foldl
    | with_reducible apply keeps_foldl1
    | with_reducible exact Or.inr (by assumption)
    | with_reducible exact Or.inl rfl
    | dsimp only
    | (simp only [keeps_mk_eq]; with_reducible apply keeps_mk)
    | with_reducible apply keeps_ite
    | with_reducible apply keeps_ite1
    | split)

theorem State.emit_keeps {W : List Part} {Q : Nat → Bool} {s0 : State} {s : State} {o : Out}
    
    (hK : Keeps W Q s0 s) : Keeps W Q s0 (State.emit s o) := by
  unfold State.emit
  repeat' (first
    | with_reducible assumption
    | with_reducible exact id
    | with_reducible exact fun k => Mem.wf_writeBytes k
    | with_reducible exact fun k => Mem.wf_erase k
    | with_reducible exact fun k => SMap.wf_set k
    | with_reducible exact fun k => SMap.wf_drop k
    | with_reducible exact fun k => SMap.wf_foldl k
    | with_reducible exact fun k => SMap.wf_foldl (SMap.wf_drop k)
    | with_reducible exact fun _ _ k => absurd k List.not_mem_nil
    | intro _
    | with_reducible apply keeps_next
    | with_reducible apply keeps_foldl
    | with_reducible apply keeps_foldl1
    | with_reducible exact Or.inr (by assumption)
    | with_reducible exact Or.inl rfl
    | dsimp only
    | (simp only [keeps_mk_eq]; with_reducible apply keeps_mk)
    | with_reducible apply keeps_ite
    | with_reducible apply keeps_ite1
    | split)

theorem State.store_keeps {W : List Part} {Q : Nat → Bool} {s0 : State} {s : State} {a : Nat} {bs : List Byte}
    (wmem : Part.mem ∈ W)
    (hK : Keeps W Q s0 s) : Keeps W Q s0 (State.store s a bs) := by
  unfold State.store
  repeat' (first
    | with_reducible assumption
    | with_reducible exact id
    | with_reducible exact fun k => Mem.wf_writeBytes k
    | with_reducible exact fun k => Mem.wf_erase k
    | with_reducible exact fun k => SMap.wf_set k
    | with_reducible exact fun k => SMap.wf_drop k
    | with_reducible exact fun k => SMap.wf_foldl k
    | with_reducible exact fun k => SMap.wf_foldl (SMap.wf_drop k)
    | with_reducible exact fun _ _ k => absurd k List.not_mem_nil
    | intro _
    | with_reducible apply keeps_next
    | with_reducible apply keeps_foldl
    | with_reducible apply keeps_foldl1
    | with_reducible exact Or.inr (by assumption)
    | with_reducible exact Or.inl rfl
    | dsimp only
    | (simp only [keeps_mk_eq]; with_reducible apply keeps_mk)
    | with_reducible apply keeps_ite
    | with_reducible apply keeps_ite1
    | split)

end Sys2Proof.Machine
end

