-- ==== Sys2Proof/Laws/KeepsFlags.lean ====
section
/-! SUPPORT. What each function and command of Machine/Flags.lean keeps. -/
set_option linter.all false
set_option Elab.async false
namespace Sys2Proof.Machine

theorem State.msix_keeps {W : List Part} {Q : Nat → Bool} {s0 : State} {s : State} {f : Nat} {v : Nat}
    (wiFn_f : Q (iFn f) = true)
    (hK : Keeps W Q s0 s) : Keeps W Q s0 (State.msix s f v) := by
  unfold State.msix
  repeat' (first
    | with_reducible assumption
    | with_reducible exact id
    | with_reducible exact fun k => Mem.wf_writeBytes k
    | with_reducible exact fun k => Mem.wf_erase k
    | with_reducible exact fun k => SMap.wf_set k
    | with_reducible exact fun k => SMap.wf_drop k
    | with_reducible exact fun k => SMap.wf_foldl k
    | with_reducible exact fun k => SMap.wf_foldl (SMap.wf_drop k)
    | with_reducible exact fun _ _ k => absurd k List.not_mem_nil
    | intro _
    | with_reducible apply State.wrB_keeps
    | with_reducible apply State.emit_keeps
    | with_reducible apply keeps_next
    | with_reducible apply keeps_foldl
    | with_reducible apply keeps_foldl1
    | with_reducible exact Or.inr (by assumption)
    | with_reducible exact Or.inl rfl
    | dsimp only
    | (simp only [keeps_mk_eq]; with_reducible apply keeps_mk)
    | with_reducible apply keeps_ite
    | with_reducible apply keeps_ite1
    | split)

theorem State.fnEvent_keeps {W : List Part} {Q : Nat → Bool} {s0 : State} {s : State} {f : Nat} {bits : Nat}
    (wiFn_f : Q (iFn f) = true)
    (hK : Keeps W Q s0 s) : Keeps W Q s0 (State.fnEvent s f bits) := by
  unfold State.fnEvent
  repeat' (first
    | with_reducible assumption
    | with_reducible exact id
    | with_reducible exact fun k => Mem.wf_writeBytes k
    | with_reducible exact fun k => Mem.wf_erase k
    | with_reducible exact fun k => SMap.wf_set k
    | with_reducible exact fun k => SMap.wf_drop k
    | with_reducible exact fun k => SMap.wf_foldl k
    | with_reducible exact fun k => SMap.wf_foldl (SMap.wf_drop k)
    | with_reducible exact fun _ _ k => absurd k List.not_mem_nil
    | intro _
    | with_reducible apply State.setBits_keeps
    | with_reducible apply State.msix_keeps
    | with_reducible apply keeps_next
    | with_reducible apply keeps_foldl
    | with_reducible apply keeps_foldl1
    | with_reducible exact Or.inr (by assumption)
    | with_reducible exact Or.inl rfl
    | dsimp only
    | (simp only [keeps_mk_eq]; with_reducible apply keeps_mk)
    | with_reducible apply keeps_ite
    | with_reducible apply keeps_ite1
    | split)

theorem State.irqEdge_keeps {W : List Part} {Q : Nat → Bool} {s0 : State} {s : State} {t : State} {p : Nat}
    (wiFn_n : ∀ n, Q (iFn n) = true)
    (hK : Keeps W Q s0 t) : Keeps W Q s0 (State.irqEdge s t p) := by
  unfold State.irqEdge
  repeat' (first
    | with_reducible assumption
    | with_reducible exact id
    | with_reducible exact fun k => Mem.wf_writeBytes k
    | with_reducible exact fun k => Mem.wf_erase k
    | with_reducible exact fun k => SMap.wf_set k
    | with_reducible exact fun k => SMap.wf_drop k
    | with_reducible exact fun k => SMap.wf_foldl k
    | with_reducible exact fun k => SMap.wf_foldl (SMap.wf_drop k)
    | with_reducible exact fun _ _ k => absurd k List.not_mem_nil
    | intro _
    | with_reducible exact wiFn_n _
    | with_reducible apply State.msix_keeps
    | with_reducible apply keeps_next
    | with_reducible apply keeps_foldl
    | with_reducible apply keeps_foldl1
    | with_reducible exact Or.inr (by assumption)
    | with_reducible exact Or.inl rfl
    | dsimp only
    | (simp only [keeps_mk_eq]; with_reducible apply keeps_mk)
    | with_reducible apply keeps_ite
    | with_reducible apply keeps_ite1
    | split)

theorem State.raise_keeps {W : List Part} {Q : Nat → Bool} {s0 : State} {s : State} {p : Nat} {bits : Nat}
    (wiFn_n : ∀ n, Q (iFn n) = true) (wp : Q p = true)
    (hK : Keeps W Q s0 s) : Keeps W Q s0 (State.raise s p bits) := by
  unfold State.raise
  repeat' (first
    | with_reducible assumption
    | with_reducible exact id
    | with_reducible exact fun k => Mem.wf_writeBytes k
    | with_reducible exact fun k => Mem.wf_erase k
    | with_reducible exact fun k => SMap.wf_set k
    | with_reducible exact fun k => SMap.wf_drop k
    | with_reducible exact fun k => SMap.wf_foldl k
    | with_reducible exact fun k => SMap.wf_foldl (SMap.wf_drop k)
    | with_reducible exact fun _ _ k => absurd k List.not_mem_nil
    | intro _
    | with_reducible exact wiFn_n _
    | with_reducible apply State.irqEdge_keeps
    | with_reducible apply State.setBits_keeps
    | with_reducible apply keeps_next
    | with_reducible apply keeps_foldl
    | with_reducible apply keeps_foldl1
    | with_reducible exact Or.inr (by assumption)
    | with_reducible exact Or.inl rfl
    | dsimp only
    | (simp only [keeps_mk_eq]; with_reducible apply keeps_mk)
    | with_reducible apply keeps_ite
    | with_reducible apply keeps_ite1
    | split)

theorem State.evLost_keeps {W : List Part} {Q : Nat → Bool} {s0 : State} {s : State}
    (wiFn_n : ∀ n, Q (iFn n) = true) (wpgEvr : Q pgEvr = true) (wrecorder : Part.recorder ∈ W)
    (hK : Keeps W Q s0 s) : Keeps W Q s0 (State.evLost s) := by
  unfold State.evLost
  repeat' (first
    | with_reducible assumption
    | with_reducible exact id
    | with_reducible exact fun k => Mem.wf_writeBytes k
    | with_reducible exact fun k => Mem.wf_erase k
    | with_reducible exact fun k => SMap.wf_set k
    | with_reducible exact fun k => SMap.wf_drop k
    | with_reducible exact fun k => SMap.wf_foldl k
    | with_reducible exact fun k => SMap.wf_foldl (SMap.wf_drop k)
    | with_reducible exact fun _ _ k => absurd k List.not_mem_nil
    | intro _
    | with_reducible exact wiFn_n _
    | with_reducible apply State.raise_keeps
    | with_reducible apply State.bump_keeps
    | with_reducible apply keeps_next
    | with_reducible apply keeps_foldl
    | with_reducible apply keeps_foldl1
    | with_reducible exact Or.inr (by assumption)
    | with_reducible exact Or.inl rfl
    | dsimp only
    | (simp only [keeps_mk_eq]; with_reducible apply keeps_mk)
    | with_reducible apply keeps_ite
    | with_reducible apply keeps_ite1
    | split)

theorem State.evQueue_keeps {W : List Part} {Q : Nat → Bool} {s0 : State} {s : State} {code : Nat} {source : Nat} {index : Nat} {data : List Nat}
    (wiCode_code : Q (iCode code) = true) (wiFn_n : ∀ n, Q (iFn n) = true) (wpgEvr : Q pgEvr = true) (wrecorder : Part.recorder ∈ W)
    (hK : Keeps W Q s0 s) : Keeps W Q s0 (State.evQueue s code source index data) := by
  unfold State.evQueue
  repeat' (first
    | with_reducible assumption
    | with_reducible exact id
    | with_reducible exact fun k => Mem.wf_writeBytes k
    | with_reducible exact fun k => Mem.wf_erase k
    | with_reducible exact fun k => SMap.wf_set k
    | with_reducible exact fun k => SMap.wf_drop k
    | with_reducible exact fun k => SMap.wf_foldl k
    | with_reducible exact fun k => SMap.wf_foldl (SMap.wf_drop k)
    | with_reducible exact fun _ _ k => absurd k List.not_mem_nil
    | intro _
    | with_reducible exact wiFn_n _
    | with_reducible apply State.evLost_keeps
    | with_reducible apply State.wr_keeps
    | with_reducible apply State.freeNext_keeps
    | with_reducible apply keeps_next
    | with_reducible apply keeps_foldl
    | with_reducible apply keeps_foldl1
    | with_reducible exact Or.inr (by assumption)
    | with_reducible exact Or.inl rfl
    | dsimp only
    | (simp only [keeps_mk_eq]; with_reducible apply keeps_mk)
    | with_reducible apply keeps_ite
    | with_reducible apply keeps_ite1
    | split)

theorem State.report_keeps {W : List Part} {Q : Nat → Bool} {s0 : State} {s : State} {code : Nat} {source : Nat} {index : Nat} {data : List Nat}
    (wiCode_code : Q (iCode code) = true) (wiFn_n : ∀ n, Q (iFn n) = true) (wpgEvr : Q pgEvr = true) (wrecorder : Part.recorder ∈ W)
    (hK : Keeps W Q s0 s) : Keeps W Q s0 (State.report s code source index data) := by
  unfold State.report
  repeat' (first
    | with_reducible assumption
    | with_reducible exact id
    | with_reducible exact fun k => Mem.wf_writeBytes k
    | with_reducible exact fun k => Mem.wf_erase k
    | with_reducible exact fun k => SMap.wf_set k
    | with_reducible exact fun k => SMap.wf_drop k
    | with_reducible exact fun k => SMap.wf_foldl k
    | with_reducible exact fun k => SMap.wf_foldl (SMap.wf_drop k)
    | with_reducible exact fun _ _ k => absurd k List.not_mem_nil
    | intro _
    | with_reducible exact wiFn_n _
    | with_reducible apply State.evLost_keeps
    | with_reducible apply State.evQueue_keeps
    | with_reducible apply State.raise_keeps
    | with_reducible apply State.bump_keeps
    | with_reducible apply State.wr_keeps
    | with_reducible apply keeps_next
    | with_reducible apply keeps_foldl
    | with_reducible apply keeps_foldl1
    | with_reducible exact Or.inr (by assumption)
    | with_reducible exact Or.inl rfl
    | dsimp only
    | (simp only [keeps_mk_eq]; with_reducible apply keeps_mk)
    | with_reducible apply keeps_ite
    | with_reducible apply keeps_ite1
    | split)

end Sys2Proof.Machine
end

