-- ==== Sys2Proof/Laws/KeepsOperands.lean ====
section
/-! SUPPORT. What each function and command of Machine/Operands.lean keeps. -/
set_option linter.all false
set_option Elab.async false
namespace Sys2Proof.Machine

theorem State.setHart_keeps {W : List Part} {Q : Nat → Bool} {s0 : State} {s : State} {h : Nat} {x : Hart}
    (wharts : Part.harts ∈ W)
    (hK : Keeps W Q s0 s) : Keeps W Q s0 (State.setHart s h x) := by
  unfold State.setHart
  repeat' (first
    | with_reducible assumption
    | with_reducible exact id
    | with_reducible exact fun k => Mem.wf_writeBytes k
    | with_reducible exact fun k => Mem.wf_erase k
    | with_reducible exact fun k => SMap.wf_set k
    | with_reducible exact fun k => SMap.wf_drop k
    | with_reducible exact fun k => SMap.wf_foldl k
    | with_reducible exact fun k => SMap.wf_foldl (SMap.wf_drop k)
    | with_reducible exact fun _ _ k => absurd k List.not_mem_nil
    | intro _
    | with_reducible apply keeps_next
    | with_reducible apply keeps_foldl
    | with_reducible apply keeps_foldl1
    | with_reducible exact Or.inr (by assumption)
    | with_reducible exact Or.inl rfl
    | dsimp only
    | (simp only [keeps_mk_eq]; with_reducible apply keeps_mk)
    | with_reducible apply keeps_ite
    | with_reducible apply keeps_ite1
    | split)

theorem State.accFirst_keeps {W : List Part} {Q : Nat → Bool} {s0 : State} {s : State} {a : Attr} {addr : Nat} {write : Bool} {cause : Nat}
    (wiFn_n : ∀ n, Q (iFn n) = true) (wpgSys : Q pgSys = true)
    (hK : Keeps W Q s0 s) : Keeps W Q s0 (State.accFirst s a addr write cause) := by
  unfold State.accFirst
  repeat' (first
    | with_reducible assumption
    | with_reducible exact id
    | with_reducible exact fun k => Mem.wf_writeBytes k
    | with_reducible exact fun k => Mem.wf_erase k
    | with_reducible exact fun k => SMap.wf_set k
    | with_reducible exact fun k => SMap.wf_drop k
    | with_reducible exact fun k => SMap.wf_foldl k
    | with_reducible exact fun k => SMap.wf_foldl (SMap.wf_drop k)
    | with_reducible exact fun _ _ k => absurd k List.not_mem_nil
    | intro _
    | with_reducible exact wiFn_n _
    | with_reducible apply State.wr_keeps
    | with_reducible apply State.wrB_keeps
    | with_reducible apply State.raise_keeps
    | with_reducible apply keeps_next
    | with_reducible apply keeps_foldl
    | with_reducible apply keeps_foldl1
    | with_reducible exact Or.inr (by assumption)
    | with_reducible exact Or.inl rfl
    | dsimp only
    | (simp only [keeps_mk_eq]; with_reducible apply keeps_mk)
    | with_reducible apply keeps_ite
    | with_reducible apply keeps_ite1
    | split)

theorem State.accSilent_keeps {W : List Part} {Q : Nat → Bool} {s0 : State} {s : State} {addr : Nat} {cause : Nat}
    (w50 : Q 50 = true) (wiFn_n : ∀ n, Q (iFn n) = true) (wfield : Part.field ∈ W)
    (hK : Keeps W Q s0 s) : Keeps W Q s0 (State.accSilent s addr cause) := by
  unfold State.accSilent
  repeat' (first
    | with_reducible assumption
    | with_reducible exact id
    | with_reducible exact fun k => Mem.wf_writeBytes k
    | with_reducible exact fun k => Mem.wf_erase k
    | with_reducible exact fun k => SMap.wf_set k
    | with_reducible exact fun k => SMap.wf_drop k
    | with_reducible exact fun k => SMap.wf_foldl k
    | with_reducible exact fun k => SMap.wf_foldl (SMap.wf_drop k)
    | with_reducible exact fun _ _ k => absurd k List.not_mem_nil
    | intro _
    | with_reducible exact wiFn_n _
    | with_reducible apply State.raise_keeps
    | with_reducible apply keeps_next
    | with_reducible apply keeps_foldl
    | with_reducible apply keeps_foldl1
    | with_reducible exact Or.inr (by assumption)
    | with_reducible exact Or.inl rfl
    | dsimp only
    | (simp only [keeps_mk_eq]; with_reducible apply keeps_mk)
    | with_reducible apply keeps_ite
    | with_reducible apply keeps_ite1
    | split)

theorem State.reqEvent_keeps {W : List Part} {Q : Nat → Bool} {s0 : State} {s : State} {r : Req}
    (wiFn_n : ∀ n, Q (iFn n) = true)
    (hK : Keeps W Q s0 s) : Keeps W Q s0 (State.reqEvent s r) := by
  unfold State.reqEvent
  repeat' (first
    | with_reducible assumption
    | with_reducible exact id
    | with_reducible exact fun k => Mem.wf_writeBytes k
    | with_reducible exact fun k => Mem.wf_erase k
    | with_reducible exact fun k => SMap.wf_set k
    | with_reducible exact fun k => SMap.wf_drop k
    | with_reducible exact fun k => SMap.wf_foldl k
    | with_reducible exact fun k => SMap.wf_foldl (SMap.wf_drop k)
    | with_reducible exact fun _ _ k => absurd k List.not_mem_nil
    | intro _
    | with_reducible exact wiFn_n _
    | with_reducible apply State.fnEvent_keeps
    | with_reducible apply keeps_next
    | with_reducible apply keeps_foldl
    | with_reducible apply keeps_foldl1
    | with_reducible exact Or.inr (by assumption)
    | with_reducible exact Or.inl rfl
    | dsimp only
    | (simp only [keeps_mk_eq]; with_reducible apply keeps_mk)
    | with_reducible apply keeps_ite
    | with_reducible apply keeps_ite1
    | split)

theorem State.accErr_keeps {W : List Part} {Q : Nat → Bool} {s0 : State} {s : State} {r : Req} {addr : Nat} {write : Bool} {cause : Nat}
    (w50 : Q 50 = true) (wiCode_8 : Q (iCode 8) = true) (wiFn_n : ∀ n, Q (iFn n) = true) (wpgEvr : Q pgEvr = true) (wpgSys : Q pgSys = true) (wrecorder : Part.recorder ∈ W) (wfield : Part.field ∈ W)
    (hK : Keeps W Q s0 s) : Keeps W Q s0 (State.accErr s r addr write cause) := by
  unfold State.accErr
  repeat' (first
    | with_reducible assumption
    | with_reducible exact id
    | with_reducible exact fun k => Mem.wf_writeBytes k
    | with_reducible exact fun k => Mem.wf_erase k
    | with_reducible exact fun k => SMap.wf_set k
    | with_reducible exact fun k => SMap.wf_drop k
    | with_reducible exact fun k => SMap.wf_foldl k
    | with_reducible exact fun k => SMap.wf_foldl (SMap.wf_drop k)
    | with_reducible exact fun _ _ k => absurd k List.not_mem_nil
    | intro _
    | with_reducible exact wiFn_n _
    | with_reducible apply State.accFirst_keeps
    | with_reducible apply State.bump_keeps
    | with_reducible apply State.accSilent_keeps
    | with_reducible apply State.reqEvent_keeps
    | with_reducible apply State.report_keeps
    | with_reducible apply keeps_next
    | with_reducible apply keeps_foldl
    | with_reducible apply keeps_foldl1
    | with_reducible exact Or.inr (by assumption)
    | with_reducible exact Or.inl rfl
    | dsimp only
    | (simp only [keeps_mk_eq]; with_reducible apply keeps_mk)
    | with_reducible apply keeps_ite
    | with_reducible apply keeps_ite1
    | split)

theorem State.access_keeps {W : List Part} {Q : Nat → Bool} {s0 : State} {s : State} {r : Req} {p : Nat} {off : Nat} {k : State → State}
    (w50 : Q 50 = true) (wiCode_8 : Q (iCode 8) = true) (wiFn_n : ∀ n, Q (iFn n) = true) (wpgEvr : Q pgEvr = true) (wpgSys : Q pgSys = true) (wrecorder : Part.recorder ∈ W) (wfield : Part.field ∈ W) (hk : ∀ (y0 : State), Keeps W Q s0 y0 → Keeps W Q s0 (k y0))
    (hK : Keeps W Q s0 s) : Keeps W Q s0 (State.access s r p off k) := by
  unfold State.access
  repeat' (first
    | with_reducible assumption
    | with_reducible exact id
    | with_reducible exact fun k => Mem.wf_writeBytes k
    | with_reducible exact fun k => Mem.wf_erase k
    | with_reducible exact fun k => SMap.wf_set k
    | with_reducible exact fun k => SMap.wf_drop k
    | with_reducible exact fun k => SMap.wf_foldl k
    | with_reducible exact fun k => SMap.wf_foldl (SMap.wf_drop k)
    | with_reducible exact fun _ _ k => absurd k List.not_mem_nil
    | intro _
    | with_reducible exact wiFn_n _
    | exact hk _ (by assumption)
    | with_reducible apply hk
    | with_reducible apply State.accErr_keeps
    | with_reducible apply keeps_next
    | with_reducible apply keeps_foldl
    | with_reducible apply keeps_foldl1
    | with_reducible exact Or.inr (by assumption)
    | with_reducible exact Or.inl rfl
    | dsimp only
    | (simp only [keeps_mk_eq]; with_reducible apply keeps_mk)
    | with_reducible apply keeps_ite
    | with_reducible apply keeps_ite1
    | split)

theorem State.accessRd_keeps {W : List Part} {Q : Nat → Bool} {s0 : State} {s : State} {r : Req} {p : Nat} {off : Nat} {k : State → State}
    (w50 : Q 50 = true) (wiCode_8 : Q (iCode 8) = true) (wiFn_n : ∀ n, Q (iFn n) = true) (wpgEvr : Q pgEvr = true) (wpgSys : Q pgSys = true) (wrecorder : Part.recorder ∈ W) (wfield : Part.field ∈ W) (hk : ∀ (y0 : State), Keeps W Q s0 y0 → Keeps W Q s0 (k y0))
    (hK : Keeps W Q s0 s) : Keeps W Q s0 (State.accessRd s r p off k) := by
  unfold State.accessRd
  repeat' (first
    | with_reducible assumption
    | with_reducible exact id
    | with_reducible exact fun k => Mem.wf_writeBytes k
    | with_reducible exact fun k => Mem.wf_erase k
    | with_reducible exact fun k => SMap.wf_set k
    | with_reducible exact fun k => SMap.wf_drop k
    | with_reducible exact fun k => SMap.wf_foldl k
    | with_reducible exact fun k => SMap.wf_foldl (SMap.wf_drop k)
    | with_reducible exact fun _ _ k => absurd k List.not_mem_nil
    | intro _
    | with_reducible exact wiFn_n _
    | exact hk _ (by assumption)
    | with_reducible apply hk
    | with_reducible apply State.accErr_keeps
    | with_reducible apply keeps_next
    | with_reducible apply keeps_foldl
    | with_reducible apply keeps_foldl1
    | with_reducible exact Or.inr (by assumption)
    | with_reducible exact Or.inl rfl
    | dsimp only
    | (simp only [keeps_mk_eq]; with_reducible apply keeps_mk)
    | with_reducible apply keeps_ite
    | with_reducible apply keeps_ite1
    | split)

theorem State.answer_keeps {W : List Part} {Q : Nat → Bool} {s0 : State} {s : State} {data : Nat}
    
    (hK : Keeps W Q s0 s) : Keeps W Q s0 (State.answer s data) := by
  unfold State.answer
  repeat' (first
    | with_reducible assumption
    | with_reducible exact id
    | with_reducible exact fun k => Mem.wf_writeBytes k
    | with_reducible exact fun k => Mem.wf_erase k
    | with_reducible exact fun k => SMap.wf_set k
    | with_reducible exact fun k => SMap.wf_drop k
    | with_reducible exact fun k => SMap.wf_foldl k
    | with_reducible exact fun k => SMap.wf_foldl (SMap.wf_drop k)
    | with_reducible exact fun _ _ k => absurd k List.not_mem_nil
    | intro _
    | with_reducible apply keeps_next
    | with_reducible apply keeps_foldl
    | with_reducible apply keeps_foldl1
    | with_reducible exact Or.inr (by assumption)
    | with_reducible exact Or.inl rfl
    | dsimp only
    | (simp only [keeps_mk_eq]; with_reducible apply keeps_mk)
    | with_reducible apply keeps_ite
    | with_reducible apply keeps_ite1
    | split)

theorem State.fldWrite_keeps {W : List Part} {Q : Nat → Bool} {s0 : State} {s : State} {i : Nat} {d : Word} {f : Fld}
    (wi : Q i = true)
    (hK : Keeps W Q s0 s) : Keeps W Q s0 (State.fldWrite s i d f) := by
  unfold State.fldWrite
  repeat' (first
    | with_reducible assumption
    | with_reducible exact id
    | with_reducible exact fun k => Mem.wf_writeBytes k
    | with_reducible exact fun k => Mem.wf_erase k
    | with_reducible exact fun k => SMap.wf_set k
    | with_reducible exact fun k => SMap.wf_drop k
    | with_reducible exact fun k => SMap.wf_foldl k
    | with_reducible exact fun k => SMap.wf_foldl (SMap.wf_drop k)
    | with_reducible exact fun _ _ k => absurd k List.not_mem_nil
    | intro _
    | with_reducible apply State.wr_keeps
    | with_reducible apply State.clrBits_keeps
    | with_reducible apply State.setBits_keeps
    | with_reducible apply keeps_next
    | with_reducible apply keeps_foldl
    | with_reducible apply keeps_foldl1
    | with_reducible exact Or.inr (by assumption)
    | with_reducible exact Or.inl rfl
    | dsimp only
    | (simp only [keeps_mk_eq]; with_reducible apply keeps_mk)
    | with_reducible apply keeps_ite
    | with_reducible apply keeps_ite1
    | split)

theorem State.regWrite_keeps {W : List Part} {Q : Nat → Bool} {s0 : State} {s : State} {i : Nat} {rows : List Row} {off : Nat} {d : Word}
    (wi : Q i = true)
    (hK : Keeps W Q s0 s) : Keeps W Q s0 (State.regWrite s i rows off d) := by
  unfold State.regWrite
  repeat' (first
    | with_reducible assumption
    | with_reducible exact id
    | with_reducible exact fun k => Mem.wf_writeBytes k
    | with_reducible exact fun k => Mem.wf_erase k
    | with_reducible exact fun k => SMap.wf_set k
    | with_reducible exact fun k => SMap.wf_drop k
    | with_reducible exact fun k => SMap.wf_foldl k
    | with_reducible exact fun k => SMap.wf_foldl (SMap.wf_drop k)
    | with_reducible exact fun _ _ k => absurd k List.not_mem_nil
    | intro _
    | with_reducible apply State.fldWrite_keeps
    | with_reducible apply keeps_next
    | with_reducible apply keeps_foldl
    | with_reducible apply keeps_foldl1
    | with_reducible exact Or.inr (by assumption)
    | with_reducible exact Or.inl rfl
    | dsimp only
    | (simp only [keeps_mk_eq]; with_reducible apply keeps_mk)
    | with_reducible apply keeps_ite
    | with_reducible apply keeps_ite1
    | split)

end Sys2Proof.Machine
end

