-- ==== Sys2Proof/Laws/KeepsPower.lean ====
section
/-! SUPPORT. What each function and command of Machine/Power.lean keeps. -/
set_option linter.all false
set_option Elab.async false
namespace Sys2Proof.Machine

theorem State.setVc_keeps {W : List Part} {Q : Nat → Bool} {s0 : State} {s : State} {d : Nat} {v : Vcore}
    (wvcore : Part.vcore ∈ W)
    (hK : Keeps W Q s0 s) : Keeps W Q s0 (State.setVc s d v) := by
  unfold State.setVc
  repeat' (first
    | with_reducible assumption
    | with_reducible exact id
    | with_reducible exact fun k => Mem.wf_writeBytes k
    | with_reducible exact fun k => Mem.wf_erase k
    | with_reducible exact fun k => SMap.wf_set k
    | with_reducible exact fun k => SMap.wf_drop k
    | with_reducible exact fun k => SMap.wf_foldl k
    | with_reducible exact fun k => SMap.wf_foldl (SMap.wf_drop k)
    | with_reducible exact fun _ _ k => absurd k List.not_mem_nil
    | intro _
    | with_reducible apply keeps_next
    | with_reducible apply keeps_foldl
    | with_reducible apply keeps_foldl1
    | with_reducible exact Or.inr (by assumption)
    | with_reducible exact Or.inl rfl
    | dsimp only
    | (simp only [keeps_mk_eq]; with_reducible apply keeps_mk)
    | with_reducible apply keeps_ite
    | with_reducible apply keeps_ite1
    | split)

theorem State.vcoreLoop_keeps {W : List Part} {Q : Nat → Bool} {s0 : State} {s : State} {d : Nat}
    (wpgPwr : Q pgPwr = true) (wvcore : Part.vcore ∈ W)
    (hK : Keeps W Q s0 s) : Keeps W Q s0 (State.vcoreLoop s d) := by
  unfold State.vcoreLoop
  repeat' (first
    | with_reducible assumption
    | with_reducible exact id
    | with_reducible exact fun k => Mem.wf_writeBytes k
    | with_reducible exact fun k => Mem.wf_erase k
    | with_reducible exact fun k => SMap.wf_set k
    | with_reducible exact fun k => SMap.wf_drop k
    | with_reducible exact fun k => SMap.wf_foldl k
    | with_reducible exact fun k => SMap.wf_foldl (SMap.wf_drop k)
    | with_reducible exact fun _ _ k => absurd k List.not_mem_nil
    | intro _
    | with_reducible apply State.setVc_keeps
    | with_reducible apply State.wr_keeps
    | with_reducible apply keeps_next
    | with_reducible apply keeps_foldl
    | with_reducible apply keeps_foldl1
    | with_reducible exact Or.inr (by assumption)
    | with_reducible exact Or.inl rfl
    | dsimp only
    | (simp only [keeps_mk_eq]; with_reducible apply keeps_mk)
    | with_reducible apply keeps_ite
    | with_reducible apply keeps_ite1
    | split)

theorem execVcoreLowerCount_keeps {W : List Part} {Q : Nat → Bool} {s0 : State} {hi : Bool} {s : State}
    (wpgPwr : Q pgPwr = true) (wvcore : Part.vcore ∈ W)
    (hK : Keeps W Q s0 s) : Res.Keeps W Q s0 (execVcoreLowerCount hi s) := by
  unfold execVcoreLowerCount
  repeat' (first
    | with_reducible assumption
    | with_reducible exact id
    | with_reducible exact fun k => Mem.wf_writeBytes k
    | with_reducible exact fun k => Mem.wf_erase k
    | with_reducible exact fun k => SMap.wf_set k
    | with_reducible exact fun k => SMap.wf_drop k
    | with_reducible exact fun k => SMap.wf_foldl k
    | with_reducible exact fun k => SMap.wf_foldl (SMap.wf_drop k)
    | with_reducible exact fun _ _ k => absurd k List.not_mem_nil
    | intro _
    | with_reducible apply State.start_keeps
    | with_reducible apply State.wr_keeps
    | with_reducible apply State.setVc_keeps
    | with_reducible apply keeps_next
    | with_reducible apply keeps_foldl
    | with_reducible apply keeps_foldl1
    | with_reducible exact Or.inr (by assumption)
    | with_reducible exact Or.inl rfl
    | dsimp only
    | (simp only [keeps_mk_eq]; with_reducible apply keeps_mk)
    | with_reducible apply keeps_ite
    | with_reducible apply keeps_ite1
    | split)

theorem State.vcoreRecord_keeps {W : List Part} {Q : Nat → Bool} {s0 : State} {s : State} {d : Nat}
    (wiCode_11 : Q (iCode 11) = true) (wiFn_n : ∀ n, Q (iFn n) = true) (wpgEvr : Q pgEvr = true) (wrecorder : Part.recorder ∈ W)
    (hK : Keeps W Q s0 s) : Keeps W Q s0 (State.vcoreRecord s d) := by
  unfold State.vcoreRecord
  repeat' (first
    | with_reducible assumption
    | with_reducible exact id
    | with_reducible exact fun k => Mem.wf_writeBytes k
    | with_reducible exact fun k => Mem.wf_erase k
    | with_reducible exact fun k => SMap.wf_set k
    | with_reducible exact fun k => SMap.wf_drop k
    | with_reducible exact fun k => SMap.wf_foldl k
    | with_reducible exact fun k => SMap.wf_foldl (SMap.wf_drop k)
    | with_reducible exact fun _ _ k => absurd k List.not_mem_nil
    | intro _
    | with_reducible exact wiFn_n _
    | with_reducible apply State.report_keeps
    | with_reducible apply keeps_next
    | with_reducible apply keeps_foldl
    | with_reducible apply keeps_foldl1
    | with_reducible exact Or.inr (by assumption)
    | with_reducible exact Or.inl rfl
    | dsimp only
    | (simp only [keeps_mk_eq]; with_reducible apply keeps_mk)
    | with_reducible apply keeps_ite
    | with_reducible apply keeps_ite1
    | split)

theorem execSlackLowRun_keeps {W : List Part} {Q : Nat → Bool} {s0 : State} {hi : Bool} {s : State}
    (wiCode_11 : Q (iCode 11) = true) (wiFn_n : ∀ n, Q (iFn n) = true) (wpgEvr : Q pgEvr = true) (wpgPwr : Q pgPwr = true) (wrecorder : Part.recorder ∈ W) (wvcore : Part.vcore ∈ W)
    (hK : Keeps W Q s0 s) : Res.Keeps W Q s0 (execSlackLowRun hi s) := by
  unfold execSlackLowRun
  repeat' (first
    | with_reducible assumption
    | with_reducible exact id
    | with_reducible exact fun k => Mem.wf_writeBytes k
    | with_reducible exact fun k => Mem.wf_erase k
    | with_reducible exact fun k => SMap.wf_set k
    | with_reducible exact fun k => SMap.wf_drop k
    | with_reducible exact fun k => SMap.wf_foldl k
    | with_reducible exact fun k => SMap.wf_foldl (SMap.wf_drop k)
    | with_reducible exact fun _ _ k => absurd k List.not_mem_nil
    | intro _
    | with_reducible exact wiFn_n _
    | with_reducible apply State.start_keeps
    | with_reducible apply State.vcoreRecord_keeps
    | with_reducible apply State.raise_keeps
    | with_reducible apply State.setVc_keeps
    | with_reducible apply keeps_next
    | with_reducible apply keeps_foldl
    | with_reducible apply keeps_foldl1
    | with_reducible exact Or.inr (by assumption)
    | with_reducible exact Or.inl rfl
    | dsimp only
    | (simp only [keeps_mk_eq]; with_reducible apply keeps_mk)
    | with_reducible apply keeps_ite
    | with_reducible apply keeps_ite1
    | split)

theorem execVcoreFault_keeps {W : List Part} {Q : Nat → Bool} {s0 : State} {d : Fin 7} {s : State}
    (wiCode_11 : Q (iCode 11) = true) (wiFn_n : ∀ n, Q (iFn n) = true) (wpgEvr : Q pgEvr = true) (wpgPwr : Q pgPwr = true) (wrecorder : Part.recorder ∈ W)
    (hK : Keeps W Q s0 s) : Res.Keeps W Q s0 (execVcoreFault d s) := by
  unfold execVcoreFault
  repeat' (first
    | with_reducible assumption
    | with_reducible exact id
    | with_reducible exact fun k => Mem.wf_writeBytes k
    | with_reducible exact fun k => Mem.wf_erase k
    | with_reducible exact fun k => SMap.wf_set k
    | with_reducible exact fun k => SMap.wf_drop k
    | with_reducible exact fun k => SMap.wf_foldl k
    | with_reducible exact fun k => SMap.wf_foldl (SMap.wf_drop k)
    | with_reducible exact fun _ _ k => absurd k List.not_mem_nil
    | intro _
    | with_reducible exact wiFn_n _
    | with_reducible apply State.vcoreRecord_keeps
    | with_reducible apply State.raise_keeps
    | with_reducible apply State.start_keeps
    | with_reducible apply keeps_next
    | with_reducible apply keeps_foldl
    | with_reducible apply keeps_foldl1
    | with_reducible exact Or.inr (by assumption)
    | with_reducible exact Or.inl rfl
    | dsimp only
    | (simp only [keeps_mk_eq]; with_reducible apply keeps_mk)
    | with_reducible apply keeps_ite
    | with_reducible apply keeps_ite1
    | split)

theorem execSlackMinReset_keeps {W : List Part} {Q : Nat → Bool} {s0 : State} {r : Req} {b : Fin 32} {s : State}
    (w50 : Q 50 = true) (wiCode_8 : Q (iCode 8) = true) (wiFn_n : ∀ n, Q (iFn n) = true) (wpgEvr : Q pgEvr = true) (wpgPwr : Q pgPwr = true) (wpgSys : Q pgSys = true) (wrecorder : Part.recorder ∈ W) (wfield : Part.field ∈ W)
    (hK : Keeps W Q s0 s) : Res.Keeps W Q s0 (execSlackMinReset r b s) := by
  unfold execSlackMinReset
  repeat' (first
    | with_reducible assumption
    | with_reducible exact id
    | with_reducible exact fun k => Mem.wf_writeBytes k
    | with_reducible exact fun k => Mem.wf_erase k
    | with_reducible exact fun k => SMap.wf_set k
    | with_reducible exact fun k => SMap.wf_drop k
    | with_reducible exact fun k => SMap.wf_foldl k
    | with_reducible exact fun k => SMap.wf_foldl (SMap.wf_drop k)
    | with_reducible exact fun _ _ k => absurd k List.not_mem_nil
    | intro _
    | with_reducible exact wiFn_n _
    | with_reducible apply State.access_keeps
    | with_reducible apply State.start_keeps
    | with_reducible apply State.wr_keeps
    | with_reducible apply keeps_next
    | with_reducible apply keeps_foldl
    | with_reducible apply keeps_foldl1
    | with_reducible exact Or.inr (by assumption)
    | with_reducible exact Or.inl rfl
    | dsimp only
    | (simp only [keeps_mk_eq]; with_reducible apply keeps_mk)
    | with_reducible apply keeps_ite
    | with_reducible apply keeps_ite1
    | split)

theorem State.reqStat_keeps {W : List Part} {Q : Nat → Bool} {s0 : State} {s : State} {r : Req} {d : Nat} {status : Nat}
    (wpgPwr : Q pgPwr = true)
    (hK : Keeps W Q s0 s) : Keeps W Q s0 (State.reqStat s r d status) := by
  unfold State.reqStat
  repeat' (first
    | with_reducible assumption
    | with_reducible exact id
    | with_reducible exact fun k => Mem.wf_writeBytes k
    | with_reducible exact fun k => Mem.wf_erase k
    | with_reducible exact fun k => SMap.wf_set k
    | with_reducible exact fun k => SMap.wf_drop k
    | with_reducible exact fun k => SMap.wf_foldl k
    | with_reducible exact fun k => SMap.wf_foldl (SMap.wf_drop k)
    | with_reducible exact fun _ _ k => absurd k List.not_mem_nil
    | intro _
    | with_reducible apply State.wr_keeps
    | with_reducible apply keeps_next
    | with_reducible apply keeps_foldl
    | with_reducible apply keeps_foldl1
    | with_reducible exact Or.inr (by assumption)
    | with_reducible exact Or.inl rfl
    | dsimp only
    | (simp only [keeps_mk_eq]; with_reducible apply keeps_mk)
    | with_reducible apply keeps_ite
    | with_reducible apply keeps_ite1
    | split)

theorem State.reqRefused_keeps {W : List Part} {Q : Nat → Bool} {s0 : State} {s : State} {r : Req} {d : Nat} {status : Nat}
    (wiCode_9 : Q (iCode 9) = true) (wiFn_n : ∀ n, Q (iFn n) = true) (wpgEvr : Q pgEvr = true) (wpgPwr : Q pgPwr = true) (wrecorder : Part.recorder ∈ W)
    (hK : Keeps W Q s0 s) : Keeps W Q s0 (State.reqRefused s r d status) := by
  unfold State.reqRefused
  repeat' (first
    | with_reducible assumption
    | with_reducible exact id
    | with_reducible exact fun k => Mem.wf_writeBytes k
    | with_reducible exact fun k => Mem.wf_erase k
    | with_reducible exact fun k => SMap.wf_set k
    | with_reducible exact fun k => SMap.wf_drop k
    | with_reducible exact fun k => SMap.wf_foldl k
    | with_reducible exact fun k => SMap.wf_foldl (SMap.wf_drop k)
    | with_reducible exact fun _ _ k => absurd k List.not_mem_nil
    | intro _
    | with_reducible exact wiFn_n _
    | with_reducible apply State.reqStat_keeps
    | with_reducible apply State.wrB_keeps
    | with_reducible apply State.bump_keeps
    | with_reducible apply State.report_keeps
    | with_reducible apply keeps_next
    | with_reducible apply keeps_foldl
    | with_reducible apply keeps_foldl1
    | with_reducible exact Or.inr (by assumption)
    | with_reducible exact Or.inl rfl
    | dsimp only
    | (simp only [keeps_mk_eq]; with_reducible apply keeps_mk)
    | with_reducible apply keeps_ite
    | with_reducible apply keeps_ite1
    | split)

theorem State.domBusy_keeps {W : List Part} {Q : Nat → Bool} {s0 : State} {s : State} {d : Nat}
    (wpgPwr : Q pgPwr = true)
    (hK : Keeps W Q s0 s) : Keeps W Q s0 (State.domBusy s d) := by
  unfold State.domBusy
  repeat' (first
    | with_reducible assumption
    | with_reducible exact id
    | with_reducible exact fun k => Mem.wf_writeBytes k
    | with_reducible exact fun k => Mem.wf_erase k
    | with_reducible exact fun k => SMap.wf_set k
    | with_reducible exact fun k => SMap.wf_drop k
    | with_reducible exact fun k => SMap.wf_foldl k
    | with_reducible exact fun k => SMap.wf_foldl (SMap.wf_drop k)
    | with_reducible exact fun _ _ k => absurd k List.not_mem_nil
    | intro _
    | with_reducible apply State.setBits_keeps
    | with_reducible apply keeps_next
    | with_reducible apply keeps_foldl
    | with_reducible apply keeps_foldl1
    | with_reducible exact Or.inr (by assumption)
    | with_reducible exact Or.inl rfl
    | dsimp only
    | (simp only [keeps_mk_eq]; with_reducible apply keeps_mk)
    | with_reducible apply keeps_ite
    | with_reducible apply keeps_ite1
    | split)

theorem State.setClkGate_keeps {W : List Part} {Q : Nat → Bool} {s0 : State} {s : State} {v : Nat}
    (wpgClk : Q pgClk = true)
    (hK : Keeps W Q s0 s) : Keeps W Q s0 (State.setClkGate s v) := by
  unfold State.setClkGate
  repeat' (first
    | with_reducible assumption
    | with_reducible exact id
    | with_reducible exact fun k => Mem.wf_writeBytes k
    | with_reducible exact fun k => Mem.wf_erase k
    | with_reducible exact fun k => SMap.wf_set k
    | with_reducible exact fun k => SMap.wf_drop k
    | with_reducible exact fun k => SMap.wf_foldl k
    | with_reducible exact fun k => SMap.wf_foldl (SMap.wf_drop k)
    | with_reducible exact fun _ _ k => absurd k List.not_mem_nil
    | intro _
    | with_reducible apply State.wr_keeps
    | with_reducible apply keeps_next
    | with_reducible apply keeps_foldl
    | with_reducible apply keeps_foldl1
    | with_reducible exact Or.inr (by assumption)
    | with_reducible exact Or.inl rfl
    | dsimp only
    | (simp only [keeps_mk_eq]; with_reducible apply keeps_mk)
    | with_reducible apply keeps_ite
    | with_reducible apply keeps_ite1
    | split)

theorem State.clkWrite_keeps {W : List Part} {Q : Nat → Bool} {s0 : State} {s : State} {r : Req} {d : Word}
    (wiCode_10 : Q (iCode 10) = true) (wiFn_n : ∀ n, Q (iFn n) = true) (wpgClk : Q pgClk = true) (wpgEvr : Q pgEvr = true) (wpgPwr : Q pgPwr = true) (wrecorder : Part.recorder ∈ W)
    (hK : Keeps W Q s0 s) : Keeps W Q s0 (State.clkWrite s r d) := by
  unfold State.clkWrite
  repeat' (first
    | with_reducible assumption
    | with_reducible exact id
    | with_reducible exact fun k => Mem.wf_writeBytes k
    | with_reducible exact fun k => Mem.wf_erase k
    | with_reducible exact fun k => SMap.wf_set k
    | with_reducible exact fun k => SMap.wf_drop k
    | with_reducible exact fun k => SMap.wf_foldl k
    | with_reducible exact fun k => SMap.wf_foldl (SMap.wf_drop k)
    | with_reducible exact fun _ _ k => absurd k List.not_mem_nil
    | intro _
    | with_reducible exact wiFn_n _
    | with_reducible apply State.setClkGate_keeps
    | with_reducible apply State.wr_keeps
    | with_reducible apply State.report_keeps
    | with_reducible apply State.wrB_keeps
    | with_reducible apply keeps_next
    | with_reducible apply keeps_foldl
    | with_reducible apply keeps_foldl1
    | with_reducible exact Or.inr (by assumption)
    | with_reducible exact Or.inl rfl
    | dsimp only
    | (simp only [keeps_mk_eq]; with_reducible apply keeps_mk)
    | with_reducible apply keeps_ite
    | with_reducible apply keeps_ite1
    | split)

theorem execClkGateWrite_keeps {W : List Part} {Q : Nat → Bool} {s0 : State} {r : Req} {d : Word} {s : State}
    (w50 : Q 50 = true) (wiCode_10 : Q (iCode 10) = true) (wiCode_8 : Q (iCode 8) = true) (wiFn_n : ∀ n, Q (iFn n) = true) (wpgClk : Q pgClk = true) (wpgEvr : Q pgEvr = true) (wpgPwr : Q pgPwr = true) (wpgSys : Q pgSys = true) (wrecorder : Part.recorder ∈ W) (wfield : Part.field ∈ W)
    (hK : Keeps W Q s0 s) : Res.Keeps W Q s0 (execClkGateWrite r d s) := by
  unfold execClkGateWrite
  repeat' (first
    | with_reducible assumption
    | with_reducible exact id
    | with_reducible exact fun k => Mem.wf_writeBytes k
    | with_reducible exact fun k => Mem.wf_erase k
    | with_reducible exact fun k => SMap.wf_set k
    | with_reducible exact fun k => SMap.wf_drop k
    | with_reducible exact fun k => SMap.wf_foldl k
    | with_reducible exact fun k => SMap.wf_foldl (SMap.wf_drop k)
    | with_reducible exact fun _ _ k => absurd k List.not_mem_nil
    | intro _
    | with_reducible exact wiFn_n _
    | with_reducible apply State.access_keeps
    | with_reducible apply State.start_keeps
    | with_reducible apply State.clkWrite_keeps
    | with_reducible apply keeps_next
    | with_reducible apply keeps_foldl
    | with_reducible apply keeps_foldl1
    | with_reducible exact Or.inr (by assumption)
    | with_reducible exact Or.inl rfl
    | dsimp only
    | (simp only [keeps_mk_eq]; with_reducible apply keeps_mk)
    | with_reducible apply keeps_ite
    | with_reducible apply keeps_ite1
    | split)

theorem execAonXtalSwitch_keeps {W : List Part} {Q : Nat → Bool} {s0 : State} {s : State}
    (wpgClk : Q pgClk = true)
    (hK : Keeps W Q s0 s) : Res.Keeps W Q s0 (execAonXtalSwitch s) := by
  unfold execAonXtalSwitch
  repeat' (first
    | with_reducible assumption
    | with_reducible exact id
    | with_reducible exact fun k => Mem.wf_writeBytes k
    | with_reducible exact fun k => Mem.wf_erase k
    | with_reducible exact fun k => SMap.wf_set k
    | with_reducible exact fun k => SMap.wf_drop k
    | with_reducible exact fun k => SMap.wf_foldl k
    | with_reducible exact fun k => SMap.wf_foldl (SMap.wf_drop k)
    | with_reducible exact fun _ _ k => absurd k List.not_mem_nil
    | intro _
    | with_reducible apply State.wrB_keeps
    | with_reducible apply State.start_keeps
    | with_reducible apply keeps_next
    | with_reducible apply keeps_foldl
    | with_reducible apply keeps_foldl1
    | with_reducible exact Or.inr (by assumption)
    | with_reducible exact Or.inl rfl
    | dsimp only
    | (simp only [keeps_mk_eq]; with_reducible apply keeps_mk)
    | with_reducible apply keeps_ite
    | with_reducible apply keeps_ite1
    | split)

end Sys2Proof.Machine
end

