-- ==== Sys2Proof/Laws/KeepsChan.lean ====
section
/-! SUPPORT. What each function and command of Machine/Chan.lean keeps. -/
set_option linter.all false
set_option Elab.async false
namespace Sys2Proof.Machine

theorem State.setCh_keeps {W : List Part} {Q : Nat → Bool} {s0 : State} {s : State} {c : Nat} {x : Chan}
    (wchans : Part.chans ∈ W)
    (hK : Keeps W Q s0 s) : Keeps W Q s0 (State.setCh s c x) := by
  unfold State.setCh
  repeat' (first
    | with_reducible assumption
    | with_reducible exact id
    | with_reducible exact fun k => Mem.wf_writeBytes k
    | with_reducible exact fun k => Mem.wf_erase k
    | with_reducible exact fun k => SMap.wf_set k
    | with_reducible exact fun k => SMap.wf_drop k
    | with_reducible exact fun k => SMap.wf_foldl k
    | with_reducible exact fun k => SMap.wf_foldl (SMap.wf_drop k)
    | with_reducible exact fun _ _ k => absurd k List.not_mem_nil
    | intro _
    | with_reducible apply keeps_next
    | with_reducible apply keeps_foldl
    | with_reducible apply keeps_foldl1
    | with_reducible exact Or.inr (by assumption)
    | with_reducible exact Or.inl rfl
    | dsimp only
    | (simp only [keeps_mk_eq]; with_reducible apply keeps_mk)
    | with_reducible apply keeps_ite
    | with_reducible apply keeps_ite1
    | split)

theorem State.modCh_keeps {W : List Part} {Q : Nat → Bool} {s0 : State} {s : State} {c : Nat} {f : Chan → Chan}
    (wchans : Part.chans ∈ W)
    (hK : Keeps W Q s0 s) : Keeps W Q s0 (State.modCh s c f) := by
  unfold State.modCh
  repeat' (first
    | with_reducible assumption
    | with_reducible exact id
    | with_reducible exact fun k => Mem.wf_writeBytes k
    | with_reducible exact fun k => Mem.wf_erase k
    | with_reducible exact fun k => SMap.wf_set k
    | with_reducible exact fun k => SMap.wf_drop k
    | with_reducible exact fun k => SMap.wf_foldl k
    | with_reducible exact fun k => SMap.wf_foldl (SMap.wf_drop k)
    | with_reducible exact fun _ _ k => absurd k List.not_mem_nil
    | intro _
    | with_reducible apply State.setCh_keeps
    | with_reducible apply keeps_next
    | with_reducible apply keeps_foldl
    | with_reducible apply keeps_foldl1
    | with_reducible exact Or.inr (by assumption)
    | with_reducible exact Or.inl rfl
    | dsimp only
    | (simp only [keeps_mk_eq]; with_reducible apply keeps_mk)
    | with_reducible apply keeps_ite
    | with_reducible apply keeps_ite1
    | split)

theorem State.setBk_keeps {W : List Part} {Q : Nat → Bool} {s0 : State} {s : State} {b : Nat} {x : Bank}
    (wbanks : Part.banks ∈ W)
    (hK : Keeps W Q s0 s) : Keeps W Q s0 (State.setBk s b x) := by
  unfold State.setBk
  repeat' (first
    | with_reducible assumption
    | with_reducible exact id
    | with_reducible exact fun k => Mem.wf_writeBytes k
    | with_reducible exact fun k => Mem.wf_erase k
    | with_reducible exact fun k => SMap.wf_set k
    | with_reducible exact fun k => SMap.wf_drop k
    | with_reducible exact fun k => SMap.wf_foldl k
    | with_reducible exact fun k => SMap.wf_foldl (SMap.wf_drop k)
    | with_reducible exact fun _ _ k => absurd k List.not_mem_nil
    | intro _
    | with_reducible apply keeps_next
    | with_reducible apply keeps_foldl
    | with_reducible apply keeps_foldl1
    | with_reducible exact Or.inr (by assumption)
    | with_reducible exact Or.inl rfl
    | dsimp only
    | (simp only [keeps_mk_eq]; with_reducible apply keeps_mk)
    | with_reducible apply keeps_ite
    | with_reducible apply keeps_ite1
    | split)

theorem State.modBk_keeps {W : List Part} {Q : Nat → Bool} {s0 : State} {s : State} {b : Nat} {f : Bank → Bank}
    (wbanks : Part.banks ∈ W)
    (hK : Keeps W Q s0 s) : Keeps W Q s0 (State.modBk s b f) := by
  unfold State.modBk
  repeat' (first
    | with_reducible assumption
    | with_reducible exact id
    | with_reducible exact fun k => Mem.wf_writeBytes k
    | with_reducible exact fun k => Mem.wf_erase k
    | with_reducible exact fun k => SMap.wf_set k
    | with_reducible exact fun k => SMap.wf_drop k
    | with_reducible exact fun k => SMap.wf_foldl k
    | with_reducible exact fun k => SMap.wf_foldl (SMap.wf_drop k)
    | with_reducible exact fun _ _ k => absurd k List.not_mem_nil
    | intro _
    | with_reducible apply State.setBk_keeps
    | with_reducible apply keeps_next
    | with_reducible apply keeps_foldl
    | with_reducible apply keeps_foldl1
    | with_reducible exact Or.inr (by assumption)
    | with_reducible exact Or.inl rfl
    | dsimp only
    | (simp only [keeps_mk_eq]; with_reducible apply keeps_mk)
    | with_reducible apply keeps_ite
    | with_reducible apply keeps_ite1
    | split)

theorem State.setCst_keeps {W : List Part} {Q : Nat → Bool} {s0 : State} {s : State} {c : Nat} {v : Nat}
    (wpgChn_c : Q (pgChn c) = true)
    (hK : Keeps W Q s0 s) : Keeps W Q s0 (State.setCst s c v) := by
  unfold State.setCst
  repeat' (first
    | with_reducible assumption
    | with_reducible exact id
    | with_reducible exact fun k => Mem.wf_writeBytes k
    | with_reducible exact fun k => Mem.wf_erase k
    | with_reducible exact fun k => SMap.wf_set k
    | with_reducible exact fun k => SMap.wf_drop k
    | with_reducible exact fun k => SMap.wf_foldl k
    | with_reducible exact fun k => SMap.wf_foldl (SMap.wf_drop k)
    | with_reducible exact fun _ _ k => absurd k List.not_mem_nil
    | intro _
    | with_reducible apply State.wr_keeps
    | with_reducible apply keeps_next
    | with_reducible apply keeps_foldl
    | with_reducible apply keeps_foldl1
    | with_reducible exact Or.inr (by assumption)
    | with_reducible exact Or.inl rfl
    | dsimp only
    | (simp only [keeps_mk_eq]; with_reducible apply keeps_mk)
    | with_reducible apply keeps_ite
    | with_reducible apply keeps_ite1
    | split)

theorem State.setRole_keeps {W : List Part} {Q : Nat → Bool} {s0 : State} {s : State} {b : Nat} {v : Nat}
    (wpair : Part.pair ∈ W)
    (hK : Keeps W Q s0 s) : Keeps W Q s0 (State.setRole s b v) := by
  unfold State.setRole
  repeat' (first
    | with_reducible assumption
    | with_reducible exact id
    | with_reducible exact fun k => Mem.wf_writeBytes k
    | with_reducible exact fun k => Mem.wf_erase k
    | with_reducible exact fun k => SMap.wf_set k
    | with_reducible exact fun k => SMap.wf_drop k
    | with_reducible exact fun k => SMap.wf_foldl k
    | with_reducible exact fun k => SMap.wf_foldl (SMap.wf_drop k)
    | with_reducible exact fun _ _ k => absurd k List.not_mem_nil
    | intro _
    | with_reducible apply keeps_next
    | with_reducible apply keeps_foldl
    | with_reducible apply keeps_foldl1
    | with_reducible exact Or.inr (by assumption)
    | with_reducible exact Or.inl rfl
    | dsimp only
    | (simp only [keeps_mk_eq]; with_reducible apply keeps_mk)
    | with_reducible apply keeps_ite
    | with_reducible apply keeps_ite1
    | split)

theorem State.offer_keeps {W : List Part} {Q : Nat → Bool} {s0 : State} {s : State} {n : Nat} {it : Item}
    (wports : Part.ports ∈ W)
    (hK : Keeps W Q s0 s) : Keeps W Q s0 (State.offer s n it) := by
  unfold State.offer
  repeat' (first
    | with_reducible assumption
    | with_reducible exact id
    | with_reducible exact fun k => Mem.wf_writeBytes k
    | with_reducible exact fun k => Mem.wf_erase k
    | with_reducible exact fun k => SMap.wf_set k
    | with_reducible exact fun k => SMap.wf_drop k
    | with_reducible exact fun k => SMap.wf_foldl k
    | with_reducible exact fun k => SMap.wf_foldl (SMap.wf_drop k)
    | with_reducible exact fun _ _ k => absurd k List.not_mem_nil
    | intro _
    | with_reducible apply keeps_next
    | with_reducible apply keeps_foldl
    | with_reducible apply keeps_foldl1
    | with_reducible exact Or.inr (by assumption)
    | with_reducible exact Or.inl rfl
    | dsimp only
    | (simp only [keeps_mk_eq]; with_reducible apply keeps_mk)
    | with_reducible apply keeps_ite
    | with_reducible apply keeps_ite1
    | split)

theorem State.grdTell_keeps {W : List Part} {Q : Nat → Bool} {s0 : State} {s : State} {m : GrdMsg}
    (wgrading : Part.grading ∈ W)
    (hK : Keeps W Q s0 s) : Keeps W Q s0 (State.grdTell s m) := by
  unfold State.grdTell
  repeat' (first
    | with_reducible assumption
    | with_reducible exact id
    | with_reducible exact fun k => Mem.wf_writeBytes k
    | with_reducible exact fun k => Mem.wf_erase k
    | with_reducible exact fun k => SMap.wf_set k
    | with_reducible exact fun k => SMap.wf_drop k
    | with_reducible exact fun k => SMap.wf_foldl k
    | with_reducible exact fun k => SMap.wf_foldl (SMap.wf_drop k)
    | with_reducible exact fun _ _ k => absurd k List.not_mem_nil
    | intro _
    | with_reducible apply keeps_next
    | with_reducible apply keeps_foldl
    | with_reducible apply keeps_foldl1
    | with_reducible exact Or.inr (by assumption)
    | with_reducible exact Or.inl rfl
    | dsimp only
    | (simp only [keeps_mk_eq]; with_reducible apply keeps_mk)
    | with_reducible apply keeps_ite
    | with_reducible apply keeps_ite1
    | split)

theorem State.postStepEnd_keeps {W : List Part} {Q : Nat → Bool} {s0 : State} {s : State} {src : State} {c : Nat} {e : StepEnd} {next : Nat}
    (wiFn_n : ∀ n, Q (iFn n) = true) (wpgChn_c : Q (pgChn c) = true) (wpgStp : Q pgStp = true) (wchans : Part.chans ∈ W) (wports : Part.ports ∈ W) (wgrading : Part.grading ∈ W)
    (hK : Keeps W Q s0 s) : Keeps W Q s0 (State.postStepEnd s src c e next) := by
  unfold State.postStepEnd
  repeat' (first
    | with_reducible assumption
    | with_reducible exact id
    | with_reducible exact fun k => Mem.wf_writeBytes k
    | with_reducible exact fun k => Mem.wf_erase k
    | with_reducible exact fun k => SMap.wf_set k
    | with_reducible exact fun k => SMap.wf_drop k
    | with_reducible exact fun k => SMap.wf_foldl k
    | with_reducible exact fun k => SMap.wf_foldl (SMap.wf_drop k)
    | with_reducible exact fun _ _ k => absurd k List.not_mem_nil
    | intro _
    | with_reducible exact wiFn_n _
    | with_reducible apply State.modCh_keeps
    | with_reducible apply State.wr_keeps
    | with_reducible apply State.raise_keeps
    | with_reducible apply State.bump_keeps
    | with_reducible apply State.grdTell_keeps
    | with_reducible apply State.offer_keeps
    | with_reducible apply keeps_next
    | with_reducible apply keeps_foldl
    | with_reducible apply keeps_foldl1
    | with_reducible exact Or.inr (by assumption)
    | with_reducible exact Or.inl rfl
    | dsimp only
    | (simp only [keeps_mk_eq]; with_reducible apply keeps_mk)
    | with_reducible apply keeps_ite
    | with_reducible apply keeps_ite1
    | split)

theorem State.clearLaw_keeps {W : List Part} {Q : Nat → Bool} {s0 : State} {s : State} {c : Nat}
    (wpgChn_c : Q (pgChn c) = true) (wchans : Part.chans ∈ W)
    (hK : Keeps W Q s0 s) : Keeps W Q s0 (State.clearLaw s c) := by
  unfold State.clearLaw
  repeat' (first
    | with_reducible assumption
    | with_reducible exact id
    | with_reducible exact fun k => Mem.wf_writeBytes k
    | with_reducible exact fun k => Mem.wf_erase k
    | with_reducible exact fun k => SMap.wf_set k
    | with_reducible exact fun k => SMap.wf_drop k
    | with_reducible exact fun k => SMap.wf_foldl k
    | with_reducible exact fun k => SMap.wf_foldl (SMap.wf_drop k)
    | with_reducible exact fun _ _ k => absurd k List.not_mem_nil
    | intro _
    | with_reducible apply State.wr_keeps
    | with_reducible apply State.modCh_keeps
    | with_reducible apply keeps_next
    | with_reducible apply keeps_foldl
    | with_reducible apply keeps_foldl1
    | with_reducible exact Or.inr (by assumption)
    | with_reducible exact Or.inl rfl
    | dsimp only
    | (simp only [keeps_mk_eq]; with_reducible apply keeps_mk)
    | with_reducible apply keeps_ite
    | with_reducible apply keeps_ite1
    | split)

theorem State.clearLocal_keeps {W : List Part} {Q : Nat → Bool} {s0 : State} {s : State} {c : Nat}
    (wpgChn_c : Q (pgChn c) = true)
    (hK : Keeps W Q s0 s) : Keeps W Q s0 (State.clearLocal s c) := by
  unfold State.clearLocal
  repeat' (first
    | with_reducible assumption
    | with_reducible exact id
    | with_reducible exact fun k => Mem.wf_writeBytes k
    | with_reducible exact fun k => Mem.wf_erase k
    | with_reducible exact fun k => SMap.wf_set k
    | with_reducible exact fun k => SMap.wf_drop k
    | with_reducible exact fun k => SMap.wf_foldl k
    | with_reducible exact fun k => SMap.wf_foldl (SMap.wf_drop k)
    | with_reducible exact fun _ _ k => absurd k List.not_mem_nil
    | intro _
    | with_reducible apply State.wr_keeps
    | with_reducible apply keeps_next
    | with_reducible apply keeps_foldl
    | with_reducible apply keeps_foldl1
    | with_reducible exact Or.inr (by assumption)
    | with_reducible exact Or.inl rfl
    | dsimp only
    | (simp only [keeps_mk_eq]; with_reducible apply keeps_mk)
    | with_reducible apply keeps_ite
    | with_reducible apply keeps_ite1
    | split)

theorem State.withdraw_keeps {W : List Part} {Q : Nat → Bool} {s0 : State} {s : State} {c : Nat}
    (wpgChn_c : Q (pgChn c) = true) (wchans : Part.chans ∈ W)
    (hK : Keeps W Q s0 s) : Keeps W Q s0 (State.withdraw s c) := by
  unfold State.withdraw
  repeat' (first
    | with_reducible assumption
    | with_reducible exact id
    | with_reducible exact fun k => Mem.wf_writeBytes k
    | with_reducible exact fun k => Mem.wf_erase k
    | with_reducible exact fun k => SMap.wf_set k
    | with_reducible exact fun k => SMap.wf_drop k
    | with_reducible exact fun k => SMap.wf_foldl k
    | with_reducible exact fun k => SMap.wf_foldl (SMap.wf_drop k)
    | with_reducible exact fun _ _ k => absurd k List.not_mem_nil
    | intro _
    | with_reducible apply State.modCh_keeps
    | with_reducible apply State.wr_keeps
    | with_reducible apply keeps_next
    | with_reducible apply keeps_foldl
    | with_reducible apply keeps_foldl1
    | with_reducible exact Or.inr (by assumption)
    | with_reducible exact Or.inl rfl
    | dsimp only
    | (simp only [keeps_mk_eq]; with_reducible apply keeps_mk)
    | with_reducible apply keeps_ite
    | with_reducible apply keeps_ite1
    | split)

theorem State.disarm_keeps {W : List Part} {Q : Nat → Bool} {s0 : State} {s : State} {c : Nat} {k : Nat}
    (wiFn_n : ∀ n, Q (iFn n) = true) (wpgChn_c : Q (pgChn c) = true) (wpgStp : Q pgStp = true) (wchans : Part.chans ∈ W) (wports : Part.ports ∈ W) (wgrading : Part.grading ∈ W)
    (hK : Keeps W Q s0 s) : Keeps W Q s0 (State.disarm s c k) := by
  unfold State.disarm
  repeat' (first
    | with_reducible assumption
    | with_reducible exact id
    | with_reducible exact fun k => Mem.wf_writeBytes k
    | with_reducible exact fun k => Mem.wf_erase k
    | with_reducible exact fun k => SMap.wf_set k
    | with_reducible exact fun k => SMap.wf_drop k
    | with_reducible exact fun k => SMap.wf_foldl k
    | with_reducible exact fun k => SMap.wf_foldl (SMap.wf_drop k)
    | with_reducible exact fun _ _ k => absurd k List.not_mem_nil
    | intro _
    | with_reducible exact wiFn_n _
    | with_reducible apply State.postStepEnd_keeps
    | with_reducible apply State.clearLocal_keeps
    | with_reducible apply State.clearLaw_keeps
    | with_reducible apply State.withdraw_keeps
    | with_reducible apply State.wr_keeps
    | with_reducible apply State.modCh_keeps
    | with_reducible apply State.setCst_keeps
    | with_reducible apply State.raise_keeps
    | with_reducible apply keeps_next
    | with_reducible apply keeps_foldl
    | with_reducible apply keeps_foldl1
    | with_reducible exact Or.inr (by assumption)
    | with_reducible exact Or.inl rfl
    | dsimp only
    | (simp only [keeps_mk_eq]; with_reducible apply keeps_mk)
    | with_reducible apply keeps_ite
    | with_reducible apply keeps_ite1
    | split)

theorem State.applyChan_keeps {W : List Part} {Q : Nat → Bool} {s0 : State} {s : State} {c : Nat}
    (wiShadow__pgChn_c_ : Q (iShadow (pgChn c)) = true) (wpgChn_c : Q (pgChn c) = true) (wchans : Part.chans ∈ W)
    (hK : Keeps W Q s0 s) : Keeps W Q s0 (State.applyChan s c) := by
  unfold State.applyChan
  repeat' (first
    | with_reducible assumption
    | with_reducible exact id
    | with_reducible exact fun k => Mem.wf_writeBytes k
    | with_reducible exact fun k => Mem.wf_erase k
    | with_reducible exact fun k => SMap.wf_set k
    | with_reducible exact fun k => SMap.wf_drop k
    | with_reducible exact fun k => SMap.wf_foldl k
    | with_reducible exact fun k => SMap.wf_foldl (SMap.wf_drop k)
    | with_reducible exact fun _ _ k => absurd k List.not_mem_nil
    | intro _
    | with_reducible apply State.applyShadows_keeps
    | with_reducible apply State.modCh_keeps
    | with_reducible apply keeps_next
    | with_reducible apply keeps_foldl
    | with_reducible apply keeps_foldl1
    | with_reducible exact Or.inr (by assumption)
    | with_reducible exact Or.inl rfl
    | dsimp only
    | (simp only [keeps_mk_eq]; with_reducible apply keeps_mk)
    | with_reducible apply keeps_ite
    | with_reducible apply keeps_ite1
    | split)

end Sys2Proof.Machine
end

