-- ==== Sys2Proof/Laws/KeepsBridge.lean ====
section
/-! SUPPORT. What each function and command of Machine/Bridge.lean keeps. -/
set_option linter.all false
set_option Elab.async false
namespace Sys2Proof.Machine

theorem State.setTag_keeps {W : List Part} {Q : Nat → Bool} {s0 : State} {s : State} {t : Nat} {x : Tag}
    (wbridge : Part.bridge ∈ W)
    (hK : Keeps W Q s0 s) : Keeps W Q s0 (State.setTag s t x) := by
  unfold State.setTag
  repeat' (first
    | with_reducible assumption
    | with_reducible exact id
    | with_reducible exact fun k => Mem.wf_writeBytes k
    | with_reducible exact fun k => Mem.wf_erase k
    | with_reducible exact fun k => SMap.wf_set k
    | with_reducible exact fun k => SMap.wf_drop k
    | with_reducible exact fun k => SMap.wf_foldl k
    | with_reducible exact fun k => SMap.wf_foldl (SMap.wf_drop k)
    | with_reducible exact fun _ _ k => absurd k List.not_mem_nil
    | intro _
    | with_reducible apply keeps_next
    | with_reducible apply keeps_foldl
    | with_reducible apply keeps_foldl1
    | with_reducible exact Or.inr (by assumption)
    | with_reducible exact Or.inl rfl
    | dsimp only
    | (simp only [keeps_mk_eq]; with_reducible apply keeps_mk)
    | with_reducible apply keeps_ite
    | with_reducible apply keeps_ite1
    | split)

theorem State.lateEntry_keeps {W : List Part} {Q : Nat → Bool} {s0 : State} {s : State} {t : Nat} {status : Nat}
    (wiFn_n : ∀ n, Q (iFn n) = true) (wpgBrg : Q pgBrg = true)
    (hK : Keeps W Q s0 s) : Keeps W Q s0 (State.lateEntry s t status) := by
  unfold State.lateEntry
  repeat' (first
    | with_reducible assumption
    | with_reducible exact id
    | with_reducible exact fun k => Mem.wf_writeBytes k
    | with_reducible exact fun k => Mem.wf_erase k
    | with_reducible exact fun k => SMap.wf_set k
    | with_reducible exact fun k => SMap.wf_drop k
    | with_reducible exact fun k => SMap.wf_foldl k
    | with_reducible exact fun k => SMap.wf_foldl (SMap.wf_drop k)
    | with_reducible exact fun _ _ k => absurd k List.not_mem_nil
    | intro _
    | with_reducible exact wiFn_n _
    | with_reducible apply State.raise_keeps
    | with_reducible apply State.bump_keeps
    | with_reducible apply State.wr_keeps
    | with_reducible apply State.fnEvent_keeps
    | with_reducible apply keeps_next
    | with_reducible apply keeps_foldl
    | with_reducible apply keeps_foldl1
    | with_reducible exact Or.inr (by assumption)
    | with_reducible exact Or.inl rfl
    | dsimp only
    | (simp only [keeps_mk_eq]; with_reducible apply keeps_mk)
    | with_reducible apply keeps_ite
    | with_reducible apply keeps_ite1
    | split)

theorem State.freeTag_keeps {W : List Part} {Q : Nat → Bool} {s0 : State} {s : State} {t : Nat}
    (wbridge : Part.bridge ∈ W)
    (hK : Keeps W Q s0 s) : Keeps W Q s0 (State.freeTag s t) := by
  unfold State.freeTag
  repeat' (first
    | with_reducible assumption
    | with_reducible exact id
    | with_reducible exact fun k => Mem.wf_writeBytes k
    | with_reducible exact fun k => Mem.wf_erase k
    | with_reducible exact fun k => SMap.wf_set k
    | with_reducible exact fun k => SMap.wf_drop k
    | with_reducible exact fun k => SMap.wf_foldl k
    | with_reducible exact fun k => SMap.wf_foldl (SMap.wf_drop k)
    | with_reducible exact fun _ _ k => absurd k List.not_mem_nil
    | intro _
    | with_reducible apply State.setTag_keeps
    | with_reducible apply keeps_next
    | with_reducible apply keeps_foldl
    | with_reducible apply keeps_foldl1
    | with_reducible exact Or.inr (by assumption)
    | with_reducible exact Or.inl rfl
    | dsimp only
    | (simp only [keeps_mk_eq]; with_reducible apply keeps_mk)
    | with_reducible apply keeps_ite
    | with_reducible apply keeps_ite1
    | split)

theorem State.discardTag_keeps {W : List Part} {Q : Nat → Bool} {s0 : State} {s : State} {t : Nat}
    (wiFn_n : ∀ n, Q (iFn n) = true) (wpgBrg : Q pgBrg = true) (wbridge : Part.bridge ∈ W)
    (hK : Keeps W Q s0 s) : Keeps W Q s0 (State.discardTag s t) := by
  unfold State.discardTag
  repeat' (first
    | with_reducible assumption
    | with_reducible exact id
    | with_reducible exact fun k => Mem.wf_writeBytes k
    | with_reducible exact fun k => Mem.wf_erase k
    | with_reducible exact fun k => SMap.wf_set k
    | with_reducible exact fun k => SMap.wf_drop k
    | with_reducible exact fun k => SMap.wf_foldl k
    | with_reducible exact fun k => SMap.wf_foldl (SMap.wf_drop k)
    | with_reducible exact fun _ _ k => absurd k List.not_mem_nil
    | intro _
    | with_reducible exact wiFn_n _
    | with_reducible apply State.raise_keeps
    | with_reducible apply State.bump_keeps
    | with_reducible apply State.lateEntry_keeps
    | with_reducible apply State.freeTag_keeps
    | with_reducible apply keeps_next
    | with_reducible apply keeps_foldl
    | with_reducible apply keeps_foldl1
    | with_reducible exact Or.inr (by assumption)
    | with_reducible exact Or.inl rfl
    | dsimp only
    | (simp only [keeps_mk_eq]; with_reducible apply keeps_mk)
    | with_reducible apply keeps_ite
    | with_reducible apply keeps_ite1
    | split)

theorem State.endTag_keeps {W : List Part} {Q : Nat → Bool} {s0 : State} {s : State} {t : Nat} {status : Nat} {data : Nat}
    (wiFn_n : ∀ n, Q (iFn n) = true) (wpgBrg : Q pgBrg = true) (wbanks : Part.banks ∈ W) (wbridge : Part.bridge ∈ W)
    (hK : Keeps W Q s0 s) : Keeps W Q s0 (State.endTag s t status data) := by
  unfold State.endTag
  repeat' (first
    | with_reducible assumption
    | with_reducible exact id
    | with_reducible exact fun k => Mem.wf_writeBytes k
    | with_reducible exact fun k => Mem.wf_erase k
    | with_reducible exact fun k => SMap.wf_set k
    | with_reducible exact fun k => SMap.wf_drop k
    | with_reducible exact fun k => SMap.wf_foldl k
    | with_reducible exact fun k => SMap.wf_foldl (SMap.wf_drop k)
    | with_reducible exact fun _ _ k => absurd k List.not_mem_nil
    | intro _
    | with_reducible exact wiFn_n _
    | with_reducible apply State.modBk_keeps
    | with_reducible apply State.setTag_keeps
    | with_reducible apply State.freeTag_keeps
    | with_reducible apply State.lateEntry_keeps
    | with_reducible apply State.discardTag_keeps
    | with_reducible apply keeps_next
    | with_reducible apply keeps_foldl
    | with_reducible apply keeps_foldl1
    | with_reducible exact Or.inr (by assumption)
    | with_reducible exact Or.inl rfl
    | dsimp only
    | (simp only [keeps_mk_eq]; with_reducible apply keeps_mk)
    | with_reducible apply keeps_ite
    | with_reducible apply keeps_ite1
    | split)

theorem State.brgLink_keeps {W : List Part} {Q : Nat → Bool} {s0 : State} {s : State} {b : Nat}
    (wiFn_n : ∀ n, Q (iFn n) = true) (wpgBrg : Q pgBrg = true) (wbanks : Part.banks ∈ W) (wbridge : Part.bridge ∈ W)
    (hK : Keeps W Q s0 s) : Keeps W Q s0 (State.brgLink s b) := by
  unfold State.brgLink
  repeat' (first
    | with_reducible assumption
    | with_reducible exact id
    | with_reducible exact fun k => Mem.wf_writeBytes k
    | with_reducible exact fun k => Mem.wf_erase k
    | with_reducible exact fun k => SMap.wf_set k
    | with_reducible exact fun k => SMap.wf_drop k
    | with_reducible exact fun k => SMap.wf_foldl k
    | with_reducible exact fun k => SMap.wf_foldl (SMap.wf_drop k)
    | with_reducible exact fun _ _ k => absurd k List.not_mem_nil
    | intro _
    | with_reducible exact wiFn_n _
    | with_reducible apply State.endTag_keeps
    | with_reducible apply keeps_next
    | with_reducible apply keeps_foldl
    | with_reducible apply keeps_foldl1
    | with_reducible exact Or.inr (by assumption)
    | with_reducible exact Or.inl rfl
    | dsimp only
    | (simp only [keeps_mk_eq]; with_reducible apply keeps_mk)
    | with_reducible apply keeps_ite
    | with_reducible apply keeps_ite1
    | split)

theorem State.brgFill_keeps {W : List Part} {Q : Nat → Bool} {s0 : State} {s : State} {b : Nat} {m : Nat} {free : Nat}
    (wbanks : Part.banks ∈ W) (wbridge : Part.bridge ∈ W)
    (hK : Keeps W Q s0 s) : Keeps W Q s0 (State.brgFill s b m free).1 := by
  unfold State.brgFill
  repeat' (first
    | with_reducible assumption
    | with_reducible exact id
    | with_reducible exact fun k => Mem.wf_writeBytes k
    | with_reducible exact fun k => Mem.wf_erase k
    | with_reducible exact fun k => SMap.wf_set k
    | with_reducible exact fun k => SMap.wf_drop k
    | with_reducible exact fun k => SMap.wf_foldl k
    | with_reducible exact fun k => SMap.wf_foldl (SMap.wf_drop k)
    | with_reducible exact fun _ _ k => absurd k List.not_mem_nil
    | intro _
    | with_reducible apply State.setTag_keeps
    | with_reducible apply State.modBk_keeps
    | with_reducible apply keeps_next
    | with_reducible apply keeps_foldl
    | with_reducible apply keeps_foldl1
    | with_reducible exact Or.inr (by assumption)
    | with_reducible exact Or.inl rfl
    | dsimp only
    | (simp only [keeps_mk_eq]; with_reducible apply keeps_mk)
    | with_reducible apply keeps_ite
    | with_reducible apply keeps_ite1
    | split)

theorem State.brgFill_keeps_eq {W : List Part} {Q : Nat → Bool} {s0 tt : State} {vv : List Nat} {s : State} {b : Nat} {m : Nat} {free : Nat}
    (wbanks : Part.banks ∈ W) (wbridge : Part.bridge ∈ W)
    (hK : Keeps W Q s0 s) (e : (State.brgFill s b m free) = (tt, vv)) : Keeps W Q s0 tt := by
  have := @State.brgFill_keeps W Q s0 s b m free wbanks wbridge hK
  rwa [e] at this

theorem State.brgResend_keeps {W : List Part} {Q : Nat → Bool} {s0 : State} {s : State} {b : Nat} {m : Nat}
    (wiFn_n : ∀ n, Q (iFn n) = true) (wpgBrg : Q pgBrg = true) (wbanks : Part.banks ∈ W) (wbridge : Part.bridge ∈ W)
    (hK : Keeps W Q s0 s) : Keeps W Q s0 (State.brgResend s b m) := by
  unfold State.brgResend
  repeat' (first
    | with_reducible assumption
    | with_reducible exact id
    | with_reducible exact fun k => Mem.wf_writeBytes k
    | with_reducible exact fun k => Mem.wf_erase k
    | with_reducible exact fun k => SMap.wf_set k
    | with_reducible exact fun k => SMap.wf_drop k
    | with_reducible exact fun k => SMap.wf_foldl k
    | with_reducible exact fun k => SMap.wf_foldl (SMap.wf_drop k)
    | with_reducible exact fun _ _ k => absurd k List.not_mem_nil
    | intro _
    | with_reducible exact wiFn_n _
    | with_reducible apply State.endTag_keeps
    | with_reducible apply State.bump_keeps
    | with_reducible apply State.modBk_keeps
    | with_reducible apply keeps_next
    | with_reducible apply keeps_foldl
    | with_reducible apply keeps_foldl1
    | with_reducible exact Or.inr (by assumption)
    | with_reducible exact Or.inl rfl
    | dsimp only
    | (simp only [keeps_mk_eq]; with_reducible apply keeps_mk)
    | with_reducible apply keeps_ite
    | with_reducible apply keeps_ite1
    | split)

theorem State.brgIssue_keeps {W : List Part} {Q : Nat → Bool} {s0 : State} {s : State} {r : Req} {d : Word}
    (wiReq_n : ∀ n, Q (iReq n) = true) (wbanks : Part.banks ∈ W) (wbridge : Part.bridge ∈ W)
    (hK : Keeps W Q s0 s) : Keeps W Q s0 (State.brgIssue s r d) := by
  unfold State.brgIssue
  repeat' (first
    | with_reducible assumption
    | with_reducible exact id
    | with_reducible exact fun k => Mem.wf_writeBytes k
    | with_reducible exact fun k => Mem.wf_erase k
    | with_reducible exact fun k => SMap.wf_set k
    | with_reducible exact fun k => SMap.wf_drop k
    | with_reducible exact fun k => SMap.wf_foldl k
    | with_reducible exact fun k => SMap.wf_foldl (SMap.wf_drop k)
    | with_reducible exact fun _ _ k => absurd k List.not_mem_nil
    | intro _
    | with_reducible exact wiReq_n _
    | with_reducible apply State.wr_keeps
    | with_reducible apply State.setTag_keeps
    | with_reducible apply State.modBk_keeps
    | with_reducible apply keeps_next
    | with_reducible apply keeps_foldl
    | with_reducible apply keeps_foldl1
    | with_reducible exact Or.inr (by assumption)
    | with_reducible exact Or.inl rfl
    | dsimp only
    | (simp only [keeps_mk_eq]; with_reducible apply keeps_mk)
    | with_reducible apply keeps_ite
    | with_reducible apply keeps_ite1
    | split)

theorem execBrgRead_keeps {W : List Part} {Q : Nat → Bool} {s0 : State} {r : Req} {d : Word} {s : State}
    (w50 : Q 50 = true) (wiCode_8 : Q (iCode 8) = true) (wiFn_n : ∀ n, Q (iFn n) = true) (wiReq_n : ∀ n, Q (iReq n) = true) (wpgEvr : Q pgEvr = true) (wpgSys : Q pgSys = true) (wrecorder : Part.recorder ∈ W) (wbanks : Part.banks ∈ W) (wbridge : Part.bridge ∈ W) (wfield : Part.field ∈ W)
    (hK : Keeps W Q s0 s) : Res.Keeps W Q s0 (execBrgRead r d s) := by
  unfold execBrgRead
  repeat' (first
    | with_reducible assumption
    | with_reducible exact id
    | with_reducible exact fun k => Mem.wf_writeBytes k
    | with_reducible exact fun k => Mem.wf_erase k
    | with_reducible exact fun k => SMap.wf_set k
    | with_reducible exact fun k => SMap.wf_drop k
    | with_reducible exact fun k => SMap.wf_foldl k
    | with_reducible exact fun k => SMap.wf_foldl (SMap.wf_drop k)
    | with_reducible exact fun _ _ k => absurd k List.not_mem_nil
    | intro _
    | with_reducible exact wiFn_n _
    | with_reducible exact wiReq_n _
    | with_reducible apply State.access_keeps
    | with_reducible apply State.start_keeps
    | with_reducible apply State.brgIssue_keeps
    | with_reducible apply keeps_next
    | with_reducible apply keeps_foldl
    | with_reducible apply keeps_foldl1
    | with_reducible exact Or.inr (by assumption)
    | with_reducible exact Or.inl rfl
    | dsimp only
    | (simp only [keeps_mk_eq]; with_reducible apply keeps_mk)
    | with_reducible apply keeps_ite
    | with_reducible apply keeps_ite1
    | split)

theorem execBrgWrite_keeps {W : List Part} {Q : Nat → Bool} {s0 : State} {r : Req} {d : Word} {s : State}
    (w50 : Q 50 = true) (wiCode_8 : Q (iCode 8) = true) (wiFn_n : ∀ n, Q (iFn n) = true) (wiReq_n : ∀ n, Q (iReq n) = true) (wpgEvr : Q pgEvr = true) (wpgSys : Q pgSys = true) (wrecorder : Part.recorder ∈ W) (wbanks : Part.banks ∈ W) (wbridge : Part.bridge ∈ W) (wfield : Part.field ∈ W)
    (hK : Keeps W Q s0 s) : Res.Keeps W Q s0 (execBrgWrite r d s) := by
  unfold execBrgWrite
  repeat' (first
    | with_reducible assumption
    | with_reducible exact id
    | with_reducible exact fun k => Mem.wf_writeBytes k
    | with_reducible exact fun k => Mem.wf_erase k
    | with_reducible exact fun k => SMap.wf_set k
    | with_reducible exact fun k => SMap.wf_drop k
    | with_reducible exact fun k => SMap.wf_foldl k
    | with_reducible exact fun k => SMap.wf_foldl (SMap.wf_drop k)
    | with_reducible exact fun _ _ k => absurd k List.not_mem_nil
    | intro _
    | with_reducible exact wiFn_n _
    | with_reducible exact wiReq_n _
    | with_reducible apply State.access_keeps
    | with_reducible apply State.start_keeps
    | with_reducible apply State.brgIssue_keeps
    | with_reducible apply keeps_next
    | with_reducible apply keeps_foldl
    | with_reducible apply keeps_foldl1
    | with_reducible exact Or.inr (by assumption)
    | with_reducible exact Or.inl rfl
    | dsimp only
    | (simp only [keeps_mk_eq]; with_reducible apply keeps_mk)
    | with_reducible apply keeps_ite
    | with_reducible apply keeps_ite1
    | split)

theorem State.stray_keeps {W : List Part} {Q : Nat → Bool} {s0 : State} {s : State}
    (wiFn_n : ∀ n, Q (iFn n) = true) (wpgBrg : Q pgBrg = true)
    (hK : Keeps W Q s0 s) : Keeps W Q s0 (State.stray s) := by
  unfold State.stray
  repeat' (first
    | with_reducible assumption
    | with_reducible exact id
    | with_reducible exact fun k => Mem.wf_writeBytes k
    | with_reducible exact fun k => Mem.wf_erase k
    | with_reducible exact fun k => SMap.wf_set k
    | with_reducible exact fun k => SMap.wf_drop k
    | with_reducible exact fun k => SMap.wf_foldl k
    | with_reducible exact fun k => SMap.wf_foldl (SMap.wf_drop k)
    | with_reducible exact fun _ _ k => absurd k List.not_mem_nil
    | intro _
    | with_reducible exact wiFn_n _
    | with_reducible apply State.raise_keeps
    | with_reducible apply State.bump_keeps
    | with_reducible apply keeps_next
    | with_reducible apply keeps_foldl
    | with_reducible apply keeps_foldl1
    | with_reducible exact Or.inr (by assumption)
    | with_reducible exact Or.inl rfl
    | dsimp only
    | (simp only [keeps_mk_eq]; with_reducible apply keeps_mk)
    | with_reducible apply keeps_ite
    | with_reducible apply keeps_ite1
    | split)

theorem State.brgResponse_keeps {W : List Part} {Q : Nat → Bool} {s0 : State} {s : State} {b : Nat} {w : Nat} {dw : Nat}
    (wiFn_n : ∀ n, Q (iFn n) = true) (wpgBrg : Q pgBrg = true) (wbanks : Part.banks ∈ W) (wbridge : Part.bridge ∈ W)
    (hK : Keeps W Q s0 s) : Keeps W Q s0 (State.brgResponse s b w dw) := by
  unfold State.brgResponse
  repeat' (first
    | with_reducible assumption
    | with_reducible exact id
    | with_reducible exact fun k => Mem.wf_writeBytes k
    | with_reducible exact fun k => Mem.wf_erase k
    | with_reducible exact fun k => SMap.wf_set k
    | with_reducible exact fun k => SMap.wf_drop k
    | with_reducible exact fun k => SMap.wf_foldl k
    | with_reducible exact fun k => SMap.wf_foldl (SMap.wf_drop k)
    | with_reducible exact fun _ _ k => absurd k List.not_mem_nil
    | intro _
    | with_reducible exact wiFn_n _
    | with_reducible apply State.stray_keeps
    | with_reducible apply State.endTag_keeps
    | with_reducible apply keeps_next
    | with_reducible apply keeps_foldl
    | with_reducible apply keeps_foldl1
    | with_reducible exact Or.inr (by assumption)
    | with_reducible exact Or.inl rfl
    | dsimp only
    | (simp only [keeps_mk_eq]; with_reducible apply keeps_mk)
    | with_reducible apply keeps_ite
    | with_reducible apply keeps_ite1
    | split)

theorem execBrgResponse_keeps {W : List Part} {Q : Nat → Bool} {s0 : State} {b : Fin 32} {s : State}
    (wiFn_n : ∀ n, Q (iFn n) = true) (wpgBrg : Q pgBrg = true) (wbanks : Part.banks ∈ W) (wbridge : Part.bridge ∈ W)
    (hK : Keeps W Q s0 s) : Res.Keeps W Q s0 (execBrgResponse b s) := by
  unfold execBrgResponse
  repeat' (first
    | with_reducible assumption
    | with_reducible exact id
    | with_reducible exact fun k => Mem.wf_writeBytes k
    | with_reducible exact fun k => Mem.wf_erase k
    | with_reducible exact fun k => SMap.wf_set k
    | with_reducible exact fun k => SMap.wf_drop k
    | with_reducible exact fun k => SMap.wf_foldl k
    | with_reducible exact fun k => SMap.wf_foldl (SMap.wf_drop k)
    | with_reducible exact fun _ _ k => absurd k List.not_mem_nil
    | intro _
    | with_reducible exact wiFn_n _
    | with_reducible apply State.start_keeps
    | with_reducible apply State.brgResponse_keeps
    | with_reducible apply State.modBk_keeps
    | with_reducible apply State.stray_keeps
    | with_reducible apply keeps_next
    | with_reducible apply keeps_foldl
    | with_reducible apply keeps_foldl1
    | with_reducible exact Or.inr (by assumption)
    | with_reducible exact Or.inl rfl
    | dsimp only
    | (simp only [keeps_mk_eq]; with_reducible apply keeps_mk)
    | with_reducible apply keeps_ite
    | with_reducible apply keeps_ite1
    | split)

theorem execBrgTimeout_keeps {W : List Part} {Q : Nat → Bool} {s0 : State} {t : Fin 64} {s : State}
    (wiFn_n : ∀ n, Q (iFn n) = true) (wpgBrg : Q pgBrg = true) (wbanks : Part.banks ∈ W) (wbridge : Part.bridge ∈ W)
    (hK : Keeps W Q s0 s) : Res.Keeps W Q s0 (execBrgTimeout t s) := by
  unfold execBrgTimeout
  repeat' (first
    | with_reducible assumption
    | with_reducible exact id
    | with_reducible exact fun k => Mem.wf_writeBytes k
    | with_reducible exact fun k => Mem.wf_erase k
    | with_reducible exact fun k => SMap.wf_set k
    | with_reducible exact fun k => SMap.wf_drop k
    | with_reducible exact fun k => SMap.wf_foldl k
    | with_reducible exact fun k => SMap.wf_foldl (SMap.wf_drop k)
    | with_reducible exact fun _ _ k => absurd k List.not_mem_nil
    | intro _
    | with_reducible exact wiFn_n _
    | with_reducible apply State.start_keeps
    | with_reducible apply State.endTag_keeps
    | with_reducible apply keeps_next
    | with_reducible apply keeps_foldl
    | with_reducible apply keeps_foldl1
    | with_reducible exact Or.inr (by assumption)
    | with_reducible exact Or.inl rfl
    | dsimp only
    | (simp only [keeps_mk_eq]; with_reducible apply keeps_mk)
    | with_reducible apply keeps_ite
    | with_reducible apply keeps_ite1
    | split)

theorem State.brgCollect_keeps {W : List Part} {Q : Nat → Bool} {s0 : State} {s : State} {r : Req}
    (wbridge : Part.bridge ∈ W)
    (hK : Keeps W Q s0 s) : Keeps W Q s0 (State.brgCollect s r) := by
  unfold State.brgCollect
  repeat' (first
    | with_reducible assumption
    | with_reducible exact id
    | with_reducible exact fun k => Mem.wf_writeBytes k
    | with_reducible exact fun k => Mem.wf_erase k
    | with_reducible exact fun k => SMap.wf_set k
    | with_reducible exact fun k => SMap.wf_drop k
    | with_reducible exact fun k => SMap.wf_foldl k
    | with_reducible exact fun k => SMap.wf_foldl (SMap.wf_drop k)
    | with_reducible exact fun _ _ k => absurd k List.not_mem_nil
    | intro _
    | with_reducible apply State.answer_keeps
    | with_reducible apply State.freeTag_keeps
    | with_reducible apply keeps_next
    | with_reducible apply keeps_foldl
    | with_reducible apply keeps_foldl1
    | with_reducible exact Or.inr (by assumption)
    | with_reducible exact Or.inl rfl
    | dsimp only
    | (simp only [keeps_mk_eq]; with_reducible apply keeps_mk)
    | with_reducible apply keeps_ite
    | with_reducible apply keeps_ite1
    | split)

theorem execBrgCollect_keeps {W : List Part} {Q : Nat → Bool} {s0 : State} {r : Req} {s : State}
    (w50 : Q 50 = true) (wiCode_8 : Q (iCode 8) = true) (wiFn_n : ∀ n, Q (iFn n) = true) (wpgEvr : Q pgEvr = true) (wpgSys : Q pgSys = true) (wrecorder : Part.recorder ∈ W) (wbridge : Part.bridge ∈ W) (wfield : Part.field ∈ W)
    (hK : Keeps W Q s0 s) : Res.Keeps W Q s0 (execBrgCollect r s) := by
  unfold execBrgCollect
  repeat' (first
    | with_reducible assumption
    | with_reducible exact id
    | with_reducible exact fun k => Mem.wf_writeBytes k
    | with_reducible exact fun k => Mem.wf_erase k
    | with_reducible exact fun k => SMap.wf_set k
    | with_reducible exact fun k => SMap.wf_drop k
    | with_reducible exact fun k => SMap.wf_foldl k
    | with_reducible exact fun k => SMap.wf_foldl (SMap.wf_drop k)
    | with_reducible exact fun _ _ k => absurd k List.not_mem_nil
    | intro _
    | with_reducible exact wiFn_n _
    | with_reducible apply State.accessRd_keeps
    | with_reducible apply State.start_keeps
    | with_reducible apply State.brgCollect_keeps
    | with_reducible apply keeps_next
    | with_reducible apply keeps_foldl
    | with_reducible apply keeps_foldl1
    | with_reducible exact Or.inr (by assumption)
    | with_reducible exact Or.inl rfl
    | dsimp only
    | (simp only [keeps_mk_eq]; with_reducible apply keeps_mk)
    | with_reducible apply keeps_ite
    | with_reducible apply keeps_ite1
    | split)

theorem execBrgDiscardExpiry_keeps {W : List Part} {Q : Nat → Bool} {s0 : State} {t : Fin 64} {s : State}
    (wiFn_n : ∀ n, Q (iFn n) = true) (wpgBrg : Q pgBrg = true) (wbridge : Part.bridge ∈ W)
    (hK : Keeps W Q s0 s) : Res.Keeps W Q s0 (execBrgDiscardExpiry t s) := by
  unfold execBrgDiscardExpiry
  repeat' (first
    | with_reducible assumption
    | with_reducible exact id
    | with_reducible exact fun k => Mem.wf_writeBytes k
    | with_reducible exact fun k => Mem.wf_erase k
    | with_reducible exact fun k => SMap.wf_set k
    | with_reducible exact fun k => SMap.wf_drop k
    | with_reducible exact fun k => SMap.wf_foldl k
    | with_reducible exact fun k => SMap.wf_foldl (SMap.wf_drop k)
    | with_reducible exact fun _ _ k => absurd k List.not_mem_nil
    | intro _
    | with_reducible exact wiFn_n _
    | with_reducible apply State.start_keeps
    | with_reducible apply State.discardTag_keeps
    | with_reducible apply keeps_next
    | with_reducible apply keeps_foldl
    | with_reducible apply keeps_foldl1
    | with_reducible exact Or.inr (by assumption)
    | with_reducible exact Or.inl rfl
    | dsimp only
    | (simp only [keeps_mk_eq]; with_reducible apply keeps_mk)
    | with_reducible apply keeps_ite
    | with_reducible apply keeps_ite1
    | split)

theorem execBrgQuarantineEnd_keeps {W : List Part} {Q : Nat → Bool} {s0 : State} {t : Fin 64} {s : State}
    (wbridge : Part.bridge ∈ W)
    (hK : Keeps W Q s0 s) : Res.Keeps W Q s0 (execBrgQuarantineEnd t s) := by
  unfold execBrgQuarantineEnd
  repeat' (first
    | with_reducible assumption
    | with_reducible exact id
    | with_reducible exact fun k => Mem.wf_writeBytes k
    | with_reducible exact fun k => Mem.wf_erase k
    | with_reducible exact fun k => SMap.wf_set k
    | with_reducible exact fun k => SMap.wf_drop k
    | with_reducible exact fun k => SMap.wf_foldl k
    | with_reducible exact fun k => SMap.wf_foldl (SMap.wf_drop k)
    | with_reducible exact fun _ _ k => absurd k List.not_mem_nil
    | intro _
    | with_reducible apply State.start_keeps
    | with_reducible apply State.freeTag_keeps
    | with_reducible apply keeps_next
    | with_reducible apply keeps_foldl
    | with_reducible apply keeps_foldl1
    | with_reducible exact Or.inr (by assumption)
    | with_reducible exact Or.inl rfl
    | dsimp only
    | (simp only [keeps_mk_eq]; with_reducible apply keeps_mk)
    | with_reducible apply keeps_ite
    | with_reducible apply keeps_ite1
    | split)

end Sys2Proof.Machine
end

