-- ==== Sys2Proof/Laws/KeepsCan.lean ====
section
/-! SUPPORT. What each function and command of Machine/Can.lean keeps. -/
set_option linter.all false
set_option Elab.async false
namespace Sys2Proof.Machine

theorem State.modCan_keeps {W : List Part} {Q : Nat → Bool} {s0 : State} {s : State} {n : Nat} {f : Can → Can}
    (wcan : Part.can ∈ W)
    (hK : Keeps W Q s0 s) : Keeps W Q s0 (State.modCan s n f) := by
  unfold State.modCan
  repeat' (first
    | with_reducible assumption
    | with_reducible exact id
    | with_reducible exact fun k => Mem.wf_writeBytes k
    | with_reducible exact fun k => Mem.wf_erase k
    | with_reducible exact fun k => SMap.wf_set k
    | with_reducible exact fun k => SMap.wf_drop k
    | with_reducible exact fun k => SMap.wf_foldl k
    | with_reducible exact fun k => SMap.wf_foldl (SMap.wf_drop k)
    | with_reducible exact fun _ _ k => absurd k List.not_mem_nil
    | intro _
    | with_reducible apply keeps_next
    | with_reducible apply keeps_foldl
    | with_reducible apply keeps_foldl1
    | with_reducible exact Or.inr (by assumption)
    | with_reducible exact Or.inl rfl
    | dsimp only
    | (simp only [keeps_mk_eq]; with_reducible apply keeps_mk)
    | with_reducible apply keeps_ite
    | with_reducible apply keeps_ite1
    | split)

theorem State.canErr_keeps {W : List Part} {Q : Nat → Bool} {s0 : State} {s : State} {n : Nat} {tec : Nat} {rec_ : Nat}
    (wiFn_n : ∀ n, Q (iFn n) = true) (wpgCan_n : Q (pgCan n) = true) (wcan : Part.can ∈ W)
    (hK : Keeps W Q s0 s) : Keeps W Q s0 (State.canErr s n tec rec_) := by
  unfold State.canErr
  repeat' (first
    | with_reducible assumption
    | with_reducible exact id
    | with_reducible exact fun k => Mem.wf_writeBytes k
    | with_reducible exact fun k => Mem.wf_erase k
    | with_reducible exact fun k => SMap.wf_set k
    | with_reducible exact fun k => SMap.wf_drop k
    | with_reducible exact fun k => SMap.wf_foldl k
    | with_reducible exact fun k => SMap.wf_foldl (SMap.wf_drop k)
    | with_reducible exact fun _ _ k => absurd k List.not_mem_nil
    | intro _
    | with_reducible exact wiFn_n _
    | with_reducible apply State.wr_keeps
    | with_reducible apply State.raise_keeps
    | with_reducible apply State.modCan_keeps
    | with_reducible apply keeps_next
    | with_reducible apply keeps_foldl
    | with_reducible apply keeps_foldl1
    | with_reducible exact Or.inr (by assumption)
    | with_reducible exact Or.inl rfl
    | dsimp only
    | (simp only [keeps_mk_eq]; with_reducible apply keeps_mk)
    | with_reducible apply keeps_ite
    | with_reducible apply keeps_ite1
    | split)

theorem State.canIdle_keeps {W : List Part} {Q : Nat → Bool} {s0 : State} {s : State} {n : Nat}
    (wpgCan_n : Q (pgCan n) = true) (wcan : Part.can ∈ W)
    (hK : Keeps W Q s0 s) : Keeps W Q s0 (State.canIdle s n) := by
  unfold State.canIdle
  repeat' (first
    | with_reducible assumption
    | with_reducible exact id
    | with_reducible exact fun k => Mem.wf_writeBytes k
    | with_reducible exact fun k => Mem.wf_erase k
    | with_reducible exact fun k => SMap.wf_set k
    | with_reducible exact fun k => SMap.wf_drop k
    | with_reducible exact fun k => SMap.wf_foldl k
    | with_reducible exact fun k => SMap.wf_foldl (SMap.wf_drop k)
    | with_reducible exact fun _ _ k => absurd k List.not_mem_nil
    | intro _
    | with_reducible apply State.wr_keeps
    | with_reducible apply State.modCan_keeps
    | with_reducible apply keeps_next
    | with_reducible apply keeps_foldl
    | with_reducible apply keeps_foldl1
    | with_reducible exact Or.inr (by assumption)
    | with_reducible exact Or.inl rfl
    | dsimp only
    | (simp only [keeps_mk_eq]; with_reducible apply keeps_mk)
    | with_reducible apply keeps_ite
    | with_reducible apply keeps_ite1
    | split)

theorem State.leaveSleep_keeps {W : List Part} {Q : Nat → Bool} {s0 : State} {s : State} {bit : Nat}
    (wiFn_n : ∀ n, Q (iFn n) = true) (wpgPwr : Q pgPwr = true) (wpgRst : Q pgRst = true) (wpower : Part.power ∈ W)
    (hK : Keeps W Q s0 s) : Keeps W Q s0 (State.leaveSleep s bit) := by
  unfold State.leaveSleep
  repeat' (first
    | with_reducible assumption
    | with_reducible exact id
    | with_reducible exact fun k => Mem.wf_writeBytes k
    | with_reducible exact fun k => Mem.wf_erase k
    | with_reducible exact fun k => SMap.wf_set k
    | with_reducible exact fun k => SMap.wf_drop k
    | with_reducible exact fun k => SMap.wf_foldl k
    | with_reducible exact fun k => SMap.wf_foldl (SMap.wf_drop k)
    | with_reducible exact fun _ _ k => absurd k List.not_mem_nil
    | intro _
    | with_reducible exact wiFn_n _
    | with_reducible apply State.setBits_keeps
    | with_reducible apply State.raise_keeps
    | with_reducible apply State.wr_keeps
    | with_reducible apply keeps_next
    | with_reducible apply keeps_foldl
    | with_reducible apply keeps_foldl1
    | with_reducible exact Or.inr (by assumption)
    | with_reducible exact Or.inl rfl
    | dsimp only
    | (simp only [keeps_mk_eq]; with_reducible apply keeps_mk)
    | with_reducible apply keeps_ite
    | with_reducible apply keeps_ite1
    | split)

theorem State.nwmReady_keeps {W : List Part} {Q : Nat → Bool} {s0 : State} {s : State} {n : Nat}
    (wpgNwm : Q pgNwm = true) (wcan : Part.can ∈ W)
    (hK : Keeps W Q s0 s) : Keeps W Q s0 (State.nwmReady s n) := by
  unfold State.nwmReady
  repeat' (first
    | with_reducible assumption
    | with_reducible exact id
    | with_reducible exact fun k => Mem.wf_writeBytes k
    | with_reducible exact fun k => Mem.wf_erase k
    | with_reducible exact fun k => SMap.wf_set k
    | with_reducible exact fun k => SMap.wf_drop k
    | with_reducible exact fun k => SMap.wf_foldl k
    | with_reducible exact fun k => SMap.wf_foldl (SMap.wf_drop k)
    | with_reducible exact fun _ _ k => absurd k List.not_mem_nil
    | intro _
    | with_reducible apply State.wr_keeps
    | with_reducible apply State.modCan_keeps
    | with_reducible apply keeps_next
    | with_reducible apply keeps_foldl
    | with_reducible apply keeps_foldl1
    | with_reducible exact Or.inr (by assumption)
    | with_reducible exact Or.inl rfl
    | dsimp only
    | (simp only [keeps_mk_eq]; with_reducible apply keeps_mk)
    | with_reducible apply keeps_ite
    | with_reducible apply keeps_ite1
    | split)

theorem State.nwmTake_keeps {W : List Part} {Q : Nat → Bool} {s0 : State} {s : State} {n : Nat}
    (wiFn_n : ∀ n, Q (iFn n) = true) (wpgCan_n : Q (pgCan n) = true) (wpgNwm : Q pgNwm = true) (wpgPwr : Q pgPwr = true) (wpgRst : Q pgRst = true) (wcan : Part.can ∈ W) (wpower : Part.power ∈ W)
    (hK : Keeps W Q s0 s) : Keeps W Q s0 (State.nwmTake s n) := by
  unfold State.nwmTake
  repeat' (first
    | with_reducible assumption
    | with_reducible exact id
    | with_reducible exact fun k => Mem.wf_writeBytes k
    | with_reducible exact fun k => Mem.wf_erase k
    | with_reducible exact fun k => SMap.wf_set k
    | with_reducible exact fun k => SMap.wf_drop k
    | with_reducible exact fun k => SMap.wf_foldl k
    | with_reducible exact fun k => SMap.wf_foldl (SMap.wf_drop k)
    | with_reducible exact fun _ _ k => absurd k List.not_mem_nil
    | intro _
    | with_reducible exact wiFn_n _
    | with_reducible apply State.wr_keeps
    | with_reducible apply State.raise_keeps
    | with_reducible apply State.modCan_keeps
    | with_reducible apply State.leaveSleep_keeps
    | with_reducible apply keeps_next
    | with_reducible apply keeps_foldl
    | with_reducible apply keeps_foldl1
    | with_reducible exact Or.inr (by assumption)
    | with_reducible exact Or.inl rfl
    | dsimp only
    | (simp only [keeps_mk_eq]; with_reducible apply keeps_mk)
    | with_reducible apply keeps_ite
    | with_reducible apply keeps_ite1
    | split)

theorem State.nwmLatch_keeps {W : List Part} {Q : Nat → Bool} {s0 : State} {s : State} {n : Nat} {kind : Nat}
    (wiFn_n : ∀ n, Q (iFn n) = true) (wpgCan_n : Q (pgCan n) = true) (wpgNwm : Q pgNwm = true) (wpgPwr : Q pgPwr = true) (wpgRst : Q pgRst = true) (wcan : Part.can ∈ W) (wpower : Part.power ∈ W)
    (hK : Keeps W Q s0 s) : Keeps W Q s0 (State.nwmLatch s n kind) := by
  unfold State.nwmLatch
  repeat' (first
    | with_reducible assumption
    | with_reducible exact id
    | with_reducible exact fun k => Mem.wf_writeBytes k
    | with_reducible exact fun k => Mem.wf_erase k
    | with_reducible exact fun k => SMap.wf_set k
    | with_reducible exact fun k => SMap.wf_drop k
    | with_reducible exact fun k => SMap.wf_foldl k
    | with_reducible exact fun k => SMap.wf_foldl (SMap.wf_drop k)
    | with_reducible exact fun _ _ k => absurd k List.not_mem_nil
    | intro _
    | with_reducible exact wiFn_n _
    | with_reducible apply State.modCan_keeps
    | with_reducible apply State.wr_keeps
    | with_reducible apply State.nwmTake_keeps
    | with_reducible apply keeps_next
    | with_reducible apply keeps_foldl
    | with_reducible apply keeps_foldl1
    | with_reducible exact Or.inr (by assumption)
    | with_reducible exact Or.inl rfl
    | dsimp only
    | (simp only [keeps_mk_eq]; with_reducible apply keeps_mk)
    | with_reducible apply keeps_ite
    | with_reducible apply keeps_ite1
    | split)

theorem State.nwmForce_keeps {W : List Part} {Q : Nat → Bool} {s0 : State} {s : State} {n : Nat}
    (wiFn_n : ∀ n, Q (iFn n) = true) (wpgCan_n : Q (pgCan n) = true) (wpgNwm : Q pgNwm = true) (wpgPwr : Q pgPwr = true) (wpgRst : Q pgRst = true) (wcan : Part.can ∈ W) (wpower : Part.power ∈ W)
    (hK : Keeps W Q s0 s) : Keeps W Q s0 (State.nwmForce s n) := by
  unfold State.nwmForce
  repeat' (first
    | with_reducible assumption
    | with_reducible exact id
    | with_reducible exact fun k => Mem.wf_writeBytes k
    | with_reducible exact fun k => Mem.wf_erase k
    | with_reducible exact fun k => SMap.wf_set k
    | with_reducible exact fun k => SMap.wf_drop k
    | with_reducible exact fun k => SMap.wf_foldl k
    | with_reducible exact fun k => SMap.wf_foldl (SMap.wf_drop k)
    | with_reducible exact fun _ _ k => absurd k List.not_mem_nil
    | intro _
    | with_reducible exact wiFn_n _
    | with_reducible apply State.bump_keeps
    | with_reducible apply State.wr_keeps
    | with_reducible apply State.modCan_keeps
    | with_reducible apply State.raise_keeps
    | with_reducible apply State.nwmTake_keeps
    | with_reducible apply keeps_next
    | with_reducible apply keeps_foldl
    | with_reducible apply keeps_foldl1
    | with_reducible exact Or.inr (by assumption)
    | with_reducible exact Or.inl rfl
    | dsimp only
    | (simp only [keeps_mk_eq]; with_reducible apply keeps_mk)
    | with_reducible apply keeps_ite
    | with_reducible apply keeps_ite1
    | split)

theorem State.nwmFrame_keeps {W : List Part} {Q : Nat → Bool} {s0 : State} {s : State} {n : Nat} {w0 : Nat} {data : List Byte} {ka : Bool}
    (wiFn_n : ∀ n, Q (iFn n) = true) (wpgCan_n : Q (pgCan n) = true) (wpgNwm : Q pgNwm = true) (wpgPwr : Q pgPwr = true) (wpgRst : Q pgRst = true) (wcan : Part.can ∈ W) (wpower : Part.power ∈ W)
    (hK : Keeps W Q s0 s) : Keeps W Q s0 (State.nwmFrame s n w0 data ka) := by
  unfold State.nwmFrame
  repeat' (first
    | with_reducible assumption
    | with_reducible exact id
    | with_reducible exact fun k => Mem.wf_writeBytes k
    | with_reducible exact fun k => Mem.wf_erase k
    | with_reducible exact fun k => SMap.wf_set k
    | with_reducible exact fun k => SMap.wf_drop k
    | with_reducible exact fun k => SMap.wf_foldl k
    | with_reducible exact fun k => SMap.wf_foldl (SMap.wf_drop k)
    | with_reducible exact fun _ _ k => absurd k List.not_mem_nil
    | intro _
    | with_reducible exact wiFn_n _
    | with_reducible apply State.setBits_keeps
    | with_reducible apply State.bump_keeps
    | with_reducible apply State.wr_keeps
    | with_reducible apply State.nwmLatch_keeps
    | with_reducible apply keeps_next
    | with_reducible apply keeps_foldl
    | with_reducible apply keeps_foldl1
    | with_reducible exact Or.inr (by assumption)
    | with_reducible exact Or.inl rfl
    | dsimp only
    | (simp only [keeps_mk_eq]; with_reducible apply keeps_mk)
    | with_reducible apply keeps_ite
    | with_reducible apply keeps_ite1
    | split)

theorem State.canEnqueue_keeps {W : List Part} {Q : Nat → Bool} {s0 : State} {s : State} {n : Nat} {q : Nat} {ws : List Nat}
    (wiFn_n : ∀ n, Q (iFn n) = true) (wpgCan_n : Q (pgCan n) = true) (wcan : Part.can ∈ W)
    (hK : Keeps W Q s0 s) : Keeps W Q s0 (State.canEnqueue s n q ws) := by
  unfold State.canEnqueue
  repeat' (first
    | with_reducible assumption
    | with_reducible exact id
    | with_reducible exact fun k => Mem.wf_writeBytes k
    | with_reducible exact fun k => Mem.wf_erase k
    | with_reducible exact fun k => SMap.wf_set k
    | with_reducible exact fun k => SMap.wf_drop k
    | with_reducible exact fun k => SMap.wf_foldl k
    | with_reducible exact fun k => SMap.wf_foldl (SMap.wf_drop k)
    | with_reducible exact fun _ _ k => absurd k List.not_mem_nil
    | intro _
    | with_reducible exact wiFn_n _
    | with_reducible apply State.raise_keeps
    | with_reducible apply State.bump_keeps
    | with_reducible apply State.modCan_keeps
    | with_reducible apply keeps_next
    | with_reducible apply keeps_foldl
    | with_reducible apply keeps_foldl1
    | with_reducible exact Or.inr (by assumption)
    | with_reducible exact Or.inl rfl
    | dsimp only
    | (simp only [keeps_mk_eq]; with_reducible apply keeps_mk)
    | with_reducible apply keeps_ite
    | with_reducible apply keeps_ite1
    | split)

theorem State.canRx_keeps {W : List Part} {Q : Nat → Bool} {s0 : State} {s : State} {n : Nat} {w0 : Nat} {w1 : Nat} {data : List Byte} {own : Bool}
    (wiFn_n : ∀ n, Q (iFn n) = true) (wpgCan_n : Q (pgCan n) = true) (wpgNwm : Q pgNwm = true) (wpgPwr : Q pgPwr = true) (wpgRst : Q pgRst = true) (wcan : Part.can ∈ W) (wpower : Part.power ∈ W)
    (hK : Keeps W Q s0 s) : Keeps W Q s0 (State.canRx s n w0 w1 data own) := by
  unfold State.canRx
  repeat' (first
    | with_reducible assumption
    | with_reducible exact id
    | with_reducible exact fun k => Mem.wf_writeBytes k
    | with_reducible exact fun k => Mem.wf_erase k
    | with_reducible exact fun k => SMap.wf_set k
    | with_reducible exact fun k => SMap.wf_drop k
    | with_reducible exact fun k => SMap.wf_foldl k
    | with_reducible exact fun k => SMap.wf_foldl (SMap.wf_drop k)
    | with_reducible exact fun _ _ k => absurd k List.not_mem_nil
    | intro _
    | with_reducible exact wiFn_n _
    | with_reducible apply State.canEnqueue_keeps
    | with_reducible apply State.nwmFrame_keeps
    | with_reducible apply keeps_next
    | with_reducible apply keeps_foldl
    | with_reducible apply keeps_foldl1
    | with_reducible exact Or.inr (by assumption)
    | with_reducible exact Or.inl rfl
    | dsimp only
    | (simp only [keeps_mk_eq]; with_reducible apply keeps_mk)
    | with_reducible apply keeps_ite
    | with_reducible apply keeps_ite1
    | split)

theorem State.txAbort_keeps {W : List Part} {Q : Nat → Bool} {s0 : State} {s : State} {n : Nat} {m : Nat}
    (wiFn_n : ∀ n, Q (iFn n) = true) (wpgCan_n : Q (pgCan n) = true)
    (hK : Keeps W Q s0 s) : Keeps W Q s0 (State.txAbort s n m) := by
  unfold State.txAbort
  repeat' (first
    | with_reducible assumption
    | with_reducible exact id
    | with_reducible exact fun k => Mem.wf_writeBytes k
    | with_reducible exact fun k => Mem.wf_erase k
    | with_reducible exact fun k => SMap.wf_set k
    | with_reducible exact fun k => SMap.wf_drop k
    | with_reducible exact fun k => SMap.wf_foldl k
    | with_reducible exact fun k => SMap.wf_foldl (SMap.wf_drop k)
    | with_reducible exact fun _ _ k => absurd k List.not_mem_nil
    | intro _
    | with_reducible exact wiFn_n _
    | with_reducible apply State.clrBits_keeps
    | with_reducible apply State.raise_keeps
    | with_reducible apply State.setBits_keeps
    | with_reducible apply keeps_next
    | with_reducible apply keeps_foldl
    | with_reducible apply keeps_foldl1
    | with_reducible exact Or.inr (by assumption)
    | with_reducible exact Or.inl rfl
    | dsimp only
    | (simp only [keeps_mk_eq]; with_reducible apply keeps_mk)
    | with_reducible apply keeps_ite
    | with_reducible apply keeps_ite1
    | split)

theorem State.txRefuse_keeps {W : List Part} {Q : Nat → Bool} {s0 : State} {s : State} {n : Nat} {x1 : Nat}
    (wiFn_n : ∀ n, Q (iFn n) = true) (wpgCan_n : Q (pgCan n) = true)
    (hK : Keeps W Q s0 s) : Keeps W Q s0 (State.txRefuse s n x1) := by
  induction x1 generalizing s n with
  | zero =>
    unfold State.txRefuse
    repeat' (first
      | with_reducible assumption
      | with_reducible exact id
      | with_reducible exact fun k => Mem.wf_writeBytes k
      | with_reducible exact fun k => Mem.wf_erase k
      | with_reducible exact fun k => SMap.wf_set k
      | with_reducible exact fun k => SMap.wf_drop k
      | with_reducible exact fun k => SMap.wf_foldl k
      | with_reducible exact fun k => SMap.wf_foldl (SMap.wf_drop k)
      | with_reducible exact fun _ _ k => absurd k List.not_mem_nil
      | intro _
      | with_reducible exact wiFn_n _
      | with_reducible apply State.setBits_keeps
      | with_reducible apply State.txAbort_keeps
      | with_reducible apply keeps_next
      | with_reducible apply keeps_foldl
      | with_reducible apply keeps_foldl1
      | with_reducible exact Or.inr (by assumption)
      | with_reducible exact Or.inl rfl
      | dsimp only
      | (simp only [keeps_mk_eq]; with_reducible apply keeps_mk)
      | with_reducible apply keeps_ite
      | with_reducible apply keeps_ite1
      | split)
  | succ n ih =>
    unfold State.txRefuse
    repeat' (first
      | with_reducible assumption
      | with_reducible apply ih
      | with_reducible exact id
      | with_reducible exact fun k => Mem.wf_writeBytes k
      | with_reducible exact fun k => Mem.wf_erase k
      | with_reducible exact fun k => SMap.wf_set k
      | with_reducible exact fun k => SMap.wf_drop k
      | with_reducible exact fun k => SMap.wf_foldl k
      | with_reducible exact fun k => SMap.wf_foldl (SMap.wf_drop k)
      | with_reducible exact fun _ _ k => absurd k List.not_mem_nil
      | intro _
      | with_reducible exact wiFn_n _
      | with_reducible apply State.setBits_keeps
      | with_reducible apply State.txAbort_keeps
      | with_reducible apply keeps_next
      | with_reducible apply keeps_foldl
      | with_reducible apply keeps_foldl1
      | with_reducible exact Or.inr (by assumption)
      | with_reducible exact Or.inl rfl
      | dsimp only
      | (simp only [keeps_mk_eq]; with_reducible apply keeps_mk)
      | with_reducible apply keeps_ite
      | with_reducible apply keeps_ite1
      | split)

theorem State.txPend_keeps {W : List Part} {Q : Nat → Bool} {s0 : State} {s : State} {n : Nat} {m : Nat}
    (wiFn_n : ∀ n, Q (iFn n) = true) (wpgCan_n : Q (pgCan n) = true)
    (hK : Keeps W Q s0 s) : Keeps W Q s0 (State.txPend s n m) := by
  unfold State.txPend
  repeat' (first
    | with_reducible assumption
    | with_reducible exact id
    | with_reducible exact fun k => Mem.wf_writeBytes k
    | with_reducible exact fun k => Mem.wf_erase k
    | with_reducible exact fun k => SMap.wf_set k
    | with_reducible exact fun k => SMap.wf_drop k
    | with_reducible exact fun k => SMap.wf_foldl k
    | with_reducible exact fun k => SMap.wf_foldl (SMap.wf_drop k)
    | with_reducible exact fun _ _ k => absurd k List.not_mem_nil
    | intro _
    | with_reducible exact wiFn_n _
    | with_reducible apply State.setBits_keeps
    | with_reducible apply State.txRefuse_keeps
    | with_reducible apply keeps_next
    | with_reducible apply keeps_foldl
    | with_reducible apply keeps_foldl1
    | with_reducible exact Or.inr (by assumption)
    | with_reducible exact Or.inl rfl
    | dsimp only
    | (simp only [keeps_mk_eq]; with_reducible apply keeps_mk)
    | with_reducible apply keeps_ite
    | with_reducible apply keeps_ite1
    | split)

theorem State.canCmd_keeps {W : List Part} {Q : Nat → Bool} {s0 : State} {s : State} {n : Nat} {d : Word} {busy : Bool}
    (wiFn_n : ∀ n, Q (iFn n) = true) (wpgCan_n : Q (pgCan n) = true) (wcan : Part.can ∈ W)
    (hK : Keeps W Q s0 s) : Keeps W Q s0 (State.canCmd s n d busy) := by
  unfold State.canCmd
  repeat' (first
    | with_reducible assumption
    | with_reducible exact id
    | with_reducible exact fun k => Mem.wf_writeBytes k
    | with_reducible exact fun k => Mem.wf_erase k
    | with_reducible exact fun k => SMap.wf_set k
    | with_reducible exact fun k => SMap.wf_drop k
    | with_reducible exact fun k => SMap.wf_foldl k
    | with_reducible exact fun k => SMap.wf_foldl (SMap.wf_drop k)
    | with_reducible exact fun _ _ k => absurd k List.not_mem_nil
    | intro _
    | with_reducible exact wiFn_n _
    | with_reducible apply State.wr_keeps
    | with_reducible apply State.txRefuse_keeps
    | with_reducible apply State.raise_keeps
    | with_reducible apply State.modCan_keeps
    | with_reducible apply keeps_next
    | with_reducible apply keeps_foldl
    | with_reducible apply keeps_foldl1
    | with_reducible exact Or.inr (by assumption)
    | with_reducible exact Or.inl rfl
    | dsimp only
    | (simp only [keeps_mk_eq]; with_reducible apply keeps_mk)
    | with_reducible apply keeps_ite
    | with_reducible apply keeps_ite1
    | split)

theorem execCanStart_keeps {W : List Part} {Q : Nat → Bool} {s0 : State} {r : Req} {n : Fin 4} {d : Word} {s : State}
    (w50 : Q 50 = true) (wiCode_8 : Q (iCode 8) = true) (wiFn_n : ∀ n, Q (iFn n) = true) (wpgCan_n_val : Q (pgCan n.val) = true) (wpgEvr : Q pgEvr = true) (wpgSys : Q pgSys = true) (wrecorder : Part.recorder ∈ W) (wcan : Part.can ∈ W) (wfield : Part.field ∈ W)
    (hK : Keeps W Q s0 s) : Res.Keeps W Q s0 (execCanStart r n d s) := by
  unfold execCanStart
  repeat' (first
    | with_reducible assumption
    | with_reducible exact id
    | with_reducible exact fun k => Mem.wf_writeBytes k
    | with_reducible exact fun k => Mem.wf_erase k
    | with_reducible exact fun k => SMap.wf_set k
    | with_reducible exact fun k => SMap.wf_drop k
    | with_reducible exact fun k => SMap.wf_foldl k
    | with_reducible exact fun k => SMap.wf_foldl (SMap.wf_drop k)
    | with_reducible exact fun _ _ k => absurd k List.not_mem_nil
    | intro _
    | with_reducible exact wiFn_n _
    | with_reducible apply State.access_keeps
    | with_reducible apply State.start_keeps
    | with_reducible apply State.canCmd_keeps
    | with_reducible apply keeps_next
    | with_reducible apply keeps_foldl
    | with_reducible apply keeps_foldl1
    | with_reducible exact Or.inr (by assumption)
    | with_reducible exact Or.inl rfl
    | dsimp only
    | (simp only [keeps_mk_eq]; with_reducible apply keeps_mk)
    | with_reducible apply keeps_ite
    | with_reducible apply keeps_ite1
    | split)

theorem execCanStop_keeps {W : List Part} {Q : Nat → Bool} {s0 : State} {r : Req} {n : Fin 4} {d : Word} {busy : Bool} {s : State}
    (w50 : Q 50 = true) (wiCode_8 : Q (iCode 8) = true) (wiFn_n : ∀ n, Q (iFn n) = true) (wpgCan_n_val : Q (pgCan n.val) = true) (wpgEvr : Q pgEvr = true) (wpgSys : Q pgSys = true) (wrecorder : Part.recorder ∈ W) (wcan : Part.can ∈ W) (wfield : Part.field ∈ W)
    (hK : Keeps W Q s0 s) : Res.Keeps W Q s0 (execCanStop r n d busy s) := by
  unfold execCanStop
  repeat' (first
    | with_reducible assumption
    | with_reducible exact id
    | with_reducible exact fun k => Mem.wf_writeBytes k
    | with_reducible exact fun k => Mem.wf_erase k
    | with_reducible exact fun k => SMap.wf_set k
    | with_reducible exact fun k => SMap.wf_drop k
    | with_reducible exact fun k => SMap.wf_foldl k
    | with_reducible exact fun k => SMap.wf_foldl (SMap.wf_drop k)
    | with_reducible exact fun _ _ k => absurd k List.not_mem_nil
    | intro _
    | with_reducible exact wiFn_n _
    | with_reducible apply State.access_keeps
    | with_reducible apply State.start_keeps
    | with_reducible apply State.canCmd_keeps
    | with_reducible apply keeps_next
    | with_reducible apply keeps_foldl
    | with_reducible apply keeps_foldl1
    | with_reducible exact Or.inr (by assumption)
    | with_reducible exact Or.inl rfl
    | dsimp only
    | (simp only [keeps_mk_eq]; with_reducible apply keeps_mk)
    | with_reducible apply keeps_ite
    | with_reducible apply keeps_ite1
    | split)

theorem execCanRecover_keeps {W : List Part} {Q : Nat → Bool} {s0 : State} {r : Req} {n : Fin 4} {d : Word} {s : State}
    (w50 : Q 50 = true) (wiCode_8 : Q (iCode 8) = true) (wiFn_n : ∀ n, Q (iFn n) = true) (wpgCan_n_val : Q (pgCan n.val) = true) (wpgEvr : Q pgEvr = true) (wpgSys : Q pgSys = true) (wrecorder : Part.recorder ∈ W) (wcan : Part.can ∈ W) (wfield : Part.field ∈ W)
    (hK : Keeps W Q s0 s) : Res.Keeps W Q s0 (execCanRecover r n d s) := by
  unfold execCanRecover
  repeat' (first
    | with_reducible assumption
    | with_reducible exact id
    | with_reducible exact fun k => Mem.wf_writeBytes k
    | with_reducible exact fun k => Mem.wf_erase k
    | with_reducible exact fun k => SMap.wf_set k
    | with_reducible exact fun k => SMap.wf_drop k
    | with_reducible exact fun k => SMap.wf_foldl k
    | with_reducible exact fun k => SMap.wf_foldl (SMap.wf_drop k)
    | with_reducible exact fun _ _ k => absurd k List.not_mem_nil
    | intro _
    | with_reducible exact wiFn_n _
    | with_reducible apply State.access_keeps
    | with_reducible apply State.start_keeps
    | with_reducible apply State.canCmd_keeps
    | with_reducible apply keeps_next
    | with_reducible apply keeps_foldl
    | with_reducible apply keeps_foldl1
    | with_reducible exact Or.inr (by assumption)
    | with_reducible exact Or.inl rfl
    | dsimp only
    | (simp only [keeps_mk_eq]; with_reducible apply keeps_mk)
    | with_reducible apply keeps_ite
    | with_reducible apply keeps_ite1
    | split)

theorem execCanTxPend_keeps {W : List Part} {Q : Nat → Bool} {s0 : State} {r : Req} {n : Fin 4} {d : Word} {s : State}
    (w50 : Q 50 = true) (wiCode_8 : Q (iCode 8) = true) (wiFn_n : ∀ n, Q (iFn n) = true) (wpgCan_n_val : Q (pgCan n.val) = true) (wpgEvr : Q pgEvr = true) (wpgSys : Q pgSys = true) (wrecorder : Part.recorder ∈ W) (wfield : Part.field ∈ W)
    (hK : Keeps W Q s0 s) : Res.Keeps W Q s0 (execCanTxPend r n d s) := by
  unfold execCanTxPend
  repeat' (first
    | with_reducible assumption
    | with_reducible exact id
    | with_reducible exact fun k => Mem.wf_writeBytes k
    | with_reducible exact fun k => Mem.wf_erase k
    | with_reducible exact fun k => SMap.wf_set k
    | with_reducible exact fun k => SMap.wf_drop k
    | with_reducible exact fun k => SMap.wf_foldl k
    | with_reducible exact fun k => SMap.wf_foldl (SMap.wf_drop k)
    | with_reducible exact fun _ _ k => absurd k List.not_mem_nil
    | intro _
    | with_reducible exact wiFn_n _
    | with_reducible apply State.access_keeps
    | with_reducible apply State.start_keeps
    | with_reducible apply State.txPend_keeps
    | with_reducible apply keeps_next
    | with_reducible apply keeps_foldl
    | with_reducible apply keeps_foldl1
    | with_reducible exact Or.inr (by assumption)
    | with_reducible exact Or.inl rfl
    | dsimp only
    | (simp only [keeps_mk_eq]; with_reducible apply keeps_mk)
    | with_reducible apply keeps_ite
    | with_reducible apply keeps_ite1
    | split)

theorem State.txAbortReq_keeps {W : List Part} {Q : Nat → Bool} {s0 : State} {s : State} {n : Nat} {m : Nat} {tx : Option Nat}
    (wiFn_n : ∀ n, Q (iFn n) = true) (wpgCan_n : Q (pgCan n) = true)
    (hK : Keeps W Q s0 s) : Keeps W Q s0 (State.txAbortReq s n m tx) := by
  unfold State.txAbortReq
  repeat' (first
    | with_reducible assumption
    | with_reducible exact id
    | with_reducible exact fun k => Mem.wf_writeBytes k
    | with_reducible exact fun k => Mem.wf_erase k
    | with_reducible exact fun k => SMap.wf_set k
    | with_reducible exact fun k => SMap.wf_drop k
    | with_reducible exact fun k => SMap.wf_foldl k
    | with_reducible exact fun k => SMap.wf_foldl (SMap.wf_drop k)
    | with_reducible exact fun _ _ k => absurd k List.not_mem_nil
    | intro _
    | with_reducible exact wiFn_n _
    | with_reducible apply State.txAbort_keeps
    | with_reducible apply State.setBits_keeps
    | with_reducible apply keeps_next
    | with_reducible apply keeps_foldl
    | with_reducible apply keeps_foldl1
    | with_reducible exact Or.inr (by assumption)
    | with_reducible exact Or.inl rfl
    | dsimp only
    | (simp only [keeps_mk_eq]; with_reducible apply keeps_mk)
    | with_reducible apply keeps_ite
    | with_reducible apply keeps_ite1
    | split)

theorem execCanTxAbort_keeps {W : List Part} {Q : Nat → Bool} {s0 : State} {r : Req} {n : Fin 4} {d : Word} {tx : Option (Fin 32)} {s : State}
    (w50 : Q 50 = true) (wiCode_8 : Q (iCode 8) = true) (wiFn_n : ∀ n, Q (iFn n) = true) (wpgCan_n_val : Q (pgCan n.val) = true) (wpgEvr : Q pgEvr = true) (wpgSys : Q pgSys = true) (wrecorder : Part.recorder ∈ W) (wfield : Part.field ∈ W)
    (hK : Keeps W Q s0 s) : Res.Keeps W Q s0 (execCanTxAbort r n d tx s) := by
  unfold execCanTxAbort
  repeat' (first
    | with_reducible assumption
    | with_reducible exact id
    | with_reducible exact fun k => Mem.wf_writeBytes k
    | with_reducible exact fun k => Mem.wf_erase k
    | with_reducible exact fun k => SMap.wf_set k
    | with_reducible exact fun k => SMap.wf_drop k
    | with_reducible exact fun k => SMap.wf_foldl k
    | with_reducible exact fun k => SMap.wf_foldl (SMap.wf_drop k)
    | with_reducible exact fun _ _ k => absurd k List.not_mem_nil
    | intro _
    | with_reducible exact wiFn_n _
    | with_reducible apply State.access_keeps
    | with_reducible apply State.start_keeps
    | with_reducible apply State.txAbortReq_keeps
    | with_reducible apply keeps_next
    | with_reducible apply keeps_foldl
    | with_reducible apply keeps_foldl1
    | with_reducible exact Or.inr (by assumption)
    | with_reducible exact Or.inl rfl
    | dsimp only
    | (simp only [keeps_mk_eq]; with_reducible apply keeps_mk)
    | with_reducible apply keeps_ite
    | with_reducible apply keeps_ite1
    | split)

theorem State.canPop_keeps {W : List Part} {Q : Nat → Bool} {s0 : State} {s : State} {n : Nat} {d : Word}
    (wcan : Part.can ∈ W)
    (hK : Keeps W Q s0 s) : Keeps W Q s0 (State.canPop s n d) := by
  unfold State.canPop
  repeat' (first
    | with_reducible assumption
    | with_reducible exact id
    | with_reducible exact fun k => Mem.wf_writeBytes k
    | with_reducible exact fun k => Mem.wf_erase k
    | with_reducible exact fun k => SMap.wf_set k
    | with_reducible exact fun k => SMap.wf_drop k
    | with_reducible exact fun k => SMap.wf_foldl k
    | with_reducible exact fun k => SMap.wf_foldl (SMap.wf_drop k)
    | with_reducible exact fun _ _ k => absurd k List.not_mem_nil
    | intro _
    | with_reducible apply State.modCan_keeps
    | with_reducible apply keeps_next
    | with_reducible apply keeps_foldl
    | with_reducible apply keeps_foldl1
    | with_reducible exact Or.inr (by assumption)
    | with_reducible exact Or.inl rfl
    | dsimp only
    | (simp only [keeps_mk_eq]; with_reducible apply keeps_mk)
    | with_reducible apply keeps_ite
    | with_reducible apply keeps_ite1
    | split)

theorem execCanRxqPop_keeps {W : List Part} {Q : Nat → Bool} {s0 : State} {r : Req} {n : Fin 4} {q : Fin 2} {d : Word} {s : State}
    (w50 : Q 50 = true) (wiCode_8 : Q (iCode 8) = true) (wiFn_n : ∀ n, Q (iFn n) = true) (wpgEvr : Q pgEvr = true) (wpgSys : Q pgSys = true) (wrecorder : Part.recorder ∈ W) (wcan : Part.can ∈ W) (wfield : Part.field ∈ W)
    (hK : Keeps W Q s0 s) : Res.Keeps W Q s0 (execCanRxqPop r n q d s) := by
  unfold execCanRxqPop
  repeat' (first
    | with_reducible assumption
    | with_reducible exact id
    | with_reducible exact fun k => Mem.wf_writeBytes k
    | with_reducible exact fun k => Mem.wf_erase k
    | with_reducible exact fun k => SMap.wf_set k
    | with_reducible exact fun k => SMap.wf_drop k
    | with_reducible exact fun k => SMap.wf_foldl k
    | with_reducible exact fun k => SMap.wf_foldl (SMap.wf_drop k)
    | with_reducible exact fun _ _ k => absurd k List.not_mem_nil
    | intro _
    | with_reducible exact wiFn_n _
    | with_reducible apply State.access_keeps
    | with_reducible apply State.start_keeps
    | with_reducible apply State.canPop_keeps
    | with_reducible apply keeps_next
    | with_reducible apply keeps_foldl
    | with_reducible apply keeps_foldl1
    | with_reducible exact Or.inr (by assumption)
    | with_reducible exact Or.inl rfl
    | dsimp only
    | (simp only [keeps_mk_eq]; with_reducible apply keeps_mk)
    | with_reducible apply keeps_ite
    | with_reducible apply keeps_ite1
    | split)

theorem execCanFrameRx_keeps {W : List Part} {Q : Nat → Bool} {s0 : State} {n : Fin 4} {w0 : Word} {w1 : Word} {data : List Byte} {s : State}
    (wiFn_n : ∀ n, Q (iFn n) = true) (wpgCan_n_val : Q (pgCan n.val) = true) (wpgNwm : Q pgNwm = true) (wpgPwr : Q pgPwr = true) (wpgRst : Q pgRst = true) (wcan : Part.can ∈ W) (wpower : Part.power ∈ W)
    (hK : Keeps W Q s0 s) : Res.Keeps W Q s0 (execCanFrameRx n w0 w1 data s) := by
  unfold execCanFrameRx
  repeat' (first
    | with_reducible assumption
    | with_reducible exact id
    | with_reducible exact fun k => Mem.wf_writeBytes k
    | with_reducible exact fun k => Mem.wf_erase k
    | with_reducible exact fun k => SMap.wf_set k
    | with_reducible exact fun k => SMap.wf_drop k
    | with_reducible exact fun k => SMap.wf_foldl k
    | with_reducible exact fun k => SMap.wf_foldl (SMap.wf_drop k)
    | with_reducible exact fun _ _ k => absurd k List.not_mem_nil
    | intro _
    | with_reducible exact wiFn_n _
    | with_reducible apply State.start_keeps
    | with_reducible apply State.freeNext_keeps
    | with_reducible apply State.canErr_keeps
    | with_reducible apply State.canIdle_keeps
    | with_reducible apply State.canRx_keeps
    | with_reducible apply keeps_next
    | with_reducible apply keeps_foldl
    | with_reducible apply keeps_foldl1
    | with_reducible exact Or.inr (by assumption)
    | with_reducible exact Or.inl rfl
    | dsimp only
    | (simp only [keeps_mk_eq]; with_reducible apply keeps_mk)
    | with_reducible apply keeps_ite
    | with_reducible apply keeps_ite1
    | split)

theorem execCanFrameTxEnd_keeps {W : List Part} {Q : Nat → Bool} {s0 : State} {n : Fin 4} {res : Fin 3} {late : Word} {lec : Fin 8} {cnt : Bool} {s : State}
    (wiFn_n : ∀ n, Q (iFn n) = true) (wpgCan_n_val : Q (pgCan n.val) = true) (wpgNwm : Q pgNwm = true) (wpgPwr : Q pgPwr = true) (wpgRst : Q pgRst = true) (wcan : Part.can ∈ W) (wpower : Part.power ∈ W)
    (hK : Keeps W Q s0 s) : Res.Keeps W Q s0 (execCanFrameTxEnd n res late lec cnt s) := by
  unfold execCanFrameTxEnd
  repeat' (first
    | with_reducible assumption
    | with_reducible exact id
    | with_reducible exact fun k => Mem.wf_writeBytes k
    | with_reducible exact fun k => Mem.wf_erase k
    | with_reducible exact fun k => SMap.wf_set k
    | with_reducible exact fun k => SMap.wf_drop k
    | with_reducible exact fun k => SMap.wf_foldl k
    | with_reducible exact fun k => SMap.wf_foldl (SMap.wf_drop k)
    | with_reducible exact fun _ _ k => absurd k List.not_mem_nil
    | intro _
    | with_reducible exact wiFn_n _
    | with_reducible apply State.start_keeps
    | with_reducible apply State.emit_keeps
    | with_reducible apply State.clrBits_keeps
    | with_reducible apply State.canErr_keeps
    | with_reducible apply State.raise_keeps
    | with_reducible apply State.setBits_keeps
    | with_reducible apply State.canRx_keeps
    | with_reducible apply State.wr_keeps
    | with_reducible apply State.txAbort_keeps
    | with_reducible apply State.txRefuse_keeps
    | with_reducible apply State.canIdle_keeps
    | with_reducible apply keeps_next
    | with_reducible apply keeps_foldl
    | with_reducible apply keeps_foldl1
    | with_reducible exact Or.inr (by assumption)
    | with_reducible exact Or.inl rfl
    | dsimp only
    | (simp only [keeps_mk_eq]; with_reducible apply keeps_mk)
    | with_reducible apply keeps_ite
    | with_reducible apply keeps_ite1
    | split)

theorem execCanBusError_keeps {W : List Part} {Q : Nat → Bool} {s0 : State} {n : Fin 4} {lec : Fin 8} {eight : Bool} {s : State}
    (wiFn_n : ∀ n, Q (iFn n) = true) (wpgCan_n_val : Q (pgCan n.val) = true) (wcan : Part.can ∈ W)
    (hK : Keeps W Q s0 s) : Res.Keeps W Q s0 (execCanBusError n lec eight s) := by
  unfold execCanBusError
  repeat' (first
    | with_reducible assumption
    | with_reducible exact id
    | with_reducible exact fun k => Mem.wf_writeBytes k
    | with_reducible exact fun k => Mem.wf_erase k
    | with_reducible exact fun k => SMap.wf_set k
    | with_reducible exact fun k => SMap.wf_drop k
    | with_reducible exact fun k => SMap.wf_foldl k
    | with_reducible exact fun k => SMap.wf_foldl (SMap.wf_drop k)
    | with_reducible exact fun _ _ k => absurd k List.not_mem_nil
    | intro _
    | with_reducible exact wiFn_n _
    | with_reducible apply State.start_keeps
    | with_reducible apply State.canIdle_keeps
    | with_reducible apply State.raise_keeps
    | with_reducible apply State.wr_keeps
    | with_reducible apply State.canErr_keeps
    | with_reducible apply keeps_next
    | with_reducible apply keeps_foldl
    | with_reducible apply keeps_foldl1
    | with_reducible exact Or.inr (by assumption)
    | with_reducible exact Or.inl rfl
    | dsimp only
    | (simp only [keeps_mk_eq]; with_reducible apply keeps_mk)
    | with_reducible apply keeps_ite
    | with_reducible apply keeps_ite1
    | split)

theorem execCanBusOn_keeps {W : List Part} {Q : Nat → Bool} {s0 : State} {n : Fin 4} {s : State}
    (wiFn_n : ∀ n, Q (iFn n) = true) (wpgCan_n_val : Q (pgCan n.val) = true) (wcan : Part.can ∈ W)
    (hK : Keeps W Q s0 s) : Res.Keeps W Q s0 (execCanBusOn n s) := by
  unfold execCanBusOn
  repeat' (first
    | with_reducible assumption
    | with_reducible exact id
    | with_reducible exact fun k => Mem.wf_writeBytes k
    | with_reducible exact fun k => Mem.wf_erase k
    | with_reducible exact fun k => SMap.wf_set k
    | with_reducible exact fun k => SMap.wf_drop k
    | with_reducible exact fun k => SMap.wf_foldl k
    | with_reducible exact fun k => SMap.wf_foldl (SMap.wf_drop k)
    | with_reducible exact fun _ _ k => absurd k List.not_mem_nil
    | intro _
    | with_reducible exact wiFn_n _
    | with_reducible apply State.start_keeps
    | with_reducible apply State.wr_keeps
    | with_reducible apply State.raise_keeps
    | with_reducible apply State.modCan_keeps
    | with_reducible apply State.txRefuse_keeps
    | with_reducible apply keeps_next
    | with_reducible apply keeps_foldl
    | with_reducible apply keeps_foldl1
    | with_reducible exact Or.inr (by assumption)
    | with_reducible exact Or.inl rfl
    | dsimp only
    | (simp only [keeps_mk_eq]; with_reducible apply keeps_mk)
    | with_reducible apply keeps_ite
    | with_reducible apply keeps_ite1
    | split)

theorem State.canWrite_keeps {W : List Part} {Q : Nat → Bool} {s0 : State} {s : State} {n : Nat} {off : Nat} {d : Word}
    (wiFn_n : ∀ n, Q (iFn n) = true) (wpgCan_n : Q (pgCan n) = true) (wcan : Part.can ∈ W)
    (hK : Keeps W Q s0 s) : Keeps W Q s0 (State.canWrite s n off d) := by
  unfold State.canWrite
  repeat' (first
    | with_reducible assumption
    | with_reducible exact id
    | with_reducible exact fun k => Mem.wf_writeBytes k
    | with_reducible exact fun k => Mem.wf_erase k
    | with_reducible exact fun k => SMap.wf_set k
    | with_reducible exact fun k => SMap.wf_drop k
    | with_reducible exact fun k => SMap.wf_foldl k
    | with_reducible exact fun k => SMap.wf_foldl (SMap.wf_drop k)
    | with_reducible exact fun _ _ k => absurd k List.not_mem_nil
    | intro _
    | with_reducible exact wiFn_n _
    | with_reducible apply State.regWrite_keeps
    | with_reducible apply State.raise_keeps
    | with_reducible apply State.canCmd_keeps
    | with_reducible apply State.freeNext_keeps
    | with_reducible apply State.txPend_keeps
    | with_reducible apply State.txAbortReq_keeps
    | with_reducible apply State.canPop_keeps
    | with_reducible apply keeps_next
    | with_reducible apply keeps_foldl
    | with_reducible apply keeps_foldl1
    | with_reducible exact Or.inr (by assumption)
    | with_reducible exact Or.inl rfl
    | dsimp only
    | (simp only [keeps_mk_eq]; with_reducible apply keeps_mk)
    | with_reducible apply keeps_ite
    | with_reducible apply keeps_ite1
    | split)

theorem State.canLevel_keeps {W : List Part} {Q : Nat → Bool} {s0 : State} {s : State} {n : Nat}
    (wiFn_n : ∀ n, Q (iFn n) = true) (wpgCan_n : Q (pgCan n) = true)
    (hK : Keeps W Q s0 s) : Keeps W Q s0 (State.canLevel s n) := by
  unfold State.canLevel
  repeat' (first
    | with_reducible assumption
    | with_reducible exact id
    | with_reducible exact fun k => Mem.wf_writeBytes k
    | with_reducible exact fun k => Mem.wf_erase k
    | with_reducible exact fun k => SMap.wf_set k
    | with_reducible exact fun k => SMap.wf_drop k
    | with_reducible exact fun k => SMap.wf_foldl k
    | with_reducible exact fun k => SMap.wf_foldl (SMap.wf_drop k)
    | with_reducible exact fun _ _ k => absurd k List.not_mem_nil
    | intro _
    | with_reducible exact wiFn_n _
    | with_reducible apply State.raise_keeps
    | with_reducible apply keeps_next
    | with_reducible apply keeps_foldl
    | with_reducible apply keeps_foldl1
    | with_reducible exact Or.inr (by assumption)
    | with_reducible exact Or.inl rfl
    | dsimp only
    | (simp only [keeps_mk_eq]; with_reducible apply keeps_mk)
    | with_reducible apply keeps_ite
    | with_reducible apply keeps_ite1
    | split)

theorem State.nwmCtrl_keeps {W : List Part} {Q : Nat → Bool} {s0 : State} {s : State} {n : Nat} {d : Word}
    (wiFn_n : ∀ n, Q (iFn n) = true) (wpgCan_n : Q (pgCan n) = true) (wpgNwm : Q pgNwm = true) (wpgPwr : Q pgPwr = true) (wpgRst : Q pgRst = true) (wcan : Part.can ∈ W) (wpower : Part.power ∈ W)
    (hK : Keeps W Q s0 s) : Keeps W Q s0 (State.nwmCtrl s n d) := by
  unfold State.nwmCtrl
  repeat' (first
    | with_reducible assumption
    | with_reducible exact id
    | with_reducible exact fun k => Mem.wf_writeBytes k
    | with_reducible exact fun k => Mem.wf_erase k
    | with_reducible exact fun k => SMap.wf_set k
    | with_reducible exact fun k => SMap.wf_drop k
    | with_reducible exact fun k => SMap.wf_foldl k
    | with_reducible exact fun k => SMap.wf_foldl (SMap.wf_drop k)
    | with_reducible exact fun _ _ k => absurd k List.not_mem_nil
    | intro _
    | with_reducible exact wiFn_n _
    | with_reducible apply State.wrB_keeps
    | with_reducible apply State.wr_keeps
    | with_reducible apply State.modCan_keeps
    | with_reducible apply State.nwmReady_keeps
    | with_reducible apply State.nwmLatch_keeps
    | with_reducible apply keeps_next
    | with_reducible apply keeps_foldl
    | with_reducible apply keeps_foldl1
    | with_reducible exact Or.inr (by assumption)
    | with_reducible exact Or.inl rfl
    | dsimp only
    | (simp only [keeps_mk_eq]; with_reducible apply keeps_mk)
    | with_reducible apply keeps_ite
    | with_reducible apply keeps_ite1
    | split)

theorem execNwmChEnable_keeps {W : List Part} {Q : Nat → Bool} {s0 : State} {r : Req} {n : Fin 4} {d : Word} {s : State}
    (w50 : Q 50 = true) (wiCode_8 : Q (iCode 8) = true) (wiFn_n : ∀ n, Q (iFn n) = true) (wpgCan_n_val : Q (pgCan n.val) = true) (wpgEvr : Q pgEvr = true) (wpgNwm : Q pgNwm = true) (wpgPwr : Q pgPwr = true) (wpgRst : Q pgRst = true) (wpgSys : Q pgSys = true) (wrecorder : Part.recorder ∈ W) (wcan : Part.can ∈ W) (wpower : Part.power ∈ W) (wfield : Part.field ∈ W)
    (hK : Keeps W Q s0 s) : Res.Keeps W Q s0 (execNwmChEnable r n d s) := by
  unfold execNwmChEnable
  repeat' (first
    | with_reducible assumption
    | with_reducible exact id
    | with_reducible exact fun k => Mem.wf_writeBytes k
    | with_reducible exact fun k => Mem.wf_erase k
    | with_reducible exact fun k => SMap.wf_set k
    | with_reducible exact fun k => SMap.wf_drop k
    | with_reducible exact fun k => SMap.wf_foldl k
    | with_reducible exact fun k => SMap.wf_foldl (SMap.wf_drop k)
    | with_reducible exact fun _ _ k => absurd k List.not_mem_nil
    | intro _
    | with_reducible exact wiFn_n _
    | with_reducible apply State.access_keeps
    | with_reducible apply State.start_keeps
    | with_reducible apply State.nwmCtrl_keeps
    | with_reducible apply keeps_next
    | with_reducible apply keeps_foldl
    | with_reducible apply keeps_foldl1
    | with_reducible exact Or.inr (by assumption)
    | with_reducible exact Or.inl rfl
    | dsimp only
    | (simp only [keeps_mk_eq]; with_reducible apply keeps_mk)
    | with_reducible apply keeps_ite
    | with_reducible apply keeps_ite1
    | split)

theorem execNwmAwakeReq_keeps {W : List Part} {Q : Nat → Bool} {s0 : State} {r : Req} {n : Fin 4} {d : Word} {s : State}
    (w50 : Q 50 = true) (wiCode_8 : Q (iCode 8) = true) (wiFn_n : ∀ n, Q (iFn n) = true) (wpgCan_n_val : Q (pgCan n.val) = true) (wpgEvr : Q pgEvr = true) (wpgNwm : Q pgNwm = true) (wpgPwr : Q pgPwr = true) (wpgRst : Q pgRst = true) (wpgSys : Q pgSys = true) (wrecorder : Part.recorder ∈ W) (wcan : Part.can ∈ W) (wpower : Part.power ∈ W) (wfield : Part.field ∈ W)
    (hK : Keeps W Q s0 s) : Res.Keeps W Q s0 (execNwmAwakeReq r n d s) := by
  unfold execNwmAwakeReq
  repeat' (first
    | with_reducible assumption
    | with_reducible exact id
    | with_reducible exact fun k => Mem.wf_writeBytes k
    | with_reducible exact fun k => Mem.wf_erase k
    | with_reducible exact fun k => SMap.wf_set k
    | with_reducible exact fun k => SMap.wf_drop k
    | with_reducible exact fun k => SMap.wf_foldl k
    | with_reducible exact fun k => SMap.wf_foldl (SMap.wf_drop k)
    | with_reducible exact fun _ _ k => absurd k List.not_mem_nil
    | intro _
    | with_reducible exact wiFn_n _
    | with_reducible apply State.access_keeps
    | with_reducible apply State.start_keeps
    | with_reducible apply State.nwmCtrl_keeps
    | with_reducible apply keeps_next
    | with_reducible apply keeps_foldl
    | with_reducible apply keeps_foldl1
    | with_reducible exact Or.inr (by assumption)
    | with_reducible exact Or.inl rfl
    | dsimp only
    | (simp only [keeps_mk_eq]; with_reducible apply keeps_mk)
    | with_reducible apply keeps_ite
    | with_reducible apply keeps_ite1
    | split)

theorem execNwmLocalWake_keeps {W : List Part} {Q : Nat → Bool} {s0 : State} {r : Req} {n : Fin 4} {d : Word} {s : State}
    (w50 : Q 50 = true) (wiCode_8 : Q (iCode 8) = true) (wiFn_n : ∀ n, Q (iFn n) = true) (wpgCan_n_val : Q (pgCan n.val) = true) (wpgEvr : Q pgEvr = true) (wpgNwm : Q pgNwm = true) (wpgPwr : Q pgPwr = true) (wpgRst : Q pgRst = true) (wpgSys : Q pgSys = true) (wrecorder : Part.recorder ∈ W) (wcan : Part.can ∈ W) (wpower : Part.power ∈ W) (wfield : Part.field ∈ W)
    (hK : Keeps W Q s0 s) : Res.Keeps W Q s0 (execNwmLocalWake r n d s) := by
  unfold execNwmLocalWake
  repeat' (first
    | with_reducible assumption
    | with_reducible exact id
    | with_reducible exact fun k => Mem.wf_writeBytes k
    | with_reducible exact fun k => Mem.wf_erase k
    | with_reducible exact fun k => SMap.wf_set k
    | with_reducible exact fun k => SMap.wf_drop k
    | with_reducible exact fun k => SMap.wf_foldl k
    | with_reducible exact fun k => SMap.wf_foldl (SMap.wf_drop k)
    | with_reducible exact fun _ _ k => absurd k List.not_mem_nil
    | intro _
    | with_reducible exact wiFn_n _
    | with_reducible apply State.access_keeps
    | with_reducible apply State.start_keeps
    | with_reducible apply State.nwmCtrl_keeps
    | with_reducible apply keeps_next
    | with_reducible apply keeps_foldl
    | with_reducible apply keeps_foldl1
    | with_reducible exact Or.inr (by assumption)
    | with_reducible exact Or.inl rfl
    | dsimp only
    | (simp only [keeps_mk_eq]; with_reducible apply keeps_mk)
    | with_reducible apply keeps_ite
    | with_reducible apply keeps_ite1
    | split)

theorem execNwmKeepaliveTimer_keeps {W : List Part} {Q : Nat → Bool} {s0 : State} {n : Fin 4} {s : State}
    (wiFn_n : ∀ n, Q (iFn n) = true) (wpgCan_n_val : Q (pgCan n.val) = true)
    (hK : Keeps W Q s0 s) : Res.Keeps W Q s0 (execNwmKeepaliveTimer n s) := by
  unfold execNwmKeepaliveTimer
  repeat' (first
    | with_reducible assumption
    | with_reducible exact id
    | with_reducible exact fun k => Mem.wf_writeBytes k
    | with_reducible exact fun k => Mem.wf_erase k
    | with_reducible exact fun k => SMap.wf_set k
    | with_reducible exact fun k => SMap.wf_drop k
    | with_reducible exact fun k => SMap.wf_foldl k
    | with_reducible exact fun k => SMap.wf_foldl (SMap.wf_drop k)
    | with_reducible exact fun _ _ k => absurd k List.not_mem_nil
    | intro _
    | with_reducible exact wiFn_n _
    | with_reducible apply State.start_keeps
    | with_reducible apply State.txPend_keeps
    | with_reducible apply keeps_next
    | with_reducible apply keeps_foldl
    | with_reducible apply keeps_foldl1
    | with_reducible exact Or.inr (by assumption)
    | with_reducible exact Or.inl rfl
    | dsimp only
    | (simp only [keeps_mk_eq]; with_reducible apply keeps_mk)
    | with_reducible apply keeps_ite
    | with_reducible apply keeps_ite1
    | split)

theorem execNwmCommitPoint_keeps {W : List Part} {Q : Nat → Bool} {s0 : State} {n : Fin 4} {tx : Option (Fin 32)} {s : State}
    (wiFn_n : ∀ n, Q (iFn n) = true) (wpgCan_n_val : Q (pgCan n.val) = true) (wpgNwm : Q pgNwm = true) (wcan : Part.can ∈ W)
    (hK : Keeps W Q s0 s) : Res.Keeps W Q s0 (execNwmCommitPoint n tx s) := by
  unfold execNwmCommitPoint
  repeat' (first
    | with_reducible assumption
    | with_reducible exact id
    | with_reducible exact fun k => Mem.wf_writeBytes k
    | with_reducible exact fun k => Mem.wf_erase k
    | with_reducible exact fun k => SMap.wf_set k
    | with_reducible exact fun k => SMap.wf_drop k
    | with_reducible exact fun k => SMap.wf_foldl k
    | with_reducible exact fun k => SMap.wf_foldl (SMap.wf_drop k)
    | with_reducible exact fun _ _ k => absurd k List.not_mem_nil
    | intro _
    | with_reducible exact wiFn_n _
    | with_reducible apply State.start_keeps
    | with_reducible apply State.txAbortReq_keeps
    | with_reducible apply State.raise_keeps
    | with_reducible apply State.wr_keeps
    | with_reducible apply State.modCan_keeps
    | with_reducible apply keeps_next
    | with_reducible apply keeps_foldl
    | with_reducible apply keeps_foldl1
    | with_reducible exact Or.inr (by assumption)
    | with_reducible exact Or.inl rfl
    | dsimp only
    | (simp only [keeps_mk_eq]; with_reducible apply keeps_mk)
    | with_reducible apply keeps_ite
    | with_reducible apply keeps_ite1
    | split)

theorem execNwmControllerSleep_keeps {W : List Part} {Q : Nat → Bool} {s0 : State} {n : Fin 4} {s : State}
    (wiFn_n : ∀ n, Q (iFn n) = true) (wpgCan_n_val : Q (pgCan n.val) = true)
    (hK : Keeps W Q s0 s) : Res.Keeps W Q s0 (execNwmControllerSleep n s) := by
  unfold execNwmControllerSleep
  repeat' (first
    | with_reducible assumption
    | with_reducible exact id
    | with_reducible exact fun k => Mem.wf_writeBytes k
    | with_reducible exact fun k => Mem.wf_erase k
    | with_reducible exact fun k => SMap.wf_set k
    | with_reducible exact fun k => SMap.wf_drop k
    | with_reducible exact fun k => SMap.wf_foldl k
    | with_reducible exact fun k => SMap.wf_foldl (SMap.wf_drop k)
    | with_reducible exact fun _ _ k => absurd k List.not_mem_nil
    | intro _
    | with_reducible exact wiFn_n _
    | with_reducible apply State.start_keeps
    | with_reducible apply State.wr_keeps
    | with_reducible apply State.txAbort_keeps
    | with_reducible apply keeps_next
    | with_reducible apply keeps_foldl
    | with_reducible apply keeps_foldl1
    | with_reducible exact Or.inr (by assumption)
    | with_reducible exact Or.inl rfl
    | dsimp only
    | (simp only [keeps_mk_eq]; with_reducible apply keeps_mk)
    | with_reducible apply keeps_ite
    | with_reducible apply keeps_ite1
    | split)

theorem execNwmBusSleep_keeps {W : List Part} {Q : Nat → Bool} {s0 : State} {n : Fin 4} {s : State}
    (wpgNwm : Q pgNwm = true)
    (hK : Keeps W Q s0 s) : Res.Keeps W Q s0 (execNwmBusSleep n s) := by
  unfold execNwmBusSleep
  repeat' (first
    | with_reducible assumption
    | with_reducible exact id
    | with_reducible exact fun k => Mem.wf_writeBytes k
    | with_reducible exact fun k => Mem.wf_erase k
    | with_reducible exact fun k => SMap.wf_set k
    | with_reducible exact fun k => SMap.wf_drop k
    | with_reducible exact fun k => SMap.wf_foldl k
    | with_reducible exact fun k => SMap.wf_foldl (SMap.wf_drop k)
    | with_reducible exact fun _ _ k => absurd k List.not_mem_nil
    | intro _
    | with_reducible apply State.start_keeps
    | with_reducible apply State.wr_keeps
    | with_reducible apply keeps_next
    | with_reducible apply keeps_foldl
    | with_reducible apply keeps_foldl1
    | with_reducible exact Or.inr (by assumption)
    | with_reducible exact Or.inl rfl
    | dsimp only
    | (simp only [keeps_mk_eq]; with_reducible apply keeps_mk)
    | with_reducible apply keeps_ite
    | with_reducible apply keeps_ite1
    | split)

theorem execNwmWakeDetect_keeps {W : List Part} {Q : Nat → Bool} {s0 : State} {n : Fin 4} {ev : Fin 4} {w0 : Word} {w1 : Word} {data : List Byte} {s : State}
    (wiFn_n : ∀ n, Q (iFn n) = true) (wpgCan_n_val : Q (pgCan n.val) = true) (wpgNwm : Q pgNwm = true) (wpgPwr : Q pgPwr = true) (wpgRst : Q pgRst = true) (wcan : Part.can ∈ W) (wpower : Part.power ∈ W)
    (hK : Keeps W Q s0 s) : Res.Keeps W Q s0 (execNwmWakeDetect n ev w0 w1 data s) := by
  unfold execNwmWakeDetect
  repeat' (first
    | with_reducible assumption
    | with_reducible exact id
    | with_reducible exact fun k => Mem.wf_writeBytes k
    | with_reducible exact fun k => Mem.wf_erase k
    | with_reducible exact fun k => SMap.wf_set k
    | with_reducible exact fun k => SMap.wf_drop k
    | with_reducible exact fun k => SMap.wf_foldl k
    | with_reducible exact fun k => SMap.wf_foldl (SMap.wf_drop k)
    | with_reducible exact fun _ _ k => absurd k List.not_mem_nil
    | intro _
    | with_reducible exact wiFn_n _
    | with_reducible apply State.start_keeps
    | with_reducible apply State.nwmLatch_keeps
    | with_reducible apply State.wr_keeps
    | with_reducible apply State.bump_keeps
    | with_reducible apply keeps_next
    | with_reducible apply keeps_foldl
    | with_reducible apply keeps_foldl1
    | with_reducible exact Or.inr (by assumption)
    | with_reducible exact Or.inl rfl
    | dsimp only
    | (simp only [keeps_mk_eq]; with_reducible apply keeps_mk)
    | with_reducible apply keeps_ite
    | with_reducible apply keeps_ite1
    | split)

theorem execNwmDwellEnd_keeps {W : List Part} {Q : Nat → Bool} {s0 : State} {n : Fin 4} {s : State}
    (wiFn_n : ∀ n, Q (iFn n) = true) (wpgCan_n_val : Q (pgCan n.val) = true) (wpgNwm : Q pgNwm = true) (wpgPwr : Q pgPwr = true) (wpgRst : Q pgRst = true) (wcan : Part.can ∈ W) (wpower : Part.power ∈ W)
    (hK : Keeps W Q s0 s) : Res.Keeps W Q s0 (execNwmDwellEnd n s) := by
  unfold execNwmDwellEnd
  repeat' (first
    | with_reducible assumption
    | with_reducible exact id
    | with_reducible exact fun k => Mem.wf_writeBytes k
    | with_reducible exact fun k => Mem.wf_erase k
    | with_reducible exact fun k => SMap.wf_set k
    | with_reducible exact fun k => SMap.wf_drop k
    | with_reducible exact fun k => SMap.wf_foldl k
    | with_reducible exact fun k => SMap.wf_foldl (SMap.wf_drop k)
    | with_reducible exact fun _ _ k => absurd k List.not_mem_nil
    | intro _
    | with_reducible exact wiFn_n _
    | with_reducible apply State.start_keeps
    | with_reducible apply State.nwmTake_keeps
    | with_reducible apply State.modCan_keeps
    | with_reducible apply keeps_next
    | with_reducible apply keeps_foldl
    | with_reducible apply keeps_foldl1
    | with_reducible exact Or.inr (by assumption)
    | with_reducible exact Or.inl rfl
    | dsimp only
    | (simp only [keeps_mk_eq]; with_reducible apply keeps_mk)
    | with_reducible apply keeps_ite
    | with_reducible apply keeps_ite1
    | split)

theorem execNwmIntegrationDone_keeps {W : List Part} {Q : Nat → Bool} {s0 : State} {n : Fin 4} {s : State}
    (wpgNwm : Q pgNwm = true) (wcan : Part.can ∈ W)
    (hK : Keeps W Q s0 s) : Res.Keeps W Q s0 (execNwmIntegrationDone n s) := by
  unfold execNwmIntegrationDone
  repeat' (first
    | with_reducible assumption
    | with_reducible exact id
    | with_reducible exact fun k => Mem.wf_writeBytes k
    | with_reducible exact fun k => Mem.wf_erase k
    | with_reducible exact fun k => SMap.wf_set k
    | with_reducible exact fun k => SMap.wf_drop k
    | with_reducible exact fun k => SMap.wf_foldl k
    | with_reducible exact fun k => SMap.wf_foldl (SMap.wf_drop k)
    | with_reducible exact fun _ _ k => absurd k List.not_mem_nil
    | intro _
    | with_reducible apply State.start_keeps
    | with_reducible apply State.wr_keeps
    | with_reducible apply State.nwmReady_keeps
    | with_reducible apply keeps_next
    | with_reducible apply keeps_foldl
    | with_reducible apply keeps_foldl1
    | with_reducible exact Or.inr (by assumption)
    | with_reducible exact Or.inl rfl
    | dsimp only
    | (simp only [keeps_mk_eq]; with_reducible apply keeps_mk)
    | with_reducible apply keeps_ite
    | with_reducible apply keeps_ite1
    | split)

theorem execNwmStuck_keeps {W : List Part} {Q : Nat → Bool} {s0 : State} {n : Fin 4} {s : State}
    (wiCode_56 : Q (iCode 56) = true) (wiFn_n : ∀ n, Q (iFn n) = true) (wpgEvr : Q pgEvr = true) (wpgNwm : Q pgNwm = true) (wrecorder : Part.recorder ∈ W) (wcan : Part.can ∈ W)
    (hK : Keeps W Q s0 s) : Res.Keeps W Q s0 (execNwmStuck n s) := by
  unfold execNwmStuck
  repeat' (first
    | with_reducible assumption
    | with_reducible exact id
    | with_reducible exact fun k => Mem.wf_writeBytes k
    | with_reducible exact fun k => Mem.wf_erase k
    | with_reducible exact fun k => SMap.wf_set k
    | with_reducible exact fun k => SMap.wf_drop k
    | with_reducible exact fun k => SMap.wf_foldl k
    | with_reducible exact fun k => SMap.wf_foldl (SMap.wf_drop k)
    | with_reducible exact fun _ _ k => absurd k List.not_mem_nil
    | intro _
    | with_reducible exact wiFn_n _
    | with_reducible apply State.start_keeps
    | with_reducible apply State.raise_keeps
    | with_reducible apply State.modCan_keeps
    | with_reducible apply State.report_keeps
    | with_reducible apply keeps_next
    | with_reducible apply keeps_foldl
    | with_reducible apply keeps_foldl1
    | with_reducible exact Or.inr (by assumption)
    | with_reducible exact Or.inl rfl
    | dsimp only
    | (simp only [keeps_mk_eq]; with_reducible apply keeps_mk)
    | with_reducible apply keeps_ite
    | with_reducible apply keeps_ite1
    | split)

theorem State.nwmWrite_keeps {W : List Part} {Q : Nat → Bool} {s0 : State} {s : State} {off : Nat} {d : Word}
    (wiFn_n : ∀ n, Q (iFn n) = true) (wpgCan_n : ∀ n, Q (pgCan n) = true) (wpgNwm : Q pgNwm = true) (wpgPwr : Q pgPwr = true) (wpgRst : Q pgRst = true) (wcan : Part.can ∈ W) (wpower : Part.power ∈ W)
    (hK : Keeps W Q s0 s) : Keeps W Q s0 (State.nwmWrite s off d) := by
  unfold State.nwmWrite
  repeat' (first
    | with_reducible assumption
    | with_reducible exact id
    | with_reducible exact fun k => Mem.wf_writeBytes k
    | with_reducible exact fun k => Mem.wf_erase k
    | with_reducible exact fun k => SMap.wf_set k
    | with_reducible exact fun k => SMap.wf_drop k
    | with_reducible exact fun k => SMap.wf_foldl k
    | with_reducible exact fun k => SMap.wf_foldl (SMap.wf_drop k)
    | with_reducible exact fun _ _ k => absurd k List.not_mem_nil
    | intro _
    | with_reducible exact wiFn_n _
    | with_reducible exact wpgCan_n _
    | with_reducible apply State.nwmCtrl_keeps
    | with_reducible apply State.regWrite_keeps
    | with_reducible apply State.wr_keeps
    | with_reducible apply State.raise_keeps
    | with_reducible apply keeps_next
    | with_reducible apply keeps_foldl
    | with_reducible apply keeps_foldl1
    | with_reducible exact Or.inr (by assumption)
    | with_reducible exact Or.inl rfl
    | dsimp only
    | (simp only [keeps_mk_eq]; with_reducible apply keeps_mk)
    | with_reducible apply keeps_ite
    | with_reducible apply keeps_ite1
    | split)

end Sys2Proof.Machine
end

