-- ==== Sys2Proof/Laws/KeepsLaw.lean ====
section
/-! SUPPORT. What each function and command of Machine/Law.lean keeps. -/
set_option linter.all false
set_option Elab.async false
namespace Sys2Proof.Machine

theorem State.runLaw_keeps {W : List Part} {Q : Nat → Bool} {s0 : State} {s : State} {c : Nat}
    (wiFn_n : ∀ n, Q (iFn n) = true) (wpgChn_c : Q (pgChn c) = true) (wchans : Part.chans ∈ W)
    (hK : Keeps W Q s0 s) : Keeps W Q s0 (State.runLaw s c) := by
  unfold State.runLaw
  repeat' (first
    | with_reducible assumption
    | with_reducible exact id
    | with_reducible exact fun k => Mem.wf_writeBytes k
    | with_reducible exact fun k => Mem.wf_erase k
    | with_reducible exact fun k => SMap.wf_set k
    | with_reducible exact fun k => SMap.wf_drop k
    | with_reducible exact fun k => SMap.wf_foldl k
    | with_reducible exact fun k => SMap.wf_foldl (SMap.wf_drop k)
    | with_reducible exact fun _ _ k => absurd k List.not_mem_nil
    | intro _
    | with_reducible exact wiFn_n _
    | with_reducible apply State.wrS_keeps
    | with_reducible apply State.wrB_keeps
    | with_reducible apply State.wr_keeps
    | with_reducible apply State.modCh_keeps
    | with_reducible apply State.raise_keeps
    | with_reducible apply keeps_next
    | with_reducible apply keeps_foldl
    | with_reducible apply keeps_foldl1
    | with_reducible exact Or.inr (by assumption)
    | with_reducible exact Or.inl rfl
    | dsimp only
    | (simp only [keeps_mk_eq]; with_reducible apply keeps_mk)
    | with_reducible apply keeps_ite
    | with_reducible apply keeps_ite1
    | split)

theorem State.addCounter_keeps {W : List Part} {Q : Nat → Bool} {s0 : State} {s : State} {c : Nat} {n : Nat} {d : Nat}
    (wiFn_n : ∀ n, Q (iFn n) = true) (wpgBnk__bankOf_c_ : Q (pgBnk (bankOf c)) = true) (wpgChn_c : Q (pgChn c) = true)
    (hK : Keeps W Q s0 s) : Keeps W Q s0 (State.addCounter s c n d) := by
  unfold State.addCounter
  repeat' (first
    | with_reducible assumption
    | with_reducible exact id
    | with_reducible exact fun k => Mem.wf_writeBytes k
    | with_reducible exact fun k => Mem.wf_erase k
    | with_reducible exact fun k => SMap.wf_set k
    | with_reducible exact fun k => SMap.wf_drop k
    | with_reducible exact fun k => SMap.wf_foldl k
    | with_reducible exact fun k => SMap.wf_foldl (SMap.wf_drop k)
    | with_reducible exact fun _ _ k => absurd k List.not_mem_nil
    | intro _
    | with_reducible exact wiFn_n _
    | with_reducible apply State.wr_keeps
    | with_reducible apply State.raise_keeps
    | with_reducible apply State.setBits_keeps
    | with_reducible apply keeps_next
    | with_reducible apply keeps_foldl
    | with_reducible apply keeps_foldl1
    | with_reducible exact Or.inr (by assumption)
    | with_reducible exact Or.inl rfl
    | dsimp only
    | (simp only [keeps_mk_eq]; with_reducible apply keeps_mk)
    | with_reducible apply keeps_ite
    | with_reducible apply keeps_ite1
    | split)

theorem State.addBoth_keeps {W : List Part} {Q : Nat → Bool} {s0 : State} {s : State} {c : Nat} {n : Nat} {d : Nat}
    (wiFn_n : ∀ n, Q (iFn n) = true) (wpgBnk__bankOf_c_ : Q (pgBnk (bankOf c)) = true) (wpgChn_c : Q (pgChn c) = true)
    (hK : Keeps W Q s0 s) : Keeps W Q s0 (State.addBoth s c n d) := by
  unfold State.addBoth
  repeat' (first
    | with_reducible assumption
    | with_reducible exact id
    | with_reducible exact fun k => Mem.wf_writeBytes k
    | with_reducible exact fun k => Mem.wf_erase k
    | with_reducible exact fun k => SMap.wf_set k
    | with_reducible exact fun k => SMap.wf_drop k
    | with_reducible exact fun k => SMap.wf_foldl k
    | with_reducible exact fun k => SMap.wf_foldl (SMap.wf_drop k)
    | with_reducible exact fun _ _ k => absurd k List.not_mem_nil
    | intro _
    | with_reducible exact wiFn_n _
    | with_reducible apply State.addCounter_keeps
    | with_reducible apply keeps_next
    | with_reducible apply keeps_foldl
    | with_reducible apply keeps_foldl1
    | with_reducible exact Or.inr (by assumption)
    | with_reducible exact Or.inl rfl
    | dsimp only
    | (simp only [keeps_mk_eq]; with_reducible apply keeps_mk)
    | with_reducible apply keeps_ite
    | with_reducible apply keeps_ite1
    | split)

theorem State.integrate_keeps {W : List Part} {Q : Nat → Bool} {s0 : State} {s : State} {c : Nat}
    (wiFn_n : ∀ n, Q (iFn n) = true) (wpgBnk__bankOf_c_ : Q (pgBnk (bankOf c)) = true) (wpgChn_c : Q (pgChn c) = true)
    (hK : Keeps W Q s0 s) : Keeps W Q s0 (State.integrate s c) := by
  unfold State.integrate
  repeat' (first
    | with_reducible assumption
    | with_reducible exact id
    | with_reducible exact fun k => Mem.wf_writeBytes k
    | with_reducible exact fun k => Mem.wf_erase k
    | with_reducible exact fun k => SMap.wf_set k
    | with_reducible exact fun k => SMap.wf_drop k
    | with_reducible exact fun k => SMap.wf_foldl k
    | with_reducible exact fun k => SMap.wf_foldl (SMap.wf_drop k)
    | with_reducible exact fun _ _ k => absurd k List.not_mem_nil
    | intro _
    | with_reducible exact wiFn_n _
    | with_reducible apply State.addBoth_keeps
    | with_reducible apply keeps_next
    | with_reducible apply keeps_foldl
    | with_reducible apply keeps_foldl1
    | with_reducible exact Or.inr (by assumption)
    | with_reducible exact Or.inl rfl
    | dsimp only
    | (simp only [keeps_mk_eq]; with_reducible apply keeps_mk)
    | with_reducible apply keeps_ite
    | with_reducible apply keeps_ite1
    | split)

end Sys2Proof.Machine
end

