-- ==== Sys2Proof/Laws/KeepsLooper.lean ====
section
/-! SUPPORT. What each function and command of Machine/Looper.lean keeps. -/
set_option linter.all false
set_option Elab.async false
namespace Sys2Proof.Machine

theorem State.setStepWord_keeps {W : List Part} {Q : Nat → Bool} {s0 : State} {s : State} {n : Nat} {w : Nat} {v : Nat}
    (wstore : Part.store ∈ W)
    (hK : Keeps W Q s0 s) : Keeps W Q s0 (State.setStepWord s n w v) := by
  unfold State.setStepWord
  repeat' (first
    | with_reducible assumption
    | with_reducible exact id
    | with_reducible exact fun k => Mem.wf_writeBytes k
    | with_reducible exact fun k => Mem.wf_erase k
    | with_reducible exact fun k => SMap.wf_set k
    | with_reducible exact fun k => SMap.wf_drop k
    | with_reducible exact fun k => SMap.wf_foldl k
    | with_reducible exact fun k => SMap.wf_foldl (SMap.wf_drop k)
    | with_reducible exact fun _ _ k => absurd k List.not_mem_nil
    | intro _
    | with_reducible apply keeps_next
    | with_reducible apply keeps_foldl
    | with_reducible apply keeps_foldl1
    | with_reducible exact Or.inr (by assumption)
    | with_reducible exact Or.inl rfl
    | dsimp only
    | (simp only [keeps_mk_eq]; with_reducible apply keeps_mk)
    | with_reducible apply keeps_ite
    | with_reducible apply keeps_ite1
    | split)

theorem State.instant_keeps {W : List Part} {Q : Nat → Bool} {s0 : State} {s : State} {c : Nat} {m : List Nat}
    (wpgChn_c : Q (pgChn c) = true)
    (hK : Keeps W Q s0 s) : Keeps W Q s0 (State.instant s c m).1 := by
  unfold State.instant
  repeat' (first
    | with_reducible assumption
    | with_reducible exact id
    | with_reducible exact fun k => Mem.wf_writeBytes k
    | with_reducible exact fun k => Mem.wf_erase k
    | with_reducible exact fun k => SMap.wf_set k
    | with_reducible exact fun k => SMap.wf_drop k
    | with_reducible exact fun k => SMap.wf_foldl k
    | with_reducible exact fun k => SMap.wf_foldl (SMap.wf_drop k)
    | with_reducible exact fun _ _ k => absurd k List.not_mem_nil
    | intro _
    | with_reducible apply State.wr_keeps
    | with_reducible apply keeps_next
    | with_reducible apply keeps_foldl
    | with_reducible apply keeps_foldl1
    | with_reducible exact Or.inr (by assumption)
    | with_reducible exact Or.inl rfl
    | dsimp only
    | (simp only [keeps_mk_eq]; with_reducible apply keeps_mk)
    | with_reducible apply keeps_ite
    | with_reducible apply keeps_ite1
    | split)

theorem State.instant_keeps_eq {W : List Part} {Q : Nat → Bool} {s0 tt : State} {vv : Nat} {s : State} {c : Nat} {m : List Nat}
    (wpgChn_c : Q (pgChn c) = true)
    (hK : Keeps W Q s0 s) (e : (State.instant s c m) = (tt, vv)) : Keeps W Q s0 tt := by
  have := @State.instant_keeps W Q s0 s c m wpgChn_c hK
  rwa [e] at this

theorem State.chain_keeps {W : List Part} {Q : Nat → Bool} {s0 : State} {x1 : Nat} {x2 : State} {x3 : Nat} {x4 : Nat} {x5 : Bool}
    (wpgChn_n : ∀ n, Q (pgChn n) = true)
    (hK : Keeps W Q s0 x2) : Keeps W Q s0 (State.chain x1 x2 x3 x4 x5).1 := by
  induction x1 generalizing x2 x3 x4 x5 with
  | zero =>
    unfold State.chain
    repeat' (first
      | with_reducible assumption
      | with_reducible exact id
      | with_reducible exact fun k => Mem.wf_writeBytes k
      | with_reducible exact fun k => Mem.wf_erase k
      | with_reducible exact fun k => SMap.wf_set k
      | with_reducible exact fun k => SMap.wf_drop k
      | with_reducible exact fun k => SMap.wf_foldl k
      | with_reducible exact fun k => SMap.wf_foldl (SMap.wf_drop k)
      | with_reducible exact fun _ _ k => absurd k List.not_mem_nil
      | intro _
      | with_reducible exact wpgChn_n _
      | with_reducible apply State.instant_keeps
      | (refine State.instant_keeps_eq ?_ ?_ (by assumption))
      | with_reducible apply keeps_next
      | with_reducible apply keeps_foldl
      | with_reducible apply keeps_foldl1
      | with_reducible exact Or.inr (by assumption)
      | with_reducible exact Or.inl rfl
      | dsimp only
      | (simp only [keeps_mk_eq]; with_reducible apply keeps_mk)
      | with_reducible apply keeps_ite
      | with_reducible apply keeps_ite1
      | split)
  | succ n ih =>
    unfold State.chain
    repeat' (first
      | with_reducible assumption
      | with_reducible apply ih
      | with_reducible exact id
      | with_reducible exact fun k => Mem.wf_writeBytes k
      | with_reducible exact fun k => Mem.wf_erase k
      | with_reducible exact fun k => SMap.wf_set k
      | with_reducible exact fun k => SMap.wf_drop k
      | with_reducible exact fun k => SMap.wf_foldl k
      | with_reducible exact fun k => SMap.wf_foldl (SMap.wf_drop k)
      | with_reducible exact fun _ _ k => absurd k List.not_mem_nil
      | intro _
      | with_reducible exact wpgChn_n _
      | with_reducible apply State.instant_keeps
      | (refine State.instant_keeps_eq ?_ ?_ (by assumption))
      | with_reducible apply keeps_next
      | with_reducible apply keeps_foldl
      | with_reducible apply keeps_foldl1
      | with_reducible exact Or.inr (by assumption)
      | with_reducible exact Or.inl rfl
      | dsimp only
      | (simp only [keeps_mk_eq]; with_reducible apply keeps_mk)
      | with_reducible apply keeps_ite
      | with_reducible apply keeps_ite1
      | split)

theorem State.chain_keeps_eq {W : List Part} {Q : Nat → Bool} {s0 tt : State} {vv : Nat × Nat × List Nat} {x1 : Nat} {x2 : State} {x3 : Nat} {x4 : Nat} {x5 : Bool}
    (wpgChn_n : ∀ n, Q (pgChn n) = true)
    (hK : Keeps W Q s0 x2) (e : (State.chain x1 x2 x3 x4 x5) = (tt, vv)) : Keeps W Q s0 tt := by
  have := @State.chain_keeps W Q s0 x1 x2 x3 x4 x5 wpgChn_n hK
  rwa [e] at this

theorem State.enterStep_keeps {W : List Part} {Q : Nat → Bool} {s0 : State} {s : State} {c : Nat} {first : Nat} {ix : Nat} {m : List Nat}
    (wiFn_n : ∀ n, Q (iFn n) = true) (wpgChn_c : Q (pgChn c) = true) (wchans : Part.chans ∈ W) (wgrading : Part.grading ∈ W)
    (hK : Keeps W Q s0 s) : Keeps W Q s0 (State.enterStep s c first ix m) := by
  unfold State.enterStep
  repeat' (first
    | with_reducible assumption
    | with_reducible exact id
    | with_reducible exact fun k => Mem.wf_writeBytes k
    | with_reducible exact fun k => Mem.wf_erase k
    | with_reducible exact fun k => SMap.wf_set k
    | with_reducible exact fun k => SMap.wf_drop k
    | with_reducible exact fun k => SMap.wf_foldl k
    | with_reducible exact fun k => SMap.wf_foldl (SMap.wf_drop k)
    | with_reducible exact fun _ _ k => absurd k List.not_mem_nil
    | intro _
    | with_reducible exact wiFn_n _
    | with_reducible apply State.clearLocal_keeps
    | with_reducible apply State.clearLaw_keeps
    | with_reducible apply State.wr_keeps
    | with_reducible apply State.modCh_keeps
    | with_reducible apply State.raise_keeps
    | with_reducible apply State.grdTell_keeps
    | with_reducible apply keeps_next
    | with_reducible apply keeps_foldl
    | with_reducible apply keeps_foldl1
    | with_reducible exact Or.inr (by assumption)
    | with_reducible exact Or.inl rfl
    | dsimp only
    | (simp only [keeps_mk_eq]; with_reducible apply keeps_mk)
    | with_reducible apply keeps_ite
    | with_reducible apply keeps_ite1
    | split)

theorem State.lpError_keeps {W : List Part} {Q : Nat → Bool} {s0 : State} {s : State} {c : Nat} {err : Nat} {at_ : Nat}
    (wpgChn_c : Q (pgChn c) = true)
    (hK : Keeps W Q s0 s) : Keeps W Q s0 (State.lpError s c err at_) := by
  unfold State.lpError
  repeat' (first
    | with_reducible assumption
    | with_reducible exact id
    | with_reducible exact fun k => Mem.wf_writeBytes k
    | with_reducible exact fun k => Mem.wf_erase k
    | with_reducible exact fun k => SMap.wf_set k
    | with_reducible exact fun k => SMap.wf_drop k
    | with_reducible exact fun k => SMap.wf_foldl k
    | with_reducible exact fun k => SMap.wf_foldl (SMap.wf_drop k)
    | with_reducible exact fun _ _ k => absurd k List.not_mem_nil
    | intro _
    | with_reducible apply State.wr_keeps
    | with_reducible apply keeps_next
    | with_reducible apply keeps_foldl
    | with_reducible apply keeps_foldl1
    | with_reducible exact Or.inr (by assumption)
    | with_reducible exact Or.inl rfl
    | dsimp only
    | (simp only [keeps_mk_eq]; with_reducible apply keeps_mk)
    | with_reducible apply keeps_ite
    | with_reducible apply keeps_ite1
    | split)

theorem State.faultChain_keeps {W : List Part} {Q : Nat → Bool} {s0 : State} {s : State} {c : Nat} {err : Nat} {at_ : Nat}
    (wiFn_n : ∀ n, Q (iFn n) = true) (wpgBnk__bankOf_c_ : Q (pgBnk (bankOf c)) = true) (wpgChn_n : ∀ n, Q (pgChn n) = true)
    (hK : Keeps W Q s0 s) : Keeps W Q s0 (State.faultChain s c err at_).1 := by
  unfold State.faultChain
  repeat' (first
    | with_reducible assumption
    | with_reducible exact id
    | with_reducible exact fun k => Mem.wf_writeBytes k
    | with_reducible exact fun k => Mem.wf_erase k
    | with_reducible exact fun k => SMap.wf_set k
    | with_reducible exact fun k => SMap.wf_drop k
    | with_reducible exact fun k => SMap.wf_foldl k
    | with_reducible exact fun k => SMap.wf_foldl (SMap.wf_drop k)
    | with_reducible exact fun _ _ k => absurd k List.not_mem_nil
    | intro _
    | with_reducible exact wiFn_n _
    | with_reducible exact wpgChn_n _
    | with_reducible apply State.raise_keeps
    | with_reducible apply State.lpError_keeps
    | with_reducible apply State.chain_keeps
    | (refine State.chain_keeps_eq ?_ ?_ (by assumption))
    | with_reducible apply keeps_next
    | with_reducible apply keeps_foldl
    | with_reducible apply keeps_foldl1
    | with_reducible exact Or.inr (by assumption)
    | with_reducible exact Or.inl rfl
    | dsimp only
    | (simp only [keeps_mk_eq]; with_reducible apply keeps_mk)
    | with_reducible apply keeps_ite
    | with_reducible apply keeps_ite1
    | split)

theorem State.faultChain_keeps_eq {W : List Part} {Q : Nat → Bool} {s0 tt : State} {vv : Nat × Nat × List Nat} {s : State} {c : Nat} {err : Nat} {at_ : Nat}
    (wiFn_n : ∀ n, Q (iFn n) = true) (wpgBnk__bankOf_c_ : Q (pgBnk (bankOf c)) = true) (wpgChn_n : ∀ n, Q (pgChn n) = true)
    (hK : Keeps W Q s0 s) (e : (State.faultChain s c err at_) = (tt, vv)) : Keeps W Q s0 tt := by
  have := @State.faultChain_keeps W Q s0 s c err at_ wiFn_n wpgBnk__bankOf_c_ wpgChn_n hK
  rwa [e] at this

theorem State.transition_keeps {W : List Part} {Q : Nat → Bool} {s0 : State} {s : State} {c : Nat} {k : Nat} {first : Nat} {rerun : Bool} {a : Trans}
    (wiFn_n : ∀ n, Q (iFn n) = true) (wpgBnk__bankOf_c_ : Q (pgBnk (bankOf c)) = true) (wpgChn_n : ∀ n, Q (pgChn n) = true) (wpgStp : Q pgStp = true) (wchans : Part.chans ∈ W) (wports : Part.ports ∈ W) (wgrading : Part.grading ∈ W)
    (hK : Keeps W Q s0 s) : Keeps W Q s0 (State.transition s c k first rerun a) := by
  unfold State.transition
  repeat' (first
    | with_reducible assumption
    | with_reducible exact id
    | with_reducible exact fun k => Mem.wf_writeBytes k
    | with_reducible exact fun k => Mem.wf_erase k
    | with_reducible exact fun k => SMap.wf_set k
    | with_reducible exact fun k => SMap.wf_drop k
    | with_reducible exact fun k => SMap.wf_foldl k
    | with_reducible exact fun k => SMap.wf_foldl (SMap.wf_drop k)
    | with_reducible exact fun _ _ k => absurd k List.not_mem_nil
    | intro _
    | with_reducible exact wiFn_n _
    | with_reducible exact wpgChn_n _
    | with_reducible apply State.raise_keeps
    | with_reducible apply State.wr_keeps
    | with_reducible apply State.modCh_keeps
    | with_reducible apply State.withdraw_keeps
    | with_reducible apply State.chain_keeps
    | (refine State.chain_keeps_eq ?_ ?_ (by assumption))
    | with_reducible apply State.faultChain_keeps
    | (refine State.faultChain_keeps_eq ?_ ?_ ?_ ?_ (by assumption))
    | with_reducible apply State.postStepEnd_keeps
    | with_reducible apply State.enterStep_keeps
    | with_reducible apply State.runLaw_keeps
    | with_reducible apply State.disarm_keeps
    | with_reducible apply keeps_next
    | with_reducible apply keeps_foldl
    | with_reducible apply keeps_foldl1
    | with_reducible exact Or.inr (by assumption)
    | with_reducible exact Or.inl rfl
    | dsimp only
    | (simp only [keeps_mk_eq]; with_reducible apply keeps_mk)
    | with_reducible apply keeps_ite
    | with_reducible apply keeps_ite1
    | split)

theorem State.resume_keeps {W : List Part} {Q : Nat → Bool} {s0 : State} {s : State} {c : Nat} {k : Nat} {act : Nat} {err : Nat}
    (wiFn_n : ∀ n, Q (iFn n) = true) (wpgBnk__bankOf_c_ : Q (pgBnk (bankOf c)) = true) (wpgChn_n : ∀ n, Q (pgChn n) = true) (wpgStp : Q pgStp = true) (wchans : Part.chans ∈ W) (wports : Part.ports ∈ W) (wgrading : Part.grading ∈ W)
    (hK : Keeps W Q s0 s) : Keeps W Q s0 (State.resume s c k act err) := by
  unfold State.resume
  repeat' (first
    | with_reducible assumption
    | with_reducible exact id
    | with_reducible exact fun k => Mem.wf_writeBytes k
    | with_reducible exact fun k => Mem.wf_erase k
    | with_reducible exact fun k => SMap.wf_set k
    | with_reducible exact fun k => SMap.wf_drop k
    | with_reducible exact fun k => SMap.wf_foldl k
    | with_reducible exact fun k => SMap.wf_foldl (SMap.wf_drop k)
    | with_reducible exact fun _ _ k => absurd k List.not_mem_nil
    | intro _
    | with_reducible exact wiFn_n _
    | with_reducible exact wpgChn_n _
    | with_reducible apply State.raise_keeps
    | with_reducible apply State.setCst_keeps
    | with_reducible apply State.disarm_keeps
    | with_reducible apply State.wr_keeps
    | with_reducible apply State.clearLaw_keeps
    | with_reducible apply State.modCh_keeps
    | with_reducible apply State.transition_keeps
    | with_reducible apply keeps_next
    | with_reducible apply keeps_foldl
    | with_reducible apply keeps_foldl1
    | with_reducible exact Or.inr (by assumption)
    | with_reducible exact Or.inl rfl
    | dsimp only
    | (simp only [keeps_mk_eq]; with_reducible apply keeps_mk)
    | with_reducible apply keeps_ite
    | with_reducible apply keeps_ite1
    | split)

theorem State.conditions_keeps {W : List Part} {Q : Nat → Bool} {s0 : State} {s : State} {c : Nat} {k : Nat} {i : Int} {v : Int} {invalid : Bool} {status : Nat}
    (wchans : Part.chans ∈ W)
    (hK : Keeps W Q s0 s) : Keeps W Q s0 (State.conditions s c k i v invalid status).1 := by
  unfold State.conditions
  repeat' (first
    | with_reducible assumption
    | with_reducible exact id
    | with_reducible exact fun k => Mem.wf_writeBytes k
    | with_reducible exact fun k => Mem.wf_erase k
    | with_reducible exact fun k => SMap.wf_set k
    | with_reducible exact fun k => SMap.wf_drop k
    | with_reducible exact fun k => SMap.wf_foldl k
    | with_reducible exact fun k => SMap.wf_foldl (SMap.wf_drop k)
    | with_reducible exact fun _ _ k => absurd k List.not_mem_nil
    | intro _
    | with_reducible apply State.modCh_keeps
    | with_reducible apply keeps_next
    | with_reducible apply keeps_foldl
    | with_reducible apply keeps_foldl1
    | with_reducible exact Or.inr (by assumption)
    | with_reducible exact Or.inl rfl
    | dsimp only
    | (simp only [keeps_mk_eq]; with_reducible apply keeps_mk)
    | with_reducible apply keeps_ite
    | with_reducible apply keeps_ite1
    | split)

theorem State.conditions_keeps_eq {W : List Part} {Q : Nat → Bool} {s0 tt : State} {vv : Option Nat} {s : State} {c : Nat} {k : Nat} {i : Int} {v : Int} {invalid : Bool} {status : Nat}
    (wchans : Part.chans ∈ W)
    (hK : Keeps W Q s0 s) (e : (State.conditions s c k i v invalid status) = (tt, vv)) : Keeps W Q s0 tt := by
  have := @State.conditions_keeps W Q s0 s c k i v invalid status wchans hK
  rwa [e] at this

theorem State.takeAction_keeps {W : List Part} {Q : Nat → Bool} {s0 : State} {s : State} {c : Nat} {k : Nat} {first : Nat} {n : Nat} {rerun : Bool}
    (wiFn_n : ∀ n, Q (iFn n) = true) (wpgBnk__bankOf_c_ : Q (pgBnk (bankOf c)) = true) (wpgChn_n : ∀ n, Q (pgChn n) = true) (wpgStp : Q pgStp = true) (wchans : Part.chans ∈ W) (wports : Part.ports ∈ W) (wgrading : Part.grading ∈ W)
    (hK : Keeps W Q s0 s) : Keeps W Q s0 (State.takeAction s c k first n rerun) := by
  unfold State.takeAction
  repeat' (first
    | with_reducible assumption
    | with_reducible exact id
    | with_reducible exact fun k => Mem.wf_writeBytes k
    | with_reducible exact fun k => Mem.wf_erase k
    | with_reducible exact fun k => SMap.wf_set k
    | with_reducible exact fun k => SMap.wf_drop k
    | with_reducible exact fun k => SMap.wf_foldl k
    | with_reducible exact fun k => SMap.wf_foldl (SMap.wf_drop k)
    | with_reducible exact fun _ _ k => absurd k List.not_mem_nil
    | intro _
    | with_reducible exact wiFn_n _
    | with_reducible exact wpgChn_n _
    | with_reducible apply State.transition_keeps
    | with_reducible apply keeps_next
    | with_reducible apply keeps_foldl
    | with_reducible apply keeps_foldl1
    | with_reducible exact Or.inr (by assumption)
    | with_reducible exact Or.inl rfl
    | dsimp only
    | (simp only [keeps_mk_eq]; with_reducible apply keeps_mk)
    | with_reducible apply keeps_ite
    | with_reducible apply keeps_ite1
    | split)

theorem State.lpResult_keeps {W : List Part} {Q : Nat → Bool} {s0 : State} {s : State} {c : Nat} {r : Nat}
    (wpgChn_c : Q (pgChn c) = true)
    (hK : Keeps W Q s0 s) : Keeps W Q s0 (State.lpResult s c r) := by
  unfold State.lpResult
  repeat' (first
    | with_reducible assumption
    | with_reducible exact id
    | with_reducible exact fun k => Mem.wf_writeBytes k
    | with_reducible exact fun k => Mem.wf_erase k
    | with_reducible exact fun k => SMap.wf_set k
    | with_reducible exact fun k => SMap.wf_drop k
    | with_reducible exact fun k => SMap.wf_foldl k
    | with_reducible exact fun k => SMap.wf_foldl (SMap.wf_drop k)
    | with_reducible exact fun _ _ k => absurd k List.not_mem_nil
    | intro _
    | with_reducible apply State.wr_keeps
    | with_reducible apply keeps_next
    | with_reducible apply keeps_foldl
    | with_reducible apply keeps_foldl1
    | with_reducible exact Or.inr (by assumption)
    | with_reducible exact Or.inl rfl
    | dsimp only
    | (simp only [keeps_mk_eq]; with_reducible apply keeps_mk)
    | with_reducible apply keeps_ite
    | with_reducible apply keeps_ite1
    | split)

theorem State.lpBeforeB_keeps {W : List Part} {Q : Nat → Bool} {s0 : State} {s : State} {c : Nat} {k : Nat}
    (wiFn_n : ∀ n, Q (iFn n) = true) (wpgBnk__bankOf_c_ : Q (pgBnk (bankOf c)) = true) (wpgChn_n : ∀ n, Q (pgChn n) = true) (wpgStp : Q pgStp = true) (wchans : Part.chans ∈ W) (wports : Part.ports ∈ W) (wgrading : Part.grading ∈ W)
    (hK : Keeps W Q s0 s) : Keeps W Q s0 (State.lpBeforeB s c k) := by
  unfold State.lpBeforeB
  repeat' (first
    | with_reducible assumption
    | with_reducible exact id
    | with_reducible exact fun k => Mem.wf_writeBytes k
    | with_reducible exact fun k => Mem.wf_erase k
    | with_reducible exact fun k => SMap.wf_set k
    | with_reducible exact fun k => SMap.wf_drop k
    | with_reducible exact fun k => SMap.wf_foldl k
    | with_reducible exact fun k => SMap.wf_foldl (SMap.wf_drop k)
    | with_reducible exact fun _ _ k => absurd k List.not_mem_nil
    | intro _
    | with_reducible exact wiFn_n _
    | with_reducible exact wpgChn_n _
    | with_reducible apply State.modCh_keeps
    | with_reducible apply State.lpResult_keeps
    | with_reducible apply State.resume_keeps
    | with_reducible apply State.wr_keeps
    | with_reducible apply keeps_next
    | with_reducible apply keeps_foldl
    | with_reducible apply keeps_foldl1
    | with_reducible exact Or.inr (by assumption)
    | with_reducible exact Or.inl rfl
    | dsimp only
    | (simp only [keeps_mk_eq]; with_reducible apply keeps_mk)
    | with_reducible apply keeps_ite
    | with_reducible apply keeps_ite1
    | split)

theorem State.lpTake_keeps {W : List Part} {Q : Nat → Bool} {s0 : State} {s : State} {c : Nat} {k : Nat}
    (wpgChn_c : Q (pgChn c) = true) (wchans : Part.chans ∈ W)
    (hK : Keeps W Q s0 s) : Keeps W Q s0 (State.lpTake s c k).1 := by
  unfold State.lpTake
  repeat' (first
    | with_reducible assumption
    | with_reducible exact id
    | with_reducible exact fun k => Mem.wf_writeBytes k
    | with_reducible exact fun k => Mem.wf_erase k
    | with_reducible exact fun k => SMap.wf_set k
    | with_reducible exact fun k => SMap.wf_drop k
    | with_reducible exact fun k => SMap.wf_foldl k
    | with_reducible exact fun k => SMap.wf_foldl (SMap.wf_drop k)
    | with_reducible exact fun _ _ k => absurd k List.not_mem_nil
    | intro _
    | with_reducible apply State.modCh_keeps
    | with_reducible apply State.lpResult_keeps
    | with_reducible apply State.wr_keeps
    | with_reducible apply keeps_next
    | with_reducible apply keeps_foldl
    | with_reducible apply keeps_foldl1
    | with_reducible exact Or.inr (by assumption)
    | with_reducible exact Or.inl rfl
    | dsimp only
    | (simp only [keeps_mk_eq]; with_reducible apply keeps_mk)
    | with_reducible apply keeps_ite
    | with_reducible apply keeps_ite1
    | split)

theorem State.lpTake_keeps_eq {W : List Part} {Q : Nat → Bool} {s0 tt : State} {vv : Nat} {s : State} {c : Nat} {k : Nat}
    (wpgChn_c : Q (pgChn c) = true) (wchans : Part.chans ∈ W)
    (hK : Keeps W Q s0 s) (e : (State.lpTake s c k) = (tt, vv)) : Keeps W Q s0 tt := by
  have := @State.lpTake_keeps W Q s0 s c k wpgChn_c wchans hK
  rwa [e] at this

theorem State.capture_keeps {W : List Part} {Q : Nat → Bool} {s0 : State} {s : State} {c : Nat} {i : Int} {v : Int}
    (wchans : Part.chans ∈ W)
    (hK : Keeps W Q s0 s) : Keeps W Q s0 (State.capture s c i v) := by
  unfold State.capture
  repeat' (first
    | with_reducible assumption
    | with_reducible exact id
    | with_reducible exact fun k => Mem.wf_writeBytes k
    | with_reducible exact fun k => Mem.wf_erase k
    | with_reducible exact fun k => SMap.wf_set k
    | with_reducible exact fun k => SMap.wf_drop k
    | with_reducible exact fun k => SMap.wf_foldl k
    | with_reducible exact fun k => SMap.wf_foldl (SMap.wf_drop k)
    | with_reducible exact fun _ _ k => absurd k List.not_mem_nil
    | intro _
    | with_reducible apply State.modCh_keeps
    | with_reducible apply keeps_next
    | with_reducible apply keeps_foldl
    | with_reducible apply keeps_foldl1
    | with_reducible exact Or.inr (by assumption)
    | with_reducible exact Or.inl rfl
    | dsimp only
    | (simp only [keeps_mk_eq]; with_reducible apply keeps_mk)
    | with_reducible apply keeps_ite
    | with_reducible apply keeps_ite1
    | split)

theorem State.stepTick_keeps {W : List Part} {Q : Nat → Bool} {s0 : State} {s : State} {c : Nat} {i : Int} {v : Int} {invalid : Bool}
    (wpgChn_c : Q (pgChn c) = true) (wchans : Part.chans ∈ W)
    (hK : Keeps W Q s0 s) : Keeps W Q s0 (State.stepTick s c i v invalid) := by
  unfold State.stepTick
  repeat' (first
    | with_reducible assumption
    | with_reducible exact id
    | with_reducible exact fun k => Mem.wf_writeBytes k
    | with_reducible exact fun k => Mem.wf_erase k
    | with_reducible exact fun k => SMap.wf_set k
    | with_reducible exact fun k => SMap.wf_drop k
    | with_reducible exact fun k => SMap.wf_foldl k
    | with_reducible exact fun k => SMap.wf_foldl (SMap.wf_drop k)
    | with_reducible exact fun _ _ k => absurd k List.not_mem_nil
    | intro _
    | with_reducible apply State.wr_keeps
    | with_reducible apply State.modCh_keeps
    | with_reducible apply State.wrS_keeps
    | with_reducible apply State.capture_keeps
    | with_reducible apply keeps_next
    | with_reducible apply keeps_foldl
    | with_reducible apply keeps_foldl1
    | with_reducible exact Or.inr (by assumption)
    | with_reducible exact Or.inl rfl
    | dsimp only
    | (simp only [keeps_mk_eq]; with_reducible apply keeps_mk)
    | with_reducible apply keeps_ite
    | with_reducible apply keeps_ite1
    | split)

theorem State.evaluate_keeps {W : List Part} {Q : Nat → Bool} {s0 : State} {s : State} {c : Nat} {k : Nat}
    (wiFn_n : ∀ n, Q (iFn n) = true) (wpgBnk__bankOf_c_ : Q (pgBnk (bankOf c)) = true) (wpgChn_n : ∀ n, Q (pgChn n) = true) (wpgStp : Q pgStp = true) (wchans : Part.chans ∈ W) (wports : Part.ports ∈ W) (wgrading : Part.grading ∈ W)
    (hK : Keeps W Q s0 s) : Keeps W Q s0 (State.evaluate s c k) := by
  unfold State.evaluate
  repeat' (first
    | with_reducible assumption
    | with_reducible exact id
    | with_reducible exact fun k => Mem.wf_writeBytes k
    | with_reducible exact fun k => Mem.wf_erase k
    | with_reducible exact fun k => SMap.wf_set k
    | with_reducible exact fun k => SMap.wf_drop k
    | with_reducible exact fun k => SMap.wf_foldl k
    | with_reducible exact fun k => SMap.wf_foldl (SMap.wf_drop k)
    | with_reducible exact fun _ _ k => absurd k List.not_mem_nil
    | intro _
    | with_reducible exact wiFn_n _
    | with_reducible exact wpgChn_n _
    | with_reducible apply State.modCh_keeps
    | with_reducible apply State.lpTake_keeps
    | (refine State.lpTake_keeps_eq ?_ (by assumption) ?_ (by assumption))
    | with_reducible apply State.wrB_keeps
    | with_reducible apply State.conditions_keeps
    | (refine State.conditions_keeps_eq (by assumption) ?_ (by assumption))
    | with_reducible apply State.stepTick_keeps
    | with_reducible apply State.transition_keeps
    | with_reducible apply State.takeAction_keeps
    | with_reducible apply keeps_next
    | with_reducible apply keeps_foldl
    | with_reducible apply keeps_foldl1
    | with_reducible exact Or.inr (by assumption)
    | with_reducible exact Or.inl rfl
    | dsimp only
    | (simp only [keeps_mk_eq]; with_reducible apply keeps_mk)
    | with_reducible apply keeps_ite
    | with_reducible apply keeps_ite1
    | split)

theorem State.lpCmdWrite_keeps {W : List Part} {Q : Nat → Bool} {s0 : State} {s : State} {c : Nat} {d : Word}
    (wpgChn_c : Q (pgChn c) = true) (wchans : Part.chans ∈ W)
    (hK : Keeps W Q s0 s) : Keeps W Q s0 (State.lpCmdWrite s c d) := by
  unfold State.lpCmdWrite
  repeat' (first
    | with_reducible assumption
    | with_reducible exact id
    | with_reducible exact fun k => Mem.wf_writeBytes k
    | with_reducible exact fun k => Mem.wf_erase k
    | with_reducible exact fun k => SMap.wf_set k
    | with_reducible exact fun k => SMap.wf_drop k
    | with_reducible exact fun k => SMap.wf_foldl k
    | with_reducible exact fun k => SMap.wf_foldl (SMap.wf_drop k)
    | with_reducible exact fun _ _ k => absurd k List.not_mem_nil
    | intro _
    | with_reducible apply State.lpResult_keeps
    | with_reducible apply State.modCh_keeps
    | with_reducible apply keeps_next
    | with_reducible apply keeps_foldl
    | with_reducible apply keeps_foldl1
    | with_reducible exact Or.inr (by assumption)
    | with_reducible exact Or.inl rfl
    | dsimp only
    | (simp only [keeps_mk_eq]; with_reducible apply keeps_mk)
    | with_reducible apply keeps_ite
    | with_reducible apply keeps_ite1
    | split)

theorem execLpSwap_keeps {W : List Part} {Q : Nat → Bool} {s0 : State} {r : Req} {c : Fin 512} {d : Word} {s : State}
    (w50 : Q 50 = true) (wiCode_8 : Q (iCode 8) = true) (wiFn_n : ∀ n, Q (iFn n) = true) (wpgChn_c_val : Q (pgChn c.val) = true) (wpgEvr : Q pgEvr = true) (wpgSys : Q pgSys = true) (wrecorder : Part.recorder ∈ W) (wchans : Part.chans ∈ W) (wfield : Part.field ∈ W)
    (hK : Keeps W Q s0 s) : Res.Keeps W Q s0 (execLpSwap r c d s) := by
  unfold execLpSwap
  repeat' (first
    | with_reducible assumption
    | with_reducible exact id
    | with_reducible exact fun k => Mem.wf_writeBytes k
    | with_reducible exact fun k => Mem.wf_erase k
    | with_reducible exact fun k => SMap.wf_set k
    | with_reducible exact fun k => SMap.wf_drop k
    | with_reducible exact fun k => SMap.wf_foldl k
    | with_reducible exact fun k => SMap.wf_foldl (SMap.wf_drop k)
    | with_reducible exact fun _ _ k => absurd k List.not_mem_nil
    | intro _
    | with_reducible exact wiFn_n _
    | with_reducible apply State.access_keeps
    | with_reducible apply State.start_keeps
    | with_reducible apply State.lpCmdWrite_keeps
    | with_reducible apply keeps_next
    | with_reducible apply keeps_foldl
    | with_reducible apply keeps_foldl1
    | with_reducible exact Or.inr (by assumption)
    | with_reducible exact Or.inl rfl
    | dsimp only
    | (simp only [keeps_mk_eq]; with_reducible apply keeps_mk)
    | with_reducible apply keeps_ite
    | with_reducible apply keeps_ite1
    | split)

theorem execLpCancel_keeps {W : List Part} {Q : Nat → Bool} {s0 : State} {r : Req} {c : Fin 512} {d : Word} {s : State}
    (w50 : Q 50 = true) (wiCode_8 : Q (iCode 8) = true) (wiFn_n : ∀ n, Q (iFn n) = true) (wpgChn_c_val : Q (pgChn c.val) = true) (wpgEvr : Q pgEvr = true) (wpgSys : Q pgSys = true) (wrecorder : Part.recorder ∈ W) (wchans : Part.chans ∈ W) (wfield : Part.field ∈ W)
    (hK : Keeps W Q s0 s) : Res.Keeps W Q s0 (execLpCancel r c d s) := by
  unfold execLpCancel
  repeat' (first
    | with_reducible assumption
    | with_reducible exact id
    | with_reducible exact fun k => Mem.wf_writeBytes k
    | with_reducible exact fun k => Mem.wf_erase k
    | with_reducible exact fun k => SMap.wf_set k
    | with_reducible exact fun k => SMap.wf_drop k
    | with_reducible exact fun k => SMap.wf_foldl k
    | with_reducible exact fun k => SMap.wf_foldl (SMap.wf_drop k)
    | with_reducible exact fun _ _ k => absurd k List.not_mem_nil
    | intro _
    | with_reducible exact wiFn_n _
    | with_reducible apply State.access_keeps
    | with_reducible apply State.start_keeps
    | with_reducible apply State.lpCmdWrite_keeps
    | with_reducible apply keeps_next
    | with_reducible apply keeps_foldl
    | with_reducible apply keeps_foldl1
    | with_reducible exact Or.inr (by assumption)
    | with_reducible exact Or.inl rfl
    | dsimp only
    | (simp only [keeps_mk_eq]; with_reducible apply keeps_mk)
    | with_reducible apply keeps_ite
    | with_reducible apply keeps_ite1
    | split)

theorem execLpJump_keeps {W : List Part} {Q : Nat → Bool} {s0 : State} {r : Req} {c : Fin 512} {d : Word} {s : State}
    (w50 : Q 50 = true) (wiCode_8 : Q (iCode 8) = true) (wiFn_n : ∀ n, Q (iFn n) = true) (wpgChn_c_val : Q (pgChn c.val) = true) (wpgEvr : Q pgEvr = true) (wpgSys : Q pgSys = true) (wrecorder : Part.recorder ∈ W) (wchans : Part.chans ∈ W) (wfield : Part.field ∈ W)
    (hK : Keeps W Q s0 s) : Res.Keeps W Q s0 (execLpJump r c d s) := by
  unfold execLpJump
  repeat' (first
    | with_reducible assumption
    | with_reducible exact id
    | with_reducible exact fun k => Mem.wf_writeBytes k
    | with_reducible exact fun k => Mem.wf_erase k
    | with_reducible exact fun k => SMap.wf_set k
    | with_reducible exact fun k => SMap.wf_drop k
    | with_reducible exact fun k => SMap.wf_foldl k
    | with_reducible exact fun k => SMap.wf_foldl (SMap.wf_drop k)
    | with_reducible exact fun _ _ k => absurd k List.not_mem_nil
    | intro _
    | with_reducible exact wiFn_n _
    | with_reducible apply State.access_keeps
    | with_reducible apply State.start_keeps
    | with_reducible apply State.lpCmdWrite_keeps
    | with_reducible apply keeps_next
    | with_reducible apply keeps_foldl
    | with_reducible apply keeps_foldl1
    | with_reducible exact Or.inr (by assumption)
    | with_reducible exact Or.inl rfl
    | dsimp only
    | (simp only [keeps_mk_eq]; with_reducible apply keeps_mk)
    | with_reducible apply keeps_ite
    | with_reducible apply keeps_ite1
    | split)

theorem execLpAbort_keeps {W : List Part} {Q : Nat → Bool} {s0 : State} {r : Req} {c : Fin 512} {d : Word} {s : State}
    (w50 : Q 50 = true) (wiCode_8 : Q (iCode 8) = true) (wiFn_n : ∀ n, Q (iFn n) = true) (wpgChn_c_val : Q (pgChn c.val) = true) (wpgEvr : Q pgEvr = true) (wpgSys : Q pgSys = true) (wrecorder : Part.recorder ∈ W) (wchans : Part.chans ∈ W) (wfield : Part.field ∈ W)
    (hK : Keeps W Q s0 s) : Res.Keeps W Q s0 (execLpAbort r c d s) := by
  unfold execLpAbort
  repeat' (first
    | with_reducible assumption
    | with_reducible exact id
    | with_reducible exact fun k => Mem.wf_writeBytes k
    | with_reducible exact fun k => Mem.wf_erase k
    | with_reducible exact fun k => SMap.wf_set k
    | with_reducible exact fun k => SMap.wf_drop k
    | with_reducible exact fun k => SMap.wf_foldl k
    | with_reducible exact fun k => SMap.wf_foldl (SMap.wf_drop k)
    | with_reducible exact fun _ _ k => absurd k List.not_mem_nil
    | intro _
    | with_reducible exact wiFn_n _
    | with_reducible apply State.access_keeps
    | with_reducible apply State.start_keeps
    | with_reducible apply State.lpCmdWrite_keeps
    | with_reducible apply keeps_next
    | with_reducible apply keeps_foldl
    | with_reducible apply keeps_foldl1
    | with_reducible exact Or.inr (by assumption)
    | with_reducible exact Or.inl rfl
    | dsimp only
    | (simp only [keeps_mk_eq]; with_reducible apply keeps_mk)
    | with_reducible apply keeps_ite
    | with_reducible apply keeps_ite1
    | split)

theorem execLpRelease_keeps {W : List Part} {Q : Nat → Bool} {s0 : State} {r : Req} {c : Fin 512} {d : Word} {s : State}
    (w50 : Q 50 = true) (wiCode_8 : Q (iCode 8) = true) (wiFn_n : ∀ n, Q (iFn n) = true) (wpgChn_c_val : Q (pgChn c.val) = true) (wpgEvr : Q pgEvr = true) (wpgSys : Q pgSys = true) (wrecorder : Part.recorder ∈ W) (wchans : Part.chans ∈ W) (wfield : Part.field ∈ W)
    (hK : Keeps W Q s0 s) : Res.Keeps W Q s0 (execLpRelease r c d s) := by
  unfold execLpRelease
  repeat' (first
    | with_reducible assumption
    | with_reducible exact id
    | with_reducible exact fun k => Mem.wf_writeBytes k
    | with_reducible exact fun k => Mem.wf_erase k
    | with_reducible exact fun k => SMap.wf_set k
    | with_reducible exact fun k => SMap.wf_drop k
    | with_reducible exact fun k => SMap.wf_foldl k
    | with_reducible exact fun k => SMap.wf_foldl (SMap.wf_drop k)
    | with_reducible exact fun _ _ k => absurd k List.not_mem_nil
    | intro _
    | with_reducible exact wiFn_n _
    | with_reducible apply State.access_keeps
    | with_reducible apply State.start_keeps
    | with_reducible apply State.lpCmdWrite_keeps
    | with_reducible apply keeps_next
    | with_reducible apply keeps_foldl
    | with_reducible apply keeps_foldl1
    | with_reducible exact Or.inr (by assumption)
    | with_reducible exact Or.inl rfl
    | dsimp only
    | (simp only [keeps_mk_eq]; with_reducible apply keeps_mk)
    | with_reducible apply keeps_ite
    | with_reducible apply keeps_ite1
    | split)

theorem execLpCmdTakesEffect_keeps {W : List Part} {Q : Nat → Bool} {s0 : State} {c : Fin 512} {s : State}
    (wiFn_n : ∀ n, Q (iFn n) = true) (wpgBnk__bankOf_c_val_ : Q (pgBnk (bankOf c.val)) = true) (wpgChn_n : ∀ n, Q (pgChn n) = true) (wpgStp : Q pgStp = true) (wchans : Part.chans ∈ W) (wports : Part.ports ∈ W) (wgrading : Part.grading ∈ W)
    (hK : Keeps W Q s0 s) : Res.Keeps W Q s0 (execLpCmdTakesEffect c s) := by
  unfold execLpCmdTakesEffect
  repeat' (first
    | with_reducible assumption
    | with_reducible exact id
    | with_reducible exact fun k => Mem.wf_writeBytes k
    | with_reducible exact fun k => Mem.wf_erase k
    | with_reducible exact fun k => SMap.wf_set k
    | with_reducible exact fun k => SMap.wf_drop k
    | with_reducible exact fun k => SMap.wf_foldl k
    | with_reducible exact fun k => SMap.wf_foldl (SMap.wf_drop k)
    | with_reducible exact fun _ _ k => absurd k List.not_mem_nil
    | intro _
    | with_reducible exact wiFn_n _
    | with_reducible exact wpgChn_n _
    | with_reducible apply State.start_keeps
    | with_reducible apply State.evaluate_keeps
    | with_reducible apply State.lpBeforeB_keeps
    | with_reducible apply keeps_next
    | with_reducible apply keeps_foldl
    | with_reducible apply keeps_foldl1
    | with_reducible exact Or.inr (by assumption)
    | with_reducible exact Or.inl rfl
    | dsimp only
    | (simp only [keeps_mk_eq]; with_reducible apply keeps_mk)
    | with_reducible apply keeps_ite
    | with_reducible apply keeps_ite1
    | split)

theorem State.openAll_keeps {W : List Part} {Q : Nat → Bool} {s0 : State} {s : State} {k : Nat} {spacing : Nat} {batch : Nat} {x1 : List Nat} {x2 : Nat}
    (wchans : Part.chans ∈ W)
    (hK : Keeps W Q s0 s) : Keeps W Q s0 (State.openAll s k spacing batch x1 x2) := by
  induction x1 generalizing s k spacing batch x2 with
  | nil =>
    unfold State.openAll
    repeat' (first
      | with_reducible assumption
      | with_reducible exact id
      | with_reducible exact fun k => Mem.wf_writeBytes k
      | with_reducible exact fun k => Mem.wf_erase k
      | with_reducible exact fun k => SMap.wf_set k
      | with_reducible exact fun k => SMap.wf_drop k
      | with_reducible exact fun k => SMap.wf_foldl k
      | with_reducible exact fun k => SMap.wf_foldl (SMap.wf_drop k)
      | with_reducible exact fun _ _ k => absurd k List.not_mem_nil
      | intro _
      | with_reducible apply State.modCh_keeps
      | with_reducible apply keeps_next
      | with_reducible apply keeps_foldl
      | with_reducible apply keeps_foldl1
      | with_reducible exact Or.inr (by assumption)
      | with_reducible exact Or.inl rfl
      | dsimp only
      | (simp only [keeps_mk_eq]; with_reducible apply keeps_mk)
      | with_reducible apply keeps_ite
      | with_reducible apply keeps_ite1
      | split)
  | cons a l ih =>
    unfold State.openAll
    repeat' (first
      | with_reducible assumption
      | with_reducible apply ih
      | with_reducible exact id
      | with_reducible exact fun k => Mem.wf_writeBytes k
      | with_reducible exact fun k => Mem.wf_erase k
      | with_reducible exact fun k => SMap.wf_set k
      | with_reducible exact fun k => SMap.wf_drop k
      | with_reducible exact fun k => SMap.wf_foldl k
      | with_reducible exact fun k => SMap.wf_foldl (SMap.wf_drop k)
      | with_reducible exact fun _ _ k => absurd k List.not_mem_nil
      | intro _
      | with_reducible apply State.modCh_keeps
      | with_reducible apply keeps_next
      | with_reducible apply keeps_foldl
      | with_reducible apply keeps_foldl1
      | with_reducible exact Or.inr (by assumption)
      | with_reducible exact Or.inl rfl
      | dsimp only
      | (simp only [keeps_mk_eq]; with_reducible apply keeps_mk)
      | with_reducible apply keeps_ite
      | with_reducible apply keeps_ite1
      | split)

theorem State.tallyGroup_keeps {W : List Part} {Q : Nat → Bool} {s0 : State} {s : State} {k : Nat} {g : Nat}
    (wiFn_n : ∀ n, Q (iFn n) = true) (wpgStp : Q pgStp = true) (wchans : Part.chans ∈ W) (wbus : Part.bus ∈ W)
    (hK : Keeps W Q s0 s) : Keeps W Q s0 (State.tallyGroup s k g) := by
  unfold State.tallyGroup
  repeat' (first
    | with_reducible assumption
    | with_reducible exact id
    | with_reducible exact fun k => Mem.wf_writeBytes k
    | with_reducible exact fun k => Mem.wf_erase k
    | with_reducible exact fun k => SMap.wf_set k
    | with_reducible exact fun k => SMap.wf_drop k
    | with_reducible exact fun k => SMap.wf_foldl k
    | with_reducible exact fun k => SMap.wf_foldl (SMap.wf_drop k)
    | with_reducible exact fun _ _ k => absurd k List.not_mem_nil
    | intro _
    | with_reducible exact wiFn_n _
    | with_reducible apply State.wr_keeps
    | with_reducible apply State.raise_keeps
    | with_reducible apply State.openAll_keeps
    | with_reducible apply keeps_next
    | with_reducible apply keeps_foldl
    | with_reducible apply keeps_foldl1
    | with_reducible exact Or.inr (by assumption)
    | with_reducible exact Or.inl rfl
    | dsimp only
    | (simp only [keeps_mk_eq]; with_reducible apply keeps_mk)
    | with_reducible apply keeps_ite
    | with_reducible apply keeps_ite1
    | split)

theorem execGateTally_keeps {W : List Part} {Q : Nat → Bool} {s0 : State} {s : State}
    (wiFn_n : ∀ n, Q (iFn n) = true) (wiForce_pgStp : Q (iForce pgStp) = true) (wpgStp : Q pgStp = true) (wchans : Part.chans ∈ W) (wbus : Part.bus ∈ W)
    (hK : Keeps W Q s0 s) : Res.Keeps W Q s0 (execGateTally s) := by
  unfold execGateTally
  repeat' (first
    | with_reducible assumption
    | with_reducible exact id
    | with_reducible exact fun k => Mem.wf_writeBytes k
    | with_reducible exact fun k => Mem.wf_erase k
    | with_reducible exact fun k => SMap.wf_set k
    | with_reducible exact fun k => SMap.wf_drop k
    | with_reducible exact fun k => SMap.wf_foldl k
    | with_reducible exact fun k => SMap.wf_foldl (SMap.wf_drop k)
    | with_reducible exact fun _ _ k => absurd k List.not_mem_nil
    | intro _
    | with_reducible exact wiFn_n _
    | with_reducible apply State.start_keeps
    | with_reducible apply State.copyInst_keeps
    | with_reducible apply State.tallyGroup_keeps
    | with_reducible apply keeps_next
    | with_reducible apply keeps_foldl
    | with_reducible apply keeps_foldl1
    | with_reducible exact Or.inr (by assumption)
    | with_reducible exact Or.inl rfl
    | dsimp only
    | (simp only [keeps_mk_eq]; with_reducible apply keeps_mk)
    | with_reducible apply keeps_ite
    | with_reducible apply keeps_ite1
    | split)

theorem State.gateCmd_keeps {W : List Part} {Q : Nat → Bool} {s0 : State} {s : State} {d : Word}
    (wbus : Part.bus ∈ W)
    (hK : Keeps W Q s0 s) : Keeps W Q s0 (State.gateCmd s d) := by
  unfold State.gateCmd
  repeat' (first
    | with_reducible assumption
    | with_reducible exact id
    | with_reducible exact fun k => Mem.wf_writeBytes k
    | with_reducible exact fun k => Mem.wf_erase k
    | with_reducible exact fun k => SMap.wf_set k
    | with_reducible exact fun k => SMap.wf_drop k
    | with_reducible exact fun k => SMap.wf_foldl k
    | with_reducible exact fun k => SMap.wf_foldl (SMap.wf_drop k)
    | with_reducible exact fun _ _ k => absurd k List.not_mem_nil
    | intro _
    | with_reducible apply keeps_next
    | with_reducible apply keeps_foldl
    | with_reducible apply keeps_foldl1
    | with_reducible exact Or.inr (by assumption)
    | with_reducible exact Or.inl rfl
    | dsimp only
    | (simp only [keeps_mk_eq]; with_reducible apply keeps_mk)
    | with_reducible apply keeps_ite
    | with_reducible apply keeps_ite1
    | split)

theorem execGateReleaseCmd_keeps {W : List Part} {Q : Nat → Bool} {s0 : State} {r : Req} {d : Word} {s : State}
    (w50 : Q 50 = true) (wiCode_8 : Q (iCode 8) = true) (wiFn_n : ∀ n, Q (iFn n) = true) (wpgEvr : Q pgEvr = true) (wpgSys : Q pgSys = true) (wrecorder : Part.recorder ∈ W) (wbus : Part.bus ∈ W) (wfield : Part.field ∈ W)
    (hK : Keeps W Q s0 s) : Res.Keeps W Q s0 (execGateReleaseCmd r d s) := by
  unfold execGateReleaseCmd
  repeat' (first
    | with_reducible assumption
    | with_reducible exact id
    | with_reducible exact fun k => Mem.wf_writeBytes k
    | with_reducible exact fun k => Mem.wf_erase k
    | with_reducible exact fun k => SMap.wf_set k
    | with_reducible exact fun k => SMap.wf_drop k
    | with_reducible exact fun k => SMap.wf_foldl k
    | with_reducible exact fun k => SMap.wf_foldl (SMap.wf_drop k)
    | with_reducible exact fun _ _ k => absurd k List.not_mem_nil
    | intro _
    | with_reducible exact wiFn_n _
    | with_reducible apply State.access_keeps
    | with_reducible apply State.start_keeps
    | with_reducible apply State.gateCmd_keeps
    | with_reducible apply keeps_next
    | with_reducible apply keeps_foldl
    | with_reducible apply keeps_foldl1
    | with_reducible exact Or.inr (by assumption)
    | with_reducible exact Or.inl rfl
    | dsimp only
    | (simp only [keeps_mk_eq]; with_reducible apply keeps_mk)
    | with_reducible apply keeps_ite
    | with_reducible apply keeps_ite1
    | split)

end Sys2Proof.Machine
end

