-- ==== Sys2Proof/Laws/KeepsTrip.lean ====
section
/-! SUPPORT. What each function and command of Machine/Trip.lean keeps. -/
set_option linter.all false
set_option Elab.async false
namespace Sys2Proof.Machine

theorem State.setTripSt_keeps {W : List Part} {Q : Nat → Bool} {s0 : State} {s : State} {b : Nat} {v : Nat}
    (wpgBnk_b : Q (pgBnk b) = true)
    (hK : Keeps W Q s0 s) : Keeps W Q s0 (State.setTripSt s b v) := by
  unfold State.setTripSt
  repeat' (first
    | with_reducible assumption
    | with_reducible exact id
    | with_reducible exact fun k => Mem.wf_writeBytes k
    | with_reducible exact fun k => Mem.wf_erase k
    | with_reducible exact fun k => SMap.wf_set k
    | with_reducible exact fun k => SMap.wf_drop k
    | with_reducible exact fun k => SMap.wf_foldl k
    | with_reducible exact fun k => SMap.wf_foldl (SMap.wf_drop k)
    | with_reducible exact fun _ _ k => absurd k List.not_mem_nil
    | intro _
    | with_reducible apply State.wrB_keeps
    | with_reducible apply State.wr_keeps
    | with_reducible apply keeps_next
    | with_reducible apply keeps_foldl
    | with_reducible apply keeps_foldl1
    | with_reducible exact Or.inr (by assumption)
    | with_reducible exact Or.inl rfl
    | dsimp only
    | (simp only [keeps_mk_eq]; with_reducible apply keeps_mk)
    | with_reducible apply keeps_ite
    | with_reducible apply keeps_ite1
    | split)

theorem State.enterTripped_keeps {W : List Part} {Q : Nat → Bool} {s0 : State} {s : State} {c : Nat}
    (wiFn_n : ∀ n, Q (iFn n) = true) (wpgChn_c : Q (pgChn c) = true)
    (hK : Keeps W Q s0 s) : Keeps W Q s0 (State.enterTripped s c) := by
  unfold State.enterTripped
  repeat' (first
    | with_reducible assumption
    | with_reducible exact id
    | with_reducible exact fun k => Mem.wf_writeBytes k
    | with_reducible exact fun k => Mem.wf_erase k
    | with_reducible exact fun k => SMap.wf_set k
    | with_reducible exact fun k => SMap.wf_drop k
    | with_reducible exact fun k => SMap.wf_foldl k
    | with_reducible exact fun k => SMap.wf_foldl (SMap.wf_drop k)
    | with_reducible exact fun _ _ k => absurd k List.not_mem_nil
    | intro _
    | with_reducible exact wiFn_n _
    | with_reducible apply State.raise_keeps
    | with_reducible apply State.setCst_keeps
    | with_reducible apply State.wr_keeps
    | with_reducible apply keeps_next
    | with_reducible apply keeps_foldl
    | with_reducible apply keeps_foldl1
    | with_reducible exact Or.inr (by assumption)
    | with_reducible exact Or.inl rfl
    | dsimp only
    | (simp only [keeps_mk_eq]; with_reducible apply keeps_mk)
    | with_reducible apply keeps_ite
    | with_reducible apply keeps_ite1
    | split)

theorem State.holdBank_keeps {W : List Part} {Q : Nat → Bool} {s0 : State} {s : State} {b : Nat}
    (wiFn_n : ∀ n, Q (iFn n) = true) (wpgChn_n : ∀ n, Q (pgChn n) = true)
    (hK : Keeps W Q s0 s) : Keeps W Q s0 (State.holdBank s b) := by
  unfold State.holdBank
  repeat' (first
    | with_reducible assumption
    | with_reducible exact id
    | with_reducible exact fun k => Mem.wf_writeBytes k
    | with_reducible exact fun k => Mem.wf_erase k
    | with_reducible exact fun k => SMap.wf_set k
    | with_reducible exact fun k => SMap.wf_drop k
    | with_reducible exact fun k => SMap.wf_foldl k
    | with_reducible exact fun k => SMap.wf_foldl (SMap.wf_drop k)
    | with_reducible exact fun _ _ k => absurd k List.not_mem_nil
    | intro _
    | with_reducible exact wiFn_n _
    | with_reducible exact wpgChn_n _
    | with_reducible apply State.enterTripped_keeps
    | with_reducible apply State.wr_keeps
    | with_reducible apply keeps_next
    | with_reducible apply keeps_foldl
    | with_reducible apply keeps_foldl1
    | with_reducible exact Or.inr (by assumption)
    | with_reducible exact Or.inl rfl
    | dsimp only
    | (simp only [keeps_mk_eq]; with_reducible apply keeps_mk)
    | with_reducible apply keeps_ite
    | with_reducible apply keeps_ite1
    | split)

theorem State.tripBank_keeps {W : List Part} {Q : Nat → Bool} {s0 : State} {s : State} {b : Nat} {code : Nat} {k : Nat} {sets : Nat} {stream : Option Nat} {atOnce : Bool}
    (wiCode_16 : Q (iCode 16) = true) (wiFn_n : ∀ n, Q (iFn n) = true) (wpgBnk_b : Q (pgBnk b) = true) (wpgChn_n : ∀ n, Q (pgChn n) = true) (wpgEvr : Q pgEvr = true) (wpgTrp : Q pgTrp = true) (wrecorder : Part.recorder ∈ W) (wbanks : Part.banks ∈ W)
    (hK : Keeps W Q s0 s) : Keeps W Q s0 (State.tripBank s b code k sets stream atOnce) := by
  unfold State.tripBank
  repeat' (first
    | with_reducible assumption
    | with_reducible exact id
    | with_reducible exact fun k => Mem.wf_writeBytes k
    | with_reducible exact fun k => Mem.wf_erase k
    | with_reducible exact fun k => SMap.wf_set k
    | with_reducible exact fun k => SMap.wf_drop k
    | with_reducible exact fun k => SMap.wf_foldl k
    | with_reducible exact fun k => SMap.wf_foldl (SMap.wf_drop k)
    | with_reducible exact fun _ _ k => absurd k List.not_mem_nil
    | intro _
    | with_reducible exact wiFn_n _
    | with_reducible exact wpgChn_n _
    | with_reducible apply State.modBk_keeps
    | with_reducible apply State.bump_keeps
    | with_reducible apply State.wr_keeps
    | with_reducible apply State.wrB_keeps
    | with_reducible apply State.wr2_keeps
    | with_reducible apply State.raise_keeps
    | with_reducible apply State.holdBank_keeps
    | with_reducible apply State.setTripSt_keeps
    | with_reducible apply State.report_keeps
    | with_reducible apply keeps_next
    | with_reducible apply keeps_foldl
    | with_reducible apply keeps_foldl1
    | with_reducible exact Or.inr (by assumption)
    | with_reducible exact Or.inl rfl
    | dsimp only
    | (simp only [keeps_mk_eq]; with_reducible apply keeps_mk)
    | with_reducible apply keeps_ite
    | with_reducible apply keeps_ite1
    | split)

theorem State.tripHold_keeps {W : List Part} {Q : Nat → Bool} {s0 : State} {s : State} {b : Nat} {n : Nat}
    (wpgBnk_b : Q (pgBnk b) = true) (wbanks : Part.banks ∈ W)
    (hK : Keeps W Q s0 s) : Keeps W Q s0 (State.tripHold s b n) := by
  unfold State.tripHold
  repeat' (first
    | with_reducible assumption
    | with_reducible exact id
    | with_reducible exact fun k => Mem.wf_writeBytes k
    | with_reducible exact fun k => Mem.wf_erase k
    | with_reducible exact fun k => SMap.wf_set k
    | with_reducible exact fun k => SMap.wf_drop k
    | with_reducible exact fun k => SMap.wf_foldl k
    | with_reducible exact fun k => SMap.wf_foldl (SMap.wf_drop k)
    | with_reducible exact fun _ _ k => absurd k List.not_mem_nil
    | intro _
    | with_reducible apply State.modBk_keeps
    | with_reducible apply State.setTripSt_keeps
    | with_reducible apply keeps_next
    | with_reducible apply keeps_foldl
    | with_reducible apply keeps_foldl1
    | with_reducible exact Or.inr (by assumption)
    | with_reducible exact Or.inl rfl
    | dsimp only
    | (simp only [keeps_mk_eq]; with_reducible apply keeps_mk)
    | with_reducible apply keeps_ite
    | with_reducible apply keeps_ite1
    | split)

theorem execTripHoldExpiry_keeps {W : List Part} {Q : Nat → Bool} {s0 : State} {b : Fin 32} {s : State}
    (wpgBnk_b_val : Q (pgBnk b.val) = true) (wbanks : Part.banks ∈ W)
    (hK : Keeps W Q s0 s) : Res.Keeps W Q s0 (execTripHoldExpiry b s) := by
  unfold execTripHoldExpiry
  repeat' (first
    | with_reducible assumption
    | with_reducible exact id
    | with_reducible exact fun k => Mem.wf_writeBytes k
    | with_reducible exact fun k => Mem.wf_erase k
    | with_reducible exact fun k => SMap.wf_set k
    | with_reducible exact fun k => SMap.wf_drop k
    | with_reducible exact fun k => SMap.wf_foldl k
    | with_reducible exact fun k => SMap.wf_foldl (SMap.wf_drop k)
    | with_reducible exact fun _ _ k => absurd k List.not_mem_nil
    | intro _
    | with_reducible apply State.tripHold_keeps
    | with_reducible apply State.start_keeps
    | with_reducible apply keeps_next
    | with_reducible apply keeps_foldl
    | with_reducible apply keeps_foldl1
    | with_reducible exact Or.inr (by assumption)
    | with_reducible exact Or.inl rfl
    | dsimp only
    | (simp only [keeps_mk_eq]; with_reducible apply keeps_mk)
    | with_reducible apply keeps_ite
    | with_reducible apply keeps_ite1
    | split)

theorem State.latchChan_keeps {W : List Part} {Q : Nat → Bool} {s0 : State} {s : State} {c : Nat} {code : Nat}
    (wiCode_17 : Q (iCode 17) = true) (wiFn_n : ∀ n, Q (iFn n) = true) (wpgBnk__bankOf_c_ : Q (pgBnk (bankOf c)) = true) (wpgChn_c : Q (pgChn c) = true) (wpgEvr : Q pgEvr = true) (wrecorder : Part.recorder ∈ W)
    (hK : Keeps W Q s0 s) : Keeps W Q s0 (State.latchChan s c code) := by
  unfold State.latchChan
  repeat' (first
    | with_reducible assumption
    | with_reducible exact id
    | with_reducible exact fun k => Mem.wf_writeBytes k
    | with_reducible exact fun k => Mem.wf_erase k
    | with_reducible exact fun k => SMap.wf_set k
    | with_reducible exact fun k => SMap.wf_drop k
    | with_reducible exact fun k => SMap.wf_foldl k
    | with_reducible exact fun k => SMap.wf_foldl (SMap.wf_drop k)
    | with_reducible exact fun _ _ k => absurd k List.not_mem_nil
    | intro _
    | with_reducible exact wiFn_n _
    | with_reducible apply State.wr_keeps
    | with_reducible apply State.bump_keeps
    | with_reducible apply State.enterTripped_keeps
    | with_reducible apply State.raise_keeps
    | with_reducible apply State.report_keeps
    | with_reducible apply keeps_next
    | with_reducible apply keeps_foldl
    | with_reducible apply keeps_foldl1
    | with_reducible exact Or.inr (by assumption)
    | with_reducible exact Or.inl rfl
    | dsimp only
    | (simp only [keeps_mk_eq]; with_reducible apply keeps_mk)
    | with_reducible apply keeps_ite
    | with_reducible apply keeps_ite1
    | split)

theorem State.slowCheck_keeps {W : List Part} {Q : Nat → Bool} {s0 : State} {s : State} {c : Nat}
    (wiCode_17 : Q (iCode 17) = true) (wiFn_n : ∀ n, Q (iFn n) = true) (wpgBnk__bankOf_c_ : Q (pgBnk (bankOf c)) = true) (wpgChn_c : Q (pgChn c) = true) (wpgEvr : Q pgEvr = true) (wrecorder : Part.recorder ∈ W)
    (hK : Keeps W Q s0 s) : Keeps W Q s0 (State.slowCheck s c) := by
  unfold State.slowCheck
  repeat' (first
    | with_reducible assumption
    | with_reducible exact id
    | with_reducible exact fun k => Mem.wf_writeBytes k
    | with_reducible exact fun k => Mem.wf_erase k
    | with_reducible exact fun k => SMap.wf_set k
    | with_reducible exact fun k => SMap.wf_drop k
    | with_reducible exact fun k => SMap.wf_foldl k
    | with_reducible exact fun k => SMap.wf_foldl (SMap.wf_drop k)
    | with_reducible exact fun _ _ k => absurd k List.not_mem_nil
    | intro _
    | with_reducible exact wiFn_n _
    | with_reducible apply State.latchChan_keeps
    | with_reducible apply keeps_next
    | with_reducible apply keeps_foldl
    | with_reducible apply keeps_foldl1
    | with_reducible exact Or.inr (by assumption)
    | with_reducible exact Or.inl rfl
    | dsimp only
    | (simp only [keeps_mk_eq]; with_reducible apply keeps_mk)
    | with_reducible apply keeps_ite
    | with_reducible apply keeps_ite1
    | split)

theorem State.tempCheck_keeps {W : List Part} {Q : Nat → Bool} {s0 : State} {s : State} {b : Nat} {k : Nat}
    (wiCode_16 : Q (iCode 16) = true) (wiFn_n : ∀ n, Q (iFn n) = true) (wpgBnk_b : Q (pgBnk b) = true) (wpgChn_n : ∀ n, Q (pgChn n) = true) (wpgEvr : Q pgEvr = true) (wpgTrp : Q pgTrp = true) (wrecorder : Part.recorder ∈ W) (wbanks : Part.banks ∈ W)
    (hK : Keeps W Q s0 s) : Keeps W Q s0 (State.tempCheck s b k) := by
  unfold State.tempCheck
  repeat' (first
    | with_reducible assumption
    | with_reducible exact id
    | with_reducible exact fun k => Mem.wf_writeBytes k
    | with_reducible exact fun k => Mem.wf_erase k
    | with_reducible exact fun k => SMap.wf_set k
    | with_reducible exact fun k => SMap.wf_drop k
    | with_reducible exact fun k => SMap.wf_foldl k
    | with_reducible exact fun k => SMap.wf_foldl (SMap.wf_drop k)
    | with_reducible exact fun _ _ k => absurd k List.not_mem_nil
    | intro _
    | with_reducible exact wiFn_n _
    | with_reducible exact wpgChn_n _
    | with_reducible apply State.modBk_keeps
    | with_reducible apply State.tripBank_keeps
    | with_reducible apply keeps_next
    | with_reducible apply keeps_foldl
    | with_reducible apply keeps_foldl1
    | with_reducible exact Or.inr (by assumption)
    | with_reducible exact Or.inl rfl
    | dsimp only
    | (simp only [keeps_mk_eq]; with_reducible apply keeps_mk)
    | with_reducible apply keeps_ite
    | with_reducible apply keeps_ite1
    | split)

theorem State.leaveTripped_keeps {W : List Part} {Q : Nat → Bool} {s0 : State} {s : State} {c : Nat} {k : Nat} {act : Nat}
    (wiFn_n : ∀ n, Q (iFn n) = true) (wpgBnk__bankOf_c_ : Q (pgBnk (bankOf c)) = true) (wpgChn_n : ∀ n, Q (pgChn n) = true) (wpgStp : Q pgStp = true) (wchans : Part.chans ∈ W) (wports : Part.ports ∈ W) (wgrading : Part.grading ∈ W)
    (hK : Keeps W Q s0 s) : Keeps W Q s0 (State.leaveTripped s c k act) := by
  unfold State.leaveTripped
  repeat' (first
    | with_reducible assumption
    | with_reducible exact id
    | with_reducible exact fun k => Mem.wf_writeBytes k
    | with_reducible exact fun k => Mem.wf_erase k
    | with_reducible exact fun k => SMap.wf_set k
    | with_reducible exact fun k => SMap.wf_drop k
    | with_reducible exact fun k => SMap.wf_foldl k
    | with_reducible exact fun k => SMap.wf_foldl (SMap.wf_drop k)
    | with_reducible exact fun _ _ k => absurd k List.not_mem_nil
    | intro _
    | with_reducible exact wiFn_n _
    | with_reducible exact wpgChn_n _
    | with_reducible apply State.raise_keeps
    | with_reducible apply State.disarm_keeps
    | with_reducible apply State.setCst_keeps
    | with_reducible apply State.resume_keeps
    | with_reducible apply keeps_next
    | with_reducible apply keeps_foldl
    | with_reducible apply keeps_foldl1
    | with_reducible exact Or.inr (by assumption)
    | with_reducible exact Or.inl rfl
    | dsimp only
    | (simp only [keeps_mk_eq]; with_reducible apply keeps_mk)
    | with_reducible apply keeps_ite
    | with_reducible apply keeps_ite1
    | split)

theorem State.bankClearResult_keeps {W : List Part} {Q : Nat → Bool} {s0 : State} {s : State} {b : Nat} {r : Nat} {act : Nat}
    (wiCode_18 : Q (iCode 18) = true) (wiFn_n : ∀ n, Q (iFn n) = true) (wpgBnk_b : Q (pgBnk b) = true) (wpgEvr : Q pgEvr = true) (wrecorder : Part.recorder ∈ W)
    (hK : Keeps W Q s0 s) : Keeps W Q s0 (State.bankClearResult s b r act) := by
  unfold State.bankClearResult
  repeat' (first
    | with_reducible assumption
    | with_reducible exact id
    | with_reducible exact fun k => Mem.wf_writeBytes k
    | with_reducible exact fun k => Mem.wf_erase k
    | with_reducible exact fun k => SMap.wf_set k
    | with_reducible exact fun k => SMap.wf_drop k
    | with_reducible exact fun k => SMap.wf_foldl k
    | with_reducible exact fun k => SMap.wf_foldl (SMap.wf_drop k)
    | with_reducible exact fun _ _ k => absurd k List.not_mem_nil
    | intro _
    | with_reducible exact wiFn_n _
    | with_reducible apply State.wr_keeps
    | with_reducible apply State.raise_keeps
    | with_reducible apply State.report_keeps
    | with_reducible apply keeps_next
    | with_reducible apply keeps_foldl
    | with_reducible apply keeps_foldl1
    | with_reducible exact Or.inr (by assumption)
    | with_reducible exact Or.inl rfl
    | dsimp only
    | (simp only [keeps_mk_eq]; with_reducible apply keeps_mk)
    | with_reducible apply keeps_ite
    | with_reducible apply keeps_ite1
    | split)

theorem State.chanClearResult_keeps {W : List Part} {Q : Nat → Bool} {s0 : State} {s : State} {c : Nat} {r : Nat} {act : Nat}
    (wiCode_18 : Q (iCode 18) = true) (wiFn_n : ∀ n, Q (iFn n) = true) (wpgBnk__bankOf_c_ : Q (pgBnk (bankOf c)) = true) (wpgChn_c : Q (pgChn c) = true) (wpgEvr : Q pgEvr = true) (wrecorder : Part.recorder ∈ W)
    (hK : Keeps W Q s0 s) : Keeps W Q s0 (State.chanClearResult s c r act) := by
  unfold State.chanClearResult
  repeat' (first
    | with_reducible assumption
    | with_reducible exact id
    | with_reducible exact fun k => Mem.wf_writeBytes k
    | with_reducible exact fun k => Mem.wf_erase k
    | with_reducible exact fun k => SMap.wf_set k
    | with_reducible exact fun k => SMap.wf_drop k
    | with_reducible exact fun k => SMap.wf_foldl k
    | with_reducible exact fun k => SMap.wf_foldl (SMap.wf_drop k)
    | with_reducible exact fun _ _ k => absurd k List.not_mem_nil
    | intro _
    | with_reducible exact wiFn_n _
    | with_reducible apply State.wr_keeps
    | with_reducible apply State.raise_keeps
    | with_reducible apply State.report_keeps
    | with_reducible apply keeps_next
    | with_reducible apply keeps_foldl
    | with_reducible apply keeps_foldl1
    | with_reducible exact Or.inr (by assumption)
    | with_reducible exact Or.inl rfl
    | dsimp only
    | (simp only [keeps_mk_eq]; with_reducible apply keeps_mk)
    | with_reducible apply keeps_ite
    | with_reducible apply keeps_ite1
    | split)

theorem State.bankCleared_keeps {W : List Part} {Q : Nat → Bool} {s0 : State} {s : State} {b : Nat} {k : Nat} {act : Nat}
    (wiFn_n : ∀ n, Q (iFn n) = true) (wpgBnk__bankOf_n_ : ∀ n, Q (pgBnk (bankOf n)) = true) (wpgBnk_b : Q (pgBnk b) = true) (wpgChn_n : ∀ n, Q (pgChn n) = true) (wpgStp : Q pgStp = true) (wchans : Part.chans ∈ W) (wports : Part.ports ∈ W) (wgrading : Part.grading ∈ W)
    (hK : Keeps W Q s0 s) : Keeps W Q s0 (State.bankCleared s b k act) := by
  unfold State.bankCleared
  repeat' (first
    | with_reducible assumption
    | with_reducible exact id
    | with_reducible exact fun k => Mem.wf_writeBytes k
    | with_reducible exact fun k => Mem.wf_erase k
    | with_reducible exact fun k => SMap.wf_set k
    | with_reducible exact fun k => SMap.wf_drop k
    | with_reducible exact fun k => SMap.wf_foldl k
    | with_reducible exact fun k => SMap.wf_foldl (SMap.wf_drop k)
    | with_reducible exact fun _ _ k => absurd k List.not_mem_nil
    | intro _
    | with_reducible exact wiFn_n _
    | with_reducible exact wpgBnk__bankOf_n_ _
    | with_reducible exact wpgChn_n _
    | with_reducible apply State.setTripSt_keeps
    | with_reducible apply State.wr_keeps
    | with_reducible apply State.leaveTripped_keeps
    | with_reducible apply keeps_next
    | with_reducible apply keeps_foldl
    | with_reducible apply keeps_foldl1
    | with_reducible exact Or.inr (by assumption)
    | with_reducible exact Or.inl rfl
    | dsimp only
    | (simp only [keeps_mk_eq]; with_reducible apply keeps_mk)
    | with_reducible apply keeps_ite
    | with_reducible apply keeps_ite1
    | split)

theorem State.bankClear_keeps {W : List Part} {Q : Nat → Bool} {s0 : State} {s : State} {b : Nat} {k : Nat} {act : Nat}
    (wiCode_18 : Q (iCode 18) = true) (wiFn_n : ∀ n, Q (iFn n) = true) (wpgBnk__bankOf_n_ : ∀ n, Q (pgBnk (bankOf n)) = true) (wpgBnk_b : Q (pgBnk b) = true) (wpgChn_n : ∀ n, Q (pgChn n) = true) (wpgEvr : Q pgEvr = true) (wpgStp : Q pgStp = true) (wrecorder : Part.recorder ∈ W) (wbanks : Part.banks ∈ W) (wchans : Part.chans ∈ W) (wports : Part.ports ∈ W) (wgrading : Part.grading ∈ W)
    (hK : Keeps W Q s0 s) : Keeps W Q s0 (State.bankClear s b k act) := by
  unfold State.bankClear
  repeat' (first
    | with_reducible assumption
    | with_reducible exact id
    | with_reducible exact fun k => Mem.wf_writeBytes k
    | with_reducible exact fun k => Mem.wf_erase k
    | with_reducible exact fun k => SMap.wf_set k
    | with_reducible exact fun k => SMap.wf_drop k
    | with_reducible exact fun k => SMap.wf_foldl k
    | with_reducible exact fun k => SMap.wf_foldl (SMap.wf_drop k)
    | with_reducible exact fun _ _ k => absurd k List.not_mem_nil
    | intro _
    | with_reducible exact wiFn_n _
    | with_reducible exact wpgBnk__bankOf_n_ _
    | with_reducible exact wpgChn_n _
    | with_reducible apply State.bankClearResult_keeps
    | with_reducible apply State.bankCleared_keeps
    | with_reducible apply State.modBk_keeps
    | with_reducible apply keeps_next
    | with_reducible apply keeps_foldl
    | with_reducible apply keeps_foldl1
    | with_reducible exact Or.inr (by assumption)
    | with_reducible exact Or.inl rfl
    | dsimp only
    | (simp only [keeps_mk_eq]; with_reducible apply keeps_mk)
    | with_reducible apply keeps_ite
    | with_reducible apply keeps_ite1
    | split)

theorem State.chanClear_keeps {W : List Part} {Q : Nat → Bool} {s0 : State} {s : State} {c : Nat} {k : Nat} {act : Nat}
    (wiCode_18 : Q (iCode 18) = true) (wiFn_n : ∀ n, Q (iFn n) = true) (wpgBnk__bankOf_c_ : Q (pgBnk (bankOf c)) = true) (wpgChn_n : ∀ n, Q (pgChn n) = true) (wpgEvr : Q pgEvr = true) (wpgStp : Q pgStp = true) (wrecorder : Part.recorder ∈ W) (wchans : Part.chans ∈ W) (wports : Part.ports ∈ W) (wgrading : Part.grading ∈ W)
    (hK : Keeps W Q s0 s) : Keeps W Q s0 (State.chanClear s c k act) := by
  unfold State.chanClear
  repeat' (first
    | with_reducible assumption
    | with_reducible exact id
    | with_reducible exact fun k => Mem.wf_writeBytes k
    | with_reducible exact fun k => Mem.wf_erase k
    | with_reducible exact fun k => SMap.wf_set k
    | with_reducible exact fun k => SMap.wf_drop k
    | with_reducible exact fun k => SMap.wf_foldl k
    | with_reducible exact fun k => SMap.wf_foldl (SMap.wf_drop k)
    | with_reducible exact fun _ _ k => absurd k List.not_mem_nil
    | intro _
    | with_reducible exact wiFn_n _
    | with_reducible exact wpgChn_n _
    | with_reducible apply State.chanClearResult_keeps
    | with_reducible apply State.wr_keeps
    | with_reducible apply State.leaveTripped_keeps
    | with_reducible apply keeps_next
    | with_reducible apply keeps_foldl
    | with_reducible apply keeps_foldl1
    | with_reducible exact Or.inr (by assumption)
    | with_reducible exact Or.inl rfl
    | dsimp only
    | (simp only [keeps_mk_eq]; with_reducible apply keeps_mk)
    | with_reducible apply keeps_ite
    | with_reducible apply keeps_ite1
    | split)

theorem State.clearsDue_keeps {W : List Part} {Q : Nat → Bool} {s0 : State} {s : State} {b : Nat} {k : Nat}
    (wiCode_18 : Q (iCode 18) = true) (wiFn_n : ∀ n, Q (iFn n) = true) (wpgBnk__bankOf_n_ : ∀ n, Q (pgBnk (bankOf n)) = true) (wpgBnk_b : Q (pgBnk b) = true) (wpgChn_n : ∀ n, Q (pgChn n) = true) (wpgEvr : Q pgEvr = true) (wpgStp : Q pgStp = true) (wrecorder : Part.recorder ∈ W) (wbanks : Part.banks ∈ W) (wchans : Part.chans ∈ W) (wports : Part.ports ∈ W) (wgrading : Part.grading ∈ W)
    (hK : Keeps W Q s0 s) : Keeps W Q s0 (State.clearsDue s b k) := by
  unfold State.clearsDue
  repeat' (first
    | with_reducible assumption
    | with_reducible exact id
    | with_reducible exact fun k => Mem.wf_writeBytes k
    | with_reducible exact fun k => Mem.wf_erase k
    | with_reducible exact fun k => SMap.wf_set k
    | with_reducible exact fun k => SMap.wf_drop k
    | with_reducible exact fun k => SMap.wf_foldl k
    | with_reducible exact fun k => SMap.wf_foldl (SMap.wf_drop k)
    | with_reducible exact fun _ _ k => absurd k List.not_mem_nil
    | intro _
    | with_reducible exact wiFn_n _
    | with_reducible exact wpgBnk__bankOf_n_ _
    | with_reducible exact wpgChn_n _
    | with_reducible apply State.bankClear_keeps
    | with_reducible apply State.modBk_keeps
    | with_reducible apply State.chanClear_keeps
    | with_reducible apply State.modCh_keeps
    | with_reducible apply keeps_next
    | with_reducible apply keeps_foldl
    | with_reducible apply keeps_foldl1
    | with_reducible exact Or.inr (by assumption)
    | with_reducible exact Or.inl rfl
    | dsimp only
    | (simp only [keeps_mk_eq]; with_reducible apply keeps_mk)
    | with_reducible apply keeps_ite
    | with_reducible apply keeps_ite1
    | split)

theorem State.tripEnter_keeps {W : List Part} {Q : Nat → Bool} {s0 : State} {s : State} {b : Nat} {k : Nat}
    (wiFn_n : ∀ n, Q (iFn n) = true) (wpgChn_n : ∀ n, Q (pgChn n) = true) (wbanks : Part.banks ∈ W)
    (hK : Keeps W Q s0 s) : Keeps W Q s0 (State.tripEnter s b k) := by
  unfold State.tripEnter
  repeat' (first
    | with_reducible assumption
    | with_reducible exact id
    | with_reducible exact fun k => Mem.wf_writeBytes k
    | with_reducible exact fun k => Mem.wf_erase k
    | with_reducible exact fun k => SMap.wf_set k
    | with_reducible exact fun k => SMap.wf_drop k
    | with_reducible exact fun k => SMap.wf_foldl k
    | with_reducible exact fun k => SMap.wf_foldl (SMap.wf_drop k)
    | with_reducible exact fun _ _ k => absurd k List.not_mem_nil
    | intro _
    | with_reducible exact wiFn_n _
    | with_reducible exact wpgChn_n _
    | with_reducible apply State.holdBank_keeps
    | with_reducible apply State.modBk_keeps
    | with_reducible apply keeps_next
    | with_reducible apply keeps_foldl
    | with_reducible apply keeps_foldl1
    | with_reducible exact Or.inr (by assumption)
    | with_reducible exact Or.inl rfl
    | dsimp only
    | (simp only [keeps_mk_eq]; with_reducible apply keeps_mk)
    | with_reducible apply keeps_ite
    | with_reducible apply keeps_ite1
    | split)

theorem execTripClearTakesEffect_keeps {W : List Part} {Q : Nat → Bool} {s0 : State} {b : Fin 32} {s : State}
    (wiCode_18 : Q (iCode 18) = true) (wiFn_n : ∀ n, Q (iFn n) = true) (wpgBnk__bankOf_n_ : ∀ n, Q (pgBnk (bankOf n)) = true) (wpgBnk_b_val : Q (pgBnk b.val) = true) (wpgChn_n : ∀ n, Q (pgChn n) = true) (wpgEvr : Q pgEvr = true) (wpgStp : Q pgStp = true) (wrecorder : Part.recorder ∈ W) (wbanks : Part.banks ∈ W) (wchans : Part.chans ∈ W) (wports : Part.ports ∈ W) (wgrading : Part.grading ∈ W)
    (hK : Keeps W Q s0 s) : Res.Keeps W Q s0 (execTripClearTakesEffect b s) := by
  unfold execTripClearTakesEffect
  repeat' (first
    | with_reducible assumption
    | with_reducible exact id
    | with_reducible exact fun k => Mem.wf_writeBytes k
    | with_reducible exact fun k => Mem.wf_erase k
    | with_reducible exact fun k => SMap.wf_set k
    | with_reducible exact fun k => SMap.wf_drop k
    | with_reducible exact fun k => SMap.wf_foldl k
    | with_reducible exact fun k => SMap.wf_foldl (SMap.wf_drop k)
    | with_reducible exact fun _ _ k => absurd k List.not_mem_nil
    | intro _
    | with_reducible exact wiFn_n _
    | with_reducible exact wpgBnk__bankOf_n_ _
    | with_reducible exact wpgChn_n _
    | with_reducible apply State.start_keeps
    | with_reducible apply State.clearsDue_keeps
    | with_reducible apply State.tripEnter_keeps
    | with_reducible apply keeps_next
    | with_reducible apply keeps_foldl
    | with_reducible apply keeps_foldl1
    | with_reducible exact Or.inr (by assumption)
    | with_reducible exact Or.inl rfl
    | dsimp only
    | (simp only [keeps_mk_eq]; with_reducible apply keeps_mk)
    | with_reducible apply keeps_ite
    | with_reducible apply keeps_ite1
    | split)

theorem State.bankTripCmd_keeps {W : List Part} {Q : Nat → Bool} {s0 : State} {s : State} {b : Nat} {d : Word}
    (wpgBnk_b : Q (pgBnk b) = true) (wbanks : Part.banks ∈ W)
    (hK : Keeps W Q s0 s) : Keeps W Q s0 (State.bankTripCmd s b d) := by
  unfold State.bankTripCmd
  repeat' (first
    | with_reducible assumption
    | with_reducible exact id
    | with_reducible exact fun k => Mem.wf_writeBytes k
    | with_reducible exact fun k => Mem.wf_erase k
    | with_reducible exact fun k => SMap.wf_set k
    | with_reducible exact fun k => SMap.wf_drop k
    | with_reducible exact fun k => SMap.wf_foldl k
    | with_reducible exact fun k => SMap.wf_foldl (SMap.wf_drop k)
    | with_reducible exact fun _ _ k => absurd k List.not_mem_nil
    | intro _
    | with_reducible apply State.wr_keeps
    | with_reducible apply State.modBk_keeps
    | with_reducible apply keeps_next
    | with_reducible apply keeps_foldl
    | with_reducible apply keeps_foldl1
    | with_reducible exact Or.inr (by assumption)
    | with_reducible exact Or.inl rfl
    | dsimp only
    | (simp only [keeps_mk_eq]; with_reducible apply keeps_mk)
    | with_reducible apply keeps_ite
    | with_reducible apply keeps_ite1
    | split)

theorem execBankTripClear_keeps {W : List Part} {Q : Nat → Bool} {s0 : State} {r : Req} {b : Fin 32} {d : Word} {s : State}
    (w50 : Q 50 = true) (wiCode_8 : Q (iCode 8) = true) (wiFn_n : ∀ n, Q (iFn n) = true) (wpgBnk_b_val : Q (pgBnk b.val) = true) (wpgEvr : Q pgEvr = true) (wpgSys : Q pgSys = true) (wrecorder : Part.recorder ∈ W) (wbanks : Part.banks ∈ W) (wfield : Part.field ∈ W)
    (hK : Keeps W Q s0 s) : Res.Keeps W Q s0 (execBankTripClear r b d s) := by
  unfold execBankTripClear
  repeat' (first
    | with_reducible assumption
    | with_reducible exact id
    | with_reducible exact fun k => Mem.wf_writeBytes k
    | with_reducible exact fun k => Mem.wf_erase k
    | with_reducible exact fun k => SMap.wf_set k
    | with_reducible exact fun k => SMap.wf_drop k
    | with_reducible exact fun k => SMap.wf_foldl k
    | with_reducible exact fun k => SMap.wf_foldl (SMap.wf_drop k)
    | with_reducible exact fun _ _ k => absurd k List.not_mem_nil
    | intro _
    | with_reducible exact wiFn_n _
    | with_reducible apply State.access_keeps
    | with_reducible apply State.start_keeps
    | with_reducible apply State.bankTripCmd_keeps
    | with_reducible apply keeps_next
    | with_reducible apply keeps_foldl
    | with_reducible apply keeps_foldl1
    | with_reducible exact Or.inr (by assumption)
    | with_reducible exact Or.inl rfl
    | dsimp only
    | (simp only [keeps_mk_eq]; with_reducible apply keeps_mk)
    | with_reducible apply keeps_ite
    | with_reducible apply keeps_ite1
    | split)

theorem execTripTestA_keeps {W : List Part} {Q : Nat → Bool} {s0 : State} {r : Req} {b : Fin 32} {d : Word} {s : State}
    (w50 : Q 50 = true) (wiCode_8 : Q (iCode 8) = true) (wiFn_n : ∀ n, Q (iFn n) = true) (wpgBnk_b_val : Q (pgBnk b.val) = true) (wpgEvr : Q pgEvr = true) (wpgSys : Q pgSys = true) (wrecorder : Part.recorder ∈ W) (wbanks : Part.banks ∈ W) (wfield : Part.field ∈ W)
    (hK : Keeps W Q s0 s) : Res.Keeps W Q s0 (execTripTestA r b d s) := by
  unfold execTripTestA
  repeat' (first
    | with_reducible assumption
    | with_reducible exact id
    | with_reducible exact fun k => Mem.wf_writeBytes k
    | with_reducible exact fun k => Mem.wf_erase k
    | with_reducible exact fun k => SMap.wf_set k
    | with_reducible exact fun k => SMap.wf_drop k
    | with_reducible exact fun k => SMap.wf_foldl k
    | with_reducible exact fun k => SMap.wf_foldl (SMap.wf_drop k)
    | with_reducible exact fun _ _ k => absurd k List.not_mem_nil
    | intro _
    | with_reducible exact wiFn_n _
    | with_reducible apply State.access_keeps
    | with_reducible apply State.start_keeps
    | with_reducible apply State.bankTripCmd_keeps
    | with_reducible apply keeps_next
    | with_reducible apply keeps_foldl
    | with_reducible apply keeps_foldl1
    | with_reducible exact Or.inr (by assumption)
    | with_reducible exact Or.inl rfl
    | dsimp only
    | (simp only [keeps_mk_eq]; with_reducible apply keeps_mk)
    | with_reducible apply keeps_ite
    | with_reducible apply keeps_ite1
    | split)

theorem execTripTestB_keeps {W : List Part} {Q : Nat → Bool} {s0 : State} {r : Req} {b : Fin 32} {d : Word} {s : State}
    (w50 : Q 50 = true) (wiCode_8 : Q (iCode 8) = true) (wiFn_n : ∀ n, Q (iFn n) = true) (wpgBnk_b_val : Q (pgBnk b.val) = true) (wpgEvr : Q pgEvr = true) (wpgSys : Q pgSys = true) (wrecorder : Part.recorder ∈ W) (wbanks : Part.banks ∈ W) (wfield : Part.field ∈ W)
    (hK : Keeps W Q s0 s) : Res.Keeps W Q s0 (execTripTestB r b d s) := by
  unfold execTripTestB
  repeat' (first
    | with_reducible assumption
    | with_reducible exact id
    | with_reducible exact fun k => Mem.wf_writeBytes k
    | with_reducible exact fun k => Mem.wf_erase k
    | with_reducible exact fun k => SMap.wf_set k
    | with_reducible exact fun k => SMap.wf_drop k
    | with_reducible exact fun k => SMap.wf_foldl k
    | with_reducible exact fun k => SMap.wf_foldl (SMap.wf_drop k)
    | with_reducible exact fun _ _ k => absurd k List.not_mem_nil
    | intro _
    | with_reducible exact wiFn_n _
    | with_reducible apply State.access_keeps
    | with_reducible apply State.start_keeps
    | with_reducible apply State.bankTripCmd_keeps
    | with_reducible apply keeps_next
    | with_reducible apply keeps_foldl
    | with_reducible apply keeps_foldl1
    | with_reducible exact Or.inr (by assumption)
    | with_reducible exact Or.inl rfl
    | dsimp only
    | (simp only [keeps_mk_eq]; with_reducible apply keeps_mk)
    | with_reducible apply keeps_ite
    | with_reducible apply keeps_ite1
    | split)

theorem State.chanTripCmd_keeps {W : List Part} {Q : Nat → Bool} {s0 : State} {s : State} {c : Nat} {d : Word}
    (wpgChn_c : Q (pgChn c) = true) (wchans : Part.chans ∈ W)
    (hK : Keeps W Q s0 s) : Keeps W Q s0 (State.chanTripCmd s c d) := by
  unfold State.chanTripCmd
  repeat' (first
    | with_reducible assumption
    | with_reducible exact id
    | with_reducible exact fun k => Mem.wf_writeBytes k
    | with_reducible exact fun k => Mem.wf_erase k
    | with_reducible exact fun k => SMap.wf_set k
    | with_reducible exact fun k => SMap.wf_drop k
    | with_reducible exact fun k => SMap.wf_foldl k
    | with_reducible exact fun k => SMap.wf_foldl (SMap.wf_drop k)
    | with_reducible exact fun _ _ k => absurd k List.not_mem_nil
    | intro _
    | with_reducible apply State.wr_keeps
    | with_reducible apply State.modCh_keeps
    | with_reducible apply keeps_next
    | with_reducible apply keeps_foldl
    | with_reducible apply keeps_foldl1
    | with_reducible exact Or.inr (by assumption)
    | with_reducible exact Or.inl rfl
    | dsimp only
    | (simp only [keeps_mk_eq]; with_reducible apply keeps_mk)
    | with_reducible apply keeps_ite
    | with_reducible apply keeps_ite1
    | split)

theorem execChnTripClear_keeps {W : List Part} {Q : Nat → Bool} {s0 : State} {r : Req} {c : Fin 512} {d : Word} {s : State}
    (w50 : Q 50 = true) (wiCode_8 : Q (iCode 8) = true) (wiFn_n : ∀ n, Q (iFn n) = true) (wpgChn_c_val : Q (pgChn c.val) = true) (wpgEvr : Q pgEvr = true) (wpgSys : Q pgSys = true) (wrecorder : Part.recorder ∈ W) (wchans : Part.chans ∈ W) (wfield : Part.field ∈ W)
    (hK : Keeps W Q s0 s) : Res.Keeps W Q s0 (execChnTripClear r c d s) := by
  unfold execChnTripClear
  repeat' (first
    | with_reducible assumption
    | with_reducible exact id
    | with_reducible exact fun k => Mem.wf_writeBytes k
    | with_reducible exact fun k => Mem.wf_erase k
    | with_reducible exact fun k => SMap.wf_set k
    | with_reducible exact fun k => SMap.wf_drop k
    | with_reducible exact fun k => SMap.wf_foldl k
    | with_reducible exact fun k => SMap.wf_foldl (SMap.wf_drop k)
    | with_reducible exact fun _ _ k => absurd k List.not_mem_nil
    | intro _
    | with_reducible exact wiFn_n _
    | with_reducible apply State.access_keeps
    | with_reducible apply State.start_keeps
    | with_reducible apply State.chanTripCmd_keeps
    | with_reducible apply keeps_next
    | with_reducible apply keeps_foldl
    | with_reducible apply keeps_foldl1
    | with_reducible exact Or.inr (by assumption)
    | with_reducible exact Or.inl rfl
    | dsimp only
    | (simp only [keeps_mk_eq]; with_reducible apply keeps_mk)
    | with_reducible apply keeps_ite
    | with_reducible apply keeps_ite1
    | split)

theorem State.trpForce_keeps {W : List Part} {Q : Nat → Bool} {s0 : State} {s : State} {d : Word}
    (wiCode_16 : Q (iCode 16) = true) (wiFn_n : ∀ n, Q (iFn n) = true) (wpgBnk_n : ∀ n, Q (pgBnk n) = true) (wpgChn_n : ∀ n, Q (pgChn n) = true) (wpgEvr : Q pgEvr = true) (wpgTrp : Q pgTrp = true) (wrecorder : Part.recorder ∈ W) (wbanks : Part.banks ∈ W)
    (hK : Keeps W Q s0 s) : Keeps W Q s0 (State.trpForce s d) := by
  unfold State.trpForce
  repeat' (first
    | with_reducible assumption
    | with_reducible exact id
    | with_reducible exact fun k => Mem.wf_writeBytes k
    | with_reducible exact fun k => Mem.wf_erase k
    | with_reducible exact fun k => SMap.wf_set k
    | with_reducible exact fun k => SMap.wf_drop k
    | with_reducible exact fun k => SMap.wf_foldl k
    | with_reducible exact fun k => SMap.wf_foldl (SMap.wf_drop k)
    | with_reducible exact fun _ _ k => absurd k List.not_mem_nil
    | intro _
    | with_reducible exact wiFn_n _
    | with_reducible exact wpgBnk_n _
    | with_reducible exact wpgChn_n _
    | with_reducible apply State.tripBank_keeps
    | with_reducible apply keeps_next
    | with_reducible apply keeps_foldl
    | with_reducible apply keeps_foldl1
    | with_reducible exact Or.inr (by assumption)
    | with_reducible exact Or.inl rfl
    | dsimp only
    | (simp only [keeps_mk_eq]; with_reducible apply keeps_mk)
    | with_reducible apply keeps_ite
    | with_reducible apply keeps_ite1
    | split)

theorem execTripForce_keeps {W : List Part} {Q : Nat → Bool} {s0 : State} {r : Req} {d : Word} {s : State}
    (w50 : Q 50 = true) (wiCode_16 : Q (iCode 16) = true) (wiCode_8 : Q (iCode 8) = true) (wiFn_n : ∀ n, Q (iFn n) = true) (wpgBnk_n : ∀ n, Q (pgBnk n) = true) (wpgChn_n : ∀ n, Q (pgChn n) = true) (wpgEvr : Q pgEvr = true) (wpgSys : Q pgSys = true) (wpgTrp : Q pgTrp = true) (wrecorder : Part.recorder ∈ W) (wbanks : Part.banks ∈ W) (wfield : Part.field ∈ W)
    (hK : Keeps W Q s0 s) : Res.Keeps W Q s0 (execTripForce r d s) := by
  unfold execTripForce
  repeat' (first
    | with_reducible assumption
    | with_reducible exact id
    | with_reducible exact fun k => Mem.wf_writeBytes k
    | with_reducible exact fun k => Mem.wf_erase k
    | with_reducible exact fun k => SMap.wf_set k
    | with_reducible exact fun k => SMap.wf_drop k
    | with_reducible exact fun k => SMap.wf_foldl k
    | with_reducible exact fun k => SMap.wf_foldl (SMap.wf_drop k)
    | with_reducible exact fun _ _ k => absurd k List.not_mem_nil
    | intro _
    | with_reducible exact wiFn_n _
    | with_reducible exact wpgBnk_n _
    | with_reducible exact wpgChn_n _
    | with_reducible apply State.access_keeps
    | with_reducible apply State.start_keeps
    | with_reducible apply State.trpForce_keeps
    | with_reducible apply keeps_next
    | with_reducible apply keeps_foldl
    | with_reducible apply keeps_foldl1
    | with_reducible exact Or.inr (by assumption)
    | with_reducible exact Or.inl rfl
    | dsimp only
    | (simp only [keeps_mk_eq]; with_reducible apply keeps_mk)
    | with_reducible apply keeps_ite
    | with_reducible apply keeps_ite1
    | split)

theorem execTripDisagreeWindow_keeps {W : List Part} {Q : Nat → Bool} {s0 : State} {b : Fin 32} {s : State}
    (wiCode_19 : Q (iCode 19) = true) (wiFn_n : ∀ n, Q (iFn n) = true) (wpgBnk_b_val : Q (pgBnk b.val) = true) (wpgEvr : Q pgEvr = true) (wpgTrp : Q pgTrp = true) (wrecorder : Part.recorder ∈ W) (wbanks : Part.banks ∈ W)
    (hK : Keeps W Q s0 s) : Res.Keeps W Q s0 (execTripDisagreeWindow b s) := by
  unfold execTripDisagreeWindow
  repeat' (first
    | with_reducible assumption
    | with_reducible exact id
    | with_reducible exact fun k => Mem.wf_writeBytes k
    | with_reducible exact fun k => Mem.wf_erase k
    | with_reducible exact fun k => SMap.wf_set k
    | with_reducible exact fun k => SMap.wf_drop k
    | with_reducible exact fun k => SMap.wf_foldl k
    | with_reducible exact fun k => SMap.wf_foldl (SMap.wf_drop k)
    | with_reducible exact fun _ _ k => absurd k List.not_mem_nil
    | intro _
    | with_reducible exact wiFn_n _
    | with_reducible apply State.start_keeps
    | with_reducible apply State.modBk_keeps
    | with_reducible apply State.raise_keeps
    | with_reducible apply State.bump_keeps
    | with_reducible apply State.wr_keeps
    | with_reducible apply State.report_keeps
    | with_reducible apply keeps_next
    | with_reducible apply keeps_foldl
    | with_reducible apply keeps_foldl1
    | with_reducible exact Or.inr (by assumption)
    | with_reducible exact Or.inl rfl
    | dsimp only
    | (simp only [keeps_mk_eq]; with_reducible apply keeps_mk)
    | with_reducible apply keeps_ite
    | with_reducible apply keeps_ite1
    | split)

theorem State.cmdResult_keeps {W : List Part} {Q : Nat → Bool} {s0 : State} {s : State} {c : Nat} {r : Nat}
    (wiFn_n : ∀ n, Q (iFn n) = true) (wpgBnk__bankOf_c_ : Q (pgBnk (bankOf c)) = true) (wpgChn_c : Q (pgChn c) = true)
    (hK : Keeps W Q s0 s) : Keeps W Q s0 (State.cmdResult s c r) := by
  unfold State.cmdResult
  repeat' (first
    | with_reducible assumption
    | with_reducible exact id
    | with_reducible exact fun k => Mem.wf_writeBytes k
    | with_reducible exact fun k => Mem.wf_erase k
    | with_reducible exact fun k => SMap.wf_set k
    | with_reducible exact fun k => SMap.wf_drop k
    | with_reducible exact fun k => SMap.wf_foldl k
    | with_reducible exact fun k => SMap.wf_foldl (SMap.wf_drop k)
    | with_reducible exact fun _ _ k => absurd k List.not_mem_nil
    | intro _
    | with_reducible exact wiFn_n _
    | with_reducible apply State.wr_keeps
    | with_reducible apply State.wrB_keeps
    | with_reducible apply State.raise_keeps
    | with_reducible apply keeps_next
    | with_reducible apply keeps_foldl
    | with_reducible apply keeps_foldl1
    | with_reducible exact Or.inr (by assumption)
    | with_reducible exact Or.inl rfl
    | dsimp only
    | (simp only [keeps_mk_eq]; with_reducible apply keeps_mk)
    | with_reducible apply keeps_ite
    | with_reducible apply keeps_ite1
    | split)

theorem State.cmdWrite_keeps {W : List Part} {Q : Nat → Bool} {s0 : State} {s : State} {c : Nat} {kind : Nat} {due : Due}
    (wiFn_n : ∀ n, Q (iFn n) = true) (wpgBnk__bankOf_c_ : Q (pgBnk (bankOf c)) = true) (wpgChn_c : Q (pgChn c) = true) (wchans : Part.chans ∈ W)
    (hK : Keeps W Q s0 s) : Keeps W Q s0 (State.cmdWrite s c kind due) := by
  unfold State.cmdWrite
  repeat' (first
    | with_reducible assumption
    | with_reducible exact id
    | with_reducible exact fun k => Mem.wf_writeBytes k
    | with_reducible exact fun k => Mem.wf_erase k
    | with_reducible exact fun k => SMap.wf_set k
    | with_reducible exact fun k => SMap.wf_drop k
    | with_reducible exact fun k => SMap.wf_foldl k
    | with_reducible exact fun k => SMap.wf_foldl (SMap.wf_drop k)
    | with_reducible exact fun _ _ k => absurd k List.not_mem_nil
    | intro _
    | with_reducible exact wiFn_n _
    | with_reducible apply State.raise_keeps
    | with_reducible apply State.wr_keeps
    | with_reducible apply State.modCh_keeps
    | with_reducible apply State.setCst_keeps
    | with_reducible apply State.cmdResult_keeps
    | with_reducible apply keeps_next
    | with_reducible apply keeps_foldl
    | with_reducible apply keeps_foldl1
    | with_reducible exact Or.inr (by assumption)
    | with_reducible exact Or.inl rfl
    | dsimp only
    | (simp only [keeps_mk_eq]; with_reducible apply keeps_mk)
    | with_reducible apply keeps_ite
    | with_reducible apply keeps_ite1
    | split)

theorem State.armChan_keeps {W : List Part} {Q : Nat → Bool} {s0 : State} {s : State} {c : Nat} {k : Nat}
    (wiFn_n : ∀ n, Q (iFn n) = true) (wiShadow__pgChn_c_ : Q (iShadow (pgChn c)) = true) (wpgBnk__bankOf_c_ : Q (pgBnk (bankOf c)) = true) (wpgChn_n : ∀ n, Q (pgChn n) = true) (wpgStp : Q pgStp = true) (wchans : Part.chans ∈ W) (wports : Part.ports ∈ W) (wgrading : Part.grading ∈ W)
    (hK : Keeps W Q s0 s) : Keeps W Q s0 (State.armChan s c k) := by
  unfold State.armChan
  repeat' (first
    | with_reducible assumption
    | with_reducible exact id
    | with_reducible exact fun k => Mem.wf_writeBytes k
    | with_reducible exact fun k => Mem.wf_erase k
    | with_reducible exact fun k => SMap.wf_set k
    | with_reducible exact fun k => SMap.wf_drop k
    | with_reducible exact fun k => SMap.wf_foldl k
    | with_reducible exact fun k => SMap.wf_foldl (SMap.wf_drop k)
    | with_reducible exact fun _ _ k => absurd k List.not_mem_nil
    | intro _
    | with_reducible exact wiFn_n _
    | with_reducible exact wpgChn_n _
    | with_reducible apply State.applyShadows_keeps
    | with_reducible apply State.raise_keeps
    | with_reducible apply State.setCst_keeps
    | with_reducible apply State.clearLocal_keeps
    | with_reducible apply State.clearLaw_keeps
    | with_reducible apply State.modCh_keeps
    | with_reducible apply State.transition_keeps
    | with_reducible apply keeps_next
    | with_reducible apply keeps_foldl
    | with_reducible apply keeps_foldl1
    | with_reducible exact Or.inr (by assumption)
    | with_reducible exact Or.inl rfl
    | dsimp only
    | (simp only [keeps_mk_eq]; with_reducible apply keeps_mk)
    | with_reducible apply keeps_ite
    | with_reducible apply keeps_ite1
    | split)

theorem State.presetChan_keeps {W : List Part} {Q : Nat → Bool} {s0 : State} {s : State} {c : Nat}
    (wiShadow__pgChn_c_ : Q (iShadow (pgChn c)) = true) (wpgChn_c : Q (pgChn c) = true)
    (hK : Keeps W Q s0 s) : Keeps W Q s0 (State.presetChan s c) := by
  unfold State.presetChan
  repeat' (first
    | with_reducible assumption
    | with_reducible exact id
    | with_reducible exact fun k => Mem.wf_writeBytes k
    | with_reducible exact fun k => Mem.wf_erase k
    | with_reducible exact fun k => SMap.wf_set k
    | with_reducible exact fun k => SMap.wf_drop k
    | with_reducible exact fun k => SMap.wf_foldl k
    | with_reducible exact fun k => SMap.wf_foldl (SMap.wf_drop k)
    | with_reducible exact fun _ _ k => absurd k List.not_mem_nil
    | intro _
    | with_reducible apply State.applyShadows_keeps
    | with_reducible apply State.clrBits_keeps
    | with_reducible apply State.wr_keeps
    | with_reducible apply keeps_next
    | with_reducible apply keeps_foldl
    | with_reducible apply keeps_foldl1
    | with_reducible exact Or.inr (by assumption)
    | with_reducible exact Or.inl rfl
    | dsimp only
    | (simp only [keeps_mk_eq]; with_reducible apply keeps_mk)
    | with_reducible apply keeps_ite
    | with_reducible apply keeps_ite1
    | split)

theorem State.cmdEffect_keeps {W : List Part} {Q : Nat → Bool} {s0 : State} {s : State} {c : Nat} {k : Nat}
    (wiFn_n : ∀ n, Q (iFn n) = true) (wiShadow__pgChn_c_ : Q (iShadow (pgChn c)) = true) (wpgBnk__bankOf_c_ : Q (pgBnk (bankOf c)) = true) (wpgChn_n : ∀ n, Q (pgChn n) = true) (wpgStp : Q pgStp = true) (wchans : Part.chans ∈ W) (wports : Part.ports ∈ W) (wgrading : Part.grading ∈ W)
    (hK : Keeps W Q s0 s) : Keeps W Q s0 (State.cmdEffect s c k) := by
  unfold State.cmdEffect
  repeat' (first
    | with_reducible assumption
    | with_reducible exact id
    | with_reducible exact fun k => Mem.wf_writeBytes k
    | with_reducible exact fun k => Mem.wf_erase k
    | with_reducible exact fun k => SMap.wf_set k
    | with_reducible exact fun k => SMap.wf_drop k
    | with_reducible exact fun k => SMap.wf_foldl k
    | with_reducible exact fun k => SMap.wf_foldl (SMap.wf_drop k)
    | with_reducible exact fun _ _ k => absurd k List.not_mem_nil
    | intro _
    | with_reducible exact wiFn_n _
    | with_reducible exact wpgChn_n _
    | with_reducible apply State.modCh_keeps
    | with_reducible apply State.cmdResult_keeps
    | with_reducible apply State.setCst_keeps
    | with_reducible apply State.applyChan_keeps
    | with_reducible apply State.armChan_keeps
    | with_reducible apply State.disarm_keeps
    | with_reducible apply State.presetChan_keeps
    | with_reducible apply keeps_next
    | with_reducible apply keeps_foldl
    | with_reducible apply keeps_foldl1
    | with_reducible exact Or.inr (by assumption)
    | with_reducible exact Or.inl rfl
    | dsimp only
    | (simp only [keeps_mk_eq]; with_reducible apply keeps_mk)
    | with_reducible apply keeps_ite
    | with_reducible apply keeps_ite1
    | split)

theorem execChnCmdTakesEffect_keeps {W : List Part} {Q : Nat → Bool} {s0 : State} {c : Fin 512} {s : State}
    (wiFn_n : ∀ n, Q (iFn n) = true) (wiShadow__pgChn_c_val_ : Q (iShadow (pgChn c.val)) = true) (wpgBnk__bankOf_c_val_ : Q (pgBnk (bankOf c.val)) = true) (wpgChn_n : ∀ n, Q (pgChn n) = true) (wpgStp : Q pgStp = true) (wchans : Part.chans ∈ W) (wports : Part.ports ∈ W) (wgrading : Part.grading ∈ W)
    (hK : Keeps W Q s0 s) : Res.Keeps W Q s0 (execChnCmdTakesEffect c s) := by
  unfold execChnCmdTakesEffect
  repeat' (first
    | with_reducible assumption
    | with_reducible exact id
    | with_reducible exact fun k => Mem.wf_writeBytes k
    | with_reducible exact fun k => Mem.wf_erase k
    | with_reducible exact fun k => SMap.wf_set k
    | with_reducible exact fun k => SMap.wf_drop k
    | with_reducible exact fun k => SMap.wf_foldl k
    | with_reducible exact fun k => SMap.wf_foldl (SMap.wf_drop k)
    | with_reducible exact fun _ _ k => absurd k List.not_mem_nil
    | intro _
    | with_reducible exact wiFn_n _
    | with_reducible exact wpgChn_n _
    | with_reducible apply State.cmdEffect_keeps
    | with_reducible apply State.start_keeps
    | with_reducible apply keeps_next
    | with_reducible apply keeps_foldl
    | with_reducible apply keeps_foldl1
    | with_reducible exact Or.inr (by assumption)
    | with_reducible exact Or.inl rfl
    | dsimp only
    | (simp only [keeps_mk_eq]; with_reducible apply keeps_mk)
    | with_reducible apply keeps_ite
    | with_reducible apply keeps_ite1
    | split)

theorem State.chnCmdWrite_keeps {W : List Part} {Q : Nat → Bool} {s0 : State} {s : State} {c : Nat} {d : Word}
    (wiFn_n : ∀ n, Q (iFn n) = true) (wiShadow__pgChn_c_ : Q (iShadow (pgChn c)) = true) (wpgBnk__bankOf_c_ : Q (pgBnk (bankOf c)) = true) (wpgChn_c : Q (pgChn c) = true) (wchans : Part.chans ∈ W)
    (hK : Keeps W Q s0 s) : Keeps W Q s0 (State.chnCmdWrite s c d) := by
  unfold State.chnCmdWrite
  repeat' (first
    | with_reducible assumption
    | with_reducible exact id
    | with_reducible exact fun k => Mem.wf_writeBytes k
    | with_reducible exact fun k => Mem.wf_erase k
    | with_reducible exact fun k => SMap.wf_set k
    | with_reducible exact fun k => SMap.wf_drop k
    | with_reducible exact fun k => SMap.wf_foldl k
    | with_reducible exact fun k => SMap.wf_foldl (SMap.wf_drop k)
    | with_reducible exact fun _ _ k => absurd k List.not_mem_nil
    | intro _
    | with_reducible exact wiFn_n _
    | with_reducible apply State.dropShadows_keeps
    | with_reducible apply State.cmdWrite_keeps
    | with_reducible apply State.raise_keeps
    | with_reducible apply State.wr_keeps
    | with_reducible apply keeps_next
    | with_reducible apply keeps_foldl
    | with_reducible apply keeps_foldl1
    | with_reducible exact Or.inr (by assumption)
    | with_reducible exact Or.inl rfl
    | dsimp only
    | (simp only [keeps_mk_eq]; with_reducible apply keeps_mk)
    | with_reducible apply keeps_ite
    | with_reducible apply keeps_ite1
    | split)

theorem execChnArm_keeps {W : List Part} {Q : Nat → Bool} {s0 : State} {r : Req} {c : Fin 512} {d : Word} {s : State}
    (w50 : Q 50 = true) (wiCode_8 : Q (iCode 8) = true) (wiFn_n : ∀ n, Q (iFn n) = true) (wiShadow__pgChn_c_val_ : Q (iShadow (pgChn c.val)) = true) (wpgBnk__bankOf_c_val_ : Q (pgBnk (bankOf c.val)) = true) (wpgChn_c_val : Q (pgChn c.val) = true) (wpgEvr : Q pgEvr = true) (wpgSys : Q pgSys = true) (wrecorder : Part.recorder ∈ W) (wchans : Part.chans ∈ W) (wfield : Part.field ∈ W)
    (hK : Keeps W Q s0 s) : Res.Keeps W Q s0 (execChnArm r c d s) := by
  unfold execChnArm
  repeat' (first
    | with_reducible assumption
    | with_reducible exact id
    | with_reducible exact fun k => Mem.wf_writeBytes k
    | with_reducible exact fun k => Mem.wf_erase k
    | with_reducible exact fun k => SMap.wf_set k
    | with_reducible exact fun k => SMap.wf_drop k
    | with_reducible exact fun k => SMap.wf_foldl k
    | with_reducible exact fun k => SMap.wf_foldl (SMap.wf_drop k)
    | with_reducible exact fun _ _ k => absurd k List.not_mem_nil
    | intro _
    | with_reducible exact wiFn_n _
    | with_reducible apply State.access_keeps
    | with_reducible apply State.start_keeps
    | with_reducible apply State.chnCmdWrite_keeps
    | with_reducible apply keeps_next
    | with_reducible apply keeps_foldl
    | with_reducible apply keeps_foldl1
    | with_reducible exact Or.inr (by assumption)
    | with_reducible exact Or.inl rfl
    | dsimp only
    | (simp only [keeps_mk_eq]; with_reducible apply keeps_mk)
    | with_reducible apply keeps_ite
    | with_reducible apply keeps_ite1
    | split)

theorem execChnDisarm_keeps {W : List Part} {Q : Nat → Bool} {s0 : State} {r : Req} {c : Fin 512} {d : Word} {s : State}
    (w50 : Q 50 = true) (wiCode_8 : Q (iCode 8) = true) (wiFn_n : ∀ n, Q (iFn n) = true) (wiShadow__pgChn_c_val_ : Q (iShadow (pgChn c.val)) = true) (wpgBnk__bankOf_c_val_ : Q (pgBnk (bankOf c.val)) = true) (wpgChn_c_val : Q (pgChn c.val) = true) (wpgEvr : Q pgEvr = true) (wpgSys : Q pgSys = true) (wrecorder : Part.recorder ∈ W) (wchans : Part.chans ∈ W) (wfield : Part.field ∈ W)
    (hK : Keeps W Q s0 s) : Res.Keeps W Q s0 (execChnDisarm r c d s) := by
  unfold execChnDisarm
  repeat' (first
    | with_reducible assumption
    | with_reducible exact id
    | with_reducible exact fun k => Mem.wf_writeBytes k
    | with_reducible exact fun k => Mem.wf_erase k
    | with_reducible exact fun k => SMap.wf_set k
    | with_reducible exact fun k => SMap.wf_drop k
    | with_reducible exact fun k => SMap.wf_foldl k
    | with_reducible exact fun k => SMap.wf_foldl (SMap.wf_drop k)
    | with_reducible exact fun _ _ k => absurd k List.not_mem_nil
    | intro _
    | with_reducible exact wiFn_n _
    | with_reducible apply State.access_keeps
    | with_reducible apply State.start_keeps
    | with_reducible apply State.chnCmdWrite_keeps
    | with_reducible apply keeps_next
    | with_reducible apply keeps_foldl
    | with_reducible apply keeps_foldl1
    | with_reducible exact Or.inr (by assumption)
    | with_reducible exact Or.inl rfl
    | dsimp only
    | (simp only [keeps_mk_eq]; with_reducible apply keeps_mk)
    | with_reducible apply keeps_ite
    | with_reducible apply keeps_ite1
    | split)

theorem execChnApply_keeps {W : List Part} {Q : Nat → Bool} {s0 : State} {r : Req} {c : Fin 512} {d : Word} {s : State}
    (w50 : Q 50 = true) (wiCode_8 : Q (iCode 8) = true) (wiFn_n : ∀ n, Q (iFn n) = true) (wiShadow__pgChn_c_val_ : Q (iShadow (pgChn c.val)) = true) (wpgBnk__bankOf_c_val_ : Q (pgBnk (bankOf c.val)) = true) (wpgChn_c_val : Q (pgChn c.val) = true) (wpgEvr : Q pgEvr = true) (wpgSys : Q pgSys = true) (wrecorder : Part.recorder ∈ W) (wchans : Part.chans ∈ W) (wfield : Part.field ∈ W)
    (hK : Keeps W Q s0 s) : Res.Keeps W Q s0 (execChnApply r c d s) := by
  unfold execChnApply
  repeat' (first
    | with_reducible assumption
    | with_reducible exact id
    | with_reducible exact fun k => Mem.wf_writeBytes k
    | with_reducible exact fun k => Mem.wf_erase k
    | with_reducible exact fun k => SMap.wf_set k
    | with_reducible exact fun k => SMap.wf_drop k
    | with_reducible exact fun k => SMap.wf_foldl k
    | with_reducible exact fun k => SMap.wf_foldl (SMap.wf_drop k)
    | with_reducible exact fun _ _ k => absurd k List.not_mem_nil
    | intro _
    | with_reducible exact wiFn_n _
    | with_reducible apply State.access_keeps
    | with_reducible apply State.start_keeps
    | with_reducible apply State.chnCmdWrite_keeps
    | with_reducible apply keeps_next
    | with_reducible apply keeps_foldl
    | with_reducible apply keeps_foldl1
    | with_reducible exact Or.inr (by assumption)
    | with_reducible exact Or.inl rfl
    | dsimp only
    | (simp only [keeps_mk_eq]; with_reducible apply keeps_mk)
    | with_reducible apply keeps_ite
    | with_reducible apply keeps_ite1
    | split)

theorem execChnPreset_keeps {W : List Part} {Q : Nat → Bool} {s0 : State} {r : Req} {c : Fin 512} {d : Word} {s : State}
    (w50 : Q 50 = true) (wiCode_8 : Q (iCode 8) = true) (wiFn_n : ∀ n, Q (iFn n) = true) (wiShadow__pgChn_c_val_ : Q (iShadow (pgChn c.val)) = true) (wpgBnk__bankOf_c_val_ : Q (pgBnk (bankOf c.val)) = true) (wpgChn_c_val : Q (pgChn c.val) = true) (wpgEvr : Q pgEvr = true) (wpgSys : Q pgSys = true) (wrecorder : Part.recorder ∈ W) (wchans : Part.chans ∈ W) (wfield : Part.field ∈ W)
    (hK : Keeps W Q s0 s) : Res.Keeps W Q s0 (execChnPreset r c d s) := by
  unfold execChnPreset
  repeat' (first
    | with_reducible assumption
    | with_reducible exact id
    | with_reducible exact fun k => Mem.wf_writeBytes k
    | with_reducible exact fun k => Mem.wf_erase k
    | with_reducible exact fun k => SMap.wf_set k
    | with_reducible exact fun k => SMap.wf_drop k
    | with_reducible exact fun k => SMap.wf_foldl k
    | with_reducible exact fun k => SMap.wf_foldl (SMap.wf_drop k)
    | with_reducible exact fun _ _ k => absurd k List.not_mem_nil
    | intro _
    | with_reducible exact wiFn_n _
    | with_reducible apply State.access_keeps
    | with_reducible apply State.start_keeps
    | with_reducible apply State.chnCmdWrite_keeps
    | with_reducible apply keeps_next
    | with_reducible apply keeps_foldl
    | with_reducible apply keeps_foldl1
    | with_reducible exact Or.inr (by assumption)
    | with_reducible exact Or.inl rfl
    | dsimp only
    | (simp only [keeps_mk_eq]; with_reducible apply keeps_mk)
    | with_reducible apply keeps_ite
    | with_reducible apply keeps_ite1
    | split)

theorem execChnDiscard_keeps {W : List Part} {Q : Nat → Bool} {s0 : State} {r : Req} {c : Fin 512} {d : Word} {s : State}
    (w50 : Q 50 = true) (wiCode_8 : Q (iCode 8) = true) (wiFn_n : ∀ n, Q (iFn n) = true) (wiShadow__pgChn_c_val_ : Q (iShadow (pgChn c.val)) = true) (wpgBnk__bankOf_c_val_ : Q (pgBnk (bankOf c.val)) = true) (wpgChn_c_val : Q (pgChn c.val) = true) (wpgEvr : Q pgEvr = true) (wpgSys : Q pgSys = true) (wrecorder : Part.recorder ∈ W) (wchans : Part.chans ∈ W) (wfield : Part.field ∈ W)
    (hK : Keeps W Q s0 s) : Res.Keeps W Q s0 (execChnDiscard r c d s) := by
  unfold execChnDiscard
  repeat' (first
    | with_reducible assumption
    | with_reducible exact id
    | with_reducible exact fun k => Mem.wf_writeBytes k
    | with_reducible exact fun k => Mem.wf_erase k
    | with_reducible exact fun k => SMap.wf_set k
    | with_reducible exact fun k => SMap.wf_drop k
    | with_reducible exact fun k => SMap.wf_foldl k
    | with_reducible exact fun k => SMap.wf_foldl (SMap.wf_drop k)
    | with_reducible exact fun _ _ k => absurd k List.not_mem_nil
    | intro _
    | with_reducible exact wiFn_n _
    | with_reducible apply State.access_keeps
    | with_reducible apply State.start_keeps
    | with_reducible apply State.chnCmdWrite_keeps
    | with_reducible apply keeps_next
    | with_reducible apply keeps_foldl
    | with_reducible apply keeps_foldl1
    | with_reducible exact Or.inr (by assumption)
    | with_reducible exact Or.inl rfl
    | dsimp only
    | (simp only [keeps_mk_eq]; with_reducible apply keeps_mk)
    | with_reducible apply keeps_ite
    | with_reducible apply keeps_ite1
    | split)

theorem State.bnkChnCmd_keeps {W : List Part} {Q : Nat → Bool} {s0 : State} {s : State} {r : Req} {b : Nat} {d : Word}
    (wiFn_n : ∀ n, Q (iFn n) = true) (wiShadow__pgChn_n_ : ∀ n, Q (iShadow (pgChn n)) = true) (wpgBnk__bankOf_n_ : ∀ n, Q (pgBnk (bankOf n)) = true) (wpgChn_n : ∀ n, Q (pgChn n) = true) (wchans : Part.chans ∈ W)
    (hK : Keeps W Q s0 s) : Keeps W Q s0 (State.bnkChnCmd s r b d) := by
  unfold State.bnkChnCmd
  repeat' (first
    | with_reducible assumption
    | with_reducible exact id
    | with_reducible exact fun k => Mem.wf_writeBytes k
    | with_reducible exact fun k => Mem.wf_erase k
    | with_reducible exact fun k => SMap.wf_set k
    | with_reducible exact fun k => SMap.wf_drop k
    | with_reducible exact fun k => SMap.wf_foldl k
    | with_reducible exact fun k => SMap.wf_foldl (SMap.wf_drop k)
    | with_reducible exact fun _ _ k => absurd k List.not_mem_nil
    | intro _
    | with_reducible exact wiFn_n _
    | with_reducible exact wiShadow__pgChn_n_ _
    | with_reducible exact wpgBnk__bankOf_n_ _
    | with_reducible exact wpgChn_n _
    | with_reducible apply State.chnCmdWrite_keeps
    | with_reducible apply keeps_next
    | with_reducible apply keeps_foldl
    | with_reducible apply keeps_foldl1
    | with_reducible exact Or.inr (by assumption)
    | with_reducible exact Or.inl rfl
    | dsimp only
    | (simp only [keeps_mk_eq]; with_reducible apply keeps_mk)
    | with_reducible apply keeps_ite
    | with_reducible apply keeps_ite1
    | split)

theorem execBnkChnArm_keeps {W : List Part} {Q : Nat → Bool} {s0 : State} {r : Req} {b : Fin 32} {d : Word} {s : State}
    (w50 : Q 50 = true) (wiCode_8 : Q (iCode 8) = true) (wiFn_n : ∀ n, Q (iFn n) = true) (wiShadow__pgChn_n_ : ∀ n, Q (iShadow (pgChn n)) = true) (wpgBnk__bankOf_n_ : ∀ n, Q (pgBnk (bankOf n)) = true) (wpgChn_n : ∀ n, Q (pgChn n) = true) (wpgEvr : Q pgEvr = true) (wpgSys : Q pgSys = true) (wrecorder : Part.recorder ∈ W) (wchans : Part.chans ∈ W) (wfield : Part.field ∈ W)
    (hK : Keeps W Q s0 s) : Res.Keeps W Q s0 (execBnkChnArm r b d s) := by
  unfold execBnkChnArm
  repeat' (first
    | with_reducible assumption
    | with_reducible exact id
    | with_reducible exact fun k => Mem.wf_writeBytes k
    | with_reducible exact fun k => Mem.wf_erase k
    | with_reducible exact fun k => SMap.wf_set k
    | with_reducible exact fun k => SMap.wf_drop k
    | with_reducible exact fun k => SMap.wf_foldl k
    | with_reducible exact fun k => SMap.wf_foldl (SMap.wf_drop k)
    | with_reducible exact fun _ _ k => absurd k List.not_mem_nil
    | intro _
    | with_reducible exact wiFn_n _
    | with_reducible exact wiShadow__pgChn_n_ _
    | with_reducible exact wpgBnk__bankOf_n_ _
    | with_reducible exact wpgChn_n _
    | with_reducible apply State.access_keeps
    | with_reducible apply State.start_keeps
    | with_reducible apply State.bnkChnCmd_keeps
    | with_reducible apply keeps_next
    | with_reducible apply keeps_foldl
    | with_reducible apply keeps_foldl1
    | with_reducible exact Or.inr (by assumption)
    | with_reducible exact Or.inl rfl
    | dsimp only
    | (simp only [keeps_mk_eq]; with_reducible apply keeps_mk)
    | with_reducible apply keeps_ite
    | with_reducible apply keeps_ite1
    | split)

theorem execBnkChnDisarm_keeps {W : List Part} {Q : Nat → Bool} {s0 : State} {r : Req} {b : Fin 32} {d : Word} {s : State}
    (w50 : Q 50 = true) (wiCode_8 : Q (iCode 8) = true) (wiFn_n : ∀ n, Q (iFn n) = true) (wiShadow__pgChn_n_ : ∀ n, Q (iShadow (pgChn n)) = true) (wpgBnk__bankOf_n_ : ∀ n, Q (pgBnk (bankOf n)) = true) (wpgChn_n : ∀ n, Q (pgChn n) = true) (wpgEvr : Q pgEvr = true) (wpgSys : Q pgSys = true) (wrecorder : Part.recorder ∈ W) (wchans : Part.chans ∈ W) (wfield : Part.field ∈ W)
    (hK : Keeps W Q s0 s) : Res.Keeps W Q s0 (execBnkChnDisarm r b d s) := by
  unfold execBnkChnDisarm
  repeat' (first
    | with_reducible assumption
    | with_reducible exact id
    | with_reducible exact fun k => Mem.wf_writeBytes k
    | with_reducible exact fun k => Mem.wf_erase k
    | with_reducible exact fun k => SMap.wf_set k
    | with_reducible exact fun k => SMap.wf_drop k
    | with_reducible exact fun k => SMap.wf_foldl k
    | with_reducible exact fun k => SMap.wf_foldl (SMap.wf_drop k)
    | with_reducible exact fun _ _ k => absurd k List.not_mem_nil
    | intro _
    | with_reducible exact wiFn_n _
    | with_reducible exact wiShadow__pgChn_n_ _
    | with_reducible exact wpgBnk__bankOf_n_ _
    | with_reducible exact wpgChn_n _
    | with_reducible apply State.access_keeps
    | with_reducible apply State.start_keeps
    | with_reducible apply State.bnkChnCmd_keeps
    | with_reducible apply keeps_next
    | with_reducible apply keeps_foldl
    | with_reducible apply keeps_foldl1
    | with_reducible exact Or.inr (by assumption)
    | with_reducible exact Or.inl rfl
    | dsimp only
    | (simp only [keeps_mk_eq]; with_reducible apply keeps_mk)
    | with_reducible apply keeps_ite
    | with_reducible apply keeps_ite1
    | split)

theorem execBnkChnApply_keeps {W : List Part} {Q : Nat → Bool} {s0 : State} {r : Req} {b : Fin 32} {d : Word} {s : State}
    (w50 : Q 50 = true) (wiCode_8 : Q (iCode 8) = true) (wiFn_n : ∀ n, Q (iFn n) = true) (wiShadow__pgChn_n_ : ∀ n, Q (iShadow (pgChn n)) = true) (wpgBnk__bankOf_n_ : ∀ n, Q (pgBnk (bankOf n)) = true) (wpgChn_n : ∀ n, Q (pgChn n) = true) (wpgEvr : Q pgEvr = true) (wpgSys : Q pgSys = true) (wrecorder : Part.recorder ∈ W) (wchans : Part.chans ∈ W) (wfield : Part.field ∈ W)
    (hK : Keeps W Q s0 s) : Res.Keeps W Q s0 (execBnkChnApply r b d s) := by
  unfold execBnkChnApply
  repeat' (first
    | with_reducible assumption
    | with_reducible exact id
    | with_reducible exact fun k => Mem.wf_writeBytes k
    | with_reducible exact fun k => Mem.wf_erase k
    | with_reducible exact fun k => SMap.wf_set k
    | with_reducible exact fun k => SMap.wf_drop k
    | with_reducible exact fun k => SMap.wf_foldl k
    | with_reducible exact fun k => SMap.wf_foldl (SMap.wf_drop k)
    | with_reducible exact fun _ _ k => absurd k List.not_mem_nil
    | intro _
    | with_reducible exact wiFn_n _
    | with_reducible exact wiShadow__pgChn_n_ _
    | with_reducible exact wpgBnk__bankOf_n_ _
    | with_reducible exact wpgChn_n _
    | with_reducible apply State.access_keeps
    | with_reducible apply State.start_keeps
    | with_reducible apply State.bnkChnCmd_keeps
    | with_reducible apply keeps_next
    | with_reducible apply keeps_foldl
    | with_reducible apply keeps_foldl1
    | with_reducible exact Or.inr (by assumption)
    | with_reducible exact Or.inl rfl
    | dsimp only
    | (simp only [keeps_mk_eq]; with_reducible apply keeps_mk)
    | with_reducible apply keeps_ite
    | with_reducible apply keeps_ite1
    | split)

end Sys2Proof.Machine
end

