-- ==== Sys2Proof/Laws/KeepsLink.lean ====
section
/-! SUPPORT. What each function and command of Machine/Link.lean keeps. -/
set_option linter.all false
set_option Elab.async false
namespace Sys2Proof.Machine

theorem State.takeover_keeps {W : List Part} {Q : Nat → Bool} {s0 : State} {s : State} {banks : List Nat} {cause : Nat}
    (wiCode_41 : Q (iCode 41) = true) (wiFn_n : ∀ n, Q (iFn n) = true) (wpgEvr : Q pgEvr = true) (wpgPair : Q pgPair = true) (wrecorder : Part.recorder ∈ W) (wports : Part.ports ∈ W) (wgrading : Part.grading ∈ W) (wpair : Part.pair ∈ W)
    (hK : Keeps W Q s0 s) : Keeps W Q s0 (State.takeover s banks cause) := by
  unfold State.takeover
  repeat' (first
    | with_reducible assumption
    | with_reducible exact id
    | with_reducible exact fun k => Mem.wf_writeBytes k
    | with_reducible exact fun k => Mem.wf_erase k
    | with_reducible exact fun k => SMap.wf_set k
    | with_reducible exact fun k => SMap.wf_drop k
    | with_reducible exact fun k => SMap.wf_foldl k
    | with_reducible exact fun k => SMap.wf_foldl (SMap.wf_drop k)
    | with_reducible exact fun _ _ k => absurd k List.not_mem_nil
    | intro _
    | with_reducible exact wiFn_n _
    | with_reducible apply State.grdTakeover_keeps
    | with_reducible apply State.setRole_keeps
    | with_reducible apply State.bump_keeps
    | with_reducible apply State.freeNext_keeps
    | with_reducible apply State.wr2_keeps
    | with_reducible apply State.report_keeps
    | with_reducible apply State.raise_keeps
    | with_reducible apply keeps_next
    | with_reducible apply keeps_foldl
    | with_reducible apply keeps_foldl1
    | with_reducible exact Or.inr (by assumption)
    | with_reducible exact Or.inl rfl
    | dsimp only
    | (simp only [keeps_mk_eq]; with_reducible apply keeps_mk)
    | with_reducible apply keeps_ite
    | with_reducible apply keeps_ite1
    | split)

theorem State.roleStatus_keeps {W : List Part} {Q : Nat → Bool} {s0 : State} {s : State} {b : Nat} {w : Nat}
    (wiCode_41 : Q (iCode 41) = true) (wiFn_n : ∀ n, Q (iFn n) = true) (wpgEvr : Q pgEvr = true) (wpgPair : Q pgPair = true) (wrecorder : Part.recorder ∈ W) (wbanks : Part.banks ∈ W) (wports : Part.ports ∈ W) (wgrading : Part.grading ∈ W) (wpair : Part.pair ∈ W)
    (hK : Keeps W Q s0 s) : Keeps W Q s0 (State.roleStatus s b w) := by
  unfold State.roleStatus
  repeat' (first
    | with_reducible assumption
    | with_reducible exact id
    | with_reducible exact fun k => Mem.wf_writeBytes k
    | with_reducible exact fun k => Mem.wf_erase k
    | with_reducible exact fun k => SMap.wf_set k
    | with_reducible exact fun k => SMap.wf_drop k
    | with_reducible exact fun k => SMap.wf_foldl k
    | with_reducible exact fun k => SMap.wf_foldl (SMap.wf_drop k)
    | with_reducible exact fun _ _ k => absurd k List.not_mem_nil
    | intro _
    | with_reducible exact wiFn_n _
    | with_reducible apply State.modBk_keeps
    | with_reducible apply State.takeover_keeps
    | with_reducible apply State.raise_keeps
    | with_reducible apply State.setRole_keeps
    | with_reducible apply keeps_next
    | with_reducible apply keeps_foldl
    | with_reducible apply keeps_foldl1
    | with_reducible exact Or.inr (by assumption)
    | with_reducible exact Or.inl rfl
    | dsimp only
    | (simp only [keeps_mk_eq]; with_reducible apply keeps_mk)
    | with_reducible apply keeps_ite
    | with_reducible apply keeps_ite1
    | split)

theorem State.leaveUp_keeps {W : List Part} {Q : Nat → Bool} {s0 : State} {s : State} {b : Nat}
    (wiFn_n : ∀ n, Q (iFn n) = true) (wpgBnk_b : Q (pgBnk b) = true) (wbanks : Part.banks ∈ W)
    (hK : Keeps W Q s0 s) : Keeps W Q s0 (State.leaveUp s b) := by
  unfold State.leaveUp
  repeat' (first
    | with_reducible assumption
    | with_reducible exact id
    | with_reducible exact fun k => Mem.wf_writeBytes k
    | with_reducible exact fun k => Mem.wf_erase k
    | with_reducible exact fun k => SMap.wf_set k
    | with_reducible exact fun k => SMap.wf_drop k
    | with_reducible exact fun k => SMap.wf_foldl k
    | with_reducible exact fun k => SMap.wf_foldl (SMap.wf_drop k)
    | with_reducible exact fun _ _ k => absurd k List.not_mem_nil
    | intro _
    | with_reducible exact wiFn_n _
    | with_reducible apply State.wr_keeps
    | with_reducible apply State.modBk_keeps
    | with_reducible apply State.raise_keeps
    | with_reducible apply keeps_next
    | with_reducible apply keeps_foldl
    | with_reducible apply keeps_foldl1
    | with_reducible exact Or.inr (by assumption)
    | with_reducible exact Or.inl rfl
    | dsimp only
    | (simp only [keeps_mk_eq]; with_reducible apply keeps_mk)
    | with_reducible apply keeps_ite
    | with_reducible apply keeps_ite1
    | split)

theorem State.setLst_keeps {W : List Part} {Q : Nat → Bool} {s0 : State} {s : State} {b : Nat} {n : Nat}
    (wiFn_n : ∀ n, Q (iFn n) = true) (wpgBnk_b : Q (pgBnk b) = true) (wbanks : Part.banks ∈ W)
    (hK : Keeps W Q s0 s) : Keeps W Q s0 (State.setLst s b n) := by
  unfold State.setLst
  repeat' (first
    | with_reducible assumption
    | with_reducible exact id
    | with_reducible exact fun k => Mem.wf_writeBytes k
    | with_reducible exact fun k => Mem.wf_erase k
    | with_reducible exact fun k => SMap.wf_set k
    | with_reducible exact fun k => SMap.wf_drop k
    | with_reducible exact fun k => SMap.wf_foldl k
    | with_reducible exact fun k => SMap.wf_foldl (SMap.wf_drop k)
    | with_reducible exact fun _ _ k => absurd k List.not_mem_nil
    | intro _
    | with_reducible exact wiFn_n _
    | with_reducible apply State.leaveUp_keeps
    | with_reducible apply State.wr_keeps
    | with_reducible apply State.modBk_keeps
    | with_reducible apply State.raise_keeps
    | with_reducible apply keeps_next
    | with_reducible apply keeps_foldl
    | with_reducible apply keeps_foldl1
    | with_reducible exact Or.inr (by assumption)
    | with_reducible exact Or.inl rfl
    | dsimp only
    | (simp only [keeps_mk_eq]; with_reducible apply keeps_mk)
    | with_reducible apply keeps_ite
    | with_reducible apply keeps_ite1
    | split)

theorem State.gapStart_keeps {W : List Part} {Q : Nat → Bool} {s0 : State} {s : State} {b : Nat} {k : Nat}
    (wpgBnk_b : Q (pgBnk b) = true) (wbanks : Part.banks ∈ W)
    (hK : Keeps W Q s0 s) : Keeps W Q s0 (State.gapStart s b k) := by
  unfold State.gapStart
  repeat' (first
    | with_reducible assumption
    | with_reducible exact id
    | with_reducible exact fun k => Mem.wf_writeBytes k
    | with_reducible exact fun k => Mem.wf_erase k
    | with_reducible exact fun k => SMap.wf_set k
    | with_reducible exact fun k => SMap.wf_drop k
    | with_reducible exact fun k => SMap.wf_foldl k
    | with_reducible exact fun k => SMap.wf_foldl (SMap.wf_drop k)
    | with_reducible exact fun _ _ k => absurd k List.not_mem_nil
    | intro _
    | with_reducible apply State.wr2_keeps
    | with_reducible apply State.wr_keeps
    | with_reducible apply State.modBk_keeps
    | with_reducible apply keeps_next
    | with_reducible apply keeps_foldl
    | with_reducible apply keeps_foldl1
    | with_reducible exact Or.inr (by assumption)
    | with_reducible exact Or.inl rfl
    | dsimp only
    | (simp only [keeps_mk_eq]; with_reducible apply keeps_mk)
    | with_reducible apply keeps_ite
    | with_reducible apply keeps_ite1
    | split)

theorem State.gapHold_keeps {W : List Part} {Q : Nat → Bool} {s0 : State} {s : State} {b : Nat}
    (wpgChn_n : ∀ n, Q (pgChn n) = true) (wchans : Part.chans ∈ W)
    (hK : Keeps W Q s0 s) : Keeps W Q s0 (State.gapHold s b) := by
  unfold State.gapHold
  repeat' (first
    | with_reducible assumption
    | with_reducible exact id
    | with_reducible exact fun k => Mem.wf_writeBytes k
    | with_reducible exact fun k => Mem.wf_erase k
    | with_reducible exact fun k => SMap.wf_set k
    | with_reducible exact fun k => SMap.wf_drop k
    | with_reducible exact fun k => SMap.wf_foldl k
    | with_reducible exact fun k => SMap.wf_foldl (SMap.wf_drop k)
    | with_reducible exact fun _ _ k => absurd k List.not_mem_nil
    | intro _
    | with_reducible exact wpgChn_n _
    | with_reducible apply State.setBits_keeps
    | with_reducible apply State.modCh_keeps
    | with_reducible apply State.wr_keeps
    | with_reducible apply State.setCst_keeps
    | with_reducible apply keeps_next
    | with_reducible apply keeps_foldl
    | with_reducible apply keeps_foldl1
    | with_reducible exact Or.inr (by assumption)
    | with_reducible exact Or.inl rfl
    | dsimp only
    | (simp only [keeps_mk_eq]; with_reducible apply keeps_mk)
    | with_reducible apply keeps_ite
    | with_reducible apply keeps_ite1
    | split)

theorem State.markLog_keeps {W : List Part} {Q : Nat → Bool} {s0 : State} {s : State} {b : Nat} {k : Nat} {fl : Nat}
    (wlogs : Part.logs ∈ W)
    (hK : Keeps W Q s0 s) : Keeps W Q s0 (State.markLog s b k fl) := by
  unfold State.markLog
  repeat' (first
    | with_reducible assumption
    | with_reducible exact id
    | with_reducible exact fun k => Mem.wf_writeBytes k
    | with_reducible exact fun k => Mem.wf_erase k
    | with_reducible exact fun k => SMap.wf_set k
    | with_reducible exact fun k => SMap.wf_drop k
    | with_reducible exact fun k => SMap.wf_foldl k
    | with_reducible exact fun k => SMap.wf_foldl (SMap.wf_drop k)
    | with_reducible exact fun _ _ k => absurd k List.not_mem_nil
    | intro _
    | with_reducible apply keeps_next
    | with_reducible apply keeps_foldl
    | with_reducible apply keeps_foldl1
    | with_reducible exact Or.inr (by assumption)
    | with_reducible exact Or.inl rfl
    | dsimp only
    | (simp only [keeps_mk_eq]; with_reducible apply keeps_mk)
    | with_reducible apply keeps_ite
    | with_reducible apply keeps_ite1
    | split)

theorem State.markSf_keeps {W : List Part} {Q : Nat → Bool} {s0 : State} {s : State} {b : Nat} {k : Nat} {fl : Nat}
    (wpgBnk_b : Q (pgBnk b) = true) (wpgChn_n : ∀ n, Q (pgChn n) = true) (wbanks : Part.banks ∈ W) (wlogs : Part.logs ∈ W)
    (hK : Keeps W Q s0 s) : Keeps W Q s0 (State.markSf s b k fl) := by
  unfold State.markSf
  repeat' (first
    | with_reducible assumption
    | with_reducible exact id
    | with_reducible exact fun k => Mem.wf_writeBytes k
    | with_reducible exact fun k => Mem.wf_erase k
    | with_reducible exact fun k => SMap.wf_set k
    | with_reducible exact fun k => SMap.wf_drop k
    | with_reducible exact fun k => SMap.wf_foldl k
    | with_reducible exact fun k => SMap.wf_foldl (SMap.wf_drop k)
    | with_reducible exact fun _ _ k => absurd k List.not_mem_nil
    | intro _
    | with_reducible exact wpgChn_n _
    | with_reducible apply State.modBk_keeps
    | with_reducible apply State.markLog_keeps
    | with_reducible apply State.setBits_keeps
    | with_reducible apply keeps_next
    | with_reducible apply keeps_foldl
    | with_reducible apply keeps_foldl1
    | with_reducible exact Or.inr (by assumption)
    | with_reducible exact Or.inl rfl
    | dsimp only
    | (simp only [keeps_mk_eq]; with_reducible apply keeps_mk)
    | with_reducible apply keeps_ite
    | with_reducible apply keeps_ite1
    | split)

theorem State.lostLink_keeps {W : List Part} {Q : Nat → Bool} {s0 : State} {s : State} {b : Nat} {link : Bool}
    (wiCode_16 : Q (iCode 16) = true) (wiFn_n : ∀ n, Q (iFn n) = true) (wpgBnk_b : Q (pgBnk b) = true) (wpgBrg : Q pgBrg = true) (wpgChn_n : ∀ n, Q (pgChn n) = true) (wpgEvr : Q pgEvr = true) (wpgTrp : Q pgTrp = true) (wrecorder : Part.recorder ∈ W) (wbanks : Part.banks ∈ W) (wbridge : Part.bridge ∈ W)
    (hK : Keeps W Q s0 s) : Keeps W Q s0 (State.lostLink s b link) := by
  unfold State.lostLink
  repeat' (first
    | with_reducible assumption
    | with_reducible exact id
    | with_reducible exact fun k => Mem.wf_writeBytes k
    | with_reducible exact fun k => Mem.wf_erase k
    | with_reducible exact fun k => SMap.wf_set k
    | with_reducible exact fun k => SMap.wf_drop k
    | with_reducible exact fun k => SMap.wf_foldl k
    | with_reducible exact fun k => SMap.wf_foldl (SMap.wf_drop k)
    | with_reducible exact fun _ _ k => absurd k List.not_mem_nil
    | intro _
    | with_reducible exact wiFn_n _
    | with_reducible exact wpgChn_n _
    | with_reducible apply State.modBk_keeps
    | with_reducible apply State.bump_keeps
    | with_reducible apply State.raise_keeps
    | with_reducible apply State.tripBank_keeps
    | with_reducible apply State.gapStart_keeps
    | with_reducible apply State.brgLink_keeps
    | with_reducible apply keeps_next
    | with_reducible apply keeps_foldl
    | with_reducible apply keeps_foldl1
    | with_reducible exact Or.inr (by assumption)
    | with_reducible exact Or.inl rfl
    | dsimp only
    | (simp only [keeps_mk_eq]; with_reducible apply keeps_mk)
    | with_reducible apply keeps_ite
    | with_reducible apply keeps_ite1
    | split)

theorem State.crcFail_keeps {W : List Part} {Q : Nat → Bool} {s0 : State} {s : State} {b : Nat} {m : Nat}
    (wiCode_16 : Q (iCode 16) = true) (wiFn_n : ∀ n, Q (iFn n) = true) (wpgBnk_b : Q (pgBnk b) = true) (wpgBrg : Q pgBrg = true) (wpgChn_n : ∀ n, Q (pgChn n) = true) (wpgEvr : Q pgEvr = true) (wpgTrp : Q pgTrp = true) (wrecorder : Part.recorder ∈ W) (wbanks : Part.banks ∈ W) (wlogs : Part.logs ∈ W) (wbridge : Part.bridge ∈ W)
    (hK : Keeps W Q s0 s) : Keeps W Q s0 (State.crcFail s b m) := by
  unfold State.crcFail
  repeat' (first
    | with_reducible assumption
    | with_reducible exact id
    | with_reducible exact fun k => Mem.wf_writeBytes k
    | with_reducible exact fun k => Mem.wf_erase k
    | with_reducible exact fun k => SMap.wf_set k
    | with_reducible exact fun k => SMap.wf_drop k
    | with_reducible exact fun k => SMap.wf_foldl k
    | with_reducible exact fun k => SMap.wf_foldl (SMap.wf_drop k)
    | with_reducible exact fun _ _ k => absurd k List.not_mem_nil
    | intro _
    | with_reducible exact wiFn_n _
    | with_reducible exact wpgChn_n _
    | with_reducible apply State.markSf_keeps
    | with_reducible apply State.raise_keeps
    | with_reducible apply State.bump_keeps
    | with_reducible apply State.modBk_keeps
    | with_reducible apply State.tripBank_keeps
    | with_reducible apply State.lostLink_keeps
    | with_reducible apply keeps_next
    | with_reducible apply keeps_foldl
    | with_reducible apply keeps_foldl1
    | with_reducible exact Or.inr (by assumption)
    | with_reducible exact Or.inl rfl
    | dsimp only
    | (simp only [keeps_mk_eq]; with_reducible apply keeps_mk)
    | with_reducible apply keeps_ite
    | with_reducible apply keeps_ite1
    | split)

theorem State.fall_keeps {W : List Part} {Q : Nat → Bool} {s0 : State} {s : State} {b : Nat} {link : Bool}
    (wiCode_16 : Q (iCode 16) = true) (wiFn_n : ∀ n, Q (iFn n) = true) (wpgBnk_b : Q (pgBnk b) = true) (wpgBrg : Q pgBrg = true) (wpgChn_n : ∀ n, Q (pgChn n) = true) (wpgEvr : Q pgEvr = true) (wpgTrp : Q pgTrp = true) (wrecorder : Part.recorder ∈ W) (wbanks : Part.banks ∈ W) (wlogs : Part.logs ∈ W) (wbridge : Part.bridge ∈ W)
    (hK : Keeps W Q s0 s) : Keeps W Q s0 (State.fall s b link) := by
  unfold State.fall
  repeat' (first
    | with_reducible assumption
    | with_reducible exact id
    | with_reducible exact fun k => Mem.wf_writeBytes k
    | with_reducible exact fun k => Mem.wf_erase k
    | with_reducible exact fun k => SMap.wf_set k
    | with_reducible exact fun k => SMap.wf_drop k
    | with_reducible exact fun k => SMap.wf_foldl k
    | with_reducible exact fun k => SMap.wf_foldl (SMap.wf_drop k)
    | with_reducible exact fun _ _ k => absurd k List.not_mem_nil
    | intro _
    | with_reducible exact wiFn_n _
    | with_reducible exact wpgChn_n _
    | with_reducible apply State.crcFail_keeps
    | with_reducible apply State.modBk_keeps
    | with_reducible apply State.lostLink_keeps
    | with_reducible apply keeps_next
    | with_reducible apply keeps_foldl
    | with_reducible apply keeps_foldl1
    | with_reducible exact Or.inr (by assumption)
    | with_reducible exact Or.inl rfl
    | dsimp only
    | (simp only [keeps_mk_eq]; with_reducible apply keeps_mk)
    | with_reducible apply keeps_ite
    | with_reducible apply keeps_ite1
    | split)

theorem State.fastStream_keeps {W : List Part} {Q : Nat → Bool} {s0 : State} {s : State} {b : Nat} {t : Nat}
    (wiCode_16 : Q (iCode 16) = true) (wiFn_n : ∀ n, Q (iFn n) = true) (wpgBnk_b : Q (pgBnk b) = true) (wpgChn_n : ∀ n, Q (pgChn n) = true) (wpgEvr : Q pgEvr = true) (wpgTrp : Q pgTrp = true) (wrecorder : Part.recorder ∈ W) (wbanks : Part.banks ∈ W)
    (hK : Keeps W Q s0 s) : Keeps W Q s0 (State.fastStream s b t) := by
  unfold State.fastStream
  repeat' (first
    | with_reducible assumption
    | with_reducible exact id
    | with_reducible exact fun k => Mem.wf_writeBytes k
    | with_reducible exact fun k => Mem.wf_erase k
    | with_reducible exact fun k => SMap.wf_set k
    | with_reducible exact fun k => SMap.wf_drop k
    | with_reducible exact fun k => SMap.wf_foldl k
    | with_reducible exact fun k => SMap.wf_foldl (SMap.wf_drop k)
    | with_reducible exact fun _ _ k => absurd k List.not_mem_nil
    | intro _
    | with_reducible exact wiFn_n _
    | with_reducible exact wpgChn_n _
    | with_reducible apply State.modBk_keeps
    | with_reducible apply State.tripBank_keeps
    | with_reducible apply keeps_next
    | with_reducible apply keeps_foldl
    | with_reducible apply keeps_foldl1
    | with_reducible exact Or.inr (by assumption)
    | with_reducible exact Or.inl rfl
    | dsimp only
    | (simp only [keeps_mk_eq]; with_reducible apply keeps_mk)
    | with_reducible apply keeps_ite
    | with_reducible apply keeps_ite1
    | split)

theorem State.fastTrip_keeps {W : List Part} {Q : Nat → Bool} {s0 : State} {s : State} {b : Nat}
    (wiCode_16 : Q (iCode 16) = true) (wiFn_n : ∀ n, Q (iFn n) = true) (wpgBnk_b : Q (pgBnk b) = true) (wpgChn_n : ∀ n, Q (pgChn n) = true) (wpgEvr : Q pgEvr = true) (wpgTrp : Q pgTrp = true) (wrecorder : Part.recorder ∈ W) (wbanks : Part.banks ∈ W)
    (hK : Keeps W Q s0 s) : Keeps W Q s0 (State.fastTrip s b) := by
  unfold State.fastTrip
  repeat' (first
    | with_reducible assumption
    | with_reducible exact id
    | with_reducible exact fun k => Mem.wf_writeBytes k
    | with_reducible exact fun k => Mem.wf_erase k
    | with_reducible exact fun k => SMap.wf_set k
    | with_reducible exact fun k => SMap.wf_drop k
    | with_reducible exact fun k => SMap.wf_foldl k
    | with_reducible exact fun k => SMap.wf_foldl (SMap.wf_drop k)
    | with_reducible exact fun _ _ k => absurd k List.not_mem_nil
    | intro _
    | with_reducible exact wiFn_n _
    | with_reducible exact wpgChn_n _
    | with_reducible apply State.tripBank_keeps
    | with_reducible apply State.wr_keeps
    | with_reducible apply State.modBk_keeps
    | with_reducible apply State.fastStream_keeps
    | with_reducible apply keeps_next
    | with_reducible apply keeps_foldl
    | with_reducible apply keeps_foldl1
    | with_reducible exact Or.inr (by assumption)
    | with_reducible exact Or.inl rfl
    | dsimp only
    | (simp only [keeps_mk_eq]; with_reducible apply keeps_mk)
    | with_reducible apply keeps_ite
    | with_reducible apply keeps_ite1
    | split)

theorem State.modStatus_keeps {W : List Part} {Q : Nat → Bool} {s0 : State} {s : State} {b : Nat} {w : Nat}
    (wiCode_16 : Q (iCode 16) = true) (wiCode_20 : Q (iCode 20) = true) (wiCode_41 : Q (iCode 41) = true) (wiFn_n : ∀ n, Q (iFn n) = true) (wpgBnk_b : Q (pgBnk b) = true) (wpgBrg : Q pgBrg = true) (wpgChn_n : ∀ n, Q (pgChn n) = true) (wpgEvr : Q pgEvr = true) (wpgPair : Q pgPair = true) (wpgTrp : Q pgTrp = true) (wrecorder : Part.recorder ∈ W) (wbanks : Part.banks ∈ W) (wports : Part.ports ∈ W) (wgrading : Part.grading ∈ W) (wbridge : Part.bridge ∈ W) (wpair : Part.pair ∈ W)
    (hK : Keeps W Q s0 s) : Keeps W Q s0 (State.modStatus s b w) := by
  unfold State.modStatus
  repeat' (first
    | with_reducible assumption
    | with_reducible exact id
    | with_reducible exact fun k => Mem.wf_writeBytes k
    | with_reducible exact fun k => Mem.wf_erase k
    | with_reducible exact fun k => SMap.wf_set k
    | with_reducible exact fun k => SMap.wf_drop k
    | with_reducible exact fun k => SMap.wf_foldl k
    | with_reducible exact fun k => SMap.wf_foldl (SMap.wf_drop k)
    | with_reducible exact fun _ _ k => absurd k List.not_mem_nil
    | intro _
    | with_reducible exact wiFn_n _
    | with_reducible exact wpgChn_n _
    | with_reducible apply State.wr_keeps
    | with_reducible apply State.modBk_keeps
    | with_reducible apply State.raise_keeps
    | with_reducible apply State.tripBank_keeps
    | with_reducible apply State.report_keeps
    | with_reducible apply State.brgResend_keeps
    | with_reducible apply State.roleStatus_keeps
    | with_reducible apply keeps_next
    | with_reducible apply keeps_foldl
    | with_reducible apply keeps_foldl1
    | with_reducible exact Or.inr (by assumption)
    | with_reducible exact Or.inl rfl
    | dsimp only
    | (simp only [keeps_mk_eq]; with_reducible apply keeps_mk)
    | with_reducible apply keeps_ite
    | with_reducible apply keeps_ite1
    | split)

theorem State.crcCheck_keeps {W : List Part} {Q : Nat → Bool} {s0 : State} {s : State} {b : Nat} {got : Nat}
    (wiCode_16 : Q (iCode 16) = true) (wiFn_n : ∀ n, Q (iFn n) = true) (wpgBnk_b : Q (pgBnk b) = true) (wpgBrg : Q pgBrg = true) (wpgChn_n : ∀ n, Q (pgChn n) = true) (wpgEvr : Q pgEvr = true) (wpgTrp : Q pgTrp = true) (wrecorder : Part.recorder ∈ W) (wbanks : Part.banks ∈ W) (wlogs : Part.logs ∈ W) (wbridge : Part.bridge ∈ W)
    (hK : Keeps W Q s0 s) : Keeps W Q s0 (State.crcCheck s b got) := by
  unfold State.crcCheck
  repeat' (first
    | with_reducible assumption
    | with_reducible exact id
    | with_reducible exact fun k => Mem.wf_writeBytes k
    | with_reducible exact fun k => Mem.wf_erase k
    | with_reducible exact fun k => SMap.wf_set k
    | with_reducible exact fun k => SMap.wf_drop k
    | with_reducible exact fun k => SMap.wf_foldl k
    | with_reducible exact fun k => SMap.wf_foldl (SMap.wf_drop k)
    | with_reducible exact fun _ _ k => absurd k List.not_mem_nil
    | intro _
    | with_reducible exact wiFn_n _
    | with_reducible exact wpgChn_n _
    | with_reducible apply State.modBk_keeps
    | with_reducible apply State.crcFail_keeps
    | with_reducible apply keeps_next
    | with_reducible apply keeps_foldl
    | with_reducible apply keeps_foldl1
    | with_reducible exact Or.inr (by assumption)
    | with_reducible exact Or.inl rfl
    | dsimp only
    | (simp only [keeps_mk_eq]; with_reducible apply keeps_mk)
    | with_reducible apply keeps_ite
    | with_reducible apply keeps_ite1
    | split)

theorem State.respWord_keeps {W : List Part} {Q : Nat → Bool} {s0 : State} {s : State} {b : Nat} {w : Nat}
    (wbanks : Part.banks ∈ W)
    (hK : Keeps W Q s0 s) : Keeps W Q s0 (State.respWord s b w) := by
  unfold State.respWord
  repeat' (first
    | with_reducible assumption
    | with_reducible exact id
    | with_reducible exact fun k => Mem.wf_writeBytes k
    | with_reducible exact fun k => Mem.wf_erase k
    | with_reducible exact fun k => SMap.wf_set k
    | with_reducible exact fun k => SMap.wf_drop k
    | with_reducible exact fun k => SMap.wf_foldl k
    | with_reducible exact fun k => SMap.wf_foldl (SMap.wf_drop k)
    | with_reducible exact fun _ _ k => absurd k List.not_mem_nil
    | intro _
    | with_reducible apply State.modBk_keeps
    | with_reducible apply keeps_next
    | with_reducible apply keeps_foldl
    | with_reducible apply keeps_foldl1
    | with_reducible exact Or.inr (by assumption)
    | with_reducible exact Or.inl rfl
    | dsimp only
    | (simp only [keeps_mk_eq]; with_reducible apply keeps_mk)
    | with_reducible apply keeps_ite
    | with_reducible apply keeps_ite1
    | split)

theorem State.sideChannel_keeps {W : List Part} {Q : Nat → Bool} {s0 : State} {s : State} {b : Nat} {j : Nat}
    (wiCode_16 : Q (iCode 16) = true) (wiCode_20 : Q (iCode 20) = true) (wiCode_41 : Q (iCode 41) = true) (wiFn_n : ∀ n, Q (iFn n) = true) (wpgBnk_b : Q (pgBnk b) = true) (wpgBrg : Q pgBrg = true) (wpgChn_n : ∀ n, Q (pgChn n) = true) (wpgEvr : Q pgEvr = true) (wpgPair : Q pgPair = true) (wpgTrp : Q pgTrp = true) (wrecorder : Part.recorder ∈ W) (wbanks : Part.banks ∈ W) (wports : Part.ports ∈ W) (wgrading : Part.grading ∈ W) (wlogs : Part.logs ∈ W) (wbridge : Part.bridge ∈ W) (wpair : Part.pair ∈ W)
    (hK : Keeps W Q s0 s) : Keeps W Q s0 (State.sideChannel s b j) := by
  unfold State.sideChannel
  repeat' (first
    | with_reducible assumption
    | with_reducible exact id
    | with_reducible exact fun k => Mem.wf_writeBytes k
    | with_reducible exact fun k => Mem.wf_erase k
    | with_reducible exact fun k => SMap.wf_set k
    | with_reducible exact fun k => SMap.wf_drop k
    | with_reducible exact fun k => SMap.wf_foldl k
    | with_reducible exact fun k => SMap.wf_foldl (SMap.wf_drop k)
    | with_reducible exact fun _ _ k => absurd k List.not_mem_nil
    | intro _
    | with_reducible exact wiFn_n _
    | with_reducible exact wpgChn_n _
    | with_reducible apply State.crcCheck_keeps
    | with_reducible apply State.modStatus_keeps
    | with_reducible apply State.respWord_keeps
    | with_reducible apply keeps_next
    | with_reducible apply keeps_foldl
    | with_reducible apply keeps_foldl1
    | with_reducible exact Or.inr (by assumption)
    | with_reducible exact Or.inl rfl
    | dsimp only
    | (simp only [keeps_mk_eq]; with_reducible apply keeps_mk)
    | with_reducible apply keeps_ite
    | with_reducible apply keeps_ite1
    | split)

theorem execUplinkFrame_keeps {W : List Part} {Q : Nat → Bool} {s0 : State} {b : Fin 32} {sync : Fin 4} {side : Fin 4} {bits : BitVec 36} {s : State}
    (wiCode_16 : Q (iCode 16) = true) (wiCode_20 : Q (iCode 20) = true) (wiCode_41 : Q (iCode 41) = true) (wiFn_n : ∀ n, Q (iFn n) = true) (wpgBnk_b_val : Q (pgBnk b.val) = true) (wpgBrg : Q pgBrg = true) (wpgChn_n : ∀ n, Q (pgChn n) = true) (wpgEvr : Q pgEvr = true) (wpgPair : Q pgPair = true) (wpgTrp : Q pgTrp = true) (wrecorder : Part.recorder ∈ W) (wbanks : Part.banks ∈ W) (wports : Part.ports ∈ W) (wgrading : Part.grading ∈ W) (wlogs : Part.logs ∈ W) (wbridge : Part.bridge ∈ W) (wpair : Part.pair ∈ W)
    (hK : Keeps W Q s0 s) : Res.Keeps W Q s0 (execUplinkFrame b sync side bits s) := by
  unfold execUplinkFrame
  repeat' (first
    | with_reducible assumption
    | with_reducible exact id
    | with_reducible exact fun k => Mem.wf_writeBytes k
    | with_reducible exact fun k => Mem.wf_erase k
    | with_reducible exact fun k => SMap.wf_set k
    | with_reducible exact fun k => SMap.wf_drop k
    | with_reducible exact fun k => SMap.wf_foldl k
    | with_reducible exact fun k => SMap.wf_foldl (SMap.wf_drop k)
    | with_reducible exact fun _ _ k => absurd k List.not_mem_nil
    | intro _
    | with_reducible exact wiFn_n _
    | with_reducible exact wpgChn_n _
    | with_reducible apply State.start_keeps
    | with_reducible apply State.modBk_keeps
    | with_reducible apply State.bump_keeps
    | with_reducible apply State.fastTrip_keeps
    | with_reducible apply State.fall_keeps
    | with_reducible apply State.sideChannel_keeps
    | with_reducible apply keeps_next
    | with_reducible apply keeps_foldl
    | with_reducible apply keeps_foldl1
    | with_reducible exact Or.inr (by assumption)
    | with_reducible exact Or.inl rfl
    | dsimp only
    | (simp only [keeps_mk_eq]; with_reducible apply keeps_mk)
    | with_reducible apply keeps_ite
    | with_reducible apply keeps_ite1
    | split)

theorem execLostLink_keeps {W : List Part} {Q : Nat → Bool} {s0 : State} {b : Fin 32} {s : State}
    (wiCode_16 : Q (iCode 16) = true) (wiFn_n : ∀ n, Q (iFn n) = true) (wpgBnk_b_val : Q (pgBnk b.val) = true) (wpgBrg : Q pgBrg = true) (wpgChn_n : ∀ n, Q (pgChn n) = true) (wpgEvr : Q pgEvr = true) (wpgTrp : Q pgTrp = true) (wrecorder : Part.recorder ∈ W) (wbanks : Part.banks ∈ W) (wlogs : Part.logs ∈ W) (wbridge : Part.bridge ∈ W)
    (hK : Keeps W Q s0 s) : Res.Keeps W Q s0 (execLostLink b s) := by
  unfold execLostLink
  repeat' (first
    | with_reducible assumption
    | with_reducible exact id
    | with_reducible exact fun k => Mem.wf_writeBytes k
    | with_reducible exact fun k => Mem.wf_erase k
    | with_reducible exact fun k => SMap.wf_set k
    | with_reducible exact fun k => SMap.wf_drop k
    | with_reducible exact fun k => SMap.wf_foldl k
    | with_reducible exact fun k => SMap.wf_foldl (SMap.wf_drop k)
    | with_reducible exact fun _ _ k => absurd k List.not_mem_nil
    | intro _
    | with_reducible exact wiFn_n _
    | with_reducible exact wpgChn_n _
    | with_reducible apply State.start_keeps
    | with_reducible apply State.fall_keeps
    | with_reducible apply keeps_next
    | with_reducible apply keeps_foldl
    | with_reducible apply keeps_foldl1
    | with_reducible exact Or.inr (by assumption)
    | with_reducible exact Or.inl rfl
    | dsimp only
    | (simp only [keeps_mk_eq]; with_reducible apply keeps_mk)
    | with_reducible apply keeps_ite
    | with_reducible apply keeps_ite1
    | split)

theorem State.fillReq_keeps {W : List Part} {Q : Nat → Bool} {s0 : State} {s : State} {b : Nat}
    (wbanks : Part.banks ∈ W) (wbridge : Part.bridge ∈ W)
    (hK : Keeps W Q s0 s) : Keeps W Q s0 (State.fillReq s b) := by
  unfold State.fillReq
  repeat' (first
    | with_reducible assumption
    | with_reducible exact id
    | with_reducible exact fun k => Mem.wf_writeBytes k
    | with_reducible exact fun k => Mem.wf_erase k
    | with_reducible exact fun k => SMap.wf_set k
    | with_reducible exact fun k => SMap.wf_drop k
    | with_reducible exact fun k => SMap.wf_foldl k
    | with_reducible exact fun k => SMap.wf_foldl (SMap.wf_drop k)
    | with_reducible exact fun _ _ k => absurd k List.not_mem_nil
    | intro _
    | with_reducible apply State.modBk_keeps
    | with_reducible apply State.brgFill_keeps
    | (refine State.brgFill_keeps_eq (by assumption) (by assumption) ?_ (by assumption))
    | with_reducible apply keeps_next
    | with_reducible apply keeps_foldl
    | with_reducible apply keeps_foldl1
    | with_reducible exact Or.inr (by assumption)
    | with_reducible exact Or.inl rfl
    | dsimp only
    | (simp only [keeps_mk_eq]; with_reducible apply keeps_mk)
    | with_reducible apply keeps_ite
    | with_reducible apply keeps_ite1
    | split)

theorem execDownlinkFrame_keeps {W : List Part} {Q : Nat → Bool} {s0 : State} {b : Fin 32} {s : State}
    (wbanks : Part.banks ∈ W) (wbridge : Part.bridge ∈ W)
    (hK : Keeps W Q s0 s) : Res.Keeps W Q s0 (execDownlinkFrame b s) := by
  unfold execDownlinkFrame
  repeat' (first
    | with_reducible assumption
    | with_reducible exact id
    | with_reducible exact fun k => Mem.wf_writeBytes k
    | with_reducible exact fun k => Mem.wf_erase k
    | with_reducible exact fun k => SMap.wf_set k
    | with_reducible exact fun k => SMap.wf_drop k
    | with_reducible exact fun k => SMap.wf_foldl k
    | with_reducible exact fun k => SMap.wf_foldl (SMap.wf_drop k)
    | with_reducible exact fun _ _ k => absurd k List.not_mem_nil
    | intro _
    | with_reducible apply State.start_keeps
    | with_reducible apply State.emit_keeps
    | with_reducible apply State.modBk_keeps
    | with_reducible apply State.fillReq_keeps
    | with_reducible apply keeps_next
    | with_reducible apply keeps_foldl
    | with_reducible apply keeps_foldl1
    | with_reducible exact Or.inr (by assumption)
    | with_reducible exact Or.inl rfl
    | dsimp only
    | (simp only [keeps_mk_eq]; with_reducible apply keeps_mk)
    | with_reducible apply keeps_ite
    | with_reducible apply keeps_ite1
    | split)

theorem State.calLoad_keeps {W : List Part} {Q : Nat → Bool} {s0 : State} {s : State} {b : Nat} {r : List Nat}
    (wpgBnk_b : Q (pgBnk b) = true) (wbanks : Part.banks ∈ W)
    (hK : Keeps W Q s0 s) : Keeps W Q s0 (State.calLoad s b r) := by
  unfold State.calLoad
  repeat' (first
    | with_reducible assumption
    | with_reducible exact id
    | with_reducible exact fun k => Mem.wf_writeBytes k
    | with_reducible exact fun k => Mem.wf_erase k
    | with_reducible exact fun k => SMap.wf_set k
    | with_reducible exact fun k => SMap.wf_drop k
    | with_reducible exact fun k => SMap.wf_foldl k
    | with_reducible exact fun k => SMap.wf_foldl (SMap.wf_drop k)
    | with_reducible exact fun _ _ k => absurd k List.not_mem_nil
    | intro _
    | with_reducible apply State.modBk_keeps
    | with_reducible apply State.wr_keeps
    | with_reducible apply keeps_next
    | with_reducible apply keeps_foldl
    | with_reducible apply keeps_foldl1
    | with_reducible exact Or.inr (by assumption)
    | with_reducible exact Or.inl rfl
    | dsimp only
    | (simp only [keeps_mk_eq]; with_reducible apply keeps_mk)
    | with_reducible apply keeps_ite
    | with_reducible apply keeps_ite1
    | split)

theorem State.tsAdj_keeps {W : List Part} {Q : Nat → Bool} {s0 : State} {s : State} {b : Nat}
    (wpgBnk_b : Q (pgBnk b) = true)
    (hK : Keeps W Q s0 s) : Keeps W Q s0 (State.tsAdj s b) := by
  unfold State.tsAdj
  repeat' (first
    | with_reducible assumption
    | with_reducible exact id
    | with_reducible exact fun k => Mem.wf_writeBytes k
    | with_reducible exact fun k => Mem.wf_erase k
    | with_reducible exact fun k => SMap.wf_set k
    | with_reducible exact fun k => SMap.wf_drop k
    | with_reducible exact fun k => SMap.wf_foldl k
    | with_reducible exact fun k => SMap.wf_foldl (SMap.wf_drop k)
    | with_reducible exact fun _ _ k => absurd k List.not_mem_nil
    | intro _
    | with_reducible apply State.wrS_keeps
    | with_reducible apply keeps_next
    | with_reducible apply keeps_foldl
    | with_reducible apply keeps_foldl1
    | with_reducible exact Or.inr (by assumption)
    | with_reducible exact Or.inl rfl
    | dsimp only
    | (simp only [keeps_mk_eq]; with_reducible apply keeps_mk)
    | with_reducible apply keeps_ite
    | with_reducible apply keeps_ite1
    | split)

theorem State.scaleMark_keeps {W : List Part} {Q : Nat → Bool} {s0 : State} {s : State} {b : Nat}
    (wgrading : Part.grading ∈ W)
    (hK : Keeps W Q s0 s) : Keeps W Q s0 (State.scaleMark s b) := by
  unfold State.scaleMark
  repeat' (first
    | with_reducible assumption
    | with_reducible exact id
    | with_reducible exact fun k => Mem.wf_writeBytes k
    | with_reducible exact fun k => Mem.wf_erase k
    | with_reducible exact fun k => SMap.wf_set k
    | with_reducible exact fun k => SMap.wf_drop k
    | with_reducible exact fun k => SMap.wf_foldl k
    | with_reducible exact fun k => SMap.wf_foldl (SMap.wf_drop k)
    | with_reducible exact fun _ _ k => absurd k List.not_mem_nil
    | intro _
    | with_reducible apply keeps_next
    | with_reducible apply keeps_foldl
    | with_reducible apply keeps_foldl1
    | with_reducible exact Or.inr (by assumption)
    | with_reducible exact Or.inl rfl
    | dsimp only
    | (simp only [keeps_mk_eq]; with_reducible apply keeps_mk)
    | with_reducible apply keeps_ite
    | with_reducible apply keeps_ite1
    | split)

theorem State.accept_keeps {W : List Part} {Q : Nat → Bool} {s0 : State} {s : State} {b : Nat} {r : List Nat} {always : Bool}
    (wiFn_n : ∀ n, Q (iFn n) = true) (wpgBnk_b : Q (pgBnk b) = true) (wpgChn_n : ∀ n, Q (pgChn n) = true) (wbanks : Part.banks ∈ W) (wchans : Part.chans ∈ W) (wgrading : Part.grading ∈ W)
    (hK : Keeps W Q s0 s) : Keeps W Q s0 (State.accept s b r always) := by
  unfold State.accept
  repeat' (first
    | with_reducible assumption
    | with_reducible exact id
    | with_reducible exact fun k => Mem.wf_writeBytes k
    | with_reducible exact fun k => Mem.wf_erase k
    | with_reducible exact fun k => SMap.wf_set k
    | with_reducible exact fun k => SMap.wf_drop k
    | with_reducible exact fun k => SMap.wf_foldl k
    | with_reducible exact fun k => SMap.wf_foldl (SMap.wf_drop k)
    | with_reducible exact fun _ _ k => absurd k List.not_mem_nil
    | intro _
    | with_reducible exact wiFn_n _
    | with_reducible exact wpgChn_n _
    | with_reducible apply State.modBk_keeps
    | with_reducible apply State.wr_keeps
    | with_reducible apply State.calLoad_keeps
    | with_reducible apply State.tsAdj_keeps
    | with_reducible apply State.scaleMark_keeps
    | with_reducible apply State.modCh_keeps
    | with_reducible apply State.setLst_keeps
    | with_reducible apply keeps_next
    | with_reducible apply keeps_foldl
    | with_reducible apply keeps_foldl1
    | with_reducible exact Or.inr (by assumption)
    | with_reducible exact Or.inl rfl
    | dsimp only
    | (simp only [keeps_mk_eq]; with_reducible apply keeps_mk)
    | with_reducible apply keeps_ite
    | with_reducible apply keeps_ite1
    | split)

theorem State.idRead_keeps {W : List Part} {Q : Nat → Bool} {s0 : State} {s : State} {b : Nat} {r : List Nat}
    (wiFn_n : ∀ n, Q (iFn n) = true) (wpgBnk_b : Q (pgBnk b) = true) (wpgChn_n : ∀ n, Q (pgChn n) = true) (wbanks : Part.banks ∈ W) (wchans : Part.chans ∈ W) (wgrading : Part.grading ∈ W)
    (hK : Keeps W Q s0 s) : Keeps W Q s0 (State.idRead s b r) := by
  unfold State.idRead
  repeat' (first
    | with_reducible assumption
    | with_reducible exact id
    | with_reducible exact fun k => Mem.wf_writeBytes k
    | with_reducible exact fun k => Mem.wf_erase k
    | with_reducible exact fun k => SMap.wf_set k
    | with_reducible exact fun k => SMap.wf_drop k
    | with_reducible exact fun k => SMap.wf_foldl k
    | with_reducible exact fun k => SMap.wf_foldl (SMap.wf_drop k)
    | with_reducible exact fun _ _ k => absurd k List.not_mem_nil
    | intro _
    | with_reducible exact wiFn_n _
    | with_reducible exact wpgChn_n _
    | with_reducible apply State.modBk_keeps
    | with_reducible apply State.wr_keeps
    | with_reducible apply State.setLst_keeps
    | with_reducible apply State.accept_keeps
    | with_reducible apply keeps_next
    | with_reducible apply keeps_foldl
    | with_reducible apply keeps_foldl1
    | with_reducible exact Or.inr (by assumption)
    | with_reducible exact Or.inl rfl
    | dsimp only
    | (simp only [keeps_mk_eq]; with_reducible apply keeps_mk)
    | with_reducible apply keeps_ite
    | with_reducible apply keeps_ite1
    | split)

theorem execIdreadDone_keeps {W : List Part} {Q : Nat → Bool} {s0 : State} {b : Fin 32} {rec : List Word} {s : State}
    (wiFn_n : ∀ n, Q (iFn n) = true) (wpgBnk_b_val : Q (pgBnk b.val) = true) (wpgChn_n : ∀ n, Q (pgChn n) = true) (wbanks : Part.banks ∈ W) (wchans : Part.chans ∈ W) (wgrading : Part.grading ∈ W)
    (hK : Keeps W Q s0 s) : Res.Keeps W Q s0 (execIdreadDone b rec s) := by
  unfold execIdreadDone
  repeat' (first
    | with_reducible assumption
    | with_reducible exact id
    | with_reducible exact fun k => Mem.wf_writeBytes k
    | with_reducible exact fun k => Mem.wf_erase k
    | with_reducible exact fun k => SMap.wf_set k
    | with_reducible exact fun k => SMap.wf_drop k
    | with_reducible exact fun k => SMap.wf_foldl k
    | with_reducible exact fun k => SMap.wf_foldl (SMap.wf_drop k)
    | with_reducible exact fun _ _ k => absurd k List.not_mem_nil
    | intro _
    | with_reducible exact wiFn_n _
    | with_reducible exact wpgChn_n _
    | with_reducible apply State.start_keeps
    | with_reducible apply State.idRead_keeps
    | with_reducible apply keeps_next
    | with_reducible apply keeps_foldl
    | with_reducible apply keeps_foldl1
    | with_reducible exact Or.inr (by assumption)
    | with_reducible exact Or.inl rfl
    | dsimp only
    | (simp only [keeps_mk_eq]; with_reducible apply keeps_mk)
    | with_reducible apply keeps_ite
    | with_reducible apply keeps_ite1
    | split)

theorem State.idReject_keeps {W : List Part} {Q : Nat → Bool} {s0 : State} {s : State} {b : Nat}
    (wiFn_n : ∀ n, Q (iFn n) = true) (wpgBnk__bankOf_n_ : ∀ n, Q (pgBnk (bankOf n)) = true) (wpgChn_n : ∀ n, Q (pgChn n) = true) (wpgStp : Q pgStp = true) (wchans : Part.chans ∈ W) (wports : Part.ports ∈ W) (wgrading : Part.grading ∈ W)
    (hK : Keeps W Q s0 s) : Keeps W Q s0 (State.idReject s b) := by
  unfold State.idReject
  repeat' (first
    | with_reducible assumption
    | with_reducible exact id
    | with_reducible exact fun k => Mem.wf_writeBytes k
    | with_reducible exact fun k => Mem.wf_erase k
    | with_reducible exact fun k => SMap.wf_set k
    | with_reducible exact fun k => SMap.wf_drop k
    | with_reducible exact fun k => SMap.wf_foldl k
    | with_reducible exact fun k => SMap.wf_foldl (SMap.wf_drop k)
    | with_reducible exact fun _ _ k => absurd k List.not_mem_nil
    | intro _
    | with_reducible exact wiFn_n _
    | with_reducible exact wpgBnk__bankOf_n_ _
    | with_reducible exact wpgChn_n _
    | with_reducible apply State.disarm_keeps
    | with_reducible apply State.transition_keeps
    | with_reducible apply keeps_next
    | with_reducible apply keeps_foldl
    | with_reducible apply keeps_foldl1
    | with_reducible exact Or.inr (by assumption)
    | with_reducible exact Or.inl rfl
    | dsimp only
    | (simp only [keeps_mk_eq]; with_reducible apply keeps_mk)
    | with_reducible apply keeps_ite
    | with_reducible apply keeps_ite1
    | split)

theorem State.linkCtrl_keeps {W : List Part} {Q : Nat → Bool} {s0 : State} {s : State} {b : Nat} {d : Word}
    (wiFn_n : ∀ n, Q (iFn n) = true) (wpgBnk__bankOf_n_ : ∀ n, Q (pgBnk (bankOf n)) = true) (wpgBnk_b : Q (pgBnk b) = true) (wpgBrg : Q pgBrg = true) (wpgChn_n : ∀ n, Q (pgChn n) = true) (wpgStp : Q pgStp = true) (wbanks : Part.banks ∈ W) (wchans : Part.chans ∈ W) (wports : Part.ports ∈ W) (wgrading : Part.grading ∈ W) (wbridge : Part.bridge ∈ W)
    (hK : Keeps W Q s0 s) : Keeps W Q s0 (State.linkCtrl s b d) := by
  unfold State.linkCtrl
  repeat' (first
    | with_reducible assumption
    | with_reducible exact id
    | with_reducible exact fun k => Mem.wf_writeBytes k
    | with_reducible exact fun k => Mem.wf_erase k
    | with_reducible exact fun k => SMap.wf_set k
    | with_reducible exact fun k => SMap.wf_drop k
    | with_reducible exact fun k => SMap.wf_foldl k
    | with_reducible exact fun k => SMap.wf_foldl (SMap.wf_drop k)
    | with_reducible exact fun _ _ k => absurd k List.not_mem_nil
    | intro _
    | with_reducible exact wiFn_n _
    | with_reducible exact wpgBnk__bankOf_n_ _
    | with_reducible exact wpgChn_n _
    | with_reducible apply State.wr_keeps
    | with_reducible apply State.brgLink_keeps
    | with_reducible apply State.gapStart_keeps
    | with_reducible apply State.setLst_keeps
    | with_reducible apply State.modBk_keeps
    | with_reducible apply State.accept_keeps
    | with_reducible apply State.idReject_keeps
    | with_reducible apply keeps_next
    | with_reducible apply keeps_foldl
    | with_reducible apply keeps_foldl1
    | with_reducible exact Or.inr (by assumption)
    | with_reducible exact Or.inl rfl
    | dsimp only
    | (simp only [keeps_mk_eq]; with_reducible apply keeps_mk)
    | with_reducible apply keeps_ite
    | with_reducible apply keeps_ite1
    | split)

theorem execLinkTrain_keeps {W : List Part} {Q : Nat → Bool} {s0 : State} {r : Req} {b : Fin 32} {d : Word} {s : State}
    (w50 : Q 50 = true) (wiCode_8 : Q (iCode 8) = true) (wiFn_n : ∀ n, Q (iFn n) = true) (wpgBnk__bankOf_n_ : ∀ n, Q (pgBnk (bankOf n)) = true) (wpgBnk_b_val : Q (pgBnk b.val) = true) (wpgBrg : Q pgBrg = true) (wpgChn_n : ∀ n, Q (pgChn n) = true) (wpgEvr : Q pgEvr = true) (wpgStp : Q pgStp = true) (wpgSys : Q pgSys = true) (wrecorder : Part.recorder ∈ W) (wbanks : Part.banks ∈ W) (wchans : Part.chans ∈ W) (wports : Part.ports ∈ W) (wgrading : Part.grading ∈ W) (wbridge : Part.bridge ∈ W) (wfield : Part.field ∈ W)
    (hK : Keeps W Q s0 s) : Res.Keeps W Q s0 (execLinkTrain r b d s) := by
  unfold execLinkTrain
  repeat' (first
    | with_reducible assumption
    | with_reducible exact id
    | with_reducible exact fun k => Mem.wf_writeBytes k
    | with_reducible exact fun k => Mem.wf_erase k
    | with_reducible exact fun k => SMap.wf_set k
    | with_reducible exact fun k => SMap.wf_drop k
    | with_reducible exact fun k => SMap.wf_foldl k
    | with_reducible exact fun k => SMap.wf_foldl (SMap.wf_drop k)
    | with_reducible exact fun _ _ k => absurd k List.not_mem_nil
    | intro _
    | with_reducible exact wiFn_n _
    | with_reducible exact wpgBnk__bankOf_n_ _
    | with_reducible exact wpgChn_n _
    | with_reducible apply State.access_keeps
    | with_reducible apply State.start_keeps
    | with_reducible apply State.linkCtrl_keeps
    | with_reducible apply keeps_next
    | with_reducible apply keeps_foldl
    | with_reducible apply keeps_foldl1
    | with_reducible exact Or.inr (by assumption)
    | with_reducible exact Or.inl rfl
    | dsimp only
    | (simp only [keeps_mk_eq]; with_reducible apply keeps_mk)
    | with_reducible apply keeps_ite
    | with_reducible apply keeps_ite1
    | split)

theorem execLinkDrop_keeps {W : List Part} {Q : Nat → Bool} {s0 : State} {r : Req} {b : Fin 32} {d : Word} {s : State}
    (w50 : Q 50 = true) (wiCode_8 : Q (iCode 8) = true) (wiFn_n : ∀ n, Q (iFn n) = true) (wpgBnk__bankOf_n_ : ∀ n, Q (pgBnk (bankOf n)) = true) (wpgBnk_b_val : Q (pgBnk b.val) = true) (wpgBrg : Q pgBrg = true) (wpgChn_n : ∀ n, Q (pgChn n) = true) (wpgEvr : Q pgEvr = true) (wpgStp : Q pgStp = true) (wpgSys : Q pgSys = true) (wrecorder : Part.recorder ∈ W) (wbanks : Part.banks ∈ W) (wchans : Part.chans ∈ W) (wports : Part.ports ∈ W) (wgrading : Part.grading ∈ W) (wbridge : Part.bridge ∈ W) (wfield : Part.field ∈ W)
    (hK : Keeps W Q s0 s) : Res.Keeps W Q s0 (execLinkDrop r b d s) := by
  unfold execLinkDrop
  repeat' (first
    | with_reducible assumption
    | with_reducible exact id
    | with_reducible exact fun k => Mem.wf_writeBytes k
    | with_reducible exact fun k => Mem.wf_erase k
    | with_reducible exact fun k => SMap.wf_set k
    | with_reducible exact fun k => SMap.wf_drop k
    | with_reducible exact fun k => SMap.wf_foldl k
    | with_reducible exact fun k => SMap.wf_foldl (SMap.wf_drop k)
    | with_reducible exact fun _ _ k => absurd k List.not_mem_nil
    | intro _
    | with_reducible exact wiFn_n _
    | with_reducible exact wpgBnk__bankOf_n_ _
    | with_reducible exact wpgChn_n _
    | with_reducible apply State.access_keeps
    | with_reducible apply State.start_keeps
    | with_reducible apply State.linkCtrl_keeps
    | with_reducible apply keeps_next
    | with_reducible apply keeps_foldl
    | with_reducible apply keeps_foldl1
    | with_reducible exact Or.inr (by assumption)
    | with_reducible exact Or.inl rfl
    | dsimp only
    | (simp only [keeps_mk_eq]; with_reducible apply keeps_mk)
    | with_reducible apply keeps_ite
    | with_reducible apply keeps_ite1
    | split)

theorem execIdAccept_keeps {W : List Part} {Q : Nat → Bool} {s0 : State} {r : Req} {b : Fin 32} {d : Word} {s : State}
    (w50 : Q 50 = true) (wiCode_8 : Q (iCode 8) = true) (wiFn_n : ∀ n, Q (iFn n) = true) (wpgBnk__bankOf_n_ : ∀ n, Q (pgBnk (bankOf n)) = true) (wpgBnk_b_val : Q (pgBnk b.val) = true) (wpgBrg : Q pgBrg = true) (wpgChn_n : ∀ n, Q (pgChn n) = true) (wpgEvr : Q pgEvr = true) (wpgStp : Q pgStp = true) (wpgSys : Q pgSys = true) (wrecorder : Part.recorder ∈ W) (wbanks : Part.banks ∈ W) (wchans : Part.chans ∈ W) (wports : Part.ports ∈ W) (wgrading : Part.grading ∈ W) (wbridge : Part.bridge ∈ W) (wfield : Part.field ∈ W)
    (hK : Keeps W Q s0 s) : Res.Keeps W Q s0 (execIdAccept r b d s) := by
  unfold execIdAccept
  repeat' (first
    | with_reducible assumption
    | with_reducible exact id
    | with_reducible exact fun k => Mem.wf_writeBytes k
    | with_reducible exact fun k => Mem.wf_erase k
    | with_reducible exact fun k => SMap.wf_set k
    | with_reducible exact fun k => SMap.wf_drop k
    | with_reducible exact fun k => SMap.wf_foldl k
    | with_reducible exact fun k => SMap.wf_foldl (SMap.wf_drop k)
    | with_reducible exact fun _ _ k => absurd k List.not_mem_nil
    | intro _
    | with_reducible exact wiFn_n _
    | with_reducible exact wpgBnk__bankOf_n_ _
    | with_reducible exact wpgChn_n _
    | with_reducible apply State.access_keeps
    | with_reducible apply State.start_keeps
    | with_reducible apply State.linkCtrl_keeps
    | with_reducible apply keeps_next
    | with_reducible apply keeps_foldl
    | with_reducible apply keeps_foldl1
    | with_reducible exact Or.inr (by assumption)
    | with_reducible exact Or.inl rfl
    | dsimp only
    | (simp only [keeps_mk_eq]; with_reducible apply keeps_mk)
    | with_reducible apply keeps_ite
    | with_reducible apply keeps_ite1
    | split)

theorem execIdReject_keeps {W : List Part} {Q : Nat → Bool} {s0 : State} {r : Req} {b : Fin 32} {d : Word} {s : State}
    (w50 : Q 50 = true) (wiCode_8 : Q (iCode 8) = true) (wiFn_n : ∀ n, Q (iFn n) = true) (wpgBnk__bankOf_n_ : ∀ n, Q (pgBnk (bankOf n)) = true) (wpgBnk_b_val : Q (pgBnk b.val) = true) (wpgBrg : Q pgBrg = true) (wpgChn_n : ∀ n, Q (pgChn n) = true) (wpgEvr : Q pgEvr = true) (wpgStp : Q pgStp = true) (wpgSys : Q pgSys = true) (wrecorder : Part.recorder ∈ W) (wbanks : Part.banks ∈ W) (wchans : Part.chans ∈ W) (wports : Part.ports ∈ W) (wgrading : Part.grading ∈ W) (wbridge : Part.bridge ∈ W) (wfield : Part.field ∈ W)
    (hK : Keeps W Q s0 s) : Res.Keeps W Q s0 (execIdReject r b d s) := by
  unfold execIdReject
  repeat' (first
    | with_reducible assumption
    | with_reducible exact id
    | with_reducible exact fun k => Mem.wf_writeBytes k
    | with_reducible exact fun k => Mem.wf_erase k
    | with_reducible exact fun k => SMap.wf_set k
    | with_reducible exact fun k => SMap.wf_drop k
    | with_reducible exact fun k => SMap.wf_foldl k
    | with_reducible exact fun k => SMap.wf_foldl (SMap.wf_drop k)
    | with_reducible exact fun _ _ k => absurd k List.not_mem_nil
    | intro _
    | with_reducible exact wiFn_n _
    | with_reducible exact wpgBnk__bankOf_n_ _
    | with_reducible exact wpgChn_n _
    | with_reducible apply State.access_keeps
    | with_reducible apply State.start_keeps
    | with_reducible apply State.linkCtrl_keeps
    | with_reducible apply keeps_next
    | with_reducible apply keeps_foldl
    | with_reducible apply keeps_foldl1
    | with_reducible exact Or.inr (by assumption)
    | with_reducible exact Or.inl rfl
    | dsimp only
    | (simp only [keeps_mk_eq]; with_reducible apply keeps_mk)
    | with_reducible apply keeps_ite
    | with_reducible apply keeps_ite1
    | split)

theorem execLinkSeekDetect_keeps {W : List Part} {Q : Nat → Bool} {s0 : State} {b : Fin 32} {s : State}
    (wiFn_n : ∀ n, Q (iFn n) = true) (wpgBnk_b_val : Q (pgBnk b.val) = true) (wbanks : Part.banks ∈ W)
    (hK : Keeps W Q s0 s) : Res.Keeps W Q s0 (execLinkSeekDetect b s) := by
  unfold execLinkSeekDetect
  repeat' (first
    | with_reducible assumption
    | with_reducible exact id
    | with_reducible exact fun k => Mem.wf_writeBytes k
    | with_reducible exact fun k => Mem.wf_erase k
    | with_reducible exact fun k => SMap.wf_set k
    | with_reducible exact fun k => SMap.wf_drop k
    | with_reducible exact fun k => SMap.wf_foldl k
    | with_reducible exact fun k => SMap.wf_foldl (SMap.wf_drop k)
    | with_reducible exact fun _ _ k => absurd k List.not_mem_nil
    | intro _
    | with_reducible exact wiFn_n _
    | with_reducible apply State.start_keeps
    | with_reducible apply State.setLst_keeps
    | with_reducible apply keeps_next
    | with_reducible apply keeps_foldl
    | with_reducible apply keeps_foldl1
    | with_reducible exact Or.inr (by assumption)
    | with_reducible exact Or.inl rfl
    | dsimp only
    | (simp only [keeps_mk_eq]; with_reducible apply keeps_mk)
    | with_reducible apply keeps_ite
    | with_reducible apply keeps_ite1
    | split)

theorem execLinkLock_keeps {W : List Part} {Q : Nat → Bool} {s0 : State} {b : Fin 32} {s : State}
    (wiFn_n : ∀ n, Q (iFn n) = true) (wpgBnk_b_val : Q (pgBnk b.val) = true) (wbanks : Part.banks ∈ W)
    (hK : Keeps W Q s0 s) : Res.Keeps W Q s0 (execLinkLock b s) := by
  unfold execLinkLock
  repeat' (first
    | with_reducible assumption
    | with_reducible exact id
    | with_reducible exact fun k => Mem.wf_writeBytes k
    | with_reducible exact fun k => Mem.wf_erase k
    | with_reducible exact fun k => SMap.wf_set k
    | with_reducible exact fun k => SMap.wf_drop k
    | with_reducible exact fun k => SMap.wf_foldl k
    | with_reducible exact fun k => SMap.wf_foldl (SMap.wf_drop k)
    | with_reducible exact fun _ _ k => absurd k List.not_mem_nil
    | intro _
    | with_reducible exact wiFn_n _
    | with_reducible apply State.start_keeps
    | with_reducible apply State.setLst_keeps
    | with_reducible apply keeps_next
    | with_reducible apply keeps_foldl
    | with_reducible apply keeps_foldl1
    | with_reducible exact Or.inr (by assumption)
    | with_reducible exact Or.inl rfl
    | dsimp only
    | (simp only [keeps_mk_eq]; with_reducible apply keeps_mk)
    | with_reducible apply keeps_ite
    | with_reducible apply keeps_ite1
    | split)

theorem execLinkAlignDone_keeps {W : List Part} {Q : Nat → Bool} {s0 : State} {b : Fin 32} {rtt : Fin 65536} {s : State}
    (wpgBnk_b_val : Q (pgBnk b.val) = true) (wbanks : Part.banks ∈ W)
    (hK : Keeps W Q s0 s) : Res.Keeps W Q s0 (execLinkAlignDone b rtt s) := by
  unfold execLinkAlignDone
  repeat' (first
    | with_reducible assumption
    | with_reducible exact id
    | with_reducible exact fun k => Mem.wf_writeBytes k
    | with_reducible exact fun k => Mem.wf_erase k
    | with_reducible exact fun k => SMap.wf_set k
    | with_reducible exact fun k => SMap.wf_drop k
    | with_reducible exact fun k => SMap.wf_foldl k
    | with_reducible exact fun k => SMap.wf_foldl (SMap.wf_drop k)
    | with_reducible exact fun _ _ k => absurd k List.not_mem_nil
    | intro _
    | with_reducible apply State.start_keeps
    | with_reducible apply State.modBk_keeps
    | with_reducible apply State.wr_keeps
    | with_reducible apply keeps_next
    | with_reducible apply keeps_foldl
    | with_reducible apply keeps_foldl1
    | with_reducible exact Or.inr (by assumption)
    | with_reducible exact Or.inl rfl
    | dsimp only
    | (simp only [keeps_mk_eq]; with_reducible apply keeps_mk)
    | with_reducible apply keeps_ite
    | with_reducible apply keeps_ite1
    | split)

theorem State.startRead_keeps {W : List Part} {Q : Nat → Bool} {s0 : State} {s : State} {b : Nat}
    (wbanks : Part.banks ∈ W)
    (hK : Keeps W Q s0 s) : Keeps W Q s0 (State.startRead s b) := by
  unfold State.startRead
  repeat' (first
    | with_reducible assumption
    | with_reducible exact id
    | with_reducible exact fun k => Mem.wf_writeBytes k
    | with_reducible exact fun k => Mem.wf_erase k
    | with_reducible exact fun k => SMap.wf_set k
    | with_reducible exact fun k => SMap.wf_drop k
    | with_reducible exact fun k => SMap.wf_foldl k
    | with_reducible exact fun k => SMap.wf_foldl (SMap.wf_drop k)
    | with_reducible exact fun _ _ k => absurd k List.not_mem_nil
    | intro _
    | with_reducible apply State.modBk_keeps
    | with_reducible apply keeps_next
    | with_reducible apply keeps_foldl
    | with_reducible apply keeps_foldl1
    | with_reducible exact Or.inr (by assumption)
    | with_reducible exact Or.inl rfl
    | dsimp only
    | (simp only [keeps_mk_eq]; with_reducible apply keeps_mk)
    | with_reducible apply keeps_ite
    | with_reducible apply keeps_ite1
    | split)

theorem execLinkSfsyncDone_keeps {W : List Part} {Q : Nat → Bool} {s0 : State} {b : Fin 32} {s : State}
    (wiFn_n : ∀ n, Q (iFn n) = true) (wpgBnk_b_val : Q (pgBnk b.val) = true) (wbanks : Part.banks ∈ W)
    (hK : Keeps W Q s0 s) : Res.Keeps W Q s0 (execLinkSfsyncDone b s) := by
  unfold execLinkSfsyncDone
  repeat' (first
    | with_reducible assumption
    | with_reducible exact id
    | with_reducible exact fun k => Mem.wf_writeBytes k
    | with_reducible exact fun k => Mem.wf_erase k
    | with_reducible exact fun k => SMap.wf_set k
    | with_reducible exact fun k => SMap.wf_drop k
    | with_reducible exact fun k => SMap.wf_foldl k
    | with_reducible exact fun k => SMap.wf_foldl (SMap.wf_drop k)
    | with_reducible exact fun _ _ k => absurd k List.not_mem_nil
    | intro _
    | with_reducible exact wiFn_n _
    | with_reducible apply State.start_keeps
    | with_reducible apply State.startRead_keeps
    | with_reducible apply State.setLst_keeps
    | with_reducible apply keeps_next
    | with_reducible apply keeps_foldl
    | with_reducible apply keeps_foldl1
    | with_reducible exact Or.inr (by assumption)
    | with_reducible exact Or.inl rfl
    | dsimp only
    | (simp only [keeps_mk_eq]; with_reducible apply keeps_mk)
    | with_reducible apply keeps_ite
    | with_reducible apply keeps_ite1
    | split)

theorem execLinkTrainTimeout_keeps {W : List Part} {Q : Nat → Bool} {s0 : State} {b : Fin 32} {n : Fin 9} {s : State}
    (wiFn_n : ∀ n, Q (iFn n) = true) (wpgBnk_b_val : Q (pgBnk b.val) = true) (wbanks : Part.banks ∈ W)
    (hK : Keeps W Q s0 s) : Res.Keeps W Q s0 (execLinkTrainTimeout b n s) := by
  unfold execLinkTrainTimeout
  repeat' (first
    | with_reducible assumption
    | with_reducible exact id
    | with_reducible exact fun k => Mem.wf_writeBytes k
    | with_reducible exact fun k => Mem.wf_erase k
    | with_reducible exact fun k => SMap.wf_set k
    | with_reducible exact fun k => SMap.wf_drop k
    | with_reducible exact fun k => SMap.wf_foldl k
    | with_reducible exact fun k => SMap.wf_foldl (SMap.wf_drop k)
    | with_reducible exact fun _ _ k => absurd k List.not_mem_nil
    | intro _
    | with_reducible exact wiFn_n _
    | with_reducible apply State.start_keeps
    | with_reducible apply State.setLst_keeps
    | with_reducible apply State.wr_keeps
    | with_reducible apply State.raise_keeps
    | with_reducible apply State.modBk_keeps
    | with_reducible apply keeps_next
    | with_reducible apply keeps_foldl
    | with_reducible apply keeps_foldl1
    | with_reducible exact Or.inr (by assumption)
    | with_reducible exact Or.inl rfl
    | dsimp only
    | (simp only [keeps_mk_eq]; with_reducible apply keeps_mk)
    | with_reducible apply keeps_ite
    | with_reducible apply keeps_ite1
    | split)

theorem execLinkRetryTimer_keeps {W : List Part} {Q : Nat → Bool} {s0 : State} {b : Fin 32} {s : State}
    (wiFn_n : ∀ n, Q (iFn n) = true) (wpgBnk_b_val : Q (pgBnk b.val) = true) (wbanks : Part.banks ∈ W)
    (hK : Keeps W Q s0 s) : Res.Keeps W Q s0 (execLinkRetryTimer b s) := by
  unfold execLinkRetryTimer
  repeat' (first
    | with_reducible assumption
    | with_reducible exact id
    | with_reducible exact fun k => Mem.wf_writeBytes k
    | with_reducible exact fun k => Mem.wf_erase k
    | with_reducible exact fun k => SMap.wf_set k
    | with_reducible exact fun k => SMap.wf_drop k
    | with_reducible exact fun k => SMap.wf_foldl k
    | with_reducible exact fun k => SMap.wf_foldl (SMap.wf_drop k)
    | with_reducible exact fun _ _ k => absurd k List.not_mem_nil
    | intro _
    | with_reducible exact wiFn_n _
    | with_reducible apply State.start_keeps
    | with_reducible apply State.setLst_keeps
    | with_reducible apply keeps_next
    | with_reducible apply keeps_foldl
    | with_reducible apply keeps_foldl1
    | with_reducible exact Or.inr (by assumption)
    | with_reducible exact Or.inl rfl
    | dsimp only
    | (simp only [keeps_mk_eq]; with_reducible apply keeps_mk)
    | with_reducible apply keeps_ite
    | with_reducible apply keeps_ite1
    | split)

end Sys2Proof.Machine
end

