-- ==== Sys2Proof/Laws/KeepsQueuePool.lean ====
section
/-! SUPPORT. What each function and command of Machine/QueuePool.lean keeps. -/
set_option linter.all false
set_option Elab.async false
namespace Sys2Proof.Machine

theorem State.setQueue_keeps {W : List Part} {Q : Nat → Bool} {s0 : State} {s : State} {q : Nat} {x : Queue}
    (wqueues : Part.queues ∈ W)
    (hK : Keeps W Q s0 s) : Keeps W Q s0 (State.setQueue s q x) := by
  unfold State.setQueue
  repeat' (first
    | with_reducible assumption
    | with_reducible exact id
    | with_reducible exact fun k => Mem.wf_writeBytes k
    | with_reducible exact fun k => Mem.wf_erase k
    | with_reducible exact fun k => SMap.wf_set k
    | with_reducible exact fun k => SMap.wf_drop k
    | with_reducible exact fun k => SMap.wf_foldl k
    | with_reducible exact fun k => SMap.wf_foldl (SMap.wf_drop k)
    | with_reducible exact fun _ _ k => absurd k List.not_mem_nil
    | intro _
    | with_reducible apply keeps_next
    | with_reducible apply keeps_foldl
    | with_reducible apply keeps_foldl1
    | with_reducible exact Or.inr (by assumption)
    | with_reducible exact Or.inl rfl
    | dsimp only
    | (simp only [keeps_mk_eq]; with_reducible apply keeps_mk)
    | with_reducible apply keeps_ite
    | with_reducible apply keeps_ite1
    | split)

theorem State.qCross_keeps {W : List Part} {Q : Nat → Bool} {s0 : State} {s : State} {q : Nat}
    (wiFn_n : ∀ n, Q (iFn n) = true) (wiQue_q : Q (iQue q) = true) (wpgQpm : Q pgQpm = true)
    (hK : Keeps W Q s0 s) : Keeps W Q s0 (State.qCross s q) := by
  unfold State.qCross
  repeat' (first
    | with_reducible assumption
    | with_reducible exact id
    | with_reducible exact fun k => Mem.wf_writeBytes k
    | with_reducible exact fun k => Mem.wf_erase k
    | with_reducible exact fun k => SMap.wf_set k
    | with_reducible exact fun k => SMap.wf_drop k
    | with_reducible exact fun k => SMap.wf_foldl k
    | with_reducible exact fun k => SMap.wf_foldl (SMap.wf_drop k)
    | with_reducible exact fun _ _ k => absurd k List.not_mem_nil
    | intro _
    | with_reducible exact wiFn_n _
    | with_reducible apply State.raise_keeps
    | with_reducible apply State.bump_keeps
    | with_reducible apply State.wr_keeps
    | with_reducible apply keeps_next
    | with_reducible apply keeps_foldl
    | with_reducible apply keeps_foldl1
    | with_reducible exact Or.inr (by assumption)
    | with_reducible exact Or.inl rfl
    | dsimp only
    | (simp only [keeps_mk_eq]; with_reducible apply keeps_mk)
    | with_reducible apply keeps_ite
    | with_reducible apply keeps_ite1
    | split)

theorem State.portWait_keeps {W : List Part} {Q : Nat → Bool} {s0 : State} {s : State} {p : Nat}
    (wpgQpm : Q pgQpm = true)
    (hK : Keeps W Q s0 s) : Keeps W Q s0 (State.portWait s p) := by
  unfold State.portWait
  repeat' (first
    | with_reducible assumption
    | with_reducible exact id
    | with_reducible exact fun k => Mem.wf_writeBytes k
    | with_reducible exact fun k => Mem.wf_erase k
    | with_reducible exact fun k => SMap.wf_set k
    | with_reducible exact fun k => SMap.wf_drop k
    | with_reducible exact fun k => SMap.wf_foldl k
    | with_reducible exact fun k => SMap.wf_foldl (SMap.wf_drop k)
    | with_reducible exact fun _ _ k => absurd k List.not_mem_nil
    | intro _
    | with_reducible apply State.setBits_keeps
    | with_reducible apply keeps_next
    | with_reducible apply keeps_foldl
    | with_reducible apply keeps_foldl1
    | with_reducible exact Or.inr (by assumption)
    | with_reducible exact Or.inl rfl
    | dsimp only
    | (simp only [keeps_mk_eq]; with_reducible apply keeps_mk)
    | with_reducible apply keeps_ite
    | with_reducible apply keeps_ite1
    | split)

theorem State.portGo_keeps {W : List Part} {Q : Nat → Bool} {s0 : State} {s : State} {p : Nat}
    (wpgQpm : Q pgQpm = true)
    (hK : Keeps W Q s0 s) : Keeps W Q s0 (State.portGo s p) := by
  unfold State.portGo
  repeat' (first
    | with_reducible assumption
    | with_reducible exact id
    | with_reducible exact fun k => Mem.wf_writeBytes k
    | with_reducible exact fun k => Mem.wf_erase k
    | with_reducible exact fun k => SMap.wf_set k
    | with_reducible exact fun k => SMap.wf_drop k
    | with_reducible exact fun k => SMap.wf_foldl k
    | with_reducible exact fun k => SMap.wf_foldl (SMap.wf_drop k)
    | with_reducible exact fun _ _ k => absurd k List.not_mem_nil
    | intro _
    | with_reducible apply State.clrBits_keeps
    | with_reducible apply keeps_next
    | with_reducible apply keeps_foldl
    | with_reducible apply keeps_foldl1
    | with_reducible exact Or.inr (by assumption)
    | with_reducible exact Or.inl rfl
    | dsimp only
    | (simp only [keeps_mk_eq]; with_reducible apply keeps_mk)
    | with_reducible apply keeps_ite
    | with_reducible apply keeps_ite1
    | split)

theorem State.portPop_keeps {W : List Part} {Q : Nat → Bool} {s0 : State} {s : State} {p : Nat}
    (wpgLgr : Q pgLgr = true) (wports : Part.ports ∈ W)
    (hK : Keeps W Q s0 s) : Keeps W Q s0 (State.portPop s p) := by
  unfold State.portPop
  repeat' (first
    | with_reducible assumption
    | with_reducible exact id
    | with_reducible exact fun k => Mem.wf_writeBytes k
    | with_reducible exact fun k => Mem.wf_erase k
    | with_reducible exact fun k => SMap.wf_set k
    | with_reducible exact fun k => SMap.wf_drop k
    | with_reducible exact fun k => SMap.wf_foldl k
    | with_reducible exact fun k => SMap.wf_foldl (SMap.wf_drop k)
    | with_reducible exact fun _ _ k => absurd k List.not_mem_nil
    | intro _
    | with_reducible apply State.wr_keeps
    | with_reducible apply keeps_next
    | with_reducible apply keeps_foldl
    | with_reducible apply keeps_foldl1
    | with_reducible exact Or.inr (by assumption)
    | with_reducible exact Or.inl rfl
    | dsimp only
    | (simp only [keeps_mk_eq]; with_reducible apply keeps_mk)
    | with_reducible apply keeps_ite
    | with_reducible apply keeps_ite1
    | split)

theorem State.admission_keeps {W : List Part} {Q : Nat → Bool} {s0 : State} {s : State} {p : Nat} {it : Item}
    (wiFn_n : ∀ n, Q (iFn n) = true) (wiQue_n : ∀ n, Q (iQue n) = true) (wpgGrd : Q pgGrd = true) (wpgQpm : Q pgQpm = true) (wgrading : Part.grading ∈ W) (wqueues : Part.queues ∈ W)
    (hK : Keeps W Q s0 s) : Keeps W Q s0 (State.admission s p it) := by
  unfold State.admission
  repeat' (first
    | with_reducible assumption
    | with_reducible exact id
    | with_reducible exact fun k => Mem.wf_writeBytes k
    | with_reducible exact fun k => Mem.wf_erase k
    | with_reducible exact fun k => SMap.wf_set k
    | with_reducible exact fun k => SMap.wf_drop k
    | with_reducible exact fun k => SMap.wf_foldl k
    | with_reducible exact fun k => SMap.wf_foldl (SMap.wf_drop k)
    | with_reducible exact fun _ _ k => absurd k List.not_mem_nil
    | intro _
    | with_reducible exact wiFn_n _
    | with_reducible exact wiQue_n _
    | with_reducible apply State.setQueue_keeps
    | with_reducible apply State.qCross_keeps
    | with_reducible apply State.portGo_keeps
    | with_reducible apply State.raise_keeps
    | with_reducible apply State.grdFree_keeps
    | with_reducible apply keeps_next
    | with_reducible apply keeps_foldl
    | with_reducible apply keeps_foldl1
    | with_reducible exact Or.inr (by assumption)
    | with_reducible exact Or.inl rfl
    | dsimp only
    | (simp only [keeps_mk_eq]; with_reducible apply keeps_mk)
    | with_reducible apply keeps_ite
    | with_reducible apply keeps_ite1
    | split)

theorem State.portOffer_keeps {W : List Part} {Q : Nat → Bool} {s0 : State} {s : State} {p : Nat} {fresh : Bool}
    (wiFn_n : ∀ n, Q (iFn n) = true) (wiQue_n : ∀ n, Q (iQue n) = true) (wpgGrd : Q pgGrd = true) (wpgLgr : Q pgLgr = true) (wpgQpm : Q pgQpm = true) (wports : Part.ports ∈ W) (wgrading : Part.grading ∈ W) (wqueues : Part.queues ∈ W)
    (hK : Keeps W Q s0 s) : Keeps W Q s0 (State.portOffer s p fresh) := by
  unfold State.portOffer
  repeat' (first
    | with_reducible assumption
    | with_reducible exact id
    | with_reducible exact fun k => Mem.wf_writeBytes k
    | with_reducible exact fun k => Mem.wf_erase k
    | with_reducible exact fun k => SMap.wf_set k
    | with_reducible exact fun k => SMap.wf_drop k
    | with_reducible exact fun k => SMap.wf_foldl k
    | with_reducible exact fun k => SMap.wf_foldl (SMap.wf_drop k)
    | with_reducible exact fun _ _ k => absurd k List.not_mem_nil
    | intro _
    | with_reducible exact wiFn_n _
    | with_reducible exact wiQue_n _
    | with_reducible apply State.portWait_keeps
    | with_reducible apply State.raise_keeps
    | with_reducible apply State.bump_keeps
    | with_reducible apply State.portGo_keeps
    | with_reducible apply State.portPop_keeps
    | with_reducible apply State.wr_keeps
    | with_reducible apply State.admission_keeps
    | with_reducible apply keeps_next
    | with_reducible apply keeps_foldl
    | with_reducible apply keeps_foldl1
    | with_reducible exact Or.inr (by assumption)
    | with_reducible exact Or.inl rfl
    | dsimp only
    | (simp only [keeps_mk_eq]; with_reducible apply keeps_mk)
    | with_reducible apply keeps_ite
    | with_reducible apply keeps_ite1
    | split)

theorem execQpmItemFirstWord_keeps {W : List Part} {Q : Nat → Bool} {s0 : State} {p : Fin 3} {s : State}
    (wiFn_n : ∀ n, Q (iFn n) = true) (wiQue_n : ∀ n, Q (iQue n) = true) (wpgGrd : Q pgGrd = true) (wpgLgr : Q pgLgr = true) (wpgQpm : Q pgQpm = true) (wports : Part.ports ∈ W) (wgrading : Part.grading ∈ W) (wqueues : Part.queues ∈ W)
    (hK : Keeps W Q s0 s) : Res.Keeps W Q s0 (execQpmItemFirstWord p s) := by
  unfold execQpmItemFirstWord
  repeat' (first
    | with_reducible assumption
    | with_reducible exact id
    | with_reducible exact fun k => Mem.wf_writeBytes k
    | with_reducible exact fun k => Mem.wf_erase k
    | with_reducible exact fun k => SMap.wf_set k
    | with_reducible exact fun k => SMap.wf_drop k
    | with_reducible exact fun k => SMap.wf_foldl k
    | with_reducible exact fun k => SMap.wf_foldl (SMap.wf_drop k)
    | with_reducible exact fun _ _ k => absurd k List.not_mem_nil
    | intro _
    | with_reducible exact wiFn_n _
    | with_reducible exact wiQue_n _
    | with_reducible apply State.start_keeps
    | with_reducible apply State.portOffer_keeps
    | with_reducible apply keeps_next
    | with_reducible apply keeps_foldl
    | with_reducible apply keeps_foldl1
    | with_reducible exact Or.inr (by assumption)
    | with_reducible exact Or.inl rfl
    | dsimp only
    | (simp only [keeps_mk_eq]; with_reducible apply keeps_mk)
    | with_reducible apply keeps_ite
    | with_reducible apply keeps_ite1
    | split)

theorem execQpmItemRetry_keeps {W : List Part} {Q : Nat → Bool} {s0 : State} {p : Fin 3} {s : State}
    (wiFn_n : ∀ n, Q (iFn n) = true) (wiQue_n : ∀ n, Q (iQue n) = true) (wpgGrd : Q pgGrd = true) (wpgLgr : Q pgLgr = true) (wpgQpm : Q pgQpm = true) (wports : Part.ports ∈ W) (wgrading : Part.grading ∈ W) (wqueues : Part.queues ∈ W)
    (hK : Keeps W Q s0 s) : Res.Keeps W Q s0 (execQpmItemRetry p s) := by
  unfold execQpmItemRetry
  repeat' (first
    | with_reducible assumption
    | with_reducible exact id
    | with_reducible exact fun k => Mem.wf_writeBytes k
    | with_reducible exact fun k => Mem.wf_erase k
    | with_reducible exact fun k => SMap.wf_set k
    | with_reducible exact fun k => SMap.wf_drop k
    | with_reducible exact fun k => SMap.wf_foldl k
    | with_reducible exact fun k => SMap.wf_foldl (SMap.wf_drop k)
    | with_reducible exact fun _ _ k => absurd k List.not_mem_nil
    | intro _
    | with_reducible exact wiFn_n _
    | with_reducible exact wiQue_n _
    | with_reducible apply State.start_keeps
    | with_reducible apply State.portOffer_keeps
    | with_reducible apply keeps_next
    | with_reducible apply keeps_foldl
    | with_reducible apply keeps_foldl1
    | with_reducible exact Or.inr (by assumption)
    | with_reducible exact Or.inl rfl
    | dsimp only
    | (simp only [keeps_mk_eq]; with_reducible apply keeps_mk)
    | with_reducible apply keeps_ite
    | with_reducible apply keeps_ite1
    | split)

theorem execGrdRecordEmit_keeps {W : List Part} {Q : Nat → Bool} {s0 : State} {s : State}
    (wiFn_n : ∀ n, Q (iFn n) = true) (wiQue_n : ∀ n, Q (iQue n) = true) (wpgGrd : Q pgGrd = true) (wpgQpm : Q pgQpm = true) (wgrading : Part.grading ∈ W) (wqueues : Part.queues ∈ W)
    (hK : Keeps W Q s0 s) : Res.Keeps W Q s0 (execGrdRecordEmit s) := by
  unfold execGrdRecordEmit
  repeat' (first
    | with_reducible assumption
    | with_reducible exact id
    | with_reducible exact fun k => Mem.wf_writeBytes k
    | with_reducible exact fun k => Mem.wf_erase k
    | with_reducible exact fun k => SMap.wf_set k
    | with_reducible exact fun k => SMap.wf_drop k
    | with_reducible exact fun k => SMap.wf_foldl k
    | with_reducible exact fun k => SMap.wf_foldl (SMap.wf_drop k)
    | with_reducible exact fun _ _ k => absurd k List.not_mem_nil
    | intro _
    | with_reducible exact wiFn_n _
    | with_reducible exact wiQue_n _
    | with_reducible apply State.start_keeps
    | with_reducible apply State.admission_keeps
    | with_reducible apply keeps_next
    | with_reducible apply keeps_foldl
    | with_reducible apply keeps_foldl1
    | with_reducible exact Or.inr (by assumption)
    | with_reducible exact Or.inl rfl
    | dsimp only
    | (simp only [keeps_mk_eq]; with_reducible apply keeps_mk)
    | with_reducible apply keeps_ite
    | with_reducible apply keeps_ite1
    | split)

theorem State.writeCells_keeps {W : List Part} {Q : Nat → Bool} {s0 : State} {s : State} {first : Bool} {bs : List Byte} {x1 : List Nat}
    (wmem : Part.mem ∈ W)
    (hK : Keeps W Q s0 s) : Keeps W Q s0 (State.writeCells s first bs x1) := by
  induction x1 generalizing s first bs with
  | nil =>
    unfold State.writeCells
    repeat' (first
      | with_reducible assumption
      | with_reducible exact id
      | with_reducible exact fun k => Mem.wf_writeBytes k
      | with_reducible exact fun k => Mem.wf_erase k
      | with_reducible exact fun k => SMap.wf_set k
      | with_reducible exact fun k => SMap.wf_drop k
      | with_reducible exact fun k => SMap.wf_foldl k
      | with_reducible exact fun k => SMap.wf_foldl (SMap.wf_drop k)
      | with_reducible exact fun _ _ k => absurd k List.not_mem_nil
      | intro _
      | with_reducible apply State.freeNext_keeps
      | with_reducible apply State.store_keeps
      | with_reducible apply keeps_next
      | with_reducible apply keeps_foldl
      | with_reducible apply keeps_foldl1
      | with_reducible exact Or.inr (by assumption)
      | with_reducible exact Or.inl rfl
      | dsimp only
      | (simp only [keeps_mk_eq]; with_reducible apply keeps_mk)
      | with_reducible apply keeps_ite
      | with_reducible apply keeps_ite1
      | split)
  | cons a l ih =>
    unfold State.writeCells
    repeat' (first
      | with_reducible assumption
      | with_reducible apply ih
      | with_reducible exact id
      | with_reducible exact fun k => Mem.wf_writeBytes k
      | with_reducible exact fun k => Mem.wf_erase k
      | with_reducible exact fun k => SMap.wf_set k
      | with_reducible exact fun k => SMap.wf_drop k
      | with_reducible exact fun k => SMap.wf_foldl k
      | with_reducible exact fun k => SMap.wf_foldl (SMap.wf_drop k)
      | with_reducible exact fun _ _ k => absurd k List.not_mem_nil
      | intro _
      | with_reducible apply State.freeNext_keeps
      | with_reducible apply State.store_keeps
      | with_reducible apply keeps_next
      | with_reducible apply keeps_foldl
      | with_reducible apply keeps_foldl1
      | with_reducible exact Or.inr (by assumption)
      | with_reducible exact Or.inl rfl
      | dsimp only
      | (simp only [keeps_mk_eq]; with_reducible apply keeps_mk)
      | with_reducible apply keeps_ite
      | with_reducible apply keeps_ite1
      | split)

theorem State.qDisable_keeps {W : List Part} {Q : Nat → Bool} {s0 : State} {s : State} {q : Nat}
    (wiQue_q : Q (iQue q) = true) (wqueues : Part.queues ∈ W)
    (hK : Keeps W Q s0 s) : Keeps W Q s0 (State.qDisable s q) := by
  unfold State.qDisable
  repeat' (first
    | with_reducible assumption
    | with_reducible exact id
    | with_reducible exact fun k => Mem.wf_writeBytes k
    | with_reducible exact fun k => Mem.wf_erase k
    | with_reducible exact fun k => SMap.wf_set k
    | with_reducible exact fun k => SMap.wf_drop k
    | with_reducible exact fun k => SMap.wf_foldl k
    | with_reducible exact fun k => SMap.wf_foldl (SMap.wf_drop k)
    | with_reducible exact fun _ _ k => absurd k List.not_mem_nil
    | intro _
    | with_reducible apply State.wr_keeps
    | with_reducible apply State.setQueue_keeps
    | with_reducible apply keeps_next
    | with_reducible apply keeps_foldl
    | with_reducible apply keeps_foldl1
    | with_reducible exact Or.inr (by assumption)
    | with_reducible exact Or.inl rfl
    | dsimp only
    | (simp only [keeps_mk_eq]; with_reducible apply keeps_mk)
    | with_reducible apply keeps_ite
    | with_reducible apply keeps_ite1
    | split)

theorem State.itemEnd_keeps {W : List Part} {Q : Nat → Bool} {s0 : State} {s : State} {p : Nat}
    (wiFn_n : ∀ n, Q (iFn n) = true) (wiQue_n : ∀ n, Q (iQue n) = true) (wpgLgr : Q pgLgr = true) (wpgQpm : Q pgQpm = true) (wmem : Part.mem ∈ W) (wports : Part.ports ∈ W) (wqueues : Part.queues ∈ W)
    (hK : Keeps W Q s0 s) : Keeps W Q s0 (State.itemEnd s p) := by
  unfold State.itemEnd
  repeat' (first
    | with_reducible assumption
    | with_reducible exact id
    | with_reducible exact fun k => Mem.wf_writeBytes k
    | with_reducible exact fun k => Mem.wf_erase k
    | with_reducible exact fun k => SMap.wf_set k
    | with_reducible exact fun k => SMap.wf_drop k
    | with_reducible exact fun k => SMap.wf_foldl k
    | with_reducible exact fun k => SMap.wf_foldl (SMap.wf_drop k)
    | with_reducible exact fun _ _ k => absurd k List.not_mem_nil
    | intro _
    | with_reducible exact wiFn_n _
    | with_reducible exact wiQue_n _
    | with_reducible apply State.portPop_keeps
    | with_reducible apply State.setQueue_keeps
    | with_reducible apply State.qDisable_keeps
    | with_reducible apply State.raise_keeps
    | with_reducible apply State.bump_keeps
    | with_reducible apply State.writeCells_keeps
    | with_reducible apply keeps_next
    | with_reducible apply keeps_foldl
    | with_reducible apply keeps_foldl1
    | with_reducible exact Or.inr (by assumption)
    | with_reducible exact Or.inl rfl
    | dsimp only
    | (simp only [keeps_mk_eq]; with_reducible apply keeps_mk)
    | with_reducible apply keeps_ite
    | with_reducible apply keeps_ite1
    | split)

theorem execQpmItemEnd_keeps {W : List Part} {Q : Nat → Bool} {s0 : State} {p : Fin 3} {s : State}
    (wiFn_n : ∀ n, Q (iFn n) = true) (wiQue_n : ∀ n, Q (iQue n) = true) (wpgLgr : Q pgLgr = true) (wpgQpm : Q pgQpm = true) (wmem : Part.mem ∈ W) (wports : Part.ports ∈ W) (wqueues : Part.queues ∈ W)
    (hK : Keeps W Q s0 s) : Res.Keeps W Q s0 (execQpmItemEnd p s) := by
  unfold execQpmItemEnd
  repeat' (first
    | with_reducible assumption
    | with_reducible exact id
    | with_reducible exact fun k => Mem.wf_writeBytes k
    | with_reducible exact fun k => Mem.wf_erase k
    | with_reducible exact fun k => SMap.wf_set k
    | with_reducible exact fun k => SMap.wf_drop k
    | with_reducible exact fun k => SMap.wf_foldl k
    | with_reducible exact fun k => SMap.wf_foldl (SMap.wf_drop k)
    | with_reducible exact fun _ _ k => absurd k List.not_mem_nil
    | intro _
    | with_reducible exact wiFn_n _
    | with_reducible exact wiQue_n _
    | with_reducible apply State.start_keeps
    | with_reducible apply State.itemEnd_keeps
    | with_reducible apply keeps_next
    | with_reducible apply keeps_foldl
    | with_reducible apply keeps_foldl1
    | with_reducible exact Or.inr (by assumption)
    | with_reducible exact Or.inl rfl
    | dsimp only
    | (simp only [keeps_mk_eq]; with_reducible apply keeps_mk)
    | with_reducible apply keeps_ite
    | with_reducible apply keeps_ite1
    | split)

theorem State.flush_keeps {W : List Part} {Q : Nat → Bool} {s0 : State} {s : State} {q : Nat} {passed : Nat}
    (wiFn_n : ∀ n, Q (iFn n) = true) (wiQue_q : Q (iQue q) = true) (wpgQpm : Q pgQpm = true) (wqueues : Part.queues ∈ W)
    (hK : Keeps W Q s0 s) : Keeps W Q s0 (State.flush s q passed) := by
  unfold State.flush
  repeat' (first
    | with_reducible assumption
    | with_reducible exact id
    | with_reducible exact fun k => Mem.wf_writeBytes k
    | with_reducible exact fun k => Mem.wf_erase k
    | with_reducible exact fun k => SMap.wf_set k
    | with_reducible exact fun k => SMap.wf_drop k
    | with_reducible exact fun k => SMap.wf_foldl k
    | with_reducible exact fun k => SMap.wf_foldl (SMap.wf_drop k)
    | with_reducible exact fun _ _ k => absurd k List.not_mem_nil
    | intro _
    | with_reducible exact wiFn_n _
    | with_reducible apply State.setQueue_keeps
    | with_reducible apply State.qCross_keeps
    | with_reducible apply State.raise_keeps
    | with_reducible apply keeps_next
    | with_reducible apply keeps_foldl
    | with_reducible apply keeps_foldl1
    | with_reducible exact Or.inr (by assumption)
    | with_reducible exact Or.inl rfl
    | dsimp only
    | (simp only [keeps_mk_eq]; with_reducible apply keeps_mk)
    | with_reducible apply keeps_ite
    | with_reducible apply keeps_ite1
    | split)

theorem State.qCmd_keeps {W : List Part} {Q : Nat → Bool} {s0 : State} {s : State} {d : Word} {passed : Nat}
    (wiFn_n : ∀ n, Q (iFn n) = true) (wiQue_n : ∀ n, Q (iQue n) = true) (wpgQpm : Q pgQpm = true) (wqueues : Part.queues ∈ W)
    (hK : Keeps W Q s0 s) : Keeps W Q s0 (State.qCmd s d passed) := by
  unfold State.qCmd
  repeat' (first
    | with_reducible assumption
    | with_reducible exact id
    | with_reducible exact fun k => Mem.wf_writeBytes k
    | with_reducible exact fun k => Mem.wf_erase k
    | with_reducible exact fun k => SMap.wf_set k
    | with_reducible exact fun k => SMap.wf_drop k
    | with_reducible exact fun k => SMap.wf_foldl k
    | with_reducible exact fun k => SMap.wf_foldl (SMap.wf_drop k)
    | with_reducible exact fun _ _ k => absurd k List.not_mem_nil
    | intro _
    | with_reducible exact wiFn_n _
    | with_reducible exact wiQue_n _
    | with_reducible apply State.flush_keeps
    | with_reducible apply keeps_next
    | with_reducible apply keeps_foldl
    | with_reducible apply keeps_foldl1
    | with_reducible exact Or.inr (by assumption)
    | with_reducible exact Or.inl rfl
    | dsimp only
    | (simp only [keeps_mk_eq]; with_reducible apply keeps_mk)
    | with_reducible apply keeps_ite
    | with_reducible apply keeps_ite1
    | split)

theorem State.qCfg_keeps {W : List Part} {Q : Nat → Bool} {s0 : State} {s : State} {d : Word} {passed : Nat}
    (wiFn_n : ∀ n, Q (iFn n) = true) (wiQue_n : ∀ n, Q (iQue n) = true) (wpgQpm : Q pgQpm = true) (wqueues : Part.queues ∈ W)
    (hK : Keeps W Q s0 s) : Keeps W Q s0 (State.qCfg s d passed) := by
  unfold State.qCfg
  repeat' (first
    | with_reducible assumption
    | with_reducible exact id
    | with_reducible exact fun k => Mem.wf_writeBytes k
    | with_reducible exact fun k => Mem.wf_erase k
    | with_reducible exact fun k => SMap.wf_set k
    | with_reducible exact fun k => SMap.wf_drop k
    | with_reducible exact fun k => SMap.wf_foldl k
    | with_reducible exact fun k => SMap.wf_foldl (SMap.wf_drop k)
    | with_reducible exact fun _ _ k => absurd k List.not_mem_nil
    | intro _
    | with_reducible exact wiFn_n _
    | with_reducible exact wiQue_n _
    | with_reducible apply State.setQueue_keeps
    | with_reducible apply State.wr_keeps
    | with_reducible apply State.flush_keeps
    | with_reducible apply State.qDisable_keeps
    | with_reducible apply keeps_next
    | with_reducible apply keeps_foldl
    | with_reducible apply keeps_foldl1
    | with_reducible exact Or.inr (by assumption)
    | with_reducible exact Or.inl rfl
    | dsimp only
    | (simp only [keeps_mk_eq]; with_reducible apply keeps_mk)
    | with_reducible apply keeps_ite
    | with_reducible apply keeps_ite1
    | split)

theorem execQpmFlush_keeps {W : List Part} {Q : Nat → Bool} {s0 : State} {r : Req} {d : Word} {passed : Fin 2049} {s : State}
    (w50 : Q 50 = true) (wiCode_8 : Q (iCode 8) = true) (wiFn_n : ∀ n, Q (iFn n) = true) (wiQue_n : ∀ n, Q (iQue n) = true) (wpgEvr : Q pgEvr = true) (wpgQpm : Q pgQpm = true) (wpgSys : Q pgSys = true) (wrecorder : Part.recorder ∈ W) (wqueues : Part.queues ∈ W) (wfield : Part.field ∈ W)
    (hK : Keeps W Q s0 s) : Res.Keeps W Q s0 (execQpmFlush r d passed s) := by
  unfold execQpmFlush
  repeat' (first
    | with_reducible assumption
    | with_reducible exact id
    | with_reducible exact fun k => Mem.wf_writeBytes k
    | with_reducible exact fun k => Mem.wf_erase k
    | with_reducible exact fun k => SMap.wf_set k
    | with_reducible exact fun k => SMap.wf_drop k
    | with_reducible exact fun k => SMap.wf_foldl k
    | with_reducible exact fun k => SMap.wf_foldl (SMap.wf_drop k)
    | with_reducible exact fun _ _ k => absurd k List.not_mem_nil
    | intro _
    | with_reducible exact wiFn_n _
    | with_reducible exact wiQue_n _
    | with_reducible apply State.access_keeps
    | with_reducible apply State.start_keeps
    | with_reducible apply State.qCmd_keeps
    | with_reducible apply keeps_next
    | with_reducible apply keeps_foldl
    | with_reducible apply keeps_foldl1
    | with_reducible exact Or.inr (by assumption)
    | with_reducible exact Or.inl rfl
    | dsimp only
    | (simp only [keeps_mk_eq]; with_reducible apply keeps_mk)
    | with_reducible apply keeps_ite
    | with_reducible apply keeps_ite1
    | split)

theorem execQpmQueueDisable_keeps {W : List Part} {Q : Nat → Bool} {s0 : State} {r : Req} {d : Word} {passed : Fin 2049} {s : State}
    (w50 : Q 50 = true) (wiCode_8 : Q (iCode 8) = true) (wiFn_n : ∀ n, Q (iFn n) = true) (wiQue_n : ∀ n, Q (iQue n) = true) (wpgEvr : Q pgEvr = true) (wpgQpm : Q pgQpm = true) (wpgSys : Q pgSys = true) (wrecorder : Part.recorder ∈ W) (wqueues : Part.queues ∈ W) (wfield : Part.field ∈ W)
    (hK : Keeps W Q s0 s) : Res.Keeps W Q s0 (execQpmQueueDisable r d passed s) := by
  unfold execQpmQueueDisable
  repeat' (first
    | with_reducible assumption
    | with_reducible exact id
    | with_reducible exact fun k => Mem.wf_writeBytes k
    | with_reducible exact fun k => Mem.wf_erase k
    | with_reducible exact fun k => SMap.wf_set k
    | with_reducible exact fun k => SMap.wf_drop k
    | with_reducible exact fun k => SMap.wf_foldl k
    | with_reducible exact fun k => SMap.wf_foldl (SMap.wf_drop k)
    | with_reducible exact fun _ _ k => absurd k List.not_mem_nil
    | intro _
    | with_reducible exact wiFn_n _
    | with_reducible exact wiQue_n _
    | with_reducible apply State.access_keeps
    | with_reducible apply State.start_keeps
    | with_reducible apply State.qCfg_keeps
    | with_reducible apply keeps_next
    | with_reducible apply keeps_foldl
    | with_reducible apply keeps_foldl1
    | with_reducible exact Or.inr (by assumption)
    | with_reducible exact Or.inl rfl
    | dsimp only
    | (simp only [keeps_mk_eq]; with_reducible apply keeps_mk)
    | with_reducible apply keeps_ite
    | with_reducible apply keeps_ite1
    | split)

theorem State.flushAll_keeps {W : List Part} {Q : Nat → Bool} {s0 : State} {s : State}
    (wiFn_n : ∀ n, Q (iFn n) = true) (wiQue_n : ∀ n, Q (iQue n) = true) (wpgQpm : Q pgQpm = true) (wqueues : Part.queues ∈ W)
    (hK : Keeps W Q s0 s) : Keeps W Q s0 (State.flushAll s) := by
  unfold State.flushAll
  repeat' (first
    | with_reducible assumption
    | with_reducible exact id
    | with_reducible exact fun k => Mem.wf_writeBytes k
    | with_reducible exact fun k => Mem.wf_erase k
    | with_reducible exact fun k => SMap.wf_set k
    | with_reducible exact fun k => SMap.wf_drop k
    | with_reducible exact fun k => SMap.wf_foldl k
    | with_reducible exact fun k => SMap.wf_foldl (SMap.wf_drop k)
    | with_reducible exact fun _ _ k => absurd k List.not_mem_nil
    | intro _
    | with_reducible exact wiFn_n _
    | with_reducible exact wiQue_n _
    | with_reducible apply State.freeNext_keeps
    | with_reducible apply State.flush_keeps
    | with_reducible apply keeps_next
    | with_reducible apply keeps_foldl
    | with_reducible apply keeps_foldl1
    | with_reducible exact Or.inr (by assumption)
    | with_reducible exact Or.inl rfl
    | dsimp only
    | (simp only [keeps_mk_eq]; with_reducible apply keeps_mk)
    | with_reducible apply keeps_ite
    | with_reducible apply keeps_ite1
    | split)

theorem State.qpmEnable_keeps {W : List Part} {Q : Nat → Bool} {s0 : State} {s : State} {en : Bool}
    (wiFn_n : ∀ n, Q (iFn n) = true) (wiQue_n : ∀ n, Q (iQue n) = true) (wpgQpm : Q pgQpm = true) (wqueues : Part.queues ∈ W)
    (hK : Keeps W Q s0 s) : Keeps W Q s0 (State.qpmEnable s en) := by
  unfold State.qpmEnable
  repeat' (first
    | with_reducible assumption
    | with_reducible exact id
    | with_reducible exact fun k => Mem.wf_writeBytes k
    | with_reducible exact fun k => Mem.wf_erase k
    | with_reducible exact fun k => SMap.wf_set k
    | with_reducible exact fun k => SMap.wf_drop k
    | with_reducible exact fun k => SMap.wf_foldl k
    | with_reducible exact fun k => SMap.wf_foldl (SMap.wf_drop k)
    | with_reducible exact fun _ _ k => absurd k List.not_mem_nil
    | intro _
    | with_reducible exact wiFn_n _
    | with_reducible exact wiQue_n _
    | with_reducible apply State.wr_keeps
    | with_reducible apply State.flushAll_keeps
    | with_reducible apply keeps_next
    | with_reducible apply keeps_foldl
    | with_reducible apply keeps_foldl1
    | with_reducible exact Or.inr (by assumption)
    | with_reducible exact Or.inl rfl
    | dsimp only
    | (simp only [keeps_mk_eq]; with_reducible apply keeps_mk)
    | with_reducible apply keeps_ite
    | with_reducible apply keeps_ite1
    | split)

theorem State.qpmMemOff_keeps {W : List Part} {Q : Nat → Bool} {s0 : State} {s : State}
    (wiFn_n : ∀ n, Q (iFn n) = true) (wiQue_n : ∀ n, Q (iQue n) = true) (wpgQpm : Q pgQpm = true) (wqueues : Part.queues ∈ W)
    (hK : Keeps W Q s0 s) : Keeps W Q s0 (State.qpmMemOff s) := by
  unfold State.qpmMemOff
  repeat' (first
    | with_reducible assumption
    | with_reducible exact id
    | with_reducible exact fun k => Mem.wf_writeBytes k
    | with_reducible exact fun k => Mem.wf_erase k
    | with_reducible exact fun k => SMap.wf_set k
    | with_reducible exact fun k => SMap.wf_drop k
    | with_reducible exact fun k => SMap.wf_foldl k
    | with_reducible exact fun k => SMap.wf_foldl (SMap.wf_drop k)
    | with_reducible exact fun _ _ k => absurd k List.not_mem_nil
    | intro _
    | with_reducible exact wiFn_n _
    | with_reducible exact wiQue_n _
    | with_reducible apply State.wr_keeps
    | with_reducible apply State.flushAll_keeps
    | with_reducible apply keeps_next
    | with_reducible apply keeps_foldl
    | with_reducible apply keeps_foldl1
    | with_reducible exact Or.inr (by assumption)
    | with_reducible exact Or.inl rfl
    | dsimp only
    | (simp only [keeps_mk_eq]; with_reducible apply keeps_mk)
    | with_reducible apply keeps_ite
    | with_reducible apply keeps_ite1
    | split)

end Sys2Proof.Machine
end

