-- ==== Sys2Proof/Laws/KeepsShift.lean ====
section
/-! SUPPORT. What each function and command of Machine/Shift.lean keeps. -/
set_option linter.all false
set_option Elab.async false
namespace Sys2Proof.Machine

theorem State.renumber_keeps {W : List Part} {Q : Nat → Bool} {s0 : State} {s : State} {k : Nat}
    (wtime : Part.time ∈ W) (wbanks : Part.banks ∈ W) (wchans : Part.chans ∈ W) (wbus : Part.bus ∈ W) (wgrading : Part.grading ∈ W) (wbridge : Part.bridge ∈ W) (wpair : Part.pair ∈ W) (whost : Part.host ∈ W)
    (hK : Keeps W Q s0 s) : Keeps W Q s0 (State.renumber s k) := by
  unfold State.renumber
  repeat' (first
    | with_reducible assumption
    | with_reducible exact id
    | with_reducible exact fun k => Mem.wf_writeBytes k
    | with_reducible exact fun k => Mem.wf_erase k
    | with_reducible exact fun k => SMap.wf_set k
    | with_reducible exact fun k => SMap.wf_drop k
    | with_reducible exact fun k => SMap.wf_foldl k
    | with_reducible exact fun k => SMap.wf_foldl (SMap.wf_drop k)
    | with_reducible exact fun _ _ k => absurd k List.not_mem_nil
    | intro _
    | with_reducible apply keeps_next
    | with_reducible apply keeps_foldl
    | with_reducible apply keeps_foldl1
    | with_reducible exact Or.inr (by assumption)
    | with_reducible exact Or.inl rfl
    | dsimp only
    | (simp only [keeps_mk_eq]; with_reducible apply keeps_mk)
    | with_reducible apply keeps_ite
    | with_reducible apply keeps_ite1
    | split)

theorem execSuperframeLengthChange_keeps {W : List Part} {Q : Nat → Bool} {s0 : State} {l : Fin 3} {s : State}
    (wtime : Part.time ∈ W)
    (hK : Keeps W Q s0 s) : Res.Keeps W Q s0 (execSuperframeLengthChange l s) := by
  unfold execSuperframeLengthChange
  repeat' (first
    | with_reducible assumption
    | with_reducible exact id
    | with_reducible exact fun k => Mem.wf_writeBytes k
    | with_reducible exact fun k => Mem.wf_erase k
    | with_reducible exact fun k => SMap.wf_set k
    | with_reducible exact fun k => SMap.wf_drop k
    | with_reducible exact fun k => SMap.wf_foldl k
    | with_reducible exact fun k => SMap.wf_foldl (SMap.wf_drop k)
    | with_reducible exact fun _ _ k => absurd k List.not_mem_nil
    | intro _
    | with_reducible apply State.start_keeps
    | with_reducible apply keeps_next
    | with_reducible apply keeps_foldl
    | with_reducible apply keeps_foldl1
    | with_reducible exact Or.inr (by assumption)
    | with_reducible exact Or.inl rfl
    | dsimp only
    | (simp only [keeps_mk_eq]; with_reducible apply keeps_mk)
    | with_reducible apply keeps_ite
    | with_reducible apply keeps_ite1
    | split)

theorem State.lenTurn_keeps {W : List Part} {Q : Nat → Bool} {s0 : State} {s : State}
    (wpgBnk_n : ∀ n, Q (pgBnk n) = true) (wtime : Part.time ∈ W) (wbanks : Part.banks ∈ W) (wchans : Part.chans ∈ W) (wbus : Part.bus ∈ W) (wgrading : Part.grading ∈ W) (wbridge : Part.bridge ∈ W) (wpair : Part.pair ∈ W) (whost : Part.host ∈ W)
    (hK : Keeps W Q s0 s) : Keeps W Q s0 (State.lenTurn s) := by
  unfold State.lenTurn
  repeat' (first
    | with_reducible assumption
    | with_reducible exact id
    | with_reducible exact fun k => Mem.wf_writeBytes k
    | with_reducible exact fun k => Mem.wf_erase k
    | with_reducible exact fun k => SMap.wf_set k
    | with_reducible exact fun k => SMap.wf_drop k
    | with_reducible exact fun k => SMap.wf_foldl k
    | with_reducible exact fun k => SMap.wf_foldl (SMap.wf_drop k)
    | with_reducible exact fun _ _ k => absurd k List.not_mem_nil
    | intro _
    | with_reducible exact wpgBnk_n _
    | with_reducible apply State.renumber_keeps
    | with_reducible apply State.tsAdj_keeps
    | with_reducible apply keeps_next
    | with_reducible apply keeps_foldl
    | with_reducible apply keeps_foldl1
    | with_reducible exact Or.inr (by assumption)
    | with_reducible exact Or.inl rfl
    | dsimp only
    | (simp only [keeps_mk_eq]; with_reducible apply keeps_mk)
    | with_reducible apply keeps_ite
    | with_reducible apply keeps_ite1
    | split)

end Sys2Proof.Machine
end

