-- ==== Sys2Proof/Laws/KeepsWork.lean ====
section
/-! SUPPORT. What each function and command of Machine/Work.lean keeps. -/
set_option linter.all false
set_option Elab.async false
namespace Sys2Proof.Machine

theorem State.latchInp_keeps {W : List Part} {Q : Nat → Bool} {s0 : State} {s : State} {b : Nat} {k : Nat}
    (wiCode_16 : Q (iCode 16) = true) (wiFn_n : ∀ n, Q (iFn n) = true) (wpgBnk_b : Q (pgBnk b) = true) (wpgBrg : Q pgBrg = true) (wpgChn_n : ∀ n, Q (pgChn n) = true) (wpgEvr : Q pgEvr = true) (wpgTrp : Q pgTrp = true) (wrecorder : Part.recorder ∈ W) (wbanks : Part.banks ∈ W) (wlogs : Part.logs ∈ W) (wbridge : Part.bridge ∈ W) (wpair : Part.pair ∈ W)
    (hK : Keeps W Q s0 s) : Keeps W Q s0 (State.latchInp s b k) := by
  unfold State.latchInp
  repeat' (first
    | with_reducible assumption
    | with_reducible exact id
    | with_reducible exact fun k => Mem.wf_writeBytes k
    | with_reducible exact fun k => Mem.wf_erase k
    | with_reducible exact fun k => SMap.wf_set k
    | with_reducible exact fun k => SMap.wf_drop k
    | with_reducible exact fun k => SMap.wf_foldl k
    | with_reducible exact fun k => SMap.wf_foldl (SMap.wf_drop k)
    | with_reducible exact fun _ _ k => absurd k List.not_mem_nil
    | intro _
    | with_reducible exact wiFn_n _
    | with_reducible exact wpgChn_n _
    | with_reducible apply State.bump_keeps
    | with_reducible apply State.fall_keeps
    | with_reducible apply State.modBk_keeps
    | with_reducible apply keeps_next
    | with_reducible apply keeps_foldl
    | with_reducible apply keeps_foldl1
    | with_reducible exact Or.inr (by assumption)
    | with_reducible exact Or.inl rfl
    | dsimp only
    | (simp only [keeps_mk_eq]; with_reducible apply keeps_mk)
    | with_reducible apply keeps_ite
    | with_reducible apply keeps_ite1
    | split)

theorem State.linkTurn_keeps {W : List Part} {Q : Nat → Bool} {s0 : State} {s : State} {b : Nat} {n : Nat}
    (wiFn_n : ∀ n, Q (iFn n) = true) (wpgBnk_b : Q (pgBnk b) = true) (wpgChn_n : ∀ n, Q (pgChn n) = true) (wbanks : Part.banks ∈ W)
    (hK : Keeps W Q s0 s) : Keeps W Q s0 (State.linkTurn s b n) := by
  unfold State.linkTurn
  repeat' (first
    | with_reducible assumption
    | with_reducible exact id
    | with_reducible exact fun k => Mem.wf_writeBytes k
    | with_reducible exact fun k => Mem.wf_erase k
    | with_reducible exact fun k => SMap.wf_set k
    | with_reducible exact fun k => SMap.wf_drop k
    | with_reducible exact fun k => SMap.wf_foldl k
    | with_reducible exact fun k => SMap.wf_foldl (SMap.wf_drop k)
    | with_reducible exact fun _ _ k => absurd k List.not_mem_nil
    | intro _
    | with_reducible exact wiFn_n _
    | with_reducible exact wpgChn_n _
    | with_reducible apply State.modBk_keeps
    | with_reducible apply State.setLst_keeps
    | with_reducible apply State.wr2_keeps
    | with_reducible apply State.wr_keeps
    | with_reducible apply State.raise_keeps
    | with_reducible apply keeps_next
    | with_reducible apply keeps_foldl
    | with_reducible apply keeps_foldl1
    | with_reducible exact Or.inr (by assumption)
    | with_reducible exact Or.inl rfl
    | dsimp only
    | (simp only [keeps_mk_eq]; with_reducible apply keeps_mk)
    | with_reducible apply keeps_ite
    | with_reducible apply keeps_ite1
    | split)

theorem State.setWords_keeps {W : List Part} {Q : Nat → Bool} {s0 : State} {s : State} {b : Nat} {n : Nat}
    (wpgChn_n : ∀ n, Q (pgChn n) = true) (wbanks : Part.banks ∈ W)
    (hK : Keeps W Q s0 s) : Keeps W Q s0 (State.setWords s b n) := by
  unfold State.setWords
  repeat' (first
    | with_reducible assumption
    | with_reducible exact id
    | with_reducible exact fun k => Mem.wf_writeBytes k
    | with_reducible exact fun k => Mem.wf_erase k
    | with_reducible exact fun k => SMap.wf_set k
    | with_reducible exact fun k => SMap.wf_drop k
    | with_reducible exact fun k => SMap.wf_foldl k
    | with_reducible exact fun k => SMap.wf_foldl (SMap.wf_drop k)
    | with_reducible exact fun _ _ k => absurd k List.not_mem_nil
    | intro _
    | with_reducible exact wpgChn_n _
    | with_reducible apply State.wrB_keeps
    | with_reducible apply State.wr_keeps
    | with_reducible apply State.modBk_keeps
    | with_reducible apply keeps_next
    | with_reducible apply keeps_foldl
    | with_reducible apply keeps_foldl1
    | with_reducible exact Or.inr (by assumption)
    | with_reducible exact Or.inl rfl
    | dsimp only
    | (simp only [keeps_mk_eq]; with_reducible apply keeps_mk)
    | with_reducible apply keeps_ite
    | with_reducible apply keeps_ite1
    | split)

theorem State.chanReset_keeps {W : List Part} {Q : Nat → Bool} {s0 : State} {s : State} {c : Nat}
    (wiShadow__pgChn_c_ : Q (iShadow (pgChn c)) = true) (wpgChn_c : Q (pgChn c) = true) (wchans : Part.chans ∈ W)
    (hK : Keeps W Q s0 s) : Keeps W Q s0 (State.chanReset s c) := by
  unfold State.chanReset
  repeat' (first
    | with_reducible assumption
    | with_reducible exact id
    | with_reducible exact fun k => Mem.wf_writeBytes k
    | with_reducible exact fun k => Mem.wf_erase k
    | with_reducible exact fun k => SMap.wf_set k
    | with_reducible exact fun k => SMap.wf_drop k
    | with_reducible exact fun k => SMap.wf_foldl k
    | with_reducible exact fun k => SMap.wf_foldl (SMap.wf_drop k)
    | with_reducible exact fun _ _ k => absurd k List.not_mem_nil
    | intro _
    | with_reducible apply State.resetInst_keeps
    | with_reducible apply State.dropShadows_keeps
    | with_reducible apply State.modCh_keeps
    | with_reducible apply keeps_next
    | with_reducible apply keeps_foldl
    | with_reducible apply keeps_foldl1
    | with_reducible exact Or.inr (by assumption)
    | with_reducible exact Or.inl rfl
    | dsimp only
    | (simp only [keeps_mk_eq]; with_reducible apply keeps_mk)
    | with_reducible apply keeps_ite
    | with_reducible apply keeps_ite1
    | split)

theorem State.chanTurn_keeps {W : List Part} {Q : Nat → Bool} {s0 : State} {s : State} {c : Nat}
    (wiShadow__pgChn_c_ : Q (iShadow (pgChn c)) = true) (wpgChn_c : Q (pgChn c) = true) (wchans : Part.chans ∈ W)
    (hK : Keeps W Q s0 s) : Keeps W Q s0 (State.chanTurn s c) := by
  unfold State.chanTurn
  repeat' (first
    | with_reducible assumption
    | with_reducible exact id
    | with_reducible exact fun k => Mem.wf_writeBytes k
    | with_reducible exact fun k => Mem.wf_erase k
    | with_reducible exact fun k => SMap.wf_set k
    | with_reducible exact fun k => SMap.wf_drop k
    | with_reducible exact fun k => SMap.wf_foldl k
    | with_reducible exact fun k => SMap.wf_foldl (SMap.wf_drop k)
    | with_reducible exact fun _ _ k => absurd k List.not_mem_nil
    | intro _
    | with_reducible apply State.chanReset_keeps
    | with_reducible apply keeps_next
    | with_reducible apply keeps_foldl
    | with_reducible apply keeps_foldl1
    | with_reducible exact Or.inr (by assumption)
    | with_reducible exact Or.inl rfl
    | dsimp only
    | (simp only [keeps_mk_eq]; with_reducible apply keeps_mk)
    | with_reducible apply keeps_ite
    | with_reducible apply keeps_ite1
    | split)

theorem State.bankTurn_keeps {W : List Part} {Q : Nat → Bool} {s0 : State} {s : State} {b : Nat} {n : Nat}
    (wiCode_16 : Q (iCode 16) = true) (wiFn_n : ∀ n, Q (iFn n) = true) (wiShadow__pgChn_n_ : ∀ n, Q (iShadow (pgChn n)) = true) (wpgBnk_b : Q (pgBnk b) = true) (wpgBrg : Q pgBrg = true) (wpgChn_n : ∀ n, Q (pgChn n) = true) (wpgEvr : Q pgEvr = true) (wpgTrp : Q pgTrp = true) (wrecorder : Part.recorder ∈ W) (wbanks : Part.banks ∈ W) (wchans : Part.chans ∈ W) (wlogs : Part.logs ∈ W) (wbridge : Part.bridge ∈ W) (wpair : Part.pair ∈ W)
    (hK : Keeps W Q s0 s) : Keeps W Q s0 (State.bankTurn s b n) := by
  unfold State.bankTurn
  repeat' (first
    | with_reducible assumption
    | with_reducible exact id
    | with_reducible exact fun k => Mem.wf_writeBytes k
    | with_reducible exact fun k => Mem.wf_erase k
    | with_reducible exact fun k => SMap.wf_set k
    | with_reducible exact fun k => SMap.wf_drop k
    | with_reducible exact fun k => SMap.wf_foldl k
    | with_reducible exact fun k => SMap.wf_foldl (SMap.wf_drop k)
    | with_reducible exact fun _ _ k => absurd k List.not_mem_nil
    | intro _
    | with_reducible exact wiFn_n _
    | with_reducible exact wiShadow__pgChn_n_ _
    | with_reducible exact wpgChn_n _
    | with_reducible apply State.latchInp_keeps
    | with_reducible apply State.linkTurn_keeps
    | with_reducible apply State.tripHold_keeps
    | with_reducible apply State.reloadLoad_keeps
    | with_reducible apply State.auxTake_keeps
    | with_reducible apply State.setWords_keeps
    | with_reducible apply State.chanTurn_keeps
    | with_reducible apply keeps_next
    | with_reducible apply keeps_foldl
    | with_reducible apply keeps_foldl1
    | with_reducible exact Or.inr (by assumption)
    | with_reducible exact Or.inl rfl
    | dsimp only
    | (simp only [keeps_mk_eq]; with_reducible apply keeps_mk)
    | with_reducible apply keeps_ite
    | with_reducible apply keeps_ite1
    | split)

theorem State.detach_keeps {W : List Part} {Q : Nat → Bool} {s0 : State} {s : State} {c : Nat} {k : Nat}
    (wiFn_n : ∀ n, Q (iFn n) = true) (wpgChn_c : Q (pgChn c) = true) (wchans : Part.chans ∈ W)
    (hK : Keeps W Q s0 s) : Keeps W Q s0 (State.detach s c k) := by
  unfold State.detach
  repeat' (first
    | with_reducible assumption
    | with_reducible exact id
    | with_reducible exact fun k => Mem.wf_writeBytes k
    | with_reducible exact fun k => Mem.wf_erase k
    | with_reducible exact fun k => SMap.wf_set k
    | with_reducible exact fun k => SMap.wf_drop k
    | with_reducible exact fun k => SMap.wf_foldl k
    | with_reducible exact fun k => SMap.wf_foldl (SMap.wf_drop k)
    | with_reducible exact fun _ _ k => absurd k List.not_mem_nil
    | intro _
    | with_reducible exact wiFn_n _
    | with_reducible apply State.modCh_keeps
    | with_reducible apply State.raise_keeps
    | with_reducible apply State.wr_keeps
    | with_reducible apply State.setCst_keeps
    | with_reducible apply keeps_next
    | with_reducible apply keeps_foldl
    | with_reducible apply keeps_foldl1
    | with_reducible exact Or.inr (by assumption)
    | with_reducible exact Or.inl rfl
    | dsimp only
    | (simp only [keeps_mk_eq]; with_reducible apply keeps_mk)
    | with_reducible apply keeps_ite
    | with_reducible apply keeps_ite1
    | split)

theorem State.chanBefore_keeps {W : List Part} {Q : Nat → Bool} {s0 : State} {s : State} {c : Nat} {k : Nat} {resume : Bool}
    (wiFn_n : ∀ n, Q (iFn n) = true) (wiShadow__pgChn_c_ : Q (iShadow (pgChn c)) = true) (wpgBnk__bankOf_c_ : Q (pgBnk (bankOf c)) = true) (wpgChn_n : ∀ n, Q (pgChn n) = true) (wpgStp : Q pgStp = true) (wchans : Part.chans ∈ W) (wports : Part.ports ∈ W) (wgrading : Part.grading ∈ W)
    (hK : Keeps W Q s0 s) : Keeps W Q s0 (State.chanBefore s c k resume) := by
  unfold State.chanBefore
  repeat' (first
    | with_reducible assumption
    | with_reducible exact id
    | with_reducible exact fun k => Mem.wf_writeBytes k
    | with_reducible exact fun k => Mem.wf_erase k
    | with_reducible exact fun k => SMap.wf_set k
    | with_reducible exact fun k => SMap.wf_drop k
    | with_reducible exact fun k => SMap.wf_foldl k
    | with_reducible exact fun k => SMap.wf_foldl (SMap.wf_drop k)
    | with_reducible exact fun _ _ k => absurd k List.not_mem_nil
    | intro _
    | with_reducible exact wiFn_n _
    | with_reducible exact wpgChn_n _
    | with_reducible apply State.cmdEffect_keeps
    | with_reducible apply State.resume_keeps
    | with_reducible apply State.lpBeforeB_keeps
    | with_reducible apply State.detach_keeps
    | with_reducible apply keeps_next
    | with_reducible apply keeps_foldl
    | with_reducible apply keeps_foldl1
    | with_reducible exact Or.inr (by assumption)
    | with_reducible exact Or.inl rfl
    | dsimp only
    | (simp only [keeps_mk_eq]; with_reducible apply keeps_mk)
    | with_reducible apply keeps_ite
    | with_reducible apply keeps_ite1
    | split)

theorem State.phaseB_keeps {W : List Part} {Q : Nat → Bool} {s0 : State} {s : State} {c : Nat}
    (wiCode_17 : Q (iCode 17) = true) (wiFn_n : ∀ n, Q (iFn n) = true) (wpgBnk__bankOf_c_ : Q (pgBnk (bankOf c)) = true) (wpgChn_c : Q (pgChn c) = true) (wpgEvr : Q pgEvr = true) (wrecorder : Part.recorder ∈ W) (wchans : Part.chans ∈ W)
    (hK : Keeps W Q s0 s) : Keeps W Q s0 (State.phaseB s c) := by
  unfold State.phaseB
  repeat' (first
    | with_reducible assumption
    | with_reducible exact id
    | with_reducible exact fun k => Mem.wf_writeBytes k
    | with_reducible exact fun k => Mem.wf_erase k
    | with_reducible exact fun k => SMap.wf_set k
    | with_reducible exact fun k => SMap.wf_drop k
    | with_reducible exact fun k => SMap.wf_foldl k
    | with_reducible exact fun k => SMap.wf_foldl (SMap.wf_drop k)
    | with_reducible exact fun _ _ k => absurd k List.not_mem_nil
    | intro _
    | with_reducible exact wiFn_n _
    | with_reducible apply State.runLaw_keeps
    | with_reducible apply State.slowCheck_keeps
    | with_reducible apply State.integrate_keeps
    | with_reducible apply keeps_next
    | with_reducible apply keeps_foldl
    | with_reducible apply keeps_foldl1
    | with_reducible exact Or.inr (by assumption)
    | with_reducible exact Or.inl rfl
    | dsimp only
    | (simp only [keeps_mk_eq]; with_reducible apply keeps_mk)
    | with_reducible apply keeps_ite
    | with_reducible apply keeps_ite1
    | split)

theorem State.bankWork_keeps {W : List Part} {Q : Nat → Bool} {s0 : State} {s : State} {b : Nat} {k : Nat}
    (wiCode_16 : Q (iCode 16) = true) (wiCode_17 : Q (iCode 17) = true) (wiCode_18 : Q (iCode 18) = true) (wiFn_n : ∀ n, Q (iFn n) = true) (wiShadow__pgChn_n_ : ∀ n, Q (iShadow (pgChn n)) = true) (wpgBnk__bankOf_n_ : ∀ n, Q (pgBnk (bankOf n)) = true) (wpgBnk_b : Q (pgBnk b) = true) (wpgChn_n : ∀ n, Q (pgChn n) = true) (wpgEvr : Q pgEvr = true) (wpgStp : Q pgStp = true) (wpgTrp : Q pgTrp = true) (wrecorder : Part.recorder ∈ W) (wbanks : Part.banks ∈ W) (wchans : Part.chans ∈ W) (wports : Part.ports ∈ W) (wgrading : Part.grading ∈ W) (wlogs : Part.logs ∈ W)
    (hK : Keeps W Q s0 s) : Keeps W Q s0 (State.bankWork s b k) := by
  unfold State.bankWork
  repeat' (first
    | with_reducible assumption
    | with_reducible exact id
    | with_reducible exact fun k => Mem.wf_writeBytes k
    | with_reducible exact fun k => Mem.wf_erase k
    | with_reducible exact fun k => SMap.wf_set k
    | with_reducible exact fun k => SMap.wf_drop k
    | with_reducible exact fun k => SMap.wf_foldl k
    | with_reducible exact fun k => SMap.wf_foldl (SMap.wf_drop k)
    | with_reducible exact fun _ _ k => absurd k List.not_mem_nil
    | intro _
    | with_reducible exact wiFn_n _
    | with_reducible exact wiShadow__pgChn_n_ _
    | with_reducible exact wpgBnk__bankOf_n_ _
    | with_reducible exact wpgChn_n _
    | with_reducible apply State.calDue_keeps
    | with_reducible apply State.tripEnter_keeps
    | with_reducible apply State.modBk_keeps
    | with_reducible apply State.ocvTap_keeps
    | with_reducible apply State.logBank_keeps
    | with_reducible apply State.phaseA_keeps
    | with_reducible apply State.gapHold_keeps
    | with_reducible apply State.clearsDue_keeps
    | with_reducible apply State.chanBefore_keeps
    | with_reducible apply State.tempCheck_keeps
    | with_reducible apply State.phaseB_keeps
    | with_reducible apply keeps_next
    | with_reducible apply keeps_foldl
    | with_reducible apply keeps_foldl1
    | with_reducible exact Or.inr (by assumption)
    | with_reducible exact Or.inl rfl
    | dsimp only
    | (simp only [keeps_mk_eq]; with_reducible apply keeps_mk)
    | with_reducible apply keeps_ite
    | with_reducible apply keeps_ite1
    | split)

theorem State.tryStart_keeps {W : List Part} {Q : Nat → Bool} {s0 : State} {s : State}
    (wiCode_16 : Q (iCode 16) = true) (wiCode_17 : Q (iCode 17) = true) (wiCode_18 : Q (iCode 18) = true) (wiFn_n : ∀ n, Q (iFn n) = true) (wiShadow__pgChn_n_ : ∀ n, Q (iShadow (pgChn n)) = true) (wpgBnk_n : ∀ n, Q (pgBnk n) = true) (wpgChn_n : ∀ n, Q (pgChn n) = true) (wpgEvr : Q pgEvr = true) (wpgStp : Q pgStp = true) (wpgTrp : Q pgTrp = true) (wrecorder : Part.recorder ∈ W) (wbanks : Part.banks ∈ W) (wchans : Part.chans ∈ W) (wbus : Part.bus ∈ W) (wports : Part.ports ∈ W) (wgrading : Part.grading ∈ W) (wlogs : Part.logs ∈ W)
    (hK : Keeps W Q s0 s) : Keeps W Q s0 (State.tryStart s) := by
  unfold State.tryStart
  repeat' (first
    | with_reducible assumption
    | with_reducible exact id
    | with_reducible exact fun k => Mem.wf_writeBytes k
    | with_reducible exact fun k => Mem.wf_erase k
    | with_reducible exact fun k => SMap.wf_set k
    | with_reducible exact fun k => SMap.wf_drop k
    | with_reducible exact fun k => SMap.wf_foldl k
    | with_reducible exact fun k => SMap.wf_foldl (SMap.wf_drop k)
    | with_reducible exact fun _ _ k => absurd k List.not_mem_nil
    | intro _
    | with_reducible exact wiFn_n _
    | with_reducible exact wiShadow__pgChn_n_ _
    | with_reducible exact wpgBnk_n _
    | with_reducible exact wpgChn_n _
    | with_reducible apply State.bankWork_keeps
    | with_reducible apply keeps_next
    | with_reducible apply keeps_foldl
    | with_reducible apply keeps_foldl1
    | with_reducible exact Or.inr (by assumption)
    | with_reducible exact Or.inl rfl
    | dsimp only
    | (simp only [keeps_mk_eq]; with_reducible apply keeps_mk)
    | with_reducible apply keeps_ite
    | with_reducible apply keeps_ite1
    | split)

theorem execSuperframeBoundary_keeps {W : List Part} {Q : Nat → Bool} {s0 : State} {s : State}
    (wiCode_16 : Q (iCode 16) = true) (wiCode_17 : Q (iCode 17) = true) (wiCode_18 : Q (iCode 18) = true) (wiCode_41 : Q (iCode 41) = true) (wiFn_n : ∀ n, Q (iFn n) = true) (wiForce_pgGrd : Q (iForce pgGrd) = true) (wiForce_pgLgr : Q (iForce pgLgr) = true) (wiForce_pgTrp : Q (iForce pgTrp) = true) (wiShadow__pgChn_n_ : ∀ n, Q (iShadow (pgChn n)) = true) (wpgBnk_n : ∀ n, Q (pgBnk n) = true) (wpgBrg : Q pgBrg = true) (wpgChn_n : ∀ n, Q (pgChn n) = true) (wpgEvr : Q pgEvr = true) (wpgPair : Q pgPair = true) (wpgPwr : Q pgPwr = true) (wpgStp : Q pgStp = true) (wpgTrp : Q pgTrp = true) (wrecorder : Part.recorder ∈ W) (wtime : Part.time ∈ W) (wvcore : Part.vcore ∈ W) (wbanks : Part.banks ∈ W) (wchans : Part.chans ∈ W) (wbus : Part.bus ∈ W) (wports : Part.ports ∈ W) (wgrading : Part.grading ∈ W) (wlogs : Part.logs ∈ W) (wbridge : Part.bridge ∈ W) (wpair : Part.pair ∈ W) (whost : Part.host ∈ W)
    (hK : Keeps W Q s0 s) : Res.Keeps W Q s0 (execSuperframeBoundary s) := by
  unfold execSuperframeBoundary
  repeat' (first
    | with_reducible assumption
    | with_reducible exact id
    | with_reducible exact fun k => Mem.wf_writeBytes k
    | with_reducible exact fun k => Mem.wf_erase k
    | with_reducible exact fun k => SMap.wf_set k
    | with_reducible exact fun k => SMap.wf_drop k
    | with_reducible exact fun k => SMap.wf_foldl k
    | with_reducible exact fun k => SMap.wf_foldl (SMap.wf_drop k)
    | with_reducible exact fun _ _ k => absurd k List.not_mem_nil
    | intro _
    | with_reducible exact wiFn_n _
    | with_reducible exact wiShadow__pgChn_n_ _
    | with_reducible exact wpgBnk_n _
    | with_reducible exact wpgChn_n _
    | with_reducible apply State.start_keeps
    | with_reducible apply State.plkChange_keeps
    | with_reducible apply State.bankTurn_keeps
    | with_reducible apply State.copyInst_keeps
    | with_reducible apply State.logTake_keeps
    | with_reducible apply State.vcoreLoop_keeps
    | with_reducible apply State.lenTurn_keeps
    | with_reducible apply State.plkSend_keeps
    | with_reducible apply State.syncEnd_keeps
    | with_reducible apply State.tryStart_keeps
    | with_reducible apply keeps_next
    | with_reducible apply keeps_foldl
    | with_reducible apply keeps_foldl1
    | with_reducible exact Or.inr (by assumption)
    | with_reducible exact Or.inl rfl
    | dsimp only
    | (simp only [keeps_mk_eq]; with_reducible apply keeps_mk)
    | with_reducible apply keeps_ite
    | with_reducible apply keeps_ite1
    | split)

theorem State.workDone_keeps {W : List Part} {Q : Nat → Bool} {s0 : State} {s : State} {b : Nat} {k : Nat} {slack : Nat}
    (wpgPwr : Q pgPwr = true) (wbanks : Part.banks ∈ W) (wpair : Part.pair ∈ W)
    (hK : Keeps W Q s0 s) : Keeps W Q s0 (State.workDone s b k slack) := by
  unfold State.workDone
  repeat' (first
    | with_reducible assumption
    | with_reducible exact id
    | with_reducible exact fun k => Mem.wf_writeBytes k
    | with_reducible exact fun k => Mem.wf_erase k
    | with_reducible exact fun k => SMap.wf_set k
    | with_reducible exact fun k => SMap.wf_drop k
    | with_reducible exact fun k => SMap.wf_foldl k
    | with_reducible exact fun k => SMap.wf_foldl (SMap.wf_drop k)
    | with_reducible exact fun _ _ k => absurd k List.not_mem_nil
    | intro _
    | with_reducible apply State.modBk_keeps
    | with_reducible apply State.wr_keeps
    | with_reducible apply State.wrB_keeps
    | with_reducible apply keeps_next
    | with_reducible apply keeps_foldl
    | with_reducible apply keeps_foldl1
    | with_reducible exact Or.inr (by assumption)
    | with_reducible exact Or.inl rfl
    | dsimp only
    | (simp only [keeps_mk_eq]; with_reducible apply keeps_mk)
    | with_reducible apply keeps_ite
    | with_reducible apply keeps_ite1
    | split)

theorem execPhaseCStart_keeps {W : List Part} {Q : Nat → Bool} {s0 : State} {b : Fin 32} {slack : Fin 256} {s : State}
    (wiFn_n : ∀ n, Q (iFn n) = true) (wpgBnk__bankOf_n_ : ∀ n, Q (pgBnk (bankOf n)) = true) (wpgChn_n : ∀ n, Q (pgChn n) = true) (wpgPwr : Q pgPwr = true) (wpgStp : Q pgStp = true) (wbanks : Part.banks ∈ W) (wchans : Part.chans ∈ W) (wports : Part.ports ∈ W) (wgrading : Part.grading ∈ W) (wpair : Part.pair ∈ W)
    (hK : Keeps W Q s0 s) : Res.Keeps W Q s0 (execPhaseCStart b slack s) := by
  unfold execPhaseCStart
  repeat' (first
    | with_reducible assumption
    | with_reducible exact id
    | with_reducible exact fun k => Mem.wf_writeBytes k
    | with_reducible exact fun k => Mem.wf_erase k
    | with_reducible exact fun k => SMap.wf_set k
    | with_reducible exact fun k => SMap.wf_drop k
    | with_reducible exact fun k => SMap.wf_foldl k
    | with_reducible exact fun k => SMap.wf_foldl (SMap.wf_drop k)
    | with_reducible exact fun _ _ k => absurd k List.not_mem_nil
    | intro _
    | with_reducible exact wiFn_n _
    | with_reducible exact wpgBnk__bankOf_n_ _
    | with_reducible exact wpgChn_n _
    | with_reducible apply State.start_keeps
    | with_reducible apply State.evaluate_keeps
    | with_reducible apply State.workDone_keeps
    | with_reducible apply keeps_next
    | with_reducible apply keeps_foldl
    | with_reducible apply keeps_foldl1
    | with_reducible exact Or.inr (by assumption)
    | with_reducible exact Or.inl rfl
    | dsimp only
    | (simp only [keeps_mk_eq]; with_reducible apply keeps_mk)
    | with_reducible apply keeps_ite
    | with_reducible apply keeps_ite1
    | split)

theorem execBankDeadline_keeps {W : List Part} {Q : Nat → Bool} {s0 : State} {b : Fin 32} {s : State}
    (wiCode_16 : Q (iCode 16) = true) (wiFn_n : ∀ n, Q (iFn n) = true) (wpgBnk_b_val : Q (pgBnk b.val) = true) (wpgChn_n : ∀ n, Q (pgChn n) = true) (wpgEvr : Q pgEvr = true) (wpgPwr : Q pgPwr = true) (wpgTrp : Q pgTrp = true) (wrecorder : Part.recorder ∈ W) (wbanks : Part.banks ∈ W) (wlogs : Part.logs ∈ W)
    (hK : Keeps W Q s0 s) : Res.Keeps W Q s0 (execBankDeadline b s) := by
  unfold execBankDeadline
  repeat' (first
    | with_reducible assumption
    | with_reducible exact id
    | with_reducible exact fun k => Mem.wf_writeBytes k
    | with_reducible exact fun k => Mem.wf_erase k
    | with_reducible exact fun k => SMap.wf_set k
    | with_reducible exact fun k => SMap.wf_drop k
    | with_reducible exact fun k => SMap.wf_foldl k
    | with_reducible exact fun k => SMap.wf_foldl (SMap.wf_drop k)
    | with_reducible exact fun _ _ k => absurd k List.not_mem_nil
    | intro _
    | with_reducible exact wiFn_n _
    | with_reducible exact wpgChn_n _
    | with_reducible apply State.start_keeps
    | with_reducible apply State.markSf_keeps
    | with_reducible apply State.modBk_keeps
    | with_reducible apply State.raise_keeps
    | with_reducible apply State.bump_keeps
    | with_reducible apply State.tripBank_keeps
    | with_reducible apply keeps_next
    | with_reducible apply keeps_foldl
    | with_reducible apply keeps_foldl1
    | with_reducible exact Or.inr (by assumption)
    | with_reducible exact Or.inl rfl
    | dsimp only
    | (simp only [keeps_mk_eq]; with_reducible apply keeps_mk)
    | with_reducible apply keeps_ite
    | with_reducible apply keeps_ite1
    | split)

theorem execLedgerWork_keeps {W : List Part} {Q : Nat → Bool} {s0 : State} {s : State}
    (wiCode_16 : Q (iCode 16) = true) (wiCode_17 : Q (iCode 17) = true) (wiCode_18 : Q (iCode 18) = true) (wiCode_33 : Q (iCode 33) = true) (wiFn_n : ∀ n, Q (iFn n) = true) (wiShadow__pgChn_n_ : ∀ n, Q (iShadow (pgChn n)) = true) (wiShadow_pgStp : Q (iShadow pgStp) = true) (wpgBnk_n : ∀ n, Q (pgBnk n) = true) (wpgChn_n : ∀ n, Q (pgChn n) = true) (wpgEvr : Q pgEvr = true) (wpgPair : Q pgPair = true) (wpgStp : Q pgStp = true) (wpgTrp : Q pgTrp = true) (wrecorder : Part.recorder ∈ W) (wbanks : Part.banks ∈ W) (wchans : Part.chans ∈ W) (wbus : Part.bus ∈ W) (wports : Part.ports ∈ W) (wgrading : Part.grading ∈ W) (wlogs : Part.logs ∈ W) (wpair : Part.pair ∈ W)
    (hK : Keeps W Q s0 s) : Res.Keeps W Q s0 (execLedgerWork s) := by
  unfold execLedgerWork
  repeat' (first
    | with_reducible assumption
    | with_reducible exact id
    | with_reducible exact fun k => Mem.wf_writeBytes k
    | with_reducible exact fun k => Mem.wf_erase k
    | with_reducible exact fun k => SMap.wf_set k
    | with_reducible exact fun k => SMap.wf_drop k
    | with_reducible exact fun k => SMap.wf_foldl k
    | with_reducible exact fun k => SMap.wf_foldl (SMap.wf_drop k)
    | with_reducible exact fun _ _ k => absurd k List.not_mem_nil
    | intro _
    | with_reducible exact wiFn_n _
    | with_reducible exact wiShadow__pgChn_n_ _
    | with_reducible exact wpgBnk_n _
    | with_reducible exact wpgChn_n _
    | with_reducible apply State.start_keeps
    | with_reducible apply State.ledger_keeps
    | with_reducible apply State.tryStart_keeps
    | with_reducible apply State.plkCapture_keeps
    | with_reducible apply State.digests_keeps
    | with_reducible apply keeps_next
    | with_reducible apply keeps_foldl
    | with_reducible apply keeps_foldl1
    | with_reducible exact Or.inr (by assumption)
    | with_reducible exact Or.inl rfl
    | dsimp only
    | (simp only [keeps_mk_eq]; with_reducible apply keeps_mk)
    | with_reducible apply keeps_ite
    | with_reducible apply keeps_ite1
    | split)

theorem execLedgerMiss_keeps {W : List Part} {Q : Nat → Bool} {s0 : State} {s : State}
    (wiCode_16 : Q (iCode 16) = true) (wiCode_32 : Q (iCode 32) = true) (wiFn_n : ∀ n, Q (iFn n) = true) (wpgBnk_n : ∀ n, Q (pgBnk n) = true) (wpgChn_n : ∀ n, Q (pgChn n) = true) (wpgEvr : Q pgEvr = true) (wpgPwr : Q pgPwr = true) (wpgStp : Q pgStp = true) (wpgTrp : Q pgTrp = true) (wrecorder : Part.recorder ∈ W) (wbanks : Part.banks ∈ W) (wbus : Part.bus ∈ W)
    (hK : Keeps W Q s0 s) : Res.Keeps W Q s0 (execLedgerMiss s) := by
  unfold execLedgerMiss
  repeat' (first
    | with_reducible assumption
    | with_reducible exact id
    | with_reducible exact fun k => Mem.wf_writeBytes k
    | with_reducible exact fun k => Mem.wf_erase k
    | with_reducible exact fun k => SMap.wf_set k
    | with_reducible exact fun k => SMap.wf_drop k
    | with_reducible exact fun k => SMap.wf_foldl k
    | with_reducible exact fun k => SMap.wf_foldl (SMap.wf_drop k)
    | with_reducible exact fun _ _ k => absurd k List.not_mem_nil
    | intro _
    | with_reducible exact wiFn_n _
    | with_reducible exact wpgBnk_n _
    | with_reducible exact wpgChn_n _
    | with_reducible apply State.start_keeps
    | with_reducible apply State.raise_keeps
    | with_reducible apply State.bump_keeps
    | with_reducible apply State.report_keeps
    | with_reducible apply State.modBk_keeps
    | with_reducible apply State.tripBank_keeps
    | with_reducible apply State.setWords_keeps
    | with_reducible apply keeps_next
    | with_reducible apply keeps_foldl
    | with_reducible apply keeps_foldl1
    | with_reducible exact Or.inr (by assumption)
    | with_reducible exact Or.inl rfl
    | dsimp only
    | (simp only [keeps_mk_eq]; with_reducible apply keeps_mk)
    | with_reducible apply keeps_ite
    | with_reducible apply keeps_ite1
    | split)

end Sys2Proof.Machine
end

