-- ==== Sys2Proof/Laws/KeepsFunctions.lean ====
section
/-! SUPPORT. What each function and command of Machine/Functions.lean keeps. -/
set_option linter.all false
set_option Elab.async false
namespace Sys2Proof.Machine

theorem State.fnUpdate_keeps {W : List Part} {Q : Nat → Bool} {s0 : State} {s : State} {f : Nat}
    (wiFn_f : Q (iFn f) = true) (whost : Part.host ∈ W)
    (hK : Keeps W Q s0 s) : Keeps W Q s0 (State.fnUpdate s f) := by
  unfold State.fnUpdate
  repeat' (first
    | with_reducible assumption
    | with_reducible exact id
    | with_reducible exact fun k => Mem.wf_writeBytes k
    | with_reducible exact fun k => Mem.wf_erase k
    | with_reducible exact fun k => SMap.wf_set k
    | with_reducible exact fun k => SMap.wf_drop k
    | with_reducible exact fun k => SMap.wf_foldl k
    | with_reducible exact fun k => SMap.wf_foldl (SMap.wf_drop k)
    | with_reducible exact fun _ _ k => absurd k List.not_mem_nil
    | intro _
    | with_reducible apply State.wr_keeps
    | with_reducible apply keeps_next
    | with_reducible apply keeps_foldl
    | with_reducible apply keeps_foldl1
    | with_reducible exact Or.inr (by assumption)
    | with_reducible exact Or.inl rfl
    | dsimp only
    | (simp only [keeps_mk_eq]; with_reducible apply keeps_mk)
    | with_reducible apply keeps_ite
    | with_reducible apply keeps_ite1
    | split)

theorem State.fnUpdates_keeps {W : List Part} {Q : Nat → Bool} {s0 : State} {s : State} {l : List Nat}
    (wiFn_n : ∀ n, Q (iFn n) = true) (whost : Part.host ∈ W)
    (hK : Keeps W Q s0 s) : Keeps W Q s0 (State.fnUpdates s l) := by
  unfold State.fnUpdates
  repeat' (first
    | with_reducible assumption
    | with_reducible exact id
    | with_reducible exact fun k => Mem.wf_writeBytes k
    | with_reducible exact fun k => Mem.wf_erase k
    | with_reducible exact fun k => SMap.wf_set k
    | with_reducible exact fun k => SMap.wf_drop k
    | with_reducible exact fun k => SMap.wf_foldl k
    | with_reducible exact fun k => SMap.wf_foldl (SMap.wf_drop k)
    | with_reducible exact fun _ _ k => absurd k List.not_mem_nil
    | intro _
    | with_reducible exact wiFn_n _
    | with_reducible apply State.fnUpdate_keeps
    | with_reducible apply keeps_next
    | with_reducible apply keeps_foldl
    | with_reducible apply keeps_foldl1
    | with_reducible exact Or.inr (by assumption)
    | with_reducible exact Or.inl rfl
    | dsimp only
    | (simp only [keeps_mk_eq]; with_reducible apply keeps_mk)
    | with_reducible apply keeps_ite
    | with_reducible apply keeps_ite1
    | split)

theorem State.setQp_keeps {W : List Part} {Q : Nat → Bool} {s0 : State} {s : State} {f : Nat} {q : Nat} {x : QPair}
    (whost : Part.host ∈ W)
    (hK : Keeps W Q s0 s) : Keeps W Q s0 (State.setQp s f q x) := by
  unfold State.setQp
  repeat' (first
    | with_reducible assumption
    | with_reducible exact id
    | with_reducible exact fun k => Mem.wf_writeBytes k
    | with_reducible exact fun k => Mem.wf_erase k
    | with_reducible exact fun k => SMap.wf_set k
    | with_reducible exact fun k => SMap.wf_drop k
    | with_reducible exact fun k => SMap.wf_foldl k
    | with_reducible exact fun k => SMap.wf_foldl (SMap.wf_drop k)
    | with_reducible exact fun _ _ k => absurd k List.not_mem_nil
    | intro _
    | with_reducible apply keeps_next
    | with_reducible apply keeps_foldl
    | with_reducible apply keeps_foldl1
    | with_reducible exact Or.inr (by assumption)
    | with_reducible exact Or.inl rfl
    | dsimp only
    | (simp only [keeps_mk_eq]; with_reducible apply keeps_mk)
    | with_reducible apply keeps_ite
    | with_reducible apply keeps_ite1
    | split)

theorem State.hostWrite_keeps {W : List Part} {Q : Nat → Bool} {s0 : State} {s : State} {f : Nat} {a : Nat} {bs : List Byte}
    (wiFn_f : Q (iFn f) = true) (whost : Part.host ∈ W)
    (hK : Keeps W Q s0 s) : Keeps W Q s0 (State.hostWrite s f a bs) := by
  unfold State.hostWrite
  repeat' (first
    | exact fun k => windows_set k (Mem.wf_writeBytes (windows_get k))
    | with_reducible assumption
    | with_reducible exact id
    | with_reducible exact fun k => Mem.wf_writeBytes k
    | with_reducible exact fun k => Mem.wf_erase k
    | with_reducible exact fun k => SMap.wf_set k
    | with_reducible exact fun k => SMap.wf_drop k
    | with_reducible exact fun k => SMap.wf_foldl k
    | with_reducible exact fun k => SMap.wf_foldl (SMap.wf_drop k)
    | with_reducible exact fun _ _ k => absurd k List.not_mem_nil
    | intro _
    | with_reducible apply State.bump_keeps
    | with_reducible apply State.emit_keeps
    | with_reducible apply keeps_next
    | with_reducible apply keeps_foldl
    | with_reducible apply keeps_foldl1
    | with_reducible exact Or.inr (by assumption)
    | with_reducible exact Or.inl rfl
    | dsimp only
    | (simp only [keeps_mk_eq]; with_reducible apply keeps_mk)
    | with_reducible apply keeps_ite
    | with_reducible apply keeps_ite1
    | split)

theorem State.complete_keeps {W : List Part} {Q : Nat → Bool} {s0 : State} {s : State} {f : Nat} {q : Nat} {result : Nat} {aux : Nat} {status : Nat} {cid : Nat}
    (wiFn_f : Q (iFn f) = true) (whost : Part.host ∈ W)
    (hK : Keeps W Q s0 s) : Keeps W Q s0 (State.complete s f q result aux status cid) := by
  unfold State.complete
  repeat' (first
    | with_reducible assumption
    | with_reducible exact id
    | with_reducible exact fun k => Mem.wf_writeBytes k
    | with_reducible exact fun k => Mem.wf_erase k
    | with_reducible exact fun k => SMap.wf_set k
    | with_reducible exact fun k => SMap.wf_drop k
    | with_reducible exact fun k => SMap.wf_foldl k
    | with_reducible exact fun k => SMap.wf_foldl (SMap.wf_drop k)
    | with_reducible exact fun _ _ k => absurd k List.not_mem_nil
    | intro _
    | with_reducible apply State.bump_keeps
    | with_reducible apply State.hostWrite_keeps
    | with_reducible apply State.emit_keeps
    | with_reducible apply State.msix_keeps
    | with_reducible apply State.setQp_keeps
    | with_reducible apply keeps_next
    | with_reducible apply keeps_foldl
    | with_reducible apply keeps_foldl1
    | with_reducible exact Or.inr (by assumption)
    | with_reducible exact Or.inl rfl
    | dsimp only
    | (simp only [keeps_mk_eq]; with_reducible apply keeps_mk)
    | with_reducible apply keeps_ite
    | with_reducible apply keeps_ite1
    | split)

theorem State.movesGone_keeps {W : List Part} {Q : Nat → Bool} {s0 : State} {s : State} {f : Nat}
    (wiFn_n : ∀ n, Q (iFn n) = true) (whost : Part.host ∈ W)
    (hK : Keeps W Q s0 s) : Keeps W Q s0 (State.movesGone s f) := by
  unfold State.movesGone
  repeat' (first
    | with_reducible assumption
    | with_reducible exact id
    | with_reducible exact fun k => Mem.wf_writeBytes k
    | with_reducible exact fun k => Mem.wf_erase k
    | with_reducible exact fun k => SMap.wf_set k
    | with_reducible exact fun k => SMap.wf_drop k
    | with_reducible exact fun k => SMap.wf_foldl k
    | with_reducible exact fun k => SMap.wf_foldl (SMap.wf_drop k)
    | with_reducible exact fun _ _ k => absurd k List.not_mem_nil
    | intro _
    | with_reducible exact wiFn_n _
    | with_reducible apply State.complete_keeps
    | with_reducible apply keeps_next
    | with_reducible apply keeps_foldl
    | with_reducible apply keeps_foldl1
    | with_reducible exact Or.inr (by assumption)
    | with_reducible exact Or.inl rfl
    | dsimp only
    | (simp only [keeps_mk_eq]; with_reducible apply keeps_mk)
    | with_reducible apply keeps_ite
    | with_reducible apply keeps_ite1
    | split)

theorem State.fnDrain_keeps {W : List Part} {Q : Nat → Bool} {s0 : State} {s : State} {f : Nat} {dead : Bool}
    (wiFn_n : ∀ n, Q (iFn n) = true) (wchans : Part.chans ∈ W) (whost : Part.host ∈ W)
    (hK : Keeps W Q s0 s) : Keeps W Q s0 (State.fnDrain s f dead) := by
  unfold State.fnDrain
  repeat' (first
    | with_reducible assumption
    | with_reducible exact id
    | with_reducible exact fun k => Mem.wf_writeBytes k
    | with_reducible exact fun k => Mem.wf_erase k
    | with_reducible exact fun k => SMap.wf_set k
    | with_reducible exact fun k => SMap.wf_drop k
    | with_reducible exact fun k => SMap.wf_foldl k
    | with_reducible exact fun k => SMap.wf_foldl (SMap.wf_drop k)
    | with_reducible exact fun _ _ k => absurd k List.not_mem_nil
    | intro _
    | with_reducible exact wiFn_n _
    | with_reducible apply State.wr_keeps
    | with_reducible apply State.modCh_keeps
    | with_reducible apply State.movesGone_keeps
    | with_reducible apply State.fnEvent_keeps
    | with_reducible apply keeps_next
    | with_reducible apply keeps_foldl
    | with_reducible apply keeps_foldl1
    | with_reducible exact Or.inr (by assumption)
    | with_reducible exact Or.inl rfl
    | dsimp only
    | (simp only [keeps_mk_eq]; with_reducible apply keeps_mk)
    | with_reducible apply keeps_ite
    | with_reducible apply keeps_ite1
    | split)

theorem State.fnDrains_keeps {W : List Part} {Q : Nat → Bool} {s0 : State} {s : State} {l : List Nat}
    (wiFn_n : ∀ n, Q (iFn n) = true) (wchans : Part.chans ∈ W) (whost : Part.host ∈ W)
    (hK : Keeps W Q s0 s) : Keeps W Q s0 (State.fnDrains s l) := by
  unfold State.fnDrains
  repeat' (first
    | with_reducible assumption
    | with_reducible exact id
    | with_reducible exact fun k => Mem.wf_writeBytes k
    | with_reducible exact fun k => Mem.wf_erase k
    | with_reducible exact fun k => SMap.wf_set k
    | with_reducible exact fun k => SMap.wf_drop k
    | with_reducible exact fun k => SMap.wf_foldl k
    | with_reducible exact fun k => SMap.wf_foldl (SMap.wf_drop k)
    | with_reducible exact fun _ _ k => absurd k List.not_mem_nil
    | intro _
    | with_reducible exact wiFn_n _
    | with_reducible apply State.fnDrain_keeps
    | with_reducible apply keeps_next
    | with_reducible apply keeps_foldl
    | with_reducible apply keeps_foldl1
    | with_reducible exact Or.inr (by assumption)
    | with_reducible exact Or.inl rfl
    | dsimp only
    | (simp only [keeps_mk_eq]; with_reducible apply keeps_mk)
    | with_reducible apply keeps_ite
    | with_reducible apply keeps_ite1
    | split)

theorem State.pairGone_keeps {W : List Part} {Q : Nat → Bool} {s0 : State} {s : State} {f : Nat} {q : Nat} {status : Nat} {cids : List Nat} {x1 : Nat}
    (wiFn_f : Q (iFn f) = true) (whost : Part.host ∈ W)
    (hK : Keeps W Q s0 s) : Keeps W Q s0 (State.pairGone s f q status cids x1).1 := by
  induction x1 generalizing s f q status cids with
  | zero =>
    unfold State.pairGone
    repeat' (first
      | with_reducible assumption
      | with_reducible exact id
      | with_reducible exact fun k => Mem.wf_writeBytes k
      | with_reducible exact fun k => Mem.wf_erase k
      | with_reducible exact fun k => SMap.wf_set k
      | with_reducible exact fun k => SMap.wf_drop k
      | with_reducible exact fun k => SMap.wf_foldl k
      | with_reducible exact fun k => SMap.wf_foldl (SMap.wf_drop k)
      | with_reducible exact fun _ _ k => absurd k List.not_mem_nil
      | intro _
      | with_reducible apply State.setQp_keeps
      | with_reducible apply State.complete_keeps
      | with_reducible apply State.freeNext_keeps
      | with_reducible apply keeps_next
      | with_reducible apply keeps_foldl
      | with_reducible apply keeps_foldl1
      | with_reducible exact Or.inr (by assumption)
      | with_reducible exact Or.inl rfl
      | dsimp only
      | (simp only [keeps_mk_eq]; with_reducible apply keeps_mk)
      | with_reducible apply keeps_ite
      | with_reducible apply keeps_ite1
      | split)
  | succ n ih =>
    unfold State.pairGone
    repeat' (first
      | with_reducible assumption
      | with_reducible apply ih
      | with_reducible exact id
      | with_reducible exact fun k => Mem.wf_writeBytes k
      | with_reducible exact fun k => Mem.wf_erase k
      | with_reducible exact fun k => SMap.wf_set k
      | with_reducible exact fun k => SMap.wf_drop k
      | with_reducible exact fun k => SMap.wf_foldl k
      | with_reducible exact fun k => SMap.wf_foldl (SMap.wf_drop k)
      | with_reducible exact fun _ _ k => absurd k List.not_mem_nil
      | intro _
      | with_reducible apply State.setQp_keeps
      | with_reducible apply State.complete_keeps
      | with_reducible apply State.freeNext_keeps
      | with_reducible apply keeps_next
      | with_reducible apply keeps_foldl
      | with_reducible apply keeps_foldl1
      | with_reducible exact Or.inr (by assumption)
      | with_reducible exact Or.inl rfl
      | dsimp only
      | (simp only [keeps_mk_eq]; with_reducible apply keeps_mk)
      | with_reducible apply keeps_ite
      | with_reducible apply keeps_ite1
      | split)

theorem State.pairGone_keeps_eq {W : List Part} {Q : Nat → Bool} {s0 tt : State} {vv : List Nat} {s : State} {f : Nat} {q : Nat} {status : Nat} {cids : List Nat} {x1 : Nat}
    (wiFn_f : Q (iFn f) = true) (whost : Part.host ∈ W)
    (hK : Keeps W Q s0 s) (e : (State.pairGone s f q status cids x1) = (tt, vv)) : Keeps W Q s0 tt := by
  have := @State.pairGone_keeps W Q s0 s f q status cids x1 wiFn_f whost hK
  rwa [e] at this

theorem State.unbind_keeps {W : List Part} {Q : Nat → Bool} {s0 : State} {s : State} {p : Bind → Bool}
    (wqueues : Part.queues ∈ W)
    (hK : Keeps W Q s0 s) : Keeps W Q s0 (State.unbind s p) := by
  unfold State.unbind
  repeat' (first
    | with_reducible assumption
    | with_reducible exact id
    | with_reducible exact fun k => Mem.wf_writeBytes k
    | with_reducible exact fun k => Mem.wf_erase k
    | with_reducible exact fun k => SMap.wf_set k
    | with_reducible exact fun k => SMap.wf_drop k
    | with_reducible exact fun k => SMap.wf_foldl k
    | with_reducible exact fun k => SMap.wf_foldl (SMap.wf_drop k)
    | with_reducible exact fun _ _ k => absurd k List.not_mem_nil
    | intro _
    | with_reducible apply keeps_next
    | with_reducible apply keeps_foldl
    | with_reducible apply keeps_foldl1
    | with_reducible exact Or.inr (by assumption)
    | with_reducible exact Or.inl rfl
    | dsimp only
    | (simp only [keeps_mk_eq]; with_reducible apply keeps_mk)
    | with_reducible apply keeps_ite
    | with_reducible apply keeps_ite1
    | split)

theorem State.chansToPf_keeps {W : List Part} {Q : Nat → Bool} {s0 : State} {s : State} {f : Nat}
    (wiFn_n : ∀ n, Q (iFn n) = true) (wpgChn_n : ∀ n, Q (pgChn n) = true) (whost : Part.host ∈ W)
    (hK : Keeps W Q s0 s) : Keeps W Q s0 (State.chansToPf s f) := by
  unfold State.chansToPf
  repeat' (first
    | with_reducible assumption
    | with_reducible exact id
    | with_reducible exact fun k => Mem.wf_writeBytes k
    | with_reducible exact fun k => Mem.wf_erase k
    | with_reducible exact fun k => SMap.wf_set k
    | with_reducible exact fun k => SMap.wf_drop k
    | with_reducible exact fun k => SMap.wf_foldl k
    | with_reducible exact fun k => SMap.wf_foldl (SMap.wf_drop k)
    | with_reducible exact fun _ _ k => absurd k List.not_mem_nil
    | intro _
    | with_reducible exact wiFn_n _
    | with_reducible exact wpgChn_n _
    | with_reducible apply State.redeliver_keeps
    | with_reducible apply State.wr_keeps
    | with_reducible apply keeps_next
    | with_reducible apply keeps_foldl
    | with_reducible apply keeps_foldl1
    | with_reducible exact Or.inr (by assumption)
    | with_reducible exact Or.inl rfl
    | dsimp only
    | (simp only [keeps_mk_eq]; with_reducible apply keeps_mk)
    | with_reducible apply keeps_ite
    | with_reducible apply keeps_ite1
    | split)

theorem State.queuesToPf_keeps {W : List Part} {Q : Nat → Bool} {s0 : State} {s : State} {f : Nat}
    (wiQue_n : ∀ n, Q (iQue n) = true)
    (hK : Keeps W Q s0 s) : Keeps W Q s0 (State.queuesToPf s f) := by
  unfold State.queuesToPf
  repeat' (first
    | with_reducible assumption
    | with_reducible exact id
    | with_reducible exact fun k => Mem.wf_writeBytes k
    | with_reducible exact fun k => Mem.wf_erase k
    | with_reducible exact fun k => SMap.wf_set k
    | with_reducible exact fun k => SMap.wf_drop k
    | with_reducible exact fun k => SMap.wf_foldl k
    | with_reducible exact fun k => SMap.wf_foldl (SMap.wf_drop k)
    | with_reducible exact fun _ _ k => absurd k List.not_mem_nil
    | intro _
    | with_reducible exact wiQue_n _
    | with_reducible apply State.wr_keeps
    | with_reducible apply keeps_next
    | with_reducible apply keeps_foldl
    | with_reducible apply keeps_foldl1
    | with_reducible exact Or.inr (by assumption)
    | with_reducible exact Or.inl rfl
    | dsimp only
    | (simp only [keeps_mk_eq]; with_reducible apply keeps_mk)
    | with_reducible apply keeps_ite
    | with_reducible apply keeps_ite1
    | split)

theorem State.quotasBack_keeps {W : List Part} {Q : Nat → Bool} {s0 : State} {s : State} {f : Nat}
    (wiFn_n : ∀ n, Q (iFn n) = true) (wpgFnc : Q pgFnc = true) (whost : Part.host ∈ W)
    (hK : Keeps W Q s0 s) : Keeps W Q s0 (State.quotasBack s f) := by
  unfold State.quotasBack
  repeat' (first
    | with_reducible assumption
    | with_reducible exact id
    | with_reducible exact fun k => Mem.wf_writeBytes k
    | with_reducible exact fun k => Mem.wf_erase k
    | with_reducible exact fun k => SMap.wf_set k
    | with_reducible exact fun k => SMap.wf_drop k
    | with_reducible exact fun k => SMap.wf_foldl k
    | with_reducible exact fun k => SMap.wf_foldl (SMap.wf_drop k)
    | with_reducible exact fun _ _ k => absurd k List.not_mem_nil
    | intro _
    | with_reducible exact wiFn_n _
    | with_reducible apply State.wr_keeps
    | with_reducible apply State.raise_keeps
    | with_reducible apply keeps_next
    | with_reducible apply keeps_foldl
    | with_reducible apply keeps_foldl1
    | with_reducible exact Or.inr (by assumption)
    | with_reducible exact Or.inl rfl
    | dsimp only
    | (simp only [keeps_mk_eq]; with_reducible apply keeps_mk)
    | with_reducible apply keeps_ite
    | with_reducible apply keeps_ite1
    | split)

theorem execFnDrainDone_keeps {W : List Part} {Q : Nat → Bool} {s0 : State} {f : Fin 512} {cids : List Nat} {s : State}
    (wiFn_n : ∀ n, Q (iFn n) = true) (wiQue_n : ∀ n, Q (iQue n) = true) (wpgChn_n : ∀ n, Q (pgChn n) = true) (wpgFnc : Q pgFnc = true) (whost : Part.host ∈ W) (wqueues : Part.queues ∈ W)
    (hK : Keeps W Q s0 s) : Res.Keeps W Q s0 (execFnDrainDone f cids s) := by
  unfold execFnDrainDone
  repeat' (first
    | with_reducible assumption
    | with_reducible exact id
    | with_reducible exact fun k => Mem.wf_writeBytes k
    | with_reducible exact fun k => Mem.wf_erase k
    | with_reducible exact fun k => SMap.wf_set k
    | with_reducible exact fun k => SMap.wf_drop k
    | with_reducible exact fun k => SMap.wf_foldl k
    | with_reducible exact fun k => SMap.wf_foldl (SMap.wf_drop k)
    | with_reducible exact fun _ _ k => absurd k List.not_mem_nil
    | intro _
    | with_reducible exact wiFn_n _
    | with_reducible exact wiQue_n _
    | with_reducible exact wpgChn_n _
    | with_reducible apply State.start_keeps
    | with_reducible apply State.pairGone_keeps
    | (refine State.pairGone_keeps_eq ?_ (by assumption) ?_ (by assumption))
    | with_reducible apply State.chansToPf_keeps
    | with_reducible apply State.queuesToPf_keeps
    | with_reducible apply State.unbind_keeps
    | with_reducible apply State.quotasBack_keeps
    | with_reducible apply keeps_next
    | with_reducible apply keeps_foldl
    | with_reducible apply keeps_foldl1
    | with_reducible exact Or.inr (by assumption)
    | with_reducible exact Or.inl rfl
    | dsimp only
    | (simp only [keeps_mk_eq]; with_reducible apply keeps_mk)
    | with_reducible apply keeps_ite
    | with_reducible apply keeps_ite1
    | split)

theorem execFlr_keeps {W : List Part} {Q : Nat → Bool} {s0 : State} {f : Fin 512} {s : State}
    (wiFn_n : ∀ n, Q (iFn n) = true) (wpgFnc : Q pgFnc = true) (wchans : Part.chans ∈ W) (whost : Part.host ∈ W)
    (hK : Keeps W Q s0 s) : Res.Keeps W Q s0 (execFlr f s) := by
  unfold execFlr
  repeat' (first
    | with_reducible assumption
    | with_reducible exact id
    | with_reducible exact fun k => Mem.wf_writeBytes k
    | with_reducible exact fun k => Mem.wf_erase k
    | with_reducible exact fun k => SMap.wf_set k
    | with_reducible exact fun k => SMap.wf_drop k
    | with_reducible exact fun k => SMap.wf_foldl k
    | with_reducible exact fun k => SMap.wf_foldl (SMap.wf_drop k)
    | with_reducible exact fun _ _ k => absurd k List.not_mem_nil
    | intro _
    | with_reducible exact wiFn_n _
    | with_reducible apply State.start_keeps
    | with_reducible apply State.raise_keeps
    | with_reducible apply State.fnDrain_keeps
    | with_reducible apply State.fnDrains_keeps
    | with_reducible apply keeps_next
    | with_reducible apply keeps_foldl
    | with_reducible apply keeps_foldl1
    | with_reducible exact Or.inr (by assumption)
    | with_reducible exact Or.inl rfl
    | dsimp only
    | (simp only [keeps_mk_eq]; with_reducible apply keeps_mk)
    | with_reducible apply keeps_ite
    | with_reducible apply keeps_ite1
    | split)

theorem execVfEnableClear_keeps {W : List Part} {Q : Nat → Bool} {s0 : State} {s : State}
    (wiFn_n : ∀ n, Q (iFn n) = true) (wchans : Part.chans ∈ W) (whost : Part.host ∈ W)
    (hK : Keeps W Q s0 s) : Res.Keeps W Q s0 (execVfEnableClear s) := by
  unfold execVfEnableClear
  repeat' (first
    | with_reducible assumption
    | with_reducible exact id
    | with_reducible exact fun k => Mem.wf_writeBytes k
    | with_reducible exact fun k => Mem.wf_erase k
    | with_reducible exact fun k => SMap.wf_set k
    | with_reducible exact fun k => SMap.wf_drop k
    | with_reducible exact fun k => SMap.wf_foldl k
    | with_reducible exact fun k => SMap.wf_foldl (SMap.wf_drop k)
    | with_reducible exact fun _ _ k => absurd k List.not_mem_nil
    | intro _
    | with_reducible exact wiFn_n _
    | with_reducible apply State.start_keeps
    | with_reducible apply State.fnDrains_keeps
    | with_reducible apply keeps_next
    | with_reducible apply keeps_foldl
    | with_reducible apply keeps_foldl1
    | with_reducible exact Or.inr (by assumption)
    | with_reducible exact Or.inl rfl
    | dsimp only
    | (simp only [keeps_mk_eq]; with_reducible apply keeps_mk)
    | with_reducible apply keeps_ite
    | with_reducible apply keeps_ite1
    | split)

theorem execBusMasterClear_keeps {W : List Part} {Q : Nat → Bool} {s0 : State} {f : Fin 512} {s : State}
    (wiFn_n : ∀ n, Q (iFn n) = true) (wchans : Part.chans ∈ W) (whost : Part.host ∈ W)
    (hK : Keeps W Q s0 s) : Res.Keeps W Q s0 (execBusMasterClear f s) := by
  unfold execBusMasterClear
  repeat' (first
    | with_reducible assumption
    | with_reducible exact id
    | with_reducible exact fun k => Mem.wf_writeBytes k
    | with_reducible exact fun k => Mem.wf_erase k
    | with_reducible exact fun k => SMap.wf_set k
    | with_reducible exact fun k => SMap.wf_drop k
    | with_reducible exact fun k => SMap.wf_foldl k
    | with_reducible exact fun k => SMap.wf_foldl (SMap.wf_drop k)
    | with_reducible exact fun _ _ k => absurd k List.not_mem_nil
    | intro _
    | with_reducible exact wiFn_n _
    | with_reducible apply State.start_keeps
    | with_reducible apply State.fnDrain_keeps
    | with_reducible apply keeps_next
    | with_reducible apply keeps_foldl
    | with_reducible apply keeps_foldl1
    | with_reducible exact Or.inr (by assumption)
    | with_reducible exact Or.inl rfl
    | dsimp only
    | (simp only [keeps_mk_eq]; with_reducible apply keeps_mk)
    | with_reducible apply keeps_ite
    | with_reducible apply keeps_ite1
    | split)

theorem execVfEnableSet_keeps {W : List Part} {Q : Nat → Bool} {s0 : State} {vf : Bool} {n : Fin 512} {s : State}
    (wiFn_n : ∀ n, Q (iFn n) = true) (whost : Part.host ∈ W)
    (hK : Keeps W Q s0 s) : Res.Keeps W Q s0 (execVfEnableSet vf n s) := by
  unfold execVfEnableSet
  repeat' (first
    | with_reducible assumption
    | with_reducible exact id
    | with_reducible exact fun k => Mem.wf_writeBytes k
    | with_reducible exact fun k => Mem.wf_erase k
    | with_reducible exact fun k => SMap.wf_set k
    | with_reducible exact fun k => SMap.wf_drop k
    | with_reducible exact fun k => SMap.wf_foldl k
    | with_reducible exact fun k => SMap.wf_foldl (SMap.wf_drop k)
    | with_reducible exact fun _ _ k => absurd k List.not_mem_nil
    | intro _
    | with_reducible exact wiFn_n _
    | with_reducible apply State.start_keeps
    | with_reducible apply State.fnUpdates_keeps
    | with_reducible apply keeps_next
    | with_reducible apply keeps_foldl
    | with_reducible apply keeps_foldl1
    | with_reducible exact Or.inr (by assumption)
    | with_reducible exact Or.inl rfl
    | dsimp only
    | (simp only [keeps_mk_eq]; with_reducible apply keeps_mk)
    | with_reducible apply keeps_ite
    | with_reducible apply keeps_ite1
    | split)

theorem execPcieReset_keeps {W : List Part} {Q : Nat → Bool} {s0 : State} {s : State}
    (wiFn_n : ∀ n, Q (iFn n) = true) (wchans : Part.chans ∈ W) (whost : Part.host ∈ W)
    (hK : Keeps W Q s0 s) : Res.Keeps W Q s0 (execPcieReset s) := by
  unfold execPcieReset
  repeat' (first
    | with_reducible assumption
    | with_reducible exact id
    | with_reducible exact fun k => Mem.wf_writeBytes k
    | with_reducible exact fun k => Mem.wf_erase k
    | with_reducible exact fun k => SMap.wf_set k
    | with_reducible exact fun k => SMap.wf_drop k
    | with_reducible exact fun k => SMap.wf_foldl k
    | with_reducible exact fun k => SMap.wf_foldl (SMap.wf_drop k)
    | with_reducible exact fun _ _ k => absurd k List.not_mem_nil
    | intro _
    | with_reducible exact wiFn_n _
    | with_reducible apply State.start_keeps
    | with_reducible apply State.fnDrains_keeps
    | with_reducible apply keeps_next
    | with_reducible apply keeps_foldl
    | with_reducible apply keeps_foldl1
    | with_reducible exact Or.inr (by assumption)
    | with_reducible exact Or.inl rfl
    | dsimp only
    | (simp only [keeps_mk_eq]; with_reducible apply keeps_mk)
    | with_reducible apply keeps_ite
    | with_reducible apply keeps_ite1
    | split)

theorem State.fnCtrl_keeps {W : List Part} {Q : Nat → Bool} {s0 : State} {s : State} {d : Word}
    (wiFn_n : ∀ n, Q (iFn n) = true) (wchans : Part.chans ∈ W) (whost : Part.host ∈ W)
    (hK : Keeps W Q s0 s) : Keeps W Q s0 (State.fnCtrl s d) := by
  unfold State.fnCtrl
  repeat' (first
    | with_reducible assumption
    | with_reducible exact id
    | with_reducible exact fun k => Mem.wf_writeBytes k
    | with_reducible exact fun k => Mem.wf_erase k
    | with_reducible exact fun k => SMap.wf_set k
    | with_reducible exact fun k => SMap.wf_drop k
    | with_reducible exact fun k => SMap.wf_foldl k
    | with_reducible exact fun k => SMap.wf_foldl (SMap.wf_drop k)
    | with_reducible exact fun _ _ k => absurd k List.not_mem_nil
    | intro _
    | with_reducible exact wiFn_n _
    | with_reducible apply State.wr_keeps
    | with_reducible apply State.fnUpdate_keeps
    | with_reducible apply State.fnDrain_keeps
    | with_reducible apply keeps_next
    | with_reducible apply keeps_foldl
    | with_reducible apply keeps_foldl1
    | with_reducible exact Or.inr (by assumption)
    | with_reducible exact Or.inl rfl
    | dsimp only
    | (simp only [keeps_mk_eq]; with_reducible apply keeps_mk)
    | with_reducible apply keeps_ite
    | with_reducible apply keeps_ite1
    | split)

theorem execFnDisable_keeps {W : List Part} {Q : Nat → Bool} {s0 : State} {r : Req} {d : Word} {s : State}
    (w50 : Q 50 = true) (wiCode_8 : Q (iCode 8) = true) (wiFn_n : ∀ n, Q (iFn n) = true) (wpgEvr : Q pgEvr = true) (wpgSys : Q pgSys = true) (wrecorder : Part.recorder ∈ W) (wchans : Part.chans ∈ W) (whost : Part.host ∈ W) (wfield : Part.field ∈ W)
    (hK : Keeps W Q s0 s) : Res.Keeps W Q s0 (execFnDisable r d s) := by
  unfold execFnDisable
  repeat' (first
    | with_reducible assumption
    | with_reducible exact id
    | with_reducible exact fun k => Mem.wf_writeBytes k
    | with_reducible exact fun k => Mem.wf_erase k
    | with_reducible exact fun k => SMap.wf_set k
    | with_reducible exact fun k => SMap.wf_drop k
    | with_reducible exact fun k => SMap.wf_foldl k
    | with_reducible exact fun k => SMap.wf_foldl (SMap.wf_drop k)
    | with_reducible exact fun _ _ k => absurd k List.not_mem_nil
    | intro _
    | with_reducible exact wiFn_n _
    | with_reducible apply State.access_keeps
    | with_reducible apply State.start_keeps
    | with_reducible apply State.fnCtrl_keeps
    | with_reducible apply keeps_next
    | with_reducible apply keeps_foldl
    | with_reducible apply keeps_foldl1
    | with_reducible exact Or.inr (by assumption)
    | with_reducible exact Or.inl rfl
    | dsimp only
    | (simp only [keeps_mk_eq]; with_reducible apply keeps_mk)
    | with_reducible apply keeps_ite
    | with_reducible apply keeps_ite1
    | split)

theorem State.quotaWrite_keeps {W : List Part} {Q : Nat → Bool} {s0 : State} {s : State} {d : Word}
    (wiFn_n : ∀ n, Q (iFn n) = true) (wpgFnc : Q pgFnc = true)
    (hK : Keeps W Q s0 s) : Keeps W Q s0 (State.quotaWrite s d) := by
  unfold State.quotaWrite
  repeat' (first
    | with_reducible assumption
    | with_reducible exact id
    | with_reducible exact fun k => Mem.wf_writeBytes k
    | with_reducible exact fun k => Mem.wf_erase k
    | with_reducible exact fun k => SMap.wf_set k
    | with_reducible exact fun k => SMap.wf_drop k
    | with_reducible exact fun k => SMap.wf_foldl k
    | with_reducible exact fun k => SMap.wf_foldl (SMap.wf_drop k)
    | with_reducible exact fun _ _ k => absurd k List.not_mem_nil
    | intro _
    | with_reducible exact wiFn_n _
    | with_reducible apply State.raise_keeps
    | with_reducible apply State.wr_keeps
    | with_reducible apply keeps_next
    | with_reducible apply keeps_foldl
    | with_reducible apply keeps_foldl1
    | with_reducible exact Or.inr (by assumption)
    | with_reducible exact Or.inl rfl
    | dsimp only
    | (simp only [keeps_mk_eq]; with_reducible apply keeps_mk)
    | with_reducible apply keeps_ite
    | with_reducible apply keeps_ite1
    | split)

theorem execQuotaWrite_keeps {W : List Part} {Q : Nat → Bool} {s0 : State} {r : Req} {d : Word} {s : State}
    (w50 : Q 50 = true) (wiCode_8 : Q (iCode 8) = true) (wiFn_n : ∀ n, Q (iFn n) = true) (wpgEvr : Q pgEvr = true) (wpgFnc : Q pgFnc = true) (wpgSys : Q pgSys = true) (wrecorder : Part.recorder ∈ W) (wfield : Part.field ∈ W)
    (hK : Keeps W Q s0 s) : Res.Keeps W Q s0 (execQuotaWrite r d s) := by
  unfold execQuotaWrite
  repeat' (first
    | with_reducible assumption
    | with_reducible exact id
    | with_reducible exact fun k => Mem.wf_writeBytes k
    | with_reducible exact fun k => Mem.wf_erase k
    | with_reducible exact fun k => SMap.wf_set k
    | with_reducible exact fun k => SMap.wf_drop k
    | with_reducible exact fun k => SMap.wf_foldl k
    | with_reducible exact fun k => SMap.wf_foldl (SMap.wf_drop k)
    | with_reducible exact fun _ _ k => absurd k List.not_mem_nil
    | intro _
    | with_reducible exact wiFn_n _
    | with_reducible apply State.access_keeps
    | with_reducible apply State.start_keeps
    | with_reducible apply State.quotaWrite_keeps
    | with_reducible apply keeps_next
    | with_reducible apply keeps_foldl
    | with_reducible apply keeps_foldl1
    | with_reducible exact Or.inr (by assumption)
    | with_reducible exact Or.inl rfl
    | dsimp only
    | (simp only [keeps_mk_eq]; with_reducible apply keeps_mk)
    | with_reducible apply keeps_ite
    | with_reducible apply keeps_ite1
    | split)

theorem State.rangeWrite_keeps {W : List Part} {Q : Nat → Bool} {s0 : State} {s : State} {cnt : Bool} {d : Word}
    (wiFn_n : ∀ n, Q (iFn n) = true)
    (hK : Keeps W Q s0 s) : Keeps W Q s0 (State.rangeWrite s cnt d) := by
  unfold State.rangeWrite
  repeat' (first
    | with_reducible assumption
    | with_reducible exact id
    | with_reducible exact fun k => Mem.wf_writeBytes k
    | with_reducible exact fun k => Mem.wf_erase k
    | with_reducible exact fun k => SMap.wf_set k
    | with_reducible exact fun k => SMap.wf_drop k
    | with_reducible exact fun k => SMap.wf_foldl k
    | with_reducible exact fun k => SMap.wf_foldl (SMap.wf_drop k)
    | with_reducible exact fun _ _ k => absurd k List.not_mem_nil
    | intro _
    | with_reducible exact wiFn_n _
    | with_reducible apply State.wr_keeps
    | with_reducible apply keeps_next
    | with_reducible apply keeps_foldl
    | with_reducible apply keeps_foldl1
    | with_reducible exact Or.inr (by assumption)
    | with_reducible exact Or.inl rfl
    | dsimp only
    | (simp only [keeps_mk_eq]; with_reducible apply keeps_mk)
    | with_reducible apply keeps_ite
    | with_reducible apply keeps_ite1
    | split)

theorem execStepRangeWrite_keeps {W : List Part} {Q : Nat → Bool} {s0 : State} {r : Req} {cnt : Bool} {d : Word} {s : State}
    (w50 : Q 50 = true) (wiCode_8 : Q (iCode 8) = true) (wiFn_n : ∀ n, Q (iFn n) = true) (wpgEvr : Q pgEvr = true) (wpgSys : Q pgSys = true) (wrecorder : Part.recorder ∈ W) (wfield : Part.field ∈ W)
    (hK : Keeps W Q s0 s) : Res.Keeps W Q s0 (execStepRangeWrite r cnt d s) := by
  unfold execStepRangeWrite
  repeat' (first
    | with_reducible assumption
    | with_reducible exact id
    | with_reducible exact fun k => Mem.wf_writeBytes k
    | with_reducible exact fun k => Mem.wf_erase k
    | with_reducible exact fun k => SMap.wf_set k
    | with_reducible exact fun k => SMap.wf_drop k
    | with_reducible exact fun k => SMap.wf_foldl k
    | with_reducible exact fun k => SMap.wf_foldl (SMap.wf_drop k)
    | with_reducible exact fun _ _ k => absurd k List.not_mem_nil
    | intro _
    | with_reducible exact wiFn_n _
    | with_reducible apply State.access_keeps
    | with_reducible apply State.start_keeps
    | with_reducible apply State.rangeWrite_keeps
    | with_reducible apply keeps_next
    | with_reducible apply keeps_foldl
    | with_reducible apply keeps_foldl1
    | with_reducible exact Or.inr (by assumption)
    | with_reducible exact Or.inl rfl
    | dsimp only
    | (simp only [keeps_mk_eq]; with_reducible apply keeps_mk)
    | with_reducible apply keeps_ite
    | with_reducible apply keeps_ite1
    | split)

theorem execBar2Read_keeps {W : List Part} {Q : Nat → Bool} {s0 : State} {f : Fin 512} {e : Fin 512} {o : Fin 129} {n : Fin 129} {s : State}
    
    (hK : Keeps W Q s0 s) : Res.Keeps W Q s0 (execBar2Read f e o n s) := by
  unfold execBar2Read
  repeat' (first
    | with_reducible assumption
    | with_reducible exact id
    | with_reducible exact fun k => Mem.wf_writeBytes k
    | with_reducible exact fun k => Mem.wf_erase k
    | with_reducible exact fun k => SMap.wf_set k
    | with_reducible exact fun k => SMap.wf_drop k
    | with_reducible exact fun k => SMap.wf_foldl k
    | with_reducible exact fun k => SMap.wf_foldl (SMap.wf_drop k)
    | with_reducible exact fun _ _ k => absurd k List.not_mem_nil
    | intro _
    | with_reducible apply State.start_keeps
    | with_reducible apply State.answer_keeps
    | with_reducible apply keeps_next
    | with_reducible apply keeps_foldl
    | with_reducible apply keeps_foldl1
    | with_reducible exact Or.inr (by assumption)
    | with_reducible exact Or.inl rfl
    | dsimp only
    | (simp only [keeps_mk_eq]; with_reducible apply keeps_mk)
    | with_reducible apply keeps_ite
    | with_reducible apply keeps_ite1
    | split)

theorem execBar2Write_keeps {W : List Part} {Q : Nat → Bool} {s0 : State} {f : Fin 512} {s : State}
    (wiFn_f_val : Q (iFn f.val) = true)
    (hK : Keeps W Q s0 s) : Res.Keeps W Q s0 (execBar2Write f s) := by
  unfold execBar2Write
  repeat' (first
    | with_reducible assumption
    | with_reducible exact id
    | with_reducible exact fun k => Mem.wf_writeBytes k
    | with_reducible exact fun k => Mem.wf_erase k
    | with_reducible exact fun k => SMap.wf_set k
    | with_reducible exact fun k => SMap.wf_drop k
    | with_reducible exact fun k => SMap.wf_foldl k
    | with_reducible exact fun k => SMap.wf_foldl (SMap.wf_drop k)
    | with_reducible exact fun _ _ k => absurd k List.not_mem_nil
    | intro _
    | with_reducible apply State.fnEvent_keeps
    | with_reducible apply State.start_keeps
    | with_reducible apply keeps_next
    | with_reducible apply keeps_foldl
    | with_reducible apply keeps_foldl1
    | with_reducible exact Or.inr (by assumption)
    | with_reducible exact Or.inl rfl
    | dsimp only
    | (simp only [keeps_mk_eq]; with_reducible apply keeps_mk)
    | with_reducible apply keeps_ite
    | with_reducible apply keeps_ite1
    | split)

theorem execPoisonedWrite_keeps {W : List Part} {Q : Nat → Bool} {s0 : State} {f : Fin 512} {s : State}
    (wiFn_f_val : Q (iFn f.val) = true)
    (hK : Keeps W Q s0 s) : Res.Keeps W Q s0 (execPoisonedWrite f s) := by
  unfold execPoisonedWrite
  repeat' (first
    | with_reducible assumption
    | with_reducible exact id
    | with_reducible exact fun k => Mem.wf_writeBytes k
    | with_reducible exact fun k => Mem.wf_erase k
    | with_reducible exact fun k => SMap.wf_set k
    | with_reducible exact fun k => SMap.wf_drop k
    | with_reducible exact fun k => SMap.wf_foldl k
    | with_reducible exact fun k => SMap.wf_foldl (SMap.wf_drop k)
    | with_reducible exact fun _ _ k => absurd k List.not_mem_nil
    | intro _
    | with_reducible apply State.fnEvent_keeps
    | with_reducible apply State.start_keeps
    | with_reducible apply keeps_next
    | with_reducible apply keeps_foldl
    | with_reducible apply keeps_foldl1
    | with_reducible exact Or.inr (by assumption)
    | with_reducible exact Or.inl rfl
    | dsimp only
    | (simp only [keeps_mk_eq]; with_reducible apply keeps_mk)
    | with_reducible apply keeps_ite
    | with_reducible apply keeps_ite1
    | split)

theorem State.fnAccess_keeps {W : List Part} {Q : Nat → Bool} {s0 : State} {s : State} {r : Req} {off : Nat} {k : State → Nat → State}
    (w50 : Q 50 = true) (wiCode_8 : Q (iCode 8) = true) (wiFn_n : ∀ n, Q (iFn n) = true) (wpgEvr : Q pgEvr = true) (wpgSys : Q pgSys = true) (wrecorder : Part.recorder ∈ W) (wfield : Part.field ∈ W) (hk : ∀ (y0 : State) (y1 : Nat), Keeps W Q s0 y0 → Keeps W Q s0 (k y0 y1))
    (hK : Keeps W Q s0 s) : Keeps W Q s0 (State.fnAccess s r off k) := by
  unfold State.fnAccess
  repeat' (first
    | with_reducible assumption
    | with_reducible exact id
    | with_reducible exact fun k => Mem.wf_writeBytes k
    | with_reducible exact fun k => Mem.wf_erase k
    | with_reducible exact fun k => SMap.wf_set k
    | with_reducible exact fun k => SMap.wf_drop k
    | with_reducible exact fun k => SMap.wf_foldl k
    | with_reducible exact fun k => SMap.wf_foldl (SMap.wf_drop k)
    | with_reducible exact fun _ _ k => absurd k List.not_mem_nil
    | intro _
    | with_reducible exact wiFn_n _
    | exact hk _ _ (by assumption)
    | with_reducible apply hk
    | with_reducible apply State.access_keeps
    | with_reducible apply State.accErr_keeps
    | with_reducible apply keeps_next
    | with_reducible apply keeps_foldl
    | with_reducible apply keeps_foldl1
    | with_reducible exact Or.inr (by assumption)
    | with_reducible exact Or.inl rfl
    | dsimp only
    | (simp only [keeps_mk_eq]; with_reducible apply keeps_mk)
    | with_reducible apply keeps_ite
    | with_reducible apply keeps_ite1
    | split)

theorem State.qpAbort_keeps {W : List Part} {Q : Nat → Bool} {s0 : State} {s : State} {f : Nat} {q : Nat} {cids : List Nat}
    (wiFn_f : Q (iFn f) = true) (whost : Part.host ∈ W) (wqueues : Part.queues ∈ W)
    (hK : Keeps W Q s0 s) : Keeps W Q s0 (State.qpAbort s f q cids) := by
  unfold State.qpAbort
  repeat' (first
    | with_reducible assumption
    | with_reducible exact id
    | with_reducible exact fun k => Mem.wf_writeBytes k
    | with_reducible exact fun k => Mem.wf_erase k
    | with_reducible exact fun k => SMap.wf_set k
    | with_reducible exact fun k => SMap.wf_drop k
    | with_reducible exact fun k => SMap.wf_foldl k
    | with_reducible exact fun k => SMap.wf_foldl (SMap.wf_drop k)
    | with_reducible exact fun _ _ k => absurd k List.not_mem_nil
    | intro _
    | with_reducible apply State.complete_keeps
    | with_reducible apply State.pairGone_keeps
    | (refine State.pairGone_keeps_eq ?_ (by assumption) ?_ (by assumption))
    | with_reducible apply State.unbind_keeps
    | with_reducible apply State.setQp_keeps
    | with_reducible apply keeps_next
    | with_reducible apply keeps_foldl
    | with_reducible apply keeps_foldl1
    | with_reducible exact Or.inr (by assumption)
    | with_reducible exact Or.inl rfl
    | dsimp only
    | (simp only [keeps_mk_eq]; with_reducible apply keeps_mk)
    | with_reducible apply keeps_ite
    | with_reducible apply keeps_ite1
    | split)

theorem State.qpCtrl_keeps {W : List Part} {Q : Nat → Bool} {s0 : State} {s : State} {f : Nat} {d : Word} {cids : List Nat}
    (wiFn_f : Q (iFn f) = true) (whost : Part.host ∈ W) (wqueues : Part.queues ∈ W)
    (hK : Keeps W Q s0 s) : Keeps W Q s0 (State.qpCtrl s f d cids) := by
  unfold State.qpCtrl
  repeat' (first
    | with_reducible assumption
    | with_reducible exact id
    | with_reducible exact fun k => Mem.wf_writeBytes k
    | with_reducible exact fun k => Mem.wf_erase k
    | with_reducible exact fun k => SMap.wf_set k
    | with_reducible exact fun k => SMap.wf_drop k
    | with_reducible exact fun k => SMap.wf_foldl k
    | with_reducible exact fun k => SMap.wf_foldl (SMap.wf_drop k)
    | with_reducible exact fun _ _ k => absurd k List.not_mem_nil
    | intro _
    | with_reducible apply State.qpAbort_keeps
    | with_reducible apply State.setQp_keeps
    | with_reducible apply keeps_next
    | with_reducible apply keeps_foldl
    | with_reducible apply keeps_foldl1
    | with_reducible exact Or.inr (by assumption)
    | with_reducible exact Or.inl rfl
    | dsimp only
    | (simp only [keeps_mk_eq]; with_reducible apply keeps_mk)
    | with_reducible apply keeps_ite
    | with_reducible apply keeps_ite1
    | split)

theorem execQEnable_keeps {W : List Part} {Q : Nat → Bool} {s0 : State} {r : Req} {d : Word} {s : State}
    (w50 : Q 50 = true) (wiCode_8 : Q (iCode 8) = true) (wiFn_n : ∀ n, Q (iFn n) = true) (wpgEvr : Q pgEvr = true) (wpgSys : Q pgSys = true) (wrecorder : Part.recorder ∈ W) (whost : Part.host ∈ W) (wqueues : Part.queues ∈ W) (wfield : Part.field ∈ W)
    (hK : Keeps W Q s0 s) : Res.Keeps W Q s0 (execQEnable r d s) := by
  unfold execQEnable
  repeat' (first
    | with_reducible assumption
    | with_reducible exact id
    | with_reducible exact fun k => Mem.wf_writeBytes k
    | with_reducible exact fun k => Mem.wf_erase k
    | with_reducible exact fun k => SMap.wf_set k
    | with_reducible exact fun k => SMap.wf_drop k
    | with_reducible exact fun k => SMap.wf_foldl k
    | with_reducible exact fun k => SMap.wf_foldl (SMap.wf_drop k)
    | with_reducible exact fun _ _ k => absurd k List.not_mem_nil
    | intro _
    | with_reducible exact wiFn_n _
    | with_reducible apply State.fnAccess_keeps
    | with_reducible apply State.start_keeps
    | with_reducible apply State.qpCtrl_keeps
    | with_reducible apply keeps_next
    | with_reducible apply keeps_foldl
    | with_reducible apply keeps_foldl1
    | with_reducible exact Or.inr (by assumption)
    | with_reducible exact Or.inl rfl
    | dsimp only
    | (simp only [keeps_mk_eq]; with_reducible apply keeps_mk)
    | with_reducible apply keeps_ite
    | with_reducible apply keeps_ite1
    | split)

theorem execQDisable_keeps {W : List Part} {Q : Nat → Bool} {s0 : State} {r : Req} {d : Word} {cids : List Nat} {s : State}
    (w50 : Q 50 = true) (wiCode_8 : Q (iCode 8) = true) (wiFn_n : ∀ n, Q (iFn n) = true) (wpgEvr : Q pgEvr = true) (wpgSys : Q pgSys = true) (wrecorder : Part.recorder ∈ W) (whost : Part.host ∈ W) (wqueues : Part.queues ∈ W) (wfield : Part.field ∈ W)
    (hK : Keeps W Q s0 s) : Res.Keeps W Q s0 (execQDisable r d cids s) := by
  unfold execQDisable
  repeat' (first
    | with_reducible assumption
    | with_reducible exact id
    | with_reducible exact fun k => Mem.wf_writeBytes k
    | with_reducible exact fun k => Mem.wf_erase k
    | with_reducible exact fun k => SMap.wf_set k
    | with_reducible exact fun k => SMap.wf_drop k
    | with_reducible exact fun k => SMap.wf_foldl k
    | with_reducible exact fun k => SMap.wf_foldl (SMap.wf_drop k)
    | with_reducible exact fun _ _ k => absurd k List.not_mem_nil
    | intro _
    | with_reducible exact wiFn_n _
    | with_reducible apply State.fnAccess_keeps
    | with_reducible apply State.start_keeps
    | with_reducible apply State.qpCtrl_keeps
    | with_reducible apply keeps_next
    | with_reducible apply keeps_foldl
    | with_reducible apply keeps_foldl1
    | with_reducible exact Or.inr (by assumption)
    | with_reducible exact Or.inl rfl
    | dsimp only
    | (simp only [keeps_mk_eq]; with_reducible apply keeps_mk)
    | with_reducible apply keeps_ite
    | with_reducible apply keeps_ite1
    | split)

theorem State.dbIgnore_keeps {W : List Part} {Q : Nat → Bool} {s0 : State} {s : State} {f : Nat}
    (wiFn_f : Q (iFn f) = true)
    (hK : Keeps W Q s0 s) : Keeps W Q s0 (State.dbIgnore s f) := by
  unfold State.dbIgnore
  repeat' (first
    | with_reducible assumption
    | with_reducible exact id
    | with_reducible exact fun k => Mem.wf_writeBytes k
    | with_reducible exact fun k => Mem.wf_erase k
    | with_reducible exact fun k => SMap.wf_set k
    | with_reducible exact fun k => SMap.wf_drop k
    | with_reducible exact fun k => SMap.wf_foldl k
    | with_reducible exact fun k => SMap.wf_foldl (SMap.wf_drop k)
    | with_reducible exact fun _ _ k => absurd k List.not_mem_nil
    | intro _
    | with_reducible apply State.fnEvent_keeps
    | with_reducible apply State.bump_keeps
    | with_reducible apply keeps_next
    | with_reducible apply keeps_foldl
    | with_reducible apply keeps_foldl1
    | with_reducible exact Or.inr (by assumption)
    | with_reducible exact Or.inl rfl
    | dsimp only
    | (simp only [keeps_mk_eq]; with_reducible apply keeps_mk)
    | with_reducible apply keeps_ite
    | with_reducible apply keeps_ite1
    | split)

theorem State.doorbell_keeps {W : List Part} {Q : Nat → Bool} {s0 : State} {s : State} {f : Nat} {d : Word}
    (wiFn_f : Q (iFn f) = true) (whost : Part.host ∈ W) (wqueues : Part.queues ∈ W)
    (hK : Keeps W Q s0 s) : Keeps W Q s0 (State.doorbell s f d) := by
  unfold State.doorbell
  repeat' (first
    | with_reducible assumption
    | with_reducible exact id
    | with_reducible exact fun k => Mem.wf_writeBytes k
    | with_reducible exact fun k => Mem.wf_erase k
    | with_reducible exact fun k => SMap.wf_set k
    | with_reducible exact fun k => SMap.wf_drop k
    | with_reducible exact fun k => SMap.wf_foldl k
    | with_reducible exact fun k => SMap.wf_foldl (SMap.wf_drop k)
    | with_reducible exact fun _ _ k => absurd k List.not_mem_nil
    | intro _
    | with_reducible apply State.dbIgnore_keeps
    | with_reducible apply State.setQp_keeps
    | with_reducible apply State.setQueue_keeps
    | with_reducible apply keeps_next
    | with_reducible apply keeps_foldl
    | with_reducible apply keeps_foldl1
    | with_reducible exact Or.inr (by assumption)
    | with_reducible exact Or.inl rfl
    | dsimp only
    | (simp only [keeps_mk_eq]; with_reducible apply keeps_mk)
    | with_reducible apply keeps_ite
    | with_reducible apply keeps_ite1
    | split)

theorem State.dbKind_keeps {W : List Part} {Q : Nat → Bool} {s0 : State} {s : State} {r : Req} {kind : Nat} {d : Word}
    (w50 : Q 50 = true) (wiCode_8 : Q (iCode 8) = true) (wiFn_n : ∀ n, Q (iFn n) = true) (wpgEvr : Q pgEvr = true) (wpgSys : Q pgSys = true) (wrecorder : Part.recorder ∈ W) (whost : Part.host ∈ W) (wqueues : Part.queues ∈ W) (wfield : Part.field ∈ W)
    (hK : Keeps W Q s0 s) : Keeps W Q s0 (State.dbKind s r kind d) := by
  unfold State.dbKind
  repeat' (first
    | with_reducible assumption
    | with_reducible exact id
    | with_reducible exact fun k => Mem.wf_writeBytes k
    | with_reducible exact fun k => Mem.wf_erase k
    | with_reducible exact fun k => SMap.wf_set k
    | with_reducible exact fun k => SMap.wf_drop k
    | with_reducible exact fun k => SMap.wf_foldl k
    | with_reducible exact fun k => SMap.wf_foldl (SMap.wf_drop k)
    | with_reducible exact fun _ _ k => absurd k List.not_mem_nil
    | intro _
    | with_reducible exact wiFn_n _
    | with_reducible apply State.fnAccess_keeps
    | with_reducible apply State.doorbell_keeps
    | with_reducible apply keeps_next
    | with_reducible apply keeps_foldl
    | with_reducible apply keeps_foldl1
    | with_reducible exact Or.inr (by assumption)
    | with_reducible exact Or.inl rfl
    | dsimp only
    | (simp only [keeps_mk_eq]; with_reducible apply keeps_mk)
    | with_reducible apply keeps_ite
    | with_reducible apply keeps_ite1
    | split)

theorem execDbSqTail_keeps {W : List Part} {Q : Nat → Bool} {s0 : State} {r : Req} {d : Word} {s : State}
    (w50 : Q 50 = true) (wiCode_8 : Q (iCode 8) = true) (wiFn_n : ∀ n, Q (iFn n) = true) (wpgEvr : Q pgEvr = true) (wpgSys : Q pgSys = true) (wrecorder : Part.recorder ∈ W) (whost : Part.host ∈ W) (wqueues : Part.queues ∈ W) (wfield : Part.field ∈ W)
    (hK : Keeps W Q s0 s) : Res.Keeps W Q s0 (execDbSqTail r d s) := by
  unfold execDbSqTail
  repeat' (first
    | with_reducible assumption
    | with_reducible exact id
    | with_reducible exact fun k => Mem.wf_writeBytes k
    | with_reducible exact fun k => Mem.wf_erase k
    | with_reducible exact fun k => SMap.wf_set k
    | with_reducible exact fun k => SMap.wf_drop k
    | with_reducible exact fun k => SMap.wf_foldl k
    | with_reducible exact fun k => SMap.wf_foldl (SMap.wf_drop k)
    | with_reducible exact fun _ _ k => absurd k List.not_mem_nil
    | intro _
    | with_reducible exact wiFn_n _
    | with_reducible apply State.dbKind_keeps
    | with_reducible apply State.start_keeps
    | with_reducible apply keeps_next
    | with_reducible apply keeps_foldl
    | with_reducible apply keeps_foldl1
    | with_reducible exact Or.inr (by assumption)
    | with_reducible exact Or.inl rfl
    | dsimp only
    | (simp only [keeps_mk_eq]; with_reducible apply keeps_mk)
    | with_reducible apply keeps_ite
    | with_reducible apply keeps_ite1
    | split)

theorem execDbCqHead_keeps {W : List Part} {Q : Nat → Bool} {s0 : State} {r : Req} {d : Word} {s : State}
    (w50 : Q 50 = true) (wiCode_8 : Q (iCode 8) = true) (wiFn_n : ∀ n, Q (iFn n) = true) (wpgEvr : Q pgEvr = true) (wpgSys : Q pgSys = true) (wrecorder : Part.recorder ∈ W) (whost : Part.host ∈ W) (wqueues : Part.queues ∈ W) (wfield : Part.field ∈ W)
    (hK : Keeps W Q s0 s) : Res.Keeps W Q s0 (execDbCqHead r d s) := by
  unfold execDbCqHead
  repeat' (first
    | with_reducible assumption
    | with_reducible exact id
    | with_reducible exact fun k => Mem.wf_writeBytes k
    | with_reducible exact fun k => Mem.wf_erase k
    | with_reducible exact fun k => SMap.wf_set k
    | with_reducible exact fun k => SMap.wf_drop k
    | with_reducible exact fun k => SMap.wf_foldl k
    | with_reducible exact fun k => SMap.wf_foldl (SMap.wf_drop k)
    | with_reducible exact fun _ _ k => absurd k List.not_mem_nil
    | intro _
    | with_reducible exact wiFn_n _
    | with_reducible apply State.dbKind_keeps
    | with_reducible apply State.start_keeps
    | with_reducible apply keeps_next
    | with_reducible apply keeps_foldl
    | with_reducible apply keeps_foldl1
    | with_reducible exact Or.inr (by assumption)
    | with_reducible exact Or.inl rfl
    | dsimp only
    | (simp only [keeps_mk_eq]; with_reducible apply keeps_mk)
    | with_reducible apply keeps_ite
    | with_reducible apply keeps_ite1
    | split)

theorem execDbDeliveryHead_keeps {W : List Part} {Q : Nat → Bool} {s0 : State} {r : Req} {d : Word} {s : State}
    (w50 : Q 50 = true) (wiCode_8 : Q (iCode 8) = true) (wiFn_n : ∀ n, Q (iFn n) = true) (wpgEvr : Q pgEvr = true) (wpgSys : Q pgSys = true) (wrecorder : Part.recorder ∈ W) (whost : Part.host ∈ W) (wqueues : Part.queues ∈ W) (wfield : Part.field ∈ W)
    (hK : Keeps W Q s0 s) : Res.Keeps W Q s0 (execDbDeliveryHead r d s) := by
  unfold execDbDeliveryHead
  repeat' (first
    | with_reducible assumption
    | with_reducible exact id
    | with_reducible exact fun k => Mem.wf_writeBytes k
    | with_reducible exact fun k => Mem.wf_erase k
    | with_reducible exact fun k => SMap.wf_set k
    | with_reducible exact fun k => SMap.wf_drop k
    | with_reducible exact fun k => SMap.wf_foldl k
    | with_reducible exact fun k => SMap.wf_foldl (SMap.wf_drop k)
    | with_reducible exact fun _ _ k => absurd k List.not_mem_nil
    | intro _
    | with_reducible exact wiFn_n _
    | with_reducible apply State.dbKind_keeps
    | with_reducible apply State.start_keeps
    | with_reducible apply keeps_next
    | with_reducible apply keeps_foldl
    | with_reducible apply keeps_foldl1
    | with_reducible exact Or.inr (by assumption)
    | with_reducible exact Or.inl rfl
    | dsimp only
    | (simp only [keeps_mk_eq]; with_reducible apply keeps_mk)
    | with_reducible apply keeps_ite
    | with_reducible apply keeps_ite1
    | split)

theorem State.dmaFail_keeps {W : List Part} {Q : Nat → Bool} {s0 : State} {s : State} {f : Nat} {n : Nat}
    (wiFn_f : Q (iFn f) = true)
    (hK : Keeps W Q s0 s) : Keeps W Q s0 (State.dmaFail s f n).1 := by
  unfold State.dmaFail
  repeat' (first
    | with_reducible assumption
    | with_reducible exact id
    | with_reducible exact fun k => Mem.wf_writeBytes k
    | with_reducible exact fun k => Mem.wf_erase k
    | with_reducible exact fun k => SMap.wf_set k
    | with_reducible exact fun k => SMap.wf_drop k
    | with_reducible exact fun k => SMap.wf_foldl k
    | with_reducible exact fun k => SMap.wf_foldl (SMap.wf_drop k)
    | with_reducible exact fun _ _ k => absurd k List.not_mem_nil
    | intro _
    | with_reducible apply State.fnEvent_keeps
    | with_reducible apply keeps_next
    | with_reducible apply keeps_foldl
    | with_reducible apply keeps_foldl1
    | with_reducible exact Or.inr (by assumption)
    | with_reducible exact Or.inl rfl
    | dsimp only
    | (simp only [keeps_mk_eq]; with_reducible apply keeps_mk)
    | with_reducible apply keeps_ite
    | with_reducible apply keeps_ite1
    | split)

theorem State.dmaFail_keeps_eq {W : List Part} {Q : Nat → Bool} {s0 tt : State} {vv : Ans} {s : State} {f : Nat} {n : Nat}
    (wiFn_f : Q (iFn f) = true)
    (hK : Keeps W Q s0 s) (e : (State.dmaFail s f n) = (tt, vv)) : Keeps W Q s0 tt := by
  have := @State.dmaFail_keeps W Q s0 s f n wiFn_f hK
  rwa [e] at this

theorem State.cmdIdentify_keeps {W : List Part} {Q : Nat → Bool} {s0 : State} {s : State} {f : Nat} {c : Cmd}
    (wiFn_f : Q (iFn f) = true) (whost : Part.host ∈ W)
    (hK : Keeps W Q s0 s) : Keeps W Q s0 (State.cmdIdentify s f c).1 := by
  unfold State.cmdIdentify
  repeat' (first
    | with_reducible assumption
    | with_reducible exact id
    | with_reducible exact fun k => Mem.wf_writeBytes k
    | with_reducible exact fun k => Mem.wf_erase k
    | with_reducible exact fun k => SMap.wf_set k
    | with_reducible exact fun k => SMap.wf_drop k
    | with_reducible exact fun k => SMap.wf_foldl k
    | with_reducible exact fun k => SMap.wf_foldl (SMap.wf_drop k)
    | with_reducible exact fun _ _ k => absurd k List.not_mem_nil
    | intro _
    | with_reducible apply State.hostWrite_keeps
    | with_reducible apply keeps_next
    | with_reducible apply keeps_foldl
    | with_reducible apply keeps_foldl1
    | with_reducible exact Or.inr (by assumption)
    | with_reducible exact Or.inl rfl
    | dsimp only
    | (simp only [keeps_mk_eq]; with_reducible apply keeps_mk)
    | with_reducible apply keeps_ite
    | with_reducible apply keeps_ite1
    | split)

theorem State.cmdIdentify_keeps_eq {W : List Part} {Q : Nat → Bool} {s0 tt : State} {vv : Ans} {s : State} {f : Nat} {c : Cmd}
    (wiFn_f : Q (iFn f) = true) (whost : Part.host ∈ W)
    (hK : Keeps W Q s0 s) (e : (State.cmdIdentify s f c) = (tt, vv)) : Keeps W Q s0 tt := by
  have := @State.cmdIdentify_keeps W Q s0 s f c wiFn_f whost hK
  rwa [e] at this

theorem State.cmdMapRead_keeps {W : List Part} {Q : Nat → Bool} {s0 : State} {s : State} {f : Nat} {c : Cmd}
    (wiFn_f : Q (iFn f) = true) (whost : Part.host ∈ W)
    (hK : Keeps W Q s0 s) : Keeps W Q s0 (State.cmdMapRead s f c).1 := by
  unfold State.cmdMapRead
  repeat' (first
    | with_reducible assumption
    | with_reducible exact id
    | with_reducible exact fun k => Mem.wf_writeBytes k
    | with_reducible exact fun k => Mem.wf_erase k
    | with_reducible exact fun k => SMap.wf_set k
    | with_reducible exact fun k => SMap.wf_drop k
    | with_reducible exact fun k => SMap.wf_foldl k
    | with_reducible exact fun k => SMap.wf_foldl (SMap.wf_drop k)
    | with_reducible exact fun _ _ k => absurd k List.not_mem_nil
    | intro _
    | with_reducible apply State.hostWrite_keeps
    | with_reducible apply keeps_next
    | with_reducible apply keeps_foldl
    | with_reducible apply keeps_foldl1
    | with_reducible exact Or.inr (by assumption)
    | with_reducible exact Or.inl rfl
    | dsimp only
    | (simp only [keeps_mk_eq]; with_reducible apply keeps_mk)
    | with_reducible apply keeps_ite
    | with_reducible apply keeps_ite1
    | split)

theorem State.cmdMapRead_keeps_eq {W : List Part} {Q : Nat → Bool} {s0 tt : State} {vv : Ans} {s : State} {f : Nat} {c : Cmd}
    (wiFn_f : Q (iFn f) = true) (whost : Part.host ∈ W)
    (hK : Keeps W Q s0 s) (e : (State.cmdMapRead s f c) = (tt, vv)) : Keeps W Q s0 tt := by
  have := @State.cmdMapRead_keeps W Q s0 s f c wiFn_f whost hK
  rwa [e] at this

theorem State.stepMalformed_keeps {W : List Part} {Q : Nat → Bool} {s0 : State} {s : State} {n : Nat} {w : Nat} {world : Nat} {fn : Nat}
    (wiFn_n : ∀ n, Q (iFn n) = true) (wpgStp : Q pgStp = true)
    (hK : Keeps W Q s0 s) : Keeps W Q s0 (State.stepMalformed s n w world fn) := by
  unfold State.stepMalformed
  repeat' (first
    | with_reducible assumption
    | with_reducible exact id
    | with_reducible exact fun k => Mem.wf_writeBytes k
    | with_reducible exact fun k => Mem.wf_erase k
    | with_reducible exact fun k => SMap.wf_set k
    | with_reducible exact fun k => SMap.wf_drop k
    | with_reducible exact fun k => SMap.wf_foldl k
    | with_reducible exact fun k => SMap.wf_foldl (SMap.wf_drop k)
    | with_reducible exact fun _ _ k => absurd k List.not_mem_nil
    | intro _
    | with_reducible exact wiFn_n _
    | with_reducible apply State.wr_keeps
    | with_reducible apply State.raise_keeps
    | with_reducible apply keeps_next
    | with_reducible apply keeps_foldl
    | with_reducible apply keeps_foldl1
    | with_reducible exact Or.inr (by assumption)
    | with_reducible exact Or.inl rfl
    | dsimp only
    | (simp only [keeps_mk_eq]; with_reducible apply keeps_mk)
    | with_reducible apply keeps_ite
    | with_reducible apply keeps_ite1
    | split)

theorem State.stepWrite_keeps {W : List Part} {Q : Nat → Bool} {s0 : State} {s : State} {n : Nat} {w : Nat} {v : Nat} {world : Nat} {fn : Nat}
    (wiFn_n : ∀ n, Q (iFn n) = true) (wpgStp : Q pgStp = true) (wstore : Part.store ∈ W)
    (hK : Keeps W Q s0 s) : Keeps W Q s0 (State.stepWrite s n w v world fn) := by
  unfold State.stepWrite
  repeat' (first
    | with_reducible assumption
    | with_reducible exact id
    | with_reducible exact fun k => Mem.wf_writeBytes k
    | with_reducible exact fun k => Mem.wf_erase k
    | with_reducible exact fun k => SMap.wf_set k
    | with_reducible exact fun k => SMap.wf_drop k
    | with_reducible exact fun k => SMap.wf_foldl k
    | with_reducible exact fun k => SMap.wf_foldl (SMap.wf_drop k)
    | with_reducible exact fun _ _ k => absurd k List.not_mem_nil
    | intro _
    | with_reducible exact wiFn_n _
    | with_reducible apply State.setStepWord_keeps
    | with_reducible apply State.stepMalformed_keeps
    | with_reducible apply keeps_next
    | with_reducible apply keeps_foldl
    | with_reducible apply keeps_foldl1
    | with_reducible exact Or.inr (by assumption)
    | with_reducible exact Or.inl rfl
    | dsimp only
    | (simp only [keeps_mk_eq]; with_reducible apply keeps_mk)
    | with_reducible apply keeps_ite
    | with_reducible apply keeps_ite1
    | split)

theorem State.stepWrites_keeps {W : List Part} {Q : Nat → Bool} {s0 : State} {s : State} {f : Nat} {first : Nat} {data : List Byte} {i : Nat} {x1 : Nat}
    (wiFn_n : ∀ n, Q (iFn n) = true) (wpgStp : Q pgStp = true) (wstore : Part.store ∈ W)
    (hK : Keeps W Q s0 s) : Keeps W Q s0 (State.stepWrites s f first data i x1).1 := by
  induction x1 generalizing s f first data i with
  | zero =>
    unfold State.stepWrites
    repeat' (first
      | with_reducible assumption
      | with_reducible exact id
      | with_reducible exact fun k => Mem.wf_writeBytes k
      | with_reducible exact fun k => Mem.wf_erase k
      | with_reducible exact fun k => SMap.wf_set k
      | with_reducible exact fun k => SMap.wf_drop k
      | with_reducible exact fun k => SMap.wf_foldl k
      | with_reducible exact fun k => SMap.wf_foldl (SMap.wf_drop k)
      | with_reducible exact fun _ _ k => absurd k List.not_mem_nil
      | intro _
      | with_reducible exact wiFn_n _
      | with_reducible apply State.setStepWord_keeps
      | with_reducible apply State.stepMalformed_keeps
      | with_reducible apply keeps_next
      | with_reducible apply keeps_foldl
      | with_reducible apply keeps_foldl1
      | with_reducible exact Or.inr (by assumption)
      | with_reducible exact Or.inl rfl
      | dsimp only
      | (simp only [keeps_mk_eq]; with_reducible apply keeps_mk)
      | with_reducible apply keeps_ite
      | with_reducible apply keeps_ite1
      | split)
  | succ n ih =>
    unfold State.stepWrites
    repeat' (first
      | with_reducible assumption
      | with_reducible apply ih
      | with_reducible exact id
      | with_reducible exact fun k => Mem.wf_writeBytes k
      | with_reducible exact fun k => Mem.wf_erase k
      | with_reducible exact fun k => SMap.wf_set k
      | with_reducible exact fun k => SMap.wf_drop k
      | with_reducible exact fun k => SMap.wf_foldl k
      | with_reducible exact fun k => SMap.wf_foldl (SMap.wf_drop k)
      | with_reducible exact fun _ _ k => absurd k List.not_mem_nil
      | intro _
      | with_reducible exact wiFn_n _
      | with_reducible apply State.setStepWord_keeps
      | with_reducible apply State.stepMalformed_keeps
      | with_reducible apply keeps_next
      | with_reducible apply keeps_foldl
      | with_reducible apply keeps_foldl1
      | with_reducible exact Or.inr (by assumption)
      | with_reducible exact Or.inl rfl
      | dsimp only
      | (simp only [keeps_mk_eq]; with_reducible apply keeps_mk)
      | with_reducible apply keeps_ite
      | with_reducible apply keeps_ite1
      | split)

theorem State.stepWrites_keeps_eq {W : List Part} {Q : Nat → Bool} {s0 tt : State} {vv : Ans} {s : State} {f : Nat} {first : Nat} {data : List Byte} {i : Nat} {x1 : Nat}
    (wiFn_n : ∀ n, Q (iFn n) = true) (wpgStp : Q pgStp = true) (wstore : Part.store ∈ W)
    (hK : Keeps W Q s0 s) (e : (State.stepWrites s f first data i x1) = (tt, vv)) : Keeps W Q s0 tt := by
  have := @State.stepWrites_keeps W Q s0 s f first data i x1 wiFn_n wpgStp wstore hK
  rwa [e] at this

theorem State.cmdStepWrite_keeps {W : List Part} {Q : Nat → Bool} {s0 : State} {s : State} {f : Nat} {c : Cmd} {data : List Byte}
    (wiFn_n : ∀ n, Q (iFn n) = true) (wpgStp : Q pgStp = true) (wstore : Part.store ∈ W)
    (hK : Keeps W Q s0 s) : Keeps W Q s0 (State.cmdStepWrite s f c data).1 := by
  unfold State.cmdStepWrite
  repeat' (first
    | with_reducible assumption
    | with_reducible exact id
    | with_reducible exact fun k => Mem.wf_writeBytes k
    | with_reducible exact fun k => Mem.wf_erase k
    | with_reducible exact fun k => SMap.wf_set k
    | with_reducible exact fun k => SMap.wf_drop k
    | with_reducible exact fun k => SMap.wf_foldl k
    | with_reducible exact fun k => SMap.wf_foldl (SMap.wf_drop k)
    | with_reducible exact fun _ _ k => absurd k List.not_mem_nil
    | intro _
    | with_reducible exact wiFn_n _
    | with_reducible apply State.stepWrites_keeps
    | (refine State.stepWrites_keeps_eq ?_ ?_ (by assumption) ?_ (by assumption))
    | with_reducible apply State.fnEvent_keeps
    | with_reducible apply keeps_next
    | with_reducible apply keeps_foldl
    | with_reducible apply keeps_foldl1
    | with_reducible exact Or.inr (by assumption)
    | with_reducible exact Or.inl rfl
    | dsimp only
    | (simp only [keeps_mk_eq]; with_reducible apply keeps_mk)
    | with_reducible apply keeps_ite
    | with_reducible apply keeps_ite1
    | split)

theorem State.cmdStepWrite_keeps_eq {W : List Part} {Q : Nat → Bool} {s0 tt : State} {vv : Ans} {s : State} {f : Nat} {c : Cmd} {data : List Byte}
    (wiFn_n : ∀ n, Q (iFn n) = true) (wpgStp : Q pgStp = true) (wstore : Part.store ∈ W)
    (hK : Keeps W Q s0 s) (e : (State.cmdStepWrite s f c data) = (tt, vv)) : Keeps W Q s0 tt := by
  have := @State.cmdStepWrite_keeps W Q s0 s f c data wiFn_n wpgStp wstore hK
  rwa [e] at this

theorem State.cmdStepRead_keeps {W : List Part} {Q : Nat → Bool} {s0 : State} {s : State} {f : Nat} {c : Cmd}
    (wiFn_f : Q (iFn f) = true) (whost : Part.host ∈ W)
    (hK : Keeps W Q s0 s) : Keeps W Q s0 (State.cmdStepRead s f c).1 := by
  unfold State.cmdStepRead
  repeat' (first
    | with_reducible assumption
    | with_reducible exact id
    | with_reducible exact fun k => Mem.wf_writeBytes k
    | with_reducible exact fun k => Mem.wf_erase k
    | with_reducible exact fun k => SMap.wf_set k
    | with_reducible exact fun k => SMap.wf_drop k
    | with_reducible exact fun k => SMap.wf_foldl k
    | with_reducible exact fun k => SMap.wf_foldl (SMap.wf_drop k)
    | with_reducible exact fun _ _ k => absurd k List.not_mem_nil
    | intro _
    | with_reducible apply State.hostWrite_keeps
    | with_reducible apply keeps_next
    | with_reducible apply keeps_foldl
    | with_reducible apply keeps_foldl1
    | with_reducible exact Or.inr (by assumption)
    | with_reducible exact Or.inl rfl
    | dsimp only
    | (simp only [keeps_mk_eq]; with_reducible apply keeps_mk)
    | with_reducible apply keeps_ite
    | with_reducible apply keeps_ite1
    | split)

theorem State.cmdStepRead_keeps_eq {W : List Part} {Q : Nat → Bool} {s0 tt : State} {vv : Ans} {s : State} {f : Nat} {c : Cmd}
    (wiFn_f : Q (iFn f) = true) (whost : Part.host ∈ W)
    (hK : Keeps W Q s0 s) (e : (State.cmdStepRead s f c) = (tt, vv)) : Keeps W Q s0 tt := by
  have := @State.cmdStepRead_keeps W Q s0 s f c wiFn_f whost hK
  rwa [e] at this

theorem State.onSlot_keeps {W : List Part} {Q : Nat → Bool} {s0 : State} {s : State} {f : Nat} {c : Cmd} {k : Nat → State × Ans}
    (hk : ∀ (y0 : Nat), Keeps W Q s0 (k y0).1)
    (hK : Keeps W Q s0 s) : Keeps W Q s0 (State.onSlot s f c k).1 := by
  unfold State.onSlot
  repeat' (first
    | with_reducible assumption
    | with_reducible exact id
    | with_reducible exact fun k => Mem.wf_writeBytes k
    | with_reducible exact fun k => Mem.wf_erase k
    | with_reducible exact fun k => SMap.wf_set k
    | with_reducible exact fun k => SMap.wf_drop k
    | with_reducible exact fun k => SMap.wf_foldl k
    | with_reducible exact fun k => SMap.wf_foldl (SMap.wf_drop k)
    | with_reducible exact fun _ _ k => absurd k List.not_mem_nil
    | intro _
    | exact hk _
    | with_reducible apply keeps_next
    | with_reducible apply keeps_foldl
    | with_reducible apply keeps_foldl1
    | with_reducible exact Or.inr (by assumption)
    | with_reducible exact Or.inl rfl
    | dsimp only
    | (simp only [keeps_mk_eq]; with_reducible apply keeps_mk)
    | with_reducible apply keeps_ite
    | with_reducible apply keeps_ite1
    | split)

theorem State.onSlot_keeps_eq {W : List Part} {Q : Nat → Bool} {s0 tt : State} {vv : Ans} {s : State} {f : Nat} {c : Cmd} {k : Nat → State × Ans}
    (hk : ∀ (y0 : Nat), Keeps W Q s0 (k y0).1)
    (hK : Keeps W Q s0 s) (e : (State.onSlot s f c k) = (tt, vv)) : Keeps W Q s0 tt := by
  have := @State.onSlot_keeps W Q s0 s f c k hk hK
  rwa [e] at this

theorem State.cmdLogMap_keeps {W : List Part} {Q : Nat → Bool} {s0 : State} {s : State} {f : Nat} {c : Cmd}
    (wpgLgr : Q pgLgr = true) (wlogs : Part.logs ∈ W)
    (hK : Keeps W Q s0 s) : Keeps W Q s0 (State.cmdLogMap s f c).1 := by
  unfold State.cmdLogMap
  repeat' (first
    | with_reducible assumption
    | with_reducible exact id
    | with_reducible exact fun k => Mem.wf_writeBytes k
    | with_reducible exact fun k => Mem.wf_erase k
    | with_reducible exact fun k => SMap.wf_set k
    | with_reducible exact fun k => SMap.wf_drop k
    | with_reducible exact fun k => SMap.wf_foldl k
    | with_reducible exact fun k => SMap.wf_foldl (SMap.wf_drop k)
    | with_reducible exact fun _ _ k => absurd k List.not_mem_nil
    | intro _
    | with_reducible apply State.onSlot_keeps
    | (refine State.onSlot_keeps_eq ?_ ?_ (by assumption))
    | with_reducible apply State.wr_keeps
    | with_reducible apply keeps_next
    | with_reducible apply keeps_foldl
    | with_reducible apply keeps_foldl1
    | with_reducible exact Or.inr (by assumption)
    | with_reducible exact Or.inl rfl
    | dsimp only
    | (simp only [keeps_mk_eq]; with_reducible apply keeps_mk)
    | with_reducible apply keeps_ite
    | with_reducible apply keeps_ite1
    | split)

theorem State.cmdLogMap_keeps_eq {W : List Part} {Q : Nat → Bool} {s0 tt : State} {vv : Ans} {s : State} {f : Nat} {c : Cmd}
    (wpgLgr : Q pgLgr = true) (wlogs : Part.logs ∈ W)
    (hK : Keeps W Q s0 s) (e : (State.cmdLogMap s f c) = (tt, vv)) : Keeps W Q s0 tt := by
  have := @State.cmdLogMap_keeps W Q s0 s f c wpgLgr wlogs hK
  rwa [e] at this

theorem State.cmdGrdStage_keeps {W : List Part} {Q : Nat → Bool} {s0 : State} {s : State} {f : Nat} {c : Cmd} {data : List Byte}
    (wiFn_f : Q (iFn f) = true) (wiGrd_n : ∀ n, Q (iGrd n) = true)
    (hK : Keeps W Q s0 s) : Keeps W Q s0 (State.cmdGrdStage s f c data).1 := by
  unfold State.cmdGrdStage
  repeat' (first
    | with_reducible assumption
    | with_reducible exact id
    | with_reducible exact fun k => Mem.wf_writeBytes k
    | with_reducible exact fun k => Mem.wf_erase k
    | with_reducible exact fun k => SMap.wf_set k
    | with_reducible exact fun k => SMap.wf_drop k
    | with_reducible exact fun k => SMap.wf_foldl k
    | with_reducible exact fun k => SMap.wf_foldl (SMap.wf_drop k)
    | with_reducible exact fun _ _ k => absurd k List.not_mem_nil
    | intro _
    | with_reducible exact wiGrd_n _
    | with_reducible apply State.onSlot_keeps
    | (refine State.onSlot_keeps_eq ?_ ?_ (by assumption))
    | with_reducible apply State.dmaFail_keeps
    | (refine State.dmaFail_keeps_eq ?_ ?_ (by assumption))
    | with_reducible apply State.wr_keeps
    | with_reducible apply keeps_next
    | with_reducible apply keeps_foldl
    | with_reducible apply keeps_foldl1
    | with_reducible exact Or.inr (by assumption)
    | with_reducible exact Or.inl rfl
    | dsimp only
    | (simp only [keeps_mk_eq]; with_reducible apply keeps_mk)
    | with_reducible apply keeps_ite
    | with_reducible apply keeps_ite1
    | split)

theorem State.cmdGrdStage_keeps_eq {W : List Part} {Q : Nat → Bool} {s0 tt : State} {vv : Ans} {s : State} {f : Nat} {c : Cmd} {data : List Byte}
    (wiFn_f : Q (iFn f) = true) (wiGrd_n : ∀ n, Q (iGrd n) = true)
    (hK : Keeps W Q s0 s) (e : (State.cmdGrdStage s f c data) = (tt, vv)) : Keeps W Q s0 tt := by
  have := @State.cmdGrdStage_keeps W Q s0 s f c data wiFn_f wiGrd_n hK
  rwa [e] at this

theorem State.cmdGrdCtrl_keeps {W : List Part} {Q : Nat → Bool} {s0 : State} {s : State} {f : Nat} {c : Cmd}
    (wgrading : Part.grading ∈ W)
    (hK : Keeps W Q s0 s) : Keeps W Q s0 (State.cmdGrdCtrl s f c).1 := by
  unfold State.cmdGrdCtrl
  repeat' (first
    | with_reducible assumption
    | with_reducible exact id
    | with_reducible exact fun k => Mem.wf_writeBytes k
    | with_reducible exact fun k => Mem.wf_erase k
    | with_reducible exact fun k => SMap.wf_set k
    | with_reducible exact fun k => SMap.wf_drop k
    | with_reducible exact fun k => SMap.wf_foldl k
    | with_reducible exact fun k => SMap.wf_foldl (SMap.wf_drop k)
    | with_reducible exact fun _ _ k => absurd k List.not_mem_nil
    | intro _
    | with_reducible apply State.onSlot_keeps
    | (refine State.onSlot_keeps_eq ?_ ?_ (by assumption))
    | with_reducible apply State.grdCmd_keeps
    | with_reducible apply keeps_next
    | with_reducible apply keeps_foldl
    | with_reducible apply keeps_foldl1
    | with_reducible exact Or.inr (by assumption)
    | with_reducible exact Or.inl rfl
    | dsimp only
    | (simp only [keeps_mk_eq]; with_reducible apply keeps_mk)
    | with_reducible apply keeps_ite
    | with_reducible apply keeps_ite1
    | split)

theorem State.cmdGrdCtrl_keeps_eq {W : List Part} {Q : Nat → Bool} {s0 tt : State} {vv : Ans} {s : State} {f : Nat} {c : Cmd}
    (wgrading : Part.grading ∈ W)
    (hK : Keeps W Q s0 s) (e : (State.cmdGrdCtrl s f c) = (tt, vv)) : Keeps W Q s0 tt := by
  have := @State.cmdGrdCtrl_keeps W Q s0 s f c wgrading hK
  rwa [e] at this

theorem State.cmdBatch_keeps {W : List Part} {Q : Nat → Bool} {s0 : State} {s : State} {f : Nat} {c : Cmd} {data : List Byte}
    (wiFn_n : ∀ n, Q (iFn n) = true) (wiShadow__pgChn_n_ : ∀ n, Q (iShadow (pgChn n)) = true) (wpgBnk__bankOf_n_ : ∀ n, Q (pgBnk (bankOf n)) = true) (wpgChn_n : ∀ n, Q (pgChn n) = true) (wchans : Part.chans ∈ W)
    (hK : Keeps W Q s0 s) : Keeps W Q s0 (State.cmdBatch s f c data).1 := by
  unfold State.cmdBatch
  repeat' (first
    | with_reducible assumption
    | with_reducible exact id
    | with_reducible exact fun k => Mem.wf_writeBytes k
    | with_reducible exact fun k => Mem.wf_erase k
    | with_reducible exact fun k => SMap.wf_set k
    | with_reducible exact fun k => SMap.wf_drop k
    | with_reducible exact fun k => SMap.wf_foldl k
    | with_reducible exact fun k => SMap.wf_foldl (SMap.wf_drop k)
    | with_reducible exact fun _ _ k => absurd k List.not_mem_nil
    | intro _
    | with_reducible exact wiFn_n _
    | with_reducible exact wiShadow__pgChn_n_ _
    | with_reducible exact wpgBnk__bankOf_n_ _
    | with_reducible exact wpgChn_n _
    | with_reducible apply State.dmaFail_keeps
    | (refine State.dmaFail_keeps_eq ?_ ?_ (by assumption))
    | with_reducible apply State.chnCmdWrite_keeps
    | with_reducible apply keeps_next
    | with_reducible apply keeps_foldl
    | with_reducible apply keeps_foldl1
    | with_reducible exact Or.inr (by assumption)
    | with_reducible exact Or.inl rfl
    | dsimp only
    | (simp only [keeps_mk_eq]; with_reducible apply keeps_mk)
    | with_reducible apply keeps_ite
    | with_reducible apply keeps_ite1
    | split)

theorem State.cmdBatch_keeps_eq {W : List Part} {Q : Nat → Bool} {s0 tt : State} {vv : Ans} {s : State} {f : Nat} {c : Cmd} {data : List Byte}
    (wiFn_n : ∀ n, Q (iFn n) = true) (wiShadow__pgChn_n_ : ∀ n, Q (iShadow (pgChn n)) = true) (wpgBnk__bankOf_n_ : ∀ n, Q (pgBnk (bankOf n)) = true) (wpgChn_n : ∀ n, Q (pgChn n) = true) (wchans : Part.chans ∈ W)
    (hK : Keeps W Q s0 s) (e : (State.cmdBatch s f c data) = (tt, vv)) : Keeps W Q s0 tt := by
  have := @State.cmdBatch_keeps W Q s0 s f c data wiFn_n wiShadow__pgChn_n_ wpgBnk__bankOf_n_ wpgChn_n wchans hK
  rwa [e] at this

theorem State.cmdQBind_keeps {W : List Part} {Q : Nat → Bool} {s0 : State} {s : State} {f : Nat} {q : Nat} {c : Cmd}
    (wqueues : Part.queues ∈ W)
    (hK : Keeps W Q s0 s) : Keeps W Q s0 (State.cmdQBind s f q c).1 := by
  unfold State.cmdQBind
  repeat' (first
    | with_reducible assumption
    | with_reducible exact id
    | with_reducible exact fun k => Mem.wf_writeBytes k
    | with_reducible exact fun k => Mem.wf_erase k
    | with_reducible exact fun k => SMap.wf_set k
    | with_reducible exact fun k => SMap.wf_drop k
    | with_reducible exact fun k => SMap.wf_foldl k
    | with_reducible exact fun k => SMap.wf_foldl (SMap.wf_drop k)
    | with_reducible exact fun _ _ k => absurd k List.not_mem_nil
    | intro _
    | with_reducible apply State.setQueue_keeps
    | with_reducible apply keeps_next
    | with_reducible apply keeps_foldl
    | with_reducible apply keeps_foldl1
    | with_reducible exact Or.inr (by assumption)
    | with_reducible exact Or.inl rfl
    | dsimp only
    | (simp only [keeps_mk_eq]; with_reducible apply keeps_mk)
    | with_reducible apply keeps_ite
    | with_reducible apply keeps_ite1
    | split)

theorem State.cmdQBind_keeps_eq {W : List Part} {Q : Nat → Bool} {s0 tt : State} {vv : Ans} {s : State} {f : Nat} {q : Nat} {c : Cmd}
    (wqueues : Part.queues ∈ W)
    (hK : Keeps W Q s0 s) (e : (State.cmdQBind s f q c) = (tt, vv)) : Keeps W Q s0 tt := by
  have := @State.cmdQBind_keeps W Q s0 s f q c wqueues hK
  rwa [e] at this

theorem State.cmdQUnbind_keeps {W : List Part} {Q : Nat → Bool} {s0 : State} {s : State} {f : Nat} {c : Cmd}
    (wqueues : Part.queues ∈ W)
    (hK : Keeps W Q s0 s) : Keeps W Q s0 (State.cmdQUnbind s f c).1 := by
  unfold State.cmdQUnbind
  repeat' (first
    | with_reducible assumption
    | with_reducible exact id
    | with_reducible exact fun k => Mem.wf_writeBytes k
    | with_reducible exact fun k => Mem.wf_erase k
    | with_reducible exact fun k => SMap.wf_set k
    | with_reducible exact fun k => SMap.wf_drop k
    | with_reducible exact fun k => SMap.wf_foldl k
    | with_reducible exact fun k => SMap.wf_foldl (SMap.wf_drop k)
    | with_reducible exact fun _ _ k => absurd k List.not_mem_nil
    | intro _
    | with_reducible apply State.setQueue_keeps
    | with_reducible apply keeps_next
    | with_reducible apply keeps_foldl
    | with_reducible apply keeps_foldl1
    | with_reducible exact Or.inr (by assumption)
    | with_reducible exact Or.inl rfl
    | dsimp only
    | (simp only [keeps_mk_eq]; with_reducible apply keeps_mk)
    | with_reducible apply keeps_ite
    | with_reducible apply keeps_ite1
    | split)

theorem State.cmdQUnbind_keeps_eq {W : List Part} {Q : Nat → Bool} {s0 tt : State} {vv : Ans} {s : State} {f : Nat} {c : Cmd}
    (wqueues : Part.queues ∈ W)
    (hK : Keeps W Q s0 s) (e : (State.cmdQUnbind s f c) = (tt, vv)) : Keeps W Q s0 tt := by
  have := @State.cmdQUnbind_keeps W Q s0 s f c wqueues hK
  rwa [e] at this

theorem State.moveNow_keeps {W : List Part} {Q : Nat → Bool} {s0 : State} {s : State} {c : Cmd}
    (wiFn_n : ∀ n, Q (iFn n) = true) (wiQue_n : ∀ n, Q (iQue n) = true) (wpgFnc : Q pgFnc = true)
    (hK : Keeps W Q s0 s) : ∀ r, (State.moveNow s c) = some r → Keeps W Q s0 r.1 := by
  intro v hv
  unfold State.moveNow at hv
  dsimp only at hv
  repeat' split at hv
  all_goals cases hv
  all_goals repeat' (first
    | with_reducible assumption
    | with_reducible apply State.raise_keeps
    | with_reducible apply State.wr_keeps
    | with_reducible exact wiQue_n _
    | with_reducible exact wiFn_n _
    | dsimp only)

theorem State.cmdMove_keeps {W : List Part} {Q : Nat → Bool} {s0 : State} {s : State} {f : Nat} {q : Nat} {c : Cmd}
    (wiFn_n : ∀ n, Q (iFn n) = true) (wiQue_n : ∀ n, Q (iQue n) = true) (wpgFnc : Q pgFnc = true) (whost : Part.host ∈ W)
    (hK : Keeps W Q s0 s) : Keeps W Q s0 (State.cmdMove s f q c).1 := by
  unfold State.cmdMove
  repeat' (first
    | exact State.moveNow_keeps (by assumption) (by assumption) (by assumption) hK _ (by assumption)
    | with_reducible assumption
    | with_reducible exact id
    | with_reducible exact fun k => Mem.wf_writeBytes k
    | with_reducible exact fun k => Mem.wf_erase k
    | with_reducible exact fun k => SMap.wf_set k
    | with_reducible exact fun k => SMap.wf_drop k
    | with_reducible exact fun k => SMap.wf_foldl k
    | with_reducible exact fun k => SMap.wf_foldl (SMap.wf_drop k)
    | with_reducible exact fun _ _ k => absurd k List.not_mem_nil
    | intro _
    | with_reducible exact wiFn_n _
    | with_reducible exact wiQue_n _
    | with_reducible apply State.moveNow_keeps
    | with_reducible apply State.setQp_keeps
    | with_reducible apply keeps_next
    | with_reducible apply keeps_foldl
    | with_reducible apply keeps_foldl1
    | with_reducible exact Or.inr (by assumption)
    | with_reducible exact Or.inl rfl
    | dsimp only
    | (simp only [keeps_mk_eq]; with_reducible apply keeps_mk)
    | with_reducible apply keeps_ite
    | with_reducible apply keeps_ite1
    | split)

theorem State.cmdMove_keeps_eq {W : List Part} {Q : Nat → Bool} {s0 tt : State} {vv : Option Ans} {s : State} {f : Nat} {q : Nat} {c : Cmd}
    (wiFn_n : ∀ n, Q (iFn n) = true) (wiQue_n : ∀ n, Q (iQue n) = true) (wpgFnc : Q pgFnc = true) (whost : Part.host ∈ W)
    (hK : Keeps W Q s0 s) (e : (State.cmdMove s f q c) = (tt, vv)) : Keeps W Q s0 tt := by
  have := @State.cmdMove_keeps W Q s0 s f q c wiFn_n wiQue_n wpgFnc whost hK
  rwa [e] at this

theorem State.cmdRun_keeps {W : List Part} {Q : Nat → Bool} {s0 : State} {s : State} {f : Nat} {q : Nat} {c : Cmd} {data : List Byte}
    (wiFn_n : ∀ n, Q (iFn n) = true) (wiGrd_n : ∀ n, Q (iGrd n) = true) (wiQue_n : ∀ n, Q (iQue n) = true) (wiShadow__pgChn_n_ : ∀ n, Q (iShadow (pgChn n)) = true) (wpgBnk__bankOf_n_ : ∀ n, Q (pgBnk (bankOf n)) = true) (wpgChn_n : ∀ n, Q (pgChn n) = true) (wpgFnc : Q pgFnc = true) (wpgLgr : Q pgLgr = true) (wpgStp : Q pgStp = true) (wstore : Part.store ∈ W) (wchans : Part.chans ∈ W) (wgrading : Part.grading ∈ W) (wlogs : Part.logs ∈ W) (whost : Part.host ∈ W) (wqueues : Part.queues ∈ W)
    (hK : Keeps W Q s0 s) : Keeps W Q s0 (State.cmdRun s f q c data).1 := by
  unfold State.cmdRun
  repeat' (first
    | with_reducible assumption
    | with_reducible exact id
    | with_reducible exact fun k => Mem.wf_writeBytes k
    | with_reducible exact fun k => Mem.wf_erase k
    | with_reducible exact fun k => SMap.wf_set k
    | with_reducible exact fun k => SMap.wf_drop k
    | with_reducible exact fun k => SMap.wf_foldl k
    | with_reducible exact fun k => SMap.wf_foldl (SMap.wf_drop k)
    | with_reducible exact fun _ _ k => absurd k List.not_mem_nil
    | intro _
    | with_reducible exact wiFn_n _
    | with_reducible exact wiGrd_n _
    | with_reducible exact wiQue_n _
    | with_reducible exact wiShadow__pgChn_n_ _
    | with_reducible exact wpgBnk__bankOf_n_ _
    | with_reducible exact wpgChn_n _
    | with_reducible apply State.cmdIdentify_keeps
    | (refine State.cmdIdentify_keeps_eq ?_ (by assumption) ?_ (by assumption))
    | with_reducible apply State.cmdMapRead_keeps
    | (refine State.cmdMapRead_keeps_eq ?_ (by assumption) ?_ (by assumption))
    | with_reducible apply State.cmdStepWrite_keeps
    | (refine State.cmdStepWrite_keeps_eq ?_ ?_ (by assumption) ?_ (by assumption))
    | with_reducible apply State.cmdStepRead_keeps
    | (refine State.cmdStepRead_keeps_eq ?_ (by assumption) ?_ (by assumption))
    | with_reducible apply State.cmdLogMap_keeps
    | (refine State.cmdLogMap_keeps_eq ?_ (by assumption) ?_ (by assumption))
    | with_reducible apply State.cmdGrdStage_keeps
    | (refine State.cmdGrdStage_keeps_eq ?_ ?_ ?_ (by assumption))
    | with_reducible apply State.cmdGrdCtrl_keeps
    | (refine State.cmdGrdCtrl_keeps_eq (by assumption) ?_ (by assumption))
    | with_reducible apply State.cmdBatch_keeps
    | (refine State.cmdBatch_keeps_eq ?_ ?_ ?_ ?_ (by assumption) ?_ (by assumption))
    | with_reducible apply State.cmdQBind_keeps
    | (refine State.cmdQBind_keeps_eq (by assumption) ?_ (by assumption))
    | with_reducible apply State.cmdQUnbind_keeps
    | (refine State.cmdQUnbind_keeps_eq (by assumption) ?_ (by assumption))
    | with_reducible apply State.cmdMove_keeps
    | (refine State.cmdMove_keeps_eq ?_ ?_ ?_ (by assumption) ?_ (by assumption))
    | with_reducible apply keeps_next
    | with_reducible apply keeps_foldl
    | with_reducible apply keeps_foldl1
    | with_reducible exact Or.inr (by assumption)
    | with_reducible exact Or.inl rfl
    | dsimp only
    | (simp only [keeps_mk_eq]; with_reducible apply keeps_mk)
    | with_reducible apply keeps_ite
    | with_reducible apply keeps_ite1
    | split)

theorem State.cmdRun_keeps_eq {W : List Part} {Q : Nat → Bool} {s0 tt : State} {vv : Option Ans} {s : State} {f : Nat} {q : Nat} {c : Cmd} {data : List Byte}
    (wiFn_n : ∀ n, Q (iFn n) = true) (wiGrd_n : ∀ n, Q (iGrd n) = true) (wiQue_n : ∀ n, Q (iQue n) = true) (wiShadow__pgChn_n_ : ∀ n, Q (iShadow (pgChn n)) = true) (wpgBnk__bankOf_n_ : ∀ n, Q (pgBnk (bankOf n)) = true) (wpgChn_n : ∀ n, Q (pgChn n) = true) (wpgFnc : Q pgFnc = true) (wpgLgr : Q pgLgr = true) (wpgStp : Q pgStp = true) (wstore : Part.store ∈ W) (wchans : Part.chans ∈ W) (wgrading : Part.grading ∈ W) (wlogs : Part.logs ∈ W) (whost : Part.host ∈ W) (wqueues : Part.queues ∈ W)
    (hK : Keeps W Q s0 s) (e : (State.cmdRun s f q c data) = (tt, vv)) : Keeps W Q s0 tt := by
  have := @State.cmdRun_keeps W Q s0 s f q c data wiFn_n wiGrd_n wiQue_n wiShadow__pgChn_n_ wpgBnk__bankOf_n_ wpgChn_n wpgFnc wpgLgr wpgStp wstore wchans wgrading wlogs whost wqueues hK
  rwa [e] at this

theorem State.fetch_keeps {W : List Part} {Q : Nat → Bool} {s0 : State} {s : State} {f : Nat} {q : Nat} {e : List Byte} {data : List Byte}
    (wiFn_n : ∀ n, Q (iFn n) = true) (wiGrd_n : ∀ n, Q (iGrd n) = true) (wiQue_n : ∀ n, Q (iQue n) = true) (wiShadow__pgChn_n_ : ∀ n, Q (iShadow (pgChn n)) = true) (wpgBnk__bankOf_n_ : ∀ n, Q (pgBnk (bankOf n)) = true) (wpgChn_n : ∀ n, Q (pgChn n) = true) (wpgFnc : Q pgFnc = true) (wpgLgr : Q pgLgr = true) (wpgStp : Q pgStp = true) (wstore : Part.store ∈ W) (wchans : Part.chans ∈ W) (wgrading : Part.grading ∈ W) (wlogs : Part.logs ∈ W) (whost : Part.host ∈ W) (wqueues : Part.queues ∈ W)
    (hK : Keeps W Q s0 s) : Keeps W Q s0 (State.fetch s f q e data) := by
  unfold State.fetch
  repeat' (first
    | with_reducible assumption
    | with_reducible exact id
    | with_reducible exact fun k => Mem.wf_writeBytes k
    | with_reducible exact fun k => Mem.wf_erase k
    | with_reducible exact fun k => SMap.wf_set k
    | with_reducible exact fun k => SMap.wf_drop k
    | with_reducible exact fun k => SMap.wf_foldl k
    | with_reducible exact fun k => SMap.wf_foldl (SMap.wf_drop k)
    | with_reducible exact fun _ _ k => absurd k List.not_mem_nil
    | intro _
    | with_reducible exact wiFn_n _
    | with_reducible exact wiGrd_n _
    | with_reducible exact wiQue_n _
    | with_reducible exact wiShadow__pgChn_n_ _
    | with_reducible exact wpgBnk__bankOf_n_ _
    | with_reducible exact wpgChn_n _
    | with_reducible apply State.setQp_keeps
    | with_reducible apply State.cmdRun_keeps
    | (refine State.cmdRun_keeps_eq ?_ ?_ ?_ ?_ ?_ ?_ ?_ ?_ ?_ (by assumption) (by assumption) (by assumption) (by assumption) (by assumption) (by assumption) ?_ (by assumption))
    | with_reducible apply State.complete_keeps
    | with_reducible apply keeps_next
    | with_reducible apply keeps_foldl
    | with_reducible apply keeps_foldl1
    | with_reducible exact Or.inr (by assumption)
    | with_reducible exact Or.inl rfl
    | dsimp only
    | (simp only [keeps_mk_eq]; with_reducible apply keeps_mk)
    | with_reducible apply keeps_ite
    | with_reducible apply keeps_ite1
    | split)

theorem execSqFetch_keeps {W : List Part} {Q : Nat → Bool} {s0 : State} {f : Fin 512} {q : Fin 1024} {e : List Byte} {data : List Byte} {s : State}
    (wiFn_n : ∀ n, Q (iFn n) = true) (wiGrd_n : ∀ n, Q (iGrd n) = true) (wiQue_n : ∀ n, Q (iQue n) = true) (wiShadow__pgChn_n_ : ∀ n, Q (iShadow (pgChn n)) = true) (wpgBnk__bankOf_n_ : ∀ n, Q (pgBnk (bankOf n)) = true) (wpgChn_n : ∀ n, Q (pgChn n) = true) (wpgFnc : Q pgFnc = true) (wpgLgr : Q pgLgr = true) (wpgStp : Q pgStp = true) (wstore : Part.store ∈ W) (wchans : Part.chans ∈ W) (wgrading : Part.grading ∈ W) (wlogs : Part.logs ∈ W) (whost : Part.host ∈ W) (wqueues : Part.queues ∈ W)
    (hK : Keeps W Q s0 s) : Res.Keeps W Q s0 (execSqFetch f q e data s) := by
  unfold execSqFetch
  repeat' (first
    | with_reducible assumption
    | with_reducible exact id
    | with_reducible exact fun k => Mem.wf_writeBytes k
    | with_reducible exact fun k => Mem.wf_erase k
    | with_reducible exact fun k => SMap.wf_set k
    | with_reducible exact fun k => SMap.wf_drop k
    | with_reducible exact fun k => SMap.wf_foldl k
    | with_reducible exact fun k => SMap.wf_foldl (SMap.wf_drop k)
    | with_reducible exact fun _ _ k => absurd k List.not_mem_nil
    | intro _
    | with_reducible exact wiFn_n _
    | with_reducible exact wiGrd_n _
    | with_reducible exact wiQue_n _
    | with_reducible exact wiShadow__pgChn_n_ _
    | with_reducible exact wpgBnk__bankOf_n_ _
    | with_reducible exact wpgChn_n _
    | with_reducible apply State.fetch_keeps
    | with_reducible apply State.start_keeps
    | with_reducible apply keeps_next
    | with_reducible apply keeps_foldl
    | with_reducible apply keeps_foldl1
    | with_reducible exact Or.inr (by assumption)
    | with_reducible exact Or.inl rfl
    | dsimp only
    | (simp only [keeps_mk_eq]; with_reducible apply keeps_mk)
    | with_reducible apply keeps_ite
    | with_reducible apply keeps_ite1
    | split)

theorem State.fetchOp_keeps {W : List Part} {Q : Nat → Bool} {s0 : State} {s : State} {op : Nat} {f : Nat} {q : Nat} {e : List Byte} {data : List Byte}
    (wiFn_n : ∀ n, Q (iFn n) = true) (wiGrd_n : ∀ n, Q (iGrd n) = true) (wiQue_n : ∀ n, Q (iQue n) = true) (wiShadow__pgChn_n_ : ∀ n, Q (iShadow (pgChn n)) = true) (wpgBnk__bankOf_n_ : ∀ n, Q (pgBnk (bankOf n)) = true) (wpgChn_n : ∀ n, Q (pgChn n) = true) (wpgFnc : Q pgFnc = true) (wpgLgr : Q pgLgr = true) (wpgStp : Q pgStp = true) (wstore : Part.store ∈ W) (wchans : Part.chans ∈ W) (wgrading : Part.grading ∈ W) (wlogs : Part.logs ∈ W) (whost : Part.host ∈ W) (wqueues : Part.queues ∈ W)
    (hK : Keeps W Q s0 s) : Keeps W Q s0 (State.fetchOp s op f q e data) := by
  unfold State.fetchOp
  repeat' (first
    | with_reducible assumption
    | with_reducible exact id
    | with_reducible exact fun k => Mem.wf_writeBytes k
    | with_reducible exact fun k => Mem.wf_erase k
    | with_reducible exact fun k => SMap.wf_set k
    | with_reducible exact fun k => SMap.wf_drop k
    | with_reducible exact fun k => SMap.wf_foldl k
    | with_reducible exact fun k => SMap.wf_foldl (SMap.wf_drop k)
    | with_reducible exact fun _ _ k => absurd k List.not_mem_nil
    | intro _
    | with_reducible exact wiFn_n _
    | with_reducible exact wiGrd_n _
    | with_reducible exact wiQue_n _
    | with_reducible exact wiShadow__pgChn_n_ _
    | with_reducible exact wpgBnk__bankOf_n_ _
    | with_reducible exact wpgChn_n _
    | with_reducible apply State.fetch_keeps
    | with_reducible apply keeps_next
    | with_reducible apply keeps_foldl
    | with_reducible apply keeps_foldl1
    | with_reducible exact Or.inr (by assumption)
    | with_reducible exact Or.inl rfl
    | dsimp only
    | (simp only [keeps_mk_eq]; with_reducible apply keeps_mk)
    | with_reducible apply keeps_ite
    | with_reducible apply keeps_ite1
    | split)

theorem execCmdNop_keeps {W : List Part} {Q : Nat → Bool} {s0 : State} {f : Fin 512} {q : Fin 1024} {e : List Byte} {s : State}
    (wiFn_n : ∀ n, Q (iFn n) = true) (wiGrd_n : ∀ n, Q (iGrd n) = true) (wiQue_n : ∀ n, Q (iQue n) = true) (wiShadow__pgChn_n_ : ∀ n, Q (iShadow (pgChn n)) = true) (wpgBnk__bankOf_n_ : ∀ n, Q (pgBnk (bankOf n)) = true) (wpgChn_n : ∀ n, Q (pgChn n) = true) (wpgFnc : Q pgFnc = true) (wpgLgr : Q pgLgr = true) (wpgStp : Q pgStp = true) (wstore : Part.store ∈ W) (wchans : Part.chans ∈ W) (wgrading : Part.grading ∈ W) (wlogs : Part.logs ∈ W) (whost : Part.host ∈ W) (wqueues : Part.queues ∈ W)
    (hK : Keeps W Q s0 s) : Res.Keeps W Q s0 (execCmdNop f q e s) := by
  unfold execCmdNop
  repeat' (first
    | with_reducible assumption
    | with_reducible exact id
    | with_reducible exact fun k => Mem.wf_writeBytes k
    | with_reducible exact fun k => Mem.wf_erase k
    | with_reducible exact fun k => SMap.wf_set k
    | with_reducible exact fun k => SMap.wf_drop k
    | with_reducible exact fun k => SMap.wf_foldl k
    | with_reducible exact fun k => SMap.wf_foldl (SMap.wf_drop k)
    | with_reducible exact fun _ _ k => absurd k List.not_mem_nil
    | intro _
    | with_reducible exact wiFn_n _
    | with_reducible exact wiGrd_n _
    | with_reducible exact wiQue_n _
    | with_reducible exact wiShadow__pgChn_n_ _
    | with_reducible exact wpgBnk__bankOf_n_ _
    | with_reducible exact wpgChn_n _
    | with_reducible apply State.fetchOp_keeps
    | with_reducible apply State.start_keeps
    | with_reducible apply keeps_next
    | with_reducible apply keeps_foldl
    | with_reducible apply keeps_foldl1
    | with_reducible exact Or.inr (by assumption)
    | with_reducible exact Or.inl rfl
    | dsimp only
    | (simp only [keeps_mk_eq]; with_reducible apply keeps_mk)
    | with_reducible apply keeps_ite
    | with_reducible apply keeps_ite1
    | split)

theorem execCmdIdentify_keeps {W : List Part} {Q : Nat → Bool} {s0 : State} {f : Fin 512} {q : Fin 1024} {e : List Byte} {s : State}
    (wiFn_n : ∀ n, Q (iFn n) = true) (wiGrd_n : ∀ n, Q (iGrd n) = true) (wiQue_n : ∀ n, Q (iQue n) = true) (wiShadow__pgChn_n_ : ∀ n, Q (iShadow (pgChn n)) = true) (wpgBnk__bankOf_n_ : ∀ n, Q (pgBnk (bankOf n)) = true) (wpgChn_n : ∀ n, Q (pgChn n) = true) (wpgFnc : Q pgFnc = true) (wpgLgr : Q pgLgr = true) (wpgStp : Q pgStp = true) (wstore : Part.store ∈ W) (wchans : Part.chans ∈ W) (wgrading : Part.grading ∈ W) (wlogs : Part.logs ∈ W) (whost : Part.host ∈ W) (wqueues : Part.queues ∈ W)
    (hK : Keeps W Q s0 s) : Res.Keeps W Q s0 (execCmdIdentify f q e s) := by
  unfold execCmdIdentify
  repeat' (first
    | with_reducible assumption
    | with_reducible exact id
    | with_reducible exact fun k => Mem.wf_writeBytes k
    | with_reducible exact fun k => Mem.wf_erase k
    | with_reducible exact fun k => SMap.wf_set k
    | with_reducible exact fun k => SMap.wf_drop k
    | with_reducible exact fun k => SMap.wf_foldl k
    | with_reducible exact fun k => SMap.wf_foldl (SMap.wf_drop k)
    | with_reducible exact fun _ _ k => absurd k List.not_mem_nil
    | intro _
    | with_reducible exact wiFn_n _
    | with_reducible exact wiGrd_n _
    | with_reducible exact wiQue_n _
    | with_reducible exact wiShadow__pgChn_n_ _
    | with_reducible exact wpgBnk__bankOf_n_ _
    | with_reducible exact wpgChn_n _
    | with_reducible apply State.fetchOp_keeps
    | with_reducible apply State.start_keeps
    | with_reducible apply keeps_next
    | with_reducible apply keeps_foldl
    | with_reducible apply keeps_foldl1
    | with_reducible exact Or.inr (by assumption)
    | with_reducible exact Or.inl rfl
    | dsimp only
    | (simp only [keeps_mk_eq]; with_reducible apply keeps_mk)
    | with_reducible apply keeps_ite
    | with_reducible apply keeps_ite1
    | split)

theorem execCmdMapRead_keeps {W : List Part} {Q : Nat → Bool} {s0 : State} {f : Fin 512} {q : Fin 1024} {e : List Byte} {s : State}
    (wiFn_n : ∀ n, Q (iFn n) = true) (wiGrd_n : ∀ n, Q (iGrd n) = true) (wiQue_n : ∀ n, Q (iQue n) = true) (wiShadow__pgChn_n_ : ∀ n, Q (iShadow (pgChn n)) = true) (wpgBnk__bankOf_n_ : ∀ n, Q (pgBnk (bankOf n)) = true) (wpgChn_n : ∀ n, Q (pgChn n) = true) (wpgFnc : Q pgFnc = true) (wpgLgr : Q pgLgr = true) (wpgStp : Q pgStp = true) (wstore : Part.store ∈ W) (wchans : Part.chans ∈ W) (wgrading : Part.grading ∈ W) (wlogs : Part.logs ∈ W) (whost : Part.host ∈ W) (wqueues : Part.queues ∈ W)
    (hK : Keeps W Q s0 s) : Res.Keeps W Q s0 (execCmdMapRead f q e s) := by
  unfold execCmdMapRead
  repeat' (first
    | with_reducible assumption
    | with_reducible exact id
    | with_reducible exact fun k => Mem.wf_writeBytes k
    | with_reducible exact fun k => Mem.wf_erase k
    | with_reducible exact fun k => SMap.wf_set k
    | with_reducible exact fun k => SMap.wf_drop k
    | with_reducible exact fun k => SMap.wf_foldl k
    | with_reducible exact fun k => SMap.wf_foldl (SMap.wf_drop k)
    | with_reducible exact fun _ _ k => absurd k List.not_mem_nil
    | intro _
    | with_reducible exact wiFn_n _
    | with_reducible exact wiGrd_n _
    | with_reducible exact wiQue_n _
    | with_reducible exact wiShadow__pgChn_n_ _
    | with_reducible exact wpgBnk__bankOf_n_ _
    | with_reducible exact wpgChn_n _
    | with_reducible apply State.fetchOp_keeps
    | with_reducible apply State.start_keeps
    | with_reducible apply keeps_next
    | with_reducible apply keeps_foldl
    | with_reducible apply keeps_foldl1
    | with_reducible exact Or.inr (by assumption)
    | with_reducible exact Or.inl rfl
    | dsimp only
    | (simp only [keeps_mk_eq]; with_reducible apply keeps_mk)
    | with_reducible apply keeps_ite
    | with_reducible apply keeps_ite1
    | split)

theorem execCmdStepWrite_keeps {W : List Part} {Q : Nat → Bool} {s0 : State} {f : Fin 512} {q : Fin 1024} {e : List Byte} {data : List Byte} {s : State}
    (wiFn_n : ∀ n, Q (iFn n) = true) (wiGrd_n : ∀ n, Q (iGrd n) = true) (wiQue_n : ∀ n, Q (iQue n) = true) (wiShadow__pgChn_n_ : ∀ n, Q (iShadow (pgChn n)) = true) (wpgBnk__bankOf_n_ : ∀ n, Q (pgBnk (bankOf n)) = true) (wpgChn_n : ∀ n, Q (pgChn n) = true) (wpgFnc : Q pgFnc = true) (wpgLgr : Q pgLgr = true) (wpgStp : Q pgStp = true) (wstore : Part.store ∈ W) (wchans : Part.chans ∈ W) (wgrading : Part.grading ∈ W) (wlogs : Part.logs ∈ W) (whost : Part.host ∈ W) (wqueues : Part.queues ∈ W)
    (hK : Keeps W Q s0 s) : Res.Keeps W Q s0 (execCmdStepWrite f q e data s) := by
  unfold execCmdStepWrite
  repeat' (first
    | with_reducible assumption
    | with_reducible exact id
    | with_reducible exact fun k => Mem.wf_writeBytes k
    | with_reducible exact fun k => Mem.wf_erase k
    | with_reducible exact fun k => SMap.wf_set k
    | with_reducible exact fun k => SMap.wf_drop k
    | with_reducible exact fun k => SMap.wf_foldl k
    | with_reducible exact fun k => SMap.wf_foldl (SMap.wf_drop k)
    | with_reducible exact fun _ _ k => absurd k List.not_mem_nil
    | intro _
    | with_reducible exact wiFn_n _
    | with_reducible exact wiGrd_n _
    | with_reducible exact wiQue_n _
    | with_reducible exact wiShadow__pgChn_n_ _
    | with_reducible exact wpgBnk__bankOf_n_ _
    | with_reducible exact wpgChn_n _
    | with_reducible apply State.fetchOp_keeps
    | with_reducible apply State.start_keeps
    | with_reducible apply keeps_next
    | with_reducible apply keeps_foldl
    | with_reducible apply keeps_foldl1
    | with_reducible exact Or.inr (by assumption)
    | with_reducible exact Or.inl rfl
    | dsimp only
    | (simp only [keeps_mk_eq]; with_reducible apply keeps_mk)
    | with_reducible apply keeps_ite
    | with_reducible apply keeps_ite1
    | split)

theorem execCmdStepRead_keeps {W : List Part} {Q : Nat → Bool} {s0 : State} {f : Fin 512} {q : Fin 1024} {e : List Byte} {s : State}
    (wiFn_n : ∀ n, Q (iFn n) = true) (wiGrd_n : ∀ n, Q (iGrd n) = true) (wiQue_n : ∀ n, Q (iQue n) = true) (wiShadow__pgChn_n_ : ∀ n, Q (iShadow (pgChn n)) = true) (wpgBnk__bankOf_n_ : ∀ n, Q (pgBnk (bankOf n)) = true) (wpgChn_n : ∀ n, Q (pgChn n) = true) (wpgFnc : Q pgFnc = true) (wpgLgr : Q pgLgr = true) (wpgStp : Q pgStp = true) (wstore : Part.store ∈ W) (wchans : Part.chans ∈ W) (wgrading : Part.grading ∈ W) (wlogs : Part.logs ∈ W) (whost : Part.host ∈ W) (wqueues : Part.queues ∈ W)
    (hK : Keeps W Q s0 s) : Res.Keeps W Q s0 (execCmdStepRead f q e s) := by
  unfold execCmdStepRead
  repeat' (first
    | with_reducible assumption
    | with_reducible exact id
    | with_reducible exact fun k => Mem.wf_writeBytes k
    | with_reducible exact fun k => Mem.wf_erase k
    | with_reducible exact fun k => SMap.wf_set k
    | with_reducible exact fun k => SMap.wf_drop k
    | with_reducible exact fun k => SMap.wf_foldl k
    | with_reducible exact fun k => SMap.wf_foldl (SMap.wf_drop k)
    | with_reducible exact fun _ _ k => absurd k List.not_mem_nil
    | intro _
    | with_reducible exact wiFn_n _
    | with_reducible exact wiGrd_n _
    | with_reducible exact wiQue_n _
    | with_reducible exact wiShadow__pgChn_n_ _
    | with_reducible exact wpgBnk__bankOf_n_ _
    | with_reducible exact wpgChn_n _
    | with_reducible apply State.fetchOp_keeps
    | with_reducible apply State.start_keeps
    | with_reducible apply keeps_next
    | with_reducible apply keeps_foldl
    | with_reducible apply keeps_foldl1
    | with_reducible exact Or.inr (by assumption)
    | with_reducible exact Or.inl rfl
    | dsimp only
    | (simp only [keeps_mk_eq]; with_reducible apply keeps_mk)
    | with_reducible apply keeps_ite
    | with_reducible apply keeps_ite1
    | split)

theorem execCmdLogMap_keeps {W : List Part} {Q : Nat → Bool} {s0 : State} {f : Fin 512} {q : Fin 1024} {e : List Byte} {s : State}
    (wiFn_n : ∀ n, Q (iFn n) = true) (wiGrd_n : ∀ n, Q (iGrd n) = true) (wiQue_n : ∀ n, Q (iQue n) = true) (wiShadow__pgChn_n_ : ∀ n, Q (iShadow (pgChn n)) = true) (wpgBnk__bankOf_n_ : ∀ n, Q (pgBnk (bankOf n)) = true) (wpgChn_n : ∀ n, Q (pgChn n) = true) (wpgFnc : Q pgFnc = true) (wpgLgr : Q pgLgr = true) (wpgStp : Q pgStp = true) (wstore : Part.store ∈ W) (wchans : Part.chans ∈ W) (wgrading : Part.grading ∈ W) (wlogs : Part.logs ∈ W) (whost : Part.host ∈ W) (wqueues : Part.queues ∈ W)
    (hK : Keeps W Q s0 s) : Res.Keeps W Q s0 (execCmdLogMap f q e s) := by
  unfold execCmdLogMap
  repeat' (first
    | with_reducible assumption
    | with_reducible exact id
    | with_reducible exact fun k => Mem.wf_writeBytes k
    | with_reducible exact fun k => Mem.wf_erase k
    | with_reducible exact fun k => SMap.wf_set k
    | with_reducible exact fun k => SMap.wf_drop k
    | with_reducible exact fun k => SMap.wf_foldl k
    | with_reducible exact fun k => SMap.wf_foldl (SMap.wf_drop k)
    | with_reducible exact fun _ _ k => absurd k List.not_mem_nil
    | intro _
    | with_reducible exact wiFn_n _
    | with_reducible exact wiGrd_n _
    | with_reducible exact wiQue_n _
    | with_reducible exact wiShadow__pgChn_n_ _
    | with_reducible exact wpgBnk__bankOf_n_ _
    | with_reducible exact wpgChn_n _
    | with_reducible apply State.fetchOp_keeps
    | with_reducible apply State.start_keeps
    | with_reducible apply keeps_next
    | with_reducible apply keeps_foldl
    | with_reducible apply keeps_foldl1
    | with_reducible exact Or.inr (by assumption)
    | with_reducible exact Or.inl rfl
    | dsimp only
    | (simp only [keeps_mk_eq]; with_reducible apply keeps_mk)
    | with_reducible apply keeps_ite
    | with_reducible apply keeps_ite1
    | split)

theorem execCmdGrdStage_keeps {W : List Part} {Q : Nat → Bool} {s0 : State} {f : Fin 512} {q : Fin 1024} {e : List Byte} {data : List Byte} {s : State}
    (wiFn_n : ∀ n, Q (iFn n) = true) (wiGrd_n : ∀ n, Q (iGrd n) = true) (wiQue_n : ∀ n, Q (iQue n) = true) (wiShadow__pgChn_n_ : ∀ n, Q (iShadow (pgChn n)) = true) (wpgBnk__bankOf_n_ : ∀ n, Q (pgBnk (bankOf n)) = true) (wpgChn_n : ∀ n, Q (pgChn n) = true) (wpgFnc : Q pgFnc = true) (wpgLgr : Q pgLgr = true) (wpgStp : Q pgStp = true) (wstore : Part.store ∈ W) (wchans : Part.chans ∈ W) (wgrading : Part.grading ∈ W) (wlogs : Part.logs ∈ W) (whost : Part.host ∈ W) (wqueues : Part.queues ∈ W)
    (hK : Keeps W Q s0 s) : Res.Keeps W Q s0 (execCmdGrdStage f q e data s) := by
  unfold execCmdGrdStage
  repeat' (first
    | with_reducible assumption
    | with_reducible exact id
    | with_reducible exact fun k => Mem.wf_writeBytes k
    | with_reducible exact fun k => Mem.wf_erase k
    | with_reducible exact fun k => SMap.wf_set k
    | with_reducible exact fun k => SMap.wf_drop k
    | with_reducible exact fun k => SMap.wf_foldl k
    | with_reducible exact fun k => SMap.wf_foldl (SMap.wf_drop k)
    | with_reducible exact fun _ _ k => absurd k List.not_mem_nil
    | intro _
    | with_reducible exact wiFn_n _
    | with_reducible exact wiGrd_n _
    | with_reducible exact wiQue_n _
    | with_reducible exact wiShadow__pgChn_n_ _
    | with_reducible exact wpgBnk__bankOf_n_ _
    | with_reducible exact wpgChn_n _
    | with_reducible apply State.fetchOp_keeps
    | with_reducible apply State.start_keeps
    | with_reducible apply keeps_next
    | with_reducible apply keeps_foldl
    | with_reducible apply keeps_foldl1
    | with_reducible exact Or.inr (by assumption)
    | with_reducible exact Or.inl rfl
    | dsimp only
    | (simp only [keeps_mk_eq]; with_reducible apply keeps_mk)
    | with_reducible apply keeps_ite
    | with_reducible apply keeps_ite1
    | split)

theorem execCmdGrdCtrl_keeps {W : List Part} {Q : Nat → Bool} {s0 : State} {f : Fin 512} {q : Fin 1024} {e : List Byte} {s : State}
    (wiFn_n : ∀ n, Q (iFn n) = true) (wiGrd_n : ∀ n, Q (iGrd n) = true) (wiQue_n : ∀ n, Q (iQue n) = true) (wiShadow__pgChn_n_ : ∀ n, Q (iShadow (pgChn n)) = true) (wpgBnk__bankOf_n_ : ∀ n, Q (pgBnk (bankOf n)) = true) (wpgChn_n : ∀ n, Q (pgChn n) = true) (wpgFnc : Q pgFnc = true) (wpgLgr : Q pgLgr = true) (wpgStp : Q pgStp = true) (wstore : Part.store ∈ W) (wchans : Part.chans ∈ W) (wgrading : Part.grading ∈ W) (wlogs : Part.logs ∈ W) (whost : Part.host ∈ W) (wqueues : Part.queues ∈ W)
    (hK : Keeps W Q s0 s) : Res.Keeps W Q s0 (execCmdGrdCtrl f q e s) := by
  unfold execCmdGrdCtrl
  repeat' (first
    | with_reducible assumption
    | with_reducible exact id
    | with_reducible exact fun k => Mem.wf_writeBytes k
    | with_reducible exact fun k => Mem.wf_erase k
    | with_reducible exact fun k => SMap.wf_set k
    | with_reducible exact fun k => SMap.wf_drop k
    | with_reducible exact fun k => SMap.wf_foldl k
    | with_reducible exact fun k => SMap.wf_foldl (SMap.wf_drop k)
    | with_reducible exact fun _ _ k => absurd k List.not_mem_nil
    | intro _
    | with_reducible exact wiFn_n _
    | with_reducible exact wiGrd_n _
    | with_reducible exact wiQue_n _
    | with_reducible exact wiShadow__pgChn_n_ _
    | with_reducible exact wpgBnk__bankOf_n_ _
    | with_reducible exact wpgChn_n _
    | with_reducible apply State.fetchOp_keeps
    | with_reducible apply State.start_keeps
    | with_reducible apply keeps_next
    | with_reducible apply keeps_foldl
    | with_reducible apply keeps_foldl1
    | with_reducible exact Or.inr (by assumption)
    | with_reducible exact Or.inl rfl
    | dsimp only
    | (simp only [keeps_mk_eq]; with_reducible apply keeps_mk)
    | with_reducible apply keeps_ite
    | with_reducible apply keeps_ite1
    | split)

theorem execCmdChnBatch_keeps {W : List Part} {Q : Nat → Bool} {s0 : State} {f : Fin 512} {q : Fin 1024} {e : List Byte} {data : List Byte} {s : State}
    (wiFn_n : ∀ n, Q (iFn n) = true) (wiGrd_n : ∀ n, Q (iGrd n) = true) (wiQue_n : ∀ n, Q (iQue n) = true) (wiShadow__pgChn_n_ : ∀ n, Q (iShadow (pgChn n)) = true) (wpgBnk__bankOf_n_ : ∀ n, Q (pgBnk (bankOf n)) = true) (wpgChn_n : ∀ n, Q (pgChn n) = true) (wpgFnc : Q pgFnc = true) (wpgLgr : Q pgLgr = true) (wpgStp : Q pgStp = true) (wstore : Part.store ∈ W) (wchans : Part.chans ∈ W) (wgrading : Part.grading ∈ W) (wlogs : Part.logs ∈ W) (whost : Part.host ∈ W) (wqueues : Part.queues ∈ W)
    (hK : Keeps W Q s0 s) : Res.Keeps W Q s0 (execCmdChnBatch f q e data s) := by
  unfold execCmdChnBatch
  repeat' (first
    | with_reducible assumption
    | with_reducible exact id
    | with_reducible exact fun k => Mem.wf_writeBytes k
    | with_reducible exact fun k => Mem.wf_erase k
    | with_reducible exact fun k => SMap.wf_set k
    | with_reducible exact fun k => SMap.wf_drop k
    | with_reducible exact fun k => SMap.wf_foldl k
    | with_reducible exact fun k => SMap.wf_foldl (SMap.wf_drop k)
    | with_reducible exact fun _ _ k => absurd k List.not_mem_nil
    | intro _
    | with_reducible exact wiFn_n _
    | with_reducible exact wiGrd_n _
    | with_reducible exact wiQue_n _
    | with_reducible exact wiShadow__pgChn_n_ _
    | with_reducible exact wpgBnk__bankOf_n_ _
    | with_reducible exact wpgChn_n _
    | with_reducible apply State.fetchOp_keeps
    | with_reducible apply State.start_keeps
    | with_reducible apply keeps_next
    | with_reducible apply keeps_foldl
    | with_reducible apply keeps_foldl1
    | with_reducible exact Or.inr (by assumption)
    | with_reducible exact Or.inl rfl
    | dsimp only
    | (simp only [keeps_mk_eq]; with_reducible apply keeps_mk)
    | with_reducible apply keeps_ite
    | with_reducible apply keeps_ite1
    | split)

theorem execCmdQBind_keeps {W : List Part} {Q : Nat → Bool} {s0 : State} {f : Fin 512} {q : Fin 1024} {e : List Byte} {s : State}
    (wiFn_n : ∀ n, Q (iFn n) = true) (wiGrd_n : ∀ n, Q (iGrd n) = true) (wiQue_n : ∀ n, Q (iQue n) = true) (wiShadow__pgChn_n_ : ∀ n, Q (iShadow (pgChn n)) = true) (wpgBnk__bankOf_n_ : ∀ n, Q (pgBnk (bankOf n)) = true) (wpgChn_n : ∀ n, Q (pgChn n) = true) (wpgFnc : Q pgFnc = true) (wpgLgr : Q pgLgr = true) (wpgStp : Q pgStp = true) (wstore : Part.store ∈ W) (wchans : Part.chans ∈ W) (wgrading : Part.grading ∈ W) (wlogs : Part.logs ∈ W) (whost : Part.host ∈ W) (wqueues : Part.queues ∈ W)
    (hK : Keeps W Q s0 s) : Res.Keeps W Q s0 (execCmdQBind f q e s) := by
  unfold execCmdQBind
  repeat' (first
    | with_reducible assumption
    | with_reducible exact id
    | with_reducible exact fun k => Mem.wf_writeBytes k
    | with_reducible exact fun k => Mem.wf_erase k
    | with_reducible exact fun k => SMap.wf_set k
    | with_reducible exact fun k => SMap.wf_drop k
    | with_reducible exact fun k => SMap.wf_foldl k
    | with_reducible exact fun k => SMap.wf_foldl (SMap.wf_drop k)
    | with_reducible exact fun _ _ k => absurd k List.not_mem_nil
    | intro _
    | with_reducible exact wiFn_n _
    | with_reducible exact wiGrd_n _
    | with_reducible exact wiQue_n _
    | with_reducible exact wiShadow__pgChn_n_ _
    | with_reducible exact wpgBnk__bankOf_n_ _
    | with_reducible exact wpgChn_n _
    | with_reducible apply State.fetchOp_keeps
    | with_reducible apply State.start_keeps
    | with_reducible apply keeps_next
    | with_reducible apply keeps_foldl
    | with_reducible apply keeps_foldl1
    | with_reducible exact Or.inr (by assumption)
    | with_reducible exact Or.inl rfl
    | dsimp only
    | (simp only [keeps_mk_eq]; with_reducible apply keeps_mk)
    | with_reducible apply keeps_ite
    | with_reducible apply keeps_ite1
    | split)

theorem execCmdQUnbind_keeps {W : List Part} {Q : Nat → Bool} {s0 : State} {f : Fin 512} {q : Fin 1024} {e : List Byte} {s : State}
    (wiFn_n : ∀ n, Q (iFn n) = true) (wiGrd_n : ∀ n, Q (iGrd n) = true) (wiQue_n : ∀ n, Q (iQue n) = true) (wiShadow__pgChn_n_ : ∀ n, Q (iShadow (pgChn n)) = true) (wpgBnk__bankOf_n_ : ∀ n, Q (pgBnk (bankOf n)) = true) (wpgChn_n : ∀ n, Q (pgChn n) = true) (wpgFnc : Q pgFnc = true) (wpgLgr : Q pgLgr = true) (wpgStp : Q pgStp = true) (wstore : Part.store ∈ W) (wchans : Part.chans ∈ W) (wgrading : Part.grading ∈ W) (wlogs : Part.logs ∈ W) (whost : Part.host ∈ W) (wqueues : Part.queues ∈ W)
    (hK : Keeps W Q s0 s) : Res.Keeps W Q s0 (execCmdQUnbind f q e s) := by
  unfold execCmdQUnbind
  repeat' (first
    | with_reducible assumption
    | with_reducible exact id
    | with_reducible exact fun k => Mem.wf_writeBytes k
    | with_reducible exact fun k => Mem.wf_erase k
    | with_reducible exact fun k => SMap.wf_set k
    | with_reducible exact fun k => SMap.wf_drop k
    | with_reducible exact fun k => SMap.wf_foldl k
    | with_reducible exact fun k => SMap.wf_foldl (SMap.wf_drop k)
    | with_reducible exact fun _ _ k => absurd k List.not_mem_nil
    | intro _
    | with_reducible exact wiFn_n _
    | with_reducible exact wiGrd_n _
    | with_reducible exact wiQue_n _
    | with_reducible exact wiShadow__pgChn_n_ _
    | with_reducible exact wpgBnk__bankOf_n_ _
    | with_reducible exact wpgChn_n _
    | with_reducible apply State.fetchOp_keeps
    | with_reducible apply State.start_keeps
    | with_reducible apply keeps_next
    | with_reducible apply keeps_foldl
    | with_reducible apply keeps_foldl1
    | with_reducible exact Or.inr (by assumption)
    | with_reducible exact Or.inl rfl
    | dsimp only
    | (simp only [keeps_mk_eq]; with_reducible apply keeps_mk)
    | with_reducible apply keeps_ite
    | with_reducible apply keeps_ite1
    | split)

theorem execCmdMove_keeps {W : List Part} {Q : Nat → Bool} {s0 : State} {f : Fin 512} {q : Fin 1024} {e : List Byte} {s : State}
    (wiFn_n : ∀ n, Q (iFn n) = true) (wiGrd_n : ∀ n, Q (iGrd n) = true) (wiQue_n : ∀ n, Q (iQue n) = true) (wiShadow__pgChn_n_ : ∀ n, Q (iShadow (pgChn n)) = true) (wpgBnk__bankOf_n_ : ∀ n, Q (pgBnk (bankOf n)) = true) (wpgChn_n : ∀ n, Q (pgChn n) = true) (wpgFnc : Q pgFnc = true) (wpgLgr : Q pgLgr = true) (wpgStp : Q pgStp = true) (wstore : Part.store ∈ W) (wchans : Part.chans ∈ W) (wgrading : Part.grading ∈ W) (wlogs : Part.logs ∈ W) (whost : Part.host ∈ W) (wqueues : Part.queues ∈ W)
    (hK : Keeps W Q s0 s) : Res.Keeps W Q s0 (execCmdMove f q e s) := by
  unfold execCmdMove
  repeat' (first
    | with_reducible assumption
    | with_reducible exact id
    | with_reducible exact fun k => Mem.wf_writeBytes k
    | with_reducible exact fun k => Mem.wf_erase k
    | with_reducible exact fun k => SMap.wf_set k
    | with_reducible exact fun k => SMap.wf_drop k
    | with_reducible exact fun k => SMap.wf_foldl k
    | with_reducible exact fun k => SMap.wf_foldl (SMap.wf_drop k)
    | with_reducible exact fun _ _ k => absurd k List.not_mem_nil
    | intro _
    | with_reducible exact wiFn_n _
    | with_reducible exact wiGrd_n _
    | with_reducible exact wiQue_n _
    | with_reducible exact wiShadow__pgChn_n_ _
    | with_reducible exact wpgBnk__bankOf_n_ _
    | with_reducible exact wpgChn_n _
    | with_reducible apply State.fetchOp_keeps
    | with_reducible apply State.start_keeps
    | with_reducible apply keeps_next
    | with_reducible apply keeps_foldl
    | with_reducible apply keeps_foldl1
    | with_reducible exact Or.inr (by assumption)
    | with_reducible exact Or.inl rfl
    | dsimp only
    | (simp only [keeps_mk_eq]; with_reducible apply keeps_mk)
    | with_reducible apply keeps_ite
    | with_reducible apply keeps_ite1
    | split)

theorem State.moveEffect_keeps {W : List Part} {Q : Nat → Bool} {s0 : State} {s : State}
    (wpgChn_n : ∀ n, Q (pgChn n) = true) (whost : Part.host ∈ W)
    (hK : Keeps W Q s0 s) : Keeps W Q s0 (State.moveEffect s) := by
  unfold State.moveEffect
  repeat' (first
    | with_reducible assumption
    | with_reducible exact id
    | with_reducible exact fun k => Mem.wf_writeBytes k
    | with_reducible exact fun k => Mem.wf_erase k
    | with_reducible exact fun k => SMap.wf_set k
    | with_reducible exact fun k => SMap.wf_drop k
    | with_reducible exact fun k => SMap.wf_foldl k
    | with_reducible exact fun k => SMap.wf_foldl (SMap.wf_drop k)
    | with_reducible exact fun _ _ k => absurd k List.not_mem_nil
    | intro _
    | with_reducible exact wpgChn_n _
    | with_reducible apply State.wr_keeps
    | with_reducible apply keeps_next
    | with_reducible apply keeps_foldl
    | with_reducible apply keeps_foldl1
    | with_reducible exact Or.inr (by assumption)
    | with_reducible exact Or.inl rfl
    | dsimp only
    | (simp only [keeps_mk_eq]; with_reducible apply keeps_mk)
    | with_reducible apply keeps_ite
    | with_reducible apply keeps_ite1
    | split)

theorem execMoveTakesEffect_keeps {W : List Part} {Q : Nat → Bool} {s0 : State} {s : State}
    (wpgChn_n : ∀ n, Q (pgChn n) = true) (whost : Part.host ∈ W)
    (hK : Keeps W Q s0 s) : Res.Keeps W Q s0 (execMoveTakesEffect s) := by
  unfold execMoveTakesEffect
  repeat' (first
    | with_reducible assumption
    | with_reducible exact id
    | with_reducible exact fun k => Mem.wf_writeBytes k
    | with_reducible exact fun k => Mem.wf_erase k
    | with_reducible exact fun k => SMap.wf_set k
    | with_reducible exact fun k => SMap.wf_drop k
    | with_reducible exact fun k => SMap.wf_foldl k
    | with_reducible exact fun k => SMap.wf_foldl (SMap.wf_drop k)
    | with_reducible exact fun _ _ k => absurd k List.not_mem_nil
    | intro _
    | with_reducible exact wpgChn_n _
    | with_reducible apply State.moveEffect_keeps
    | with_reducible apply State.start_keeps
    | with_reducible apply keeps_next
    | with_reducible apply keeps_foldl
    | with_reducible apply keeps_foldl1
    | with_reducible exact Or.inr (by assumption)
    | with_reducible exact Or.inl rfl
    | dsimp only
    | (simp only [keeps_mk_eq]; with_reducible apply keeps_mk)
    | with_reducible apply keeps_ite
    | with_reducible apply keeps_ite1
    | split)

theorem State.moveEnd_keeps {W : List Part} {Q : Nat → Bool} {s0 : State} {s : State}
    (wiFn_n : ∀ n, Q (iFn n) = true) (wpgChn_n : ∀ n, Q (pgChn n) = true) (wpgFnc : Q pgFnc = true) (whost : Part.host ∈ W)
    (hK : Keeps W Q s0 s) : Keeps W Q s0 (State.moveEnd s) := by
  unfold State.moveEnd
  repeat' (first
    | with_reducible assumption
    | with_reducible exact id
    | with_reducible exact fun k => Mem.wf_writeBytes k
    | with_reducible exact fun k => Mem.wf_erase k
    | with_reducible exact fun k => SMap.wf_set k
    | with_reducible exact fun k => SMap.wf_drop k
    | with_reducible exact fun k => SMap.wf_foldl k
    | with_reducible exact fun k => SMap.wf_foldl (SMap.wf_drop k)
    | with_reducible exact fun _ _ k => absurd k List.not_mem_nil
    | intro _
    | with_reducible exact wiFn_n _
    | with_reducible exact wpgChn_n _
    | with_reducible apply State.wr_keeps
    | with_reducible apply State.raise_keeps
    | with_reducible apply State.fnEvent_keeps
    | with_reducible apply State.complete_keeps
    | with_reducible apply State.redeliver_keeps
    | with_reducible apply keeps_next
    | with_reducible apply keeps_foldl
    | with_reducible apply keeps_foldl1
    | with_reducible exact Or.inr (by assumption)
    | with_reducible exact Or.inl rfl
    | dsimp only
    | (simp only [keeps_mk_eq]; with_reducible apply keeps_mk)
    | with_reducible apply keeps_ite
    | with_reducible apply keeps_ite1
    | split)

theorem execMoveComplete_keeps {W : List Part} {Q : Nat → Bool} {s0 : State} {s : State}
    (wiFn_n : ∀ n, Q (iFn n) = true) (wpgChn_n : ∀ n, Q (pgChn n) = true) (wpgFnc : Q pgFnc = true) (whost : Part.host ∈ W)
    (hK : Keeps W Q s0 s) : Res.Keeps W Q s0 (execMoveComplete s) := by
  unfold execMoveComplete
  repeat' (first
    | with_reducible assumption
    | with_reducible exact id
    | with_reducible exact fun k => Mem.wf_writeBytes k
    | with_reducible exact fun k => Mem.wf_erase k
    | with_reducible exact fun k => SMap.wf_set k
    | with_reducible exact fun k => SMap.wf_drop k
    | with_reducible exact fun k => SMap.wf_foldl k
    | with_reducible exact fun k => SMap.wf_foldl (SMap.wf_drop k)
    | with_reducible exact fun _ _ k => absurd k List.not_mem_nil
    | intro _
    | with_reducible exact wiFn_n _
    | with_reducible exact wpgChn_n _
    | with_reducible apply State.moveEnd_keeps
    | with_reducible apply State.start_keeps
    | with_reducible apply keeps_next
    | with_reducible apply keeps_foldl
    | with_reducible apply keeps_foldl1
    | with_reducible exact Or.inr (by assumption)
    | with_reducible exact Or.inl rfl
    | dsimp only
    | (simp only [keeps_mk_eq]; with_reducible apply keeps_mk)
    | with_reducible apply keeps_ite
    | with_reducible apply keeps_ite1
    | split)

theorem State.deliver_keeps {W : List Part} {Q : Nat → Bool} {s0 : State} {s : State} {q : Nat}
    (wiFn_n : ∀ n, Q (iFn n) = true) (wiQue_q : Q (iQue q) = true) (wpgQpm : Q pgQpm = true) (whost : Part.host ∈ W) (wqueues : Part.queues ∈ W)
    (hK : Keeps W Q s0 s) : Keeps W Q s0 (State.deliver s q) := by
  unfold State.deliver
  repeat' (first
    | with_reducible assumption
    | with_reducible exact id
    | with_reducible exact fun k => Mem.wf_writeBytes k
    | with_reducible exact fun k => Mem.wf_erase k
    | with_reducible exact fun k => SMap.wf_set k
    | with_reducible exact fun k => SMap.wf_drop k
    | with_reducible exact fun k => SMap.wf_foldl k
    | with_reducible exact fun k => SMap.wf_foldl (SMap.wf_drop k)
    | with_reducible exact fun _ _ k => absurd k List.not_mem_nil
    | intro _
    | with_reducible exact wiFn_n _
    | with_reducible apply State.hostWrite_keeps
    | with_reducible apply State.emit_keeps
    | with_reducible apply State.complete_keeps
    | with_reducible apply State.qCross_keeps
    | with_reducible apply State.setQueue_keeps
    | with_reducible apply keeps_next
    | with_reducible apply keeps_foldl
    | with_reducible apply keeps_foldl1
    | with_reducible exact Or.inr (by assumption)
    | with_reducible exact Or.inl rfl
    | dsimp only
    | (simp only [keeps_mk_eq]; with_reducible apply keeps_mk)
    | with_reducible apply keeps_ite
    | with_reducible apply keeps_ite1
    | split)

theorem execItemDeliver_keeps {W : List Part} {Q : Nat → Bool} {s0 : State} {q : Fin 4096} {s : State}
    (wiFn_n : ∀ n, Q (iFn n) = true) (wiQue_q_val : Q (iQue q.val) = true) (wpgQpm : Q pgQpm = true) (whost : Part.host ∈ W) (wqueues : Part.queues ∈ W)
    (hK : Keeps W Q s0 s) : Res.Keeps W Q s0 (execItemDeliver q s) := by
  unfold execItemDeliver
  repeat' (first
    | with_reducible assumption
    | with_reducible exact id
    | with_reducible exact fun k => Mem.wf_writeBytes k
    | with_reducible exact fun k => Mem.wf_erase k
    | with_reducible exact fun k => SMap.wf_set k
    | with_reducible exact fun k => SMap.wf_drop k
    | with_reducible exact fun k => SMap.wf_foldl k
    | with_reducible exact fun k => SMap.wf_foldl (SMap.wf_drop k)
    | with_reducible exact fun _ _ k => absurd k List.not_mem_nil
    | intro _
    | with_reducible exact wiFn_n _
    | with_reducible apply State.deliver_keeps
    | with_reducible apply State.start_keeps
    | with_reducible apply keeps_next
    | with_reducible apply keeps_foldl
    | with_reducible apply keeps_foldl1
    | with_reducible exact Or.inr (by assumption)
    | with_reducible exact Or.inl rfl
    | dsimp only
    | (simp only [keeps_mk_eq]; with_reducible apply keeps_mk)
    | with_reducible apply keeps_ite
    | with_reducible apply keeps_ite1
    | split)

end Sys2Proof.Machine
end

