-- ==== Sys2Proof/Laws/KeepsSwitch.lean ====
section
/-! SUPPORT. What each function and command of Machine/Switch.lean keeps. -/
set_option linter.all false
set_option Elab.async false
namespace Sys2Proof.Machine

theorem State.setEsw_keeps {W : List Part} {Q : Nat → Bool} {s0 : State} {s : State} {x : Esw}
    (wswitch : Part.switch ∈ W)
    (hK : Keeps W Q s0 s) : Keeps W Q s0 (State.setEsw s x) := by
  unfold State.setEsw
  repeat' (first
    | with_reducible assumption
    | with_reducible exact id
    | with_reducible exact fun k => Mem.wf_writeBytes k
    | with_reducible exact fun k => Mem.wf_erase k
    | with_reducible exact fun k => SMap.wf_set k
    | with_reducible exact fun k => SMap.wf_drop k
    | with_reducible exact fun k => SMap.wf_foldl k
    | with_reducible exact fun k => SMap.wf_foldl (SMap.wf_drop k)
    | with_reducible exact fun _ _ k => absurd k List.not_mem_nil
    | intro _
    | with_reducible apply keeps_next
    | with_reducible apply keeps_foldl
    | with_reducible apply keeps_foldl1
    | with_reducible exact Or.inr (by assumption)
    | with_reducible exact Or.inl rfl
    | dsimp only
    | (simp only [keeps_mk_eq]; with_reducible apply keeps_mk)
    | with_reducible apply keeps_ite
    | with_reducible apply keeps_ite1
    | split)

theorem State.vlanWrite_keeps {W : List Part} {Q : Nat → Bool} {s0 : State} {s : State} {d : Word}
    (wiVlan_n : ∀ n, Q (iVlan n) = true)
    (hK : Keeps W Q s0 s) : Keeps W Q s0 (State.vlanWrite s d) := by
  unfold State.vlanWrite
  repeat' (first
    | with_reducible assumption
    | with_reducible exact id
    | with_reducible exact fun k => Mem.wf_writeBytes k
    | with_reducible exact fun k => Mem.wf_erase k
    | with_reducible exact fun k => SMap.wf_set k
    | with_reducible exact fun k => SMap.wf_drop k
    | with_reducible exact fun k => SMap.wf_foldl k
    | with_reducible exact fun k => SMap.wf_foldl (SMap.wf_drop k)
    | with_reducible exact fun _ _ k => absurd k List.not_mem_nil
    | intro _
    | with_reducible exact wiVlan_n _
    | with_reducible apply State.wr_keeps
    | with_reducible apply keeps_next
    | with_reducible apply keeps_foldl
    | with_reducible apply keeps_foldl1
    | with_reducible exact Or.inr (by assumption)
    | with_reducible exact Or.inl rfl
    | dsimp only
    | (simp only [keeps_mk_eq]; with_reducible apply keeps_mk)
    | with_reducible apply keeps_ite
    | with_reducible apply keeps_ite1
    | split)

theorem State.atuDrop_keeps {W : List Part} {Q : Nat → Bool} {s0 : State} {s : State} {vid : Nat} {mac : Nat}
    (wswitch : Part.switch ∈ W)
    (hK : Keeps W Q s0 s) : Keeps W Q s0 (State.atuDrop s vid mac) := by
  unfold State.atuDrop
  repeat' (first
    | with_reducible assumption
    | with_reducible exact id
    | with_reducible exact fun k => Mem.wf_writeBytes k
    | with_reducible exact fun k => Mem.wf_erase k
    | with_reducible exact fun k => SMap.wf_set k
    | with_reducible exact fun k => SMap.wf_drop k
    | with_reducible exact fun k => SMap.wf_foldl k
    | with_reducible exact fun k => SMap.wf_foldl (SMap.wf_drop k)
    | with_reducible exact fun _ _ k => absurd k List.not_mem_nil
    | intro _
    | with_reducible apply State.setEsw_keeps
    | with_reducible apply keeps_next
    | with_reducible apply keeps_foldl
    | with_reducible apply keeps_foldl1
    | with_reducible exact Or.inr (by assumption)
    | with_reducible exact Or.inl rfl
    | dsimp only
    | (simp only [keeps_mk_eq]; with_reducible apply keeps_mk)
    | with_reducible apply keeps_ite
    | with_reducible apply keeps_ite1
    | split)

theorem State.atuPut_keeps {W : List Part} {Q : Nat → Bool} {s0 : State} {s : State} {e : AtuEnt}
    (wswitch : Part.switch ∈ W)
    (hK : Keeps W Q s0 s) : Keeps W Q s0 (State.atuPut s e) := by
  unfold State.atuPut
  repeat' (first
    | with_reducible assumption
    | with_reducible exact id
    | with_reducible exact fun k => Mem.wf_writeBytes k
    | with_reducible exact fun k => Mem.wf_erase k
    | with_reducible exact fun k => SMap.wf_set k
    | with_reducible exact fun k => SMap.wf_drop k
    | with_reducible exact fun k => SMap.wf_foldl k
    | with_reducible exact fun k => SMap.wf_foldl (SMap.wf_drop k)
    | with_reducible exact fun _ _ k => absurd k List.not_mem_nil
    | intro _
    | with_reducible apply State.atuDrop_keeps
    | with_reducible apply State.setEsw_keeps
    | with_reducible apply keeps_next
    | with_reducible apply keeps_foldl
    | with_reducible apply keeps_foldl1
    | with_reducible exact Or.inr (by assumption)
    | with_reducible exact Or.inl rfl
    | dsimp only
    | (simp only [keeps_mk_eq]; with_reducible apply keeps_mk)
    | with_reducible apply keeps_ite
    | with_reducible apply keeps_ite1
    | split)

theorem State.atuLearn_keeps {W : List Part} {Q : Nat → Bool} {s0 : State} {s : State} {vid : Nat} {mac : Nat} {p : Nat}
    (wiFn_n : ∀ n, Q (iFn n) = true) (wpgEsw : Q pgEsw = true) (wswitch : Part.switch ∈ W)
    (hK : Keeps W Q s0 s) : Keeps W Q s0 (State.atuLearn s vid mac p) := by
  unfold State.atuLearn
  repeat' (first
    | with_reducible assumption
    | with_reducible exact id
    | with_reducible exact fun k => Mem.wf_writeBytes k
    | with_reducible exact fun k => Mem.wf_erase k
    | with_reducible exact fun k => SMap.wf_set k
    | with_reducible exact fun k => SMap.wf_drop k
    | with_reducible exact fun k => SMap.wf_foldl k
    | with_reducible exact fun k => SMap.wf_foldl (SMap.wf_drop k)
    | with_reducible exact fun _ _ k => absurd k List.not_mem_nil
    | intro _
    | with_reducible exact wiFn_n _
    | with_reducible apply State.bump_keeps
    | with_reducible apply State.atuPut_keeps
    | with_reducible apply State.raise_keeps
    | with_reducible apply keeps_next
    | with_reducible apply keeps_foldl
    | with_reducible apply keeps_foldl1
    | with_reducible exact Or.inr (by assumption)
    | with_reducible exact Or.inl rfl
    | dsimp only
    | (simp only [keeps_mk_eq]; with_reducible apply keeps_mk)
    | with_reducible apply keeps_ite
    | with_reducible apply keeps_ite1
    | split)

theorem State.atuCmd_keeps {W : List Part} {Q : Nat → Bool} {s0 : State} {s : State} {d : Word}
    (wpgEsw : Q pgEsw = true) (wswitch : Part.switch ∈ W)
    (hK : Keeps W Q s0 s) : Keeps W Q s0 (State.atuCmd s d) := by
  unfold State.atuCmd
  repeat' (first
    | with_reducible assumption
    | with_reducible exact id
    | with_reducible exact fun k => Mem.wf_writeBytes k
    | with_reducible exact fun k => Mem.wf_erase k
    | with_reducible exact fun k => SMap.wf_set k
    | with_reducible exact fun k => SMap.wf_drop k
    | with_reducible exact fun k => SMap.wf_foldl k
    | with_reducible exact fun k => SMap.wf_foldl (SMap.wf_drop k)
    | with_reducible exact fun _ _ k => absurd k List.not_mem_nil
    | intro _
    | with_reducible apply State.wr_keeps
    | with_reducible apply State.setEsw_keeps
    | with_reducible apply State.wrB_keeps
    | with_reducible apply State.atuDrop_keeps
    | with_reducible apply State.atuPut_keeps
    | with_reducible apply keeps_next
    | with_reducible apply keeps_foldl
    | with_reducible apply keeps_foldl1
    | with_reducible exact Or.inr (by assumption)
    | with_reducible exact Or.inl rfl
    | dsimp only
    | (simp only [keeps_mk_eq]; with_reducible apply keeps_mk)
    | with_reducible apply keeps_ite
    | with_reducible apply keeps_ite1
    | split)

theorem State.setFrame_keeps {W : List Part} {Q : Nat → Bool} {s0 : State} {s : State} {f : EthFrame}
    (wswitch : Part.switch ∈ W)
    (hK : Keeps W Q s0 s) : Keeps W Q s0 (State.setFrame s f) := by
  unfold State.setFrame
  repeat' (first
    | with_reducible assumption
    | with_reducible exact id
    | with_reducible exact fun k => Mem.wf_writeBytes k
    | with_reducible exact fun k => Mem.wf_erase k
    | with_reducible exact fun k => SMap.wf_set k
    | with_reducible exact fun k => SMap.wf_drop k
    | with_reducible exact fun k => SMap.wf_foldl k
    | with_reducible exact fun k => SMap.wf_foldl (SMap.wf_drop k)
    | with_reducible exact fun _ _ k => absurd k List.not_mem_nil
    | intro _
    | with_reducible apply State.setEsw_keeps
    | with_reducible apply keeps_next
    | with_reducible apply keeps_foldl
    | with_reducible apply keeps_foldl1
    | with_reducible exact Or.inr (by assumption)
    | with_reducible exact Or.inl rfl
    | dsimp only
    | (simp only [keeps_mk_eq]; with_reducible apply keeps_mk)
    | with_reducible apply keeps_ite
    | with_reducible apply keeps_ite1
    | split)

theorem State.ethAdmit_keeps {W : List Part} {Q : Nat → Bool} {s0 : State} {s : State} {p : Nat} {bs : List Byte} {ts : Option Int} {busy : Nat}
    (wiFn_n : ∀ n, Q (iFn n) = true) (wpgEsw : Q pgEsw = true) (wswitch : Part.switch ∈ W)
    (hK : Keeps W Q s0 s) : Keeps W Q s0 (State.ethAdmit s p bs ts busy) := by
  unfold State.ethAdmit
  repeat' (first
    | with_reducible assumption
    | with_reducible exact id
    | with_reducible exact fun k => Mem.wf_writeBytes k
    | with_reducible exact fun k => Mem.wf_erase k
    | with_reducible exact fun k => SMap.wf_set k
    | with_reducible exact fun k => SMap.wf_drop k
    | with_reducible exact fun k => SMap.wf_foldl k
    | with_reducible exact fun k => SMap.wf_foldl (SMap.wf_drop k)
    | with_reducible exact fun _ _ k => absurd k List.not_mem_nil
    | intro _
    | with_reducible exact wiFn_n _
    | with_reducible apply State.bump_keeps
    | with_reducible apply State.raise_keeps
    | with_reducible apply State.setEsw_keeps
    | with_reducible apply keeps_next
    | with_reducible apply keeps_foldl
    | with_reducible apply keeps_foldl1
    | with_reducible exact Or.inr (by assumption)
    | with_reducible exact Or.inl rfl
    | dsimp only
    | (simp only [keeps_mk_eq]; with_reducible apply keeps_mk)
    | with_reducible apply keeps_ite
    | with_reducible apply keeps_ite1
    | split)

theorem State.sent_keeps {W : List Part} {Q : Nat → Bool} {s0 : State} {s : State} {f : EthFrame} {o : Nat} {add : Int} {bad : Bool}
    (wiFn_n : ∀ n, Q (iFn n) = true) (wpgEsw : Q pgEsw = true) (wswitch : Part.switch ∈ W)
    (hK : Keeps W Q s0 s) : Keeps W Q s0 (State.sent s f o add bad) := by
  unfold State.sent
  repeat' (first
    | with_reducible assumption
    | with_reducible exact id
    | with_reducible exact fun k => Mem.wf_writeBytes k
    | with_reducible exact fun k => Mem.wf_erase k
    | with_reducible exact fun k => SMap.wf_set k
    | with_reducible exact fun k => SMap.wf_drop k
    | with_reducible exact fun k => SMap.wf_foldl k
    | with_reducible exact fun k => SMap.wf_foldl (SMap.wf_drop k)
    | with_reducible exact fun _ _ k => absurd k List.not_mem_nil
    | intro _
    | with_reducible exact wiFn_n _
    | with_reducible apply State.emit_keeps
    | with_reducible apply State.bump_keeps
    | with_reducible apply State.raise_keeps
    | with_reducible apply State.setEsw_keeps
    | with_reducible apply keeps_next
    | with_reducible apply keeps_foldl
    | with_reducible apply keeps_foldl1
    | with_reducible exact Or.inr (by assumption)
    | with_reducible exact Or.inl rfl
    | dsimp only
    | (simp only [keeps_mk_eq]; with_reducible apply keeps_mk)
    | with_reducible apply keeps_ite
    | with_reducible apply keeps_ite1
    | split)

theorem State.roundFree_keeps {W : List Part} {Q : Nat → Bool} {s0 : State} {s : State} {num : Int} {den : Nat}
    
    (hK : Keeps W Q s0 s) : Keeps W Q s0 (State.roundFree s num den).1 := by
  unfold State.roundFree
  repeat' (first
    | with_reducible assumption
    | with_reducible exact id
    | with_reducible exact fun k => Mem.wf_writeBytes k
    | with_reducible exact fun k => Mem.wf_erase k
    | with_reducible exact fun k => SMap.wf_set k
    | with_reducible exact fun k => SMap.wf_drop k
    | with_reducible exact fun k => SMap.wf_foldl k
    | with_reducible exact fun k => SMap.wf_foldl (SMap.wf_drop k)
    | with_reducible exact fun _ _ k => absurd k List.not_mem_nil
    | intro _
    | with_reducible apply State.freeNext_keeps
    | with_reducible apply keeps_next
    | with_reducible apply keeps_foldl
    | with_reducible apply keeps_foldl1
    | with_reducible exact Or.inr (by assumption)
    | with_reducible exact Or.inl rfl
    | dsimp only
    | (simp only [keeps_mk_eq]; with_reducible apply keeps_mk)
    | with_reducible apply keeps_ite
    | with_reducible apply keeps_ite1
    | split)

theorem State.roundFree_keeps_eq {W : List Part} {Q : Nat → Bool} {s0 tt : State} {vv : Int} {s : State} {num : Int} {den : Nat}
    
    (hK : Keeps W Q s0 s) (e : (State.roundFree s num den) = (tt, vv)) : Keeps W Q s0 tt := by
  have := @State.roundFree_keeps W Q s0 s num den  hK
  rwa [e] at this

theorem State.tcAdd_keeps {W : List Part} {Q : Nat → Bool} {s0 : State} {s : State} {f : EthFrame} {o : Nat} {tx : Int}
    (wpgPtp : Q pgPtp = true) (wswitch : Part.switch ∈ W)
    (hK : Keeps W Q s0 s) : Keeps W Q s0 (State.tcAdd s f o tx).1 := by
  unfold State.tcAdd
  repeat' (first
    | with_reducible assumption
    | with_reducible exact id
    | with_reducible exact fun k => Mem.wf_writeBytes k
    | with_reducible exact fun k => Mem.wf_erase k
    | with_reducible exact fun k => SMap.wf_set k
    | with_reducible exact fun k => SMap.wf_drop k
    | with_reducible exact fun k => SMap.wf_foldl k
    | with_reducible exact fun k => SMap.wf_foldl (SMap.wf_drop k)
    | with_reducible exact fun _ _ k => absurd k List.not_mem_nil
    | intro _
    | with_reducible apply State.bump_keeps
    | with_reducible apply State.roundFree_keeps
    | (refine State.roundFree_keeps_eq ?_ (by assumption))
    | with_reducible apply State.setEsw_keeps
    | with_reducible apply keeps_next
    | with_reducible apply keeps_foldl
    | with_reducible apply keeps_foldl1
    | with_reducible exact Or.inr (by assumption)
    | with_reducible exact Or.inl rfl
    | dsimp only
    | (simp only [keeps_mk_eq]; with_reducible apply keeps_mk)
    | with_reducible apply keeps_ite
    | with_reducible apply keeps_ite1
    | split)

theorem State.tcAdd_keeps_eq {W : List Part} {Q : Nat → Bool} {s0 tt : State} {vv : Int} {s : State} {f : EthFrame} {o : Nat} {tx : Int}
    (wpgPtp : Q pgPtp = true) (wswitch : Part.switch ∈ W)
    (hK : Keeps W Q s0 s) (e : (State.tcAdd s f o tx) = (tt, vv)) : Keeps W Q s0 tt := by
  have := @State.tcAdd_keeps W Q s0 s f o tx wpgPtp wswitch hK
  rwa [e] at this

theorem State.p3Deliver_keeps {W : List Part} {Q : Nat → Bool} {s0 : State} {s : State} {f : EthFrame}
    (wiFn_n : ∀ n, Q (iFn n) = true) (wpgEsw : Q pgEsw = true) (wmem : Part.mem ∈ W) (wswitch : Part.switch ∈ W)
    (hK : Keeps W Q s0 s) : Keeps W Q s0 (State.p3Deliver s f) := by
  unfold State.p3Deliver
  repeat' (first
    | with_reducible assumption
    | with_reducible exact id
    | with_reducible exact fun k => Mem.wf_writeBytes k
    | with_reducible exact fun k => Mem.wf_erase k
    | with_reducible exact fun k => SMap.wf_set k
    | with_reducible exact fun k => SMap.wf_drop k
    | with_reducible exact fun k => SMap.wf_foldl k
    | with_reducible exact fun k => SMap.wf_foldl (SMap.wf_drop k)
    | with_reducible exact fun _ _ k => absurd k List.not_mem_nil
    | intro _
    | with_reducible exact wiFn_n _
    | with_reducible apply State.bump_keeps
    | with_reducible apply State.store_keeps
    | with_reducible apply State.setEsw_keeps
    | with_reducible apply State.raise_keeps
    | with_reducible apply keeps_next
    | with_reducible apply keeps_foldl
    | with_reducible apply keeps_foldl1
    | with_reducible exact Or.inr (by assumption)
    | with_reducible exact Or.inl rfl
    | dsimp only
    | (simp only [keeps_mk_eq]; with_reducible apply keeps_mk)
    | with_reducible apply keeps_ite
    | with_reducible apply keeps_ite1
    | split)

theorem State.ptpDeliver_keeps {W : List Part} {Q : Nat → Bool} {s0 : State} {s : State} {f : EthFrame}
    (wiFn_n : ∀ n, Q (iFn n) = true) (wpgPtp : Q pgPtp = true) (wmem : Part.mem ∈ W) (wswitch : Part.switch ∈ W)
    (hK : Keeps W Q s0 s) : Keeps W Q s0 (State.ptpDeliver s f) := by
  unfold State.ptpDeliver
  repeat' (first
    | with_reducible assumption
    | with_reducible exact id
    | with_reducible exact fun k => Mem.wf_writeBytes k
    | with_reducible exact fun k => Mem.wf_erase k
    | with_reducible exact fun k => SMap.wf_set k
    | with_reducible exact fun k => SMap.wf_drop k
    | with_reducible exact fun k => SMap.wf_foldl k
    | with_reducible exact fun k => SMap.wf_foldl (SMap.wf_drop k)
    | with_reducible exact fun _ _ k => absurd k List.not_mem_nil
    | intro _
    | with_reducible exact wiFn_n _
    | with_reducible apply State.bump_keeps
    | with_reducible apply State.freeNext_keeps
    | with_reducible apply State.store_keeps
    | with_reducible apply State.raise_keeps
    | with_reducible apply State.setEsw_keeps
    | with_reducible apply keeps_next
    | with_reducible apply keeps_foldl
    | with_reducible apply keeps_foldl1
    | with_reducible exact Or.inr (by assumption)
    | with_reducible exact Or.inl rfl
    | dsimp only
    | (simp only [keeps_mk_eq]; with_reducible apply keeps_mk)
    | with_reducible apply keeps_ite
    | with_reducible apply keeps_ite1
    | split)

theorem State.cellsIn_keeps {W : List Part} {Q : Nat → Bool} {s0 : State} {s : State} {p : Nat} {n : Nat}
    (wswitch : Part.switch ∈ W)
    (hK : Keeps W Q s0 s) : Keeps W Q s0 (State.cellsIn s p n) := by
  unfold State.cellsIn
  repeat' (first
    | with_reducible assumption
    | with_reducible exact id
    | with_reducible exact fun k => Mem.wf_writeBytes k
    | with_reducible exact fun k => Mem.wf_erase k
    | with_reducible exact fun k => SMap.wf_set k
    | with_reducible exact fun k => SMap.wf_drop k
    | with_reducible exact fun k => SMap.wf_foldl k
    | with_reducible exact fun k => SMap.wf_foldl (SMap.wf_drop k)
    | with_reducible exact fun _ _ k => absurd k List.not_mem_nil
    | intro _
    | with_reducible apply State.setFrame_keeps
    | with_reducible apply keeps_next
    | with_reducible apply keeps_foldl
    | with_reducible apply keeps_foldl1
    | with_reducible exact Or.inr (by assumption)
    | with_reducible exact Or.inl rfl
    | dsimp only
    | (simp only [keeps_mk_eq]; with_reducible apply keeps_mk)
    | with_reducible apply keeps_ite
    | with_reducible apply keeps_ite1
    | split)

theorem State.frameEnd_keeps {W : List Part} {Q : Nat → Bool} {s0 : State} {s : State} {f : EthFrame} {bs : List Byte} {bad : Bool}
    (wiFn_n : ∀ n, Q (iFn n) = true) (wpgEsw : Q pgEsw = true) (wpgPtp : Q pgPtp = true) (wmem : Part.mem ∈ W) (wswitch : Part.switch ∈ W)
    (hK : Keeps W Q s0 s) : Keeps W Q s0 (State.frameEnd s f bs bad) := by
  unfold State.frameEnd
  repeat' (first
    | with_reducible assumption
    | with_reducible exact id
    | with_reducible exact fun k => Mem.wf_writeBytes k
    | with_reducible exact fun k => Mem.wf_erase k
    | with_reducible exact fun k => SMap.wf_set k
    | with_reducible exact fun k => SMap.wf_drop k
    | with_reducible exact fun k => SMap.wf_foldl k
    | with_reducible exact fun k => SMap.wf_foldl (SMap.wf_drop k)
    | with_reducible exact fun _ _ k => absurd k List.not_mem_nil
    | intro _
    | with_reducible exact wiFn_n _
    | with_reducible apply State.bump_keeps
    | with_reducible apply State.sent_keeps
    | with_reducible apply State.setFrame_keeps
    | with_reducible apply State.atuLearn_keeps
    | with_reducible apply State.ptpDeliver_keeps
    | with_reducible apply keeps_next
    | with_reducible apply keeps_foldl
    | with_reducible apply keeps_foldl1
    | with_reducible exact Or.inr (by assumption)
    | with_reducible exact Or.inl rfl
    | dsimp only
    | (simp only [keeps_mk_eq]; with_reducible apply keeps_mk)
    | with_reducible apply keeps_ite
    | with_reducible apply keeps_ite1
    | split)

theorem execEswFrameLookup_keeps {W : List Part} {Q : Nat → Bool} {s0 : State} {p : Fin 3} {bytes : List Byte} {cap : Nat} {chg : Bool} {busy : Fin 16} {got : List Nat} {s : State}
    (wiFn_n : ∀ n, Q (iFn n) = true) (wpgEsw : Q pgEsw = true) (wpgPtp : Q pgPtp = true) (wswitch : Part.switch ∈ W)
    (hK : Keeps W Q s0 s) : Res.Keeps W Q s0 (execEswFrameLookup p bytes cap chg busy got s) := by
  unfold execEswFrameLookup
  repeat' (first
    | with_reducible assumption
    | with_reducible exact id
    | with_reducible exact fun k => Mem.wf_writeBytes k
    | with_reducible exact fun k => Mem.wf_erase k
    | with_reducible exact fun k => SMap.wf_set k
    | with_reducible exact fun k => SMap.wf_drop k
    | with_reducible exact fun k => SMap.wf_foldl k
    | with_reducible exact fun k => SMap.wf_foldl (SMap.wf_drop k)
    | with_reducible exact fun _ _ k => absurd k List.not_mem_nil
    | intro _
    | with_reducible exact wiFn_n _
    | with_reducible apply State.start_keeps
    | with_reducible apply State.cellsIn_keeps
    | with_reducible apply State.bump_keeps
    | with_reducible apply State.ethAdmit_keeps
    | with_reducible apply keeps_next
    | with_reducible apply keeps_foldl
    | with_reducible apply keeps_foldl1
    | with_reducible exact Or.inr (by assumption)
    | with_reducible exact Or.inl rfl
    | dsimp only
    | (simp only [keeps_mk_eq]; with_reducible apply keeps_mk)
    | with_reducible apply keeps_ite
    | with_reducible apply keeps_ite1
    | split)

theorem execEswFrameEnd_keeps {W : List Part} {Q : Nat → Bool} {s0 : State} {p : Fin 3} {bytes : List Byte} {pcs : Bool} {s : State}
    (wiFn_n : ∀ n, Q (iFn n) = true) (wpgEsw : Q pgEsw = true) (wpgPtp : Q pgPtp = true) (wmem : Part.mem ∈ W) (wswitch : Part.switch ∈ W)
    (hK : Keeps W Q s0 s) : Res.Keeps W Q s0 (execEswFrameEnd p bytes pcs s) := by
  unfold execEswFrameEnd
  repeat' (first
    | with_reducible assumption
    | with_reducible exact id
    | with_reducible exact fun k => Mem.wf_writeBytes k
    | with_reducible exact fun k => Mem.wf_erase k
    | with_reducible exact fun k => SMap.wf_set k
    | with_reducible exact fun k => SMap.wf_drop k
    | with_reducible exact fun k => SMap.wf_foldl k
    | with_reducible exact fun k => SMap.wf_foldl (SMap.wf_drop k)
    | with_reducible exact fun _ _ k => absurd k List.not_mem_nil
    | intro _
    | with_reducible exact wiFn_n _
    | with_reducible apply State.start_keeps
    | with_reducible apply State.frameEnd_keeps
    | with_reducible apply keeps_next
    | with_reducible apply keeps_foldl
    | with_reducible apply keeps_foldl1
    | with_reducible exact Or.inr (by assumption)
    | with_reducible exact Or.inl rfl
    | dsimp only
    | (simp only [keeps_mk_eq]; with_reducible apply keeps_mk)
    | with_reducible apply keeps_ite
    | with_reducible apply keeps_ite1
    | split)

theorem execEswTxStart_keeps {W : List Part} {Q : Nat → Bool} {s0 : State} {o : Fin 4} {cap : Nat} {waited : Nat} {s : State}
    (wiFn_n : ∀ n, Q (iFn n) = true) (wpgEsw : Q pgEsw = true) (wpgPtp : Q pgPtp = true) (wmem : Part.mem ∈ W) (wswitch : Part.switch ∈ W)
    (hK : Keeps W Q s0 s) : Res.Keeps W Q s0 (execEswTxStart o cap waited s) := by
  unfold execEswTxStart
  repeat' (first
    | with_reducible assumption
    | with_reducible exact id
    | with_reducible exact fun k => Mem.wf_writeBytes k
    | with_reducible exact fun k => Mem.wf_erase k
    | with_reducible exact fun k => SMap.wf_set k
    | with_reducible exact fun k => SMap.wf_drop k
    | with_reducible exact fun k => SMap.wf_foldl k
    | with_reducible exact fun k => SMap.wf_foldl (SMap.wf_drop k)
    | with_reducible exact fun _ _ k => absurd k List.not_mem_nil
    | intro _
    | with_reducible exact wiFn_n _
    | with_reducible apply State.start_keeps
    | with_reducible apply State.setEsw_keeps
    | with_reducible apply State.setFrame_keeps
    | with_reducible apply State.p3Deliver_keeps
    | with_reducible apply State.tcAdd_keeps
    | (refine State.tcAdd_keeps_eq ?_ (by assumption) ?_ (by assumption))
    | with_reducible apply State.sent_keeps
    | with_reducible apply keeps_next
    | with_reducible apply keeps_foldl
    | with_reducible apply keeps_foldl1
    | with_reducible exact Or.inr (by assumption)
    | with_reducible exact Or.inl rfl
    | dsimp only
    | (simp only [keeps_mk_eq]; with_reducible apply keeps_mk)
    | with_reducible apply keeps_ite
    | with_reducible apply keeps_ite1
    | split)

theorem State.ethDown_keeps {W : List Part} {Q : Nat → Bool} {s0 : State} {s : State} {p : Nat}
    (wiFn_n : ∀ n, Q (iFn n) = true) (wpgEsw : Q pgEsw = true) (wswitch : Part.switch ∈ W)
    (hK : Keeps W Q s0 s) : Keeps W Q s0 (State.ethDown s p) := by
  unfold State.ethDown
  repeat' (first
    | with_reducible assumption
    | with_reducible exact id
    | with_reducible exact fun k => Mem.wf_writeBytes k
    | with_reducible exact fun k => Mem.wf_erase k
    | with_reducible exact fun k => SMap.wf_set k
    | with_reducible exact fun k => SMap.wf_drop k
    | with_reducible exact fun k => SMap.wf_foldl k
    | with_reducible exact fun k => SMap.wf_foldl (SMap.wf_drop k)
    | with_reducible exact fun _ _ k => absurd k List.not_mem_nil
    | intro _
    | with_reducible exact wiFn_n _
    | with_reducible apply State.wr_keeps
    | with_reducible apply State.bump_keeps
    | with_reducible apply State.raise_keeps
    | with_reducible apply State.setEsw_keeps
    | with_reducible apply keeps_next
    | with_reducible apply keeps_foldl
    | with_reducible apply keeps_foldl1
    | with_reducible exact Or.inr (by assumption)
    | with_reducible exact Or.inl rfl
    | dsimp only
    | (simp only [keeps_mk_eq]; with_reducible apply keeps_mk)
    | with_reducible apply keeps_ite
    | with_reducible apply keeps_ite1
    | split)

theorem execEswLinkDown_keeps {W : List Part} {Q : Nat → Bool} {s0 : State} {p : Fin 3} {s : State}
    (wiFn_n : ∀ n, Q (iFn n) = true) (wpgEsw : Q pgEsw = true) (wswitch : Part.switch ∈ W)
    (hK : Keeps W Q s0 s) : Res.Keeps W Q s0 (execEswLinkDown p s) := by
  unfold execEswLinkDown
  repeat' (first
    | with_reducible assumption
    | with_reducible exact id
    | with_reducible exact fun k => Mem.wf_writeBytes k
    | with_reducible exact fun k => Mem.wf_erase k
    | with_reducible exact fun k => SMap.wf_set k
    | with_reducible exact fun k => SMap.wf_drop k
    | with_reducible exact fun k => SMap.wf_foldl k
    | with_reducible exact fun k => SMap.wf_foldl (SMap.wf_drop k)
    | with_reducible exact fun _ _ k => absurd k List.not_mem_nil
    | intro _
    | with_reducible exact wiFn_n _
    | with_reducible apply State.start_keeps
    | with_reducible apply State.ethDown_keeps
    | with_reducible apply keeps_next
    | with_reducible apply keeps_foldl
    | with_reducible apply keeps_foldl1
    | with_reducible exact Or.inr (by assumption)
    | with_reducible exact Or.inl rfl
    | dsimp only
    | (simp only [keeps_mk_eq]; with_reducible apply keeps_mk)
    | with_reducible apply keeps_ite
    | with_reducible apply keeps_ite1
    | split)

theorem execEswLinkUp_keeps {W : List Part} {Q : Nat → Bool} {s0 : State} {p : Fin 3} {speed : Fin 3} {s : State}
    (wiFn_n : ∀ n, Q (iFn n) = true) (wpgEsw : Q pgEsw = true)
    (hK : Keeps W Q s0 s) : Res.Keeps W Q s0 (execEswLinkUp p speed s) := by
  unfold execEswLinkUp
  repeat' (first
    | with_reducible assumption
    | with_reducible exact id
    | with_reducible exact fun k => Mem.wf_writeBytes k
    | with_reducible exact fun k => Mem.wf_erase k
    | with_reducible exact fun k => SMap.wf_set k
    | with_reducible exact fun k => SMap.wf_drop k
    | with_reducible exact fun k => SMap.wf_foldl k
    | with_reducible exact fun k => SMap.wf_foldl (SMap.wf_drop k)
    | with_reducible exact fun _ _ k => absurd k List.not_mem_nil
    | intro _
    | with_reducible exact wiFn_n _
    | with_reducible apply State.start_keeps
    | with_reducible apply State.raise_keeps
    | with_reducible apply State.wr_keeps
    | with_reducible apply keeps_next
    | with_reducible apply keeps_foldl
    | with_reducible apply keeps_foldl1
    | with_reducible exact Or.inr (by assumption)
    | with_reducible exact Or.inl rfl
    | dsimp only
    | (simp only [keeps_mk_eq]; with_reducible apply keeps_mk)
    | with_reducible apply keeps_ite
    | with_reducible apply keeps_ite1
    | split)

theorem execPauseFrameRx_keeps {W : List Part} {Q : Nat → Bool} {s0 : State} {p : Fin 3} {quanta : Fin 65536} {len : Nat} {s : State}
    (wpgEsw : Q pgEsw = true) (wswitch : Part.switch ∈ W)
    (hK : Keeps W Q s0 s) : Res.Keeps W Q s0 (execPauseFrameRx p quanta len s) := by
  unfold execPauseFrameRx
  repeat' (first
    | with_reducible assumption
    | with_reducible exact id
    | with_reducible exact fun k => Mem.wf_writeBytes k
    | with_reducible exact fun k => Mem.wf_erase k
    | with_reducible exact fun k => SMap.wf_set k
    | with_reducible exact fun k => SMap.wf_drop k
    | with_reducible exact fun k => SMap.wf_foldl k
    | with_reducible exact fun k => SMap.wf_foldl (SMap.wf_drop k)
    | with_reducible exact fun _ _ k => absurd k List.not_mem_nil
    | intro _
    | with_reducible apply State.start_keeps
    | with_reducible apply State.bump_keeps
    | with_reducible apply State.setEsw_keeps
    | with_reducible apply keeps_next
    | with_reducible apply keeps_foldl
    | with_reducible apply keeps_foldl1
    | with_reducible exact Or.inr (by assumption)
    | with_reducible exact Or.inl rfl
    | dsimp only
    | (simp only [keeps_mk_eq]; with_reducible apply keeps_mk)
    | with_reducible apply keeps_ite
    | with_reducible apply keeps_ite1
    | split)

theorem execAtuRead_keeps {W : List Part} {Q : Nat → Bool} {s0 : State} {r : Req} {d : Word} {s : State}
    (w50 : Q 50 = true) (wiCode_8 : Q (iCode 8) = true) (wiFn_n : ∀ n, Q (iFn n) = true) (wpgEsw : Q pgEsw = true) (wpgEvr : Q pgEvr = true) (wpgSys : Q pgSys = true) (wrecorder : Part.recorder ∈ W) (wswitch : Part.switch ∈ W) (wfield : Part.field ∈ W)
    (hK : Keeps W Q s0 s) : Res.Keeps W Q s0 (execAtuRead r d s) := by
  unfold execAtuRead
  repeat' (first
    | with_reducible assumption
    | with_reducible exact id
    | with_reducible exact fun k => Mem.wf_writeBytes k
    | with_reducible exact fun k => Mem.wf_erase k
    | with_reducible exact fun k => SMap.wf_set k
    | with_reducible exact fun k => SMap.wf_drop k
    | with_reducible exact fun k => SMap.wf_foldl k
    | with_reducible exact fun k => SMap.wf_foldl (SMap.wf_drop k)
    | with_reducible exact fun _ _ k => absurd k List.not_mem_nil
    | intro _
    | with_reducible exact wiFn_n _
    | with_reducible apply State.access_keeps
    | with_reducible apply State.start_keeps
    | with_reducible apply State.atuCmd_keeps
    | with_reducible apply keeps_next
    | with_reducible apply keeps_foldl
    | with_reducible apply keeps_foldl1
    | with_reducible exact Or.inr (by assumption)
    | with_reducible exact Or.inl rfl
    | dsimp only
    | (simp only [keeps_mk_eq]; with_reducible apply keeps_mk)
    | with_reducible apply keeps_ite
    | with_reducible apply keeps_ite1
    | split)

theorem execAtuWrite_keeps {W : List Part} {Q : Nat → Bool} {s0 : State} {r : Req} {d : Word} {s : State}
    (w50 : Q 50 = true) (wiCode_8 : Q (iCode 8) = true) (wiFn_n : ∀ n, Q (iFn n) = true) (wpgEsw : Q pgEsw = true) (wpgEvr : Q pgEvr = true) (wpgSys : Q pgSys = true) (wrecorder : Part.recorder ∈ W) (wswitch : Part.switch ∈ W) (wfield : Part.field ∈ W)
    (hK : Keeps W Q s0 s) : Res.Keeps W Q s0 (execAtuWrite r d s) := by
  unfold execAtuWrite
  repeat' (first
    | with_reducible assumption
    | with_reducible exact id
    | with_reducible exact fun k => Mem.wf_writeBytes k
    | with_reducible exact fun k => Mem.wf_erase k
    | with_reducible exact fun k => SMap.wf_set k
    | with_reducible exact fun k => SMap.wf_drop k
    | with_reducible exact fun k => SMap.wf_foldl k
    | with_reducible exact fun k => SMap.wf_foldl (SMap.wf_drop k)
    | with_reducible exact fun _ _ k => absurd k List.not_mem_nil
    | intro _
    | with_reducible exact wiFn_n _
    | with_reducible apply State.access_keeps
    | with_reducible apply State.start_keeps
    | with_reducible apply State.atuCmd_keeps
    | with_reducible apply keeps_next
    | with_reducible apply keeps_foldl
    | with_reducible apply keeps_foldl1
    | with_reducible exact Or.inr (by assumption)
    | with_reducible exact Or.inl rfl
    | dsimp only
    | (simp only [keeps_mk_eq]; with_reducible apply keeps_mk)
    | with_reducible apply keeps_ite
    | with_reducible apply keeps_ite1
    | split)

theorem execAtuDelete_keeps {W : List Part} {Q : Nat → Bool} {s0 : State} {r : Req} {d : Word} {s : State}
    (w50 : Q 50 = true) (wiCode_8 : Q (iCode 8) = true) (wiFn_n : ∀ n, Q (iFn n) = true) (wpgEsw : Q pgEsw = true) (wpgEvr : Q pgEvr = true) (wpgSys : Q pgSys = true) (wrecorder : Part.recorder ∈ W) (wswitch : Part.switch ∈ W) (wfield : Part.field ∈ W)
    (hK : Keeps W Q s0 s) : Res.Keeps W Q s0 (execAtuDelete r d s) := by
  unfold execAtuDelete
  repeat' (first
    | with_reducible assumption
    | with_reducible exact id
    | with_reducible exact fun k => Mem.wf_writeBytes k
    | with_reducible exact fun k => Mem.wf_erase k
    | with_reducible exact fun k => SMap.wf_set k
    | with_reducible exact fun k => SMap.wf_drop k
    | with_reducible exact fun k => SMap.wf_foldl k
    | with_reducible exact fun k => SMap.wf_foldl (SMap.wf_drop k)
    | with_reducible exact fun _ _ k => absurd k List.not_mem_nil
    | intro _
    | with_reducible exact wiFn_n _
    | with_reducible apply State.access_keeps
    | with_reducible apply State.start_keeps
    | with_reducible apply State.atuCmd_keeps
    | with_reducible apply keeps_next
    | with_reducible apply keeps_foldl
    | with_reducible apply keeps_foldl1
    | with_reducible exact Or.inr (by assumption)
    | with_reducible exact Or.inl rfl
    | dsimp only
    | (simp only [keeps_mk_eq]; with_reducible apply keeps_mk)
    | with_reducible apply keeps_ite
    | with_reducible apply keeps_ite1
    | split)

theorem execAtuFlushDyn_keeps {W : List Part} {Q : Nat → Bool} {s0 : State} {r : Req} {d : Word} {s : State}
    (w50 : Q 50 = true) (wiCode_8 : Q (iCode 8) = true) (wiFn_n : ∀ n, Q (iFn n) = true) (wpgEsw : Q pgEsw = true) (wpgEvr : Q pgEvr = true) (wpgSys : Q pgSys = true) (wrecorder : Part.recorder ∈ W) (wswitch : Part.switch ∈ W) (wfield : Part.field ∈ W)
    (hK : Keeps W Q s0 s) : Res.Keeps W Q s0 (execAtuFlushDyn r d s) := by
  unfold execAtuFlushDyn
  repeat' (first
    | with_reducible assumption
    | with_reducible exact id
    | with_reducible exact fun k => Mem.wf_writeBytes k
    | with_reducible exact fun k => Mem.wf_erase k
    | with_reducible exact fun k => SMap.wf_set k
    | with_reducible exact fun k => SMap.wf_drop k
    | with_reducible exact fun k => SMap.wf_foldl k
    | with_reducible exact fun k => SMap.wf_foldl (SMap.wf_drop k)
    | with_reducible exact fun _ _ k => absurd k List.not_mem_nil
    | intro _
    | with_reducible exact wiFn_n _
    | with_reducible apply State.access_keeps
    | with_reducible apply State.start_keeps
    | with_reducible apply State.atuCmd_keeps
    | with_reducible apply keeps_next
    | with_reducible apply keeps_foldl
    | with_reducible apply keeps_foldl1
    | with_reducible exact Or.inr (by assumption)
    | with_reducible exact Or.inl rfl
    | dsimp only
    | (simp only [keeps_mk_eq]; with_reducible apply keeps_mk)
    | with_reducible apply keeps_ite
    | with_reducible apply keeps_ite1
    | split)

theorem execAtuAgeExpiry_keeps {W : List Part} {Q : Nat → Bool} {s0 : State} {vid : Fin 4096} {mac : BitVec 48} {s : State}
    (wswitch : Part.switch ∈ W)
    (hK : Keeps W Q s0 s) : Res.Keeps W Q s0 (execAtuAgeExpiry vid mac s) := by
  unfold execAtuAgeExpiry
  repeat' (first
    | with_reducible assumption
    | with_reducible exact id
    | with_reducible exact fun k => Mem.wf_writeBytes k
    | with_reducible exact fun k => Mem.wf_erase k
    | with_reducible exact fun k => SMap.wf_set k
    | with_reducible exact fun k => SMap.wf_drop k
    | with_reducible exact fun k => SMap.wf_foldl k
    | with_reducible exact fun k => SMap.wf_foldl (SMap.wf_drop k)
    | with_reducible exact fun _ _ k => absurd k List.not_mem_nil
    | intro _
    | with_reducible apply State.start_keeps
    | with_reducible apply State.atuDrop_keeps
    | with_reducible apply keeps_next
    | with_reducible apply keeps_foldl
    | with_reducible apply keeps_foldl1
    | with_reducible exact Or.inr (by assumption)
    | with_reducible exact Or.inl rfl
    | dsimp only
    | (simp only [keeps_mk_eq]; with_reducible apply keeps_mk)
    | with_reducible apply keeps_ite
    | with_reducible apply keeps_ite1
    | split)

theorem State.p3Take_keeps {W : List Part} {Q : Nat → Bool} {s0 : State} {s : State} {d : Nat × Nat} {n : Nat}
    (wiFn_n : ∀ n, Q (iFn n) = true) (wpgEsw : Q pgEsw = true) (wpgPtp : Q pgPtp = true) (wmem : Part.mem ∈ W) (wswitch : Part.switch ∈ W)
    (hK : Keeps W Q s0 s) : Keeps W Q s0 (State.p3Take s d n) := by
  unfold State.p3Take
  repeat' (first
    | with_reducible assumption
    | with_reducible exact id
    | with_reducible exact fun k => Mem.wf_writeBytes k
    | with_reducible exact fun k => Mem.wf_erase k
    | with_reducible exact fun k => SMap.wf_set k
    | with_reducible exact fun k => SMap.wf_drop k
    | with_reducible exact fun k => SMap.wf_foldl k
    | with_reducible exact fun k => SMap.wf_foldl (SMap.wf_drop k)
    | with_reducible exact fun _ _ k => absurd k List.not_mem_nil
    | intro _
    | with_reducible exact wiFn_n _
    | with_reducible apply State.ethAdmit_keeps
    | with_reducible apply State.frameEnd_keeps
    | with_reducible apply State.store_keeps
    | with_reducible apply State.setEsw_keeps
    | with_reducible apply keeps_next
    | with_reducible apply keeps_foldl
    | with_reducible apply keeps_foldl1
    | with_reducible exact Or.inr (by assumption)
    | with_reducible exact Or.inl rfl
    | dsimp only
    | (simp only [keeps_mk_eq]; with_reducible apply keeps_mk)
    | with_reducible apply keeps_ite
    | with_reducible apply keeps_ite1
    | split)

theorem State.p3Scan_keeps {W : List Part} {Q : Nat → Bool} {s0 : State} {s : State} {n : Nat} {x1 : Nat}
    (wiFn_n : ∀ n, Q (iFn n) = true) (wpgEsw : Q pgEsw = true) (wpgPtp : Q pgPtp = true) (wmem : Part.mem ∈ W) (wswitch : Part.switch ∈ W)
    (hK : Keeps W Q s0 s) : Keeps W Q s0 (State.p3Scan s n x1) := by
  induction x1 generalizing s n with
  | zero =>
    unfold State.p3Scan
    repeat' (first
      | with_reducible assumption
      | with_reducible exact id
      | with_reducible exact fun k => Mem.wf_writeBytes k
      | with_reducible exact fun k => Mem.wf_erase k
      | with_reducible exact fun k => SMap.wf_set k
      | with_reducible exact fun k => SMap.wf_drop k
      | with_reducible exact fun k => SMap.wf_foldl k
      | with_reducible exact fun k => SMap.wf_foldl (SMap.wf_drop k)
      | with_reducible exact fun _ _ k => absurd k List.not_mem_nil
      | intro _
      | with_reducible exact wiFn_n _
      | with_reducible apply State.p3Take_keeps
      | with_reducible apply keeps_next
      | with_reducible apply keeps_foldl
      | with_reducible apply keeps_foldl1
      | with_reducible exact Or.inr (by assumption)
      | with_reducible exact Or.inl rfl
      | dsimp only
      | (simp only [keeps_mk_eq]; with_reducible apply keeps_mk)
      | with_reducible apply keeps_ite
      | with_reducible apply keeps_ite1
      | split)
  | succ n ih =>
    unfold State.p3Scan
    repeat' (first
      | with_reducible assumption
      | with_reducible apply ih
      | with_reducible exact id
      | with_reducible exact fun k => Mem.wf_writeBytes k
      | with_reducible exact fun k => Mem.wf_erase k
      | with_reducible exact fun k => SMap.wf_set k
      | with_reducible exact fun k => SMap.wf_drop k
      | with_reducible exact fun k => SMap.wf_foldl k
      | with_reducible exact fun k => SMap.wf_foldl (SMap.wf_drop k)
      | with_reducible exact fun _ _ k => absurd k List.not_mem_nil
      | intro _
      | with_reducible exact wiFn_n _
      | with_reducible apply State.p3Take_keeps
      | with_reducible apply keeps_next
      | with_reducible apply keeps_foldl
      | with_reducible apply keeps_foldl1
      | with_reducible exact Or.inr (by assumption)
      | with_reducible exact Or.inl rfl
      | dsimp only
      | (simp only [keeps_mk_eq]; with_reducible apply keeps_mk)
      | with_reducible apply keeps_ite
      | with_reducible apply keeps_ite1
      | split)

theorem State.p3Doorbell_keeps {W : List Part} {Q : Nat → Bool} {s0 : State} {s : State} {d : Word}
    (wiFn_n : ∀ n, Q (iFn n) = true) (wpgEsw : Q pgEsw = true) (wpgPtp : Q pgPtp = true) (wmem : Part.mem ∈ W) (wswitch : Part.switch ∈ W)
    (hK : Keeps W Q s0 s) : Keeps W Q s0 (State.p3Doorbell s d) := by
  unfold State.p3Doorbell
  repeat' (first
    | with_reducible assumption
    | with_reducible exact id
    | with_reducible exact fun k => Mem.wf_writeBytes k
    | with_reducible exact fun k => Mem.wf_erase k
    | with_reducible exact fun k => SMap.wf_set k
    | with_reducible exact fun k => SMap.wf_drop k
    | with_reducible exact fun k => SMap.wf_foldl k
    | with_reducible exact fun k => SMap.wf_foldl (SMap.wf_drop k)
    | with_reducible exact fun _ _ k => absurd k List.not_mem_nil
    | intro _
    | with_reducible exact wiFn_n _
    | with_reducible apply State.p3Scan_keeps
    | with_reducible apply keeps_next
    | with_reducible apply keeps_foldl
    | with_reducible apply keeps_foldl1
    | with_reducible exact Or.inr (by assumption)
    | with_reducible exact Or.inl rfl
    | dsimp only
    | (simp only [keeps_mk_eq]; with_reducible apply keeps_mk)
    | with_reducible apply keeps_ite
    | with_reducible apply keeps_ite1
    | split)

theorem execP3TxDoorbell_keeps {W : List Part} {Q : Nat → Bool} {s0 : State} {r : Req} {d : Word} {s : State}
    (w50 : Q 50 = true) (wiCode_8 : Q (iCode 8) = true) (wiFn_n : ∀ n, Q (iFn n) = true) (wpgEsw : Q pgEsw = true) (wpgEvr : Q pgEvr = true) (wpgPtp : Q pgPtp = true) (wpgSys : Q pgSys = true) (wmem : Part.mem ∈ W) (wrecorder : Part.recorder ∈ W) (wswitch : Part.switch ∈ W) (wfield : Part.field ∈ W)
    (hK : Keeps W Q s0 s) : Res.Keeps W Q s0 (execP3TxDoorbell r d s) := by
  unfold execP3TxDoorbell
  repeat' (first
    | with_reducible assumption
    | with_reducible exact id
    | with_reducible exact fun k => Mem.wf_writeBytes k
    | with_reducible exact fun k => Mem.wf_erase k
    | with_reducible exact fun k => SMap.wf_set k
    | with_reducible exact fun k => SMap.wf_drop k
    | with_reducible exact fun k => SMap.wf_foldl k
    | with_reducible exact fun k => SMap.wf_foldl (SMap.wf_drop k)
    | with_reducible exact fun _ _ k => absurd k List.not_mem_nil
    | intro _
    | with_reducible exact wiFn_n _
    | with_reducible apply State.access_keeps
    | with_reducible apply State.start_keeps
    | with_reducible apply State.p3Doorbell_keeps
    | with_reducible apply keeps_next
    | with_reducible apply keeps_foldl
    | with_reducible apply keeps_foldl1
    | with_reducible exact Or.inr (by assumption)
    | with_reducible exact Or.inl rfl
    | dsimp only
    | (simp only [keeps_mk_eq]; with_reducible apply keeps_mk)
    | with_reducible apply keeps_ite
    | with_reducible apply keeps_ite1
    | split)

theorem State.portCfg_keeps {W : List Part} {Q : Nat → Bool} {s0 : State} {s : State} {p : Nat} {d : Word}
    (wiFn_n : ∀ n, Q (iFn n) = true) (wpgEsw : Q pgEsw = true) (wswitch : Part.switch ∈ W)
    (hK : Keeps W Q s0 s) : Keeps W Q s0 (State.portCfg s p d) := by
  unfold State.portCfg
  repeat' (first
    | with_reducible assumption
    | with_reducible exact id
    | with_reducible exact fun k => Mem.wf_writeBytes k
    | with_reducible exact fun k => Mem.wf_erase k
    | with_reducible exact fun k => SMap.wf_set k
    | with_reducible exact fun k => SMap.wf_drop k
    | with_reducible exact fun k => SMap.wf_foldl k
    | with_reducible exact fun k => SMap.wf_foldl (SMap.wf_drop k)
    | with_reducible exact fun _ _ k => absurd k List.not_mem_nil
    | intro _
    | with_reducible exact wiFn_n _
    | with_reducible apply State.regWrite_keeps
    | with_reducible apply State.wr_keeps
    | with_reducible apply State.ethDown_keeps
    | with_reducible apply State.setEsw_keeps
    | with_reducible apply State.raise_keeps
    | with_reducible apply keeps_next
    | with_reducible apply keeps_foldl
    | with_reducible apply keeps_foldl1
    | with_reducible exact Or.inr (by assumption)
    | with_reducible exact Or.inl rfl
    | dsimp only
    | (simp only [keeps_mk_eq]; with_reducible apply keeps_mk)
    | with_reducible apply keeps_ite
    | with_reducible apply keeps_ite1
    | split)

theorem State.eswWrite_keeps {W : List Part} {Q : Nat → Bool} {s0 : State} {s : State} {off : Nat} {d : Word}
    (wiFn_n : ∀ n, Q (iFn n) = true) (wiVlan_n : ∀ n, Q (iVlan n) = true) (wpgEsw : Q pgEsw = true) (wpgPtp : Q pgPtp = true) (wmem : Part.mem ∈ W) (wswitch : Part.switch ∈ W)
    (hK : Keeps W Q s0 s) : Keeps W Q s0 (State.eswWrite s off d) := by
  unfold State.eswWrite
  repeat' (first
    | with_reducible assumption
    | with_reducible exact id
    | with_reducible exact fun k => Mem.wf_writeBytes k
    | with_reducible exact fun k => Mem.wf_erase k
    | with_reducible exact fun k => SMap.wf_set k
    | with_reducible exact fun k => SMap.wf_drop k
    | with_reducible exact fun k => SMap.wf_foldl k
    | with_reducible exact fun k => SMap.wf_foldl (SMap.wf_drop k)
    | with_reducible exact fun _ _ k => absurd k List.not_mem_nil
    | intro _
    | with_reducible exact wiFn_n _
    | with_reducible exact wiVlan_n _
    | with_reducible apply State.wr_keeps
    | with_reducible apply State.atuCmd_keeps
    | with_reducible apply State.vlanWrite_keeps
    | with_reducible apply State.regWrite_keeps
    | with_reducible apply State.p3Doorbell_keeps
    | with_reducible apply State.portCfg_keeps
    | with_reducible apply keeps_next
    | with_reducible apply keeps_foldl
    | with_reducible apply keeps_foldl1
    | with_reducible exact Or.inr (by assumption)
    | with_reducible exact Or.inl rfl
    | dsimp only
    | (simp only [keeps_mk_eq]; with_reducible apply keeps_mk)
    | with_reducible apply keeps_ite
    | with_reducible apply keeps_ite1
    | split)

end Sys2Proof.Machine
end

