-- ==== Sys2Proof/Laws/KeepsPtp.lean ====
section
/-! SUPPORT. What each function and command of Machine/Ptp.lean keeps. -/
set_option linter.all false
set_option Elab.async false
namespace Sys2Proof.Machine

theorem State.plannedStop_keeps {W : List Part} {Q : Nat → Bool} {s0 : State} {s : State} {b : Nat}
    (wiFn_n : ∀ n, Q (iFn n) = true) (wpgBnk_b : Q (pgBnk b) = true) (wpgBrg : Q pgBrg = true) (wbanks : Part.banks ∈ W) (wbridge : Part.bridge ∈ W)
    (hK : Keeps W Q s0 s) : Keeps W Q s0 (State.plannedStop s b) := by
  unfold State.plannedStop
  repeat' (first
    | with_reducible assumption
    | with_reducible exact id
    | with_reducible exact fun k => Mem.wf_writeBytes k
    | with_reducible exact fun k => Mem.wf_erase k
    | with_reducible exact fun k => SMap.wf_set k
    | with_reducible exact fun k => SMap.wf_drop k
    | with_reducible exact fun k => SMap.wf_foldl k
    | with_reducible exact fun k => SMap.wf_foldl (SMap.wf_drop k)
    | with_reducible exact fun _ _ k => absurd k List.not_mem_nil
    | intro _
    | with_reducible exact wiFn_n _
    | with_reducible apply State.setLst_keeps
    | with_reducible apply State.brgLink_keeps
    | with_reducible apply keeps_next
    | with_reducible apply keeps_foldl
    | with_reducible apply keeps_foldl1
    | with_reducible exact Or.inr (by assumption)
    | with_reducible exact Or.inl rfl
    | dsimp only
    | (simp only [keeps_mk_eq]; with_reducible apply keeps_mk)
    | with_reducible apply keeps_ite
    | with_reducible apply keeps_ite1
    | split)

theorem State.lineStep_keeps {W : List Part} {Q : Nat → Bool} {s0 : State} {s : State} {o : Int} {u : Nat}
    (wiFn_n : ∀ n, Q (iFn n) = true) (wpgBnk_n : ∀ n, Q (pgBnk n) = true) (wpgBrg : Q pgBrg = true) (wpgPair : Q pgPair = true) (wtime : Part.time ∈ W) (wbanks : Part.banks ∈ W) (wchans : Part.chans ∈ W) (wbus : Part.bus ∈ W) (wgrading : Part.grading ∈ W) (wbridge : Part.bridge ∈ W) (wpair : Part.pair ∈ W) (whost : Part.host ∈ W)
    (hK : Keeps W Q s0 s) : Keeps W Q s0 (State.lineStep s o u) := by
  unfold State.lineStep
  repeat' (first
    | with_reducible assumption
    | with_reducible exact id
    | with_reducible exact fun k => Mem.wf_writeBytes k
    | with_reducible exact fun k => Mem.wf_erase k
    | with_reducible exact fun k => SMap.wf_set k
    | with_reducible exact fun k => SMap.wf_drop k
    | with_reducible exact fun k => SMap.wf_foldl k
    | with_reducible exact fun k => SMap.wf_foldl (SMap.wf_drop k)
    | with_reducible exact fun _ _ k => absurd k List.not_mem_nil
    | intro _
    | with_reducible exact wiFn_n _
    | with_reducible exact wpgBnk_n _
    | with_reducible apply State.plannedStop_keeps
    | with_reducible apply State.plkLost_keeps
    | with_reducible apply State.renumber_keeps
    | with_reducible apply keeps_next
    | with_reducible apply keeps_foldl
    | with_reducible apply keeps_foldl1
    | with_reducible exact Or.inr (by assumption)
    | with_reducible exact Or.inl rfl
    | dsimp only
    | (simp only [keeps_mk_eq]; with_reducible apply keeps_mk)
    | with_reducible apply keeps_ite
    | with_reducible apply keeps_ite1
    | split)

theorem State.setServo_keeps {W : List Part} {Q : Nat → Bool} {s0 : State} {s : State} {n : Nat}
    (wiFn_n : ∀ n, Q (iFn n) = true) (wpgPtp : Q pgPtp = true) (wrecorder : Part.recorder ∈ W)
    (hK : Keeps W Q s0 s) : Keeps W Q s0 (State.setServo s n) := by
  unfold State.setServo
  repeat' (first
    | with_reducible assumption
    | with_reducible exact id
    | with_reducible exact fun k => Mem.wf_writeBytes k
    | with_reducible exact fun k => Mem.wf_erase k
    | with_reducible exact fun k => SMap.wf_set k
    | with_reducible exact fun k => SMap.wf_drop k
    | with_reducible exact fun k => SMap.wf_foldl k
    | with_reducible exact fun k => SMap.wf_foldl (SMap.wf_drop k)
    | with_reducible exact fun _ _ k => absurd k List.not_mem_nil
    | intro _
    | with_reducible exact wiFn_n _
    | with_reducible apply State.raise_keeps
    | with_reducible apply State.wr_keeps
    | with_reducible apply State.wrB_keeps
    | with_reducible apply keeps_next
    | with_reducible apply keeps_foldl
    | with_reducible apply keeps_foldl1
    | with_reducible exact Or.inr (by assumption)
    | with_reducible exact Or.inl rfl
    | dsimp only
    | (simp only [keeps_mk_eq]; with_reducible apply keeps_mk)
    | with_reducible apply keeps_ite
    | with_reducible apply keeps_ite1
    | split)

theorem State.setFreq_keeps {W : List Part} {Q : Nat → Bool} {s0 : State} {s : State} {f : Int}
    (wiFn_n : ∀ n, Q (iFn n) = true) (wpgPtp : Q pgPtp = true)
    (hK : Keeps W Q s0 s) : Keeps W Q s0 (State.setFreq s f) := by
  unfold State.setFreq
  repeat' (first
    | with_reducible assumption
    | with_reducible exact id
    | with_reducible exact fun k => Mem.wf_writeBytes k
    | with_reducible exact fun k => Mem.wf_erase k
    | with_reducible exact fun k => SMap.wf_set k
    | with_reducible exact fun k => SMap.wf_drop k
    | with_reducible exact fun k => SMap.wf_foldl k
    | with_reducible exact fun k => SMap.wf_foldl (SMap.wf_drop k)
    | with_reducible exact fun _ _ k => absurd k List.not_mem_nil
    | intro _
    | with_reducible exact wiFn_n _
    | with_reducible apply State.wrS_keeps
    | with_reducible apply State.raise_keeps
    | with_reducible apply State.wrB_keeps
    | with_reducible apply keeps_next
    | with_reducible apply keeps_foldl
    | with_reducible apply keeps_foldl1
    | with_reducible exact Or.inr (by assumption)
    | with_reducible exact Or.inl rfl
    | dsimp only
    | (simp only [keeps_mk_eq]; with_reducible apply keeps_mk)
    | with_reducible apply keeps_ite
    | with_reducible apply keeps_ite1
    | split)

theorem State.refuse_keeps {W : List Part} {Q : Nat → Bool} {s0 : State} {s : State} {o : Int}
    (wiCode_48 : Q (iCode 48) = true) (wiFn_n : ∀ n, Q (iFn n) = true) (wpgEvr : Q pgEvr = true) (wpgPtp : Q pgPtp = true) (wrecorder : Part.recorder ∈ W)
    (hK : Keeps W Q s0 s) : Keeps W Q s0 (State.refuse s o) := by
  unfold State.refuse
  repeat' (first
    | with_reducible assumption
    | with_reducible exact id
    | with_reducible exact fun k => Mem.wf_writeBytes k
    | with_reducible exact fun k => Mem.wf_erase k
    | with_reducible exact fun k => SMap.wf_set k
    | with_reducible exact fun k => SMap.wf_drop k
    | with_reducible exact fun k => SMap.wf_foldl k
    | with_reducible exact fun k => SMap.wf_foldl (SMap.wf_drop k)
    | with_reducible exact fun _ _ k => absurd k List.not_mem_nil
    | intro _
    | with_reducible exact wiFn_n _
    | with_reducible apply State.bump_keeps
    | with_reducible apply State.wr2_keeps
    | with_reducible apply State.raise_keeps
    | with_reducible apply State.wr_keeps
    | with_reducible apply State.report_keeps
    | with_reducible apply keeps_next
    | with_reducible apply keeps_foldl
    | with_reducible apply keeps_foldl1
    | with_reducible exact Or.inr (by assumption)
    | with_reducible exact Or.inl rfl
    | dsimp only
    | (simp only [keeps_mk_eq]; with_reducible apply keeps_mk)
    | with_reducible apply keeps_ite
    | with_reducible apply keeps_ite1
    | split)

theorem State.lockCount_keeps {W : List Part} {Q : Nat → Bool} {s0 : State} {s : State} {o : Int}
    (wiFn_n : ∀ n, Q (iFn n) = true) (wpgPtp : Q pgPtp = true) (wrecorder : Part.recorder ∈ W) (wswitch : Part.switch ∈ W)
    (hK : Keeps W Q s0 s) : Keeps W Q s0 (State.lockCount s o) := by
  unfold State.lockCount
  repeat' (first
    | with_reducible assumption
    | with_reducible exact id
    | with_reducible exact fun k => Mem.wf_writeBytes k
    | with_reducible exact fun k => Mem.wf_erase k
    | with_reducible exact fun k => SMap.wf_set k
    | with_reducible exact fun k => SMap.wf_drop k
    | with_reducible exact fun k => SMap.wf_foldl k
    | with_reducible exact fun k => SMap.wf_foldl (SMap.wf_drop k)
    | with_reducible exact fun _ _ k => absurd k List.not_mem_nil
    | intro _
    | with_reducible exact wiFn_n _
    | with_reducible apply State.setEsw_keeps
    | with_reducible apply State.wr_keeps
    | with_reducible apply State.setServo_keeps
    | with_reducible apply keeps_next
    | with_reducible apply keeps_foldl
    | with_reducible apply keeps_foldl1
    | with_reducible exact Or.inr (by assumption)
    | with_reducible exact Or.inl rfl
    | dsimp only
    | (simp only [keeps_mk_eq]; with_reducible apply keeps_mk)
    | with_reducible apply keeps_ite
    | with_reducible apply keeps_ite1
    | split)

theorem State.servoPi_keeps {W : List Part} {Q : Nat → Bool} {s0 : State} {s : State} {o : Int} {dt : Nat}
    (wiFn_n : ∀ n, Q (iFn n) = true) (wpgPtp : Q pgPtp = true) (wrecorder : Part.recorder ∈ W) (wswitch : Part.switch ∈ W)
    (hK : Keeps W Q s0 s) : Keeps W Q s0 (State.servoPi s o dt) := by
  unfold State.servoPi
  repeat' (first
    | with_reducible assumption
    | with_reducible exact id
    | with_reducible exact fun k => Mem.wf_writeBytes k
    | with_reducible exact fun k => Mem.wf_erase k
    | with_reducible exact fun k => SMap.wf_set k
    | with_reducible exact fun k => SMap.wf_drop k
    | with_reducible exact fun k => SMap.wf_foldl k
    | with_reducible exact fun k => SMap.wf_foldl (SMap.wf_drop k)
    | with_reducible exact fun _ _ k => absurd k List.not_mem_nil
    | intro _
    | with_reducible exact wiFn_n _
    | with_reducible apply State.roundFree_keeps
    | (refine State.roundFree_keeps_eq ?_ (by assumption))
    | with_reducible apply State.wrS_keeps
    | with_reducible apply State.setFreq_keeps
    | with_reducible apply State.wr_keeps
    | with_reducible apply State.setServo_keeps
    | with_reducible apply State.lockCount_keeps
    | with_reducible apply State.freeNext_keeps
    | with_reducible apply keeps_next
    | with_reducible apply keeps_foldl
    | with_reducible apply keeps_foldl1
    | with_reducible exact Or.inr (by assumption)
    | with_reducible exact Or.inl rfl
    | dsimp only
    | (simp only [keeps_mk_eq]; with_reducible apply keeps_mk)
    | with_reducible apply keeps_ite
    | with_reducible apply keeps_ite1
    | split)

theorem State.servoOffset_keeps {W : List Part} {Q : Nat → Bool} {s0 : State} {s : State} {o : Int} {dt : Nat} {u : Nat}
    (wiCode_48 : Q (iCode 48) = true) (wiFn_n : ∀ n, Q (iFn n) = true) (wpgBnk_n : ∀ n, Q (pgBnk n) = true) (wpgBrg : Q pgBrg = true) (wpgEvr : Q pgEvr = true) (wpgPair : Q pgPair = true) (wpgPtp : Q pgPtp = true) (wrecorder : Part.recorder ∈ W) (wtime : Part.time ∈ W) (wbanks : Part.banks ∈ W) (wchans : Part.chans ∈ W) (wbus : Part.bus ∈ W) (wgrading : Part.grading ∈ W) (wbridge : Part.bridge ∈ W) (wpair : Part.pair ∈ W) (whost : Part.host ∈ W) (wswitch : Part.switch ∈ W)
    (hK : Keeps W Q s0 s) : Keeps W Q s0 (State.servoOffset s o dt u) := by
  unfold State.servoOffset
  repeat' (first
    | with_reducible assumption
    | with_reducible exact id
    | with_reducible exact fun k => Mem.wf_writeBytes k
    | with_reducible exact fun k => Mem.wf_erase k
    | with_reducible exact fun k => SMap.wf_set k
    | with_reducible exact fun k => SMap.wf_drop k
    | with_reducible exact fun k => SMap.wf_foldl k
    | with_reducible exact fun k => SMap.wf_foldl (SMap.wf_drop k)
    | with_reducible exact fun _ _ k => absurd k List.not_mem_nil
    | intro _
    | with_reducible exact wiFn_n _
    | with_reducible exact wpgBnk_n _
    | with_reducible apply State.setEsw_keeps
    | with_reducible apply State.setServo_keeps
    | with_reducible apply State.wr_keeps
    | with_reducible apply State.lineStep_keeps
    | with_reducible apply State.refuse_keeps
    | with_reducible apply State.servoPi_keeps
    | with_reducible apply State.roundFree_keeps
    | (refine State.roundFree_keeps_eq ?_ (by assumption))
    | with_reducible apply State.wrS_keeps
    | with_reducible apply keeps_next
    | with_reducible apply keeps_foldl
    | with_reducible apply keeps_foldl1
    | with_reducible exact Or.inr (by assumption)
    | with_reducible exact Or.inl rfl
    | dsimp only
    | (simp only [keeps_mk_eq]; with_reducible apply keeps_mk)
    | with_reducible apply keeps_ite
    | with_reducible apply keeps_ite1
    | split)

theorem execPtpOffsetCommit_keeps {W : List Part} {Q : Nat → Bool} {s0 : State} {r : Req} {d : Word} {dt : Nat} {u : Nat} {s : State}
    (w50 : Q 50 = true) (wiCode_48 : Q (iCode 48) = true) (wiCode_8 : Q (iCode 8) = true) (wiFn_n : ∀ n, Q (iFn n) = true) (wpgBnk_n : ∀ n, Q (pgBnk n) = true) (wpgBrg : Q pgBrg = true) (wpgEvr : Q pgEvr = true) (wpgPair : Q pgPair = true) (wpgPtp : Q pgPtp = true) (wpgSys : Q pgSys = true) (wrecorder : Part.recorder ∈ W) (wtime : Part.time ∈ W) (wbanks : Part.banks ∈ W) (wchans : Part.chans ∈ W) (wbus : Part.bus ∈ W) (wgrading : Part.grading ∈ W) (wbridge : Part.bridge ∈ W) (wpair : Part.pair ∈ W) (whost : Part.host ∈ W) (wswitch : Part.switch ∈ W) (wfield : Part.field ∈ W)
    (hK : Keeps W Q s0 s) : Res.Keeps W Q s0 (execPtpOffsetCommit r d dt u s) := by
  unfold execPtpOffsetCommit
  repeat' (first
    | with_reducible assumption
    | with_reducible exact id
    | with_reducible exact fun k => Mem.wf_writeBytes k
    | with_reducible exact fun k => Mem.wf_erase k
    | with_reducible exact fun k => SMap.wf_set k
    | with_reducible exact fun k => SMap.wf_drop k
    | with_reducible exact fun k => SMap.wf_foldl k
    | with_reducible exact fun k => SMap.wf_foldl (SMap.wf_drop k)
    | with_reducible exact fun _ _ k => absurd k List.not_mem_nil
    | intro _
    | with_reducible exact wiFn_n _
    | with_reducible exact wpgBnk_n _
    | with_reducible apply State.access_keeps
    | with_reducible apply State.start_keeps
    | with_reducible apply State.wr_keeps
    | with_reducible apply State.servoOffset_keeps
    | with_reducible apply keeps_next
    | with_reducible apply keeps_foldl
    | with_reducible apply keeps_foldl1
    | with_reducible exact Or.inr (by assumption)
    | with_reducible exact Or.inl rfl
    | dsimp only
    | (simp only [keeps_mk_eq]; with_reducible apply keeps_mk)
    | with_reducible apply keeps_ite
    | with_reducible apply keeps_ite1
    | split)

theorem State.holdServo_keeps {W : List Part} {Q : Nat → Bool} {s0 : State} {s : State}
    (wiFn_n : ∀ n, Q (iFn n) = true) (wpgPtp : Q pgPtp = true) (wrecorder : Part.recorder ∈ W)
    (hK : Keeps W Q s0 s) : Keeps W Q s0 (State.holdServo s) := by
  unfold State.holdServo
  repeat' (first
    | with_reducible assumption
    | with_reducible exact id
    | with_reducible exact fun k => Mem.wf_writeBytes k
    | with_reducible exact fun k => Mem.wf_erase k
    | with_reducible exact fun k => SMap.wf_set k
    | with_reducible exact fun k => SMap.wf_drop k
    | with_reducible exact fun k => SMap.wf_foldl k
    | with_reducible exact fun k => SMap.wf_foldl (SMap.wf_drop k)
    | with_reducible exact fun _ _ k => absurd k List.not_mem_nil
    | intro _
    | with_reducible exact wiFn_n _
    | with_reducible apply State.wrS_keeps
    | with_reducible apply State.setServo_keeps
    | with_reducible apply keeps_next
    | with_reducible apply keeps_foldl
    | with_reducible apply keeps_foldl1
    | with_reducible exact Or.inr (by assumption)
    | with_reducible exact Or.inl rfl
    | dsimp only
    | (simp only [keeps_mk_eq]; with_reducible apply keeps_mk)
    | with_reducible apply keeps_ite
    | with_reducible apply keeps_ite1
    | split)

theorem State.ptpResult_keeps {W : List Part} {Q : Nat → Bool} {s0 : State} {s : State} {v : Nat}
    (wiFn_n : ∀ n, Q (iFn n) = true) (wpgPtp : Q pgPtp = true)
    (hK : Keeps W Q s0 s) : Keeps W Q s0 (State.ptpResult s v) := by
  unfold State.ptpResult
  repeat' (first
    | with_reducible assumption
    | with_reducible exact id
    | with_reducible exact fun k => Mem.wf_writeBytes k
    | with_reducible exact fun k => Mem.wf_erase k
    | with_reducible exact fun k => SMap.wf_set k
    | with_reducible exact fun k => SMap.wf_drop k
    | with_reducible exact fun k => SMap.wf_foldl k
    | with_reducible exact fun k => SMap.wf_foldl (SMap.wf_drop k)
    | with_reducible exact fun _ _ k => absurd k List.not_mem_nil
    | intro _
    | with_reducible exact wiFn_n _
    | with_reducible apply State.raise_keeps
    | with_reducible apply State.wr_keeps
    | with_reducible apply keeps_next
    | with_reducible apply keeps_foldl
    | with_reducible apply keeps_foldl1
    | with_reducible exact Or.inr (by assumption)
    | with_reducible exact Or.inl rfl
    | dsimp only
    | (simp only [keeps_mk_eq]; with_reducible apply keeps_mk)
    | with_reducible apply keeps_ite
    | with_reducible apply keeps_ite1
    | split)

theorem State.ptpCmd_keeps {W : List Part} {Q : Nat → Bool} {s0 : State} {s : State} {d : Word} {u : Nat}
    (wiFn_n : ∀ n, Q (iFn n) = true) (wpgBnk_n : ∀ n, Q (pgBnk n) = true) (wpgBrg : Q pgBrg = true) (wpgPair : Q pgPair = true) (wpgPtp : Q pgPtp = true) (wrecorder : Part.recorder ∈ W) (wtime : Part.time ∈ W) (wbanks : Part.banks ∈ W) (wchans : Part.chans ∈ W) (wbus : Part.bus ∈ W) (wgrading : Part.grading ∈ W) (wbridge : Part.bridge ∈ W) (wpair : Part.pair ∈ W) (whost : Part.host ∈ W)
    (hK : Keeps W Q s0 s) : Keeps W Q s0 (State.ptpCmd s d u) := by
  unfold State.ptpCmd
  repeat' (first
    | with_reducible assumption
    | with_reducible exact id
    | with_reducible exact fun k => Mem.wf_writeBytes k
    | with_reducible exact fun k => Mem.wf_erase k
    | with_reducible exact fun k => SMap.wf_set k
    | with_reducible exact fun k => SMap.wf_drop k
    | with_reducible exact fun k => SMap.wf_foldl k
    | with_reducible exact fun k => SMap.wf_foldl (SMap.wf_drop k)
    | with_reducible exact fun _ _ k => absurd k List.not_mem_nil
    | intro _
    | with_reducible exact wiFn_n _
    | with_reducible exact wpgBnk_n _
    | with_reducible apply State.ptpResult_keeps
    | with_reducible apply State.setServo_keeps
    | with_reducible apply State.wr_keeps
    | with_reducible apply State.lineStep_keeps
    | with_reducible apply State.holdServo_keeps
    | with_reducible apply State.freeNext_keeps
    | with_reducible apply keeps_next
    | with_reducible apply keeps_foldl
    | with_reducible apply keeps_foldl1
    | with_reducible exact Or.inr (by assumption)
    | with_reducible exact Or.inl rfl
    | dsimp only
    | (simp only [keeps_mk_eq]; with_reducible apply keeps_mk)
    | with_reducible apply keeps_ite
    | with_reducible apply keeps_ite1
    | split)

theorem execPtpSlew_keeps {W : List Part} {Q : Nat → Bool} {s0 : State} {r : Req} {d : Word} {s : State}
    (w50 : Q 50 = true) (wiCode_8 : Q (iCode 8) = true) (wiFn_n : ∀ n, Q (iFn n) = true) (wpgBnk_n : ∀ n, Q (pgBnk n) = true) (wpgBrg : Q pgBrg = true) (wpgEvr : Q pgEvr = true) (wpgPair : Q pgPair = true) (wpgPtp : Q pgPtp = true) (wpgSys : Q pgSys = true) (wrecorder : Part.recorder ∈ W) (wtime : Part.time ∈ W) (wbanks : Part.banks ∈ W) (wchans : Part.chans ∈ W) (wbus : Part.bus ∈ W) (wgrading : Part.grading ∈ W) (wbridge : Part.bridge ∈ W) (wpair : Part.pair ∈ W) (whost : Part.host ∈ W) (wfield : Part.field ∈ W)
    (hK : Keeps W Q s0 s) : Res.Keeps W Q s0 (execPtpSlew r d s) := by
  unfold execPtpSlew
  repeat' (first
    | with_reducible assumption
    | with_reducible exact id
    | with_reducible exact fun k => Mem.wf_writeBytes k
    | with_reducible exact fun k => Mem.wf_erase k
    | with_reducible exact fun k => SMap.wf_set k
    | with_reducible exact fun k => SMap.wf_drop k
    | with_reducible exact fun k => SMap.wf_foldl k
    | with_reducible exact fun k => SMap.wf_foldl (SMap.wf_drop k)
    | with_reducible exact fun _ _ k => absurd k List.not_mem_nil
    | intro _
    | with_reducible exact wiFn_n _
    | with_reducible exact wpgBnk_n _
    | with_reducible apply State.access_keeps
    | with_reducible apply State.start_keeps
    | with_reducible apply State.ptpCmd_keeps
    | with_reducible apply keeps_next
    | with_reducible apply keeps_foldl
    | with_reducible apply keeps_foldl1
    | with_reducible exact Or.inr (by assumption)
    | with_reducible exact Or.inl rfl
    | dsimp only
    | (simp only [keeps_mk_eq]; with_reducible apply keeps_mk)
    | with_reducible apply keeps_ite
    | with_reducible apply keeps_ite1
    | split)

theorem execPtpStep_keeps {W : List Part} {Q : Nat → Bool} {s0 : State} {r : Req} {d : Word} {u : Nat} {s : State}
    (w50 : Q 50 = true) (wiCode_8 : Q (iCode 8) = true) (wiFn_n : ∀ n, Q (iFn n) = true) (wpgBnk_n : ∀ n, Q (pgBnk n) = true) (wpgBrg : Q pgBrg = true) (wpgEvr : Q pgEvr = true) (wpgPair : Q pgPair = true) (wpgPtp : Q pgPtp = true) (wpgSys : Q pgSys = true) (wrecorder : Part.recorder ∈ W) (wtime : Part.time ∈ W) (wbanks : Part.banks ∈ W) (wchans : Part.chans ∈ W) (wbus : Part.bus ∈ W) (wgrading : Part.grading ∈ W) (wbridge : Part.bridge ∈ W) (wpair : Part.pair ∈ W) (whost : Part.host ∈ W) (wfield : Part.field ∈ W)
    (hK : Keeps W Q s0 s) : Res.Keeps W Q s0 (execPtpStep r d u s) := by
  unfold execPtpStep
  repeat' (first
    | with_reducible assumption
    | with_reducible exact id
    | with_reducible exact fun k => Mem.wf_writeBytes k
    | with_reducible exact fun k => Mem.wf_erase k
    | with_reducible exact fun k => SMap.wf_set k
    | with_reducible exact fun k => SMap.wf_drop k
    | with_reducible exact fun k => SMap.wf_foldl k
    | with_reducible exact fun k => SMap.wf_foldl (SMap.wf_drop k)
    | with_reducible exact fun _ _ k => absurd k List.not_mem_nil
    | intro _
    | with_reducible exact wiFn_n _
    | with_reducible exact wpgBnk_n _
    | with_reducible apply State.access_keeps
    | with_reducible apply State.start_keeps
    | with_reducible apply State.ptpCmd_keeps
    | with_reducible apply keeps_next
    | with_reducible apply keeps_foldl
    | with_reducible apply keeps_foldl1
    | with_reducible exact Or.inr (by assumption)
    | with_reducible exact Or.inl rfl
    | dsimp only
    | (simp only [keeps_mk_eq]; with_reducible apply keeps_mk)
    | with_reducible apply keeps_ite
    | with_reducible apply keeps_ite1
    | split)

theorem execPtpHoldover_keeps {W : List Part} {Q : Nat → Bool} {s0 : State} {r : Req} {d : Word} {s : State}
    (w50 : Q 50 = true) (wiCode_8 : Q (iCode 8) = true) (wiFn_n : ∀ n, Q (iFn n) = true) (wpgBnk_n : ∀ n, Q (pgBnk n) = true) (wpgBrg : Q pgBrg = true) (wpgEvr : Q pgEvr = true) (wpgPair : Q pgPair = true) (wpgPtp : Q pgPtp = true) (wpgSys : Q pgSys = true) (wrecorder : Part.recorder ∈ W) (wtime : Part.time ∈ W) (wbanks : Part.banks ∈ W) (wchans : Part.chans ∈ W) (wbus : Part.bus ∈ W) (wgrading : Part.grading ∈ W) (wbridge : Part.bridge ∈ W) (wpair : Part.pair ∈ W) (whost : Part.host ∈ W) (wfield : Part.field ∈ W)
    (hK : Keeps W Q s0 s) : Res.Keeps W Q s0 (execPtpHoldover r d s) := by
  unfold execPtpHoldover
  repeat' (first
    | with_reducible assumption
    | with_reducible exact id
    | with_reducible exact fun k => Mem.wf_writeBytes k
    | with_reducible exact fun k => Mem.wf_erase k
    | with_reducible exact fun k => SMap.wf_set k
    | with_reducible exact fun k => SMap.wf_drop k
    | with_reducible exact fun k => SMap.wf_foldl k
    | with_reducible exact fun k => SMap.wf_foldl (SMap.wf_drop k)
    | with_reducible exact fun _ _ k => absurd k List.not_mem_nil
    | intro _
    | with_reducible exact wiFn_n _
    | with_reducible exact wpgBnk_n _
    | with_reducible apply State.access_keeps
    | with_reducible apply State.start_keeps
    | with_reducible apply State.ptpCmd_keeps
    | with_reducible apply keeps_next
    | with_reducible apply keeps_foldl
    | with_reducible apply keeps_foldl1
    | with_reducible exact Or.inr (by assumption)
    | with_reducible exact Or.inl rfl
    | dsimp only
    | (simp only [keeps_mk_eq]; with_reducible apply keeps_mk)
    | with_reducible apply keeps_ite
    | with_reducible apply keeps_ite1
    | split)

theorem execPtpCancel_keeps {W : List Part} {Q : Nat → Bool} {s0 : State} {r : Req} {d : Word} {s : State}
    (w50 : Q 50 = true) (wiCode_8 : Q (iCode 8) = true) (wiFn_n : ∀ n, Q (iFn n) = true) (wpgBnk_n : ∀ n, Q (pgBnk n) = true) (wpgBrg : Q pgBrg = true) (wpgEvr : Q pgEvr = true) (wpgPair : Q pgPair = true) (wpgPtp : Q pgPtp = true) (wpgSys : Q pgSys = true) (wrecorder : Part.recorder ∈ W) (wtime : Part.time ∈ W) (wbanks : Part.banks ∈ W) (wchans : Part.chans ∈ W) (wbus : Part.bus ∈ W) (wgrading : Part.grading ∈ W) (wbridge : Part.bridge ∈ W) (wpair : Part.pair ∈ W) (whost : Part.host ∈ W) (wfield : Part.field ∈ W)
    (hK : Keeps W Q s0 s) : Res.Keeps W Q s0 (execPtpCancel r d s) := by
  unfold execPtpCancel
  repeat' (first
    | with_reducible assumption
    | with_reducible exact id
    | with_reducible exact fun k => Mem.wf_writeBytes k
    | with_reducible exact fun k => Mem.wf_erase k
    | with_reducible exact fun k => SMap.wf_set k
    | with_reducible exact fun k => SMap.wf_drop k
    | with_reducible exact fun k => SMap.wf_foldl k
    | with_reducible exact fun k => SMap.wf_foldl (SMap.wf_drop k)
    | with_reducible exact fun _ _ k => absurd k List.not_mem_nil
    | intro _
    | with_reducible exact wiFn_n _
    | with_reducible exact wpgBnk_n _
    | with_reducible apply State.access_keeps
    | with_reducible apply State.start_keeps
    | with_reducible apply State.ptpCmd_keeps
    | with_reducible apply keeps_next
    | with_reducible apply keeps_foldl
    | with_reducible apply keeps_foldl1
    | with_reducible exact Or.inr (by assumption)
    | with_reducible exact Or.inl rfl
    | dsimp only
    | (simp only [keeps_mk_eq]; with_reducible apply keeps_mk)
    | with_reducible apply keeps_ite
    | with_reducible apply keeps_ite1
    | split)

theorem execPtpHoldoverTimeout_keeps {W : List Part} {Q : Nat → Bool} {s0 : State} {s : State}
    (wiFn_n : ∀ n, Q (iFn n) = true) (wpgPtp : Q pgPtp = true) (wrecorder : Part.recorder ∈ W)
    (hK : Keeps W Q s0 s) : Res.Keeps W Q s0 (execPtpHoldoverTimeout s) := by
  unfold execPtpHoldoverTimeout
  repeat' (first
    | with_reducible assumption
    | with_reducible exact id
    | with_reducible exact fun k => Mem.wf_writeBytes k
    | with_reducible exact fun k => Mem.wf_erase k
    | with_reducible exact fun k => SMap.wf_set k
    | with_reducible exact fun k => SMap.wf_drop k
    | with_reducible exact fun k => SMap.wf_foldl k
    | with_reducible exact fun k => SMap.wf_foldl (SMap.wf_drop k)
    | with_reducible exact fun _ _ k => absurd k List.not_mem_nil
    | intro _
    | with_reducible exact wiFn_n _
    | with_reducible apply State.start_keeps
    | with_reducible apply State.holdServo_keeps
    | with_reducible apply keeps_next
    | with_reducible apply keeps_foldl
    | with_reducible apply keeps_foldl1
    | with_reducible exact Or.inr (by assumption)
    | with_reducible exact Or.inl rfl
    | dsimp only
    | (simp only [keeps_mk_eq]; with_reducible apply keeps_mk)
    | with_reducible apply keeps_ite
    | with_reducible apply keeps_ite1
    | split)

theorem execPtpTxTimestamp_keeps {W : List Part} {Q : Nat → Bool} {s0 : State} {p : Fin 3} {cap : Nat} {s : State}
    (wiFn_n : ∀ n, Q (iFn n) = true) (wpgPtp : Q pgPtp = true) (wswitch : Part.switch ∈ W)
    (hK : Keeps W Q s0 s) : Res.Keeps W Q s0 (execPtpTxTimestamp p cap s) := by
  unfold execPtpTxTimestamp
  repeat' (first
    | with_reducible assumption
    | with_reducible exact id
    | with_reducible exact fun k => Mem.wf_writeBytes k
    | with_reducible exact fun k => Mem.wf_erase k
    | with_reducible exact fun k => SMap.wf_set k
    | with_reducible exact fun k => SMap.wf_drop k
    | with_reducible exact fun k => SMap.wf_foldl k
    | with_reducible exact fun k => SMap.wf_foldl (SMap.wf_drop k)
    | with_reducible exact fun _ _ k => absurd k List.not_mem_nil
    | intro _
    | with_reducible exact wiFn_n _
    | with_reducible apply State.start_keeps
    | with_reducible apply State.setEsw_keeps
    | with_reducible apply State.raise_keeps
    | with_reducible apply State.bump_keeps
    | with_reducible apply keeps_next
    | with_reducible apply keeps_foldl
    | with_reducible apply keeps_foldl1
    | with_reducible exact Or.inr (by assumption)
    | with_reducible exact Or.inl rfl
    | dsimp only
    | (simp only [keeps_mk_eq]; with_reducible apply keeps_mk)
    | with_reducible apply keeps_ite
    | with_reducible apply keeps_ite1
    | split)

theorem State.tsqPop_keeps {W : List Part} {Q : Nat → Bool} {s0 : State} {s : State} {r : Req} {p : Nat}
    (wiReq_n : ∀ n, Q (iReq n) = true) (wswitch : Part.switch ∈ W)
    (hK : Keeps W Q s0 s) : Keeps W Q s0 (State.tsqPop s r p) := by
  unfold State.tsqPop
  repeat' (first
    | with_reducible assumption
    | with_reducible exact id
    | with_reducible exact fun k => Mem.wf_writeBytes k
    | with_reducible exact fun k => Mem.wf_erase k
    | with_reducible exact fun k => SMap.wf_set k
    | with_reducible exact fun k => SMap.wf_drop k
    | with_reducible exact fun k => SMap.wf_foldl k
    | with_reducible exact fun k => SMap.wf_foldl (SMap.wf_drop k)
    | with_reducible exact fun _ _ k => absurd k List.not_mem_nil
    | intro _
    | with_reducible exact wiReq_n _
    | with_reducible apply State.answer_keeps
    | with_reducible apply State.setEsw_keeps
    | with_reducible apply State.wr_keeps
    | with_reducible apply keeps_next
    | with_reducible apply keeps_foldl
    | with_reducible apply keeps_foldl1
    | with_reducible exact Or.inr (by assumption)
    | with_reducible exact Or.inl rfl
    | dsimp only
    | (simp only [keeps_mk_eq]; with_reducible apply keeps_mk)
    | with_reducible apply keeps_ite
    | with_reducible apply keeps_ite1
    | split)

theorem execPtpTsqPop_keeps {W : List Part} {Q : Nat → Bool} {s0 : State} {r : Req} {p : Fin 3} {s : State}
    (w50 : Q 50 = true) (wiCode_8 : Q (iCode 8) = true) (wiFn_n : ∀ n, Q (iFn n) = true) (wiReq_n : ∀ n, Q (iReq n) = true) (wpgEvr : Q pgEvr = true) (wpgSys : Q pgSys = true) (wrecorder : Part.recorder ∈ W) (wswitch : Part.switch ∈ W) (wfield : Part.field ∈ W)
    (hK : Keeps W Q s0 s) : Res.Keeps W Q s0 (execPtpTsqPop r p s) := by
  unfold execPtpTsqPop
  repeat' (first
    | with_reducible assumption
    | with_reducible exact id
    | with_reducible exact fun k => Mem.wf_writeBytes k
    | with_reducible exact fun k => Mem.wf_erase k
    | with_reducible exact fun k => SMap.wf_set k
    | with_reducible exact fun k => SMap.wf_drop k
    | with_reducible exact fun k => SMap.wf_foldl k
    | with_reducible exact fun k => SMap.wf_foldl (SMap.wf_drop k)
    | with_reducible exact fun _ _ k => absurd k List.not_mem_nil
    | intro _
    | with_reducible exact wiFn_n _
    | with_reducible exact wiReq_n _
    | with_reducible apply State.accessRd_keeps
    | with_reducible apply State.start_keeps
    | with_reducible apply State.tsqPop_keeps
    | with_reducible apply keeps_next
    | with_reducible apply keeps_foldl
    | with_reducible apply keeps_foldl1
    | with_reducible exact Or.inr (by assumption)
    | with_reducible exact Or.inl rfl
    | dsimp only
    | (simp only [keeps_mk_eq]; with_reducible apply keeps_mk)
    | with_reducible apply keeps_ite
    | with_reducible apply keeps_ite1
    | split)

theorem State.ptpTake_keeps {W : List Part} {Q : Nat → Bool} {s0 : State} {s : State} {d : Nat × Nat} {n : Nat}
    (wiFn_n : ∀ n, Q (iFn n) = true) (wpgPtp : Q pgPtp = true) (wmem : Part.mem ∈ W) (wswitch : Part.switch ∈ W)
    (hK : Keeps W Q s0 s) : Keeps W Q s0 (State.ptpTake s d n) := by
  unfold State.ptpTake
  repeat' (first
    | with_reducible assumption
    | with_reducible exact id
    | with_reducible exact fun k => Mem.wf_writeBytes k
    | with_reducible exact fun k => Mem.wf_erase k
    | with_reducible exact fun k => SMap.wf_set k
    | with_reducible exact fun k => SMap.wf_drop k
    | with_reducible exact fun k => SMap.wf_foldl k
    | with_reducible exact fun k => SMap.wf_foldl (SMap.wf_drop k)
    | with_reducible exact fun _ _ k => absurd k List.not_mem_nil
    | intro _
    | with_reducible exact wiFn_n _
    | with_reducible apply State.setEsw_keeps
    | with_reducible apply State.raise_keeps
    | with_reducible apply State.store_keeps
    | with_reducible apply keeps_next
    | with_reducible apply keeps_foldl
    | with_reducible apply keeps_foldl1
    | with_reducible exact Or.inr (by assumption)
    | with_reducible exact Or.inl rfl
    | dsimp only
    | (simp only [keeps_mk_eq]; with_reducible apply keeps_mk)
    | with_reducible apply keeps_ite
    | with_reducible apply keeps_ite1
    | split)

theorem State.ptpScan_keeps {W : List Part} {Q : Nat → Bool} {s0 : State} {s : State} {n : Nat} {x1 : Nat}
    (wiFn_n : ∀ n, Q (iFn n) = true) (wpgPtp : Q pgPtp = true) (wmem : Part.mem ∈ W) (wswitch : Part.switch ∈ W)
    (hK : Keeps W Q s0 s) : Keeps W Q s0 (State.ptpScan s n x1) := by
  induction x1 generalizing s n with
  | zero =>
    unfold State.ptpScan
    repeat' (first
      | with_reducible assumption
      | with_reducible exact id
      | with_reducible exact fun k => Mem.wf_writeBytes k
      | with_reducible exact fun k => Mem.wf_erase k
      | with_reducible exact fun k => SMap.wf_set k
      | with_reducible exact fun k => SMap.wf_drop k
      | with_reducible exact fun k => SMap.wf_foldl k
      | with_reducible exact fun k => SMap.wf_foldl (SMap.wf_drop k)
      | with_reducible exact fun _ _ k => absurd k List.not_mem_nil
      | intro _
      | with_reducible exact wiFn_n _
      | with_reducible apply State.ptpTake_keeps
      | with_reducible apply keeps_next
      | with_reducible apply keeps_foldl
      | with_reducible apply keeps_foldl1
      | with_reducible exact Or.inr (by assumption)
      | with_reducible exact Or.inl rfl
      | dsimp only
      | (simp only [keeps_mk_eq]; with_reducible apply keeps_mk)
      | with_reducible apply keeps_ite
      | with_reducible apply keeps_ite1
      | split)
  | succ n ih =>
    unfold State.ptpScan
    repeat' (first
      | with_reducible assumption
      | with_reducible apply ih
      | with_reducible exact id
      | with_reducible exact fun k => Mem.wf_writeBytes k
      | with_reducible exact fun k => Mem.wf_erase k
      | with_reducible exact fun k => SMap.wf_set k
      | with_reducible exact fun k => SMap.wf_drop k
      | with_reducible exact fun k => SMap.wf_foldl k
      | with_reducible exact fun k => SMap.wf_foldl (SMap.wf_drop k)
      | with_reducible exact fun _ _ k => absurd k List.not_mem_nil
      | intro _
      | with_reducible exact wiFn_n _
      | with_reducible apply State.ptpTake_keeps
      | with_reducible apply keeps_next
      | with_reducible apply keeps_foldl
      | with_reducible apply keeps_foldl1
      | with_reducible exact Or.inr (by assumption)
      | with_reducible exact Or.inl rfl
      | dsimp only
      | (simp only [keeps_mk_eq]; with_reducible apply keeps_mk)
      | with_reducible apply keeps_ite
      | with_reducible apply keeps_ite1
      | split)

theorem State.ptpDoorbell_keeps {W : List Part} {Q : Nat → Bool} {s0 : State} {s : State} {d : Word}
    (wiFn_n : ∀ n, Q (iFn n) = true) (wpgPtp : Q pgPtp = true) (wmem : Part.mem ∈ W) (wswitch : Part.switch ∈ W)
    (hK : Keeps W Q s0 s) : Keeps W Q s0 (State.ptpDoorbell s d) := by
  unfold State.ptpDoorbell
  repeat' (first
    | with_reducible assumption
    | with_reducible exact id
    | with_reducible exact fun k => Mem.wf_writeBytes k
    | with_reducible exact fun k => Mem.wf_erase k
    | with_reducible exact fun k => SMap.wf_set k
    | with_reducible exact fun k => SMap.wf_drop k
    | with_reducible exact fun k => SMap.wf_foldl k
    | with_reducible exact fun k => SMap.wf_foldl (SMap.wf_drop k)
    | with_reducible exact fun _ _ k => absurd k List.not_mem_nil
    | intro _
    | with_reducible exact wiFn_n _
    | with_reducible apply State.ptpScan_keeps
    | with_reducible apply keeps_next
    | with_reducible apply keeps_foldl
    | with_reducible apply keeps_foldl1
    | with_reducible exact Or.inr (by assumption)
    | with_reducible exact Or.inl rfl
    | dsimp only
    | (simp only [keeps_mk_eq]; with_reducible apply keeps_mk)
    | with_reducible apply keeps_ite
    | with_reducible apply keeps_ite1
    | split)

theorem execPtpTxDoorbell_keeps {W : List Part} {Q : Nat → Bool} {s0 : State} {r : Req} {d : Word} {s : State}
    (w50 : Q 50 = true) (wiCode_8 : Q (iCode 8) = true) (wiFn_n : ∀ n, Q (iFn n) = true) (wpgEvr : Q pgEvr = true) (wpgPtp : Q pgPtp = true) (wpgSys : Q pgSys = true) (wmem : Part.mem ∈ W) (wrecorder : Part.recorder ∈ W) (wswitch : Part.switch ∈ W) (wfield : Part.field ∈ W)
    (hK : Keeps W Q s0 s) : Res.Keeps W Q s0 (execPtpTxDoorbell r d s) := by
  unfold execPtpTxDoorbell
  repeat' (first
    | with_reducible assumption
    | with_reducible exact id
    | with_reducible exact fun k => Mem.wf_writeBytes k
    | with_reducible exact fun k => Mem.wf_erase k
    | with_reducible exact fun k => SMap.wf_set k
    | with_reducible exact fun k => SMap.wf_drop k
    | with_reducible exact fun k => SMap.wf_foldl k
    | with_reducible exact fun k => SMap.wf_foldl (SMap.wf_drop k)
    | with_reducible exact fun _ _ k => absurd k List.not_mem_nil
    | intro _
    | with_reducible exact wiFn_n _
    | with_reducible apply State.access_keeps
    | with_reducible apply State.start_keeps
    | with_reducible apply State.ptpDoorbell_keeps
    | with_reducible apply keeps_next
    | with_reducible apply keeps_foldl
    | with_reducible apply keeps_foldl1
    | with_reducible exact Or.inr (by assumption)
    | with_reducible exact Or.inl rfl
    | dsimp only
    | (simp only [keeps_mk_eq]; with_reducible apply keeps_mk)
    | with_reducible apply keeps_ite
    | with_reducible apply keeps_ite1
    | split)

theorem State.ptpWrite_keeps {W : List Part} {Q : Nat → Bool} {s0 : State} {s : State} {off : Nat} {d : Word}
    (wiCode_48 : Q (iCode 48) = true) (wiFn_n : ∀ n, Q (iFn n) = true) (wpgBnk_n : ∀ n, Q (pgBnk n) = true) (wpgBrg : Q pgBrg = true) (wpgEvr : Q pgEvr = true) (wpgPair : Q pgPair = true) (wpgPtp : Q pgPtp = true) (wmem : Part.mem ∈ W) (wrecorder : Part.recorder ∈ W) (wtime : Part.time ∈ W) (wbanks : Part.banks ∈ W) (wchans : Part.chans ∈ W) (wbus : Part.bus ∈ W) (wgrading : Part.grading ∈ W) (wbridge : Part.bridge ∈ W) (wpair : Part.pair ∈ W) (whost : Part.host ∈ W) (wswitch : Part.switch ∈ W)
    (hK : Keeps W Q s0 s) : Keeps W Q s0 (State.ptpWrite s off d) := by
  unfold State.ptpWrite
  repeat' (first
    | with_reducible assumption
    | with_reducible exact id
    | with_reducible exact fun k => Mem.wf_writeBytes k
    | with_reducible exact fun k => Mem.wf_erase k
    | with_reducible exact fun k => SMap.wf_set k
    | with_reducible exact fun k => SMap.wf_drop k
    | with_reducible exact fun k => SMap.wf_foldl k
    | with_reducible exact fun k => SMap.wf_foldl (SMap.wf_drop k)
    | with_reducible exact fun _ _ k => absurd k List.not_mem_nil
    | intro _
    | with_reducible exact wiFn_n _
    | with_reducible exact wpgBnk_n _
    | with_reducible apply State.ptpCmd_keeps
    | with_reducible apply State.freeNext_keeps
    | with_reducible apply State.wr_keeps
    | with_reducible apply State.servoOffset_keeps
    | with_reducible apply State.regWrite_keeps
    | with_reducible apply State.ptpDoorbell_keeps
    | with_reducible apply keeps_next
    | with_reducible apply keeps_foldl
    | with_reducible apply keeps_foldl1
    | with_reducible exact Or.inr (by assumption)
    | with_reducible exact Or.inl rfl
    | dsimp only
    | (simp only [keeps_mk_eq]; with_reducible apply keeps_mk)
    | with_reducible apply keeps_ite
    | with_reducible apply keeps_ite1
    | split)

end Sys2Proof.Machine
end

