-- ==== Sys2Proof/Laws/KeepsDomain.lean ====
section
/-! SUPPORT. What each function and command of Machine/Domain.lean keeps. -/
set_option linter.all false
set_option Elab.async false
namespace Sys2Proof.Machine

theorem State.dropRegs_keeps {W : List Part} {Q : Nat → Bool} {s0 : State} {s : State} {d : Nat}
    (wAll : ∀ n, Q n = true)
    (hK : Keeps W Q s0 s) : Keeps W Q s0 (State.dropRegs s d) := by
  unfold State.dropRegs
  repeat' (first
    | with_reducible assumption
    | with_reducible exact id
    | with_reducible exact fun k => Mem.wf_writeBytes k
    | with_reducible exact fun k => Mem.wf_erase k
    | with_reducible exact fun k => SMap.wf_set k
    | with_reducible exact fun k => SMap.wf_drop k
    | with_reducible exact fun k => SMap.wf_foldl k
    | with_reducible exact fun k => SMap.wf_foldl (SMap.wf_drop k)
    | with_reducible exact fun _ _ k => absurd k List.not_mem_nil
    | intro _
    | with_reducible exact wAll _
    | with_reducible apply State.resetInsts_one
    | with_reducible apply State.resetInsts_keeps
    | with_reducible apply keeps_next
    | with_reducible apply keeps_foldl
    | with_reducible apply keeps_foldl1
    | with_reducible exact Or.inr (by assumption)
    | with_reducible exact Or.inl rfl
    | dsimp only
    | (simp only [keeps_mk_eq]; with_reducible apply keeps_mk)
    | with_reducible apply keeps_ite
    | with_reducible apply keeps_ite1
    | split)

theorem State.loseMem_keeps {W : List Part} {Q : Nat → Bool} {s0 : State} {s : State} {lo : Nat} {hi : Nat}
    (wmem : Part.mem ∈ W)
    (hK : Keeps W Q s0 s) : Keeps W Q s0 (State.loseMem s lo hi) := by
  unfold State.loseMem
  repeat' (first
    | with_reducible assumption
    | with_reducible exact id
    | with_reducible exact fun k => Mem.wf_writeBytes k
    | with_reducible exact fun k => Mem.wf_erase k
    | with_reducible exact fun k => SMap.wf_set k
    | with_reducible exact fun k => SMap.wf_drop k
    | with_reducible exact fun k => SMap.wf_foldl k
    | with_reducible exact fun k => SMap.wf_foldl (SMap.wf_drop k)
    | with_reducible exact fun _ _ k => absurd k List.not_mem_nil
    | intro _
    | with_reducible apply keeps_next
    | with_reducible apply keeps_foldl
    | with_reducible apply keeps_foldl1
    | with_reducible exact Or.inr (by assumption)
    | with_reducible exact Or.inl rfl
    | dsimp only
    | (simp only [keeps_mk_eq]; with_reducible apply keeps_mk)
    | with_reducible apply keeps_ite
    | with_reducible apply keeps_ite1
    | split)

theorem State.loseFabric_keeps {W : List Part} {Q : Nat → Bool} {s0 : State} {s : State}
    (wAll : ∀ n, Q n = true) (wmem : Part.mem ∈ W) (wstore : Part.store ∈ W) (wsnaps : Part.snaps ∈ W) (wrecorder : Part.recorder ∈ W) (wtime : Part.time ∈ W) (wbus : Part.bus ∈ W) (wports : Part.ports ∈ W) (wgrading : Part.grading ∈ W) (wlogs : Part.logs ∈ W) (wbridge : Part.bridge ∈ W) (wpair : Part.pair ∈ W) (whost : Part.host ∈ W) (wboot : Part.boot ∈ W) (wqueues : Part.queues ∈ W) (wcan : Part.can ∈ W) (wfta : Part.fta ∈ W)
    (hK : Keeps W Q s0 s) : Keeps W Q s0 (State.loseFabric s) := by
  unfold State.loseFabric
  repeat' (first
    | with_reducible assumption
    | with_reducible exact id
    | with_reducible exact fun k => Mem.wf_writeBytes k
    | with_reducible exact fun k => Mem.wf_erase k
    | with_reducible exact fun k => SMap.wf_set k
    | with_reducible exact fun k => SMap.wf_drop k
    | with_reducible exact fun k => SMap.wf_foldl k
    | with_reducible exact fun k => SMap.wf_foldl (SMap.wf_drop k)
    | with_reducible exact fun _ _ k => absurd k List.not_mem_nil
    | intro _
    | with_reducible exact wAll _
    | with_reducible apply State.loseMem_keeps
    | with_reducible apply State.dropRegs_keeps
    | with_reducible apply State.wr_keeps
    | with_reducible apply keeps_next
    | with_reducible apply keeps_foldl
    | with_reducible apply keeps_foldl1
    | with_reducible exact Or.inr (by assumption)
    | with_reducible exact Or.inl rfl
    | dsimp only
    | (simp only [keeps_mk_eq]; with_reducible apply keeps_mk)
    | with_reducible apply keeps_ite
    | with_reducible apply keeps_ite1
    | split)

theorem State.loseApp_keeps {W : List Part} {Q : Nat → Bool} {s0 : State} {s : State}
    (wpgMbx : Q pgMbx = true) (wharts : Part.harts ∈ W)
    (hK : Keeps W Q s0 s) : Keeps W Q s0 (State.loseApp s) := by
  unfold State.loseApp
  repeat' (first
    | with_reducible assumption
    | with_reducible exact id
    | with_reducible exact fun k => Mem.wf_writeBytes k
    | with_reducible exact fun k => Mem.wf_erase k
    | with_reducible exact fun k => SMap.wf_set k
    | with_reducible exact fun k => SMap.wf_drop k
    | with_reducible exact fun k => SMap.wf_foldl k
    | with_reducible exact fun k => SMap.wf_foldl (SMap.wf_drop k)
    | with_reducible exact fun _ _ k => absurd k List.not_mem_nil
    | intro _
    | with_reducible apply State.wr_keeps
    | with_reducible apply keeps_next
    | with_reducible apply keeps_foldl
    | with_reducible apply keeps_foldl1
    | with_reducible exact Or.inr (by assumption)
    | with_reducible exact Or.inl rfl
    | dsimp only
    | (simp only [keeps_mk_eq]; with_reducible apply keeps_mk)
    | with_reducible apply keeps_ite
    | with_reducible apply keeps_ite1
    | split)

theorem State.loseSec_keeps {W : List Part} {Q : Nat → Bool} {s0 : State} {s : State}
    (wAll : ∀ n, Q n = true) (wharts : Part.harts ∈ W) (wkeys : Part.keys ∈ W) (wpages : Part.pages ∈ W) (wboot : Part.boot ∈ W)
    (hK : Keeps W Q s0 s) : Keeps W Q s0 (State.loseSec s) := by
  unfold State.loseSec
  repeat' (first
    | with_reducible assumption
    | with_reducible exact id
    | with_reducible exact fun k => Mem.wf_writeBytes k
    | with_reducible exact fun k => Mem.wf_erase k
    | with_reducible exact fun k => SMap.wf_set k
    | with_reducible exact fun k => SMap.wf_drop k
    | with_reducible exact fun k => SMap.wf_foldl k
    | with_reducible exact fun k => SMap.wf_foldl (SMap.wf_drop k)
    | with_reducible exact fun _ _ k => absurd k List.not_mem_nil
    | intro _
    | with_reducible exact wAll _
    | with_reducible apply State.dropRegs_keeps
    | with_reducible apply State.wr_keeps
    | with_reducible apply keeps_next
    | with_reducible apply keeps_foldl
    | with_reducible apply keeps_foldl1
    | with_reducible exact Or.inr (by assumption)
    | with_reducible exact Or.inl rfl
    | dsimp only
    | (simp only [keeps_mk_eq]; with_reducible apply keeps_mk)
    | with_reducible apply keeps_ite
    | with_reducible apply keeps_ite1
    | split)

theorem State.loseBanks_keeps {W : List Part} {Q : Nat → Bool} {s0 : State} {s : State} {d : Nat}
    (wAll : ∀ n, Q n = true) (wvcore : Part.vcore ∈ W) (wbanks : Part.banks ∈ W) (wchans : Part.chans ∈ W) (wgrading : Part.grading ∈ W)
    (hK : Keeps W Q s0 s) : Keeps W Q s0 (State.loseBanks s d) := by
  unfold State.loseBanks
  repeat' (first
    | with_reducible assumption
    | with_reducible exact id
    | with_reducible exact fun k => Mem.wf_writeBytes k
    | with_reducible exact fun k => Mem.wf_erase k
    | with_reducible exact fun k => SMap.wf_set k
    | with_reducible exact fun k => SMap.wf_drop k
    | with_reducible exact fun k => SMap.wf_foldl k
    | with_reducible exact fun k => SMap.wf_foldl (SMap.wf_drop k)
    | with_reducible exact fun _ _ k => absurd k List.not_mem_nil
    | intro _
    | with_reducible exact wAll _
    | with_reducible apply State.dropRegs_keeps
    | with_reducible apply keeps_next
    | with_reducible apply keeps_foldl
    | with_reducible apply keeps_foldl1
    | with_reducible exact Or.inr (by assumption)
    | with_reducible exact Or.inl rfl
    | dsimp only
    | (simp only [keeps_mk_eq]; with_reducible apply keeps_mk)
    | with_reducible apply keeps_ite
    | with_reducible apply keeps_ite1
    | split)

theorem State.loseNet_keeps {W : List Part} {Q : Nat → Bool} {s0 : State} {s : State}
    (wAll : ∀ n, Q n = true) (wswitch : Part.switch ∈ W) (wpower : Part.power ∈ W)
    (hK : Keeps W Q s0 s) : Keeps W Q s0 (State.loseNet s) := by
  unfold State.loseNet
  repeat' (first
    | with_reducible assumption
    | with_reducible exact id
    | with_reducible exact fun k => Mem.wf_writeBytes k
    | with_reducible exact fun k => Mem.wf_erase k
    | with_reducible exact fun k => SMap.wf_set k
    | with_reducible exact fun k => SMap.wf_drop k
    | with_reducible exact fun k => SMap.wf_foldl k
    | with_reducible exact fun k => SMap.wf_foldl (SMap.wf_drop k)
    | with_reducible exact fun _ _ k => absurd k List.not_mem_nil
    | intro _
    | with_reducible exact wAll _
    | with_reducible apply State.dropRegs_keeps
    | with_reducible apply keeps_next
    | with_reducible apply keeps_foldl
    | with_reducible apply keeps_foldl1
    | with_reducible exact Or.inr (by assumption)
    | with_reducible exact Or.inl rfl
    | dsimp only
    | (simp only [keeps_mk_eq]; with_reducible apply keeps_mk)
    | with_reducible apply keeps_ite
    | with_reducible apply keeps_ite1
    | split)

theorem State.loseMem6_keeps {W : List Part} {Q : Nat → Bool} {s0 : State} {s : State}
    (wiFn_n : ∀ n, Q (iFn n) = true) (wiQue_n : ∀ n, Q (iQue n) = true) (wpgQpm : Q pgQpm = true) (wpgSys : Q pgSys = true) (wmem : Part.mem ∈ W) (wqueues : Part.queues ∈ W)
    (hK : Keeps W Q s0 s) : Keeps W Q s0 (State.loseMem6 s) := by
  unfold State.loseMem6
  repeat' (first
    | with_reducible assumption
    | with_reducible exact id
    | with_reducible exact fun k => Mem.wf_writeBytes k
    | with_reducible exact fun k => Mem.wf_erase k
    | with_reducible exact fun k => SMap.wf_set k
    | with_reducible exact fun k => SMap.wf_drop k
    | with_reducible exact fun k => SMap.wf_foldl k
    | with_reducible exact fun k => SMap.wf_foldl (SMap.wf_drop k)
    | with_reducible exact fun _ _ k => absurd k List.not_mem_nil
    | intro _
    | with_reducible exact wiFn_n _
    | with_reducible exact wiQue_n _
    | with_reducible apply State.wr_keeps
    | with_reducible apply State.loseMem_keeps
    | with_reducible apply State.qpmMemOff_keeps
    | with_reducible apply keeps_next
    | with_reducible apply keeps_foldl
    | with_reducible apply keeps_foldl1
    | with_reducible exact Or.inr (by assumption)
    | with_reducible exact Or.inl rfl
    | dsimp only
    | (simp only [keeps_mk_eq]; with_reducible apply keeps_mk)
    | with_reducible apply keeps_ite
    | with_reducible apply keeps_ite1
    | split)

theorem State.loseDomain_keeps {W : List Part} {Q : Nat → Bool} {s0 : State} {s : State} {d : Nat}
    (wAll : ∀ n, Q n = true) (wmem : Part.mem ∈ W) (wstore : Part.store ∈ W) (wsnaps : Part.snaps ∈ W) (wrecorder : Part.recorder ∈ W) (wtime : Part.time ∈ W) (wvcore : Part.vcore ∈ W) (wharts : Part.harts ∈ W) (wbanks : Part.banks ∈ W) (wchans : Part.chans ∈ W) (wbus : Part.bus ∈ W) (wports : Part.ports ∈ W) (wgrading : Part.grading ∈ W) (wlogs : Part.logs ∈ W) (wbridge : Part.bridge ∈ W) (wpair : Part.pair ∈ W) (whost : Part.host ∈ W) (wkeys : Part.keys ∈ W) (wpages : Part.pages ∈ W) (wboot : Part.boot ∈ W) (wqueues : Part.queues ∈ W) (wswitch : Part.switch ∈ W) (wcan : Part.can ∈ W) (wpower : Part.power ∈ W) (wfta : Part.fta ∈ W)
    (hK : Keeps W Q s0 s) : Keeps W Q s0 (State.loseDomain s d) := by
  unfold State.loseDomain
  repeat' (first
    | with_reducible assumption
    | with_reducible exact id
    | with_reducible exact fun k => Mem.wf_writeBytes k
    | with_reducible exact fun k => Mem.wf_erase k
    | with_reducible exact fun k => SMap.wf_set k
    | with_reducible exact fun k => SMap.wf_drop k
    | with_reducible exact fun k => SMap.wf_foldl k
    | with_reducible exact fun k => SMap.wf_foldl (SMap.wf_drop k)
    | with_reducible exact fun _ _ k => absurd k List.not_mem_nil
    | intro _
    | with_reducible exact wAll _
    | with_reducible apply State.nwmForce_keeps
    | with_reducible apply State.loseFabric_keeps
    | with_reducible apply State.loseApp_keeps
    | with_reducible apply State.loseSec_keeps
    | with_reducible apply State.loseNet_keeps
    | with_reducible apply State.loseMem6_keeps
    | with_reducible apply State.loseBanks_keeps
    | with_reducible apply keeps_next
    | with_reducible apply keeps_foldl
    | with_reducible apply keeps_foldl1
    | with_reducible exact Or.inr (by assumption)
    | with_reducible exact Or.inl rfl
    | dsimp only
    | (simp only [keeps_mk_eq]; with_reducible apply keeps_mk)
    | with_reducible apply keeps_ite
    | with_reducible apply keeps_ite1
    | split)

theorem State.reqDone_keeps {W : List Part} {Q : Nat → Bool} {s0 : State} {s : State} {d : Nat}
    (wpgPwr : Q pgPwr = true)
    (hK : Keeps W Q s0 s) : Keeps W Q s0 (State.reqDone s d) := by
  unfold State.reqDone
  repeat' (first
    | with_reducible assumption
    | with_reducible exact id
    | with_reducible exact fun k => Mem.wf_writeBytes k
    | with_reducible exact fun k => Mem.wf_erase k
    | with_reducible exact fun k => SMap.wf_set k
    | with_reducible exact fun k => SMap.wf_drop k
    | with_reducible exact fun k => SMap.wf_foldl k
    | with_reducible exact fun k => SMap.wf_foldl (SMap.wf_drop k)
    | with_reducible exact fun _ _ k => absurd k List.not_mem_nil
    | intro _
    | with_reducible apply State.wr_keeps
    | with_reducible apply keeps_next
    | with_reducible apply keeps_foldl
    | with_reducible apply keeps_foldl1
    | with_reducible exact Or.inr (by assumption)
    | with_reducible exact Or.inl rfl
    | dsimp only
    | (simp only [keeps_mk_eq]; with_reducible apply keeps_mk)
    | with_reducible apply keeps_ite
    | with_reducible apply keeps_ite1
    | split)

theorem State.startNet_keeps {W : List Part} {Q : Nat → Bool} {s0 : State} {s : State} {ticks : Nat}
    (wpgPtp : Q pgPtp = true) (wrecorder : Part.recorder ∈ W) (wtime : Part.time ∈ W) (wbanks : Part.banks ∈ W) (wchans : Part.chans ∈ W) (wbus : Part.bus ∈ W) (wgrading : Part.grading ∈ W) (wbridge : Part.bridge ∈ W) (wpair : Part.pair ∈ W) (whost : Part.host ∈ W) (wpower : Part.power ∈ W)
    (hK : Keeps W Q s0 s) : Keeps W Q s0 (State.startNet s ticks) := by
  unfold State.startNet
  repeat' (first
    | with_reducible assumption
    | with_reducible exact id
    | with_reducible exact fun k => Mem.wf_writeBytes k
    | with_reducible exact fun k => Mem.wf_erase k
    | with_reducible exact fun k => SMap.wf_set k
    | with_reducible exact fun k => SMap.wf_drop k
    | with_reducible exact fun k => SMap.wf_foldl k
    | with_reducible exact fun k => SMap.wf_foldl (SMap.wf_drop k)
    | with_reducible exact fun _ _ k => absurd k List.not_mem_nil
    | intro _
    | with_reducible apply State.wr_keeps
    | with_reducible apply State.renumber_keeps
    | with_reducible apply keeps_next
    | with_reducible apply keeps_foldl
    | with_reducible apply keeps_foldl1
    | with_reducible exact Or.inr (by assumption)
    | with_reducible exact Or.inl rfl
    | dsimp only
    | (simp only [keeps_mk_eq]; with_reducible apply keeps_mk)
    | with_reducible apply keeps_ite
    | with_reducible apply keeps_ite1
    | split)

theorem State.startBanks_keeps {W : List Part} {Q : Nat → Bool} {s0 : State} {s : State} {d : Nat}
    (wbanks : Part.banks ∈ W) (wbus : Part.bus ∈ W)
    (hK : Keeps W Q s0 s) : Keeps W Q s0 (State.startBanks s d) := by
  unfold State.startBanks
  repeat' (first
    | with_reducible assumption
    | with_reducible exact id
    | with_reducible exact fun k => Mem.wf_writeBytes k
    | with_reducible exact fun k => Mem.wf_erase k
    | with_reducible exact fun k => SMap.wf_set k
    | with_reducible exact fun k => SMap.wf_drop k
    | with_reducible exact fun k => SMap.wf_foldl k
    | with_reducible exact fun k => SMap.wf_foldl (SMap.wf_drop k)
    | with_reducible exact fun _ _ k => absurd k List.not_mem_nil
    | intro _
    | with_reducible apply State.modBk_keeps
    | with_reducible apply keeps_next
    | with_reducible apply keeps_foldl
    | with_reducible apply keeps_foldl1
    | with_reducible exact Or.inr (by assumption)
    | with_reducible exact Or.inl rfl
    | dsimp only
    | (simp only [keeps_mk_eq]; with_reducible apply keeps_mk)
    | with_reducible apply keeps_ite
    | with_reducible apply keeps_ite1
    | split)

theorem State.onBit_keeps {W : List Part} {Q : Nat → Bool} {s0 : State} {s : State} {d : Nat} {on : Bool}
    (wpgPwr : Q pgPwr = true)
    (hK : Keeps W Q s0 s) : Keeps W Q s0 (State.onBit s d on) := by
  unfold State.onBit
  repeat' (first
    | with_reducible assumption
    | with_reducible exact id
    | with_reducible exact fun k => Mem.wf_writeBytes k
    | with_reducible exact fun k => Mem.wf_erase k
    | with_reducible exact fun k => SMap.wf_set k
    | with_reducible exact fun k => SMap.wf_drop k
    | with_reducible exact fun k => SMap.wf_foldl k
    | with_reducible exact fun k => SMap.wf_foldl (SMap.wf_drop k)
    | with_reducible exact fun _ _ k => absurd k List.not_mem_nil
    | intro _
    | with_reducible apply State.clrBits_keeps
    | with_reducible apply State.setBits_keeps
    | with_reducible apply keeps_next
    | with_reducible apply keeps_foldl
    | with_reducible apply keeps_foldl1
    | with_reducible exact Or.inr (by assumption)
    | with_reducible exact Or.inl rfl
    | dsimp only
    | (simp only [keeps_mk_eq]; with_reducible apply keeps_mk)
    | with_reducible apply keeps_ite
    | with_reducible apply keeps_ite1
    | split)

theorem State.domainOn_keeps {W : List Part} {Q : Nat → Bool} {s0 : State} {s : State} {d : Nat} {ticks : Nat}
    (w50 : Q 50 = true) (wiForce_pgLdc : Q (iForce pgLdc) = true) (wpgFio : Q pgFio = true) (wpgLdc : Q pgLdc = true) (wpgPtp : Q pgPtp = true) (wpgPwr : Q pgPwr = true) (wpgUpd : Q pgUpd = true) (wrecorder : Part.recorder ∈ W) (wtime : Part.time ∈ W) (wbanks : Part.banks ∈ W) (wchans : Part.chans ∈ W) (wbus : Part.bus ∈ W) (wgrading : Part.grading ∈ W) (wbridge : Part.bridge ∈ W) (wpair : Part.pair ∈ W) (whost : Part.host ∈ W) (wpower : Part.power ∈ W) (wfield : Part.field ∈ W)
    (hK : Keeps W Q s0 s) : Keeps W Q s0 (State.domainOn s d ticks) := by
  unfold State.domainOn
  repeat' (first
    | with_reducible assumption
    | with_reducible exact id
    | with_reducible exact fun k => Mem.wf_writeBytes k
    | with_reducible exact fun k => Mem.wf_erase k
    | with_reducible exact fun k => SMap.wf_set k
    | with_reducible exact fun k => SMap.wf_drop k
    | with_reducible exact fun k => SMap.wf_foldl k
    | with_reducible exact fun k => SMap.wf_foldl (SMap.wf_drop k)
    | with_reducible exact fun _ _ k => absurd k List.not_mem_nil
    | intro _
    | with_reducible apply State.scanStart_keeps
    | with_reducible apply State.updSync_keeps
    | with_reducible apply State.startBanks_keeps
    | with_reducible apply State.startNet_keeps
    | with_reducible apply State.resetInst_keeps
    | with_reducible apply State.ldcReset_keeps
    | with_reducible apply State.fioReset_keeps
    | with_reducible apply State.onBit_keeps
    | with_reducible apply keeps_next
    | with_reducible apply keeps_foldl
    | with_reducible apply keeps_foldl1
    | with_reducible exact Or.inr (by assumption)
    | with_reducible exact Or.inl rfl
    | dsimp only
    | (simp only [keeps_mk_eq]; with_reducible apply keeps_mk)
    | with_reducible apply keeps_ite
    | with_reducible apply keeps_ite1
    | split)

theorem State.domainOff_keeps {W : List Part} {Q : Nat → Bool} {s0 : State} {s : State} {d : Nat}
    (wAll : ∀ n, Q n = true) (wmem : Part.mem ∈ W) (wstore : Part.store ∈ W) (wsnaps : Part.snaps ∈ W) (wrecorder : Part.recorder ∈ W) (wtime : Part.time ∈ W) (wvcore : Part.vcore ∈ W) (wharts : Part.harts ∈ W) (wbanks : Part.banks ∈ W) (wchans : Part.chans ∈ W) (wbus : Part.bus ∈ W) (wports : Part.ports ∈ W) (wgrading : Part.grading ∈ W) (wlogs : Part.logs ∈ W) (wbridge : Part.bridge ∈ W) (wpair : Part.pair ∈ W) (whost : Part.host ∈ W) (wkeys : Part.keys ∈ W) (wpages : Part.pages ∈ W) (wboot : Part.boot ∈ W) (wqueues : Part.queues ∈ W) (wswitch : Part.switch ∈ W) (wcan : Part.can ∈ W) (wpower : Part.power ∈ W) (wfta : Part.fta ∈ W)
    (hK : Keeps W Q s0 s) : Keeps W Q s0 (State.domainOff s d) := by
  unfold State.domainOff
  repeat' (first
    | with_reducible assumption
    | with_reducible exact id
    | with_reducible exact fun k => Mem.wf_writeBytes k
    | with_reducible exact fun k => Mem.wf_erase k
    | with_reducible exact fun k => SMap.wf_set k
    | with_reducible exact fun k => SMap.wf_drop k
    | with_reducible exact fun k => SMap.wf_foldl k
    | with_reducible exact fun k => SMap.wf_foldl (SMap.wf_drop k)
    | with_reducible exact fun _ _ k => absurd k List.not_mem_nil
    | intro _
    | with_reducible exact wAll _
    | with_reducible apply State.onBit_keeps
    | with_reducible apply State.loseDomain_keeps
    | with_reducible apply keeps_next
    | with_reducible apply keeps_foldl
    | with_reducible apply keeps_foldl1
    | with_reducible exact Or.inr (by assumption)
    | with_reducible exact Or.inl rfl
    | dsimp only
    | (simp only [keeps_mk_eq]; with_reducible apply keeps_mk)
    | with_reducible apply keeps_ite
    | with_reducible apply keeps_ite1
    | split)

theorem State.domReq_keeps {W : List Part} {Q : Nat → Bool} {s0 : State} {s : State} {r : Req} {d : Word}
    (wiCode_9 : Q (iCode 9) = true) (wiFn_n : ∀ n, Q (iFn n) = true) (wpgEvr : Q pgEvr = true) (wpgPwr : Q pgPwr = true) (wrecorder : Part.recorder ∈ W)
    (hK : Keeps W Q s0 s) : Keeps W Q s0 (State.domReq s r d) := by
  unfold State.domReq
  repeat' (first
    | with_reducible assumption
    | with_reducible exact id
    | with_reducible exact fun k => Mem.wf_writeBytes k
    | with_reducible exact fun k => Mem.wf_erase k
    | with_reducible exact fun k => SMap.wf_set k
    | with_reducible exact fun k => SMap.wf_drop k
    | with_reducible exact fun k => SMap.wf_foldl k
    | with_reducible exact fun k => SMap.wf_foldl (SMap.wf_drop k)
    | with_reducible exact fun _ _ k => absurd k List.not_mem_nil
    | intro _
    | with_reducible exact wiFn_n _
    | with_reducible apply State.domBusy_keeps
    | with_reducible apply State.reqStat_keeps
    | with_reducible apply State.reqRefused_keeps
    | with_reducible apply keeps_next
    | with_reducible apply keeps_foldl
    | with_reducible apply keeps_foldl1
    | with_reducible exact Or.inr (by assumption)
    | with_reducible exact Or.inl rfl
    | dsimp only
    | (simp only [keeps_mk_eq]; with_reducible apply keeps_mk)
    | with_reducible apply keeps_ite
    | with_reducible apply keeps_ite1
    | split)

theorem execDomReqOn_keeps {W : List Part} {Q : Nat → Bool} {s0 : State} {r : Req} {d : Word} {s : State}
    (w50 : Q 50 = true) (wiCode_8 : Q (iCode 8) = true) (wiCode_9 : Q (iCode 9) = true) (wiFn_n : ∀ n, Q (iFn n) = true) (wpgEvr : Q pgEvr = true) (wpgPwr : Q pgPwr = true) (wpgSys : Q pgSys = true) (wrecorder : Part.recorder ∈ W) (wfield : Part.field ∈ W)
    (hK : Keeps W Q s0 s) : Res.Keeps W Q s0 (execDomReqOn r d s) := by
  unfold execDomReqOn
  repeat' (first
    | with_reducible assumption
    | with_reducible exact id
    | with_reducible exact fun k => Mem.wf_writeBytes k
    | with_reducible exact fun k => Mem.wf_erase k
    | with_reducible exact fun k => SMap.wf_set k
    | with_reducible exact fun k => SMap.wf_drop k
    | with_reducible exact fun k => SMap.wf_foldl k
    | with_reducible exact fun k => SMap.wf_foldl (SMap.wf_drop k)
    | with_reducible exact fun _ _ k => absurd k List.not_mem_nil
    | intro _
    | with_reducible exact wiFn_n _
    | with_reducible apply State.access_keeps
    | with_reducible apply State.start_keeps
    | with_reducible apply State.domReq_keeps
    | with_reducible apply keeps_next
    | with_reducible apply keeps_foldl
    | with_reducible apply keeps_foldl1
    | with_reducible exact Or.inr (by assumption)
    | with_reducible exact Or.inl rfl
    | dsimp only
    | (simp only [keeps_mk_eq]; with_reducible apply keeps_mk)
    | with_reducible apply keeps_ite
    | with_reducible apply keeps_ite1
    | split)

theorem execDomReqOff_keeps {W : List Part} {Q : Nat → Bool} {s0 : State} {r : Req} {d : Word} {s : State}
    (w50 : Q 50 = true) (wiCode_8 : Q (iCode 8) = true) (wiCode_9 : Q (iCode 9) = true) (wiFn_n : ∀ n, Q (iFn n) = true) (wpgEvr : Q pgEvr = true) (wpgPwr : Q pgPwr = true) (wpgSys : Q pgSys = true) (wrecorder : Part.recorder ∈ W) (wfield : Part.field ∈ W)
    (hK : Keeps W Q s0 s) : Res.Keeps W Q s0 (execDomReqOff r d s) := by
  unfold execDomReqOff
  repeat' (first
    | with_reducible assumption
    | with_reducible exact id
    | with_reducible exact fun k => Mem.wf_writeBytes k
    | with_reducible exact fun k => Mem.wf_erase k
    | with_reducible exact fun k => SMap.wf_set k
    | with_reducible exact fun k => SMap.wf_drop k
    | with_reducible exact fun k => SMap.wf_foldl k
    | with_reducible exact fun k => SMap.wf_foldl (SMap.wf_drop k)
    | with_reducible exact fun _ _ k => absurd k List.not_mem_nil
    | intro _
    | with_reducible exact wiFn_n _
    | with_reducible apply State.access_keeps
    | with_reducible apply State.start_keeps
    | with_reducible apply State.domReq_keeps
    | with_reducible apply keeps_next
    | with_reducible apply keeps_foldl
    | with_reducible apply keeps_foldl1
    | with_reducible exact Or.inr (by assumption)
    | with_reducible exact Or.inl rfl
    | dsimp only
    | (simp only [keeps_mk_eq]; with_reducible apply keeps_mk)
    | with_reducible apply keeps_ite
    | with_reducible apply keeps_ite1
    | split)

theorem execDomainOnDone_keeps {W : List Part} {Q : Nat → Bool} {s0 : State} {d : Fin 8} {ticks : Nat} {s : State}
    (w50 : Q 50 = true) (wiForce_pgLdc : Q (iForce pgLdc) = true) (wpgFio : Q pgFio = true) (wpgLdc : Q pgLdc = true) (wpgPtp : Q pgPtp = true) (wpgPwr : Q pgPwr = true) (wpgUpd : Q pgUpd = true) (wrecorder : Part.recorder ∈ W) (wtime : Part.time ∈ W) (wbanks : Part.banks ∈ W) (wchans : Part.chans ∈ W) (wbus : Part.bus ∈ W) (wgrading : Part.grading ∈ W) (wbridge : Part.bridge ∈ W) (wpair : Part.pair ∈ W) (whost : Part.host ∈ W) (wpower : Part.power ∈ W) (wfield : Part.field ∈ W)
    (hK : Keeps W Q s0 s) : Res.Keeps W Q s0 (execDomainOnDone d ticks s) := by
  unfold execDomainOnDone
  repeat' (first
    | with_reducible assumption
    | with_reducible exact id
    | with_reducible exact fun k => Mem.wf_writeBytes k
    | with_reducible exact fun k => Mem.wf_erase k
    | with_reducible exact fun k => SMap.wf_set k
    | with_reducible exact fun k => SMap.wf_drop k
    | with_reducible exact fun k => SMap.wf_foldl k
    | with_reducible exact fun k => SMap.wf_foldl (SMap.wf_drop k)
    | with_reducible exact fun _ _ k => absurd k List.not_mem_nil
    | intro _
    | with_reducible apply State.start_keeps
    | with_reducible apply State.reqDone_keeps
    | with_reducible apply State.domainOn_keeps
    | with_reducible apply keeps_next
    | with_reducible apply keeps_foldl
    | with_reducible apply keeps_foldl1
    | with_reducible exact Or.inr (by assumption)
    | with_reducible exact Or.inl rfl
    | dsimp only
    | (simp only [keeps_mk_eq]; with_reducible apply keeps_mk)
    | with_reducible apply keeps_ite
    | with_reducible apply keeps_ite1
    | split)

theorem execDomainOffDone_keeps {W : List Part} {Q : Nat → Bool} {s0 : State} {d : Fin 8} {s : State}
    (wAll : ∀ n, Q n = true) (wmem : Part.mem ∈ W) (wstore : Part.store ∈ W) (wsnaps : Part.snaps ∈ W) (wrecorder : Part.recorder ∈ W) (wtime : Part.time ∈ W) (wvcore : Part.vcore ∈ W) (wharts : Part.harts ∈ W) (wbanks : Part.banks ∈ W) (wchans : Part.chans ∈ W) (wbus : Part.bus ∈ W) (wports : Part.ports ∈ W) (wgrading : Part.grading ∈ W) (wlogs : Part.logs ∈ W) (wbridge : Part.bridge ∈ W) (wpair : Part.pair ∈ W) (whost : Part.host ∈ W) (wkeys : Part.keys ∈ W) (wpages : Part.pages ∈ W) (wboot : Part.boot ∈ W) (wqueues : Part.queues ∈ W) (wswitch : Part.switch ∈ W) (wcan : Part.can ∈ W) (wpower : Part.power ∈ W) (wfta : Part.fta ∈ W)
    (hK : Keeps W Q s0 s) : Res.Keeps W Q s0 (execDomainOffDone d s) := by
  unfold execDomainOffDone
  repeat' (first
    | with_reducible assumption
    | with_reducible exact id
    | with_reducible exact fun k => Mem.wf_writeBytes k
    | with_reducible exact fun k => Mem.wf_erase k
    | with_reducible exact fun k => SMap.wf_set k
    | with_reducible exact fun k => SMap.wf_drop k
    | with_reducible exact fun k => SMap.wf_foldl k
    | with_reducible exact fun k => SMap.wf_foldl (SMap.wf_drop k)
    | with_reducible exact fun _ _ k => absurd k List.not_mem_nil
    | intro _
    | with_reducible exact wAll _
    | with_reducible apply State.start_keeps
    | with_reducible apply State.reqDone_keeps
    | with_reducible apply State.domainOff_keeps
    | with_reducible apply keeps_next
    | with_reducible apply keeps_foldl
    | with_reducible apply keeps_foldl1
    | with_reducible exact Or.inr (by assumption)
    | with_reducible exact Or.inl rfl
    | dsimp only
    | (simp only [keeps_mk_eq]; with_reducible apply keeps_mk)
    | with_reducible apply keeps_ite
    | with_reducible apply keeps_ite1
    | split)

end Sys2Proof.Machine
end

