-- ==== Sys2Proof/Laws/KeepsReset.lean ====
section
/-! SUPPORT. What each function and command of Machine/Reset.lean keeps. -/
set_option linter.all false
set_option Elab.async false
namespace Sys2Proof.Machine

theorem State.storeTime_keeps {W : List Part} {Q : Nat → Bool} {s0 : State} {s : State}
    (wrecorder : Part.recorder ∈ W) (wpower : Part.power ∈ W)
    (hK : Keeps W Q s0 s) : Keeps W Q s0 (State.storeTime s) := by
  unfold State.storeTime
  repeat' (first
    | with_reducible assumption
    | with_reducible exact id
    | with_reducible exact fun k => Mem.wf_writeBytes k
    | with_reducible exact fun k => Mem.wf_erase k
    | with_reducible exact fun k => SMap.wf_set k
    | with_reducible exact fun k => SMap.wf_drop k
    | with_reducible exact fun k => SMap.wf_foldl k
    | with_reducible exact fun k => SMap.wf_foldl (SMap.wf_drop k)
    | with_reducible exact fun _ _ k => absurd k List.not_mem_nil
    | intro _
    | with_reducible apply State.freeNext_keeps
    | with_reducible apply keeps_next
    | with_reducible apply keeps_foldl
    | with_reducible apply keeps_foldl1
    | with_reducible exact Or.inr (by assumption)
    | with_reducible exact Or.inl rfl
    | dsimp only
    | (simp only [keeps_mk_eq]; with_reducible apply keeps_mk)
    | with_reducible apply keeps_ite
    | with_reducible apply keeps_ite1
    | split)

theorem State.loseSession_keeps {W : List Part} {Q : Nat → Bool} {s0 : State} {s : State}
    (wpgUpd : Q pgUpd = true) (wboot : Part.boot ∈ W)
    (hK : Keeps W Q s0 s) : Keeps W Q s0 (State.loseSession s) := by
  unfold State.loseSession
  repeat' (first
    | with_reducible assumption
    | with_reducible exact id
    | with_reducible exact fun k => Mem.wf_writeBytes k
    | with_reducible exact fun k => Mem.wf_erase k
    | with_reducible exact fun k => SMap.wf_set k
    | with_reducible exact fun k => SMap.wf_drop k
    | with_reducible exact fun k => SMap.wf_foldl k
    | with_reducible exact fun k => SMap.wf_foldl (SMap.wf_drop k)
    | with_reducible exact fun _ _ k => absurd k List.not_mem_nil
    | intro _
    | with_reducible apply State.svcEnd_keeps
    | with_reducible apply keeps_next
    | with_reducible apply keeps_foldl
    | with_reducible apply keeps_foldl1
    | with_reducible exact Or.inr (by assumption)
    | with_reducible exact Or.inl rfl
    | dsimp only
    | (simp only [keeps_mk_eq]; with_reducible apply keeps_mk)
    | with_reducible apply keeps_ite
    | with_reducible apply keeps_ite1
    | split)

theorem State.resetOwners_keeps {W : List Part} {Q : Nat → Bool} {s0 : State} {s : State} {l : List Nat}
    (wAll : ∀ n, Q n = true)
    (hK : Keeps W Q s0 s) : Keeps W Q s0 (State.resetOwners s l) := by
  unfold State.resetOwners
  repeat' (first
    | with_reducible assumption
    | with_reducible exact id
    | with_reducible exact fun k => Mem.wf_writeBytes k
    | with_reducible exact fun k => Mem.wf_erase k
    | with_reducible exact fun k => SMap.wf_set k
    | with_reducible exact fun k => SMap.wf_drop k
    | with_reducible exact fun k => SMap.wf_foldl k
    | with_reducible exact fun k => SMap.wf_foldl (SMap.wf_drop k)
    | with_reducible exact fun _ _ k => absurd k List.not_mem_nil
    | intro _
    | with_reducible exact wAll _
    | with_reducible apply State.resetInst_keeps
    | with_reducible apply keeps_next
    | with_reducible apply keeps_foldl
    | with_reducible apply keeps_foldl1
    | with_reducible exact Or.inr (by assumption)
    | with_reducible exact Or.inl rfl
    | dsimp only
    | (simp only [keeps_mk_eq]; with_reducible apply keeps_mk)
    | with_reducible apply keeps_ite
    | with_reducible apply keeps_ite1
    | split)

theorem State.loseLogic_keeps {W : List Part} {Q : Nat → Bool} {s0 : State} {s : State}
    (wAll : ∀ n, Q n = true) (wmem : Part.mem ∈ W) (wstore : Part.store ∈ W) (wsnaps : Part.snaps ∈ W) (wrecorder : Part.recorder ∈ W) (wtime : Part.time ∈ W) (wvcore : Part.vcore ∈ W) (wharts : Part.harts ∈ W) (wbanks : Part.banks ∈ W) (wchans : Part.chans ∈ W) (wbus : Part.bus ∈ W) (wports : Part.ports ∈ W) (wgrading : Part.grading ∈ W) (wlogs : Part.logs ∈ W) (wbridge : Part.bridge ∈ W) (wpair : Part.pair ∈ W) (whost : Part.host ∈ W) (wkeys : Part.keys ∈ W) (wpages : Part.pages ∈ W) (wboot : Part.boot ∈ W) (wqueues : Part.queues ∈ W) (wswitch : Part.switch ∈ W) (wcan : Part.can ∈ W) (wpower : Part.power ∈ W) (wfta : Part.fta ∈ W)
    (hK : Keeps W Q s0 s) : Keeps W Q s0 (State.loseLogic s) := by
  unfold State.loseLogic
  repeat' (first
    | with_reducible assumption
    | with_reducible exact id
    | with_reducible exact fun k => Mem.wf_writeBytes k
    | with_reducible exact fun k => Mem.wf_erase k
    | with_reducible exact fun k => SMap.wf_set k
    | with_reducible exact fun k => SMap.wf_drop k
    | with_reducible exact fun k => SMap.wf_foldl k
    | with_reducible exact fun k => SMap.wf_foldl (SMap.wf_drop k)
    | with_reducible exact fun _ _ k => absurd k List.not_mem_nil
    | intro _
    | with_reducible exact wAll _
    | with_reducible apply State.loseFabric_keeps
    | with_reducible apply State.loseBanks_keeps
    | with_reducible apply State.loseNet_keeps
    | with_reducible apply State.loseSec_keeps
    | with_reducible apply State.loseApp_keeps
    | with_reducible apply keeps_next
    | with_reducible apply keeps_foldl
    | with_reducible apply keeps_foldl1
    | with_reducible exact Or.inr (by assumption)
    | with_reducible exact Or.inl rfl
    | dsimp only
    | (simp only [keeps_mk_eq]; with_reducible apply keeps_mk)
    | with_reducible apply keeps_ite
    | with_reducible apply keeps_ite1
    | split)

theorem State.aonReset_keeps {W : List Part} {Q : Nat → Bool} {s0 : State} {s : State}
    (wAll : ∀ n, Q n = true) (wstore : Part.store ∈ W) (wrecorder : Part.recorder ∈ W) (wvcore : Part.vcore ∈ W) (wcan : Part.can ∈ W) (wpower : Part.power ∈ W) (wfta : Part.fta ∈ W)
    (hK : Keeps W Q s0 s) : Keeps W Q s0 (State.aonReset s) := by
  unfold State.aonReset
  repeat' (first
    | with_reducible assumption
    | with_reducible exact id
    | with_reducible exact fun k => Mem.wf_writeBytes k
    | with_reducible exact fun k => Mem.wf_erase k
    | with_reducible exact fun k => SMap.wf_set k
    | with_reducible exact fun k => SMap.wf_drop k
    | with_reducible exact fun k => SMap.wf_foldl k
    | with_reducible exact fun k => SMap.wf_foldl (SMap.wf_drop k)
    | with_reducible exact fun _ _ k => absurd k List.not_mem_nil
    | intro _
    | with_reducible exact wAll _
    | with_reducible apply State.resetInst_keeps
    | with_reducible apply State.wr_keeps
    | with_reducible apply keeps_next
    | with_reducible apply keeps_foldl
    | with_reducible apply keeps_foldl1
    | with_reducible exact Or.inr (by assumption)
    | with_reducible exact Or.inl rfl
    | dsimp only
    | (simp only [keeps_mk_eq]; with_reducible apply keeps_mk)
    | with_reducible apply keeps_ite
    | with_reducible apply keeps_ite1
    | split)

theorem State.resetState_keeps {W : List Part} {Q : Nat → Bool} {s0 : State} {s : State} {kind : Rst}
    (wAll : ∀ n, Q n = true) (wmem : Part.mem ∈ W) (wstore : Part.store ∈ W) (wsnaps : Part.snaps ∈ W) (wrecorder : Part.recorder ∈ W) (wtime : Part.time ∈ W) (wvcore : Part.vcore ∈ W) (wharts : Part.harts ∈ W) (wbanks : Part.banks ∈ W) (wchans : Part.chans ∈ W) (wbus : Part.bus ∈ W) (wports : Part.ports ∈ W) (wgrading : Part.grading ∈ W) (wlogs : Part.logs ∈ W) (wbridge : Part.bridge ∈ W) (wpair : Part.pair ∈ W) (whost : Part.host ∈ W) (wkeys : Part.keys ∈ W) (wpages : Part.pages ∈ W) (wboot : Part.boot ∈ W) (wqueues : Part.queues ∈ W) (wswitch : Part.switch ∈ W) (wcan : Part.can ∈ W) (wpower : Part.power ∈ W) (wfta : Part.fta ∈ W)
    (hK : Keeps W Q s0 s) : Keeps W Q s0 (State.resetState s kind) := by
  unfold State.resetState
  repeat' (first
    | with_reducible assumption
    | with_reducible exact id
    | with_reducible exact fun k => Mem.wf_writeBytes k
    | with_reducible exact fun k => Mem.wf_erase k
    | with_reducible exact fun k => SMap.wf_set k
    | with_reducible exact fun k => SMap.wf_drop k
    | with_reducible exact fun k => SMap.wf_foldl k
    | with_reducible exact fun k => SMap.wf_foldl (SMap.wf_drop k)
    | with_reducible exact fun _ _ k => absurd k List.not_mem_nil
    | intro _
    | with_reducible exact wAll _
    | with_reducible apply State.loseSession_keeps
    | with_reducible apply State.resetNotice_keeps
    | with_reducible apply State.nwmForce_keeps
    | with_reducible apply State.storeTime_keeps
    | with_reducible apply State.loseLogic_keeps
    | with_reducible apply State.wr_keeps
    | with_reducible apply State.resetOwners_keeps
    | with_reducible apply State.raise_keeps
    | with_reducible apply State.loseMem_keeps
    | with_reducible apply State.aonReset_keeps
    | with_reducible apply State.updSync_keeps
    | with_reducible apply keeps_next
    | with_reducible apply keeps_foldl
    | with_reducible apply keeps_foldl1
    | with_reducible exact Or.inr (by assumption)
    | with_reducible exact Or.inl rfl
    | dsimp only
    | (simp only [keeps_mk_eq]; with_reducible apply keeps_mk)
    | with_reducible apply keeps_ite
    | with_reducible apply keeps_ite1
    | split)

theorem State.resetWith_keeps {W : List Part} {Q : Nat → Bool} {s0 : State} {s : State} {kind : Rst} {cause : Fld}
    (wAll : ∀ n, Q n = true) (wmem : Part.mem ∈ W) (wstore : Part.store ∈ W) (wsnaps : Part.snaps ∈ W) (wrecorder : Part.recorder ∈ W) (wtime : Part.time ∈ W) (wvcore : Part.vcore ∈ W) (wharts : Part.harts ∈ W) (wbanks : Part.banks ∈ W) (wchans : Part.chans ∈ W) (wbus : Part.bus ∈ W) (wports : Part.ports ∈ W) (wgrading : Part.grading ∈ W) (wlogs : Part.logs ∈ W) (wbridge : Part.bridge ∈ W) (wpair : Part.pair ∈ W) (whost : Part.host ∈ W) (wkeys : Part.keys ∈ W) (wpages : Part.pages ∈ W) (wboot : Part.boot ∈ W) (wqueues : Part.queues ∈ W) (wswitch : Part.switch ∈ W) (wcan : Part.can ∈ W) (wpower : Part.power ∈ W) (wfta : Part.fta ∈ W)
    (hK : Keeps W Q s0 s) : Keeps W Q s0 (State.resetWith s kind cause) := by
  unfold State.resetWith
  repeat' (first
    | with_reducible assumption
    | with_reducible exact id
    | with_reducible exact fun k => Mem.wf_writeBytes k
    | with_reducible exact fun k => Mem.wf_erase k
    | with_reducible exact fun k => SMap.wf_set k
    | with_reducible exact fun k => SMap.wf_drop k
    | with_reducible exact fun k => SMap.wf_foldl k
    | with_reducible exact fun k => SMap.wf_foldl (SMap.wf_drop k)
    | with_reducible exact fun _ _ k => absurd k List.not_mem_nil
    | intro _
    | with_reducible exact wAll _
    | with_reducible apply State.wr_keeps
    | with_reducible apply State.resetState_keeps
    | with_reducible apply keeps_next
    | with_reducible apply keeps_foldl
    | with_reducible apply keeps_foldl1
    | with_reducible exact Or.inr (by assumption)
    | with_reducible exact Or.inl rfl
    | dsimp only
    | (simp only [keeps_mk_eq]; with_reducible apply keeps_mk)
    | with_reducible apply keeps_ite
    | with_reducible apply keeps_ite1
    | split)

theorem State.rstCmd_keeps {W : List Part} {Q : Nat → Bool} {s0 : State} {s : State} {d : Word}
    (wAll : ∀ n, Q n = true) (wmem : Part.mem ∈ W) (wstore : Part.store ∈ W) (wsnaps : Part.snaps ∈ W) (wrecorder : Part.recorder ∈ W) (wtime : Part.time ∈ W) (wvcore : Part.vcore ∈ W) (wharts : Part.harts ∈ W) (wbanks : Part.banks ∈ W) (wchans : Part.chans ∈ W) (wbus : Part.bus ∈ W) (wports : Part.ports ∈ W) (wgrading : Part.grading ∈ W) (wlogs : Part.logs ∈ W) (wbridge : Part.bridge ∈ W) (wpair : Part.pair ∈ W) (whost : Part.host ∈ W) (wkeys : Part.keys ∈ W) (wpages : Part.pages ∈ W) (wboot : Part.boot ∈ W) (wqueues : Part.queues ∈ W) (wswitch : Part.switch ∈ W) (wcan : Part.can ∈ W) (wpower : Part.power ∈ W) (wfta : Part.fta ∈ W)
    (hK : Keeps W Q s0 s) : Keeps W Q s0 (State.rstCmd s d) := by
  unfold State.rstCmd
  repeat' (first
    | with_reducible assumption
    | with_reducible exact id
    | with_reducible exact fun k => Mem.wf_writeBytes k
    | with_reducible exact fun k => Mem.wf_erase k
    | with_reducible exact fun k => SMap.wf_set k
    | with_reducible exact fun k => SMap.wf_drop k
    | with_reducible exact fun k => SMap.wf_foldl k
    | with_reducible exact fun k => SMap.wf_foldl (SMap.wf_drop k)
    | with_reducible exact fun _ _ k => absurd k List.not_mem_nil
    | intro _
    | with_reducible exact wAll _
    | with_reducible apply State.resetWith_keeps
    | with_reducible apply keeps_next
    | with_reducible apply keeps_foldl
    | with_reducible apply keeps_foldl1
    | with_reducible exact Or.inr (by assumption)
    | with_reducible exact Or.inl rfl
    | dsimp only
    | (simp only [keeps_mk_eq]; with_reducible apply keeps_mk)
    | with_reducible apply keeps_ite
    | with_reducible apply keeps_ite1
    | split)

theorem execRstCmdWarm_keeps {W : List Part} {Q : Nat → Bool} {s0 : State} {r : Req} {d : Word} {s : State}
    (wAll : ∀ n, Q n = true) (wmem : Part.mem ∈ W) (wstore : Part.store ∈ W) (wsnaps : Part.snaps ∈ W) (wrecorder : Part.recorder ∈ W) (wtime : Part.time ∈ W) (wvcore : Part.vcore ∈ W) (wharts : Part.harts ∈ W) (wbanks : Part.banks ∈ W) (wchans : Part.chans ∈ W) (wbus : Part.bus ∈ W) (wports : Part.ports ∈ W) (wgrading : Part.grading ∈ W) (wlogs : Part.logs ∈ W) (wbridge : Part.bridge ∈ W) (wpair : Part.pair ∈ W) (whost : Part.host ∈ W) (wkeys : Part.keys ∈ W) (wpages : Part.pages ∈ W) (wboot : Part.boot ∈ W) (wqueues : Part.queues ∈ W) (wswitch : Part.switch ∈ W) (wcan : Part.can ∈ W) (wpower : Part.power ∈ W) (wfta : Part.fta ∈ W) (wfield : Part.field ∈ W)
    (hK : Keeps W Q s0 s) : Res.Keeps W Q s0 (execRstCmdWarm r d s) := by
  unfold execRstCmdWarm
  repeat' (first
    | with_reducible assumption
    | with_reducible exact id
    | with_reducible exact fun k => Mem.wf_writeBytes k
    | with_reducible exact fun k => Mem.wf_erase k
    | with_reducible exact fun k => SMap.wf_set k
    | with_reducible exact fun k => SMap.wf_drop k
    | with_reducible exact fun k => SMap.wf_foldl k
    | with_reducible exact fun k => SMap.wf_foldl (SMap.wf_drop k)
    | with_reducible exact fun _ _ k => absurd k List.not_mem_nil
    | intro _
    | with_reducible exact wAll _
    | with_reducible apply State.access_keeps
    | with_reducible apply State.start_keeps
    | with_reducible apply State.rstCmd_keeps
    | with_reducible apply keeps_next
    | with_reducible apply keeps_foldl
    | with_reducible apply keeps_foldl1
    | with_reducible exact Or.inr (by assumption)
    | with_reducible exact Or.inl rfl
    | dsimp only
    | (simp only [keeps_mk_eq]; with_reducible apply keeps_mk)
    | with_reducible apply keeps_ite
    | with_reducible apply keeps_ite1
    | split)

theorem execRstCmdCold_keeps {W : List Part} {Q : Nat → Bool} {s0 : State} {r : Req} {d : Word} {s : State}
    (wAll : ∀ n, Q n = true) (wmem : Part.mem ∈ W) (wstore : Part.store ∈ W) (wsnaps : Part.snaps ∈ W) (wrecorder : Part.recorder ∈ W) (wtime : Part.time ∈ W) (wvcore : Part.vcore ∈ W) (wharts : Part.harts ∈ W) (wbanks : Part.banks ∈ W) (wchans : Part.chans ∈ W) (wbus : Part.bus ∈ W) (wports : Part.ports ∈ W) (wgrading : Part.grading ∈ W) (wlogs : Part.logs ∈ W) (wbridge : Part.bridge ∈ W) (wpair : Part.pair ∈ W) (whost : Part.host ∈ W) (wkeys : Part.keys ∈ W) (wpages : Part.pages ∈ W) (wboot : Part.boot ∈ W) (wqueues : Part.queues ∈ W) (wswitch : Part.switch ∈ W) (wcan : Part.can ∈ W) (wpower : Part.power ∈ W) (wfta : Part.fta ∈ W) (wfield : Part.field ∈ W)
    (hK : Keeps W Q s0 s) : Res.Keeps W Q s0 (execRstCmdCold r d s) := by
  unfold execRstCmdCold
  repeat' (first
    | with_reducible assumption
    | with_reducible exact id
    | with_reducible exact fun k => Mem.wf_writeBytes k
    | with_reducible exact fun k => Mem.wf_erase k
    | with_reducible exact fun k => SMap.wf_set k
    | with_reducible exact fun k => SMap.wf_drop k
    | with_reducible exact fun k => SMap.wf_foldl k
    | with_reducible exact fun k => SMap.wf_foldl (SMap.wf_drop k)
    | with_reducible exact fun _ _ k => absurd k List.not_mem_nil
    | intro _
    | with_reducible exact wAll _
    | with_reducible apply State.access_keeps
    | with_reducible apply State.start_keeps
    | with_reducible apply State.rstCmd_keeps
    | with_reducible apply keeps_next
    | with_reducible apply keeps_foldl
    | with_reducible apply keeps_foldl1
    | with_reducible exact Or.inr (by assumption)
    | with_reducible exact Or.inl rfl
    | dsimp only
    | (simp only [keeps_mk_eq]; with_reducible apply keeps_mk)
    | with_reducible apply keeps_ite
    | with_reducible apply keeps_ite1
    | split)

theorem execResetPin_keeps {W : List Part} {Q : Nat → Bool} {s0 : State} {s : State}
    (wAll : ∀ n, Q n = true) (wmem : Part.mem ∈ W) (wstore : Part.store ∈ W) (wsnaps : Part.snaps ∈ W) (wrecorder : Part.recorder ∈ W) (wtime : Part.time ∈ W) (wvcore : Part.vcore ∈ W) (wharts : Part.harts ∈ W) (wbanks : Part.banks ∈ W) (wchans : Part.chans ∈ W) (wbus : Part.bus ∈ W) (wports : Part.ports ∈ W) (wgrading : Part.grading ∈ W) (wlogs : Part.logs ∈ W) (wbridge : Part.bridge ∈ W) (wpair : Part.pair ∈ W) (whost : Part.host ∈ W) (wkeys : Part.keys ∈ W) (wpages : Part.pages ∈ W) (wboot : Part.boot ∈ W) (wqueues : Part.queues ∈ W) (wswitch : Part.switch ∈ W) (wcan : Part.can ∈ W) (wpower : Part.power ∈ W) (wfta : Part.fta ∈ W)
    (hK : Keeps W Q s0 s) : Res.Keeps W Q s0 (execResetPin s) := by
  unfold execResetPin
  repeat' (first
    | with_reducible assumption
    | with_reducible exact id
    | with_reducible exact fun k => Mem.wf_writeBytes k
    | with_reducible exact fun k => Mem.wf_erase k
    | with_reducible exact fun k => SMap.wf_set k
    | with_reducible exact fun k => SMap.wf_drop k
    | with_reducible exact fun k => SMap.wf_foldl k
    | with_reducible exact fun k => SMap.wf_foldl (SMap.wf_drop k)
    | with_reducible exact fun _ _ k => absurd k List.not_mem_nil
    | intro _
    | with_reducible exact wAll _
    | with_reducible apply State.start_keeps
    | with_reducible apply State.resetWith_keeps
    | with_reducible apply State.leaveSleep_keeps
    | with_reducible apply keeps_next
    | with_reducible apply keeps_foldl
    | with_reducible apply keeps_foldl1
    | with_reducible exact Or.inr (by assumption)
    | with_reducible exact Or.inl rfl
    | dsimp only
    | (simp only [keeps_mk_eq]; with_reducible apply keeps_mk)
    | with_reducible apply keeps_ite
    | with_reducible apply keeps_ite1
    | split)

theorem execPowerOnReset_keeps {W : List Part} {Q : Nat → Bool} {s0 : State} {s : State}
    (wAll : ∀ n, Q n = true) (wmem : Part.mem ∈ W) (wstore : Part.store ∈ W) (wsnaps : Part.snaps ∈ W) (wrecorder : Part.recorder ∈ W) (wtime : Part.time ∈ W) (wvcore : Part.vcore ∈ W) (wharts : Part.harts ∈ W) (wbanks : Part.banks ∈ W) (wchans : Part.chans ∈ W) (wbus : Part.bus ∈ W) (wports : Part.ports ∈ W) (wgrading : Part.grading ∈ W) (wlogs : Part.logs ∈ W) (wbridge : Part.bridge ∈ W) (wpair : Part.pair ∈ W) (whost : Part.host ∈ W) (wkeys : Part.keys ∈ W) (wpages : Part.pages ∈ W) (wboot : Part.boot ∈ W) (wqueues : Part.queues ∈ W) (wswitch : Part.switch ∈ W) (wcan : Part.can ∈ W) (wpower : Part.power ∈ W) (wfta : Part.fta ∈ W)
    (hK : Keeps W Q s0 s) : Res.Keeps W Q s0 (execPowerOnReset s) := by
  unfold execPowerOnReset
  repeat' (first
    | with_reducible assumption
    | with_reducible exact id
    | with_reducible exact fun k => Mem.wf_writeBytes k
    | with_reducible exact fun k => Mem.wf_erase k
    | with_reducible exact fun k => SMap.wf_set k
    | with_reducible exact fun k => SMap.wf_drop k
    | with_reducible exact fun k => SMap.wf_foldl k
    | with_reducible exact fun k => SMap.wf_foldl (SMap.wf_drop k)
    | with_reducible exact fun _ _ k => absurd k List.not_mem_nil
    | intro _
    | with_reducible exact wAll _
    | with_reducible apply State.resetWith_keeps
    | with_reducible apply State.start_keeps
    | with_reducible apply keeps_next
    | with_reducible apply keeps_foldl
    | with_reducible apply keeps_foldl1
    | with_reducible exact Or.inr (by assumption)
    | with_reducible exact Or.inl rfl
    | dsimp only
    | (simp only [keeps_mk_eq]; with_reducible apply keeps_mk)
    | with_reducible apply keeps_ite
    | with_reducible apply keeps_ite1
    | split)

theorem execBrownout_keeps {W : List Part} {Q : Nat → Bool} {s0 : State} {s : State}
    (wAll : ∀ n, Q n = true) (wmem : Part.mem ∈ W) (wstore : Part.store ∈ W) (wsnaps : Part.snaps ∈ W) (wrecorder : Part.recorder ∈ W) (wtime : Part.time ∈ W) (wvcore : Part.vcore ∈ W) (wharts : Part.harts ∈ W) (wbanks : Part.banks ∈ W) (wchans : Part.chans ∈ W) (wbus : Part.bus ∈ W) (wports : Part.ports ∈ W) (wgrading : Part.grading ∈ W) (wlogs : Part.logs ∈ W) (wbridge : Part.bridge ∈ W) (wpair : Part.pair ∈ W) (whost : Part.host ∈ W) (wkeys : Part.keys ∈ W) (wpages : Part.pages ∈ W) (wboot : Part.boot ∈ W) (wqueues : Part.queues ∈ W) (wswitch : Part.switch ∈ W) (wcan : Part.can ∈ W) (wpower : Part.power ∈ W) (wfta : Part.fta ∈ W)
    (hK : Keeps W Q s0 s) : Res.Keeps W Q s0 (execBrownout s) := by
  unfold execBrownout
  repeat' (first
    | with_reducible assumption
    | with_reducible exact id
    | with_reducible exact fun k => Mem.wf_writeBytes k
    | with_reducible exact fun k => Mem.wf_erase k
    | with_reducible exact fun k => SMap.wf_set k
    | with_reducible exact fun k => SMap.wf_drop k
    | with_reducible exact fun k => SMap.wf_foldl k
    | with_reducible exact fun k => SMap.wf_foldl (SMap.wf_drop k)
    | with_reducible exact fun _ _ k => absurd k List.not_mem_nil
    | intro _
    | with_reducible exact wAll _
    | with_reducible apply State.start_keeps
    | with_reducible apply State.resetWith_keeps
    | with_reducible apply keeps_next
    | with_reducible apply keeps_foldl
    | with_reducible apply keeps_foldl1
    | with_reducible exact Or.inr (by assumption)
    | with_reducible exact Or.inl rfl
    | dsimp only
    | (simp only [keeps_mk_eq]; with_reducible apply keeps_mk)
    | with_reducible apply keeps_ite
    | with_reducible apply keeps_ite1
    | split)

theorem State.wdtExpiry_keeps {W : List Part} {Q : Nat → Bool} {s0 : State} {s : State} {second : Bool}
    (wAll : ∀ n, Q n = true) (wmem : Part.mem ∈ W) (wstore : Part.store ∈ W) (wsnaps : Part.snaps ∈ W) (wrecorder : Part.recorder ∈ W) (wtime : Part.time ∈ W) (wvcore : Part.vcore ∈ W) (wharts : Part.harts ∈ W) (wbanks : Part.banks ∈ W) (wchans : Part.chans ∈ W) (wbus : Part.bus ∈ W) (wports : Part.ports ∈ W) (wgrading : Part.grading ∈ W) (wlogs : Part.logs ∈ W) (wbridge : Part.bridge ∈ W) (wpair : Part.pair ∈ W) (whost : Part.host ∈ W) (wkeys : Part.keys ∈ W) (wpages : Part.pages ∈ W) (wboot : Part.boot ∈ W) (wqueues : Part.queues ∈ W) (wswitch : Part.switch ∈ W) (wcan : Part.can ∈ W) (wpower : Part.power ∈ W) (wfta : Part.fta ∈ W)
    (hK : Keeps W Q s0 s) : Keeps W Q s0 (State.wdtExpiry s second) := by
  unfold State.wdtExpiry
  repeat' (first
    | with_reducible assumption
    | with_reducible exact id
    | with_reducible exact fun k => Mem.wf_writeBytes k
    | with_reducible exact fun k => Mem.wf_erase k
    | with_reducible exact fun k => SMap.wf_set k
    | with_reducible exact fun k => SMap.wf_drop k
    | with_reducible exact fun k => SMap.wf_foldl k
    | with_reducible exact fun k => SMap.wf_foldl (SMap.wf_drop k)
    | with_reducible exact fun _ _ k => absurd k List.not_mem_nil
    | intro _
    | with_reducible exact wAll _
    | with_reducible apply State.resetWith_keeps
    | with_reducible apply keeps_next
    | with_reducible apply keeps_foldl
    | with_reducible apply keeps_foldl1
    | with_reducible exact Or.inr (by assumption)
    | with_reducible exact Or.inl rfl
    | dsimp only
    | (simp only [keeps_mk_eq]; with_reducible apply keeps_mk)
    | with_reducible apply keeps_ite
    | with_reducible apply keeps_ite1
    | split)

theorem execWatchdogExpiry_keeps {W : List Part} {Q : Nat → Bool} {s0 : State} {second : Bool} {s : State}
    (wAll : ∀ n, Q n = true) (wmem : Part.mem ∈ W) (wstore : Part.store ∈ W) (wsnaps : Part.snaps ∈ W) (wrecorder : Part.recorder ∈ W) (wtime : Part.time ∈ W) (wvcore : Part.vcore ∈ W) (wharts : Part.harts ∈ W) (wbanks : Part.banks ∈ W) (wchans : Part.chans ∈ W) (wbus : Part.bus ∈ W) (wports : Part.ports ∈ W) (wgrading : Part.grading ∈ W) (wlogs : Part.logs ∈ W) (wbridge : Part.bridge ∈ W) (wpair : Part.pair ∈ W) (whost : Part.host ∈ W) (wkeys : Part.keys ∈ W) (wpages : Part.pages ∈ W) (wboot : Part.boot ∈ W) (wqueues : Part.queues ∈ W) (wswitch : Part.switch ∈ W) (wcan : Part.can ∈ W) (wpower : Part.power ∈ W) (wfta : Part.fta ∈ W)
    (hK : Keeps W Q s0 s) : Res.Keeps W Q s0 (execWatchdogExpiry second s) := by
  unfold execWatchdogExpiry
  repeat' (first
    | with_reducible assumption
    | with_reducible exact id
    | with_reducible exact fun k => Mem.wf_writeBytes k
    | with_reducible exact fun k => Mem.wf_erase k
    | with_reducible exact fun k => SMap.wf_set k
    | with_reducible exact fun k => SMap.wf_drop k
    | with_reducible exact fun k => SMap.wf_foldl k
    | with_reducible exact fun k => SMap.wf_foldl (SMap.wf_drop k)
    | with_reducible exact fun _ _ k => absurd k List.not_mem_nil
    | intro _
    | with_reducible exact wAll _
    | with_reducible apply State.start_keeps
    | with_reducible apply State.wdtExpiry_keeps
    | with_reducible apply keeps_next
    | with_reducible apply keeps_foldl
    | with_reducible apply keeps_foldl1
    | with_reducible exact Or.inr (by assumption)
    | with_reducible exact Or.inl rfl
    | dsimp only
    | (simp only [keeps_mk_eq]; with_reducible apply keeps_mk)
    | with_reducible apply keeps_ite
    | with_reducible apply keeps_ite1
    | split)

theorem execWatchdogKick_keeps {W : List Part} {Q : Nat → Bool} {s0 : State} {r : Req} {d : Word} {second : Bool} {s : State}
    (wAll : ∀ n, Q n = true) (wmem : Part.mem ∈ W) (wstore : Part.store ∈ W) (wsnaps : Part.snaps ∈ W) (wrecorder : Part.recorder ∈ W) (wtime : Part.time ∈ W) (wvcore : Part.vcore ∈ W) (wharts : Part.harts ∈ W) (wbanks : Part.banks ∈ W) (wchans : Part.chans ∈ W) (wbus : Part.bus ∈ W) (wports : Part.ports ∈ W) (wgrading : Part.grading ∈ W) (wlogs : Part.logs ∈ W) (wbridge : Part.bridge ∈ W) (wpair : Part.pair ∈ W) (whost : Part.host ∈ W) (wkeys : Part.keys ∈ W) (wpages : Part.pages ∈ W) (wboot : Part.boot ∈ W) (wqueues : Part.queues ∈ W) (wswitch : Part.switch ∈ W) (wcan : Part.can ∈ W) (wpower : Part.power ∈ W) (wfta : Part.fta ∈ W) (wfield : Part.field ∈ W)
    (hK : Keeps W Q s0 s) : Res.Keeps W Q s0 (execWatchdogKick r d second s) := by
  unfold execWatchdogKick
  repeat' (first
    | with_reducible assumption
    | with_reducible exact id
    | with_reducible exact fun k => Mem.wf_writeBytes k
    | with_reducible exact fun k => Mem.wf_erase k
    | with_reducible exact fun k => SMap.wf_set k
    | with_reducible exact fun k => SMap.wf_drop k
    | with_reducible exact fun k => SMap.wf_foldl k
    | with_reducible exact fun k => SMap.wf_foldl (SMap.wf_drop k)
    | with_reducible exact fun _ _ k => absurd k List.not_mem_nil
    | intro _
    | with_reducible exact wAll _
    | with_reducible apply State.access_keeps
    | with_reducible apply State.start_keeps
    | with_reducible apply State.wdtExpiry_keeps
    | with_reducible apply keeps_next
    | with_reducible apply keeps_foldl
    | with_reducible apply keeps_foldl1
    | with_reducible exact Or.inr (by assumption)
    | with_reducible exact Or.inl rfl
    | dsimp only
    | (simp only [keeps_mk_eq]; with_reducible apply keeps_mk)
    | with_reducible apply keeps_ite
    | with_reducible apply keeps_ite1
    | split)

theorem execDebugColdRequest_keeps {W : List Part} {Q : Nat → Bool} {s0 : State} {s : State}
    (wAll : ∀ n, Q n = true) (wmem : Part.mem ∈ W) (wstore : Part.store ∈ W) (wsnaps : Part.snaps ∈ W) (wrecorder : Part.recorder ∈ W) (wtime : Part.time ∈ W) (wvcore : Part.vcore ∈ W) (wharts : Part.harts ∈ W) (wbanks : Part.banks ∈ W) (wchans : Part.chans ∈ W) (wbus : Part.bus ∈ W) (wports : Part.ports ∈ W) (wgrading : Part.grading ∈ W) (wlogs : Part.logs ∈ W) (wbridge : Part.bridge ∈ W) (wpair : Part.pair ∈ W) (whost : Part.host ∈ W) (wkeys : Part.keys ∈ W) (wpages : Part.pages ∈ W) (wboot : Part.boot ∈ W) (wqueues : Part.queues ∈ W) (wswitch : Part.switch ∈ W) (wcan : Part.can ∈ W) (wpower : Part.power ∈ W) (wfta : Part.fta ∈ W)
    (hK : Keeps W Q s0 s) : Res.Keeps W Q s0 (execDebugColdRequest s) := by
  unfold execDebugColdRequest
  repeat' (first
    | with_reducible assumption
    | with_reducible exact id
    | with_reducible exact fun k => Mem.wf_writeBytes k
    | with_reducible exact fun k => Mem.wf_erase k
    | with_reducible exact fun k => SMap.wf_set k
    | with_reducible exact fun k => SMap.wf_drop k
    | with_reducible exact fun k => SMap.wf_foldl k
    | with_reducible exact fun k => SMap.wf_foldl (SMap.wf_drop k)
    | with_reducible exact fun _ _ k => absurd k List.not_mem_nil
    | intro _
    | with_reducible exact wAll _
    | with_reducible apply State.start_keeps
    | with_reducible apply State.resetWith_keeps
    | with_reducible apply keeps_next
    | with_reducible apply keeps_foldl
    | with_reducible apply keeps_foldl1
    | with_reducible exact Or.inr (by assumption)
    | with_reducible exact Or.inl rfl
    | dsimp only
    | (simp only [keeps_mk_eq]; with_reducible apply keeps_mk)
    | with_reducible apply keeps_ite
    | with_reducible apply keeps_ite1
    | split)

end Sys2Proof.Machine
end

