-- ==== Sys2Proof/Laws/KeepsStartup.lean ====
section
/-! SUPPORT. What each function and command of Machine/Startup.lean keeps. -/
set_option linter.all false
set_option Elab.async false
namespace Sys2Proof.Machine

theorem State.openKeys_keeps {W : List Part} {Q : Nat → Bool} {s0 : State} {s : State}
    (wpgDbg : Q pgDbg = true) (wpgKey : Q pgKey = true) (wkeys : Part.keys ∈ W)
    (hK : Keeps W Q s0 s) : Keeps W Q s0 (State.openKeys s) := by
  unfold State.openKeys
  repeat' (first
    | with_reducible assumption
    | with_reducible exact id
    | with_reducible exact fun k => Mem.wf_writeBytes k
    | with_reducible exact fun k => Mem.wf_erase k
    | with_reducible exact fun k => SMap.wf_set k
    | with_reducible exact fun k => SMap.wf_drop k
    | with_reducible exact fun k => SMap.wf_foldl k
    | with_reducible exact fun k => SMap.wf_foldl (SMap.wf_drop k)
    | with_reducible exact fun _ _ k => absurd k List.not_mem_nil
    | intro _
    | with_reducible apply State.wr_keeps
    | with_reducible apply keeps_next
    | with_reducible apply keeps_foldl
    | with_reducible apply keeps_foldl1
    | with_reducible exact Or.inr (by assumption)
    | with_reducible exact Or.inl rfl
    | dsimp only
    | (simp only [keeps_mk_eq]; with_reducible apply keeps_mk)
    | with_reducible apply keeps_ite
    | with_reducible apply keeps_ite1
    | split)

theorem State.startBank_keeps {W : List Part} {Q : Nat → Bool} {s0 : State} {s : State} {b : Nat}
    (wpgDbg : Q pgDbg = true) (wpgKey : Q pgKey = true) (wpgPwr : Q pgPwr = true) (wpgUpd : Q pgUpd = true) (wharts : Part.harts ∈ W) (wkeys : Part.keys ∈ W) (wboot : Part.boot ∈ W)
    (hK : Keeps W Q s0 s) : Keeps W Q s0 (State.startBank s b) := by
  unfold State.startBank
  repeat' (first
    | with_reducible assumption
    | with_reducible exact id
    | with_reducible exact fun k => Mem.wf_writeBytes k
    | with_reducible exact fun k => Mem.wf_erase k
    | with_reducible exact fun k => SMap.wf_set k
    | with_reducible exact fun k => SMap.wf_drop k
    | with_reducible exact fun k => SMap.wf_foldl k
    | with_reducible exact fun k => SMap.wf_foldl (SMap.wf_drop k)
    | with_reducible exact fun _ _ k => absurd k List.not_mem_nil
    | intro _
    | with_reducible apply State.openKeys_keeps
    | with_reducible apply State.updSync_keeps
    | with_reducible apply State.onBit_keeps
    | with_reducible apply State.startHart_keeps
    | with_reducible apply keeps_next
    | with_reducible apply keeps_foldl
    | with_reducible apply keeps_foldl1
    | with_reducible exact Or.inr (by assumption)
    | with_reducible exact Or.inl rfl
    | dsimp only
    | (simp only [keeps_mk_eq]; with_reducible apply keeps_mk)
    | with_reducible apply keeps_ite
    | with_reducible apply keeps_ite1
    | split)

theorem State.recovery_keeps {W : List Part} {Q : Nat → Bool} {s0 : State} {s : State} {failed : Nat}
    (wpgUpd : Q pgUpd = true) (wboot : Part.boot ∈ W)
    (hK : Keeps W Q s0 s) : Keeps W Q s0 (State.recovery s failed) := by
  unfold State.recovery
  repeat' (first
    | with_reducible assumption
    | with_reducible exact id
    | with_reducible exact fun k => Mem.wf_writeBytes k
    | with_reducible exact fun k => Mem.wf_erase k
    | with_reducible exact fun k => SMap.wf_set k
    | with_reducible exact fun k => SMap.wf_drop k
    | with_reducible exact fun k => SMap.wf_foldl k
    | with_reducible exact fun k => SMap.wf_foldl (SMap.wf_drop k)
    | with_reducible exact fun _ _ k => absurd k List.not_mem_nil
    | intro _
    | with_reducible apply State.updSync_keeps
    | with_reducible apply keeps_next
    | with_reducible apply keeps_foldl
    | with_reducible apply keeps_foldl1
    | with_reducible exact Or.inr (by assumption)
    | with_reducible exact Or.inl rfl
    | dsimp only
    | (simp only [keeps_mk_eq]; with_reducible apply keeps_mk)
    | with_reducible apply keeps_ite
    | with_reducible apply keeps_ite1
    | split)

theorem State.chooseBank_keeps {W : List Part} {Q : Nat → Bool} {s0 : State} {s : State} {failed : Nat} {x1 : List Nat}
    (wiCode_4 : Q (iCode 4) = true) (wiFn_n : ∀ n, Q (iFn n) = true) (wpgDbg : Q pgDbg = true) (wpgEvr : Q pgEvr = true) (wpgKey : Q pgKey = true) (wpgPwr : Q pgPwr = true) (wpgUpd : Q pgUpd = true) (wrecorder : Part.recorder ∈ W) (wharts : Part.harts ∈ W) (wkeys : Part.keys ∈ W) (wboot : Part.boot ∈ W)
    (hK : Keeps W Q s0 s) : Keeps W Q s0 (State.chooseBank s failed x1) := by
  induction x1 generalizing s failed with
  | nil =>
    unfold State.chooseBank
    repeat' (first
      | with_reducible assumption
      | with_reducible exact id
      | with_reducible exact fun k => Mem.wf_writeBytes k
      | with_reducible exact fun k => Mem.wf_erase k
      | with_reducible exact fun k => SMap.wf_set k
      | with_reducible exact fun k => SMap.wf_drop k
      | with_reducible exact fun k => SMap.wf_foldl k
      | with_reducible exact fun k => SMap.wf_foldl (SMap.wf_drop k)
      | with_reducible exact fun _ _ k => absurd k List.not_mem_nil
      | intro _
      | with_reducible exact wiFn_n _
      | with_reducible apply State.recovery_keeps
      | with_reducible apply State.setBoot_keeps
      | with_reducible apply State.raise_keeps
      | with_reducible apply State.updRecord_keeps
      | with_reducible apply State.startBank_keeps
      | with_reducible apply keeps_next
      | with_reducible apply keeps_foldl
      | with_reducible apply keeps_foldl1
      | with_reducible exact Or.inr (by assumption)
      | with_reducible exact Or.inl rfl
      | dsimp only
      | (simp only [keeps_mk_eq]; with_reducible apply keeps_mk)
      | with_reducible apply keeps_ite
      | with_reducible apply keeps_ite1
      | split)
  | cons a l ih =>
    unfold State.chooseBank
    repeat' (first
      | with_reducible assumption
      | with_reducible apply ih
      | with_reducible exact id
      | with_reducible exact fun k => Mem.wf_writeBytes k
      | with_reducible exact fun k => Mem.wf_erase k
      | with_reducible exact fun k => SMap.wf_set k
      | with_reducible exact fun k => SMap.wf_drop k
      | with_reducible exact fun k => SMap.wf_foldl k
      | with_reducible exact fun k => SMap.wf_foldl (SMap.wf_drop k)
      | with_reducible exact fun _ _ k => absurd k List.not_mem_nil
      | intro _
      | with_reducible exact wiFn_n _
      | with_reducible apply State.recovery_keeps
      | with_reducible apply State.setBoot_keeps
      | with_reducible apply State.raise_keeps
      | with_reducible apply State.updRecord_keeps
      | with_reducible apply State.startBank_keeps
      | with_reducible apply keeps_next
      | with_reducible apply keeps_foldl
      | with_reducible apply keeps_foldl1
      | with_reducible exact Or.inr (by assumption)
      | with_reducible exact Or.inl rfl
      | dsimp only
      | (simp only [keeps_mk_eq]; with_reducible apply keeps_mk)
      | with_reducible apply keeps_ite
      | with_reducible apply keeps_ite1
      | split)

theorem State.wakeLogic_keeps {W : List Part} {Q : Nat → Bool} {s0 : State} {s : State}
    (wAll : ∀ n, Q n = true) (wmem : Part.mem ∈ W) (wstore : Part.store ∈ W) (wsnaps : Part.snaps ∈ W) (wrecorder : Part.recorder ∈ W) (wtime : Part.time ∈ W) (wvcore : Part.vcore ∈ W) (wbanks : Part.banks ∈ W) (wchans : Part.chans ∈ W) (wbus : Part.bus ∈ W) (wports : Part.ports ∈ W) (wgrading : Part.grading ∈ W) (wlogs : Part.logs ∈ W) (wbridge : Part.bridge ∈ W) (wpair : Part.pair ∈ W) (whost : Part.host ∈ W) (wboot : Part.boot ∈ W) (wqueues : Part.queues ∈ W) (wcan : Part.can ∈ W) (wfta : Part.fta ∈ W)
    (hK : Keeps W Q s0 s) : Keeps W Q s0 (State.wakeLogic s) := by
  unfold State.wakeLogic
  repeat' (first
    | with_reducible assumption
    | with_reducible exact id
    | with_reducible exact fun k => Mem.wf_writeBytes k
    | with_reducible exact fun k => Mem.wf_erase k
    | with_reducible exact fun k => SMap.wf_set k
    | with_reducible exact fun k => SMap.wf_drop k
    | with_reducible exact fun k => SMap.wf_foldl k
    | with_reducible exact fun k => SMap.wf_foldl (SMap.wf_drop k)
    | with_reducible exact fun _ _ k => absurd k List.not_mem_nil
    | intro _
    | with_reducible exact wAll _
    | with_reducible apply State.loseFabric_keeps
    | with_reducible apply State.loseBanks_keeps
    | with_reducible apply keeps_next
    | with_reducible apply keeps_foldl
    | with_reducible apply keeps_foldl1
    | with_reducible exact Or.inr (by assumption)
    | with_reducible exact Or.inl rfl
    | dsimp only
    | (simp only [keeps_mk_eq]; with_reducible apply keeps_mk)
    | with_reducible apply keeps_ite
    | with_reducible apply keeps_ite1
    | split)

theorem State.startUp_keeps {W : List Part} {Q : Nat → Bool} {s0 : State} {s : State} {train : Bool}
    (wAll : ∀ n, Q n = true) (wmem : Part.mem ∈ W) (wstore : Part.store ∈ W) (wsnaps : Part.snaps ∈ W) (wrecorder : Part.recorder ∈ W) (wtime : Part.time ∈ W) (wvcore : Part.vcore ∈ W) (wharts : Part.harts ∈ W) (wbanks : Part.banks ∈ W) (wchans : Part.chans ∈ W) (wbus : Part.bus ∈ W) (wports : Part.ports ∈ W) (wgrading : Part.grading ∈ W) (wlogs : Part.logs ∈ W) (wbridge : Part.bridge ∈ W) (wpair : Part.pair ∈ W) (whost : Part.host ∈ W) (wkeys : Part.keys ∈ W) (wroot : Part.root ∈ W) (wboot : Part.boot ∈ W) (wqueues : Part.queues ∈ W) (wcan : Part.can ∈ W) (wpower : Part.power ∈ W) (wfta : Part.fta ∈ W)
    (hK : Keeps W Q s0 s) : Keeps W Q s0 (State.startUp s train) := by
  unfold State.startUp
  repeat' (first
    | with_reducible assumption
    | with_reducible exact id
    | with_reducible exact fun k => Mem.wf_writeBytes k
    | with_reducible exact fun k => Mem.wf_erase k
    | with_reducible exact fun k => SMap.wf_set k
    | with_reducible exact fun k => SMap.wf_drop k
    | with_reducible exact fun k => SMap.wf_foldl k
    | with_reducible exact fun k => SMap.wf_foldl (SMap.wf_drop k)
    | with_reducible exact fun _ _ k => absurd k List.not_mem_nil
    | intro _
    | with_reducible exact wAll _
    | with_reducible apply State.wakeLogic_keeps
    | with_reducible apply State.onBit_keeps
    | with_reducible apply State.wr_keeps
    | with_reducible apply State.scanStart_keeps
    | with_reducible apply State.updSync_keeps
    | with_reducible apply State.tamperResponse_keeps
    | with_reducible apply State.report_keeps
    | with_reducible apply State.wrB_keeps
    | with_reducible apply State.recovery_keeps
    | with_reducible apply State.chooseBank_keeps
    | with_reducible apply keeps_next
    | with_reducible apply keeps_foldl
    | with_reducible apply keeps_foldl1
    | with_reducible exact Or.inr (by assumption)
    | with_reducible exact Or.inl rfl
    | dsimp only
    | (simp only [keeps_mk_eq]; with_reducible apply keeps_mk)
    | with_reducible apply keeps_ite
    | with_reducible apply keeps_ite1
    | split)

theorem execStartUp_keeps {W : List Part} {Q : Nat → Bool} {s0 : State} {train : Bool} {s : State}
    (wAll : ∀ n, Q n = true) (wmem : Part.mem ∈ W) (wstore : Part.store ∈ W) (wsnaps : Part.snaps ∈ W) (wrecorder : Part.recorder ∈ W) (wtime : Part.time ∈ W) (wvcore : Part.vcore ∈ W) (wharts : Part.harts ∈ W) (wbanks : Part.banks ∈ W) (wchans : Part.chans ∈ W) (wbus : Part.bus ∈ W) (wports : Part.ports ∈ W) (wgrading : Part.grading ∈ W) (wlogs : Part.logs ∈ W) (wbridge : Part.bridge ∈ W) (wpair : Part.pair ∈ W) (whost : Part.host ∈ W) (wkeys : Part.keys ∈ W) (wroot : Part.root ∈ W) (wboot : Part.boot ∈ W) (wqueues : Part.queues ∈ W) (wcan : Part.can ∈ W) (wpower : Part.power ∈ W) (wfta : Part.fta ∈ W)
    (hK : Keeps W Q s0 s) : Res.Keeps W Q s0 (execStartUp train s) := by
  unfold execStartUp
  repeat' (first
    | with_reducible assumption
    | with_reducible exact id
    | with_reducible exact fun k => Mem.wf_writeBytes k
    | with_reducible exact fun k => Mem.wf_erase k
    | with_reducible exact fun k => SMap.wf_set k
    | with_reducible exact fun k => SMap.wf_drop k
    | with_reducible exact fun k => SMap.wf_foldl k
    | with_reducible exact fun k => SMap.wf_foldl (SMap.wf_drop k)
    | with_reducible exact fun _ _ k => absurd k List.not_mem_nil
    | intro _
    | with_reducible exact wAll _
    | with_reducible apply State.start_keeps
    | with_reducible apply State.startUp_keeps
    | with_reducible apply keeps_next
    | with_reducible apply keeps_foldl
    | with_reducible apply keeps_foldl1
    | with_reducible exact Or.inr (by assumption)
    | with_reducible exact Or.inl rfl
    | dsimp only
    | (simp only [keeps_mk_eq]; with_reducible apply keeps_mk)
    | with_reducible apply keeps_ite
    | with_reducible apply keeps_ite1
    | split)

theorem State.awLose_keeps {W : List Part} {Q : Nat → Bool} {s0 : State} {s : State}
    (wAll : ∀ n, Q n = true) (wmem : Part.mem ∈ W) (wstore : Part.store ∈ W) (wsnaps : Part.snaps ∈ W) (wrecorder : Part.recorder ∈ W) (wtime : Part.time ∈ W) (wbus : Part.bus ∈ W) (wports : Part.ports ∈ W) (wgrading : Part.grading ∈ W) (wlogs : Part.logs ∈ W) (wbridge : Part.bridge ∈ W) (wpair : Part.pair ∈ W) (whost : Part.host ∈ W) (wboot : Part.boot ∈ W) (wqueues : Part.queues ∈ W) (wcan : Part.can ∈ W) (wfta : Part.fta ∈ W)
    (hK : Keeps W Q s0 s) : Keeps W Q s0 (State.awLose s) := by
  unfold State.awLose
  repeat' (first
    | with_reducible assumption
    | with_reducible exact id
    | with_reducible exact fun k => Mem.wf_writeBytes k
    | with_reducible exact fun k => Mem.wf_erase k
    | with_reducible exact fun k => SMap.wf_set k
    | with_reducible exact fun k => SMap.wf_drop k
    | with_reducible exact fun k => SMap.wf_foldl k
    | with_reducible exact fun k => SMap.wf_foldl (SMap.wf_drop k)
    | with_reducible exact fun _ _ k => absurd k List.not_mem_nil
    | intro _
    | with_reducible exact wAll _
    | with_reducible apply State.loseFabric_keeps
    | with_reducible apply keeps_next
    | with_reducible apply keeps_foldl
    | with_reducible apply keeps_foldl1
    | with_reducible exact Or.inr (by assumption)
    | with_reducible exact Or.inl rfl
    | dsimp only
    | (simp only [keeps_mk_eq]; with_reducible apply keeps_mk)
    | with_reducible apply keeps_ite
    | with_reducible apply keeps_ite1
    | split)

theorem State.enterSleep_keeps {W : List Part} {Q : Nat → Bool} {s0 : State} {s : State} {n : Nat}
    (wAll : ∀ n, Q n = true) (wmem : Part.mem ∈ W) (wstore : Part.store ∈ W) (wsnaps : Part.snaps ∈ W) (wrecorder : Part.recorder ∈ W) (wtime : Part.time ∈ W) (wvcore : Part.vcore ∈ W) (wharts : Part.harts ∈ W) (wbanks : Part.banks ∈ W) (wchans : Part.chans ∈ W) (wbus : Part.bus ∈ W) (wports : Part.ports ∈ W) (wgrading : Part.grading ∈ W) (wlogs : Part.logs ∈ W) (wbridge : Part.bridge ∈ W) (wpair : Part.pair ∈ W) (whost : Part.host ∈ W) (wkeys : Part.keys ∈ W) (wpages : Part.pages ∈ W) (wboot : Part.boot ∈ W) (wqueues : Part.queues ∈ W) (wswitch : Part.switch ∈ W) (wcan : Part.can ∈ W) (wpower : Part.power ∈ W) (wfta : Part.fta ∈ W)
    (hK : Keeps W Q s0 s) : Keeps W Q s0 (State.enterSleep s n) := by
  unfold State.enterSleep
  repeat' (first
    | with_reducible assumption
    | with_reducible exact id
    | with_reducible exact fun k => Mem.wf_writeBytes k
    | with_reducible exact fun k => Mem.wf_erase k
    | with_reducible exact fun k => SMap.wf_set k
    | with_reducible exact fun k => SMap.wf_drop k
    | with_reducible exact fun k => SMap.wf_foldl k
    | with_reducible exact fun k => SMap.wf_foldl (SMap.wf_drop k)
    | with_reducible exact fun _ _ k => absurd k List.not_mem_nil
    | intro _
    | with_reducible exact wAll _
    | with_reducible apply State.loseSession_keeps
    | with_reducible apply State.storeTime_keeps
    | with_reducible apply State.plannedStop_keeps
    | with_reducible apply State.loseNet_keeps
    | with_reducible apply State.loseSec_keeps
    | with_reducible apply State.loseMem6_keeps
    | with_reducible apply State.loseApp_keeps
    | with_reducible apply State.nwmForce_keeps
    | with_reducible apply State.awLose_keeps
    | with_reducible apply State.loseFabric_keeps
    | with_reducible apply State.loseBanks_keeps
    | with_reducible apply State.wr_keeps
    | with_reducible apply keeps_next
    | with_reducible apply keeps_foldl
    | with_reducible apply keeps_foldl1
    | with_reducible exact Or.inr (by assumption)
    | with_reducible exact Or.inl rfl
    | dsimp only
    | (simp only [keeps_mk_eq]; with_reducible apply keeps_mk)
    | with_reducible apply keeps_ite
    | with_reducible apply keeps_ite1
    | split)

theorem State.sleepCtrl_keeps {W : List Part} {Q : Nat → Bool} {s0 : State} {s : State} {r : Req} {d : Word}
    (wAll : ∀ n, Q n = true) (wmem : Part.mem ∈ W) (wstore : Part.store ∈ W) (wsnaps : Part.snaps ∈ W) (wrecorder : Part.recorder ∈ W) (wtime : Part.time ∈ W) (wvcore : Part.vcore ∈ W) (wharts : Part.harts ∈ W) (wbanks : Part.banks ∈ W) (wchans : Part.chans ∈ W) (wbus : Part.bus ∈ W) (wports : Part.ports ∈ W) (wgrading : Part.grading ∈ W) (wlogs : Part.logs ∈ W) (wbridge : Part.bridge ∈ W) (wpair : Part.pair ∈ W) (whost : Part.host ∈ W) (wkeys : Part.keys ∈ W) (wpages : Part.pages ∈ W) (wboot : Part.boot ∈ W) (wqueues : Part.queues ∈ W) (wswitch : Part.switch ∈ W) (wcan : Part.can ∈ W) (wpower : Part.power ∈ W) (wfta : Part.fta ∈ W)
    (hK : Keeps W Q s0 s) : Keeps W Q s0 (State.sleepCtrl s r d) := by
  unfold State.sleepCtrl
  repeat' (first
    | with_reducible assumption
    | with_reducible exact id
    | with_reducible exact fun k => Mem.wf_writeBytes k
    | with_reducible exact fun k => Mem.wf_erase k
    | with_reducible exact fun k => SMap.wf_set k
    | with_reducible exact fun k => SMap.wf_drop k
    | with_reducible exact fun k => SMap.wf_foldl k
    | with_reducible exact fun k => SMap.wf_foldl (SMap.wf_drop k)
    | with_reducible exact fun _ _ k => absurd k List.not_mem_nil
    | intro _
    | with_reducible exact wAll _
    | with_reducible apply State.wr_keeps
    | with_reducible apply State.reqRefused_keeps
    | with_reducible apply State.enterSleep_keeps
    | with_reducible apply State.reqStat_keeps
    | with_reducible apply keeps_next
    | with_reducible apply keeps_foldl
    | with_reducible apply keeps_foldl1
    | with_reducible exact Or.inr (by assumption)
    | with_reducible exact Or.inl rfl
    | dsimp only
    | (simp only [keeps_mk_eq]; with_reducible apply keeps_mk)
    | with_reducible apply keeps_ite
    | with_reducible apply keeps_ite1
    | split)

theorem execSleepEnter_keeps {W : List Part} {Q : Nat → Bool} {s0 : State} {r : Req} {d : Word} {s : State}
    (wAll : ∀ n, Q n = true) (wmem : Part.mem ∈ W) (wstore : Part.store ∈ W) (wsnaps : Part.snaps ∈ W) (wrecorder : Part.recorder ∈ W) (wtime : Part.time ∈ W) (wvcore : Part.vcore ∈ W) (wharts : Part.harts ∈ W) (wbanks : Part.banks ∈ W) (wchans : Part.chans ∈ W) (wbus : Part.bus ∈ W) (wports : Part.ports ∈ W) (wgrading : Part.grading ∈ W) (wlogs : Part.logs ∈ W) (wbridge : Part.bridge ∈ W) (wpair : Part.pair ∈ W) (whost : Part.host ∈ W) (wkeys : Part.keys ∈ W) (wpages : Part.pages ∈ W) (wboot : Part.boot ∈ W) (wqueues : Part.queues ∈ W) (wswitch : Part.switch ∈ W) (wcan : Part.can ∈ W) (wpower : Part.power ∈ W) (wfta : Part.fta ∈ W) (wfield : Part.field ∈ W)
    (hK : Keeps W Q s0 s) : Res.Keeps W Q s0 (execSleepEnter r d s) := by
  unfold execSleepEnter
  repeat' (first
    | with_reducible assumption
    | with_reducible exact id
    | with_reducible exact fun k => Mem.wf_writeBytes k
    | with_reducible exact fun k => Mem.wf_erase k
    | with_reducible exact fun k => SMap.wf_set k
    | with_reducible exact fun k => SMap.wf_drop k
    | with_reducible exact fun k => SMap.wf_foldl k
    | with_reducible exact fun k => SMap.wf_foldl (SMap.wf_drop k)
    | with_reducible exact fun _ _ k => absurd k List.not_mem_nil
    | intro _
    | with_reducible exact wAll _
    | with_reducible apply State.access_keeps
    | with_reducible apply State.start_keeps
    | with_reducible apply State.sleepCtrl_keeps
    | with_reducible apply keeps_next
    | with_reducible apply keeps_foldl
    | with_reducible apply keeps_foldl1
    | with_reducible exact Or.inr (by assumption)
    | with_reducible exact Or.inl rfl
    | dsimp only
    | (simp only [keeps_mk_eq]; with_reducible apply keeps_mk)
    | with_reducible apply keeps_ite
    | with_reducible apply keeps_ite1
    | split)

theorem execAgeingWatchEnter_keeps {W : List Part} {Q : Nat → Bool} {s0 : State} {r : Req} {d : Word} {s : State}
    (wAll : ∀ n, Q n = true) (wmem : Part.mem ∈ W) (wstore : Part.store ∈ W) (wsnaps : Part.snaps ∈ W) (wrecorder : Part.recorder ∈ W) (wtime : Part.time ∈ W) (wvcore : Part.vcore ∈ W) (wharts : Part.harts ∈ W) (wbanks : Part.banks ∈ W) (wchans : Part.chans ∈ W) (wbus : Part.bus ∈ W) (wports : Part.ports ∈ W) (wgrading : Part.grading ∈ W) (wlogs : Part.logs ∈ W) (wbridge : Part.bridge ∈ W) (wpair : Part.pair ∈ W) (whost : Part.host ∈ W) (wkeys : Part.keys ∈ W) (wpages : Part.pages ∈ W) (wboot : Part.boot ∈ W) (wqueues : Part.queues ∈ W) (wswitch : Part.switch ∈ W) (wcan : Part.can ∈ W) (wpower : Part.power ∈ W) (wfta : Part.fta ∈ W) (wfield : Part.field ∈ W)
    (hK : Keeps W Q s0 s) : Res.Keeps W Q s0 (execAgeingWatchEnter r d s) := by
  unfold execAgeingWatchEnter
  repeat' (first
    | with_reducible assumption
    | with_reducible exact id
    | with_reducible exact fun k => Mem.wf_writeBytes k
    | with_reducible exact fun k => Mem.wf_erase k
    | with_reducible exact fun k => SMap.wf_set k
    | with_reducible exact fun k => SMap.wf_drop k
    | with_reducible exact fun k => SMap.wf_foldl k
    | with_reducible exact fun k => SMap.wf_foldl (SMap.wf_drop k)
    | with_reducible exact fun _ _ k => absurd k List.not_mem_nil
    | intro _
    | with_reducible exact wAll _
    | with_reducible apply State.access_keeps
    | with_reducible apply State.start_keeps
    | with_reducible apply State.sleepCtrl_keeps
    | with_reducible apply keeps_next
    | with_reducible apply keeps_foldl
    | with_reducible apply keeps_foldl1
    | with_reducible exact Or.inr (by assumption)
    | with_reducible exact Or.inl rfl
    | dsimp only
    | (simp only [keeps_mk_eq]; with_reducible apply keeps_mk)
    | with_reducible apply keeps_ite
    | with_reducible apply keeps_ite1
    | split)

theorem execWake_keeps {W : List Part} {Q : Nat → Bool} {s0 : State} {src : Fin 5} {s : State}
    (wiFn_n : ∀ n, Q (iFn n) = true) (wpgPwr : Q pgPwr = true) (wpgRst : Q pgRst = true) (wpower : Part.power ∈ W)
    (hK : Keeps W Q s0 s) : Res.Keeps W Q s0 (execWake src s) := by
  unfold execWake
  repeat' (first
    | with_reducible assumption
    | with_reducible exact id
    | with_reducible exact fun k => Mem.wf_writeBytes k
    | with_reducible exact fun k => Mem.wf_erase k
    | with_reducible exact fun k => SMap.wf_set k
    | with_reducible exact fun k => SMap.wf_drop k
    | with_reducible exact fun k => SMap.wf_foldl k
    | with_reducible exact fun k => SMap.wf_foldl (SMap.wf_drop k)
    | with_reducible exact fun _ _ k => absurd k List.not_mem_nil
    | intro _
    | with_reducible exact wiFn_n _
    | with_reducible apply State.start_keeps
    | with_reducible apply State.leaveSleep_keeps
    | with_reducible apply keeps_next
    | with_reducible apply keeps_foldl
    | with_reducible apply keeps_foldl1
    | with_reducible exact Or.inr (by assumption)
    | with_reducible exact Or.inl rfl
    | dsimp only
    | (simp only [keeps_mk_eq]; with_reducible apply keeps_mk)
    | with_reducible apply keeps_ite
    | with_reducible apply keeps_ite1
    | split)

theorem execSleepTimerWake_keeps {W : List Part} {Q : Nat → Bool} {s0 : State} {s : State}
    (wiFn_n : ∀ n, Q (iFn n) = true) (wpgPwr : Q pgPwr = true) (wpgRst : Q pgRst = true) (wpower : Part.power ∈ W)
    (hK : Keeps W Q s0 s) : Res.Keeps W Q s0 (execSleepTimerWake s) := by
  unfold execSleepTimerWake
  repeat' (first
    | with_reducible assumption
    | with_reducible exact id
    | with_reducible exact fun k => Mem.wf_writeBytes k
    | with_reducible exact fun k => Mem.wf_erase k
    | with_reducible exact fun k => SMap.wf_set k
    | with_reducible exact fun k => SMap.wf_drop k
    | with_reducible exact fun k => SMap.wf_foldl k
    | with_reducible exact fun k => SMap.wf_foldl (SMap.wf_drop k)
    | with_reducible exact fun _ _ k => absurd k List.not_mem_nil
    | intro _
    | with_reducible exact wiFn_n _
    | with_reducible apply State.start_keeps
    | with_reducible apply State.leaveSleep_keeps
    | with_reducible apply keeps_next
    | with_reducible apply keeps_foldl
    | with_reducible apply keeps_foldl1
    | with_reducible exact Or.inr (by assumption)
    | with_reducible exact Or.inl rfl
    | dsimp only
    | (simp only [keeps_mk_eq]; with_reducible apply keeps_mk)
    | with_reducible apply keeps_ite
    | with_reducible apply keeps_ite1
    | split)

theorem State.awEvaluate_keeps {W : List Part} {Q : Nat → Bool} {s0 : State} {s : State} {c : Nat} {a : Nat} {valid : Bool}
    (wiFn_n : ∀ n, Q (iFn n) = true) (wpgBnk__bankOf_c_ : Q (pgBnk (bankOf c)) = true) (wpgChn_n : ∀ n, Q (pgChn n) = true) (wpgStp : Q pgStp = true) (wchans : Part.chans ∈ W) (wports : Part.ports ∈ W) (wgrading : Part.grading ∈ W)
    (hK : Keeps W Q s0 s) : Keeps W Q s0 (State.awEvaluate s c a valid).1 := by
  unfold State.awEvaluate
  repeat' (first
    | with_reducible assumption
    | with_reducible exact id
    | with_reducible exact fun k => Mem.wf_writeBytes k
    | with_reducible exact fun k => Mem.wf_erase k
    | with_reducible exact fun k => SMap.wf_set k
    | with_reducible exact fun k => SMap.wf_drop k
    | with_reducible exact fun k => SMap.wf_foldl k
    | with_reducible exact fun k => SMap.wf_foldl (SMap.wf_drop k)
    | with_reducible exact fun _ _ k => absurd k List.not_mem_nil
    | intro _
    | with_reducible exact wiFn_n _
    | with_reducible exact wpgChn_n _
    | with_reducible apply State.wr_keeps
    | with_reducible apply State.modCh_keeps
    | with_reducible apply State.wrS_keeps
    | with_reducible apply State.conditions_keeps
    | (refine State.conditions_keeps_eq (by assumption) ?_ (by assumption))
    | with_reducible apply State.takeAction_keeps
    | with_reducible apply keeps_next
    | with_reducible apply keeps_foldl
    | with_reducible apply keeps_foldl1
    | with_reducible exact Or.inr (by assumption)
    | with_reducible exact Or.inl rfl
    | dsimp only
    | (simp only [keeps_mk_eq]; with_reducible apply keeps_mk)
    | with_reducible apply keeps_ite
    | with_reducible apply keeps_ite1
    | split)

theorem State.awEvaluate_keeps_eq {W : List Part} {Q : Nat → Bool} {s0 tt : State} {vv : Bool} {s : State} {c : Nat} {a : Nat} {valid : Bool}
    (wiFn_n : ∀ n, Q (iFn n) = true) (wpgBnk__bankOf_c_ : Q (pgBnk (bankOf c)) = true) (wpgChn_n : ∀ n, Q (pgChn n) = true) (wpgStp : Q pgStp = true) (wchans : Part.chans ∈ W) (wports : Part.ports ∈ W) (wgrading : Part.grading ∈ W)
    (hK : Keeps W Q s0 s) (e : (State.awEvaluate s c a valid) = (tt, vv)) : Keeps W Q s0 tt := by
  have := @State.awEvaluate_keeps W Q s0 s c a valid wiFn_n wpgBnk__bankOf_c_ wpgChn_n wpgStp wchans wports wgrading hK
  rwa [e] at this

theorem State.awSamples_keeps {W : List Part} {Q : Nat → Bool} {s0 : State} {s : State} {avg : List (Fin 512 × Int × Int)}
    (wpgChn_n : ∀ n, Q (pgChn n) = true) (wchans : Part.chans ∈ W)
    (hK : Keeps W Q s0 s) : Keeps W Q s0 (State.awSamples s avg) := by
  unfold State.awSamples
  repeat' (first
    | with_reducible assumption
    | with_reducible exact id
    | with_reducible exact fun k => Mem.wf_writeBytes k
    | with_reducible exact fun k => Mem.wf_erase k
    | with_reducible exact fun k => SMap.wf_set k
    | with_reducible exact fun k => SMap.wf_drop k
    | with_reducible exact fun k => SMap.wf_foldl k
    | with_reducible exact fun k => SMap.wf_foldl (SMap.wf_drop k)
    | with_reducible exact fun _ _ k => absurd k List.not_mem_nil
    | intro _
    | with_reducible exact wpgChn_n _
    | with_reducible apply State.wrS_keeps
    | with_reducible apply State.modCh_keeps
    | with_reducible apply State.wr_keeps
    | with_reducible apply keeps_next
    | with_reducible apply keeps_foldl
    | with_reducible apply keeps_foldl1
    | with_reducible exact Or.inr (by assumption)
    | with_reducible exact Or.inl rfl
    | dsimp only
    | (simp only [keeps_mk_eq]; with_reducible apply keeps_mk)
    | with_reducible apply keeps_ite
    | with_reducible apply keeps_ite1
    | split)

theorem State.awWork_keeps {W : List Part} {Q : Nat → Bool} {s0 : State} {s : State} {a : Nat} {ns : Nat} {ids : List (Fin 32 × List Word)} {avg : List (Fin 512 × Int × Int)}
    (wiCode_16 : Q (iCode 16) = true) (wiCode_17 : Q (iCode 17) = true) (wiFn_n : ∀ n, Q (iFn n) = true) (wpgBnk_n : ∀ n, Q (pgBnk n) = true) (wpgChn_n : ∀ n, Q (pgChn n) = true) (wpgEvr : Q pgEvr = true) (wpgStp : Q pgStp = true) (wpgTrp : Q pgTrp = true) (wrecorder : Part.recorder ∈ W) (wbanks : Part.banks ∈ W) (wchans : Part.chans ∈ W) (wports : Part.ports ∈ W) (wgrading : Part.grading ∈ W)
    (hK : Keeps W Q s0 s) : Keeps W Q s0 (State.awWork s a ns ids avg).1 := by
  unfold State.awWork
  repeat' (first
    | with_reducible assumption
    | with_reducible exact id
    | with_reducible exact fun k => Mem.wf_writeBytes k
    | with_reducible exact fun k => Mem.wf_erase k
    | with_reducible exact fun k => SMap.wf_set k
    | with_reducible exact fun k => SMap.wf_drop k
    | with_reducible exact fun k => SMap.wf_foldl k
    | with_reducible exact fun k => SMap.wf_foldl (SMap.wf_drop k)
    | with_reducible exact fun _ _ k => absurd k List.not_mem_nil
    | intro _
    | with_reducible exact wiFn_n _
    | with_reducible exact wpgBnk_n _
    | with_reducible exact wpgChn_n _
    | with_reducible apply State.idRead_keeps
    | with_reducible apply State.setLst_keeps
    | with_reducible apply State.awSamples_keeps
    | with_reducible apply State.ocvPoint_keeps
    | with_reducible apply State.slowCheck_keeps
    | with_reducible apply State.tempCheck_keeps
    | with_reducible apply State.awEvaluate_keeps
    | (refine State.awEvaluate_keeps_eq ?_ ?_ ?_ ?_ (by assumption) (by assumption) (by assumption) ?_ (by assumption))
    | with_reducible apply keeps_next
    | with_reducible apply keeps_foldl
    | with_reducible apply keeps_foldl1
    | with_reducible exact Or.inr (by assumption)
    | with_reducible exact Or.inl rfl
    | dsimp only
    | (simp only [keeps_mk_eq]; with_reducible apply keeps_mk)
    | with_reducible apply keeps_ite
    | with_reducible apply keeps_ite1
    | split)

theorem State.awWork_keeps_eq {W : List Part} {Q : Nat → Bool} {s0 tt : State} {vv : Bool} {s : State} {a : Nat} {ns : Nat} {ids : List (Fin 32 × List Word)} {avg : List (Fin 512 × Int × Int)}
    (wiCode_16 : Q (iCode 16) = true) (wiCode_17 : Q (iCode 17) = true) (wiFn_n : ∀ n, Q (iFn n) = true) (wpgBnk_n : ∀ n, Q (pgBnk n) = true) (wpgChn_n : ∀ n, Q (pgChn n) = true) (wpgEvr : Q pgEvr = true) (wpgStp : Q pgStp = true) (wpgTrp : Q pgTrp = true) (wrecorder : Part.recorder ∈ W) (wbanks : Part.banks ∈ W) (wchans : Part.chans ∈ W) (wports : Part.ports ∈ W) (wgrading : Part.grading ∈ W)
    (hK : Keeps W Q s0 s) (e : (State.awWork s a ns ids avg) = (tt, vv)) : Keeps W Q s0 tt := by
  have := @State.awWork_keeps W Q s0 s a ns ids avg wiCode_16 wiCode_17 wiFn_n wpgBnk_n wpgChn_n wpgEvr wpgStp wpgTrp wrecorder wbanks wchans wports wgrading hK
  rwa [e] at this

theorem State.awPower_keeps {W : List Part} {Q : Nat → Bool} {s0 : State} {s : State} {lt : Option Nat}
    (wpgPwr : Q pgPwr = true) (wrecorder : Part.recorder ∈ W) (wtime : Part.time ∈ W) (wbanks : Part.banks ∈ W) (wchans : Part.chans ∈ W) (wbus : Part.bus ∈ W) (wgrading : Part.grading ∈ W) (wbridge : Part.bridge ∈ W) (wpair : Part.pair ∈ W) (whost : Part.host ∈ W)
    (hK : Keeps W Q s0 s) : Keeps W Q s0 (State.awPower s lt) := by
  unfold State.awPower
  repeat' (first
    | with_reducible assumption
    | with_reducible exact id
    | with_reducible exact fun k => Mem.wf_writeBytes k
    | with_reducible exact fun k => Mem.wf_erase k
    | with_reducible exact fun k => SMap.wf_set k
    | with_reducible exact fun k => SMap.wf_drop k
    | with_reducible exact fun k => SMap.wf_foldl k
    | with_reducible exact fun k => SMap.wf_foldl (SMap.wf_drop k)
    | with_reducible exact fun _ _ k => absurd k List.not_mem_nil
    | intro _
    | with_reducible apply State.onBit_keeps
    | with_reducible apply State.renumber_keeps
    | with_reducible apply keeps_next
    | with_reducible apply keeps_foldl
    | with_reducible apply keeps_foldl1
    | with_reducible exact Or.inr (by assumption)
    | with_reducible exact Or.inl rfl
    | dsimp only
    | (simp only [keeps_mk_eq]; with_reducible apply keeps_mk)
    | with_reducible apply keeps_ite
    | with_reducible apply keeps_ite1
    | split)

theorem State.awEnd_keeps {W : List Part} {Q : Nat → Bool} {s0 : State} {s : State} {lt : Option Nat}
    (wAll : ∀ n, Q n = true) (wmem : Part.mem ∈ W) (wstore : Part.store ∈ W) (wsnaps : Part.snaps ∈ W) (wrecorder : Part.recorder ∈ W) (wtime : Part.time ∈ W) (wbanks : Part.banks ∈ W) (wbus : Part.bus ∈ W) (wports : Part.ports ∈ W) (wgrading : Part.grading ∈ W) (wlogs : Part.logs ∈ W) (wbridge : Part.bridge ∈ W) (wpair : Part.pair ∈ W) (whost : Part.host ∈ W) (wboot : Part.boot ∈ W) (wqueues : Part.queues ∈ W) (wcan : Part.can ∈ W) (wpower : Part.power ∈ W) (wfta : Part.fta ∈ W)
    (hK : Keeps W Q s0 s) : Keeps W Q s0 (State.awEnd s lt) := by
  unfold State.awEnd
  repeat' (first
    | with_reducible assumption
    | with_reducible exact id
    | with_reducible exact fun k => Mem.wf_writeBytes k
    | with_reducible exact fun k => Mem.wf_erase k
    | with_reducible exact fun k => SMap.wf_set k
    | with_reducible exact fun k => SMap.wf_drop k
    | with_reducible exact fun k => SMap.wf_foldl k
    | with_reducible exact fun k => SMap.wf_foldl (SMap.wf_drop k)
    | with_reducible exact fun _ _ k => absurd k List.not_mem_nil
    | intro _
    | with_reducible exact wAll _
    | with_reducible apply State.plannedStop_keeps
    | with_reducible apply State.awLose_keeps
    | with_reducible apply State.raise_keeps
    | with_reducible apply State.wr_keeps
    | with_reducible apply keeps_next
    | with_reducible apply keeps_foldl
    | with_reducible apply keeps_foldl1
    | with_reducible exact Or.inr (by assumption)
    | with_reducible exact Or.inl rfl
    | dsimp only
    | (simp only [keeps_mk_eq]; with_reducible apply keeps_mk)
    | with_reducible apply keeps_ite
    | with_reducible apply keeps_ite1
    | split)

theorem State.awCycle_keeps {W : List Part} {Q : Nat → Bool} {s0 : State} {s : State} {a : Nat} {ticks : Nat} {dur : Nat} {ids : List (Fin 32 × List Word)} {avg : List (Fin 512 × Int × Int)}
    (wAll : ∀ n, Q n = true) (wmem : Part.mem ∈ W) (wstore : Part.store ∈ W) (wsnaps : Part.snaps ∈ W) (wrecorder : Part.recorder ∈ W) (wtime : Part.time ∈ W) (wbanks : Part.banks ∈ W) (wchans : Part.chans ∈ W) (wbus : Part.bus ∈ W) (wports : Part.ports ∈ W) (wgrading : Part.grading ∈ W) (wlogs : Part.logs ∈ W) (wbridge : Part.bridge ∈ W) (wpair : Part.pair ∈ W) (whost : Part.host ∈ W) (wboot : Part.boot ∈ W) (wqueues : Part.queues ∈ W) (wcan : Part.can ∈ W) (wpower : Part.power ∈ W) (wfta : Part.fta ∈ W)
    (hK : Keeps W Q s0 s) : Keeps W Q s0 (State.awCycle s a ticks dur ids avg) := by
  unfold State.awCycle
  repeat' (first
    | with_reducible assumption
    | with_reducible exact id
    | with_reducible exact fun k => Mem.wf_writeBytes k
    | with_reducible exact fun k => Mem.wf_erase k
    | with_reducible exact fun k => SMap.wf_set k
    | with_reducible exact fun k => SMap.wf_drop k
    | with_reducible exact fun k => SMap.wf_foldl k
    | with_reducible exact fun k => SMap.wf_foldl (SMap.wf_drop k)
    | with_reducible exact fun _ _ k => absurd k List.not_mem_nil
    | intro _
    | with_reducible exact wAll _
    | with_reducible apply State.awWork_keeps
    | (refine State.awWork_keeps_eq ?_ ?_ ?_ ?_ ?_ ?_ ?_ ?_ (by assumption) (by assumption) (by assumption) (by assumption) (by assumption) ?_ (by assumption))
    | with_reducible apply State.scanStart_keeps
    | with_reducible apply State.awPower_keeps
    | with_reducible apply State.scanEnd_keeps
    | with_reducible apply State.evWrite_keeps
    | with_reducible apply State.leaveSleep_keeps
    | with_reducible apply State.awEnd_keeps
    | with_reducible apply keeps_next
    | with_reducible apply keeps_foldl
    | with_reducible apply keeps_foldl1
    | with_reducible exact Or.inr (by assumption)
    | with_reducible exact Or.inl rfl
    | dsimp only
    | (simp only [keeps_mk_eq]; with_reducible apply keeps_mk)
    | with_reducible apply keeps_ite
    | with_reducible apply keeps_ite1
    | split)

theorem execAwWakeCycle_keeps {W : List Part} {Q : Nat → Bool} {s0 : State} {a : Nat} {ticks : Nat} {dur : Nat} {ids : List (Fin 32 × List Word)} {avg : List (Fin 512 × Int × Int)} {s : State}
    (wAll : ∀ n, Q n = true) (wmem : Part.mem ∈ W) (wstore : Part.store ∈ W) (wsnaps : Part.snaps ∈ W) (wrecorder : Part.recorder ∈ W) (wtime : Part.time ∈ W) (wbanks : Part.banks ∈ W) (wchans : Part.chans ∈ W) (wbus : Part.bus ∈ W) (wports : Part.ports ∈ W) (wgrading : Part.grading ∈ W) (wlogs : Part.logs ∈ W) (wbridge : Part.bridge ∈ W) (wpair : Part.pair ∈ W) (whost : Part.host ∈ W) (wboot : Part.boot ∈ W) (wqueues : Part.queues ∈ W) (wcan : Part.can ∈ W) (wpower : Part.power ∈ W) (wfta : Part.fta ∈ W)
    (hK : Keeps W Q s0 s) : Res.Keeps W Q s0 (execAwWakeCycle a ticks dur ids avg s) := by
  unfold execAwWakeCycle
  repeat' (first
    | with_reducible assumption
    | with_reducible exact id
    | with_reducible exact fun k => Mem.wf_writeBytes k
    | with_reducible exact fun k => Mem.wf_erase k
    | with_reducible exact fun k => SMap.wf_set k
    | with_reducible exact fun k => SMap.wf_drop k
    | with_reducible exact fun k => SMap.wf_foldl k
    | with_reducible exact fun k => SMap.wf_foldl (SMap.wf_drop k)
    | with_reducible exact fun _ _ k => absurd k List.not_mem_nil
    | intro _
    | with_reducible exact wAll _
    | with_reducible apply State.start_keeps
    | with_reducible apply State.awCycle_keeps
    | with_reducible apply keeps_next
    | with_reducible apply keeps_foldl
    | with_reducible apply keeps_foldl1
    | with_reducible exact Or.inr (by assumption)
    | with_reducible exact Or.inl rfl
    | dsimp only
    | (simp only [keeps_mk_eq]; with_reducible apply keeps_mk)
    | with_reducible apply keeps_ite
    | with_reducible apply keeps_ite1
    | split)

theorem execTamperDetect_keeps {W : List Part} {Q : Nat → Bool} {s0 : State} {c : Fin 8} {s : State}
    (wAll : ∀ n, Q n = true) (wmem : Part.mem ∈ W) (wstore : Part.store ∈ W) (wsnaps : Part.snaps ∈ W) (wrecorder : Part.recorder ∈ W) (wtime : Part.time ∈ W) (wvcore : Part.vcore ∈ W) (wharts : Part.harts ∈ W) (wbanks : Part.banks ∈ W) (wchans : Part.chans ∈ W) (wbus : Part.bus ∈ W) (wports : Part.ports ∈ W) (wgrading : Part.grading ∈ W) (wlogs : Part.logs ∈ W) (wbridge : Part.bridge ∈ W) (wpair : Part.pair ∈ W) (whost : Part.host ∈ W) (wkeys : Part.keys ∈ W) (wroot : Part.root ∈ W) (wpages : Part.pages ∈ W) (wboot : Part.boot ∈ W) (wqueues : Part.queues ∈ W) (wswitch : Part.switch ∈ W) (wcan : Part.can ∈ W) (wpower : Part.power ∈ W) (wfta : Part.fta ∈ W)
    (hK : Keeps W Q s0 s) : Res.Keeps W Q s0 (execTamperDetect c s) := by
  unfold execTamperDetect
  repeat' (first
    | with_reducible assumption
    | with_reducible exact id
    | with_reducible exact fun k => Mem.wf_writeBytes k
    | with_reducible exact fun k => Mem.wf_erase k
    | with_reducible exact fun k => SMap.wf_set k
    | with_reducible exact fun k => SMap.wf_drop k
    | with_reducible exact fun k => SMap.wf_foldl k
    | with_reducible exact fun k => SMap.wf_foldl (SMap.wf_drop k)
    | with_reducible exact fun _ _ k => absurd k List.not_mem_nil
    | intro _
    | with_reducible exact wAll _
    | with_reducible apply State.start_keeps
    | with_reducible apply State.tamperResponse_keeps
    | with_reducible apply State.leaveSleep_keeps
    | with_reducible apply State.resetWith_keeps
    | with_reducible apply keeps_next
    | with_reducible apply keeps_foldl
    | with_reducible apply keeps_foldl1
    | with_reducible exact Or.inr (by assumption)
    | with_reducible exact Or.inl rfl
    | dsimp only
    | (simp only [keeps_mk_eq]; with_reducible apply keeps_mk)
    | with_reducible apply keeps_ite
    | with_reducible apply keeps_ite1
    | split)

theorem State.liveActivate_keeps {W : List Part} {Q : Nat → Bool} {s0 : State} {s : State} {b : Nat}
    (wAll : ∀ n, Q n = true) (wmem : Part.mem ∈ W) (wharts : Part.harts ∈ W) (wchans : Part.chans ∈ W) (whost : Part.host ∈ W) (wkeys : Part.keys ∈ W) (wpages : Part.pages ∈ W) (wboot : Part.boot ∈ W)
    (hK : Keeps W Q s0 s) : Keeps W Q s0 (State.liveActivate s b) := by
  unfold State.liveActivate
  repeat' (first
    | with_reducible assumption
    | with_reducible exact id
    | with_reducible exact fun k => Mem.wf_writeBytes k
    | with_reducible exact fun k => Mem.wf_erase k
    | with_reducible exact fun k => SMap.wf_set k
    | with_reducible exact fun k => SMap.wf_drop k
    | with_reducible exact fun k => SMap.wf_foldl k
    | with_reducible exact fun k => SMap.wf_foldl (SMap.wf_drop k)
    | with_reducible exact fun _ _ k => absurd k List.not_mem_nil
    | intro _
    | with_reducible exact wAll _
    | with_reducible apply State.loseApp_keeps
    | with_reducible apply State.sesLose_keeps
    | with_reducible apply State.destroyEnd_keeps
    | with_reducible apply State.destroyStart_keeps
    | with_reducible apply State.wr_keeps
    | with_reducible apply State.updSync_keeps
    | with_reducible apply State.startHart_keeps
    | with_reducible apply keeps_next
    | with_reducible apply keeps_foldl
    | with_reducible apply keeps_foldl1
    | with_reducible exact Or.inr (by assumption)
    | with_reducible exact Or.inl rfl
    | dsimp only
    | (simp only [keeps_mk_eq]; with_reducible apply keeps_mk)
    | with_reducible apply keeps_ite
    | with_reducible apply keeps_ite1
    | split)

theorem State.svcActivate_keeps {W : List Part} {Q : Nat → Bool} {s0 : State} {s : State} {mode : Nat}
    (wAll : ∀ n, Q n = true) (wmem : Part.mem ∈ W) (wstore : Part.store ∈ W) (wsnaps : Part.snaps ∈ W) (wrecorder : Part.recorder ∈ W) (wtime : Part.time ∈ W) (wvcore : Part.vcore ∈ W) (wharts : Part.harts ∈ W) (wbanks : Part.banks ∈ W) (wchans : Part.chans ∈ W) (wbus : Part.bus ∈ W) (wports : Part.ports ∈ W) (wgrading : Part.grading ∈ W) (wlogs : Part.logs ∈ W) (wbridge : Part.bridge ∈ W) (wpair : Part.pair ∈ W) (whost : Part.host ∈ W) (wkeys : Part.keys ∈ W) (wpages : Part.pages ∈ W) (wboot : Part.boot ∈ W) (wqueues : Part.queues ∈ W) (wswitch : Part.switch ∈ W) (wcan : Part.can ∈ W) (wpower : Part.power ∈ W) (wfta : Part.fta ∈ W)
    (hK : Keeps W Q s0 s) : Keeps W Q s0 (State.svcActivate s mode) := by
  unfold State.svcActivate
  repeat' (first
    | with_reducible assumption
    | with_reducible exact id
    | with_reducible exact fun k => Mem.wf_writeBytes k
    | with_reducible exact fun k => Mem.wf_erase k
    | with_reducible exact fun k => SMap.wf_set k
    | with_reducible exact fun k => SMap.wf_drop k
    | with_reducible exact fun k => SMap.wf_foldl k
    | with_reducible exact fun k => SMap.wf_foldl (SMap.wf_drop k)
    | with_reducible exact fun _ _ k => absurd k List.not_mem_nil
    | intro _
    | with_reducible exact wAll _
    | with_reducible apply State.svcResult_keeps
    | with_reducible apply State.setBoot_keeps
    | with_reducible apply State.wr_keeps
    | with_reducible apply State.raise_keeps
    | with_reducible apply State.liveActivate_keeps
    | with_reducible apply State.updRecord_keeps
    | with_reducible apply State.resetWith_keeps
    | with_reducible apply keeps_next
    | with_reducible apply keeps_foldl
    | with_reducible apply keeps_foldl1
    | with_reducible exact Or.inr (by assumption)
    | with_reducible exact Or.inl rfl
    | dsimp only
    | (simp only [keeps_mk_eq]; with_reducible apply keeps_mk)
    | with_reducible apply keeps_ite
    | with_reducible apply keeps_ite1
    | split)

theorem execSvcActivate_keeps {W : List Part} {Q : Nat → Bool} {s0 : State} {d : List Byte} {s : State}
    (wAll : ∀ n, Q n = true) (wmem : Part.mem ∈ W) (wstore : Part.store ∈ W) (wsnaps : Part.snaps ∈ W) (wrecorder : Part.recorder ∈ W) (wtime : Part.time ∈ W) (wvcore : Part.vcore ∈ W) (wharts : Part.harts ∈ W) (wbanks : Part.banks ∈ W) (wchans : Part.chans ∈ W) (wbus : Part.bus ∈ W) (wports : Part.ports ∈ W) (wgrading : Part.grading ∈ W) (wlogs : Part.logs ∈ W) (wbridge : Part.bridge ∈ W) (wpair : Part.pair ∈ W) (whost : Part.host ∈ W) (wkeys : Part.keys ∈ W) (wpages : Part.pages ∈ W) (wboot : Part.boot ∈ W) (wqueues : Part.queues ∈ W) (wswitch : Part.switch ∈ W) (wcan : Part.can ∈ W) (wpower : Part.power ∈ W) (wfta : Part.fta ∈ W)
    (hK : Keeps W Q s0 s) : Res.Keeps W Q s0 (execSvcActivate d s) := by
  unfold execSvcActivate
  repeat' (first
    | with_reducible assumption
    | with_reducible exact id
    | with_reducible exact fun k => Mem.wf_writeBytes k
    | with_reducible exact fun k => Mem.wf_erase k
    | with_reducible exact fun k => SMap.wf_set k
    | with_reducible exact fun k => SMap.wf_drop k
    | with_reducible exact fun k => SMap.wf_foldl k
    | with_reducible exact fun k => SMap.wf_foldl (SMap.wf_drop k)
    | with_reducible exact fun _ _ k => absurd k List.not_mem_nil
    | intro _
    | with_reducible exact wAll _
    | with_reducible apply State.svcCmd_keeps
    | with_reducible apply State.start_keeps
    | with_reducible apply State.svcActivate_keeps
    | with_reducible apply keeps_next
    | with_reducible apply keeps_foldl
    | with_reducible apply keeps_foldl1
    | with_reducible exact Or.inr (by assumption)
    | with_reducible exact Or.inl rfl
    | dsimp only
    | (simp only [keeps_mk_eq]; with_reducible apply keeps_mk)
    | with_reducible apply keeps_ite
    | with_reducible apply keeps_ite1
    | split)

end Sys2Proof.Machine
end

