-- ==== Sys2Proof/Laws/KeepsHeader.lean ====
section
/-! SUPPORT. What each function and command of Machine/Header.lean keeps. -/
set_option linter.all false
set_option Elab.async false
namespace Sys2Proof.Machine

theorem State.ctrlEnable_keeps {W : List Part} {Q : Nat → Bool} {s0 : State} {s : State} {p : Nat} {en : Bool}
    (wiFn_n : ∀ n, Q (iFn n) = true) (wiQue_n : ∀ n, Q (iQue n) = true) (wp : Q p = true) (wpgBnk__bankOf_n_ : ∀ n, Q (pgBnk (bankOf n)) = true) (wpgChn_n : ∀ n, Q (pgChn n) = true) (wpgFio : Q pgFio = true) (wpgLdc : Q pgLdc = true) (wpgPair : Q pgPair = true) (wpgQpm : Q pgQpm = true) (wchans : Part.chans ∈ W) (wlogs : Part.logs ∈ W) (wpair : Part.pair ∈ W) (wqueues : Part.queues ∈ W)
    (hK : Keeps W Q s0 s) : Keeps W Q s0 (State.ctrlEnable s p en) := by
  unfold State.ctrlEnable
  repeat' (first
    | with_reducible assumption
    | with_reducible exact id
    | with_reducible exact fun k => Mem.wf_writeBytes k
    | with_reducible exact fun k => Mem.wf_erase k
    | with_reducible exact fun k => SMap.wf_set k
    | with_reducible exact fun k => SMap.wf_drop k
    | with_reducible exact fun k => SMap.wf_foldl k
    | with_reducible exact fun k => SMap.wf_foldl (SMap.wf_drop k)
    | with_reducible exact fun _ _ k => absurd k List.not_mem_nil
    | intro _
    | with_reducible exact wiFn_n _
    | with_reducible exact wiQue_n _
    | with_reducible exact wpgBnk__bankOf_n_ _
    | with_reducible exact wpgChn_n _
    | with_reducible apply State.qpmEnable_keeps
    | with_reducible apply State.pairCtrl_keeps
    | with_reducible apply State.fioEnable_keeps
    | with_reducible apply State.ldcEnable_keeps
    | with_reducible apply State.wrB_keeps
    | with_reducible apply State.cmdWrite_keeps
    | with_reducible apply keeps_next
    | with_reducible apply keeps_foldl
    | with_reducible apply keeps_foldl1
    | with_reducible exact Or.inr (by assumption)
    | with_reducible exact Or.inl rfl
    | dsimp only
    | (simp only [keeps_mk_eq]; with_reducible apply keeps_mk)
    | with_reducible apply keeps_ite
    | with_reducible apply keeps_ite1
    | split)

theorem State.softStart_keeps {W : List Part} {Q : Nat → Bool} {s0 : State} {s : State} {p : Nat}
    (wiFn_n : ∀ n, Q (iFn n) = true) (wiQue_n : ∀ n, Q (iQue n) = true) (wp : Q p = true) (wpgBnk__bankOf_n_ : ∀ n, Q (pgBnk (bankOf n)) = true) (wpgChn_n : ∀ n, Q (pgChn n) = true) (wpgQpm : Q pgQpm = true) (wchans : Part.chans ∈ W) (wqueues : Part.queues ∈ W)
    (hK : Keeps W Q s0 s) : Keeps W Q s0 (State.softStart s p) := by
  unfold State.softStart
  repeat' (first
    | with_reducible assumption
    | with_reducible exact id
    | with_reducible exact fun k => Mem.wf_writeBytes k
    | with_reducible exact fun k => Mem.wf_erase k
    | with_reducible exact fun k => SMap.wf_set k
    | with_reducible exact fun k => SMap.wf_drop k
    | with_reducible exact fun k => SMap.wf_foldl k
    | with_reducible exact fun k => SMap.wf_foldl (SMap.wf_drop k)
    | with_reducible exact fun _ _ k => absurd k List.not_mem_nil
    | intro _
    | with_reducible exact wiFn_n _
    | with_reducible exact wiQue_n _
    | with_reducible exact wpgBnk__bankOf_n_ _
    | with_reducible exact wpgChn_n _
    | with_reducible apply State.modCh_keeps
    | with_reducible apply State.cmdWrite_keeps
    | with_reducible apply State.flushAll_keeps
    | with_reducible apply State.wr_keeps
    | with_reducible apply keeps_next
    | with_reducible apply keeps_foldl
    | with_reducible apply keeps_foldl1
    | with_reducible exact Or.inr (by assumption)
    | with_reducible exact Or.inl rfl
    | dsimp only
    | (simp only [keeps_mk_eq]; with_reducible apply keeps_mk)
    | with_reducible apply keeps_ite
    | with_reducible apply keeps_ite1
    | split)

theorem State.ctrlWrite_keeps {W : List Part} {Q : Nat → Bool} {s0 : State} {s : State} {p : Nat} {d : Word}
    (wiFn_n : ∀ n, Q (iFn n) = true) (wiQue_n : ∀ n, Q (iQue n) = true) (wp : Q p = true) (wpgBnk__bankOf_n_ : ∀ n, Q (pgBnk (bankOf n)) = true) (wpgChn_n : ∀ n, Q (pgChn n) = true) (wpgFio : Q pgFio = true) (wpgLdc : Q pgLdc = true) (wpgPair : Q pgPair = true) (wpgQpm : Q pgQpm = true) (wchans : Part.chans ∈ W) (wlogs : Part.logs ∈ W) (wpair : Part.pair ∈ W) (wqueues : Part.queues ∈ W)
    (hK : Keeps W Q s0 s) : Keeps W Q s0 (State.ctrlWrite s p d) := by
  unfold State.ctrlWrite
  repeat' (first
    | with_reducible assumption
    | with_reducible exact id
    | with_reducible exact fun k => Mem.wf_writeBytes k
    | with_reducible exact fun k => Mem.wf_erase k
    | with_reducible exact fun k => SMap.wf_set k
    | with_reducible exact fun k => SMap.wf_drop k
    | with_reducible exact fun k => SMap.wf_foldl k
    | with_reducible exact fun k => SMap.wf_foldl (SMap.wf_drop k)
    | with_reducible exact fun _ _ k => absurd k List.not_mem_nil
    | intro _
    | with_reducible exact wiFn_n _
    | with_reducible exact wiQue_n _
    | with_reducible exact wpgBnk__bankOf_n_ _
    | with_reducible exact wpgChn_n _
    | with_reducible apply State.ctrlEnable_keeps
    | with_reducible apply State.wr_keeps
    | with_reducible apply State.softStart_keeps
    | with_reducible apply keeps_next
    | with_reducible apply keeps_foldl
    | with_reducible apply keeps_foldl1
    | with_reducible exact Or.inr (by assumption)
    | with_reducible exact Or.inl rfl
    | dsimp only
    | (simp only [keeps_mk_eq]; with_reducible apply keeps_mk)
    | with_reducible apply keeps_ite
    | with_reducible apply keeps_ite1
    | split)

theorem State.softEnd_keeps {W : List Part} {Q : Nat → Bool} {s0 : State} {s : State} {p : Nat}
    (wAll : ∀ n, Q n = true) (wharts : Part.harts ∈ W) (wbanks : Part.banks ∈ W) (wchans : Part.chans ∈ W) (wports : Part.ports ∈ W) (wgrading : Part.grading ∈ W) (wlogs : Part.logs ∈ W) (wbridge : Part.bridge ∈ W) (wpair : Part.pair ∈ W) (whost : Part.host ∈ W) (wqueues : Part.queues ∈ W) (wcan : Part.can ∈ W) (wfield : Part.field ∈ W)
    (hK : Keeps W Q s0 s) : Keeps W Q s0 (State.softEnd s p) := by
  unfold State.softEnd
  repeat' (first
    | with_reducible assumption
    | with_reducible exact id
    | with_reducible exact fun k => Mem.wf_writeBytes k
    | with_reducible exact fun k => Mem.wf_erase k
    | with_reducible exact fun k => SMap.wf_set k
    | with_reducible exact fun k => SMap.wf_drop k
    | with_reducible exact fun k => SMap.wf_foldl k
    | with_reducible exact fun k => SMap.wf_foldl (SMap.wf_drop k)
    | with_reducible exact fun _ _ k => absurd k List.not_mem_nil
    | intro _
    | with_reducible exact wAll _
    | with_reducible apply State.resetInsts_one
    | with_reducible apply State.fioReset_keeps
    | with_reducible apply State.ldcReset_keeps
    | with_reducible apply State.linkCtrl_keeps
    | with_reducible apply State.pairCtrl_keeps
    | with_reducible apply State.resetInsts_keeps
    | with_reducible apply State.resetInst_keeps
    | with_reducible apply State.updSync_keeps
    | with_reducible apply State.dbgChanged_keeps
    | with_reducible apply State.modCan_keeps
    | with_reducible apply keeps_next
    | with_reducible apply keeps_foldl
    | with_reducible apply keeps_foldl1
    | with_reducible exact Or.inr (by assumption)
    | with_reducible exact Or.inl rfl
    | dsimp only
    | (simp only [keeps_mk_eq]; with_reducible apply keeps_mk)
    | with_reducible apply keeps_ite
    | with_reducible apply keeps_ite1
    | split)

theorem execChnEnableClear_keeps {W : List Part} {Q : Nat → Bool} {s0 : State} {r : Req} {c : Fin 512} {d : Word} {s : State}
    (w50 : Q 50 = true) (wiCode_8 : Q (iCode 8) = true) (wiFn_n : ∀ n, Q (iFn n) = true) (wiQue_n : ∀ n, Q (iQue n) = true) (wpgBnk__bankOf_n_ : ∀ n, Q (pgBnk (bankOf n)) = true) (wpgChn_n : ∀ n, Q (pgChn n) = true) (wpgEvr : Q pgEvr = true) (wpgFio : Q pgFio = true) (wpgLdc : Q pgLdc = true) (wpgPair : Q pgPair = true) (wpgQpm : Q pgQpm = true) (wpgSys : Q pgSys = true) (wrecorder : Part.recorder ∈ W) (wchans : Part.chans ∈ W) (wlogs : Part.logs ∈ W) (wpair : Part.pair ∈ W) (wqueues : Part.queues ∈ W) (wfield : Part.field ∈ W)
    (hK : Keeps W Q s0 s) : Res.Keeps W Q s0 (execChnEnableClear r c d s) := by
  unfold execChnEnableClear
  repeat' (first
    | with_reducible assumption
    | with_reducible exact id
    | with_reducible exact fun k => Mem.wf_writeBytes k
    | with_reducible exact fun k => Mem.wf_erase k
    | with_reducible exact fun k => SMap.wf_set k
    | with_reducible exact fun k => SMap.wf_drop k
    | with_reducible exact fun k => SMap.wf_foldl k
    | with_reducible exact fun k => SMap.wf_foldl (SMap.wf_drop k)
    | with_reducible exact fun _ _ k => absurd k List.not_mem_nil
    | intro _
    | with_reducible exact wiFn_n _
    | with_reducible exact wiQue_n _
    | with_reducible exact wpgBnk__bankOf_n_ _
    | with_reducible exact wpgChn_n _
    | with_reducible apply State.access_keeps
    | with_reducible apply State.start_keeps
    | with_reducible apply State.ctrlWrite_keeps
    | with_reducible apply keeps_next
    | with_reducible apply keeps_foldl
    | with_reducible apply keeps_foldl1
    | with_reducible exact Or.inr (by assumption)
    | with_reducible exact Or.inl rfl
    | dsimp only
    | (simp only [keeps_mk_eq]; with_reducible apply keeps_mk)
    | with_reducible apply keeps_ite
    | with_reducible apply keeps_ite1
    | split)

theorem execPairEnable_keeps {W : List Part} {Q : Nat → Bool} {s0 : State} {r : Req} {d : Word} {s : State}
    (w50 : Q 50 = true) (wiCode_8 : Q (iCode 8) = true) (wiFn_n : ∀ n, Q (iFn n) = true) (wiQue_n : ∀ n, Q (iQue n) = true) (wpgBnk__bankOf_n_ : ∀ n, Q (pgBnk (bankOf n)) = true) (wpgChn_n : ∀ n, Q (pgChn n) = true) (wpgEvr : Q pgEvr = true) (wpgFio : Q pgFio = true) (wpgLdc : Q pgLdc = true) (wpgPair : Q pgPair = true) (wpgQpm : Q pgQpm = true) (wpgSys : Q pgSys = true) (wrecorder : Part.recorder ∈ W) (wchans : Part.chans ∈ W) (wlogs : Part.logs ∈ W) (wpair : Part.pair ∈ W) (wqueues : Part.queues ∈ W) (wfield : Part.field ∈ W)
    (hK : Keeps W Q s0 s) : Res.Keeps W Q s0 (execPairEnable r d s) := by
  unfold execPairEnable
  repeat' (first
    | with_reducible assumption
    | with_reducible exact id
    | with_reducible exact fun k => Mem.wf_writeBytes k
    | with_reducible exact fun k => Mem.wf_erase k
    | with_reducible exact fun k => SMap.wf_set k
    | with_reducible exact fun k => SMap.wf_drop k
    | with_reducible exact fun k => SMap.wf_foldl k
    | with_reducible exact fun k => SMap.wf_foldl (SMap.wf_drop k)
    | with_reducible exact fun _ _ k => absurd k List.not_mem_nil
    | intro _
    | with_reducible exact wiFn_n _
    | with_reducible exact wiQue_n _
    | with_reducible exact wpgBnk__bankOf_n_ _
    | with_reducible exact wpgChn_n _
    | with_reducible apply State.access_keeps
    | with_reducible apply State.start_keeps
    | with_reducible apply State.ctrlWrite_keeps
    | with_reducible apply keeps_next
    | with_reducible apply keeps_foldl
    | with_reducible apply keeps_foldl1
    | with_reducible exact Or.inr (by assumption)
    | with_reducible exact Or.inl rfl
    | dsimp only
    | (simp only [keeps_mk_eq]; with_reducible apply keeps_mk)
    | with_reducible apply keeps_ite
    | with_reducible apply keeps_ite1
    | split)

theorem execPairDisable_keeps {W : List Part} {Q : Nat → Bool} {s0 : State} {r : Req} {d : Word} {s : State}
    (w50 : Q 50 = true) (wiCode_8 : Q (iCode 8) = true) (wiFn_n : ∀ n, Q (iFn n) = true) (wiQue_n : ∀ n, Q (iQue n) = true) (wpgBnk__bankOf_n_ : ∀ n, Q (pgBnk (bankOf n)) = true) (wpgChn_n : ∀ n, Q (pgChn n) = true) (wpgEvr : Q pgEvr = true) (wpgFio : Q pgFio = true) (wpgLdc : Q pgLdc = true) (wpgPair : Q pgPair = true) (wpgQpm : Q pgQpm = true) (wpgSys : Q pgSys = true) (wrecorder : Part.recorder ∈ W) (wchans : Part.chans ∈ W) (wlogs : Part.logs ∈ W) (wpair : Part.pair ∈ W) (wqueues : Part.queues ∈ W) (wfield : Part.field ∈ W)
    (hK : Keeps W Q s0 s) : Res.Keeps W Q s0 (execPairDisable r d s) := by
  unfold execPairDisable
  repeat' (first
    | with_reducible assumption
    | with_reducible exact id
    | with_reducible exact fun k => Mem.wf_writeBytes k
    | with_reducible exact fun k => Mem.wf_erase k
    | with_reducible exact fun k => SMap.wf_set k
    | with_reducible exact fun k => SMap.wf_drop k
    | with_reducible exact fun k => SMap.wf_foldl k
    | with_reducible exact fun k => SMap.wf_foldl (SMap.wf_drop k)
    | with_reducible exact fun _ _ k => absurd k List.not_mem_nil
    | intro _
    | with_reducible exact wiFn_n _
    | with_reducible exact wiQue_n _
    | with_reducible exact wpgBnk__bankOf_n_ _
    | with_reducible exact wpgChn_n _
    | with_reducible apply State.access_keeps
    | with_reducible apply State.start_keeps
    | with_reducible apply State.ctrlWrite_keeps
    | with_reducible apply keeps_next
    | with_reducible apply keeps_foldl
    | with_reducible apply keeps_foldl1
    | with_reducible exact Or.inr (by assumption)
    | with_reducible exact Or.inl rfl
    | dsimp only
    | (simp only [keeps_mk_eq]; with_reducible apply keeps_mk)
    | with_reducible apply keeps_ite
    | with_reducible apply keeps_ite1
    | split)

theorem execSoftReset_keeps {W : List Part} {Q : Nat → Bool} {s0 : State} {r : Req} {p : Fin 1024} {d : Word} {s : State}
    (w50 : Q 50 = true) (wiCode_8 : Q (iCode 8) = true) (wiFn_n : ∀ n, Q (iFn n) = true) (wiQue_n : ∀ n, Q (iQue n) = true) (wp_val : Q p.val = true) (wpgBnk__bankOf_n_ : ∀ n, Q (pgBnk (bankOf n)) = true) (wpgChn_n : ∀ n, Q (pgChn n) = true) (wpgEvr : Q pgEvr = true) (wpgFio : Q pgFio = true) (wpgLdc : Q pgLdc = true) (wpgPair : Q pgPair = true) (wpgQpm : Q pgQpm = true) (wpgSys : Q pgSys = true) (wrecorder : Part.recorder ∈ W) (wchans : Part.chans ∈ W) (wlogs : Part.logs ∈ W) (wpair : Part.pair ∈ W) (wqueues : Part.queues ∈ W) (wfield : Part.field ∈ W)
    (hK : Keeps W Q s0 s) : Res.Keeps W Q s0 (execSoftReset r p d s) := by
  unfold execSoftReset
  repeat' (first
    | with_reducible assumption
    | with_reducible exact id
    | with_reducible exact fun k => Mem.wf_writeBytes k
    | with_reducible exact fun k => Mem.wf_erase k
    | with_reducible exact fun k => SMap.wf_set k
    | with_reducible exact fun k => SMap.wf_drop k
    | with_reducible exact fun k => SMap.wf_foldl k
    | with_reducible exact fun k => SMap.wf_foldl (SMap.wf_drop k)
    | with_reducible exact fun _ _ k => absurd k List.not_mem_nil
    | intro _
    | with_reducible exact wiFn_n _
    | with_reducible exact wiQue_n _
    | with_reducible exact wpgBnk__bankOf_n_ _
    | with_reducible exact wpgChn_n _
    | with_reducible apply State.access_keeps
    | with_reducible apply State.start_keeps
    | with_reducible apply State.ctrlWrite_keeps
    | with_reducible apply keeps_next
    | with_reducible apply keeps_foldl
    | with_reducible apply keeps_foldl1
    | with_reducible exact Or.inr (by assumption)
    | with_reducible exact Or.inl rfl
    | dsimp only
    | (simp only [keeps_mk_eq]; with_reducible apply keeps_mk)
    | with_reducible apply keeps_ite
    | with_reducible apply keeps_ite1
    | split)

theorem execSoftResetDone_keeps {W : List Part} {Q : Nat → Bool} {s0 : State} {p : Fin 1024} {s : State}
    (wAll : ∀ n, Q n = true) (wharts : Part.harts ∈ W) (wbanks : Part.banks ∈ W) (wchans : Part.chans ∈ W) (wports : Part.ports ∈ W) (wgrading : Part.grading ∈ W) (wlogs : Part.logs ∈ W) (wbridge : Part.bridge ∈ W) (wpair : Part.pair ∈ W) (whost : Part.host ∈ W) (wqueues : Part.queues ∈ W) (wcan : Part.can ∈ W) (wfield : Part.field ∈ W)
    (hK : Keeps W Q s0 s) : Res.Keeps W Q s0 (execSoftResetDone p s) := by
  unfold execSoftResetDone
  repeat' (first
    | with_reducible assumption
    | with_reducible exact id
    | with_reducible exact fun k => Mem.wf_writeBytes k
    | with_reducible exact fun k => Mem.wf_erase k
    | with_reducible exact fun k => SMap.wf_set k
    | with_reducible exact fun k => SMap.wf_drop k
    | with_reducible exact fun k => SMap.wf_foldl k
    | with_reducible exact fun k => SMap.wf_foldl (SMap.wf_drop k)
    | with_reducible exact fun _ _ k => absurd k List.not_mem_nil
    | intro _
    | with_reducible exact wAll _
    | with_reducible apply State.start_keeps
    | with_reducible apply State.wr_keeps
    | with_reducible apply State.softEnd_keeps
    | with_reducible apply keeps_next
    | with_reducible apply keeps_foldl
    | with_reducible apply keeps_foldl1
    | with_reducible exact Or.inr (by assumption)
    | with_reducible exact Or.inl rfl
    | dsimp only
    | (simp only [keeps_mk_eq]; with_reducible apply keeps_mk)
    | with_reducible apply keeps_ite
    | with_reducible apply keeps_ite1
    | split)

theorem execCtrlLock_keeps {W : List Part} {Q : Nat → Bool} {s0 : State} {r : Req} {p : Fin 1024} {d : Word} {s : State}
    (w50 : Q 50 = true) (wiCode_8 : Q (iCode 8) = true) (wiFn_n : ∀ n, Q (iFn n) = true) (wiQue_n : ∀ n, Q (iQue n) = true) (wp_val : Q p.val = true) (wpgBnk__bankOf_n_ : ∀ n, Q (pgBnk (bankOf n)) = true) (wpgChn_n : ∀ n, Q (pgChn n) = true) (wpgEvr : Q pgEvr = true) (wpgFio : Q pgFio = true) (wpgLdc : Q pgLdc = true) (wpgPair : Q pgPair = true) (wpgQpm : Q pgQpm = true) (wpgSys : Q pgSys = true) (wrecorder : Part.recorder ∈ W) (wchans : Part.chans ∈ W) (wlogs : Part.logs ∈ W) (wpair : Part.pair ∈ W) (wqueues : Part.queues ∈ W) (wfield : Part.field ∈ W)
    (hK : Keeps W Q s0 s) : Res.Keeps W Q s0 (execCtrlLock r p d s) := by
  unfold execCtrlLock
  repeat' (first
    | with_reducible assumption
    | with_reducible exact id
    | with_reducible exact fun k => Mem.wf_writeBytes k
    | with_reducible exact fun k => Mem.wf_erase k
    | with_reducible exact fun k => SMap.wf_set k
    | with_reducible exact fun k => SMap.wf_drop k
    | with_reducible exact fun k => SMap.wf_foldl k
    | with_reducible exact fun k => SMap.wf_foldl (SMap.wf_drop k)
    | with_reducible exact fun _ _ k => absurd k List.not_mem_nil
    | intro _
    | with_reducible exact wiFn_n _
    | with_reducible exact wiQue_n _
    | with_reducible exact wpgBnk__bankOf_n_ _
    | with_reducible exact wpgChn_n _
    | with_reducible apply State.access_keeps
    | with_reducible apply State.start_keeps
    | with_reducible apply State.ctrlWrite_keeps
    | with_reducible apply keeps_next
    | with_reducible apply keeps_foldl
    | with_reducible apply keeps_foldl1
    | with_reducible exact Or.inr (by assumption)
    | with_reducible exact Or.inl rfl
    | dsimp only
    | (simp only [keeps_mk_eq]; with_reducible apply keeps_mk)
    | with_reducible apply keeps_ite
    | with_reducible apply keeps_ite1
    | split)

theorem execIntForce_keeps {W : List Part} {Q : Nat → Bool} {s0 : State} {r : Req} {p : Fin 1024} {d : Word} {s : State}
    (w50 : Q 50 = true) (wiCode_8 : Q (iCode 8) = true) (wiFn_n : ∀ n, Q (iFn n) = true) (wp_val : Q p.val = true) (wpgEvr : Q pgEvr = true) (wpgSys : Q pgSys = true) (wrecorder : Part.recorder ∈ W) (wfield : Part.field ∈ W)
    (hK : Keeps W Q s0 s) : Res.Keeps W Q s0 (execIntForce r p d s) := by
  unfold execIntForce
  repeat' (first
    | with_reducible assumption
    | with_reducible exact id
    | with_reducible exact fun k => Mem.wf_writeBytes k
    | with_reducible exact fun k => Mem.wf_erase k
    | with_reducible exact fun k => SMap.wf_set k
    | with_reducible exact fun k => SMap.wf_drop k
    | with_reducible exact fun k => SMap.wf_foldl k
    | with_reducible exact fun k => SMap.wf_foldl (SMap.wf_drop k)
    | with_reducible exact fun _ _ k => absurd k List.not_mem_nil
    | intro _
    | with_reducible exact wiFn_n _
    | with_reducible apply State.access_keeps
    | with_reducible apply State.start_keeps
    | with_reducible apply State.raise_keeps
    | with_reducible apply keeps_next
    | with_reducible apply keeps_foldl
    | with_reducible apply keeps_foldl1
    | with_reducible exact Or.inr (by assumption)
    | with_reducible exact Or.inl rfl
    | dsimp only
    | (simp only [keeps_mk_eq]; with_reducible apply keeps_mk)
    | with_reducible apply keeps_ite
    | with_reducible apply keeps_ite1
    | split)

theorem execQpmEnable_keeps {W : List Part} {Q : Nat → Bool} {s0 : State} {r : Req} {d : Word} {s : State}
    (w50 : Q 50 = true) (wiCode_8 : Q (iCode 8) = true) (wiFn_n : ∀ n, Q (iFn n) = true) (wiQue_n : ∀ n, Q (iQue n) = true) (wpgBnk__bankOf_n_ : ∀ n, Q (pgBnk (bankOf n)) = true) (wpgChn_n : ∀ n, Q (pgChn n) = true) (wpgEvr : Q pgEvr = true) (wpgFio : Q pgFio = true) (wpgLdc : Q pgLdc = true) (wpgPair : Q pgPair = true) (wpgQpm : Q pgQpm = true) (wpgSys : Q pgSys = true) (wrecorder : Part.recorder ∈ W) (wchans : Part.chans ∈ W) (wlogs : Part.logs ∈ W) (wpair : Part.pair ∈ W) (wqueues : Part.queues ∈ W) (wfield : Part.field ∈ W)
    (hK : Keeps W Q s0 s) : Res.Keeps W Q s0 (execQpmEnable r d s) := by
  unfold execQpmEnable
  repeat' (first
    | with_reducible assumption
    | with_reducible exact id
    | with_reducible exact fun k => Mem.wf_writeBytes k
    | with_reducible exact fun k => Mem.wf_erase k
    | with_reducible exact fun k => SMap.wf_set k
    | with_reducible exact fun k => SMap.wf_drop k
    | with_reducible exact fun k => SMap.wf_foldl k
    | with_reducible exact fun k => SMap.wf_foldl (SMap.wf_drop k)
    | with_reducible exact fun _ _ k => absurd k List.not_mem_nil
    | intro _
    | with_reducible exact wiFn_n _
    | with_reducible exact wiQue_n _
    | with_reducible exact wpgBnk__bankOf_n_ _
    | with_reducible exact wpgChn_n _
    | with_reducible apply State.access_keeps
    | with_reducible apply State.start_keeps
    | with_reducible apply State.ctrlWrite_keeps
    | with_reducible apply keeps_next
    | with_reducible apply keeps_foldl
    | with_reducible apply keeps_foldl1
    | with_reducible exact Or.inr (by assumption)
    | with_reducible exact Or.inl rfl
    | dsimp only
    | (simp only [keeps_mk_eq]; with_reducible apply keeps_mk)
    | with_reducible apply keeps_ite
    | with_reducible apply keeps_ite1
    | split)

end Sys2Proof.Machine
end

