-- ==== Sys2Proof/Laws/KeepsAccess.lean ====
section
/-! SUPPORT. What each function and command of Machine/Access.lean keeps. -/
set_option linter.all false
set_option Elab.async false
namespace Sys2Proof.Machine

theorem State.putReg_keeps {W : List Part} {Q : Nat → Bool} {s0 : State} {s : State} {i : Nat} {p : Nat} {off : Nat} {d : Word}
    (wi : Q i = true)
    (hK : Keeps W Q s0 s) : Keeps W Q s0 (State.putReg s i p off d) := by
  unfold State.putReg
  repeat' (first
    | with_reducible assumption
    | with_reducible exact id
    | with_reducible exact fun k => Mem.wf_writeBytes k
    | with_reducible exact fun k => Mem.wf_erase k
    | with_reducible exact fun k => SMap.wf_set k
    | with_reducible exact fun k => SMap.wf_drop k
    | with_reducible exact fun k => SMap.wf_foldl k
    | with_reducible exact fun k => SMap.wf_foldl (SMap.wf_drop k)
    | with_reducible exact fun _ _ k => absurd k List.not_mem_nil
    | intro _
    | with_reducible apply State.fldWrite_keeps
    | with_reducible apply keeps_next
    | with_reducible apply keeps_foldl
    | with_reducible apply keeps_foldl1
    | with_reducible exact Or.inr (by assumption)
    | with_reducible exact Or.inl rfl
    | dsimp only
    | (simp only [keeps_mk_eq]; with_reducible apply keeps_mk)
    | with_reducible apply keeps_ite
    | with_reducible apply keeps_ite1
    | split)

theorem State.clearRead_keeps {W : List Part} {Q : Nat → Bool} {s0 : State} {s : State} {r : Req} {p : Nat} {off : Nat}
    (wAll : ∀ n, Q n = true)
    (hK : Keeps W Q s0 s) : Keeps W Q s0 (State.clearRead s r p off) := by
  unfold State.clearRead
  repeat' (first
    | with_reducible assumption
    | with_reducible exact id
    | with_reducible exact fun k => Mem.wf_writeBytes k
    | with_reducible exact fun k => Mem.wf_erase k
    | with_reducible exact fun k => SMap.wf_set k
    | with_reducible exact fun k => SMap.wf_drop k
    | with_reducible exact fun k => SMap.wf_foldl k
    | with_reducible exact fun k => SMap.wf_foldl (SMap.wf_drop k)
    | with_reducible exact fun _ _ k => absurd k List.not_mem_nil
    | intro _
    | with_reducible exact wAll _
    | with_reducible apply State.wr_keeps
    | with_reducible apply keeps_next
    | with_reducible apply keeps_foldl
    | with_reducible apply keeps_foldl1
    | with_reducible exact Or.inr (by assumption)
    | with_reducible exact Or.inl rfl
    | dsimp only
    | (simp only [keeps_mk_eq]; with_reducible apply keeps_mk)
    | with_reducible apply keeps_ite
    | with_reducible apply keeps_ite1
    | split)

theorem State.takeSnap_keeps {W : List Part} {Q : Nat → Bool} {s0 : State} {s : State} {r : Req} {p : Nat} {off : Nat}
    (wsnaps : Part.snaps ∈ W)
    (hK : Keeps W Q s0 s) : Keeps W Q s0 (State.takeSnap s r p off) := by
  unfold State.takeSnap
  repeat' (first
    | with_reducible assumption
    | with_reducible exact id
    | with_reducible exact fun k => Mem.wf_writeBytes k
    | with_reducible exact fun k => Mem.wf_erase k
    | with_reducible exact fun k => SMap.wf_set k
    | with_reducible exact fun k => SMap.wf_drop k
    | with_reducible exact fun k => SMap.wf_foldl k
    | with_reducible exact fun k => SMap.wf_foldl (SMap.wf_drop k)
    | with_reducible exact fun _ _ k => absurd k List.not_mem_nil
    | intro _
    | with_reducible apply keeps_next
    | with_reducible apply keeps_foldl
    | with_reducible apply keeps_foldl1
    | with_reducible exact Or.inr (by assumption)
    | with_reducible exact Or.inl rfl
    | dsimp only
    | (simp only [keeps_mk_eq]; with_reducible apply keeps_mk)
    | with_reducible apply keeps_ite
    | with_reducible apply keeps_ite1
    | split)

theorem State.readReg_keeps {W : List Part} {Q : Nat → Bool} {s0 : State} {s : State} {r : Req} {p : Nat} {off : Nat}
    (wAll : ∀ n, Q n = true) (wsnaps : Part.snaps ∈ W) (wbridge : Part.bridge ∈ W) (wswitch : Part.switch ∈ W)
    (hK : Keeps W Q s0 s) : Keeps W Q s0 (State.readReg s r p off) := by
  unfold State.readReg
  repeat' (first
    | with_reducible assumption
    | with_reducible exact id
    | with_reducible exact fun k => Mem.wf_writeBytes k
    | with_reducible exact fun k => Mem.wf_erase k
    | with_reducible exact fun k => SMap.wf_set k
    | with_reducible exact fun k => SMap.wf_drop k
    | with_reducible exact fun k => SMap.wf_foldl k
    | with_reducible exact fun k => SMap.wf_foldl (SMap.wf_drop k)
    | with_reducible exact fun _ _ k => absurd k List.not_mem_nil
    | intro _
    | with_reducible exact wAll _
    | with_reducible apply State.brgCollect_keeps
    | with_reducible apply State.tsqPop_keeps
    | with_reducible apply State.answer_keeps
    | with_reducible apply State.takeSnap_keeps
    | with_reducible apply State.clearRead_keeps
    | with_reducible apply State.freeNext_keeps
    | with_reducible apply keeps_next
    | with_reducible apply keeps_foldl
    | with_reducible apply keeps_foldl1
    | with_reducible exact Or.inr (by assumption)
    | with_reducible exact Or.inl rfl
    | dsimp only
    | (simp only [keeps_mk_eq]; with_reducible apply keeps_mk)
    | with_reducible apply keeps_ite
    | with_reducible apply keeps_ite1
    | split)

theorem State.regAccess_keeps {W : List Part} {Q : Nat → Bool} {s0 : State} {s : State} {r : Req} {p : Nat} {off : Nat} {sz : Nat} {write : Bool} {k : State → State}
    (w50 : Q 50 = true) (wiCode_8 : Q (iCode 8) = true) (wiFn_n : ∀ n, Q (iFn n) = true) (wpgEvr : Q pgEvr = true) (wpgSys : Q pgSys = true) (wrecorder : Part.recorder ∈ W) (wfield : Part.field ∈ W) (hk : ∀ (y0 : State), Keeps W Q s0 y0 → Keeps W Q s0 (k y0))
    (hK : Keeps W Q s0 s) : Keeps W Q s0 (State.regAccess s r p off sz write k) := by
  unfold State.regAccess
  repeat' (first
    | with_reducible assumption
    | with_reducible exact id
    | with_reducible exact fun k => Mem.wf_writeBytes k
    | with_reducible exact fun k => Mem.wf_erase k
    | with_reducible exact fun k => SMap.wf_set k
    | with_reducible exact fun k => SMap.wf_drop k
    | with_reducible exact fun k => SMap.wf_foldl k
    | with_reducible exact fun k => SMap.wf_foldl (SMap.wf_drop k)
    | with_reducible exact fun _ _ k => absurd k List.not_mem_nil
    | intro _
    | with_reducible exact wiFn_n _
    | exact hk _ (by assumption)
    | with_reducible apply hk
    | with_reducible apply State.accErr_keeps
    | with_reducible apply State.answer_keeps
    | with_reducible apply keeps_next
    | with_reducible apply keeps_foldl
    | with_reducible apply keeps_foldl1
    | with_reducible exact Or.inr (by assumption)
    | with_reducible exact Or.inl rfl
    | dsimp only
    | (simp only [keeps_mk_eq]; with_reducible apply keeps_mk)
    | with_reducible apply keeps_ite
    | with_reducible apply keeps_ite1
    | split)

theorem State.readAcc_keeps {W : List Part} {Q : Nat → Bool} {s0 : State} {s : State} {r : Req} {p : Nat} {off : Nat} {sz : Nat}
    (wAll : ∀ n, Q n = true) (wsnaps : Part.snaps ∈ W) (wrecorder : Part.recorder ∈ W) (wbridge : Part.bridge ∈ W) (wswitch : Part.switch ∈ W) (wfield : Part.field ∈ W)
    (hK : Keeps W Q s0 s) : Keeps W Q s0 (State.readAcc s r p off sz) := by
  unfold State.readAcc
  repeat' (first
    | with_reducible assumption
    | with_reducible exact id
    | with_reducible exact fun k => Mem.wf_writeBytes k
    | with_reducible exact fun k => Mem.wf_erase k
    | with_reducible exact fun k => SMap.wf_set k
    | with_reducible exact fun k => SMap.wf_drop k
    | with_reducible exact fun k => SMap.wf_foldl k
    | with_reducible exact fun k => SMap.wf_foldl (SMap.wf_drop k)
    | with_reducible exact fun _ _ k => absurd k List.not_mem_nil
    | intro _
    | with_reducible exact wAll _
    | with_reducible apply State.regAccess_keeps
    | with_reducible apply State.readReg_keeps
    | with_reducible apply State.answer_keeps
    | with_reducible apply keeps_next
    | with_reducible apply keeps_foldl
    | with_reducible apply keeps_foldl1
    | with_reducible exact Or.inr (by assumption)
    | with_reducible exact Or.inl rfl
    | dsimp only
    | (simp only [keeps_mk_eq]; with_reducible apply keeps_mk)
    | with_reducible apply keeps_ite
    | with_reducible apply keeps_ite1
    | split)

theorem execSnapshotRead_keeps {W : List Part} {Q : Nat → Bool} {s0 : State} {r : Req} {p : Fin 1024} {off : Fin 4096} {sz : Fin 4} {s : State}
    (wAll : ∀ n, Q n = true) (wsnaps : Part.snaps ∈ W) (wrecorder : Part.recorder ∈ W) (wbridge : Part.bridge ∈ W) (wswitch : Part.switch ∈ W) (wfield : Part.field ∈ W)
    (hK : Keeps W Q s0 s) : Res.Keeps W Q s0 (execSnapshotRead r p off sz s) := by
  unfold execSnapshotRead
  repeat' (first
    | with_reducible assumption
    | with_reducible exact id
    | with_reducible exact fun k => Mem.wf_writeBytes k
    | with_reducible exact fun k => Mem.wf_erase k
    | with_reducible exact fun k => SMap.wf_set k
    | with_reducible exact fun k => SMap.wf_drop k
    | with_reducible exact fun k => SMap.wf_foldl k
    | with_reducible exact fun k => SMap.wf_foldl (SMap.wf_drop k)
    | with_reducible exact fun _ _ k => absurd k List.not_mem_nil
    | intro _
    | with_reducible exact wAll _
    | with_reducible apply State.readAcc_keeps
    | with_reducible apply State.start_keeps
    | with_reducible apply keeps_next
    | with_reducible apply keeps_foldl
    | with_reducible apply keeps_foldl1
    | with_reducible exact Or.inr (by assumption)
    | with_reducible exact Or.inl rfl
    | dsimp only
    | (simp only [keeps_mk_eq]; with_reducible apply keeps_mk)
    | with_reducible apply keeps_ite
    | with_reducible apply keeps_ite1
    | split)

theorem execReadClear_keeps {W : List Part} {Q : Nat → Bool} {s0 : State} {r : Req} {p : Fin 1024} {off : Fin 4096} {s : State}
    (wAll : ∀ n, Q n = true) (wsnaps : Part.snaps ∈ W) (wrecorder : Part.recorder ∈ W) (wbridge : Part.bridge ∈ W) (wswitch : Part.switch ∈ W) (wfield : Part.field ∈ W)
    (hK : Keeps W Q s0 s) : Res.Keeps W Q s0 (execReadClear r p off s) := by
  unfold execReadClear
  repeat' (first
    | with_reducible assumption
    | with_reducible exact id
    | with_reducible exact fun k => Mem.wf_writeBytes k
    | with_reducible exact fun k => Mem.wf_erase k
    | with_reducible exact fun k => SMap.wf_set k
    | with_reducible exact fun k => SMap.wf_drop k
    | with_reducible exact fun k => SMap.wf_foldl k
    | with_reducible exact fun k => SMap.wf_foldl (SMap.wf_drop k)
    | with_reducible exact fun _ _ k => absurd k List.not_mem_nil
    | intro _
    | with_reducible exact wAll _
    | with_reducible apply State.readAcc_keeps
    | with_reducible apply State.start_keeps
    | with_reducible apply keeps_next
    | with_reducible apply keeps_foldl
    | with_reducible apply keeps_foldl1
    | with_reducible exact Or.inr (by assumption)
    | with_reducible exact Or.inl rfl
    | dsimp only
    | (simp only [keeps_mk_eq]; with_reducible apply keeps_mk)
    | with_reducible apply keeps_ite
    | with_reducible apply keeps_ite1
    | split)

theorem State.intClear_keeps {W : List Part} {Q : Nat → Bool} {s0 : State} {s : State} {p : Nat} {d : Word}
    (wiFn_n : ∀ n, Q (iFn n) = true) (wp : Q p = true) (wpgCan_n : ∀ n, Q (pgCan n) = true) (wpgTmp : Q pgTmp = true) (wfield : Part.field ∈ W)
    (hK : Keeps W Q s0 s) : Keeps W Q s0 (State.intClear s p d) := by
  unfold State.intClear
  repeat' (first
    | with_reducible assumption
    | with_reducible exact id
    | with_reducible exact fun k => Mem.wf_writeBytes k
    | with_reducible exact fun k => Mem.wf_erase k
    | with_reducible exact fun k => SMap.wf_set k
    | with_reducible exact fun k => SMap.wf_drop k
    | with_reducible exact fun k => SMap.wf_foldl k
    | with_reducible exact fun k => SMap.wf_foldl (SMap.wf_drop k)
    | with_reducible exact fun _ _ k => absurd k List.not_mem_nil
    | intro _
    | with_reducible exact wiFn_n _
    | with_reducible exact wpgCan_n _
    | with_reducible apply State.clrBits_keeps
    | with_reducible apply State.canLevel_keeps
    | with_reducible apply State.raise_keeps
    | with_reducible apply keeps_next
    | with_reducible apply keeps_foldl
    | with_reducible apply keeps_foldl1
    | with_reducible exact Or.inr (by assumption)
    | with_reducible exact Or.inl rfl
    | dsimp only
    | (simp only [keeps_mk_eq]; with_reducible apply keeps_mk)
    | with_reducible apply keeps_ite
    | with_reducible apply keeps_ite1
    | split)

theorem State.putHeader_keeps {W : List Part} {Q : Nat → Bool} {s0 : State} {s : State} {p : Nat} {off : Nat} {d : Word}
    (wiFn_n : ∀ n, Q (iFn n) = true) (wiQue_n : ∀ n, Q (iQue n) = true) (wp : Q p = true) (wpgBnk__bankOf_n_ : ∀ n, Q (pgBnk (bankOf n)) = true) (wpgCan_n : ∀ n, Q (pgCan n) = true) (wpgChn_n : ∀ n, Q (pgChn n) = true) (wpgFio : Q pgFio = true) (wpgLdc : Q pgLdc = true) (wpgPair : Q pgPair = true) (wpgQpm : Q pgQpm = true) (wpgTmp : Q pgTmp = true) (wchans : Part.chans ∈ W) (wlogs : Part.logs ∈ W) (wpair : Part.pair ∈ W) (wqueues : Part.queues ∈ W) (wfield : Part.field ∈ W)
    (hK : Keeps W Q s0 s) : Keeps W Q s0 (State.putHeader s p off d) := by
  unfold State.putHeader
  repeat' (first
    | with_reducible assumption
    | with_reducible exact id
    | with_reducible exact fun k => Mem.wf_writeBytes k
    | with_reducible exact fun k => Mem.wf_erase k
    | with_reducible exact fun k => SMap.wf_set k
    | with_reducible exact fun k => SMap.wf_drop k
    | with_reducible exact fun k => SMap.wf_foldl k
    | with_reducible exact fun k => SMap.wf_foldl (SMap.wf_drop k)
    | with_reducible exact fun _ _ k => absurd k List.not_mem_nil
    | intro _
    | with_reducible exact wiFn_n _
    | with_reducible exact wiQue_n _
    | with_reducible exact wpgBnk__bankOf_n_ _
    | with_reducible exact wpgCan_n _
    | with_reducible exact wpgChn_n _
    | with_reducible apply State.ctrlWrite_keeps
    | with_reducible apply State.intClear_keeps
    | with_reducible apply State.irqEdge_keeps
    | with_reducible apply State.wr_keeps
    | with_reducible apply State.raise_keeps
    | with_reducible apply keeps_next
    | with_reducible apply keeps_foldl
    | with_reducible apply keeps_foldl1
    | with_reducible exact Or.inr (by assumption)
    | with_reducible exact Or.inl rfl
    | dsimp only
    | (simp only [keeps_mk_eq]; with_reducible apply keeps_mk)
    | with_reducible apply keeps_ite
    | with_reducible apply keeps_ite1
    | split)

theorem State.putPwr_keeps {W : List Part} {Q : Nat → Bool} {s0 : State} {s : State} {r : Req} {off : Nat} {d : Word}
    (wAll : ∀ n, Q n = true) (wmem : Part.mem ∈ W) (wstore : Part.store ∈ W) (wsnaps : Part.snaps ∈ W) (wrecorder : Part.recorder ∈ W) (wtime : Part.time ∈ W) (wvcore : Part.vcore ∈ W) (wharts : Part.harts ∈ W) (wbanks : Part.banks ∈ W) (wchans : Part.chans ∈ W) (wbus : Part.bus ∈ W) (wports : Part.ports ∈ W) (wgrading : Part.grading ∈ W) (wlogs : Part.logs ∈ W) (wbridge : Part.bridge ∈ W) (wpair : Part.pair ∈ W) (whost : Part.host ∈ W) (wkeys : Part.keys ∈ W) (wpages : Part.pages ∈ W) (wboot : Part.boot ∈ W) (wqueues : Part.queues ∈ W) (wswitch : Part.switch ∈ W) (wcan : Part.can ∈ W) (wpower : Part.power ∈ W) (wfta : Part.fta ∈ W)
    (hK : Keeps W Q s0 s) : Keeps W Q s0 (State.putPwr s r off d) := by
  unfold State.putPwr
  repeat' (first
    | with_reducible assumption
    | with_reducible exact id
    | with_reducible exact fun k => Mem.wf_writeBytes k
    | with_reducible exact fun k => Mem.wf_erase k
    | with_reducible exact fun k => SMap.wf_set k
    | with_reducible exact fun k => SMap.wf_drop k
    | with_reducible exact fun k => SMap.wf_foldl k
    | with_reducible exact fun k => SMap.wf_foldl (SMap.wf_drop k)
    | with_reducible exact fun _ _ k => absurd k List.not_mem_nil
    | intro _
    | with_reducible exact wAll _
    | with_reducible apply State.domReq_keeps
    | with_reducible apply State.putReg_keeps
    | with_reducible apply State.wr_keeps
    | with_reducible apply State.sleepCtrl_keeps
    | with_reducible apply keeps_next
    | with_reducible apply keeps_foldl
    | with_reducible apply keeps_foldl1
    | with_reducible exact Or.inr (by assumption)
    | with_reducible exact Or.inl rfl
    | dsimp only
    | (simp only [keeps_mk_eq]; with_reducible apply keeps_mk)
    | with_reducible apply keeps_ite
    | with_reducible apply keeps_ite1
    | split)

theorem State.putKeys_keeps {W : List Part} {Q : Nat → Bool} {s0 : State} {s : State} {r : Req} {p : Nat} {off : Nat} {d : Word}
    (wiFn_n : ∀ n, Q (iFn n) = true) (wp : Q p = true) (wpgCry : Q pgCry = true) (wpgKey : Q pgKey = true) (wkeys : Part.keys ∈ W) (wroot : Part.root ∈ W) (wbattery : Part.battery ∈ W)
    (hK : Keeps W Q s0 s) : Keeps W Q s0 (State.putKeys s r p off d) := by
  unfold State.putKeys
  repeat' (first
    | with_reducible assumption
    | with_reducible exact id
    | with_reducible exact fun k => Mem.wf_writeBytes k
    | with_reducible exact fun k => Mem.wf_erase k
    | with_reducible exact fun k => SMap.wf_set k
    | with_reducible exact fun k => SMap.wf_drop k
    | with_reducible exact fun k => SMap.wf_foldl k
    | with_reducible exact fun k => SMap.wf_foldl (SMap.wf_drop k)
    | with_reducible exact fun _ _ k => absurd k List.not_mem_nil
    | intro _
    | with_reducible exact wiFn_n _
    | with_reducible apply State.keyCmd_keeps
    | with_reducible apply State.keyZero_keeps
    | with_reducible apply State.putReg_keeps
    | with_reducible apply State.cryOpWrite_keeps
    | with_reducible apply keeps_next
    | with_reducible apply keeps_foldl
    | with_reducible apply keeps_foldl1
    | with_reducible exact Or.inr (by assumption)
    | with_reducible exact Or.inl rfl
    | dsimp only
    | (simp only [keeps_mk_eq]; with_reducible apply keeps_mk)
    | with_reducible apply keeps_ite
    | with_reducible apply keeps_ite1
    | split)

theorem State.putSec_keeps {W : List Part} {Q : Nat → Bool} {s0 : State} {s : State} {off : Nat} {d : Word}
    (wAll : ∀ n, Q n = true) (wmem : Part.mem ∈ W) (wharts : Part.harts ∈ W) (wpages : Part.pages ∈ W)
    (hK : Keeps W Q s0 s) : Keeps W Q s0 (State.putSec s off d) := by
  unfold State.putSec
  repeat' (first
    | with_reducible assumption
    | with_reducible exact id
    | with_reducible exact fun k => Mem.wf_writeBytes k
    | with_reducible exact fun k => Mem.wf_erase k
    | with_reducible exact fun k => SMap.wf_set k
    | with_reducible exact fun k => SMap.wf_drop k
    | with_reducible exact fun k => SMap.wf_foldl k
    | with_reducible exact fun k => SMap.wf_foldl (SMap.wf_drop k)
    | with_reducible exact fun _ _ k => absurd k List.not_mem_nil
    | intro _
    | with_reducible exact wAll _
    | with_reducible apply State.wmWrite_keeps
    | with_reducible apply State.l2Write_keeps
    | with_reducible apply State.coreRun_keeps
    | with_reducible apply State.hoCmd_keeps
    | with_reducible apply State.cocCmd_keeps
    | with_reducible apply State.putReg_keeps
    | with_reducible apply keeps_next
    | with_reducible apply keeps_foldl
    | with_reducible apply keeps_foldl1
    | with_reducible exact Or.inr (by assumption)
    | with_reducible exact Or.inl rfl
    | dsimp only
    | (simp only [keeps_mk_eq]; with_reducible apply keeps_mk)
    | with_reducible apply keeps_ite
    | with_reducible apply keeps_ite1
    | split)

theorem State.putMbx_keeps {W : List Part} {Q : Nat → Bool} {s0 : State} {s : State} {r : Req} {off : Nat} {d : Word}
    (wiFn_n : ∀ n, Q (iFn n) = true) (wpgMbx : Q pgMbx = true)
    (hK : Keeps W Q s0 s) : Keeps W Q s0 (State.putMbx s r off d) := by
  unfold State.putMbx
  repeat' (first
    | with_reducible assumption
    | with_reducible exact id
    | with_reducible exact fun k => Mem.wf_writeBytes k
    | with_reducible exact fun k => Mem.wf_erase k
    | with_reducible exact fun k => SMap.wf_set k
    | with_reducible exact fun k => SMap.wf_drop k
    | with_reducible exact fun k => SMap.wf_foldl k
    | with_reducible exact fun k => SMap.wf_foldl (SMap.wf_drop k)
    | with_reducible exact fun _ _ k => absurd k List.not_mem_nil
    | intro _
    | with_reducible exact wiFn_n _
    | with_reducible apply State.mbxAct_keeps
    | with_reducible apply State.putReg_keeps
    | with_reducible apply State.bump_keeps
    | with_reducible apply State.wr_keeps
    | with_reducible apply keeps_next
    | with_reducible apply keeps_foldl
    | with_reducible apply keeps_foldl1
    | with_reducible exact Or.inr (by assumption)
    | with_reducible exact Or.inl rfl
    | dsimp only
    | (simp only [keeps_mk_eq]; with_reducible apply keeps_mk)
    | with_reducible apply keeps_ite
    | with_reducible apply keeps_ite1
    | split)

theorem State.putMsix_keeps {W : List Part} {Q : Nat → Bool} {s0 : State} {s : State} {f : Nat} {off : Nat} {d : Word}
    (wiFn_f : Q (iFn f) = true)
    (hK : Keeps W Q s0 s) : Keeps W Q s0 (State.putMsix s f off d) := by
  unfold State.putMsix
  repeat' (first
    | with_reducible assumption
    | with_reducible exact id
    | with_reducible exact fun k => Mem.wf_writeBytes k
    | with_reducible exact fun k => Mem.wf_erase k
    | with_reducible exact fun k => SMap.wf_set k
    | with_reducible exact fun k => SMap.wf_drop k
    | with_reducible exact fun k => SMap.wf_foldl k
    | with_reducible exact fun k => SMap.wf_foldl (SMap.wf_drop k)
    | with_reducible exact fun _ _ k => absurd k List.not_mem_nil
    | intro _
    | with_reducible apply State.wr_keeps
    | with_reducible apply State.msix_keeps
    | with_reducible apply keeps_next
    | with_reducible apply keeps_foldl
    | with_reducible apply keeps_foldl1
    | with_reducible exact Or.inr (by assumption)
    | with_reducible exact Or.inl rfl
    | dsimp only
    | (simp only [keeps_mk_eq]; with_reducible apply keeps_mk)
    | with_reducible apply keeps_ite
    | with_reducible apply keeps_ite1
    | split)

theorem State.putFn_keeps {W : List Part} {Q : Nat → Bool} {s0 : State} {s : State} {f : Nat} {off : Nat} {d : Word}
    (wiFn_f : Q (iFn f) = true) (whost : Part.host ∈ W) (wqueues : Part.queues ∈ W)
    (hK : Keeps W Q s0 s) : Keeps W Q s0 (State.putFn s f off d) := by
  unfold State.putFn
  repeat' (first
    | with_reducible assumption
    | with_reducible exact id
    | with_reducible exact fun k => Mem.wf_writeBytes k
    | with_reducible exact fun k => Mem.wf_erase k
    | with_reducible exact fun k => SMap.wf_set k
    | with_reducible exact fun k => SMap.wf_drop k
    | with_reducible exact fun k => SMap.wf_foldl k
    | with_reducible exact fun k => SMap.wf_foldl (SMap.wf_drop k)
    | with_reducible exact fun _ _ k => absurd k List.not_mem_nil
    | intro _
    | with_reducible apply State.doorbell_keeps
    | with_reducible apply State.qpCtrl_keeps
    | with_reducible apply State.setQp_keeps
    | with_reducible apply State.putMsix_keeps
    | with_reducible apply State.putReg_keeps
    | with_reducible apply keeps_next
    | with_reducible apply keeps_foldl
    | with_reducible apply keeps_foldl1
    | with_reducible exact Or.inr (by assumption)
    | with_reducible exact Or.inl rfl
    | dsimp only
    | (simp only [keeps_mk_eq]; with_reducible apply keeps_mk)
    | with_reducible apply keeps_ite
    | with_reducible apply keeps_ite1
    | split)

theorem State.putFnc_keeps {W : List Part} {Q : Nat → Bool} {s0 : State} {s : State} {r : Req} {off : Nat} {d : Word}
    (wAll : ∀ n, Q n = true) (wchans : Part.chans ∈ W) (whost : Part.host ∈ W) (wqueues : Part.queues ∈ W)
    (hK : Keeps W Q s0 s) : Keeps W Q s0 (State.putFnc s r off d) := by
  unfold State.putFnc
  repeat' (first
    | with_reducible assumption
    | with_reducible exact id
    | with_reducible exact fun k => Mem.wf_writeBytes k
    | with_reducible exact fun k => Mem.wf_erase k
    | with_reducible exact fun k => SMap.wf_set k
    | with_reducible exact fun k => SMap.wf_drop k
    | with_reducible exact fun k => SMap.wf_foldl k
    | with_reducible exact fun k => SMap.wf_foldl (SMap.wf_drop k)
    | with_reducible exact fun _ _ k => absurd k List.not_mem_nil
    | intro _
    | with_reducible exact wAll _
    | with_reducible apply State.putFn_keeps
    | with_reducible apply State.fnCtrl_keeps
    | with_reducible apply State.quotaWrite_keeps
    | with_reducible apply State.rangeWrite_keeps
    | with_reducible apply State.putReg_keeps
    | with_reducible apply keeps_next
    | with_reducible apply keeps_foldl
    | with_reducible apply keeps_foldl1
    | with_reducible exact Or.inr (by assumption)
    | with_reducible exact Or.inl rfl
    | dsimp only
    | (simp only [keeps_mk_eq]; with_reducible apply keeps_mk)
    | with_reducible apply keeps_ite
    | with_reducible apply keeps_ite1
    | split)

theorem State.putQpm_keeps {W : List Part} {Q : Nat → Bool} {s0 : State} {s : State} {off : Nat} {d : Word}
    (wiFn_n : ∀ n, Q (iFn n) = true) (wiQue_n : ∀ n, Q (iQue n) = true) (wpgQpm : Q pgQpm = true) (wqueues : Part.queues ∈ W)
    (hK : Keeps W Q s0 s) : Keeps W Q s0 (State.putQpm s off d) := by
  unfold State.putQpm
  repeat' (first
    | with_reducible assumption
    | with_reducible exact id
    | with_reducible exact fun k => Mem.wf_writeBytes k
    | with_reducible exact fun k => Mem.wf_erase k
    | with_reducible exact fun k => SMap.wf_set k
    | with_reducible exact fun k => SMap.wf_drop k
    | with_reducible exact fun k => SMap.wf_foldl k
    | with_reducible exact fun k => SMap.wf_foldl (SMap.wf_drop k)
    | with_reducible exact fun _ _ k => absurd k List.not_mem_nil
    | intro _
    | with_reducible exact wiFn_n _
    | with_reducible exact wiQue_n _
    | with_reducible apply State.putReg_keeps
    | with_reducible apply State.qCfg_keeps
    | with_reducible apply State.freeNext_keeps
    | with_reducible apply State.qCmd_keeps
    | with_reducible apply keeps_next
    | with_reducible apply keeps_foldl
    | with_reducible apply keeps_foldl1
    | with_reducible exact Or.inr (by assumption)
    | with_reducible exact Or.inl rfl
    | dsimp only
    | (simp only [keeps_mk_eq]; with_reducible apply keeps_mk)
    | with_reducible apply keeps_ite
    | with_reducible apply keeps_ite1
    | split)

theorem State.putShadow_keeps {W : List Part} {Q : Nat → Bool} {s0 : State} {s : State} {p : Nat} {off : Nat} {d : Word}
    (wiShadow_p : Q (iShadow p) = true)
    (hK : Keeps W Q s0 s) : Keeps W Q s0 (State.putShadow s p off d) := by
  unfold State.putShadow
  repeat' (first
    | with_reducible assumption
    | with_reducible exact id
    | with_reducible exact fun k => Mem.wf_writeBytes k
    | with_reducible exact fun k => Mem.wf_erase k
    | with_reducible exact fun k => SMap.wf_set k
    | with_reducible exact fun k => SMap.wf_drop k
    | with_reducible exact fun k => SMap.wf_foldl k
    | with_reducible exact fun k => SMap.wf_foldl (SMap.wf_drop k)
    | with_reducible exact fun _ _ k => absurd k List.not_mem_nil
    | intro _
    | with_reducible apply State.wrShadow_keeps
    | with_reducible apply keeps_next
    | with_reducible apply keeps_foldl
    | with_reducible apply keeps_foldl1
    | with_reducible exact Or.inr (by assumption)
    | with_reducible exact Or.inl rfl
    | dsimp only
    | (simp only [keeps_mk_eq]; with_reducible apply keeps_mk)
    | with_reducible apply keeps_ite
    | with_reducible apply keeps_ite1
    | split)

theorem State.putWide_keeps {W : List Part} {Q : Nat → Bool} {s0 : State} {s : State} {p : Nat} {f : Fld} {v : Nat}
    (wiShadow_p : Q (iShadow p) = true) (wp : Q p = true)
    (hK : Keeps W Q s0 s) : Keeps W Q s0 (State.putWide s p f v) := by
  unfold State.putWide
  repeat' (first
    | with_reducible assumption
    | with_reducible exact id
    | with_reducible exact fun k => Mem.wf_writeBytes k
    | with_reducible exact fun k => Mem.wf_erase k
    | with_reducible exact fun k => SMap.wf_set k
    | with_reducible exact fun k => SMap.wf_drop k
    | with_reducible exact fun k => SMap.wf_foldl k
    | with_reducible exact fun k => SMap.wf_foldl (SMap.wf_drop k)
    | with_reducible exact fun _ _ k => absurd k List.not_mem_nil
    | intro _
    | with_reducible apply State.wrShadow_keeps
    | with_reducible apply State.wr_keeps
    | with_reducible apply keeps_next
    | with_reducible apply keeps_foldl
    | with_reducible apply keeps_foldl1
    | with_reducible exact Or.inr (by assumption)
    | with_reducible exact Or.inl rfl
    | dsimp only
    | (simp only [keeps_mk_eq]; with_reducible apply keeps_mk)
    | with_reducible apply keeps_ite
    | with_reducible apply keeps_ite1
    | split)

theorem State.putHalf_keeps {W : List Part} {Q : Nat → Bool} {s0 : State} {s : State} {r : Req} {p : Nat} {f : Fld} {n : Nat} {d : Word}
    (wiShadow_p : Q (iShadow p) = true) (wp : Q p = true) (wstore : Part.store ∈ W)
    (hK : Keeps W Q s0 s) : Keeps W Q s0 (State.putHalf s r p f n d) := by
  unfold State.putHalf
  repeat' (first
    | with_reducible assumption
    | with_reducible exact id
    | with_reducible exact fun k => Mem.wf_writeBytes k
    | with_reducible exact fun k => Mem.wf_erase k
    | with_reducible exact fun k => SMap.wf_set k
    | with_reducible exact fun k => SMap.wf_drop k
    | with_reducible exact fun k => SMap.wf_foldl k
    | with_reducible exact fun k => SMap.wf_foldl (SMap.wf_drop k)
    | with_reducible exact fun _ _ k => absurd k List.not_mem_nil
    | intro _
    | with_reducible apply State.putWide_keeps
    | with_reducible apply keeps_next
    | with_reducible apply keeps_foldl
    | with_reducible apply keeps_foldl1
    | with_reducible exact Or.inr (by assumption)
    | with_reducible exact Or.inl rfl
    | dsimp only
    | (simp only [keeps_mk_eq]; with_reducible apply keeps_mk)
    | with_reducible apply keeps_ite
    | with_reducible apply keeps_ite1
    | split)

theorem State.putChn_keeps {W : List Part} {Q : Nat → Bool} {s0 : State} {s : State} {r : Req} {c : Nat} {off : Nat} {d : Word}
    (wiFn_n : ∀ n, Q (iFn n) = true) (wiShadow__pgChn_c_ : Q (iShadow (pgChn c)) = true) (wpgBnk__bankOf_c_ : Q (pgBnk (bankOf c)) = true) (wpgChn_c : Q (pgChn c) = true) (wchans : Part.chans ∈ W)
    (hK : Keeps W Q s0 s) : Keeps W Q s0 (State.putChn s r c off d) := by
  unfold State.putChn
  repeat' (first
    | with_reducible assumption
    | with_reducible exact id
    | with_reducible exact fun k => Mem.wf_writeBytes k
    | with_reducible exact fun k => Mem.wf_erase k
    | with_reducible exact fun k => SMap.wf_set k
    | with_reducible exact fun k => SMap.wf_drop k
    | with_reducible exact fun k => SMap.wf_foldl k
    | with_reducible exact fun k => SMap.wf_foldl (SMap.wf_drop k)
    | with_reducible exact fun _ _ k => absurd k List.not_mem_nil
    | intro _
    | with_reducible exact wiFn_n _
    | with_reducible apply State.bump_keeps
    | with_reducible apply State.chnCmdWrite_keeps
    | with_reducible apply State.lpCmdWrite_keeps
    | with_reducible apply State.chanTripCmd_keeps
    | with_reducible apply State.putShadow_keeps
    | with_reducible apply State.putReg_keeps
    | with_reducible apply keeps_next
    | with_reducible apply keeps_foldl
    | with_reducible apply keeps_foldl1
    | with_reducible exact Or.inr (by assumption)
    | with_reducible exact Or.inl rfl
    | dsimp only
    | (simp only [keeps_mk_eq]; with_reducible apply keeps_mk)
    | with_reducible apply keeps_ite
    | with_reducible apply keeps_ite1
    | split)

theorem State.putBnk_keeps {W : List Part} {Q : Nat → Bool} {s0 : State} {s : State} {r : Req} {b : Nat} {off : Nat} {d : Word}
    (wiFn_n : ∀ n, Q (iFn n) = true) (wiShadow__pgChn_n_ : ∀ n, Q (iShadow (pgChn n)) = true) (wpgBnk__bankOf_n_ : ∀ n, Q (pgBnk (bankOf n)) = true) (wpgBnk_b : Q (pgBnk b) = true) (wpgBrg : Q pgBrg = true) (wpgChn_n : ∀ n, Q (pgChn n) = true) (wpgStp : Q pgStp = true) (wbanks : Part.banks ∈ W) (wchans : Part.chans ∈ W) (wports : Part.ports ∈ W) (wgrading : Part.grading ∈ W) (wbridge : Part.bridge ∈ W)
    (hK : Keeps W Q s0 s) : Keeps W Q s0 (State.putBnk s r b off d) := by
  unfold State.putBnk
  repeat' (first
    | with_reducible assumption
    | with_reducible exact id
    | with_reducible exact fun k => Mem.wf_writeBytes k
    | with_reducible exact fun k => Mem.wf_erase k
    | with_reducible exact fun k => SMap.wf_set k
    | with_reducible exact fun k => SMap.wf_drop k
    | with_reducible exact fun k => SMap.wf_foldl k
    | with_reducible exact fun k => SMap.wf_foldl (SMap.wf_drop k)
    | with_reducible exact fun _ _ k => absurd k List.not_mem_nil
    | intro _
    | with_reducible exact wiFn_n _
    | with_reducible exact wiShadow__pgChn_n_ _
    | with_reducible exact wpgBnk__bankOf_n_ _
    | with_reducible exact wpgChn_n _
    | with_reducible apply State.linkCtrl_keeps
    | with_reducible apply State.calCmd_keeps
    | with_reducible apply State.calShadow_keeps
    | with_reducible apply State.bnkChnCmd_keeps
    | with_reducible apply State.bankTripCmd_keeps
    | with_reducible apply State.putReg_keeps
    | with_reducible apply keeps_next
    | with_reducible apply keeps_foldl
    | with_reducible apply keeps_foldl1
    | with_reducible exact Or.inr (by assumption)
    | with_reducible exact Or.inl rfl
    | dsimp only
    | (simp only [keeps_mk_eq]; with_reducible apply keeps_mk)
    | with_reducible apply keeps_ite
    | with_reducible apply keeps_ite1
    | split)

theorem State.putStp_keeps {W : List Part} {Q : Nat → Bool} {s0 : State} {s : State} {off : Nat} {d : Word}
    (wiShadow_pgStp : Q (iShadow pgStp) = true) (wpgStp : Q pgStp = true) (wbus : Part.bus ∈ W)
    (hK : Keeps W Q s0 s) : Keeps W Q s0 (State.putStp s off d) := by
  unfold State.putStp
  repeat' (first
    | with_reducible assumption
    | with_reducible exact id
    | with_reducible exact fun k => Mem.wf_writeBytes k
    | with_reducible exact fun k => Mem.wf_erase k
    | with_reducible exact fun k => SMap.wf_set k
    | with_reducible exact fun k => SMap.wf_drop k
    | with_reducible exact fun k => SMap.wf_foldl k
    | with_reducible exact fun k => SMap.wf_foldl (SMap.wf_drop k)
    | with_reducible exact fun _ _ k => absurd k List.not_mem_nil
    | intro _
    | with_reducible apply State.gateCmd_keeps
    | with_reducible apply State.ldgCmdWrite_keeps
    | with_reducible apply State.putShadow_keeps
    | with_reducible apply State.putReg_keeps
    | with_reducible apply keeps_next
    | with_reducible apply keeps_foldl
    | with_reducible apply keeps_foldl1
    | with_reducible exact Or.inr (by assumption)
    | with_reducible exact Or.inl rfl
    | dsimp only
    | (simp only [keeps_mk_eq]; with_reducible apply keeps_mk)
    | with_reducible apply keeps_ite
    | with_reducible apply keeps_ite1
    | split)

theorem State.rlCfg_keeps {W : List Part} {Q : Nat → Bool} {s0 : State} {s : State} {r : Req} {d : Word}
    (wAll : ∀ n, Q n = true)
    (hK : Keeps W Q s0 s) : Keeps W Q s0 (State.rlCfg s r d) := by
  unfold State.rlCfg
  repeat' (first
    | with_reducible assumption
    | with_reducible exact id
    | with_reducible exact fun k => Mem.wf_writeBytes k
    | with_reducible exact fun k => Mem.wf_erase k
    | with_reducible exact fun k => SMap.wf_set k
    | with_reducible exact fun k => SMap.wf_drop k
    | with_reducible exact fun k => SMap.wf_foldl k
    | with_reducible exact fun k => SMap.wf_foldl (SMap.wf_drop k)
    | with_reducible exact fun _ _ k => absurd k List.not_mem_nil
    | intro _
    | with_reducible exact wAll _
    | with_reducible apply State.putReg_keeps
    | with_reducible apply State.wr_keeps
    | with_reducible apply keeps_next
    | with_reducible apply keeps_foldl
    | with_reducible apply keeps_foldl1
    | with_reducible exact Or.inr (by assumption)
    | with_reducible exact Or.inl rfl
    | dsimp only
    | (simp only [keeps_mk_eq]; with_reducible apply keeps_mk)
    | with_reducible apply keeps_ite
    | with_reducible apply keeps_ite1
    | split)

theorem State.putRest_keeps {W : List Part} {Q : Nat → Bool} {s0 : State} {s : State} {r : Req} {p : Nat} {off : Nat} {d : Word}
    (wAll : ∀ n, Q n = true) (wmem : Part.mem ∈ W) (wstore : Part.store ∈ W) (wsnaps : Part.snaps ∈ W) (wrecorder : Part.recorder ∈ W) (wtime : Part.time ∈ W) (wvcore : Part.vcore ∈ W) (wharts : Part.harts ∈ W) (wbanks : Part.banks ∈ W) (wchans : Part.chans ∈ W) (wbus : Part.bus ∈ W) (wports : Part.ports ∈ W) (wgrading : Part.grading ∈ W) (wlogs : Part.logs ∈ W) (wbridge : Part.bridge ∈ W) (wpair : Part.pair ∈ W) (whost : Part.host ∈ W) (wkeys : Part.keys ∈ W) (wpages : Part.pages ∈ W) (wboot : Part.boot ∈ W) (wqueues : Part.queues ∈ W) (wswitch : Part.switch ∈ W) (wcan : Part.can ∈ W) (wpower : Part.power ∈ W) (wfta : Part.fta ∈ W)
    (hK : Keeps W Q s0 s) : Keeps W Q s0 (State.putRest s r p off d) := by
  unfold State.putRest
  repeat' (first
    | with_reducible assumption
    | with_reducible exact id
    | with_reducible exact fun k => Mem.wf_writeBytes k
    | with_reducible exact fun k => Mem.wf_erase k
    | with_reducible exact fun k => SMap.wf_set k
    | with_reducible exact fun k => SMap.wf_drop k
    | with_reducible exact fun k => SMap.wf_foldl k
    | with_reducible exact fun k => SMap.wf_foldl (SMap.wf_drop k)
    | with_reducible exact fun _ _ k => absurd k List.not_mem_nil
    | intro _
    | with_reducible exact wAll _
    | with_reducible apply State.clkWrite_keeps
    | with_reducible apply State.rstCmd_keeps
    | with_reducible apply State.wdtExpiry_keeps
    | with_reducible apply State.freeNext_keeps
    | with_reducible apply State.putReg_keeps
    | with_reducible apply State.readWindow_keeps
    | with_reducible apply State.swCode_keeps
    | with_reducible apply State.rlCfg_keeps
    | with_reducible apply State.updCmd_keeps
    | with_reducible apply State.dbgWrite_keeps
    | with_reducible apply State.brgIssue_keeps
    | with_reducible apply State.eswWrite_keeps
    | with_reducible apply State.ptpWrite_keeps
    | with_reducible apply State.canWrite_keeps
    | with_reducible apply State.nwmWrite_keeps
    | with_reducible apply State.fioRegWrite_keeps
    | with_reducible apply State.ldcWrite_keeps
    | with_reducible apply State.logWrite_keeps
    | with_reducible apply State.grdCmdWrite_keeps
    | with_reducible apply State.pairCmd_keeps
    | with_reducible apply State.trpForce_keeps
    | with_reducible apply keeps_next
    | with_reducible apply keeps_foldl
    | with_reducible apply keeps_foldl1
    | with_reducible exact Or.inr (by assumption)
    | with_reducible exact Or.inl rfl
    | dsimp only
    | (simp only [keeps_mk_eq]; with_reducible apply keeps_mk)
    | with_reducible apply keeps_ite
    | with_reducible apply keeps_ite1
    | split)

theorem State.writeReg_keeps {W : List Part} {Q : Nat → Bool} {s0 : State} {s : State} {r : Req} {p : Nat} {off : Nat} {d : Word}
    (wAll : ∀ n, Q n = true) (wmem : Part.mem ∈ W) (wstore : Part.store ∈ W) (wsnaps : Part.snaps ∈ W) (wrecorder : Part.recorder ∈ W) (wtime : Part.time ∈ W) (wvcore : Part.vcore ∈ W) (wharts : Part.harts ∈ W) (wbanks : Part.banks ∈ W) (wchans : Part.chans ∈ W) (wbus : Part.bus ∈ W) (wports : Part.ports ∈ W) (wgrading : Part.grading ∈ W) (wlogs : Part.logs ∈ W) (wbridge : Part.bridge ∈ W) (wpair : Part.pair ∈ W) (whost : Part.host ∈ W) (wkeys : Part.keys ∈ W) (wroot : Part.root ∈ W) (wbattery : Part.battery ∈ W) (wpages : Part.pages ∈ W) (wboot : Part.boot ∈ W) (wqueues : Part.queues ∈ W) (wswitch : Part.switch ∈ W) (wcan : Part.can ∈ W) (wpower : Part.power ∈ W) (wfta : Part.fta ∈ W) (wfield : Part.field ∈ W)
    (hK : Keeps W Q s0 s) : Keeps W Q s0 (State.writeReg s r p off d) := by
  unfold State.writeReg
  repeat' (first
    | with_reducible assumption
    | with_reducible exact id
    | with_reducible exact fun k => Mem.wf_writeBytes k
    | with_reducible exact fun k => Mem.wf_erase k
    | with_reducible exact fun k => SMap.wf_set k
    | with_reducible exact fun k => SMap.wf_drop k
    | with_reducible exact fun k => SMap.wf_foldl k
    | with_reducible exact fun k => SMap.wf_foldl (SMap.wf_drop k)
    | with_reducible exact fun _ _ k => absurd k List.not_mem_nil
    | intro _
    | with_reducible exact wAll _
    | with_reducible apply State.putHeader_keeps
    | with_reducible apply State.putHalf_keeps
    | with_reducible apply State.putPwr_keeps
    | with_reducible apply State.putKeys_keeps
    | with_reducible apply State.putSec_keeps
    | with_reducible apply State.putMbx_keeps
    | with_reducible apply State.putFnc_keeps
    | with_reducible apply State.putQpm_keeps
    | with_reducible apply State.putStp_keeps
    | with_reducible apply State.putBnk_keeps
    | with_reducible apply State.putChn_keeps
    | with_reducible apply State.putRest_keeps
    | with_reducible apply keeps_next
    | with_reducible apply keeps_foldl
    | with_reducible apply keeps_foldl1
    | with_reducible exact Or.inr (by assumption)
    | with_reducible exact Or.inl rfl
    | dsimp only
    | (simp only [keeps_mk_eq]; with_reducible apply keeps_mk)
    | with_reducible apply keeps_ite
    | with_reducible apply keeps_ite1
    | split)

theorem State.writeAcc_keeps {W : List Part} {Q : Nat → Bool} {s0 : State} {s : State} {r : Req} {p : Nat} {off : Nat} {sz : Nat} {d : BitVec 64}
    (wAll : ∀ n, Q n = true) (wmem : Part.mem ∈ W) (wstore : Part.store ∈ W) (wsnaps : Part.snaps ∈ W) (wrecorder : Part.recorder ∈ W) (wtime : Part.time ∈ W) (wvcore : Part.vcore ∈ W) (wharts : Part.harts ∈ W) (wbanks : Part.banks ∈ W) (wchans : Part.chans ∈ W) (wbus : Part.bus ∈ W) (wports : Part.ports ∈ W) (wgrading : Part.grading ∈ W) (wlogs : Part.logs ∈ W) (wbridge : Part.bridge ∈ W) (wpair : Part.pair ∈ W) (whost : Part.host ∈ W) (wkeys : Part.keys ∈ W) (wroot : Part.root ∈ W) (wbattery : Part.battery ∈ W) (wpages : Part.pages ∈ W) (wboot : Part.boot ∈ W) (wqueues : Part.queues ∈ W) (wswitch : Part.switch ∈ W) (wcan : Part.can ∈ W) (wpower : Part.power ∈ W) (wfta : Part.fta ∈ W) (wfield : Part.field ∈ W)
    (hK : Keeps W Q s0 s) : Keeps W Q s0 (State.writeAcc s r p off sz d) := by
  unfold State.writeAcc
  repeat' (first
    | with_reducible assumption
    | with_reducible exact id
    | with_reducible exact fun k => Mem.wf_writeBytes k
    | with_reducible exact fun k => Mem.wf_erase k
    | with_reducible exact fun k => SMap.wf_set k
    | with_reducible exact fun k => SMap.wf_drop k
    | with_reducible exact fun k => SMap.wf_foldl k
    | with_reducible exact fun k => SMap.wf_foldl (SMap.wf_drop k)
    | with_reducible exact fun _ _ k => absurd k List.not_mem_nil
    | intro _
    | with_reducible exact wAll _
    | with_reducible apply State.regAccess_keeps
    | with_reducible apply State.writeReg_keeps
    | with_reducible apply keeps_next
    | with_reducible apply keeps_foldl
    | with_reducible apply keeps_foldl1
    | with_reducible exact Or.inr (by assumption)
    | with_reducible exact Or.inl rfl
    | dsimp only
    | (simp only [keeps_mk_eq]; with_reducible apply keeps_mk)
    | with_reducible apply keeps_ite
    | with_reducible apply keeps_ite1
    | split)

theorem execRegisterWrite_keeps {W : List Part} {Q : Nat → Bool} {s0 : State} {r : Req} {p : Fin 1024} {off : Fin 4096} {sz : Fin 4} {d : BitVec 64} {s : State}
    (wAll : ∀ n, Q n = true) (wmem : Part.mem ∈ W) (wstore : Part.store ∈ W) (wsnaps : Part.snaps ∈ W) (wrecorder : Part.recorder ∈ W) (wtime : Part.time ∈ W) (wvcore : Part.vcore ∈ W) (wharts : Part.harts ∈ W) (wbanks : Part.banks ∈ W) (wchans : Part.chans ∈ W) (wbus : Part.bus ∈ W) (wports : Part.ports ∈ W) (wgrading : Part.grading ∈ W) (wlogs : Part.logs ∈ W) (wbridge : Part.bridge ∈ W) (wpair : Part.pair ∈ W) (whost : Part.host ∈ W) (wkeys : Part.keys ∈ W) (wroot : Part.root ∈ W) (wbattery : Part.battery ∈ W) (wpages : Part.pages ∈ W) (wboot : Part.boot ∈ W) (wqueues : Part.queues ∈ W) (wswitch : Part.switch ∈ W) (wcan : Part.can ∈ W) (wpower : Part.power ∈ W) (wfta : Part.fta ∈ W) (wfield : Part.field ∈ W)
    (hK : Keeps W Q s0 s) : Res.Keeps W Q s0 (execRegisterWrite r p off sz d s) := by
  unfold execRegisterWrite
  repeat' (first
    | with_reducible assumption
    | with_reducible exact id
    | with_reducible exact fun k => Mem.wf_writeBytes k
    | with_reducible exact fun k => Mem.wf_erase k
    | with_reducible exact fun k => SMap.wf_set k
    | with_reducible exact fun k => SMap.wf_drop k
    | with_reducible exact fun k => SMap.wf_foldl k
    | with_reducible exact fun k => SMap.wf_foldl (SMap.wf_drop k)
    | with_reducible exact fun _ _ k => absurd k List.not_mem_nil
    | intro _
    | with_reducible exact wAll _
    | with_reducible apply State.writeAcc_keeps
    | with_reducible apply State.start_keeps
    | with_reducible apply keeps_next
    | with_reducible apply keeps_foldl
    | with_reducible apply keeps_foldl1
    | with_reducible exact Or.inr (by assumption)
    | with_reducible exact Or.inl rfl
    | dsimp only
    | (simp only [keeps_mk_eq]; with_reducible apply keeps_mk)
    | with_reducible apply keeps_ite
    | with_reducible apply keeps_ite1
    | split)

theorem State.stepPut_keeps {W : List Part} {Q : Nat → Bool} {s0 : State} {s : State} {r : Req} {a : Nat} {sz : Nat} {d : BitVec 64}
    (wiFn_n : ∀ n, Q (iFn n) = true) (wpgStp : Q pgStp = true) (wstore : Part.store ∈ W)
    (hK : Keeps W Q s0 s) : Keeps W Q s0 (State.stepPut s r a sz d) := by
  unfold State.stepPut
  repeat' (first
    | with_reducible assumption
    | with_reducible exact id
    | with_reducible exact fun k => Mem.wf_writeBytes k
    | with_reducible exact fun k => Mem.wf_erase k
    | with_reducible exact fun k => SMap.wf_set k
    | with_reducible exact fun k => SMap.wf_drop k
    | with_reducible exact fun k => SMap.wf_foldl k
    | with_reducible exact fun k => SMap.wf_foldl (SMap.wf_drop k)
    | with_reducible exact fun _ _ k => absurd k List.not_mem_nil
    | intro _
    | with_reducible exact wiFn_n _
    | with_reducible apply State.stepWrite_keeps
    | with_reducible apply keeps_next
    | with_reducible apply keeps_foldl
    | with_reducible apply keeps_foldl1
    | with_reducible exact Or.inr (by assumption)
    | with_reducible exact Or.inl rfl
    | dsimp only
    | (simp only [keeps_mk_eq]; with_reducible apply keeps_mk)
    | with_reducible apply keeps_ite
    | with_reducible apply keeps_ite1
    | split)

theorem execStepWordWrite_keeps {W : List Part} {Q : Nat → Bool} {s0 : State} {r : Req} {a : Fin 1572864} {sz : Fin 4} {d : BitVec 64} {s : State}
    (w50 : Q 50 = true) (wiCode_8 : Q (iCode 8) = true) (wiFn_n : ∀ n, Q (iFn n) = true) (wpgEvr : Q pgEvr = true) (wpgStp : Q pgStp = true) (wpgSys : Q pgSys = true) (wstore : Part.store ∈ W) (wrecorder : Part.recorder ∈ W) (wfield : Part.field ∈ W)
    (hK : Keeps W Q s0 s) : Res.Keeps W Q s0 (execStepWordWrite r a sz d s) := by
  unfold execStepWordWrite
  repeat' (first
    | with_reducible assumption
    | with_reducible exact id
    | with_reducible exact fun k => Mem.wf_writeBytes k
    | with_reducible exact fun k => Mem.wf_erase k
    | with_reducible exact fun k => SMap.wf_set k
    | with_reducible exact fun k => SMap.wf_drop k
    | with_reducible exact fun k => SMap.wf_foldl k
    | with_reducible exact fun k => SMap.wf_foldl (SMap.wf_drop k)
    | with_reducible exact fun _ _ k => absurd k List.not_mem_nil
    | intro _
    | with_reducible exact wiFn_n _
    | with_reducible apply State.start_keeps
    | with_reducible apply State.accErr_keeps
    | with_reducible apply State.stepPut_keeps
    | with_reducible apply keeps_next
    | with_reducible apply keeps_foldl
    | with_reducible apply keeps_foldl1
    | with_reducible exact Or.inr (by assumption)
    | with_reducible exact Or.inl rfl
    | dsimp only
    | (simp only [keeps_mk_eq]; with_reducible apply keeps_mk)
    | with_reducible apply keeps_ite
    | with_reducible apply keeps_ite1
    | split)

theorem execStepWordRead_keeps {W : List Part} {Q : Nat → Bool} {s0 : State} {r : Req} {a : Fin 1572864} {sz : Fin 4} {s : State}
    (w50 : Q 50 = true) (wiCode_8 : Q (iCode 8) = true) (wiFn_n : ∀ n, Q (iFn n) = true) (wpgEvr : Q pgEvr = true) (wpgSys : Q pgSys = true) (wrecorder : Part.recorder ∈ W) (wfield : Part.field ∈ W)
    (hK : Keeps W Q s0 s) : Res.Keeps W Q s0 (execStepWordRead r a sz s) := by
  unfold execStepWordRead
  repeat' (first
    | with_reducible assumption
    | with_reducible exact id
    | with_reducible exact fun k => Mem.wf_writeBytes k
    | with_reducible exact fun k => Mem.wf_erase k
    | with_reducible exact fun k => SMap.wf_set k
    | with_reducible exact fun k => SMap.wf_drop k
    | with_reducible exact fun k => SMap.wf_foldl k
    | with_reducible exact fun k => SMap.wf_foldl (SMap.wf_drop k)
    | with_reducible exact fun _ _ k => absurd k List.not_mem_nil
    | intro _
    | with_reducible exact wiFn_n _
    | with_reducible apply State.start_keeps
    | with_reducible apply State.accErr_keeps
    | with_reducible apply State.answer_keeps
    | with_reducible apply keeps_next
    | with_reducible apply keeps_foldl
    | with_reducible apply keeps_foldl1
    | with_reducible exact Or.inr (by assumption)
    | with_reducible exact Or.inl rfl
    | dsimp only
    | (simp only [keeps_mk_eq]; with_reducible apply keeps_mk)
    | with_reducible apply keeps_ite
    | with_reducible apply keeps_ite1
    | split)

theorem State.barAccess_keeps {W : List Part} {Q : Nat → Bool} {s0 : State} {s : State} {n : Fin 4} {f : Fin 512} {o : Nat} {write : Bool} {k : State → Nat → Nat → State}
    (w50 : Q 50 = true) (wiCode_8 : Q (iCode 8) = true) (wiFn_n : ∀ n, Q (iFn n) = true) (wpgEvr : Q pgEvr = true) (wpgSys : Q pgSys = true) (wrecorder : Part.recorder ∈ W) (wfield : Part.field ∈ W) (hk : ∀ (y0 : State) (y1 : Nat) (y2 : Nat), Keeps W Q s0 y0 → Keeps W Q s0 (k y0 y1 y2))
    (hK : Keeps W Q s0 s) : Keeps W Q s0 (State.barAccess s n f o write k) := by
  unfold State.barAccess
  repeat' (first
    | with_reducible assumption
    | with_reducible exact id
    | with_reducible exact fun k => Mem.wf_writeBytes k
    | with_reducible exact fun k => Mem.wf_erase k
    | with_reducible exact fun k => SMap.wf_set k
    | with_reducible exact fun k => SMap.wf_drop k
    | with_reducible exact fun k => SMap.wf_foldl k
    | with_reducible exact fun k => SMap.wf_foldl (SMap.wf_drop k)
    | with_reducible exact fun _ _ k => absurd k List.not_mem_nil
    | intro _
    | with_reducible exact wiFn_n _
    | exact hk _ _ _ (by assumption)
    | with_reducible apply hk
    | with_reducible apply State.accErr_keeps
    | with_reducible apply keeps_next
    | with_reducible apply keeps_foldl
    | with_reducible apply keeps_foldl1
    | with_reducible exact Or.inr (by assumption)
    | with_reducible exact Or.inl rfl
    | dsimp only
    | (simp only [keeps_mk_eq]; with_reducible apply keeps_mk)
    | with_reducible apply keeps_ite
    | with_reducible apply keeps_ite1
    | split)

theorem execSesRegRead_keeps {W : List Part} {Q : Nat → Bool} {s0 : State} {n : Fin 4} {f : Fin 512} {o : Word} {s : State}
    (wAll : ∀ n, Q n = true) (wsnaps : Part.snaps ∈ W) (wrecorder : Part.recorder ∈ W) (wbridge : Part.bridge ∈ W) (wswitch : Part.switch ∈ W) (wfield : Part.field ∈ W)
    (hK : Keeps W Q s0 s) : Res.Keeps W Q s0 (execSesRegRead n f o s) := by
  unfold execSesRegRead
  repeat' (first
    | with_reducible assumption
    | with_reducible exact id
    | with_reducible exact fun k => Mem.wf_writeBytes k
    | with_reducible exact fun k => Mem.wf_erase k
    | with_reducible exact fun k => SMap.wf_set k
    | with_reducible exact fun k => SMap.wf_drop k
    | with_reducible exact fun k => SMap.wf_foldl k
    | with_reducible exact fun k => SMap.wf_foldl (SMap.wf_drop k)
    | with_reducible exact fun _ _ k => absurd k List.not_mem_nil
    | intro _
    | with_reducible exact wAll _
    | with_reducible apply State.start_keeps
    | with_reducible apply State.barAccess_keeps
    | with_reducible apply State.readAcc_keeps
    | with_reducible apply State.emit_keeps
    | with_reducible apply State.freeNext_keeps
    | with_reducible apply keeps_next
    | with_reducible apply keeps_foldl
    | with_reducible apply keeps_foldl1
    | with_reducible exact Or.inr (by assumption)
    | with_reducible exact Or.inl rfl
    | dsimp only
    | (simp only [keeps_mk_eq]; with_reducible apply keeps_mk)
    | with_reducible apply keeps_ite
    | with_reducible apply keeps_ite1
    | split)

theorem execSesRegWrite_keeps {W : List Part} {Q : Nat → Bool} {s0 : State} {n : Fin 4} {f : Fin 512} {o : Word} {d : Word} {s : State}
    (wAll : ∀ n, Q n = true) (wmem : Part.mem ∈ W) (wstore : Part.store ∈ W) (wsnaps : Part.snaps ∈ W) (wrecorder : Part.recorder ∈ W) (wtime : Part.time ∈ W) (wvcore : Part.vcore ∈ W) (wharts : Part.harts ∈ W) (wbanks : Part.banks ∈ W) (wchans : Part.chans ∈ W) (wbus : Part.bus ∈ W) (wports : Part.ports ∈ W) (wgrading : Part.grading ∈ W) (wlogs : Part.logs ∈ W) (wbridge : Part.bridge ∈ W) (wpair : Part.pair ∈ W) (whost : Part.host ∈ W) (wkeys : Part.keys ∈ W) (wroot : Part.root ∈ W) (wbattery : Part.battery ∈ W) (wpages : Part.pages ∈ W) (wboot : Part.boot ∈ W) (wqueues : Part.queues ∈ W) (wswitch : Part.switch ∈ W) (wcan : Part.can ∈ W) (wpower : Part.power ∈ W) (wfta : Part.fta ∈ W) (wfield : Part.field ∈ W)
    (hK : Keeps W Q s0 s) : Res.Keeps W Q s0 (execSesRegWrite n f o d s) := by
  unfold execSesRegWrite
  repeat' (first
    | with_reducible assumption
    | with_reducible exact id
    | with_reducible exact fun k => Mem.wf_writeBytes k
    | with_reducible exact fun k => Mem.wf_erase k
    | with_reducible exact fun k => SMap.wf_set k
    | with_reducible exact fun k => SMap.wf_drop k
    | with_reducible exact fun k => SMap.wf_foldl k
    | with_reducible exact fun k => SMap.wf_foldl (SMap.wf_drop k)
    | with_reducible exact fun _ _ k => absurd k List.not_mem_nil
    | intro _
    | with_reducible exact wAll _
    | with_reducible apply State.start_keeps
    | with_reducible apply State.barAccess_keeps
    | with_reducible apply State.writeAcc_keeps
    | with_reducible apply keeps_next
    | with_reducible apply keeps_foldl
    | with_reducible apply keeps_foldl1
    | with_reducible exact Or.inr (by assumption)
    | with_reducible exact Or.inl rfl
    | dsimp only
    | (simp only [keeps_mk_eq]; with_reducible apply keeps_mk)
    | with_reducible apply keeps_ite
    | with_reducible apply keeps_ite1
    | split)

end Sys2Proof.Machine
end

