-- ==== Sys2Proof/Laws/State.lean ====
section
/-! SUPPORT. What each update of the state leaves of each field, and what a register reads after it. -/
namespace Sys2Proof.Machine

/-! ### Sparse maps -/

@[simp] theorem SMap.get_nil {α : Type} (d : α) (k : Nat) : SMap.get d [] k = d := rfl

/-- A key reads back as it was set; every other key reads as before. -/
@[simp] theorem SMap.get_set {α : Type} (d : α) (m : SMap α) (k : Nat) (v : α) (j : Nat) :
    (m.set k v).get d j = if k = j then v else m.get d j := by
  induction m with
  | nil => simp [SMap.set, SMap.get]
  | cons c m ih =>
    obtain ⟨a, w⟩ := c
    by_cases h : k = a
    · subst h
      by_cases g : k = j <;> simp [SMap.set, SMap.get, g]
    · by_cases l : k < a
      · simp [SMap.set, SMap.get, h, l]
      · by_cases g : a = j
        · subst g
          simp [SMap.set, SMap.get, h, l]
        · simp [SMap.set, SMap.get, h, l, g, ih]

/-- A key that is not dropped reads as before; a dropped one reads as the default. -/
@[simp] theorem SMap.get_drop {α : Type} (d : α) (p : Nat → Bool) (m : SMap α) (j : Nat) :
    (m.drop p).get d j = if p j then d else m.get d j := by
  induction m with
  | nil => simp [SMap.drop, SMap.get]
  | cons c m ih =>
    obtain ⟨a, w⟩ := c
    by_cases h : p a
    · by_cases g : a = j
      · subst g; simp [SMap.drop, h, ih]
      · simp [SMap.drop, SMap.get, h, ih, g]
    · by_cases g : a = j
      · subst g; simp [SMap.drop, SMap.get, h]
      · simp [SMap.drop, SMap.get, h, ih, g]

/-! ### Registers -/

/-- A field reads back as the low bits of what was written; every other field reads as before. -/
theorem State.rd_wr (s : State) (i : Nat) (f : Fld) (v j : Nat) (g : Fld) :
    (s.wr i f v).rd j g = if f.key i = g.key j then v % 2 ^ f.w else s.rd j g := by
  simp [State.rd, State.wr]

@[simp] theorem State.rd_wr_same (s : State) (i : Nat) (f : Fld) (v : Nat) : (s.wr i f v).rd i f = v % 2 ^ f.w := by
  simp [State.rd_wr]

theorem State.rd_wr_other (s : State) (i : Nat) (f : Fld) (v j : Nat) (g : Fld) (h : f.key i ≠ g.key j) :
    (s.wr i f v).rd j g = s.rd j g := by
  simp [State.rd_wr, h]

/-- What a register file shows depends on nothing but the fields. -/
theorem State.rd_congr {s t : State} (h : t.fields = s.fields) (i : Nat) (f : Fld) : t.rd i f = s.rd i f := by
  simp [State.rd, h]

/-! `State.wr` -/

@[simp] theorem State.wr_pending (s : State) (i : Nat) (f : Fld) (v : Nat) : (s.wr i f v).pending = s.pending := rfl
@[simp] theorem State.wr_mem (s : State) (i : Nat) (f : Fld) (v : Nat) : (s.wr i f v).mem = s.mem := rfl
@[simp] theorem State.wr_words (s : State) (i : Nat) (f : Fld) (v : Nat) : (s.wr i f v).words = s.words := rfl
@[simp] theorem State.wr_snap (s : State) (i : Nat) (f : Fld) (v : Nat) : (s.wr i f v).snap = s.snap := rfl
@[simp] theorem State.wr_half (s : State) (i : Nat) (f : Fld) (v : Nat) : (s.wr i f v).half = s.half := rfl
@[simp] theorem State.wr_rsp (s : State) (i : Nat) (f : Fld) (v : Nat) : (s.wr i f v).rsp = s.rsp := rfl
@[simp] theorem State.wr_out (s : State) (i : Nat) (f : Fld) (v : Nat) : (s.wr i f v).out = s.out := rfl
@[simp] theorem State.wr_free (s : State) (i : Nat) (f : Fld) (v : Nat) : (s.wr i f v).free = s.free := rfl
@[simp] theorem State.wr_stamps (s : State) (i : Nat) (f : Fld) (v : Nat) : (s.wr i f v).stamps = s.stamps := rfl
@[simp] theorem State.wr_evr (s : State) (i : Nat) (f : Fld) (v : Nat) : (s.wr i f v).evr = s.evr := rfl
@[simp] theorem State.wr_k (s : State) (i : Nat) (f : Fld) (v : Nat) : (s.wr i f v).k = s.k := rfl
@[simp] theorem State.wr_len (s : State) (i : Nat) (f : Fld) (v : Nat) : (s.wr i f v).len = s.len := rfl
@[simp] theorem State.wr_vcore (s : State) (i : Nat) (f : Fld) (v : Nat) : (s.wr i f v).vcore = s.vcore := rfl
@[simp] theorem State.wr_harts (s : State) (i : Nat) (f : Fld) (v : Nat) : (s.wr i f v).harts = s.harts := rfl
@[simp] theorem State.wr_saved (s : State) (i : Nat) (f : Fld) (v : Nat) : (s.wr i f v).saved = s.saved := rfl
@[simp] theorem State.wr_banks (s : State) (i : Nat) (f : Fld) (v : Nat) : (s.wr i f v).banks = s.banks := rfl
@[simp] theorem State.wr_chans (s : State) (i : Nat) (f : Fld) (v : Nat) : (s.wr i f v).chans = s.chans := rfl
@[simp] theorem State.wr_w (s : State) (i : Nat) (f : Fld) (v : Nat) : (s.wr i f v).w = s.w := rfl
@[simp] theorem State.wr_tally (s : State) (i : Nat) (f : Fld) (v : Nat) : (s.wr i f v).tally = s.tally := rfl
@[simp] theorem State.wr_led (s : State) (i : Nat) (f : Fld) (v : Nat) : (s.wr i f v).led = s.led := rfl
@[simp] theorem State.wr_missAt (s : State) (i : Nat) (f : Fld) (v : Nat) : (s.wr i f v).missAt = s.missAt := rfl
@[simp] theorem State.wr_ldgCmd (s : State) (i : Nat) (f : Fld) (v : Nat) : (s.wr i f v).ldgCmd = s.ldgCmd := rfl
@[simp] theorem State.wr_gateRel (s : State) (i : Nat) (f : Fld) (v : Nat) : (s.wr i f v).gateRel = s.gateRel := rfl
@[simp] theorem State.wr_ports (s : State) (i : Nat) (f : Fld) (v : Nat) : (s.wr i f v).ports = s.ports := rfl
@[simp] theorem State.wr_grdIn (s : State) (i : Nat) (f : Fld) (v : Nat) : (s.wr i f v).grdIn = s.grdIn := rfl
@[simp] theorem State.wr_logAcc (s : State) (i : Nat) (f : Fld) (v : Nat) : (s.wr i f v).logAcc = s.logAcc := rfl
@[simp] theorem State.wr_logSeq (s : State) (i : Nat) (f : Fld) (v : Nat) : (s.wr i f v).logSeq = s.logSeq := rfl
@[simp] theorem State.wr_logCfg (s : State) (i : Nat) (f : Fld) (v : Nat) : (s.wr i f v).logCfg = s.logCfg := rfl
@[simp] theorem State.wr_tags (s : State) (i : Nat) (f : Fld) (v : Nat) : (s.wr i f v).tags = s.tags := rfl
@[simp] theorem State.wr_roles (s : State) (i : Nat) (f : Fld) (v : Nat) : (s.wr i f v).roles = s.roles := rfl
@[simp] theorem State.wr_plk (s : State) (i : Nat) (f : Fld) (v : Nat) : (s.wr i f v).plk = s.plk := rfl
@[simp] theorem State.wr_mirror (s : State) (i : Nat) (f : Fld) (v : Nat) : (s.wr i f v).mirror = s.mirror := rfl
@[simp] theorem State.wr_chMap (s : State) (i : Nat) (f : Fld) (v : Nat) : (s.wr i f v).chMap = s.chMap := rfl
@[simp] theorem State.wr_grd (s : State) (i : Nat) (f : Fld) (v : Nat) : (s.wr i f v).grd = s.grd := rfl
@[simp] theorem State.wr_keys (s : State) (i : Nat) (f : Fld) (v : Nat) : (s.wr i f v).keys = s.keys := rfl
@[simp] theorem State.wr_job (s : State) (i : Nat) (f : Fld) (v : Nat) : (s.wr i f v).job = s.job := rfl
@[simp] theorem State.wr_bbRoot (s : State) (i : Nat) (f : Fld) (v : Nat) : (s.wr i f v).bbRoot = s.bbRoot := rfl
@[simp] theorem State.wr_bbMark (s : State) (i : Nat) (f : Fld) (v : Nat) : (s.wr i f v).bbMark = s.bbMark := rfl
@[simp] theorem State.wr_bbCheck (s : State) (i : Nat) (f : Fld) (v : Nat) : (s.wr i f v).bbCheck = s.bbCheck := rfl
@[simp] theorem State.wr_bb (s : State) (i : Nat) (f : Fld) (v : Nat) : (s.wr i f v).bb = s.bb := rfl
@[simp] theorem State.wr_lenNew (s : State) (i : Nat) (f : Fld) (v : Nat) : (s.wr i f v).lenNew = s.lenNew := rfl
@[simp] theorem State.wr_lenOld (s : State) (i : Nat) (f : Fld) (v : Nat) : (s.wr i f v).lenOld = s.lenOld := rfl
@[simp] theorem State.wr_offers (s : State) (i : Nat) (f : Fld) (v : Nat) : (s.wr i f v).offers = s.offers := rfl
@[simp] theorem State.wr_drain (s : State) (i : Nat) (f : Fld) (v : Nat) : (s.wr i f v).drain = s.drain := rfl
@[simp] theorem State.wr_moves (s : State) (i : Nat) (f : Fld) (v : Nat) : (s.wr i f v).moves = s.moves := rfl
@[simp] theorem State.wr_chr (s : State) (i : Nat) (f : Fld) (v : Nat) : (s.wr i f v).chr = s.chr := rfl
@[simp] theorem State.wr_chrPc (s : State) (i : Nat) (f : Fld) (v : Nat) : (s.wr i f v).chrPc = s.chrPc := rfl
@[simp] theorem State.wr_boot (s : State) (i : Nat) (f : Fld) (v : Nat) : (s.wr i f v).boot = s.boot := rfl
@[simp] theorem State.wr_svc (s : State) (i : Nat) (f : Fld) (v : Nat) : (s.wr i f v).svc = s.svc := rfl
@[simp] theorem State.wr_running (s : State) (i : Nat) (f : Fld) (v : Nat) : (s.wr i f v).running = s.running := rfl
@[simp] theorem State.wr_queues (s : State) (i : Nat) (f : Fld) (v : Nat) : (s.wr i f v).queues = s.queues := rfl
@[simp] theorem State.wr_pool (s : State) (i : Nat) (f : Fld) (v : Nat) : (s.wr i f v).pool = s.pool := rfl
@[simp] theorem State.wr_portQ (s : State) (i : Nat) (f : Fld) (v : Nat) : (s.wr i f v).portQ = s.portQ := rfl
@[simp] theorem State.wr_pairs (s : State) (i : Nat) (f : Fld) (v : Nat) : (s.wr i f v).pairs = s.pairs := rfl
@[simp] theorem State.wr_pcie (s : State) (i : Nat) (f : Fld) (v : Nat) : (s.wr i f v).pcie = s.pcie := rfl
@[simp] theorem State.wr_noDma (s : State) (i : Nat) (f : Fld) (v : Nat) : (s.wr i f v).noDma = s.noDma := rfl
@[simp] theorem State.wr_sesOpen (s : State) (i : Nat) (f : Fld) (v : Nat) : (s.wr i f v).sesOpen = s.sesOpen := rfl
@[simp] theorem State.wr_windows (s : State) (i : Nat) (f : Fld) (v : Nat) : (s.wr i f v).windows = s.windows := rfl
@[simp] theorem State.wr_esw (s : State) (i : Nat) (f : Fld) (v : Nat) : (s.wr i f v).esw = s.esw := rfl
@[simp] theorem State.wr_cans (s : State) (i : Nat) (f : Fld) (v : Nat) : (s.wr i f v).cans = s.cans := rfl
@[simp] theorem State.wr_sleep (s : State) (i : Nat) (f : Fld) (v : Nat) : (s.wr i f v).sleep = s.sleep := rfl
@[simp] theorem State.wr_up (s : State) (i : Nat) (f : Fld) (v : Nat) : (s.wr i f v).up = s.up := rfl
@[simp] theorem State.wr_warm (s : State) (i : Nat) (f : Fld) (v : Nat) : (s.wr i f v).warm = s.warm := rfl
@[simp] theorem State.wr_wdt (s : State) (i : Nat) (f : Fld) (v : Nat) : (s.wr i f v).wdt = s.wdt := rfl
@[simp] theorem State.wr_net (s : State) (i : Nat) (f : Fld) (v : Nat) : (s.wr i f v).net = s.net := rfl
@[simp] theorem State.wr_fta (s : State) (i : Nat) (f : Fld) (v : Nat) : (s.wr i f v).fta = s.fta := rfl
@[simp] theorem State.wr_ftaFails (s : State) (i : Nat) (f : Fld) (v : Nat) : (s.wr i f v).ftaFails = s.ftaFails := rfl
@[simp] theorem State.wr_cert (s : State) (i : Nat) (f : Fld) (v : Nat) : (s.wr i f v).cert = s.cert := rfl
@[simp] theorem State.wr_fld (s : State) (i : Nat) (f : Fld) (v : Nat) : (s.wr i f v).fld = s.fld := rfl

/-! `State.wrB` -/

@[simp] theorem State.wrB_pending (s : State) (i : Nat) (f : Fld) (v : Bool) : (s.wrB i f v).pending = s.pending := rfl
@[simp] theorem State.wrB_mem (s : State) (i : Nat) (f : Fld) (v : Bool) : (s.wrB i f v).mem = s.mem := rfl
@[simp] theorem State.wrB_words (s : State) (i : Nat) (f : Fld) (v : Bool) : (s.wrB i f v).words = s.words := rfl
@[simp] theorem State.wrB_snap (s : State) (i : Nat) (f : Fld) (v : Bool) : (s.wrB i f v).snap = s.snap := rfl
@[simp] theorem State.wrB_half (s : State) (i : Nat) (f : Fld) (v : Bool) : (s.wrB i f v).half = s.half := rfl
@[simp] theorem State.wrB_rsp (s : State) (i : Nat) (f : Fld) (v : Bool) : (s.wrB i f v).rsp = s.rsp := rfl
@[simp] theorem State.wrB_out (s : State) (i : Nat) (f : Fld) (v : Bool) : (s.wrB i f v).out = s.out := rfl
@[simp] theorem State.wrB_free (s : State) (i : Nat) (f : Fld) (v : Bool) : (s.wrB i f v).free = s.free := rfl
@[simp] theorem State.wrB_stamps (s : State) (i : Nat) (f : Fld) (v : Bool) : (s.wrB i f v).stamps = s.stamps := rfl
@[simp] theorem State.wrB_evr (s : State) (i : Nat) (f : Fld) (v : Bool) : (s.wrB i f v).evr = s.evr := rfl
@[simp] theorem State.wrB_k (s : State) (i : Nat) (f : Fld) (v : Bool) : (s.wrB i f v).k = s.k := rfl
@[simp] theorem State.wrB_len (s : State) (i : Nat) (f : Fld) (v : Bool) : (s.wrB i f v).len = s.len := rfl
@[simp] theorem State.wrB_vcore (s : State) (i : Nat) (f : Fld) (v : Bool) : (s.wrB i f v).vcore = s.vcore := rfl
@[simp] theorem State.wrB_harts (s : State) (i : Nat) (f : Fld) (v : Bool) : (s.wrB i f v).harts = s.harts := rfl
@[simp] theorem State.wrB_saved (s : State) (i : Nat) (f : Fld) (v : Bool) : (s.wrB i f v).saved = s.saved := rfl
@[simp] theorem State.wrB_banks (s : State) (i : Nat) (f : Fld) (v : Bool) : (s.wrB i f v).banks = s.banks := rfl
@[simp] theorem State.wrB_chans (s : State) (i : Nat) (f : Fld) (v : Bool) : (s.wrB i f v).chans = s.chans := rfl
@[simp] theorem State.wrB_w (s : State) (i : Nat) (f : Fld) (v : Bool) : (s.wrB i f v).w = s.w := rfl
@[simp] theorem State.wrB_tally (s : State) (i : Nat) (f : Fld) (v : Bool) : (s.wrB i f v).tally = s.tally := rfl
@[simp] theorem State.wrB_led (s : State) (i : Nat) (f : Fld) (v : Bool) : (s.wrB i f v).led = s.led := rfl
@[simp] theorem State.wrB_missAt (s : State) (i : Nat) (f : Fld) (v : Bool) : (s.wrB i f v).missAt = s.missAt := rfl
@[simp] theorem State.wrB_ldgCmd (s : State) (i : Nat) (f : Fld) (v : Bool) : (s.wrB i f v).ldgCmd = s.ldgCmd := rfl
@[simp] theorem State.wrB_gateRel (s : State) (i : Nat) (f : Fld) (v : Bool) : (s.wrB i f v).gateRel = s.gateRel := rfl
@[simp] theorem State.wrB_ports (s : State) (i : Nat) (f : Fld) (v : Bool) : (s.wrB i f v).ports = s.ports := rfl
@[simp] theorem State.wrB_grdIn (s : State) (i : Nat) (f : Fld) (v : Bool) : (s.wrB i f v).grdIn = s.grdIn := rfl
@[simp] theorem State.wrB_logAcc (s : State) (i : Nat) (f : Fld) (v : Bool) : (s.wrB i f v).logAcc = s.logAcc := rfl
@[simp] theorem State.wrB_logSeq (s : State) (i : Nat) (f : Fld) (v : Bool) : (s.wrB i f v).logSeq = s.logSeq := rfl
@[simp] theorem State.wrB_logCfg (s : State) (i : Nat) (f : Fld) (v : Bool) : (s.wrB i f v).logCfg = s.logCfg := rfl
@[simp] theorem State.wrB_tags (s : State) (i : Nat) (f : Fld) (v : Bool) : (s.wrB i f v).tags = s.tags := rfl
@[simp] theorem State.wrB_roles (s : State) (i : Nat) (f : Fld) (v : Bool) : (s.wrB i f v).roles = s.roles := rfl
@[simp] theorem State.wrB_plk (s : State) (i : Nat) (f : Fld) (v : Bool) : (s.wrB i f v).plk = s.plk := rfl
@[simp] theorem State.wrB_mirror (s : State) (i : Nat) (f : Fld) (v : Bool) : (s.wrB i f v).mirror = s.mirror := rfl
@[simp] theorem State.wrB_chMap (s : State) (i : Nat) (f : Fld) (v : Bool) : (s.wrB i f v).chMap = s.chMap := rfl
@[simp] theorem State.wrB_grd (s : State) (i : Nat) (f : Fld) (v : Bool) : (s.wrB i f v).grd = s.grd := rfl
@[simp] theorem State.wrB_keys (s : State) (i : Nat) (f : Fld) (v : Bool) : (s.wrB i f v).keys = s.keys := rfl
@[simp] theorem State.wrB_job (s : State) (i : Nat) (f : Fld) (v : Bool) : (s.wrB i f v).job = s.job := rfl
@[simp] theorem State.wrB_bbRoot (s : State) (i : Nat) (f : Fld) (v : Bool) : (s.wrB i f v).bbRoot = s.bbRoot := rfl
@[simp] theorem State.wrB_bbMark (s : State) (i : Nat) (f : Fld) (v : Bool) : (s.wrB i f v).bbMark = s.bbMark := rfl
@[simp] theorem State.wrB_bbCheck (s : State) (i : Nat) (f : Fld) (v : Bool) : (s.wrB i f v).bbCheck = s.bbCheck := rfl
@[simp] theorem State.wrB_bb (s : State) (i : Nat) (f : Fld) (v : Bool) : (s.wrB i f v).bb = s.bb := rfl
@[simp] theorem State.wrB_lenNew (s : State) (i : Nat) (f : Fld) (v : Bool) : (s.wrB i f v).lenNew = s.lenNew := rfl
@[simp] theorem State.wrB_lenOld (s : State) (i : Nat) (f : Fld) (v : Bool) : (s.wrB i f v).lenOld = s.lenOld := rfl
@[simp] theorem State.wrB_offers (s : State) (i : Nat) (f : Fld) (v : Bool) : (s.wrB i f v).offers = s.offers := rfl
@[simp] theorem State.wrB_drain (s : State) (i : Nat) (f : Fld) (v : Bool) : (s.wrB i f v).drain = s.drain := rfl
@[simp] theorem State.wrB_moves (s : State) (i : Nat) (f : Fld) (v : Bool) : (s.wrB i f v).moves = s.moves := rfl
@[simp] theorem State.wrB_chr (s : State) (i : Nat) (f : Fld) (v : Bool) : (s.wrB i f v).chr = s.chr := rfl
@[simp] theorem State.wrB_chrPc (s : State) (i : Nat) (f : Fld) (v : Bool) : (s.wrB i f v).chrPc = s.chrPc := rfl
@[simp] theorem State.wrB_boot (s : State) (i : Nat) (f : Fld) (v : Bool) : (s.wrB i f v).boot = s.boot := rfl
@[simp] theorem State.wrB_svc (s : State) (i : Nat) (f : Fld) (v : Bool) : (s.wrB i f v).svc = s.svc := rfl
@[simp] theorem State.wrB_running (s : State) (i : Nat) (f : Fld) (v : Bool) : (s.wrB i f v).running = s.running := rfl
@[simp] theorem State.wrB_queues (s : State) (i : Nat) (f : Fld) (v : Bool) : (s.wrB i f v).queues = s.queues := rfl
@[simp] theorem State.wrB_pool (s : State) (i : Nat) (f : Fld) (v : Bool) : (s.wrB i f v).pool = s.pool := rfl
@[simp] theorem State.wrB_portQ (s : State) (i : Nat) (f : Fld) (v : Bool) : (s.wrB i f v).portQ = s.portQ := rfl
@[simp] theorem State.wrB_pairs (s : State) (i : Nat) (f : Fld) (v : Bool) : (s.wrB i f v).pairs = s.pairs := rfl
@[simp] theorem State.wrB_pcie (s : State) (i : Nat) (f : Fld) (v : Bool) : (s.wrB i f v).pcie = s.pcie := rfl
@[simp] theorem State.wrB_noDma (s : State) (i : Nat) (f : Fld) (v : Bool) : (s.wrB i f v).noDma = s.noDma := rfl
@[simp] theorem State.wrB_sesOpen (s : State) (i : Nat) (f : Fld) (v : Bool) : (s.wrB i f v).sesOpen = s.sesOpen := rfl
@[simp] theorem State.wrB_windows (s : State) (i : Nat) (f : Fld) (v : Bool) : (s.wrB i f v).windows = s.windows := rfl
@[simp] theorem State.wrB_esw (s : State) (i : Nat) (f : Fld) (v : Bool) : (s.wrB i f v).esw = s.esw := rfl
@[simp] theorem State.wrB_cans (s : State) (i : Nat) (f : Fld) (v : Bool) : (s.wrB i f v).cans = s.cans := rfl
@[simp] theorem State.wrB_sleep (s : State) (i : Nat) (f : Fld) (v : Bool) : (s.wrB i f v).sleep = s.sleep := rfl
@[simp] theorem State.wrB_up (s : State) (i : Nat) (f : Fld) (v : Bool) : (s.wrB i f v).up = s.up := rfl
@[simp] theorem State.wrB_warm (s : State) (i : Nat) (f : Fld) (v : Bool) : (s.wrB i f v).warm = s.warm := rfl
@[simp] theorem State.wrB_wdt (s : State) (i : Nat) (f : Fld) (v : Bool) : (s.wrB i f v).wdt = s.wdt := rfl
@[simp] theorem State.wrB_net (s : State) (i : Nat) (f : Fld) (v : Bool) : (s.wrB i f v).net = s.net := rfl
@[simp] theorem State.wrB_fta (s : State) (i : Nat) (f : Fld) (v : Bool) : (s.wrB i f v).fta = s.fta := rfl
@[simp] theorem State.wrB_ftaFails (s : State) (i : Nat) (f : Fld) (v : Bool) : (s.wrB i f v).ftaFails = s.ftaFails := rfl
@[simp] theorem State.wrB_cert (s : State) (i : Nat) (f : Fld) (v : Bool) : (s.wrB i f v).cert = s.cert := rfl
@[simp] theorem State.wrB_fld (s : State) (i : Nat) (f : Fld) (v : Bool) : (s.wrB i f v).fld = s.fld := rfl

/-! `State.bump` -/

@[simp] theorem State.bump_pending (s : State) (i : Nat) (f : Fld) (v : Nat) : (s.bump i f v).pending = s.pending := rfl
@[simp] theorem State.bump_mem (s : State) (i : Nat) (f : Fld) (v : Nat) : (s.bump i f v).mem = s.mem := rfl
@[simp] theorem State.bump_words (s : State) (i : Nat) (f : Fld) (v : Nat) : (s.bump i f v).words = s.words := rfl
@[simp] theorem State.bump_snap (s : State) (i : Nat) (f : Fld) (v : Nat) : (s.bump i f v).snap = s.snap := rfl
@[simp] theorem State.bump_half (s : State) (i : Nat) (f : Fld) (v : Nat) : (s.bump i f v).half = s.half := rfl
@[simp] theorem State.bump_rsp (s : State) (i : Nat) (f : Fld) (v : Nat) : (s.bump i f v).rsp = s.rsp := rfl
@[simp] theorem State.bump_out (s : State) (i : Nat) (f : Fld) (v : Nat) : (s.bump i f v).out = s.out := rfl
@[simp] theorem State.bump_free (s : State) (i : Nat) (f : Fld) (v : Nat) : (s.bump i f v).free = s.free := rfl
@[simp] theorem State.bump_stamps (s : State) (i : Nat) (f : Fld) (v : Nat) : (s.bump i f v).stamps = s.stamps := rfl
@[simp] theorem State.bump_evr (s : State) (i : Nat) (f : Fld) (v : Nat) : (s.bump i f v).evr = s.evr := rfl
@[simp] theorem State.bump_k (s : State) (i : Nat) (f : Fld) (v : Nat) : (s.bump i f v).k = s.k := rfl
@[simp] theorem State.bump_len (s : State) (i : Nat) (f : Fld) (v : Nat) : (s.bump i f v).len = s.len := rfl
@[simp] theorem State.bump_vcore (s : State) (i : Nat) (f : Fld) (v : Nat) : (s.bump i f v).vcore = s.vcore := rfl
@[simp] theorem State.bump_harts (s : State) (i : Nat) (f : Fld) (v : Nat) : (s.bump i f v).harts = s.harts := rfl
@[simp] theorem State.bump_saved (s : State) (i : Nat) (f : Fld) (v : Nat) : (s.bump i f v).saved = s.saved := rfl
@[simp] theorem State.bump_banks (s : State) (i : Nat) (f : Fld) (v : Nat) : (s.bump i f v).banks = s.banks := rfl
@[simp] theorem State.bump_chans (s : State) (i : Nat) (f : Fld) (v : Nat) : (s.bump i f v).chans = s.chans := rfl
@[simp] theorem State.bump_w (s : State) (i : Nat) (f : Fld) (v : Nat) : (s.bump i f v).w = s.w := rfl
@[simp] theorem State.bump_tally (s : State) (i : Nat) (f : Fld) (v : Nat) : (s.bump i f v).tally = s.tally := rfl
@[simp] theorem State.bump_led (s : State) (i : Nat) (f : Fld) (v : Nat) : (s.bump i f v).led = s.led := rfl
@[simp] theorem State.bump_missAt (s : State) (i : Nat) (f : Fld) (v : Nat) : (s.bump i f v).missAt = s.missAt := rfl
@[simp] theorem State.bump_ldgCmd (s : State) (i : Nat) (f : Fld) (v : Nat) : (s.bump i f v).ldgCmd = s.ldgCmd := rfl
@[simp] theorem State.bump_gateRel (s : State) (i : Nat) (f : Fld) (v : Nat) : (s.bump i f v).gateRel = s.gateRel := rfl
@[simp] theorem State.bump_ports (s : State) (i : Nat) (f : Fld) (v : Nat) : (s.bump i f v).ports = s.ports := rfl
@[simp] theorem State.bump_grdIn (s : State) (i : Nat) (f : Fld) (v : Nat) : (s.bump i f v).grdIn = s.grdIn := rfl
@[simp] theorem State.bump_logAcc (s : State) (i : Nat) (f : Fld) (v : Nat) : (s.bump i f v).logAcc = s.logAcc := rfl
@[simp] theorem State.bump_logSeq (s : State) (i : Nat) (f : Fld) (v : Nat) : (s.bump i f v).logSeq = s.logSeq := rfl
@[simp] theorem State.bump_logCfg (s : State) (i : Nat) (f : Fld) (v : Nat) : (s.bump i f v).logCfg = s.logCfg := rfl
@[simp] theorem State.bump_tags (s : State) (i : Nat) (f : Fld) (v : Nat) : (s.bump i f v).tags = s.tags := rfl
@[simp] theorem State.bump_roles (s : State) (i : Nat) (f : Fld) (v : Nat) : (s.bump i f v).roles = s.roles := rfl
@[simp] theorem State.bump_plk (s : State) (i : Nat) (f : Fld) (v : Nat) : (s.bump i f v).plk = s.plk := rfl
@[simp] theorem State.bump_mirror (s : State) (i : Nat) (f : Fld) (v : Nat) : (s.bump i f v).mirror = s.mirror := rfl
@[simp] theorem State.bump_chMap (s : State) (i : Nat) (f : Fld) (v : Nat) : (s.bump i f v).chMap = s.chMap := rfl
@[simp] theorem State.bump_grd (s : State) (i : Nat) (f : Fld) (v : Nat) : (s.bump i f v).grd = s.grd := rfl
@[simp] theorem State.bump_keys (s : State) (i : Nat) (f : Fld) (v : Nat) : (s.bump i f v).keys = s.keys := rfl
@[simp] theorem State.bump_job (s : State) (i : Nat) (f : Fld) (v : Nat) : (s.bump i f v).job = s.job := rfl
@[simp] theorem State.bump_bbRoot (s : State) (i : Nat) (f : Fld) (v : Nat) : (s.bump i f v).bbRoot = s.bbRoot := rfl
@[simp] theorem State.bump_bbMark (s : State) (i : Nat) (f : Fld) (v : Nat) : (s.bump i f v).bbMark = s.bbMark := rfl
@[simp] theorem State.bump_bbCheck (s : State) (i : Nat) (f : Fld) (v : Nat) : (s.bump i f v).bbCheck = s.bbCheck := rfl
@[simp] theorem State.bump_bb (s : State) (i : Nat) (f : Fld) (v : Nat) : (s.bump i f v).bb = s.bb := rfl
@[simp] theorem State.bump_lenNew (s : State) (i : Nat) (f : Fld) (v : Nat) : (s.bump i f v).lenNew = s.lenNew := rfl
@[simp] theorem State.bump_lenOld (s : State) (i : Nat) (f : Fld) (v : Nat) : (s.bump i f v).lenOld = s.lenOld := rfl
@[simp] theorem State.bump_offers (s : State) (i : Nat) (f : Fld) (v : Nat) : (s.bump i f v).offers = s.offers := rfl
@[simp] theorem State.bump_drain (s : State) (i : Nat) (f : Fld) (v : Nat) : (s.bump i f v).drain = s.drain := rfl
@[simp] theorem State.bump_moves (s : State) (i : Nat) (f : Fld) (v : Nat) : (s.bump i f v).moves = s.moves := rfl
@[simp] theorem State.bump_chr (s : State) (i : Nat) (f : Fld) (v : Nat) : (s.bump i f v).chr = s.chr := rfl
@[simp] theorem State.bump_chrPc (s : State) (i : Nat) (f : Fld) (v : Nat) : (s.bump i f v).chrPc = s.chrPc := rfl
@[simp] theorem State.bump_boot (s : State) (i : Nat) (f : Fld) (v : Nat) : (s.bump i f v).boot = s.boot := rfl
@[simp] theorem State.bump_svc (s : State) (i : Nat) (f : Fld) (v : Nat) : (s.bump i f v).svc = s.svc := rfl
@[simp] theorem State.bump_running (s : State) (i : Nat) (f : Fld) (v : Nat) : (s.bump i f v).running = s.running := rfl
@[simp] theorem State.bump_queues (s : State) (i : Nat) (f : Fld) (v : Nat) : (s.bump i f v).queues = s.queues := rfl
@[simp] theorem State.bump_pool (s : State) (i : Nat) (f : Fld) (v : Nat) : (s.bump i f v).pool = s.pool := rfl
@[simp] theorem State.bump_portQ (s : State) (i : Nat) (f : Fld) (v : Nat) : (s.bump i f v).portQ = s.portQ := rfl
@[simp] theorem State.bump_pairs (s : State) (i : Nat) (f : Fld) (v : Nat) : (s.bump i f v).pairs = s.pairs := rfl
@[simp] theorem State.bump_pcie (s : State) (i : Nat) (f : Fld) (v : Nat) : (s.bump i f v).pcie = s.pcie := rfl
@[simp] theorem State.bump_noDma (s : State) (i : Nat) (f : Fld) (v : Nat) : (s.bump i f v).noDma = s.noDma := rfl
@[simp] theorem State.bump_sesOpen (s : State) (i : Nat) (f : Fld) (v : Nat) : (s.bump i f v).sesOpen = s.sesOpen := rfl
@[simp] theorem State.bump_windows (s : State) (i : Nat) (f : Fld) (v : Nat) : (s.bump i f v).windows = s.windows := rfl
@[simp] theorem State.bump_esw (s : State) (i : Nat) (f : Fld) (v : Nat) : (s.bump i f v).esw = s.esw := rfl
@[simp] theorem State.bump_cans (s : State) (i : Nat) (f : Fld) (v : Nat) : (s.bump i f v).cans = s.cans := rfl
@[simp] theorem State.bump_sleep (s : State) (i : Nat) (f : Fld) (v : Nat) : (s.bump i f v).sleep = s.sleep := rfl
@[simp] theorem State.bump_up (s : State) (i : Nat) (f : Fld) (v : Nat) : (s.bump i f v).up = s.up := rfl
@[simp] theorem State.bump_warm (s : State) (i : Nat) (f : Fld) (v : Nat) : (s.bump i f v).warm = s.warm := rfl
@[simp] theorem State.bump_wdt (s : State) (i : Nat) (f : Fld) (v : Nat) : (s.bump i f v).wdt = s.wdt := rfl
@[simp] theorem State.bump_net (s : State) (i : Nat) (f : Fld) (v : Nat) : (s.bump i f v).net = s.net := rfl
@[simp] theorem State.bump_fta (s : State) (i : Nat) (f : Fld) (v : Nat) : (s.bump i f v).fta = s.fta := rfl
@[simp] theorem State.bump_ftaFails (s : State) (i : Nat) (f : Fld) (v : Nat) : (s.bump i f v).ftaFails = s.ftaFails := rfl
@[simp] theorem State.bump_cert (s : State) (i : Nat) (f : Fld) (v : Nat) : (s.bump i f v).cert = s.cert := rfl
@[simp] theorem State.bump_fld (s : State) (i : Nat) (f : Fld) (v : Nat) : (s.bump i f v).fld = s.fld := rfl

/-! `State.setBits` -/

@[simp] theorem State.setBits_pending (s : State) (i : Nat) (f : Fld) (v : Nat) : (s.setBits i f v).pending = s.pending := rfl
@[simp] theorem State.setBits_mem (s : State) (i : Nat) (f : Fld) (v : Nat) : (s.setBits i f v).mem = s.mem := rfl
@[simp] theorem State.setBits_words (s : State) (i : Nat) (f : Fld) (v : Nat) : (s.setBits i f v).words = s.words := rfl
@[simp] theorem State.setBits_snap (s : State) (i : Nat) (f : Fld) (v : Nat) : (s.setBits i f v).snap = s.snap := rfl
@[simp] theorem State.setBits_half (s : State) (i : Nat) (f : Fld) (v : Nat) : (s.setBits i f v).half = s.half := rfl
@[simp] theorem State.setBits_rsp (s : State) (i : Nat) (f : Fld) (v : Nat) : (s.setBits i f v).rsp = s.rsp := rfl
@[simp] theorem State.setBits_out (s : State) (i : Nat) (f : Fld) (v : Nat) : (s.setBits i f v).out = s.out := rfl
@[simp] theorem State.setBits_free (s : State) (i : Nat) (f : Fld) (v : Nat) : (s.setBits i f v).free = s.free := rfl
@[simp] theorem State.setBits_stamps (s : State) (i : Nat) (f : Fld) (v : Nat) : (s.setBits i f v).stamps = s.stamps := rfl
@[simp] theorem State.setBits_evr (s : State) (i : Nat) (f : Fld) (v : Nat) : (s.setBits i f v).evr = s.evr := rfl
@[simp] theorem State.setBits_k (s : State) (i : Nat) (f : Fld) (v : Nat) : (s.setBits i f v).k = s.k := rfl
@[simp] theorem State.setBits_len (s : State) (i : Nat) (f : Fld) (v : Nat) : (s.setBits i f v).len = s.len := rfl
@[simp] theorem State.setBits_vcore (s : State) (i : Nat) (f : Fld) (v : Nat) : (s.setBits i f v).vcore = s.vcore := rfl
@[simp] theorem State.setBits_harts (s : State) (i : Nat) (f : Fld) (v : Nat) : (s.setBits i f v).harts = s.harts := rfl
@[simp] theorem State.setBits_saved (s : State) (i : Nat) (f : Fld) (v : Nat) : (s.setBits i f v).saved = s.saved := rfl
@[simp] theorem State.setBits_banks (s : State) (i : Nat) (f : Fld) (v : Nat) : (s.setBits i f v).banks = s.banks := rfl
@[simp] theorem State.setBits_chans (s : State) (i : Nat) (f : Fld) (v : Nat) : (s.setBits i f v).chans = s.chans := rfl
@[simp] theorem State.setBits_w (s : State) (i : Nat) (f : Fld) (v : Nat) : (s.setBits i f v).w = s.w := rfl
@[simp] theorem State.setBits_tally (s : State) (i : Nat) (f : Fld) (v : Nat) : (s.setBits i f v).tally = s.tally := rfl
@[simp] theorem State.setBits_led (s : State) (i : Nat) (f : Fld) (v : Nat) : (s.setBits i f v).led = s.led := rfl
@[simp] theorem State.setBits_missAt (s : State) (i : Nat) (f : Fld) (v : Nat) : (s.setBits i f v).missAt = s.missAt := rfl
@[simp] theorem State.setBits_ldgCmd (s : State) (i : Nat) (f : Fld) (v : Nat) : (s.setBits i f v).ldgCmd = s.ldgCmd := rfl
@[simp] theorem State.setBits_gateRel (s : State) (i : Nat) (f : Fld) (v : Nat) : (s.setBits i f v).gateRel = s.gateRel := rfl
@[simp] theorem State.setBits_ports (s : State) (i : Nat) (f : Fld) (v : Nat) : (s.setBits i f v).ports = s.ports := rfl
@[simp] theorem State.setBits_grdIn (s : State) (i : Nat) (f : Fld) (v : Nat) : (s.setBits i f v).grdIn = s.grdIn := rfl
@[simp] theorem State.setBits_logAcc (s : State) (i : Nat) (f : Fld) (v : Nat) : (s.setBits i f v).logAcc = s.logAcc := rfl
@[simp] theorem State.setBits_logSeq (s : State) (i : Nat) (f : Fld) (v : Nat) : (s.setBits i f v).logSeq = s.logSeq := rfl
@[simp] theorem State.setBits_logCfg (s : State) (i : Nat) (f : Fld) (v : Nat) : (s.setBits i f v).logCfg = s.logCfg := rfl
@[simp] theorem State.setBits_tags (s : State) (i : Nat) (f : Fld) (v : Nat) : (s.setBits i f v).tags = s.tags := rfl
@[simp] theorem State.setBits_roles (s : State) (i : Nat) (f : Fld) (v : Nat) : (s.setBits i f v).roles = s.roles := rfl
@[simp] theorem State.setBits_plk (s : State) (i : Nat) (f : Fld) (v : Nat) : (s.setBits i f v).plk = s.plk := rfl
@[simp] theorem State.setBits_mirror (s : State) (i : Nat) (f : Fld) (v : Nat) : (s.setBits i f v).mirror = s.mirror := rfl
@[simp] theorem State.setBits_chMap (s : State) (i : Nat) (f : Fld) (v : Nat) : (s.setBits i f v).chMap = s.chMap := rfl
@[simp] theorem State.setBits_grd (s : State) (i : Nat) (f : Fld) (v : Nat) : (s.setBits i f v).grd = s.grd := rfl
@[simp] theorem State.setBits_keys (s : State) (i : Nat) (f : Fld) (v : Nat) : (s.setBits i f v).keys = s.keys := rfl
@[simp] theorem State.setBits_job (s : State) (i : Nat) (f : Fld) (v : Nat) : (s.setBits i f v).job = s.job := rfl
@[simp] theorem State.setBits_bbRoot (s : State) (i : Nat) (f : Fld) (v : Nat) : (s.setBits i f v).bbRoot = s.bbRoot := rfl
@[simp] theorem State.setBits_bbMark (s : State) (i : Nat) (f : Fld) (v : Nat) : (s.setBits i f v).bbMark = s.bbMark := rfl
@[simp] theorem State.setBits_bbCheck (s : State) (i : Nat) (f : Fld) (v : Nat) : (s.setBits i f v).bbCheck = s.bbCheck := rfl
@[simp] theorem State.setBits_bb (s : State) (i : Nat) (f : Fld) (v : Nat) : (s.setBits i f v).bb = s.bb := rfl
@[simp] theorem State.setBits_lenNew (s : State) (i : Nat) (f : Fld) (v : Nat) : (s.setBits i f v).lenNew = s.lenNew := rfl
@[simp] theorem State.setBits_lenOld (s : State) (i : Nat) (f : Fld) (v : Nat) : (s.setBits i f v).lenOld = s.lenOld := rfl
@[simp] theorem State.setBits_offers (s : State) (i : Nat) (f : Fld) (v : Nat) : (s.setBits i f v).offers = s.offers := rfl
@[simp] theorem State.setBits_drain (s : State) (i : Nat) (f : Fld) (v : Nat) : (s.setBits i f v).drain = s.drain := rfl
@[simp] theorem State.setBits_moves (s : State) (i : Nat) (f : Fld) (v : Nat) : (s.setBits i f v).moves = s.moves := rfl
@[simp] theorem State.setBits_chr (s : State) (i : Nat) (f : Fld) (v : Nat) : (s.setBits i f v).chr = s.chr := rfl
@[simp] theorem State.setBits_chrPc (s : State) (i : Nat) (f : Fld) (v : Nat) : (s.setBits i f v).chrPc = s.chrPc := rfl
@[simp] theorem State.setBits_boot (s : State) (i : Nat) (f : Fld) (v : Nat) : (s.setBits i f v).boot = s.boot := rfl
@[simp] theorem State.setBits_svc (s : State) (i : Nat) (f : Fld) (v : Nat) : (s.setBits i f v).svc = s.svc := rfl
@[simp] theorem State.setBits_running (s : State) (i : Nat) (f : Fld) (v : Nat) : (s.setBits i f v).running = s.running := rfl
@[simp] theorem State.setBits_queues (s : State) (i : Nat) (f : Fld) (v : Nat) : (s.setBits i f v).queues = s.queues := rfl
@[simp] theorem State.setBits_pool (s : State) (i : Nat) (f : Fld) (v : Nat) : (s.setBits i f v).pool = s.pool := rfl
@[simp] theorem State.setBits_portQ (s : State) (i : Nat) (f : Fld) (v : Nat) : (s.setBits i f v).portQ = s.portQ := rfl
@[simp] theorem State.setBits_pairs (s : State) (i : Nat) (f : Fld) (v : Nat) : (s.setBits i f v).pairs = s.pairs := rfl
@[simp] theorem State.setBits_pcie (s : State) (i : Nat) (f : Fld) (v : Nat) : (s.setBits i f v).pcie = s.pcie := rfl
@[simp] theorem State.setBits_noDma (s : State) (i : Nat) (f : Fld) (v : Nat) : (s.setBits i f v).noDma = s.noDma := rfl
@[simp] theorem State.setBits_sesOpen (s : State) (i : Nat) (f : Fld) (v : Nat) : (s.setBits i f v).sesOpen = s.sesOpen := rfl
@[simp] theorem State.setBits_windows (s : State) (i : Nat) (f : Fld) (v : Nat) : (s.setBits i f v).windows = s.windows := rfl
@[simp] theorem State.setBits_esw (s : State) (i : Nat) (f : Fld) (v : Nat) : (s.setBits i f v).esw = s.esw := rfl
@[simp] theorem State.setBits_cans (s : State) (i : Nat) (f : Fld) (v : Nat) : (s.setBits i f v).cans = s.cans := rfl
@[simp] theorem State.setBits_sleep (s : State) (i : Nat) (f : Fld) (v : Nat) : (s.setBits i f v).sleep = s.sleep := rfl
@[simp] theorem State.setBits_up (s : State) (i : Nat) (f : Fld) (v : Nat) : (s.setBits i f v).up = s.up := rfl
@[simp] theorem State.setBits_warm (s : State) (i : Nat) (f : Fld) (v : Nat) : (s.setBits i f v).warm = s.warm := rfl
@[simp] theorem State.setBits_wdt (s : State) (i : Nat) (f : Fld) (v : Nat) : (s.setBits i f v).wdt = s.wdt := rfl
@[simp] theorem State.setBits_net (s : State) (i : Nat) (f : Fld) (v : Nat) : (s.setBits i f v).net = s.net := rfl
@[simp] theorem State.setBits_fta (s : State) (i : Nat) (f : Fld) (v : Nat) : (s.setBits i f v).fta = s.fta := rfl
@[simp] theorem State.setBits_ftaFails (s : State) (i : Nat) (f : Fld) (v : Nat) : (s.setBits i f v).ftaFails = s.ftaFails := rfl
@[simp] theorem State.setBits_cert (s : State) (i : Nat) (f : Fld) (v : Nat) : (s.setBits i f v).cert = s.cert := rfl
@[simp] theorem State.setBits_fld (s : State) (i : Nat) (f : Fld) (v : Nat) : (s.setBits i f v).fld = s.fld := rfl

/-! `State.clrBits` -/

@[simp] theorem State.clrBits_pending (s : State) (i : Nat) (f : Fld) (v : Nat) : (s.clrBits i f v).pending = s.pending := rfl
@[simp] theorem State.clrBits_mem (s : State) (i : Nat) (f : Fld) (v : Nat) : (s.clrBits i f v).mem = s.mem := rfl
@[simp] theorem State.clrBits_words (s : State) (i : Nat) (f : Fld) (v : Nat) : (s.clrBits i f v).words = s.words := rfl
@[simp] theorem State.clrBits_snap (s : State) (i : Nat) (f : Fld) (v : Nat) : (s.clrBits i f v).snap = s.snap := rfl
@[simp] theorem State.clrBits_half (s : State) (i : Nat) (f : Fld) (v : Nat) : (s.clrBits i f v).half = s.half := rfl
@[simp] theorem State.clrBits_rsp (s : State) (i : Nat) (f : Fld) (v : Nat) : (s.clrBits i f v).rsp = s.rsp := rfl
@[simp] theorem State.clrBits_out (s : State) (i : Nat) (f : Fld) (v : Nat) : (s.clrBits i f v).out = s.out := rfl
@[simp] theorem State.clrBits_free (s : State) (i : Nat) (f : Fld) (v : Nat) : (s.clrBits i f v).free = s.free := rfl
@[simp] theorem State.clrBits_stamps (s : State) (i : Nat) (f : Fld) (v : Nat) : (s.clrBits i f v).stamps = s.stamps := rfl
@[simp] theorem State.clrBits_evr (s : State) (i : Nat) (f : Fld) (v : Nat) : (s.clrBits i f v).evr = s.evr := rfl
@[simp] theorem State.clrBits_k (s : State) (i : Nat) (f : Fld) (v : Nat) : (s.clrBits i f v).k = s.k := rfl
@[simp] theorem State.clrBits_len (s : State) (i : Nat) (f : Fld) (v : Nat) : (s.clrBits i f v).len = s.len := rfl
@[simp] theorem State.clrBits_vcore (s : State) (i : Nat) (f : Fld) (v : Nat) : (s.clrBits i f v).vcore = s.vcore := rfl
@[simp] theorem State.clrBits_harts (s : State) (i : Nat) (f : Fld) (v : Nat) : (s.clrBits i f v).harts = s.harts := rfl
@[simp] theorem State.clrBits_saved (s : State) (i : Nat) (f : Fld) (v : Nat) : (s.clrBits i f v).saved = s.saved := rfl
@[simp] theorem State.clrBits_banks (s : State) (i : Nat) (f : Fld) (v : Nat) : (s.clrBits i f v).banks = s.banks := rfl
@[simp] theorem State.clrBits_chans (s : State) (i : Nat) (f : Fld) (v : Nat) : (s.clrBits i f v).chans = s.chans := rfl
@[simp] theorem State.clrBits_w (s : State) (i : Nat) (f : Fld) (v : Nat) : (s.clrBits i f v).w = s.w := rfl
@[simp] theorem State.clrBits_tally (s : State) (i : Nat) (f : Fld) (v : Nat) : (s.clrBits i f v).tally = s.tally := rfl
@[simp] theorem State.clrBits_led (s : State) (i : Nat) (f : Fld) (v : Nat) : (s.clrBits i f v).led = s.led := rfl
@[simp] theorem State.clrBits_missAt (s : State) (i : Nat) (f : Fld) (v : Nat) : (s.clrBits i f v).missAt = s.missAt := rfl
@[simp] theorem State.clrBits_ldgCmd (s : State) (i : Nat) (f : Fld) (v : Nat) : (s.clrBits i f v).ldgCmd = s.ldgCmd := rfl
@[simp] theorem State.clrBits_gateRel (s : State) (i : Nat) (f : Fld) (v : Nat) : (s.clrBits i f v).gateRel = s.gateRel := rfl
@[simp] theorem State.clrBits_ports (s : State) (i : Nat) (f : Fld) (v : Nat) : (s.clrBits i f v).ports = s.ports := rfl
@[simp] theorem State.clrBits_grdIn (s : State) (i : Nat) (f : Fld) (v : Nat) : (s.clrBits i f v).grdIn = s.grdIn := rfl
@[simp] theorem State.clrBits_logAcc (s : State) (i : Nat) (f : Fld) (v : Nat) : (s.clrBits i f v).logAcc = s.logAcc := rfl
@[simp] theorem State.clrBits_logSeq (s : State) (i : Nat) (f : Fld) (v : Nat) : (s.clrBits i f v).logSeq = s.logSeq := rfl
@[simp] theorem State.clrBits_logCfg (s : State) (i : Nat) (f : Fld) (v : Nat) : (s.clrBits i f v).logCfg = s.logCfg := rfl
@[simp] theorem State.clrBits_tags (s : State) (i : Nat) (f : Fld) (v : Nat) : (s.clrBits i f v).tags = s.tags := rfl
@[simp] theorem State.clrBits_roles (s : State) (i : Nat) (f : Fld) (v : Nat) : (s.clrBits i f v).roles = s.roles := rfl
@[simp] theorem State.clrBits_plk (s : State) (i : Nat) (f : Fld) (v : Nat) : (s.clrBits i f v).plk = s.plk := rfl
@[simp] theorem State.clrBits_mirror (s : State) (i : Nat) (f : Fld) (v : Nat) : (s.clrBits i f v).mirror = s.mirror := rfl
@[simp] theorem State.clrBits_chMap (s : State) (i : Nat) (f : Fld) (v : Nat) : (s.clrBits i f v).chMap = s.chMap := rfl
@[simp] theorem State.clrBits_grd (s : State) (i : Nat) (f : Fld) (v : Nat) : (s.clrBits i f v).grd = s.grd := rfl
@[simp] theorem State.clrBits_keys (s : State) (i : Nat) (f : Fld) (v : Nat) : (s.clrBits i f v).keys = s.keys := rfl
@[simp] theorem State.clrBits_job (s : State) (i : Nat) (f : Fld) (v : Nat) : (s.clrBits i f v).job = s.job := rfl
@[simp] theorem State.clrBits_bbRoot (s : State) (i : Nat) (f : Fld) (v : Nat) : (s.clrBits i f v).bbRoot = s.bbRoot := rfl
@[simp] theorem State.clrBits_bbMark (s : State) (i : Nat) (f : Fld) (v : Nat) : (s.clrBits i f v).bbMark = s.bbMark := rfl
@[simp] theorem State.clrBits_bbCheck (s : State) (i : Nat) (f : Fld) (v : Nat) : (s.clrBits i f v).bbCheck = s.bbCheck := rfl
@[simp] theorem State.clrBits_bb (s : State) (i : Nat) (f : Fld) (v : Nat) : (s.clrBits i f v).bb = s.bb := rfl
@[simp] theorem State.clrBits_lenNew (s : State) (i : Nat) (f : Fld) (v : Nat) : (s.clrBits i f v).lenNew = s.lenNew := rfl
@[simp] theorem State.clrBits_lenOld (s : State) (i : Nat) (f : Fld) (v : Nat) : (s.clrBits i f v).lenOld = s.lenOld := rfl
@[simp] theorem State.clrBits_offers (s : State) (i : Nat) (f : Fld) (v : Nat) : (s.clrBits i f v).offers = s.offers := rfl
@[simp] theorem State.clrBits_drain (s : State) (i : Nat) (f : Fld) (v : Nat) : (s.clrBits i f v).drain = s.drain := rfl
@[simp] theorem State.clrBits_moves (s : State) (i : Nat) (f : Fld) (v : Nat) : (s.clrBits i f v).moves = s.moves := rfl
@[simp] theorem State.clrBits_chr (s : State) (i : Nat) (f : Fld) (v : Nat) : (s.clrBits i f v).chr = s.chr := rfl
@[simp] theorem State.clrBits_chrPc (s : State) (i : Nat) (f : Fld) (v : Nat) : (s.clrBits i f v).chrPc = s.chrPc := rfl
@[simp] theorem State.clrBits_boot (s : State) (i : Nat) (f : Fld) (v : Nat) : (s.clrBits i f v).boot = s.boot := rfl
@[simp] theorem State.clrBits_svc (s : State) (i : Nat) (f : Fld) (v : Nat) : (s.clrBits i f v).svc = s.svc := rfl
@[simp] theorem State.clrBits_running (s : State) (i : Nat) (f : Fld) (v : Nat) : (s.clrBits i f v).running = s.running := rfl
@[simp] theorem State.clrBits_queues (s : State) (i : Nat) (f : Fld) (v : Nat) : (s.clrBits i f v).queues = s.queues := rfl
@[simp] theorem State.clrBits_pool (s : State) (i : Nat) (f : Fld) (v : Nat) : (s.clrBits i f v).pool = s.pool := rfl
@[simp] theorem State.clrBits_portQ (s : State) (i : Nat) (f : Fld) (v : Nat) : (s.clrBits i f v).portQ = s.portQ := rfl
@[simp] theorem State.clrBits_pairs (s : State) (i : Nat) (f : Fld) (v : Nat) : (s.clrBits i f v).pairs = s.pairs := rfl
@[simp] theorem State.clrBits_pcie (s : State) (i : Nat) (f : Fld) (v : Nat) : (s.clrBits i f v).pcie = s.pcie := rfl
@[simp] theorem State.clrBits_noDma (s : State) (i : Nat) (f : Fld) (v : Nat) : (s.clrBits i f v).noDma = s.noDma := rfl
@[simp] theorem State.clrBits_sesOpen (s : State) (i : Nat) (f : Fld) (v : Nat) : (s.clrBits i f v).sesOpen = s.sesOpen := rfl
@[simp] theorem State.clrBits_windows (s : State) (i : Nat) (f : Fld) (v : Nat) : (s.clrBits i f v).windows = s.windows := rfl
@[simp] theorem State.clrBits_esw (s : State) (i : Nat) (f : Fld) (v : Nat) : (s.clrBits i f v).esw = s.esw := rfl
@[simp] theorem State.clrBits_cans (s : State) (i : Nat) (f : Fld) (v : Nat) : (s.clrBits i f v).cans = s.cans := rfl
@[simp] theorem State.clrBits_sleep (s : State) (i : Nat) (f : Fld) (v : Nat) : (s.clrBits i f v).sleep = s.sleep := rfl
@[simp] theorem State.clrBits_up (s : State) (i : Nat) (f : Fld) (v : Nat) : (s.clrBits i f v).up = s.up := rfl
@[simp] theorem State.clrBits_warm (s : State) (i : Nat) (f : Fld) (v : Nat) : (s.clrBits i f v).warm = s.warm := rfl
@[simp] theorem State.clrBits_wdt (s : State) (i : Nat) (f : Fld) (v : Nat) : (s.clrBits i f v).wdt = s.wdt := rfl
@[simp] theorem State.clrBits_net (s : State) (i : Nat) (f : Fld) (v : Nat) : (s.clrBits i f v).net = s.net := rfl
@[simp] theorem State.clrBits_fta (s : State) (i : Nat) (f : Fld) (v : Nat) : (s.clrBits i f v).fta = s.fta := rfl
@[simp] theorem State.clrBits_ftaFails (s : State) (i : Nat) (f : Fld) (v : Nat) : (s.clrBits i f v).ftaFails = s.ftaFails := rfl
@[simp] theorem State.clrBits_cert (s : State) (i : Nat) (f : Fld) (v : Nat) : (s.clrBits i f v).cert = s.cert := rfl
@[simp] theorem State.clrBits_fld (s : State) (i : Nat) (f : Fld) (v : Nat) : (s.clrBits i f v).fld = s.fld := rfl

/-! `State.start` -/

@[simp] theorem State.start_pending (s : State) : s.start.pending = s.pending := rfl
@[simp] theorem State.start_fields (s : State) : s.start.fields = s.fields := rfl
@[simp] theorem State.start_mem (s : State) : s.start.mem = s.mem := rfl
@[simp] theorem State.start_words (s : State) : s.start.words = s.words := rfl
@[simp] theorem State.start_snap (s : State) : s.start.snap = s.snap := rfl
@[simp] theorem State.start_half (s : State) : s.start.half = s.half := rfl
@[simp] theorem State.start_free (s : State) : s.start.free = s.free := rfl
@[simp] theorem State.start_stamps (s : State) : s.start.stamps = s.stamps := rfl
@[simp] theorem State.start_evr (s : State) : s.start.evr = s.evr := rfl
@[simp] theorem State.start_k (s : State) : s.start.k = s.k := rfl
@[simp] theorem State.start_len (s : State) : s.start.len = s.len := rfl
@[simp] theorem State.start_vcore (s : State) : s.start.vcore = s.vcore := rfl
@[simp] theorem State.start_harts (s : State) : s.start.harts = s.harts := rfl
@[simp] theorem State.start_saved (s : State) : s.start.saved = s.saved := rfl
@[simp] theorem State.start_banks (s : State) : s.start.banks = s.banks := rfl
@[simp] theorem State.start_chans (s : State) : s.start.chans = s.chans := rfl
@[simp] theorem State.start_w (s : State) : s.start.w = s.w := rfl
@[simp] theorem State.start_tally (s : State) : s.start.tally = s.tally := rfl
@[simp] theorem State.start_led (s : State) : s.start.led = s.led := rfl
@[simp] theorem State.start_missAt (s : State) : s.start.missAt = s.missAt := rfl
@[simp] theorem State.start_ldgCmd (s : State) : s.start.ldgCmd = s.ldgCmd := rfl
@[simp] theorem State.start_gateRel (s : State) : s.start.gateRel = s.gateRel := rfl
@[simp] theorem State.start_ports (s : State) : s.start.ports = s.ports := rfl
@[simp] theorem State.start_grdIn (s : State) : s.start.grdIn = s.grdIn := rfl
@[simp] theorem State.start_logAcc (s : State) : s.start.logAcc = s.logAcc := rfl
@[simp] theorem State.start_logSeq (s : State) : s.start.logSeq = s.logSeq := rfl
@[simp] theorem State.start_logCfg (s : State) : s.start.logCfg = s.logCfg := rfl
@[simp] theorem State.start_tags (s : State) : s.start.tags = s.tags := rfl
@[simp] theorem State.start_roles (s : State) : s.start.roles = s.roles := rfl
@[simp] theorem State.start_plk (s : State) : s.start.plk = s.plk := rfl
@[simp] theorem State.start_mirror (s : State) : s.start.mirror = s.mirror := rfl
@[simp] theorem State.start_chMap (s : State) : s.start.chMap = s.chMap := rfl
@[simp] theorem State.start_grd (s : State) : s.start.grd = s.grd := rfl
@[simp] theorem State.start_keys (s : State) : s.start.keys = s.keys := rfl
@[simp] theorem State.start_job (s : State) : s.start.job = s.job := rfl
@[simp] theorem State.start_bbRoot (s : State) : s.start.bbRoot = s.bbRoot := rfl
@[simp] theorem State.start_bbMark (s : State) : s.start.bbMark = s.bbMark := rfl
@[simp] theorem State.start_bbCheck (s : State) : s.start.bbCheck = s.bbCheck := rfl
@[simp] theorem State.start_bb (s : State) : s.start.bb = s.bb := rfl
@[simp] theorem State.start_lenNew (s : State) : s.start.lenNew = s.lenNew := rfl
@[simp] theorem State.start_lenOld (s : State) : s.start.lenOld = s.lenOld := rfl
@[simp] theorem State.start_offers (s : State) : s.start.offers = s.offers := rfl
@[simp] theorem State.start_drain (s : State) : s.start.drain = s.drain := rfl
@[simp] theorem State.start_moves (s : State) : s.start.moves = s.moves := rfl
@[simp] theorem State.start_chr (s : State) : s.start.chr = s.chr := rfl
@[simp] theorem State.start_chrPc (s : State) : s.start.chrPc = s.chrPc := rfl
@[simp] theorem State.start_boot (s : State) : s.start.boot = s.boot := rfl
@[simp] theorem State.start_svc (s : State) : s.start.svc = s.svc := rfl
@[simp] theorem State.start_running (s : State) : s.start.running = s.running := rfl
@[simp] theorem State.start_queues (s : State) : s.start.queues = s.queues := rfl
@[simp] theorem State.start_pool (s : State) : s.start.pool = s.pool := rfl
@[simp] theorem State.start_portQ (s : State) : s.start.portQ = s.portQ := rfl
@[simp] theorem State.start_pairs (s : State) : s.start.pairs = s.pairs := rfl
@[simp] theorem State.start_pcie (s : State) : s.start.pcie = s.pcie := rfl
@[simp] theorem State.start_noDma (s : State) : s.start.noDma = s.noDma := rfl
@[simp] theorem State.start_sesOpen (s : State) : s.start.sesOpen = s.sesOpen := rfl
@[simp] theorem State.start_windows (s : State) : s.start.windows = s.windows := rfl
@[simp] theorem State.start_esw (s : State) : s.start.esw = s.esw := rfl
@[simp] theorem State.start_cans (s : State) : s.start.cans = s.cans := rfl
@[simp] theorem State.start_sleep (s : State) : s.start.sleep = s.sleep := rfl
@[simp] theorem State.start_up (s : State) : s.start.up = s.up := rfl
@[simp] theorem State.start_warm (s : State) : s.start.warm = s.warm := rfl
@[simp] theorem State.start_wdt (s : State) : s.start.wdt = s.wdt := rfl
@[simp] theorem State.start_net (s : State) : s.start.net = s.net := rfl
@[simp] theorem State.start_fta (s : State) : s.start.fta = s.fta := rfl
@[simp] theorem State.start_ftaFails (s : State) : s.start.ftaFails = s.ftaFails := rfl
@[simp] theorem State.start_cert (s : State) : s.start.cert = s.cert := rfl
@[simp] theorem State.start_fld (s : State) : s.start.fld = s.fld := rfl

/-! `State.emit` -/

@[simp] theorem State.emit_pending (s : State) (o : Out) : (s.emit o).pending = s.pending := rfl
@[simp] theorem State.emit_fields (s : State) (o : Out) : (s.emit o).fields = s.fields := rfl
@[simp] theorem State.emit_mem (s : State) (o : Out) : (s.emit o).mem = s.mem := rfl
@[simp] theorem State.emit_words (s : State) (o : Out) : (s.emit o).words = s.words := rfl
@[simp] theorem State.emit_snap (s : State) (o : Out) : (s.emit o).snap = s.snap := rfl
@[simp] theorem State.emit_half (s : State) (o : Out) : (s.emit o).half = s.half := rfl
@[simp] theorem State.emit_rsp (s : State) (o : Out) : (s.emit o).rsp = s.rsp := rfl
@[simp] theorem State.emit_free (s : State) (o : Out) : (s.emit o).free = s.free := rfl
@[simp] theorem State.emit_stamps (s : State) (o : Out) : (s.emit o).stamps = s.stamps := rfl
@[simp] theorem State.emit_evr (s : State) (o : Out) : (s.emit o).evr = s.evr := rfl
@[simp] theorem State.emit_k (s : State) (o : Out) : (s.emit o).k = s.k := rfl
@[simp] theorem State.emit_len (s : State) (o : Out) : (s.emit o).len = s.len := rfl
@[simp] theorem State.emit_vcore (s : State) (o : Out) : (s.emit o).vcore = s.vcore := rfl
@[simp] theorem State.emit_harts (s : State) (o : Out) : (s.emit o).harts = s.harts := rfl
@[simp] theorem State.emit_saved (s : State) (o : Out) : (s.emit o).saved = s.saved := rfl
@[simp] theorem State.emit_banks (s : State) (o : Out) : (s.emit o).banks = s.banks := rfl
@[simp] theorem State.emit_chans (s : State) (o : Out) : (s.emit o).chans = s.chans := rfl
@[simp] theorem State.emit_w (s : State) (o : Out) : (s.emit o).w = s.w := rfl
@[simp] theorem State.emit_tally (s : State) (o : Out) : (s.emit o).tally = s.tally := rfl
@[simp] theorem State.emit_led (s : State) (o : Out) : (s.emit o).led = s.led := rfl
@[simp] theorem State.emit_missAt (s : State) (o : Out) : (s.emit o).missAt = s.missAt := rfl
@[simp] theorem State.emit_ldgCmd (s : State) (o : Out) : (s.emit o).ldgCmd = s.ldgCmd := rfl
@[simp] theorem State.emit_gateRel (s : State) (o : Out) : (s.emit o).gateRel = s.gateRel := rfl
@[simp] theorem State.emit_ports (s : State) (o : Out) : (s.emit o).ports = s.ports := rfl
@[simp] theorem State.emit_grdIn (s : State) (o : Out) : (s.emit o).grdIn = s.grdIn := rfl
@[simp] theorem State.emit_logAcc (s : State) (o : Out) : (s.emit o).logAcc = s.logAcc := rfl
@[simp] theorem State.emit_logSeq (s : State) (o : Out) : (s.emit o).logSeq = s.logSeq := rfl
@[simp] theorem State.emit_logCfg (s : State) (o : Out) : (s.emit o).logCfg = s.logCfg := rfl
@[simp] theorem State.emit_tags (s : State) (o : Out) : (s.emit o).tags = s.tags := rfl
@[simp] theorem State.emit_roles (s : State) (o : Out) : (s.emit o).roles = s.roles := rfl
@[simp] theorem State.emit_plk (s : State) (o : Out) : (s.emit o).plk = s.plk := rfl
@[simp] theorem State.emit_mirror (s : State) (o : Out) : (s.emit o).mirror = s.mirror := rfl
@[simp] theorem State.emit_chMap (s : State) (o : Out) : (s.emit o).chMap = s.chMap := rfl
@[simp] theorem State.emit_grd (s : State) (o : Out) : (s.emit o).grd = s.grd := rfl
@[simp] theorem State.emit_keys (s : State) (o : Out) : (s.emit o).keys = s.keys := rfl
@[simp] theorem State.emit_job (s : State) (o : Out) : (s.emit o).job = s.job := rfl
@[simp] theorem State.emit_bbRoot (s : State) (o : Out) : (s.emit o).bbRoot = s.bbRoot := rfl
@[simp] theorem State.emit_bbMark (s : State) (o : Out) : (s.emit o).bbMark = s.bbMark := rfl
@[simp] theorem State.emit_bbCheck (s : State) (o : Out) : (s.emit o).bbCheck = s.bbCheck := rfl
@[simp] theorem State.emit_bb (s : State) (o : Out) : (s.emit o).bb = s.bb := rfl
@[simp] theorem State.emit_lenNew (s : State) (o : Out) : (s.emit o).lenNew = s.lenNew := rfl
@[simp] theorem State.emit_lenOld (s : State) (o : Out) : (s.emit o).lenOld = s.lenOld := rfl
@[simp] theorem State.emit_offers (s : State) (o : Out) : (s.emit o).offers = s.offers := rfl
@[simp] theorem State.emit_drain (s : State) (o : Out) : (s.emit o).drain = s.drain := rfl
@[simp] theorem State.emit_moves (s : State) (o : Out) : (s.emit o).moves = s.moves := rfl
@[simp] theorem State.emit_chr (s : State) (o : Out) : (s.emit o).chr = s.chr := rfl
@[simp] theorem State.emit_chrPc (s : State) (o : Out) : (s.emit o).chrPc = s.chrPc := rfl
@[simp] theorem State.emit_boot (s : State) (o : Out) : (s.emit o).boot = s.boot := rfl
@[simp] theorem State.emit_svc (s : State) (o : Out) : (s.emit o).svc = s.svc := rfl
@[simp] theorem State.emit_running (s : State) (o : Out) : (s.emit o).running = s.running := rfl
@[simp] theorem State.emit_queues (s : State) (o : Out) : (s.emit o).queues = s.queues := rfl
@[simp] theorem State.emit_pool (s : State) (o : Out) : (s.emit o).pool = s.pool := rfl
@[simp] theorem State.emit_portQ (s : State) (o : Out) : (s.emit o).portQ = s.portQ := rfl
@[simp] theorem State.emit_pairs (s : State) (o : Out) : (s.emit o).pairs = s.pairs := rfl
@[simp] theorem State.emit_pcie (s : State) (o : Out) : (s.emit o).pcie = s.pcie := rfl
@[simp] theorem State.emit_noDma (s : State) (o : Out) : (s.emit o).noDma = s.noDma := rfl
@[simp] theorem State.emit_sesOpen (s : State) (o : Out) : (s.emit o).sesOpen = s.sesOpen := rfl
@[simp] theorem State.emit_windows (s : State) (o : Out) : (s.emit o).windows = s.windows := rfl
@[simp] theorem State.emit_esw (s : State) (o : Out) : (s.emit o).esw = s.esw := rfl
@[simp] theorem State.emit_cans (s : State) (o : Out) : (s.emit o).cans = s.cans := rfl
@[simp] theorem State.emit_sleep (s : State) (o : Out) : (s.emit o).sleep = s.sleep := rfl
@[simp] theorem State.emit_up (s : State) (o : Out) : (s.emit o).up = s.up := rfl
@[simp] theorem State.emit_warm (s : State) (o : Out) : (s.emit o).warm = s.warm := rfl
@[simp] theorem State.emit_wdt (s : State) (o : Out) : (s.emit o).wdt = s.wdt := rfl
@[simp] theorem State.emit_net (s : State) (o : Out) : (s.emit o).net = s.net := rfl
@[simp] theorem State.emit_fta (s : State) (o : Out) : (s.emit o).fta = s.fta := rfl
@[simp] theorem State.emit_ftaFails (s : State) (o : Out) : (s.emit o).ftaFails = s.ftaFails := rfl
@[simp] theorem State.emit_cert (s : State) (o : Out) : (s.emit o).cert = s.cert := rfl
@[simp] theorem State.emit_fld (s : State) (o : Out) : (s.emit o).fld = s.fld := rfl

/-! `State.answer` -/

@[simp] theorem State.answer_pending (s : State) (d : Nat) : (s.answer d).pending = s.pending := rfl
@[simp] theorem State.answer_fields (s : State) (d : Nat) : (s.answer d).fields = s.fields := rfl
@[simp] theorem State.answer_mem (s : State) (d : Nat) : (s.answer d).mem = s.mem := rfl
@[simp] theorem State.answer_words (s : State) (d : Nat) : (s.answer d).words = s.words := rfl
@[simp] theorem State.answer_snap (s : State) (d : Nat) : (s.answer d).snap = s.snap := rfl
@[simp] theorem State.answer_half (s : State) (d : Nat) : (s.answer d).half = s.half := rfl
@[simp] theorem State.answer_out (s : State) (d : Nat) : (s.answer d).out = s.out := rfl
@[simp] theorem State.answer_free (s : State) (d : Nat) : (s.answer d).free = s.free := rfl
@[simp] theorem State.answer_stamps (s : State) (d : Nat) : (s.answer d).stamps = s.stamps := rfl
@[simp] theorem State.answer_evr (s : State) (d : Nat) : (s.answer d).evr = s.evr := rfl
@[simp] theorem State.answer_k (s : State) (d : Nat) : (s.answer d).k = s.k := rfl
@[simp] theorem State.answer_len (s : State) (d : Nat) : (s.answer d).len = s.len := rfl
@[simp] theorem State.answer_vcore (s : State) (d : Nat) : (s.answer d).vcore = s.vcore := rfl
@[simp] theorem State.answer_harts (s : State) (d : Nat) : (s.answer d).harts = s.harts := rfl
@[simp] theorem State.answer_saved (s : State) (d : Nat) : (s.answer d).saved = s.saved := rfl
@[simp] theorem State.answer_banks (s : State) (d : Nat) : (s.answer d).banks = s.banks := rfl
@[simp] theorem State.answer_chans (s : State) (d : Nat) : (s.answer d).chans = s.chans := rfl
@[simp] theorem State.answer_w (s : State) (d : Nat) : (s.answer d).w = s.w := rfl
@[simp] theorem State.answer_tally (s : State) (d : Nat) : (s.answer d).tally = s.tally := rfl
@[simp] theorem State.answer_led (s : State) (d : Nat) : (s.answer d).led = s.led := rfl
@[simp] theorem State.answer_missAt (s : State) (d : Nat) : (s.answer d).missAt = s.missAt := rfl
@[simp] theorem State.answer_ldgCmd (s : State) (d : Nat) : (s.answer d).ldgCmd = s.ldgCmd := rfl
@[simp] theorem State.answer_gateRel (s : State) (d : Nat) : (s.answer d).gateRel = s.gateRel := rfl
@[simp] theorem State.answer_ports (s : State) (d : Nat) : (s.answer d).ports = s.ports := rfl
@[simp] theorem State.answer_grdIn (s : State) (d : Nat) : (s.answer d).grdIn = s.grdIn := rfl
@[simp] theorem State.answer_logAcc (s : State) (d : Nat) : (s.answer d).logAcc = s.logAcc := rfl
@[simp] theorem State.answer_logSeq (s : State) (d : Nat) : (s.answer d).logSeq = s.logSeq := rfl
@[simp] theorem State.answer_logCfg (s : State) (d : Nat) : (s.answer d).logCfg = s.logCfg := rfl
@[simp] theorem State.answer_tags (s : State) (d : Nat) : (s.answer d).tags = s.tags := rfl
@[simp] theorem State.answer_roles (s : State) (d : Nat) : (s.answer d).roles = s.roles := rfl
@[simp] theorem State.answer_plk (s : State) (d : Nat) : (s.answer d).plk = s.plk := rfl
@[simp] theorem State.answer_mirror (s : State) (d : Nat) : (s.answer d).mirror = s.mirror := rfl
@[simp] theorem State.answer_chMap (s : State) (d : Nat) : (s.answer d).chMap = s.chMap := rfl
@[simp] theorem State.answer_grd (s : State) (d : Nat) : (s.answer d).grd = s.grd := rfl
@[simp] theorem State.answer_keys (s : State) (d : Nat) : (s.answer d).keys = s.keys := rfl
@[simp] theorem State.answer_job (s : State) (d : Nat) : (s.answer d).job = s.job := rfl
@[simp] theorem State.answer_bbRoot (s : State) (d : Nat) : (s.answer d).bbRoot = s.bbRoot := rfl
@[simp] theorem State.answer_bbMark (s : State) (d : Nat) : (s.answer d).bbMark = s.bbMark := rfl
@[simp] theorem State.answer_bbCheck (s : State) (d : Nat) : (s.answer d).bbCheck = s.bbCheck := rfl
@[simp] theorem State.answer_bb (s : State) (d : Nat) : (s.answer d).bb = s.bb := rfl
@[simp] theorem State.answer_lenNew (s : State) (d : Nat) : (s.answer d).lenNew = s.lenNew := rfl
@[simp] theorem State.answer_lenOld (s : State) (d : Nat) : (s.answer d).lenOld = s.lenOld := rfl
@[simp] theorem State.answer_offers (s : State) (d : Nat) : (s.answer d).offers = s.offers := rfl
@[simp] theorem State.answer_drain (s : State) (d : Nat) : (s.answer d).drain = s.drain := rfl
@[simp] theorem State.answer_moves (s : State) (d : Nat) : (s.answer d).moves = s.moves := rfl
@[simp] theorem State.answer_chr (s : State) (d : Nat) : (s.answer d).chr = s.chr := rfl
@[simp] theorem State.answer_chrPc (s : State) (d : Nat) : (s.answer d).chrPc = s.chrPc := rfl
@[simp] theorem State.answer_boot (s : State) (d : Nat) : (s.answer d).boot = s.boot := rfl
@[simp] theorem State.answer_svc (s : State) (d : Nat) : (s.answer d).svc = s.svc := rfl
@[simp] theorem State.answer_running (s : State) (d : Nat) : (s.answer d).running = s.running := rfl
@[simp] theorem State.answer_queues (s : State) (d : Nat) : (s.answer d).queues = s.queues := rfl
@[simp] theorem State.answer_pool (s : State) (d : Nat) : (s.answer d).pool = s.pool := rfl
@[simp] theorem State.answer_portQ (s : State) (d : Nat) : (s.answer d).portQ = s.portQ := rfl
@[simp] theorem State.answer_pairs (s : State) (d : Nat) : (s.answer d).pairs = s.pairs := rfl
@[simp] theorem State.answer_pcie (s : State) (d : Nat) : (s.answer d).pcie = s.pcie := rfl
@[simp] theorem State.answer_noDma (s : State) (d : Nat) : (s.answer d).noDma = s.noDma := rfl
@[simp] theorem State.answer_sesOpen (s : State) (d : Nat) : (s.answer d).sesOpen = s.sesOpen := rfl
@[simp] theorem State.answer_windows (s : State) (d : Nat) : (s.answer d).windows = s.windows := rfl
@[simp] theorem State.answer_esw (s : State) (d : Nat) : (s.answer d).esw = s.esw := rfl
@[simp] theorem State.answer_cans (s : State) (d : Nat) : (s.answer d).cans = s.cans := rfl
@[simp] theorem State.answer_sleep (s : State) (d : Nat) : (s.answer d).sleep = s.sleep := rfl
@[simp] theorem State.answer_up (s : State) (d : Nat) : (s.answer d).up = s.up := rfl
@[simp] theorem State.answer_warm (s : State) (d : Nat) : (s.answer d).warm = s.warm := rfl
@[simp] theorem State.answer_wdt (s : State) (d : Nat) : (s.answer d).wdt = s.wdt := rfl
@[simp] theorem State.answer_net (s : State) (d : Nat) : (s.answer d).net = s.net := rfl
@[simp] theorem State.answer_fta (s : State) (d : Nat) : (s.answer d).fta = s.fta := rfl
@[simp] theorem State.answer_ftaFails (s : State) (d : Nat) : (s.answer d).ftaFails = s.ftaFails := rfl
@[simp] theorem State.answer_cert (s : State) (d : Nat) : (s.answer d).cert = s.cert := rfl
@[simp] theorem State.answer_fld (s : State) (d : Nat) : (s.answer d).fld = s.fld := rfl

/-! `State.freeNext` -/

@[simp] theorem State.freeNext_pending (s : State) : s.freeNext.pending = s.pending := rfl
@[simp] theorem State.freeNext_fields (s : State) : s.freeNext.fields = s.fields := rfl
@[simp] theorem State.freeNext_mem (s : State) : s.freeNext.mem = s.mem := rfl
@[simp] theorem State.freeNext_words (s : State) : s.freeNext.words = s.words := rfl
@[simp] theorem State.freeNext_snap (s : State) : s.freeNext.snap = s.snap := rfl
@[simp] theorem State.freeNext_half (s : State) : s.freeNext.half = s.half := rfl
@[simp] theorem State.freeNext_rsp (s : State) : s.freeNext.rsp = s.rsp := rfl
@[simp] theorem State.freeNext_out (s : State) : s.freeNext.out = s.out := rfl
@[simp] theorem State.freeNext_stamps (s : State) : s.freeNext.stamps = s.stamps := rfl
@[simp] theorem State.freeNext_evr (s : State) : s.freeNext.evr = s.evr := rfl
@[simp] theorem State.freeNext_k (s : State) : s.freeNext.k = s.k := rfl
@[simp] theorem State.freeNext_len (s : State) : s.freeNext.len = s.len := rfl
@[simp] theorem State.freeNext_vcore (s : State) : s.freeNext.vcore = s.vcore := rfl
@[simp] theorem State.freeNext_harts (s : State) : s.freeNext.harts = s.harts := rfl
@[simp] theorem State.freeNext_saved (s : State) : s.freeNext.saved = s.saved := rfl
@[simp] theorem State.freeNext_banks (s : State) : s.freeNext.banks = s.banks := rfl
@[simp] theorem State.freeNext_chans (s : State) : s.freeNext.chans = s.chans := rfl
@[simp] theorem State.freeNext_w (s : State) : s.freeNext.w = s.w := rfl
@[simp] theorem State.freeNext_tally (s : State) : s.freeNext.tally = s.tally := rfl
@[simp] theorem State.freeNext_led (s : State) : s.freeNext.led = s.led := rfl
@[simp] theorem State.freeNext_missAt (s : State) : s.freeNext.missAt = s.missAt := rfl
@[simp] theorem State.freeNext_ldgCmd (s : State) : s.freeNext.ldgCmd = s.ldgCmd := rfl
@[simp] theorem State.freeNext_gateRel (s : State) : s.freeNext.gateRel = s.gateRel := rfl
@[simp] theorem State.freeNext_ports (s : State) : s.freeNext.ports = s.ports := rfl
@[simp] theorem State.freeNext_grdIn (s : State) : s.freeNext.grdIn = s.grdIn := rfl
@[simp] theorem State.freeNext_logAcc (s : State) : s.freeNext.logAcc = s.logAcc := rfl
@[simp] theorem State.freeNext_logSeq (s : State) : s.freeNext.logSeq = s.logSeq := rfl
@[simp] theorem State.freeNext_logCfg (s : State) : s.freeNext.logCfg = s.logCfg := rfl
@[simp] theorem State.freeNext_tags (s : State) : s.freeNext.tags = s.tags := rfl
@[simp] theorem State.freeNext_roles (s : State) : s.freeNext.roles = s.roles := rfl
@[simp] theorem State.freeNext_plk (s : State) : s.freeNext.plk = s.plk := rfl
@[simp] theorem State.freeNext_mirror (s : State) : s.freeNext.mirror = s.mirror := rfl
@[simp] theorem State.freeNext_chMap (s : State) : s.freeNext.chMap = s.chMap := rfl
@[simp] theorem State.freeNext_grd (s : State) : s.freeNext.grd = s.grd := rfl
@[simp] theorem State.freeNext_keys (s : State) : s.freeNext.keys = s.keys := rfl
@[simp] theorem State.freeNext_job (s : State) : s.freeNext.job = s.job := rfl
@[simp] theorem State.freeNext_bbRoot (s : State) : s.freeNext.bbRoot = s.bbRoot := rfl
@[simp] theorem State.freeNext_bbMark (s : State) : s.freeNext.bbMark = s.bbMark := rfl
@[simp] theorem State.freeNext_bbCheck (s : State) : s.freeNext.bbCheck = s.bbCheck := rfl
@[simp] theorem State.freeNext_bb (s : State) : s.freeNext.bb = s.bb := rfl
@[simp] theorem State.freeNext_lenNew (s : State) : s.freeNext.lenNew = s.lenNew := rfl
@[simp] theorem State.freeNext_lenOld (s : State) : s.freeNext.lenOld = s.lenOld := rfl
@[simp] theorem State.freeNext_offers (s : State) : s.freeNext.offers = s.offers := rfl
@[simp] theorem State.freeNext_drain (s : State) : s.freeNext.drain = s.drain := rfl
@[simp] theorem State.freeNext_moves (s : State) : s.freeNext.moves = s.moves := rfl
@[simp] theorem State.freeNext_chr (s : State) : s.freeNext.chr = s.chr := rfl
@[simp] theorem State.freeNext_chrPc (s : State) : s.freeNext.chrPc = s.chrPc := rfl
@[simp] theorem State.freeNext_boot (s : State) : s.freeNext.boot = s.boot := rfl
@[simp] theorem State.freeNext_svc (s : State) : s.freeNext.svc = s.svc := rfl
@[simp] theorem State.freeNext_running (s : State) : s.freeNext.running = s.running := rfl
@[simp] theorem State.freeNext_queues (s : State) : s.freeNext.queues = s.queues := rfl
@[simp] theorem State.freeNext_pool (s : State) : s.freeNext.pool = s.pool := rfl
@[simp] theorem State.freeNext_portQ (s : State) : s.freeNext.portQ = s.portQ := rfl
@[simp] theorem State.freeNext_pairs (s : State) : s.freeNext.pairs = s.pairs := rfl
@[simp] theorem State.freeNext_pcie (s : State) : s.freeNext.pcie = s.pcie := rfl
@[simp] theorem State.freeNext_noDma (s : State) : s.freeNext.noDma = s.noDma := rfl
@[simp] theorem State.freeNext_sesOpen (s : State) : s.freeNext.sesOpen = s.sesOpen := rfl
@[simp] theorem State.freeNext_windows (s : State) : s.freeNext.windows = s.windows := rfl
@[simp] theorem State.freeNext_esw (s : State) : s.freeNext.esw = s.esw := rfl
@[simp] theorem State.freeNext_cans (s : State) : s.freeNext.cans = s.cans := rfl
@[simp] theorem State.freeNext_sleep (s : State) : s.freeNext.sleep = s.sleep := rfl
@[simp] theorem State.freeNext_up (s : State) : s.freeNext.up = s.up := rfl
@[simp] theorem State.freeNext_warm (s : State) : s.freeNext.warm = s.warm := rfl
@[simp] theorem State.freeNext_wdt (s : State) : s.freeNext.wdt = s.wdt := rfl
@[simp] theorem State.freeNext_net (s : State) : s.freeNext.net = s.net := rfl
@[simp] theorem State.freeNext_fta (s : State) : s.freeNext.fta = s.fta := rfl
@[simp] theorem State.freeNext_ftaFails (s : State) : s.freeNext.ftaFails = s.ftaFails := rfl
@[simp] theorem State.freeNext_cert (s : State) : s.freeNext.cert = s.cert := rfl
@[simp] theorem State.freeNext_fld (s : State) : s.freeNext.fld = s.fld := rfl

/-! `State.store` -/

@[simp] theorem State.store_pending (s : State) (a : Nat) (bs : List Byte) : (s.store a bs).pending = s.pending := rfl
@[simp] theorem State.store_fields (s : State) (a : Nat) (bs : List Byte) : (s.store a bs).fields = s.fields := rfl
@[simp] theorem State.store_words (s : State) (a : Nat) (bs : List Byte) : (s.store a bs).words = s.words := rfl
@[simp] theorem State.store_snap (s : State) (a : Nat) (bs : List Byte) : (s.store a bs).snap = s.snap := rfl
@[simp] theorem State.store_half (s : State) (a : Nat) (bs : List Byte) : (s.store a bs).half = s.half := rfl
@[simp] theorem State.store_rsp (s : State) (a : Nat) (bs : List Byte) : (s.store a bs).rsp = s.rsp := rfl
@[simp] theorem State.store_out (s : State) (a : Nat) (bs : List Byte) : (s.store a bs).out = s.out := rfl
@[simp] theorem State.store_free (s : State) (a : Nat) (bs : List Byte) : (s.store a bs).free = s.free := rfl
@[simp] theorem State.store_stamps (s : State) (a : Nat) (bs : List Byte) : (s.store a bs).stamps = s.stamps := rfl
@[simp] theorem State.store_evr (s : State) (a : Nat) (bs : List Byte) : (s.store a bs).evr = s.evr := rfl
@[simp] theorem State.store_k (s : State) (a : Nat) (bs : List Byte) : (s.store a bs).k = s.k := rfl
@[simp] theorem State.store_len (s : State) (a : Nat) (bs : List Byte) : (s.store a bs).len = s.len := rfl
@[simp] theorem State.store_vcore (s : State) (a : Nat) (bs : List Byte) : (s.store a bs).vcore = s.vcore := rfl
@[simp] theorem State.store_harts (s : State) (a : Nat) (bs : List Byte) : (s.store a bs).harts = s.harts := rfl
@[simp] theorem State.store_saved (s : State) (a : Nat) (bs : List Byte) : (s.store a bs).saved = s.saved := rfl
@[simp] theorem State.store_banks (s : State) (a : Nat) (bs : List Byte) : (s.store a bs).banks = s.banks := rfl
@[simp] theorem State.store_chans (s : State) (a : Nat) (bs : List Byte) : (s.store a bs).chans = s.chans := rfl
@[simp] theorem State.store_w (s : State) (a : Nat) (bs : List Byte) : (s.store a bs).w = s.w := rfl
@[simp] theorem State.store_tally (s : State) (a : Nat) (bs : List Byte) : (s.store a bs).tally = s.tally := rfl
@[simp] theorem State.store_led (s : State) (a : Nat) (bs : List Byte) : (s.store a bs).led = s.led := rfl
@[simp] theorem State.store_missAt (s : State) (a : Nat) (bs : List Byte) : (s.store a bs).missAt = s.missAt := rfl
@[simp] theorem State.store_ldgCmd (s : State) (a : Nat) (bs : List Byte) : (s.store a bs).ldgCmd = s.ldgCmd := rfl
@[simp] theorem State.store_gateRel (s : State) (a : Nat) (bs : List Byte) : (s.store a bs).gateRel = s.gateRel := rfl
@[simp] theorem State.store_ports (s : State) (a : Nat) (bs : List Byte) : (s.store a bs).ports = s.ports := rfl
@[simp] theorem State.store_grdIn (s : State) (a : Nat) (bs : List Byte) : (s.store a bs).grdIn = s.grdIn := rfl
@[simp] theorem State.store_logAcc (s : State) (a : Nat) (bs : List Byte) : (s.store a bs).logAcc = s.logAcc := rfl
@[simp] theorem State.store_logSeq (s : State) (a : Nat) (bs : List Byte) : (s.store a bs).logSeq = s.logSeq := rfl
@[simp] theorem State.store_logCfg (s : State) (a : Nat) (bs : List Byte) : (s.store a bs).logCfg = s.logCfg := rfl
@[simp] theorem State.store_tags (s : State) (a : Nat) (bs : List Byte) : (s.store a bs).tags = s.tags := rfl
@[simp] theorem State.store_roles (s : State) (a : Nat) (bs : List Byte) : (s.store a bs).roles = s.roles := rfl
@[simp] theorem State.store_plk (s : State) (a : Nat) (bs : List Byte) : (s.store a bs).plk = s.plk := rfl
@[simp] theorem State.store_mirror (s : State) (a : Nat) (bs : List Byte) : (s.store a bs).mirror = s.mirror := rfl
@[simp] theorem State.store_chMap (s : State) (a : Nat) (bs : List Byte) : (s.store a bs).chMap = s.chMap := rfl
@[simp] theorem State.store_grd (s : State) (a : Nat) (bs : List Byte) : (s.store a bs).grd = s.grd := rfl
@[simp] theorem State.store_keys (s : State) (a : Nat) (bs : List Byte) : (s.store a bs).keys = s.keys := rfl
@[simp] theorem State.store_job (s : State) (a : Nat) (bs : List Byte) : (s.store a bs).job = s.job := rfl
@[simp] theorem State.store_bbRoot (s : State) (a : Nat) (bs : List Byte) : (s.store a bs).bbRoot = s.bbRoot := rfl
@[simp] theorem State.store_bbMark (s : State) (a : Nat) (bs : List Byte) : (s.store a bs).bbMark = s.bbMark := rfl
@[simp] theorem State.store_bbCheck (s : State) (a : Nat) (bs : List Byte) : (s.store a bs).bbCheck = s.bbCheck := rfl
@[simp] theorem State.store_bb (s : State) (a : Nat) (bs : List Byte) : (s.store a bs).bb = s.bb := rfl
@[simp] theorem State.store_lenNew (s : State) (a : Nat) (bs : List Byte) : (s.store a bs).lenNew = s.lenNew := rfl
@[simp] theorem State.store_lenOld (s : State) (a : Nat) (bs : List Byte) : (s.store a bs).lenOld = s.lenOld := rfl
@[simp] theorem State.store_offers (s : State) (a : Nat) (bs : List Byte) : (s.store a bs).offers = s.offers := rfl
@[simp] theorem State.store_drain (s : State) (a : Nat) (bs : List Byte) : (s.store a bs).drain = s.drain := rfl
@[simp] theorem State.store_moves (s : State) (a : Nat) (bs : List Byte) : (s.store a bs).moves = s.moves := rfl
@[simp] theorem State.store_chr (s : State) (a : Nat) (bs : List Byte) : (s.store a bs).chr = s.chr := rfl
@[simp] theorem State.store_chrPc (s : State) (a : Nat) (bs : List Byte) : (s.store a bs).chrPc = s.chrPc := rfl
@[simp] theorem State.store_boot (s : State) (a : Nat) (bs : List Byte) : (s.store a bs).boot = s.boot := rfl
@[simp] theorem State.store_svc (s : State) (a : Nat) (bs : List Byte) : (s.store a bs).svc = s.svc := rfl
@[simp] theorem State.store_running (s : State) (a : Nat) (bs : List Byte) : (s.store a bs).running = s.running := rfl
@[simp] theorem State.store_queues (s : State) (a : Nat) (bs : List Byte) : (s.store a bs).queues = s.queues := rfl
@[simp] theorem State.store_pool (s : State) (a : Nat) (bs : List Byte) : (s.store a bs).pool = s.pool := rfl
@[simp] theorem State.store_portQ (s : State) (a : Nat) (bs : List Byte) : (s.store a bs).portQ = s.portQ := rfl
@[simp] theorem State.store_pairs (s : State) (a : Nat) (bs : List Byte) : (s.store a bs).pairs = s.pairs := rfl
@[simp] theorem State.store_pcie (s : State) (a : Nat) (bs : List Byte) : (s.store a bs).pcie = s.pcie := rfl
@[simp] theorem State.store_noDma (s : State) (a : Nat) (bs : List Byte) : (s.store a bs).noDma = s.noDma := rfl
@[simp] theorem State.store_sesOpen (s : State) (a : Nat) (bs : List Byte) : (s.store a bs).sesOpen = s.sesOpen := rfl
@[simp] theorem State.store_windows (s : State) (a : Nat) (bs : List Byte) : (s.store a bs).windows = s.windows := rfl
@[simp] theorem State.store_esw (s : State) (a : Nat) (bs : List Byte) : (s.store a bs).esw = s.esw := rfl
@[simp] theorem State.store_cans (s : State) (a : Nat) (bs : List Byte) : (s.store a bs).cans = s.cans := rfl
@[simp] theorem State.store_sleep (s : State) (a : Nat) (bs : List Byte) : (s.store a bs).sleep = s.sleep := rfl
@[simp] theorem State.store_up (s : State) (a : Nat) (bs : List Byte) : (s.store a bs).up = s.up := rfl
@[simp] theorem State.store_warm (s : State) (a : Nat) (bs : List Byte) : (s.store a bs).warm = s.warm := rfl
@[simp] theorem State.store_wdt (s : State) (a : Nat) (bs : List Byte) : (s.store a bs).wdt = s.wdt := rfl
@[simp] theorem State.store_net (s : State) (a : Nat) (bs : List Byte) : (s.store a bs).net = s.net := rfl
@[simp] theorem State.store_fta (s : State) (a : Nat) (bs : List Byte) : (s.store a bs).fta = s.fta := rfl
@[simp] theorem State.store_ftaFails (s : State) (a : Nat) (bs : List Byte) : (s.store a bs).ftaFails = s.ftaFails := rfl
@[simp] theorem State.store_cert (s : State) (a : Nat) (bs : List Byte) : (s.store a bs).cert = s.cert := rfl
@[simp] theorem State.store_fld (s : State) (a : Nat) (bs : List Byte) : (s.store a bs).fld = s.fld := rfl

/-! `State.setHart` -/

@[simp] theorem State.setHart_pending (s : State) (h : Nat) (x : Hart) : (s.setHart h x).pending = s.pending := rfl
@[simp] theorem State.setHart_fields (s : State) (h : Nat) (x : Hart) : (s.setHart h x).fields = s.fields := rfl
@[simp] theorem State.setHart_mem (s : State) (h : Nat) (x : Hart) : (s.setHart h x).mem = s.mem := rfl
@[simp] theorem State.setHart_words (s : State) (h : Nat) (x : Hart) : (s.setHart h x).words = s.words := rfl
@[simp] theorem State.setHart_snap (s : State) (h : Nat) (x : Hart) : (s.setHart h x).snap = s.snap := rfl
@[simp] theorem State.setHart_half (s : State) (h : Nat) (x : Hart) : (s.setHart h x).half = s.half := rfl
@[simp] theorem State.setHart_rsp (s : State) (h : Nat) (x : Hart) : (s.setHart h x).rsp = s.rsp := rfl
@[simp] theorem State.setHart_out (s : State) (h : Nat) (x : Hart) : (s.setHart h x).out = s.out := rfl
@[simp] theorem State.setHart_free (s : State) (h : Nat) (x : Hart) : (s.setHart h x).free = s.free := rfl
@[simp] theorem State.setHart_stamps (s : State) (h : Nat) (x : Hart) : (s.setHart h x).stamps = s.stamps := rfl
@[simp] theorem State.setHart_evr (s : State) (h : Nat) (x : Hart) : (s.setHart h x).evr = s.evr := rfl
@[simp] theorem State.setHart_k (s : State) (h : Nat) (x : Hart) : (s.setHart h x).k = s.k := rfl
@[simp] theorem State.setHart_len (s : State) (h : Nat) (x : Hart) : (s.setHart h x).len = s.len := rfl
@[simp] theorem State.setHart_vcore (s : State) (h : Nat) (x : Hart) : (s.setHart h x).vcore = s.vcore := rfl
@[simp] theorem State.setHart_saved (s : State) (h : Nat) (x : Hart) : (s.setHart h x).saved = s.saved := rfl
@[simp] theorem State.setHart_banks (s : State) (h : Nat) (x : Hart) : (s.setHart h x).banks = s.banks := rfl
@[simp] theorem State.setHart_chans (s : State) (h : Nat) (x : Hart) : (s.setHart h x).chans = s.chans := rfl
@[simp] theorem State.setHart_w (s : State) (h : Nat) (x : Hart) : (s.setHart h x).w = s.w := rfl
@[simp] theorem State.setHart_tally (s : State) (h : Nat) (x : Hart) : (s.setHart h x).tally = s.tally := rfl
@[simp] theorem State.setHart_led (s : State) (h : Nat) (x : Hart) : (s.setHart h x).led = s.led := rfl
@[simp] theorem State.setHart_missAt (s : State) (h : Nat) (x : Hart) : (s.setHart h x).missAt = s.missAt := rfl
@[simp] theorem State.setHart_ldgCmd (s : State) (h : Nat) (x : Hart) : (s.setHart h x).ldgCmd = s.ldgCmd := rfl
@[simp] theorem State.setHart_gateRel (s : State) (h : Nat) (x : Hart) : (s.setHart h x).gateRel = s.gateRel := rfl
@[simp] theorem State.setHart_ports (s : State) (h : Nat) (x : Hart) : (s.setHart h x).ports = s.ports := rfl
@[simp] theorem State.setHart_grdIn (s : State) (h : Nat) (x : Hart) : (s.setHart h x).grdIn = s.grdIn := rfl
@[simp] theorem State.setHart_logAcc (s : State) (h : Nat) (x : Hart) : (s.setHart h x).logAcc = s.logAcc := rfl
@[simp] theorem State.setHart_logSeq (s : State) (h : Nat) (x : Hart) : (s.setHart h x).logSeq = s.logSeq := rfl
@[simp] theorem State.setHart_logCfg (s : State) (h : Nat) (x : Hart) : (s.setHart h x).logCfg = s.logCfg := rfl
@[simp] theorem State.setHart_tags (s : State) (h : Nat) (x : Hart) : (s.setHart h x).tags = s.tags := rfl
@[simp] theorem State.setHart_roles (s : State) (h : Nat) (x : Hart) : (s.setHart h x).roles = s.roles := rfl
@[simp] theorem State.setHart_plk (s : State) (h : Nat) (x : Hart) : (s.setHart h x).plk = s.plk := rfl
@[simp] theorem State.setHart_mirror (s : State) (h : Nat) (x : Hart) : (s.setHart h x).mirror = s.mirror := rfl
@[simp] theorem State.setHart_chMap (s : State) (h : Nat) (x : Hart) : (s.setHart h x).chMap = s.chMap := rfl
@[simp] theorem State.setHart_grd (s : State) (h : Nat) (x : Hart) : (s.setHart h x).grd = s.grd := rfl
@[simp] theorem State.setHart_keys (s : State) (h : Nat) (x : Hart) : (s.setHart h x).keys = s.keys := rfl
@[simp] theorem State.setHart_job (s : State) (h : Nat) (x : Hart) : (s.setHart h x).job = s.job := rfl
@[simp] theorem State.setHart_bbRoot (s : State) (h : Nat) (x : Hart) : (s.setHart h x).bbRoot = s.bbRoot := rfl
@[simp] theorem State.setHart_bbMark (s : State) (h : Nat) (x : Hart) : (s.setHart h x).bbMark = s.bbMark := rfl
@[simp] theorem State.setHart_bbCheck (s : State) (h : Nat) (x : Hart) : (s.setHart h x).bbCheck = s.bbCheck := rfl
@[simp] theorem State.setHart_bb (s : State) (h : Nat) (x : Hart) : (s.setHart h x).bb = s.bb := rfl
@[simp] theorem State.setHart_lenNew (s : State) (h : Nat) (x : Hart) : (s.setHart h x).lenNew = s.lenNew := rfl
@[simp] theorem State.setHart_lenOld (s : State) (h : Nat) (x : Hart) : (s.setHart h x).lenOld = s.lenOld := rfl
@[simp] theorem State.setHart_offers (s : State) (h : Nat) (x : Hart) : (s.setHart h x).offers = s.offers := rfl
@[simp] theorem State.setHart_drain (s : State) (h : Nat) (x : Hart) : (s.setHart h x).drain = s.drain := rfl
@[simp] theorem State.setHart_moves (s : State) (h : Nat) (x : Hart) : (s.setHart h x).moves = s.moves := rfl
@[simp] theorem State.setHart_chr (s : State) (h : Nat) (x : Hart) : (s.setHart h x).chr = s.chr := rfl
@[simp] theorem State.setHart_chrPc (s : State) (h : Nat) (x : Hart) : (s.setHart h x).chrPc = s.chrPc := rfl
@[simp] theorem State.setHart_boot (s : State) (h : Nat) (x : Hart) : (s.setHart h x).boot = s.boot := rfl
@[simp] theorem State.setHart_svc (s : State) (h : Nat) (x : Hart) : (s.setHart h x).svc = s.svc := rfl
@[simp] theorem State.setHart_running (s : State) (h : Nat) (x : Hart) : (s.setHart h x).running = s.running := rfl
@[simp] theorem State.setHart_queues (s : State) (h : Nat) (x : Hart) : (s.setHart h x).queues = s.queues := rfl
@[simp] theorem State.setHart_pool (s : State) (h : Nat) (x : Hart) : (s.setHart h x).pool = s.pool := rfl
@[simp] theorem State.setHart_portQ (s : State) (h : Nat) (x : Hart) : (s.setHart h x).portQ = s.portQ := rfl
@[simp] theorem State.setHart_pairs (s : State) (h : Nat) (x : Hart) : (s.setHart h x).pairs = s.pairs := rfl
@[simp] theorem State.setHart_pcie (s : State) (h : Nat) (x : Hart) : (s.setHart h x).pcie = s.pcie := rfl
@[simp] theorem State.setHart_noDma (s : State) (h : Nat) (x : Hart) : (s.setHart h x).noDma = s.noDma := rfl
@[simp] theorem State.setHart_sesOpen (s : State) (h : Nat) (x : Hart) : (s.setHart h x).sesOpen = s.sesOpen := rfl
@[simp] theorem State.setHart_windows (s : State) (h : Nat) (x : Hart) : (s.setHart h x).windows = s.windows := rfl
@[simp] theorem State.setHart_esw (s : State) (h : Nat) (x : Hart) : (s.setHart h x).esw = s.esw := rfl
@[simp] theorem State.setHart_cans (s : State) (h : Nat) (x : Hart) : (s.setHart h x).cans = s.cans := rfl
@[simp] theorem State.setHart_sleep (s : State) (h : Nat) (x : Hart) : (s.setHart h x).sleep = s.sleep := rfl
@[simp] theorem State.setHart_up (s : State) (h : Nat) (x : Hart) : (s.setHart h x).up = s.up := rfl
@[simp] theorem State.setHart_warm (s : State) (h : Nat) (x : Hart) : (s.setHart h x).warm = s.warm := rfl
@[simp] theorem State.setHart_wdt (s : State) (h : Nat) (x : Hart) : (s.setHart h x).wdt = s.wdt := rfl
@[simp] theorem State.setHart_net (s : State) (h : Nat) (x : Hart) : (s.setHart h x).net = s.net := rfl
@[simp] theorem State.setHart_fta (s : State) (h : Nat) (x : Hart) : (s.setHart h x).fta = s.fta := rfl
@[simp] theorem State.setHart_ftaFails (s : State) (h : Nat) (x : Hart) : (s.setHart h x).ftaFails = s.ftaFails := rfl
@[simp] theorem State.setHart_cert (s : State) (h : Nat) (x : Hart) : (s.setHart h x).cert = s.cert := rfl
@[simp] theorem State.setHart_fld (s : State) (h : Nat) (x : Hart) : (s.setHart h x).fld = s.fld := rfl

@[simp] theorem State.rd_start (s : State) (i : Nat) (f : Fld) : State.rd s.start i f = s.rd i f := rfl
@[simp] theorem State.rdB_start (s : State) (i : Nat) (f : Fld) : State.rdB s.start i f = s.rdB i f := rfl
@[simp] theorem State.rd_emit (s : State) (o : Out) (i : Nat) (f : Fld) : State.rd (s.emit o) i f = s.rd i f := rfl
@[simp] theorem State.rdB_emit (s : State) (o : Out) (i : Nat) (f : Fld) : State.rdB (s.emit o) i f = s.rdB i f := rfl
@[simp] theorem State.rd_answer (s : State) (d : Nat) (i : Nat) (f : Fld) : State.rd (s.answer d) i f = s.rd i f := rfl
@[simp] theorem State.rdB_answer (s : State) (d : Nat) (i : Nat) (f : Fld) : State.rdB (s.answer d) i f = s.rdB i f := rfl
@[simp] theorem State.rd_freeNext (s : State) (i : Nat) (f : Fld) : State.rd s.freeNext i f = s.rd i f := rfl
@[simp] theorem State.rdB_freeNext (s : State) (i : Nat) (f : Fld) : State.rdB s.freeNext i f = s.rdB i f := rfl
@[simp] theorem State.rd_store (s : State) (a : Nat) (bs : List Byte) (i : Nat) (f : Fld) : State.rd (s.store a bs) i f = s.rd i f := rfl
@[simp] theorem State.rdB_store (s : State) (a : Nat) (bs : List Byte) (i : Nat) (f : Fld) : State.rdB (s.store a bs) i f = s.rdB i f := rfl
@[simp] theorem State.rd_setHart (s : State) (h : Nat) (x : Hart) (i : Nat) (f : Fld) : State.rd (s.setHart h x) i f = s.rd i f := rfl
@[simp] theorem State.rdB_setHart (s : State) (h : Nat) (x : Hart) (i : Nat) (f : Fld) : State.rdB (s.setHart h x) i f = s.rdB i f := rfl

/-- The start of a command changes no access check. -/
@[simp] theorem State.start_accCause (s : State) (r : Req) (p off : Nat) (w : Bool) :
    s.start.accCause r p off w = s.accCause r p off w := rfl

/-- An accepted write access has its effect. -/
theorem State.access_eq {s : State} {r : Req} {p off : Nat} {k : State → State} (h : s.accCause r p off true = none) :
    s.access r p off k = k s := by
  simp [State.access, h]

/-- A write access that is not accepted ends as R26 states and has no other effect. -/
theorem State.access_err {s : State} {r : Req} {p off c : Nat} {k : State → State} (h : s.accCause r p off true = some c) :
    s.access r p off k = s.accErr r (pageAddr p off) true c := by
  simp [State.access, h]

end Sys2Proof.Machine
end

