-- ==== Sys2Proof/Laws/Regs.lean ====
section
/-! SUPPORT. What the shared register operations do to a register: derived writes, block interrupts, event records and access
errors. A register of a page has its key below `pageEnd`; what a command signals to hosts stands above. -/
namespace Sys2Proof.Machine

/-- The keys of the pages end here; the registers of functions, cocoons, codes and queues follow. -/
def pageEnd : Nat := 0x400 * 131072

theorem State.rd_wrB (s : State) (i : Nat) (f : Fld) (b : Bool) (j : Nat) (g : Fld) :
    (s.wrB i f b).rd j g = if f.key i = g.key j then b2n b % 2 ^ f.w else s.rd j g := by
  rw [State.wrB, State.rd_wr]

theorem State.rd_bump (s : State) (i : Nat) (f : Fld) (n j : Nat) (g : Fld) :
    (s.bump i f n).rd j g = if f.key i = g.key j then min (s.rd i f + n) (2 ^ f.w - 1) else s.rd j g := by
  rw [State.bump, State.rd_wr, Nat.mod_eq_of_lt]
  have := Nat.two_pow_pos f.w
  omega

theorem State.rd_setBits (s : State) (i : Nat) (f : Fld) (m j : Nat) (g : Fld) :
    (s.setBits i f m).rd j g = if f.key i = g.key j then (s.rd i f ||| m) % 2 ^ f.w else s.rd j g := by
  rw [State.setBits, State.rd_wr]

theorem State.rd_clrBits (s : State) (i : Nat) (f : Fld) (m j : Nat) (g : Fld) :
    (s.clrBits i f m).rd j g = if f.key i = g.key j then (s.rd i f - (s.rd i f &&& m)) % 2 ^ f.w else s.rd j g := by
  rw [State.clrBits, State.rd_wr]

/-- A field of a function's registers has its key above the pages. -/
theorem key_iFn (f : Fld) (n : Nat) : pageEnd ≤ f.key (iFn n) := by
  unfold pageEnd Fld.key iFn
  omega

/-- A message changes no register of a page. -/
theorem State.rd_msix (s : State) (f v j : Nat) (g : Fld) (h : g.key j < pageEnd) : (s.msix f v).rd j g = s.rd j g := by
  unfold State.msix
  split
  · rfl
  · split
    · rw [State.rd_wrB, if_neg]
      have := key_iFn (R.PBA v) f
      omega
    · split <;> simp

theorem State.rd_irqEdge (s t : State) (p j : Nat) (g : Fld) (h : g.key j < pageEnd) : (s.irqEdge t p).rd j g = t.rd j g := by
  unfold State.irqEdge
  dsimp only
  split
  · exact State.rd_msix _ _ _ _ _ h
  · rfl

/-- Raising causes sets their bits in xxx_INT_STAT and changes no other register of a page. -/
theorem State.rd_raise (s : State) (p bits j : Nat) (g : Fld) (h : g.key j < pageEnd) :
    (s.raise p bits).rd j g =
      if R.INT_STAT.key p = g.key j then (s.rd p R.INT_STAT ||| bits) % 2 ^ 32 else s.rd j g := by
  rw [State.raise, State.rd_irqEdge _ _ _ _ _ h, State.rd_setBits]
  rfl

/-- An event of a function changes no register of a page. -/
theorem State.rd_fnEvent (s : State) (f bits j : Nat) (g : Fld) (h : g.key j < pageEnd) :
    (s.fnEvent f bits).rd j g = s.rd j g := by
  have k : (s.setBits (iFn f) R.FNC_F_EVT_evt bits).rd j g = s.rd j g := by
    rw [State.rd_setBits, if_neg]
    have := key_iFn R.FNC_F_EVT_evt f
    omega
  unfold State.fnEvent
  dsimp only
  split
  · rw [State.rd_msix _ _ _ _ _ h, k]
  · exact k

/-- The registers outside the EVR page among those of the pages. -/
def offEvr (j : Nat) (g : Fld) : Prop := g.key j < pageEnd ∧ ¬(0x004 * 131072 ≤ g.key j ∧ g.key j < 0x005 * 131072)

theorem key_iCode (f : Fld) (n : Nat) : pageEnd ≤ f.key (iCode n) := by
  unfold pageEnd Fld.key iCode
  omega

theorem State.rd_evLost (s : State) (j : Nat) (g : Fld) (h : offEvr j g) : s.evLost.rd j g = s.rd j g := by
  have a : R.INT_STAT.key pgEvr ≠ g.key j := by
    have := h.2; simp only [Fld.key, R.INT_STAT, pgEvr] at *; omega
  have b : R.EVR_LOST_count.key pgEvr ≠ g.key j := by
    have := h.2; simp only [Fld.key, R.EVR_LOST_count, pgEvr] at *; omega
  have e : s.evLost.rd j g = ((s.bump pgEvr R.EVR_LOST_count 1).raise pgEvr 2).rd j g := rfl
  rw [e, State.rd_raise _ _ _ _ _ h.1, if_neg a, State.rd_bump, if_neg b]

theorem State.rd_evQueue (s : State) (code source index : Nat) (data : List Nat) (j : Nat) (g : Fld) (h : offEvr j g) :
    (s.evQueue code source index data).rd j g = s.rd j g := by
  unfold State.evQueue
  split
  · exact State.rd_evLost s j g h
  · have k : (s.wr (iCode code) R.EVR_RL_STAT_suppressed 0).rd j g = s.rd j g := by
      rw [State.rd_wr, if_neg]
      have := key_iCode R.EVR_RL_STAT_suppressed code
      have := h.1
      omega
    exact k

/-- An event record changes no register of a page other than EVR. -/
theorem State.rd_report (s : State) (code source index : Nat) (data : List Nat) (j : Nat) (g : Fld) (h : offEvr j g) :
    (s.report code source index data).rd j g = s.rd j g := by
  have n1 : ∀ f v, (s.wr (iCode code) f v).rd j g = s.rd j g := by
    intro f v
    rw [State.rd_wr, if_neg]
    have := key_iCode f code
    have := h.1
    omega
  have n2 : ∀ f v, (s.bump (iCode code) f v).rd j g = s.rd j g := by
    intro f v
    rw [State.rd_bump, if_neg]
    have := key_iCode f code
    have := h.1
    omega
  have n3 : R.INT_STAT.key pgEvr ≠ g.key j := by
    have := h.2; simp only [Fld.key, R.INT_STAT, pgEvr] at *; omega
  unfold State.report
  dsimp only
  split
  · rfl
  · split
    · exact State.rd_evLost s j g h
    · split
      · exact State.rd_evQueue _ _ _ _ _ _ _ h
      · split
        · rw [State.rd_raise _ _ _ _ _ h.1, if_neg n3, n2]
        · rw [State.rd_evQueue _ _ _ _ _ _ _ h, n1]

/-! ### The answer of an access -/

theorem State.rsp_msix (s : State) (f v : Nat) : (s.msix f v).rsp = s.rsp := by
  unfold State.msix
  repeat' split
  all_goals rfl

theorem State.rsp_irqEdge (s t : State) (p : Nat) : (s.irqEdge t p).rsp = t.rsp := by
  unfold State.irqEdge
  dsimp only
  split
  · exact State.rsp_msix _ _ _
  · rfl

theorem State.rsp_raise (s : State) (p bits : Nat) : (s.raise p bits).rsp = s.rsp := by
  rw [State.raise, State.rsp_irqEdge]
  rfl

theorem State.rsp_fnEvent (s : State) (f bits : Nat) : (s.fnEvent f bits).rsp = s.rsp := by
  unfold State.fnEvent
  dsimp only
  split
  · rw [State.rsp_msix]; rfl
  · rfl

theorem State.rsp_evLost (s : State) : s.evLost.rsp = s.rsp := by
  have e : s.evLost.rsp = ((s.bump pgEvr R.EVR_LOST_count 1).raise pgEvr 2).rsp := rfl
  rw [e, State.rsp_raise]
  rfl

theorem State.rsp_evQueue (s : State) (code source index : Nat) (data : List Nat) :
    (s.evQueue code source index data).rsp = s.rsp := by
  unfold State.evQueue
  split
  · exact State.rsp_evLost s
  · rfl

theorem State.rsp_report (s : State) (code source index : Nat) (data : List Nat) :
    (s.report code source index data).rsp = s.rsp := by
  unfold State.report
  dsimp only
  split
  · rfl
  · split
    · exact State.rsp_evLost s
    · split
      · exact State.rsp_evQueue _ _ _ _ _
      · split
        · rw [State.rsp_raise]; rfl
        · rw [State.rsp_evQueue]; rfl

theorem State.rsp_accFirst (s : State) (a : Attr) (addr : Nat) (w : Bool) (c : Nat) : (s.accFirst a addr w c).rsp = s.rsp := by
  unfold State.accFirst
  split
  · rfl
  · simp [State.rsp_raise]

theorem State.rsp_accSilent (s : State) (addr c : Nat) : (s.accSilent addr c).rsp = s.rsp := by
  unfold State.accSilent
  split
  · rw [State.rsp_raise]
  · rfl

theorem State.rsp_reqEvent (s : State) (r : Req) : (s.reqEvent r).rsp = s.rsp := by
  cases r <;> simp [State.reqEvent, State.rsp_fnEvent]

/-- An access that ends as R26 states answers zero, with an error of its cause. -/
theorem State.rsp_accErr (s : State) (r : Req) (addr : Nat) (w : Bool) (c : Nat) :
    (s.accErr r addr w c).rsp = { data := 0, err := true, cause := c } := by
  simp [State.accErr, State.rsp_reqEvent, State.rsp_report, State.rsp_accFirst, State.rsp_accSilent]

end Sys2Proof.Machine
end

