-- ==== Sys2Proof/WellFormed.lean ====
section
/-! DEFINITION. Well-formed commands: the requester exists, and a message or an observation carries as much data as the spec gives it. A
command that is not well-formed still has a meaning; no sender of the spec sends one. -/
namespace Sys2Proof

/-- A session has one of the slots 1 to 3 (R339). -/
def Req.wf : Req → Bool
  | .session n _ => n.val != 0
  | _ => true

/-- The requester of an access. -/
def Instr.req : Instr → Option Req
  | .registerWrite r _ _ _ _ | .snapshotRead r _ _ _ | .readClear r _ _ | .stepWordWrite r _ _ _ | .stepWordRead r _ _
  | .softReset r _ _ | .ctrlLock r _ _ | .intForce r _ _ | .fieldAccessTimeout r _ _ _ | .slackMinReset r _ | .domReqOn r _
  | .domReqOff r _ | .clkGateWrite r _ | .rstCmdWarm r _ | .rstCmdCold r _ | .watchdogKick r _ _ | .sleepEnter r _
  | .ageingWatchEnter r _ | .linkTrain r _ _ | .linkDrop r _ _ | .idAccept r _ _ | .idReject r _ _ | .calShadowWrite r _ _ _
  | .calCommit r _ _ | .calDiscard r _ _ | .calReload r _ _ | .auxSelWrite r _ _ | .logConfigWrite r _ _ | .chnArm r _ _
  | .chnDisarm r _ _ | .chnApply r _ _ | .chnPreset r _ _ | .chnDiscard r _ _ | .chnEnableClear r _ _ | .bnkChnArm r _ _
  | .bnkChnDisarm r _ _ | .bnkChnApply r _ _ | .lpSwap r _ _ | .lpCancel r _ _ | .lpJump r _ _ | .lpAbort r _ _ | .lpRelease r _ _
  | .gateReleaseCmd r _ | .bankTripClear r _ _ | .tripTestA r _ _ | .tripTestB r _ _ | .chnTripClear r _ _ | .tripForce r _
  | .ldgApply r _ | .ldgDiscard r _ | .grdOpen r _ | .grdSeal r _ | .grdDiscard r _ | .pairEnable r _ | .pairSync r _ _
  | .pairAbortSync r _ | .pairFailCmd r _ | .pairYield r _ | .cocCreate r _ | .cocSeal r _ | .cocDestroy r _ | .wmWrite r _ _
  | .l2MaskWrite r _ _ | .l2Clean r _ | .coreRun r _ | .hoOffer r _ | .hoWithdraw r _ | .hoCommit r _ | .hoReclaim r _ | .mbxPost r _
  | .mbxTake r _ | .mbxDone r _ | .mbxFree r _ | .mbxCancel r _ | .dbgEnWrite r _ | .keyDerive r _ | .keyInvalidate r _ | .keyZero r _
  | .crySha256 r _ | .cryHmac r _ | .cryDerive r _ | .crySign r _ | .cryVerify r _ | .cryPubkey r _ | .cryRandom r _ | .updConfirm r _
  | .updRevert r _ | .fnDisable r _ | .quotaWrite r _ | .stepRangeWrite r _ _ | .qEnable r _ | .qDisable r _ _ | .dbSqTail r _
  | .dbCqHead r _ | .dbDeliveryHead r _ | .qpmEnable r _ | .qpmFlush r _ _ | .qpmQueueDisable r _ _ | .brgRead r _ | .brgWrite r _
  | .brgCollect r | .atuRead r _ | .atuWrite r _ | .atuDelete r _ | .atuFlushDyn r _ | .p3TxDoorbell r _ | .ptpOffsetCommit r _ _ _
  | .ptpSlew r _ | .ptpStep r _ _ | .ptpHoldover r _ | .ptpCancel r _ | .ptpTsqPop r _ | .ptpTxDoorbell r _ | .canStart r _ _
  | .canStop r _ _ _ | .canRecover r _ _ | .canTxPend r _ _ | .canTxAbort r _ _ _ | .canRxqPop r _ _ _ | .nwmChEnable r _ _
  | .nwmAwakeReq r _ _ | .nwmLocalWake r _ _ | .fioOutWrite r _ | .fioOutSet r _ | .fioOutClr r _ | .fioPtCfgWrite r _ _
  | .fioFaultClear r _ | .fioResume r _ | .fioSafe r _ | .fioEnable r _ | .ldcOnWrite r _ | .ldcOnSet r _ | .ldcOnClr r _
  | .ldcClampLock r _ _ | .ldcFaultClear r _ | .evrReadWindow r _ | .evrSwRecord r _ | .pairDisable r _ => some r
  | _ => none

/-- Whether the command carries what the spec gives it: an identity record of 1,024 words or none (R79), submission
entries of 64 bytes (R323), 32 field points (R422), 12 load currents (R445), identity CRCs of 32 banks (R238), a signature of 64 bytes (R458),
a BAR2 read of at least one byte (R318), CAN data of at most 64 bytes (R404), and a session slot from 1 to 3 (R339). -/
def Instr.shape : Instr → Bool
  | .idreadDone _ w | .calReloadDone _ w => w.length == 0 || w.length == 1024
  | .pairSync _ _ peer => peer.length == 32
  | .bar2Read _ _ _ n => n.val != 0
  | .sqFetch _ _ e _ | .cmdNop _ _ e | .cmdIdentify _ _ e | .cmdMapRead _ _ e | .cmdStepWrite _ _ e _ | .cmdStepRead _ _ e
  | .cmdLogMap _ _ e | .cmdGrdStage _ _ e _ | .cmdGrdCtrl _ _ e | .cmdChnBatch _ _ e _ | .cmdQBind _ _ e | .cmdQUnbind _ _ e
  | .cmdMove _ _ e => e.length == 64
  | .sesSubmit n _ _ es => n.val != 0 && es.length % 64 == 0
  | .sesRegRead n _ _ | .sesRegWrite n _ _ _ | .sesDataPut n _ _ _ | .sesDataGet n _ _ _ | .sesKeepalive n | .sessionLost n => n.val != 0
  | .canFrameRx _ _ _ data | .nwmWakeDetect _ _ _ _ data => decide (data.length ≤ 64)
  | .fioSample mv cur => mv.length == 32 && cur.length == 32
  | .ldcTotalShed ma => ma.length == 12
  | .ftaAnswer sig => sig.length == 64
  | _ => true

/-- A well-formed command. -/
def Instr.wf (c : Instr) : Bool :=
  c.shape && (match c.req with | some r => r.wf | none => true)

end Sys2Proof
end

