-- ==== Sys2Proof/Tests/Slice0.lean ====
section
/-! SUPPORT. Tests: ill-formed commands are refused, examples of the spec, and for each statement with hypotheses a state and operands
that meet them. -/
set_option linter.all false
set_option Elab.async false
namespace Sys2Proof.Tests
open Sys2Proof Sys2Proof.Machine

/-- Every domain on after reset. -/
def on : State := State.reset.wr pgPwr R.PWR_DOM_STAT_on 0xFF

/-- Fields of pages set to values. -/
def put (s : State) : List (Nat × Fld × Nat) → State
  | [] => s
  | (i, f, v) :: l => put (s.wr i f v) l

/-- The next state of an outcome. -/
def after (o : Res) : State :=
  match o with
  | .next t => t
  | _ => State.reset

/-- The switch core running with ports 0 to 2 enabled and up. -/
def eswOn2 : State :=
  put on [(pgClk, R.CLK_GATE_esw, 1), (pgEsw, R.ESW_P_CFG_en 0, 1), (pgEsw, R.ESW_P_STAT_link 0, 1), (pgEsw, R.ESW_P_CFG_en 1, 1),
    (pgEsw, R.ESW_P_STAT_link 1, 1), (pgEsw, R.ESW_P_CFG_en 2, 1), (pgEsw, R.ESW_P_STAT_link 2, 1)]

/-- A frame of 60 bytes without FCS. -/
def ethEx : List Byte := [0, 0, 0, 0, 0, 1, 0, 0, 0, 0, 0, 2, 8, 0] ++ List.replicate 46 7

/-- Bank 9 with its link UP and a module of 1,024 remote registers. -/
def brgS : State :=
  (put on [(pgBnk 9, R.BNK_LINK_STAT_state, 6)]).modBk 9 (fun x => { x with ident := List.replicate 21 0 ++ [0x04000000] })

/-- The pool enabled, queue 40 enabled, and an item of three bytes for it at each port. -/
def poolS : State :=
  { put on [(pgQpm, R.CTRL_enable pgQpm, 1), (iQue 40, R.QPM_Q_CFG_en, 1)] with
    ports := [(0, [⟨40, [1, 2, 3], 0, 0⟩]), (1, [⟨40, [1, 2, 3], 0, 0⟩]), (2, [⟨40, [1, 2, 3], 0, 0⟩])] }

/-- Function 3 of host 0 enabled, with quotas, a step range from 0 to 99, slot 5 naming channel 37, and pair 2 enabled with one entry. -/
def hostS : State :=
  { (put on [(iFn 3, R.FNC_FN_CTRL_enable, 1), (iFn 3, R.FNC_FN_STAT_state, 1), (iFn 3, R.FNC_FN_QUOTA_qp_quota, 4),
      (iFn 3, R.FNC_FN_QUOTA_vec_quota, 4), (iFn 3, R.FNC_FN_STEP_CNT_count, 100), (pgChn 37, R.OWNER_world, 0),
      (pgChn 37, R.OWNER_function, 3), (iQue 9, R.QPM_Q_OWN_function, 3), (pgFnc, R.FNC_SEL_function, 3),
      (iFn 3, R.FNC_F_Q_SEL_qp, 2), (pgFnc, R.OWNER_world, 0)]).setQp 3 2
        { en := true, sqLog := 4, cqLog := 4, sqBase := 0x1000, cqBase := 0x2000, sqTail := 1 } with
    chMap := [(3 * 512 + 5, 38)], pcie := { vfEn := true, numVfs := 7, master := [3] } }

/-- A submission entry: opcode, target, addr, len and parameters. -/
def sqe (op tgt addr len : Nat) (p : List Nat) : List Byte :=
  toBytes 1 op ++ toBytes 1 0 ++ toBytes 2 0x11 ++ toBytes 4 tgt ++ toBytes 8 addr ++ toBytes 4 len ++ toBytes 4 0
    ++ ((List.range 10).map (fun i => toBytes 4 (p.getD i 0))).flatten

/-- The same with function 3 at session slot 1, open, and the firmware running. -/
def sesS : State :=
  { put hostS [(iFn 3, R.FNC_FN_CTRL_host, 1)] with sesOpen := [1], running := some 0 }

/-- Queue 9 bound to pair 2 of function 3, with an item of three bytes in cell 0. -/
def delS : State :=
  (({ put hostS [(pgQpm, R.CTRL_enable pgQpm, 1)] with
    queues := [(9, { items := [⟨3, [0]⟩], bind := some ⟨3, 2, 0, 16, 5, 15, 5⟩ })] } : State).store (hostS.poolBase + 4)
    [3, 0, 0, 0, 9, 9, 9])

/-- Firmware runs from bank A, which is GOOD, and the service port works. -/
def updS : State :=
  { on with running := some 0, chr := 2, boot := { stA := 4, stB := 2 } }


/-- The key store open, with the secrets 0, 5 and 7 (a child of 5) and the private key 6; Chrysalis runs its firmware. -/
def keyS : State :=
  { put on [(pgKey, R.KEY_STATE_state, 1), (pgKey, R.KEY_NEW_ATTR_attr, 0x900000CE)] with
    keys := [(0, ⟨0x900000FE, 5⟩), (5, ⟨0x900000FE, 7⟩), (6, ⟨0xA00000FE, 9⟩), (7, ⟨0x914000FE, 3⟩)], chr := 2 }

/-- A request of op `op` and payload `w` of `len` bytes in slot 0 of the mailbox. -/
def mbxS (op len : Nat) (w : List Nat) : State :=
  put keyS ([(pgMbx, R.MBX_STATE_state 0, 1), (pgMbx, mbxWord 0, op + 65536 * len), (pgMbx, mbxWord 1, 0x70000)]
    ++ (List.range w.length).map (fun i => (pgMbx, mbxWord (2 + i), w.getD i 0)))

/-- A running core 1. -/
def hartS (x : Hart) : State := on.setHart 1 { x with running := true }

/-- Cocoon 3 in state `st`, selected, with a range of two pages in system SRAM. -/
def cocS (st : Nat) : State :=
  put on [(pgSec, R.SEC_COC_SEL_cocoon, 3), (iCoc 3, R.SEC_COC_STAT_state, st), (iCoc 3, R.SEC_COC_BASE_page 0, 0x10000),
    (iCoc 3, R.SEC_COC_LIM_page 0, 0x10001), (iCoc 3, R.SEC_COC_LIM_en 0, 1)]

/-- Page 0x110 named for a hand-over, in hand-over state `ho` under world `w`. -/
def hoS (ho w : Nat) : State :=
  put on [(pgSec, R.SEC_HO_PAGE_page, pgChn 16), (pgChn 16, R.OWNER_handover, ho), (pgChn 16, R.OWNER_world, w)]

/-- Factory test access OPEN. -/
def ftaS : State := put on [(pgClk, R.CLK_GATE_dbg, 1), (pgEvr, R.EVR_FTA_state, 1)]

/-- The words before the zeros of `recOk`. -/
def recHead : List Word := [0x800001#32, 0x90007#32, 0x0#32, 0x0#32, 0x0#32, 0x0#32, 0x0#32, 0x1024#32, 0x41200000#32, 0x40a00000#32, 0x42700000#32, 0x43480000#32, 0x41000000#32, 0x41000000#32, 0x40000000#32, 0x40900000#32, 0x320064#32, 0xc8#32, 0xc80000#32, 0x20000#32]

/-- An identity record that keeps every rule of R78, with its CRC-32C. -/
def recOk : List Word := recHead ++ List.replicate 1003 0#32 ++ [0x957a0b8#32]

/-- `n` zero bytes into the CRC-32C, each register evaluated before the next. -/
def zrun : Nat → Nat → Nat
  | 0, r => r
  | n + 1, r => if crc32cShift 8 r = 0 then zrun n (crc32cShift 8 r) else zrun n (crc32cShift 8 r)

theorem zrun_foldl (n r : Nat) :
    (List.replicate n (0 : Byte)).foldl (fun r b => crc32cShift 8 (r ^^^ b.toNat)) r = zrun n r := by
  induction n generalizing r with
  | zero => rfl
  | succ n ih => rw [List.replicate_succ, List.foldl_cons, ih]; simp [zrun]

theorem rec_zero (i : Nat) (h : i < 1003) : idWord (recOk.map (·.toNat)) (20 + i) = 0 := by
  have e : recHead.length = 20 := rfl
  rw [idWord, List.getD_eq_getElem?_getD, List.getElem?_map, recOk, List.append_assoc, List.getElem?_append_right (by omega),
    List.getElem?_append_left (by rw [List.length_replicate]; omega), List.getElem?_replicate_of_lt (by omega)]
  rfl

theorem rec_bytes (r : List Nat) (h : ∀ i < 1003, idWord r (20 + i) = 0) :
    idBytes r 0 1023 = idBytes r 0 20 ++ List.replicate 4012 0 := by
  have r1 : List.range (20 + 1003) = List.range 20 ++ (List.range 1003).map (20 + ·) := List.range_add
  have r2 : (List.range 1003).map (fun i => toBytes 4 (idWord r (0 + (20 + i)))) = List.replicate 1003 (List.replicate 4 0) := by
    rw [List.eq_replicate_iff]
    refine ⟨by rw [List.length_map, List.length_range], fun b hb => ?_⟩
    obtain ⟨i, hi, rfl⟩ := List.mem_map.1 hb
    simp only [Nat.zero_add, h i (List.mem_range.1 hi)]
    rfl
  show ((List.range (20 + 1003)).map (fun i => toBytes 4 (idWord r (0 + i)))).flatten = _
  rw [r1, List.map_append, List.flatten_append, List.map_map, Function.comp_def, r2, List.flatten_replicate_replicate]
  rfl

theorem rec_crc : crc32c (idBytes (recOk.map (·.toNat)) 0 1023) = 0x957a0b8 := by
  rw [crc32c, rec_bytes _ rec_zero, List.foldl_append, zrun_foldl]
  decide +kernel
theorem rec_ok (l : Nat) (h : l = 200) : idAccepted (recOk.map (·.toNat)) l = true := by
  subst h
  have e : idCrc (recOk.map (·.toNat)) = 0x957a0b8 := by decide +kernel
  rw [idAccepted, rec_crc, e]
  decide +kernel

theorem rec_bad (l : Nat) : idAccepted [] l = false := by
  have h : idHeaderOk [] = false := by decide +kernel
  simp [idAccepted, h]

/-- Channel 147 logs on profile 2 with an open window; the link of bank 9 is UP. -/
def logS : State :=
  { (put (on.setLst 9 6) [(pgLgr, R.CTRL_enable pgLgr, 1), (iForce pgLgr, R.LGR_PROF_en 2, 1), (iForce pgLgr, R.LGR_CHMAP_en 18 3, 1),
      (iForce pgLgr, R.LGR_CHMAP_profile 18 3, 2)]).modBk 9 (fun x => { x with loaded := true }) with
    logAcc := [(147, { open_ := true, n := [3, 2, 0, 0], sum := [300, -50, 0, 0] })] }

/-- Bank 9 UP with a reload that runs. -/
def relS (id : List Nat) : State := (on.setLst 9 6).modBk 9 (fun x => { x with reload := true, ident := id })

/-- The inputs of the example of one CC update (05_channel_control.md). -/
def lawEx : LawIn :=
  { i := 1069000000, v := 6184752906, invalid := false, mode := 3, iSet := 1073741824, vSet := 0, pSet := 0, rSet := 0, iB := 0, ta := 1
    tb := 1, slew := 0, kpI := 0x4000, kiI := 0x10000, kpV := 0x20000, kiV := 0x20000, limChg := 2 ^ 33 - 1, limDis := 2 ^ 33 - 1
    vHi := 2 ^ 33 - 1, vLo := 0, trim := 2 ^ 28, ramp := 0, settle := 3, short := false }

/-- 05_channel_control.md, the example of one CC update: the word and xi. -/
theorem test_law_example :
    (law 2 lawEx { xi := 3000000 }).2 = 0x101121000 ∧ (law 2 lawEx { xi := 3000000 }).1.xi = 3296364 := by decide +kernel

/-- 06_step_programs.md, step 204 word by word: the words of its slots. -/
def stepEx : List Nat := [0x1300000CD, 0, 0xF33333333, 0, 0x20000000, 0x32000000, 0x43003231, 0xEAC0, 0x11EB851EC, 0x15752A00, 0, 0]

/-- Channel 147 armed in a step with image `img`, Looper command `x` waiting, step 204 in the step store as target and fault step, superframe 3
in work. -/
def lpS (x : LpCmd) (img : List Nat) : State :=
  { (((List.range 12).foldl (fun t n => t.setStepWord 204 n (stepEx.getD n 0))
      (put on [(pgChn 147, R.CHN_STAT_state, 2), (pgChn 147, R.CHN_LP_PEND_valid, 1), (pgChn 147, R.CHN_LP_PEND_target, 204),
        (pgChn 147, R.CHN_LP_FAULT_valid, 1), (pgChn 147, R.CHN_LP_FAULT_step, 204)])).modCh 147
      (fun z => { z with lpCmd := some x, img := img })) with k := 3, w := 3 }

/-- Channel 147 waits in gate group 5, which one channel releases; every bank has ended superframe 0. -/
def gateS : State :=
  { (List.range 32).foldl (fun t b => t.modBk b (fun x => { x with cEnd := 1 })) (put on [(pgStp, R.STP_GATE_CFG_en 5, 1),
      (pgStp, R.STP_GATE_CFG_expected 5, 1), (pgChn 147, R.CHN_LP_GATE_arrived, 1), (pgChn 147, R.CHN_LP_GATE_group, 5)]) with k := 1, w := 1 }

/-- 06_step_programs.md: step 204 passes the entry checks and condition 0 is V, LE, NEXT with qual 49. -/
theorem test_step_example : on.checkStep stepEx false = 0 ∧ imgMode stepEx = 3 ∧ imgTag stepEx = 0x20 ∧ ctlSel (condCtl stepEx 0) = 3 ∧
    ctlCmp (condCtl stepEx 0) = 1 ∧ ctlAct (condCtl stepEx 0) = 0 ∧ ctlQual (condCtl stepEx 0) = 49 ∧ ctlAct (condCtl stepEx 1) = 3 ∧
    toS 36 (imgW stepEx 2) = -3435973837 := by decide

/-- A RUN entry notice of channel 147. -/
def entEx : Entry :=
  { chan := 147, opcode := 1, mode := 3, tag := 9, code := 0, step := 204, sfc := 3, t := 12345, tPrev := 12000, role := 1 }

/-- A step-end event of channel 147 with role CHARGE. -/
def endEx : StepEnd :=
  { chan := 147, cause := 0, flags := 0, err := 0, seq := 5, sfc := 3, tEnd := 12345, sqIn := 70, sqOut := 0, seIn := 90, seOut := 0,
    role := 1, cap := {}, time := 100, ta := 0, tb := 0, mode := 3 }

/-- The pair unit enabled with the pair link in state `n`: 1 training, 2 UP. -/
def plkS (n : Nat) : State := put on [(pgPair, R.CTRL_enable pgPair, 1), (pgPair, R.PAIR_STAT_plk, n)]

/-! ### Ill-formed commands -/

theorem test_wf_session : (Instr.chnArm (.session 0 5) 3 0).wf = false ∧ (Instr.chnArm (.session 1 5) 3 0).wf = true := by decide
theorem test_wf_identity : (Instr.idreadDone 3 [1]).wf = false ∧ (Instr.idreadDone 3 []).wf = true := by decide
theorem test_wf_reload : (Instr.calReloadDone 3 [1, 2]).wf = false := by decide
theorem test_wf_sync : (Instr.pairSync .chrysalis 0 [1]).wf = false := by decide
theorem test_wf_bar2 : (Instr.bar2Read 3 3 0 0).wf = false ∧ (Instr.bar2Read 3 3 0 4).wf = true := by decide
theorem test_wf_entry : (Instr.cmdNop 3 2 [1]).wf = false ∧ (Instr.sqFetch 3 2 [] []).wf = false := by decide
theorem test_wf_submit : (Instr.sesSubmit 1 3 2 [7]).wf = false ∧ (Instr.sesSubmit 0 3 2 []).wf = false := by decide
theorem test_wf_slot : (Instr.sesKeepalive 0).wf = false ∧ (Instr.sessionLost 0).wf = false := by decide
theorem test_wf_can : (Instr.canFrameRx 1 0 0 (List.replicate 65 0)).wf = false := by decide
theorem test_wf_points : (Instr.fioSample [1] [2]).wf = false := by decide
theorem test_wf_loads : (Instr.ldcTotalShed [1]).wf = false := by decide
theorem test_wf_answer : (Instr.ftaAnswer [1]).wf = false := by decide

/-! ### Examples of the spec -/

/-- The digits 1 to 9 as bytes. -/
def digits : List Byte := [0x31, 0x32, 0x33, 0x34, 0x35, 0x36, 0x37, 0x38, 0x39]

/-- R67 and R229: the check values that the rules give. -/
theorem test_crc : digits.foldl (fun r b => crc16 r b.toNat 8) 0xFFFF = 0x29B1 ∧ crc64 digits = 0x62EC59E3F1A4F00A := by decide +kernel

/-- 04_measurement_chain.md, from bits to amperes. -/
theorem test_calibration_example :
    rawOf 1600000 200 = 2863311531 ∧ calibrate { gain := 0x40100000, off := -1200, tc := -2048 } 2863311531 2000 = 2866095867 := by decide +kernel

/-- 08_bus_ledger.md, one discharging, one charging and one clipped channel. -/
theorem test_ledger_example :
    busPower 204800000 62259 62259 6184752906 (-209715) = -13680 ∧ busPower 204800000 62259 62259 6700148982 104858 = 8211 ∧
      busPower 204800000 62259 62259 6184752906 (-109580) = -7148 := by decide +kernel

/-- An identity record with full scales of 10 A and 5 V. -/
def fsId : List Nat := (List.range 8).map (fun _ => 0) ++ [0x41200000, 0x40A00000]

/-- 09_grading_records.md, one cell's record: capacity, DCIR and self-discharge. -/
theorem test_grading_example :
    capUah fsId 200 601295421475000000 = 3888889 ∧
      dcirRes fsId 0x1000000 { n1 := 50, v1 := 50 * 6098853560, i1 := 0, n2 := 50, v2 := 50 * 6167573037, i2 := 50 * 3435973837 } true =
        (10000, 40000, 4000000, false) ∧
      ageRes { nQual := 2, ocvFrom := some (3650000, 86400 * 2 ^ 32), ocvTo := some (3645680, 604800 * 2 ^ 32) } = (0xFFFF8AD0, 518400, false) := by
  decide +kernel

/-- 22_event_recorder_returns.md, the record of a fast trip: its slot, its first bytes and its commit. -/
theorem test_record_example :
    slotAddr 0x1234 = 0x016C8D00 ∧
      (({ code := 0x10, flags := 4, source := 0x089, opTime := 0xE1080, index := 9, pwrcyc := 17, data := [0x46138000] } : EvRec).bytes 0x1234).take 20 =
        [0x34, 0x12, 0, 0, 0x10, 4, 0x89, 0, 0x10, 0x0E, 0, 0, 0x80, 0, 9, 0, 0x11, 0, 0, 0] ∧
      toBytes 4 (2 ^ 32 - 1 - 0x1234) = [0xCB, 0xED, 0xFF, 0xFF] := by decide
theorem test_StepRunsFront_1 : ∃ (c : Instr) (rest : List Instr) (s : State), s.pending = c :: rest :=
  ⟨.evrScanDone, [], { State.reset with pending := [.evrScanDone] }, rfl⟩

theorem test_StepRunsFront_2 : ∃ (s : State), s.pending = [] :=
  ⟨State.reset, rfl⟩

theorem test_StepKeepsCanonical_1 : ∃ (s : State) (t : State), s.Canonical ∧ step s = .next t :=
  ⟨State.reset, State.reset, ⟨rfl, rfl, rfl, by decide⟩, rfl⟩

theorem test_ExecFrame_1 : ∃ (c : Instr) (s : State) (t : State), exec c s = .next t :=
  ⟨.evrScanDone, State.reset, State.reset, rfl⟩

theorem test_RegisterAccess_1 : ∃ (s : State) (r : Req) (p : Fin 1024) (d : BitVec 64), s.busCause r p.val 0x014 true = none ∧ p.val ≠ pgFnc :=
  ⟨on, .chrysalis, 0x043, 0x1234#64, by decide⟩

theorem test_RegisterAccess_2 : ∃ (s : State) (r : Req) (p : Fin 1024) (off : Fin 4096) (sz : Fin 4) (d : BitVec 64) (c : Nat), s.busCause r p.val off.val true = some c ∧ (s.rd pgSys R.INT_STAT).testBit 0 = false :=
  ⟨on, .probe, 0x043, 0x20, 2, 5#64, 0, by decide⟩

theorem test_RegisterAccess_3 : ∃ (s : State) (r : Req) (p : Fin 1024) (off : Fin 4096) (sz : Fin 4) (d : BitVec 64), s.busCause r p.val off.val true = none ∧ widthOk p.val off.val sz.val = false :=
  ⟨on, .chrysalis, 0x043, 0x22, 1, 5#64, by decide⟩

theorem test_RegisterAccess_4 : ∃ (s : State) (r : Req) (p : Fin 1024) (off : Fin 4096) (d : BitVec 64) (f : Fld), s.busCause r p.val off.val true = none ∧ p.val ≠ pgFnc ∧ 0x020 ≤ off.val ∧ widthOk p.val off.val 2 = true ∧ widePart p.val off.val = some (f, 0) ∧ f.w = 36 :=
  ⟨on, .chrysalis, 0x043, 0x40, 5#64, R.TRP_VBUS_HI_value, by decide⟩

theorem test_RegisterAccess_5 : ∃ (s : State) (r : Req) (p : Fin 1024) (off : Fin 4096) (d : BitVec 64) (f : Fld) (v : Nat), s.busCause r p.val off.val true = none ∧ p.val ≠ pgFnc ∧ 0x020 ≤ off.val ∧ widthOk p.val off.val 2 = true ∧ widePart p.val off.val = some (f, 1) ∧ f.w = 36 ∧ f.acc = .rw ∧ s.fldLocked p.val f = false ∧ shadowOff p.val f.off = false ∧ s.half.get 0 (perReq r p.val f.off) = v ∧ v < 2 ^ 32 :=
  ⟨{ on with half := [(perReq .chrysalis 0x043 0x40, 7)] }, .chrysalis, 0x043, 0x44, 5#64, R.TRP_VBUS_HI_value, 7, by decide⟩

theorem test_RegisterAccess_6 : ∃ (s : State) (r : Req) (p : Fin 1024) (off : Fin 4096) (f : Fld), s.busCause r p.val off.val false = none ∧ p.val ≠ pgFnc ∧ p.val ≠ pgBrg ∧ p.val ≠ pgPtp ∧ 0x020 ≤ off.val ∧ widthOk p.val off.val 2 = true ∧ widePart p.val off.val = some (f, 0) ∧ widePart p.val (off.val + 4) = some (f, 1) ∧ snapHeld p.val off.val = false ∧ snapRange p.val off.val = [off.val + 4] ∧ s.viewWord r p.val off.val = none ∧ s.viewWord r p.val (off.val + 4) = none :=
  ⟨on, .chrysalis, 0x043, 0x40, R.TRP_VBUS_HI_value, by decide⟩

theorem test_RegisterAccess_7 : ∃ (s : State) (r : Req) (p : Fin 1024) (off : Fin 4096) (f : Fld) (n : Nat), s.busCause r p.val off.val false = none ∧ p.val ≠ pgFnc ∧ p.val ≠ pgBrg ∧ p.val ≠ pgPtp ∧ 0x020 ≤ off.val ∧ widthOk p.val off.val 2 = true ∧ widePart p.val off.val = some (f, n) ∧ n ≠ 0 :=
  ⟨{ on with snap := [(perReq .chrysalis 0x043 0x44, 2)] }, .chrysalis, 0x043, 0x44, R.TRP_VBUS_HI_value, 1, by decide⟩

theorem test_RegisterAccess_8 : ∃ (s : State) (r : Req) (p : Fin 1024) (off : Fin 4096) (f : Fld), s.busCause r p.val off.val false = none ∧ p.val ≠ pgFnc ∧ p.val ≠ pgBrg ∧ p.val ≠ pgPtp ∧ 0x020 ≤ off.val ∧ widthOk p.val off.val 2 = true ∧ widePart p.val off.val = none ∧ snapHeld p.val off.val = false ∧ s.viewWord r p.val off.val = none ∧ fieldsAt (rowsOf p.val) off.val = [f] ∧ f.acc = .rsc ∧ f.lo = 0 :=
  ⟨put on [(0x043, R.TRP_DISAGREE_count, 5)], .chrysalis, 0x043, 0x70, R.TRP_DISAGREE_count, by decide⟩

theorem test_RegisterAccess_9 : ∃ (s : State) (r : Req) (a : Fin 1572864) (d : BitVec 64), s.stepCause r a.val 3 = none ∧ slotOk (a.val % 96 / 8) d.toNat = true :=
  ⟨on, .chrysalis, 0x177728, 5#64, by decide⟩

theorem test_RegisterAccess_10 : ∃ (s : State) (r : Req) (a : Fin 1572864) (d : BitVec 64), s.stepCause r a.val 3 = none ∧ slotOk (a.val % 96 / 8) d.toNat = false :=
  ⟨on, .chrysalis, 0x177728, 0x1000000000#64, by decide⟩

theorem test_RegisterAccess_11 : ∃ (s : State) (r : Req) (a : Fin 1572864) (d : BitVec 64), s.stepCause r a.val 2 = none ∧ a.val % 8 = 0 :=
  ⟨on, .chrysalis, 0x177728, 5#64, by decide⟩

theorem test_RegisterAccess_12 : ∃ (s : State) (r : Req) (a : Fin 1572864) (d : BitVec 64) (v : Nat), s.stepCause r a.val 2 = none ∧ a.val % 8 = 4 ∧ s.half.get 0 (stepHalf r a.val) + d.toNat % 2 ^ 32 * 2 ^ 32 = v ∧ slotOk (a.val % 96 / 8) v = true :=
  ⟨{ on with half := [(stepHalf .chrysalis 0x17772C, 7)] }, .chrysalis, 0x17772C, 5#64, 0x500000007, by decide⟩

theorem test_RegisterAccess_13 : ∃ (s : State) (r : Req) (a : Fin 1572864) (sz : Fin 4), s.stepCause r a.val sz.val = none :=
  ⟨on.setStepWord 1000 5 77, .chrysalis, 0x177728, 2, by decide⟩

theorem test_RegisterAccess_14 : ∃ (s : State) (r : Req) (a : Fin 1572864) (sz : Fin 4) (c : Nat), s.stepCause r a.val sz.val = some c :=
  ⟨on, .fn 3, 0x177728, 2, 1, by decide⟩

theorem test_HeaderAndSupply_1 : ∃ (s : State) (r : Req) (p : Fin 1024) (d : Word), Accepts s r p.val 0x008 ∧ s.locked p.val = false :=
  ⟨on, .chrysalis, 0x043, 0#32, by decide⟩

theorem test_HeaderAndSupply_2 : ∃ (s : State) (r : Req) (p : Fin 1024) (d : Word), Accepts s r p.val 0x008 ∧ s.locked p.val = true :=
  ⟨put on [(0x043, R.CTRL_lock, 1)], .chrysalis, 0x043, 0#32, by decide⟩

theorem test_HeaderAndSupply_3 : ∃ (s : State), s.rd pgTrp R.STAT_reset_busy = 1 :=
  ⟨put on [(pgTrp, R.STAT_reset_busy, 1), (pgTrp, R.TRP_CFG_hold_sf, 9), (pgTrp, R.INT_EN, 9)], by decide⟩

theorem test_HeaderAndSupply_4 : ∃ (s : State) (r : Req) (p : Fin 1024) (d : Word), Accepts s r p.val 0x008 ∧ s.locked p.val = false ∧ d.toNat.testBit 1 = false :=
  ⟨on, .chrysalis, 0x043, 0#32, by decide⟩

theorem test_HeaderAndSupply_5 : ∃ (s : State) (r : Req) (p : Fin 1024) (d : Word), Accepts s r p.val 0x018 :=
  ⟨on, .chrysalis, 0x043, 0x11#32, by decide⟩

theorem test_HeaderAndSupply_6 : ∃ (s : State) (r : Req) (k : Fin 3) (off : Fin 4096) (w : Bool), s.accCause r (0x030 + k.val) off.val w = none :=
  ⟨on, .chrysalis, 0, 0x20, true, by decide⟩

theorem test_HeaderAndSupply_7 : ∃ (s : State) (l : Fin 3), s.lenAllowed (lenOfCode l.val) = true :=
  ⟨on, 2, by decide⟩

theorem test_HeaderAndSupply_8 : ∃ (s : State) (l : Fin 3), s.anyArmed = true :=
  ⟨on.setCst 7 2, 2, by decide⟩

theorem test_HeaderAndSupply_9 : ∃ (s : State), True :=
  ⟨{ on with mem := [(5, 1), (0x800000004, 2)] }, by decide⟩

theorem test_HeaderAndSupply_10 : ∃ (s : State) (b : Fin 32), s.domOn (domOfBank b.val) = true ∧ s.linkUp b.val = true ∧ (s.bk b.val).lost = 0 :=
  ⟨on.setLst 9 6, 9, by decide +kernel⟩

theorem test_HeaderAndSupply_11 : ∃ (s : State) (k : Fin 5), (k = 1 ∨ k = 4) :=
  ⟨hostS, 1, by decide⟩

theorem test_LinkFrames_1 : ∃ (s : State) (b : Fin 32) (sync : Fin 4) (side : Fin 4) (bits : BitVec 36), s.domOn (domOfBank b.val) = true ∧ normalSt (s.lst b.val) = true ∧ (s.bk b.val).upj < s.len :=
  ⟨on.setLst 9 6, 9, 1, 2, 5#36, by decide⟩

theorem test_LinkFrames_2 : ∃ (s : State) (b : Fin 32) (sync : Fin 4) (side : Fin 4) (bits : BitVec 36), normalSt (s.lst b.val) = false :=
  ⟨on.setLst 9 1, 9, 1, 2, 5#36, by decide⟩

theorem test_LinkFrames_3 : ∃ (s : State) (b : Fin 32) (sync : Fin 4) (side : Fin 4) (bits : BitVec 36), s.domOn (domOfBank b.val) = true ∧ s.linkUp b.val = true ∧ (s.bk b.val).upj < s.len ∧ 1 ≤ (s.bk b.val).upj ∧ sync.val ≠ 2 ∧ (s.bk b.val).wrong = 1 ∧ (s.bk b.val).lost = 0 ∧ s.rd (pgBnk b.val) R.BNK_LINK_STAT_gap_open = 0 :=
  ⟨(on.setLst 9 6).modBk 9 (fun x => { x with upj := 5, wrong := 1 }), 9, 1, 2, 5#36, by decide⟩

theorem test_LinkFrames_4 : ∃ (s : State) (b : Fin 32) (sync : Fin 4) (side : Fin 4) (bits : BitVec 36) (c : Nat), s.domOn (domOfBank b.val) = true ∧ s.linkUp b.val = true ∧ 7 < s.len ∧ (s.bk b.val).upj = 7 ∧ sync.val = 2 ∧ (s.bk b.val).wrong = 0 ∧ (s.bk b.val).crcPrev = some c ∧ ((s.bk b.val).side * 4 + side.val) % 2 ^ 16 ≠ c :=
  ⟨(on.setLst 9 6).modBk 9 (fun x => { x with upj := 7, crcPrev := some 5 }), 9, 2, 2, 5#36, 5, by decide⟩

theorem test_LinkFrames_5 : ∃ (s : State) (b : Fin 32) (sync : Fin 4) (side : Fin 4) (bits : BitVec 36) (c : Nat), s.domOn (domOfBank b.val) = true ∧ s.linkUp b.val = true ∧ 7 < s.len ∧ (s.bk b.val).upj = 7 ∧ sync.val = 2 ∧ (s.bk b.val).wrong = 0 ∧ (s.bk b.val).crcPrev = some c ∧ ((s.bk b.val).side * 4 + side.val) % 2 ^ 16 = c :=
  ⟨(on.setLst 9 6).modBk 9 (fun x => { x with upj := 7, crcPrev := some 2 }), 9, 2, 2, 5#36, 2, by decide⟩

theorem test_LinkFrames_6 : ∃ (s : State) (b : Fin 32) (sync : Fin 4) (side : Fin 4) (bits : BitVec 36), s.domOn (domOfBank b.val) = true ∧ s.linkUp b.val = true ∧ 23 < s.len ∧ (s.bk b.val).upj = 23 ∧ sync.val = 2 ∧ (s.bk b.val).wrong = 0 :=
  ⟨(on.setLst 9 6).modBk 9 (fun x => { x with upj := 23, side := 0x10000000 }), 9, 2, 2, 5#36, by decide⟩

theorem test_LinkFrames_7 : ∃ (s : State) (b : Fin 32), s.domOn (domOfBank b.val) = true ∧ s.linkUp b.val = true ∧ (s.bk b.val).dlj < 17 :=
  ⟨(on.setLst 9 6).modBk 9 (fun x => { x with dlj := 1, slots := [1, 2, 3] }), 9, by decide⟩

theorem test_LinkFrames_8 : ∃ (s : State) (b : Fin 32), s.domOn (domOfBank b.val) = true ∧ s.linkUp b.val = true ∧ (s.bk b.val).dlj = 25 ∧ s.role b.val = 0 :=
  ⟨(on.setLst 9 6).modBk 9 (fun x => { x with dlj := 25 }), 9, by decide⟩

theorem test_LinkFrames_9 : ∃ (s : State) (b : Fin 32), s.domOn (domOfBank b.val) = true ∧ (s.lst b.val = 1 ∨ s.lst b.val = 2) :=
  ⟨on.setLst 9 1, 9, by decide⟩

theorem test_LinkFrames_10 : ∃ (s : State) (b : Fin 32), s.domOn (domOfBank b.val) = true ∧ s.lst b.val = 3 ∧ (s.bk b.val).train < 2 ^ 24 :=
  ⟨(on.setLst 9 3).modBk 9 (fun x => { x with train := 7 }), 9, by decide⟩

theorem test_LinkFrames_11 : ∃ (s : State) (b : Fin 32), (s.lst b.val = 0 ∨ s.lst b.val = 10) :=
  ⟨on, 9, by decide⟩

theorem test_LinkFrames_12 : ∃ (s : State) (b : Fin 32), s.domOn (domOfBank b.val) = true ∧ s.linkUp b.val = true ∧ (s.bk b.val).lost < 2 ∧ s.rd (pgBnk b.val) R.BNK_LINK_STAT_gap_open = 0 :=
  ⟨on.setLst 9 6, 9, by decide⟩

theorem test_LinkUp_1 : ∃ (s : State) (r : Req) (b : Fin 32) (d : Word), Accepts s r (pgBnk b.val) 0x040 ∧ (s.lst b.val = 0 ∨ s.lst b.val = 10) ∧ d.toNat.testBit 0 = true ∧ d.toNat.testBit 3 = false :=
  ⟨on, .chrysalis, 9, 3#32, by decide⟩

theorem test_LinkUp_2 : ∃ (s : State) (r : Req) (b : Fin 32) (d : Word), Accepts s r (pgBnk b.val) 0x040 ∧ d.toNat.testBit 0 = false :=
  ⟨on.setLst 9 6, .chrysalis, 9, 2#32, by decide⟩

theorem test_LinkUp_3 : ∃ (s : State) (r : Req) (b : Fin 32) (d : Word), Accepts s r (pgBnk b.val) 0x040 ∧ s.linkUp b.val = true ∧ s.bankArmed b.val = false ∧ d.toNat % 8 = 1 :=
  ⟨on.setLst 9 6, .chrysalis, 9, 1#32, by decide⟩

theorem test_LinkUp_4 : ∃ (s : State) (r : Req) (b : Fin 32) (d : Word), Accepts s r (pgBnk b.val) 0x040 ∧ s.linkUp b.val = true ∧ s.bankArmed b.val = true ∧ d.toNat % 8 = 1 :=
  ⟨(on.setLst 9 6).setCst 147 2, .chrysalis, 9, 1#32, by decide⟩

theorem test_LinkUp_5 : ∃ (s : State) (r : Req) (b : Fin 32) (d : Word), Accepts s r (pgBnk b.val) 0x040 ∧ s.lst b.val = 9 ∧ d.toNat % 16 = 1 :=
  ⟨(put (on.setLst 9 9) [(pgBnk 9, R.BNK_LINK_STAT_gap_open, 1)]).modBk 9 (fun x => { x with newId := [1, 2, 3] }), .chrysalis, 9, 1#32, by decide⟩

theorem test_LinkUp_6 : ∃ (s : State) (r : Req) (b : Fin 32) (d : Word), Accepts s r (pgBnk b.val) 0x040 ∧ s.lst b.val = 9 ∧ d.toNat % 16 = 1 ∧ d.toNat.testBit 6 = false ∧ (∀ c ∈ chansOf b.val, s.rd (pgChn c) R.CHN_CFG_src = 1) :=
  ⟨put ((on.setLst 9 9).setCst 147 2) ((chansOf 9).map (fun c => (pgChn c, R.CHN_CFG_src, 1))), .chrysalis, 9, 1#32, by decide +kernel⟩

theorem test_LinkUp_7 : ∃ (s : State) (b : Fin 32), s.lst b.val = 1 :=
  ⟨on.setLst 9 1, 9, by decide⟩

theorem test_LinkUp_8 : ∃ (s : State) (b : Fin 32), s.lst b.val = 2 :=
  ⟨on.setLst 9 2, 9, by decide⟩

theorem test_LinkUp_9 : ∃ (s : State) (b : Fin 32) (x : Fin 65536), s.lst b.val = 3 ∧ 40 ≤ x.val ∧ x.val ≤ 320 :=
  ⟨on.setLst 9 3, 9, 100, by decide⟩

theorem test_LinkUp_10 : ∃ (s : State) (b : Fin 32) (x : Fin 65536), (x.val < 40 ∨ 320 < x.val) :=
  ⟨on.setLst 9 3, 9, 30, by decide⟩

theorem test_LinkUp_11 : ∃ (s : State) (b : Fin 32), s.lst b.val = 4 :=
  ⟨on.setLst 9 4, 9, by decide⟩

theorem test_LinkUp_12 : ∃ (s : State) (b : Fin 32) (rec : List Word) (r : List Nat), s.lst b.val = 5 ∧ (s.bk b.val).reads.length ≠ 1024 ∧ rec.map (·.toNat) = r ∧ idAccepted r s.len = true ∧ ((s.bk b.val).ident = [] ∨ idTuple (s.bk b.val).ident = idTuple r) :=
  ⟨on.setLst 9 5, 9, recOk, recOk.map (·.toNat), by decide, by decide, rfl, (by refine rec_ok _ ?_; decide), .inl rfl⟩

theorem test_LinkUp_13 : ∃ (s : State) (b : Fin 32) (rec : List Word) (r : List Nat), s.lst b.val = 5 ∧ (s.bk b.val).reads.length ≠ 1024 ∧ rec.map (·.toNat) = r ∧ idAccepted r s.len = false :=
  ⟨on.setLst 9 5, 9, [], [], by decide, by decide, rfl, rec_bad _⟩

theorem test_LinkUp_14 : ∃ (s : State) (b : Fin 32) (rec : List Word) (r : List Nat), s.lst b.val = 5 ∧ (s.bk b.val).reads.length ≠ 1024 ∧ rec.map (·.toNat) = r ∧ idAccepted r s.len = true ∧ (s.bk b.val).ident ≠ [] ∧ idTuple (s.bk b.val).ident ≠ idTuple r :=
  ⟨(on.setLst 9 5).modBk 9 (fun x => { x with ident := [5] }), 9, recOk, recOk.map (·.toNat), by decide, by decide, rfl, (by refine rec_ok _ ?_; decide), by decide, by decide +kernel⟩

theorem test_LinkUp_15 : ∃ (s : State) (b : Fin 32) (n : Fin 9), n.val ≠ 0 ∧ s.lst b.val = stepSt n.val :=
  ⟨on.setLst 9 4, 9, 5, by decide⟩

theorem test_LinkUp_16 : ∃ (s : State) (b : Fin 32), s.lst b.val = 10 ∧ s.rd (pgBnk b.val) R.BNK_LINK_CTRL_auto = 1 :=
  ⟨put (on.setLst 9 10) [(pgBnk 9, R.BNK_LINK_CTRL_auto, 1)], 9, by decide⟩

theorem test_LinkUp_17 : ∃ (s : State) (b : Fin 32), s.lst b.val = 10 ∧ s.rd (pgBnk b.val) R.BNK_LINK_CTRL_auto = 0 :=
  ⟨on.setLst 9 10, 9, by decide⟩

theorem test_CalibrationSets_1 : ∃ (s : State) (r : Req) (b : Fin 32) (n : Fin 3) (d : Word) (k : Nat), Accepts s r (pgBnk b.val) (0x090 + 4 * n.val) ∧ s.rd (pgBnk b.val) R.BNK_CAL_SEL_stream = k ∧ k < 36 :=
  ⟨put on [(pgBnk 9, R.BNK_CAL_SEL_stream, 3)], .chrysalis, 9, 1, 0xFFFFFB50#32, 3, by decide⟩

theorem test_CalibrationSets_2 : ∃ (s : State) (r : Req) (b : Fin 32) (n : Fin 3) (d : Word), Accepts s r (pgBnk b.val) (0x090 + 4 * n.val) ∧ 36 ≤ s.rd (pgBnk b.val) R.BNK_CAL_SEL_stream :=
  ⟨put on [(pgBnk 9, R.BNK_CAL_SEL_stream, 36)], .chrysalis, 9, 1, 5#32, by decide⟩

theorem test_CalibrationSets_3 : ∃ (s : State) (r : Req) (b : Fin 32) (d : Word), Accepts s r (pgBnk b.val) 0x08C ∧ d.toNat / 2 ^ 29 % 4 = 0 :=
  ⟨on, .chrysalis, 9, 0x10000123#32, by decide⟩

theorem test_CalibrationSets_4 : ∃ (s : State) (r : Req) (b : Fin 32) (d : Word), Accepts s r (pgBnk b.val) 0x08C ∧ d.toNat / 2 ^ 29 % 4 ≠ 0 :=
  ⟨on, .chrysalis, 9, 0x20000123#32, by decide⟩

theorem test_CalibrationSets_5 : ∃ (s : State) (b : Fin 32) (x : Due), (s.bk b.val).commit = some x ∧ x.now s.w = true :=
  ⟨on.modBk 9 (fun x => { x with commit := some {}, calDirty := 8, calSh := [(3, { gain := 7 })] }), 9, {}, by decide⟩

theorem test_CalibrationSets_6 : ∃ (s : State) (b : Fin 32) (x : Due), (s.bk b.val).commit = some x ∧ x.now s.w = false :=
  ⟨on.modBk 9 (fun x => { x with commit := some { frm := 5 }, calDirty := 8 }), 9, { frm := 5 }, by decide⟩

theorem test_CalibrationSets_7 : ∃ (s : State) (r : Req) (b : Fin 32) (d : Word), Accepts s r (pgBnk b.val) 0x08C ∧ d.toNat / 2 ^ 30 = 0 :=
  ⟨on.modBk 9 (fun x => { x with commit := some {}, calDirty := 8, calSh := [(3, { gain := 7 })] }), .chrysalis, 9, 0#32, by decide⟩

theorem test_CalibrationSets_8 : ∃ (s : State) (r : Req) (b : Fin 32) (d : Word), Accepts s r (pgBnk b.val) 0x08C ∧ d.toNat / 2 ^ 31 = 0 ∧ d.toNat / 2 ^ 29 % 2 = 0 ∧ s.linkUp b.val = true ∧ (s.bk b.val).reload = false :=
  ⟨on.setLst 9 6, .chrysalis, 9, 0#32, by decide⟩

theorem test_CalibrationSets_9 : ∃ (s : State) (r : Req) (b : Fin 32) (d : Word), Accepts s r (pgBnk b.val) 0x08C ∧ d.toNat / 2 ^ 31 = 0 ∧ d.toNat / 2 ^ 29 % 2 = 0 ∧ s.linkUp b.val = false ∧ (s.bk b.val).reload = false :=
  ⟨on, .chrysalis, 9, 0#32, by decide⟩

theorem test_CalibrationSets_10 : ∃ (s : State) (b : Fin 32) (rec : List Word) (r : List Nat), (s.bk b.val).reload = true ∧ (s.bk b.val).reloadIn = [] ∧ (s.bk b.val).reads.length ≠ 1024 ∧ rec.map (·.toNat) = r ∧ idAccepted r s.len = true ∧ idTuple (s.bk b.val).ident = idTuple r :=
  ⟨relS (recOk.map (·.toNat)), 9, recOk, recOk.map (·.toNat), by decide, by decide, by decide, rfl, (by refine rec_ok _ ?_; decide), rfl⟩

theorem test_CalibrationSets_11 : ∃ (s : State) (b : Fin 32) (rec : List Word) (r : List Nat), (s.bk b.val).reload = true ∧ (s.bk b.val).reloadIn = [] ∧ (s.bk b.val).reads.length ≠ 1024 ∧ rec.map (·.toNat) = r ∧ idAccepted r s.len = false :=
  ⟨relS [], 9, [], [], by decide, by decide, by decide, rfl, rec_bad _⟩

theorem test_CalibrationSets_12 : ∃ (s : State) (b : Fin 32) (rec : List Word) (r : List Nat), (s.bk b.val).reload = true ∧ (s.bk b.val).reloadIn = [] ∧ (s.bk b.val).reads.length ≠ 1024 ∧ rec.map (·.toNat) = r ∧ idAccepted r s.len = true ∧ idTuple (s.bk b.val).ident ≠ idTuple r :=
  ⟨relS [5], 9, recOk, recOk.map (·.toNat), by decide, by decide, by decide, rfl, (by refine rec_ok _ ?_; decide), by decide +kernel⟩

theorem test_SamplesAndLogging_1 : ∃ (s : State) (r : Req) (b : Fin 32) (d : Word), Accepts s r (pgBnk b.val) 0x0D0 :=
  ⟨on, .chrysalis, 9, 0x302#32, by decide⟩

theorem test_SamplesAndLogging_3 : ∃ (l : Nat) (y : Int) (z : Int), 0 < l ∧ y ≤ z :=
  ⟨200, 5, 6, by decide⟩

theorem test_SamplesAndLogging_4 : ∃ (d : Dec) (m : List Bool), m.length = 15 :=
  ⟨{}, List.replicate 15 true, by decide⟩

theorem test_SamplesAndLogging_5 : ∃ (s : State) (n : Fin 8) (b : Fin 32) (c : Nat), b.val ∈ s.liveBanks ∧ c ∈ chansOf b.val ∧ s.logProf c = some n.val ∧ (s.logAcc.get {} c).open_ = true ∧ (s.bk b.val).loaded = true :=
  ⟨logS, 2, 9, 147, by decide +kernel⟩

theorem test_SamplesAndLogging_6 : ∃ (s : State) (n : Fin 8) (c : Nat), c < 512 ∧ s.logProf c ≠ some n.val :=
  ⟨logS, 3, 147, by decide +kernel⟩

theorem test_SamplesAndLogging_7 : ∃ (s : State) (r : Req) (w : Fin 8) (d : Word), Accepts s r pgLgr (0x040 + 4 * w.val) :=
  ⟨on, .chrysalis, 2, 0x80001005#32, by decide⟩

theorem test_TimeBase_1 : ∃ (s : State), s.domOn 0 = true ∧ s.lenNew = none :=
  ⟨put State.reset [(pgPwr, R.PWR_DOM_STAT_on, 5)], by decide⟩

theorem test_TimeBase_2 : ∃ (s : State), s.domOn 0 = false :=
  ⟨put State.reset [(pgPwr, R.PWR_DOM_STAT_on, 0)], by decide⟩

theorem test_TimeBase_3 : ∃ (s : State) (b : Nat) (i : Nat), s.domOn 0 = true ∧ b ∈ s.liveBanks ∧ i < 16 ∧ s.linkUp b = true ∧ s.role b ≠ 4 ∧ s.plk.change = [] ∧ (s.bk b).lost = 0 ∧ (s.bk b).upj = s.len ∧ (s.bk b).gapEnd = false ∧ (s.bk b).offAt ≠ some (s.k + 1) ∧ 1 ≤ s.k ∧ s.causeAt b (s.k - 1) = false ∧ s.k - 1 < s.led :=
  ⟨{ (on.setLst 9 6).modBk 9 (fun x => { x with upj := 200 }) with k := 2, led := 2 }, 9, 3, by decide⟩

theorem test_TimeBase_4 : ∃ (s : State) (b : Nat) (i : Nat), s.domOn 0 = true ∧ b ∈ s.liveBanks ∧ i < 16 ∧ s.linkUp b = true ∧ s.role b ≠ 4 ∧ s.plk.change = [] ∧ (s.bk b).lost = 0 ∧ (s.bk b).upj = s.len ∧ (s.bk b).gapEnd = false ∧ (s.bk b).offAt ≠ some (s.k + 1) ∧ 1 ≤ s.k ∧ (s.causeAt b (s.k - 1) = true ∨ s.led ≤ s.k - 1) :=
  ⟨{ (on.setLst 9 6).modBk 9 (fun x => { x with upj := 200 }) with k := 2, led := 1 }, 9, 3, by decide⟩

theorem test_TimeBase_5 : ∃ (s : State) (b : Nat) (i : Nat), s.domOn 0 = true ∧ b ∈ s.liveBanks ∧ i < 16 ∧ (s.linkUp b = false ∨ (s.bk b).offAt = some (s.k + 1)) :=
  ⟨on, 9, 3, by decide⟩

theorem test_TimeBase_6 : ∃ (s : State) (b : Fin 32) (slack : Fin 256), s.domOn (domOfBank b.val) = true ∧ (s.bk b.val).cEnd < s.w ∧ s.w ≤ s.tally + 1 ∧ (s.bk b.val).lateAt ≠ some (s.w - 1) :=
  ⟨{ on with k := 3, w := 3, tally := 2 }, 9, 77, by decide⟩

theorem test_TimeBase_7 : ∃ (s : State) (b : Fin 32) (slack : Fin 256), s.domOn (domOfBank b.val) = true ∧ (s.bk b.val).cEnd < s.w ∧ s.w ≤ s.tally + 1 ∧ (s.bk b.val).lateAt = some (s.w - 1) :=
  ⟨{ on.modBk 9 (fun x => { x with lateAt := some 2 }) with k := 3, w := 3, tally := 2 }, 9, 77, by decide⟩

theorem test_TimeBase_8 : ∃ (s : State) (b : Fin 32) (slack : Fin 256), (s.w ≤ (s.bk b.val).cEnd ∨ s.tally + 1 < s.w) :=
  ⟨{ on with k := 3, w := 3, tally := 1 }, 9, 77, by decide⟩

theorem test_TimeBase_9 : ∃ (s : State) (b : Fin 32), s.domOn (domOfBank b.val) = true ∧ (s.bk b.val).cEnd < s.k ∧ (s.bk b.val).lateAt ≠ some (s.k - 1) :=
  ⟨{ on with k := 3, w := 3 }, 9, by decide⟩

theorem test_TimeBase_10 : ∃ (s : State) (b : Fin 32), s.domOn (domOfBank b.val) = true ∧ (s.bk b.val).cEnd < s.k ∧ 2 ≤ s.k ∧ (s.bk b.val).lateAt = some (s.k - 2) ∧ (s.bk b.val).offAt ≠ some (s.k + 1) ∧ s.tripSt b.val = 0 :=
  ⟨{ on.modBk 9 (fun x => { x with lateAt := some 1 }) with k := 3, w := 3 }, 9, by decide⟩

theorem test_TimeBase_11 : ∃ (s : State) (b : Fin 32), s.k ≤ (s.bk b.val).cEnd :=
  ⟨{ on with k := 0 }, 9, by decide⟩

theorem test_TimeBase_12 : ∃ (s : State), s.led < s.cEnded ∧ s.liveBanks ≠ [] :=
  ⟨{ (List.range 32).foldl (fun t b => t.modBk b (fun x => { x with cEnd := 3 })) on with k := 3, w := 3, led := 2 }, by decide +kernel⟩

theorem test_TimeBase_13 : ∃ (s : State), s.cEnded ≤ s.led :=
  ⟨on, by decide⟩

theorem test_TimeBase_14 : ∃ (s : State), 2 ≤ s.k ∧ s.led ≤ s.k - 2 ∧ s.missAt ≠ some (s.k - 2) ∧ s.liveBanks ≠ [] :=
  ⟨{ on with k := 3, w := 3, led := 1 }, by decide⟩

theorem test_TimeBase_15 : ∃ (s : State), (s.k < 2 ∨ s.k - 2 < s.led) :=
  ⟨on, by decide⟩

theorem test_ChannelCommands_1 : ∃ (s : State) (r : Req) (c : Fin 512) (d : Word), Accepts s r (pgChn c.val) 0x028 ∧ d.toNat / 2 ^ 27 % 16 = 0 ∧ s.rd (pgChn c.val) (R.CTRL_enable (pgChn c.val)) = 1 ∧ s.linkUp (bankOf c.val) = true ∧ s.cst c.val ≠ 3 ∧ s.tripSt (bankOf c.val) = 0 ∧ ((s.shadow (pgChn c.val) R.CHN_CFG_src = 0 ∧ s.rd (pgChn c.val) R.CHN_LP_PTR_valid = 1) ∨ (s.shadow (pgChn c.val) R.CHN_CFG_src = 1 ∧ s.shadow (pgChn c.val) R.CHN_CFG_dmode ≤ 8)) :=
  ⟨(put on [(pgChn 147, R.CTRL_enable (pgChn 147), 1), (pgChn 147, R.CHN_LP_PTR_valid, 1)]).setLst 9 6, .chrysalis, 147, 0x01000005#32, by decide⟩

theorem test_ChannelCommands_2 : ∃ (s : State) (r : Req) (c : Fin 512) (d : Word), Accepts s r (pgChn c.val) 0x028 ∧ d.toNat / 2 ^ 27 % 16 = 0 :=
  ⟨put on [(pgChn 147, R.CTRL_enable (pgChn 147), 1)], .chrysalis, 147, 0x01000005#32, by decide⟩

theorem test_ChannelCommands_3 : ∃ (s : State) (r : Req) (c : Fin 512) (d : Word), Accepts s r (pgChn c.val) 0x028 ∧ d.toNat / 2 ^ 27 % 16 ≠ 0 :=
  ⟨on, .chrysalis, 147, 0x40000000#32, by decide⟩

theorem test_ChannelCommands_4 : ∃ (s : State) (r : Req) (c : Fin 512) (d : Word), Accepts s r (pgChn c.val) 0x028 ∧ d.toNat / 2 ^ 27 % 8 = 0 ∧ d.toNat / 2 ^ 31 = 0 :=
  ⟨on, .chrysalis, 147, 0x01000005#32, by decide⟩

theorem test_ChannelCommands_5 : ∃ (s : State) (r : Req) (c : Fin 512) (d : Word), Accepts s r (pgChn c.val) 0x028 ∧ d.toNat / 2 ^ 30 = 0 ∧ d.toNat / 2 ^ 27 % 4 = 0 ∧ (s.shadow (pgChn c.val) R.CHN_CFG_src = 0 ∨ s.shadow (pgChn c.val) R.CHN_CFG_dmode ≤ 8) :=
  ⟨on, .chrysalis, 147, 0x01000005#32, by decide⟩

theorem test_ChannelCommands_6 : ∃ (s : State) (r : Req) (c : Fin 512) (d : Word), Accepts s r (pgChn c.val) 0x028 ∧ d.toNat / 2 ^ 29 = 0 ∧ d.toNat / 2 ^ 27 % 2 = 0 :=
  ⟨on, .chrysalis, 147, 0x01000005#32, by decide⟩

theorem test_ChannelCommands_7 : ∃ (s : State) (r : Req) (c : Fin 512) (d : Word), Accepts s r (pgChn c.val) 0x028 ∧ d.toNat / 2 ^ 28 = 0 :=
  ⟨(put on [(pgChn 147, R.CHN_CFG_src, 0)]).wrShadow (pgChn 147) R.CHN_CFG_src 1, .chrysalis, 147, 0#32, by decide⟩

theorem test_ChannelCommands_8 : ∃ (s : State) (c : Fin 512) (x : Due), (s.ch c.val).cmd = some ⟨0, x⟩ ∧ x.now s.w = true ∧ s.cst c.val = 1 ∧ s.tripSt (bankOf c.val) = 0 ∧ s.rd (pgChn c.val) (R.CTRL_enable (pgChn c.val)) = 1 ∧ s.linkUp (bankOf c.val) = true ∧ s.shadow (pgChn c.val) R.CHN_CFG_src = 1 ∧ s.shadow (pgChn c.val) R.CHN_CFG_dmode ≤ 8 ∧ s.fields.wf = true :=
  ⟨(((put on [(pgChn 147, R.CTRL_enable (pgChn 147), 1), (pgChn 147, R.CHN_STAT_state, 1)]).wrShadow (pgChn 147) R.CHN_CFG_src 1).setLst 9 6).modCh 147 (fun x => { x with cmd := some ⟨0, {}⟩ }), 147, {}, by decide⟩

theorem test_ChannelCommands_9 : ∃ (s : State) (c : Fin 512) (x : Due), (s.ch c.val).cmd = some ⟨0, x⟩ ∧ x.now s.w = true ∧ s.cst c.val = 1 ∧ s.rd (pgChn c.val) (R.CTRL_enable (pgChn c.val)) = 1 ∧ s.linkUp (bankOf c.val) = false :=
  ⟨(put on [(pgChn 147, R.CTRL_enable (pgChn 147), 1), (pgChn 147, R.CHN_STAT_state, 1)]).modCh 147 (fun x => { x with cmd := some ⟨0, {}⟩ }), 147, {}, by decide⟩

theorem test_ChannelCommands_10 : ∃ (s : State) (c : Fin 512) (x : Due), (s.ch c.val).cmd = some ⟨1, x⟩ ∧ x.now s.w = true ∧ s.cst c.val ≠ 0 :=
  ⟨(on.setCst 147 3).modCh 147 (fun x => { x with cmd := some ⟨1, { at_ := true, sfc := 0 }⟩, img := [2 ^ 32] }), 147, { at_ := true, sfc := 0 }, by decide⟩

theorem test_ChannelCommands_11 : ∃ (s : State) (c : Fin 512) (x : Due), (s.ch c.val).cmd = some ⟨3, x⟩ ∧ x.now s.w = true ∧ s.cst c.val = 0 ∧ (∀ e ∈ s.shadows (pgChn c.val), ∀ f ∈ [R.CHN_PRE_SEL_counter, R.CHN_PRE_W0_value, R.CHN_PRE_W1_value, R.CHN_PRE_W2_value], e.1 ≠ f.key (pgChn c.val)) ∧ s.rd (pgChn c.val) R.CHN_PRE_SEL_counter < 8 ∧ s.rd (pgChn c.val) R.CHN_PRE_W0_value < 2 ^ 32 ∧ s.rd (pgChn c.val) R.CHN_PRE_W1_value < 2 ^ 32 ∧ s.rd (pgChn c.val) R.CHN_PRE_W2_value < 2 ^ 8 :=
  ⟨(put on [(pgChn 147, R.CHN_PRE_SEL_counter, 2), (pgChn 147, R.CHN_PRE_W0_value, 5), (pgChn 147, R.CHN_PRE_W2_value, 7)]).modCh 147 (fun x => { x with cmd := some ⟨3, {}⟩ }), 147, {}, by decide⟩

theorem test_ChannelCommands_12 : ∃ (s : State) (c : Fin 512) (x : Due), (s.ch c.val).cmd = some ⟨2, x⟩ ∧ x.now s.w = true ∧ (s.shadow (pgChn c.val) R.CHN_CFG_src = 0 ∨ s.shadow (pgChn c.val) R.CHN_CFG_dmode ≤ 8) ∧ s.fields.wf = true ∧ (∀ e ∈ s.shadows (pgChn c.val), e.1 ≠ R.CHN_STAT_state.key (pgChn c.val)) :=
  ⟨(on.wrShadow (pgChn 147) R.CHN_KP_I_kp_i 9).modCh 147 (fun x => { x with cmd := some ⟨2, {}⟩ }), 147, {}, by decide⟩

theorem test_ChannelCommands_13 : ∃ (s : State) (c : Fin 512) (x : Nat) (u : Due), (s.ch c.val).cmd = some ⟨x, u⟩ ∧ u.now s.w = false :=
  ⟨on.modCh 147 (fun x => { x with cmd := some ⟨2, { at_ := true, sfc := 5 }⟩ }), 147, 2, { at_ := true, sfc := 5 }, by decide⟩

theorem test_ChannelCommands_14 : ∃ (s : State) (r : Req) (c : Fin 512) (d : Word), Accepts s r (pgChn c.val) 0x008 ∧ s.rd (pgChn c.val) R.CTRL_lock = 0 ∧ s.rd (pgChn c.val) (R.CTRL_enable (pgChn c.val)) = 1 ∧ d.toNat / 2 % 2 = 0 :=
  ⟨put on [(pgChn 147, R.CTRL_enable (pgChn 147), 1)], .chrysalis, 147, 0#32, by decide⟩

theorem test_ChannelCommands_15 : ∃ (s : State) (r : Req) (b : Fin 32) (d : Word) (i : Nat), Accepts s r (pgBnk b.val) 0x0E4 ∧ d.toNat / 2 ^ 29 % 4 = 0 ∧ i < 16 :=
  ⟨put on [(pgBnk 9, R.BNK_CHN_MASK_mask, 8)], .chrysalis, 9, 0#32, 3, by decide⟩

theorem test_ChannelCommands_16 : ∃ (s : State) (r : Req) (b : Fin 32) (d : Word) (i : Nat), Accepts s r (pgBnk b.val) 0x0E4 ∧ d.toNat / 2 ^ 29 % 2 = 0 ∧ d.toNat / 2 ^ 31 = 0 ∧ i < 16 :=
  ⟨put on [(pgBnk 9, R.BNK_CHN_MASK_mask, 8)], .chrysalis, 9, 0#32, 3, by decide⟩

theorem test_ChannelCommands_17 : ∃ (s : State) (r : Req) (b : Fin 32) (d : Word) (i : Nat), Accepts s r (pgBnk b.val) 0x0E4 ∧ d.toNat / 2 ^ 30 = 0 ∧ i < 16 :=
  ⟨put on [(pgBnk 9, R.BNK_CHN_MASK_mask, 8)], .chrysalis, 9, 0#32, 3, by decide⟩

theorem test_ControlLaw_1 : ∃ (st : Nat) (a : LawIn) (x : LawSt), st ≠ 2 :=
  ⟨3, lawEx, {}, by decide⟩

theorem test_ControlLaw_2 : ∃ (a : LawIn) (x : LawSt), (a.mode < 3 ∨ 8 < a.mode) :=
  ⟨{ lawEx with mode := 1 }, { u := 5, xi := 7 }, by decide⟩

theorem test_ControlLaw_3 : ∃ (a : LawIn) (x : LawSt), 3 ≤ a.mode ∧ a.mode ≤ 8 ∧ a.invalid = true :=
  ⟨{ lawEx with invalid := true }, { u := 5, xi := 7 }, by decide⟩

theorem test_ControlLaw_4 : ∃ (a : LawIn) (x : LawSt), 3 ≤ a.mode ∧ a.mode ≤ 8 ∧ a.slew < 4 :=
  ⟨lawEx, { xi := 3000000 }, by decide⟩

theorem test_ControlLaw_5 : ∃ (a : LawIn) (x : LawSt), 3 ≤ a.mode ∧ a.mode ≤ 8 ∧ a.invalid = false ∧ a.ramp = 0 ∧ 0 ≤ a.limChg ∧ 0 ≤ a.limDis :=
  ⟨lawEx, { xi := 3000000 }, by decide⟩

theorem test_ControlLaw_6 : ∃ (a : LawIn) (x : LawSt), (a.mode = 3 ∨ a.mode = 6 ∨ a.mode = 7 ∨ a.mode = 8) ∧ a.invalid = false ∧ 0 ≤ a.limChg ∧ 0 ≤ a.limDis ∧ a.ramp = 0 :=
  ⟨lawEx, { xi := 3000000 }, by decide⟩

theorem test_ControlLaw_7 : ∃ (a : LawIn) (x : LawSt), a.mode = 7 ∧ a.invalid = false ∧ 0 ≤ a.limChg ∧ 0 ≤ a.limDis ∧ a.trim = 0 ∧ a.ramp = 0 :=
  ⟨{ lawEx with mode := 7, trim := 0 }, {}, by decide⟩

theorem test_ControlLaw_8 : ∃ (a : LawIn) (x : LawSt), a.mode = 3 ∧ a.invalid = false ∧ a.ramp = 0 ∧ 0 ≤ a.trim ∧ a.trim ≤ 2 ^ 35 - 1 ∧ a.limDis = 2 ^ 35 ∧ a.limChg = 2 ^ 35 ∧ -(2 ^ 35) ≤ a.iSet - a.trim ∧ a.iSet + a.trim < 2 ^ 35 ∧ a.v < a.vHi ∧ a.vLo < a.v :=
  ⟨{ lawEx with limChg := 2 ^ 35, limDis := 2 ^ 35 }, {}, by decide⟩

theorem test_ControlLaw_9 : ∃ (a : LawIn) (x : LawSt), a.mode = 5 ∧ a.invalid = false ∧ x.cv = true :=
  ⟨{ lawEx with mode := 5 }, { cv := true }, by decide⟩

theorem test_ControlLaw_10 : ∃ (s : State) (c : Nat) (n : Nat) (d : Nat), c < 512 ∧ n < 8 ∧ s.rd (pgChn c) (counterFld n) + d < 2 ^ 72 :=
  ⟨on, 147, 5, 9, by decide⟩

theorem test_ControlLaw_11 : ∃ (s : State) (c : Nat) (n : Nat) (d : Nat), c < 512 ∧ n < 8 ∧ 2 ^ 72 ≤ s.rd (pgChn c) (counterFld n) + d :=
  ⟨put on [(pgChn 147, counterFld 5, 2 ^ 72 - 3)], 147, 5, 9, by decide⟩

theorem test_ControlLaw_12 : ∃ (s : State) (c : Nat), c < 512 ∧ s.rd (pgChn c) R.CHN_MEAS_FLAGS_i_flags = 0 ∧ s.rd (pgChn c) R.CHN_MEAS_FLAGS_v_flags = 0 ∧ 0 < s.rdS (pgChn c) R.CHN_I_value ∧ 0 < s.rdS (pgChn c) R.CHN_V_value ∧ s.rd (pgChn c) R.CHN_Q_IN_value + 2 ^ 36 < 2 ^ 72 ∧ s.rd (pgChn c) R.CHN_E_IN_value + 2 ^ 40 < 2 ^ 72 :=
  ⟨put on [(pgChn 147, R.CHN_I_value, 5), (pgChn 147, R.CHN_V_value, 7)], 147, by decide⟩

theorem test_LooperCommands_1 : ∃ (s : State) (r : Req) (c : Fin 512) (d : Word), Accepts s r (pgChn c.val) 0x1CC ∧ d.toNat / 2 ^ 27 % 16 = 0 ∧ s.cst c.val = 2 ∧ s.rd (pgChn c.val) R.CHN_CFG_src = 0 ∧ s.rd (pgChn c.val) R.CHN_LP_PEND_valid = 1 :=
  ⟨put (on.setCst 147 2) [(pgChn 147, R.CHN_LP_PEND_valid, 1)], .chrysalis, 147, 0x01000005#32, by decide⟩

theorem test_LooperCommands_2 : ∃ (s : State) (r : Req) (c : Fin 512) (d : Word), Accepts s r (pgChn c.val) 0x1CC ∧ d.toNat / 2 ^ 27 % 16 = 0 ∧ (s.cst c.val ≠ 2 ∨ s.rd (pgChn c.val) R.CHN_CFG_src = 1 ∨ s.rd (pgChn c.val) R.CHN_LP_PEND_valid = 0) :=
  ⟨on, .chrysalis, 147, 0x01000005#32, by decide⟩

theorem test_LooperCommands_3 : ∃ (s : State) (r : Req) (c : Fin 512) (d : Word), Accepts s r (pgChn c.val) 0x1CC ∧ d.toNat / 2 ^ 27 % 16 ≠ 0 :=
  ⟨on, .chrysalis, 147, 0x40000000#32, by decide⟩

theorem test_LooperCommands_4 : ∃ (s : State) (r : Req) (c : Fin 512) (d : Word), Accepts s r (pgChn c.val) 0x1CC ∧ d.toNat / 2 ^ 27 % 4 = 0 ∧ d.toNat / 2 ^ 28 % 2 = 0 ∧ d.toNat / 2 ^ 30 = 0 ∧ s.cst c.val = 2 ∧ s.rd (pgChn c.val) R.CHN_CFG_src = 0 ∧ s.rd (pgChn c.val) R.CHN_LP_PEND_valid = 1 :=
  ⟨put (on.setCst 147 2) [(pgChn 147, R.CHN_LP_PEND_valid, 1)], .chrysalis, 147, 0x01000005#32, by decide⟩

theorem test_LooperCommands_5 : ∃ (s : State) (r : Req) (c : Fin 512) (d : Word), Accepts s r (pgChn c.val) 0x1CC ∧ d.toNat / 2 ^ 27 % 2 = 0 ∧ d.toNat / 2 ^ 29 = 0 ∧ s.cst c.val = 2 ∧ s.rd (pgChn c.val) R.CHN_CFG_src = 0 :=
  ⟨on.setCst 147 2, .chrysalis, 147, 0x01000005#32, by decide⟩

theorem test_LooperCommands_6 : ∃ (s : State) (r : Req) (c : Fin 512) (d : Word), Accepts s r (pgChn c.val) 0x1CC ∧ d.toNat / 2 ^ 27 % 8 = 0 ∧ d.toNat / 2 ^ 31 = 0 :=
  ⟨on, .chrysalis, 147, 0x01000005#32, by decide⟩

theorem test_LooperCommands_7 : ∃ (s : State) (r : Req) (c : Fin 512) (d : Word), Accepts s r (pgChn c.val) 0x1CC ∧ d.toNat / 2 ^ 28 = 0 :=
  ⟨on, .chrysalis, 147, 0x01000005#32, by decide⟩

theorem test_LooperCommands_8 : ∃ (s : State) (c : Fin 512) (a : Nat) (u : Due), (s.ch c.val).lpCmd = some ⟨0, a, u⟩ ∧ u.now (s.w - 1) = true ∧ (s.ch c.val).evalEnd < s.w ∧ s.cst c.val = 2 ∧ s.rd (pgChn c.val) R.CHN_CFG_src = 0 ∧ s.rd (pgChn c.val) R.CHN_LP_PEND_valid = 1 :=
  ⟨lpS ⟨0, 0, {}⟩ [], 147, 0, {}, by decide⟩

theorem test_LooperCommands_9 : ∃ (s : State) (c : Fin 512) (a : Nat) (u : Due), (s.ch c.val).lpCmd = some ⟨1, a, u⟩ ∧ u.now s.w = true ∧ s.cst c.val ≠ 3 :=
  ⟨lpS ⟨1, 0, {}⟩ [], 147, 0, {}, by decide⟩

theorem test_LooperCommands_10 : ∃ (s : State) (c : Fin 512) (a : Nat) (u : Due) (n : Fin 16384), (s.ch c.val).lpCmd = some ⟨2, a, u⟩ ∧ u.now (s.w - 1) = true ∧ (s.ch c.val).evalEnd < s.w ∧ s.cst c.val = 2 ∧ s.rd (pgChn c.val) R.CHN_CFG_src = 0 ∧ s.rd (pgChn c.val) R.CHN_LP_PEND_valid = 1 ∧ s.rd (pgChn c.val) R.CHN_LP_PEND_target = n.val ∧ (s.ch c.val).redirect = none ∧ s.checkStep (s.image n.val) false = 0 ∧ (imgOp (s.image n.val) = 1 ∨ imgOp (s.image n.val) = 5) :=
  ⟨lpS ⟨2, 0, {}⟩ [2 ^ 32], 147, 0, {}, 204, by decide⟩

theorem test_LooperCommands_11 : ∃ (s : State) (c : Fin 512) (a : Nat) (u : Due) (n : Fin 16384), (s.ch c.val).lpCmd = some ⟨3, a, u⟩ ∧ u.now (s.w - 1) = true ∧ (s.ch c.val).evalEnd < s.w ∧ s.cst c.val = 2 ∧ s.rd (pgChn c.val) R.CHN_CFG_src = 0 ∧ s.rd (pgChn c.val) R.CHN_LP_FAULT_valid = 1 ∧ s.rd (pgChn c.val) R.CHN_LP_FAULT_step = n.val ∧ s.checkStep (s.image n.val) false = 0 ∧ (imgOp (s.image n.val) = 1 ∨ imgOp (s.image n.val) = 5) ∧ s.rd (pgChn c.val) R.CHN_LP_PTR_step < 16384 :=
  ⟨lpS ⟨3, 0, {}⟩ [2 ^ 32], 147, 0, {}, 204, by decide⟩

theorem test_LooperCommands_12 : ∃ (s : State) (c : Fin 512) (a : Nat) (u : Due), (s.ch c.val).lpCmd = some ⟨3, a, u⟩ ∧ u.now (s.w - 1) = true ∧ (s.ch c.val).evalEnd < s.w ∧ s.cst c.val = 2 ∧ s.rd (pgChn c.val) R.CHN_CFG_src = 0 ∧ s.rd (pgChn c.val) R.CHN_LP_FAULT_valid = 0 :=
  ⟨put (lpS ⟨3, 0, {}⟩ [2 ^ 32]) [(pgChn 147, R.CHN_LP_FAULT_valid, 0)], 147, 0, {}, by decide⟩

theorem test_LooperCommands_13 : ∃ (s : State) (c : Fin 512) (a : Nat) (u : Due), (s.ch c.val).lpCmd = some ⟨4, a, u⟩ ∧ u.now s.w = true ∧ s.rd (pgChn c.val) R.CHN_LP_STAT_lp_state = 4 ∧ s.rd (pgChn c.val) R.CHN_CFG_src = 0 ∧ (s.ch c.val).img ≠ [] ∧ (a = 1 ∨ (a = 0 ∧ s.onResume c.val = 0)) :=
  ⟨put (lpS ⟨4, 1, {}⟩ [2 ^ 32]) [(pgChn 147, R.CHN_LP_STAT_lp_state, 4), (pgChn 147, R.CHN_STAT_state, 4)], 147, 1, {}, by decide⟩

theorem test_LooperCommands_14 : ∃ (s : State) (c : Fin 512) (u : Due) (n : Fin 16384), (s.ch c.val).lpCmd = some ⟨4, 2, u⟩ ∧ u.now s.w = true ∧ s.rd (pgChn c.val) R.CHN_LP_STAT_lp_state = 4 ∧ s.rd (pgChn c.val) R.CHN_CFG_src = 0 ∧ s.inRun c.val = true ∧ s.rd (pgChn c.val) R.CHN_LP_PTR_step = n.val ∧ s.checkStep (s.image n.val) false = 0 ∧ imgOp (s.image n.val) = 1 :=
  ⟨put (lpS ⟨4, 2, {}⟩ [2 ^ 32]) [(pgChn 147, R.CHN_LP_STAT_lp_state, 4), (pgChn 147, R.CHN_STAT_state, 4), (pgChn 147, R.CHN_LP_PTR_step, 204)], 147, {}, 204, by decide⟩

theorem test_LooperCommands_15 : ∃ (s : State) (c : Fin 512) (n : Nat) (a : Nat) (u : Due), (s.ch c.val).lpCmd = some ⟨n, a, u⟩ ∧ (n = 0 ∨ n = 2 ∨ n = 3) ∧ u.now (s.w - 1) = true ∧ (s.ch c.val).evalEnd < s.w ∧ s.cst c.val = 3 :=
  ⟨(lpS ⟨2, 0, {}⟩ [2 ^ 32]).setCst 147 3, 147, 2, 0, {}, by decide⟩

theorem test_LooperCommands_16 : ∃ (s : State) (c : Fin 512) (n : Nat) (a : Nat) (u : Due), (s.ch c.val).lpCmd = some ⟨n, a, u⟩ ∧ u.now (s.w - 1) = false ∧ u.now s.w = false :=
  ⟨lpS ⟨2, 0, { at_ := true, sfc := 77 }⟩ [2 ^ 32], 147, 2, 0, { at_ := true, sfc := 77 }, by decide⟩

theorem test_StepsAndGates_1 : ∃ (s : State) (m : List Nat) (e : Bool), (imgOp m = 0 ∨ 5 < imgOp m) :=
  ⟨on, [], true, by decide⟩

theorem test_StepsAndGates_2 : ∃ (s : State) (m : List Nat) (e : Bool), ((imgOp m = 1 ∧ 8 < imgMode m) ∨ (imgOp m = 5 ∧ 2 < imgMode m)) :=
  ⟨on, [2 ^ 32 + 9 * 2 ^ 28], true, by decide⟩

theorem test_StepsAndGates_3 : ∃ (s : State) (m : List Nat) (e : Bool), s.checkStep m e = 0 ∧ imgW m 0 < 2 ^ 36 :=
  ⟨on, stepEx, false, by decide +kernel⟩

theorem test_StepsAndGates_4 : ∃ (s : State) (c : Nat) (m : List Nat) (v : Nat), imgOp m = 2 ∧ s.rd (pgChn c) (cntFld (bitsOf (imgW m 1) 14 2)) = v ∧ v < 65536 :=
  ⟨put on [(pgChn 147, R.CHN_LP_CNT01_cnt1, 3)], 147, [2 * 2 ^ 32 + 7, 2 ^ 14 + 9], 3, by decide⟩

theorem test_StepsAndGates_5 : ∃ (s : State) (c : Nat) (m : List Nat), imgOp m = 3 :=
  ⟨on, 147, [3 * 2 ^ 32 + 7, 2 ^ 14 + 9 * 2 ^ 16], by decide⟩

theorem test_StepsAndGates_6 : ∃ (s : State) (c : Nat) (ix : Nat), s.checkStep (s.image ix) false = 0 ∧ imgOp (s.image ix) = 4 ∧ bitsOf (imgW (s.image ix) 0) 0 14 = ix :=
  ⟨on.setStepWord 5 0 (4 * 2 ^ 32 + 5), 147, 5, by decide⟩

theorem test_StepsAndGates_7 : ∃ (ctl : Nat) (blanked : Bool) (bad : Bool) (x : Int) (t : Int) (pers : Nat), ctlSel ctl ≠ 0 ∧ selSample (ctlSel ctl) = false :=
  ⟨0x1000, true, false, 5, 4, 7, by decide⟩

theorem test_StepsAndGates_8 : ∃ (ctl : Nat) (blanked : Bool) (bad : Bool) (x : Int) (t : Int) (pers : Nat), ctlSel ctl ≠ 0 ∧ selSample (ctlSel ctl) = true :=
  ⟨0x2000, false, true, 5, 4, 7, by decide⟩

theorem test_StepsAndGates_9 : ∃ (s : State) (c : Fin 512) (x : Due) (n : Fin 16384), (s.ch c.val).cmd = some ⟨0, x⟩ ∧ x.now s.w = true ∧ s.cst c.val = 1 ∧ s.tripSt (bankOf c.val) = 0 ∧ s.rd (pgChn c.val) (R.CTRL_enable (pgChn c.val)) = 1 ∧ s.linkUp (bankOf c.val) = true ∧ s.shadow (pgChn c.val) R.CHN_CFG_src = 0 ∧ s.rd (pgChn c.val) R.CHN_LP_PTR_valid = 1 ∧ s.rd (pgChn c.val) R.CHN_LP_PTR_step = n.val ∧ s.checkStep (s.image n.val) false = 0 ∧ imgOp (s.image n.val) = 1 ∧ s.fields.wf = true ∧ (∀ e ∈ s.shadows (pgChn c.val), e.1 ≠ R.CHN_LP_PTR_step.key (pgChn c.val)) :=
  ⟨(put (lpS ⟨0, 0, {}⟩ []) [(pgChn 147, R.CHN_STAT_state, 1), (pgChn 147, R.CTRL_enable (pgChn 147), 1), (pgChn 147, R.CHN_LP_PTR_valid, 1), (pgChn 147, R.CHN_LP_PTR_step, 204), (pgBnk 9, R.BNK_LINK_STAT_state, 6)]).modCh 147 (fun x => { x with cmd := some ⟨0, {}⟩ }), 147, {}, 204, by decide⟩

theorem test_StepsAndGates_10 : ∃ (s : State) (g : Nat), g < 64 ∧ s.tally < s.cEnded ∧ s.fields.wf = true ∧ s.rd pgStp (R.STP_GATE_CFG_en g) = 1 ∧ s.rd pgStp (R.STP_GATE_CFG_manual g) = 0 ∧ s.waiting g ≠ [] ∧ s.rd pgStp (R.STP_GATE_CFG_expected g) ≤ (s.waiting g).length :=
  ⟨gateS, 5, by decide +kernel⟩

theorem test_StepsAndGates_11 : ∃ (s : State) (g : Nat), g < 64 ∧ s.tally < s.cEnded ∧ s.fields.wf = true ∧ ((∀ e ∈ s.gateRel, e.1 = g → e.2.now (s.cEnded - 1) = false)) ∧ (s.rd pgStp (R.STP_GATE_CFG_en g) = 0 ∨ s.rd pgStp (R.STP_GATE_CFG_manual g) = 1 ∨ s.waiting g = [] ∨ (s.waiting g).length < s.rd pgStp (R.STP_GATE_CFG_expected g)) :=
  ⟨put gateS [(pgStp, R.STP_GATE_CFG_expected 5, 2)], 5, by decide +kernel⟩

theorem test_StepsAndGates_12 : ∃ (s : State) (g : Nat) (u : Due), g < 64 ∧ s.tally < s.cEnded ∧ s.fields.wf = true ∧ (g, u) ∈ s.gateRel ∧ u.now (s.cEnded - 1) = true ∧ s.rd pgStp (R.STP_GATE_CFG_en g) = 1 :=
  ⟨{ put gateS [(pgStp, R.STP_GATE_CFG_manual 5, 1)] with gateRel := [(5, {})] }, 5, {}, by decide +kernel⟩

theorem test_StepsAndGates_13 : ∃ (s : State), s.cEnded ≤ s.tally :=
  ⟨on, by decide⟩

theorem test_StepsAndGates_14 : ∃ (s : State) (r : Req) (d : Word), Accepts s r pgStp 0x02C :=
  ⟨on, .chrysalis, 0x00050000#32, by decide⟩

theorem test_Trips_1 : ∃ (s : State) (r : Req) (b : Fin 32) (d : Word), Accepts s r (pgBnk b.val) 0x0F4 ∧ d.toNat / 2 ^ 27 % 4 = 0 :=
  ⟨put on [(pgBnk 9, R.BNK_TRIP_STAT_state, 2), (pgBnk 9, R.BNK_TRIP_STAT_cause, 5)], .chrysalis, 9, 0x61000005#32, by decide⟩

theorem test_Trips_2 : ∃ (s : State) (r : Req) (b : Fin 32) (d : Word), Accepts s r (pgBnk b.val) 0x0F4 ∧ d.toNat / 2 ^ 27 % 4 ≠ 0 :=
  ⟨on, .chrysalis, 9, 0x10000000#32, by decide⟩

theorem test_Trips_3 : ∃ (s : State) (r : Req) (b : Fin 32) (d : Word), Accepts s r (pgBnk b.val) 0x0F4 ∧ d.toNat / 2 ^ 31 = 0 ∧ d.toNat / 2 ^ 27 % 2 = 0 :=
  ⟨on.setLst 9 6, .chrysalis, 9, 0#32, by decide⟩

theorem test_Trips_4 : ∃ (s : State) (r : Req) (b : Fin 32) (d : Word), Accepts s r (pgBnk b.val) 0x0F4 ∧ d.toNat / 2 ^ 31 = 0 ∧ d.toNat / 2 ^ 28 % 2 = 0 :=
  ⟨put on [(pgChn 147, R.CHN_STAT_state, 2)], .chrysalis, 9, 0#32, by decide⟩

theorem test_Trips_5 : ∃ (s : State) (r : Req) (c : Fin 512) (d : Word), Accepts s r (pgChn c.val) 0x208 :=
  ⟨put on [(pgChn 147, R.CHN_TRIP_STAT_chan_latch, 1)], .chrysalis, 147, 0x01000005#32, by decide⟩

theorem test_Trips_6 : ∃ (s : State) (b : Fin 32) (x : Clear), (s.bk b.val).bclr = some x ∧ x.due.now s.w = true ∧ (s.bk b.val).holdAt = none ∧ (∀ c ∈ chansOf b.val, (s.ch c).clr = none) ∧ (s.linkUp b.val = false ∨ s.tripSt b.val = 0 ∨ s.tripSt b.val = 1) :=
  ⟨(put on [(pgBnk 9, R.BNK_TRIP_STAT_state, 1)]).modBk 9 (fun x => { x with bclr := some ⟨1, {}⟩ }), 9, ⟨1, {}⟩, by decide⟩

theorem test_Trips_7 : ∃ (s : State) (b : Fin 32) (x : Clear), (s.bk b.val).bclr = some x ∧ x.due.now s.w = true ∧ (s.bk b.val).holdAt = none ∧ (∀ c ∈ chansOf b.val, (s.ch c).clr = none) ∧ s.linkUp b.val = true ∧ s.tripSt b.val = 2 ∧ (s.rd pgTrp R.TRP_TEMP_temp_hi ≤ (s.bk b.val).wstat / 2 ^ 16 % 2 ^ 8 ∨ (s.bk b.val).lastAny = some s.w) :=
  ⟨((put on [(pgBnk 9, R.BNK_TRIP_STAT_state, 2)]).setLst 9 6).modBk 9 (fun x => { x with bclr := some ⟨1, {}⟩, lastAny := some 0 }), 9, ⟨1, {}⟩, by decide⟩

theorem test_Trips_8 : ∃ (s : State) (b : Fin 32) (x : Clear), (s.bk b.val).bclr = some x ∧ x.due.now s.w = true ∧ (s.bk b.val).holdAt = none ∧ (∀ c ∈ chansOf b.val, (s.ch c).clr = none) ∧ s.linkUp b.val = true ∧ s.tripSt b.val = 2 ∧ (s.bk b.val).wstat / 2 ^ 16 % 2 ^ 8 < s.rd pgTrp R.TRP_TEMP_temp_hi ∧ (s.bk b.val).wstat / 2 ^ 16 % 2 ^ 8 < s.rd pgTrp R.TRP_TEMP_temp_rel ∧ (s.bk b.val).lastAny = none :=
  ⟨((put on [(pgTrp, R.TRP_TEMP_temp_hi, 9), (pgTrp, R.TRP_TEMP_temp_rel, 5), (pgBnk 9, R.BNK_TRIP_STAT_state, 2), (pgBnk 9, R.BNK_TRIP_STAT_cause, 5), (pgChn 147, R.CHN_STAT_state, 3), (pgChn 147, R.CHN_TRIP_STAT_bank_held, 1)]).setLst 9 6).modBk 9 (fun x => { x with bclr := some ⟨0, {}⟩ }), 9, ⟨0, {}⟩, by decide⟩

theorem test_Trips_9 : ∃ (s : State) (c : Fin 512) (x : Clear), (s.ch c.val).clr = some x ∧ x.due.now s.w = true ∧ (s.bk (bankOf c.val)).holdAt = none ∧ (s.bk (bankOf c.val)).bclr = none ∧ ((∀ e ∈ chansOf (bankOf c.val), e ≠ c.val → (s.ch e).clr = none)) ∧ (s.linkUp (bankOf c.val) = false ∨ s.rd (pgChn c.val) R.CHN_TRIP_STAT_chan_latch = 0 ∨ s.slowPresent c.val = true) :=
  ⟨((put on [(pgChn 147, R.CHN_STAT_state, 3), (pgChn 147, R.CHN_TRIP_STAT_chan_latch, 1)]).modCh 147 (fun x => { x with clr := some ⟨1, {}⟩ })), 147, ⟨1, {}⟩, by decide⟩

theorem test_Trips_10 : ∃ (s : State) (c : Fin 512) (x : Clear), (s.ch c.val).clr = some x ∧ x.due.now s.w = true ∧ (s.bk (bankOf c.val)).holdAt = none ∧ (s.bk (bankOf c.val)).bclr = none ∧ ((∀ e ∈ chansOf (bankOf c.val), e ≠ c.val → (s.ch e).clr = none)) ∧ s.linkUp (bankOf c.val) = true ∧ s.rd (pgChn c.val) R.CHN_TRIP_STAT_chan_latch = 1 ∧ s.slowPresent c.val = false :=
  ⟨((put on [(pgChn 147, R.CHN_STAT_state, 3), (pgChn 147, R.CHN_TRIP_STAT_chan_latch, 1), (pgChn 147, R.CHN_TRIP_STAT_cause, 6)]).modCh 147 (fun x => { x with clr := some ⟨0, {}⟩ })).setLst 9 6, 147, ⟨0, {}⟩, by decide⟩

theorem test_Trips_11 : ∃ (s : State) (r : Req) (d : Word) (b : Fin 32), Accepts s r pgTrp 0x064 ∧ d.toNat.testBit b.val = true ∧ s.domOn (domOfBank b.val) = true :=
  ⟨{ on with k := 7 }, .chrysalis, 0x00000200#32, 9, by decide⟩

theorem test_Trips_12 : ∃ (s : State) (r : Req) (d : Word) (b : Fin 32), Accepts s r pgTrp 0x064 ∧ d.toNat.testBit b.val = false :=
  ⟨{ on with k := 7 }, .chrysalis, 0x00000200#32, 8, by decide⟩

theorem test_Trips_13 : ∃ (s : State) (b : Fin 32), (s.bk b.val).linkC = false ∧ s.tripSt b.val = 1 ∧ (s.bk b.val).lastBit + 1 + max 1 (s.rd pgTrp R.TRP_CFG_hold_sf) ≤ s.k :=
  ⟨{ (put on [(pgBnk 9, R.BNK_TRIP_STAT_state, 1), (pgBnk 9, R.BNK_TRIP_STAT_cause, 5)]).modBk 9 (fun x => { x with lastBit := 4 }) with k := 7 }, 9, by decide⟩

theorem test_Trips_14 : ∃ (s : State) (b : Fin 32), (s.bk b.val).linkC = false ∧ s.k < (s.bk b.val).lastBit + 1 + max 1 (s.rd pgTrp R.TRP_CFG_hold_sf) :=
  ⟨{ (put on [(pgBnk 9, R.BNK_TRIP_STAT_state, 1)]).modBk 9 (fun x => { x with lastBit := 4 }) with k := 6 }, 9, by decide⟩

theorem test_Trips_15 : ∃ (s : State) (b : Fin 32), (s.bk b.val).linkC = true ∧ s.linkUp b.val = false :=
  ⟨{ (put on [(pgBnk 9, R.BNK_TRIP_STAT_state, 1)]).modBk 9 (fun x => { x with linkC := true }) with k := 6 }, 9, by decide⟩

theorem test_Trips_16 : ∃ (s : State) (b : Fin 32), (s.bk b.val).dis = true :=
  ⟨on.modBk 9 (fun x => { x with dis := true }), 9, by decide⟩

theorem test_Trips_17 : ∃ (s : State) (b : Fin 32), (s.bk b.val).dis = false :=
  ⟨on, 9, by decide⟩

theorem test_Ledger_1 : ∃ (s : State) (r : Req) (d : Word), Accepts s r pgStp 0x044 ∧ d.toNat / 2 ^ 30 % 2 = 0 :=
  ⟨on, .chrysalis, 0x01000005#32, by decide⟩

theorem test_Ledger_2 : ∃ (s : State) (r : Req) (d : Word), Accepts s r pgStp 0x044 ∧ d.toNat / 2 ^ 30 % 2 = 1 :=
  ⟨on, .chrysalis, 0x40000000#32, by decide⟩

theorem test_Ledger_3 : ∃ (s : State) (r : Req) (d : Word), Accepts s r pgStp 0x044 ∧ d.toNat / 2 ^ 31 = 0 :=
  ⟨on.wrShadow pgStp R.STP_LDG_CFG_en 1, .chrysalis, 0#32, by decide⟩

theorem test_Ledger_4 : ∃ (s : State) (x : Due), s.ldgCmd = some x ∧ x.now s.led = true ∧ s.fields.wf = true :=
  ⟨{ (on.wrShadow pgStp R.STP_LDG_CFG_en 1).wrShadow pgStp R.STP_LDG_EXP_MAX_value 500000 with ldgCmd := some { at_ := true, sfc := 3 }, led := 3 }, { at_ := true, sfc := 3 }, by decide⟩

theorem test_Ledger_5 : ∃ (s : State), (s.ldgCmd = none ∨ (∃ x, s.ldgCmd = some x ∧ x.now s.led = false)) :=
  ⟨on, by decide⟩

theorem test_Ledger_6 : ∃ (s : State) (b : Nat) (i : Nat), s.led < s.cEnded ∧ b ∈ s.liveBanks ∧ i < 16 ∧ s.k ≤ s.w :=
  ⟨{ (List.range 32).foldl (fun t b => t.modBk b (fun x => { x with cEnd := 3 })) on with k := 3, w := 3, led := 2 }, 9, 3, by decide +kernel⟩

theorem test_Ledger_7 : ∃ (s : State) (b : Nat) (i : Nat), s.led < s.cEnded ∧ b ∈ s.liveBanks ∧ i < 16 ∧ s.k ≤ s.w ∧ s.ldgCmd = none ∧ s.rd pgStp R.STP_LDG_CFG_en = 0 :=
  ⟨{ (List.range 32).foldl (fun t b => t.modBk b (fun x => { x with cEnd := 3 })) on with k := 3, w := 3, led := 2 }, 9, 3, by decide +kernel⟩

theorem test_Ledger_8 : ∃ (s : State) (b : Nat) (i : Nat), s.led < s.cEnded ∧ b ∈ s.liveBanks ∧ i < 16 ∧ s.k ≤ s.w ∧ s.ldgCmd = none ∧ (s.rd pgStp R.STP_LDG_CFG_start_en = 0 ∨ s.rd pgStp R.STP_LDG_CFG_max_delay = 0) :=
  ⟨{ put ((List.range 32).foldl (fun t b => t.modBk b (fun x => { x with cEnd := 3 })) on) [(pgStp, R.STP_LDG_CFG_max_delay, 0)] with k := 3, w := 3, led := 2 }, 9, 3, by decide +kernel⟩

theorem test_Grading_1 : ∃ (s : State) (r : Req) (d : Word), Accepts s r pgGrd 0x0A4 ∧ d.toNat / 2 ^ 29 % 4 = 0 :=
  ⟨put on [(pgGrd, R.GRD_CH_SEL_channel, 147)], .chrysalis, 0#32, by decide⟩

theorem test_Grading_2 : ∃ (s : State) (r : Req) (d : Word), Accepts s r pgGrd 0x0A4 ∧ d.toNat / 2 ^ 31 = 0 ∧ d.toNat / 2 ^ 29 % 2 = 0 :=
  ⟨put on [(pgGrd, R.GRD_CH_SEL_channel, 147)], .chrysalis, 0#32, by decide⟩

theorem test_Grading_3 : ∃ (s : State) (r : Req) (d : Word), Accepts s r pgGrd 0x0A4 ∧ d.toNat / 2 ^ 30 = 0 :=
  ⟨(put on [(pgGrd, R.GRD_CH_SEL_channel, 147)]).modGr 147 (fun x => { x with opn := some {} }), .chrysalis, 0#32, by decide⟩

theorem test_Grading_4 : ∃ (s : State) (e : Entry) (rest : List GrdMsg), s.grdIn = .entry e :: rest ∧ (s.gr e.chan).wait = none ∧ (s.gr e.chan).opn = none ∧ e.opcode = 1 ∧ (s.rd pgGrd R.GRD_CFG_auto_open = 1 ∨ (s.gr e.chan).opening = true) :=
  ⟨{ put on [(iGrd 147, R.GRD_RECIPE_recipe, 77)] with grdIn := [.entry entEx] }, entEx, [], by decide⟩

theorem test_Grading_5 : ∃ (s : State) (e : Entry) (rest : List GrdMsg), s.grdIn = .entry e :: rest ∧ (s.gr e.chan).wait = none ∧ e.opcode ≠ 5 ∧ (e.opcode ≠ 1 ∨ (s.gr e.chan).opn ≠ none ∨ (s.rd pgGrd R.GRD_CFG_auto_open = 0 ∧ (s.gr e.chan).opening = false)) :=
  ⟨{ on.modGr 147 (fun x => { x with opn := some {} }) with grdIn := [.entry entEx] }, entEx, [], by decide⟩

theorem test_Grading_6 : ∃ (s : State) (e : Entry) (rest : List GrdMsg) (x : GrdRec), s.grdIn = .entry e :: rest ∧ (s.gr e.chan).wait = none ∧ e.opcode = 5 ∧ (s.gr e.chan).opn = some x :=
  ⟨{ on.modGr 147 (fun x => { x with opn := some {} }) with grdIn := [.entry { entEx with opcode := 5, code := 3 }] }, { entEx with opcode := 5, code := 3 }, [], {}, by decide⟩

theorem test_Grading_7 : ∃ (s : State) (e : Entry) (rest : List GrdMsg), s.grdIn = .entry e :: rest ∧ (s.gr e.chan).wait ≠ none :=
  ⟨{ on.modGr 147 (fun x => { x with wait := some {} }) with grdIn := [.entry entEx] }, entEx, [], by decide⟩

theorem test_Grading_8 : ∃ (s : State) (e : StepEnd) (rest : List GrdMsg) (x : GrdRec), s.grdIn = .stepEnd e :: rest ∧ (s.gr e.chan).wait = none ∧ (s.gr e.chan).opn = some x ∧ e.cause ≠ 7 :=
  ⟨{ on.modGr 147 (fun x => { x with opn := some {}, next := some 4 }) with grdIn := [.stepEnd endEx] }, endEx, [], {}, by decide⟩

theorem test_Grading_9 : ∃ (s : State) (e : StepEnd) (rest : List GrdMsg) (x : GrdRec), s.grdIn = .stepEnd e :: rest ∧ (s.gr e.chan).wait = none ∧ (s.gr e.chan).out = none ∧ (s.gr e.chan).opn = some x ∧ e.cause = 7 :=
  ⟨{ on.modGr 147 (fun x => { x with opn := some {} }) with grdIn := [.stepEnd { endEx with cause := 7 }] }, { endEx with cause := 7 }, [], {}, by decide⟩

theorem test_Grading_10 : ∃ (s : State) (e : StepEnd) (rest : List GrdMsg), s.grdIn = .stepEnd e :: rest ∧ (s.gr e.chan).wait = none ∧ (s.gr e.chan).opn = none :=
  ⟨{ on with grdIn := [.stepEnd endEx] }, endEx, [], by decide⟩

theorem test_Grading_11 : ∃ (s : State) (c : Fin 512) (n : Nat) (x : GrdRec), (s.gr c.val).sealAt = some n ∧ n ≤ s.k ∧ (s.gr c.val).opn = some x ∧ (s.gr c.val).out = none :=
  ⟨{ on.modGr 147 (fun x => { x with opn := some {}, sealAt := some 3 }) with k := 3 }, 147, 3, {}, by decide⟩

theorem test_Grading_12 : ∃ (s : State) (c : Fin 512), ((s.gr c.val).sealAt = none ∨ (∃ n, (s.gr c.val).sealAt = some n ∧ s.k < n)) :=
  ⟨on, 147, by decide⟩

theorem test_Grading_13 : ∃ (s : State) (c : Fin 512) (x : GrdRec), (s.gr c.val).role = 4 ∧ s.inRun c.val = true ∧ (s.gr c.val).ocvN ≠ 0 ∧ (s.gr c.val).opn = some x :=
  ⟨(on.modGr 147 (fun x => { x with opn := some {}, role := 4, ocvN := 3, ocvSum := 90 })).modCh 147 (fun x => { x with img := [2 ^ 32] }), 147, {}, by decide⟩

theorem test_Grading_14 : ∃ (s : State) (c : Fin 512), ((s.gr c.val).role ≠ 4 ∨ s.inRun c.val = false ∨ (s.gr c.val).ocvN = 0) :=
  ⟨on, 147, by decide⟩

theorem test_Grading_15 : ∃ (s : State) (c : Nat) (o : GrdOut), s.grdNext = some c ∧ (s.gr c).out = some o ∧ s.slotCheck 1 none 3 2 5 = none ∧ s.grdEmits c = true :=
  ⟨{ on.modGr 147 (fun x => { x with out := some { seq := 6 } }) with keys := [(1, ⟨0xA0000028, 5⟩)], fields := (put on [(pgKey, R.KEY_STATE_state, 1)]).fields }, 147, { seq := 6 }, by decide⟩

theorem test_Grading_16 : ∃ (s : State) (c : Nat) (o : GrdOut), s.grdNext = some c ∧ (s.gr c).out = some o ∧ s.slotCheck 1 none 3 2 5 ≠ none :=
  ⟨on.modGr 147 (fun x => { x with out := some { seq := 6 } }), 147, { seq := 6 }, by decide⟩

theorem test_Grading_17 : ∃ (s : State) (c : Nat) (x : GrdRec) (grade : Nat) (tEnd : Nat) (seq : Nat), x.cellId.length = 4 ∧ x.host.length = 8 :=
  ⟨on, 147, { cellId := [1, 2, 3, 4], host := [1, 2, 3, 4, 5, 6, 7, 8] }, 3, 0, 7, by decide⟩

theorem test_FieldOutputs_1 : ∃ (s : State) (r : Req) (d : Word), Accepts s r pgFio 0x024 ∧ s.fioSt < 2 :=
  ⟨put on [(pgFio, R.FIO_PT_CFG_mode 3, 2)], .chrysalis, 0x18#32, by decide⟩

theorem test_FieldOutputs_2 : ∃ (s : State) (r : Req) (d : Word), Accepts s r pgFio 0x028 ∧ s.fioSt < 2 :=
  ⟨put on [(pgFio, R.FIO_PT_CFG_mode 3, 2), (pgFio, R.FIO_STATE_state, 1)], .chrysalis, 0x18#32, by decide⟩

theorem test_FieldOutputs_3 : ∃ (s : State) (r : Req) (d : Word), Accepts s r pgFio 0x02C ∧ s.fioSt < 2 :=
  ⟨put on [(pgFio, R.FIO_PT_CFG_mode 3, 2), (pgFio, R.FIO_OUT_out, 8), (pgFio, R.FIO_STATE_state, 1)], .chrysalis, 0x18#32, by decide⟩

theorem test_FieldOutputs_4 : ∃ (s : State) (r : Req) (d : Word), Accepts s r pgFio 0x024 ∧ s.fioSt = 3 :=
  ⟨put on [(pgFio, R.FIO_STATE_state, 3)], .chrysalis, 0x18#32, by decide⟩

theorem test_FieldOutputs_5 : ∃ (s : State) (r : Req), Accepts s r pgFio 0x008 ∧ s.locked pgFio = false ∧ s.fioSt = 0 :=
  ⟨on, .chrysalis, by decide⟩

theorem test_FieldOutputs_6 : ∃ (s : State) (r : Req), Accepts s r pgFio 0x008 ∧ s.locked pgFio = false :=
  ⟨put on [(pgFio, R.FIO_STATE_state, 1)], .chrysalis, by decide⟩

theorem test_FieldOutputs_7 : ∃ (s : State) (r : Req) (d : Word), Accepts s r pgFio 0x040 ∧ (s.fioSt = 1 ∨ s.fioSt = 2) ∧ d.toNat.testBit 31 = false :=
  ⟨put on [(pgFio, R.FIO_PT_CFG_mode 31, 2), (pgFio, R.FIO_PT_CFG_mode 3, 2), (pgFio, R.FIO_STATE_state, 1), (pgFio, R.FIO_OUT_out, 0x80000000), (pgFio, R.FIO_SAFE_VAL_val, 0xC)], .chrysalis, 0#32, by decide⟩

theorem test_FieldOutputs_8 : ∃ (s : State) (r : Req) (d : Word), Accepts s r pgFio 0x040 ∧ (s.fioSt = 2 ∨ s.fioSt = 3) ∧ d.toNat.testBit 30 = false :=
  ⟨(put on [(pgFio, R.FIO_STATE_state, 2)]).modFld (fun x => { x with hb := true }), .chrysalis, 0#32, by decide⟩

theorem test_FieldOutputs_9 : ∃ (s : State), s.fieldOn = true ∧ s.fioSt = 2 :=
  ⟨put on [(pgFio, R.FIO_STATE_state, 2), (pgFio, R.FIO_PT_CFG_mode 31, 2), (pgFio, R.FIO_OUT_out, 0x80000000)], by decide⟩

theorem test_HeartbeatAndSupply_1 : ∃ (s : State), s.domOn 0 = true ∧ s.fld.die = true :=
  ⟨on, by decide⟩

theorem test_HeartbeatAndSupply_2 : ∃ (s : State), s.domOn 0 = true ∧ s.fld.die = true :=
  ⟨on, by decide⟩

theorem test_HeartbeatAndSupply_3 : ∃ (s : State), s.fieldOn = true :=
  ⟨put on [(pgFio, R.FIO_STATE_state, 1), (pgLdc, R.LDC_CH_STAT_state 2, 1), (pgLdc, R.LDC_CH_STAT_state 11, 4), (pgLdc, R.LDC_ON_on, 4)], by decide⟩

theorem test_HeartbeatAndSupply_4 : ∃ (s : State), s.fieldOn = true ∧ s.fld.low = false :=
  ⟨put on [(pgFio, R.FIO_STATE_state, 1), (pgFio, R.FIO_PT_CFG_mode 3, 2), (pgFio, R.FIO_OUT_out, 8)], by decide⟩

theorem test_HeartbeatAndSupply_6 : ∃ (s : State), s.fld.die = false :=
  ⟨on.modFld (fun x => { x with die := false }), by decide⟩

theorem test_FieldPoints_1 : ∃ (s : State) (mv : List Nat) (cur : List Nat), s.fieldOn = true ∧ s.fld.low = false :=
  ⟨put on [(pgFio, R.FIO_PT_CFG_filter 31, 1)], (List.range 32).map (fun n => 400 * n), [], by decide⟩

theorem test_FieldPoints_2 : ∃ (s : State) (n : Fin 32), s.fieldOn = true ∧ s.isOut n = false ∧ s.rd pgFio (R.FIO_PT_CFG_wb_en n) = 1 ∧ s.rd pgFio (R.FIO_PT_STAT_wire_break n) = 0 :=
  ⟨put on [(pgFio, R.FIO_PT_CFG_wb_en 31, 1)], 31, by decide⟩

theorem test_FieldPoints_3 : ∃ (s : State) (n : Fin 32) (cause : Fin 5), s.fieldOn = true ∧ s.isOut n = true ∧ s.fioPins.testBit n = true ∧ cause.val < 3 :=
  ⟨put on [(pgFio, R.FIO_PT_CFG_mode 31, 2), (pgFio, R.FIO_OUT_out, 0x80000000), (pgFio, R.FIO_STATE_state, 1)], 31, 2, by decide⟩

theorem test_FieldPoints_4 : ∃ (s : State) (r : Req) (n : Fin 32) (d : Word), Accepts s r pgFio (0x100 + 4 * n.val) ∧ s.fioOut = 0 ∧ (∀ i < 32, s.rd pgFio (R.FIO_PT_CFG_group i) = 0) ∧ bitsOf d.toNat 2 2 = 0 :=
  ⟨on, .chrysalis, 31, 0xFF32#32, by decide⟩

theorem test_FieldPoints_5 : ∃ (s : State) (r : Req) (n : Fin 32) (d : Word), Accepts s r pgFio 0x030 ∧ d.toNat = 2 ^ n.val ∧ bitOf s.fld.hot n = false ∧ s.rd pgFio (R.FIO_PT_STAT_back_fed n) = 0 ∧ s.rd pgFio (R.FIO_PT_STAT_open_load n) = 0 ∧ s.rd pgFio (R.FIO_PT_STAT_wire_break n) = 0 :=
  ⟨put on [(pgFio, R.FIO_PT_STAT_overcurrent_l 31, 1), (pgFio, R.FIO_FAULT_fault, 0x80000000)], .chrysalis, 31, 0x80000000#32, by decide⟩

theorem test_LoadChannels_1 : ∃ (s : State) (r : Req) (d : Word), Accepts s r pgLdc 0x024 ∧ s.rd pgLdc (R.CTRL_enable pgLdc) = 1 :=
  ⟨put on [(pgLdc, R.CTRL_enable pgLdc, 1)], .chrysalis, 0x801#32, by decide⟩

theorem test_LoadChannels_2 : ∃ (s : State) (r : Req) (d : Word), Accepts s r pgLdc 0x028 :=
  ⟨put on [(pgLdc, R.LDC_CH_STAT_state 11, 2), (pgLdc, R.LDC_CH_STAT_retries 11, 2), (pgLdc, R.LDC_ON_on, 0x801)], .chrysalis, 0x800#32, by decide⟩

theorem test_LoadChannels_3 : ∃ (s : State) (r : Req) (d : Word), Accepts s r pgLdc 0x020 ∧ s.rd pgLdc (R.CTRL_enable pgLdc) = 1 :=
  ⟨put on [(pgLdc, R.CTRL_enable pgLdc, 1), (pgLdc, R.LDC_CH_STAT_state 11, 1), (pgLdc, R.LDC_ON_on, 0x800)], .chrysalis, 1#32, by decide⟩

theorem test_LoadChannels_4 : ∃ (s : State) (n : Fin 12) (short : Bool), s.fieldOn = true ∧ s.fld.low = false ∧ s.ldSt n = 1 ∧ s.ldC n < s.rd pgLdc (R.LDC_CH_CFG_retry_max n) :=
  ⟨put on [(pgLdc, R.LDC_CH_STAT_state 11, 1), (pgLdc, R.LDC_ON_on, 0x800)], 11, true, by decide⟩

theorem test_LoadChannels_5 : ∃ (s : State) (n : Fin 12) (short : Bool), s.fieldOn = true ∧ s.fld.low = false ∧ s.ldSt n = 1 ∧ s.rd pgLdc (R.LDC_CH_CFG_retry_max n) ≤ s.ldC n :=
  ⟨put on [(pgLdc, R.LDC_CH_STAT_state 11, 1), (pgLdc, R.LDC_CH_STAT_retries 11, 3), (pgLdc, R.LDC_ON_on, 0x800)], 11, false, by decide⟩

theorem test_LoadChannels_6 : ∃ (s : State) (n : Fin 12), s.fieldOn = true ∧ s.ldSt n = 2 ∧ s.ldC n < 15 :=
  ⟨put on [(pgLdc, R.LDC_CH_STAT_state 11, 2), (pgLdc, R.LDC_CH_STAT_retries 11, 14)], 11, by decide⟩

theorem test_LoadChannels_7 : ∃ (s : State) (n : Fin 12), s.fieldOn = true ∧ s.ldSt n = 1 :=
  ⟨put on [(pgLdc, R.LDC_CH_STAT_state 11, 1), (pgLdc, R.LDC_CH_STAT_retries 11, 3)], 11, by decide⟩

theorem test_LoadChannels_8 : ∃ (s : State) (n : Fin 12) (temp : Fin 256), s.fieldOn = true ∧ 234 < temp.val :=
  ⟨put on [(pgLdc, R.LDC_CH_STAT_state 5, 1), (pgLdc, R.LDC_CH_STAT_retries 5, 1)], 5, 235, by decide⟩

theorem test_LoadChannels_9 : ∃ (s : State) (r : Req) (n : Fin 12) (d : Word), Accepts s r pgLdc 0x02C ∧ d.toNat = 2 ^ n.val ∧ s.ldSt n = 3 ∧ s.rd pgLdc (R.LDC_CH_CAUSE_thermal n) = 1 :=
  ⟨put on [(pgLdc, R.LDC_CH_STAT_state 5, 3), (pgLdc, R.LDC_CH_CAUSE_thermal 5, 1), (pgLdc, R.LDC_FAULT_fault, 0x20)], .chrysalis, 5, 0x20#32, by decide⟩

theorem test_LoadChannels_10 : ∃ (s : State) (r : Req) (n : Fin 12) (d : Word), Accepts s r pgLdc 0x02C ∧ d.toNat = 2 ^ n.val ∧ s.ldSt n = 3 ∧ s.rd pgLdc (R.LDC_CH_CAUSE_thermal n) = 0 ∧ s.rd pgLdc (R.LDC_CH_CAUSE_clamp_l n) = 0 ∧ s.ldBit n = true ∧ s.ldC n < s.rd pgLdc (R.LDC_CH_CFG_retry_max n) ∧ s.ldC n < 15 ∧ s.rd pgLdc (R.CTRL_enable pgLdc) = 1 :=
  ⟨put on [(pgLdc, R.CTRL_enable pgLdc, 1), (pgLdc, R.LDC_CH_STAT_state 5, 3), (pgLdc, R.LDC_CH_STAT_retries 5, 1), (pgLdc, R.LDC_ON_on, 0x20), (pgLdc, R.LDC_CH_CAUSE_thermal_l 5, 1)], .chrysalis, 5, 0x20#32, by decide⟩

theorem test_LoadPwmClampAndTotal_1 : ∃ (s : State), s.fieldOn = true :=
  ⟨put on [(pgLdc, R.LDC_PWM_PER_ticks, 100)], by decide⟩

theorem test_LoadPwmClampAndTotal_2 : ∃ (s : State) (n : Fin 12) (e : Nat), s.fld.die = true ∧ s.rd pgLdc (R.LDC_CH_EACC_acc n) + e ≤ 1024 * s.ldBudget n :=
  ⟨put on [(pgLdc, R.LDC_CH_EACC_acc 11, 4096)], 11, 98304, by decide⟩

theorem test_LoadPwmClampAndTotal_3 : ∃ (s : State) (n : Fin 12) (e : Nat), s.fld.die = true ∧ 1024 * s.ldBudget n < s.rd pgLdc (R.LDC_CH_EACC_acc n) + e ∧ s.ldSt n ≠ 3 :=
  ⟨put on [(pgLdc, R.LDC_CH_EACC_acc 11, 4097), (pgLdc, R.LDC_CH_STAT_state 11, 1), (pgLdc, R.LDC_ON_on, 0x800)], 11, 98304, by decide⟩

theorem test_LoadPwmClampAndTotal_4 : ∃ (s : State), s.fld.die = true :=
  ⟨put on [(pgLdc, R.LDC_CH_EACC_acc 11, 98304)], by decide⟩

theorem test_LoadPwmClampAndTotal_5 : ∃ (s : State) (r : Req) (n : Fin 12) (d : Word), Accepts s r pgLdc (0x10C + 32 * n.val) ∧ s.rd pgLdc (R.LDC_CH_CLAMP_lock n) = 0 :=
  ⟨on, .chrysalis, 11, 150#32, by decide⟩

theorem test_LoadPwmClampAndTotal_6 : ∃ (s : State) (ma : List Nat) (n : Fin 12), s.fieldOn = true ∧ min 16000 (s.rd pgLdc R.LDC_TOTAL_limit_ma) < ((List.range 12).map (fun i => ma.getD i 0)).sum ∧ s.ldSt n = 1 ∧ s.rd pgLdc (R.LDC_CH_CFG_shed n) = 1 ∧ ((∀ m < 12, n.val < m → s.ldSt m ≠ 1)) :=
  ⟨put on [(pgLdc, R.LDC_CH_STAT_state 10, 1), (pgLdc, R.LDC_CH_CFG_shed 10, 1), (pgLdc, R.LDC_ON_on, 0x400)], [16000, 1], 10, by decide⟩

theorem test_LoadPwmClampAndTotal_7 : ∃ (s : State) (n : Fin 12), s.fieldOn = true ∧ s.ldSt n = 1 ∧ s.rd pgLdc (R.LDC_CH_CFG_ol_en n) = 1 ∧ s.rd pgLdc (R.LDC_CH_CAUSE_open_load n) = 0 :=
  ⟨put on [(pgLdc, R.LDC_CH_STAT_state 11, 1), (pgLdc, R.LDC_CH_CFG_ol_en 11, 1)], 11, by decide⟩

theorem test_CanControllerStates_2 : ∃ (s : State) (r : Req) (n : Fin 4) (d : Word), Accepts s r (pgCan n) 0x030 ∧ s.canSt n = 0 ∧ s.canTiming n = true ∧ R.CAN_CMD_stop.ofB d = false :=
  ⟨put on [(pgCan 2, R.CAN_NBT_sjw, 15), (pgCan 2, R.CAN_NBT_tseg1, 62), (pgCan 2, R.CAN_NBT_tseg2, 15), (pgCan 2, R.CAN_DBT_tseg1, 13), (pgCan 2, R.CAN_DBT_tseg2, 4), (pgClk, R.CLK_GATE_can, 15)], .chrysalis, 2, 0x80000000#32, by decide⟩

theorem test_CanControllerStates_3 : ∃ (s : State) (r : Req) (n : Fin 4) (d : Word), Accepts s r (pgCan n) 0x030 ∧ s.canSt n = 0 ∧ s.canTiming n = false :=
  ⟨put on [(pgClk, R.CLK_GATE_can, 15)], .chrysalis, 2, 0#32, by decide⟩

theorem test_CanControllerStates_4 : ∃ (s : State) (r : Req) (n : Fin 4) (d : Word), Accepts s r (pgCan n) 0x030 ∧ s.canSt n = 1 :=
  ⟨put on [(pgClk, R.CLK_GATE_can, 15), (pgCan 3, R.CAN_STAT_state, 1)], .chrysalis, 3, 0#32, by decide⟩

theorem test_CanControllerStates_5 : ∃ (s : State) (r : Req) (n : Fin 4) (d : Word), Accepts s r (pgCan n) 0x030 ∧ s.canSt n = 1 :=
  ⟨put on [(pgClk, R.CLK_GATE_can, 15), (pgCan 3, R.CAN_STAT_state, 1)], .chrysalis, 3, 0#32, by decide⟩

theorem test_CanControllerStates_6 : ∃ (s : State) (r : Req) (n : Fin 4) (d : Word), Accepts s r (pgCan n) 0x030 ∧ s.rd (pgCan n) R.CAN_STAT_err_state = 2 ∧ R.CAN_CMD_start.ofB d = false ∧ R.CAN_CMD_stop.ofB d = false :=
  ⟨put on [(pgClk, R.CLK_GATE_can, 15), (pgCan 3, R.CAN_STAT_err_state, 2)], .chrysalis, 3, 0#32, by decide⟩

theorem test_CanControllerStates_7 : ∃ (s : State) (n : Fin 4), s.canOn n = true ∧ s.rd (pgCan n) R.CAN_STAT_err_state = 2 ∧ (s.rd (pgCan n) R.CAN_CFG_abo = 1 ∨ (s.can n).recover = true) :=
  ⟨put on [(pgClk, R.CLK_GATE_can, 15), (pgCan 3, R.CAN_STAT_err_state, 2), (pgCan 3, R.CAN_ERR_tec, 256), (pgCan 3, R.CAN_CFG_abo, 1)], 3, by decide⟩

theorem test_CanControllerStates_8 : ∃ (s : State) (n : Fin 4), s.canOn n = true ∧ s.rd (pgCan n) R.CAN_STAT_err_state = 2 ∧ s.rd (pgCan n) R.CAN_CFG_abo = 0 ∧ (s.can n).recover = false :=
  ⟨put on [(pgClk, R.CLK_GATE_can, 15), (pgCan 3, R.CAN_STAT_err_state, 2), (pgCan 3, R.CAN_ERR_tec, 256)], 3, by decide⟩

theorem test_CanControllerStates_9 : ∃ (s : State) (n : Fin 4) (lec : Fin 8) (eight : Bool), s.canRuns n = true ∧ lec.val ≠ 7 ∧ s.rd (pgCan n) R.CAN_ERR_tec < 2 ^ 9 :=
  ⟨put on [(pgClk, R.CLK_GATE_can, 15), (pgCan 3, R.CAN_STAT_state, 1), (pgCan 3, R.CAN_ERR_rec, 125)], 3, 2, true, by decide⟩

theorem test_CanControllerStates_10 : ∃ (s : State) (n : Fin 4) (eight : Bool), s.canRuns n = true ∧ s.rd (pgCan n) R.CAN_CFG_pxe = 1 :=
  ⟨put on [(pgClk, R.CLK_GATE_can, 15), (pgCan 3, R.CAN_STAT_state, 1), (pgCan 3, R.CAN_ERR_rec, 125)], 3, true, by decide⟩

theorem test_CanTransmission_1 : ∃ (s : State) (r : Req) (n : Fin 4) (d : Word), Accepts s r (pgCan n) 0x038 ∧ (∀ b < 32, s.txBad n b = false) :=
  ⟨put on [(pgClk, R.CLK_GATE_can, 15), (pgCan 1, R.CAN_STAT_state, 1), (pgCan 1, R.CAN_TX_PEND_pend, 2)], .chrysalis, 1, 0x80000001#32, by decide⟩

theorem test_CanTransmission_2 : ∃ (s : State) (r : Req) (n : Fin 4) (b : Fin 32), Accepts s r (pgCan n) 0x038 ∧ s.canSends n = true ∧ s.txBad n b = true ∧ s.rd (pgCan n) R.CAN_TX_PEND_pend = 0 :=
  ⟨put on [(pgClk, R.CLK_GATE_can, 15), (pgCan 1, R.CAN_STAT_state, 1), (pgCan 1, R.CAN_TXBUF_data 31 1, 0x40000000)], .chrysalis, 1, 31, by decide⟩

theorem test_CanTransmission_3 : ∃ (s : State) (r : Req) (n : Fin 4) (d : Word), Accepts s r (pgCan n) 0x03C :=
  ⟨put on [(pgClk, R.CLK_GATE_can, 15), (pgCan 1, R.CAN_TX_PEND_pend, 3)], .chrysalis, 1, 0x6#32, by decide⟩

theorem test_CanTransmission_4 : ∃ (s : State) (r : Req) (n : Fin 4) (d : Word) (b : Fin 32), Accepts s r (pgCan n) 0x03C ∧ d.toNat.testBit b = true ∧ (s.rd (pgCan n) R.CAN_TX_PEND_pend).testBit b = true :=
  ⟨put on [(pgClk, R.CLK_GATE_can, 15), (pgCan 1, R.CAN_TX_PEND_pend, 3)], .chrysalis, 1, 0x3#32, 1, by decide⟩

theorem test_CanTransmission_5 : ∃ (s : State) (n : Fin 4) (b : Fin 32) (lec : Fin 8) (cnt : Bool), s.canSends n = true ∧ s.txBest n (s.rd (pgCan n) R.CAN_TX_PEND_pend) = some b.val :=
  ⟨put on [(pgClk, R.CLK_GATE_can, 15), (pgCan 1, R.CAN_STAT_state, 1), (pgCan 1, R.CAN_TX_PEND_pend, 3), (pgCan 1, R.CAN_TXBUF_data 0 0, 0x201)], 1, 1, 0, false, by decide⟩

theorem test_CanTransmission_6 : ∃ (s : State) (n : Fin 4) (b : Fin 32) (lec : Fin 8) (cnt : Bool), s.canSends n = true ∧ s.txBest n (s.rd (pgCan n) R.CAN_TX_PEND_pend) = some b.val ∧ (s.rd (pgCan n) R.CAN_TX_PEND_pend).testBit b = true ∧ (s.rd (pgCan n) R.CAN_TX_ABORT_abort).testBit b = true :=
  ⟨put on [(pgClk, R.CLK_GATE_can, 15), (pgCan 1, R.CAN_STAT_state, 1), (pgCan 1, R.CAN_TX_PEND_pend, 3), (pgCan 1, R.CAN_TX_ABORT_abort, 2), (pgCan 1, R.CAN_TXBUF_data 0 0, 0x201)], 1, 1, 0, false, by decide⟩

theorem test_CanReception_2 : ∃ (s : State) (n : Fin 4) (w1 : Word) (id : Fin 2048) (data : List Byte) (f : Nat), s.canRuns n = true ∧ s.rd (pgCan n) R.CAN_CFG_mode ≠ 3 ∧ (w1.toNat.testBit 30 = false ∨ s.rd (pgCan n) R.CAN_CFG_fd = 1) ∧ s.canFilter n id = some f ∧ s.rd (pgCan n) (R.CAN_FLT_MASK_dest f) = 0 ∧ (s.can n).rx0.length < 64 :=
  ⟨put on [(pgClk, R.CLK_GATE_can, 15), (pgCan 1, R.CAN_STAT_state, 1), (pgCan 1, R.CAN_FLT_ID_en 63, 1), (pgCan 1, R.CAN_FLT_ID_id 63, 0x7FF), (pgCan 1, R.CAN_FLT_MASK_mask 63, 0x7FF)], 1, 0x80000#32, 2047, [1, 2, 3, 4, 5, 6, 7, 8], 63, by decide⟩

theorem test_CanReception_3 : ∃ (s : State) (n : Fin 4) (w1 : Word) (id : Fin 2048) (data : List Byte), s.canRuns n = true ∧ s.rd (pgCan n) R.CAN_CFG_mode ≠ 3 ∧ (w1.toNat.testBit 30 = false ∨ s.rd (pgCan n) R.CAN_CFG_fd = 1) ∧ s.canFilter n id = none ∧ s.rd (pgCan n) R.CAN_CFG_nomatch = 1 ∧ 64 ≤ (s.can n).rx1.length :=
  ⟨(put on [(pgClk, R.CLK_GATE_can, 15), (pgCan 1, R.CAN_STAT_state, 1), (pgCan 1, R.CAN_CFG_nomatch, 1)]).modCan 1 (fun x => { x with rx1 := List.replicate 64 [] }), 1, 0x80000#32, 2047, [1, 2], by decide⟩

theorem test_CanReception_4 : ∃ (s : State) (r : Req) (n : Fin 4) (d : Word), Accepts s r (pgCan n) 0x050 ∧ R.CAN_RXQ_CMD_pop1.ofB d = false :=
  ⟨(put on [(pgClk, R.CLK_GATE_can, 15)]).modCan 1 (fun x => { x with rx0 := [[1], [2]], rx1 := [[3]] }), .chrysalis, 1, 0#32, by decide⟩

theorem test_NetworkSleepAndWake_1 : ∃ (s : State) (r : Req) (n : Fin 4) (d : Word), Accepts s r pgNwm (0x100 + 128 * n.val) ∧ s.nwmSt n = 0 ∧ (R.NWM_CH_CTRL_en n).ofB d = true ∧ (R.NWM_CH_CTRL_wake n).ofB d = false :=
  ⟨on, .chrysalis, 3, 0x80000000#32, by decide⟩

theorem test_NetworkSleepAndWake_2 : ∃ (s : State) (r : Req) (n : Fin 4) (d : Word), Accepts s r pgNwm (0x100 + 128 * n.val) ∧ (R.NWM_CH_CTRL_en n).ofB d = false :=
  ⟨put on [(pgNwm, R.NWM_CH_STAT_state 3, 4)], .chrysalis, 3, 0#32, by decide⟩

theorem test_NetworkSleepAndWake_3 : ∃ (s : State) (r : Req) (n : Fin 4) (d : Word), Accepts s r pgNwm (0x100 + 128 * n.val) ∧ (R.NWM_CH_CTRL_wake n).ofB d = false :=
  ⟨put on [(pgNwm, R.NWM_CH_STAT_state 3, 1)], .chrysalis, 3, 0#32, by decide⟩

theorem test_NetworkSleepAndWake_4 : ∃ (s : State) (n : Fin 4), s.nwmSt n = 1 ∧ s.rd pgNwm (R.NWM_CH_TIME_ka_ms n) ≠ 0 ∧ s.canOn n = true ∧ s.rd pgNwm (R.NWM_CH_KA_tx_buf n) < 32 ∧ (∀ b < 32, s.txBad n b = false) :=
  ⟨put on [(pgClk, R.CLK_GATE_can, 15), (pgNwm, R.NWM_CH_STAT_state 3, 1), (pgCan 3, R.CAN_STAT_state, 1)], 3, by decide⟩

theorem test_NetworkSleepAndWake_5 : ∃ (s : State) (n : Fin 4), s.nwmSt n = 2 :=
  ⟨put on [(pgNwm, R.NWM_CH_STAT_state 3, 2), (pgCan 3, R.CAN_TX_PEND_pend, 0x80000001)], 3, by decide⟩

theorem test_NetworkSleepAndWake_6 : ∃ (s : State) (n : Fin 4), s.nwmSt n = 3 ∧ s.canSt n = 1 :=
  ⟨put on [(pgNwm, R.NWM_CH_STAT_state 3, 3), (pgCan 3, R.CAN_STAT_state, 1)], 3, by decide⟩

theorem test_NetworkSleepAndWake_7 : ∃ (s : State) (n : Fin 4), s.nwmSt n = 3 ∧ s.canSt n ≠ 1 :=
  ⟨put on [(pgNwm, R.NWM_CH_STAT_state 3, 3), (pgCan 3, R.CAN_STAT_state, 2)], 3, by decide⟩

theorem test_NetworkSleepAndWake_8 : ∃ (s : State) (n : Fin 4), s.nwmSt n = 2 ∧ s.rd pgNwm (R.NWM_CH_STUCK_stuck_s n) ≠ 0 ∧ (s.can n).stuck = false :=
  ⟨put on [(pgNwm, R.NWM_CH_STAT_state 3, 2)], 3, by decide⟩

theorem test_NetworkSleepAndWake_9 : ∃ (s : State) (n : Fin 4), (s.can n).stuck = true :=
  ⟨on.modCan 3 (fun x => { x with stuck := true }), 3, by decide⟩

theorem test_NetworkSleepAndWake_10 : ∃ (s : State) (r : Req) (n : Fin 4) (d : Word), Accepts s r pgNwm (0x100 + 128 * n.val) ∧ s.nwmSt n = 4 ∧ (s.can n).latch = none ∧ (s.can n).dwell = false ∧ s.rd pgNwm R.NWM_WAKE_SRC_valid = 0 :=
  ⟨put on [(pgNwm, R.NWM_CH_STAT_state 3, 4)], .chrysalis, 3, 0#32, by decide⟩

theorem test_NetworkSleepAndWake_11 : ∃ (s : State) (r : Req) (n : Fin 4) (d : Word), Accepts s r pgNwm (0x100 + 128 * n.val) ∧ s.nwmSt n = 3 ∧ (s.can n).latch = none ∧ (s.can n).dwell = true :=
  ⟨(put on [(pgNwm, R.NWM_CH_STAT_state 3, 3)]).modCan 3 (fun x => { x with dwell := true }), .chrysalis, 3, 0#32, by decide⟩

theorem test_NetworkSleepAndWake_12 : ∃ (s : State) (n : Fin 2) (w0 : Word) (w1 : Word) (data : List Byte), s.nwmSt n = 4 ∧ s.rd pgNwm (R.NWM_CH_WCFG_mode n) = 0 ∧ (s.can n).latch = none ∧ (s.can n).dwell = false :=
  ⟨put on [(pgNwm, R.NWM_CH_STAT_state 1, 4)], 1, 0#32, 0#32, [], by decide⟩

theorem test_NetworkSleepAndWake_13 : ∃ (s : State) (n : Fin 2) (w0 : Word) (w1 : Word) (data : List Byte), s.nwmSt n = 4 ∧ s.rd pgNwm (R.NWM_CH_WCFG_mode n) = 1 ∧ (s.can n).latch = none ∧ (s.can n).dwell = false ∧ w1.toNat.testBit 30 = false ∧ s.rd pgNwm (R.NWM_SW_ERRCNT_count n) = 31 :=
  ⟨put on [(pgNwm, R.NWM_CH_STAT_state 1, 4), (pgNwm, R.NWM_CH_WCFG_mode 1, 1), (pgNwm, R.NWM_SW_ERRCNT_count 1, 31)], 1, 0#32, 0#32, [], by decide⟩

theorem test_NetworkSleepAndWake_14 : ∃ (s : State) (n : Fin 2) (w0 : Word) (w1 : Word) (data : List Byte) (e : Fin 4), s.nwmSt n = 4 ∧ s.rd pgNwm (R.NWM_CH_WCFG_mode n) = 1 ∧ (s.can n).latch = none ∧ (s.can n).dwell = false ∧ w1.toNat.testBit 30 = false ∧ s.rd pgNwm (R.NWM_SW_ERRCNT_count n) < 64 ∧ s.swMatch n e w0.toNat w1.toNat data = true :=
  ⟨put on [(pgNwm, R.NWM_CH_STAT_state 1, 4), (pgNwm, R.NWM_CH_WCFG_mode 1, 1), (pgNwm, R.NWM_SW_ERRCNT_count 1, 0), (pgNwm, R.NWM_SW_ID_en 1 3, 1), (pgNwm, R.NWM_SW_ID_id 1 3, 5), (pgNwm, R.NWM_SW_MASK_mask 1 3, 0x7FF)], 1, 5#32, 0#32, [], 3, by decide⟩

theorem test_NetworkSleepAndWake_15 : ∃ (s : State) (n : Fin 4) (kind : Fin 6), (s.can n).dwell = true ∧ (s.can n).latch = some kind.val ∧ s.rd pgNwm R.NWM_WAKE_SRC_valid = 0 :=
  ⟨(put on [(pgNwm, R.NWM_CH_STAT_state 3, 4), (pgCan 3, R.CAN_STAT_state, 2)]).modCan 3 (fun x => { x with dwell := true, latch := some 4 }), 3, 4, by decide⟩

theorem test_NetworkSleepAndWake_16 : ∃ (s : State) (n : Fin 4), s.nwmSt n = 5 ∧ s.canOn n = true ∧ s.canSt n = 1 ∧ s.rd pgNwm (R.NWM_CH_CTRL_awake_req n) = 1 :=
  ⟨put on [(pgClk, R.CLK_GATE_can, 15), (pgNwm, R.NWM_CH_STAT_state 3, 5), (pgCan 3, R.CAN_STAT_state, 1), (pgNwm, R.NWM_CH_CTRL_awake_req 3, 1)], 3, by decide⟩

theorem test_NetworkSleepAndWake_17 : ∃ (s : State) (n : Fin 4), s.nwmSt n = 5 ∧ s.canOn n = true ∧ s.canSt n = 1 ∧ s.rd pgNwm (R.NWM_CH_CTRL_awake_req n) = 0 :=
  ⟨put on [(pgClk, R.CLK_GATE_can, 15), (pgNwm, R.NWM_CH_STAT_state 3, 5), (pgCan 3, R.CAN_STAT_state, 1), (pgNwm, R.NWM_CH_KEEPER_restarts 3, 9), (pgNwm, R.NWM_CH_NODES_seen 3 7, 9)], 3, by decide⟩

theorem test_ClockServo_1 : ∃ (s : State) (r : Req) (d : Word) (dt : Nat) (u : Nat) (o : Int), Accepts s r pgPtp 0x034 ∧ s.ptpOn = true ∧ o = toS 64 (s.rd pgPtp R.PTP_MEAS_W0_off + 2 ^ 32 * d.toNat) ∧ 65536 * s.rd pgPtp R.PTP_JUMP_TH_ns < o.natAbs ∧ s.rd pgPtp R.PTP_STAT_state = 0 ∧ s.anyArmed = true :=
  ⟨(put on [(pgPtp, R.PTP_MEAS_W0_off, 0x4000000)]).setCst 3 2, .chrysalis, 0#32, 0, 0, 0x4000000, by decide⟩

theorem test_ClockServo_2 : ∃ (s : State) (r : Req) (d : Word) (dt : Nat) (u : Nat) (o : Int), Accepts s r pgPtp 0x034 ∧ s.ptpOn = true ∧ o = toS 64 (s.rd pgPtp R.PTP_MEAS_W0_off + 2 ^ 32 * d.toNat) ∧ 65536 * s.rd pgPtp R.PTP_JUMP_TH_ns < o.natAbs ∧ s.rd pgPtp R.PTP_STAT_state ≠ 0 ∧ s.rd pgPtp R.PTP_STAT_state ≠ 4 :=
  ⟨put on [(pgPtp, R.PTP_MEAS_W0_off, 0x4000000), (pgPtp, R.PTP_STAT_state, 3), (pgPtp, R.PTP_FREQ_f, 5)], .chrysalis, 0#32, 0, 0, 0x4000000, by decide⟩

theorem test_ClockServo_3 : ∃ (s : State) (r : Req) (d : Word) (dt : Nat) (u : Nat) (o : Int), Accepts s r pgPtp 0x034 ∧ s.ptpOn = true ∧ o = toS 64 (s.rd pgPtp R.PTP_MEAS_W0_off + 2 ^ 32 * d.toNat) ∧ s.rd pgPtp R.PTP_STAT_state = 0 ∧ s.anyArmed = false :=
  ⟨put on [(pgPtp, R.PTP_MEAS_W0_off, 1)], .chrysalis, 0xFFFF0000#32, 0, 9, -281474976710655, by decide⟩

theorem test_ClockServo_4 : ∃ (s : State) (r : Req) (d : Word) (dt : Nat) (u : Nat) (o : Int), Accepts s r pgPtp 0x034 ∧ s.ptpOn = true ∧ o = toS 64 (s.rd pgPtp R.PTP_MEAS_W0_off + 2 ^ 32 * d.toNat) ∧ o.natAbs ≤ 65536 * s.rd pgPtp R.PTP_JUMP_TH_ns ∧ s.rd pgPtp R.PTP_STAT_state ≠ 0 :=
  ⟨put on [(pgPtp, R.PTP_MEAS_W0_off, 0), (pgPtp, R.PTP_STAT_state, 2), (pgPtp, R.PTP_FREQ_f, 5)], .chrysalis, 0#32, 68719476736, 0, 0, by decide⟩

theorem test_ClockServo_5 : ∃ (s : State) (r : Req) (d : Word) (dt : Nat) (u : Nat) (o : Int), Accepts s r pgPtp 0x034 ∧ s.ptpOn = true ∧ o = toS 64 (s.rd pgPtp R.PTP_MEAS_W0_off + 2 ^ 32 * d.toNat) ∧ o.natAbs ≤ 65536 * s.rd pgPtp R.PTP_JUMP_TH_ns ∧ ((s.rd pgPtp R.PTP_STAT_state = 0 ∧ s.anyArmed = true) ∨ s.rd pgPtp R.PTP_STAT_state = 3 ∨ s.rd pgPtp R.PTP_STAT_state = 4) :=
  ⟨put on [(pgPtp, R.PTP_MEAS_W0_off, 0x10000), (pgPtp, R.PTP_STAT_state, 4), (pgPtp, R.PTP_FREQ_f, 5)], .chrysalis, 0#32, 68719476736, 0, 65536, by decide⟩

theorem test_ClockServo_6 : ∃ (s : State) (r : Req) (d : Word) (dt : Nat) (u : Nat) (o : Int), Accepts s r pgPtp 0x034 ∧ s.ptpOn = true ∧ o = toS 64 (s.rd pgPtp R.PTP_MEAS_W0_off + 2 ^ 32 * d.toNat) ∧ 65536 * s.rd pgPtp R.PTP_JUMP_TH_ns < o.natAbs ∧ s.rd pgPtp R.PTP_STAT_state = 4 ∧ (s.rdS pgPtp R.PTP_FREQ_f).natAbs ≤ 109951162 ∧ s.rd pgPtp R.PTP_SERVO_LIM_slew_ppm ≤ 50 :=
  ⟨put on [(pgPtp, R.PTP_MEAS_W0_off, 0x4000000), (pgPtp, R.PTP_STAT_state, 4), (pgPtp, R.PTP_FREQ_f, 5)], .chrysalis, 0#32, 68719476736, 0, 0x4000000, by decide⟩

theorem test_ClockServo_7 : ∃ (s : State) (r : Req) (d : Word) (dt : Nat) (u : Nat) (o : Int), Accepts s r pgPtp 0x034 ∧ s.ptpOn = true ∧ o = toS 64 (s.rd pgPtp R.PTP_MEAS_W0_off + 2 ^ 32 * d.toNat) ∧ o.natAbs ≤ 65536 * s.rd pgPtp R.PTP_JUMP_TH_ns ∧ o.natAbs ≤ 65536 * s.rd pgPtp R.PTP_SERVO_LIM_lock_ns ∧ s.rd pgPtp R.PTP_STAT_state = 1 ∧ s.rd pgPtp R.PTP_STAT_lock_cnt = 7 :=
  ⟨put on [(pgPtp, R.PTP_MEAS_W0_off, 0x320000), (pgPtp, R.PTP_STAT_state, 1), (pgPtp, R.PTP_STAT_lock_cnt, 7)], .chrysalis, 0#32, 68719476736, 0, 0x320000, by decide⟩

theorem test_ClockServo_8 : ∃ (s : State) (r : Req) (d : Word) (dt : Nat) (u : Nat) (o : Int), Accepts s r pgPtp 0x034 ∧ s.ptpOn = true ∧ o = toS 64 (s.rd pgPtp R.PTP_MEAS_W0_off + 2 ^ 32 * d.toNat) ∧ o.natAbs ≤ 65536 * s.rd pgPtp R.PTP_JUMP_TH_ns ∧ 65536 * s.rd pgPtp R.PTP_SERVO_LIM_lock_ns < o.natAbs ∧ s.rd pgPtp R.PTP_STAT_state = 2 ∧ s.esw.bad = 3 :=
  ⟨(put on [(pgPtp, R.PTP_MEAS_W0_off, 0x330000), (pgPtp, R.PTP_STAT_state, 2)]).setEsw { bad := 3 }, .chrysalis, 0#32, 68719476736, 0, 0x330000, by decide⟩

theorem test_ClockServo_9 : ∃ (s : State) (r : Req) (d : Word), Accepts s r pgPtp 0x028 ∧ s.ptpOn = true ∧ R.PTP_CMD_step.ofB d = false ∧ R.PTP_CMD_holdover.ofB d = false ∧ R.PTP_CMD_cancel.ofB d = false :=
  ⟨on, .chrysalis, 0#32, by decide⟩

theorem test_ClockServo_10 : ∃ (s : State) (r : Req) (d : Word) (u : Nat) (o : Int), Accepts s r pgPtp 0x028 ∧ s.ptpOn = true ∧ R.PTP_CMD_slew.ofB d = false ∧ R.PTP_CMD_holdover.ofB d = false ∧ R.PTP_CMD_cancel.ofB d = false ∧ s.anyArmed = false ∧ s.esw.last = some o :=
  ⟨on.setEsw { last := some (-65536) }, .chrysalis, 0#32, 5, -65536, by decide⟩

theorem test_ClockServo_11 : ∃ (s : State) (r : Req) (d : Word) (u : Nat), Accepts s r pgPtp 0x028 ∧ s.ptpOn = true ∧ R.PTP_CMD_slew.ofB d = false ∧ R.PTP_CMD_holdover.ofB d = false ∧ R.PTP_CMD_cancel.ofB d = false :=
  ⟨on, .chrysalis, 0#32, 5, by decide⟩

theorem test_ClockServo_12 : ∃ (s : State) (r : Req) (d : Word), Accepts s r pgPtp 0x028 ∧ s.ptpOn = true ∧ R.PTP_CMD_slew.ofB d = false ∧ R.PTP_CMD_step.ofB d = false ∧ R.PTP_CMD_cancel.ofB d = false :=
  ⟨put on [(pgPtp, R.PTP_FREQ_f, 0xFFFFFFFE), (pgPtp, R.PTP_ADJ_a, 9)], .chrysalis, 0#32, by decide⟩

theorem test_ClockServo_13 : ∃ (s : State) (r : Req) (d : Word), Accepts s r pgPtp 0x028 ∧ s.ptpOn = true ∧ R.PTP_CMD_slew.ofB d = false ∧ R.PTP_CMD_step.ofB d = false ∧ R.PTP_CMD_holdover.ofB d = false ∧ s.rd pgPtp R.PTP_STAT_state = 4 :=
  ⟨put on [(pgPtp, R.PTP_FREQ_f, 0xFFFFFFFE), (pgPtp, R.PTP_ADJ_a, 9), (pgPtp, R.PTP_STAT_state, 4)], .chrysalis, 0#32, by decide⟩

theorem test_ClockServo_14 : ∃ (s : State) (r : Req) (d : Word), Accepts s r pgPtp 0x028 ∧ s.ptpOn = true ∧ (R.PTP_CMD_step.ofB d = true ∨ R.PTP_CMD_holdover.ofB d = true ∨ R.PTP_CMD_cancel.ofB d = true) :=
  ⟨put on [(pgPtp, R.PTP_ADJ_a, 9)], .chrysalis, 0x10000000#32, by decide⟩

theorem test_ClockServo_15 : ∃ (s : State), s.ptpOn = true ∧ (s.rd pgPtp R.PTP_STAT_state = 1 ∨ s.rd pgPtp R.PTP_STAT_state = 2) :=
  ⟨put on [(pgPtp, R.PTP_FREQ_f, 0xFFFFFFFE), (pgPtp, R.PTP_ADJ_a, 9), (pgPtp, R.PTP_STAT_state, 2)], by decide⟩

theorem test_PtpTimestamps_1 : ∃ (s : State) (p : Fin 3) (cap : Nat) (seq : Nat) (type : Nat) (dom : Nat) (rest : List (Nat × Nat × Nat)), s.esw.tsWait.get [] p.val = (seq, type, dom) :: rest ∧ (s.esw.tsq.get [] p.val).length < 16 :=
  ⟨on.setEsw { tsWait := [(2, [(5, 1, 0)])] }, 2, 1000, 5, 1, 0, [], by decide⟩

theorem test_PtpTimestamps_2 : ∃ (s : State) (p : Fin 3) (cap : Nat), s.esw.tsWait.get [] p.val ≠ [] ∧ 16 ≤ (s.esw.tsq.get [] p.val).length :=
  ⟨on.setEsw { tsWait := [(2, [(5, 1, 0)])], tsq := [(2, List.replicate 16 ⟨0, 0, 0, 0⟩)] }, 2, 1000, by decide⟩

theorem test_PtpTimestamps_3 : ∃ (s : State) (r : Req) (p : Fin 3) (x : TsEnt) (rest : List TsEnt), s.accCause r pgPtp (0x120 + 64 * p.val) false = none ∧ s.esw.tsq.get [] p.val = x :: rest :=
  ⟨on.setEsw { tsq := [(2, [⟨65536000000, 7, 1, 3⟩])] }, .chrysalis, 2, ⟨65536000000, 7, 1, 3⟩, [], by decide⟩

theorem test_PtpTimestamps_4 : ∃ (s : State) (r : Req) (p : Fin 3), s.accCause r pgPtp (0x120 + 64 * p.val) false = none ∧ s.esw.tsq.get [] p.val = [] :=
  ⟨on, .chrysalis, 0, by decide⟩

theorem test_PtpTimestamps_5 : ∃ (s : State) (r : Req) (d : Word) (n : Nat) (a : Nat) (buf : Nat) (len : Nat) (p : Fin 3), Accepts s r pgPtp 0x094 ∧ s.ptpOn = true ∧ s.mem.wf = true ∧ s.eswOn = true ∧ s.portUp p = true ∧ n = s.rd pgPtp R.PTP_RING_tx_log ∧ 4 ≤ n ∧ n ≤ 10 ∧ s.ringDesc (s.rd2 pgPtp R.PTP_TX_BASE_W0_addr R.PTP_TX_BASE_W1_addr) 32 s.esw.ptpTx = some (a, buf) ∧ s.ringDesc (s.rd2 pgPtp R.PTP_TX_BASE_W0_addr R.PTP_TX_BASE_W1_addr) 32 ((s.esw.ptpTx + 1) % 2 ^ n) = none ∧ len = ofBytes (s.load (a + 8) 2) ∧ s.normDram buf len = true ∧ (ofBytes (s.load (a + 10) 1)) % 4 = p.val :=
  ⟨((put on [(pgClk, R.CLK_GATE_esw, 1), (pgSec, R.SEC_WM_DRAM_units, 0), (pgPtp, R.PTP_RING_tx_log, 4), (pgPtp, R.PTP_TX_BASE_W1_addr, 8), (pgEsw, R.ESW_P_CFG_en 2, 1), (pgEsw, R.ESW_P_STAT_link 2, 1)]).store 0x800000000 (toBytes 8 0x800002000 ++ [20, 0, 0x82, 1])).store 0x800002000 [1, 2, 3], .chrysalis, 0#32, 4, 0x800000000, 0x800002000, 20, 2, by decide⟩

theorem test_SwitchLookup_1 : ∃ (s : State) (p : Nat) (bs : List Byte), hasTag bs = false ∧ s.rd pgEsw (R.ESW_P_CFG_accept p) ≠ 1 ∧ bitOf (s.vlanMember (s.rd pgEsw (R.ESW_P_CFG_pvid p))) p = true :=
  ⟨on, 2, [], by decide⟩

theorem test_SwitchLookup_2 : ∃ (s : State) (p : Fin 3) (bs : List Byte) (cap : Nat) (busy : Fin 16), s.eswOn = true ∧ s.portUp p = true ∧ (∀ q < 3, s.arriving q = none) ∧ etherType bs ≠ 0x88F7 ∧ (s.lookup p bs).2 = false :=
  ⟨eswOn2, 1, [0, 0, 0, 0, 0, 1, 0, 0, 0, 0, 0, 2, 8, 0], 0, 0, by decide⟩

theorem test_SwitchLookup_3 : ∃ (s : State) (p : Fin 3) (bs : List Byte) (cap : Nat) (busy : Fin 16), s.eswOn = true ∧ s.portUp p = true ∧ (∀ q < 3, s.arriving q = none) ∧ (s.lookup p bs).2 = true :=
  ⟨eswOn2.wr pgEsw (R.ESW_P_CFG_accept 1) 1, 1, [0, 0, 0, 0, 0, 1, 0, 0, 0, 0, 0, 2, 8, 0], 0, 0, by decide⟩

theorem test_SwitchLookup_4 : ∃ (s : State) (p : Fin 3) (bs : List Byte) (cap : Nat) (busy : Fin 16), s.eswOn = true ∧ s.portUp p = true ∧ (∀ q < 3, s.arriving q = none) ∧ (s.lookup p bs).2 = false ∧ (s.lookup p bs).1.outs ≠ [] ∧ (∀ o < 4, s.admits o (s.lookup p bs).1.cls ((s.maxLen + 255) / 256) = false) :=
  ⟨(eswOn2.wr pgEsw R.ESW_BUF_CFG_shr_max 0).wr pgEsw R.ESW_BUF_CFG_rsv 0, 1, [0, 0, 0, 0, 0, 1, 0, 0, 0, 0, 0, 2, 8, 0], 0, 0, by decide⟩

theorem test_SwitchFrames_1 : ∃ (s : State) (p : Fin 3) (bs : List Byte) (f : EthFrame) (v : Nat), s.arriving p = some f ∧ f.vid = some v ∧ f.ptp = false ∧ f.now = [] ∧ 64 ≤ bs.length ∧ bs.length ≤ s.maxLen ∧ ofBytes (bs.drop (bs.length - 4)) = ethCrc (bs.take (bs.length - 4)) ∧ isMulti (be bs 6 6) = false ∧ s.rd pgEsw (R.ESW_P_CFG_learn p) = 1 ∧ s.atuFind v (be bs 6 6) = none ∧ s.atuFull v (be bs 6 6) = false :=
  ⟨eswOn2.setEsw { frames := [{ inp := 1, vid := some 1, w := 6 }] }, 1, ethEx ++ toBytes 4 (ethCrc ethEx), { inp := 1, vid := some 1, w := 6 }, 1, by decide +kernel⟩

theorem test_SwitchFrames_2 : ∃ (s : State) (p : Fin 3) (bs : List Byte) (f : EthFrame) (o : Fin 3) (add : Int), s.arriving p = some f ∧ f.now = [(o.val, add)] ∧ f.tsReq = false :=
  ⟨eswOn2.setEsw { frames := [{ inp := 1, vid := some 1, w := 6, now := [(2, 0)] }] }, 1, ethEx, { inp := 1, vid := some 1, w := 6, now := [(2, 0)] }, 2, 0, by decide +kernel⟩

theorem test_SwitchFrames_3 : ∃ (s : State) (o : Nat) (f : EthFrame) (g : EthFrame), s.nextFrame o = some f ∧ g ∈ s.esw.frames ∧ o ∈ g.outs ∧ g.ended = true ∧ g.cls < 8 :=
  ⟨eswOn2.setEsw { frames := [{ id := 1, cls := 6, ended := true, outs := [2] }, { id := 2, cls := 7, ended := true, outs := [2] }] }, 2, { id := 2, cls := 7, ended := true, outs := [2] }, { id := 1, cls := 6, ended := true, outs := [2] }, by decide⟩

theorem test_SwitchFrames_4 : ∃ (s : State) (o : Fin 3) (cap : Nat) (waited : Nat) (f : EthFrame), s.eswOn = true ∧ s.portUp o = true ∧ s.esw.pause.get 0 o.val ≤ waited ∧ (∀ g ∈ s.esw.frames, ∀ x ∈ g.now, x.1 ≠ o.val) ∧ s.nextFrame o = some f ∧ f.ended = true ∧ f.tsReq = false ∧ s.rd pgPtp R.PTP_CFG_tc = 0 :=
  ⟨eswOn2.setEsw { frames := [{ id := 2, cls := 7, ended := true, outs := [2], bytes := ethEx }], pause := [(2, 5)] }, 2, 0, 5, { id := 2, cls := 7, ended := true, outs := [2], bytes := ethEx }, by decide +kernel⟩

theorem test_SwitchFrames_5 : ∃ (s : State) (p : Fin 3) (quanta : Fin 65536) (len : Nat), s.eswOn = true ∧ s.portUp p = true :=
  ⟨eswOn2, 2, 65535, 64, by decide⟩

theorem test_SwitchFrames_6 : ∃ (s : State) (p : Fin 3) (cap : Nat) (waited : Nat), waited < s.esw.pause.get 0 p.val :=
  ⟨eswOn2.setEsw { pause := [(2, 5)] }, 2, 0, 4, by decide⟩

theorem test_SwitchFrames_7 : ∃ (s : State) (p : Fin 3), s.eswOn = true ∧ s.rd pgEsw (R.ESW_P_STAT_link p) = 1 :=
  ⟨eswOn2.setEsw { frames := [{ id := 2, cls := 7, ended := true, outs := [2, 0], bytes := ethEx }] }, 2, by decide⟩

theorem test_SwitchFrames_8 : ∃ (s : State) (p : Fin 2) (speed : Fin 3), s.eswOn = true ∧ s.rd pgEsw (R.ESW_P_CFG_en p) = 1 ∧ s.rd pgEsw (R.ESW_P_STAT_link p) = 0 ∧ s.rd pgEsw (R.ESW_P_CFG_mode p) < 3 :=
  ⟨eswOn2.wr pgEsw (R.ESW_P_STAT_link 1) 0, 1, 1, by decide⟩

theorem test_SwitchFrames_9 : ∃ (s : State) (r : Req) (d : Word) (n : Nat) (a : Nat) (buf : Nat), Accepts s r pgEsw 0x214 ∧ s.eswOn = true ∧ s.portUp 3 = true ∧ s.mem.wf = true ∧ s.arriving 3 = none ∧ n = s.rd pgEsw R.ESW_P3_RING_tx_log ∧ 4 ≤ n ∧ n ≤ 12 ∧ s.ringDesc (s.rd2 pgEsw R.ESW_P3_TX_BASE_W0_addr R.ESW_P3_TX_BASE_W1_addr) 16 s.esw.p3Tx = some (a, buf) ∧ s.ringDesc (s.rd2 pgEsw R.ESW_P3_TX_BASE_W0_addr R.ESW_P3_TX_BASE_W1_addr) 16 ((s.esw.p3Tx + 1) % 2 ^ n) = none :=
  ⟨((put eswOn2 [(pgSec, R.SEC_WM_DRAM_units, 0), (pgEsw, R.ESW_P_CFG_en 3, 1), (pgEsw, R.ESW_P_STAT_link 3, 1), (pgEsw, R.ESW_P3_RING_tx_log, 4), (pgEsw, R.ESW_P3_TX_BASE_W1_addr, 8)]).store 0x800000000 (toBytes 8 0x800002000 ++ [70, 0, 0, 1])).store 0x800002000 ethEx, .chrysalis, 0#32, 4, 0x800000000, 0x800002000, by decide +kernel⟩

theorem test_AddressTable_1 : ∃ (s : State) (r : Req) (d : Word), Accepts s r pgEsw 0x04C ∧ R.ESW_ATU_CMD_flush_dyn.ofB d = false :=
  ⟨eswOn2.setEsw { atu := [⟨0, 0, true, 5⟩] }, .chrysalis, 0#32, by decide +kernel⟩

theorem test_AddressTable_2 : ∃ (s : State) (r : Req) (d : Word), Accepts s r pgEsw 0x04C ∧ R.ESW_ATU_CMD_flush_dyn.ofB d = false ∧ s.rd pgEsw R.ESW_ATU_DATA_valid = 1 :=
  ⟨eswOn2.wr pgEsw R.ESW_ATU_DATA_valid 1, .chrysalis, 0#32, by decide +kernel⟩

theorem test_AddressTable_3 : ∃ (s : State) (r : Req) (d : Word), Accepts s r pgEsw 0x04C ∧ R.ESW_ATU_CMD_flush_dyn.ofB d = false :=
  ⟨eswOn2.setEsw { atu := [⟨0, 0, true, 5⟩] }, .chrysalis, 0#32, by decide +kernel⟩

theorem test_AddressTable_4 : ∃ (s : State) (r : Req) (d : Word), Accepts s r pgEsw 0x04C ∧ R.ESW_ATU_CMD_op.of d = 0 :=
  ⟨eswOn2.setEsw { atu := [⟨0, 0, true, 5⟩, ⟨0, 1, false, 1⟩] }, .chrysalis, 0#32, by decide +kernel⟩

theorem test_AddressTable_5 : ∃ (s : State) (vid : Fin 4096) (mac : BitVec 48) (e : AtuEnt), s.atuFind vid mac.toNat = some e ∧ s.eswOn = true ∧ e.stat = false ∧ s.rd pgEsw R.ESW_AGE_age_s ≠ 0 :=
  ⟨eswOn2.setEsw { atu := [⟨4095, 5, false, 1⟩] }, 4095, 5#48, ⟨4095, 5, false, 1⟩, by decide +kernel⟩

theorem test_AddressTable_6 : ∃ (s : State) (vid : Fin 4096) (mac : BitVec 48) (e : AtuEnt), s.atuFind vid mac.toNat = some e ∧ (e.stat = true ∨ s.rd pgEsw R.ESW_AGE_age_s = 0) :=
  ⟨eswOn2.setEsw { atu := [⟨4095, 5, true, 1⟩] }, 4095, 5#48, ⟨4095, 5, true, 1⟩, by decide +kernel⟩

theorem test_BridgeAccesses_1 : ∃ (s : State) (r : Req) (d : Word), Accepts s r pgBrg 0x028 :=
  ⟨on, .chrysalis, 0x40000000#32, by decide⟩

theorem test_BridgeAccesses_2 : ∃ (s : State) (r : Req) (d : Word), Accepts s r pgBrg 0x028 :=
  ⟨on, .chrysalis, 0x80000000#32, by decide⟩

theorem test_BridgeAccesses_3 : ∃ (s : State) (r : Req) (d : Word) (n : Fin 64), Accepts s r pgBrg 0x028 ∧ s.ownerAccepts r (pgBnk (bitsOf d.toNat 10 5)) = true ∧ s.linkUp (bitsOf d.toNat 10 5) = true ∧ bitsOf d.toNat 0 10 < idU16 (s.bk (bitsOf d.toNat 10 5)).ident 0x056 ∧ R.BRG_CMD_se_ok.ofB d = true ∧ (s.tag n).st = 0 ∧ (∀ m < n.val, (s.tag m).st ≠ 0) :=
  ⟨brgS, .chrysalis, 0x60002412#32, 0, by decide⟩

theorem test_BridgeAccesses_4 : ∃ (s : State) (r : Req) (d : Word) (n : Fin 64), Accepts s r pgBrg 0x028 ∧ s.ownerAccepts r (pgBnk (bitsOf d.toNat 10 5)) = true ∧ s.linkUp (bitsOf d.toNat 10 5) = true ∧ bitsOf d.toNat 0 10 < idU16 (s.bk (bitsOf d.toNat 10 5)).ident 0x056 ∧ (s.tag n).st = 0 ∧ (∀ m < n.val, (s.tag m).st ≠ 0) :=
  ⟨brgS.setTag 0 { st := 3 }, .chrysalis, 0x80002412#32, 1, by decide⟩

theorem test_BridgeAccesses_5 : ∃ (s : State) (b : Fin 32) (w : Nat) (dw : Nat) (rest : List Nat) (n : Fin 64), (s.bk b).resp = w :: dw :: rest ∧ bitsOf w 32 4 = 2 ∧ bitsOf w 26 6 = n ∧ (s.tag n).st = 1 ∧ (s.tag n).sent = true ∧ (s.tag n).bank = b ∧ (s.tag n).write = false ∧ (s.tag n).reg = bitsOf w 8 10 ∧ crcBits 8 0x07 (crcBits 8 0x07 0 (w / 256) 28) dw 36 = bitsOf w 0 8 ∧ bitsOf dw 32 4 = 3 ∧ (s.tag n).isFn = false :=
  ⟨(brgS.setTag 5 { st := 1, sent := true, bank := 9, reg := 0x12 }).modBk 9 (fun x => { x with resp := [2 * 2 ^ 32 + 5 * 2 ^ 26 + 0x1200 + 0xC6, 3 * 2 ^ 32 + 7, 1] }), 9, 2 * 2 ^ 32 + 5 * 2 ^ 26 + 0x1200 + 0xC6, 3 * 2 ^ 32 + 7, [1], 5, by decide +kernel⟩

theorem test_BridgeAccesses_6 : ∃ (s : State) (b : Fin 32) (w : Nat) (rest : List Nat) (n : Fin 64), (s.bk b).resp = w :: rest ∧ bitsOf w 32 4 = 4 ∧ bitsOf w 26 6 = n ∧ (s.tag n).st = 1 ∧ (s.tag n).sent = true ∧ (s.tag n).bank = b ∧ (s.tag n).write = true ∧ (s.tag n).reg = bitsOf w 8 10 ∧ crcBits 8 0x07 0 (w / 256) 28 = bitsOf w 0 8 ∧ bitsOf w 24 2 = 0 :=
  ⟨(brgS.setTag 5 { st := 1, sent := true, bank := 9, reg := 0x12, write := true }).modBk 9 (fun x => { x with resp := [4 * 2 ^ 32 + 5 * 2 ^ 26 + 0x1200 + 0x2F] }), 9, 4 * 2 ^ 32 + 5 * 2 ^ 26 + 0x1200 + 0x2F, [], 5, by decide +kernel⟩

theorem test_BridgeAccesses_7 : ∃ (s : State) (b : Fin 32) (w : Nat) (rest : List Nat) (n : Fin 64), (s.bk b).resp = w :: rest ∧ bitsOf w 32 4 = 4 ∧ bitsOf w 26 6 = n ∧ (s.tag n).st = 1 ∧ (s.tag n).sent = true ∧ (s.tag n).bank = b ∧ (s.tag n).write = true ∧ (s.tag n).reg = bitsOf w 8 10 ∧ crcBits 8 0x07 0 (w / 256) 28 = bitsOf w 0 8 ∧ bitsOf w 24 2 ≠ 0 ∧ s.rd pgBrg (R.BRG_LATE_W0_valid 0) = 0 :=
  ⟨(brgS.setTag 5 { st := 1, sent := true, bank := 9, reg := 0x12, write := true }).modBk 9 (fun x => { x with resp := [4 * 2 ^ 32 + 5 * 2 ^ 26 + 2 ^ 24 + 0x1200 + 0x44] }), 9, 4 * 2 ^ 32 + 5 * 2 ^ 26 + 2 ^ 24 + 0x1200 + 0x44, [], 5, by decide +kernel⟩

theorem test_BridgeAccesses_8 : ∃ (s : State) (b : Fin 32) (w : Nat) (rest : List Nat), (s.bk b).resp = w :: rest ∧ bitsOf w 32 4 = 4 ∧ ((s.tag (bitsOf w 26 6)).st ≠ 1 ∨ (s.tag (bitsOf w 26 6)).bank ≠ b) :=
  ⟨brgS.modBk 9 (fun x => { x with resp := [4 * 2 ^ 32 + 5 * 2 ^ 26] }), 9, 4 * 2 ^ 32 + 5 * 2 ^ 26, [], by decide⟩

theorem test_BridgeAccesses_9 : ∃ (s : State) (n : Fin 64), (s.tag n).st = 1 ∧ (s.tag n).sent = true ∧ (s.tag n).write = false ∧ (s.tag n).isFn = false ∧ (s.tag n).m + max 5 (s.rd pgBrg R.BRG_CFG_resp_sf) < s.k :=
  ⟨{ brgS.setTag 63 { st := 1, sent := true, m := 3 } with k := 12 }, 63, by decide⟩

theorem test_BridgeAccesses_10 : ∃ (s : State) (r : Req) (n : Fin 64), s.accCause r pgBrg 0x038 false = none ∧ s.rd (iReq (reqId r)) R.BRG_TAG_SEL_tag = n ∧ (s.tag n).st = 2 :=
  ⟨(put brgS [(iReq 520, R.BRG_TAG_SEL_tag, 63)]).setTag 63 { st := 2, data := 9, req := 520 }, .chrysalis, 63, by decide⟩

theorem test_BridgeAccesses_11 : ∃ (s : State) (n : Fin 64), (s.tag n).st = 2 :=
  ⟨brgS.setTag 63 { st := 2, data := 9, se := true, sent := true }, 63, by decide⟩

theorem test_BridgeAccesses_12 : ∃ (s : State) (n : Fin 64), (s.tag n).st = 3 ∧ (s.tag n).quar ≤ s.k :=
  ⟨{ brgS.setTag 63 { st := 3, quar := 7 } with k := 7 }, 63, by decide⟩

theorem test_PoolAndWatermarks_1 : ∃ (s : State) (r : Req) (d : Word), Accepts s r pgQpm 0x008 ∧ s.locked pgQpm = false ∧ s.poolOn = false ∧ d.toNat.testBit 1 = false ∧ s.rd pgQpm R.QPM_POOL_size ≤ 16 ∧ s.rd pgQpm R.QPM_POOL_idx + max (s.rd pgQpm R.QPM_POOL_size) 1 ≤ 32 ∧ s.domOn 6 = true ∧ 65536 * (s.rd pgQpm R.QPM_POOL_idx + max (s.rd pgQpm R.QPM_POOL_size) 1) ≤ s.rd pgSec R.SEC_WM_DRAM_units :=
  ⟨put on [(pgQpm, R.QPM_POOL_size, 16), (pgQpm, R.QPM_POOL_idx, 16)], .chrysalis, 0#32, by decide⟩

theorem test_PoolAndWatermarks_2 : ∃ (s : State) (r : Req) (d : Word), Accepts s r pgQpm 0x008 ∧ s.locked pgQpm = false ∧ s.poolOn = false ∧ d.toNat.testBit 1 = false ∧ (16 < s.rd pgQpm R.QPM_POOL_size ∨ 32 < s.rd pgQpm R.QPM_POOL_idx + max (s.rd pgQpm R.QPM_POOL_size) 1 ∨ s.domOn 6 = false ∨ s.rd pgSec R.SEC_WM_DRAM_units < 65536 * (s.rd pgQpm R.QPM_POOL_idx + max (s.rd pgQpm R.QPM_POOL_size) 1)) :=
  ⟨put on [(pgQpm, R.QPM_POOL_size, 16), (pgQpm, R.QPM_POOL_idx, 17)], .chrysalis, 0#32, by decide⟩

theorem test_PoolAndWatermarks_3 : ∃ (s : State) (q : Nat), s.rd (iQue q) R.QPM_Q_STAT_live_hi = 0 ∧ s.rd (iQue q) R.QPM_Q_HI_cells ≠ 0 ∧ s.rd (iQue q) R.QPM_Q_HI_cells ≤ (s.queue q).count :=
  ⟨(put on [(iQue 4095, R.QPM_Q_HI_cells, 2)]).setQueue 4095 { items := [⟨300, [0, 1]⟩] }, 4095, by decide⟩

theorem test_PoolAndWatermarks_4 : ∃ (s : State) (q : Nat), s.rd (iQue q) R.QPM_Q_STAT_live_hi = 1 ∧ (s.queue q).count ≤ min (s.rd (iQue q) R.QPM_Q_LO_cells) (s.rd (iQue q) R.QPM_Q_HI_cells - 1) :=
  ⟨put on [(iQue 4095, R.QPM_Q_HI_cells, 2), (iQue 4095, R.QPM_Q_STAT_live_hi, 1), (iQue 4095, R.QPM_Q_LO_cells, 7)], 4095, by decide⟩

theorem test_PoolAndWatermarks_5 : ∃ (s : State) (q : Nat), ((s.rd (iQue q) R.QPM_Q_STAT_live_hi = 0 ∧ (s.queue q).count < s.rd (iQue q) R.QPM_Q_HI_cells) ∨ (s.rd (iQue q) R.QPM_Q_STAT_live_hi = 1 ∧ s.rd (iQue q) R.QPM_Q_LO_cells < (s.queue q).count ∧ s.rd (iQue q) R.QPM_Q_LO_cells < s.rd (iQue q) R.QPM_Q_HI_cells)) :=
  ⟨put on [(iQue 4095, R.QPM_Q_HI_cells, 2)], 4095, by decide⟩

theorem test_PoolItemsAndFlush_1 : ∃ (s : State) (p : Fin 3) (it : Item) (rest : List Item), s.domOn 0 = true ∧ s.portBusy p = false ∧ s.portWaits p = false ∧ s.port p = it :: rest ∧ s.rd (iQue it.queue) R.QPM_Q_CFG_en = 1 ∧ (s.queue it.queue).prog = none ∧ (s.queue it.queue).disc = none ∧ (s.queue it.queue).count + (it.bytes.length + 247) / 248 ≤ s.rd (iQue it.queue) R.QPM_Q_MAX_cells ∧ (it.bytes.length + 247) / 248 ≤ s.qpmFree :=
  ⟨poolS, 1, ⟨40, [1, 2, 3], 0, 0⟩, [], by decide⟩

theorem test_PoolItemsAndFlush_2 : ∃ (s : State) (p : Fin 3) (it : Item) (rest : List Item), s.domOn 0 = true ∧ s.portBusy p = false ∧ s.portWaits p = false ∧ s.port p = it :: rest ∧ s.rd (iQue it.queue) R.QPM_Q_CFG_en = 1 ∧ s.rd (iQue it.queue) R.QPM_Q_MAX_cells < (s.queue it.queue).count + (it.bytes.length + 247) / 248 :=
  ⟨poolS.wr (iQue 40) R.QPM_Q_MAX_cells 0, 2, ⟨40, [1, 2, 3], 0, 0⟩, [], by decide⟩

theorem test_PoolItemsAndFlush_3 : ∃ (s : State) (p : Fin 3) (it : Item) (rest : List Item), s.domOn 0 = true ∧ s.portBusy p = false ∧ s.portWaits p = false ∧ s.port p = it :: rest ∧ s.rd (iQue it.queue) R.QPM_Q_CFG_en = 0 :=
  ⟨poolS.wr (iQue 40) R.QPM_Q_CFG_en 0, 2, ⟨40, [1, 2, 3], 0, 0⟩, [], by decide⟩

theorem test_PoolItemsAndFlush_4 : ∃ (s : State) (p : Fin 3) (it : Item) (rest : List Item), s.domOn 0 = true ∧ s.portBusy p = false ∧ s.portWaits p = true ∧ s.port p = it :: rest ∧ s.rd (iQue it.queue) R.QPM_Q_CFG_en = 1 ∧ (s.queue it.queue).prog = none ∧ (s.queue it.queue).disc = none ∧ (s.queue it.queue).count + (it.bytes.length + 247) / 248 ≤ s.rd (iQue it.queue) R.QPM_Q_MAX_cells ∧ (it.bytes.length + 247) / 248 ≤ s.qpmFree :=
  ⟨poolS.wr pgQpm R.QPM_PORT_STAT_waiting 7, 1, ⟨40, [1, 2, 3], 0, 0⟩, [], by decide⟩

theorem test_PoolItemsAndFlush_5 : ∃ (s : State) (it : Item) (rest : List Item), s.domOn 0 = true ∧ s.portBusy 2 = false ∧ s.port 2 = it :: rest ∧ s.rd (iQue it.queue) R.QPM_Q_CFG_en = 1 ∧ (s.queue it.queue).prog = none ∧ (s.queue it.queue).disc = none ∧ (s.queue it.queue).count + (it.bytes.length + 247) / 248 ≤ s.rd (iQue it.queue) R.QPM_Q_MAX_cells ∧ (it.bytes.length + 247) / 248 ≤ s.qpmFree :=
  ⟨poolS, ⟨40, [1, 2, 3], 0, 0⟩, [], by decide⟩

theorem test_PoolItemsAndFlush_6 : ∃ (s : State) (p : Fin 3) (q : Nat) (c : Nat) (p' : Nat) (it : Item) (rest : List Item), s.domOn 0 = true ∧ s.portQ.get 0 p.val = q + 1 ∧ s.mem.wf = true ∧ s.port p = it :: rest ∧ (s.queue q).disc = none ∧ (s.queue q).prog = some (p', { len := it.bytes.length, cells := [c] }) ∧ it.bytes.length ≤ 248 :=
  ⟨{ poolS.setQueue 40 { prog := some (1, ⟨3, [9]⟩) } with portQ := [(1, 41)] }, 1, 40, 9, 1, ⟨40, [1, 2, 3], 0, 0⟩, [], by decide⟩

theorem test_PoolItemsAndFlush_7 : ∃ (s : State) (r : Req) (d : Word) (passed : Fin 2049) (q : Nat), Accepts s r pgQpm 0x044 ∧ s.rd pgQpm R.QPM_Q_SEL_queue = q ∧ (s.queue q).disc = none :=
  ⟨(poolS.setQueue 40 { items := [⟨3, [9]⟩], prog := some (1, ⟨30, [8]⟩) }).wr pgQpm R.QPM_Q_SEL_queue 40, .chrysalis, 0#32, 2, 40, by decide⟩

theorem test_PoolItemsAndFlush_8 : ∃ (s : State) (p : Fin 3) (q : Nat) (n : Nat), s.domOn 0 = true ∧ s.portQ.get 0 p.val = q + 1 ∧ (s.queue q).disc = some (p.val, n) ∧ (s.queue q).off = false :=
  ⟨{ poolS.setQueue 40 { disc := some (1, 5) } with portQ := [(1, 41)] }, 1, 40, 5, by decide⟩

theorem test_PoolItemsAndFlush_9 : ∃ (s : State) (r : Req) (d : Word) (passed : Fin 2049) (q : Nat), Accepts s r pgQpm 0x034 ∧ s.rd pgQpm R.QPM_Q_SEL_queue = q ∧ s.rd (iQue q) R.QPM_Q_CFG_en = 1 ∧ (s.queue q).disc = none :=
  ⟨(poolS.setQueue 40 { items := [⟨3, [9]⟩] }).wr pgQpm R.QPM_Q_SEL_queue 40, .chrysalis, 0#32, 2, 40, by decide⟩

theorem test_HostFunctionStates_1 : ∃ (s : State) (n : Fin 512) (f : Fin 512), f.val ≠ 0 ∧ f.val ≤ n.val ∧ s.fnState f.val = 0 ∧ s.hostOf f.val = 0 ∧ s.rdB (iFn f.val) R.FNC_FN_CTRL_enable = true ∧ s.pcie.master.contains f.val = true :=
  ⟨put hostS [(iFn 3, R.FNC_FN_STAT_state, 0)], 3, 3, by decide⟩

theorem test_HostFunctionStates_2 : ∃ (s : State) (f : Fin 512), s.fnState f.val = 0 ∧ s.hostOf f.val = 0 ∧ s.rdB (iFn f.val) R.FNC_FN_CTRL_enable = true ∧ f.val ≤ s.pcie.numVfs ∧ s.pcie.vfEn = true :=
  ⟨put hostS [(iFn 7, R.FNC_FN_CTRL_enable, 1)], 7, by decide⟩

theorem test_HostFunctionStates_3 : ∃ (s : State) (f : Fin 512), f.val ≠ 0 ∧ s.fnState f.val = 1 ∧ s.hostOf f.val = 0 :=
  ⟨hostS, 3, by decide⟩

theorem test_HostFunctionStates_4 : ∃ (s : State) (f : Fin 512), s.fnState f.val = 1 ∧ s.hostOf f.val = 0 :=
  ⟨hostS, 3, by decide⟩

theorem test_HostFunctionStates_5 : ∃ (s : State) (f : Fin 512), f.val ≠ 0 ∧ s.fnState f.val = 1 ∧ s.hostOf f.val = 0 :=
  ⟨hostS, 3, by decide⟩

theorem test_HostFunctionStates_6 : ∃ (s : State) (f : Fin 512), f.val ≠ 0 ∧ s.fnState f.val = 1 ∧ s.hostOf f.val = 0 :=
  ⟨hostS, 3, by decide⟩

theorem test_HostFunctionStates_7 : ∃ (s : State) (f : Fin 512), s.fnState f.val = 1 ∧ s.hostOf f.val = 0 :=
  ⟨hostS, 3, by decide⟩

theorem test_HostFunctionStates_8 : ∃ (s : State) (r : Req) (d : Word) (f : Fin 512), Accepts s r pgFnc 0x028 ∧ s.fnSel = f.val ∧ s.fnState f.val = 1 :=
  ⟨hostS, .core 0, 2, 3, by decide⟩

theorem test_HostFunctionStates_9 : ∃ (s : State) (f : Fin 512) (cids : List Nat), s.fnState f.val = 2 ∧ s.rd pgFnc R.FNC_POOL_qp_free + s.rd (iFn f.val) R.FNC_FN_QUOTA_qp_quota ≤ 1024 ∧ s.rd pgFnc R.FNC_POOL_vec_free + s.rd (iFn f.val) R.FNC_FN_QUOTA_vec_quota ≤ 2048 :=
  ⟨put hostS [(iFn 3, R.FNC_FN_STAT_state, 2)], 3, [7], by decide⟩

theorem test_HostFunctionStates_10 : ∃ (s : State) (r : Req) (d : Word), Accepts s r pgFnc 0x030 ∧ s.fnState s.fnSel = 0 ∧ R.FNC_FN_QUOTA_qp_quota.of d ≤ 1024 ∧ R.FNC_FN_QUOTA_vec_quota.of d ≤ 64 ∧ R.FNC_FN_QUOTA_qp_quota.of d ≤ s.rd pgFnc R.FNC_POOL_qp_free + s.rd (iFn s.fnSel) R.FNC_FN_QUOTA_qp_quota ∧ R.FNC_FN_QUOTA_vec_quota.of d ≤ s.rd pgFnc R.FNC_POOL_vec_free + s.rd (iFn s.fnSel) R.FNC_FN_QUOTA_vec_quota ∧ s.rd pgFnc R.FNC_POOL_qp_free + s.rd (iFn s.fnSel) R.FNC_FN_QUOTA_qp_quota ≤ 1024 ∧ s.rd pgFnc R.FNC_POOL_vec_free + s.rd (iFn s.fnSel) R.FNC_FN_QUOTA_vec_quota ≤ 2048 :=
  ⟨put hostS [(pgFnc, R.FNC_SEL_function, 511)], .chrysalis, 0x03F80040#32, by decide⟩

theorem test_HostFunctionStates_11 : ∃ (s : State) (r : Req) (d : Word), Accepts s r pgFnc 0x030 ∧ (s.fnState s.fnSel = 1 ∨ s.rd pgFnc R.FNC_POOL_qp_free + s.rd (iFn s.fnSel) R.FNC_FN_QUOTA_qp_quota < R.FNC_FN_QUOTA_qp_quota.of d ∨ s.rd pgFnc R.FNC_POOL_vec_free + s.rd (iFn s.fnSel) R.FNC_FN_QUOTA_vec_quota < R.FNC_FN_QUOTA_vec_quota.of d) :=
  ⟨hostS, .chrysalis, 0#32, by decide⟩

theorem test_HostFunctionStates_12 : ∃ (s : State) (r : Req) (d : Word), Accepts s r pgFnc 0x038 ∧ s.rangeBad s.fnSel (s.rd (iFn s.fnSel) R.FNC_FN_STEP_BASE_base) (R.FNC_FN_STEP_CNT_count.of d) = false :=
  ⟨put hostS [(pgSec, R.SEC_WM_STEP_units, 0)], .chrysalis, 0x4000#32, by decide +kernel⟩

theorem test_HostFunctionStates_13 : ∃ (s : State) (r : Req) (d : Word), Accepts s r pgFnc 0x034 ∧ s.rangeBad s.fnSel (R.FNC_FN_STEP_BASE_base.of d) (s.rd (iFn s.fnSel) R.FNC_FN_STEP_CNT_count) = false :=
  ⟨put hostS [(pgSec, R.SEC_WM_STEP_units, 0)], .chrysalis, 0x3FFF#32, by decide +kernel⟩

theorem test_HostFunctionStates_14 : ∃ (s : State) (r : Req) (d : Word), Accepts s r pgFnc 0x034 ∧ s.rd (iFn s.fnSel) R.FNC_FN_STEP_CNT_count ≠ 0 ∧ d.toNat % 2 ^ 14 < s.rd pgSec R.SEC_WM_STEP_units :=
  ⟨put hostS [(pgSec, R.SEC_WM_STEP_units, 1)], .chrysalis, 0#32, by decide⟩

theorem test_QueuePairs_1 : ∃ (s : State) (r : Req) (d : Word) (f : Fin 512), s.reachesFn r 0x410 f.val = true ∧ (s.qp f.val (s.qpSel f.val)).en = false ∧ s.qpSel f.val < s.rd (iFn f.val) R.FNC_FN_QUOTA_qp_quota ∧ R.FNC_F_Q_CTRL_vector.of d < s.rd (iFn f.val) R.FNC_FN_QUOTA_vec_quota ∧ 4 ≤ R.FNC_F_Q_CTRL_sq_log.of d ∧ R.FNC_F_Q_CTRL_sq_log.of d ≤ 12 ∧ 4 ≤ R.FNC_F_Q_CTRL_cq_log.of d ∧ R.FNC_F_Q_CTRL_cq_log.of d ≤ 12 :=
  ⟨put hostS [(iFn 3, R.FNC_F_Q_SEL_qp, 3)], .fn 3, 0x04C00003#32, 3, by decide⟩

theorem test_QueuePairs_2 : ∃ (s : State) (r : Req) (d : Word) (f : Fin 512), s.reachesFn r 0x410 f.val = true ∧ (s.qp f.val (s.qpSel f.val)).en = false ∧ (s.rd (iFn f.val) R.FNC_FN_QUOTA_qp_quota ≤ s.qpSel f.val ∨ s.rd (iFn f.val) R.FNC_FN_QUOTA_vec_quota ≤ R.FNC_F_Q_CTRL_vector.of d ∨ R.FNC_F_Q_CTRL_sq_log.of d < 4 ∨ 12 < R.FNC_F_Q_CTRL_sq_log.of d ∨ R.FNC_F_Q_CTRL_cq_log.of d < 4 ∨ 12 < R.FNC_F_Q_CTRL_cq_log.of d) :=
  ⟨put hostS [(iFn 3, R.FNC_F_Q_SEL_qp, 3)], .fn 3, 0x0DC00003#32, 3, by decide⟩

theorem test_QueuePairs_3 : ∃ (s : State) (r : Req) (d : Word) (cids : List Nat) (f : Fin 512), s.reachesFn r 0x410 f.val = true ∧ s.qpSel f.val < 1024 ∧ (s.qp f.val (s.qpSel f.val)).en = true :=
  ⟨hostS, .fn 3, 0#32, [], 3, by decide⟩

theorem test_QueuePairs_4 : ∃ (s : State) (r : Req) (d : Word) (f : Fin 512) (q : Nat) (v : Nat), s.reachesFn r 0x408 f.val = true ∧ s.fnState f.val = 1 ∧ d.toNat / 2 ^ 16 % 2 ^ 10 = q ∧ d.toNat % 2 ^ 16 = v ∧ (s.qp f.val q).en = true ∧ v < 2 ^ (s.qp f.val q).sqLog :=
  ⟨hostS, .fn 3, 0x0002000F#32, 3, 2, 15, by decide⟩

theorem test_QueuePairs_5 : ∃ (s : State) (r : Req) (d : Word) (f : Fin 512) (q : Nat) (v : Nat), s.reachesFn r 0x408 f.val = true ∧ s.fnState f.val = 1 ∧ d.toNat / 2 ^ 16 % 2 ^ 10 = q ∧ d.toNat % 2 ^ 16 = v ∧ (s.qp f.val q).en = true ∧ v < 2 ^ (s.qp f.val q).cqLog :=
  ⟨hostS, .fn 3, 0x00020000#32, 3, 2, 0, by decide⟩

theorem test_QueuePairs_6 : ∃ (s : State) (r : Req) (d : Word) (f : Fin 512) (q : Nat) (v : Nat) (n : Nat) (b : Bind), s.reachesFn r 0x408 f.val = true ∧ s.fnState f.val = 1 ∧ d.toNat / 2 ^ 16 % 2 ^ 10 = q ∧ d.toNat % 2 ^ 16 = v ∧ (s.qp f.val q).en = true ∧ s.boundQueue f.val q = some (n, b) ∧ v < b.slots :=
  ⟨hostS.setQueue 9 { bind := some ⟨3, 2, 0, 16, 5, 5, 5⟩ }, .fn 3, 0x0002000F#32, 3, 2, 15, 9, ⟨3, 2, 0, 16, 5, 5, 5⟩, by decide⟩

theorem test_QueuePairs_7 : ∃ (s : State) (r : Req) (d : Word) (f : Fin 512) (q : Nat) (v : Nat), s.reachesFn r 0x408 f.val = true ∧ d.toNat / 2 ^ 16 % 2 ^ 10 = q ∧ d.toNat % 2 ^ 16 = v ∧ (s.fnState f.val ≠ 1 ∨ (s.qp f.val q).en = false ∨ 2 ^ (s.qp f.val q).sqLog ≤ v) :=
  ⟨hostS, .fn 3, 0x00020010#32, 3, 2, 16, by decide⟩

theorem test_QueuePairs_8 : ∃ (s : State) (r : Req) (d : Word) (f : Fin 512) (q : Nat) (v : Nat), s.reachesFn r 0x408 f.val = true ∧ d.toNat / 2 ^ 16 % 2 ^ 10 = q ∧ d.toNat % 2 ^ 16 = v ∧ (s.fnState f.val ≠ 1 ∨ (s.qp f.val q).en = false ∨ 2 ^ (s.qp f.val q).cqLog ≤ v) :=
  ⟨hostS, .fn 3, 0x00020010#32, 3, 2, 16, by decide⟩

theorem test_QueuePairs_9 : ∃ (s : State) (r : Req) (d : Word) (f : Fin 512) (q : Nat) (v : Nat), s.reachesFn r 0x408 f.val = true ∧ d.toNat / 2 ^ 16 % 2 ^ 10 = q ∧ d.toNat % 2 ^ 16 = v ∧ (s.fnState f.val ≠ 1 ∨ (s.qp f.val q).en = false ∨ (s.boundQueue f.val q).all (fun x => decide (x.2.slots ≤ v)) = true) :=
  ⟨hostS, .fn 3, 0x00020000#32, 3, 2, 0, by decide⟩

theorem test_HostQueries_1 : ∃ (s : State) (f : Fin 512) (q : Fin 1024) (e : List Byte) (data : List Byte), s.fetches f.val q.val e 0x00 = true :=
  ⟨hostS, 3, 2, sqe 0 0 0 0 [], [], by decide⟩

theorem test_HostQueries_2 : ∃ (s : State) (f : Fin 512) (q : Fin 1024) (e : List Byte) (data : List Byte) (op : Nat), s.fetches f.val q.val e op = true ∧ [0x00, 0x01, 0x02, 0x10, 0x11, 0x20, 0x30, 0x31, 0x38, 0x40, 0x41, 0x50].contains op = false :=
  ⟨hostS, 3, 2, sqe 3 0 0 0 [], [], 3, by decide⟩

theorem test_HostQueries_3 : ∃ (s : State) (f : Fin 512) (q : Fin 1024) (e : List Byte) (data : List Byte), s.canFetch f.val q.val (cmdOf e) = true ∧ s.hostOf f.val = 0 ∧ s.noDma.contains f.val = false ∧ ((cmdOf e).fl / 2 ≠ 0 ∨ (cmdOf e).rsv ≠ 0) :=
  ⟨hostS, 3, 2, [0, 2], [], by decide⟩

theorem test_HostQueries_4 : ∃ (s : State) (f : Fin 512) (q : Fin 1024) (e : List Byte), s.fetches f.val q.val e 0x00 = true :=
  ⟨hostS, 3, 2, sqe 0 0 0 0 [], by decide⟩

theorem test_HostQueries_5 : ∃ (s : State) (f : Fin 512) (q : Fin 1024) (e : List Byte), s.fetches f.val q.val e 0x01 = true ∧ (cmdOf e).len = 4096 :=
  ⟨hostS, 3, 2, sqe 1 0 0x5000 4096 [], by decide⟩

theorem test_HostQueries_6 : ∃ (s : State) (f : Fin 512) (q : Fin 1024) (e : List Byte), s.fetches f.val q.val e 0x02 = true ∧ (cmdOf e).len = 1024 ∧ f.val ≠ 0 :=
  ⟨hostS, 3, 2, sqe 2 0 0x5000 1024 [], by decide⟩

theorem test_HostQueries_7 : ∃ (s : State) (f : Fin 512) (q : Fin 1024) (e : List Byte) (data : List Byte) (n : Nat), s.fetches f.val q.val e 0x10 = true ∧ 1 ≤ n ∧ (cmdOf e).len = 96 * n ∧ data.length = 96 * n ∧ s.inRange f.val (cmdOf e).tgt = true ∧ s.inRange f.val ((cmdOf e).tgt + n - 1) = true ∧ (∀ i < n, ∀ w < 12, slotOk w ((slotsOf data i).getD w 0) = true) ∧ (∀ i < n, (stepUses ((slotsOf data i).map (· % 2 ^ 36))).all (s.inRange f.val) = true) :=
  ⟨hostS, 3, 2, sqe 0x10 99 0x5000 96 [], List.replicate 95 0 ++ [0], 1, by decide⟩

theorem test_HostQueries_8 : ∃ (s : State) (f : Fin 512) (q : Fin 1024) (e : List Byte) (data : List Byte) (w : Nat), s.fetches f.val q.val e 0x10 = true ∧ (cmdOf e).len = 96 ∧ data.length = 96 ∧ s.inRange f.val (cmdOf e).tgt = true ∧ w < 12 ∧ (∀ v < w, slotOk v ((slotsOf data 0).getD v 0) = true) ∧ slotOk w ((slotsOf data 0).getD w 0) = false :=
  ⟨hostS, 3, 2, sqe 0x10 99 0x5000 96 [], List.replicate 95 0 ++ [1], 11, by decide⟩

theorem test_HostQueries_9 : ∃ (s : State) (f : Fin 512) (q : Fin 1024) (e : List Byte) (data : List Byte) (n : Nat), s.fetches f.val q.val e 0x10 = true ∧ 1 ≤ n ∧ (cmdOf e).len = 96 * n ∧ (s.inRange f.val (cmdOf e).tgt = false ∨ s.inRange f.val ((cmdOf e).tgt + n - 1) = false) :=
  ⟨hostS, 3, 2, sqe 0x10 99 0x5000 192 [], [], 2, by decide⟩

theorem test_HostQueries_10 : ∃ (s : State) (f : Fin 512) (q : Fin 1024) (e : List Byte) (n : Nat), s.fetches f.val q.val e 0x11 = true ∧ 1 ≤ n ∧ (cmdOf e).len = 96 * n ∧ s.inRange f.val (cmdOf e).tgt = true ∧ s.inRange f.val ((cmdOf e).tgt + n - 1) = true :=
  ⟨hostS, 3, 2, sqe 0x11 98 0x5000 192 [], 2, by decide⟩

theorem test_HostCommands_1 : ∃ (s : State) (f : Fin 512) (q : Fin 1024) (e : List Byte) (ch : Nat), s.fetches f.val q.val e 0x20 = true ∧ (cmdOf e).p.headD 0 < 16 ∧ s.heldChan f.val (cmdOf e).tgt = some ch :=
  ⟨hostS, 3, 2, sqe 0x20 5 0 0 [15], 37, by decide⟩

theorem test_HostCommands_2 : ∃ (s : State) (f : Fin 512) (q : Fin 1024) (e : List Byte), s.fetches f.val q.val e 0x20 = true ∧ (cmdOf e).p.headD 0 < 16 ∧ s.heldChan f.val (cmdOf e).tgt = none :=
  ⟨hostS, 3, 2, sqe 0x20 6 0 0 [15], by decide⟩

theorem test_HostCommands_3 : ∃ (s : State) (f : Fin 512) (q : Fin 1024) (e : List Byte) (data : List Byte) (ch : Nat), s.fetches f.val q.val e 0x30 = true ∧ (cmdOf e).len = 52 ∧ data.length = 52 ∧ s.heldChan f.val (cmdOf e).tgt = some ch :=
  ⟨hostS, 3, 2, sqe 0x30 5 0x5000 52 [], List.replicate 52 7, 37, by decide⟩

theorem test_HostCommands_4 : ∃ (s : State) (f : Fin 512) (q : Fin 1024) (e : List Byte) (ch : Nat), s.fetches f.val q.val e 0x31 = true ∧ s.heldChan f.val (cmdOf e).tgt = some ch ∧ ((cmdOf e).p.headD 0 = 1 ∨ (cmdOf e).p.headD 0 = 2 ∨ (cmdOf e).p.headD 0 = 4) :=
  ⟨hostS, 3, 2, sqe 0x31 5 0 0 [4], 37, by decide⟩

theorem test_HostCommands_5 : ∃ (s : State) (f : Fin 512) (q : Fin 1024) (e : List Byte), s.fetches f.val q.val e 0x31 = true ∧ s.heldChan f.val (cmdOf e).tgt = none ∧ (cmdOf e).p.headD 0 = 4 :=
  ⟨hostS, 3, 2, sqe 0x31 6 0 0 [4], by decide⟩

theorem test_HostCommands_6 : ∃ (s : State) (f : Fin 512) (q : Fin 1024) (e : List Byte) (data : List Byte) (ch : Nat) (kind : Nat), s.fetches f.val q.val e 0x38 = true ∧ (cmdOf e).len = 64 ∧ data.length = 64 ∧ kind < 4 ∧ (cmdOf e).p.headD 0 = 2 ^ (31 - kind) ∧ (bitsIn 512 (ofBytes data)).filterMap (s.heldChan f.val) = [ch] ∧ s.pageOn (pgChn ch) = true ∧ s.rd (pgChn ch) R.OWNER_handover = 0 ∧ s.rd (pgChn ch) R.STAT_reset_busy = 0 ∧ s.cmdRefuse ch kind = 0 :=
  ⟨hostS.setCst 37 2, 3, 2, sqe 0x38 0 0x5000 64 [0x40000000], 32 :: List.replicate 63 0, 37, 1, by decide +kernel⟩

theorem test_HostCommands_7 : ∃ (s : State) (f : Fin 512) (q : Fin 1024) (e : List Byte) (m : Nat), s.fetches f.val q.val e 0x40 = true ∧ (cmdOf e).tgt < 4096 ∧ s.rd (iQue (cmdOf e).tgt) R.QPM_Q_OWN_function = f.val ∧ (cmdOf e).addr % 4096 = 0 ∧ 4 ≤ m ∧ m ≤ 16 ∧ (cmdOf e).len = 2 ^ m ∧ s.boundQueue f.val q.val = none ∧ (s.queue (cmdOf e).tgt).bind = none :=
  ⟨hostS, 3, 2, sqe 0x40 9 0x1000 16 [], 4, by decide⟩

theorem test_HostCommands_8 : ∃ (s : State) (f : Fin 512) (q : Fin 1024) (e : List Byte) (m : Nat), s.fetches f.val q.val e 0x40 = true ∧ (cmdOf e).tgt < 4096 ∧ s.rd (iQue (cmdOf e).tgt) R.QPM_Q_OWN_function = f.val ∧ (cmdOf e).addr % 4096 = 0 ∧ 4 ≤ m ∧ m ≤ 16 ∧ (cmdOf e).len = 2 ^ m ∧ (s.boundQueue f.val q.val ≠ none ∨ (s.queue (cmdOf e).tgt).bind ≠ none) :=
  ⟨hostS.setQueue 9 { bind := some ⟨3, 1, 0, 16, 5, 5, 5⟩ }, 3, 2, sqe 0x40 9 0x1000 65536 [], 16, by decide⟩

theorem test_HostCommands_9 : ∃ (s : State) (f : Fin 512) (q : Fin 1024) (e : List Byte), s.fetches f.val q.val e 0x41 = true ∧ (cmdOf e).tgt < 4096 ∧ s.rd (iQue (cmdOf e).tgt) R.QPM_Q_OWN_function = f.val :=
  ⟨hostS.setQueue 9 { bind := some ⟨3, 1, 0, 16, 5, 5, 5⟩ }, 3, 2, sqe 0x41 9 0 0 [], by decide⟩

theorem test_LiveMoves_1 : ∃ (s : State) (f : Fin 512) (q : Fin 1024) (e : List Byte) (a : Nat) (b : Nat) (n : Nat), s.fetches f.val q.val e 0x50 = true ∧ s.hostOf 0 = 0 ∧ (cmdOf e).p.take 4 = [1, a, b, n] ∧ a < 512 ∧ b < 512 ∧ n < 512 ∧ s.fnState a = 1 ∧ s.fnState b = 1 ∧ (cmdOf e).tgt < 512 ∧ s.rd (pgChn (cmdOf e).tgt) R.OWNER_world = 0 ∧ s.rd (pgChn (cmdOf e).tgt) R.OWNER_function = a ∧ s.pageOn (pgChn (cmdOf e).tgt) = true ∧ s.rd (pgChn (cmdOf e).tgt) R.OWNER_handover = 0 ∧ s.slotChan b n = none ∧ s.movingPage (pgChn (cmdOf e).tgt) = false :=
  ⟨hostS, 3, 2, sqe 0x50 37 0 0 [1, 3, 0, 9], 3, 0, 9, by decide⟩

theorem test_LiveMoves_2 : ∃ (s : State) (f : Fin 512) (q : Fin 1024) (e : List Byte) (a : Nat) (b : Nat) (n : Nat), s.fetches f.val q.val e 0x50 = true ∧ s.hostOf 0 = 0 ∧ (cmdOf e).p.take 4 = [2, a, b, n] ∧ a < 512 ∧ b < 512 ∧ s.fnState a = 1 ∧ s.fnState b = 1 ∧ (cmdOf e).tgt < 4096 ∧ s.rd (iQue (cmdOf e).tgt) R.QPM_Q_OWN_function = a ∧ (s.queue (cmdOf e).tgt).bind = none :=
  ⟨hostS, 3, 2, sqe 0x50 9 0 0 [2, 3, 0, 0], 3, 0, 0, by decide⟩

theorem test_LiveMoves_3 : ∃ (s : State) (f : Fin 512) (q : Fin 1024) (e : List Byte) (a : Nat) (b : Nat) (n : Nat), s.fetches f.val q.val e 0x50 = true ∧ s.hostOf 0 = 0 ∧ (cmdOf e).p.take 4 = [3, a, b, n] ∧ a < 512 ∧ b < 512 ∧ a ≠ b ∧ s.fnState a = 1 ∧ s.fnState b = 1 ∧ ((∀ i < 1024, (s.qp a i).en = true → i + 1 + (cmdOf e).tgt ≤ s.rd (iFn a) R.FNC_FN_QUOTA_qp_quota)) ∧ (cmdOf e).tgt ≤ s.rd (iFn a) R.FNC_FN_QUOTA_qp_quota ∧ s.rd (iFn a) R.FNC_FN_QUOTA_qp_quota ≤ 1024 ∧ s.pairs.all (fun x => decide (s.pairs.get {} x.1 = x.2)) = true ∧ s.rd (iFn b) R.FNC_FN_QUOTA_qp_quota + (cmdOf e).tgt ≤ 1024 :=
  ⟨hostS, 3, 2, sqe 0x50 1 0 0 [3, 3, 0, 0], 3, 0, 0, by decide +kernel⟩

theorem test_LiveMoves_4 : ∃ (s : State) (f : Fin 512) (q : Fin 1024) (e : List Byte) (a : Nat) (b : Nat), s.fetches f.val q.val e 0x50 = true ∧ s.hostOf 0 = 0 ∧ (cmdOf e).p.take 3 = [1, a, b] ∧ a < 512 ∧ b < 512 ∧ (s.fnState a ≠ 1 ∨ s.fnState b ≠ 1) :=
  ⟨hostS, 3, 2, sqe 0x50 37 0 0 [1, 3, 4, 0], 3, 4, by decide⟩

theorem test_LiveMoves_5 : ∃ (s : State) (f : Fin 512) (q : Fin 1024) (e : List Byte), s.fetches f.val q.val e 0x50 = true ∧ s.hostOf 0 ≠ 0 :=
  ⟨put hostS [(pgFnc, R.FNC_CFG_pf_host, 1)], 3, 2, sqe 0x50 37 0 0 [1, 3, 0, 9], by decide⟩

theorem test_LiveMoves_6 : ∃ (s : State) (m : Move) (rest : List Move), s.moves = m :: rest ∧ m.sf = none ∧ s.drain = none ∧ m.due.now s.k = true :=
  ⟨{ hostS with moves := [{ chan := 37, src := 3, dst := 0, slot := 9, due := {} }] }, { chan := 37, src := 3, dst := 0, slot := 9, due := {} }, [], by decide⟩

theorem test_LiveMoves_7 : ∃ (s : State) (m : Move) (rest : List Move) (k : Nat), s.moves = m :: rest ∧ m.sf = some k ∧ s.fnState m.dst ≠ 0 ∧ m.dst ≠ 0 ∧ m.dst < 512 ∧ m.src < 512 ∧ m.slot < 512 ∧ s.rd (pgChn m.chan) R.OWNER_world = 0 :=
  ⟨{ put hostS [(pgChn 38, R.OWNER_world, 0)] with moves := [{ chan := 38, src := 0, dst := 3, slot := 9, due := {}, sf := some 4 }] }, { chan := 38, src := 0, dst := 3, slot := 9, due := {}, sf := some 4 }, [], 4, by decide⟩

theorem test_DeliveryAndSessions_1 : ∃ (s : State) (q : Fin 4096) (b : Bind) (it : QItem) (rest : List QItem), (s.queue q.val).bind = some b ∧ (s.queue q.val).items = it :: rest ∧ 1 ≤ it.len ∧ it.len ≤ 496 ∧ s.fnState b.fn = 1 ∧ s.hostOf b.fn = 0 ∧ s.noDma.contains b.fn = false ∧ (s.qp b.fn b.qp).en = true ∧ (s.qp b.fn b.qp).itemFull = false ∧ b.used + 1 ≤ b.slots ∧ b.tail < b.slots ∧ s.domOn 0 = true ∧ s.domOn 6 = true ∧ (s.itemBytes it).length = it.len :=
  ⟨delS, 9, ⟨3, 2, 0, 16, 5, 15, 5⟩, ⟨3, [0]⟩, [], by decide +kernel⟩

theorem test_DeliveryAndSessions_2 : ∃ (s : State) (q : Fin 4096) (b : Bind) (it : QItem) (rest : List QItem), (s.queue q.val).bind = some b ∧ (s.queue q.val).items = it :: rest ∧ (b.slots < b.used + (it.len + 495) / 496 ∨ (s.qp b.fn b.qp).itemFull = true) :=
  ⟨delS.setQueue 9 { items := [⟨3, [0]⟩], bind := some ⟨3, 2, 0, 16, 5, 16, 5⟩ }, 9, ⟨3, 2, 0, 16, 5, 16, 5⟩, ⟨3, [0]⟩, [], by decide⟩

theorem test_DeliveryAndSessions_3 : ∃ (s : State) (f : Fin 512) (e : Fin 512) (o : Fin 129) (n : Fin 129) (c : Nat), s.domOn 0 = true ∧ f.val ≠ 0 ∧ s.hostOf f.val = 0 ∧ s.fnState f.val ≠ 0 ∧ 1 ≤ n.val ∧ n.val ≤ 64 ∧ o.val % n.val = 0 ∧ o.val + n.val ≤ 128 ∧ s.slotChan f.val e.val = some c ∧ (s.mirror.get [] c).length = 128 :=
  ⟨{ hostS with mirror := [(37, List.replicate 128 5)] }, 3, 5, 64, 64, 37, by decide +kernel⟩

theorem test_DeliveryAndSessions_4 : ∃ (s : State) (f : Fin 512) (e : Fin 512) (o : Fin 129) (n : Fin 129), s.domOn 0 = true ∧ f.val ≠ 0 ∧ s.hostOf f.val = 0 ∧ s.fnState f.val ≠ 0 ∧ 1 ≤ n.val ∧ n.val ≤ 64 ∧ o.val % n.val = 0 ∧ o.val + n.val ≤ 128 ∧ s.slotChan f.val e.val = none :=
  ⟨hostS, 3, 6, 0, 1, by decide⟩

theorem test_DeliveryAndSessions_6 : ∃ (s : State) (n : Nat), 1 ≤ n ∧ n ≤ 3 ∧ s.sesOpen.contains n = false ∧ ((∀ m < n, 1 ≤ m → s.sesOpen.contains m = true)) ∧ s.firmware = true :=
  ⟨{ sesS with sesOpen := [] }, 1, by decide⟩

theorem test_DeliveryAndSessions_7 : ∃ (s : State), s.sesOpen.contains 1 = true ∧ s.sesOpen.contains 2 = true ∧ s.sesOpen.contains 3 = true :=
  ⟨{ sesS with sesOpen := [3, 2, 1] }, by decide⟩

theorem test_DeliveryAndSessions_8 : ∃ (s : State) (n : Fin 4) (f : Fin 512), s.sesOpen.contains n.val = true ∧ s.hostOf f.val = n.val ∧ s.fnState f.val = 1 :=
  ⟨sesS, 1, 3, by decide⟩

theorem test_DeliveryAndSessions_9 : ∃ (s : State) (n : Fin 4) (f : Fin 512) (q : Fin 1024) (es : List Byte), s.sesHolds n.val f.val = true ∧ s.firmware = true ∧ s.fnState f.val = 1 ∧ (s.qp f.val q.val).en = true ∧ (s.qp f.val q.val).sqLog ≤ 12 ∧ es.length = 64 ∧ (s.window f.val).wf = true :=
  ⟨sesS, 1, 3, 2, List.replicate 64 3, by decide⟩

theorem test_DeliveryAndSessions_10 : ∃ (s : State) (n : Fin 4) (f : Fin 512) (o : Word) (bs : List Byte), s.sesHolds n.val f.val = true ∧ s.firmware = true ∧ o.toNat + bs.length ≤ 0x1000000 ∧ (s.window f.val).wf = true :=
  ⟨sesS, 1, 3, 0xFFFFFE#32, [1, 2], by decide⟩

theorem test_DeliveryAndSessions_11 : ∃ (s : State) (n : Fin 4) (f : Fin 512) (o : Word) (len : Word), s.sesHolds n.val f.val = true ∧ s.firmware = true ∧ o.toNat + len.toNat ≤ 0x1000000 :=
  ⟨sesS, 1, 3, 0xFFFFFE#32, 2#32, by decide⟩

theorem test_DeliveryAndSessions_13 : ∃ (s : State) (a : Nat) (b : Nat), s.firmware = true ∧ s.sesOpen = [a, b] :=
  ⟨{ sesS with sesOpen := [2, 1] }, 2, 1, by decide⟩

theorem test_DeliveryAndSessions_14 : ∃ (s : State) (n : Fin 4) (f : Fin 512) (o : Word), s.sesHolds n.val f.val = true ∧ s.firmware = true ∧ 0x400000 ≤ o.toNat ∧ n.val ≠ 0 :=
  ⟨sesS, 1, 3, 0x400000#32, by decide⟩

theorem test_DeliveryAndSessions_15 : ∃ (s : State) (n : Fin 4) (f : Fin 512) (o : Word), s.sesHolds n.val f.val = true ∧ s.firmware = true ∧ s.domOn 0 = true ∧ f.val ≠ 0 ∧ s.fnState f.val ≠ 0 ∧ s.fnState f.val < 4 ∧ o.toNat = 0x400 :=
  ⟨sesS, 1, 3, 0x400#32, by decide⟩

theorem test_DeliveryAndSessions_16 : ∃ (s : State) (n : Fin 4) (f : Fin 512) (o : Word) (d : Word), s.sesHolds n.val f.val = true ∧ s.firmware = true ∧ s.domOn 0 = true ∧ f.val ≠ 0 ∧ s.fnState f.val ≠ 0 ∧ o.toNat = 0x40C :=
  ⟨sesS, 1, 3, 0x40C#32, 0x3FF#32, by decide⟩

theorem test_ServicePortSession_1 : ∃ (s : State), s.svcOn = true :=
  ⟨updS, by decide⟩

theorem test_ServicePortSession_2 : ∃ (s : State), s.svcOn = true :=
  ⟨updS, by decide⟩

theorem test_ServicePortSession_3 : ∃ (s : State) (h : List Byte), s.svcOn = true ∧ s.svcBlocked true = none ∧ h.length = 4096 ∧ s.mem.wf = true :=
  ⟨updS, List.replicate 4096 0, by decide +kernel⟩

theorem test_ServicePortSession_4 : ∃ (s : State) (i : Nat) (bs : List Byte), s.svcOn = true ∧ s.svcBlocked true = none ∧ s.session = 1 ∧ i < 65536 ∧ 1 ≤ i ∧ i ≤ s.rd pgUpd R.UPD_BLOCKS_n_blocks ∧ bs.length = 4096 ∧ s.mem.wf = true :=
  ⟨put updS [(pgUpd, R.UPD_STAT_session, 1), (pgUpd, R.UPD_BLOCKS_n_blocks, 3)], 3, List.replicate 4096 0, by decide +kernel⟩

theorem test_ServicePortSession_5 : ∃ (s : State) (bs : List Byte), s.svcOn = true ∧ s.svcBlocked true = none ∧ s.session = 1 ∧ bs.length = 4096 :=
  ⟨put updS [(pgUpd, R.UPD_STAT_session, 1), (pgUpd, R.UPD_BLOCKS_n_blocks, 3)], List.replicate 4096 0, by decide +kernel⟩

theorem test_ServicePortSession_6 : ∃ (s : State), s.svcOn = true ∧ s.svcBlocked true = none :=
  ⟨put updS [(pgUpd, R.UPD_STAT_session, 1), (pgUpd, R.UPD_BLOCKS_n_blocks, 3)], by decide⟩

theorem test_ServicePortSession_7 : ∃ (s : State), s.svcOn = true ∧ s.svcBlocked true = none ∧ s.session ≠ 0 :=
  ⟨put updS [(pgUpd, R.UPD_STAT_session, 1), (pgUpd, R.UPD_BLOCKS_n_blocks, 3)], by decide⟩

theorem test_ServicePortSession_8 : ∃ (s : State), s.svcOn = true :=
  ⟨updS, by decide⟩

theorem test_ServicePortSession_9 : ∃ (s : State), s.svcOn = true ∧ s.rd pgUpd R.UPD_STAT_busy = 1 :=
  ⟨put updS [(pgUpd, R.UPD_STAT_busy, 1)], by decide⟩

theorem test_ServicePortSession_10 : ∃ (s : State), s.svcOn = true ∧ s.rd pgUpd R.UPD_STAT_busy = 0 ∧ s.tampered = false ∧ s.svc.recovery = false ∧ s.rd pgUpd R.UPD_CFG_svc_lock = 1 :=
  ⟨put updS [(pgUpd, R.UPD_CFG_svc_lock, 1)], by decide⟩

theorem test_ServicePortSession_11 : ∃ (s : State) (n : Nat), s.svcOn = true ∧ n ≠ 0 :=
  ⟨updS, 1, by decide⟩

theorem test_FirmwareActivation_1 : ∃ (s : State), s.rd pgUpd R.UPD_STAT_busy = 1 ∧ s.svc.verify = false ∧ s.svc.res < 256 :=
  ⟨{ put updS [(pgUpd, R.UPD_STAT_busy, 1)] with svc := { res := 0x0B } }, by decide⟩

theorem test_FirmwareActivation_2 : ∃ (s : State), s.rd pgUpd R.UPD_STAT_busy = 1 ∧ s.svc.verify = true ∧ s.job = none ∧ s.svc.res = 0 ∧ s.target < 2 :=
  ⟨{ put updS [(pgUpd, R.UPD_STAT_busy, 1)] with svc := { verify := true } }, by decide⟩

theorem test_FirmwareActivation_3 : ∃ (s : State), s.svcOn = true ∧ s.svcBlocked true = none ∧ s.session = 2 ∧ s.svc.recovery = false :=
  ⟨put updS [(pgUpd, R.UPD_STAT_session, 2), (pgUpd, R.UPD_CFG_trial_max, 0)], by decide⟩

theorem test_FirmwareActivation_4 : ∃ (s : State), s.svcOn = true ∧ s.svcBlocked true = none ∧ s.session = 2 :=
  ⟨put updS [(pgUpd, R.UPD_STAT_session, 2)], by decide⟩

theorem test_FirmwareActivation_5 : ∃ (s : State) (a : Nat) (b : Nat), s.svcOn = true ∧ s.svcBlocked true = none ∧ s.session = 2 ∧ s.svc.recovery = false ∧ s.running = some a ∧ a < 2 ∧ b = 1 - a ∧ s.boot.st a = Img.good ∧ s.load (bankBase a + 0x060) 32 = s.load (bankBase b + 0x060) 32 :=
  ⟨put updS [(pgUpd, R.UPD_STAT_session, 2)], 0, 1, by decide⟩

theorem test_FirmwareActivation_6 : ∃ (s : State) (d : Byte), s.svcOn = true ∧ s.svcBlocked true = none ∧ d.toNat ≤ 2 ∧ s.session ≠ 2 :=
  ⟨updS, 2, by decide⟩

theorem test_FirmwareActivation_7 : ∃ (s : State) (r : Req) (d : Word) (b : Nat), Accepts s r pgUpd 0x020 ∧ d.toNat.testBit 30 = false ∧ s.running = some b ∧ b < 2 ∧ s.boot.st b = Img.trial :=
  ⟨{ put updS [(pgUpd, R.OWNER_world, 0)] with boot := { stA := 3, stB := 4 } }, .chrysalis, 0#32, 0, by decide⟩

theorem test_FirmwareActivation_8 : ∃ (s : State) (r : Req) (d : Word), Accepts s r pgUpd 0x020 ∧ d.toNat.testBit 30 = false ∧ ((∀ b < 2, s.running = some b → s.boot.st b ≠ Img.trial)) ∧ s.running.all (fun b => decide (b < 2)) = true :=
  ⟨updS, .chrysalis, 0#32, by decide⟩

theorem test_FirmwareActivation_9 : ∃ (s : State) (r : Req) (d : Word) (b : Nat), Accepts s r pgUpd 0x020 ∧ d.toNat.testBit 31 = false ∧ s.running = some b ∧ b < 2 :=
  ⟨updS, .chrysalis, 0#32, 0, by decide⟩

theorem test_FirmwareActivation_10 : ∃ (s : State) (r : Req) (d : Word), Accepts s r pgUpd 0x020 ∧ d.toNat.testBit 31 = true :=
  ⟨updS, .chrysalis, 0x80000000#32, by decide⟩

theorem test_Pair_1 : ∃ (s : State) (w : BitVec 36) (off : BitVec 16), s.rd pgPair (R.CTRL_enable pgPair) = 1 ∧ s.rd pgPair R.PAIR_STAT_plk ≠ 0 ∧ s.domOn 0 = true :=
  ⟨plkS 1, 7, 3, by decide⟩

theorem test_Pair_2 : ∃ (s : State) (w : BitVec 36) (off : BitVec 16), s.rd pgPair (R.CTRL_enable pgPair) = 1 ∧ s.rd pgPair R.PAIR_STAT_plk ≠ 0 ∧ s.domOn 0 = true ∧ s.plk.rx ≠ [] ∧ s.plk.rx.length + 1 < s.len :=
  ⟨{ plkS 1 with plk := { rx := [5, 6] } }, 7, 0, by decide⟩

theorem test_Pair_3 : ∃ (s : State) (w : BitVec 36) (off : BitVec 16), s.rd pgPair (R.CTRL_enable pgPair) = 1 ∧ s.rd pgPair R.PAIR_STAT_plk ≠ 0 ∧ s.domOn 0 = true ∧ s.plk.rx ≠ [] ∧ s.plk.rx.length + 1 = s.len ∧ s.plk.rx.foldl (fun a x => crc16 a x 36) 0xFFFF ≠ w.toNat % 2 ^ 16 :=
  ⟨{ plkS 2 with plk := { rx := [5, 6], bad := 1 }, len := 3 }, 7, 0, by decide +kernel⟩

theorem test_Pair_4 : ∃ (s : State) (w : BitVec 36) (off : BitVec 16), s.rd pgPair (R.CTRL_enable pgPair) = 1 ∧ s.rd pgPair R.PAIR_STAT_plk = 1 ∧ s.domOn 0 = true ∧ 3 ≤ s.plk.rx.length ∧ s.plk.rx.length + 1 = s.len ∧ s.plk.rx.foldl (fun a x => crc16 a x 36) 0xFFFF = w.toNat % 2 ^ 16 :=
  ⟨{ plkS 1 with plk := { rx := [5, 0x400000006, 9], bad := 1 }, len := 4 }, BitVec.ofNat 36 ([5, 0x400000006, 9].foldl (fun a x => crc16 a x 36) 0xFFFF), 0, by decide +kernel⟩

theorem test_Pair_5 : ∃ (s : State), s.rd pgPair R.PAIR_STAT_plk = 1 :=
  ⟨plkS 1, by decide⟩

theorem test_Pair_6 : ∃ (s : State), s.rd pgPair R.PAIR_STAT_plk ≠ 1 :=
  ⟨plkS 2, by decide⟩

theorem test_Pair_7 : ∃ (s : State), s.rd pgPair R.PAIR_STAT_plk = 2 :=
  ⟨{ plkS 2 with plk := { sync := 2 } }, by decide⟩

theorem test_Pair_8 : ∃ (s : State), s.rd pgPair R.PAIR_STAT_plk ≠ 2 :=
  ⟨plkS 1, by decide⟩

theorem test_Pair_9 : ∃ (s : State), s.selfFail = false ∧ s.rd pgPair R.PAIR_STAT_partner_fail = 0 ∧ s.plk.sync = 0 :=
  ⟨{ plkS 2 with roles := [(0, 2), (9, 3)] }, by decide +kernel⟩

theorem test_Pair_10 : ∃ (s : State), (s.selfFail = true ∨ s.rd pgPair R.PAIR_STAT_partner_fail = 1) :=
  ⟨on, by decide⟩

theorem test_Pair_12 : ∃ (s : State) (r : Req) (d : Word), Accepts s r pgPair 0x008 ∧ s.locked pgPair = false ∧ d.toNat / 2 % 2 = 0 ∧ s.rd pgPair (R.CTRL_enable pgPair) = 0 :=
  ⟨on, .chrysalis, 0#32, by decide⟩

theorem test_Pair_13 : ∃ (s : State) (r : Req) (d : Word), Accepts s r pgPair 0x008 ∧ s.locked pgPair = false ∧ d.toNat / 2 % 2 = 0 ∧ s.rd pgPair (R.CTRL_enable pgPair) = 1 :=
  ⟨plkS 2, .chrysalis, 0#32, by decide⟩

theorem test_Pair_14 : ∃ (s : State) (r : Req) (d : Word) (peer : List Word), Accepts s r pgPair 0x024 ∧ d.toNat / 2 ^ 28 % 8 = 0 ∧ s.plk.sync = 0 :=
  ⟨plkS 1, .chrysalis, 0#32, [], by decide⟩

theorem test_Pair_15 : ∃ (s : State) (r : Req) (d : Word), Accepts s r pgPair 0x024 ∧ d.toNat / 2 ^ 31 = 0 ∧ d.toNat / 2 ^ 28 % 4 = 0 :=
  ⟨{ plkS 2 with plk := { sync := 2 } }, .chrysalis, 0#32, by decide⟩

theorem test_Pair_16 : ∃ (s : State) (r : Req) (d : Word), Accepts s r pgPair 0x024 ∧ d.toNat / 2 ^ 30 = 0 ∧ d.toNat / 2 ^ 28 % 2 = 0 :=
  ⟨plkS 2, .chrysalis, 0#32, by decide⟩

theorem test_Pair_17 : ∃ (s : State) (r : Req) (d : Word), Accepts s r pgPair 0x024 ∧ d.toNat / 2 ^ 29 = 0 :=
  ⟨{ put (plkS 2) [(pgPair, R.PAIR_BANK_SEL_mask, 512)] with roles := [(9, 1)], plk := { peerSby := 512 } }, .chrysalis, 0#32, by decide⟩

theorem test_Pair_18 : ∃ (s : State) (n : Nat) (b : Nat), b < 32 ∧ s.plk.change = [(n, 2, 2 ^ b)] ∧ s.role b = 1 :=
  ⟨{ plkS 2 with roles := [(9, 1)], plk := { change := [(5, 2, 2 ^ 9)] } }, 5, 9, by decide⟩

theorem test_Pair_19 : ∃ (s : State) (n : Nat) (b : Nat), b < 32 ∧ s.plk.change = [(n, 1, 2 ^ b)] ∧ s.role b = 2 :=
  ⟨{ plkS 2 with roles := [(9, 2)], plk := { change := [(5, 1, 2 ^ 9)] } }, 5, 9, by decide⟩

theorem test_Pair_20 : ∃ (s : State) (b : Nat) (k : Nat) (peer : Nat) (own : Nat), b < 32 ∧ s.plk.own.get (2 ^ 64) (32 * k + b) = own ∧ own < 2 ^ 64 ∧ own ≠ peer ∧ s.plk.div.get 0 b = 0 ∧ (s.role b = 1 ∨ s.role b = 2 ∨ s.role b = 3) :=
  ⟨{ plkS 2 with roles := [(9, 2)], plk := { own := [(32 * 5 + 9, 77)] } }, 9, 5, 78, 77, by decide⟩

theorem test_Pair_22 : ∃ (s : State) (vals : List (Nat × Nat)) (crc : Nat), s.plk.snapEnd = some crc ∧ s.plk.sync = 1 ∧ s.plk.snapRx.length ≠ 74752 :=
  ⟨{ plkS 2 with plk := { sync := 1, snapEnd := some 5 } }, [], 5, by decide⟩

theorem test_Pair_23 : ∃ (s : State) (vals : List (Nat × Nat)), s.plk.snapEnd = some (crc32c (s.plk.snapRx.map (toBytes 4)).flatten) ∧ s.plk.sync = 1 ∧ s.plk.snapRx.length = 74752 :=
  ⟨{ plkS 2 with plk := { sync := 1, snapRx := List.replicate 74752 0, snapEnd := some (crc32c ((List.replicate 74752 0).map (toBytes 4)).flatten) } }, [], rfl, by decide, List.length_replicate⟩

theorem test_Pair_24 : ∃ (s : State) (vals : List (Nat × Nat)), (s.plk.snapEnd = none ∨ s.plk.sync ≠ 1) :=
  ⟨plkS 2, [], by decide⟩

theorem test_Pair_25 : ∃ (s : State), s.plk.sync = 2 ∧ s.w = s.k :=
  ⟨{ plkS 2 with plk := { sync := 2 } }, by decide⟩

theorem test_Pair_26 : ∃ (s : State), (s.plk.sync ≠ 2 ∨ s.w ≠ s.k) :=
  ⟨plkS 2, by decide⟩

theorem test_Pair_27 : ∃ (s : State), s.plk.sync = 3 ∧ 64 ≤ s.plk.same :=
  ⟨{ plkS 2 with plk := { sync := 3, same := 64 } }, by decide⟩

theorem test_Pair_28 : ∃ (s : State), (s.plk.sync ≠ 3 ∨ s.plk.same < 64) :=
  ⟨plkS 2, by decide⟩

theorem test_Pair_29 : ∃ (s : State) (c : Fin 512) (o : GrdOut), (s.gr c.val).out = some o ∧ o.st = 1 ∧ s.grdEmits c.val = false :=
  ⟨{ on.modGr 147 (fun x => { x with out := some { st := 1 } }) with roles := [(9, 2)] }, 147, { st := 1 }, by decide⟩

theorem test_Pair_30 : ∃ (s : State) (c : Fin 512), ((s.gr c.val).out = none ∨ s.grdEmits c.val = true) :=
  ⟨on, 147, by decide⟩

theorem test_VcoreLoop_1 : ∃ (s : State) (hi : Bool), 1024 ≤ (s.vc (islandOf hi)).count ∧ s.vfloor ≤ 900 ∧ s.rd pgPwr (R.PWR_VCORE_volt_mv (islandOf hi)) ≤ 900 ∧ s.rd pgPwr R.PWR_VCORE_CFG_lower_th ≤ (s.vc (islandOf hi)).low :=
  ⟨(put on [(pgPwr, R.PWR_VCORE_volt_mv 4, 670)]).setVc 4 { count := 1024, low := 103 }, true, by decide⟩

theorem test_VcoreLoop_2 : ∃ (s : State) (hi : Bool), 1024 ≤ (s.vc (islandOf hi)).count ∧ (s.vc (islandOf hi)).low < s.rd pgPwr R.PWR_VCORE_CFG_lower_th :=
  ⟨(put on [(pgPwr, R.PWR_VCORE_volt_mv 4, 670)]).setVc 4 { count := 1024, low := 102 }, true, by decide⟩

theorem test_VcoreLoop_3 : ∃ (s : State) (hi : Bool), 64 ≤ (s.vc (islandOf hi)).run ∧ (s.vc (islandOf hi)).done = false :=
  ⟨on.setVc 3 { run := 64 }, false, by decide⟩

theorem test_VcoreLoop_5 : ∃ (s : State) (r : Req) (b : Fin 32), Accepts s r pgPwr (0x100 + 4 * b.val) :=
  ⟨on, .chrysalis, 31, by decide⟩

theorem test_DomainRequests_1 : ∃ (s : State) (r : Req) (d : Word) (n : Nat), Accepts s r pgPwr 0x020 ∧ d.toNat % 8 = n ∧ bitOf (s.rd pgPwr R.PWR_DOM_STAT_busy) n = false ∧ s.domOn n = false ∧ (n = 0 ∨ s.domOn 0 = true) :=
  ⟨put on [(pgPwr, R.PWR_DOM_STAT_on, 1)], .chrysalis, 7#32, 7, by decide⟩

theorem test_DomainRequests_2 : ∃ (s : State) (r : Req) (d : Word) (n : Nat), Accepts s r pgPwr 0x020 ∧ d.toNat % 8 = n ∧ bitOf (s.rd pgPwr R.PWR_DOM_STAT_busy) n = false ∧ s.domOn n = true :=
  ⟨on, .chrysalis, 7#32, 7, by decide⟩

theorem test_DomainRequests_3 : ∃ (s : State) (r : Req) (d : Word) (n : Nat), Accepts s r pgPwr 0x020 ∧ d.toNat % 8 = n ∧ n ≠ 1 ∧ bitOf (s.rd pgPwr R.PWR_DOM_STAT_busy) n = false ∧ s.domOn n = true ∧ ((∀ p < 0x300, domOf p = some n → (blkOf p).isSome = true → s.ownerAccepts r p = true ∧ s.rd p R.OWNER_handover = 0)) ∧ n ≠ 0 ∧ ((n = 2 ∨ n = 6 → s.secureReq r = true)) ∧ ((n = 3 ∨ n = 4 → s.islandArmed n = false)) :=
  ⟨on, .chrysalis, 6#32, 6, by decide +kernel⟩

theorem test_DomainRequests_4 : ∃ (s : State) (r : Req) (d : Word), Accepts s r pgPwr 0x020 ∧ d.toNat % 8 = 1 :=
  ⟨on, .chrysalis, 1#32, by decide⟩

theorem test_DomainRequests_5 : ∃ (s : State) (r : Req) (d : Word) (n : Nat) (p : Nat), Accepts s r pgPwr 0x020 ∧ d.toNat % 8 = n ∧ n ≠ 1 ∧ bitOf (s.rd pgPwr R.PWR_DOM_STAT_busy) n = false ∧ s.domOn n = true ∧ p < 0x300 ∧ domOf p = some n ∧ (blkOf p).isSome = true ∧ (s.ownerAccepts r p = false ∨ s.rd p R.OWNER_handover ≠ 0) :=
  ⟨put on [(pgPwr, R.OWNER_world, 0)], .probe, 7#32, 7, 0x30, by decide +kernel⟩

theorem test_DomainRequests_6 : ∃ (s : State) (r : Req) (d : Word) (n : Nat), Accepts s r pgPwr 0x020 ∧ d.toNat % 8 = n ∧ (n = 3 ∨ n = 4) ∧ bitOf (s.rd pgPwr R.PWR_DOM_STAT_busy) n = false ∧ s.domOn n = true ∧ s.offAllowed r n = true ∧ s.islandArmed n = true :=
  ⟨on.setCst 255 2, .chrysalis, 3#32, 3, by decide +kernel⟩

theorem test_DomainRequests_7 : ∃ (s : State) (d : Fin 8) (n : Nat), bitOf (s.rd pgPwr R.PWR_DOM_STAT_busy) d.val = true ∧ s.domOn d.val = false ∧ s.rd pgPwr R.PWR_REQ_STAT_status = 1 ∧ s.rd pgPwr R.PWR_REQ_STAT_domain = d.val :=
  ⟨put on [(pgPwr, R.PWR_DOM_STAT_on, 5), (pgPwr, R.PWR_DOM_STAT_busy, 128), (pgPwr, R.PWR_REQ_STAT_status, 1), (pgPwr, R.PWR_REQ_STAT_domain, 7)], 7, 0, by decide⟩

theorem test_DomainRequests_8 : ∃ (s : State) (d : Fin 8), bitOf (s.rd pgPwr R.PWR_DOM_STAT_busy) d.val = true ∧ s.domOn d.val = true :=
  ⟨put on [(pgPwr, R.PWR_DOM_STAT_busy, 16)], 4, by decide⟩

theorem test_DomainRequests_9 : ∃ (s : State) (r : Req) (d : Word), Accepts s r pgClk 0x020 ∧ s.clkDenied r (d.toNat % 256) = 0 :=
  ⟨on, .chrysalis, 0#32, by decide⟩

theorem test_DomainRequests_10 : ∃ (s : State) (r : Req) (d : Word), Accepts s r pgClk 0x020 ∧ s.clkDenied r (d.toNat % 256) ≠ 0 :=
  ⟨put on [(pgClk, R.OWNER_world, 0), (pgUpd, R.OWNER_world, 0)], .probe, 0#32, by decide⟩

theorem test_Resets_1 : ∃ (s : State) (r : Req) (d : Word), Accepts s r pgRst 0x020 ∧ d.toNat / 2 ^ 16 = 0x7A51 :=
  ⟨on, .chrysalis, 0x7A510000#32, by decide⟩

theorem test_Resets_2 : ∃ (s : State) (r : Req) (d : Word), Accepts s r pgRst 0x020 ∧ d.toNat / 2 ^ 16 ≠ 0x7A51 :=
  ⟨on, .chrysalis, 0x7A500000#32, by decide⟩

theorem test_Resets_3 : ∃ (s : State) (r : Req) (d : Word), Accepts s r pgRst 0x020 ∧ d.toNat / 2 ^ 16 = 0x7A51 :=
  ⟨on, .chrysalis, 0x7A510000#32, by decide⟩

theorem test_Resets_4 : ∃ (s : State), s.sleep = 0 :=
  ⟨on, by decide⟩

theorem test_Resets_5 : ∃ (s : State), s.sleep ≠ 0 :=
  ⟨{ on with sleep := 2 }, by decide⟩

theorem test_Resets_6 : ∃ (s : State), s.rd pgRst R.RST_PWRCYC_count + 1 < 2 ^ 32 :=
  ⟨on, by decide⟩

theorem test_Resets_7 : ∃ (s : State), s.sleep = 0 :=
  ⟨on, by decide⟩

theorem test_Resets_8 : ∃ (s : State) (second : Bool), s.sleep = 0 ∧ s.rd pgRst R.RST_WDT_timeout_ms ≠ 0 ∧ (s.wdt = false ∨ second = false) :=
  ⟨put on [(pgRst, R.RST_WDT_timeout_ms, 1)], true, by decide⟩

theorem test_Resets_9 : ∃ (s : State), s.sleep = 0 ∧ s.rd pgRst R.RST_WDT_timeout_ms ≠ 0 ∧ s.wdt = true :=
  ⟨{ put on [(pgRst, R.RST_WDT_timeout_ms, 1)] with wdt := true }, by decide⟩

theorem test_Resets_10 : ∃ (s : State) (r : Req) (second : Bool), Accepts s r pgRst 0x02C :=
  ⟨on, .chrysalis, true, by decide⟩

theorem test_Resets_11 : ∃ (s : State) (r : Req) (d : Word), Accepts s r pgRst 0x02C ∧ d ≠ 0x0000A5A5#32 :=
  ⟨on, .chrysalis, 0#32, by decide⟩

theorem test_Resets_12 : ∃ (s : State), s.domOn 0 = true ∧ s.rd pgClk R.CLK_GATE_dbg = 1 :=
  ⟨on, by decide⟩

theorem test_StartUp_1 : ∃ (s : State) (train : Bool), s.up = false ∧ s.sleep = 0 :=
  ⟨State.reset, true, by decide⟩

theorem test_StartUp_2 : ∃ (s : State) (train : Bool), s.up = false ∧ s.sleep = 0 ∧ s.rd pgTmp R.TMP_STAT_tampered = 1 :=
  ⟨put State.reset [(pgTmp, R.TMP_STAT_tampered, 1)], true, by decide⟩

theorem test_StartUp_3 : ∃ (s : State) (train : Bool), s.up = false ∧ s.sleep = 0 ∧ s.domOn 0 = true ∧ s.rd pgTmp R.TMP_STAT_tampered = 0 ∧ s.bbMark = 0x5AA5C33C ∧ s.bbCheck = true ∧ s.boot.stA ≠ Img.good ∧ s.boot.stA ≠ Img.trial ∧ s.boot.stB ≠ Img.good ∧ s.boot.stB ≠ Img.trial ∧ s.boot.pref < 2 :=
  ⟨{ State.reset with bbMark := 0x5AA5C33C, bbCheck := true }, true, by decide⟩

theorem test_StartUp_4 : ∃ (s : State) (train : Bool), s.up = false ∧ s.sleep = 0 ∧ s.domOn 0 = true ∧ s.rd pgTmp R.TMP_STAT_tampered = 0 ∧ s.bbMark = 0x5AA5C33C ∧ s.bbCheck = true ∧ s.boot.pref < 2 ∧ s.boot.st s.boot.pref = Img.good :=
  ⟨{ State.reset with bbMark := 0x5AA5C33C, bbCheck := true, boot := { stA := 4 } }, true, by decide⟩

theorem test_StartUp_5 : ∃ (s : State) (train : Bool), s.up = true :=
  ⟨{ State.reset with up := true }, true, by decide⟩

theorem test_SleepAndWake_1 : ∃ (s : State) (r : Req) (d : Word), Accepts s r pgPwr 0x060 ∧ s.secureReq r = true :=
  ⟨on, .chrysalis, 0#32, by decide⟩

theorem test_SleepAndWake_2 : ∃ (s : State) (r : Req) (d : Word), Accepts s r pgPwr 0x060 ∧ s.secureReq r = false :=
  ⟨put on [(pgPwr, R.OWNER_world, 0)], .probe, 0#32, by decide⟩

theorem test_SleepAndWake_3 : ∃ (s : State) (r : Req) (d : Word), Accepts s r pgPwr 0x060 ∧ s.secureReq r = true ∧ ((∀ c < 512, s.armed c = true → s.openCircuit c = true)) :=
  ⟨on, .chrysalis, 0#32, by decide +kernel⟩

theorem test_SleepAndWake_4 : ∃ (s : State) (r : Req) (d : Word) (c : Fin 512), Accepts s r pgPwr 0x060 ∧ s.secureReq r = true ∧ s.armed c.val = true ∧ s.openCircuit c.val = false :=
  ⟨on.setCst 7 2, .chrysalis, 0#32, 7, by decide⟩

theorem test_SleepAndWake_5 : ∃ (s : State) (src : Fin 5), s.sleep ≠ 0 ∧ src.val ≠ 0 ∧ bitOf (s.rd pgPwr R.PWR_WAKE_EN_en) src.val = true :=
  ⟨{ on with sleep := 2 }, 1, by decide⟩

theorem test_SleepAndWake_6 : ∃ (s : State) (src : Fin 5), bitOf (s.rd pgPwr R.PWR_WAKE_EN_en) src.val = false :=
  ⟨{ put on [(pgPwr, R.PWR_WAKE_EN_en, 0x1D)] with sleep := 2 }, 1, by decide⟩

theorem test_SleepAndWake_7 : ∃ (s : State), s.sleep = 1 ∧ bitOf (s.rd pgPwr R.PWR_WAKE_EN_en) 0 = true :=
  ⟨{ on with sleep := 1 }, by decide⟩

theorem test_SleepAndWake_8 : ∃ (s : State), s.sleep = 2 :=
  ⟨{ on with sleep := 2 }, by decide⟩

theorem test_SleepAndWake_9 : ∃ (s : State) (a : Nat) (ticks : Nat) (dur : Nat), s.sleep = 2 ∧ (∀ c < 512, s.cst c ≠ 2) :=
  ⟨{ State.reset with sleep := 2 }, 0, 0, 0, by decide +kernel⟩

theorem test_SleepAndWake_10 : ∃ (s : State) (a : Nat) (ticks : Nat) (dur : Nat) (ids : List (Fin 32 × List Word)) (avg : List (Fin 512 × Int × Int)), s.sleep = 2 :=
  ⟨{ State.reset with sleep := 2 }, 0, 0, 0, [], [], by decide⟩

theorem test_KeyCommands_1 : ∃ (s : State) (r : Req) (d : Word) (p : Nat) (c : Nat) (a : Nat), Accepts s r pgKey 0x030 ∧ d.toNat.testBit 30 = false ∧ d.toNat % 64 = c ∧ d.toNat / 2 ^ 16 % 64 = p ∧ s.rd pgKey R.KEY_NEW_ATTR_attr = a ∧ a.testBit 16 = false ∧ a.testBit 21 = false ∧ s.deriveCheck p c a s.keyInfo none (reqBit (r == .chrysalis)) = none :=
  ⟨keyS, .chrysalis, 0x50009#32, 5, 9, 0x900000CE, by decide⟩

theorem test_KeyCommands_2 : ∃ (s : State) (r : Req) (d : Word) (p : Nat) (c : Nat) (x : Nat), Accepts s r pgKey 0x030 ∧ d.toNat.testBit 30 = false ∧ d.toNat % 64 = c ∧ d.toNat / 2 ^ 16 % 64 = p ∧ x < 256 ∧ s.deriveCheck p c (s.rd pgKey R.KEY_NEW_ATTR_attr) s.keyInfo none (reqBit (r == .chrysalis)) = some x :=
  ⟨keyS, .chrysalis, 0x50005#32, 5, 5, 6, by decide⟩

theorem test_KeyCommands_3 : ∃ (s : State) (p : Nat) (c : Nat) (a : Nat) (b : Nat) (i : List Byte), s.keyStore = 1 ∧ 2 ≤ c ∧ (s.slotK c).valid = true :=
  ⟨keyS, 5, 6, 0, 0, [], by decide⟩

theorem test_KeyCommands_4 : ∃ (s : State) (p : Nat) (c : Nat) (a : Nat) (b : Nat) (i : List Byte), s.keyStore = 1 ∧ c < 2 :=
  ⟨keyS, 5, 1, 0, 0, [], by decide⟩

theorem test_KeyCommands_5 : ∃ (s : State) (c : Nat) (a : Nat) (b : Nat) (i : List Byte), s.keyStore = 1 ∧ 2 ≤ c ∧ (s.slotK c).valid = false ∧ (s.slotK 0).valid = true ∧ (s.slotK 0).type = 1 ∧ (a / 2 ^ 28 % 4 = 1 ∨ a / 2 ^ 28 % 4 = 2) ∧ i.take 9 = glallaim :=
  ⟨keyS, 9, 0x900000CE, 2, glallaim, by decide⟩

theorem test_KeyCommands_6 : ∃ (s : State) (p : Nat) (c : Nat) (a : Nat) (b : Nat) (i : List Byte), s.keyStore = 0 :=
  ⟨on, 5, 6, 0, 0, [], by decide⟩

theorem test_KeyCommands_7 : ∃ (s : State) (r : Req) (d : Word) (n : Nat), Accepts s r pgKey 0x030 ∧ d.toNat.testBit 31 = false ∧ d.toNat % 64 = n ∧ 2 ≤ n ∧ s.keyStore = 1 ∧ (s.slotK n).valid = true :=
  ⟨keyS, .chrysalis, 5#32, 5, by decide +kernel⟩

theorem test_KeyCommands_8 : ∃ (s : State) (r : Req) (d : Word), Accepts s r pgKey 0x030 ∧ d.toNat.testBit 31 = false ∧ d.toNat % 64 < 2 ∧ s.keyStore = 1 :=
  ⟨keyS, .chrysalis, 1#32, by decide⟩

theorem test_KeyCommands_9 : ∃ (s : State) (r : Req) (d : Word), Accepts s r pgKey 0x034 ∧ d.toNat / 2 ^ 16 = 0x7A51 ∧ d.toNat % 2 = 1 :=
  ⟨keyS, .chrysalis, 0x7A510001#32, by decide⟩

theorem test_KeyCommands_10 : ∃ (s : State) (r : Req) (d : Word), Accepts s r pgKey 0x034 ∧ d.toNat / 2 ^ 16 ≠ 0x7A51 :=
  ⟨keyS, .chrysalis, 0x7A500001#32, by decide⟩

theorem test_CryptoJobs_1 : ∃ (s : State) (r : Req) (d : Word), Accepts s r pgCry 0x020 ∧ s.job = none ∧ d.toNat.testBit 23 = false ∧ s.secReach (s.rd2 pgCry R.CRY_SRC_W0_addr R.CRY_SRC_W1_addr) (s.rd pgCry R.CRY_LEN_len) = true :=
  ⟨keyS, .chrysalis, 0#32, by decide⟩

theorem test_CryptoJobs_2 : ∃ (s : State) (r : Req) (d : Word), Accepts s r pgCry 0x020 ∧ s.job = none ∧ d.toNat.testBit 23 = false ∧ s.secReach (s.rd2 pgCry R.CRY_SRC_W0_addr R.CRY_SRC_W1_addr) (s.rd pgCry R.CRY_LEN_len) = true ∧ s.slotCheck (d.toNat / 2 ^ 16 % 64) none (reqBit (r == .chrysalis)) 1 6 = none :=
  ⟨keyS, .chrysalis, 0x50000#32, by decide⟩

theorem test_CryptoJobs_3 : ∃ (s : State) (r : Req) (d : Word), Accepts s r pgCry 0x020 ∧ s.job = none ∧ d.toNat.testBit 23 = false ∧ s.deriveCheck (d.toNat / 2 ^ 16 % 64) (s.rd pgCry (R.CRY_IN_data 0) % 64) (s.rd pgKey R.KEY_NEW_ATTR_attr) s.keyInfo none (reqBit (r == .chrysalis)) = none :=
  ⟨(keyS.wr pgCry (R.CRY_IN_data 0) 9), .chrysalis, 0x50000#32, by decide⟩

theorem test_CryptoJobs_4 : ∃ (s : State) (r : Req) (d : Word), Accepts s r pgCry 0x020 ∧ s.job = none ∧ d.toNat.testBit 23 = false ∧ s.slotCheck (d.toNat / 2 ^ 16 % 64) none (reqBit (r == .chrysalis)) 2 5 = none :=
  ⟨keyS, .chrysalis, 0x60000#32, by decide⟩

theorem test_CryptoJobs_5 : ∃ (s : State) (r : Req) (d : Word), Accepts s r pgCry 0x020 ∧ s.job = none ∧ d.toNat.testBit 23 = false ∧ s.secReach (s.rd2 pgCry R.CRY_SRC_W0_addr R.CRY_SRC_W1_addr) 64 = true :=
  ⟨keyS, .chrysalis, 0#32, by decide⟩

theorem test_CryptoJobs_6 : ∃ (s : State) (r : Req) (d : Word), Accepts s r pgCry 0x020 ∧ s.job = none ∧ d.toNat.testBit 23 = false ∧ s.slotCheck (d.toNat / 2 ^ 16 % 64) none (reqBit (r == .chrysalis)) 2 4 = none :=
  ⟨keyS, .chrysalis, 0x60000#32, by decide⟩

theorem test_CryptoJobs_7 : ∃ (s : State) (r : Req) (d : Word), Accepts s r pgCry 0x020 ∧ s.job = none ∧ d.toNat.testBit 23 = false :=
  ⟨keyS, .chrysalis, 0#32, by decide⟩

theorem test_CryptoJobs_8 : ∃ (s : State) (r : Req) (d : Word) (x : Nat), Accepts s r pgCry 0x020 ∧ s.job = none ∧ d.toNat.testBit 23 = false ∧ x < 256 ∧ s.slotCheck (d.toNat / 2 ^ 16 % 64) none (reqBit (r == .chrysalis)) 2 5 = some x :=
  ⟨keyS, .chrysalis, 0x50000#32, 5, by decide⟩

theorem test_CryptoJobs_9 : ∃ (s : State) (r : Req) (d : Word), Accepts s r pgCry 0x020 ∧ s.job ≠ none :=
  ⟨{ keyS with job := some {} }, .chrysalis, 0#32, by decide⟩

theorem test_CryptoJobs_10 : ∃ (s : State) (n : Nat) (b : Nat) (y : Nat) (u : Nat), s.keyStore = 0 :=
  ⟨on, 5, 1, 2, 5, by decide⟩

theorem test_CryptoJobs_11 : ∃ (s : State) (j : Job), s.job = some j ∧ s.jobReach j = true ∧ j.op = 1 ∧ j.coc = none :=
  ⟨{ keyS with job := some { op := 1 } }, { op := 1 }, by decide⟩

theorem test_CryptoJobs_12 : ∃ (s : State) (j : Job), s.job = some j ∧ s.jobReach j = true ∧ j.op = 2 ∧ j.coc = none :=
  ⟨{ keyS with job := some { op := 2, slot := 5 } }, { op := 2, slot := 5 }, by decide⟩

theorem test_CryptoJobs_13 : ∃ (s : State) (j : Job) (c : Nat), s.job = some j ∧ s.jobReach j = true ∧ j.op = 6 ∧ j.coc = some c ∧ s.mem.wf = true :=
  ⟨{ cocS 2 with job := some { op := 6, coc := some 3, dst := 0x10001000 } }, { op := 6, coc := some 3, dst := 0x10001000 }, 3, by decide⟩

theorem test_CryptoJobs_14 : ∃ (s : State) (j : Job), s.job = some j ∧ s.jobReach j = true ∧ j.op = 5 :=
  ⟨{ keyS with job := some { op := 5 } }, { op := 5 }, by decide⟩

theorem test_CryptoJobs_15 : ∃ (s : State) (j : Job), s.job = some j ∧ s.jobReach j = false :=
  ⟨{ keyS with job := some { op := 1, src := 0x30000, len := 4 } }, { op := 1, src := 0x30000, len := 4 }, by decide⟩

theorem test_MailboxKeyOperations_1 : ∃ (s : State) (k : Fin 12), s.mbxServed k.val 0x0101 = true ∧ s.job = none ∧ s.mbxLen k.val ≠ 44 :=
  ⟨mbxS 0x0101 3 [], 0, by decide⟩

theorem test_MailboxKeyOperations_2 : ∃ (s : State) (k : Fin 12) (p : List Byte), s.mbxServed k.val 0x0101 = true ∧ s.job = none ∧ s.mbxLen k.val = 44 ∧ s.mbxPayload k.val = p ∧ s.secReach (payN p 4 8) 64 = true ∧ s.writable (payN p 4 8) 64 = true ∧ s.mem.wf = true ∧ s.slotCheck (payN p 0 1 % 64) none 2 2 5 = none :=
  ⟨mbxS 0x0101 44 [6, 0x10000000, 0, 1, 2, 3, 4, 5, 6, 7, 8], 0, (mbxS 0x0101 44 [6, 0x10000000, 0, 1, 2, 3, 4, 5, 6, 7, 8]).mbxPayload 0, by decide⟩

theorem test_MailboxKeyOperations_3 : ∃ (s : State) (k : Fin 12) (p : List Byte) (x : Nat), s.mbxServed k.val 0x0101 = true ∧ s.job = none ∧ s.mbxLen k.val = 44 ∧ s.mbxPayload k.val = p ∧ s.secReach (payN p 4 8) 64 = true ∧ s.writable (payN p 4 8) 64 = true ∧ s.slotCheck (payN p 0 1 % 64) none 2 2 5 = some x :=
  ⟨mbxS 0x0101 44 [5, 0x10000000, 0], 0, (mbxS 0x0101 44 [5, 0x10000000, 0]).mbxPayload 0, 5, by decide +kernel⟩

theorem test_MailboxKeyOperations_4 : ∃ (s : State) (k : Fin 12) (p : List Byte), s.mbxServed k.val 0x0102 = true ∧ s.job = none ∧ s.mbxLen k.val = 24 ∧ s.mbxPayload k.val = p ∧ payN p 4 8 < 2 ^ 40 ∧ s.secReach (payN p 4 8) (payN p 12 4) = true ∧ s.secReach (payN p 16 8) 32 = true ∧ s.writable (payN p 16 8) 32 = true ∧ s.slotCheck (payN p 0 1 % 64) none 2 1 6 = none :=
  ⟨mbxS 0x0102 24 [5, 0x10000000, 0, 4, 0x10000100], 0, (mbxS 0x0102 24 [5, 0x10000000, 0, 4, 0x10000100]).mbxPayload 0, by decide⟩

theorem test_MailboxKeyOperations_5 : ∃ (s : State) (k : Fin 12) (p : List Byte), s.mbxServed k.val 0x0103 = true ∧ s.job = none ∧ s.mbxPayload k.val = p ∧ payN p 8 1 ≤ 44 ∧ s.mbxLen k.val = 12 + payN p 8 1 ∧ payN p 4 4 / 2 ^ 16 % 2 = 0 ∧ payN p 4 4 / 2 ^ 21 % 2 = 0 ∧ s.deriveCheck (payN p 0 1 % 64) (payN p 1 1 % 64) (payN p 4 4) ((p.drop 12).take (payN p 8 1)) none 2 = none :=
  ⟨mbxS 0x0103 14 [0x0905, 0x900000CE, 2, 0x4142], 0, (mbxS 0x0103 14 [0x0905, 0x900000CE, 2, 0x4142]).mbxPayload 0, by decide⟩

theorem test_MailboxKeyOperations_6 : ∃ (s : State) (k : Fin 12) (p : List Byte), s.mbxServed k.val 0x0104 = true ∧ s.job = none ∧ s.mbxLen k.val = 12 ∧ s.mbxPayload k.val = p ∧ s.secReach (payN p 4 8) 64 = true ∧ s.writable (payN p 4 8) 64 = true ∧ s.slotCheck (payN p 0 1 % 64) none 2 2 4 = none :=
  ⟨mbxS 0x0104 12 [6, 0x10000000], 0, (mbxS 0x0104 12 [6, 0x10000000]).mbxPayload 0, by decide⟩

theorem test_MailboxKeyOperations_7 : ∃ (s : State) (k : Fin 12) (p : List Byte), s.mbxServed k.val 0x0105 = true ∧ s.job = none ∧ s.mbxLen k.val = 8 ∧ s.mbxPayload k.val = p ∧ s.secReach (payN p 0 8) 32 = true ∧ s.writable (payN p 0 8) 32 = true :=
  ⟨mbxS 0x0105 8 [0x10000000], 0, (mbxS 0x0105 8 [0x10000000]).mbxPayload 0, by decide⟩

theorem test_MailboxKeyOperations_8 : ∃ (s : State) (k : Fin 12) (n : Nat), s.mbxServed k.val 0x0106 = true ∧ s.job = none ∧ s.mbxLen k.val = 1 ∧ payN (s.mbxPayload k.val) 0 1 % 64 = n ∧ 2 ≤ n ∧ s.keyStore = 1 ∧ (s.slotK n).valid = true :=
  ⟨mbxS 0x0106 1 [5], 0, 5, by decide +kernel⟩

theorem test_TamperAndFactoryAccess_1 : ∃ (s : State) (c : Fin 8), s.tamperEnabled c.val = true ∧ s.sleep = 0 ∧ s.rd pgTmp R.TMP_CFG_reset_on_tamper = 0 ∧ s.domOn 2 = true :=
  ⟨{ keyS with job := some {} }, 4, by decide⟩

theorem test_TamperAndFactoryAccess_2 : ∃ (s : State) (c : Fin 8), s.tamperEnabled c.val = true ∧ s.sleep = 0 ∧ s.up = true ∧ s.rd pgTmp R.TMP_CFG_reset_on_tamper = 1 :=
  ⟨{ put on [(pgTmp, R.TMP_CFG_reset_on_tamper, 1)] with up := true }, 4, by decide⟩

theorem test_TamperAndFactoryAccess_3 : ∃ (s : State) (c : Fin 8), s.tamperEnabled c.val = true ∧ s.sleep ≠ 0 :=
  ⟨{ on with sleep := 1 }, 4, by decide⟩

theorem test_TamperAndFactoryAccess_4 : ∃ (s : State) (c : Fin 8), s.tamperEnabled c.val = false :=
  ⟨put on [(pgTmp, R.TMP_CFG_glitch_en, 0)], 6, by decide⟩

theorem test_TamperAndFactoryAccess_5 : ∃ (s : State), s.domOn 0 = true ∧ s.rd pgClk R.CLK_GATE_dbg = 1 ∧ s.rd pgEvr R.EVR_FTA_state = 0 ∧ s.ftaFails < 16 :=
  ⟨put on [(pgClk, R.CLK_GATE_dbg, 1)], by decide⟩

theorem test_TamperAndFactoryAccess_6 : ∃ (s : State), (s.rd pgEvr R.EVR_FTA_state = 1 ∨ 16 ≤ s.ftaFails) :=
  ⟨ftaS, by decide⟩

theorem test_TamperAndFactoryAccess_7 : ∃ (s : State) (sig : List Byte) (n : Nat), s.domOn 0 = true ∧ s.rd pgClk R.CLK_GATE_dbg = 1 ∧ s.fta = some n :=
  ⟨{ put on [(pgClk, R.CLK_GATE_dbg, 1)] with fta := some 5 }, [], 5, by decide⟩

theorem test_TamperAndFactoryAccess_8 : ∃ (s : State), s.domOn 0 = true ∧ s.rd pgClk R.CLK_GATE_dbg = 1 ∧ s.rd pgEvr R.EVR_FTA_state = 1 :=
  ⟨put ftaS [(pgTmp, R.TMP_STAT_tampered, 1)], by decide⟩

theorem test_TamperAndFactoryAccess_9 : ∃ (s : State), s.rd pgEvr R.EVR_FTA_state = 0 :=
  ⟨on, by decide⟩

theorem test_TamperAndFactoryAccess_10 : ∃ (s : State) (root : BitVec 256) (cert : List Byte), s.domOn 0 = true ∧ s.rd pgClk R.CLK_GATE_dbg = 1 ∧ s.rd pgEvr R.EVR_FTA_state = 1 :=
  ⟨ftaS, 5#256, [1, 2], by decide⟩

theorem test_TamperAndFactoryAccess_11 : ∃ (s : State), s.domOn 0 = true ∧ s.rd pgClk R.CLK_GATE_dbg = 1 ∧ s.rd pgEvr R.EVR_FTA_state = 1 :=
  ⟨ftaS, by decide⟩

theorem test_TrapsAndReturns_1 : ∃ (s : State) (h : Fin 4) (cause : BitVec 64) (tval : BitVec 64), s.executes h.val = true ∧ (s.hart h.val).world ≠ 2 ∧ (s.hart h.val).delegates cause = false :=
  ⟨hartS { world := 0, priv := 1, pc := 0x1000, mtvec := 0x2001 }, 1, 8#64, 3#64, by decide⟩

theorem test_TrapsAndReturns_2 : ∃ (s : State) (h : Fin 4) (cause : BitVec 64) (tval : BitVec 64), s.executes h.val = true ∧ (s.hart h.val).world = 0 ∧ (s.hart h.val).delegates cause = true :=
  ⟨hartS { world := 0, priv := 0, pc := 0x1000, medeleg := 0x100 }, 1, 8#64, 3#64, by decide⟩

theorem test_TrapsAndReturns_3 : ∃ (s : State) (h : Fin 4) (cause : BitVec 64) (tval : BitVec 64) (n : Nat), s.executes h.val = true ∧ (s.hart h.val).world = 2 ∧ (s.hart h.val).cocoon = n :=
  ⟨hartS { world := 2, priv := 0, cocoon := 3, pc := 0x1000, x := [(5, 7)] }, 1, 8#64, 3#64, 3, by decide⟩

theorem test_TrapsAndReturns_4 : ∃ (s : State) (h : Fin 4), s.executes h.val = true ∧ (s.hart h.val).priv = 3 ∧ ((s.hart h.val).pw ≠ 0 ∨ (s.hart h.val).mpp ≠ 3) :=
  ⟨hartS { mepc := 0x3000, mstatus := 0x880 }, 1, by decide⟩

theorem test_TrapsAndReturns_5 : ∃ (s : State) (h : Fin 4), s.executes h.val = true ∧ (s.hart h.val).priv = 3 ∧ (s.hart h.val).world = 1 ∧ (s.hart h.val).pw = 0 ∧ (s.hart h.val).mpp = 3 :=
  ⟨hartS { pc := 0x1000, mstatus := 0x1880 }, 1, by decide⟩

theorem test_TrapsAndReturns_6 : ∃ (s : State) (h : Fin 4), s.executes h.val = false :=
  ⟨on, 1, by decide⟩

theorem test_GatewayInstructions_1 : ∃ (s : State) (h : Fin 4) (rd : Fin 32) (rs1 : Fin 32), s.executes h.val = true ∧ rd.val ≠ 0 :=
  ⟨hartS { world := 0 }, 1, 5, 6, by decide⟩

theorem test_GatewayInstructions_2 : ∃ (s : State) (h : Fin 4) (rs1 : Fin 32), s.executes h.val = true ∧ (s.hart h.val).stack.length < 8 :=
  ⟨hartS { world := 0 }, 1, 6, by decide⟩

theorem test_GatewayInstructions_3 : ∃ (s : State) (h : Fin 4) (rs1 : Fin 32) (n : Nat), s.executes h.val = true ∧ (s.hart h.val).world = 1 ∧ n < 16 ∧ ((s.hart h.val).reg rs1.val).toNat / 2 ^ 16 = 16 + n ∧ s.sealedCoc n = false ∧ (s.hart h.val).stack.length < 8 :=
  ⟨hartS { x := [(6, 0x130000)] }, 1, 6, 3, by decide⟩

theorem test_GatewayInstructions_4 : ∃ (s : State) (h : Fin 4) (rs1 : Fin 32), s.executes h.val = true ∧ (s.hart h.val).world = 1 ∧ ((s.hart h.val).reg rs1.val).toNat < 2 ^ 16 :=
  ⟨hartS { x := [(6, 2)] }, 1, 6, by decide⟩

theorem test_GatewayInstructions_5 : ∃ (s : State) (h : Fin 4) (e : GwEntry) (rest : List GwEntry), s.executes h.val = true ∧ (s.hart h.val).stack = e :: rest ∧ (s.hart h.val).world = e.calleeW ∧ (s.hart h.val).cocoon = e.calleeC :=
  ⟨hartS { stack := [{ pc := 0x44, calleeW := 1 }] }, 1, { pc := 0x44, calleeW := 1 }, [], by decide⟩

theorem test_GatewayInstructions_6 : ∃ (s : State) (h : Fin 4), s.executes h.val = true ∧ (s.hart h.val).world ≠ 2 ∧ (s.hart h.val).stack = [] ∧ (s.hart h.val).delegates 25 = false :=
  ⟨hartS {}, 1, by decide⟩

theorem test_GatewayInstructions_7 : ∃ (s : State) (h : Fin 4) (rs1 : Fin 32) (n : Nat) (c : Ctx), s.executes h.val = true ∧ (s.hart h.val).world = 1 ∧ (s.hart h.val).priv ≠ 0 ∧ ((s.hart h.val).reg rs1.val).toNat % 16 = n ∧ s.sealedCoc n = true ∧ s.saved.find? (fun e => e.1 == 4 * n + h.val) = some (4 * n + h.val, c) ∧ (s.hart h.val).stack.length < 8 :=
  ⟨{ (cocS 2).setHart 1 { running := true, x := [(6, 3)] } with saved := [(13, { pc := 0x88, top := some {} })] }, 1, 6, 3, { pc := 0x88, top := some {} }, by decide⟩

theorem test_GatewayInstructions_8 : ∃ (s : State) (h : Fin 4) (rs1 : Fin 32) (n : Nat), s.executes h.val = true ∧ (s.hart h.val).world = 1 ∧ (s.hart h.val).priv ≠ 0 ∧ ((s.hart h.val).reg rs1.val).toNat % 16 = n ∧ (s.sealedCoc n = false ∨ s.saved.find? (fun e => e.1 == 4 * n + h.val) = none) :=
  ⟨{ (cocS 2).setHart 1 { running := true, x := [(6, 3)] } with saved := [] }, 1, 6, 3, by decide⟩

theorem test_GatewayInstructions_9 : ∃ (s : State) (h : Fin 4) (rd : Fin 32), s.executes h.val = true ∧ rd.val ≠ 0 ∧ (s.hart h.val).world < 4 ∧ (s.hart h.val).cocoon < 16 ∧ (s.hart h.val).stack.length < 16 :=
  ⟨hartS { world := 0, cocoon := 0, stack := [{}] }, 1, 5, by decide⟩

theorem test_Cocoons_1 : ∃ (s : State) (r : Req) (d : Word), Accepts s r pgSec 0x084 ∧ d.toNat / 2 ^ 29 % 4 = 0 ∧ s.cocState s.cocSel = 0 ∧ s.rangesOk s.cocSel = true :=
  ⟨cocS 0, .chrysalis, 0#32, by decide⟩

theorem test_Cocoons_2 : ∃ (s : State) (r : Req) (d : Word), Accepts s r pgSec 0x084 ∧ d.toNat / 2 ^ 29 % 4 = 0 ∧ s.cocState s.cocSel = 0 ∧ s.rangesOk s.cocSel = false :=
  ⟨put (cocS 0) [(iCoc 3, R.SEC_COC_LIM_page 0, 0x10000)], .chrysalis, 0#32, by decide⟩

theorem test_Cocoons_3 : ∃ (s : State) (r : Req) (d : Word), Accepts s r pgSec 0x084 ∧ d.toNat / 2 ^ 29 % 4 = 0 ∧ s.cocState s.cocSel ≠ 0 :=
  ⟨cocS 1, .chrysalis, 0#32, by decide⟩

theorem test_Cocoons_4 : ∃ (s : State) (r : Req) (d : Word) (n : Nat), Accepts s r pgSec 0x084 ∧ d.toNat / 2 ^ 29 % 2 = 0 ∧ d.toNat / 2 ^ 31 = 0 ∧ s.cocSel = n ∧ s.cocState n = 1 ∧ s.rd (iCoc n) R.SEC_COC_STAT_busy = 0 :=
  ⟨{ cocS 1 with mem := [(0x10000004, 7), (0x10002000, 8)], saved := [(13, {})] }, .chrysalis, 0#32, 3, by decide⟩

theorem test_Cocoons_5 : ∃ (s : State) (n : Fin 16), s.cocState n.val = 1 ∧ s.rd (iCoc n.val) R.SEC_COC_STAT_busy = 1 :=
  ⟨put (cocS 1) [(iCoc 3, R.SEC_COC_STAT_busy, 1)], 3, by decide⟩

theorem test_Cocoons_6 : ∃ (s : State) (r : Req) (d : Word) (n : Nat), Accepts s r pgSec 0x084 ∧ d.toNat / 2 ^ 30 = 0 ∧ s.cocSel = n ∧ (s.cocState n = 1 ∨ s.cocState n = 2) :=
  ⟨(cocS 2).setHart 1 { running := true, world := 2, cocoon := 3, x := [(5, 7)] }, .chrysalis, 0#32, 3, by decide⟩

theorem test_Cocoons_7 : ∃ (s : State) (n : Fin 16), s.cocState n.val = 3 :=
  ⟨{ put (cocS 3) [(pgChn 16, R.OWNER_world, 2), (pgChn 16, R.OWNER_cocoon, 3)] with mem := [(0x10000004, 7), (0x10002000, 8)], keys := [(9, ⟨0x800700FE, 4⟩)] }, 3, by decide⟩

theorem test_SecureControl_1 : ∃ (s : State) (r : Req) (w : Fin 4) (d : Word), Accepts s r pgSec (0x020 + 4 * w.val) ∧ s.rd pgSec (wmLock w.val) = 0 ∧ s.wmRefused w.val (d.toNat % 2 ^ 22) = false :=
  ⟨on, .chrysalis, 2, 0x80000100#32, by decide⟩

theorem test_SecureControl_2 : ∃ (s : State) (r : Req) (w : Fin 4) (d : Word), Accepts s r pgSec (0x020 + 4 * w.val) ∧ s.rd pgSec (wmLock w.val) = 0 ∧ s.wmRefused w.val (d.toNat % 2 ^ 22) = true :=
  ⟨cocS 1, .chrysalis, 1, 1#32, by decide⟩

theorem test_SecureControl_3 : ∃ (s : State) (r : Req) (w : Fin 4) (d : Word), Accepts s r pgSec (0x020 + 4 * w.val) ∧ s.rd pgSec (wmLock w.val) = 1 :=
  ⟨put on [(pgSec, R.SEC_WM_SRAM_lock, 1)], .chrysalis, 1, 1#32, by decide⟩

theorem test_SecureControl_4 : ∃ (s : State) (r : Req) (d : Word) (a : Nat) (b : Nat), Accepts s r pgSec 0x030 ∧ d.toNat % 2 ^ 16 = a ∧ d.toNat / 2 ^ 16 = b ∧ a ≠ 0 ∧ b ≠ 0 ∧ a &&& b = 0 ∧ s.rd pgSec R.SEC_L2_COC_cocoon &&& a = 0 ∧ s.rd pgSec R.SEC_L2_COC_cocoon < 2 ^ 16 :=
  ⟨on, .chrysalis, 0xFF0000FF#32, 0xFF, 0xFF00, by decide⟩

theorem test_SecureControl_5 : ∃ (s : State) (r : Req) (d : Word), Accepts s r pgSec 0x034 ∧ (d.toNat % 2 ^ 16) &&& s.rd pgSec R.SEC_L2_PART_normal ≠ 0 :=
  ⟨on, .chrysalis, 1#32, by decide⟩

theorem test_SecureControl_6 : ∃ (s : State) (r : Req) (d : Word), Accepts s r pgSec 0x038 :=
  ⟨on, .chrysalis, 1#32, by decide⟩

theorem test_SecureControl_7 : ∃ (s : State) (r : Req) (d : Word) (h : Nat), Accepts s r pgSec 0x040 ∧ 1 ≤ h ∧ h ≤ 3 ∧ d.toNat.testBit h = true ∧ (s.rd pgSec R.SEC_CORE_RUN_run).testBit (h - 1) = false ∧ s.domOn 1 = true :=
  ⟨put on [(pgSec, R.SEC_CORE_BOOT_W0_addr, 0x10000002)], .chrysalis, 4#32, 2, by decide⟩

theorem test_SecureControl_8 : ∃ (s : State) (r : Req) (d : Word) (p : Nat), Accepts s r pgSec 0x068 ∧ d.toNat / 2 ^ 28 % 8 = 0 ∧ s.rd pgSec R.SEC_HO_PAGE_page = p ∧ (blkOf p).isSome = true ∧ fixedPage p = false ∧ s.pageOn p = true ∧ s.movingPage p = false ∧ s.rd p R.OWNER_handover = 0 ∧ s.badTarget (s.rd pgSec R.SEC_HO_TO_target) = false :=
  ⟨put (hoS 0 1) [(pgSec, R.SEC_HO_TO_target, 0x300)], .chrysalis, 0#32, pgChn 16, by decide⟩

theorem test_SecureControl_9 : ∃ (s : State) (r : Req) (d : Word) (p : Nat), Accepts s r pgSec 0x068 ∧ d.toNat / 2 ^ 28 % 8 = 0 ∧ s.rd pgSec R.SEC_HO_PAGE_page = p ∧ fixedPage p = true :=
  ⟨put on [(pgSec, R.SEC_HO_PAGE_page, pgKey)], .chrysalis, 0#32, pgKey, by decide⟩

theorem test_SecureControl_10 : ∃ (s : State) (r : Req) (d : Word) (p : Nat), Accepts s r pgSec 0x068 ∧ d.toNat / 2 ^ 28 % 4 = 0 ∧ d.toNat / 2 ^ 31 = 0 ∧ s.rd pgSec R.SEC_HO_PAGE_page = p ∧ (blkOf p).isSome = true ∧ s.pageOn p = true ∧ s.movingPage p = false ∧ s.rd p R.OWNER_handover = 1 :=
  ⟨{ hoS 1 1 with offers := [(pgChn 16, 0x300)] }, .chrysalis, 0#32, pgChn 16, by decide⟩

theorem test_SecureControl_11 : ∃ (s : State) (r : Req) (d : Word) (p : Nat), Accepts s r pgSec 0x068 ∧ d.toNat / 2 ^ 28 % 2 = 0 ∧ d.toNat / 2 ^ 30 = 0 ∧ s.rd pgSec R.SEC_HO_PAGE_page = p ∧ (blkOf p).isSome = true ∧ s.pageOn p = true ∧ s.movingPage p = false ∧ s.rd p R.OWNER_handover = 1 ∧ s.anyDrain = false ∧ s.badTarget (s.offers.get 1 p) = false :=
  ⟨{ hoS 1 1 with offers := [(pgChn 16, 0x300)] }, .chrysalis, 0#32, pgChn 16, by decide⟩

theorem test_SecureControl_12 : ∃ (s : State) (r : Req) (d : Word) (p : Nat), Accepts s r pgSec 0x068 ∧ d.toNat / 2 ^ 29 = 0 ∧ s.rd pgSec R.SEC_HO_PAGE_page = p ∧ (blkOf p).isSome = true ∧ s.pageOn p = true ∧ s.movingPage p = false ∧ s.rd p R.OWNER_handover = 0 ∧ s.rd p R.OWNER_world ≠ 1 ∧ s.anyDrain = false :=
  ⟨hoS 0 0, .chrysalis, 0#32, pgChn 16, by decide⟩

theorem test_SecureControl_13 : ∃ (s : State) (p : Nat) (x : Nat), s.drain = some p ∧ s.offers.get 1 p = x ∧ s.badTarget x = false ∧ s.rd pgSec R.SEC_HO_STAT_page = p ∧ s.rd pgSec R.SEC_HO_STAT_result = 1 :=
  ⟨{ put (hoS 2 1) [(pgSec, R.SEC_HO_STAT_page, pgChn 16), (pgSec, R.SEC_HO_STAT_result, 1), (pgSec, R.SEC_HO_STAT_draining, 1)] with offers := [(pgChn 16, 0x300)], drain := some (pgChn 16) }, pgChn 16, 0x300, by decide⟩

theorem test_SecureControl_14 : ∃ (s : State) (r : Req) (d : Word), Accepts s r pgDbg 0x020 ∧ s.locked pgDbg = false :=
  ⟨(put on [(pgDbg, R.DBG_EN_n_inv, 1)]).setHart 1 { running := true, halted := true, world := 0 }, .chrysalis, 0#32, by decide⟩

theorem test_SecureControl_15 : ∃ (s : State) (h : Fin 4), s.executes h.val = true ∧ s.rd pgClk R.CLK_GATE_dbg = 1 ∧ s.invasive (s.hart h.val).world (s.hart h.val).cocoon = true :=
  ⟨put (hartS { world := 0 }) [(pgClk, R.CLK_GATE_dbg, 1), (pgDbg, R.DBG_EN_n_inv, 1)], 1, by decide⟩

theorem test_SecureControl_16 : ∃ (s : State) (h : Fin 4), s.executes h.val = true ∧ s.rd pgClk R.CLK_GATE_dbg = 1 ∧ s.invasive (s.hart h.val).world (s.hart h.val).cocoon = false :=
  ⟨put (hartS {}) [(pgClk, R.CLK_GATE_dbg, 1)], 1, by decide⟩

theorem test_Mailbox_1 : ∃ (s : State) (r : Req) (d : Word) (k : Nat), Accepts s r pgMbx 0x020 ∧ k < 16 ∧ d.toNat.testBit k = true ∧ s.mbxState k = 0 ∧ posterIs (r == .chrysalis) k = true :=
  ⟨on, .core 1, 3#32, 1, by decide⟩

theorem test_Mailbox_2 : ∃ (s : State) (r : Req) (d : Word) (k : Nat), Accepts s r pgMbx 0x024 ∧ k < 16 ∧ d.toNat.testBit k = true ∧ s.mbxState k = 1 ∧ posterIs (r == .chrysalis) k = false :=
  ⟨put on [(pgMbx, R.MBX_STATE_state 1, 1)], .chrysalis, 3#32, 1, by decide⟩

theorem test_Mailbox_3 : ∃ (s : State) (r : Req) (d : Word) (k : Nat), Accepts s r pgMbx 0x028 ∧ k < 16 ∧ d.toNat.testBit k = true ∧ s.mbxState k = 2 ∧ posterIs (r == .chrysalis) k = false :=
  ⟨put on [(pgMbx, R.MBX_STATE_state 1, 2)], .chrysalis, 3#32, 1, by decide⟩

theorem test_Mailbox_4 : ∃ (s : State) (r : Req) (d : Word) (k : Nat), Accepts s r pgMbx 0x02C ∧ k < 16 ∧ d.toNat.testBit k = true ∧ s.mbxState k = 3 ∧ posterIs (r == .chrysalis) k = true :=
  ⟨put on [(pgMbx, R.MBX_STATE_state 1, 3)], .core 1, 3#32, 1, by decide⟩

theorem test_Mailbox_5 : ∃ (s : State) (r : Req) (d : Word) (k : Nat), Accepts s r pgMbx 0x030 ∧ k < 16 ∧ d.toNat.testBit k = true ∧ s.mbxState k = 1 ∧ posterIs (r == .chrysalis) k = true :=
  ⟨put on [(pgMbx, R.MBX_STATE_state 1, 1)], .core 1, 3#32, 1, by decide⟩

theorem test_Mailbox_6 : ∃ (s : State) (r : Req) (d : Word), Accepts s r pgMbx 0x030 ∧ ((∀ k < 16, d.toNat.testBit k = true → s.mbxState k = 2)) :=
  ⟨put on [(pgMbx, R.MBX_STATE_state 1, 2)], .core 1, 2#32, by decide⟩

theorem test_Mailbox_7 : ∃ (s : State) (k : Fin 12), s.mbxState k.val = 2 ∧ s.rd pgMbx R.MBX_CFG_tmo_ms ≠ 0 ∧ s.domOn 2 = true :=
  ⟨put on [(pgMbx, R.MBX_STATE_state 1, 2), (pgMbx, R.MBX_CFG_tmo_ms, 9)], 1, by decide⟩

theorem test_Mailbox_8 : ∃ (s : State) (k : Fin 12), s.mbxServed k.val 1 = true ∧ s.mbxLen k.val ≤ 56 :=
  ⟨mbxS 1 5 [0x44332211, 0x55], 0, by decide⟩

theorem test_Mailbox_9 : ∃ (s : State) (k : Fin 12), s.mbxServed k.val 1 = true ∧ 56 < s.mbxLen k.val :=
  ⟨mbxS 1 57 [], 0, by decide⟩

theorem test_Mailbox_10 : ∃ (s : State) (k : Fin 12), s.mbxServed k.val 2 = true :=
  ⟨mbxS 2 0 [], 0, by decide⟩

theorem test_EventRecorder_1 : ∃ (s : State) (x : EvRec) (rest : List EvRec) (q : Nat), s.mem.wf = true ∧ s.evr.scanning = false ∧ s.domOn 0 = true ∧ s.evr.pend = x :: rest ∧ x.seq = some q :=
  ⟨{ on with evr := { pend := [{ seq := some 5, code := 3 }], next := 6 } }, { seq := some 5, code := 3 }, [], 5, by decide⟩

theorem test_EventRecorder_2 : ∃ (s : State), (s.evr.scanning = true ∨ s.domOn 0 = false ∨ s.evr.pend = []) :=
  ⟨on, by decide⟩

theorem test_EventRecorder_3 : ∃ (s : State), s.evr.scanning = true ∧ s.domOn 0 = true :=
  ⟨{ on with evr := { scanning := true } }, by decide⟩

theorem test_EventRecorder_4 : ∃ (s : State), s.evr.scanning = false :=
  ⟨on, by decide⟩

theorem test_EventRecorder_6 : ∃ (s : State) (r : Req) (d : Word), Accepts s r pgEvr 0x02C :=
  ⟨{ on with evr := { next := 6, lowest := some 2 } }, .chrysalis, 5, by decide⟩

theorem test_EventRecorder_7 : ∃ (s : State) (r : Req) (d : Word), Accepts s r pgEvr 0x080 ∧ 0xF0 ≤ d.toNat % 256 ∧ s.domOn 0 = true ∧ s.rd pgEvr (R.CTRL_enable pgEvr) = 1 ∧ s.rd pgEvr R.STAT_reset_busy = 0 ∧ (s.rd (iCode (d.toNat % 256)) R.EVR_RL_STAT_tokens = 0 ∨ s.rd (iCode (d.toNat % 256)) R.EVR_RL_CFG_burst = 0) :=
  ⟨put on [(pgEvr, R.CTRL_enable pgEvr, 1), (iCode 0xF1, R.EVR_RL_STAT_tokens, 0)], .chrysalis, 0xF1, by decide⟩

theorem test_EventRecorder_8 : ∃ (s : State) (r : Req) (d : Word), Accepts s r pgEvr 0x080 ∧ 0xF0 ≤ d.toNat % 256 ∧ s.domOn 0 = true ∧ s.rd pgEvr (R.CTRL_enable pgEvr) = 1 ∧ s.rd pgEvr R.STAT_reset_busy = 0 ∧ s.rd (iCode (d.toNat % 256)) R.EVR_RL_STAT_tokens ≠ 0 ∧ s.rd (iCode (d.toNat % 256)) R.EVR_RL_CFG_burst ≠ 0 ∧ 32 ≤ s.evr.pend.length :=
  ⟨{ put on [(pgEvr, R.CTRL_enable pgEvr, 1), (iCode 0xF1, R.EVR_RL_STAT_tokens, 3)] with evr := { pend := List.replicate 32 {} } }, .chrysalis, 0xF1, by decide⟩

theorem test_EventRecorder_9 : ∃ (s : State) (r : Req) (d : Word), Accepts s r pgEvr 0x080 ∧ 0xF0 ≤ d.toNat % 256 ∧ s.domOn 0 = true ∧ s.rd pgEvr (R.CTRL_enable pgEvr) = 1 ∧ s.rd pgEvr R.STAT_reset_busy = 0 ∧ s.rd (iCode (d.toNat % 256)) R.EVR_RL_STAT_tokens ≠ 0 ∧ s.rd (iCode (d.toNat % 256)) R.EVR_RL_CFG_burst ≠ 0 ∧ s.evr.pend.length < 32 ∧ s.evr.scanning = false :=
  ⟨put on [(pgEvr, R.CTRL_enable pgEvr, 1), (iCode 0xF1, R.EVR_RL_STAT_tokens, 3)], .chrysalis, 0xF1, by decide⟩

theorem test_EventRecorder_10 : ∃ (s : State) (r : Req) (d : Word), Accepts s r pgEvr 0x080 ∧ d.toNat % 256 < 0xF0 :=
  ⟨on, .chrysalis, 0xEF, by decide⟩

end Sys2Proof.Tests
end

section
/-! PROOFS. Commands of a channel (05_channel_control.md): O13 fails, in its clause on BNK_CHN_APPLY.

The registers of host function `f` are group `0x400 + f` (`iFn`), and the shadows of page `p` are group `0x8000 + p` (`iShadow`). The
clause is about every state, and a `State` may hold more than the 9 bits of OWNER_function; for such an `f` the two groups can be one. A
channel that refuses its part of BNK_CHN_APPLY interrupts its function, whose pending bit then stands where the next channel has its
shadow of CHN_CFG.src, and the next channel refuses too, though nothing stood against its command when BNK_CHN_CMD was written. -/
namespace Sys2Proof.Machine.ChannelCommands

/-! ### Refused commands -/

theorem msix_chans (s : State) (f v : Nat) : (s.msix f v).chans = s.chans := by
  unfold State.msix
  repeat' split
  all_goals rfl

/-- An interrupt changes no channel beside its registers. -/
theorem raise_chans (s : State) (p bits : Nat) : (s.raise p bits).chans = s.chans := by
  unfold State.raise State.irqEdge
  dsimp only
  split
  · rw [msix_chans, State.setBits_chans]
  · exact State.setBits_chans ..

/-- A command refused at its write leaves the pending commands (R486). -/
theorem cmdWrite_refused_chans {s : State} {c kind : Nat} {due : Due} (h : s.cmdRefuse c kind ≠ 0) :
    (s.cmdWrite c kind due).chans = s.chans := by
  simp only [State.cmdWrite, if_pos h, raise_chans, State.wr_chans]

/-- In direct control an apply of a dmode above 8 is refused. -/
theorem cmdRefuse_apply {s : State} {c : Nat} (hsrc : s.shadow (pgChn c) R.CHN_CFG_src = 1)
    (hmode : 8 < s.shadow (pgChn c) R.CHN_CFG_dmode) : s.cmdRefuse c 2 = 6 := by
  simp [State.cmdRefuse, hsrc, hmode]

/-- The word that BNK_CHN_APPLY, written with no other bit, gives each selected channel. -/
def applyWord : Word := 0x20000000

theorem chnCmdWrite_apply {s : State} {c : Nat} (hbusy : s.rdB (pgChn c) R.STAT_reset_busy = false) :
    s.chnCmdWrite c applyWord = s.cmdWrite c 2 (s.dueOf (whenOf applyWord)) := by
  have hkinds : (List.range 5).filter (fun i => bitOf applyWord.toNat (31 - i)) = [2] := by decide
  simp [State.chnCmdWrite, hbusy, hkinds]

/-- A channel whose shadows name direct control with a dmode above 8 takes no apply. -/
theorem chnCmdWrite_apply_refused_chans {s : State} {c : Nat} (hbusy : s.rdB (pgChn c) R.STAT_reset_busy = false)
    (hsrc : s.shadow (pgChn c) R.CHN_CFG_src = 1) (hmode : 8 < s.shadow (pgChn c) R.CHN_CFG_dmode) :
    (s.chnCmdWrite c applyWord).chans = s.chans := by
  rw [chnCmdWrite_apply hbusy]
  exact cmdWrite_refused_chans (by rw [cmdRefuse_apply hsrc hmode]; decide)

/-! ### A function whose registers are the shadows of a channel -/

/-- The function whose registers are the shadows of channel 1: no value of the 9 bits of OWNER_function. -/
def aliasFn : Nat := 0x7D01

/-- A vector whose pending bit has the offset and the position of CHN_CFG.src. -/
def aliasVec : Nat := 8448

theorem pba_key_eq_shadow_src_key : (R.PBA aliasVec).key (iFn aliasFn) = R.CHN_CFG_src.key (iShadow (pgChn 1)) := by decide

/-- A key that does not read as the default is listed, and reads the same under every default. -/
theorem get_of_get_ne {α : Type} {d : α} (m : SMap α) (k : Nat) (h : m.get d k ≠ d) (d' : α) : m.get d' k = m.get d k := by
  induction m with
  | nil => exact absurd rfl h
  | cons e m ih =>
    by_cases hk : e.1 = k
    · simp [SMap.get, hk]
    · simp only [SMap.get, if_neg hk] at h ⊢
      exact ih h

/-- Where the vector is pending, channel 1 has a shadow of CHN_CFG.src, which is 1. -/
theorem shadow_src_of_pending {s : State} (h : s.rd (iFn aliasFn) (R.PBA aliasVec) = 1) :
    s.shadow (pgChn 1) R.CHN_CFG_src = 1 := by
  have hget : s.fields.get 0 (R.CHN_CFG_src.key (iShadow (pgChn 1))) = 1 := pba_key_eq_shadow_src_key ▸ h
  rw [State.shadow, get_of_get_ne (d := 0) _ _ (by rw [hget]; decide), hget]

/-! ### The counterexample -/

/-- Channels 0 and 1 of bank 0 are selected, with dmode 9. Channel 0 is in direct control, so that its apply is refused; it interrupts on
that, by the masked vector `aliasVec` of function `aliasFn`. Channel 1 runs a program, so that nothing stands against its apply. -/
def aliased : State :=
  { fields :=
      [(R.PWR_DOM_STAT_on.key pgPwr, 0xFF),
       (R.BNK_CHN_MASK_mask.key (pgBnk 0), 3),
       (R.INT_EN.key (pgChn 0), 4),
       (R.OWNER_world.key (pgChn 0), 0),
       (R.OWNER_function.key (pgChn 0), aliasFn),
       (R.CHN_CFG_src.key (pgChn 0), 1),
       (R.CHN_CFG_dmode.key (pgChn 0), 9),
       (R.CHN_CFG_dmode.key (pgChn 1), 9),
       (R.FNC_FN_QUOTA_vec_quota.key (iFn aliasFn), aliasVec + 1),
       (R.FNC_F_CHN_VEC_vector.key (iFn aliasFn), aliasVec),
       (R.FNC_F_CHN_VEC_en.key (iFn aliasFn), 1)] }

/-- The state after channel 0 has refused its apply. -/
def refusedZero : State := aliased.start.chnCmdWrite 0 applyWord

theorem refusedZero_pending : refusedZero.rd (iFn aliasFn) (R.PBA aliasVec) = 1 := by decide

/-- Channel 1 refuses the apply that follows. -/
theorem refusedZero_apply_chans : (refusedZero.chnCmdWrite 1 applyWord).chans = refusedZero.chans :=
  chnCmdWrite_apply_refused_chans (by decide) (shadow_src_of_pending refusedZero_pending) (by decide)

theorem exec_bnkChnApply_aliased :
    exec (.bnkChnApply .chrysalis 0 0) aliased = .next (refusedZero.chnCmdWrite 1 applyWord) := by rfl

/-- No command waits in channel 1 after BNK_CHN_APPLY. -/
theorem exec_bnkChnApply_aliased_cmd : ((refusedZero.chnCmdWrite 1 applyWord).ch 1).cmd = none := by
  rw [State.ch, refusedZero_apply_chans]
  decide

end Sys2Proof.Machine.ChannelCommands

namespace Sys2Proof.Machine
open ChannelCommands

/-- Refutes O13: with OWNER_function of channel 0 above its 9 bits, the interrupt of channel 0's refusal overwrites channel 1's shadow of
CHN_CFG.src, and the apply that BNK_CHN_APPLY gives channel 1 does not wait for its superframe. -/
theorem not_channelCommands : ¬ Obligations.ChannelCommands := by
  unfold Obligations.ChannelCommands
  rintro ⟨-, -, -, -, -, -, -, -, -, -, -, -, -, -, -, -, hBnkApply⟩
  obtain ⟨t, hexec, -, hwaits⟩ := hBnkApply aliased .chrysalis 0 0 1 (by decide) (by decide) (by decide)
  have hcmd := hwaits (by decide) (by decide) (by decide) (by decide) (by decide)
  have ht : refusedZero.chnCmdWrite 1 applyWord = t := by
    injection exec_bnkChnApply_aliased.symm.trans hexec
  subst ht
  exact absurd (hcmd.symm.trans exec_bnkChnApply_aliased_cmd) (by decide)

end Sys2Proof.Machine
end

section
/-! PROOFS. The bus ledger (08_bus_ledger.md): O18 holds.

The grants of R198 are a list of channels that starts, clipping and scaling rewrite. `Grants` says what any of these can make of one
channel and `Settles` of the list, in whatever order it stands; each step of R198 is shown once to stay within them. The registers then
follow: the ledger work writes its totals on the STP page, each grant on the page of its channel, and nothing after it changes these. -/
namespace Sys2Proof.Machine.BusLedger

/-! ### Grants of a channel -/

/-- `y` is a grant of `x`: the same channel and word, a demand of the same sign that is not larger, and the whole demand where it is not
marked short; the start is delayed only where delays are enabled and it is not forced (R197 to R199). -/
structure Grants (startEn : Bool) (x y : LdgCh) : Prop where
  chan    : y.c = x.c
  word    : y.r = x.r
  start   : y.start = x.start
  forced  : y.forced = x.forced
  le      : y.g.natAbs ≤ x.g.natAbs
  sign    : y.g = 0 ∨ sgn y.g = sgn x.g
  full    : y.short = false → x.short = false ∧ y.g = x.g
  delayed : y.delayed = true → x.delayed = true ∨ startEn = true ∧ x.start = true ∧ x.forced = false

theorem Grants.refl (b : Bool) (x : LdgCh) : Grants b x x :=
  ⟨rfl, rfl, rfl, rfl, Nat.le_refl _, .inr rfl, fun h => ⟨h, rfl⟩, .inl⟩

theorem sgn_cases (d : Int) : 0 < d ∧ sgn d = 1 ∨ d < 0 ∧ sgn d = -1 ∨ d = 0 ∧ sgn d = 0 := by
  unfold sgn
  split
  · omega
  · split <;> omega

theorem sgn_eq_zero {d : Int} : sgn d = 0 ↔ d = 0 := by
  have := sgn_cases d
  omega

theorem Grants.trans {b : Bool} {x y z : LdgCh} (hxy : Grants b x y) (hyz : Grants b y z) : Grants b x z where
  chan := hyz.chan.trans hxy.chan
  word := hyz.word.trans hxy.word
  start := hyz.start.trans hxy.start
  forced := hyz.forced.trans hxy.forced
  le := Nat.le_trans hyz.le hxy.le
  sign := by
    rcases hyz.sign with hz | hz
    · exact .inl hz
    · rcases hxy.sign with hy | hy
      · exact .inl (sgn_eq_zero.mp (hz.trans (sgn_eq_zero.mpr hy)))
      · exact .inr (hz.trans hy)
  full h := by
    obtain ⟨hshort, hzy⟩ := hyz.full h
    obtain ⟨hshort', hyx⟩ := hxy.full hshort
    exact ⟨hshort', hzy.trans hyx⟩
  delayed h := by
    rcases hyz.delayed h with hy | hy
    · exact hxy.delayed hy
    · rw [hxy.start, hxy.forced] at hy
      exact .inr hy

/-! ### Grants of a list of channels -/

/-- `l'` grants the channels of `l`, each once, in some order. -/
structure Settles (startEn : Bool) (l l' : List LdgCh) : Prop where
  chans  : (l'.map (·.c)).Perm (l.map (·.c))
  grants : ∀ y ∈ l', ∃ x ∈ l, Grants startEn x y

theorem Settles.of_perm {b : Bool} {l l' : List LdgCh} (h : l'.Perm l) : Settles b l l' :=
  ⟨h.map _, fun y hy => ⟨y, h.mem_iff.mp hy, .refl b y⟩⟩

theorem Settles.trans {b : Bool} {l m n : List LdgCh} (hlm : Settles b l m) (hmn : Settles b m n) : Settles b l n where
  chans := hmn.chans.trans hlm.chans
  grants z hz := by
    obtain ⟨y, hy, hyz⟩ := hmn.grants z hz
    obtain ⟨x, hx, hxy⟩ := hlm.grants y hy
    exact ⟨x, hx, hxy.trans hyz⟩

theorem Settles.of_map {b : Bool} {f : LdgCh → LdgCh} (l : List LdgCh) (h : ∀ x, Grants b x (f x)) : Settles b l (l.map f) where
  chans := by
    rw [List.map_map]
    exact .of_eq (List.map_congr_left (fun x _ => (h x).chan))
  grants y hy := by
    obtain ⟨x, hx, rfl⟩ := List.mem_map.mp hy
    exact ⟨x, hx, h x⟩

theorem Settles.append {b : Bool} {l l' m m' : List LdgCh} (hl : Settles b l l') (hm : Settles b m m') :
    Settles b (l ++ m) (l' ++ m') where
  chans := by
    rw [List.map_append, List.map_append]
    exact hl.chans.append hm.chans
  grants y hy := by
    rcases List.mem_append.mp hy with h | h
    · obtain ⟨x, hx, hxy⟩ := hl.grants y h
      exact ⟨x, List.mem_append_left m hx, hxy⟩
    · obtain ⟨x, hx, hxy⟩ := hm.grants y h
      exact ⟨x, List.mem_append_right l hx, hxy⟩

theorem Settles.cons {b : Bool} {x y : LdgCh} {l l' : List LdgCh} (hxy : Grants b x y) (hl : Settles b l l') :
    Settles b (x :: l) (y :: l') :=
  .append (l := [x]) (l' := [y]) ⟨by simp [hxy.chan], by simpa using hxy⟩ hl

/-! ### Starts (R198) -/

theorem ldgInsert_perm (dir : Int) (x : LdgCh) (l : List LdgCh) : (ldgInsert dir x l).Perm (x :: l) := by
  induction l with
  | nil => rfl
  | cons y ys ih =>
    rw [ldgInsert]
    split
    · rfl
    · exact (ih.cons y).trans (.swap x y ys)

theorem foldr_ldgInsert_perm (dir : Int) (l : List LdgCh) : (l.foldr (ldgInsert dir) []).Perm l := by
  induction l with
  | nil => rfl
  | cons x xs ih => exact (ldgInsert_perm dir x _).trans (ih.cons x)

/-- An admitted start has its whole demand. -/
theorem grants_admitted (b : Bool) (x : LdgCh) : Grants b x { x with delay := 0 } :=
  ⟨rfl, rfl, rfl, rfl, Nat.le_refl _, .inr rfl, fun h => ⟨h, rfl⟩, .inl⟩

theorem grants_delayed {b : Bool} {x : LdgCh} (hstart : x.start = true) (hforced : x.forced = false) (hb : b = true) (n : Nat) :
    Grants b x { x with g := 0, pw := 0, short := true, delayed := true, delay := n } :=
  ⟨rfl, rfl, rfl, rfl, Nat.zero_le _, .inl rfl, nofun, fun _ => .inr ⟨hb, hstart, hforced⟩⟩

theorem ldgStarts_settles (b : Bool) (imp exp : Int) (l : List LdgCh) (hl : ∀ x ∈ l, x.start = true) (net : Int) :
    Settles b l (ldgStarts b imp exp net l).2 := by
  induction l generalizing net with
  | nil => exact .of_perm .rfl
  | cons x xs ih =>
    have hxs := fun n => ih (fun y hy => hl y (List.mem_cons_of_mem x hy)) n
    rw [ldgStarts]
    split
    · exact .cons (grants_admitted b x) (hxs _)
    · rename_i hdelay
      simp only [Bool.or_eq_true, Bool.not_eq_true', decide_eq_true_eq, not_or] at hdelay
      obtain ⟨⟨hforced, hb⟩, -⟩ := hdelay
      exact .cons (grants_delayed (hl x List.mem_cons_self) (by simpa using hforced) (by simpa using hb) _) (hxs _)

/-! ### Clipping (R199) -/

/-- A demand scaled by at most 1, towards zero. -/
theorem natAbs_scaled_le (g : Int) {sc : Int} (h0 : 0 ≤ sc) (h1 : sc ≤ 65536) : (Int.tdiv (g * sc) 65536).natAbs ≤ g.natAbs := by
  rw [Int.natAbs_tdiv, Int.natAbs_mul]
  refine Nat.div_le_of_le_mul ?_
  rw [Nat.mul_comm]
  exact Nat.mul_le_mul_right _ (by omega)

theorem sgn_neg (d : Int) : sgn (-d) = -sgn d := by
  have := sgn_cases d
  have := sgn_cases (-d)
  omega

theorem sgn_scaled (g : Int) {sc : Int} (h0 : 0 ≤ sc) :
    Int.tdiv (g * sc) 65536 = 0 ∨ sgn (Int.tdiv (g * sc) 65536) = sgn g := by
  have hpos : ∀ d : Int, 0 < d → Int.tdiv (d * sc) 65536 = 0 ∨ sgn (Int.tdiv (d * sc) 65536) = sgn d := by
    intro d hd
    have hnonneg : 0 ≤ Int.tdiv (d * sc) 65536 := Int.tdiv_nonneg (Int.mul_nonneg (Int.le_of_lt hd) h0) (by decide)
    have := sgn_cases d
    have := sgn_cases (Int.tdiv (d * sc) 65536)
    omega
  rcases Int.lt_trichotomy g 0 with h | rfl | h
  · have hneg := hpos (-g) (by omega)
    rw [Int.neg_mul, Int.neg_tdiv, sgn_neg, sgn_neg] at hneg
    omega
  · simp
  · exact hpos g h

theorem eq_of_natAbs_le_of_sgn {d g : Int} (hle : g.natAbs ≤ d.natAbs) (hle' : d.natAbs ≤ g.natAbs) (hsgn : d = 0 ∨ sgn d = sgn g) :
    d = g := by
  have := sgn_cases d
  have := sgn_cases g
  omega

theorem grants_clipped (b : Bool) (x : LdgCh) : Grants b x { x with g := 0, pw := 0, short := true, clipped := true } :=
  ⟨rfl, rfl, rfl, rfl, Nat.zero_le _, .inl rfl, nofun, .inl⟩

theorem grants_scaled (b : Bool) (x : LdgCh) {sc : Int} (h0 : 0 ≤ sc) (h1 : sc ≤ 65536) (pw : Int) (clipped : Bool) :
    Grants b x { x with
      g := Int.tdiv (x.g * sc) 65536, pw := pw
      short := x.short || decide ((Int.tdiv (x.g * sc) 65536).natAbs < x.g.natAbs), clipped := clipped } where
  chan := rfl
  word := rfl
  start := rfl
  forced := rfl
  le := natAbs_scaled_le x.g h0 h1
  sign := sgn_scaled x.g h0
  full h := by
    simp only [Bool.or_eq_false_iff, decide_eq_false_iff_not, Nat.not_lt] at h
    obtain ⟨hshort, hge⟩ := h
    exact ⟨hshort, eq_of_natAbs_le_of_sgn hge (natAbs_scaled_le x.g h0 h1) (sgn_scaled x.g h0)⟩
  delayed := .inl

theorem scale_mem_unit {sum e : Int} (he : 0 ≤ e) (hlt : e < sum) : 0 ≤ 65536 * (sum - e) / sum ∧ 65536 * (sum - e) / sum ≤ 65536 := by
  constructor
  · exact Int.ediv_nonneg (by omega) (by omega)
  · exact Int.ediv_le_of_le_mul (by omega) (Int.mul_le_mul_of_nonneg_left (by omega) (by decide))

theorem Grants.ite {b : Bool} {x y : LdgCh} {p : Bool} (h : Grants b x y) : Grants b x (if p then y else x) := by
  cases p
  · exact .refl b x
  · exact h

theorem ldgClip_settles (b : Bool) (pwr : Nat → Int → Int → Int) (dir : Int) (cl : Nat) {e : Int} (he : 0 ≤ e) (l : List LdgCh) :
    Settles b l (ldgClip pwr dir cl e l).1 := by
  induction cl generalizing e l with
  | zero => exact .of_perm .rfl
  | succ cl ih =>
    rw [ldgClip]
    extract_lets
    split
    · exact ih he l
    · split
      · rename_i hle
        exact (Settles.of_map l (fun x => (grants_clipped b x).ite)).trans (ih (by omega) _)
      · rename_i hlt
        obtain ⟨h0, h1⟩ := scale_mem_unit he (Int.not_le.mp hlt)
        exact .of_map l (fun x => (grants_scaled b x h0 h1 _ _).ite)

/-! ### Keys of registers -/

theorem key_eq_iff {f g : Fld} {i j : Nat} :
    f.key i = g.key j ↔ i = j ∧ (f.off * 32 + f.lo) % 131072 = (g.off * 32 + g.lo) % 131072 := by
  unfold Fld.key
  omega

theorem key_ne {f g : Fld} {i j : Nat} (h : i ≠ j) : f.key i ≠ g.key j :=
  fun e => h (key_eq_iff.mp e).1

/-- A block that signals no message only records its causes. -/
theorem raise_pgStp (s : State) (bits : Nat) : s.raise pgStp bits = s.setBits pgStp R.INT_STAT bits := by
  simp [State.raise, State.irqEdge, State.irqMsix, pgStp]

/-! ### Shadows (R202) -/

/-- No shadow of page `p` is listed. -/
def Unshadowed (s : State) (p : Nat) : Prop := ∀ (f : Fld) (d : Nat), s.fields.get d (f.key (iShadow p)) = d

theorem Unshadowed.shadow_eq {s : State} {p : Nat} (h : Unshadowed s p) (f : Fld) : s.shadow p f = s.rd p f := h f _

theorem Unshadowed.wr {s : State} {p i : Nat} (h : Unshadowed s p) (hi : i ≠ iShadow p) (f : Fld) (v : Nat) :
    Unshadowed (s.wr i f v) p := by
  intro g d
  rw [State.wr, SMap.get_set, if_neg (key_ne hi), h]

theorem dropShadows_unshadowed (s : State) (p : Nat) : Unshadowed (s.dropShadows p) p := by
  intro f d
  simp [State.dropShadows, State.resetInsts, Fld.key_div]

theorem rd_dropShadows (s : State) {p i : Nat} (h : i ≠ iShadow p) (f : Fld) : (s.dropShadows p).rd i f = s.rd i f := by
  simp [State.dropShadows, State.resetInsts, State.rd, Fld.key_div, h]

theorem get_of_lt_keys {m : SMap Nat} {lo k : Nat} (h : m.wfAbove lo = true) (hk : k < lo) (d : Nat) : m.get d k = d := by
  induction m generalizing lo with
  | nil => rfl
  | cons e m ih =>
    simp only [SMap.wfAbove, Bool.and_eq_true, decide_eq_true_eq] at h
    obtain ⟨hlo, hm⟩ := h
    rw [SMap.get, if_neg (by omega), ih hm (by omega)]

/-- Copying the entries of group `j` to group `i`, whose keys rise strictly: an entry of `i` reads as that of `j`, where that is listed. -/
theorem get_foldl_moved {i j lo : Nat} (m : SMap Nat) (h : m.wfAbove lo = true) (base : SMap Nat) (d : Nat) {a : Nat} (ha : a < 131072) :
    SMap.get d (((m.filter (fun e => e.1 / 131072 == j)).map (fun e => (i * 131072 + e.1 % 131072, e.2))).foldl
        (fun m e => m.set e.1 e.2) base) (i * 131072 + a) =
      m.get (base.get d (i * 131072 + a)) (j * 131072 + a) := by
  induction m generalizing base lo with
  | nil => rfl
  | cons e m ih =>
    obtain ⟨k, v⟩ := e
    simp only [SMap.wfAbove, Bool.and_eq_true, decide_eq_true_eq] at h
    obtain ⟨-, hm⟩ := h
    by_cases hj : k / 131072 = j
    · simp only [List.filter_cons, hj, beq_self_eq_true, if_true, List.map_cons, List.foldl_cons, ih hm, SMap.get, SMap.get_set]
      by_cases hk : k = j * 131072 + a
      · rw [if_pos hk, get_of_lt_keys hm (by omega), if_pos (by omega)]
      · rw [if_neg hk, if_neg (by omega)]
    · have hk : k ≠ j * 131072 + a := by omega
      simp only [List.filter_cons, beq_iff_eq, hj, if_false, ih hm, SMap.get, hk]

theorem rd_applyShadows {s : State} (h : s.fields.wf = true) (p : Nat) (f : Fld) : (s.applyShadows p).rd p f = s.shadow p f := by
  have hp : p ≠ iShadow p := by unfold iShadow; omega
  refine (get_foldl_moved s.fields h _ _ (Nat.mod_lt _ (by decide))).trans ?_
  exact congrArg (fun d => s.fields.get d _) (rd_dropShadows s hp f)

theorem applyShadows_unshadowed (s : State) (p : Nat) : Unshadowed (s.applyShadows p) p := by
  intro f d
  refine (SMap.get_foldl_other ?_).trans (dropShadows_unshadowed s p f d)
  intro e he hkey
  obtain ⟨a, -, rfl⟩ := List.mem_map.mp he
  have := Fld.key_div f (iShadow p)
  unfold iShadow at *
  omega

/-! ### Ledger commands (R202, R203) -/

theorem exec_ldgApply {s : State} {r : Req} (d : Word) (h : Accepts s r pgStp 0x044) :
    exec (.ldgApply r d) s = .next (s.start.ldgCmdWrite (d ||| 0x80000000)) :=
  congrArg Host.Outcome.next (State.access_eq h)

theorem exec_ldgDiscard {s : State} {r : Req} (d : Word) (h : Accepts s r pgStp 0x044) :
    exec (.ldgDiscard r d) s = .next (s.start.ldgCmdWrite (d ||| 0x40000000)) :=
  congrArg Host.Outcome.next (State.access_eq h)

theorem ldgCmdWrite_bad {s : State} {d : Word} (ha : d.toNat.testBit 31 = true) (hd : d.toNat.testBit 30 = true) :
    s.ldgCmdWrite d = s.wr pgStp R.STP_LDG_STAT_cmd_result 7 := by
  simp [State.ldgCmdWrite, bitOf, ha, hd]

theorem ldgCmdWrite_apply {s : State} {d : Word} (ha : d.toNat.testBit 31 = true) (hd : d.toNat.testBit 30 = false) :
    s.ldgCmdWrite d =
      ({ s with ldgCmd := some { at_ := d.toNat.testBit 24, sfc := d.toNat % 16384, frm := s.led } }.wr
        pgStp R.STP_LDG_STAT_pending 1).wr pgStp R.STP_LDG_STAT_cmd_result 1 := by
  simp [State.ldgCmdWrite, bitOf, ha, hd]

theorem ldgCmdWrite_discard {s : State} {d : Word} (ha : d.toNat.testBit 31 = false) (hd : d.toNat.testBit 30 = true) :
    s.ldgCmdWrite d = (s.dropShadows pgStp).wr pgStp R.STP_LDG_STAT_cmd_result 0 := by
  simp [State.ldgCmdWrite, bitOf, ha, hd]

/-- The action bits and the superframe of a command word with the apply bit set. -/
theorem applyBit (d : Word) :
    (d ||| 0x80000000).toNat.testBit 31 = true ∧ (d ||| 0x80000000).toNat.testBit 30 = d.toNat.testBit 30 ∧
      (d ||| 0x80000000).toNat.testBit 24 = d.toNat.testBit 24 ∧ (d ||| 0x80000000).toNat % 16384 = d.toNat % 16384 := by
  have hlow : (d.toNat ||| 0x80000000) % 2 ^ 14 = d.toNat % 2 ^ 14 := by rw [Nat.or_mod_two_pow]; simp
  simpa [BitVec.toNat_or, Nat.testBit_or, Nat.testBit_eq_decide_div_mod_eq (x := 0x80000000)] using hlow

theorem discardBit (d : Word) :
    (d ||| 0x40000000).toNat.testBit 30 = true ∧ (d ||| 0x40000000).toNat.testBit 31 = d.toNat.testBit 31 := by
  simp [BitVec.toNat_or, Nat.testBit_or, Nat.testBit_eq_decide_div_mod_eq (x := 0x40000000)]

/-- The settings of the ledger that the statement names. -/
theorem settings_ne_stat :
    ∀ f ∈ [R.STP_LDG_CFG_en, R.STP_LDG_CFG_start_en, R.STP_LDG_CFG_max_delay, R.STP_LDG_IMP_MAX_value, R.STP_LDG_EXP_MAX_value,
      R.STP_LDG_BUD_IMP_value, R.STP_LDG_BUD_EXP_value, R.STP_LDG_EFF_eff_dis 7, R.STP_LDG_OVH_ovh_mw 31],
      R.STP_LDG_STAT_cmd_result.key pgStp ≠ f.key pgStp ∧ R.STP_LDG_STAT_pending.key pgStp ≠ f.key pgStp ∧
        R.INT_STAT.key pgStp ≠ f.key pgStp := by
  decide

theorem exec_ldgApply_pending {s : State} {r : Req} {d : Word} (h : Accepts s r pgStp 0x044) (hd : d.toNat / 2 ^ 30 % 2 = 0) :
    ∃ t, exec (.ldgApply r d) s = .next t ∧ t.rd pgStp R.STP_LDG_STAT_cmd_result = 1 ∧ t.rd pgStp R.STP_LDG_STAT_pending = 1 ∧
      t.ldgCmd = some { at_ := d.toNat.testBit 24, sfc := d.toNat % 16384, frm := s.led } ∧
      (∀ f ∈ [R.STP_LDG_CFG_en, R.STP_LDG_IMP_MAX_value, R.STP_LDG_EFF_eff_chg 3, R.STP_LDG_OVH_ovh_mw 31],
        t.rd pgStp f = s.rd pgStp f) := by
  obtain ⟨happly, hdiscard, hat, hsfc⟩ := applyBit d
  have hbit : d.toNat.testBit 30 = false := by rw [Nat.testBit_eq_decide_div_mod_eq, hd]; rfl
  refine ⟨_, exec_ldgApply d h, ?_⟩
  rw [ldgCmdWrite_apply happly (hdiscard.trans hbit), hat, hsfc]
  refine ⟨State.rd_wr_same .., ?_, rfl, ?_⟩
  · rw [State.rd_wr_other _ _ _ _ _ _ (by decide), State.rd_wr_same]
    rfl
  · have hne : ∀ f ∈ [R.STP_LDG_CFG_en, R.STP_LDG_IMP_MAX_value, R.STP_LDG_EFF_eff_chg 3, R.STP_LDG_OVH_ovh_mw 31],
        R.STP_LDG_STAT_cmd_result.key pgStp ≠ f.key pgStp ∧ R.STP_LDG_STAT_pending.key pgStp ≠ f.key pgStp := by decide
    intro f hf
    obtain ⟨hres, hpend⟩ := hne f hf
    rw [State.rd_wr_other _ _ _ _ _ _ hres, State.rd_wr_other _ _ _ _ _ _ hpend]
    rfl

theorem exec_ldgApply_bad {s : State} {r : Req} {d : Word} (h : Accepts s r pgStp 0x044) (hd : d.toNat / 2 ^ 30 % 2 = 1) :
    ∃ t, exec (.ldgApply r d) s = .next t ∧ t.rd pgStp R.STP_LDG_STAT_cmd_result = 7 ∧ t.ldgCmd = s.ldgCmd := by
  obtain ⟨happly, hdiscard, -⟩ := applyBit d
  have hbit : d.toNat.testBit 30 = true := by rw [Nat.testBit_eq_decide_div_mod_eq, hd]; rfl
  refine ⟨_, exec_ldgApply d h, ?_⟩
  rw [ldgCmdWrite_bad happly (hdiscard.trans hbit)]
  exact ⟨State.rd_wr_same .., rfl⟩

theorem exec_ldgDiscard_drops {s : State} {r : Req} {d : Word} (h : Accepts s r pgStp 0x044) (hd : d.toNat / 2 ^ 31 = 0) :
    ∃ t, exec (.ldgDiscard r d) s = .next t ∧ t.rd pgStp R.STP_LDG_STAT_cmd_result = 0 ∧ t.ldgCmd = s.ldgCmd ∧
      (∀ f, R.STP_LDG_STAT_cmd_result.key pgStp ≠ f.key pgStp →
        t.rd pgStp f = s.rd pgStp f ∧ t.shadow pgStp f = s.rd pgStp f) := by
  obtain ⟨hdiscard, happly⟩ := discardBit d
  have hbit : d.toNat.testBit 31 = false := by rw [Nat.testBit_eq_decide_div_mod_eq, hd]; rfl
  refine ⟨_, exec_ldgDiscard d h, ?_⟩
  rw [ldgCmdWrite_discard (happly.trans hbit) hdiscard]
  refine ⟨State.rd_wr_same .., rfl, fun f hf => ?_⟩
  have hshadow : Unshadowed ((s.start.dropShadows pgStp).wr pgStp R.STP_LDG_STAT_cmd_result 0) pgStp :=
    (dropShadows_unshadowed _ _).wr (by decide) _ _
  rw [hshadow.shadow_eq, State.rd_wr_other _ _ _ _ _ _ hf, rd_dropShadows _ (by decide)]
  exact ⟨rfl, rfl⟩

/-! ### An apply takes effect (R202) -/

theorem ldgDue_due {s : State} {x : Due} {k : Nat} (hx : s.ldgCmd = some x) (hnow : x.now k = true) :
    s.ldgDue k =
      ((({ s.applyShadows pgStp with ldgCmd := none } : State).wr pgStp R.STP_LDG_STAT_pending 0).wr
        pgStp R.STP_LDG_STAT_cmd_result 0).setBits pgStp R.INT_STAT 0x40 := by
  simp only [State.ldgDue, hx, hnow, if_true, raise_pgStp]

theorem ldgDue_idle {s : State} {k : Nat} (h : s.ldgCmd = none ∨ ∃ x, s.ldgCmd = some x ∧ x.now k = false) : s.ldgDue k = s := by
  rcases h with h | ⟨x, hx, hnow⟩
  · simp only [State.ldgDue, h]
  · simp [State.ldgDue, hx, hnow]

theorem testBit_recorded (n : Nat) : ((n ||| 0x40) % 2 ^ 32).testBit 6 = true := by
  have hbit : Nat.testBit 0x40 6 = true := by decide
  rw [Nat.testBit_mod_two_pow, Nat.testBit_or, hbit, Bool.or_true]
  rfl

theorem exec_ldgApplyTakesEffect (s : State) : exec .ldgApplyTakesEffect s = .next (s.start.ldgDue s.led) := rfl

theorem exec_ldgApplyTakesEffect_due {s : State} {x : Due} (hx : s.ldgCmd = some x) (hnow : x.now s.led = true)
    (hwf : s.fields.wf = true) :
    ∃ t, exec .ldgApplyTakesEffect s = .next t ∧ t.ldgCmd = none ∧ t.rd pgStp R.STP_LDG_STAT_cmd_result = 0 ∧
      t.rd pgStp R.STP_LDG_STAT_pending = 0 ∧ (t.rd pgStp R.INT_STAT).testBit 6 = true ∧
      (∀ f, R.STP_LDG_STAT_cmd_result.key pgStp ≠ f.key pgStp → R.STP_LDG_STAT_pending.key pgStp ≠ f.key pgStp →
        R.INT_STAT.key pgStp ≠ f.key pgStp → t.rd pgStp f = s.shadow pgStp f ∧ t.shadow pgStp f = s.shadow pgStp f) := by
  refine ⟨_, exec_ldgApplyTakesEffect s, ?_⟩
  rw [ldgDue_due (s := s.start) hx hnow]
  refine ⟨rfl, ?_, ?_, ?_, fun f hres hpend hint => ?_⟩
  · rw [State.rd_setBits, if_neg (by decide), State.rd_wr_same]
    rfl
  · rw [State.rd_setBits, if_neg (by decide), State.rd_wr_other _ _ _ _ _ _ (by decide), State.rd_wr_same]
    rfl
  · rw [State.rd_setBits, if_pos rfl]
    exact testBit_recorded _
  · have happlied : Unshadowed ({ s.start.applyShadows pgStp with ldgCmd := none } : State) pgStp := applyShadows_unshadowed s.start pgStp
    have hshadow := ((happlied.wr (i := pgStp) (by decide) R.STP_LDG_STAT_pending 0).wr (i := pgStp) (by decide)
      R.STP_LDG_STAT_cmd_result 0).wr (i := pgStp) (by decide)
    rw [State.setBits, (hshadow _ _).shadow_eq, State.rd_wr_other _ _ _ _ _ _ hint, State.rd_wr_other _ _ _ _ _ _ hres,
      State.rd_wr_other _ _ _ _ _ _ hpend]
    have hrd : ({ s.start.applyShadows pgStp with ldgCmd := none } : State).rd pgStp f = s.shadow pgStp f :=
      rd_applyShadows (s := s.start) hwf pgStp f
    exact ⟨hrd, hrd⟩

/-! ### Granted words (R70, R126) -/

theorem toS_bounds (n : Nat) : -2 ^ 19 ≤ toS 20 n ∧ toS 20 n < 2 ^ 19 := by
  simp only [toS]
  split <;> omega

theorem ofS_toS (n : Nat) : ofS 20 (toS 20 n) = n % 2 ^ 20 := by
  simp only [toS, ofS]
  split <;> omega

theorem toS_ofS {d : Int} (hlo : -2 ^ 19 ≤ d) (hhi : d < 2 ^ 19) : toS 20 (ofS 20 d) = d := by
  simp only [toS]
  rcases Int.lt_or_le d 0 with hd | hd
  · have hneg : ofS 20 d = (d + 2 ^ 20).toNat := by unfold ofS; omega
    rw [hneg, if_neg (by omega)]
    omega
  · have hpos : ofS 20 d = d.toNat := by unfold ofS; omega
    rw [hpos, if_pos (by omega)]
    omega

theorem ofS_lt (d : Int) : ofS 20 d < 2 ^ 20 := by
  unfold ofS
  omega

/-- The word that grants demand `d` to the request `q`: the request with another demand. -/
def grantWord (d : Int) (q : Nat) : Nat := ofS 20 d * 65536 + q % 65536

theorem grantWord_lt (d : Int) (q : Nat) : grantWord d q < 2 ^ 36 := by
  have := ofS_lt d
  unfold grantWord
  omega

theorem grantWord_mod (d : Int) (q : Nat) : grantWord d q % 2 ^ 16 = q % 2 ^ 16 := by
  unfold grantWord
  omega

theorem grantWord_wordD (q : Nat) : grantWord (wordD q) q = q % 2 ^ 36 := by
  rw [grantWord, wordD, ofS_toS]
  omega

theorem wordD_grantWord {d : Int} (q : Nat) (hlo : -2 ^ 19 ≤ d) (hhi : d < 2 ^ 19) : wordD (grantWord d q) = d := by
  have hdiv : grantWord d q / 65536 = ofS 20 d := by
    unfold grantWord
    omega
  rw [wordD, hdiv, toS_ofS hlo hhi]

/-- A demand not larger than that of a word, of the same sign, is a demand of 20 bits. -/
theorem demand_bounds {d : Int} {q : Nat} (hle : d.natAbs ≤ (wordD q).natAbs) (hsgn : d = 0 ∨ sgn d = sgn (wordD q)) :
    -2 ^ 19 ≤ d ∧ d < 2 ^ 19 := by
  have hq : -2 ^ 19 ≤ wordD q ∧ wordD q < 2 ^ 19 := toS_bounds _
  have := sgn_cases d
  have := sgn_cases (wordD q)
  omega

/-! ### The channels in the ledger's work -/

/-- The channels of the powered banks, in the order of the ledger's work. -/
def liveChans (s : State) : List Nat := (s.liveBanks.map chansOf).flatten

theorem mem_liveChans {s : State} {b i : Nat} (hb : b ∈ s.liveBanks) (hi : i < 16) : 16 * b + i ∈ liveChans s :=
  List.mem_flatten.mpr ⟨chansOf b, List.mem_map_of_mem hb, List.mem_map_of_mem (List.mem_range.mpr hi)⟩

theorem liveBanks_nodup (s : State) : s.liveBanks.Nodup := by
  unfold State.liveBanks
  cases s.domOn 3 <;> cases s.domOn 4 <;> decide

theorem chansOf_nodup (b : Nat) : (chansOf b).Nodup :=
  List.pairwise_map.mpr (List.nodup_range.imp (fun h => by omega))

theorem chansOf_disjoint {b b' : Nat} (h : b ≠ b') : ∀ c ∈ chansOf b, ∀ c' ∈ chansOf b', c ≠ c' := by
  intro c hc c' hc'
  simp only [chansOf, List.mem_map, List.mem_range] at hc hc'
  omega

theorem liveChans_nodup (s : State) : (liveChans s).Nodup := by
  refine List.pairwise_flatten.mpr ⟨fun l hl => ?_, List.pairwise_map.mpr ((liveBanks_nodup s).imp chansOf_disjoint)⟩
  obtain ⟨b, -, rfl⟩ := List.mem_map.mp hl
  exact chansOf_nodup b

theorem ldgIn_chan (s : State) (c : Nat) : (s.ldgIn c).c = c := rfl

theorem ldgIn_demand (s : State) (c : Nat) : (s.ldgIn c).g = if wordMode (s.ch c).req = 1 then wordD (s.ch c).req else 0 := by
  simp [State.ldgIn]

/-- A start is forced in class 0, and where no delay is allowed (R198). -/
theorem ldgIn_not_forced {s : State} {c : Nat} (hstart : (s.ldgIn c).start = true) (hforced : (s.ldgIn c).forced = false) :
    s.rd (pgChn c) R.CHN_LDG_CFG_class ≠ 0 ∧ s.rd pgStp R.STP_LDG_CFG_max_delay ≠ 0 := by
  have hcases : (s.ldgIn c).forced = ((s.ldgIn c).start && (s.rd (pgChn c) R.CHN_LDG_CFG_class == 0 ||
      decide (s.rd pgStp R.STP_LDG_CFG_max_delay ≤ (s.ldgIn c).delay))) := rfl
  rw [hforced, hstart, Bool.true_and, eq_comm, Bool.or_eq_false_iff] at hcases
  obtain ⟨hclass, hdelay⟩ := hcases
  simp only [beq_eq_false_iff_ne, decide_eq_false_iff_not, Nat.not_le] at hclass hdelay
  exact ⟨hclass, by omega⟩

/-- The grants of R198 settle the channels of the powered banks. -/
theorem ldgGrants_settles (s : State) :
    Settles (s.rdB pgStp R.STP_LDG_CFG_start_en) ((liveChans s).map s.ldgIn) s.ldgGrants.1 := by
  unfold State.ldgGrants
  extract_lets l runs net dir starts y l' imp exp
  split
  · exact .of_map l (grants_admitted _)
  · have hstarts : Settles (s.rdB pgStp R.STP_LDG_CFG_start_en) (l.filter (·.start)) y.2 := by
      have hperm : starts.Perm (l.filter (·.start)) := foldr_ldgInsert_perm dir _
      have hadmit : ∀ x ∈ starts, x.start = true := fun x hx => (List.mem_filter.mp (hperm.mem_iff.mp hx)).2
      exact (Settles.of_perm hperm).trans (ldgStarts_settles _ _ _ starts hadmit net)
    have hruns : Settles (s.rdB pgStp R.STP_LDG_CFG_start_en) l l' :=
      (Settles.of_perm (List.perm_append_comm.trans (List.filter_append_perm (·.start) l))).trans
        ((Settles.of_perm .rfl).append hstarts)
    split
    · exact hruns.trans (ldgClip_settles _ _ _ _ (by omega) l')
    · split
      · exact hruns.trans (ldgClip_settles _ _ _ _ (by omega) l')
      · exact hruns

theorem ldgGrants_of_disabled {s : State} (h : s.rd pgStp R.STP_LDG_CFG_en = 0) :
    s.ldgGrants = (((liveChans s).map s.ldgIn).map (fun x => { x with delay := 0 }), 0) := by
  simp [State.ldgGrants, State.rdB, h, liveChans]

theorem ldgGrants_nodup (s : State) : (s.ldgGrants.1.map (·.c)).Nodup := by
  refine (ldgGrants_settles s).chans.nodup_iff.mpr ?_
  rw [List.map_map]
  simpa [Function.comp_def, ldgIn_chan] using liveChans_nodup s

/-- Every channel of a powered bank is granted. -/
theorem exists_grant {s : State} {c : Nat} (hc : c ∈ liveChans s) :
    ∃ x ∈ s.ldgGrants.1, Grants (s.rdB pgStp R.STP_LDG_CFG_start_en) (s.ldgIn c) x := by
  obtain ⟨hchans, hgrants⟩ := ldgGrants_settles s
  have hmem : c ∈ s.ldgGrants.1.map (·.c) := by
    refine hchans.mem_iff.mpr ?_
    simpa [Function.comp_def, ldgIn_chan] using hc
  obtain ⟨x, hx, rfl⟩ := List.mem_map.mp hmem
  obtain ⟨y, hy, hyx⟩ := hgrants x hx
  obtain ⟨c', -, rfl⟩ := List.mem_map.mp hy
  have hc' : x.c = c' := hyx.chan
  exact ⟨x, hx, hc' ▸ hyx⟩

/-! ### Writing the grants -/

theorem rd_wr_inst (s : State) {i j : Nat} (h : i ≠ j) (f g : Fld) (v : Nat) : (s.wr i f v).rd j g = s.rd j g :=
  State.rd_wr_other _ _ _ _ _ _ (key_ne h)

theorem rd_modCh (s : State) (c : Nat) (f : Chan → Chan) (j : Nat) (g : Fld) : (s.modCh c f).rd j g = s.rd j g := rfl

theorem ch_modCh (s : State) (c : Nat) (f : Chan → Chan) (j : Nat) : (s.modCh c f).ch j = if c = j then f (s.ch c) else s.ch j := by
  simp [State.modCh, State.setCh, State.ch]

/-- The grant of a channel writes its own page. -/
theorem rd_ldgOut_other (s : State) (x : LdgCh) {j : Nat} (h : pgChn x.c ≠ j) (f : Fld) : (s.ldgOut x).rd j f = s.rd j f := by
  simp only [State.ldgOut, rd_modCh, State.wrB, State.wrS, rd_wr_inst _ h]
  split <;> simp only [rd_wr_inst _ h]

theorem rd_ldgOut_grant (s : State) (x : LdgCh) :
    (s.ldgOut x).rd (pgChn x.c) R.CHN_LDG_GRANT_value = (if x.run then grantWord x.g x.r else x.r) % 2 ^ 36 := by
  simp +decide only [State.ldgOut, rd_modCh, State.wrB, State.wrS, State.rd_wr, key_eq_iff, true_and, if_true, if_false]
  rfl

theorem b2n_mod (b : Bool) : b2n b % 2 = b2n b := by
  cases b <;> rfl

theorem rd_ldgOut_less (s : State) (x : LdgCh) :
    (s.ldgOut x).rd (pgChn x.c) R.CHN_STAT_granted_less = b2n x.short := by
  simp only [State.ldgOut, rd_modCh, State.wrB, State.rd_wr_same]
  exact b2n_mod x.short

/-- The delay, the delayed and the clipped mark that a grant writes into CHN_LDG_STAT. -/
theorem rd_ldgOut_stat (s : State) (x : LdgCh) :
    (s.ldgOut x).rd (pgChn x.c) R.CHN_LDG_STAT_delay = x.delay % 2 ^ 16 ∧
      (s.ldgOut x).rd (pgChn x.c) R.CHN_LDG_STAT_delayed = b2n x.delayed ∧
      (s.ldgOut x).rd (pgChn x.c) R.CHN_LDG_STAT_clipped = b2n x.clipped := by
  refine ⟨?_, ?_, ?_⟩
  · simp +decide only [State.ldgOut, rd_modCh, State.wrB, State.wrS, State.rd_wr, key_eq_iff, true_and, if_true, if_false]
    rfl
  · simp only [State.ldgOut]
    split <;> (simp +decide only [rd_modCh, State.wrB, State.wrS, State.rd_wr, key_eq_iff, true_and, if_true, if_false]; exact b2n_mod x.delayed)
  · simp only [State.ldgOut]
    split <;> (simp +decide only [rd_modCh, State.wrB, State.wrS, State.rd_wr, key_eq_iff, true_and, if_true, if_false]; exact b2n_mod x.clipped)

/-- The grant becomes the previous demand of the channel, and the request stays. -/
theorem ch_ldgOut_same (s : State) (x : LdgCh) :
    ((s.ldgOut x).ch x.c).prevD = (if x.run then x.g else 0) ∧ ((s.ldgOut x).ch x.c).req = (s.ch x.c).req := by
  constructor
  · simp only [State.ldgOut, ch_modCh, if_true]
  · simp only [State.ldgOut, ch_modCh, if_true]
    split <;> rfl

theorem ch_ldgOut_other (s : State) (x : LdgCh) {c : Nat} (h : x.c ≠ c) : (s.ldgOut x).ch c = s.ch c := by
  simp only [State.ldgOut, ch_modCh, if_neg h]
  split <;> rfl

theorem pgChn_ne {c c' : Nat} (h : c ≠ c') : pgChn c ≠ pgChn c' := by
  unfold pgChn
  omega

theorem foldl_ldgOut_other (s : State) (l : List LdgCh) {c : Nat} (h : c ∉ l.map (·.c)) :
    (∀ f, (l.foldl State.ldgOut s).rd (pgChn c) f = s.rd (pgChn c) f) ∧ (l.foldl State.ldgOut s).ch c = s.ch c := by
  induction l generalizing s with
  | nil => exact ⟨fun _ => rfl, rfl⟩
  | cons x xs ih =>
    rw [List.map_cons, List.mem_cons, not_or] at h
    obtain ⟨hx, hxs⟩ := h
    obtain ⟨hrd, hch⟩ := ih (s.ldgOut x) hxs
    exact ⟨fun f => (hrd f).trans (rd_ldgOut_other s x (pgChn_ne (Ne.symm hx)) f), hch.trans (ch_ldgOut_other s x (Ne.symm hx))⟩

/-- Where each channel is granted once, its page and its state are those that its own grant leaves. -/
theorem foldl_ldgOut_mem (s : State) {l : List LdgCh} (hl : (l.map (·.c)).Nodup) {x : LdgCh} (hx : x ∈ l) :
    ∃ u : State, u.ch x.c = s.ch x.c ∧ (∀ f, (l.foldl State.ldgOut s).rd (pgChn x.c) f = (u.ldgOut x).rd (pgChn x.c) f) ∧
      (l.foldl State.ldgOut s).ch x.c = (u.ldgOut x).ch x.c := by
  obtain ⟨before, after, rfl⟩ := List.append_of_mem hx
  rw [List.map_append, List.map_cons, List.nodup_append] at hl
  obtain ⟨-, hafter, hdisj⟩ := hl
  have hbefore : x.c ∉ before.map (·.c) := fun h => hdisj _ h _ List.mem_cons_self rfl
  refine ⟨before.foldl State.ldgOut s, (foldl_ldgOut_other s before hbefore).2, ?_⟩
  rw [List.foldl_append, List.foldl_cons]
  exact foldl_ldgOut_other _ after (List.nodup_cons.mp hafter).1

/-- The grants change no other page. -/
theorem rd_foldl_ldgOut_page (s : State) (l : List LdgCh) {j : Nat} (h : ∀ c, pgChn c ≠ j) (f : Fld) :
    (l.foldl State.ldgOut s).rd j f = s.rd j f := by
  induction l generalizing s with
  | nil => rfl
  | cons x xs ih => exact (ih _).trans (rd_ldgOut_other s x (h x.c) f)

/-! ### What the ledger work leaves -/

theorem keeps_rd {W : List Part} {Q : Nat → Bool} {s t : State} (h : Keeps W Q s t) {i : Nat} (hi : Q i = false) (f : Fld) :
    t.rd i f = s.rd i f :=
  h.regs (f.key i) (by rwa [Fld.key_div]) f.rst

/-- Whether a group of registers is the STP page or stands above the pages. -/
def stpOrAbove (i : Nat) : Bool := i == pgStp || decide (0x400 ≤ i)

theorem ldgDue_frame (s : State) (k : Nat) : Keeps [.bus] stpOrAbove s (s.ldgDue k) :=
  State.ldgDue_keeps (fun n => by simp [stpOrAbove, iFn]) (by decide) (by decide) (by decide) (.refl _ _ _)

theorem stpOrAbove_pgChn {c : Nat} (h : c < 512) : stpOrAbove (pgChn c) = false := by
  have hne : pgChn c ≠ pgStp ∧ ¬0x400 ≤ pgChn c := by
    unfold pgChn pgStp
    omega
  simp [stpOrAbove, hne]

theorem ch_ldgDue (s : State) (k c : Nat) : (s.ldgDue k).ch c = s.ch c := by
  have hchans : (s.ldgDue k).chans = s.chans := (ldgDue_frame s k).same .chans (by decide)
  rw [State.ch, hchans, State.ch]

theorem liveBanks_ldgDue (s : State) (k : Nat) : (s.ldgDue k).liveBanks = s.liveBanks := by
  have hdom : ∀ d, (s.ldgDue k).domOn d = s.domOn d := fun d =>
    congrArg (bitOf · d) (keeps_rd (ldgDue_frame s k) (by decide) R.PWR_DOM_STAT_on)
  simp only [State.liveBanks, hdom]

theorem liveChans_ldgDue (s : State) (k : Nat) : liveChans (s.ldgDue k) = liveChans s := by
  rw [liveChans, liveBanks_ldgDue, liveChans]

theorem liveChans_lt {s : State} {c : Nat} (h : c ∈ liveChans s) : c < 512 := by
  obtain ⟨l, hl, hc⟩ := List.mem_flatten.mp h
  obtain ⟨b, hb, rfl⟩ := List.mem_map.mp hl
  have hb' : b < 32 := by
    simp only [State.liveBanks, banksOf, List.mem_append] at hb
    rcases hb with hb | hb <;> split at hb <;> simp only [List.mem_map, List.mem_range, List.not_mem_nil] at hb <;> omega
  simp only [chansOf, List.mem_map, List.mem_range] at hc
  omega

theorem keeps_w {W : List Part} {Q : Nat → Bool} {s t : State} (h : Keeps W Q s t) (hW : Part.bus ∉ W) : t.w = s.w :=
  congrArg Prod.fst (h.same .bus hW)

theorem w_raise (s : State) (p bits : Nat) : (s.raise p bits).w = s.w :=
  keeps_w (State.raise_keeps (W := []) (Q := fun _ => true) (fun _ => rfl) rfl (.refl _ _ s)) (by decide)

theorem w_ldgDue (s : State) (k : Nat) : (s.ldgDue k).w = s.w := by
  unfold State.ldgDue
  split
  · rfl
  · split
    · exact w_raise _ _ _
    · rfl

theorem foldl_ldgOut_frame (s : State) (l : List LdgCh) : Keeps [.chans] (fun _ => true) s (l.foldl State.ldgOut s) :=
  keeps_foldl (.refl _ _ s) (fun _ _ h => State.ldgOut_keeps (fun _ => rfl) (by decide) h)

/-- The residual excess that the ledger work reports (R201). -/
def reportResidual (s : State) (e : Int) : State :=
  if 0 < e then ((s.wr pgStp R.STP_LDG_STAT_residual 1).raise pgStp 0x10).report 0x21 pgStp 0xFFFF [ofS 32 e] else s

/-- The ledger work writes its totals on the STP page, then the grants, then a residual excess. -/
theorem ledger_split (s : State) (k : Nat) :
    ∃ u : State, Keeps [] (· == pgStp) (s.ldgDue k) u ∧
      u.rd pgStp R.STP_LDG_PRED_REQ_value =
        ofS 36 ((s.ldgDue k).ldgOvh + ((s.ldgDue k).ldgGrants.1.map (·.pwReq)).foldl (· + ·) 0) % 2 ^ 36 ∧
      u.rd pgStp R.STP_LDG_PRED_value = ofS 36 ((s.ldgDue k).ldgOvh + ldgSum (s.ldgDue k).ldgGrants.1) % 2 ^ 36 ∧
      u.rd pgStp R.STP_LDG_STAT_clipping = b2n (((s.ldgDue k).ldgGrants.1.filter (·.clipped)).length != 0) ∧
      u.rd pgStp R.STP_LDG_SFC_sfc = k % 2 ^ 32 ∧
      s.ledger k = reportResidual ((s.ldgDue k).ldgGrants.1.foldl State.ldgOut u) (s.ldgDue k).ldgGrants.2 := by
  unfold State.ledger
  extract_lets d y l n ovh pos neg en nClip t1 t2 t3 t4 t5 t6 t7 t8 t9 t10 t11 t12 t13
  have hclip : ∀ f, R.INT_STAT.key pgStp ≠ f.key pgStp → t13.rd pgStp f = t12.rd pgStp f := by
    intro f hf
    simp only [t13, raise_pgStp]
    split
    · rfl
    · rw [State.rd_setBits, if_neg hf]
  have hforced : ∀ f, R.STP_LDG_N_FORCED_count.key pgStp ≠ f.key pgStp → t11.rd pgStp f = t10.rd pgStp f := by
    intro f hf
    simp only [t11]
    split
    · rw [State.rd_bump, if_neg hf]
    · rfl
  have hrest : ∀ f, R.INT_STAT.key pgStp ≠ f.key pgStp → R.STP_LDG_STAT_clipping.key pgStp ≠ f.key pgStp →
      R.STP_LDG_N_FORCED_count.key pgStp ≠ f.key pgStp → t13.rd pgStp f = t10.rd pgStp f := fun f hi hc hf =>
    (hclip f hi).trans ((State.rd_wr_other _ _ _ _ _ _ hc).trans (hforced f hf))
  refine ⟨t13, ?_, ?_, ?_, ?_, ?_, rfl⟩
  · have h10 : Keeps [] (· == pgStp) d t10 := by
      iterate 10 refine State.wr_keeps rfl ?_
      exact .refl _ _ d
    have h12 : Keeps [] (· == pgStp) d t12 := State.wr_keeps rfl (keeps_ite (State.wr_keeps rfl h10) h10)
    simp only [t13, raise_pgStp]
    exact keeps_ite h12 (State.wr_keeps rfl h12)
  · rw [hrest _ (by decide) (by decide) (by decide)]
    simp +decide only [t10, t9, t8, t7, t6, t5, t4, t3, t2, State.wrS, State.rd_bump, State.rd_wr, if_false]
    exact State.rd_wr_same ..
  · rw [hrest _ (by decide) (by decide) (by decide)]
    simp +decide only [t10, t9, t8, t7, t6, t5, t4, t3, State.wrS, State.rd_bump, State.rd_wr, if_false]
    exact State.rd_wr_same ..
  · rw [hclip _ (by decide)]
    exact (State.rd_wr_same ..).trans (b2n_mod _)
  · rw [hrest _ (by decide) (by decide) (by decide)]
    simp +decide only [t10, t9, t8, t7, State.rd_bump, State.rd_wr, if_false]
    exact State.rd_wr_same ..

/-- Whether a group of registers is no channel page. -/
def noChan (i : Nat) : Bool := decide (i < 0x100) || decide (0x300 ≤ i)

theorem noChan_pgChn {c : Nat} (h : c < 512) : noChan (pgChn c) = false := by
  have hpage : ¬pgChn c < 0x100 ∧ ¬0x300 ≤ pgChn c := by
    unfold pgChn
    omega
  simp [noChan, hpage]

theorem noChan_iFn (n : Nat) : noChan (iFn n) = true := by
  have hpage : 0x300 ≤ iFn n := by
    unfold iFn
    omega
  simp [noChan, hpage]

theorem reportResidual_frame (s : State) (e : Int) : Keeps [.recorder] noChan s (reportResidual s e) :=
  keeps_ite
    (State.report_keeps (by decide) noChan_iFn (by decide) (by decide)
      (State.raise_keeps noChan_iFn (by decide) (State.wr_keeps (by decide) (.refl _ _ s))))
    (.refl _ _ s)

theorem ledger_w (s : State) (k : Nat) : (s.ledger k).w = s.w := by
  obtain ⟨u, hu, -, -, -, -, hledger⟩ := ledger_split s k
  rw [hledger, keeps_w (reportResidual_frame _ _) (by decide), keeps_w (foldl_ldgOut_frame _ _) (by decide), keeps_w hu (by decide),
    w_ldgDue]

theorem ledger_k (s : State) (k : Nat) : (s.ledger k).k = s.k :=
  congrArg Prod.fst ((State.ledger_keeps (W := [.recorder, .chans, .bus]) (Q := fun _ => true) rfl (fun _ => rfl) rfl (fun _ => rfl) rfl rfl
    (by decide) (by decide) (by decide) (.refl _ _ s)).same .time (by decide))

/-- The grant of a channel of a powered bank, and what the ledger work leaves of the channel's page and state: that of its grant. -/
theorem ledger_chan {s : State} {c : Nat} (k : Nat) (hc : c ∈ liveChans s) :
    ∃ x ∈ (s.ldgDue k).ldgGrants.1, Grants ((s.ldgDue k).rdB pgStp R.STP_LDG_CFG_start_en) ((s.ldgDue k).ldgIn c) x ∧
      ∃ u : State, (u.ch c).req = (s.ch c).req ∧ (∀ f, (s.ledger k).rd (pgChn c) f = (u.ldgOut x).rd (pgChn x.c) f) ∧
        (s.ledger k).ch c = (u.ldgOut x).ch x.c := by
  obtain ⟨x, hx, hgrant⟩ := exists_grant (s := s.ldgDue k) (by rwa [liveChans_ldgDue])
  obtain ⟨v, hv, -, -, -, -, hledger⟩ := ledger_split s k
  obtain ⟨u, huv, hrd, hch⟩ := foldl_ldgOut_mem v (ldgGrants_nodup (s.ldgDue k)) hx
  have hxc : x.c = c := hgrant.chan
  have hreport := reportResidual_frame ((s.ldgDue k).ldgGrants.1.foldl State.ldgOut v) (s.ldgDue k).ldgGrants.2
  have hvc : v.ch c = (s.ldgDue k).ch c := by rw [State.ch, hv.same .chans (by decide), State.ch]
  refine ⟨x, hx, hgrant, u, ?_, fun f => ?_, ?_⟩
  · rw [← hxc, huv, hxc, hvc, ch_ldgDue]
  · rw [hledger, keeps_rd hreport (noChan_pgChn (liveChans_lt hc)), ← hxc, hrd]
  · rw [hledger, State.ch, hreport.same .chans (by decide), ← State.ch, ← hxc, hch]

/-! ### The command (R193) -/

theorem tryStart_idle {s : State} (h : s.k ≤ s.w) : s.tryStart = s := by
  unfold State.tryStart
  rw [if_neg (by omega)]

/-- Digests and a snapshot capture. -/
theorem afterLedger_frame (s : State) (k : Nat) : Keeps [.pair] (· == pgPair) s ((s.digests k).plkCapture k) :=
  State.plkCapture_keeps rfl (by decide) (State.digests_keeps (by decide) (.refl _ _ s))

theorem exec_ledgerWork {s : State} {b : Nat} (hled : s.led < s.cEnded) (hb : b ∈ s.liveBanks) (hk : s.k ≤ s.w) :
    ∃ t, exec .ledgerWork s = .next t ∧ t.chans = (s.start.ledger (s.cEnded - 1)).chans ∧
      ∀ i f, (i == pgPair) = false → t.rd i f = (s.start.ledger (s.cEnded - 1)).rd i f := by
  have hwork : ¬(s.start.cEnded ≤ s.start.led ∨ s.start.liveBanks = [] ∧ !s.start.domOn 0) :=
    not_or.mpr ⟨Nat.not_le.mpr hled, fun h => List.ne_nil_of_mem hb h.1⟩
  have hframe := afterLedger_frame { s.start.ledger (s.cEnded - 1) with led := s.cEnded - 1 + 1 } (s.cEnded - 1)
  refine ⟨_, (if_neg hwork).trans (congrArg Host.Outcome.next (tryStart_idle ?_)), ?_, fun i f hi => ?_⟩
  · have hw := (keeps_w hframe (by decide)).trans (ledger_w s.start (s.cEnded - 1))
    have hk' := (congrArg Prod.fst (hframe.same .time (by decide))).trans (ledger_k s.start (s.cEnded - 1))
    exact Nat.le_trans (Nat.le_of_eq hk') (Nat.le_trans hk (Nat.le_of_eq hw.symm))
  · exact hframe.same .chans (by decide)
  · exact keeps_rd hframe hi f

/-! ### What a grant says of its channel -/

/-- The granted word of channel state `x`. -/
def granted (x : LdgCh) : Nat := (if x.run then grantWord x.g x.r else x.r) % 2 ^ 36

theorem granted_of_run {x : LdgCh} (h : wordMode x.r = 1) : granted x = grantWord x.g x.r := by
  rw [granted, LdgCh.run, h, Nat.mod_eq_of_lt]
  · rfl
  · exact grantWord_lt x.g x.r

theorem granted_of_not_run {x : LdgCh} (h : wordMode x.r ≠ 1) : granted x = x.r % 2 ^ 36 := by
  simp [granted, LdgCh.run, h]

/-- A grant keeps all of the word but its demand. -/
theorem granted_mod (x : LdgCh) : granted x % 2 ^ 16 = x.r % 2 ^ 16 := by
  by_cases h : wordMode x.r = 1
  · rw [granted_of_run h, grantWord_mod]
  · rw [granted_of_not_run h]
    omega

section
variable {s : State} {c : Nat} {b : Bool} {x : LdgCh}

theorem Grants.word_eq (h : Grants b (s.ldgIn c) x) : x.r = (s.ch c).req := h.word

theorem Grants.demand (h : Grants b (s.ldgIn c) x) (hrun : wordMode (s.ch c).req = 1) :
    x.g.natAbs ≤ (wordD (s.ch c).req).natAbs ∧ (x.g = 0 ∨ sgn x.g = sgn (wordD (s.ch c).req)) ∧
      (x.short = false → x.g = wordD (s.ch c).req) := by
  have hin : (s.ldgIn c).g = wordD (s.ch c).req := (ldgIn_demand s c).trans (if_pos hrun)
  exact ⟨hin ▸ h.le, hin ▸ h.sign, fun hshort => hin ▸ (h.full hshort).2⟩

theorem Grants.wordD_granted (h : Grants b (s.ldgIn c) x) (hrun : wordMode (s.ch c).req = 1) : wordD (granted x) = x.g := by
  obtain ⟨hle, hsign, -⟩ := h.demand hrun
  obtain ⟨hlo, hhi⟩ := demand_bounds hle hsign
  rw [granted_of_run (h.word_eq ▸ hrun), wordD_grantWord _ hlo hhi]

/-- A channel that is not marked short has its request. -/
theorem Grants.granted_of_full (h : Grants b (s.ldgIn c) x) (hshort : x.short = false) : granted x = (s.ch c).req % 2 ^ 36 := by
  rw [← h.word_eq]
  by_cases hrun : wordMode x.r = 1
  · rw [granted_of_run hrun, (h.demand (h.word_eq ▸ hrun)).2.2 hshort, ← h.word_eq, grantWord_wordD]
  · exact granted_of_not_run hrun

/-- A start is delayed only where delays are enabled and allowed, outside class 0. -/
theorem Grants.of_delayed (h : Grants b (s.ldgIn c) x) (hdelayed : x.delayed = true) :
    b = true ∧ s.rd (pgChn c) R.CHN_LDG_CFG_class ≠ 0 ∧ s.rd pgStp R.STP_LDG_CFG_max_delay ≠ 0 := by
  obtain ⟨hb, hstart, hforced⟩ := (h.delayed hdelayed).resolve_left Bool.false_ne_true
  exact ⟨hb, ldgIn_not_forced hstart hforced⟩

end

theorem b2n_eq_zero {b : Bool} : b2n b = 0 ↔ b = false := by
  cases b <;> decide

/-- The registers and the state of a channel of a powered bank after the ledger work, by its grant. -/
theorem ledger_chan_regs {s : State} {c : Nat} (k : Nat) (hc : c ∈ liveChans s) :
    ∃ x ∈ (s.ldgDue k).ldgGrants.1, Grants ((s.ldgDue k).rdB pgStp R.STP_LDG_CFG_start_en) ((s.ldgDue k).ldgIn c) x ∧
      (s.ledger k).rd (pgChn c) R.CHN_LDG_GRANT_value = granted x ∧
      (s.ledger k).rd (pgChn c) R.CHN_STAT_granted_less = b2n x.short ∧
      (s.ledger k).rd (pgChn c) R.CHN_LDG_STAT_delay = x.delay % 2 ^ 16 ∧
      (s.ledger k).rd (pgChn c) R.CHN_LDG_STAT_delayed = b2n x.delayed ∧
      (s.ledger k).rd (pgChn c) R.CHN_LDG_STAT_clipped = b2n x.clipped ∧
      ((s.ledger k).ch c).prevD = (if x.run then x.g else 0) ∧ ((s.ledger k).ch c).req = (s.ch c).req := by
  obtain ⟨x, hx, hgrant, u, hreq, hrd, hch⟩ := ledger_chan k hc
  obtain ⟨hdelay, hdelayed, hclipped⟩ := rd_ldgOut_stat u x
  obtain ⟨hprev, hreq'⟩ := ch_ldgOut_same u x
  have hxc : x.c = c := hgrant.chan
  refine ⟨x, hx, hgrant, (hrd _).trans (rd_ldgOut_grant u x), (hrd _).trans (rd_ldgOut_less u x), (hrd _).trans hdelay,
    (hrd _).trans hdelayed, (hrd _).trans hclipped, ?_, ?_⟩
  · rw [hch, hprev]
  · rw [hch, hreq', hxc, hreq]

theorem pgChn_ne_pgPair {c : Nat} : (pgChn c == pgPair) = false := by
  have hpage : pgChn c ≠ pgPair := by
    unfold pgChn pgPair
    omega
  simp [hpage]

section
variable {s : State} {b i : Nat} (hled : s.led < s.cEnded) (hb : b ∈ s.liveBanks) (hi : i < 16) (hk : s.k ≤ s.w)
include hled hb hi hk

/-- R193, R197: a grant differs from the request in a smaller demand of the same sign at most. -/
theorem exec_ledgerWork_grant :
    ∃ t, exec .ledgerWork s = .next t ∧
      (let c := 16 * b + i;
       let q := (s.ch c).req;
       let g := t.rd (pgChn c) R.CHN_LDG_GRANT_value;
       g % 2 ^ 16 = q % 2 ^ 16 ∧ (wordMode q ≠ 1 → g = q % 2 ^ 36) ∧
       (wordMode q = 1 → (wordD g).natAbs ≤ (wordD q).natAbs ∧ (wordD g = 0 ∨ sgn (wordD g) = sgn (wordD q)) ∧
         (t.ch c).prevD = wordD g) ∧
       (wordMode q ≠ 1 → (t.ch c).prevD = 0) ∧ (t.ch c).req = q ∧
       (t.rd (pgChn c) R.CHN_STAT_granted_less = 0 → g = q % 2 ^ 36) ∧
       (s.rd (pgChn c) R.CHN_LDG_CFG_class = 0 → t.rd (pgChn c) R.CHN_LDG_STAT_delayed = 0)) := by
  obtain ⟨t, hexec, hchans, hrd⟩ := exec_ledgerWork hled hb hk
  have hc : 16 * b + i ∈ liveChans s := mem_liveChans hb hi
  obtain ⟨x, -, hx, hgrant, hless, -, hdelayed, -, hprev, hreq⟩ := ledger_chan_regs (s := s.start) (s.cEnded - 1) hc
  refine ⟨t, hexec, ?_⟩
  extract_lets c q g
  have hreqDue : ((s.start.ldgDue (s.cEnded - 1)).ch c).req = q := congrArg Chan.req (ch_ldgDue s.start _ c)
  have hword : x.r = q := hx.word_eq.trans hreqDue
  have hg : g = granted x := (hrd _ _ pgChn_ne_pgPair).trans hgrant
  have hch : t.ch c = (s.start.ledger (s.cEnded - 1)).ch c := by rw [State.ch, hchans, State.ch]
  rw [hg, hch, hrd _ _ pgChn_ne_pgPair, hrd _ _ pgChn_ne_pgPair, hprev, hreq, hless, hdelayed]
  refine ⟨hword ▸ granted_mod x, fun hmode => hword ▸ granted_of_not_run (hword ▸ hmode), fun hrun => ?_, fun hmode => ?_, rfl,
    fun hshort => ?_, fun hclass => ?_⟩
  · have hrun' : wordMode ((s.start.ldgDue (s.cEnded - 1)).ch c).req = 1 := by rwa [hreqDue]
    obtain ⟨hle, hsign, -⟩ := hx.demand hrun'
    rw [hreqDue] at hle hsign
    rw [hx.wordD_granted hrun']
    exact ⟨hle, hsign, if_pos (by rw [LdgCh.run, hword, hrun]; rfl)⟩
  · simp [LdgCh.run, hword, hmode]
  · rw [hx.granted_of_full (b2n_eq_zero.mp hshort), hreqDue]
  · rw [b2n_eq_zero, Bool.eq_false_iff]
    intro hdel
    obtain ⟨-, hclass', -⟩ := hx.of_delayed hdel
    exact hclass' ((keeps_rd (ldgDue_frame s.start _) (stpOrAbove_pgChn (liveChans_lt hc)) _).trans hclass)

/-- Without STP_LDG_CFG.en every grant is its request, and the totals show no difference. -/
theorem exec_ledgerWork_disabled (hcmd : s.ldgCmd = none) (hen : s.rd pgStp R.STP_LDG_CFG_en = 0) :
    ∃ t, exec .ledgerWork s = .next t ∧
      (let c := 16 * b + i;
       t.rd (pgChn c) R.CHN_LDG_GRANT_value = (s.ch c).req % 2 ^ 36 ∧ t.rd (pgChn c) R.CHN_STAT_granted_less = 0 ∧
       t.rd (pgChn c) R.CHN_LDG_STAT_delay = 0 ∧ t.rd (pgChn c) R.CHN_LDG_STAT_delayed = 0 ∧ t.rd (pgChn c) R.CHN_LDG_STAT_clipped = 0 ∧
       t.rd pgStp R.STP_LDG_PRED_value = t.rd pgStp R.STP_LDG_PRED_REQ_value ∧ t.rd pgStp R.STP_LDG_STAT_clipping = 0 ∧
       t.rd pgStp R.STP_LDG_SFC_sfc = (s.cEnded - 1) % 2 ^ 32) := by
  obtain ⟨t, hexec, -, hrd⟩ := exec_ledgerWork hled hb hk
  have hc : 16 * b + i ∈ liveChans s := mem_liveChans hb hi
  have hdue : s.start.ldgDue (s.cEnded - 1) = s.start := ldgDue_idle (.inl hcmd)
  have hgrants := ldgGrants_of_disabled (s := s.start) hen
  obtain ⟨x, hmem, hx, hgrant, hless, hdelay, hdelayed, hclipped, -⟩ := ledger_chan_regs (s := s.start) (s.cEnded - 1) hc
  obtain ⟨u, -, hreq, hpred, hclipping, hsfc, hledger⟩ := ledger_split s.start (s.cEnded - 1)
  rw [hdue] at hmem hx hreq hpred hclipping hledger
  rw [hgrants] at hmem hreq hpred hclipping hledger
  obtain ⟨y, hy, rfl⟩ := List.mem_map.mp hmem
  obtain ⟨c', -, rfl⟩ := List.mem_map.mp hy
  have hstp : ∀ f, t.rd pgStp f = u.rd pgStp f := by
    intro f
    rw [hrd _ _ (by decide), hledger]
    exact rd_foldl_ldgOut_page _ _ (fun c => by unfold pgChn pgStp; omega) f
  refine ⟨t, hexec, ?_⟩
  simp only [hrd _ _ pgChn_ne_pgPair, hstp]
  refine ⟨hgrant.trans (hx.granted_of_full rfl), hless, hdelay, hdelayed, hclipped, ?_, ?_, hsfc⟩
  · rw [hpred, hreq, ldgSum, List.map_map, List.map_map, List.map_map, List.map_map]
    rfl
  · rw [hclipping, List.filter_eq_nil_iff.mpr]
    · rfl
    · intro z hz
      obtain ⟨y, hy, rfl⟩ := List.mem_map.mp hz
      obtain ⟨c, -, rfl⟩ := List.mem_map.mp hy
      exact Bool.false_ne_true

/-- No start is delayed where delays are off or not allowed. -/
theorem exec_ledgerWork_no_delay (hcmd : s.ldgCmd = none)
    (hoff : s.rd pgStp R.STP_LDG_CFG_start_en = 0 ∨ s.rd pgStp R.STP_LDG_CFG_max_delay = 0) :
    ∃ t, exec .ledgerWork s = .next t ∧ t.rd (pgChn (16 * b + i)) R.CHN_LDG_STAT_delayed = 0 := by
  obtain ⟨t, hexec, -, hrd⟩ := exec_ledgerWork hled hb hk
  have hdue : s.start.ldgDue (s.cEnded - 1) = s.start := ldgDue_idle (.inl hcmd)
  obtain ⟨x, -, hx, -, -, -, hdelayed, -⟩ := ledger_chan_regs (s := s.start) (s.cEnded - 1) (mem_liveChans hb hi)
  rw [hdue] at hx
  refine ⟨t, hexec, ?_⟩
  rw [hrd _ _ pgChn_ne_pgPair, hdelayed, b2n_eq_zero, Bool.eq_false_iff]
  intro hdel
  obtain ⟨hstartEn, -, hmax⟩ := hx.of_delayed hdel
  rcases hoff with h | h
  · simp [State.rdB, h] at hstartEn
  · exact hmax h

end

end Sys2Proof.Machine.BusLedger

namespace Sys2Proof.Machine
open BusLedger

/-- Settles O18: each clause about a command by what STP_LDG_CMD does to the shadows (that a discard ends with DONE is log entry 62), each
clause about the ledger work by what the grants of R198 can be. -/
theorem ledger : Obligations.Ledger := by
  unfold Obligations.Ledger
  refine ⟨fun s r d hacc hd => exec_ldgApply_pending hacc hd, fun s r d hacc hd => exec_ldgApply_bad hacc hd, fun s r d hacc hd => ?_,
    fun s x hx hnow hwf => ?_, fun s h => ⟨_, exec_ldgApplyTakesEffect s, ldgDue_idle h⟩,
    fun s b i hled hb hi hk => exec_ledgerWork_grant hled hb hi hk,
    fun s b i hled hb hi hk hcmd hen => exec_ledgerWork_disabled hled hb hi hk hcmd hen,
    fun s b i hled hb hi hk hcmd hoff => exec_ledgerWork_no_delay hled hb hi hk hcmd hoff⟩
  · obtain ⟨t, hexec, hres, hcmd, hsettings⟩ := exec_ldgDiscard_drops hacc hd
    exact ⟨t, hexec, hres, hcmd, fun f hf => hsettings f (settings_ne_stat f hf).1⟩
  · obtain ⟨t, hexec, hcmd, hres, hpend, hint, hsettings⟩ := exec_ldgApplyTakesEffect_due hx hnow hwf
    refine ⟨t, hexec, hcmd, hres, hpend, hint, fun f hf => ?_⟩
    obtain ⟨hneRes, hnePend, hneInt⟩ := settings_ne_stat f hf
    exact hsettings f hneRes hnePend hneInt

end Sys2Proof.Machine
end

section
/-! PROOFS. Queue pairs and doorbells (14_host_functions.md): O38 holds.

A write of FNC_F_Q_CTRL or FNC_F_DB that reaches function `f` is `State.qpCtrl` or `State.doorbell` of `f`; each is described once, by what
it makes of the pair. An ignored doorbell may signal the event vector, and in a state that holds more than the 6 bits of
FNC_F_EVT_VEC.vector the pending bit of that vector can stand where FNC_F_EVT or FNC_F_DB_IGN does; but a signal sets only a pending bit
that is 0, and these two registers are not 0 by then. -/
namespace Sys2Proof.Machine.HostPairs

/-! ### Rules of the state -/

@[simp] theorem qp_setQp_same (s : State) (f q : Nat) (x : QPair) : (s.setQp f q x).qp f q = x := by
  simp [State.qp, State.setQp]

@[simp] theorem queue_setQueue_same (s : State) (q : Nat) (x : Queue) : (s.setQueue q x).queue q = x := by
  simp [State.queue, State.setQueue]

/-- A signal changes no register that is not 0. -/
theorem rd_msix_of_ne_zero {s : State} {f v i : Nat} {g : Fld} (hrst : g.rst = 0) (h : s.rd i g ≠ 0) :
    (s.msix f v).rd i g = s.rd i g := by
  unfold State.msix
  split
  · rfl
  · next hfree =>
    have hkey : (R.PBA v).key (iFn f) ≠ g.key i := by
      intro hkey
      have hsame : s.rd (iFn f) (R.PBA v) = s.rd i g := by rw [State.rd, State.rd, hkey, hrst]; rfl
      exact hfree (.inr (by simpa [State.rdB, hsame] using h))
    split
    · rw [State.rd_wrB, if_neg hkey]
    · split <;> simp

/-- An event changes no register that is not 0 once the event's bits are set. -/
theorem rd_fnEvent_of_ne_zero {s : State} {f bits i : Nat} {g : Fld} (hrst : g.rst = 0)
    (h : (s.setBits (iFn f) R.FNC_F_EVT_evt bits).rd i g ≠ 0) :
    (s.fnEvent f bits).rd i g = (s.setBits (iFn f) R.FNC_F_EVT_evt bits).rd i g := by
  unfold State.fnEvent
  dsimp only
  split
  · exact rd_msix_of_ne_zero hrst h
  · rfl

/-- Taking bindings away leaves only bindings that are not meant. -/
theorem queue_unbind_bind {s : State} {p : Bind → Bool} {q : Nat} {b : Bind} (h : ((s.unbind p).queue q).bind = some b) :
    p b = false := by
  simp only [State.queue, State.unbind] at h
  generalize s.queues = l at h
  induction l with
  | nil => simp at h
  | cons e l ih =>
    rw [List.map_cons, SMap.get] at h
    split at h
    · cases hb : e.2.bind with
      | none => simp [hb] at h
      | some c =>
        by_cases hp : p c
        · simp [hb, hp] at h
        · simp only [hb, if_neg hp, Option.some.injEq] at h
          exact h ▸ Bool.eq_false_iff.mpr hp
    · exact ih h

/-! ### Writes that reach a function -/

theorem access_of_reaches {s : State} {r : Req} {off f : Nat} (k : State → Nat → State)
    (h : (f == 0 && (s.accCause r pgFnc off true).isNone) = true) :
    s.start.access r pgFnc off (fun t => k t 0) = k s.start f := by
  simp only [Bool.and_eq_true, beq_iff_eq, Option.isNone_iff_eq_none] at h
  obtain ⟨rfl, hacc⟩ := h
  exact State.access_eq hacc

/-- A write that reaches the registers of function `f` has its effect there. -/
theorem fnAccess_of_reaches {s : State} {r : Req} {off f : Nat} (k : State → Nat → State) (h : s.reachesFn r off f = true) :
    s.start.fnAccess r off k = k s.start f := by
  have own : ∀ host g : Nat,
      (if g = 0 then f == 0 && (s.accCause r pgFnc off true).isNone
        else f == g && s.domOn 0 && s.hostOf g == host && s.fnState g != 0) = true →
      (if g = 0 then s.start.access r pgFnc off (fun t => k t 0)
        else if !s.start.domOn 0 then s.start.accErr r (pageAddr pgFnc off) true 2
        else if s.start.hostOf g ≠ host ∨ s.start.fnState g = 0 then s.start.accErr r (pageAddr pgFnc off) true 0
        else k s.start g) = k s.start f := by
    intro host g hg
    split at hg
    · next hzero => exact (if_pos hzero).trans (access_of_reaches k hg)
    · next hne =>
      simp only [Bool.and_eq_true, beq_iff_eq, bne_iff_ne] at hg
      obtain ⟨⟨⟨rfl, hon⟩, hhost⟩, hstate⟩ := hg
      have hon' : ¬(!s.start.domOn 0) = true := by rw [show s.start.domOn 0 = true from hon]; decide
      rw [if_neg hne, if_neg hon']
      exact if_neg (not_or.mpr ⟨fun hother => hother hhost, hstate⟩)
  cases r with
  | fn g => exact own 0 g.val h
  | session n g => exact own n.val g.val h
  | _ => exact access_of_reaches k h

/-! ### Written words -/

/-- The word that a doorbell of a kind writes to FNC_F_DB. -/
def dbWord (kind : Nat) (d : Word) : Word := (d &&& 0x3FFFFFFF#32) ||| BitVec.ofNat 32 (kind * 2 ^ 30)

theorem dbWord_toNat {kind : Nat} (hkind : kind < 4) (d : Word) : (dbWord kind d).toNat = 2 ^ 30 * kind + d.toNat % 2 ^ 30 := by
  have hlow : (d &&& 0x3FFFFFFF#32).toNat = d.toNat % 2 ^ 30 := by
    rw [BitVec.toNat_and]
    exact Nat.and_two_pow_sub_one_eq_mod d.toNat 30
  have hhigh : (BitVec.ofNat 32 (kind * 2 ^ 30)).toNat = 2 ^ 30 * kind := by
    rw [BitVec.toNat_ofNat]
    omega
  rw [dbWord, BitVec.toNat_or, hlow, hhigh, Nat.or_comm, Nat.two_pow_add_eq_or_of_lt (Nat.mod_lt _ (by decide))]

theorem or_bit31_testBit (d : Word) (i : Nat) :
    (d ||| BitVec.ofNat 32 (2 ^ 31)).toNat.testBit i = (d.toNat.testBit i || decide (31 = i)) := by
  rw [BitVec.toNat_or, Nat.testBit_or, show (BitVec.ofNat 32 (2 ^ 31)).toNat = 2 ^ 31 from rfl, Nat.testBit_two_pow]

/-- Bit 31 of a written word is no part of a field below it. -/
theorem of_or_bit31 {f : Fld} (h : f.lo + f.w ≤ 31) (d : Word) : f.of (d ||| BitVec.ofNat 32 (2 ^ 31)) = f.of d := by
  refine Nat.eq_of_testBit_eq fun i => ?_
  simp only [Fld.of, bitsOf, Nat.testBit_mod_two_pow, Nat.testBit_shiftRight, or_bit31_testBit]
  by_cases hi : i < f.w
  · rw [decide_eq_false (show ¬31 = f.lo + i by omega), Bool.or_false]
  · rw [decide_eq_false hi, Bool.false_and, Bool.false_and]

theorem bitOf_or_bit31 (d : Word) : bitOf (d ||| BitVec.ofNat 32 (2 ^ 31)).toNat 31 = true := by
  rw [bitOf, or_bit31_testBit, decide_eq_true rfl, Bool.or_true]

theorem bitOf_and_bit31 (d : Word) : bitOf (d &&& 0x7FFFFFFF#32).toNat 31 = false := by
  rw [bitOf, BitVec.toNat_and, Nat.testBit_and, show Nat.testBit (0x7FFFFFFF#32).toNat 31 = false by decide, Bool.and_false]

/-! ### FNC_F_Q_CTRL (R323) -/

/-- Whether en = 1 is refused for the pair that FNC_F_Q_SEL of function `f` names. -/
abbrev Refused (s : State) (f : Nat) (d : Word) : Prop :=
  s.rd (iFn f) R.FNC_FN_QUOTA_qp_quota ≤ s.qpSel f ∨ s.rd (iFn f) R.FNC_FN_QUOTA_vec_quota ≤ R.FNC_F_Q_CTRL_vector.of d ∨
    R.FNC_F_Q_CTRL_sq_log.of d < 4 ∨ 12 < R.FNC_F_Q_CTRL_sq_log.of d ∨ R.FNC_F_Q_CTRL_cq_log.of d < 4 ∨
    12 < R.FNC_F_Q_CTRL_cq_log.of d

/-- en = 1 for a pair that is not enabled. -/
theorem qpCtrl_enable {s : State} {f : Nat} (d : Word) (hen : (s.qp f (s.qpSel f)).en = false) :
    s.qpCtrl f (d ||| BitVec.ofNat 32 (2 ^ 31)) [] =
      if Refused s f d then
        s.setQp f (s.qpSel f) { s.qp f (s.qpSel f) with
          sqLog := R.FNC_F_Q_CTRL_sq_log.of d, cqLog := R.FNC_F_Q_CTRL_cq_log.of d, vec := R.FNC_F_Q_CTRL_vector.of d, cfgErr := true }
      else
        s.setQp f (s.qpSel f) { s.qp f (s.qpSel f) with
          en := true, sqLog := R.FNC_F_Q_CTRL_sq_log.of d, cqLog := R.FNC_F_Q_CTRL_cq_log.of d, vec := R.FNC_F_Q_CTRL_vector.of d
          sqHead := 0, sqTail := 0, cqHead := 0, cqTail := 0, phase := true, busy := false } := by
  have hsq := of_or_bit31 (f := R.FNC_F_Q_CTRL_sq_log) (by decide) d
  have hcq := of_or_bit31 (f := R.FNC_F_Q_CTRL_cq_log) (by decide) d
  have hvec := of_or_bit31 (f := R.FNC_F_Q_CTRL_vector) (by decide) d
  simp only [State.qpCtrl, hen, bitOf_or_bit31, hsq, hcq, hvec, Bool.false_eq_true, if_false, Bool.not_true]

/-- en = 0 for an enabled pair aborts it. -/
theorem qpCtrl_disable {s : State} {f : Nat} (d : Word) (cids : List Nat) (hen : (s.qp f (s.qpSel f)).en = true) :
    s.qpCtrl f (d &&& 0x7FFFFFFF#32) cids = s.qpAbort f (s.qpSel f) cids := by
  simp only [State.qpCtrl, hen, bitOf_and_bit31, if_true, Bool.false_eq_true, if_false]

section
variable {s t : State} {r : Req} {d : Word} {f : Nat} (hreach : s.reachesFn r 0x410 f = true)
include hreach

theorem exec_qEnable (ht : s.start.qpCtrl f (d ||| BitVec.ofNat 32 (2 ^ 31)) [] = t) : exec (.qEnable r d) s = .next t :=
  congrArg Host.Outcome.next ((fnAccess_of_reaches (fun s f => s.qpCtrl f (d ||| BitVec.ofNat 32 (2 ^ 31)) []) hreach).trans ht)

theorem exec_qDisable {cids : List Nat} (ht : s.start.qpCtrl f (d &&& 0x7FFFFFFF#32) cids = t) :
    exec (.qDisable r d cids) s = .next t :=
  congrArg Host.Outcome.next ((fnAccess_of_reaches (fun s f => s.qpCtrl f (d &&& 0x7FFFFFFF#32) cids) hreach).trans ht)

end

/-! ### The end of a pair (R323) -/

theorem msix_pairs (s : State) (f v : Nat) : (s.msix f v).pairs = s.pairs := by
  unfold State.msix
  repeat' split
  all_goals rfl

theorem hostWrite_pairs (s : State) (f a : Nat) (bs : List Byte) : (s.hostWrite f a bs).pairs = s.pairs := by
  unfold State.hostWrite
  repeat' split
  all_goals rfl

theorem qp_congr {s t : State} (h : t.pairs = s.pairs) (f q : Nat) : t.qp f q = s.qp f q := by
  rw [State.qp, State.qp, h]

/-- A completion moves its pair's indices, not its rings. -/
theorem complete_sqBase (s : State) (f q result aux status cid : Nat) :
    ((s.complete f q result aux status cid).qp f q).sqBase = (s.qp f q).sqBase := by
  unfold State.complete
  dsimp only
  split
  · rfl
  · rw [qp_congr (msix_pairs ..), qp_setQp_same]

theorem foldl_complete_sqBase (moves : List Move) (s : State) (f q status : Nat) :
    ((moves.foldl (fun t m => t.complete f q 0 0 status m.cid) s).qp f q).sqBase = (s.qp f q).sqBase := by
  induction moves generalizing s with
  | nil => rfl
  | cons m moves ih => exact (ih _).trans (complete_sqBase ..)

theorem pairGone_sqBase (s : State) (f q status : Nat) (cids : List Nat) (n : Nat) :
    ((State.pairGone s f q status cids n).1.qp f q).sqBase = (s.qp f q).sqBase := by
  induction n with
  | zero => rfl
  | succ n ih =>
    rw [State.pairGone]
    exact (complete_sqBase ..).trans ((congrArg QPair.sqBase (qp_setQp_same ..)).trans ih)

/-- An aborted pair is off and keeps its submission ring. -/
theorem qpAbort_qp (s : State) (f q : Nat) (cids : List Nat) :
    ((s.qpAbort f q cids).qp f q).en = false ∧ ((s.qpAbort f q cids).qp f q).sqBase = (s.qp f q).sqBase := by
  unfold State.qpAbort
  extract_lets run dropped completed gone t
  rw [qp_setQp_same]
  exact ⟨rfl, (pairGone_sqBase ..).trans (foldl_complete_sqBase ..)⟩

/-- No queue stays bound to an aborted pair. -/
theorem qpAbort_bind {s : State} {f q : Nat} {cids : List Nat} {n : Nat} {b : Bind}
    (h : ((s.qpAbort f q cids).queue n).bind = some b) : b.fn ≠ f ∨ b.qp ≠ q := by
  unfold State.qpAbort at h
  have hkept : (b.fn == f && b.qp == q) = false := queue_unbind_bind h
  exact (Bool.and_eq_false_iff.mp hkept).imp beq_eq_false_iff_ne.mp beq_eq_false_iff_ne.mp

/-- An aborted pair's pool queues stay with their functions: only registers of the function itself change. -/
theorem qpAbort_rd_iQue (s : State) {f : Nat} (hf : f < 512) (q : Nat) (cids : List Nat) (n : Nat) (g : Fld) :
    (s.qpAbort f q cids).rd (iQue n) g = s.rd (iQue n) g := by
  have hkeeps : Keeps [.host, .queues] (· == iFn f) s (s.qpAbort f q cids) :=
    State.qpAbort_keeps (beq_self_eq_true _) (by decide) (by decide) (.refl _ _ _)
  refine BusLedger.keeps_rd hkeeps (beq_eq_false_iff_ne.mpr ?_) g
  unfold iQue iFn
  omega

/-! ### Doorbells (R324) -/

theorem dbIgnore_keeps (s : State) (f : Nat) : Keeps [] (· == iFn f) s (s.dbIgnore f) :=
  State.dbIgnore_keeps (beq_self_eq_true _) (.refl _ _ _)

theorem dbIgnore_pairs (s : State) (f : Nat) : (s.dbIgnore f).pairs = s.pairs := by
  obtain ⟨-, -, hpairs, -⟩ := by simpa only [Part.same, Prod.mk.injEq] using (dbIgnore_keeps s f).same .host List.not_mem_nil
  exact hpairs

theorem dbIgnore_queues (s : State) (f : Nat) : (s.dbIgnore f).queues = s.queues := by
  obtain ⟨hqueues, -⟩ := by simpa only [Part.same, Prod.mk.injEq] using (dbIgnore_keeps s f).same .queues List.not_mem_nil
  exact hqueues

/-- An ignored doorbell sets FNC_F_EVT.db_ignored. -/
theorem dbIgnore_evt (s : State) (f : Nat) : ((s.dbIgnore f).rd (iFn f) R.FNC_F_EVT_evt).testBit 1 = true := by
  have hevt (t : State) : ((t.setBits (iFn f) R.FNC_F_EVT_evt 2).rd (iFn f) R.FNC_F_EVT_evt).testBit 1 = true := by
    rw [State.rd_setBits, if_pos rfl, Nat.testBit_mod_two_pow, Nat.testBit_or, show Nat.testBit 2 1 = true by decide, Bool.or_true]
    decide
  have hne : ((s.bump (iFn f) R.FNC_F_DB_IGN_count 1).setBits (iFn f) R.FNC_F_EVT_evt 2).rd (iFn f) R.FNC_F_EVT_evt ≠ 0 :=
    fun hzero => absurd (hzero ▸ hevt _) (by decide)
  rw [State.dbIgnore, rd_fnEvent_of_ne_zero rfl hne, hevt]

/-- An ignored doorbell is counted. -/
theorem dbIgnore_count (s : State) (f : Nat) :
    (s.dbIgnore f).rd (iFn f) R.FNC_F_DB_IGN_count = min (s.rd (iFn f) R.FNC_F_DB_IGN_count + 1) (2 ^ 32 - 1) := by
  have hkey : R.FNC_F_EVT_evt.key (iFn f) ≠ R.FNC_F_DB_IGN_count.key (iFn f) := by
    simp only [Fld.key, R.FNC_F_EVT_evt, R.FNC_F_DB_IGN_count]
    omega
  have hcount : ((s.bump (iFn f) R.FNC_F_DB_IGN_count 1).setBits (iFn f) R.FNC_F_EVT_evt 2).rd (iFn f) R.FNC_F_DB_IGN_count =
      min (s.rd (iFn f) R.FNC_F_DB_IGN_count + 1) (2 ^ 32 - 1) := by
    rw [State.rd_setBits, if_neg hkey, State.rd_bump, if_pos rfl]
    rfl
  rw [State.dbIgnore, rd_fnEvent_of_ne_zero rfl (by rw [hcount]; omega), hcount]

/-- The parts of the word that a doorbell writes. -/
theorem dbWord_parts {kind : Nat} (hkind : kind < 4) (d : Word) :
    bitsOf (dbWord kind d).toNat 30 2 = kind ∧ bitsOf (dbWord kind d).toNat 16 10 = d.toNat / 2 ^ 16 % 2 ^ 10 ∧
      (dbWord kind d).toNat % 65536 = d.toNat % 2 ^ 16 := by
  rw [dbWord_toNat hkind, bitsOf, bitsOf, Nat.shiftRight_eq_div_pow, Nat.shiftRight_eq_div_pow]
  omega

section
variable {s : State} {d : Word} {f q v : Nat} (hq : d.toNat / 2 ^ 16 % 2 ^ 10 = q) (hv : d.toNat % 2 ^ 16 = v)
include hq

/-- A function that is not ENABLED and a pair that is not enabled take no doorbell. -/
theorem doorbell_off {kind : Nat} (hkind : kind < 4) (hoff : s.fnState f ≠ 1 ∨ (s.qp f q).en = false) :
    s.doorbell f (dbWord kind d) = s.dbIgnore f := by
  obtain ⟨-, hpair, -⟩ := dbWord_parts hkind d
  rw [State.doorbell, hpair, hq]
  exact if_pos (hoff.imp_right fun hen => by rw [hen]; rfl)

include hv
variable (hstate : s.fnState f = 1) (hen : (s.qp f q).en = true)
include hstate hen

theorem doorbell_sqTail : s.doorbell f (dbWord 0 d) =
    if 2 ^ (s.qp f q).sqLog ≤ v then s.dbIgnore f else s.setQp f q { s.qp f q with sqTail := v } := by
  obtain ⟨hkind, hpair, hindex⟩ := dbWord_parts (kind := 0) (by decide) d
  rw [hq] at hpair
  rw [hv] at hindex
  simp [State.doorbell, hkind, hpair, hindex, hstate, hen]

theorem doorbell_cqHead : s.doorbell f (dbWord 1 d) =
    if 2 ^ (s.qp f q).cqLog ≤ v then s.dbIgnore f else s.setQp f q { s.qp f q with cqHead := v } := by
  obtain ⟨hkind, hpair, hindex⟩ := dbWord_parts (kind := 1) (by decide) d
  rw [hq] at hpair
  rw [hv] at hindex
  simp [State.doorbell, hkind, hpair, hindex, hstate, hen]

theorem doorbell_deliveryHead : s.doorbell f (dbWord 2 d) =
    (s.boundQueue f q).elim (s.dbIgnore f) (fun x =>
      if x.2.slots ≤ v then s.dbIgnore f
      else s.setQueue x.1 { s.queue x.1 with bind := some { x.2 with used := (x.2.tail + x.2.slots - v) % x.2.slots } }) := by
  obtain ⟨hkind, hpair, hindex⟩ := dbWord_parts (kind := 2) (by decide) d
  rw [hq] at hpair
  rw [hv] at hindex
  cases hbound : s.boundQueue f q <;> simp [State.doorbell, hkind, hpair, hindex, hstate, hen, hbound]

end

/-- Every case of R324: off, or taken and then ignored because of what holds of its index and its binding, `bad`. -/
theorem doorbell_ignored {s : State} {d : Word} {f q kind : Nat} {bad : Prop} (hkind : kind < 4)
    (hq : d.toNat / 2 ^ 16 % 2 ^ 10 = q)
    (hbad : bad → s.fnState f = 1 → (s.qp f q).en = true → s.doorbell f (dbWord kind d) = s.dbIgnore f)
    (h : s.fnState f ≠ 1 ∨ (s.qp f q).en = false ∨ bad) : s.doorbell f (dbWord kind d) = s.dbIgnore f := by
  by_cases hoff : s.fnState f ≠ 1 ∨ (s.qp f q).en = false
  · exact doorbell_off hq hkind hoff
  · obtain ⟨hstate, hen⟩ := not_or.mp hoff
    exact hbad ((h.resolve_left hstate).resolve_left hen) (Decidable.of_not_not hstate) (eq_true_of_ne_false hen)

section
variable {s t : State} {r : Req} {d : Word} {f : Nat} (hreach : s.reachesFn r 0x408 f = true)
include hreach

theorem dbKind_of_reaches (kind : Nat) : s.start.dbKind r kind d = s.start.doorbell f (dbWord kind d) :=
  fnAccess_of_reaches (fun s f => s.doorbell f (dbWord kind d)) hreach

theorem exec_dbSqTail (ht : s.start.doorbell f (dbWord 0 d) = t) : exec (.dbSqTail r d) s = .next t :=
  congrArg Host.Outcome.next ((dbKind_of_reaches hreach 0).trans ht)

theorem exec_dbCqHead (ht : s.start.doorbell f (dbWord 1 d) = t) : exec (.dbCqHead r d) s = .next t :=
  congrArg Host.Outcome.next ((dbKind_of_reaches hreach 1).trans ht)

theorem exec_dbDeliveryHead (ht : s.start.doorbell f (dbWord 2 d) = t) : exec (.dbDeliveryHead r d) s = .next t :=
  congrArg Host.Outcome.next ((dbKind_of_reaches hreach 2).trans ht)

end

end Sys2Proof.Machine.HostPairs

namespace Sys2Proof.Machine
open HostPairs

/-- Settles O38: what a write that reaches a function makes of the pair, of its binding, or, where it is ignored, of the count. -/
theorem queuePairs : Obligations.QueuePairs := by
  unfold Obligations.QueuePairs
  refine ⟨fun s r d f hr hen _ _ _ _ _ _ => ?_, fun s r d f hr hen href => ?_, fun s r d cids f hr _ hen => ?_,
    fun s r d f q v hr hst hq hv hen hlt => ?_, fun s r d f q v hr hst hq hv hen hlt => ?_,
    fun s r d f q v n b hr hst hq hv hen hbound hlt => ?_, fun s r d f q v hr hq hv hign => ?_, fun s r d f q v hr hq hv hign => ?_,
    fun s r d f q v hr hq hv hign => ?_⟩
  · have hok : ¬Refused s f.val d := by unfold Refused; omega
    exact ⟨_, exec_qEnable hr ((qpCtrl_enable (s := s.start) d hen).trans (if_neg hok)), qp_setQp_same ..⟩
  · refine ⟨_, exec_qEnable hr ((qpCtrl_enable (s := s.start) d hen).trans (if_pos href)), ?_⟩
    rw [show s.start.qpSel f.val = s.qpSel f.val from rfl, qp_setQp_same]
    exact ⟨hen, rfl⟩
  · obtain ⟨hoff, hbase⟩ := qpAbort_qp s.start f.val (s.qpSel f.val) cids
    exact ⟨_, exec_qDisable hr (qpCtrl_disable d cids hen), hoff, hbase, fun _ _ => qpAbort_bind,
      fun q => qpAbort_rd_iQue s.start f.isLt _ _ q _⟩
  · exact ⟨_, exec_dbSqTail hr ((doorbell_sqTail (s := s.start) hq hv hst hen).trans (if_neg (Nat.not_le.mpr hlt))),
      qp_setQp_same .., rfl⟩
  · exact ⟨_, exec_dbCqHead hr ((doorbell_cqHead (s := s.start) hq hv hst hen).trans (if_neg (Nat.not_le.mpr hlt))),
      qp_setQp_same .., rfl⟩
  · have hmove := doorbell_deliveryHead (s := s.start) hq hv hst hen
    rw [show s.start.boundQueue f.val q = some (n, b) from hbound] at hmove
    refine ⟨_, exec_dbDeliveryHead hr (hmove.trans (if_neg (Nat.not_le.mpr hlt))), ?_⟩
    rw [queue_setQueue_same]
    exact ⟨rfl, rfl⟩
  · exact ⟨_, exec_dbSqTail hr (doorbell_ignored (by decide) hq
      (fun hbad hst hen => (doorbell_sqTail hq hv hst hen).trans (if_pos hbad)) hign),
      dbIgnore_pairs .., dbIgnore_evt .., dbIgnore_count ..⟩
  · exact ⟨_, exec_dbCqHead hr (doorbell_ignored (by decide) hq
      (fun hbad hst hen => (doorbell_cqHead hq hv hst hen).trans (if_pos hbad)) hign),
      dbIgnore_pairs .., dbIgnore_evt .., dbIgnore_count ..⟩
  · refine ⟨_, exec_dbDeliveryHead hr (doorbell_ignored (by decide) hq (fun hbad hst hen => ?_) hign),
      dbIgnore_queues .., dbIgnore_evt .., dbIgnore_count ..⟩
    rw [doorbell_deliveryHead hq hv hst hen]
    cases hbound : s.start.boundQueue f.val q with
    | none => rfl
    | some x =>
      rw [show s.boundQueue f.val q = some x from hbound] at hbad
      exact if_pos (of_decide_eq_true hbad)

end Sys2Proof.Machine
end

section
/-! PROOFS. Items and flush of the queue pool (15_queue_pool.md): O36 holds.

A first word, the end of an item, a flush and a disable are each described once, by what they make of the queue, of the pool and of the
port. Two facts carry all of it: the crossing of a watermark (`State.qCross`), which follows every allocation and release, changes only
the crossing's own registers, and a pool hands out as many cells as QPM_FREE says, whatever its two kinds of cells (R344). -/
namespace Sys2Proof.Machine.QueuePool
open BusLedger HostPairs

/-! ### Registers -/

/-- Only channel pages signal messages (R262): a page below them records its causes. -/
theorem raise_eq_setBits {p : Nat} (hp : p < 0x100) (s : State) (bits : Nat) :
    s.raise p bits = s.setBits p R.INT_STAT bits := by
  have hpage : ¬(0x100 ≤ p ∧ p < 0x300) := by omega
  simp [State.raise, State.irqEdge, State.irqMsix, hpage]

theorem raise_pgQpm (s : State) (bits : Nat) : s.raise pgQpm bits = s.setBits pgQpm R.INT_STAT bits :=
  raise_eq_setBits (by decide) s bits

theorem raise_pgGrd (s : State) (bits : Nat) : s.raise pgGrd bits = s.setBits pgGrd R.INT_STAT bits :=
  raise_eq_setBits (by decide) s bits

/-- A raised cause reads 1 in xxx_INT_STAT. -/
theorem testBit_raise (s : State) {p bits i : Nat} (hp : p < 0x100) (hi : i < 32) (hbit : bits.testBit i = true) :
    ((s.raise p bits).rd p R.INT_STAT).testBit i = true := by
  have hw : R.INT_STAT.w = 32 := rfl
  rw [raise_eq_setBits hp, State.rd_setBits, if_pos rfl, hw, Nat.testBit_mod_two_pow, Nat.testBit_or, hbit, Bool.or_true,
    decide_eq_true hi]
  rfl

theorem rd_raise_pgQpm (s : State) (bits : Nat) {j : Nat} {g : Fld} (h : R.INT_STAT.key pgQpm ≠ g.key j) :
    (s.raise pgQpm bits).rd j g = s.rd j g := by
  rw [raise_pgQpm, State.rd_setBits, if_neg h]

theorem pgQpm_ne_iQue (q : Nat) : pgQpm ≠ iQue q := by
  unfold pgQpm iQue
  omega

theorem pgLgr_ne_iQue (q : Nat) : pgLgr ≠ iQue q := by
  unfold pgLgr iQue
  omega

theorem pgGrd_ne_iQue (q : Nat) : pgGrd ≠ iQue q := by
  unfold pgGrd iQue
  omega

/-- Fields at different places of a register group are different in all groups. -/
theorem key_ne_of_place {f g : Fld} (h : f.key 0 ≠ g.key 0) (i j : Nat) : f.key i ≠ g.key j :=
  fun e => h (key_eq_iff.mpr ⟨rfl, (key_eq_iff.mp e).2⟩)

/-! ### The crossing of a watermark (R349, R350) -/

/-- The fields of a queue that a crossing writes. -/
def crossed : List Fld :=
  [R.QPM_Q_STAT_live_hi, R.QPM_Q_STAT_hi_seen, R.QPM_Q_XCNT_hi, R.QPM_Q_STAT_lo_seen, R.QPM_Q_XCNT_lo]

/-- A crossing is none, or a change of live_hi to 1 or to 0 with its seen bit, its count and its cause. -/
theorem qCross_cases (s : State) (q : Nat) :
    s.qCross q = s ∨
      s.qCross q = (((s.wr (iQue q) R.QPM_Q_STAT_live_hi 1).wr (iQue q) R.QPM_Q_STAT_hi_seen 1).bump
        (iQue q) R.QPM_Q_XCNT_hi 1).raise pgQpm 1 ∨
      s.qCross q = (((s.wr (iQue q) R.QPM_Q_STAT_live_hi 0).wr (iQue q) R.QPM_Q_STAT_lo_seen 1).bump
        (iQue q) R.QPM_Q_XCNT_lo 1).raise pgQpm 2 := by
  unfold State.qCross
  extract_lets i n hi lo lo' live
  split
  · exact .inr (.inl rfl)
  · split
    · exact .inr (.inr rfl)
    · exact .inl rfl

/-- A crossing changes registers only. -/
theorem qCross_eq_fields (s : State) (q : Nat) : ∃ m, s.qCross q = { s with fields := m } := by
  rcases qCross_cases s q with h | h | h
  · exact ⟨s.fields, h⟩
  · exact ⟨_, h.trans (raise_pgQpm ..)⟩
  · exact ⟨_, h.trans (raise_pgQpm ..)⟩

@[simp] theorem qCross_queues (s : State) (q : Nat) : (s.qCross q).queues = s.queues := by
  obtain ⟨m, h⟩ := qCross_eq_fields s q
  rw [h]

@[simp] theorem qCross_pool (s : State) (q : Nat) : (s.qCross q).pool = s.pool := by
  obtain ⟨m, h⟩ := qCross_eq_fields s q
  rw [h]

@[simp] theorem qCross_portQ (s : State) (q : Nat) : (s.qCross q).portQ = s.portQ := by
  obtain ⟨m, h⟩ := qCross_eq_fields s q
  rw [h]

@[simp] theorem qCross_grd (s : State) (q : Nat) : (s.qCross q).grd = s.grd := by
  obtain ⟨m, h⟩ := qCross_eq_fields s q
  rw [h]

theorem queue_qCross (s : State) (q n : Nat) : (s.qCross q).queue n = s.queue n := by
  rw [State.queue, qCross_queues, State.queue]

/-- Of the registers, a crossing changes the queue's crossing fields and QPM_INT_STAT. -/
theorem rd_qCross {s : State} {q j : Nat} {g : Fld} (hq : ∀ f ∈ crossed, f.key (iQue q) ≠ g.key j)
    (hint : R.INT_STAT.key pgQpm ≠ g.key j) : (s.qCross q).rd j g = s.rd j g := by
  simp only [crossed, List.forall_mem_cons] at hq
  obtain ⟨hlive, hhiSeen, hhiCount, hloSeen, hloCount, -⟩ := hq
  rcases qCross_cases s q with h | h | h
  · rw [h]
  · rw [h, rd_raise_pgQpm _ _ hint, State.rd_bump, if_neg hhiCount, State.rd_wr_other _ _ _ _ _ _ hhiSeen,
      State.rd_wr_other _ _ _ _ _ _ hlive]
  · rw [h, rd_raise_pgQpm _ _ hint, State.rd_bump, if_neg hloCount, State.rd_wr_other _ _ _ _ _ _ hloSeen,
      State.rd_wr_other _ _ _ _ _ _ hlive]

theorem rd_qCross_pgQpm {s : State} {q : Nat} {g : Fld} (h : R.INT_STAT.key pgQpm ≠ g.key pgQpm) :
    (s.qCross q).rd pgQpm g = s.rd pgQpm g :=
  rd_qCross (fun _ _ => key_ne (pgQpm_ne_iQue q).symm) h

theorem rd_qCross_iQue {s : State} {q n : Nat} {g : Fld} (h : ∀ f ∈ crossed, f.key 0 ≠ g.key 0) :
    (s.qCross q).rd (iQue n) g = s.rd (iQue n) g :=
  rd_qCross (fun f hf => key_ne_of_place (h f hf) _ _) (key_ne (pgQpm_ne_iQue n))

/-! ### The cells of the pool (R344) -/

/-- The cells that a pool of `size` cells can still hand out, never-used ones and freed ones. -/
def cellsLeft (size : Nat) (p : Pool) : Nat := size - p.fresh + p.freed.length

theorem cellsLeft_take {size : Nat} {p : Pool} (h : 0 < cellsLeft size p) : cellsLeft size p.take.1 = cellsLeft size p - 1 := by
  unfold cellsLeft at *
  unfold Pool.take
  split
  · next hfreed =>
    rw [hfreed, List.length_cons]
    rfl
  · next hfreed =>
    rw [hfreed] at h ⊢
    simp only [List.length_nil] at h ⊢
    omega

theorem cellsLeft_takeN {size n : Nat} {p : Pool} (h : n ≤ cellsLeft size p) :
    cellsLeft size (p.takeN n).1 = cellsLeft size p - n := by
  induction n generalizing p with
  | zero => rfl
  | succ n ih =>
    have htake := cellsLeft_take (size := size) (p := p) (by omega)
    rw [Pool.takeN, ih (by omega), htake]
    omega

theorem length_takeN (p : Pool) (n : Nat) : (p.takeN n).2.length = n := by
  induction n generalizing p with
  | zero => rfl
  | succ n ih => rw [Pool.takeN, List.length_cons, ih]

theorem cellsLeft_free (size : Nat) (p : Pool) (l : List Nat) : cellsLeft size (p.free l) = cellsLeft size p + l.length := by
  simp only [cellsLeft, Pool.free, List.length_append, List.length_reverse]
  omega

/-- The registers of QPM_FREE: whether the pool is on, and its size. -/
def poolRegs : List Fld := [R.CTRL_enable pgQpm, R.QPM_POOL_STAT_mem_off, R.QPM_POOL_size]

theorem qpmFree_eq (s : State) : s.qpmFree = if s.poolOn then cellsLeft s.poolCells s.pool else 0 := rfl

/-- QPM_FREE of a state whose pool has the settings of another. -/
theorem qpmFree_of_rd {s t : State} (h : ∀ g ∈ poolRegs, t.rd pgQpm g = s.rd pgQpm g) :
    t.qpmFree = if s.poolOn then cellsLeft s.poolCells t.pool else 0 := by
  simp only [poolRegs, List.forall_mem_cons] at h
  obtain ⟨henable, hmemOff, hsize, -⟩ := h
  have hon : t.poolOn = s.poolOn := by simp only [State.poolOn, State.rdB, henable, hmemOff]
  have hcells : t.poolCells = s.poolCells := by rw [State.poolCells, hsize, State.poolCells]
  rw [qpmFree_eq, hon, hcells]

/-! ### Waiting ports (R345) -/

theorem and_two_pow_of_testBit {n i : Nat} (h : n.testBit i = true) : n &&& 2 ^ i = 2 ^ i := by
  refine Nat.eq_of_testBit_eq fun j => ?_
  rw [Nat.testBit_and, Nat.testBit_two_pow]
  by_cases hj : i = j
  · rw [← hj, h, Bool.true_and]
  · rw [decide_eq_false hj, Bool.and_false]

theorem and_two_pow_of_not_testBit {n i : Nat} (h : n.testBit i = false) : n &&& 2 ^ i = 0 := by
  refine Nat.eq_of_testBit_eq fun j => ?_
  rw [Nat.testBit_and, Nat.testBit_two_pow, Nat.zero_testBit]
  by_cases hj : i = j
  · rw [← hj, h, Bool.false_and]
  · rw [decide_eq_false hj, Bool.and_false]

theorem testBit_sub_and_two_pow (n i : Nat) : (n - (n &&& 2 ^ i)).testBit i = false := by
  cases h : n.testBit i with
  | false => rw [and_two_pow_of_not_testBit h, Nat.sub_zero, h]
  | true =>
    have hdiv := Nat.sub_mul_div n (2 ^ i) 1
    rw [Nat.mul_one] at hdiv
    rw [and_two_pow_of_testBit h, Nat.testBit_eq_decide_div_mod_eq, decide_eq_false]
    rw [Nat.testBit_eq_decide_div_mod_eq, decide_eq_true_eq] at h
    omega

theorem portWaits_portWait (s : State) {p : Nat} (hp : p < 3) : (s.portWait p).portWaits p = true := by
  have hw : R.QPM_PORT_STAT_waiting.w = 3 := rfl
  rw [State.portWaits, State.portWait, State.rd_setBits, if_pos rfl, hw, bitOf, Nat.testBit_mod_two_pow, Nat.testBit_or,
    Nat.testBit_two_pow_self, Bool.or_true, decide_eq_true hp]
  rfl

theorem portWaits_portGo (s : State) (p : Nat) : (s.portGo p).portWaits p = false := by
  rw [State.portWaits, State.portGo, State.rd_clrBits, if_pos rfl, bitOf, Nat.testBit_mod_two_pow, testBit_sub_and_two_pow,
    Bool.and_false]

/-! ### Admission (R345, R219) -/

/-- The state once the head item of port `p` has its cells, before a cell record leaves its output slot. -/
def reserve (s : State) (p : Nat) (it : Item) : State :=
  let a := s.pool.takeN (cellsFor it.bytes.length)
  let x := s.queue it.queue
  let t := { s with pool := a.1, portQ := s.portQ.set p (it.queue + 1) }
  ((t.setQueue it.queue { x with prog := some (p, { len := it.bytes.length, cells := a.2 }) }).portGo p).qCross it.queue

theorem admission_eq (s : State) (p : Nat) (it : Item) :
    s.admission p it = if p = 2 then ((reserve s p it).grdFree it.sf).raise pgGrd 2 else reserve s p it := rfl

/-- What an admission makes of the queues, the pool, the ports and the registers outside the GRD page is the reservation. -/
theorem admission_reserve (s : State) (p : Nat) (it : Item) :
    (s.admission p it).queues = (reserve s p it).queues ∧ (s.admission p it).pool = (reserve s p it).pool ∧
      (s.admission p it).portQ = (reserve s p it).portQ ∧
      ∀ j g, pgGrd ≠ j → (s.admission p it).rd j g = (reserve s p it).rd j g := by
  rw [admission_eq]
  split
  · rw [raise_pgGrd]
    exact ⟨rfl, rfl, rfl, fun j g hj => rd_wr_inst _ hj _ _ _⟩
  · exact ⟨rfl, rfl, rfl, fun _ _ _ => rfl⟩

section
variable (s : State) (p : Nat) (it : Item)

theorem rd_reserve_pgQpm {g : Fld} (hint : R.INT_STAT.key pgQpm ≠ g.key pgQpm)
    (hwait : R.QPM_PORT_STAT_waiting.key pgQpm ≠ g.key pgQpm) : (reserve s p it).rd pgQpm g = s.rd pgQpm g :=
  (rd_qCross_pgQpm hint).trans (State.rd_wr_other _ _ _ _ _ _ hwait)

theorem portBusy_admission : (s.admission p it).portBusy p = true := by
  obtain ⟨-, -, hportQ, -⟩ := admission_reserve s p it
  have hset : (reserve s p it).portQ = s.portQ.set p (it.queue + 1) := qCross_portQ ..
  rw [State.portBusy, hportQ, hset, SMap.get_set, if_pos rfl]
  rfl

theorem portWaits_admission : (s.admission p it).portWaits p = false := by
  obtain ⟨-, -, -, hrd⟩ := admission_reserve s p it
  rw [State.portWaits, hrd _ _ (by decide), reserve, rd_qCross_pgQpm (by decide)]
  exact portWaits_portGo _ p

/-- An admitted item is in progress with its cells reserved. -/
theorem queue_admission :
    (s.admission p it).queue it.queue =
      { s.queue it.queue with
        prog := some (p, { len := it.bytes.length, cells := (s.pool.takeN (cellsFor it.bytes.length)).2 }) } := by
  obtain ⟨hqueues, -⟩ := admission_reserve s p it
  rw [State.queue, hqueues, ← State.queue, reserve, queue_qCross]
  exact queue_setQueue_same ..

theorem qpmFree_admission (hfree : cellsFor it.bytes.length ≤ s.qpmFree) :
    (s.admission p it).qpmFree = s.qpmFree - cellsFor it.bytes.length := by
  obtain ⟨-, hpool, -, hrd⟩ := admission_reserve s p it
  have hregs : ∀ g ∈ poolRegs, (s.admission p it).rd pgQpm g = s.rd pgQpm g := by
    have hkeys : ∀ g ∈ poolRegs, R.INT_STAT.key pgQpm ≠ g.key pgQpm ∧ R.QPM_PORT_STAT_waiting.key pgQpm ≠ g.key pgQpm := by decide
    intro g hg
    obtain ⟨hint, hwait⟩ := hkeys g hg
    rw [hrd _ _ (by decide), rd_reserve_pgQpm s p it hint hwait]
  have htaken : (reserve s p it).pool = (s.pool.takeN (cellsFor it.bytes.length)).1 := qCross_pool ..
  rw [qpmFree_eq] at hfree
  rw [qpmFree_of_rd hregs, qpmFree_eq, hpool, htaken]
  by_cases hon : s.poolOn = true
  · rw [if_pos hon] at hfree
    rw [if_pos hon, if_pos hon, cellsLeft_takeN hfree]
  · rw [if_neg hon, if_neg hon, Nat.zero_sub]

/-- An admission counts no refusal. -/
theorem rd_refuse_admission (n : Nat) :
    (s.admission p it).rd (iQue n) R.QPM_Q_REFUSE_count = s.rd (iQue n) R.QPM_Q_REFUSE_count := by
  obtain ⟨-, -, -, hrd⟩ := admission_reserve s p it
  rw [hrd _ _ (pgGrd_ne_iQue n), reserve, rd_qCross_iQue (by decide), State.portGo, State.clrBits, rd_wr_inst _ (pgQpm_ne_iQue n)]
  rfl

end

/-- An admitted cell record leaves its output slot to the one that waits for it (R219). -/
theorem gr_admission_record (s : State) (it : Item) :
    (s.admission 2 it).gr it.sf = { s.gr it.sf with out := (s.gr it.sf).wait, wait := none } := by
  have hgrd : (reserve s 2 it).grd = s.grd := qCross_grd ..
  rw [admission_eq, if_pos rfl, raise_pgGrd]
  simp [State.gr, State.grdFree, State.modGr, State.setGr, hgrd]

/-! ### What a port offers (R345, R346) -/

/-- The pool marks that it lacks `c` cells. -/
def markLack (s : State) (c : Nat) : State :=
  if s.qpmFree < c then (s.wr pgQpm R.QPM_POOL_STAT_pool_empty 1).raise pgQpm 4 else s

theorem markLack_parts (s : State) (c : Nat) :
    (markLack s c).queues = s.queues ∧ (markLack s c).ports = s.ports ∧ (markLack s c).portQ = s.portQ ∧
      ∀ n g, (markLack s c).rd (iQue n) g = s.rd (iQue n) g := by
  unfold markLack
  split
  · rw [raise_pgQpm]
    exact ⟨rfl, rfl, rfl, fun n g => (rd_wr_inst _ (pgQpm_ne_iQue n) _ _ _).trans (rd_wr_inst _ (pgQpm_ne_iQue n) _ _ _)⟩
  · exact ⟨rfl, rfl, rfl, fun _ _ => rfl⟩

section
variable {s : State} {p : Nat} {it : Item} {rest : List Item} (hport : s.port p = it :: rest)
include hport

theorem portOffer_admits {fresh : Bool} (hen : s.rd (iQue it.queue) R.QPM_Q_CFG_en = 1)
    (hok : s.qRefuses it.queue (cellsFor it.bytes.length) = false) : s.portOffer p fresh = s.admission p it := by
  simp [State.portOffer, hport, State.rdB, hen, hok]

theorem portOffer_refuses (hen : s.rd (iQue it.queue) R.QPM_Q_CFG_en = 1)
    (href : s.qRefuses it.queue (cellsFor it.bytes.length) = true) :
    s.portOffer p true =
      ((markLack s (cellsFor it.bytes.length)).bump (iQue it.queue) R.QPM_Q_REFUSE_count 1).portWait p := by
  simp [State.portOffer, hport, State.rdB, hen, href, markLack]

theorem portOffer_disabled {fresh : Bool} (hen : s.rd (iQue it.queue) R.QPM_Q_CFG_en = 0) :
    s.portOffer p fresh =
      if p = 2 then s.portWait p
      else (((s.portPop p).portGo p).bump pgQpm R.QPM_DISC_DISABLED_items 1).raise pgQpm 16 := by
  simp [State.portOffer, hport, State.rdB, hen]

end

/-- A queue refuses no item that it and the pool have room for while none is in progress. -/
theorem qRefuses_eq_false {s : State} {q c : Nat} (hprog : (s.queue q).prog = none) (hdisc : (s.queue q).disc = none)
    (hmax : (s.queue q).count + c ≤ s.rd (iQue q) R.QPM_Q_MAX_cells) (hfree : c ≤ s.qpmFree) : s.qRefuses q c = false := by
  simp [State.qRefuses, hprog, hdisc, hmax, hfree]

theorem qRefuses_of_limit {s : State} {q c : Nat} (h : s.rd (iQue q) R.QPM_Q_MAX_cells < (s.queue q).count + c) :
    s.qRefuses q c = true := by
  simp [State.qRefuses, h]

/-- The head item leaves its port; of the registers, only LGR_REC_COUNT can change. -/
theorem portPop_parts (s : State) (p : Nat) :
    (s.portPop p).ports = s.ports.set p (s.port p).tail ∧ (s.portPop p).queues = s.queues ∧ (s.portPop p).pool = s.pool ∧
      (s.portPop p).portQ = s.portQ ∧ (s.portPop p).mem = s.mem ∧ ∀ j g, pgLgr ≠ j → (s.portPop p).rd j g = s.rd j g := by
  unfold State.portPop
  dsimp only
  split
  · exact ⟨rfl, rfl, rfl, rfl, rfl, fun j g hj => rd_wr_inst _ hj _ _ _⟩
  · exact ⟨rfl, rfl, rfl, rfl, rfl, fun _ _ _ => rfl⟩

theorem port_portPop {s : State} {p : Nat} {it : Item} {rest : List Item} (h : s.port p = it :: rest) :
    (s.portPop p).port p = rest := by
  obtain ⟨hports, -⟩ := portPop_parts s p
  rw [State.port, hports, SMap.get_set, if_pos rfl, h, List.tail_cons]

/-- The offer of an item for a disabled queue by port 0 or 1: the item is discarded and counted. -/
theorem portOffer_discards {s : State} {p : Nat} {it : Item} {rest : List Item} (hport : s.port p = it :: rest)
    (hen : s.rd (iQue it.queue) R.QPM_Q_CFG_en = 0) (hp : p ≠ 2) (fresh : Bool) :
    (s.portOffer p fresh).port p = rest ∧ ((s.portOffer p fresh).rd pgQpm R.INT_STAT).testBit 4 = true ∧
      (s.portOffer p fresh).rd pgQpm R.QPM_DISC_DISABLED_items = min (s.rd pgQpm R.QPM_DISC_DISABLED_items + 1) (2 ^ 32 - 1) ∧
      ∀ n g, (s.portOffer p fresh).rd (iQue n) g = s.rd (iQue n) g := by
  obtain ⟨-, -, -, -, -, hrd⟩ := portPop_parts s p
  rw [portOffer_disabled hport hen, if_neg hp]
  refine ⟨?_, testBit_raise _ (by decide) (by decide) (by decide), ?_, fun n g => ?_⟩
  · rw [raise_pgQpm]
    exact port_portPop hport
  · rw [rd_raise_pgQpm _ _ (by decide), State.rd_bump, if_pos rfl, State.portGo, State.rd_clrBits, if_neg (by decide),
      hrd _ _ (by decide)]
    rfl
  · rw [rd_raise_pgQpm _ _ (key_ne (pgQpm_ne_iQue n)), State.rd_bump, if_neg (key_ne (pgQpm_ne_iQue n)), State.portGo,
      State.rd_clrBits, if_neg (key_ne (pgQpm_ne_iQue n)), hrd _ _ (pgLgr_ne_iQue n)]

/-- The first offer of an item that its queue refuses: the port holds it and waits, and the refusal counts. -/
theorem portOffer_waits {s : State} {p : Nat} {it : Item} {rest : List Item} (hport : s.port p = it :: rest)
    (hen : s.rd (iQue it.queue) R.QPM_Q_CFG_en = 1) (href : s.qRefuses it.queue (cellsFor it.bytes.length) = true) (hp : p < 3) :
    (s.portOffer p true).portBusy p = s.portBusy p ∧ (s.portOffer p true).portWaits p = true ∧
      (s.portOffer p true).port p = s.port p ∧ (s.portOffer p true).queues = s.queues ∧
      (s.portOffer p true).rd (iQue it.queue) R.QPM_Q_REFUSE_count =
        min (s.rd (iQue it.queue) R.QPM_Q_REFUSE_count + 1) (2 ^ 32 - 1) := by
  obtain ⟨hqueues, hports, hportQ, hrd⟩ := markLack_parts s (cellsFor it.bytes.length)
  rw [portOffer_refuses hport hen href]
  refine ⟨congrArg (fun m => SMap.get 0 m p != 0) hportQ, portWaits_portWait _ hp, congrArg (SMap.get [] · p) hports, hqueues, ?_⟩
  rw [State.portWait, State.rd_setBits, if_neg (key_ne (pgQpm_ne_iQue _)), State.rd_bump, if_pos rfl, hrd]
  rfl

/-! ### Bytes in memory -/

theorem length_toBytes (n x : Nat) : (toBytes n x).length = n := by
  induction n generalizing x with
  | zero => rfl
  | succ n ih => rw [toBytes, List.length_cons, ih]

theorem ofBytes_toBytes (n x : Nat) : ofBytes (toBytes n x) = x % 256 ^ n := by
  induction n generalizing x with
  | zero => rw [Nat.pow_zero, Nat.mod_one]; rfl
  | succ n ih =>
    have hpow : 256 ^ (n + 1) = 256 * 256 ^ n := Nat.pow_succ'
    rw [toBytes, ofBytes, ih, BitVec.toNat_ofNat, hpow, Nat.mod_mul]

theorem writeBytes_append (m : Mem) (a : Nat) (xs ys : List Byte) :
    m.writeBytes a (xs ++ ys) = Mem.writeBytes (m.writeBytes a xs) (a + xs.length) ys := by
  induction xs generalizing m a with
  | nil => rfl
  | cons x xs ih =>
    rw [List.cons_append, Mem.writeBytes, ih, Mem.writeBytes, List.length_cons, Nat.add_right_comm, Nat.add_assoc]

theorem read_writeBytes_below {b a : Nat} (h : b < a) (m : Mem) (xs : List Byte) : Mem.read (m.writeBytes a xs) b = m.read b := by
  induction xs generalizing m a with
  | nil => rfl
  | cons x xs ih => rw [Mem.writeBytes, ih (by omega), Mem.read_write_other (by omega)]

theorem readBytes_writeBytes_below {b n a : Nat} (h : b + n ≤ a) (m : Mem) (xs : List Byte) :
    Mem.readBytes (m.writeBytes a xs) b n = m.readBytes b n := by
  induction n generalizing b with
  | zero => rfl
  | succ n ih => rw [Mem.readBytes, Mem.readBytes, read_writeBytes_below (by omega), ih (by omega)]

theorem readBytes_writeBytes {m : Mem} (hm : m.wf = true) (a : Nat) (xs : List Byte) :
    Mem.readBytes (m.writeBytes a xs) a xs.length = xs := by
  induction xs generalizing m a with
  | nil => rfl
  | cons x xs ih =>
    rw [Mem.writeBytes, List.length_cons, Mem.readBytes, ih (Mem.wf_write hm), read_writeBytes_below (Nat.lt_succ_self a),
      Mem.read_write_same hm]

/-- A piece of the bytes written reads back. -/
theorem readBytes_writeBytes_middle {m : Mem} (hm : m.wf = true) (a : Nat) (xs ys zs : List Byte) :
    Mem.readBytes (m.writeBytes a (xs ++ ys ++ zs)) (a + xs.length) ys.length = ys := by
  rw [writeBytes_append, writeBytes_append, readBytes_writeBytes_below (Nat.le_of_eq (by rw [List.length_append, Nat.add_assoc])),
    readBytes_writeBytes (Mem.wf_writeBytes hm)]

/-! ### The end of an item (R343, R348, R352) -/

/-- The state once port `p` has passed its end-of-item mark. -/
def endMark (s : State) (p : Nat) : State := ({ s with portQ := s.portQ.set p 0 } : State).portPop p

/-- An end-of-item mark frees its port; of the registers, only LGR_REC_COUNT can change. -/
theorem endMark_parts (s : State) (p : Nat) :
    (endMark s p).portBusy p = false ∧ (endMark s p).ports = s.ports.set p (s.port p).tail ∧ (endMark s p).pool = s.pool ∧
      (endMark s p).mem = s.mem ∧ ∀ j g, pgLgr ≠ j → (endMark s p).rd j g = s.rd j g := by
  obtain ⟨hports, -, hpool, hportQ, hmem, hrd⟩ := portPop_parts { s with portQ := s.portQ.set p 0 } p
  refine ⟨?_, hports, hpool, hmem, hrd⟩
  rw [State.portBusy, endMark, hportQ, SMap.get_set, if_pos rfl]
  rfl

/-- A queue that is not to be disabled stays as it is. -/
theorem qDisable_of_on {s : State} {q : Nat} (h : (s.queue q).off = false) : s.qDisable q = s := by
  simp [State.qDisable, h]

section
variable {s : State} {p q : Nat} (hq : s.portQ.get 0 p = q + 1)
include hq

theorem portBusy_of_portQ : s.portBusy p = true := by
  rw [State.portBusy, hq]
  rfl

/-- The mark of a discarded item ends the discarding (R352). -/
theorem itemEnd_discarding {n : Nat} (hdisc : (s.queue q).disc = some (p, n)) (hoff : (s.queue q).off = false) :
    s.itemEnd p =
      (((endMark s p).setQueue q { s.queue q with disc := none }).bump pgQpm R.QPM_FLUSH_DISCARD_words n).raise pgQpm 8 := by
  have hkept : (((((endMark s p).setQueue q { s.queue q with disc := none }).bump pgQpm R.QPM_FLUSH_DISCARD_words n).raise
      pgQpm 8).queue q).off = false := by
    rw [raise_pgQpm]
    exact (congrArg Queue.off (queue_setQueue_same ..)).trans hoff
  simp only [State.itemEnd, hq, Nat.add_sub_cancel, hdisc, ne_eq, not_true_eq_false, if_false]
  exact qDisable_of_on hkept

/-- The mark of an item in progress makes it visible, and its cells are written. -/
theorem itemEnd_complete {p' : Nat} {it : QItem} (hdisc : (s.queue q).disc = none) (hprog : (s.queue q).prog = some (p', it)) :
    s.itemEnd p =
      ((endMark s p).setQueue q { s.queue q with prog := none, items := (s.queue q).items ++ [it] }).writeCells true
        ((s.port p).headD {}).bytes it.cells := by
  simp only [State.itemEnd, hq, Nat.add_sub_cancel, hdisc, hprog]
  rfl

end

/-- The image of an item's only cell: a link word, the length, two bytes 0 and the data (R343). -/
theorem writeCells_single (s : State) (first : Bool) (bs : List Byte) (c : Nat) :
    ∃ link, s.writeCells first bs [c] =
      s.freeNext.store (s.poolBase + 256 * c) (toBytes 4 link ++ toBytes 2 (bs.take 248).length ++ toBytes 2 0 ++ bs.take 248) :=
  ⟨_, rfl⟩

theorem load_writeCells_single {s : State} (hwf : s.mem.wf = true) (first : Bool) {bs : List Byte} (hlen : bs.length ≤ 248) (c : Nat) :
    (s.writeCells first bs [c]).load (s.poolBase + 256 * c + 8) bs.length = bs ∧
      ofBytes ((s.writeCells first bs [c]).load (s.poolBase + 256 * c + 4) 2) = bs.length := by
  obtain ⟨link, h⟩ := writeCells_single s first bs c
  rw [h, List.take_of_length_le hlen]
  constructor
  · have hdata := readBytes_writeBytes_middle hwf (s.poolBase + 256 * c) (toBytes 4 link ++ toBytes 2 bs.length ++ toBytes 2 0) bs []
    rw [List.append_nil, List.length_append, List.length_append, length_toBytes, length_toBytes, length_toBytes] at hdata
    exact hdata
  · have hcount := readBytes_writeBytes_middle hwf (s.poolBase + 256 * c) (toBytes 4 link) (toBytes 2 bs.length) (toBytes 2 0 ++ bs)
    rw [← List.append_assoc, length_toBytes, length_toBytes] at hcount
    have hload : (s.freeNext.store (s.poolBase + 256 * c)
        (toBytes 4 link ++ toBytes 2 bs.length ++ toBytes 2 0 ++ bs)).load (s.poolBase + 256 * c + 4) 2 = toBytes 2 bs.length := hcount
    rw [hload, ofBytes_toBytes, Nat.mod_eq_of_lt (by omega)]

section
variable {s : State} {p q : Nat} (hq : s.portQ.get 0 p = q + 1)
include hq

/-- The end of an item of one cell. -/
theorem itemEnd_single {c p' : Nat} {it : Item} {rest : List Item} (hwf : s.mem.wf = true) (hport : s.port p = it :: rest)
    (hdisc : (s.queue q).disc = none) (hprog : (s.queue q).prog = some (p', { len := it.bytes.length, cells := [c] }))
    (hlen : it.bytes.length ≤ 248) :
    (s.itemEnd p).portBusy p = false ∧ (s.itemEnd p).port p = rest ∧
      (s.itemEnd p).queue q =
        { s.queue q with prog := none, items := (s.queue q).items ++ [{ len := it.bytes.length, cells := [c] }] } ∧
      (s.itemEnd p).load (s.poolBase + 256 * c + 8) it.bytes.length = it.bytes ∧
      ofBytes ((s.itemEnd p).load (s.poolBase + 256 * c + 4) 2) = it.bytes.length := by
  obtain ⟨hbusy, hports, -, hmem, hrd⟩ := endMark_parts s p
  rw [itemEnd_complete hq hdisc hprog, hport, List.headD_cons]
  generalize hu : (endMark s p).setQueue q
    { s.queue q with prog := none, items := (s.queue q).items ++ [{ len := it.bytes.length, cells := [c] }] } = u
  have hbase : u.poolBase = s.poolBase := by
    subst hu
    exact congrArg (fun n => 0x800000000 + 0x10000000 * n) (hrd pgQpm R.QPM_POOL_idx (by decide))
  have hwf' : u.mem.wf = true := by
    subst hu
    exact (congrArg Mem.wf hmem).trans hwf
  obtain ⟨hdata, hcount⟩ := load_writeCells_single hwf' true hlen c
  rw [hbase] at hdata hcount
  refine ⟨?_, ?_, ?_, hdata, hcount⟩
  · subst hu
    exact hbusy
  · subst hu
    have hrest : (endMark s p).port p = rest := by rw [State.port, hports, SMap.get_set, if_pos rfl, hport, List.tail_cons]
    exact hrest
  · subst hu
    exact queue_setQueue_same ..

/-- The end of an item that is discarded. -/
theorem itemEnd_discarded {n : Nat} (hdisc : (s.queue q).disc = some (p, n)) (hoff : (s.queue q).off = false) :
    (s.itemEnd p).portBusy p = false ∧ (s.itemEnd p).queue q = { s.queue q with disc := none } ∧ (s.itemEnd p).pool = s.pool ∧
      (s.itemEnd p).rd pgQpm R.QPM_FLUSH_DISCARD_words = min (s.rd pgQpm R.QPM_FLUSH_DISCARD_words + n) (2 ^ 32 - 1) ∧
      ((s.itemEnd p).rd pgQpm R.INT_STAT).testBit 3 = true := by
  obtain ⟨hbusy, -, hpool, -, hrd⟩ := endMark_parts s p
  rw [itemEnd_discarding hq hdisc hoff]
  refine ⟨?_, ?_, ?_, ?_, testBit_raise _ (by decide) (by decide) (by decide)⟩
  · rw [raise_pgQpm]
    exact hbusy
  · rw [raise_pgQpm]
    exact queue_setQueue_same ..
  · rw [raise_pgQpm]
    exact hpool
  · rw [rd_raise_pgQpm _ _ (by decide), State.rd_bump, if_pos rfl]
    exact congrArg (fun m => min (m + n) (2 ^ 32 - 1)) (hrd _ _ (by decide))

end

/-! ### Flush (R352, R353) -/

/-- The cells that queue `x` holds, in the order in which a flush frees them. -/
def queueCells (x : Queue) : List Nat := (x.items.map (·.cells)).flatten ++ x.prog.elim [] (·.2.cells)

theorem length_queueCells (x : Queue) : (queueCells x).length = x.count := by
  cases hprog : x.prog <;> simp [queueCells, Queue.count, hprog, List.length_flatten, Function.comp_def]

/-- A flushed queue: no items, and the rest of an item in progress is discarded. -/
def flushed (x : Queue) (passed : Nat) : Queue :=
  { x with items := [], prog := none, disc := x.prog.map (fun p => (p.1, wordsFor p.2.len - passed)) }

/-- The state once queue `q` is flushed, before the end of the flush is told. -/
def emptied (s : State) (q passed : Nat) : State :=
  (({ s with pool := s.pool.free (queueCells (s.queue q)) } : State).setQueue q (flushed (s.queue q) passed)).qCross q

theorem flush_eq {s : State} {q : Nat} (passed : Nat) (hdisc : (s.queue q).disc = none) :
    s.flush q passed = if (s.queue q).prog.isNone then (emptied s q passed).raise pgQpm 8 else emptied s q passed := by
  cases hprog : (s.queue q).prog <;> simp [State.flush, emptied, queueCells, flushed, hdisc, hprog]

/-- Of the registers, a flush changes the queue's crossing fields and QPM_INT_STAT. -/
theorem rd_emptied {s : State} {q passed j : Nat} {g : Fld} (hq : ∀ f ∈ crossed, f.key (iQue q) ≠ g.key j)
    (hint : R.INT_STAT.key pgQpm ≠ g.key j) : (emptied s q passed).rd j g = s.rd j g :=
  rd_qCross hq hint

section
variable {s : State} {q : Nat} (passed : Nat) (hdisc : (s.queue q).disc = none)
include hdisc

/-- The end of a flush is told by an interrupt only. -/
theorem flush_emptied :
    (s.flush q passed).queues = (emptied s q passed).queues ∧ (s.flush q passed).pool = (emptied s q passed).pool ∧
      ∀ j g, R.INT_STAT.key pgQpm ≠ g.key j → (s.flush q passed).rd j g = (emptied s q passed).rd j g := by
  rw [flush_eq passed hdisc]
  split
  · exact ⟨by rw [raise_pgQpm]; rfl, by rw [raise_pgQpm]; rfl, fun _ _ => rd_raise_pgQpm _ _⟩
  · exact ⟨rfl, rfl, fun _ _ _ => rfl⟩

theorem queue_flush : (s.flush q passed).queue q = flushed (s.queue q) passed := by
  obtain ⟨hqueues, -⟩ := flush_emptied passed hdisc
  rw [State.queue, hqueues, ← State.queue, emptied, queue_qCross]
  exact queue_setQueue_same ..

/-- A flush gives the cells of its queue back to the pool. -/
theorem qpmFree_flush (hon : s.poolOn = true) : (s.flush q passed).qpmFree = s.qpmFree + (s.queue q).count := by
  obtain ⟨-, hpool, hrd⟩ := flush_emptied passed hdisc
  have hregs : ∀ g ∈ poolRegs, (s.flush q passed).rd pgQpm g = s.rd pgQpm g := by
    have hkeys : ∀ g ∈ poolRegs, R.INT_STAT.key pgQpm ≠ g.key pgQpm := by decide
    intro g hg
    rw [hrd _ _ (hkeys g hg), rd_emptied (fun _ _ => key_ne (pgQpm_ne_iQue q).symm) (hkeys g hg)]
  have hfreed : (emptied s q passed).pool = s.pool.free (queueCells (s.queue q)) := qCross_pool ..
  rw [qpmFree_of_rd hregs, qpmFree_eq, hpool, hfreed, if_pos hon, if_pos hon, cellsLeft_free, length_queueCells]

/-- A flush changes no queue's QPM_Q_CFG.en. -/
theorem rd_en_flush (n : Nat) : (s.flush q passed).rd (iQue n) R.QPM_Q_CFG_en = s.rd (iQue n) R.QPM_Q_CFG_en := by
  obtain ⟨-, -, hrd⟩ := flush_emptied passed hdisc
  have hkeys : ∀ f ∈ crossed, f.key 0 ≠ R.QPM_Q_CFG_en.key 0 := by decide
  rw [hrd _ _ (key_ne (pgQpm_ne_iQue n)),
    rd_emptied (fun f hf => key_ne_of_place (hkeys f hf) _ _) (key_ne (pgQpm_ne_iQue n))]

/-- With no item in progress a flush is done at once. -/
theorem flush_done (hprog : (s.queue q).prog = none) : ((s.flush q passed).rd pgQpm R.INT_STAT).testBit 3 = true := by
  rw [flush_eq passed hdisc, if_pos (by rw [hprog]; rfl)]
  exact testBit_raise _ (by decide) (by decide) (by decide)

/-- QPM_Q_CFG.en = 0 for an enabled queue flushes it. -/
theorem qCfg_disable {d : Word} (hsel : s.qSel = q) (hen : s.rd (iQue q) R.QPM_Q_CFG_en = 1) :
    s.qCfg (d &&& 0x7FFFFFFF#32) passed =
      ((s.flush q passed).setQueue q { flushed (s.queue q) passed with off := true }).qDisable q := by
  simp only [State.qCfg, bitOf_and_bit31, hsel, State.rdB, hen, queue_flush passed hdisc, Bool.false_eq_true, if_false]
  rfl

end

/-- A queue that is to be disabled is, once nothing of it is discarded. -/
theorem qDisable_of_idle {s : State} {q : Nat} (hoff : (s.queue q).off = true) (hdisc : (s.queue q).disc = none) :
    s.qDisable q = (s.setQueue q { s.queue q with off := false }).wr (iQue q) R.QPM_Q_CFG_en 0 := by
  simp [State.qDisable, hoff, hdisc]

theorem qDisable_of_discarding {s : State} {q : Nat} (hdisc : (s.queue q).disc ≠ none) : s.qDisable q = s := by
  simp [State.qDisable, hdisc]

section
variable {s : State} {q : Nat} {d : Word} (passed : Nat) (hsel : s.qSel = q) (hen : s.rd (iQue q) R.QPM_Q_CFG_en = 1)
  (hdisc : (s.queue q).disc = none)
include hsel hen hdisc

/-- A queue with no item in progress is disabled at once. -/
theorem qCfg_disable_idle (hprog : (s.queue q).prog = none) :
    (s.qCfg (d &&& 0x7FFFFFFF#32) passed).queue q = { flushed (s.queue q) passed with off := false } ∧
      (s.qCfg (d &&& 0x7FFFFFFF#32) passed).rd (iQue q) R.QPM_Q_CFG_en = 0 := by
  have hidle : (flushed (s.queue q) passed).disc = none := by rw [flushed, hprog]; rfl
  rw [qCfg_disable passed hdisc hsel hen, qDisable_of_idle (by rw [queue_setQueue_same]) (by rwa [queue_setQueue_same]),
    queue_setQueue_same]
  exact ⟨queue_setQueue_same .., State.rd_wr_same ..⟩

/-- A queue with an item in progress is disabled once the discarding ends. -/
theorem qCfg_disable_discarding (hprog : (s.queue q).prog ≠ none) :
    (s.qCfg (d &&& 0x7FFFFFFF#32) passed).queue q = { flushed (s.queue q) passed with off := true } ∧
      (s.qCfg (d &&& 0x7FFFFFFF#32) passed).rd (iQue q) R.QPM_Q_CFG_en = 1 := by
  have hdiscarding : (flushed (s.queue q) passed).disc ≠ none := by simpa [flushed] using hprog
  rw [qCfg_disable passed hdisc hsel hen, qDisable_of_discarding (by rwa [queue_setQueue_same])]
  exact ⟨queue_setQueue_same .., (rd_en_flush passed hdisc q).trans hen⟩

end

/-! ### The commands -/

@[simp] theorem domOn_start (s : State) (d : Nat) : s.start.domOn d = s.domOn d := rfl
@[simp] theorem port_start (s : State) (p : Nat) : s.start.port p = s.port p := rfl
@[simp] theorem portBusy_start (s : State) (p : Nat) : s.start.portBusy p = s.portBusy p := rfl
@[simp] theorem portWaits_start (s : State) (p : Nat) : s.start.portWaits p = s.portWaits p := rfl
@[simp] theorem qRefuses_start (s : State) (q c : Nat) : s.start.qRefuses q c = s.qRefuses q c := rfl

section
variable {s : State} {p : Fin 3} (hon : s.domOn 0 = true)
include hon

theorem exec_qpmItemFirstWord (hbusy : s.portBusy p = false) (hwaits : s.portWaits p = false) :
    exec (.qpmItemFirstWord p) s = .next (s.start.portOffer p true) := by
  show execQpmItemFirstWord p s = _
  simp [execQpmItemFirstWord, hon, hbusy, hwaits]

theorem exec_qpmItemRetry (hbusy : s.portBusy p = false) (hwaits : s.portWaits p = true) :
    exec (.qpmItemRetry p) s = .next (s.start.portOffer p false) := by
  show execQpmItemRetry p s = _
  simp [execQpmItemRetry, hon, hbusy, hwaits]

theorem exec_qpmItemEnd (hbusy : s.portBusy p = true) : exec (.qpmItemEnd p) s = .next (s.start.itemEnd p) := by
  show execQpmItemEnd p s = _
  simp [execQpmItemEnd, hon, hbusy]

theorem exec_grdRecordEmit {it : Item} {rest : List Item} (hbusy : s.portBusy 2 = false) (hport : s.port 2 = it :: rest)
    (hen : s.rd (iQue it.queue) R.QPM_Q_CFG_en = 1) (hok : s.qRefuses it.queue (cellsFor it.bytes.length) = false) :
    exec .grdRecordEmit s = .next (s.start.admission 2 it) := by
  show execGrdRecordEmit s = _
  simp [execGrdRecordEmit, hon, hbusy, hport, State.rdB, hen, hok]

end

section
variable {s : State} {r : Req} (d : Word) (passed : Fin 2049)

theorem exec_qpmFlush {q : Nat} (h : Accepts s r pgQpm 0x044) (hsel : s.qSel = q) :
    exec (.qpmFlush r d passed) s = .next (s.start.flush q passed) := by
  subst hsel
  have hcmd : s.start.qCmd (d ||| BitVec.ofNat 32 (2 ^ 31)) passed = s.start.flush s.qSel passed := if_pos (bitOf_or_bit31 d)
  exact congrArg Host.Outcome.next ((State.access_eq (s := s.start) h).trans hcmd)

theorem exec_qpmQueueDisable (h : Accepts s r pgQpm 0x034) :
    exec (.qpmQueueDisable r d passed) s = .next (s.start.qCfg (d &&& 0x7FFFFFFF#32) passed) :=
  congrArg Host.Outcome.next (State.access_eq h)

end

end Sys2Proof.Machine.QueuePool

namespace Sys2Proof.Machine
open BusLedger HostPairs QueuePool

/-- Settles O36: each clause by what its command makes of the queue. That a wait of port 2 on a disabled queue is not counted is log
entry 94; that a flush carries the number of words already passed is log entry 93; when the cells of an item are written, and how a
disable flushes, is log entry 92. -/
theorem poolItemsAndFlush : Obligations.PoolItemsAndFlush := by
  unfold Obligations.PoolItemsAndFlush
  refine ⟨fun s p it rest hon hbusy hwaits hport hen hprog hdisc hmax hfree => ?_,
    fun s p it rest hon hbusy hwaits hport hen hmax => ?_, fun s p it rest hon hbusy hwaits hport hen => ?_,
    fun s p it rest hon hbusy hwaits hport hen hprog hdisc hmax hfree => ?_,
    fun s it rest hon hbusy hport hen hprog hdisc hmax hfree => ?_,
    fun s p q c p' it rest hon hq hwf hport hdisc hprog hlen => ?_, fun s r d passed q hacc hsel hdisc => ?_,
    fun s p q n hon hq hdisc hoff => ?_, fun s r d passed q hacc hsel hen hdisc => ?_⟩
  · refine ⟨_, exec_qpmItemFirstWord hon hbusy hwaits, ?_⟩
    rw [portOffer_admits (s := s.start) hport hen (qRefuses_eq_false hprog hdisc hmax hfree), queue_admission]
    exact ⟨portBusy_admission .., portWaits_admission .., qpmFree_admission _ _ _ hfree, rfl, _, rfl, length_takeN ..⟩
  · obtain ⟨hbusy', hwaits', hport', hqueues, hcount⟩ :=
      portOffer_waits (s := s.start) hport hen (qRefuses_of_limit hmax) p.isLt
    exact ⟨_, exec_qpmItemFirstWord hon hbusy hwaits, hbusy'.trans hbusy, hwaits', hport', hqueues, hcount⟩
  · refine ⟨_, exec_qpmItemFirstWord hon hbusy hwaits, ?_⟩
    by_cases hp : p.val = 2
    · rw [portOffer_disabled (s := s.start) hport hen, if_pos hp]
      exact ⟨rd_wr_inst _ (pgQpm_ne_iQue _) _ _ _, fun hlt => absurd hlt (by omega), fun _ => ⟨rfl, portWaits_portWait _ p.isLt⟩⟩
    · obtain ⟨hrest, hint, hcount, hrd⟩ := portOffer_discards (s := s.start) hport hen hp true
      exact ⟨hrd _ _, fun _ => ⟨hrest, hint, hcount⟩, fun h => absurd (congrArg Fin.val h) hp⟩
  · refine ⟨_, exec_qpmItemRetry hon hbusy hwaits, ?_⟩
    rw [portOffer_admits (s := s.start) hport hen (qRefuses_eq_false hprog hdisc hmax hfree)]
    exact ⟨portBusy_admission .., portWaits_admission .., qpmFree_admission _ _ _ hfree, rd_refuse_admission ..⟩
  · refine ⟨_, exec_grdRecordEmit hon hbusy hport hen (qRefuses_eq_false hprog hdisc hmax hfree), portBusy_admission ..,
      congrArg GrdCh.out (gr_admission_record ..), congrArg GrdCh.wait (gr_admission_record ..), ?_⟩
    exact testBit_raise _ (by decide) (by decide) (by decide)
  · obtain ⟨hfreed, hrest, hqueue, hdata, hcount⟩ := itemEnd_single (s := s.start) hq hwf hport hdisc hprog hlen
    refine ⟨_, exec_qpmItemEnd hon (portBusy_of_portQ hq), hfreed, hrest, ?_⟩
    rw [hqueue]
    exact ⟨rfl, rfl, hdata, hcount⟩
  · refine ⟨_, exec_qpmFlush d passed hacc hsel, ?_⟩
    rw [queue_flush (s := s.start) passed hdisc]
    exact ⟨rfl, rfl, rfl, fun hon => qpmFree_flush (s := s.start) passed hdisc hon,
      fun hprog => ⟨congrArg (Option.map _) hprog, flush_done (s := s.start) passed hdisc hprog⟩,
      fun _ _ hprog => congrArg (Option.map _) hprog, rd_en_flush (s := s.start) passed hdisc _⟩
  · obtain ⟨hfreed, hqueue, hpool, hwords, hint⟩ := itemEnd_discarded (s := s.start) hq hdisc hoff
    refine ⟨_, exec_qpmItemEnd hon (portBusy_of_portQ hq), hfreed, ?_⟩
    rw [hqueue]
    exact ⟨rfl, rfl, hpool, hwords, hint⟩
  · refine ⟨_, exec_qpmQueueDisable d passed hacc, ?_⟩
    by_cases hprog : (s.queue q).prog = none
    · obtain ⟨hqueue, hoff⟩ := qCfg_disable_idle (s := s.start) (d := d) passed hsel hen hdisc hprog
      rw [hqueue]
      exact ⟨rfl, rfl, fun _ => hoff, fun h => absurd hprog h⟩
    · obtain ⟨hqueue, hon⟩ := qCfg_disable_discarding (s := s.start) (d := d) passed hsel hen hdisc hprog
      rw [hqueue]
      exact ⟨rfl, rfl, fun h => absurd h hprog, fun _ => ⟨hon, rfl⟩⟩

end Sys2Proof.Machine
end

section
/-! PROOFS. The event recorder (22_event_recorder_returns.md): O60 holds.

Each operation of the recorder is described once: the three stores of a record, the numbering of the waiting records at the end of the
scan, the read window's sixteen words, and what a report of a rate-limited code comes to. The register facts rest on the places of the
EVR page's fields, and on the groups of the codes standing apart from that page. -/
namespace Sys2Proof.Machine.EventRecorder
open BusLedger QueuePool

/-! ### Registers -/

theorem raise_pgEvr (s : State) (bits : Nat) : s.raise pgEvr bits = s.setBits pgEvr R.INT_STAT bits :=
  raise_eq_setBits (by decide) s bits

@[simp] theorem raise_pgEvr_evr (s : State) (bits : Nat) : (s.raise pgEvr bits).evr = s.evr := by
  rw [raise_pgEvr, State.setBits_evr]

@[simp] theorem raise_pgEvr_mem (s : State) (bits : Nat) : (s.raise pgEvr bits).mem = s.mem := by
  rw [raise_pgEvr, State.setBits_mem]

/-- Raising causes of the recorder changes no other register. -/
theorem rd_raise_pgEvr (s : State) (bits : Nat) {j : Nat} {g : Fld} (h : R.INT_STAT.key pgEvr ≠ g.key j) :
    (s.raise pgEvr bits).rd j g = s.rd j g := by
  rw [raise_pgEvr, State.rd_setBits, if_neg h]

theorem pgEvr_ne_iCode (c : Nat) : pgEvr ≠ iCode c := by
  unfold pgEvr iCode
  omega

/-- A field of one place is another register than a field of another place, in whatever group. -/
theorem rd_wr_place (s : State) {f g : Fld} (h : f.key 0 ≠ g.key 0) (i j v : Nat) : (s.wr i f v).rd j g = s.rd j g :=
  State.rd_wr_other _ _ _ _ _ _ (key_ne_of_place h i j)

/-! ### The three stores of a record (R449, R452) -/

theorem read_writeBytes_above {a b : Nat} {xs : List Byte} (h : a + xs.length ≤ b) (m : Mem) :
    Mem.read (m.writeBytes a xs) b = m.read b := by
  induction xs generalizing m a with
  | nil => rfl
  | cons x xs ih =>
    rw [List.length_cons] at h
    rw [Mem.writeBytes, ih (by omega), Mem.read_write_other (by omega)]

theorem length_bytes (x : EvRec) (q : Nat) : (x.bytes q).length = 60 := by
  simp [EvRec.bytes, length_toBytes, List.range_succ]

/-- The memory once record `x` stands in the slot of sequence `q`: commit cleared, the record, commit. -/
def written (m : Mem) (x : EvRec) (q : Nat) : Mem :=
  Mem.writeBytes (Mem.writeBytes (m.writeBytes (slotAddr q + 60) (toBytes 4 0)) (slotAddr q) (x.bytes q)) (slotAddr q + 60)
    (toBytes 4 (2 ^ 32 - 1 - q))

theorem readBytes_written_record {m : Mem} (hm : m.wf = true) (x : EvRec) (q : Nat) :
    (written m x q).readBytes (slotAddr q) 60 = x.bytes q := by
  rw [written, readBytes_writeBytes_below (Nat.le_refl _)]
  exact length_bytes x q ▸ readBytes_writeBytes (Mem.wf_writeBytes hm) _ _

theorem ofBytes_written_commit {m : Mem} (hm : m.wf = true) (x : EvRec) (q : Nat) :
    ofBytes ((written m x q).readBytes (slotAddr q + 60) 4) = 2 ^ 32 - 1 - q := by
  have hread : (written m x q).readBytes (slotAddr q + 60) 4 = toBytes 4 (2 ^ 32 - 1 - q) :=
    readBytes_writeBytes (xs := toBytes 4 (2 ^ 32 - 1 - q)) (Mem.wf_writeBytes (Mem.wf_writeBytes hm)) _
  rw [hread, ofBytes_toBytes]
  omega

theorem read_written_outside (m : Mem) (x : EvRec) {q a : Nat} (h : a < slotAddr q ∨ slotAddr q + 64 ≤ a) :
    (written m x q).read a = m.read a := by
  obtain hbelow | habove := h
  · rw [written, read_writeBytes_below (by omega), read_writeBytes_below hbelow, read_writeBytes_below (by omega)]
  · have hrecord := length_bytes x q
    have hcommit := length_toBytes 4
    rw [written, read_writeBytes_above (by rw [hcommit]; omega), read_writeBytes_above (by omega),
      read_writeBytes_above (by rw [hcommit]; omega)]

section
variable {s : State} {x : EvRec} {rest : List EvRec} {q : Nat} (hscan : s.evr.scanning = false) (hon : s.domOn 0 = true)
  (hpend : s.evr.pend = x :: rest) (hseq : x.seq = some q)
include hscan hon hpend hseq

theorem evWrite_eq :
    s.evWrite = State.raise { s with
      mem := written s.mem x q
      evr := { s.evr with pend := rest, lowest := some (s.evr.lowest.getD q) } } pgEvr 1 := by
  simp [State.evWrite, hscan, hon, hpend, hseq, State.store, written]

/-- The oldest waiting record is written and leaves the buffer (R452); the first one written is the lowest where none was given before. -/
theorem evWrite_parts :
    s.evWrite.mem = written s.mem x q ∧ s.evWrite.evr = { s.evr with pend := rest, lowest := some (s.evr.lowest.getD q) } ∧
      (s.evWrite.rd pgEvr R.INT_STAT).testBit 0 = true := by
  rw [evWrite_eq hscan hon hpend hseq, raise_pgEvr_mem, raise_pgEvr_evr]
  dsimp only
  exact ⟨rfl, rfl, testBit_raise _ (by decide) (by decide) (by decide)⟩

end

theorem evWrite_idle {s : State} (h : s.evr.scanning = true ∨ s.domOn 0 = false ∨ s.evr.pend = []) : s.evWrite = s := by
  obtain h | h | h := h <;> simp [State.evWrite, h]

/-! ### The start-up scan (R453) -/

theorem length_giveSeqs (q : Nat) (l : List EvRec) : (giveSeqs q l).length = l.length := by
  induction l generalizing q with
  | nil => rfl
  | cons x l ih => rw [giveSeqs, List.length_cons, List.length_cons, ih]

/-- The records take consecutive sequence numbers, modulo 2^32. -/
theorem seq_giveSeqs {q i : Nat} {l : List EvRec} (hq : q < 2 ^ 32) (hi : i < l.length) :
    ((giveSeqs q l).map EvRec.seq).getD i none = some ((q + i) % 2 ^ 32) := by
  induction l generalizing q i with
  | nil => exact absurd hi (Nat.not_lt_zero _)
  | cons x l ih =>
    cases i with
    | zero => exact congrArg some (Nat.mod_eq_of_lt hq).symm
    | succ i =>
      have htail := ih (q := (q + 1) % 2 ^ 32) (Nat.mod_lt _ (by decide)) (Nat.lt_of_succ_lt_succ hi)
      rw [giveSeqs, List.map_cons, List.getD_cons_succ, htail, Nat.mod_add_mod, Nat.add_right_comm, Nat.add_assoc]

/-- The sequence number after the highest of the ring, 0 for an empty ring. -/
def scanNext (s : State) : Nat := (s.validSeqs.max?.map (fun m => (m + 1) % 2 ^ 32)).getD 0

theorem scanNext_lt (s : State) : scanNext s < 2 ^ 32 := by
  unfold scanNext
  cases s.validSeqs.max? with
  | none => decide
  | some m => exact Nat.mod_lt _ (by decide)

/-- The records that wait once the scan has ended: a START_UP record, then those that waited before. -/
theorem scanEnd_pend (s : State) :
    ∃ x : EvRec, x.code = 1 ∧ s.scanEnd.evr.pend = giveSeqs (scanNext s) (x :: s.evr.pend) ∧
      s.scanEnd.evr.next = (scanNext s + s.scanEnd.evr.pend.length) % 2 ^ 32 := by
  unfold State.scanEnd scanNext
  dsimp only
  cases s.validSeqs.max? <;> exact ⟨_, rfl, rfl, rfl⟩

theorem exec_evrScanDone {s : State} (hscan : s.evr.scanning = true) (hon : s.domOn 0 = true) :
    exec .evrScanDone s = .next s.start.scanEnd := by
  show execEvrScanDone s = _
  simp [execEvrScanDone, hscan, hon]

theorem exec_evrScanDone_idle {s : State} (hscan : s.evr.scanning = false) : exec .evrScanDone s = .next s.start := by
  show execEvrScanDone s = _
  simp [execEvrScanDone, hscan]

/-! ### The read window (R456) -/

theorem ofBytes_lt (l : List Byte) : ofBytes l < 256 ^ l.length := by
  induction l with
  | nil => decide
  | cons b l ih =>
    have hb := b.isLt
    rw [ofBytes, List.length_cons, Nat.pow_succ]
    omega

theorem length_readBytes (m : Mem) (a n : Nat) : (m.readBytes a n).length = n := by
  induction n generalizing a with
  | zero => rfl
  | succ n ih => rw [Mem.readBytes, List.length_cons, ih]

theorem ofBytes_load_lt (s : State) (a : Nat) : ofBytes (s.load a 4) < 2 ^ 32 := by
  have h := ofBytes_lt (s.load a 4)
  rwa [State.load, length_readBytes] at h

/-- State `t` with the first `n` words of the slot of `q`, as they stand in the memory of `s`, in the read window. -/
def windowOf (s t : State) (q n : Nat) : State :=
  (List.range n).foldl (fun t n => t.wr pgEvr (R.EVR_RD_DATA_data n) (ofBytes (s.load (slotAddr q + 4 * n) 4))) t

theorem windowOf_succ (s t : State) (q n : Nat) :
    windowOf s t q (n + 1) = (windowOf s t q n).wr pgEvr (R.EVR_RD_DATA_data n) (ofBytes (s.load (slotAddr q + 4 * n) 4)) := by
  simp [windowOf, List.range_succ]

theorem windowOf_parts (s t : State) (q n : Nat) : (windowOf s t q n).evr = t.evr ∧ (windowOf s t q n).mem = t.mem := by
  induction n with
  | zero => exact ⟨rfl, rfl⟩
  | succ n ih => rwa [windowOf_succ]

/-- The window's words stand from 0x40 to 0x7F of the page: a register that stands elsewhere is left. -/
theorem rd_windowOf_other (s t : State) (q : Nat) {n j : Nat} {g : Fld} (h : ∀ k < n, (R.EVR_RD_DATA_data k).key pgEvr ≠ g.key j) :
    (windowOf s t q n).rd j g = t.rd j g := by
  induction n with
  | zero => rfl
  | succ n ih =>
    rw [windowOf_succ, State.rd_wr_other _ _ _ _ _ _ (h n (Nat.lt_succ_self n)), ih fun k hk => h k (Nat.lt_succ_of_lt hk)]

theorem data_key_ne {k n : Nat} (hk : k < 16) (hn : n < 16) (h : k ≠ n) (i : Nat) :
    (R.EVR_RD_DATA_data k).key i ≠ (R.EVR_RD_DATA_data n).key i := by
  simp only [Fld.key, R.EVR_RD_DATA_data]
  omega

theorem rd_windowOf_data (s t : State) (q : Nat) {k n : Nat} (hk : k < n) (hn : n ≤ 16) :
    (windowOf s t q n).rd pgEvr (R.EVR_RD_DATA_data k) = ofBytes (s.load (slotAddr q + 4 * k) 4) := by
  induction n with
  | zero => exact absurd hk (Nat.not_lt_zero _)
  | succ n ih =>
    rw [windowOf_succ]
    by_cases hkn : n = k
    · subst hkn
      rw [State.rd_wr_same]
      exact Nat.mod_eq_of_lt (ofBytes_load_lt ..)
    · rw [State.rd_wr_other _ _ _ _ _ _ (data_key_ne (by omega) (by omega) hkn pgEvr)]
      exact ih (by omega) (by omega)

/-- The state once the requested sequence is noted. -/
def asked (s : State) (q : Nat) : State := s.wr pgEvr R.EVR_RD_SEQ_seq q

/-- A request for a record that is not written yet. -/
theorem readWindow_notYet {s : State} {q : Nat} (h : s.evr.next ≤ q ∨ s.evr.pend.any (fun x => x.seq == some q) = true) :
    s.readWindow q = (asked s q).wr pgEvr R.EVR_RD_STAT_result 3 := if_pos h

section
variable {s : State} {q : Nat} (hnext : q < s.evr.next) (hpend : s.evr.pend.any (fun x => x.seq == some q) = false)
include hnext hpend

/-- A request for a record that is no longer in the ring. -/
theorem readWindow_gone (h : q < s.evrOldest) : s.readWindow q = (asked s q).wr pgEvr R.EVR_RD_STAT_result 2 :=
  (if_neg (not_or.mpr ⟨Nat.not_le.mpr hnext, Bool.eq_false_iff.mp hpend⟩)).trans (if_pos h)

/-- A request for a record of the ring. -/
theorem readWindow_shown (h : s.evrOldest ≤ q) :
    s.readWindow q = (windowOf (asked s q) (asked s q) q 16).wr pgEvr R.EVR_RD_STAT_result 0 := by
  unfold State.readWindow windowOf asked
  dsimp only
  refine (if_neg ?_).trans (if_neg ?_)
  · exact not_or.mpr ⟨Nat.not_le.mpr hnext, Bool.eq_false_iff.mp hpend⟩
  · exact Nat.not_lt.mpr h

end

/-- Whatever the result, a request is noted and changes neither the recorder nor the memory. -/
theorem readWindow_noted (s : State) {q : Nat} (hq : q < 2 ^ 32) :
    (s.readWindow q).rd pgEvr R.EVR_RD_SEQ_seq = q ∧ (s.readWindow q).evr = s.evr ∧ (s.readWindow q).mem = s.mem := by
  have hasked : (asked s q).rd pgEvr R.EVR_RD_SEQ_seq = q := (State.rd_wr_same ..).trans (Nat.mod_eq_of_lt hq)
  have hresult : R.EVR_RD_STAT_result.key 0 ≠ R.EVR_RD_SEQ_seq.key 0 := by decide
  by_cases hwait : s.evr.next ≤ q ∨ s.evr.pend.any (fun x => x.seq == some q) = true
  · rw [readWindow_notYet hwait]
    exact ⟨(rd_wr_place _ hresult ..).trans hasked, rfl, rfl⟩
  · obtain ⟨hnext, hpend⟩ := not_or.mp hwait
    rw [Nat.not_le] at hnext
    rw [Bool.not_eq_true] at hpend
    by_cases hgone : q < s.evrOldest
    · rw [readWindow_gone hnext hpend hgone]
      exact ⟨(rd_wr_place _ hresult ..).trans hasked, rfl, rfl⟩
    · rw [readWindow_shown hnext hpend (Nat.not_lt.mp hgone)]
      obtain ⟨hevr, hmem⟩ := windowOf_parts (asked s q) (asked s q) q 16
      refine ⟨(rd_wr_place _ hresult ..).trans ((rd_windowOf_other _ _ _ ?_).trans hasked),
        (State.wr_evr ..).trans hevr, (State.wr_mem ..).trans hmem⟩
      decide

/-- A request for a record of the ring reads OK and shows the slot. -/
theorem readWindow_shows {s : State} {q : Nat} (hnext : q < s.evr.next) (hpend : s.evr.pend.any (fun x => x.seq == some q) = false)
    (h : s.evrOldest ≤ q) :
    (s.readWindow q).rd pgEvr R.EVR_RD_STAT_result = 0 ∧
      ∀ n < 16, (s.readWindow q).rd pgEvr (R.EVR_RD_DATA_data n) = ofBytes (s.load (slotAddr q + 4 * n) 4) := by
  rw [readWindow_shown hnext hpend h]
  refine ⟨State.rd_wr_same .., fun n hn => ?_⟩
  have hkey : R.EVR_RD_STAT_result.key pgEvr ≠ (R.EVR_RD_DATA_data n).key pgEvr := by
    simp only [Fld.key, R.EVR_RD_DATA_data, R.EVR_RD_STAT_result]
    omega
  rw [State.rd_wr_other _ _ _ _ _ _ hkey]
  exact rd_windowOf_data _ _ _ hn (Nat.le_refl _)

theorem exec_evrReadWindow {s : State} {r : Req} (d : Word) (h : Accepts s r pgEvr 0x02C) :
    exec (.evrReadWindow r d) s = .next (s.start.readWindow d.toNat) :=
  congrArg Host.Outcome.next (State.access_eq h)

/-! ### The rate limit (R451, R454, R487) -/

/-- A suppressed event is counted for its code, and the recorder is left. -/
theorem suppressed_parts (s : State) (c : Nat) :
    let t := (s.bump (iCode c) R.EVR_RL_STAT_suppressed 1).raise pgEvr 4
    t.evr = s.evr ∧
      t.rd (iCode c) R.EVR_RL_STAT_suppressed = min (s.rd (iCode c) R.EVR_RL_STAT_suppressed + 1) (2 ^ R.EVR_RL_STAT_suppressed.w - 1) ∧
      (t.rd pgEvr R.INT_STAT).testBit 2 = true := by
  refine ⟨raise_pgEvr_evr .., ?_, testBit_raise _ (by decide) (by decide) (by decide)⟩
  rw [rd_raise_pgEvr _ _ (key_ne (pgEvr_ne_iCode c)), State.rd_bump, if_pos rfl]

/-- A lost event is counted and marks the next record. -/
theorem evLost_parts (s : State) :
    s.evLost.evr = { s.evr with lostFlag := true } ∧
      s.evLost.rd pgEvr R.EVR_LOST_count = min (s.rd pgEvr R.EVR_LOST_count + 1) (2 ^ 32 - 1) ∧
      (s.evLost.rd pgEvr R.INT_STAT).testBit 1 = true := by
  have hrd (f : Fld) : s.evLost.rd pgEvr f = ((s.bump pgEvr R.EVR_LOST_count 1).raise pgEvr 2).rd pgEvr f := rfl
  refine ⟨congrArg (fun e : Evr => { e with lostFlag := true }) (raise_pgEvr_evr ..), ?_, ?_⟩
  · rw [hrd, rd_raise_pgEvr _ _ (by decide), State.rd_bump, if_pos rfl]
    rfl
  · rw [hrd]
    exact testBit_raise _ (by decide) (by decide) (by decide)

/-- A record does not show the tokens of its code. -/
theorem mkEvent_wr_tokens (s : State) (i v code source index : Nat) (data : List Nat) (supp : Nat) :
    (s.wr i R.EVR_RL_STAT_tokens v).mkEvent code source index data supp = s.mkEvent code source index data supp := by
  have hholdover : R.EVR_RL_STAT_tokens.key 0 ≠ R.PTP_STAT_holdover.key 0 := by decide
  have hcycles : R.EVR_RL_STAT_tokens.key 0 ≠ R.RST_PWRCYC_count.key 0 := by decide
  simp [State.mkEvent, State.nowStamp, State.freeVal, rd_wr_place _ hholdover, rd_wr_place _ hcycles]

/-- Outside the scan an event that finds room takes the next sequence number, and the count of suppressed events begins again. -/
theorem evQueue_room {s : State} (hroom : s.evr.pend.length < 32) (hscan : s.evr.scanning = false) (c source index : Nat)
    (data : List Nat) :
    let t := s.evQueue c source index data
    t.evr.next = (s.evr.next + 1) % 2 ^ 32 ∧ t.rd (iCode c) R.EVR_RL_STAT_suppressed = 0 ∧
      t.evr.pend = s.evr.pend ++
        [{ s.mkEvent c source index data (s.rd (iCode c) R.EVR_RL_STAT_suppressed) with seq := some s.evr.next }] := by
  have hnot : ¬32 ≤ s.evr.pend.length := Nat.not_le.mpr hroom
  simp only [State.evQueue, ge_iff_le, if_neg hnot, hscan]
  exact ⟨rfl, State.rd_wr_same .., rfl⟩

section
variable {s : State} {c : Nat} (source index : Nat) (data : List Nat) (hlimited : exemptCode c = false) (hon : s.domOn 0 = true)
  (hen : s.rd pgEvr (R.CTRL_enable pgEvr) = 1) (hready : s.rd pgEvr R.STAT_reset_busy = 0)
include hlimited hon hen hready

/-- A code without a token is suppressed. -/
theorem report_suppressed (hnone : s.rd (iCode c) R.EVR_RL_STAT_tokens = 0 ∨ s.rd (iCode c) R.EVR_RL_CFG_burst = 0) :
    s.report c source index data = (s.bump (iCode c) R.EVR_RL_STAT_suppressed 1).raise pgEvr 4 := by
  have htok : min (s.rd (iCode c) R.EVR_RL_STAT_tokens) (s.rd (iCode c) R.EVR_RL_CFG_burst) = 0 := by omega
  simp [State.report, hlimited, hon, State.rdB, hen, hready, htok]

/-- A code with a token spends one, and the event goes to the buffer. -/
theorem report_queued (htokens : s.rd (iCode c) R.EVR_RL_STAT_tokens ≠ 0) (hburst : s.rd (iCode c) R.EVR_RL_CFG_burst ≠ 0) :
    ∃ v, s.report c source index data = (s.wr (iCode c) R.EVR_RL_STAT_tokens v).evQueue c source index data := by
  have htok : min (s.rd (iCode c) R.EVR_RL_STAT_tokens) (s.rd (iCode c) R.EVR_RL_CFG_burst) ≠ 0 := by omega
  refine ⟨min (s.rd (iCode c) R.EVR_RL_STAT_tokens) (s.rd (iCode c) R.EVR_RL_CFG_burst) - 1, ?_⟩
  simp only [State.report, hlimited, hon, State.rdB, hen, hready, if_neg htok]
  rfl

/-- An event that finds the buffer full is counted as lost and marks the next record. -/
theorem report_lost (htokens : s.rd (iCode c) R.EVR_RL_STAT_tokens ≠ 0) (hburst : s.rd (iCode c) R.EVR_RL_CFG_burst ≠ 0)
    (hfull : 32 ≤ s.evr.pend.length) :
    let t := s.report c source index data
    t.evr.pend = s.evr.pend ∧ t.evr.lostFlag = true ∧
      t.rd pgEvr R.EVR_LOST_count = min (s.rd pgEvr R.EVR_LOST_count + 1) (2 ^ 32 - 1) ∧ (t.rd pgEvr R.INT_STAT).testBit 1 = true := by
  obtain ⟨v, hqueued⟩ := report_queued source index data hlimited hon hen hready htokens hburst
  have hlost : s.report c source index data = (s.wr (iCode c) R.EVR_RL_STAT_tokens v).evLost := hqueued.trans (if_pos hfull)
  obtain ⟨hevr, hcount, hint⟩ := evLost_parts (s.wr (iCode c) R.EVR_RL_STAT_tokens v)
  dsimp only
  rw [hlost, hevr, hcount, rd_wr_place _ (by decide)]
  exact ⟨rfl, rfl, rfl, hint⟩

/-- An event of a code with a token is recorded where it finds room. -/
theorem report_recorded (htokens : s.rd (iCode c) R.EVR_RL_STAT_tokens ≠ 0) (hburst : s.rd (iCode c) R.EVR_RL_CFG_burst ≠ 0)
    (hroom : s.evr.pend.length < 32) (hscan : s.evr.scanning = false) :
    let t := s.report c source index data
    t.evr.next = (s.evr.next + 1) % 2 ^ 32 ∧ t.rd (iCode c) R.EVR_RL_STAT_suppressed = 0 ∧
      t.evr.pend = s.evr.pend ++
        [{ s.mkEvent c source index data (s.rd (iCode c) R.EVR_RL_STAT_suppressed) with seq := some s.evr.next }] := by
  obtain ⟨v, hqueued⟩ := report_queued source index data hlimited hon hen hready htokens hburst
  obtain ⟨hnext, hsupp, hpend⟩ :=
    evQueue_room (s := s.wr (iCode c) R.EVR_RL_STAT_tokens v) hroom hscan c source index data
  dsimp only
  rw [hqueued]
  refine ⟨hnext, hsupp, hpend.trans ?_⟩
  rw [rd_wr_place _ (by decide), mkEvent_wr_tokens]
  rfl

end

/-! ### Software records (R457) -/

theorem exempt_software {c : Nat} (h : 0xF0 ≤ c) : exemptCode c = false := by
  simp [exemptCode]
  omega

section
variable {s : State} {r : Req} {d : Word} (h : Accepts s r pgEvr 0x080)
include h

theorem exec_evrSwRecord_code (hcode : 0xF0 ≤ d.toNat % 256) :
    exec (.evrSwRecord r d) s = .next (s.start.report (d.toNat % 256) pgEvr (s.rd (iReq (reqId r)) R.EVR_SW_INDEX_index)
      ((List.range 7).map (fun n => s.rd (iReq (reqId r)) (R.EVR_SW_DATA_data n)))) :=
  congrArg Host.Outcome.next ((State.access_eq (s := s.start) h).trans (if_pos hcode))

theorem exec_evrSwRecord_other (hcode : d.toNat % 256 < 0xF0) : exec (.evrSwRecord r d) s = .next (s.start.raise pgEvr 8) :=
  congrArg Host.Outcome.next ((State.access_eq (s := s.start) h).trans (if_neg (Nat.not_le.mpr hcode)))

end

end Sys2Proof.Machine.EventRecorder

namespace Sys2Proof.Machine
open EventRecorder BusLedger QueuePool

/-- Settles O60: each clause by what its operation makes of the recorder. That the lowest record is the first one written, where the scan
has given none, is log entry 112. -/
theorem eventRecorder : Obligations.EventRecorder := by
  unfold Obligations.EventRecorder
  refine ⟨fun s x rest q hwf hscan hon hpend hseq => ?_, fun s hidle => ⟨_, rfl, evWrite_idle (s := s.start) hidle⟩,
    fun s hscan hon => ?_, fun s hscan => ⟨_, exec_evrScanDone_idle hscan, rfl⟩,
    fun s c => ⟨_, rfl, State.rd_wr_same .., rd_wr_place _ (by decide) ..⟩, fun s r d hacc => ?_,
    fun s r d hacc hcode hon hen hready hnone => ?_, fun s r d hacc hcode hon hen hready htokens hburst hfull => ?_,
    fun s r d hacc hcode hon hen hready htokens hburst hroom hscan => ?_, fun s r d hacc hcode => ?_⟩
  · obtain ⟨hmem, hevr, hint⟩ := evWrite_parts (s := s.start) hscan hon hpend hseq
    refine ⟨_, rfl, ?_⟩
    rw [State.load, State.load, hmem, hevr]
    exact ⟨readBytes_written_record hwf x q, ofBytes_written_commit hwf x q, fun a ha => read_written_outside _ x ha, rfl, rfl, rfl, hint⟩
  · obtain ⟨x, hcode, hwaiting, hnext⟩ := scanEnd_pend s.start
    have hlen : s.start.scanEnd.evr.pend.length = s.evr.pend.length + 1 := by rw [hwaiting, length_giveSeqs]; rfl
    refine ⟨_, exec_evrScanDone hscan hon, rfl, rfl, rfl, rfl, ?_, hlen, ⟨?_, fun i hi => ?_⟩, rfl⟩
    · rw [hwaiting]
      exact congrArg some hcode
    · rw [hnext, hlen]
      rfl
    · rw [hwaiting] at hi ⊢
      exact seq_giveSeqs (scanNext_lt _) (length_giveSeqs _ _ ▸ hi)
  · obtain ⟨hseq, hevr, hmem⟩ := readWindow_noted s.start d.isLt
    refine ⟨_, exec_evrReadWindow d hacc, hseq, hevr, hmem, fun hnext => ?_, fun hwaits => ?_, fun hnext hpend hgone => ?_,
      fun hnext hpend hold => readWindow_shows (s := s.start) hnext hpend hold⟩
    · rw [readWindow_notYet (s := s.start) (.inl hnext), State.rd_wr_same]
      rfl
    · rw [readWindow_notYet (s := s.start) (.inr hwaits), State.rd_wr_same]
      rfl
    · rw [readWindow_gone (s := s.start) hnext hpend hgone, State.rd_wr_same]
      rfl
  · refine ⟨_, exec_evrSwRecord_code hacc hcode, ?_⟩
    rw [report_suppressed (s := s.start) _ _ _ (exempt_software hcode) hon hen hready hnone]
    exact suppressed_parts s.start (d.toNat % 256)
  · exact ⟨_, exec_evrSwRecord_code hacc hcode,
      report_lost (s := s.start) _ _ _ (exempt_software hcode) hon hen hready htokens hburst hfull⟩
  · obtain ⟨hnext, hsupp, hpend⟩ :=
      report_recorded (s := s.start) _ _ _ (exempt_software hcode) hon hen hready htokens hburst hroom hscan
    exact ⟨_, exec_evrSwRecord_code hacc hcode, hnext, hsupp, _, hpend, rfl, rfl, rfl, rfl, rfl, rfl, rfl⟩
  · exact ⟨_, exec_evrSwRecord_other hacc hcode, raise_pgEvr_evr .., testBit_raise _ (by decide) (by decide) (by decide)⟩

end Sys2Proof.Machine
end
